-- ==== Sys2Proof/Word.lean ====
section
/-!
DEFINITION. The word types of the machine and their plainest arithmetic (spec/00 R5, spec/03 R50, R51).
-/

namespace Sys2Proof

/-- A 64-bit register value (spec/01 R12). -/
abbrev Word := BitVec 64

/-- A byte of memory. -/
abbrev Byte := BitVec 8

/-- A sparse table keyed by number: an entry not listed holds the table's default. -/
abbrev Tab (α : Type) := List (Nat × α)

/-- The name of one of the 32 g registers. -/
abbrev Reg := BitVec 5

/-- Wrap of R51: the low `w` bits of an integer, as a natural number. -/
def wrapN (x : Int) (w : Nat) : Nat := (x % (2 ^ w : Nat)).toNat

/-- SWrap of R51: the low `w` bits of an integer read as two's complement. -/
def swrap (x : Int) (w : Nat) : Int :=
  let y := wrapN x w
  if y ≥ 2 ^ (w - 1) then (y : Int) - 2 ^ w else y

/-- SatS of R51. -/
def satS (x : Int) (w : Nat) : Int := min (max x (-(2 ^ (w - 1) : Nat))) (2 ^ (w - 1) - 1 : Nat)

/-- SatN of R51. -/
def satN (x : Int) (w : Nat) : Int := min (max x 0) (2 ^ w - 1 : Nat)

/-- An exact integer wrapped into a register. -/
def toWord (x : Int) : Word := BitVec.ofInt 64 x

/-- Bits [63:57] all equal to bit 56: a canonical virtual address (spec/04 R93). -/
def canonical (x : Word) : Bool := (x.extractLsb' 56 8 == 0#8) || (x.extractLsb' 56 8 == 255#8)

/-- Bits [1:0] zero. -/
def parcelAligned (x : Word) : Bool := x.extractLsb' 0 2 == 0#2

end Sys2Proof
end

