-- ==== Sys2Proof/Syntax.lean ====
section
/-!
DEFINITION. The instructions and events of the device: one constructor of Instr for every row of the opcode
table, in the order of the table, with those that carry no fields last. Words of strands and of the Newt carry the fields of their encodings (spec/02);
events carry what the spec says they name (which core, strand, die, queue, register value or message).
-/

namespace Sys2Proof

/-- The four strands of a core, spec/01 R10. -/
inductive StrandIx where
  | s | l | c | w
deriving DecidableEq, Repr

/-- The annotations every word of a strand carries: the sync bit Y and the token field TKL, TKR, GVL, GVR
(bits 3 to 0 of `t`), spec/02 R31, R32. -/
structure Ann where
  y : Bool
  t : BitVec 4
deriving DecidableEq, Repr

/-- A vector operand: base register, offset in 16-byte units, stride code (spec/02 R40). -/
structure VOpd where
  base : Reg
  off  : BitVec 10
  str  : BitVec 5
deriving DecidableEq, Repr

/-- The fields of a vector word other than its VOP (spec/02 R39). -/
structure VWord where
  n    : Ann
  vlen : BitVec 10
  vlg  : Bool
  et   : BitVec 4
  rm   : BitVec 3
  d    : VOpd
  a    : VOpd
  b    : VOpd
deriving DecidableEq, Repr

/-- The fields of a matrix word other than its MOP and its reserved bits [63:0] (spec/02 R44). -/
structure MWord where
  n      : Ann
  mc     : BitVec 2
  nf     : BitVec 6
  fsel   : BitVec 6
  sa     : Bool
  sb     : Bool
  abase  : Reg
  aoff   : BitVec 16
  apitch : BitVec 10
  acc    : BitVec 14
  col    : BitVec 10
  ovw    : Bool
  spec   : BitVec 43
deriving DecidableEq, Repr

/-- The kind of an access, as a page walk asks for it (spec/15 R304). -/
inductive AccKind where
  | read | write | rmw | fetch
deriving DecidableEq, Repr

/-- The response codes of a PRG Response Message (spec/15 R312). -/
inductive PrgCode where
  | success | invalid | failure
deriving DecidableEq, Repr

/-- What a collective's parties tell each other (spec/21 R424): CLKEY, SEQ, the sender and its rank, and the
fields that reason 4 compares. `words` is the sender's data, element bytes of its SRC, once it moves. -/
structure ReadyMsg where
  clkey : Word
  seq   : BitVec 32
  pkg   : BitVec 16
  die   : BitVec 3
  rank  : BitVec 6
  op    : BitVec 4
  et    : BitVec 4
  wide  : Bool
  count : Nat
  nrank : BitVec 7
  root  : BitVec 6
deriving DecidableEq, Repr

/-- One row of the opcode table each. -/
inductive Instr where
  -- one-parcel words (spec/02 R35)
  | nop (n : Ann)
  | add (n : Ann) (d a b : Reg) (w : Bool)
  | sub (n : Ann) (d a b : Reg) (w : Bool)
  | and (n : Ann) (d a b : Reg) (w : Bool)
  | or (n : Ann) (d a b : Reg) (w : Bool)
  | xor (n : Ann) (d a b : Reg) (w : Bool)
  | shl (n : Ann) (d a b : Reg) (w : Bool)
  | shr (n : Ann) (d a b : Reg) (w : Bool)
  | sra (n : Ann) (d a b : Reg) (w : Bool)
  | mul (n : Ann) (d a b : Reg) (w : Bool)
  | mulh (n : Ann) (d a b : Reg) (u : Bool)
  | div (n : Ann) (d a b : Reg) (u : Bool)
  | rem (n : Ann) (d a b : Reg) (u : Bool)
  | min (n : Ann) (d a b : Reg) (u : Bool)
  | max (n : Ann) (d a b : Reg) (u : Bool)
  | slt (n : Ann) (d a b : Reg) (u : Bool)
  | seq (n : Ann) (d a b : Reg)
  | sne (n : Ann) (d a b : Reg)
  | csel (n : Ann) (d a b : Reg) (z : Bool)
  | clz (n : Ann) (d a : Reg) (w : Bool)
  | ctz (n : Ann) (d a : Reg) (w : Bool)
  | popc (n : Ann) (d a : Reg) (w : Bool)
  | bswap (n : Ann) (d a : Reg) (w : Bool)
  | addx (n : Ann) (d a b : Reg) (sh : BitVec 3)
  | ext (n : Ann) (d a b : Reg) (sg : Bool)
  | ins (n : Ann) (d a b : Reg)
  | addi (n : Ann) (d a : Reg) (i : BitVec 8)
  | andi (n : Ann) (d a : Reg) (i : BitVec 8)
  | ori (n : Ann) (d a : Reg) (i : BitVec 8)
  | xori (n : Ann) (d a : Reg) (i : BitVec 8)
  | shli (n : Ann) (d a : Reg) (w : Bool) (sh : BitVec 6)
  | shri (n : Ann) (d a : Reg) (w : Bool) (sh : BitVec 6)
  | srai (n : Ann) (d a : Reg) (w : Bool) (sh : BitVec 6)
  | slti (n : Ann) (d a : Reg) (i : BitVec 8)
  | li (n : Ann) (d : Reg) (i : BitVec 13)
  | lis (n : Ann) (d : Reg) (i : BitVec 13)
  | addpc (n : Ann) (d : Reg) (i : BitVec 13)
  | jmp (n : Ann) (o : BitVec 18)
  | call (n : Ann) (o : BitVec 18)
  | jr (n : Ann) (a : Reg)
  | bz (n : Ann) (a : Reg) (o : BitVec 13)
  | bnz (n : Ann) (a : Reg) (o : BitVec 13)
  | bltz (n : Ann) (a : Reg) (o : BitVec 13)
  | bgez (n : Ann) (a : Reg) (o : BitVec 13)
  | loop (n : Ann) (lp : Bool) (c : Reg) (e : BitVec 9)
  | loopi (n : Ann) (lp : Bool) (k : BitVec 8) (e : BitVec 9)
  | seam (n : Ann)
  | ldS8 (n : Ann) (d a : Reg) (i : BitVec 8)
  | ldS16 (n : Ann) (d a : Reg) (i : BitVec 8)
  | ldS32 (n : Ann) (d a : Reg) (i : BitVec 8)
  | ldN8 (n : Ann) (d a : Reg) (i : BitVec 8)
  | ldN16 (n : Ann) (d a : Reg) (i : BitVec 8)
  | ldN32 (n : Ann) (d a : Reg) (i : BitVec 8)
  | ldD (n : Ann) (d a : Reg) (i : BitVec 8)
  | ldQ (n : Ann) (d : BitVec 4) (a : Reg) (i : BitVec 8)
  | stB (n : Ann) (d a : Reg) (i : BitVec 8)
  | stH (n : Ann) (d a : Reg) (i : BitVec 8)
  | stW (n : Ann) (d a : Reg) (i : BitVec 8)
  | stD (n : Ann) (d a : Reg) (i : BitVec 8)
  | stQ (n : Ann) (d : BitVec 4) (a : Reg) (i : BitVec 8)
  | gld (n : Ann) (d a : Reg) (sc : BitVec 3) (ord q : Bool)
  | gst (n : Ann) (d a : Reg) (sc : BitVec 3) (ord q : Bool)
  | fence (n : Ann) (kind : BitVec 2) (sc : BitVec 3)
  | tkgive (y : Bool) (f : BitVec 3)
  | tktake (y : Bool) (f : BitVec 3)
  | tkcount (y : Bool) (d : Reg) (f : BitVec 3)
  | tglook (n : Ann) (d a : Reg)
  | tgset (n : Ann) (a b : Reg)
  | tgclr (n : Ann) (b : Reg)
  | tgclrAll (n : Ann)
  | evpop (y : Bool) (d : Reg)
  | evpoll (y : Bool) (d : Reg)
  | stgo (y : Bool) (d a : Reg) (k : BitVec 2)
  | stwait (y : Bool) (m : BitVec 3)
  | ststop (y : Bool) (m : BitVec 3)
  | cpshape (n : Ann) (h : BitVec 4) (sr gr : Reg)
  | cporg (n : Ann) (h : BitVec 4) (gr : Reg) (dim : BitVec 4)
  | cpstep (n : Ann) (h : BitVec 4) (gr : Reg) (dim : BitVec 4)
  | cpld (n : Ann) (h : BitVec 4) (sr gr : Reg) (ev : Bool)
  | cpst (n : Ann) (h : BitVec 4) (sr gr : Reg) (ev : Bool)
  | cpldm (n : Ann) (h : BitVec 4) (sr gr : Reg) (ev : Bool)
  | cpgat (n : Ann) (h : BitVec 4) (sr : Reg) (gr : BitVec 4) (ev : Bool)
  | cpsca (n : Ann) (h : BitVec 4) (sr : Reg) (gr : BitVec 4) (ev : Bool)
  | cpaccAdd (n : Ann) (h : BitVec 4) (sr gr : Reg) (ev : Bool)
  | cpaccMin (n : Ann) (h : BitVec 4) (sr gr : Reg) (ev : Bool)
  | cpaccMax (n : Ann) (h : BitVec 4) (sr gr : Reg) (ev : Bool)
  | cpaccAnd (n : Ann) (h : BitVec 4) (sr gr : Reg) (ev : Bool)
  | cpaccOr (n : Ann) (h : BitVec 4) (sr gr : Reg) (ev : Bool)
  | cpaccXor (n : Ann) (h : BitVec 4) (sr gr : Reg) (ev : Bool)
  | cpaccXchg (n : Ann) (h : BitVec 4) (sr gr : Reg) (ev : Bool)
  | cpaccCas (n : Ann) (h : BitVec 4) (sr gr : Reg) (ev : Bool)
  | cpfill (n : Ann) (h : BitVec 4) (gr : Reg) (ev : Bool)
  | cpfillScr (n : Ann) (h : BitVec 4) (gr : Reg) (ev : Bool)
  | cpres (n : Ann) (sr gr : Reg) (ev : Bool)
  | cpreg (n : Ann) (sr gr : Reg) (ev : Bool)
  | cpsig (n : Ann) (gr : Reg) (ev : Bool) (j : BitVec 3)
  | cptag (n : Ann) (h : BitVec 4) (sr gr : Reg) (ev : Bool)
  | cpdrain (n : Ann) (ev : Bool)
  | cpdrainBoth (n : Ann) (ev : Bool)
  | tspawn (y : Bool) (a b : Reg)
  | tdone (y : Bool)
  | tchk (y : Bool) (d : Reg)
  | asdecl (y : Bool) (id a b : Reg)
  | asdeclRm (y : Bool) (id : Reg)
  | asabort (y : Bool)
  | asstatSt (y : Bool) (d : Reg)
  | asstatAge (y : Bool) (d : Reg)
  | asstatSet (y : Bool) (d a : Reg)
  | barr (y : Bool) (a : Reg) (b : BitVec 5)
  | bwait (y : Bool) (a : Reg) (b : BitVec 5)
  | btest (y : Bool) (d : Reg) (b : BitVec 5)
  | coll (y : Bool) (d a : Reg)
  | collwait (y : Bool) (a : Reg)
  | sysget (n : Ann) (d : Reg) (r : BitVec 8)
  | sysset (n : Ann) (a : Reg) (r : BitVec 8)
  | trap (n : Ann) (a : Reg) (k : BitVec 8)
  | brk (n : Ann) (k : BitVec 8)
  | tret (y : Bool)
  | idle (y : Bool)
  -- vector words (spec/02 R43)
  | vadd (v : VWord) | vsub (v : VWord) | vmul (v : VWord) | vfma (v : VWord) | vfms (v : VWord)
  | vmin (v : VWord) | vmax (v : VWord) | vabs (v : VWord) | vneg (v : VWord)
  | vand (v : VWord) | vor (v : VWord) | vxor (v : VWord)
  | vshl (v : VWord) | vshr (v : VWord) | vsra (v : VWord)
  | vcmpEq (v : VWord) | vcmpLt (v : VWord) | vcmpLe (v : VWord) | vsel (v : VWord)
  | vcvt (v : VWord)
  | vrecip (v : VWord) | vrsqrt (v : VWord) | vsqrt (v : VWord) | vexp2 (v : VWord) | vlog2 (v : VWord)
  | vdiv (v : VWord)
  | vredSum (v : VWord) | vredMax (v : VWord) | vredMin (v : VWord) | vdot (v : VWord)
  | vcopy (v : VWord) | vperm (v : VWord) | viota (v : VWord)
  | vmxpack (v : VWord) | vmxunpack (v : VWord) | vseed (v : VWord)
  -- matrix words (spec/02 R46)
  | mxstat (m : MWord) | mxstatT (m : MWord) | mxflip (m : MWord) | mxstream (m : MWord)
  | mxswap (m : MWord) | mxread (m : MWord) | mxreadFlags (m : MWord) | mxwrite (m : MWord)
  | mxwriteFlags (m : MWord) | mxclear (m : MWord) | mxclearAll (m : MWord) | mxclearFlags (m : MWord)
  | mxclearAllFlags (m : MWord) | mxfmt (m : MWord)
  -- Newt words (spec/02 R47, spec/18 R367)
  | nget (d : BitVec 4) (f : BitVec 3)
  | nli (d : BitVec 4) (i : BitVec 15)
  | nadd (d a b : BitVec 4) (x : Bool) (i : BitVec 14)
  | nsub (d a b : BitVec 4) (x : Bool) (i : BitVec 14)
  | nand (d a b : BitVec 4) (x : Bool) (i : BitVec 14)
  | nor (d a b : BitVec 4) (x : Bool) (i : BitVec 14)
  | nshl (d a b : BitVec 4) (x : Bool) (i : BitVec 14)
  | nshr (d a b : BitVec 4) (x : Bool) (i : BitVec 14)
  | nmin (d a b : BitVec 4) (x : Bool) (i : BitVec 14)
  | nmax (d a b : BitVec 4) (x : Bool) (i : BitVec 14)
  | ncmp (d a b : BitVec 4) (x : Bool) (i : BitVec 14)
  | nbf (a : BitVec 4) (c : BitVec 2) (o : BitVec 6)
  | nbin (d a : BitVec 4) (m : Bool) (sh : BitVec 5) (u : BitVec 9)
  | nhinc (d a b : BitVec 4) (e : BitVec 10)
  | nskt (a b : BitVec 4) (k : BitVec 4) (e : BitVec 10)
  | nsktq (d a : BitVec 4) (k : BitVec 4) (e : BitVec 10)
  | ntrig (a : BitVec 4) (i : BitVec 8) (c : BitVec 3)
  | nmark (a : BitVec 4) (t : BitVec 8)
  -- events of cores (spec/95)
  | watchpoint (core : Nat) (i : Nat)
  | uncorrectableError (pa : Nat)
  | pageWalk (core : Nat) (va : Word) (kind : AccKind)
  | prgResponse (vf : Nat) (pasid : BitVec 20) (ix : Nat) (code : PrgCode)
  | atsTranslationCompletion (vf : Nat) (ioPage : Nat) (ok : Bool) (pa : Nat)
  | atsInvalidateRequest (vf : Nat) (ioPage : Nat)
  | tinvnWrite (vf : Nat) (v : Word)
  | invalidationComplete (vf : Nat)
  | multicastDelivery (core : Nat) (dest : Nat)
  -- atomic sets (spec/14)
  | setRequest (core : Nat) (va : Word)
  | setGrant (vf : Nat) (ix : Nat)
  -- launch queues, walker, tasks (spec/16, spec/17)
  | qsubWrite (die q : Nat) (v : Word)
  | queueEnable (die q : Nat) (v : Word)
  | queueDisable (die q : Nat)
  | qwdogWrite (die q : Nat) (v : Word)
  | queueTake (die q : Nat)
  | signal (vf : Nat) (link : Word)
  | poison (vf : Nat) (link : Word)
  | futureAbandon (vf : Nat) (futa : Word)
  | refillTick (die : Nat)
  | watchdog (die q : Nat)
  | budgetRefill (die : Nat)
  -- Newt and trace (spec/18)
  | newtEventArrival (die : Nat)
  | newtRun (die slot : Nat)
  | newtSlotEnable (die slot : Nat) (v : Word)
  | newtSlotDisable (die slot : Nat) (v : Word)
  | ntctlWrite (die vf : Nat) (v : Word)
  -- functions, registers, mailbox (spec/19, spec/20)
  | featselWrite (vf : Nat) (v : BitVec 128)
  | featuresTakeEffect (vf : Nat)
  | vfpartWrite (vf : Nat) (v : Word)
  | registerWrite (pf : Bool) (vf : Nat) (off : Nat) (v : Word)
  | update (image : List Byte)
  | vfReset (vf : Nat)
  | packageReset (record : List Byte)
  | selftestComplete (die : Nat) (pass : Bool)
  | hbmTrainingComplete (die : Nat) (upper : Bool)
  | throttle (die : Nat) (slow : Bool)
  | dieOvertemp (die : Nat)
  | linkDown (l : Nat)
  -- the host and the fabric (spec/19, spec/21)
  | hostMemWrite (off : Nat) (bytes : List Byte)
  | hostMemRead (off n : Nat)
  | hostSnoop (hpa : Nat)
  | cxlCacheCompletion (id : Nat)
  | collectiveReady (die : Nat) (m : ReadyMsg)
  | collectiveAbort (die : Nat) (clkey : Word) (sq : BitVec 32)
  | collectiveDeadline (die : Nat) (id : Nat)
  | collectiveComplete (die : Nat) (id : Nat)
  | zwivelPortDown (p : Nat)
  | unassignedWord (p0 : BitVec 32) (r : BitVec 3)
  | collectiveData (die : Nat) (clkey : Word) (sq : BitVec 32) (rank : BitVec 6) (bytes : List Byte)
  | zwivelPortUp (p : Nat) (pkg : BitVec 16) (port : BitVec 5)
  | linkRetrained (l : Nat)
  | hbmRetrained (stack : Nat)
  | vfCreation (vf : Nat)
  | correctedError (die : Nat)
  -- events whose core, strand and index are those of the turn that runs them (State.agenda), and words and
  -- commands without operands
  | resultLands
  | interlockedResultLands
  | vectorGroupLands
  | wordRetire
  | strandStops
  | nestedStop
  | checkpointPreemption
  | contextRemoval
  | storeBufferPerform
  | copySendRequest
  | copyResponse
  | accumulateOnWrite
  | copyComplete
  | seamRelease
  | planeLoad
  | planeFlip
  | arrayCycle
  | bankExchange
  | bankPipeCycle
  | taskRestart
  | arbiterServe
  | futureResolve
  | futureRegister
  | tokenStarvation
  | traceDrain
  | nend
  | attest
  | getid
  | newtload
  | recalhbm
  | recallink
  | partmap
  | partmapTakesEffect
  | partreset
  | readmit
deriving DecidableEq, Repr

end Sys2Proof
end

