-- ==== Sys2Proof/Decode.lean ====
section
/-!
DEFINITION. The decoder and the encoder of every kind of word (spec/02 R29 to R48, with the field tables of the
word chapters), and the form checks of R48 that depend on the word alone.
Decoding is total: a word no row assigns decodes to unassignedWord with the reason of R48 that the word alone gives.
-/

namespace Sys2Proof

/-- Parcel count by frame, R29: 1, 3 or 6, and 1 for frame 0b11. -/
def parcelCount (p0 : BitVec 32) : Nat :=
  match (p0.extractLsb' 30 2).toNat with
  | 1 => 3
  | 2 => 6
  | _ => 1

/-- The annotations of a word by its first parcel, R31, R32. -/
def annOf (p0 : BitVec 32) : Ann := ⟨p0.getLsbD 29, p0.extractLsb' 25 4⟩

/-- The five-bit field whose lowest bit is `lo`. -/
abbrev f5 (w : BitVec 32) (lo : Nat) : Reg := w.extractLsb' lo 5

/-- The word decodes to `i` when its class Z bits `z` are all zero, else it fails with reason 5 of R48. -/
def zOk {n : Nat} (w : BitVec 32) (z : BitVec n) (i : Instr) : Instr :=
  if z = 0 then i else .unassignedWord w 5

/-- A word of S only: a nonzero token field fails with reason 4 of R48, which comes before reason 5. -/
def sOnly {n : Nat} (w : BitVec 32) (z : BitVec n) (i : Instr) : Instr :=
  if w.extractLsb' 25 4 = 0 then zOk w z i else .unassignedWord w 4

/-- A one-parcel word, R31 to R35 and the field tables of its own chapter. -/
def decode1 (w : BitVec 32) : Instr :=
  let n := annOf w
  let y := n.y
  let d := f5 w 13
  let a := f5 w 8
  let b := f5 w 3
  let i8 := w.extractLsb' 0 8
  let i13 := w.extractLsb' 0 13
  let fn2 := w.getLsbD 2
  let fn0 := w.getLsbD 0
  let z10 := w.extractLsb' 0 2
  let z21 := w.extractLsb' 1 2
  let h := w.extractLsb' 14 4
  let sr := f5 w 9
  let gr := f5 w 4
  let ev := w.getLsbD 3
  let z20 := w.extractLsb' 0 3
  match (w.extractLsb' 18 7).toNat with
  | 0x00 => zOk w (w.extractLsb' 0 18) (.nop n)
  | 0x01 => zOk w z10 (.add n d a b fn2)
  | 0x02 => zOk w z10 (.sub n d a b fn2)
  | 0x03 => zOk w z10 (.and n d a b fn2)
  | 0x04 => zOk w z10 (.or n d a b fn2)
  | 0x05 => zOk w z10 (.xor n d a b fn2)
  | 0x06 => zOk w z10 (.shl n d a b fn2)
  | 0x07 => zOk w z10 (.shr n d a b fn2)
  | 0x08 => zOk w z10 (.sra n d a b fn2)
  | 0x09 => zOk w z10 (.mul n d a b fn2)
  | 0x0A => zOk w z21 (.mulh n d a b fn0)
  | 0x0B => zOk w z21 (.div n d a b fn0)
  | 0x0C => zOk w z21 (.rem n d a b fn0)
  | 0x0D => zOk w z21 (.min n d a b fn0)
  | 0x0E => zOk w z21 (.max n d a b fn0)
  | 0x0F => zOk w z21 (.slt n d a b fn0)
  | 0x10 => zOk w z21 (if fn0 then .sne n d a b else .seq n d a b)
  | 0x11 => zOk w z21 (.csel n d a b fn0)
  | 0x12 => zOk w b (match z10.toNat with
      | 0 => .clz n d a fn2
      | 1 => .ctz n d a fn2
      | 2 => .popc n d a fn2
      | _ => .bswap n d a fn2)
  | 0x13 => .addx n d a b (w.extractLsb' 0 3)
  | 0x14 => zOk w z21 (.ext n d a b fn0)
  | 0x15 => zOk w z20 (.ins n d a b)
  | 0x18 => .addi n d a i8
  | 0x19 => .andi n d a i8
  | 0x1A => .ori n d a i8
  | 0x1B => .xori n d a i8
  | 0x1C => if w.getLsbD 7 then .unassignedWord w 6 else .shli n d a (w.getLsbD 6) (w.extractLsb' 0 6)
  | 0x1D => if w.getLsbD 7 then .unassignedWord w 6 else .shri n d a (w.getLsbD 6) (w.extractLsb' 0 6)
  | 0x1E => if w.getLsbD 7 then .unassignedWord w 6 else .srai n d a (w.getLsbD 6) (w.extractLsb' 0 6)
  | 0x1F => .slti n d a i8
  | 0x20 => .li n d i13
  | 0x21 => .lis n d i13
  | 0x22 => .addpc n d i13
  | 0x23 => .jmp n (w.extractLsb' 0 18)
  | 0x24 => .call n (w.extractLsb' 0 18)
  | 0x25 => zOk w (d ++ i8) (.jr n a)
  | 0x26 => .bz n d i13
  | 0x27 => .bnz n d i13
  | 0x28 => .bltz n d i13
  | 0x29 => .bgez n d i13
  | 0x2A => zOk w (w.extractLsb' 14 3) (.loop n (w.getLsbD 17) (f5 w 9) (w.extractLsb' 0 9))
  | 0x2B => .loopi n (w.getLsbD 17) (w.extractLsb' 9 8) (w.extractLsb' 0 9)
  | 0x2C => zOk w (w.extractLsb' 0 18) (.seam n)
  | 0x30 => .ldS8 n d a i8
  | 0x31 => .ldS16 n d a i8
  | 0x32 => .ldS32 n d a i8
  | 0x33 => .ldN8 n d a i8
  | 0x34 => .ldN16 n d a i8
  | 0x35 => .ldN32 n d a i8
  | 0x36 => .ldD n d a i8
  | 0x37 => zOk w (w.extractLsb' 13 1) (.ldQ n h a i8)
  | 0x38 => .stB n d a i8
  | 0x39 => .stH n d a i8
  | 0x3A => .stW n d a i8
  | 0x3B => .stD n d a i8
  | 0x3C => zOk w (w.extractLsb' 13 1) (.stQ n h a i8)
  | 0x3D => zOk w (w.extractLsb' 6 2 ++ w.extractLsb' 2 1) (.gld n d a (w.extractLsb' 3 3) (w.getLsbD 1) fn0)
  | 0x3E => zOk w (w.extractLsb' 6 2 ++ w.extractLsb' 2 1) (.gst n d a (w.extractLsb' 3 3) (w.getLsbD 1) fn0)
  | 0x3F => zOk w (d ++ a ++ w.extractLsb' 5 3) (.fence n (w.extractLsb' 3 2) (w.extractLsb' 0 3))
  | 0x40 => sOnly w (d ++ a ++ b) (.tkgive y (w.extractLsb' 0 3))
  | 0x41 => sOnly w (d ++ a ++ b) (.tktake y (w.extractLsb' 0 3))
  | 0x42 => sOnly w (a ++ b) (.tkcount y d (w.extractLsb' 0 3))
  | 0x43 => zOk w i8 (.tglook n d a)
  | 0x44 => zOk w (d ++ z20) (.tgset n a b)
  | 0x45 => if fn0 then zOk w (d ++ a ++ b ++ z21) (.tgclrAll n) else zOk w (d ++ a ++ z21) (.tgclr n b)
  | 0x46 => sOnly w (a ++ i8) (.evpop y d)
  | 0x47 => sOnly w (a ++ i8) (.evpoll y d)
  | 0x48 => sOnly w (w.extractLsb' 2 6) (.stgo y d a (w.extractLsb' 0 2))
  | 0x49 => sOnly w (d ++ a ++ w.extractLsb' 4 4 ++ w.extractLsb' 0 1) (.stwait y (w.extractLsb' 1 3))
  | 0x4A => sOnly w (d ++ a ++ w.extractLsb' 4 4 ++ w.extractLsb' 0 1) (.ststop y (w.extractLsb' 1 3))
  | 0x50 => zOk w (w.extractLsb' 0 4) (.cpshape n h sr gr)
  | 0x51 => zOk w z20 (.cpld n h sr gr ev)
  | 0x52 => zOk w z20 (.cpst n h sr gr ev)
  | 0x53 => zOk w z20 (.cpldm n h sr gr ev)
  | 0x54 => zOk w (w.extractLsb' 4 1 ++ z20) (.cpgat n h sr (w.extractLsb' 5 4) ev)
  | 0x55 => zOk w (w.extractLsb' 4 1 ++ z20) (.cpsca n h sr (w.extractLsb' 5 4) ev)
  | 0x56 => match z20.toNat with
      | 0 => .cpaccAdd n h sr gr ev
      | 1 => .cpaccMin n h sr gr ev
      | 2 => .cpaccMax n h sr gr ev
      | 3 => .cpaccAnd n h sr gr ev
      | 4 => .cpaccOr n h sr gr ev
      | 5 => .cpaccXor n h sr gr ev
      | 6 => .cpaccXchg n h sr gr ev
      | _ => .cpaccCas n h sr gr ev
  | 0x57 => zOk w (sr ++ z21) (if fn0 then .cpfillScr n h gr ev else .cpfill n h gr ev)
  | 0x58 => zOk w (h ++ z20) (.cpres n sr gr ev)
  | 0x59 => zOk w (h ++ z20) (.cpreg n sr gr ev)
  | 0x5A => zOk w (h ++ sr) (.cpsig n gr ev z20)
  | 0x5B => zOk w z20 (.cptag n h sr gr ev)
  | 0x5C => zOk w (w.extractLsb' 4 14 ++ z21) (if fn0 then .cpdrainBoth n ev else .cpdrain n ev)
  | 0x5D => zOk w sr (.cporg n h gr (w.extractLsb' 0 4))
  | 0x5E => zOk w sr (.cpstep n h gr (w.extractLsb' 0 4))
  | 0x60 => sOnly w (d ++ z20) (.tspawn y a b)
  | 0x61 => sOnly w (w.extractLsb' 0 18) (.tdone y)
  | 0x62 => sOnly w (w.extractLsb' 0 13) (.tchk y d)
  | 0x63 => if fn0 then sOnly w (a ++ b ++ z21) (.asdeclRm y d) else sOnly w z21 (.asdecl y d a b)
  | 0x64 => sOnly w (w.extractLsb' 0 18) (.asabort y)
  | 0x65 => match z10.toNat with
      | 0 => sOnly w (a ++ b ++ w.extractLsb' 2 1) (.asstatSt y d)
      | 1 => sOnly w (a ++ b ++ w.extractLsb' 2 1) (.asstatAge y d)
      | 2 => sOnly w (b ++ w.extractLsb' 2 1) (.asstatSet y d a)
      | _ => sOnly w (b ++ w.extractLsb' 2 1) (.unassignedWord w 6)
  | 0x66 => sOnly w (d ++ w.extractLsb' 5 3) (.barr y a (w.extractLsb' 0 5))
  | 0x67 => sOnly w (d ++ w.extractLsb' 5 3) (.bwait y a (w.extractLsb' 0 5))
  | 0x68 => sOnly w (a ++ w.extractLsb' 5 3) (.btest y d (w.extractLsb' 0 5))
  | 0x69 => sOnly w i8 (.coll y d a)
  | 0x6A => sOnly w (d ++ i8) (.collwait y a)
  | 0x70 => zOk w a (.sysget n d i8)
  | 0x71 => zOk w d (.sysset n a i8)
  | 0x72 => zOk w d (.trap n a i8)
  | 0x73 => zOk w (d ++ a) (.brk n i8)
  | 0x74 => sOnly w (w.extractLsb' 0 18) (.tret y)
  | 0x75 => sOnly w (w.extractLsb' 0 18) (.idle y)
  | _ => .unassignedWord w 2

/-- A 20-bit vector operand, R40. -/
def vopdOf (x : BitVec 20) : VOpd := ⟨x.extractLsb' 15 5, x.extractLsb' 5 10, x.extractLsb' 0 5⟩

/-- The fields of a vector word, R39. -/
def vwordOf (w : BitVec 96) : VWord where
  n    := annOf (w.extractLsb' 64 32)
  vlen := w.extractLsb' 70 10
  vlg  := w.getLsbD 69
  et   := w.extractLsb' 65 4
  rm   := w.extractLsb' 62 3
  d    := vopdOf (w.extractLsb' 40 20)
  a    := vopdOf (w.extractLsb' 20 20)
  b    := vopdOf (w.extractLsb' 0 20)

/-- The vector word of a VOP, R43. -/
def vecInstr (vop : Nat) (v : VWord) : Option Instr :=
  match vop with
  | 0x000 => some (.vadd v)
  | 0x001 => some (.vsub v)
  | 0x002 => some (.vmul v)
  | 0x003 => some (.vfma v)
  | 0x004 => some (.vfms v)
  | 0x005 => some (.vmin v)
  | 0x006 => some (.vmax v)
  | 0x007 => some (.vabs v)
  | 0x008 => some (.vneg v)
  | 0x010 => some (.vand v)
  | 0x011 => some (.vor v)
  | 0x012 => some (.vxor v)
  | 0x013 => some (.vshl v)
  | 0x014 => some (.vshr v)
  | 0x015 => some (.vsra v)
  | 0x018 => some (.vcmpEq v)
  | 0x019 => some (.vcmpLt v)
  | 0x01A => some (.vcmpLe v)
  | 0x01B => some (.vsel v)
  | 0x020 => some (.vcvt v)
  | 0x030 => some (.vrecip v)
  | 0x031 => some (.vrsqrt v)
  | 0x032 => some (.vsqrt v)
  | 0x033 => some (.vexp2 v)
  | 0x034 => some (.vlog2 v)
  | 0x035 => some (.vdiv v)
  | 0x040 => some (.vredSum v)
  | 0x041 => some (.vredMax v)
  | 0x042 => some (.vredMin v)
  | 0x043 => some (.vdot v)
  | 0x050 => some (.vcopy v)
  | 0x051 => some (.vperm v)
  | 0x052 => some (.viota v)
  | 0x060 => some (.vmxpack v)
  | 0x061 => some (.vmxunpack v)
  | 0x070 => some (.vseed v)
  | _ => none

/-- A vector word, R39, R43: bits [61:60] are class Z. -/
def decode3 (w : BitVec 96) : Instr :=
  match vecInstr (w.extractLsb' 80 9).toNat (vwordOf w) with
  | some i => if w.extractLsb' 60 2 = 0 then i else .unassignedWord (w.extractLsb' 64 32) 5
  | none => .unassignedWord (w.extractLsb' 64 32) 2

/-- The fields of a matrix word, R44. -/
def mwordOf (w : BitVec 192) : MWord where
  n      := annOf (w.extractLsb' 160 32)
  mc     := w.extractLsb' 177 2
  nf     := w.extractLsb' 171 6
  fsel   := w.extractLsb' 165 6
  sa     := w.getLsbD 164
  sb     := w.getLsbD 163
  abase  := w.extractLsb' 158 5
  aoff   := w.extractLsb' 142 16
  apitch := w.extractLsb' 132 10
  acc    := w.extractLsb' 118 14
  col    := w.extractLsb' 108 10
  ovw    := w.getLsbD 107
  spec   := w.extractLsb' 64 43

/-- DT of mxread and mxwrite, word bits [99:96] (spec/10 R213). -/
def MWord.dt (m : MWord) : BitVec 4 := m.spec.extractLsb' 32 4

/-- CM of mxclear, word bits [106:105] (spec/10 R212). -/
def MWord.cm (m : MWord) : BitVec 2 := m.spec.extractLsb' 41 2

/-- The matrix word of a MOP, R46, with the forms of spec/10 R213 and R216. -/
def mxInstr (mop : Nat) (m : MWord) : Option Instr :=
  match mop with
  | 0x01 => some (.mxstat m)
  | 0x02 => some (.mxstatT m)
  | 0x03 => some (.mxflip m)
  | 0x04 => some (.mxstream m)
  | 0x05 => some (.mxswap m)
  | 0x08 => some (if m.dt = 11 then .mxreadFlags m else .mxread m)
  | 0x09 => some (if m.dt = 11 then .mxwriteFlags m else .mxwrite m)
  | 0x0A => some (match m.cm.toNat with
      | 0 => .mxclear m
      | 1 => .mxclearAll m
      | 2 => .mxclearFlags m
      | _ => .mxclearAllFlags m)
  | 0x0C => some (.mxfmt m)
  | _ => none

/-- A matrix word, R44, R46: bits [63:0] are class Z. -/
def decode6 (w : BitVec 192) : Instr :=
  match mxInstr (w.extractLsb' 179 6).toNat (mwordOf w) with
  | some i => if w.extractLsb' 0 64 = 0 then i else .unassignedWord (w.extractLsb' 160 32) 5
  | none => .unassignedWord (w.extractLsb' 160 32) 2

/-- The word a strand decodes from its parcels, first parcel first (R29, R30). Missing parcels read as zero. -/
def decodeParcels (ps : List (BitVec 32)) : Instr :=
  let p (k : Nat) : BitVec 32 := ps.getD k 0
  match ((p 0).extractLsb' 30 2).toNat with
  | 0 => decode1 (p 0)
  | 1 => decode3 (p 0 ++ p 1 ++ p 2)
  | 2 => decode6 (p 0 ++ p 1 ++ p 2 ++ p 3 ++ p 4 ++ p 5)
  | _ => .unassignedWord (p 0) 1

/-- All bits of a field are zero. -/
abbrev isZ {n : Nat} (x : BitVec n) : Bool := x == 0

/-- A Newt word, R47 and spec/18 R367; `none` for an unassigned code or a nonzero fixed class Z bit. -/
def decodeNewt (w : BitVec 32) : Option Instr :=
  let d := w.extractLsb' 23 4
  let a := w.extractLsb' 19 4
  let b := w.extractLsb' 15 4
  let x := w.getLsbD 14
  let i := w.extractLsb' 0 14
  let e := w.extractLsb' 0 10
  let k := w.extractLsb' 10 4
  match (w.extractLsb' 27 5).toNat with
  | 0x01 => if isZ (a ++ b ++ w.extractLsb' 3 12) then some (.nget d (w.extractLsb' 0 3)) else none
  | 0x02 => if isZ (a ++ b) then some (.nli d (w.extractLsb' 0 15)) else none
  | 0x03 => some (.nadd d a b x i)
  | 0x04 => some (.nsub d a b x i)
  | 0x05 => some (.nand d a b x i)
  | 0x06 => some (.nor d a b x i)
  | 0x07 => some (.nshl d a b x i)
  | 0x08 => some (.nshr d a b x i)
  | 0x09 => some (.nmin d a b x i)
  | 0x0A => some (.nmax d a b x i)
  | 0x0B => some (.ncmp d a b x i)
  | 0x0C => if isZ (d ++ b ++ w.extractLsb' 6 7) then some (.nbf a (w.extractLsb' 13 2) (w.extractLsb' 0 6)) else none
  | 0x0D => if isZ (b) then some (.nbin d a x (w.extractLsb' 9 5) (w.extractLsb' 0 9)) else none
  | 0x0E => if isZ (w.extractLsb' 10 5) then some (.nhinc d a b e) else none
  | 0x0F => if isZ (d ++ w.extractLsb' 14 1) then some (.nskt a b k e) else none
  | 0x10 => if isZ (b ++ w.extractLsb' 14 1) then some (.nsktq d a k e) else none
  | 0x11 => if isZ (d ++ b ++ w.extractLsb' 11 4) then some (.ntrig a (w.extractLsb' 3 8) (w.extractLsb' 0 3)) else none
  | 0x12 => if isZ (d ++ b ++ w.extractLsb' 8 7) then some (.nmark a (w.extractLsb' 0 8)) else none
  | 0x13 => if isZ (w.extractLsb' 0 27) then some .nend else none
  | _ => none

/-- The instruction an instruction word of the opcode table decodes to. The device has two stores of 32-bit words,
the strands' code and the Newt's programs, and a table word does not say which one it stands in (log entry 6):
it is read as a strand word unless the strand reading is no word or a nop whose own bits are all annotations,
or its frame is not 0b00, and the Newt reading is a word. Wider words are strand words. -/
def decodeTableWord (nbits w : Nat) : Option Instr :=
  if nbits ≤ 32 then
    let v := BitVec.ofNat 32 w
    let strand := decode1 v
    let newt := decodeNewt v
    if v.extractLsb' 30 2 = 0 then
      match strand, newt with
      | .unassignedWord p r, m => some (m.getD (.unassignedWord p r))
      | .nop n, some m => if n = ⟨false, 0⟩ then some (.nop n) else some m
      | i, _ => some i
    else newt
  else if nbits ≤ 96 then
    let v := BitVec.ofNat 96 w
    some (decodeParcels [v.extractLsb' 0 32, v.extractLsb' 32 32, v.extractLsb' 64 32])
  else
    let v := BitVec.ofNat 192 w
    some (decodeParcels [v.extractLsb' 0 32, v.extractLsb' 32 32, v.extractLsb' 64 32,
      v.extractLsb' 96 32, v.extractLsb' 128 32, v.extractLsb' 160 32])

/-! ### The encoder, from the same tables -/

/-- One Bool as one bit. -/
abbrev bit (x : Bool) : BitVec 1 := BitVec.ofBool x

/-- A one-parcel word from its annotations, major opcode and body, R31. -/
def mk1 (n : Ann) (op : BitVec 7) (body : BitVec 18) : BitVec 32 := 0#2 ++ bit n.y ++ n.t ++ op ++ body

/-- Bodies by format, R33. -/
def bodyRR (d a b : Reg) (fn : BitVec 3) : BitVec 18 := d ++ a ++ b ++ fn
def bodyRI (d a : Reg) (i : BitVec 8) : BitVec 18 := d ++ a ++ i
def bodyLI (d : Reg) (i : BitVec 13) : BitVec 18 := d ++ i
def bodyLP (lp : Bool) (c : BitVec 8) (e : BitVec 9) : BitVec 18 := bit lp ++ c ++ e
def bodyCP (h : BitVec 4) (sr gr : Reg) (fl : BitVec 4) : BitVec 18 := h ++ sr ++ gr ++ fl

/-- The annotations of a word of S only. -/
def annS (y : Bool) : Ann := ⟨y, 0⟩

/-- fn with bit 2 as the `.w` choice and bits [1:0] given. -/
def fnW (w : Bool) (k : BitVec 2) : BitVec 3 := bit w ++ k

/-- fn with bit 0 as a choice. -/
def fnN (u : Bool) : BitVec 3 := 0#2 ++ bit u

/-- CP flags: EV and three bits. -/
def flEV (ev : Bool) (k : BitVec 3) : BitVec 4 := bit ev ++ k

/-- gld and gst bits [7:0], spec/05 R104. -/
def bodyG (d a : Reg) (sc : BitVec 3) (ord q : Bool) : BitVec 18 :=
  d ++ a ++ 0#2 ++ sc ++ 0#1 ++ bit ord ++ bit q

/-- Shift immediates, spec/04 R89. -/
def immSh (w : Bool) (sh : BitVec 6) : BitVec 8 := 0#1 ++ bit w ++ sh

/-- A vector operand's 20 bits, R40. -/
def encVOpd (o : VOpd) : BitVec 20 := o.base ++ o.off ++ o.str

/-- A vector word, R39. -/
def mk3 (vop : BitVec 9) (v : VWord) : BitVec 96 :=
  1#2 ++ bit v.n.y ++ v.n.t ++ vop ++ v.vlen ++ bit v.vlg ++ v.et ++ v.rm ++ 0#2
    ++ encVOpd v.d ++ encVOpd v.a ++ encVOpd v.b

/-- A matrix word, R44. -/
def mk6 (mop : BitVec 6) (m : MWord) : BitVec 192 :=
  2#2 ++ bit m.n.y ++ m.n.t ++ mop ++ m.mc ++ m.nf ++ m.fsel ++ bit m.sa ++ bit m.sb ++ m.abase ++ m.aoff
    ++ m.apitch ++ m.acc ++ m.col ++ bit m.ovw ++ m.spec ++ 0#64

/-- A Newt word, R47. -/
def mkN (code : BitVec 5) (d a b : BitVec 4) (i : BitVec 15) : BitVec 32 := code ++ d ++ a ++ b ++ i

/-- The encoding of a one-parcel strand word. -/
def enc1 : Instr → Option (BitVec 32)
  | .nop n => some (mk1 n 0x00 0)
  | .add n d a b w => some (mk1 n 0x01 (bodyRR d a b (fnW w 0)))
  | .sub n d a b w => some (mk1 n 0x02 (bodyRR d a b (fnW w 0)))
  | .and n d a b w => some (mk1 n 0x03 (bodyRR d a b (fnW w 0)))
  | .or n d a b w => some (mk1 n 0x04 (bodyRR d a b (fnW w 0)))
  | .xor n d a b w => some (mk1 n 0x05 (bodyRR d a b (fnW w 0)))
  | .shl n d a b w => some (mk1 n 0x06 (bodyRR d a b (fnW w 0)))
  | .shr n d a b w => some (mk1 n 0x07 (bodyRR d a b (fnW w 0)))
  | .sra n d a b w => some (mk1 n 0x08 (bodyRR d a b (fnW w 0)))
  | .mul n d a b w => some (mk1 n 0x09 (bodyRR d a b (fnW w 0)))
  | .mulh n d a b u => some (mk1 n 0x0A (bodyRR d a b (fnN u)))
  | .div n d a b u => some (mk1 n 0x0B (bodyRR d a b (fnN u)))
  | .rem n d a b u => some (mk1 n 0x0C (bodyRR d a b (fnN u)))
  | .min n d a b u => some (mk1 n 0x0D (bodyRR d a b (fnN u)))
  | .max n d a b u => some (mk1 n 0x0E (bodyRR d a b (fnN u)))
  | .slt n d a b u => some (mk1 n 0x0F (bodyRR d a b (fnN u)))
  | .seq n d a b => some (mk1 n 0x10 (bodyRR d a b 0))
  | .sne n d a b => some (mk1 n 0x10 (bodyRR d a b 1))
  | .csel n d a b z => some (mk1 n 0x11 (bodyRR d a b (fnN z)))
  | .clz n d a w => some (mk1 n 0x12 (bodyRR d a 0 (fnW w 0)))
  | .ctz n d a w => some (mk1 n 0x12 (bodyRR d a 0 (fnW w 1)))
  | .popc n d a w => some (mk1 n 0x12 (bodyRR d a 0 (fnW w 2)))
  | .bswap n d a w => some (mk1 n 0x12 (bodyRR d a 0 (fnW w 3)))
  | .addx n d a b sh => some (mk1 n 0x13 (bodyRR d a b sh))
  | .ext n d a b sg => some (mk1 n 0x14 (bodyRR d a b (fnN sg)))
  | .ins n d a b => some (mk1 n 0x15 (bodyRR d a b 0))
  | .addi n d a i => some (mk1 n 0x18 (bodyRI d a i))
  | .andi n d a i => some (mk1 n 0x19 (bodyRI d a i))
  | .ori n d a i => some (mk1 n 0x1A (bodyRI d a i))
  | .xori n d a i => some (mk1 n 0x1B (bodyRI d a i))
  | .shli n d a w sh => some (mk1 n 0x1C (bodyRI d a (immSh w sh)))
  | .shri n d a w sh => some (mk1 n 0x1D (bodyRI d a (immSh w sh)))
  | .srai n d a w sh => some (mk1 n 0x1E (bodyRI d a (immSh w sh)))
  | .slti n d a i => some (mk1 n 0x1F (bodyRI d a i))
  | .li n d i => some (mk1 n 0x20 (bodyLI d i))
  | .lis n d i => some (mk1 n 0x21 (bodyLI d i))
  | .addpc n d i => some (mk1 n 0x22 (bodyLI d i))
  | .jmp n o => some (mk1 n 0x23 o)
  | .call n o => some (mk1 n 0x24 o)
  | .jr n a => some (mk1 n 0x25 (bodyRR 0 a 0 0))
  | .bz n a o => some (mk1 n 0x26 (bodyLI a o))
  | .bnz n a o => some (mk1 n 0x27 (bodyLI a o))
  | .bltz n a o => some (mk1 n 0x28 (bodyLI a o))
  | .bgez n a o => some (mk1 n 0x29 (bodyLI a o))
  | .loop n lp c e => some (mk1 n 0x2A (bodyLP lp (0#3 ++ c) e))
  | .loopi n lp k e => some (mk1 n 0x2B (bodyLP lp k e))
  | .seam n => some (mk1 n 0x2C 0)
  | .ldS8 n d a i => some (mk1 n 0x30 (bodyRI d a i))
  | .ldS16 n d a i => some (mk1 n 0x31 (bodyRI d a i))
  | .ldS32 n d a i => some (mk1 n 0x32 (bodyRI d a i))
  | .ldN8 n d a i => some (mk1 n 0x33 (bodyRI d a i))
  | .ldN16 n d a i => some (mk1 n 0x34 (bodyRI d a i))
  | .ldN32 n d a i => some (mk1 n 0x35 (bodyRI d a i))
  | .ldD n d a i => some (mk1 n 0x36 (bodyRI d a i))
  | .ldQ n d a i => some (mk1 n 0x37 (bodyRI (d ++ 0#1) a i))
  | .stB n d a i => some (mk1 n 0x38 (bodyRI d a i))
  | .stH n d a i => some (mk1 n 0x39 (bodyRI d a i))
  | .stW n d a i => some (mk1 n 0x3A (bodyRI d a i))
  | .stD n d a i => some (mk1 n 0x3B (bodyRI d a i))
  | .stQ n d a i => some (mk1 n 0x3C (bodyRI (d ++ 0#1) a i))
  | .gld n d a sc o q => some (mk1 n 0x3D (bodyG d a sc o q))
  | .gst n d a sc o q => some (mk1 n 0x3E (bodyG d a sc o q))
  | .fence n k sc => some (mk1 n 0x3F (bodyRI 0 0 (0#3 ++ k ++ sc)))
  | .tkgive y f => some (mk1 (annS y) 0x40 (bodyRI 0 0 (0#5 ++ f)))
  | .tktake y f => some (mk1 (annS y) 0x41 (bodyRI 0 0 (0#5 ++ f)))
  | .tkcount y d f => some (mk1 (annS y) 0x42 (bodyRI d 0 (0#5 ++ f)))
  | .tglook n d a => some (mk1 n 0x43 (bodyRR d a 0 0))
  | .tgset n a b => some (mk1 n 0x44 (bodyRR 0 a b 0))
  | .tgclr n b => some (mk1 n 0x45 (bodyRR 0 0 b 0))
  | .tgclrAll n => some (mk1 n 0x45 (bodyRR 0 0 0 1))
  | .evpop y d => some (mk1 (annS y) 0x46 (bodyRR d 0 0 0))
  | .evpoll y d => some (mk1 (annS y) 0x47 (bodyRR d 0 0 0))
  | .stgo y d a k => some (mk1 (annS y) 0x48 (bodyRI d a (0#6 ++ k)))
  | .stwait y m => some (mk1 (annS y) 0x49 (bodyRI 0 0 (0#4 ++ m ++ 0#1)))
  | .ststop y m => some (mk1 (annS y) 0x4A (bodyRI 0 0 (0#4 ++ m ++ 0#1)))
  | .cpshape n h sr gr => some (mk1 n 0x50 (bodyCP h sr gr 0))
  | .cporg n h gr k => some (mk1 n 0x5D (bodyCP h 0 gr k))
  | .cpstep n h gr k => some (mk1 n 0x5E (bodyCP h 0 gr k))
  | .cpld n h sr gr ev => some (mk1 n 0x51 (bodyCP h sr gr (flEV ev 0)))
  | .cpst n h sr gr ev => some (mk1 n 0x52 (bodyCP h sr gr (flEV ev 0)))
  | .cpldm n h sr gr ev => some (mk1 n 0x53 (bodyCP h sr gr (flEV ev 0)))
  | .cpgat n h sr gr ev => some (mk1 n 0x54 (bodyCP h sr (gr ++ 0#1) (flEV ev 0)))
  | .cpsca n h sr gr ev => some (mk1 n 0x55 (bodyCP h sr (gr ++ 0#1) (flEV ev 0)))
  | .cpaccAdd n h sr gr ev => some (mk1 n 0x56 (bodyCP h sr gr (flEV ev 0)))
  | .cpaccMin n h sr gr ev => some (mk1 n 0x56 (bodyCP h sr gr (flEV ev 1)))
  | .cpaccMax n h sr gr ev => some (mk1 n 0x56 (bodyCP h sr gr (flEV ev 2)))
  | .cpaccAnd n h sr gr ev => some (mk1 n 0x56 (bodyCP h sr gr (flEV ev 3)))
  | .cpaccOr n h sr gr ev => some (mk1 n 0x56 (bodyCP h sr gr (flEV ev 4)))
  | .cpaccXor n h sr gr ev => some (mk1 n 0x56 (bodyCP h sr gr (flEV ev 5)))
  | .cpaccXchg n h sr gr ev => some (mk1 n 0x56 (bodyCP h sr gr (flEV ev 6)))
  | .cpaccCas n h sr gr ev => some (mk1 n 0x56 (bodyCP h sr gr (flEV ev 7)))
  | .cpfill n h gr ev => some (mk1 n 0x57 (bodyCP h 0 gr (flEV ev 0)))
  | .cpfillScr n h gr ev => some (mk1 n 0x57 (bodyCP h 0 gr (flEV ev 1)))
  | .cpres n sr gr ev => some (mk1 n 0x58 (bodyCP 0 sr gr (flEV ev 0)))
  | .cpreg n sr gr ev => some (mk1 n 0x59 (bodyCP 0 sr gr (flEV ev 0)))
  | .cpsig n gr ev j => some (mk1 n 0x5A (bodyCP 0 0 gr (flEV ev j)))
  | .cptag n h sr gr ev => some (mk1 n 0x5B (bodyCP h sr gr (flEV ev 0)))
  | .cpdrain n ev => some (mk1 n 0x5C (bodyCP 0 0 0 (flEV ev 0)))
  | .cpdrainBoth n ev => some (mk1 n 0x5C (bodyCP 0 0 0 (flEV ev 1)))
  | .tspawn y a b => some (mk1 (annS y) 0x60 (bodyRR 0 a b 0))
  | .tdone y => some (mk1 (annS y) 0x61 0)
  | .tchk y d => some (mk1 (annS y) 0x62 (bodyRR d 0 0 0))
  | .asdecl y i a b => some (mk1 (annS y) 0x63 (bodyRR i a b 0))
  | .asdeclRm y i => some (mk1 (annS y) 0x63 (bodyRR i 0 0 1))
  | .asabort y => some (mk1 (annS y) 0x64 0)
  | .asstatSt y d => some (mk1 (annS y) 0x65 (bodyRR d 0 0 0))
  | .asstatAge y d => some (mk1 (annS y) 0x65 (bodyRR d 0 0 1))
  | .asstatSet y d a => some (mk1 (annS y) 0x65 (bodyRR d a 0 2))
  | .barr y a b => some (mk1 (annS y) 0x66 (bodyRI 0 a (0#3 ++ b)))
  | .bwait y a b => some (mk1 (annS y) 0x67 (bodyRI 0 a (0#3 ++ b)))
  | .btest y d b => some (mk1 (annS y) 0x68 (bodyRI d 0 (0#3 ++ b)))
  | .coll y d a => some (mk1 (annS y) 0x69 (bodyRR d a 0 0))
  | .collwait y a => some (mk1 (annS y) 0x6A (bodyRR 0 a 0 0))
  | .sysget n d r => some (mk1 n 0x70 (bodyRI d 0 r))
  | .sysset n a r => some (mk1 n 0x71 (bodyRI 0 a r))
  | .trap n a k => some (mk1 n 0x72 (bodyRI 0 a k))
  | .brk n k => some (mk1 n 0x73 (bodyRI 0 0 k))
  | .tret y => some (mk1 (annS y) 0x74 0)
  | .idle y => some (mk1 (annS y) 0x75 0)
  | _ => none

/-- The VOP and fields of a vector word, R43. -/
def encV : Instr → Option (BitVec 9 × VWord)
  | .vadd v => some (0x000, v)
  | .vsub v => some (0x001, v)
  | .vmul v => some (0x002, v)
  | .vfma v => some (0x003, v)
  | .vfms v => some (0x004, v)
  | .vmin v => some (0x005, v)
  | .vmax v => some (0x006, v)
  | .vabs v => some (0x007, v)
  | .vneg v => some (0x008, v)
  | .vand v => some (0x010, v)
  | .vor v => some (0x011, v)
  | .vxor v => some (0x012, v)
  | .vshl v => some (0x013, v)
  | .vshr v => some (0x014, v)
  | .vsra v => some (0x015, v)
  | .vcmpEq v => some (0x018, v)
  | .vcmpLt v => some (0x019, v)
  | .vcmpLe v => some (0x01A, v)
  | .vsel v => some (0x01B, v)
  | .vcvt v => some (0x020, v)
  | .vrecip v => some (0x030, v)
  | .vrsqrt v => some (0x031, v)
  | .vsqrt v => some (0x032, v)
  | .vexp2 v => some (0x033, v)
  | .vlog2 v => some (0x034, v)
  | .vdiv v => some (0x035, v)
  | .vredSum v => some (0x040, v)
  | .vredMax v => some (0x041, v)
  | .vredMin v => some (0x042, v)
  | .vdot v => some (0x043, v)
  | .vcopy v => some (0x050, v)
  | .vperm v => some (0x051, v)
  | .viota v => some (0x052, v)
  | .vmxpack v => some (0x060, v)
  | .vmxunpack v => some (0x061, v)
  | .vseed v => some (0x070, v)
  | _ => none

/-- The MOP and fields of a matrix word, R46. -/
def encM : Instr → Option (BitVec 6 × MWord)
  | .mxstat m => some (0x01, m)
  | .mxstatT m => some (0x02, m)
  | .mxflip m => some (0x03, m)
  | .mxstream m => some (0x04, m)
  | .mxswap m => some (0x05, m)
  | .mxread m => some (0x08, m)
  | .mxreadFlags m => some (0x08, m)
  | .mxwrite m => some (0x09, m)
  | .mxwriteFlags m => some (0x09, m)
  | .mxclear m => some (0x0A, m)
  | .mxclearAll m => some (0x0A, m)
  | .mxclearFlags m => some (0x0A, m)
  | .mxclearAllFlags m => some (0x0A, m)
  | .mxfmt m => some (0x0C, m)
  | _ => none

/-- The encoding of a Newt word, spec/18 R367. -/
def encN : Instr → Option (BitVec 32)
  | .nget d f => some (mkN 0x01 d 0 0 (0#12 ++ f))
  | .nli d i => some (mkN 0x02 d 0 0 i)
  | .nadd d a b x i => some (mkN 0x03 d a b (bit x ++ i))
  | .nsub d a b x i => some (mkN 0x04 d a b (bit x ++ i))
  | .nand d a b x i => some (mkN 0x05 d a b (bit x ++ i))
  | .nor d a b x i => some (mkN 0x06 d a b (bit x ++ i))
  | .nshl d a b x i => some (mkN 0x07 d a b (bit x ++ i))
  | .nshr d a b x i => some (mkN 0x08 d a b (bit x ++ i))
  | .nmin d a b x i => some (mkN 0x09 d a b (bit x ++ i))
  | .nmax d a b x i => some (mkN 0x0A d a b (bit x ++ i))
  | .ncmp d a b x i => some (mkN 0x0B d a b (bit x ++ i))
  | .nbf a c o => some (mkN 0x0C 0 a 0 (c ++ 0#7 ++ o))
  | .nbin d a m sh u => some (mkN 0x0D d a 0 (bit m ++ sh ++ u))
  | .nhinc d a b e => some (mkN 0x0E d a b (0#5 ++ e))
  | .nskt a b k e => some (mkN 0x0F 0 a b (0#1 ++ k ++ e))
  | .nsktq d a k e => some (mkN 0x10 d a 0 (0#1 ++ k ++ e))
  | .ntrig a i c => some (mkN 0x11 0 a 0 (0#4 ++ i ++ c))
  | .nmark a t => some (mkN 0x12 0 a 0 (0#7 ++ t))
  | .nend => some (mkN 0x13 0 0 0 0)
  | _ => none

/-- The parcels of a strand word in memory order, first parcel first (R29); empty for what is no strand word. -/
def encode (i : Instr) : List (BitVec 32) :=
  match enc1 i, encV i, encM i with
  | some w, _, _ => [w]
  | none, some (op, v), _ =>
    let w := mk3 op v
    [w.extractLsb' 64 32, w.extractLsb' 32 32, w.extractLsb' 0 32]
  | none, none, some (op, m) =>
    let w := mk6 op m
    [w.extractLsb' 160 32, w.extractLsb' 128 32, w.extractLsb' 96 32, w.extractLsb' 64 32,
      w.extractLsb' 32 32, w.extractLsb' 0 32]
  | none, none, none => []

/-! ### The form checks of R48 that depend on the word alone: reasons 5 and 6 -/

/-- Scope codes 101 to 111 are not assigned (spec/05 R104). -/
def scopeOk (sc : BitVec 3) : Bool := sc.toNat ≤ 4

/-- The first of the reasons: 5 when the class Z test fails, else 6 when the class V test fails. -/
def reason56 (z v : Bool) : Option (BitVec 3) := if !z then some 5 else if !v then some 6 else none

/-- The system-register map: number assigned; row marked "all"; RW (spec/05 R114). -/
def sysAssigned (r : BitVec 8) : Bool :=
  let n := r.toNat
  n ≤ 0x07 || n == 0x10 || n == 0x11 || (0x18 ≤ n && n ≤ 0x1C) || (0x20 ≤ n && n ≤ 0x22) || n == 0x28 || n == 0x29
    || (0x30 ≤ n && n ≤ 0x37)
def sysAll (r : BitVec 8) : Bool := r.toNat ≤ 0x07
def sysRW (r : BitVec 8) : Bool :=
  let n := r.toNat
  n ≤ 0x07 || (0x18 ≤ n && n ≤ 0x1A) || n == 0x22 || (0x30 ≤ n && n ≤ 0x37)

/-- Whether an element type code is assigned, R42. -/
def etOk (et : BitVec 4) : Bool := et.toNat ≤ 9
/-- bf16, f32 and f64 are codes 7 to 9. -/
def etFloat (et : BitVec 4) : Bool := 7 ≤ et.toNat && et.toNat ≤ 9
/-- s8, s16, s32, s64 are codes 0, 2, 4, 6. -/
def etSigned (et : BitVec 4) : Bool := et.toNat ∈ [0, 2, 4, 6]
/-- The integer types. -/
def etInt (et : BitVec 4) : Bool := et.toNat ≤ 6

/-- A strided operand: code 16 is not assigned (R40). -/
def strOk (o : VOpd) : Bool := o.str ≠ 16
/-- An operand the word does not use is zero in all 20 bits (spec/08 R168). -/
def opdZ (o : VOpd) : Bool := o == ⟨0, 0, 0⟩

/-- MXF of spec/08 R172: width and fraction bits. -/
def mxfOk (x : BitVec 5) : Bool := x.extractLsb' 3 2 == 0 && x.extractLsb' 0 2 != 3
def mxfW (x : BitVec 5) : Nat := match (x.extractLsb' 0 2).toNat with | 0 => 8 | 1 => 6 | _ => 4
def mxfF (x : BitVec 5) : Nat := match (x.extractLsb' 0 2).toNat with | 0 => 6 | 1 => 4 | _ => 2
def mxfSigned (x : BitVec 5) : Bool := x.getLsbD 2

/-- An immediate element count, R39. -/
def immCount (v : VWord) : Nat := v.vlen.toNat + 1

/-- The rounding field: used for the float types and 000 for the integer ones, 111 never (R42, spec/08 R172). -/
def rmUsed (used : Bool) (rm : BitVec 3) : Bool := if used then rm != 7 else rm == 0

/-- Reasons 5 and 6 of a vector word, by the rows of spec/08 R172. A nonzero field marked Z has reason 5 of R48 (DESIGN CHOICE, log
entry 76: R172 itself names reason 6 for it). -/
def vecReason (i : Instr) : Option (BitVec 3) :=
  let lenZ (v : VWord) := !v.vlg || v.vlen.extractLsb' 5 5 == 0
  let two (v : VWord) (et : Bool) (rm : Bool) := reason56 (lenZ v) (et && rm && strOk v.d && strOk v.a && strOk v.b)
  let one (v : VWord) (et : Bool) (rm : Bool) := reason56 (lenZ v && opdZ v.b) (et && rm && strOk v.d && strOk v.a)
  let red (v : VWord) (b2 : Bool) (wide : Bool) (rm : Bool) :=
    reason56 (lenZ v && (b2 || opdZ v.b))
      (etOk v.et && rm && strOk v.a && (!b2 || strOk v.b)
        && (v.d.str == 0 || (wide && v.d.str == 1 && v.et != 6 && v.et != 9)))
  let sf (v : VWord) := etSigned v.et || etFloat v.et
  let rmF (v : VWord) := rmUsed (etFloat v.et) v.rm
  match i with
  | .vadd v | .vsub v | .vmul v | .vfma v | .vfms v => two v (etOk v.et) (rmF v)
  | .vmin v | .vmax v | .vand v | .vor v | .vxor v => two v (etOk v.et) (v.rm == 0)
  | .vabs v | .vneg v => one v (sf v) (v.rm == 0)
  | .vshl v | .vshr v => two v (etInt v.et) (v.rm == 0)
  | .vsra v => two v (etSigned v.et) (v.rm == 0)
  | .vcmpEq v | .vcmpLt v | .vcmpLe v | .vsel v => two v (etOk v.et) (v.rm == 0)
  | .vcvt v => reason56 (lenZ v && v.b.base == 0 && v.b.off == 0 && !v.b.str.getLsbD 4)
      (etOk v.et && etOk (v.b.str.extractLsb' 0 4) && strOk v.d && strOk v.a
        && rmUsed (etFloat v.et || etFloat (v.b.str.extractLsb' 0 4)) v.rm)
  | .vrecip v | .vsqrt v => one v (etFloat v.et) (rmUsed true v.rm)
  | .vrsqrt v | .vexp2 v | .vlog2 v => one v (v.et == 7 || v.et == 8) (rmUsed true v.rm)
  | .vdiv v => two v (etFloat v.et) (rmUsed true v.rm)
  | .vredSum v => red v false true (rmF v)
  | .vredMax v | .vredMin v => red v false false (v.rm == 0)
  | .vdot v => red v true true (rmF v)
  | .vcopy v => one v (etOk v.et) (v.rm == 0)
  | .vperm v => two v (etOk v.et) (v.rm == 0)
  | .viota v => reason56 (lenZ v) (etOk v.et && rmF v && strOk v.d && v.a.str == 0 && v.b.str == 0)
  | .vmxpack v => reason56 (lenZ v)
      (etFloat v.et && rmUsed true v.rm && mxfOk v.d.str && strOk v.a && strOk v.b && (v.vlg || immCount v % 32 == 0))
  | .vmxunpack v => reason56 (lenZ v)
      (etFloat v.et && rmUsed true v.rm && mxfOk v.a.str && strOk v.d && strOk v.b && (v.vlg || immCount v % 32 == 0))
  | .vseed v => reason56 (v.vlen == 0 && !v.vlg && v.et == 0 && v.rm == 0 && opdZ v.d
      && v.a.off == 0 && v.a.str == 0 && v.b.off == 0 && v.b.str == 0) true
  | _ => none

/-- FSEL: in the explicit form bit [4] is class Z (R45). -/
def fselZ (m : MWord) : Bool := m.fsel.getLsbD 5 || !m.fsel.getLsbD 4

/-- Fields of spec/10 R213, at word bits [106:64] of spec. -/
def MWord.sk (m : MWord) : Bool := m.spec.getLsbD 42
def MWord.qf (m : MWord) : BitVec 6 := m.spec.extractLsb' 36 6
def MWord.rmf (m : MWord) : BitVec 3 := m.spec.extractLsb' 29 3
def MWord.shr (m : MWord) : BitVec 6 := m.spec.extractLsb' 23 6
def MWord.mxf (m : MWord) : BitVec 5 := m.spec.extractLsb' 18 5
/-- soff of mxstat, word bits [106:91] (spec/09 R192). -/
def MWord.soff (m : MWord) : BitVec 16 := m.spec.extractLsb' 27 16

/-- Reasons 5 and 6 of a matrix word (spec/09 R192, spec/10 R208, R212, R213). -/
def mxReason (i : Instr) : Option (BitVec 3) :=
  let zShape (m : MWord) := m.mc == 0 && m.nf == 0
  let zFmt (m : MWord) := m.fsel == 0 && !m.sa && !m.sb
  let zA (m : MWord) := m.abase == 0 && m.aoff == 0
  let zAcc (m : MWord) := m.acc == 0
  let zTail (m : MWord) := m.col == 0 && !m.ovw
  let zP (m : MWord) := m.apitch == 0
  match i with
  | .mxstat m | .mxstatT m => reason56 (m.mc == 0 && fselZ m && !m.sa && zAcc m && zTail m && m.spec.extractLsb' 0 27 == 0) true
  | .mxflip m => reason56 (zShape m && zFmt m && zA m && zP m && zAcc m && zTail m && m.spec == 0) true
  | .mxstream m => reason56 (fselZ m && m.spec == 0) true
  | .mxswap m => reason56 (zShape m && zFmt m && zA m && zP m && zAcc m && zTail m && m.spec == 0) true
  | .mxread m => reason56 (zFmt m && zTail m && m.spec.extractLsb' 0 18 == 0 && (m.sk || m.qf == 0) && (m.dt == 10 || m.mxf == 0))
      (m.dt.toNat ≤ 10 && m.rmf.toNat ≤ 4 && (m.dt != 10 || mxfOk m.mxf))
  | .mxwrite m => reason56 (zFmt m && zTail m && m.spec.extractLsb' 0 18 == 0 && (m.sk || m.qf == 0) && m.shr == 0 && m.mxf == 0)
      (m.dt.toNat ≤ 9 && m.rmf.toNat ≤ 4)
  | .mxreadFlags m | .mxwriteFlags m => reason56 (zShape m && zFmt m && zP m && zAcc m && zTail m
      && m.spec.extractLsb' 36 7 == 0 && m.spec.extractLsb' 0 32 == 0) (m.dt == 11)
  | .mxclear m => reason56 (zFmt m && zA m && zP m && zTail m && m.spec.extractLsb' 0 41 == 0) true
  | .mxclearAll m | .mxclearFlags m | .mxclearAllFlags m =>
      reason56 (zShape m && zFmt m && zA m && zP m && zAcc m && zTail m && m.spec.extractLsb' 0 41 == 0) true
  | .mxfmt m => reason56 (zShape m && fselZ m && !m.sa && !m.sb && m.aoff == 0 && zP m && zAcc m && zTail m && m.spec == 0) true
  | _ => none

/-- Reasons 5 and 6 of any strand word; `none` when the word alone passes. -/
def fieldReason (i : Instr) : Option (BitVec 3) :=
  match i with
  | .shli _ _ _ w sh | .shri _ _ _ w sh | .srai _ _ _ w sh => reason56 true (!w || !sh.getLsbD 5)
  | .loop _ _ _ e | .loopi _ _ _ e => reason56 true (2 ≤ e.toNat)
  | .gld _ d _ sc o q | .gst _ d _ sc o q => reason56 ((o || sc == 0) && (!q || !d.getLsbD 0)) (scopeOk sc)
  | .fence _ k sc => reason56 true (k != 3 && scopeOk sc)
  | .tkgive _ f | .tktake _ f | .tkcount _ _ f => reason56 true (f.toNat < 6)
  | .stgo _ _ _ k => reason56 true (k != 0)
  | .cporg _ _ _ d | .cpstep _ _ _ d => reason56 true (d.toNat ≤ 8)
  | .sysget _ _ r => reason56 true (sysAssigned r)
  | .sysset _ _ r => reason56 true (sysAssigned r && sysRW r)
  | .unassignedWord _ r => some r
  | i => (vecReason i).or (mxReason i)

/-- The class Z fields of a Newt ALU word: nb with an immediate, imm15[13:0] with a register (spec/18 R367). -/
def newtZ : Instr → Bool
  | .nadd _ _ b x i | .nsub _ _ b x i | .nand _ _ b x i | .nor _ _ b x i | .nshl _ _ b x i | .nshr _ _ b x i
  | .nmin _ _ b x i | .nmax _ _ b x i | .ncmp _ _ b x i => if x then b == 0 else i == 0
  | .nbf a c _ => c != 0 || a == 0
  | _ => true

/-- The class V values of a Newt word (reason 4 of spec/18 R366). -/
def newtV : Instr → Bool
  | .nbf _ c o => c != 3 && o != 0
  | .ntrig _ _ c => c != 0
  | .nskt _ _ k e | .nsktq _ _ k e => k.toNat ≤ 8 && e.toNat + 4 * 2 ^ k.toNat ≤ 1024
  | _ => true

end Sys2Proof
end

