-- ==== Sys2Proof/Config.lean ====
section
/-!
DEFINITION. What one package fixes: the values the spec leaves open that a step meets. Each is opaque: nothing in
Lean can evaluate it, and a statement holds whatever it is (log entries 7 and 18).
-/

namespace Sys2Proof.Config

/-- A fresh value for each use of the counter State.free. -/
opaque freeWord : Nat → Word

/-- The secret key of the device, 4032 bytes, and the 32 random bytes of a signature of `m` (spec/20 R407); what a report carries if no
attempt to sign succeeds, which the spec does not say (log entry 88). -/
opaque deviceKey : List Byte
opaque signRnd (m : List Byte) : List Byte
opaque unsigned (m : List Byte) : List Byte

/-- The device public key and its certificate, as GETID writes them (spec/20 R406). -/
opaque identity : List Byte

/-- The public keys that images are verified under, the firmware key and the configuration key, and which bytes of an image are signed and
which are its signature: the spec gives no layout of an image (spec/20 R399, R409). -/
opaque publicKey (firmware : Bool) : List Byte
opaque signedPart (firmware : Bool) (image : List Byte) : List Byte
opaque signaturePart (firmware : Bool) (image : List Byte) : List Byte

/-- What the device reads where a granule of a saved area is poisoned or a page of it is not mapped, by address: the spec gives such a read
no value (spec/15 R301, log entry 13). -/
opaque lostByte : Nat → Byte

/-- The words 0 to 3 of an entry of the access-fault log with its address, core number, kind and reason (spec/15 R314, log entry 85). -/
opaque afWord : Word → Nat → Nat → Nat → Nat → Word

/-- The firmware version in an image and the rollback counter of a configuration record (spec/20 R409). -/
opaque version : List Byte → Nat
opaque rollback : List Byte → Nat

end Sys2Proof.Config
end

