-- ==== Sys2Proof/Machine/State.lean ====
section
/-!
DEFINITION. Everything the spec gives the package to remember, as plain data, and the package right after reset.
A sparse table (Tab) reads as the default of its entry type where nothing is listed.
-/

namespace Sys2Proof.Machine

/-- A cause of a stop, spec/06 R123: rank 1 trap or brk, 2 strand word, 3 issued operation, 4 CHECKPOINT. -/
structure Stop where
  rank : Nat := 2
  k    : StrandIx := .s
  code : Nat := 0
  info : BitVec 8 := 0
  tval : Word := 0
deriving DecidableEq, Repr

/-- A word that has issued and not retired: its place in the core's order and its gives (spec/07 R143, R145). -/
structure RetEnt where
  ord : Nat
  seq : Nat
  img : Instr
  gl  : Bool
  gr  : Bool
deriving DecidableEq, Repr

/-- A store-buffer entry, spec/05 R106, of the gst in place `ord`, merged last with that in place `lord`: `en` are the byte enables of the
16-byte granule at `va`. It leaves the buffer as it is sent toward its home port. -/
structure SbEntry where
  ord   : Nat
  lord  : Nat
  seq   : Nat
  img   : Instr
  va    : Word
  bytes : List Byte
  en    : BitVec 16
  rel   : Bool
  scope : BitVec 3
deriving DecidableEq, Repr

/-- One strand, spec/01 R12. `ic` is the issue counter; `pend` the pending bits; `fresh` the registers written
with latency 1 in this clock cycle; `fwait` the fetch waits of R94; `held` a give that waits for room (R145); `starting` a strand
that runs from the next clock cycle on (R152); `yready` a Y word that is free to issue, with its takes, the records it needs and the gives its
strand would make to the left and to the right, and `ygo` that its bundle issues in this clock cycle (R25); `waited`, `twait`, `starved` and `tfifo` a take that waits, and the FIFO that keeps it waiting (R362). -/
structure Strand where
  pc      : Word := 0
  g       : Tab Word := []
  ls0     : Word := 0
  le0     : Word := 0
  lc0     : BitVec 32 := 0
  ls1     : Word := 0
  le1     : Word := 0
  lc1     : BitVec 32 := 0
  sst     : Word := 0
  sgn     : Word := 1
  ic      : Nat := 0
  pend    : BitVec 32 := 0
  started : Bool := false
  starting : Bool := false
  running : Bool := false
  exiting : Bool := false
  stopping : Bool := false
  issued  : Bool := false
  fresh   : BitVec 32 := 0
  fwait   : Nat := 0
  held    : Bool := false
  yready  : Bool := false
  ytakes  : BitVec 4 := 0
  yneed   : Nat := 0
  ygl     : Nat := 0
  ygr     : Nat := 0
  ygo     : Bool := false
  waited  : Nat := 0
  twait   : Bool := false
  tfifo   : Nat := 0
  starved : Bool := false
  sb      : List SbEntry := []
  ret     : List RetEnt := []
deriving DecidableEq, Repr

/-- One landing group of a vector word: the landing issue cycle (0 when interlocked, spec/01 R21), the scratch
writes, the flags, a fault address, and the progress after it. -/
structure VGroup where
  at'    : Nat
  writes : List (Nat × List Byte)
  flags  : BitVec 5
  fault  : Option Nat
  cur    : Nat
deriving DecidableEq, Repr

/-- What is left to happen of an issued operation. -/
inductive OpBody where
  | regs (at' : Nat) (d : Reg) (v : List Word)
  | store (at' : Nat) (x : Nat) (bytes : List Byte)
  | shadow (at' : Nat) (old : Tab Byte)
  | ilock (d : Reg) (pair : Bool) (fwd : Option (List Byte))
  | vec (gs : List VGroup)
deriving DecidableEq, Repr

/-- An operation that has issued and whose effects have not all taken place, with the operands its record
holds (spec/06 R131 to R134). `lam` is the latency L of R133, `last` the issue cycle in which it is due,
`prog` the elements landed, `steps` the generator steps taken, `pa` the physical address of a gld that has left for its home and waits
(spec/19 R393). -/
structure Op where
  k    : StrandIx
  ord  : Nat
  seq  : Nat
  img  : Instr
  op0  : Word := 0
  op1  : Word := 0
  op2  : Word := 0
  cnt  : Nat := 0
  lam  : Nat := 0
  last : Nat := 0
  prog : Nat := 0
  steps : Nat := 0
  pa   : Option Nat := none
  body : OpBody
deriving DecidableEq, Repr

/-- A plane of B elements, spec/09 R190: codes by k·1024 + n, scales by j·1024 + n. -/
structure Plane where
  codes  : Tab Nat := []
  scales : Tab Nat := []
  valid  : Bool := false
  bfmt   : Nat := 0
  kk     : Nat := 0
  nn     : Nat := 0
  sb     : Bool := false
deriving DecidableEq, Repr

/-- An accumulator bank and its flag register, spec/10 R209, R210. -/
structure Bank where
  ent : Tab Word := []
  bfl : Word := 0
deriving DecidableEq, Repr

/-- A matrix word in the unit's queue (spec/09 R198): captured base, resolved entry, cycles done of how
many, cycles since then (R218), the 16-byte granules it has yet to read once its reads have begun, and the bytes read (R199, R201). -/
structure MxOp where
  ord  : Nat
  seq  : Nat
  img  : Instr
  base : Word
  ent  : Nat
  entv : Word
  prog : Nat
  total : Nat := 0
  tail : Nat := 0
  read : Bool := false
  todo : Option (List Nat) := none
  aby  : Tab Byte := []
deriving DecidableEq, Repr

/-- A shape register, spec/11 R224 to R228: the validated record, the fill value, the origins. -/
structure Shape where
  bytes : List Byte := []
  fill  : Word := 0
  org   : List Int := []
  valid : Bool := false
deriving DecidableEq, Repr

/-- The channels of a die link, spec/19 R380. -/
inductive Chan where
  | req | rsp | hst | mgt
deriving DecidableEq, Repr

/-- A response on its way back to a copy command: image bytes to write, or a failed element; `home` is the die that
answers, and the channel (R380). -/
structure CpResp where
  e     : Nat
  x     : Nat
  bytes : List Byte
  bad   : Option Word := none
  home  : Option (Nat × Chan) := none
deriving DecidableEq, Repr

/-- A copy command or seam in a queue (spec/11 R231): captured registers and snapshot, first image byte `x`, elements
sent, the 64-byte block `blk` of the request under way (spec/15 R315), the clock of its push and the 16-byte parts sent
(spec/18 R362), responses out, cpldm data and destinations, a
refusal `port` that a home port has answered, and the address `pa` of an element that has left for its home and waits (spec/19 R393). -/
structure CpCmd where
  k      : StrandIx
  ord    : Nat
  seq    : Nat
  img    : Instr
  sreg   : Word := 0
  greg   : Word := 0
  idx    : Nat := 0
  snap   : Option Shape := none
  n      : Nat := 0
  sent   : Nat := 0
  began  : Bool := false
  out    : List CpResp := []
  x      : Nat := 0
  blk    : Option Nat := none
  since  : Nat := 0
  parts  : Nat := 0
  cas    : Nat := 0
  mdata  : Tab Byte := []
  mleft  : List Nat := []
  mbad   : BitVec 16 := 0
  port   : Option (Nat × Word) := none
  pa     : Option Nat := none
deriving DecidableEq, Repr

/-- What the ports have answered to a copy command that a stop interrupts, by its strand and SEQ: a refusal (spec/06 R123), the
destinations of a multicast still to be served, those that have refused (spec/11 R235), and the comparisons of a cas that have
succeeded (R232). -/
structure Kept where
  k     : StrandIx
  seq   : Nat
  port  : Option (Nat × Word)
  mleft : List Nat
  mbad  : BitVec 16
  cas   : Nat := 0
deriving DecidableEq, Repr

/-- One element, register or signal on its way to a home port that applies it (spec/11 R237 to R239); `ret` is the scratch byte that its
old value goes to. -/
structure AccReq where
  ord  : Nat
  k    : StrandIx
  img  : Instr
  vf   : Nat
  et   : Nat
  e    : Nat
  va   : Word
  pa   : Nat
  arg  : List Byte
  ret  : Option Nat := none
deriving DecidableEq, Repr

/-- A pre-emption that has been chosen for a context (spec/16 R337). -/
inductive Preempt where
  | none
  | drain (since : Nat)
  | refused
  | clamped (i : Nat)
  | checkpoint
deriving DecidableEq, Repr

/-- What belongs to the context of a task wherever it runs: identity, system registers of spec/05 R114, depth,
S's issue counter while a handler runs (R130), a drain point of this clock cycle, held causes, event records that their sources
hold after a tret (spec/12 R251), answers kept over a stop, whether step 3 of its tdone has begun (spec/17 R351), pre-emption, stamp, the cluster on which it ran last. `task` is the device's own name of the task. -/
structure Ctx where
  task     : Nat := 0
  vf       : Nat := 0
  launch   : Nat := 0
  iter     : Nat := 0
  resume   : Nat := 0
  stamp    : Word := 0
  restarts : Nat := 0
  charged  : Nat := 0
  tvec     : Word := 0
  tcause   : Word := 0
  tval     : Word := 0
  tsave    : Word := 0
  tadp     : Word := 0
  scrsize  : Nat := 0
  scrmode  : BitVec 2 := 0
  wpa      : Tab Word := []
  wpc      : Tab Word := []
  reports  : Tab (Option Word) := []
  depth    : Nat := 0
  ichold   : Nat := 0
  drainPt  : Option Reg := none
  held     : List Stop := []
  evwait   : List Word := []
  kept     : List Kept := []
  leaving  : Bool := false
  preempt  : Preempt := .none
  wounded  : Bool := false
  cluster  : Nat := 0
deriving DecidableEq, Repr

/-- A trace record, spec/18 R375, with the function whose ring it goes to; while it is being written, the index it takes there and the time
since which the ring counts. -/
structure TraceRec where
  pc    : Word
  kind  : Nat
  k     : StrandIx
  lost  : Bool
  delta : Nat
  aux   : Nat
  vf    : Nat
  sent  : Option (BitVec 32 × Nat) := none
deriving DecidableEq, Repr

/-- A write of the tag table in this clock cycle, spec/07 R160: its place in the order of writes (0 a cptag completion, else one
more than the strand index), the entry, or every entry, and what it becomes. -/
structure TagWr where
  place : Nat
  ix    : Option Nat
  ent   : Option Word
deriving DecidableEq, Repr

/-- A write of a shape register in this clock cycle: the strand that makes it, the register, and what it becomes (spec/11 R227, R228). -/
structure ShapeWr where
  k   : StrandIx
  h   : Nat
  val : Shape
deriving DecidableEq, Repr

/-- One core, spec/07 R142, with its context. Token FIFO counts are indexed by the codes of R147: `tok` at the
start of the clock cycle, `took` and `gave` what the cycle has taken and given (R146); `tagw` and `shw` are the tag and the shape writes of the cycle, `evnow`
the event records posted, each with the clock and the place of its source (R161), `vdue` says that an interlocked vector group lands at
its end (R21), and `halted` that a stop waits for its areas (spec/06 R124, spec/15 R306). -/
structure Core where
  ctx     : Option Ctx := none
  s       : Strand := {}
  l       : Strand := {}
  c       : Strand := {}
  w       : Strand := {}
  scr     : Tab Byte := []
  valid   : Tab Bool := []
  tags    : Tab (Option Word) := []
  tagw    : List TagWr := []
  shw     : List ShapeWr := []
  tagcfg  : Word := 0
  tok     : Tab Nat := []
  took    : Tab Nat := []
  gave    : Tab Nat := []
  evq     : List Word := []
  evnow   : List (Nat × Word) := []
  ev0     : Nat := 0
  sh      : Tab Shape := []
  ft      : Tab Word := []
  live    : Plane := {}
  shadow  : Plane := {}
  work    : Bank := {}
  vis     : Bank := {}
  ops     : List Op := []
  nord    : Nat := 1
  vstage  : Nat := 0
  vdue    : Bool := false
  halted  : Bool := false
  mxq     : List MxOp := []
  lq      : List CpCmd := []
  wq      : List CpCmd := []
  stage   : Option Nat := none
  lastq   : Bool := true
  acc     : List AccReq := []
  stops   : List Stop := []
  nested  : Option Stop := none
  removal : Option Word := none
  restart : Option (Nat × Nat) := none
  trace   : List TraceRec := []
  lost    : Bool := false
  tlast   : Nat := 0
  stamped : Option Nat := none
deriving DecidableEq, Repr

/-- A stage barrier, spec/13 R263, with the task of each arrival of the current generation (R271), the clock of its last completion, and
GEN at the start of that clock cycle (R266). -/
structure Barrier where
  gen  : BitVec 32 := 0
  need : Nat := 0
  arr  : List Nat := []
  done : Option Nat := none
  was  : BitVec 32 := 0
deriving DecidableEq, Repr

/-- A launch's window of barriers on a cluster, spec/13 R261. -/
structure Window where
  launch : Nat
  base   : Nat
  nb     : Nat
deriving DecidableEq, Repr

/-- A cluster, spec/13 R259. -/
structure Cluster where
  bar  : Tab Barrier := []
  wins : List Window := []
deriving DecidableEq, Repr

/-- A cached leaf, spec/15 R305, in the TLB of a cluster or in the micro-TLB of a core; `ats` is its page of host I/O space under
ATS (R309). -/
structure TlbEntry where
  cluster : Nat
  micro : Option Nat
  vf   : Nat
  base : Nat
  size : Nat
  pa   : Nat
  perm : BitVec 3
  ats  : Option Nat := none
deriving DecidableEq, Repr

/-- An outstanding page request of a function, spec/15 R311: its PRG index and its page. -/
structure PageReq where
  slot : Nat
  page : Nat
deriving DecidableEq, Repr

/-- Who makes an access: a core with the place of the access in it, or from 4096 on a unit of a die (log entry 81). -/
structure Who where
  c : Nat
  u : Nat
deriving DecidableEq, Repr

/-- How a walk that does not end at once stands, spec/15 R309 to R312: it waits for a free slot, for the response to its page request,
or for the host's translation of an I/O page; it is to start again; it has that translation; it was refused; or it was withdrawn. -/
inductive WalkSt where
  | slot
  | page (ix : Nat)
  | ats (io : Nat)
  | again
  | answer (io pa : Nat)
  | refused (reason : Nat)
  | withdrawn
deriving DecidableEq, Repr

/-- A walk of a die's walker, spec/15 R306: the 64 KiB block, the accesses that wait for it, and whether it has made a page request. -/
structure Walk where
  die   : Nat
  vf    : Nat
  page  : Nat
  who   : List Who
  asked : Bool
  st    : WalkSt
deriving DecidableEq, Repr

/-- A set's state at its home directory, spec/14 R287. -/
inductive SetSt where
  | free | held | suspended | wounding | publishing
deriving DecidableEq, Repr

/-- A declared set, spec/14 R279, with its holder and its waiters. -/
structure SetEnt where
  id     : Word
  base   : Word
  len    : Nat
  home   : Nat
  st     : SetSt := .free
  holder : Nat := 0
  wait   : List (Nat × Word) := []
deriving DecidableEq, Repr

/-- A rollback buffer, spec/14 R288, R289: granules by virtual address with byte enables. -/
structure RbBuf where
  pool : Nat := 0
  gran : Tab (List (Option Byte)) := []
deriving DecidableEq, Repr

/-- One virtual function: the registers of spec/15 R314 and spec/20 R397, R403, its generation and set table. -/
structure Vf where
  ptroot  : Word := 0
  pren    : Bool := false
  prstop  : Bool := false
  pralloc : BitVec 9 := 0
  gen     : BitVec 16 := 0
  tinva   : Word := 0
  tinv    : List (Nat × Nat) := []
  featsel : BitVec 128 := 1
  featact : BitVec 128 := 0x801
  fpend   : Bool := false
  rst     : Bool := false
  part    : BitVec 3 := 0
  clkey   : Word := 0
  sets    : Tab (Option SetEnt) := []
  preqs   : List PageReq := []
  scrmode : BitVec 2 := 0
deriving DecidableEq, Repr

/-- A tenant's bucket, spec/15 R314 and spec/16 R333: registers as written, the values in effect, tokens, debt. -/
structure Bucket where
  meter  : Bool := false
  borrow : Bool := false
  rate   : Nat := 0
  depth  : Nat := 0
  dmax   : Nat := 0
  depthA : Nat := 0
  dmaxA  : Nat := 0
  tok    : Nat := 0
  debt   : Nat := 0
deriving DecidableEq, Repr

/-- An entry of the access-fault log, spec/15 R313. -/
structure AfEnt where
  va     : Word
  core   : Nat
  kind   : AccKind
  reason : Nat
deriving DecidableEq, Repr

/-- What a virtual function has on one die: spec/15 R314, spec/16 R333, spec/18 R372, R373. -/
structure VfDie where
  cb     : Bucket := {}
  bu     : Bucket := {}
  spent  : Bool := false
  nbud   : Nat := 0
  nbleft : Nat := 0
  nten   : Bool := false
  frozen : Bool := false
  ntbase : Word := 0
  ntsize : Nat := 0
  nthead : BitVec 32 := 0
  nttail : BitVec 32 := 0
  ntdrop : Nat := 0
  ntsince : Nat := 0
  prdrop : Nat := 0
  aflog  : Tab (Option AfEnt) := []
  afhead : Nat := 0
  afover : Nat := 0
deriving DecidableEq, Repr

/-- The state of a launch queue, spec/16 R323. -/
inductive QSt where
  | disabled | active | faulted
deriving DecidableEq, Repr

/-- A launch queue, spec/16 R322 and spec/20 R412. -/
structure Queue where
  qctl   : Word := 0
  fifo   : List Word := []
  st     : QSt := .disabled
  reason : Nat := 0
  code   : Nat := 0
  ovf    : Nat := 0
  faddr  : Word := 0
  limit  : Nat := 0
  rem    : Nat := 0
  resum  : List Ctx := []
deriving DecidableEq, Repr

/-- A running Newt program, spec/18 R372, with the registers, table and snapshot that stood before it (R364). -/
structure NewtRun where
  ev   : List (BitVec 32)
  pc   : Nat := 0
  n    : Nat := 0
  trig : Bool := false
  reg  : Tab (BitVec 32) := []
  tab  : Tab (BitVec 32) := []
  snapR : Tab (BitVec 32) := []
  snapT : Tab (BitVec 32) := []
  snapN : BitVec 32 := 0
deriving DecidableEq, Repr

/-- A Newt slot, spec/18 R360, R364. -/
structure Slot where
  vec    : BitVec 6 := 0
  mask   : BitVec 10 := 0
  any    : Bool := false
  en     : Bool := false
  vf     : BitVec 9 := 0
  prog   : Tab (BitVec 32) := []
  tab    : Tab (BitVec 32) := []
  reg    : Tab (BitVec 32) := []
  reason : Nat := 0
  badix  : Nat := 0
  ixerr  : Nat := 0
  qdrop  : Nat := 0
  bdrop  : Nat := 0
  snapR  : Tab (BitVec 32) := []
  snapT  : Tab (BitVec 32) := []
  snapN  : BitVec 32 := 0
  trig   : Word := 0
  queue  : List (List (BitVec 32)) := []
  run    : Option NewtRun := none
  endEn  : Bool := false
deriving DecidableEq, Repr

/-- The service state of a die, spec/20 R398. -/
inductive DieSt where
  | reset | selftest | early | full | offline | failed
deriving DecidableEq, Repr

/-- One die: the registers of spec/20 R396, its queues, its Newt with the events that have reached it and those of this clock cycle (spec/18 R363), the training of its stacks, and `left`, the clock count at which
its cores left reset (spec/05 R114). -/
structure Die where
  st       : DieSt := .reset
  left     : Nat := 0
  trainedL : Bool := false
  trainedU : Bool := false
  slow     : Bool := false
  cbpoolmax : Nat := 0
  cbpool   : Nat := 0
  bupoolmax : Nat := 0
  bupool   : Nat := 0
  prwait   : Nat := 20
  prckpt   : Nat := 500
  prdrainw : Nat := 100
  nstarve  : Nat := 1024
  fwdeny   : Nat := 0
  fwlast   : Word := 0
  queues   : Tab Queue := []
  slots    : Tab Slot := []
  newtIn   : List (List (BitVec 32)) := []
  newtNow  : List (List (BitVec 32)) := []
  served   : Tab Nat := []
  errs     : Nat := 0
  ready    : List ReadyMsg := []
deriving DecidableEq, Repr

/-- One strand block of a body descriptor, spec/16 R328. -/
structure BodyStr where
  entry  : Word := 0
  kstart : Word := 0
  kend   : Word := 0
  stage  : Nat := 0
deriving DecidableEq, Repr

/-- What a launch knows of its record (whose DEP word lies at the physical address `dep`), header and descriptor after the take (spec/16 R323 to R330, spec/17 R343),
the tickets left on each die and on each cluster, and how many iterations have retired. -/
structure Launch where
  va     : Word := 0
  dep    : Nat := 0
  vf     : Nat := 0
  die    : Nat := 0
  q      : Nat := 0
  kind   : BitVec 2 := 0
  prio   : Nat := 0
  est    : Nat := 0
  sink   : Bool := false
  vec    : Nat := 0
  done   : Word := 0
  futa   : Word := 0
  fcont  : Word := 0
  succ   : List Word := []
  hdr    : Word := 0
  hctl   : Word := 0
  widths : List Nat := []
  iter   : Nat := 1
  scrb   : Nat := 16
  nb     : Nat := 0
  ext    : List Nat := []
  ft     : List Word := []
  trip   : BitVec 32 := 1
  body   : List BodyStr := []
  ready  : Bool := false
  ended  : Bool := false
  ranges : Tab (Nat × Nat) := []
  held   : Tab (Nat × Nat) := []
  retired : Nat := 0
deriving DecidableEq, Repr

/-- How a collective stands, spec/21 R422 to R424. -/
inductive CollSt where
  | meeting | moving | ended (reason : Nat)
deriving DecidableEq, Repr

/-- An outstanding or ended collective of one party (spec/21 R419 to R424, R427, R428): the data of each rank as far as it is there, the
DST elements written, and the address `pa` of a read that is held on its way (spec/19 R393). -/
structure Coll where
  die    : Nat
  task   : Nat
  vf     : Nat
  h      : Nat
  me     : ReadyMsg
  src    : Word
  dst    : Word
  peers  : List (BitVec 16 × BitVec 3)
  ev     : Bool
  due    : Nat
  seen   : List Nat := []
  data   : Tab (List Byte) := []
  wrote  : Nat := 0
  st     : CollSt := .meeting
  cev    : Bool := false
  pa     : Option Nat := none
deriving DecidableEq, Repr

/-- An armed watchpoint at its home port, spec/15 R317 to R320. -/
structure Armed where
  task : Nat
  ix   : Nat
  pa   : Nat
  size : Nat
deriving DecidableEq, Repr

/-- Who writes, for a watchpoint report (spec/15 R320), and for whom: the function, the task, the copy command's place, the group of a
device port's actions and its die, and the virtual address. `dev` marks a write of a device port. -/
structure Writer where
  kind : Nat := 0
  core : Nat := 0
  k    : StrandIx := .s
  pkg  : BitVec 16 := 0
  dev  : Bool := false
  vf   : Nat := 0
  task : Nat := 0
  ord  : Nat := 0
  grp  : Nat := 0
  die  : Nat := 0
  va   : Word := 0
deriving DecidableEq, Repr

/-- A device write to host memory whose completion has not returned (spec/19 R385), with the die it came from. -/
structure HostWr where
  src   : Nat
  wr    : Writer
  hpa   : Nat
  bytes : List (Option Byte)
deriving DecidableEq, Repr

/-- A message that leaves the device: to the host's drivers, the host bridge, or other packages. -/
inductive Out where
  | msix (vf : Nat) (vec : Nat)
  | pfMsix (vec : Nat)
  | watchdog (v : Word)
  | killed (vf : Nat) (cause : Word)
  | pageRequest (vf : Nat) (pasid : BitVec 20) (ix : Nat) (page : Nat) (r w : Bool)
  | atsRequest (vf : Nat) (ioPage : Nat) (pasid : BitVec 20)
  | atsComplete (vf : Nat) (ioPage : Nat)
  | rdCurr (hpa n : Nat)
  | wrCur (hpa : Nat) (bytes : List (Option Byte))
  | snoopMiss (hpa : Nat)
  | memData (off : Nat) (bytes : List Byte)
  | memDone (off : Nat)
  | ready (pkg : BitVec 16) (die : BitVec 3) (m : ReadyMsg)
  | abort (pkg : BitVec 16) (die : BitVec 3) (clkey : Word) (sq : BitVec 32)
  | data (pkg : BitVec 16) (die : BitVec 3) (clkey : Word) (sq : BitVec 32) (rank : BitVec 6) (bytes : List Byte)
  | portRefused (port : Nat) (clkey : Word) (sq : BitVec 32)
  | regData (pf : Bool) (vf off : Nat) (v : Word)
deriving DecidableEq, Repr

/-- What a flit carries: a write to a home port, of a request that goes on when `more`; its acknowledgement; a READY or an ABORT of a
collective, or its data; a CXL.mem read; or what leaves the package at die 0. -/
inductive Cargo where
  | store (wr : Writer) (pa : Nat) (bytes : List (Option Byte)) (more : Bool)
  | ack (wr : Writer)
  | ready (m : ReadyMsg)
  | abort (clkey : Word) (sq : BitVec 32)
  | data (clkey : Word) (sq : BitVec 32) (rank : Nat) (bytes : List Byte)
  | read (off n : Nat)
  | out (o : Out)
deriving DecidableEq, Repr

/-- A flit from one die to another, spec/19 R380, with the links of its route that it has crossed; one to its own die stands for a request
on its way to a port of that die. -/
structure Flit where
  src   : Nat
  dst   : Nat
  chan  : Chan
  hop   : Nat
  cargo : Cargo
deriving DecidableEq, Repr

/-- What remains to be done at records and futures by the ports of die `d`: a signal or poison, the STATE of a launch's record, its
abandonment, what a poisoned slot starts, its future, its completion record, and a message to the tenant once what precedes it has
been performed. -/
inductive TaskAct where
  | tell (d vf : Nat) (link : Word) (poison : Bool) (core : Option Nat)
  | recState (d launch st : Nat)
  | abandon (launch : Nat)
  | fault (d vf : Nat) (futa : Word)
  | skipTo (launch : Nat)
  | sink (d launch : Nat) (faulted : Bool)
  | msix (vf vec : Nat)
deriving DecidableEq, Repr

/-- What a unit of a die has read of the record that it takes, each part once (spec/16 R323), and where the DEP word lies if it has
found that. -/
structure DevTake where
  die  : Nat
  unit : Nat
  dep  : Option Nat := none
  got  : List (List Byte) := []
deriving DecidableEq, Repr

/-- An action that waits, with its number, its group (those of a group follow one another), and the address of an access that has left
its port and is held on its way. -/
structure Pending where
  id  : Nat
  grp : Nat
  act : TaskAct
  pa  : Option Nat
deriving DecidableEq, Repr

/-- Whose turn it is (log entry 1): a strand's chance to issue, an event with the core, strand and index it names,
a chance of a Newt slot to run a word, of a flit to go on, or of a waiting action, or a read of a register over CXL.io. -/
inductive Turn where
  | issue (core : Nat) (k : StrandIx)
  | event (core : Nat) (k : StrandIx) (j : Nat) (i : Instr)
  | newt (die slot : Nat)
  | flit (i : Nat)
  | act (i : Nat)
  | read (pf : Bool) (vf off : Nat)
deriving DecidableEq, Repr

/-- The mailbox of spec/20 R406, with the dies whose self-tests a READMIT has still to see end (R413). -/
structure Mailbox where
  cmd    : Word := 0
  arg    : Tab Word := []
  busy   : Bool := false
  result : Nat := 0
  buf    : Tab Byte := []
  tests  : List Nat := []
deriving DecidableEq, Repr

/-- A Zwivel-link port, spec/21 R417. -/
structure ZPort where
  pkg : BitVec 16 := 0
  far : BitVec 5 := 0
  up  : Bool := false
deriving DecidableEq, Repr

/-- The package registers of spec/20 R396, spec/19 R389, R391 and spec/21 R417, and Chameleon's images. -/
structure Pkg where
  cfgok   : Bool := false
  pid     : BitVec 24 := 0
  pmerr   : Bool := false
  pmpend  : Option (BitVec 24) := none
  wdlast  : Word := 0
  pwrcap  : Nat := 3200
  pwrnow  : Nat := 0
  force   : Tab Bool := []
  down    : Tab Bool := []
  zpkg    : BitVec 16 := 0
  zport   : Tab ZPort := []
  mbox    : Mailbox := {}
  fw      : List Byte := []
  cfg     : List Byte := []
  cfgNext : Option (List Byte) := none
  recal   : Tab Bool := []
  wasfull : Bool := false
deriving DecidableEq, Repr

/-- The package: `walks` are the walks under way (spec/15 R306), `wire` the flits on their way (spec/19 R380), `reqs` the reads that
have been judged at a die and are held on their way, by the die and the address (R392, R393), `acts` what device ports
have still to do, `takes` the takes that wait for a read. `nact` numbers these. `free` counts the uses of free values and `agenda` orders the turns: both are the model's own
fields, no state of the spec (log entries 1 and 7). -/
structure State where
  mem      : List Host.Cell
  poison   : List Nat
  cores    : Tab Core
  clusters : Tab Cluster
  dies     : Tab Die
  vfs      : Tab Vf
  vfdie    : Tab VfDie
  pkg      : Pkg
  tlb      : List TlbEntry
  walks    : List Walk
  wire     : List Flit
  reqs     : List (Nat × Nat)
  acts     : List Pending
  takes    : List DevTake
  nact     : Nat
  launches : Tab Launch
  nlaunch  : Nat
  ntask    : Nat
  bufs     : Tab (Option RbBuf)
  colls    : List Coll
  armed    : List Armed
  hostOut  : List HostWr
  clock    : Nat
  dieclk   : Nat
  free     : Nat
  agenda   : List Turn
  inbox    : List Turn
  outbox   : List Out
deriving DecidableEq, Repr

/-- Why the machine stops. No meaning of this model stops: every fault the spec names is taken as the stop of a core
or recorded where the spec says, so this reason is raised by nobody and is safe. -/
inductive Fault where
  /-- Raised by no meaning; safe. -/
  | none
deriving DecidableEq, Repr

/-- Why an instruction has no meaning. -/
inductive Refusal where
  /-- Raised only by an arm of exec whose instruction is not modelled; safe. -/
  | notModelled (mnemonic : String)
deriving DecidableEq, Repr

/-- The package at package reset (spec/20 R399, spec/13 R259, spec/16 R322, spec/18 R364, spec/19 R389, R391): no
record verified yet, every die in RESET, nothing queued. Memory that nothing has written reads as zero (log entry 3). -/
def State.reset : State where
  mem := []
  poison := []
  cores := []
  clusters := []
  dies := []
  vfs := []
  vfdie := []
  pkg := {}
  tlb := []
  walks := []
  wire := []
  reqs := []
  acts := []
  takes := []
  nact := 1
  launches := []
  nlaunch := 0
  ntask := 1
  bufs := []
  colls := []
  armed := []
  hostOut := []
  clock := 0
  dieclk := 0
  free := 0
  agenda := []
  inbox := []
  outbox := []

end Sys2Proof.Machine
end

