-- ==== Sys2Proof/Machine/Tab.lean ====
section
/-!
DEFINITION. Sparse tables and byte memories as sorted lists in one canonical form: keys strictly rising, no entry
equal to what an unlisted key reads as. Byte order is decided here once: little-endian (spec/00 R5).
-/

namespace Sys2Proof.Machine

/-- What a table holds at a key; `d` is what an unlisted key reads as. -/
def Tab.get {α : Type} (d : α) : Tab α → Nat → α
  | [], _ => d
  | (j, v) :: t, i => if j = i then v else Tab.get d t i

/-- Put an entry where the keys stay rising. -/
def Tab.insert {α : Type} (i : Nat) (v : α) : Tab α → Tab α
  | [] => [(i, v)]
  | (j, w) :: t => if i < j then (i, v) :: (j, w) :: t else (j, w) :: Tab.insert i v t

/-- Remove every entry of a key. -/
def Tab.erase {α : Type} (i : Nat) : Tab α → Tab α
  | [] => []
  | (j, w) :: t => if j = i then Tab.erase i t else (j, w) :: Tab.erase i t

/-- Write a key. Writing the default removes the entry, so equal tables are equal data. -/
def Tab.set {α : Type} [DecidableEq α] (d : α) (t : Tab α) (i : Nat) (v : α) : Tab α :=
  if v = d then Tab.erase i t else Tab.insert i v (Tab.erase i t)

/-- The keys of a table. -/
def Tab.keys {α : Type} (t : Tab α) : List Nat := t.map Prod.fst

/-- The canonical form of a table. -/
abbrev Tab.wf {α : Type} (d : α) (t : Tab α) : Prop := t.Pairwise (fun x y => x.1 < y.1) ∧ ∀ x ∈ t, x.2 ≠ d

/-- The canonical form of memory: addresses strictly rising, and no entry that reads as an unlisted address does (log entry 3). -/
abbrev Memory.wf (m : Tab Byte) : Prop := Tab.wf 0 m

/-- The `n` bytes from address `x` upward. -/
def readBytes (t : Tab Byte) (x : Nat) : Nat → List Byte
  | 0 => []
  | n + 1 => Tab.get 0 t x :: readBytes t (x + 1) n

/-- Write bytes from address `x` upward. -/
def writeBytes (t : Tab Byte) (x : Nat) : List Byte → Tab Byte
  | [] => t
  | b :: bs => writeBytes (Tab.set 0 t x b) (x + 1) bs

/-- The little-endian number of a list of bytes. -/
def leNat : List Byte → Nat
  | [] => 0
  | b :: bs => b.toNat + 256 * leNat bs

/-- The `n` little-endian bytes of a number. -/
def leBytes : Nat → Nat → List Byte
  | 0, _ => []
  | n + 1, x => BitVec.ofNat 8 x :: leBytes n (x / 256)

/-- Replace an element of a list by its index. -/
def setAt {α : Type} : List α → Nat → α → List α
  | [], _, _ => []
  | _ :: t, 0, v => v :: t
  | a :: t, n + 1, v => a :: setAt t n v

end Sys2Proof.Machine
end

