-- ==== Sys2Proof/Machine/Access.lean ====
section
/-!
DEFINITION. The named places of the state (cores, strands, dies, functions, queues, slots) and their updates; the
physical address map, home ports, watchpoints, firewall, page walk and translation (spec/15, spec/19).
-/

namespace Sys2Proof.Machine

/-! ### Places -/

def State.core (s : State) (c : Nat) : Core := Tab.get {} s.cores c
def State.setCore (s : State) (c : Nat) (x : Core) : State := { s with cores := Tab.set {} s.cores c x }
def State.mapCore (s : State) (c : Nat) (f : Core → Core) : State := s.setCore c (f (s.core c))

def Core.str (x : Core) : StrandIx → Strand
  | .s => x.s
  | .l => x.l
  | .c => x.c
  | .w => x.w

def Core.setStr (x : Core) (k : StrandIx) (t : Strand) : Core :=
  match k with
  | .s => { x with s := t }
  | .l => { x with l := t }
  | .c => { x with c := t }
  | .w => { x with w := t }

def Core.mapStr (x : Core) (k : StrandIx) (f : Strand → Strand) : Core := x.setStr k (f (x.str k))

def State.str (s : State) (c : Nat) (k : StrandIx) : Strand := (s.core c).str k
def State.mapStr (s : State) (c : Nat) (k : StrandIx) (f : Strand → Strand) : State := s.mapCore c (·.mapStr k f)

/-- Strand index, spec/01 R10. -/
def ixOf : StrandIx → Nat
  | .s => 0
  | .l => 1
  | .c => 2
  | .w => 3

def ofIx (n : Nat) : StrandIx := match n % 4 with
  | 0 => .s
  | 1 => .l
  | 2 => .c
  | _ => .w

def allStr : List StrandIx := [.s, .l, .c, .w]

/-- A core's die and cluster, spec/00 R2; clusters are numbered through the package. -/
def dieOf (c : Nat) : Nat := c / 512
def clusterOf (c : Nat) : Nat := c / 16

def State.die (s : State) (d : Nat) : Die := Tab.get {} s.dies d
def State.mapDie (s : State) (d : Nat) (f : Die → Die) : State := { s with dies := Tab.set {} s.dies d (f (s.die d)) }
def State.vf (s : State) (v : Nat) : Vf := Tab.get {} s.vfs v
def State.mapVf (s : State) (v : Nat) (f : Vf → Vf) : State := { s with vfs := Tab.set {} s.vfs v (f (s.vf v)) }
def State.vd (s : State) (d v : Nat) : VfDie := Tab.get {} s.vfdie (d * 512 + v)
def State.mapVd (s : State) (d v : Nat) (f : VfDie → VfDie) : State :=
  { s with vfdie := Tab.set {} s.vfdie (d * 512 + v) (f (s.vd d v)) }
def State.queue (s : State) (d q : Nat) : Queue := Tab.get {} (s.die d).queues q
def State.mapQueue (s : State) (d q : Nat) (f : Queue → Queue) : State :=
  s.mapDie d (fun x => { x with queues := Tab.set {} x.queues q (f (Tab.get {} x.queues q)) })
def State.slot (s : State) (d k : Nat) : Slot := Tab.get {} (s.die d).slots k
def State.mapSlot (s : State) (d k : Nat) (f : Slot → Slot) : State :=
  s.mapDie d (fun x => { x with slots := Tab.set {} x.slots k (f (Tab.get {} x.slots k)) })
def State.cluster (s : State) (n : Nat) : Cluster := Tab.get {} s.clusters n
def State.mapCluster (s : State) (n : Nat) (f : Cluster → Cluster) : State :=
  { s with clusters := Tab.set {} s.clusters n (f (s.cluster n)) }
def State.launch (s : State) (n : Nat) : Launch := Tab.get {} s.launches n
def State.mapLaunch (s : State) (n : Nat) (f : Launch → Launch) : State :=
  { s with launches := Tab.set {} s.launches n (f (s.launch n)) }
def State.buf (s : State) (t : Nat) : Option RbBuf := Tab.get none s.bufs t
def State.setBuf (s : State) (t : Nat) (b : Option RbBuf) : State := { s with bufs := Tab.set none s.bufs t b }
def State.out (s : State) (o : Out) : State := { s with outbox := s.outbox ++ [o] }

/-- The context of a core; an idle core reads as a blank context. -/
def State.ctx (s : State) (c : Nat) : Ctx := (s.core c).ctx.getD {}
def State.mapCtx (s : State) (c : Nat) (f : Ctx → Ctx) : State := s.mapCore c (fun x => { x with ctx := x.ctx.map f })

/-- A fresh free value, log entry 7. -/
def State.draw (s : State) : Word × State := (Config.freeWord s.free, { s with free := s.free + 1 })

/-- Core, strand and index named by the turn at the head of the agenda (log entry 1). -/
def State.who (s : State) : Nat × StrandIx × Nat :=
  match s.agenda with
  | .issue c k :: _ => (c, k, 0)
  | .event c k j _ :: _ => (c, k, j)
  | .newt d k :: _ => (d, .s, k)
  | .flit i :: _ | .act i :: _ => (0, .s, i)
  | .read _ _ _ :: _ => (0, .s, 0)
  | [] => (0, .s, 0)

/-- The turn at the head is over. -/
def State.pop (s : State) : State := { s with agenda := s.agenda.tail }

/-- The core that runs a task. -/
def coreOfTask (cs : Tab Core) (t : Nat) : Option Nat :=
  match cs with
  | [] => none
  | (c, x) :: r => if (x.ctx.map (·.task)) = some t then some c else coreOfTask r t

/-- Apply `f` to a task's context, on its core or suspended at its queue. -/
def State.mapTask (s : State) (t : Nat) (f : Ctx → Ctx) : State :=
  match coreOfTask s.cores t with
  | some c => s.mapCtx c f
  | none => { s with dies := s.dies.map (fun (d, x) => (d, { x with queues := x.queues.map (fun (q, y) =>
      (q, { y with resum := y.resum.map (fun z => if z.task = t then f z else z) })) })) }

/-- A function's active features, spec/20 R402. -/
def State.feat (s : State) (vf b : Nat) : Bool := (s.vf vf).featact.getLsbD b

/-! ### The physical address map, spec/15 R298 to R301 -/

/-- Where a physical address lives. -/
inductive Home where
  | hbm (stack : Nat)
  | sdm (die : Nat)
  | aper (core off : Nat)
  | host (hpa : Nat)
  | none
deriving DecidableEq, Repr

def homeOf (pa : Nat) : Home :=
  if pa < 2 ^ 40 then .hbm (pa / 2 ^ 36)
  else if pa < 2 ^ 40 + 2 ^ 34 then
    let o := (pa - 2 ^ 40) % 2 ^ 31
    if o < 0x60000000 && o % 0x3000000 < 0x2E00000 then .sdm ((pa - 2 ^ 40) / 2 ^ 31) else .none
  else if 0x11000000000 ≤ pa && pa < 0x11000000000 + 2 ^ 32 then
    .aper ((pa - 0x11000000000) / 2 ^ 20) ((pa - 0x11000000000) % 2 ^ 20)
  else if 2 ^ 51 ≤ pa && pa < 2 ^ 52 then .host (pa - 2 ^ 51)
  else .none

def Home.die : Home → Option Nat
  | .hbm st => some (st / 2)
  | .sdm d => some d
  | .aper c _ => some (dieOf c)
  | _ => Option.none

/-- Backed for a function, R298 with R400 and R402. The stacks of a die are backed once it is FULL. -/
def State.backed (s : State) (vf : Nat) (pa : Nat) : Bool :=
  match homeOf pa with
  | .hbm st => (s.die (st / 2)).st == .full || (s.die (st / 2)).st == .offline
  | .sdm d => (s.die d).st == .full || (s.die d).st == .early || (s.die d).st == .offline
  | .aper _ _ => true
  | .host _ => s.feat vf 10
  | .none => false

/-- A naturally aligned page lies wholly inside one backed range: both ends are backed in the same range. -/
def State.pageBacked (s : State) (vf pa size : Nat) : Bool :=
  s.backed vf pa && s.backed vf (pa + size - 1) &&
    match homeOf pa, homeOf (pa + size - 1) with
    | .hbm a, .hbm b => a == b
    | .sdm a, .sdm b => a == b && (pa - 2 ^ 40) % 2 ^ 31 / 0x3000000 == (pa + size - 1 - 2 ^ 40) % 2 ^ 31 / 0x3000000
    | .aper a _, .aper b _ => a == b
    | .host _, .host _ => true
    | _, _ => false

/-- The partition of a die, spec/19 R389. -/
def State.partOf (s : State) (d : Nat) : Nat := (s.pkg.pid.extractLsb' (3 * d) 3).toNat

/-- Dies of a partition, in increasing number. -/
def State.diesOf (s : State) (p : Nat) : List Nat := (List.range 8).filter (fun d => s.partOf d == p)

/-! ### Die links, spec/19 R378, R379, R392 -/

def linkEnds : List (Nat × Nat) :=
  [(0, 1), (1, 2), (2, 3), (4, 5), (5, 6), (6, 7), (0, 4), (1, 5), (2, 6), (3, 7), (0, 3), (4, 7), (1, 6), (2, 5)]

/-- The link that joins two dies. -/
def linkOf (a b : Nat) : Option Nat :=
  (List.range 14).find? (fun l => linkEnds.getD l (0, 0) == (a, b) || linkEnds.getD l (0, 0) == (b, a))

/-- RowRoute of R379 by the dies it visits after `a`. -/
def rowRoute (a b : Nat) : List Nat :=
  if a = b then [] else if (linkOf a b).isSome then [b] else [(a + b) / 2, b]

/-- Route of R379 by the dies it visits after `a`. -/
def route (a b : Nat) : List Nat :=
  if a = b then []
  else if (linkOf a b).isSome then [b]
  else if a / 4 ≠ b / 4 then let m := if a < 4 then a + 4 else a - 4; m :: rowRoute m b
  else rowRoute a b

def hopsOf : Nat → List Nat → List Nat
  | _, [] => []
  | a, b :: t => (linkOf a b).toList ++ hopsOf b t

/-- A link that is DOWN holds every flit that needs it, and one that FORCE closes those of every channel between two dies of one
partition and those of REQ and RSP between others, R391, R392. -/
def State.linkShut (s : State) (ch : Chan) (l : Nat) : Bool :=
  let e := linkEnds.getD l (0, 0)
  Tab.get false s.pkg.down l
    || (Tab.get false s.pkg.force l && (s.partOf e.1 == s.partOf e.2 || ch == .req || ch == .rsp))

/-- Whether a flit on a channel from die `a` would wait before an egress on its way to die `b`. -/
def State.shut (s : State) (ch : Chan) (a b : Nat) : Bool := (hopsOf a (route a b)).any (s.linkShut ch)

/-- The die that a request for an address travels to: its home, or die 0 for host memory (R385). -/
def farDie (pa : Nat) : Nat := match homeOf pa with
  | .host _ => 0
  | h => h.die.getD 0

/-- Whether an address lies in a stack that RECALHBM holds (spec/20 R410). -/
def State.recalled (s : State) (pa : Nat) : Bool := match homeOf pa with
  | .hbm st => Tab.get false s.pkg.recal st
  | _ => false

/-- Whether an address lies in host memory. -/
def isHost (pa : Nat) : Bool := match homeOf pa with
  | .host _ => true
  | _ => false

/-- The channels of a request for an address and of its response (R380, R385). -/
def reqChan (pa : Nat) : Chan := if isHost pa then .hst else .req
def rspChan (pa : Nat) : Chan := if isHost pa then .hst else .rsp

/-- The die that answers a request for an address, and the channel of its response. -/
def rspHome (pa : Nat) : Nat × Chan := (farDie pa, rspChan pa)

/-- Whether a request from die `d` to an address is held at an egress or at a stack under RECALHBM (R392, spec/20 R410). -/
def State.reqShut (s : State) (d pa : Nat) : Bool := s.recalled pa || s.shut (reqChan pa) d (farDie pa)

/-- Whether its response would be held at an egress. -/
def State.rspShut (s : State) (d pa : Nat) : Bool := s.shut (rspChan pa) (farDie pa) d

/-- Whether one or the other is held. A read of a walker, a fetch or a device port takes its data once its whole way is open (DESIGN
CHOICE, log entry 97). -/
def State.heldUp (s : State) (d pa : Nat) : Bool := s.reqShut d pa || s.rspShut d pa

/-- A read that has been judged at a die is held on its way: it counts as outstanding as long as it is (R389, R395). -/
def State.holdReq (s : State) (d pa : Nat) : State :=
  { s with reqs := s.reqs.filter (fun e => s.heldUp e.1 e.2 && e != (d, pa)) ++ [(d, pa)] }

/-- Whether a request from die `d` to this address is refused by the firewall, spec/19 R393, R385. -/
def State.refused (s : State) (d pa : Nat) : Bool :=
  match (homeOf pa).die with
  | some h => s.partOf d != s.partOf h
  | none => false

/-- The registers a refusal writes, R393. -/
def State.deny (s : State) (d vf pa : Nat) : State :=
  s.mapDie d (fun x => { x with
    fwdeny := min (x.fwdeny + 1) (2 ^ 32 - 1)
    fwlast := BitVec.ofNat 9 vf ++ BitVec.ofNat 3 ((homeOf pa).die.getD 0) ++ BitVec.ofNat 52 pa })

/-- An entry of the access-fault log, spec/15 R313, R314. -/
def State.logAf (s : State) (d vf : Nat) (e : AfEnt) : State :=
  s.mapVd d vf (fun x =>
    let i := x.afhead % 64
    { x with
      aflog := Tab.set none x.aflog i (some e)
      afhead := x.afhead + 1
      afover := if (Tab.get none x.aflog i).isSome then x.afover + 1 else x.afover })

/-! ### Writes at home ports -/

/-- The die that a writer's requests leave from. -/
def Writer.src (wr : Writer) : Nat := if wr.dev then wr.die else dieOf wr.core

/-- A gst of a strand. -/
def Writer.isGst (wr : Writer) (c : Nat) (k : StrandIx) : Bool := !wr.dev && wr.kind == 0 && wr.core == c && wr.k == k
/-- A gst of some core of a die. -/
def Writer.gstOf (wr : Writer) (d : Nat) : Bool := !wr.dev && wr.kind == 0 && dieOf wr.core == d
/-- A write of a task: of a strand, of its copy engine, or a set publication. -/
def Writer.ofUnits (wr : Writer) : Bool := !wr.dev && (wr.kind == 0 || wr.kind == 1 || wr.kind == 5)
def Writer.ofCore (wr : Writer) (c : Nat) : Bool := wr.ofUnits && wr.core == c
def Writer.ofTask (wr : Writer) (t : Nat) : Bool := wr.ofUnits && wr.task == t

def reportVal (wr : Writer) (ix off : Nat) : Word :=
  BitVec.ofNat 64 (off % 2 ^ 16 + ix * 2 ^ 16 + wr.kind * 2 ^ 18
    + (if wr.kind = 0 ∨ wr.kind = 1 ∨ wr.kind = 5 then wr.core * 2 ^ 24 else 0)
    + (if wr.kind = 0 then ixOf wr.k * 2 ^ 36 else 0) + (if wr.kind = 2 then wr.pkg.toNat * 2 ^ 48 else 0))

/-- A write of the bytes at `ix`, lowest first, meets an armed watchpoint: the report is held, with the lowest written
byte of the range; a second hit sets MISSED (R319, R320). -/
def hitOne (wr : Writer) (ix : List Nat) (s : State) (a : Armed) : State :=
  match ix.find? (fun i => a.pa ≤ i && i < a.pa + a.size) with
  | none => s
  | some i => s.mapTask a.task (fun x =>
      match Tab.get none x.reports a.ix with
      | none => { x with reports := Tab.set none x.reports a.ix (some (reportVal wr a.ix (i - a.pa))) }
      | some _ => { x with wpc := Tab.set 0 x.wpc a.ix (Tab.get 0 x.wpc a.ix ||| 8) })

/-- The written byte offsets of an enabled write. -/
def enabledIx : Nat → List (Option Byte) → List Nat
  | _, [] => []
  | i, some _ :: t => i :: enabledIx (i + 1) t
  | i, none :: t => enabledIx (i + 1) t

def writeEn (m : List Host.Cell) (x : Nat) : List (Option Byte) → List Host.Cell
  | [] => m
  | some b :: t => writeEn (Tab.set 0 m x b) (x + 1) t
  | none :: t => writeEn m (x + 1) t

/-- A write applied at its home port: bytes with enables, poison (R301), watchpoints (R319), or the scratch region of
a core by its aperture (R300). The bytes lie in one 16-byte granule. A write to host memory goes out as a WrCur and waits for the host's completion (R385, R416). -/
def State.portWrite (s : State) (wr : Writer) (pa : Nat) (bs : List (Option Byte)) : State :=
  let ix := enabledIx pa bs
  if ix.isEmpty then s else
  match homeOf pa with
  | .aper k o => s.mapCore k (fun t => { t with
      scr := writeEn t.scr o bs, valid := Tab.set false t.valid (o / 16) true })
  | h =>
    let s : State := { s with
      mem := writeEn s.mem pa bs
      poison := if ix.length = 16 then s.poison.filter (· != pa / 16) else s.poison }
    let s : State := match h with
      | .host h => { s with outbox := s.outbox ++ [Out.wrCur h bs], hostOut := s.hostOut ++ [{ src := wr.src, wr := wr, hpa := h, bytes := bs }] }
      | _ => s
    s.armed.foldl (hitOne wr ix) s

/-- Whether any granule of the bytes is poisoned. -/
def State.poisoned (s : State) (pa n : Nat) : Bool :=
  (List.range ((pa + n - 1) / 16 - pa / 16 + 1)).any (fun i => s.poison.contains (pa / 16 + i))

/-- A read at a home port. A read of host memory goes out as a RdCur. -/
def State.portRead (s : State) (pa n : Nat) : List Byte :=
  match homeOf pa with
  | .aper k o => readBytes (s.core k).scr o n
  | _ => readBytes s.mem pa n

/-- Reads of host memory line by line, R416; `fuel` bounds the lines. -/
def noteLines : Nat → Nat → Nat → State → State
  | 0, _, _, s => s
  | fuel + 1, h, n, s =>
    if n = 0 then s else
    let m := min n (64 - h % 64)
    noteLines fuel (h + m) (n - m) (s.out (.rdCurr (h / 64 * 64) m))

/-- A read of `n` bytes goes out as a RdCurr of every line of host memory that it touches, R416. -/
def State.noteRead (s : State) (pa n : Nat) : State :=
  match homeOf pa with
  | .host h => noteLines (n / 64 + 2) h n s
  | _ => s

/-! ### Flits, spec/19 R380, R381 -/

/-- A flit enters the egress of its die; one for a port of its own die is there. -/
def State.sendFlit (s : State) (src dst : Nat) (ch : Chan) (x : Cargo) : State := { s with wire := s.wire ++ [⟨src, dst, ch, 0, x⟩] }

/-- Whether a flit has come to its die. -/
def Flit.home (f : Flit) : Bool := f.hop ≥ (route f.src f.dst).length

/-- A write leaves its unit for its home port; host memory lies behind die 0 on HST (R385). -/
def State.sendWrite (s : State) (wr : Writer) (pa : Nat) (bs : List (Option Byte)) (more : Bool) : State :=
  s.sendFlit wr.src (farDie pa) (reqChan pa) (.store wr pa bs more)

/-- The writer of a write or of its acknowledgement. -/
def Flit.writer (f : Flit) : Option Writer := match f.cargo with
  | .store wr _ _ _ => some wr
  | .ack wr => some wr
  | _ => none

/-- A write that has not been applied. -/
def Flit.isStore (f : Flit) : Bool := match f.cargo with
  | .store .. => true
  | _ => false

/-- The 16-byte granule that a flit writes. -/
def Flit.gran (f : Flit) : Option Nat := match f.cargo with
  | .store _ pa _ _ => some (pa / 16)
  | _ => none

/-- Whether an access of a party of die `d` comes behind a write on its way: one of the die to that granule of another die or of host memory
(R381), or, to host memory, whatever has gone before it on HST (R380). -/
def State.behindDie (s : State) (d pa : Nat) : Bool :=
  s.wire.any (fun f => f.src == d && ((f.gran == some (pa / 16) && (f.src != f.dst || f.chan == .hst))
    || (isHost pa && f.chan == .hst && f.dst == 0)))

/-- Whether an access of core `c` comes behind a write on its way: one that its die comes behind, or one of the core itself to a port of
their die (R273). -/
def State.behind (s : State) (c pa : Nat) : Bool :=
  s.behindDie (dieOf c) pa || s.wire.any (fun f => f.gran == some (pa / 16) && f.src == dieOf c && (f.writer.map (·.ofCore c)).getD false)

/-- Whether the gst before a release are performed at its scope, spec/19 R381. Up to die scope those of the strand to homes on its die
have been applied there; the others are in the egress. At package and at system scope this goes for every gst of the die: what happens
before the release by narrower releases is among them (R277, spec/17 R349, spec/21 R431; DEDUCED, log entry 98). -/
def State.sentDone (s : State) (c : Nat) (k : StrandIx) (sc : Nat) : Bool :=
  let mine (f : Flit) : Bool := (f.writer.map (·.isGst c k)).getD false
  let near (f : Flit) : Bool := (f.writer.map (·.gstOf (dieOf c))).getD false
  if sc ≤ 2 then s.wire.all (fun f => !(mine f && f.src == f.dst && f.chan == .req))
  else if sc = 3 then s.wire.all (fun f => !(near f && (f.isStore || f.chan != .hst)))
  else s.wire.all (fun f => !near f) && s.hostOut.all (fun e => !e.wr.gstOf (dieOf c))

/-- Whether every gst that a strand has sent has been applied at its home port. -/
def State.applied (s : State) (c : Nat) (k : StrandIx) : Bool :=
  s.wire.all (fun f => !(f.isStore && (f.writer.map (·.isGst c k)).getD false))

/-- Whether every write of a task is performed at system scope. -/
def State.allDone (s : State) (task : Nat) : Bool :=
  s.wire.all (fun f => !((f.writer.map (·.ofTask task)).getD false)) && s.hostOut.all (fun e => !e.wr.ofTask task)

/-! ### The page walk, spec/15 R302 to R304 -/

/-- The outcome of a walk. -/
inductive WalkRes where
  | leaf (pa size : Nat) (perm : BitVec 3) (ats : Bool)
  | absent (pr : Bool)
  | fault (reason : Nat)
  | firewall (pa : Nat)
deriving DecidableEq, Repr

def permNeed : AccKind → BitVec 3
  | .read => 1
  | .write => 2
  | .rmw => 3
  | .fetch => 4

/-- Index of a virtual address, table bytes and page size by level, R302. -/
def levelIx (L va : Nat) : Nat := match L with
  | 4 => va / 2 ^ 45 % 4096
  | 3 => va / 2 ^ 36 % 512
  | 2 => va / 2 ^ 30 % 64
  | 1 => va / 2 ^ 21 % 512
  | _ => va / 2 ^ 16 % 32
def tableBytes (L : Nat) : Nat := match L with
  | 4 => 32768
  | 3 => 4096
  | 2 => 512
  | 1 => 4096
  | _ => 256
def pageSize (L : Nat) : Nat := match L with
  | 3 => 2 ^ 36
  | 2 => 2 ^ 30
  | 1 => 2 ^ 21
  | _ => 2 ^ 16

/-- A table may lie in HBM, in SDM outside the pools, or in host memory, backed (R304). -/
def State.tableOk (s : State) (vf t n : Nat) : Bool :=
  s.pageBacked vf t n && (match homeOf t with | .aper _ _ => false | _ => true)

/-- The base that an entry holds. -/
def entryBase (w : Word) : Nat := w.toNat % 2 ^ 52 / 4096 * 4096

/-- Levels L − 1 down to 0 of a walk whose next table is at `t`, R304. -/
def walkFrom (s : State) (d vf : Nat) (va : Nat) (kind : AccKind) : Nat → Nat → WalkRes
  | 0, _ => .fault 3
  | L + 1, t =>
    if !s.tableOk vf t (tableBytes L) then .fault 4 else
    let a := t + 8 * levelIx L va
    if s.refused d a then .firewall a
    else if s.poisoned a 8 then .fault 7
    else
      let w := BitVec.ofNat 64 (leNat (s.portRead a 8))
      let leaf := w.getLsbD 1
      let at' := w.getLsbD 7
      if !w.getLsbD 0 then .absent (w.getLsbD 6 && s.feat vf 6)
      else if w.extractLsb' 52 12 != 0 || w.extractLsb' 8 4 != 0 || w.getLsbD 2
          || (!leaf && (at' || w.extractLsb' 3 3 != 0)) || (leaf && L == 4) || (!leaf && L == 0)
          || (leaf && w.getLsbD 4 && !w.getLsbD 3) || (leaf && at' && !s.feat vf 7)
          || (leaf && entryBase w % pageSize L != 0) then .fault 3
      else
        let base := entryBase w
        if leaf then
          let perm := w.extractLsb' 3 3
          if !at' && !s.pageBacked vf base (pageSize L) then .fault 4
          else if perm &&& permNeed kind != permNeed kind then .fault 2
          else .leaf base (pageSize L) perm at'
        else walkFrom s d vf va kind L base

/-- The level-4 table of a function. -/
def rootOf (r : Word) : Nat := r.toNat % 2 ^ 52 / 2 ^ 15 * 2 ^ 15

/-- Walk(va, kind), R304, with the low 57 bits of the address; PTROOT.EN = 0 faults with reason 1 (R314). -/
def walk (s : State) (d vf : Nat) (va : Word) (kind : AccKind) : WalkRes :=
  let r := (s.vf vf).ptroot
  if !r.getLsbD 0 then .fault 1
  else walkFrom s d vf (va.toNat % 2 ^ 57) kind 5 (rootOf r)

/-- The entries that such a walk reads, in order. -/
def entriesFrom (s : State) (d vf : Nat) (va : Nat) : Nat → Nat → List Nat
  | 0, _ => []
  | L + 1, t =>
    if !s.tableOk vf t (tableBytes L) then [] else
    let a := t + 8 * levelIx L va
    if s.refused d a then [] else
    let w := BitVec.ofNat 64 (leNat (s.portRead a 8))
    a :: (if w.getLsbD 0 && !w.getLsbD 1 && !s.poisoned a 8 then entriesFrom s d vf va L (entryBase w) else [])

def entriesOf (s : State) (d vf : Nat) (va : Word) : List Nat :=
  let r := (s.vf vf).ptroot
  if !r.getLsbD 0 then [] else entriesFrom s d vf (va.toNat % 2 ^ 57) 5 (rootOf r)

/-! ### Translation, spec/15 R305 to R312 -/

/-- What a translation or an access answers: an address, a fault with its reason, a request that has left its unit and is held on its
way (R392), or wait (R306). -/
inductive TrRes where
  | ok (pa : Nat)
  | fault (fw : Bool) (reason : Nat)
  | held (pa : Nat)
  | wait
deriving DecidableEq, Repr

/-- The 64 KiB block of a virtual address. -/
def pageOf (va : Word) : Nat := va.toNat % 2 ^ 57 / 2 ^ 16

/-- Whether an entry stands in the TLB of a cluster or the micro-TLB of a core that a core looks into. -/
def TlbEntry.seenBy (e : TlbEntry) (c : Nat) : Bool := e.cluster == clusterOf c && (e.micro.isNone || e.micro == some c)

/-- Whether an entry covers an address of a function. -/
def TlbEntry.covers (e : TlbEntry) (vf : Nat) (va : Word) : Bool :=
  let a := va.toNat % 2 ^ 57
  e.vf == vf && e.base ≤ a && a < e.base + e.size

/-- The cached leaf that covers an address and allows the access, R305. -/
def tlbHit (s : State) (c vf : Nat) (va : Word) (kind : AccKind) : Option Nat :=
  (s.tlb.find? (fun e => e.seenBy c && e.covers vf va && e.perm &&& permNeed kind == permNeed kind)).map
    (fun e => e.pa + (va.toNat % 2 ^ 57 - e.base))

/-- The entries that share a TLB with `e`. -/
def TlbEntry.mates (e : TlbEntry) (l : List TlbEntry) : List TlbEntry := l.filter (fun x => x.cluster == e.cluster && x.micro == e.micro)

/-- An entry joins its TLB in place of one that covers the same address; a full TLB of `n` entries gives up its oldest
(log entry 9). -/
def tlbPut (n : Nat) (l : List TlbEntry) (e : TlbEntry) : List TlbEntry :=
  let l := l.filter (fun x => !(x.cluster == e.cluster && x.micro == e.micro && x.vf == e.vf && x.base ≤ e.base && e.base < x.base + x.size))
  (match e.mates l with
    | o :: t => if t.length + 1 ≥ n then l.erase o else l
    | [] => l) ++ [e]

/-- A leaf is cached for a core: in the micro-TLB of 64 entries and in its cluster's TLB of 2048, R305. -/
def State.cacheLeaf (s : State) (c vf : Nat) (va : Word) (base size : Nat) (perm : BitVec 3) (ats : Option Nat) : State :=
  let e : TlbEntry := ⟨clusterOf c, none, vf, va.toNat % 2 ^ 57 / size * size, size, base, perm, ats⟩
  { s with tlb := tlbPut 64 (tlbPut 2048 s.tlb e) { e with micro := some c } }

/-- Walks that occupy the walker of a die, R306. -/
def State.walking (s : State) (d : Nat) : Nat :=
  (s.walks.filter (fun w => w.die == d && (match w.st with | .refused _ | .withdrawn => false | _ => true))).length

/-- An access leaves a walk; one that nobody waits for is gone. -/
def leaveWalk (s : State) (w : Walk) (y : Who) : State :=
  let z : Walk := { w with who := w.who.filter (· != y) }
  { s with walks := s.walks.flatMap (fun x => if x = w then (if z.who.isEmpty then [] else [z]) else [x]) }

/-- Accesses that are over, or have failed, wait for no walk; a page request without waiters is left to its response (R312). -/
def State.leaveWalks (s : State) (p : Who → Bool) : State :=
  { s with walks := s.walks.filterMap (fun w =>
      let who := w.who.filter (fun y => !p y)
      if who.isEmpty then none else some { w with who := who }) }

/-- A walk changes. -/
def State.putWalk (s : State) (w z : Walk) : State := { s with walks := s.walks.map (fun x => if x = w then z else x) }

/-- The lowest free slot of a function for a page request, R311 (log entry 22). -/
def freeSlot (v : Vf) : Option Nat := (List.range (v.pralloc.toNat + 1)).find? (fun i => v.preqs.all (fun r => r.slot != i))

/-- A page request is sent in the lowest free slot, R311, or waits for one. -/
def askPage (s : State) (w : Walk) (kind : AccKind) : State :=
  match freeSlot (s.vf w.vf) with
  | none => s.putWalk w { w with st := .slot }
  | some i =>
    let s := (s.putWalk w { w with asked := true, st := .page i }).mapVf w.vf (fun v => { v with preqs := v.preqs ++ [⟨i, w.page⟩] })
    s.out (.pageRequest w.vf (BitVec.ofNat 20 (s.vf w.vf).gen.toNat) i ((BitVec.ofNat 57 (w.page * 2 ^ 16)).signExtend 64).toNat
      (kind == .read || kind == .rmw || kind == .fetch) (kind == .write || kind == .rmw))

/-- One pass of a walk from level 4 for the access `y` of core `c`, R304, R309, R311. A read that is held on its way (R392), or that comes
behind a write (R380), makes it wait. -/
def walkOnce (s : State) (d c : Nat) (w : Walk) (y : Who) (va : Word) (kind : AccKind) : State × TrRes :=
  let as := entriesOf s d w.vf va
  match as.find? (s.heldUp d) with
  | some a => (s.holdReq d a, .wait)
  | none =>
  if as.any (s.behindDie d) then (s, .wait) else
  let s := as.foldl (fun s a => s.noteRead a 8) s
  match walk s d w.vf va kind with
  | .fault r => (leaveWalk s w y, .fault false r)
  | .firewall pa => ((leaveWalk s w y).deny d w.vf pa, .fault true 10)
  | .absent pr =>
    if !pr || !(s.vf w.vf).pren || (s.vf w.vf).prstop || w.asked then (leaveWalk s w y, .fault false 1) else (askPage s w kind, .wait)
  | .leaf base size _ false => (leaveWalk s w y, .ok (base + va.toNat % 2 ^ 57 % size))
  | .leaf base size perm true =>
    let io := base / 2 ^ 12
    match w.st with
    | .answer i pa =>
      if i = io then ((leaveWalk s w y).cacheLeaf c w.vf va pa size perm (some io), .ok (pa + va.toNat % 2 ^ 57 % size))
      else ((s.putWalk w { w with st := .ats io }).out (.atsRequest w.vf base (BitVec.ofNat 20 (s.vf w.vf).gen.toNat)), .wait)
    | _ => ((s.putWalk w { w with st := .ats io }).out (.atsRequest w.vf base (BitVec.ofNat 20 (s.vf w.vf).gen.toNat)), .wait)

/-- The walk that an access waits for, or else one of its block that runs. -/
def State.walkOf (s : State) (d vf page : Nat) (y : Who) : Option Walk :=
  let mine (w : Walk) : Bool := w.die == d && w.vf == vf && w.page == page
  (s.walks.find? (fun w => mine w && w.who.contains y)).or
    (s.walks.find? (fun w => mine w && (match w.st with | .refused _ | .withdrawn => false | _ => true)))

/-- A walk that has come to an end leaves no trace; one that waits stands among the walks. -/
def newWalk (s : State) (d c vf : Nat) (y : Who) (va : Word) (kind : AccKind) : State × TrRes :=
  if s.walking d ≥ 32 then (s, .wait) else
  let w : Walk := ⟨d, vf, pageOf va, [y], false, .again⟩
  match walkOnce { s with walks := s.walks ++ [w] } d c w y va kind with
  | (t, .wait) => (if t.walks.getLast? = some w then { t with walks := s.walks } else t, .wait)
  | r => r

/-- A miss: it joins a running walk of its block, or starts its own unless 32 run (R306). -/
def missTr (s : State) (d c vf : Nat) (y : Who) (va : Word) (kind : AccKind) : State × TrRes :=
  match s.walkOf d vf (pageOf va) y with
  | none => newWalk s d c vf y va kind
  | some w =>
    let z : Walk := if w.who.contains y then w else { w with who := w.who ++ [y] }
    let s := s.putWalk w z
    match z.st with
    | .slot => (askPage s z kind, .wait)
    | .page _ | .ats _ | .withdrawn => (s, .wait)
    | .refused r => (leaveWalk s z y, .fault false r)
    | .again | .answer _ _ => walkOnce s d c z y va kind

/-- Whether an access waits for a walk of a block. -/
def State.waits (s : State) (y : Who) (vf page : Nat) : Bool := s.walks.any (fun w => w.who.contains y && w.vf == vf && w.page == page)

/-- Translation of the access `u` of a core; PTROOT.EN = 0 makes every one fail (R314), and one that waits for a walk is answered by
it (R306, R311). -/
def translate (s : State) (c u vf : Nat) (va : Word) (kind : AccKind) : State × TrRes :=
  if !(s.vf vf).ptroot.getLsbD 0 then (s.leaveWalks (· == ⟨c, u⟩), .fault false 1) else
  match if s.waits ⟨c, u⟩ vf (pageOf va) then none else tlbHit s c vf va kind with
  | some pa => (s, .ok pa)
  | none => missTr s (dieOf c) c vf ⟨c, u⟩ va kind

/-! ### Accesses -/

/-- Numbers of the accesses of a core: those of its strands' head words, of a store or load in place `ord`, of a granule published. -/
def unitHead (k : StrandIx) : Nat := ixOf k
def unitOrd (ord : Nat) : Nat := 2 * ord + 4
def unitPub (g : Nat) : Nat := 2 * g + 5

/-- A fault of an access is logged, R313. -/
def badAccess (s : State) (c vf : Nat) (va : Word) (kind : AccKind) (fw : Bool) (r : Nat) : State × TrRes :=
  (s.logAf (dieOf c) vf ⟨va, c, kind, r⟩, .fault fw r)

/-- Whether an aperture takes an access of `n` bytes of a function at an offset, R300. -/
def State.aperOk (s : State) (vf k o n : Nat) : Bool := match (s.core k).ctx with
  | some x => x.vf == vf && o + n ≤ x.scrsize
  | none => false

/-- Whether an access is held on its way: a write waits in the egress or at its port and holds nothing in its unit; a fetch takes its data
at once. -/
def State.holds (s : State) (kind : AccKind) (d pa : Nat) : Bool := match kind with
  | .write => false
  | .fetch => s.heldUp d pa
  | .read | .rmw => s.reqShut d pa

/-- A request that has been judged reaches its home port unless it is held: poison and apertures (R300, R301) for an access of `n`
bytes; `apOk` for copy commands. -/
def accessAt (s : State) (c vf : Nat) (va : Word) (kind : AccKind) (n : Nat) (apOk : Bool) (pa : Nat) : State × TrRes :=
  if s.holds kind (dieOf c) pa then (s.holdReq (dieOf c) pa, .held pa) else
  match homeOf pa with
  | .aper k o => if apOk && s.aperOk vf k o n then (s, .ok pa) else badAccess s c vf va kind false 9
  | .none => badAccess s c vf va kind false 4
  | _ =>
    if !s.backed vf pa then badAccess s c vf va kind false 4
    else if (kind = .read || kind = .fetch) && s.poisoned pa n then badAccess s c vf va kind false 8
    else (s, .ok pa)

/-- Translation, then the judgement of the firewall on the home (R393) and the access at its port. Every fault is logged (R313). -/
def access (s : State) (c u vf : Nat) (va : Word) (kind : AccKind) (n : Nat) (apOk : Bool) : State × TrRes :=
  match translate s c u vf va kind with
  | (s, .ok pa) =>
    if s.refused (dieOf c) pa then badAccess (s.deny (dieOf c) vf pa) c vf va kind true 10
    else accessAt s c vf va kind n apOk pa
  | (s, .fault fw r) => badAccess s c vf va kind fw r
  | r => r

/-- The access of a request that may have left its unit already and been judged (R393). -/
def accessFrom (s : State) (c u vf : Nat) (va : Word) (kind : AccKind) (n : Nat) (apOk : Bool) : Option Nat → State × TrRes
  | some pa => accessAt s c vf va kind n apOk pa
  | none => access s c u vf va kind n apOk

/-- A read that takes its data in its turn: one whose response would be held, or that comes behind a write, waits. -/
def readNow (s : State) (c u vf : Nat) (va : Word) (kind : AccKind) (n : Nat) : State × TrRes :=
  match access s c u vf va kind n false with
  | (t, .ok pa) => if t.rspShut (dieOf c) pa then (t.holdReq (dieOf c) pa, .held pa) else if t.behind c pa then (t, .wait) else (t, .ok pa)
  | r => r

/-! ### The device's own saved areas -/

/-- The unit of a core that reaches page `j` of its saved areas. -/
def unitArea (j : Nat) : Nat := unitPub (2 ^ 60 + j)

/-- The physical address of a virtual one by a cached leaf or by the page tables, for the device's own saved areas, when the firewall lets
it through and it lies in no aperture, which copy commands alone reach (R300; log entry 13). -/
def devPa (s : State) (c : Nat) (va : Word) (kind : AccKind) : Option Nat :=
  let vf := (s.ctx c).vf
  let pa : Option Nat := if !(s.vf vf).ptroot.getLsbD 0 then none else (tlbHit s c vf va kind).or
    (match walk s (dieOf c) vf va kind with
      | .leaf base size _ false => some (base + va.toNat % 2 ^ 57 % size)
      | _ => none)
  pa.bind (fun p => if s.refused (dieOf c) p || !s.backed vf p then none else match homeOf p with
    | .aper _ _ => none
    | _ => some p)

/-- A run of bytes cut at the granules of 16 bytes; `fuel` bounds them. -/
def granRuns : Nat → Nat → List Byte → List (Nat × List (Option Byte))
  | 0, _, _ => []
  | fuel + 1, pa, bs =>
    if bs.isEmpty then [] else
    let n := 16 - pa % 16
    (pa, (bs.take n).map some) :: granRuns fuel (pa + n) (bs.drop n)

/-- A write of a core's saved area, performed at once unless it is held on its way or comes behind another. -/
def devGranule (c : Nat) (s : State) (e : Nat × List (Option Byte)) : State :=
  let wr : Writer := { kind := 7, core := c, dev := true, die := dieOf c, vf := (s.ctx c).vf, task := (s.ctx c).task }
  if s.reqShut (dieOf c) e.1 || s.behind c e.1 then s.sendWrite wr (e.1 / 16 * 16) (List.replicate (e.1 % 16) none ++ e.2) false
  else s.portWrite wr e.1 e.2

/-- A device write to a mapped area of the context, page by page of 4 KiB; bytes on pages that cannot be written are dropped (log
entry 13). `fuel` bounds the pages. -/
def devWriteF (s : State) (c : Nat) : Nat → Word → List Byte → State
  | 0, _, _ => s
  | fuel + 1, va, bs =>
    if bs.isEmpty then s else
    let n := 4096 - va.toNat % 4096
    let s := match devPa s c va .write with
      | some pa => (granRuns 257 pa (bs.take n)).foldl (devGranule c) s
      | none => s
    devWriteF s c fuel (va + BitVec.ofNat 64 n) (bs.drop n)

def devWrite (s : State) (c : Nat) (va : Word) (bs : List Byte) : State := devWriteF s c (bs.length / 4096 + 2) va bs

/-- Bytes as the device reads them at a home port: poisoned granules deliver no data, and each such byte is a free value (log
entry 13). -/
def State.cleanRead (s : State) (pa n : Nat) : List Byte :=
  if !s.poisoned pa n then s.portRead pa n
  else ((s.portRead pa n).zip (List.range n)).map (fun e => if s.poison.contains ((pa + e.2) / 16) then Config.lostByte (pa + e.2) else e.1)

/-- A device read of a mapped area of the context; bytes on pages that cannot be read are free values (log entry 13). -/
def devReadF (s : State) (c : Nat) : Nat → Word → Nat → List Byte
  | 0, _, _ => []
  | fuel + 1, va, len =>
    if len = 0 then [] else
    let n := min len (4096 - va.toNat % 4096)
    (match devPa s c va .read with
      | some pa => s.cleanRead pa n
      | none => (List.range n).map (fun i => Config.lostByte (va.toNat + i))) ++ devReadF s c fuel (va + BitVec.ofNat 64 n) (len - n)

def devRead (s : State) (c : Nat) (va : Word) (len : Nat) : List Byte := devReadF s c (len / 4096 + 2) va len

def devWord (s : State) (c : Nat) (va : Word) : Word := BitVec.ofNat 64 (leNat (devRead s c va 8))

/-- The 64 KiB blocks of an area, each by its first address there. -/
def areaBlocks (va : Word) (len : Nat) : List Word :=
  (List.range ((va.toNat % 2 ^ 16 + len - 1) / 2 ^ 16 + 1)).map (fun j => if j = 0 then va else BitVec.ofNat 64 ((va.toNat / 2 ^ 16 + j) * 2 ^ 16))

/-- An area that a core is to reach: its address, its length and the kind of access. -/
structure Area where
  va   : Word
  len  : Nat
  kind : AccKind

/-- The blocks of several areas with the kind of access. -/
def areaList (l : List Area) : List (Nat × Word × AccKind) :=
  let bs := l.flatMap (fun a => (areaBlocks a.va a.len).map (fun v => (v, a.kind)))
  (List.range bs.length).zip bs

/-- Whether the translation of every block has come to an end (R306, R309, R311); a read that is held on its way or comes behind a write
waits too. -/
def areasWalked (c : Nat) : State → List (Nat × Word × AccKind) → State × Bool
  | s, [] => (s, true)
  | s, (j, va, kind) :: t =>
    match translate s c (unitArea j) (s.ctx c).vf va kind with
    | (u, .wait) | (u, .held _) => (u, false)
    | (_, .fault _ _) => areasWalked c s t
    | (u, .ok pa) =>
      if kind = .read && !u.refused (dieOf c) pa && u.heldUp (dieOf c) pa then (u.holdReq (dieOf c) pa, false)
      else if kind = .read && u.behind c pa then (u, false)
      else areasWalked c u t

/-- A block that cannot be reached is logged with its reason, and a refusal counted (R313, R393, R394). -/
def areaLog (c : Nat) (s : State) (e : Nat × Word × AccKind) : State :=
  let d := dieOf c
  let vf := (s.ctx c).vf
  let log (s : State) (r : Nat) : State := s.logAf d vf ⟨e.2.1, c, e.2.2, r⟩
  match translate s c (unitArea e.1) vf e.2.1 e.2.2 with
  | (s, .fault _ r) => log s r
  | (s, .ok pa) =>
    if s.refused d pa then log (s.deny d vf pa) 10 else
    match homeOf pa with
    | .aper _ _ => log s 9
    | _ => if s.backed vf pa then s else log s 4
  | (s, _) => s

/-- The areas of a core are reached: whether what the core has to do there can be done now. -/
def State.reach (s : State) (c : Nat) (l : List Area) : State × Bool :=
  match areasWalked c s (areaList l) with
  | (s, true) => ((areaList l).foldl (areaLog c) s, true)
  | r => r

/-- The reads of host memory that reading an area makes (R385, R416). -/
def noteArea (s : State) (c : Nat) (va : Word) (len : Nat) : State :=
  (List.range ((len + 4095) / 4096)).foldl (fun s j => match devPa s c (va + BitVec.ofNat 64 (4096 * j)) .read with
    | some p => s.noteRead p (min 4096 (len - 4096 * j))
    | none => s) s

/-- Whether every write of a task's saved areas is performed at system scope (spec/06 R124). -/
def State.savedDone (s : State) (task : Nat) : Bool :=
  let mine (wr : Writer) : Bool := wr.kind == 7 && wr.task == task
  s.wire.all (fun f => !((f.writer.map mine).getD false)) && s.hostOut.all (fun e => !mine e.wr)

end Sys2Proof.Machine
end

