-- ==== Sys2Proof/Machine/Events.lean ====
section
/-!
DEFINITION. Records that the units of a die produce beside their work: events for the Newt (spec/18 R361, R362), trace
records (R374, R375), event-queue records of a core (spec/07 R161), MSI-X vectors. None of them delays its poster.
-/

namespace Sys2Proof.Machine

/-- The place of an event among those of its clock cycle: its core, and events with NC = 1 last (R363). -/
def eventPlace (e : List (BitVec 32)) : Nat := ((e.headD 0).extractLsb' 10 13).toNat

/-- Put an event behind those that come no later. -/
def insEvent (e : List (BitVec 32)) : List (List (BitVec 32)) → List (List (BitVec 32))
  | [] => [e]
  | a :: t => if eventPlace e < eventPlace a then e :: a :: t else a :: insEvent e t

/-- An event record joins the die's event network, R361, and reaches the Newt at the end of the clock cycle. -/
def State.post (s : State) (d : Nat) (f0 vf f3 f4 f5 : Nat) : State :=
  let e : List (BitVec 32) := [BitVec.ofNat 32 f0, BitVec.ofNat 32 vf, BitVec.ofNat 32 s.dieclk, BitVec.ofNat 32 f3, BitVec.ofNat 32 f4,
    BitVec.ofNat 32 f5, 0, 0]
  s.mapDie d (fun x => { x with newtNow := insEvent e x.newtNow })

/-- An event of a core, for the tenant of its context. -/
def State.postCore (s : State) (c : Nat) (k : StrandIx) (kind f3 f4 f5 : Nat) : State :=
  s.post (dieOf c) (kind + ixOf k * 2 ^ 8 + c * 2 ^ 10) (s.ctx c).vf f3 f4 f5

/-- An event that no core posts: NC = 1. -/
def State.postNc (s : State) (d kind vf f3 f4 f5 : Nat) : State := s.post d (kind + 2 ^ 22) vf f3 f4 f5

/-- A trace record of function `vf` enters the core's FIFO of 32 records, or is dropped and counted (R374). -/
def State.traceFor (s : State) (vf c : Nat) (k : StrandIx) (kind : Nat) (pc : Word) (aux : Nat) : State :=
  let d := dieOf c
  if !(s.vd d vf).nten then s else
  let x := s.core c
  if x.trace.length ≥ 32 then
    (s.mapVd d vf (fun v => { v with ntdrop := min (v.ntdrop + 1) (2 ^ 32 - 1) })).mapCore c (fun x => { x with lost := true })
  else
    let r : TraceRec := ⟨pc, kind, k, x.lost, min (s.clock - max x.tlast (s.vd d vf).ntsince) (2 ^ 32 - 1), aux, vf, none⟩
    s.mapCore c (fun x => { x with trace := x.trace ++ [r], lost := false, tlast := s.clock })

/-- A trace record of the task that the core runs. -/
def State.trace (s : State) (c : Nat) (k : StrandIx) (kind : Nat) (pc : Word) (aux : Nat) : State :=
  s.traceFor (s.ctx c).vf c k kind pc aux

/-- Event records that the queue holds, that sources hold, or that this clock cycle has posted. -/
def Core.evCount (x : Core) : Nat := x.evq.length + (x.ctx.getD {}).evwait.length + x.evnow.length

/-- Whether the core's event queue has room, R161. -/
def Core.evRoom (x : Core) : Bool := x.evCount < 64

/-- An event-queue record, R161. -/
def evRec (kind : Nat) (k : StrandIx) (info : Nat) : Word :=
  BitVec.ofNat 64 (kind * 2 ^ 56 + ixOf k * 2 ^ 54 + info % 2 ^ 48)

/-- Put a post behind those of earlier clock cycles and, of its own, those of sources that come no later: the key is four times the
clock and 0 for the copy engine, 1 for multicast, 2 for the collective engine (R161). -/
def insPost (p : Nat) (r : Word) : List (Nat × Word) → List (Nat × Word)
  | [] => [(p, r)]
  | e :: t => if p < e.1 then (p, r) :: e :: t else e :: insPost p r t

/-- Post a record: it enters the core's event queue at the end of the clock cycle. -/
def State.postEv (s : State) (c p : Nat) (r : Word) : State := s.mapCore c (fun x => { x with evnow := insPost (4 * s.clock + p) r x.evnow })

end Sys2Proof.Machine
end

