-- ==== Sys2Proof/Machine/Num.lean ====
section
/-!
DEFINITION. Number formats, rounding and the order of sums (spec/03 R50 to R78), computed exactly on integers.
A finite real is a sign, a natural significand and a binary exponent; flags are ordered as sst[9:5].
-/

namespace Sys2Proof.Machine

/-- A binary floating-point format, R52. -/
structure Fmt where
  bits : Nat
  p    : Nat
  emin : Int
  emax : Int
deriving DecidableEq, Repr

def bf16 : Fmt := ⟨16, 8, -126, 127⟩
def f32 : Fmt := ⟨32, 24, -126, 127⟩
def f64 : Fmt := ⟨64, 53, -1022, 1023⟩

/-- The float format of an element type code, R42. -/
def fmtOf (et : Nat) : Fmt := if et = 7 then bf16 else if et = 8 then f32 else f64

/-- An exact value: NaN, an infinity, or (−1)^s · m · 2^e, a signed zero when m = 0. -/
inductive Fv where
  | nan
  | inf (s : Bool)
  | num (s : Bool) (m : Nat) (e : Int)
deriving DecidableEq, Repr

abbrev Flags := BitVec 5
def flNX : Flags := 1
def flUF : Flags := 2
def flOF : Flags := 4
def flDZ : Flags := 8
def flNV : Flags := 16
def flIf (c : Bool) (f : Flags) : Flags := if c then f else 0

/-- Fraction bits P of R53. -/
def Fmt.pf (F : Fmt) : Nat := F.p - 1
/-- The weight of the last place of a subnormal. -/
def Fmt.qmin (F : Fmt) : Int := F.emin - F.p + 1
def Fmt.expMask (F : Fmt) : Nat := 2 ^ (F.bits - F.p) - 1

/-- The default NaN, R54. -/
def Fmt.qnan (F : Fmt) : Nat := (F.expMask * 2 ^ F.pf) + 2 ^ (F.pf - 1)
def Fmt.infBits (F : Fmt) (s : Bool) : Nat := (if s then 2 ^ (F.bits - 1) else 0) + F.expMask * 2 ^ F.pf
def Fmt.zeroBits (F : Fmt) (s : Bool) : Nat := if s then 2 ^ (F.bits - 1) else 0

/-- Read an encoding, R53, with the flush of R56 when `ftz`; the Bool says a signalling NaN was read. -/
def readF (F : Fmt) (ftz : Bool) (x : Nat) : Fv × Bool :=
  let s := x / 2 ^ (F.bits - 1) % 2 == 1
  let e := x / 2 ^ F.pf % 2 ^ (F.bits - F.p)
  let f := x % 2 ^ F.pf
  if e = F.expMask then
    if f = 0 then (.inf s, false) else (.nan, f / 2 ^ (F.pf - 1) % 2 == 0)
  else if e = 0 then (.num s (if ftz then 0 else f) F.qmin, false)
  else (.num s (f + 2 ^ F.pf) (F.qmin + (e - 1 : Nat)), false)

/-- Whether the magnitude is rounded up from lo, R60 and R64: `rem` is the discarded part in units of 2^-k of a
place, `more` says that the exact value lies above it, `odd` that lo is odd, `r` the STO bits. -/
def roundUp (mode : Nat) (r : Nat) (s odd : Bool) (rem k : Nat) (more : Bool) : Bool :=
  let half := 2 ^ k
  match mode with
  | 0 => 2 * rem > half || (2 * rem == half && (more || odd))
  | 1 => false
  | 2 => !s
  | 3 => s
  | 4 => 2 * rem ≥ half
  | _ => rem * 2 ^ 16 / 2 ^ k + r ≥ 2 ^ 16

/-- RoundFmt of a finite nonzero or zero real, R61 to R63, then R56 when `ftz`: the encoding and the flags. -/
def roundNum (F : Fmt) (mode r : Nat) (ftz s : Bool) (m : Nat) (e : Int) (more : Bool) : Nat × Flags :=
  if m = 0 && !more then (F.zeroBits s, 0) else
  let lg : Int := (Nat.log2 m : Int) + e
  let q : Int := max lg F.emin - F.p + 1
  let k : Nat := (q - e).toNat
  let lo := if q ≥ e then m / 2 ^ k else m * 2 ^ (e - q).toNat
  let rem := if q ≥ e then m % 2 ^ k else 0
  let inexact := rem != 0 || more
  let hi := inexact && roundUp mode r s (lo % 2 == 1) rem k more
  let M := if hi then lo + 1 else lo
  let sign := F.zeroBits s
  if M ≥ 2 ^ (F.emax + 1 - q).toNat then
    let toMax := mode = 1 || (mode = 2 && s) || (mode = 3 && !s)
    (if toMax then F.infBits s - 1 else F.infBits s, flOF ||| flNX)
  else
    let tiny := M != 0 && q == F.qmin && M < 2 ^ F.pf
    if tiny && ftz then (sign, flUF ||| flNX)
    else (sign + (q - F.qmin).toNat * 2 ^ F.pf + M, flIf inexact flNX ||| flIf (tiny && inexact) flUF)

/-- RoundFmt of a value, R61: the encoding and the flags. -/
def roundFv (F : Fmt) (mode r : Nat) (ftz : Bool) : Fv → Nat × Flags
  | .nan => (F.qnan, 0)
  | .inf s => (F.infBits s, 0)
  | .num s m e => roundNum F mode r ftz s m e false

/-- The significand of a value at a lower exponent. -/
def scaleTo (m : Nat) (e e' : Int) : Nat := m * 2 ^ (e - e').toNat

/-- The exact integer of a sign and magnitude. -/
def sgnInt (s : Bool) (m : Nat) : Int := if s then -(m : Int) else m

/-- An exact sum, with the zero signs of R67; the Bool is NV. -/
def addFv (mode : Nat) : Fv → Fv → Fv × Bool
  | .nan, _ => (.nan, false)
  | _, .nan => (.nan, false)
  | .inf s, .inf t => if s = t then (.inf s, false) else (.nan, true)
  | .inf s, _ => (.inf s, false)
  | _, .inf t => (.inf t, false)
  | .num s m e, .num t n f =>
    if m = 0 && n = 0 then (.num (if s = t then s else mode = 3) 0 0, false) else
    let g := min e f
    let x := sgnInt s (scaleTo m e g) + sgnInt t (scaleTo n f g)
    (.num (if x = 0 then mode = 3 else x < 0) x.natAbs g, false)

/-- An exact product; the Bool is NV, for 0·∞. -/
def mulFv : Fv → Fv → Fv × Bool
  | .nan, _ => (.nan, false)
  | _, .nan => (.nan, false)
  | .inf s, .inf t => (.inf (s != t), false)
  | .inf s, .num t n _ => if n = 0 then (.nan, true) else (.inf (s != t), false)
  | .num s m _, .inf t => if m = 0 then (.nan, true) else (.inf (s != t), false)
  | .num s m e, .num t n f => (.num (s != t) (m * n) (e + f), false)

def negFv : Fv → Fv
  | .nan => .nan
  | .inf s => .inf (!s)
  | .num s m e => .num (!s) m e

/-- An exact integer as a value. -/
def ofIntFv (x : Int) : Fv := .num (x < 0) x.natAbs 0

/-- Numeric comparison of two values that are no NaN: a < b, with −0 equal to +0. -/
def ltFv : Fv → Fv → Bool
  | .nan, _ => false
  | _, .nan => false
  | .inf s, .inf t => s && !t
  | .inf s, _ => s
  | _, .inf t => !t
  | .num s m e, .num t n f =>
    let g := min e f
    sgnInt s (scaleTo m e g) < sgnInt t (scaleTo n f g)

def eqFv : Fv → Fv → Bool
  | .nan, _ => false
  | _, .nan => false
  | a, b => !ltFv a b && !ltFv b a

def isNan : Fv → Bool
  | .nan => true
  | _ => false

def signFv : Fv → Bool
  | .nan => false
  | .inf s => s
  | .num s _ _ => s

/-- RoundInt, R65: the integer and whether it is inexact. -/
def roundInt (mode r : Nat) (s : Bool) (m : Nat) (e : Int) : Int × Bool :=
  if e ≥ 0 then (sgnInt s (m * 2 ^ e.toNat), false) else
  let k := (-e).toNat
  let lo := m / 2 ^ k
  let rem := m % 2 ^ k
  let hi := rem != 0 && roundUp mode r s (lo % 2 == 1) rem k false
  (sgnInt s (if hi then lo + 1 else lo), rem != 0)

/-- The range of an integer format of `w` bits: SatS or SatN, R51. -/
def satW (sg : Bool) (w : Nat) (x : Int) : Int := if sg then satS x w else satN x w

/-- Any float to an integer format, R66: the integer and the flags. -/
def floatToInt (mode r : Nat) (sg : Bool) (w : Nat) : Fv → Int × Flags
  | .nan => (0, flNV)
  | .inf s => (satW sg w (if s then -(2 ^ 70) else 2 ^ 70), flNV)
  | .num s m e =>
    let (y, ix) := roundInt mode r s m e
    let z := satW sg w y
    (z, if z ≠ y then flNV else flIf ix flNX)

/-- One xorshift64* step, R64. -/
def stoStep (x : Word) : Word :=
  let x := x ^^^ (x >>> 12)
  let x := x ^^^ (x <<< 25)
  x ^^^ (x >>> 27)

/-- The 16 bits that a step returns, from the state after it, R64. -/
def stoOut (x : Word) : Nat := ((x * 0x2545F4914F6CDD1D#64) >>> 48).toNat

/-- Undo y = x ^ (x >>> k) for k ≥ 7. -/
def unShr (k : Nat) (y : Word) : Nat → Word
  | 0 => y
  | n + 1 => y ^^^ (unShr k y n >>> k)

/-- Undo y = x ^ (x <<< k). -/
def unShl (k : Nat) (y : Word) : Nat → Word
  | 0 => y
  | n + 1 => y ^^^ (unShl k y n <<< k)

/-- The inverse of one generator step, which the replay of R188 uses. -/
def stoBack (x : Word) : Word := unShr 12 (unShl 25 (unShr 27 x 3) 3) 6

/-- The generator after `n` steps back. -/
def stoBackN (x : Word) : Nat → Word
  | 0 => x
  | n + 1 => stoBackN (stoBack x) n

/-- The STO bits of the next `n` roundings and the state after them; none are drawn in another mode. -/
def stoDraw (sgn : Word) : Nat → Word × List Nat
  | 0 => (sgn, [])
  | n + 1 =>
    let x := stoStep sgn
    let (y, rs) := stoDraw x n
    (y, stoOut x :: rs)

/-! ### Roots, quotients, powers and logarithms, as a significand with a sticky part -/

/-- The integer square root below 2^k. -/
def isqrt (n : Nat) : Nat → Nat → Nat
  | 0, r => r
  | k + 1, r => isqrt n k (if (r + 2 ^ k) * (r + 2 ^ k) ≤ n then r + 2 ^ k else r)

/-- m/n · 2^(e−f) to more than 100 bits. -/
def divNum (m : Nat) (e : Int) (n : Nat) (f : Int) : Nat × Int × Bool :=
  let k : Nat := 110 + Nat.log2 n - Nat.log2 m
  (m * 2 ^ k / n, e - f - k, m * 2 ^ k % n != 0)

/-- √(m · 2^e) to more than 100 bits. -/
def sqrtNum (m : Nat) (e : Int) : Nat × Int × Bool :=
  let k : Nat := 220 + (if (e % 2 + 2) % 2 = 0 then 0 else 1)
  let n := m * 2 ^ k
  let r := isqrt n (Nat.log2 n / 2 + 1) 0
  (r, (e - k) / 2, r * r != n)

/-- 1/√(m · 2^e) to more than 100 bits. -/
def rsqrtNum (m : Nat) (e : Int) : Nat × Int × Bool :=
  let odd := (e % 2 + 2) % 2 = 1
  let m' := if odd then 2 * m else m
  let e' := if odd then e - 1 else e
  let K : Nat := 150 + Nat.log2 m'
  let r := isqrt (2 ^ (2 * K) / m') (K + 1) 0
  (r, -(e' / 2) - K, r * r * m' != 2 ^ (2 * K))

/-- Fixed-point fraction bits of the power and logarithm. -/
def fxS : Nat := 320

/-- ln 2 · 2^fxS, by Σ 1/(k·2^k). -/
def ln2Fix : Nat → Nat
  | 0 => 0
  | k + 1 => ln2Fix k + 2 ^ fxS / ((k + 1) * 2 ^ (k + 1))

/-- Σ y^n/n! from term `t` = y^n/n!, fixed point. -/
def expFix (y : Nat) : Nat → Nat → Nat → Nat
  | 0, _, _ => 0
  | k + 1, n, t => t + expFix y k (n + 1) (t * y / 2 ^ fxS / (n + 1))

/-- 2^x for x no integer: the significand, exponent and sticky. -/
def exp2Num (s : Bool) (m : Nat) (e : Int) : Nat × Int × Bool :=
  if (Nat.log2 m : Int) + e > 12 then (1, if s then -5000 else 5000, true) else
  let x := if e + fxS ≥ 0 then sgnInt s (m * 2 ^ (e + fxS).toNat) else sgnInt s m / 2 ^ (-(e + fxS)).toNat
  let i := x / 2 ^ fxS
  let f := (x % 2 ^ fxS).toNat
  let y := f * ln2Fix 330 / 2 ^ fxS
  (expFix y 80 0 (2 ^ fxS), i - fxS, true)

/-- Σ z^(2k+1)/(2k+1) from term `t` = z^(2k+1). -/
def atanhFix (z2 : Nat) : Nat → Nat → Nat → Nat
  | 0, _, _ => 0
  | k + 1, n, t => t / n + atanhFix z2 k (n + 2) (t * z2 / 2 ^ fxS)

/-- log2(m · 2^e) for a value that is no power of two: sign, significand, exponent, sticky. -/
def log2Num (m : Nat) (e : Int) : Bool × Nat × Int × Bool :=
  let lg : Nat := Nat.log2 m
  let k : Int := (lg : Int) + e
  let z := (m - 2 ^ lg) * 2 ^ fxS / (m + 2 ^ lg)
  let l := 2 * atanhFix (z * z / 2 ^ fxS) 110 1 z
  let x : Int := k * 2 ^ fxS + (l * 2 ^ fxS / ln2Fix 330 : Nat)
  (x < 0, x.natAbs, -(fxS : Int), true)

/-- Whether m · 2^e is an integer, and which. -/
def asInt (s : Bool) (m : Nat) (e : Int) : Option Int :=
  if e ≥ 0 then (if e > 40 then none else some (sgnInt s (m * 2 ^ e.toNat)))
  else if m % 2 ^ (-e).toNat = 0 then some (sgnInt s (m / 2 ^ (-e).toNat)) else none

/-- The vector unary functions, spec/08 R179: 0 recip, 1 rsqrt, 2 sqrt, 3 exp2, 4 log2. -/
def unaryF (F : Fmt) (fn mode r : Nat) (ftz : Bool) (v : Fv) : Nat × Flags :=
  let rn (s : Bool) (t : Nat × Int × Bool) := roundNum F mode r ftz s t.1 t.2.1 t.2.2
  let nan := (F.qnan, flNV)
  match v with
  | .nan => (F.qnan, 0)
  | .inf s => match fn with
    | 0 => (F.zeroBits s, 0)
    | 1 => if s then nan else (F.zeroBits false, 0)
    | 3 => if s then (F.zeroBits false, 0) else (F.infBits false, 0)
    | _ => if s then nan else (F.infBits false, 0)
  | .num s m e =>
    if m = 0 then match fn with
      | 0 => (F.infBits s, flDZ)
      | 1 => (F.infBits s, flDZ)
      | 2 => (F.zeroBits s, 0)
      | 3 => roundNum F mode r ftz false 1 0 false
      | _ => (F.infBits true, flDZ)
    else match fn with
      | 0 => rn s (divNum 1 0 m e)
      | 1 => if s then nan else rn false (rsqrtNum m e)
      | 2 => if s then nan else rn false (sqrtNum m e)
      | 3 => match asInt s m e with
        | some i => roundNum F mode r ftz false 1 i false
        | none => rn false (exp2Num s m e)
      | _ => if s then nan
        else if m = 2 ^ Nat.log2 m then roundFv F mode r ftz (ofIntFv (Nat.log2 m + e))
        else let t := log2Num m e
             roundNum F mode r ftz t.1 t.2.1 t.2.2.1 t.2.2.2

/-- vdiv, spec/08 R179. -/
def divF (F : Fmt) (mode r : Nat) (ftz : Bool) : Fv → Fv → Nat × Flags
  | .nan, _ => (F.qnan, 0)
  | _, .nan => (F.qnan, 0)
  | .inf _, .inf _ => (F.qnan, flNV)
  | .inf s, .num t _ _ => (F.infBits (s != t), 0)
  | .num s _ _, .inf t => (F.zeroBits (s != t), 0)
  | .num s m e, .num t n f =>
    if n = 0 then (if m = 0 then (F.qnan, flNV) else (F.infBits (s != t), flDZ))
    else if m = 0 then (F.zeroBits (s != t), 0)
    else let d := divNum m e n f
         roundNum F mode r ftz (s != t) d.1 d.2.1 d.2.2

/-- vmin and vmax of R175 on encodings: the chosen encoding and the flags. −0 counts below +0. -/
def minMaxF (F : Fmt) (isMax ftz : Bool) (a b : Nat) : Nat × Flags :=
  let (x, sx) := readF F ftz a
  let (y, sy) := readF F ftz b
  let fl := flIf (sx || sy) flNV
  let lt := ltFv x y || (eqFv x y && signFv x && !signFv y)
  let pick (v : Fv) := (roundFv F 1 0 false v).1
  if isNan x && isNan y then (F.qnan, fl)
  else if isNan x then (pick y, fl)
  else if isNan y then (pick x, fl)
  else (pick (if lt != isMax then x else y), fl)

/-- The largest power of two below n, for n ≥ 2 (R77). -/
def halfPow (n : Nat) : Nat := 2 ^ Nat.log2 (n - 1)

/-- PairSum, R77: the order of Adds is left, right, join; `g` carries flags and the STO bits left. -/
def pairSum {α σ : Type} (add : α → α → σ → α × σ) (z : α) : Nat → List α → σ → α × σ
  | 0, xs, g => (xs.headD z, g)
  | f + 1, xs, g =>
    if xs.length ≤ 1 then (xs.headD z, g) else
    let h := halfPow xs.length
    let (l, g) := pairSum add z f (xs.take h) g
    let (r, g) := pairSum add z f (xs.drop h) g
    add l r g

/-- Floor(Log2) of a nonzero magnitude. -/
def lg2 (m : Nat) (e : Int) : Int := (Nat.log2 m : Int) + e

/-- MxScale, R68: the scale code, the element codes, whether an element was inexact. -/
def mxScale (w f : Nat) (sg : Bool) (mode : Nat) (vs : List Fv) (rs : List Nat) : Nat × List Nat × Bool :=
  let bad := vs.any (fun v => match v with | .num _ _ _ => false | _ => true)
  if bad then (0xFF, vs.map (fun _ => 0), false) else
  let lgs : List Int := vs.filterMap (fun v => match v with | .num _ m e => if m = 0 then none else some (lg2 m e) | _ => none)
  match lgs with
  | [] => (0x7F, vs.map (fun _ => 0), false)
  | l :: ls =>
    let X : Int := min (max (ls.foldl max l - (if sg then 0 else 1)) (-127)) 127
    let qs : List (Nat × Bool) := (vs.zip (rs ++ vs.map (fun _ => 0))).map (fun (v, r) => match v with
      | .num s m e =>
        let (y, ix) := roundInt mode r s m (e + f - X)
        (wrapN (satW sg w y) w, ix)
      | _ => (0, false))
    ((X + 127).toNat, qs.map Prod.fst, qs.any Prod.snd)

/-- Bf16Group, R71 and R72: the binary64 term and whether the bank's invalid flag is raised. -/
def bf16Group (ps : List (Fv × Fv)) : Fv × Bool :=
  let prods := ps.map (fun (a, b) => mulFv a b)
  let anyNan := prods.any (fun (v, _) => isNan v)
  let pinf := prods.any (fun (v, _) => v == .inf false)
  let ninf := prods.any (fun (v, _) => v == .inf true)
  if anyNan || (pinf && ninf) then (.nan, true)
  else if pinf then (.inf false, false)
  else if ninf then (.inf true, false)
  else
    let fin : List (Bool × Nat × Int) := prods.filterMap (fun (v, _) => match v with
      | .num s m e => if m = 0 then none else some (s, m, e)
      | _ => none)
    match fin with
    | [] => (.num false 0 0, false)
    | (_, m, e) :: rest =>
      let emax := rest.foldl (fun acc (_, m, e) => max acc (lg2 m e)) (lg2 m e)
      let u := emax - 60
      let t := fin.foldl (fun (acc : Int) (s, m, e) =>
        acc + sgnInt s (if e ≥ u then m * 2 ^ (e - u).toNat else m / 2 ^ (u - e).toNat)) 0
      if t = 0 then (.num false 0 0, false)
      else ((readF f64 false (roundNum f64 0 0 false (t < 0) t.natAbs u false).1).1, false)

end Sys2Proof.Machine
end

