-- ==== Sys2Proof/Machine/Flags.lean ====
section
/-!
DEFINITION. The status register sst (spec/01 R14, R15): rounding mode, flush, enables, sticky flags, and the checks
of a written value.
-/

namespace Sys2Proof.Machine

/-- RM and FTZ and PDM of sst. -/
def sstRm (x : Word) : Nat := (x.extractLsb' 0 3).toNat
def sstFtz (x : Word) : Bool := x.getLsbD 3
def sstPdm (x : Word) : Bool := x.getLsbD 15

/-- The enables [14:10], in the order of the flags [9:5]. -/
def sstEnables (x : Word) : Flags := x.extractLsb' 10 5

/-- sst with flags raised: they are sticky (R15). -/
def sstRaise (x : Word) (f : Flags) : Word := x ||| (BitVec.ofNat 64 f.toNat <<< 5)

/-- Whether a landing that raises `f` raises FP_ENABLED, whether or not a flag was set before (R15). -/
def fpEnabled (x : Word) (f : Flags) : Bool := sstEnables x &&& f != 0

/-- R48 reasons 5 and 6 of a value written to sst (R14), with PDM refused while PDEBUG is inactive and STO while STOCH
is inactive (spec/20 R402). -/
def sstReason (pdebug stoch : Bool) (v : Word) : Option (BitVec 3) :=
  if v.extractLsb' 16 48 != 0 || v.getLsbD 4 then some 5
  else if sstRm v ≥ 6 || (sstPdm v && !pdebug) || (sstRm v == 5 && !stoch) then some 6
  else none

/-- The mode a word resolves at issue: its own code, or RM of sst when the field says DYN (spec/03 R60). -/
def resolveRm (rm : BitVec 3) (sst : Word) : Nat := if rm = 6 then sstRm sst else rm.toNat

end Sys2Proof.Machine
end

