-- ==== Sys2Proof/Machine/Operands.lean ====
section
/-!
DEFINITION. Operand access of a strand: g registers with their latencies and marks (spec/01 R13, R19, R23, R27), and
scratch bytes with their valid bits (spec/05 R102, R103, spec/07 R155, R156).
-/

namespace Sys2Proof.Machine

/-! ### g registers -/

/-- ExposedRead: what a register holds now; g0 reads as zero. -/
def Strand.rd (t : Strand) (r : Reg) : Word := if r = 0 then 0 else Tab.get 0 t.g r.toNat

def State.rd (s : State) (c : Nat) (k : StrandIx) (r : Reg) : Word := (s.str c k).rd r

/-- A register value as a landing leaves it; a write to g0 is discarded (R13). -/
def Strand.setReg (t : Strand) (r : Reg) (v : Word) : Strand :=
  if r = 0 then t else { t with g := Tab.set 0 t.g r.toNat v }

/-- A write of latency 1: it lands at the end of this issue cycle, after every older landing (R19). -/
def Strand.put (t : Strand) (r : Reg) (v : Word) : Strand :=
  { t.setReg r v with fresh := t.fresh ||| (1#32 <<< r.toNat) }

def State.put (s : State) (c : Nat) (k : StrandIx) (r : Reg) (v : Word) : State := s.mapStr c k (·.put r v)

/-- The registers an interlocked operation marks, R23. -/
def markOf : OpBody → List Reg
  | .ilock d true _ => [d, d + 1]
  | .ilock d false _ => [d]
  | _ => []

/-- Whether a register is marked. -/
def Core.marked (x : Core) (k : StrandIx) (r : Reg) : Bool :=
  r != 0 && x.ops.any (fun o => o.k == k && (markOf o.body).contains r)

/-- The registers an exposed operation will write. -/
def exposedOf : OpBody → List Reg
  | .regs _ d vs => (List.range vs.length).map (fun j => d + BitVec.ofNat 5 j)
  | _ => []

/-- Whether an exposed write of a register is still in flight, R24, R27. -/
def Core.flying (x : Core) (k : StrandIx) (r : Reg) : Bool :=
  r != 0 && x.ops.any (fun o => o.k == k && (exposedOf o.body).contains r)

/-- A new operation of the word that issues now: order, place and sequence. -/
def Core.newOp (x : Core) (k : StrandIx) (i : Instr) (b : OpBody) : Op :=
  { k := k, ord := x.nord, seq := (x.str k).ic + 1, img := i, body := b }

def State.addOp (s : State) (c : Nat) (o : Op) : State := s.mapCore c (fun x => { x with ops := x.ops ++ [o] })

/-- Set the pending bits of registers, R27. -/
def Strand.setPend (t : Strand) (rs : List Reg) : Strand :=
  { t with pend := rs.foldl (fun (p : BitVec 32) (r : Reg) => if r = 0 then p else p ||| (1#32 <<< r.toNat)) t.pend }

/-- A result of exposed latency λ > 1: it lands at the end of issue cycle t + λ − 1, where t is the cycle that issues
now. The record holds the operands of spec/06 R134. -/
def State.land (s : State) (c : Nat) (k : StrandIx) (i : Instr) (d : Reg) (vs : List Word) (lam : Nat)
    (o0 o1 o2 : Word) : State :=
  let x := s.core c
  let at' := (x.str k).ic + lam
  let o : Op := { x.newOp k i (.regs at' d vs) with op0 := o0, op1 := o1, op2 := o2, lam := lam, last := at' }
  (s.addOp c o).mapStr c k (·.setPend (exposedOf o.body))

/-- An interlocked result, R23. -/
def State.ilock (s : State) (c : Nat) (k : StrandIx) (i : Instr) (d : Reg) (pair : Bool) (fwd : Option (List Byte))
    (o0 o1 o2 : Word) : State :=
  let x := s.core c
  s.addOp c { x.newOp k i (.ilock d pair fwd) with op0 := o0, op1 := o1, op2 := o2 }

/-! ### Scratch bytes -/

/-- The granules that bytes touch. -/
def granules (x n : Nat) : List Nat := if n = 0 then [] else (List.range ((x + n - 1) / 16 - x / 16 + 1)).map (x / 16 + ·)

/-- Set the valid bits of granules, R155. -/
def setValid (v : Tab Bool) (gs : List Nat) : Tab Bool := gs.foldl (fun v g => Tab.set false v g true) v

/-- Bytes land in the scratchpad, and their granules become valid. -/
def Core.scrWrite (t : Core) (x : Nat) (bs : List Byte) : Core :=
  if bs.isEmpty then t else
  { t with scr := writeBytes t.scr x bs, valid := setValid t.valid (granules x bs.length) }

/-- A byte as the own strand reads it: the oldest replayed store that has not landed hides it (spec/06 R137). -/
def shadowByte (k : StrandIx) (a : Nat) (b : Byte) : List Op → Byte
  | [] => b
  | o :: t => match o.body with
    | .shadow _ old => if o.k = k && (Tab.keys old).contains a then Tab.get 0 old a else shadowByte k a b t
    | _ => shadowByte k a b t

/-- Whether a vector word has interlocked groups left, spec/01 R21. -/
def Core.vbusy (x : Core) : Bool :=
  x.ops.any (fun o => match o.body with | .vec gs => gs.any (fun g => g.at' == 0) | _ => false)

/-- Whether a strand's access meets bytes that an interlocked group of C still holds, R21. -/
def Core.vheld (x : Core) (k : StrandIx) (a n : Nat) : Bool :=
  k == .c && x.ops.any (fun o => match o.body with
    | .vec gs => gs.any (fun g => g.at' == 0 && g.writes.any (fun w => w.1 < a + n && a < w.1 + w.2.length))
    | _ => false)

/-- An earlier word of C that took generator steps has not finished, spec/08 R184. -/
def Core.drawing (x : Core) : Bool := x.ops.any (fun o => o.k == .c && o.steps != 0)

/-- Scratch bytes as strand `k` samples them. -/
def Core.scrRead (t : Core) (k : StrandIx) (x n : Nat) : List Byte :=
  (List.range n).map (fun j => shadowByte k (x + j) (Tab.get 0 t.scr (x + j)) t.ops)

/-- The never-written granules among bytes. -/
def Core.unwritten (t : Core) (x n : Nat) : List Nat := (granules x n).filter (fun g => !Tab.get false t.valid g)

/-- A scratch warning of each never-written granule, R156. -/
def State.warn (s : State) (c : Nat) (k : StrandIx) (gs : List Nat) : State :=
  gs.foldl (fun s g => s.postCore c k 9 (16 * g) 0 0) s

/-- The read of never-written granules by the context's mode, R156: the granule address that faults, or the state
after its warnings. -/
def State.readCheck (s : State) (c : Nat) (k : StrandIx) (x n : Nat) : Except Nat State :=
  match (s.core c).unwritten x n, (s.ctx c).scrmode.toNat with
  | [], _ => .ok s
  | g :: _, 2 => .error (16 * g)
  | gs, 1 => .ok (s.warn c k gs)
  | _, _ => .ok s

/-- A scalar scratch address, R102. -/
def scrAddr (base : Word) (imm : BitVec 8) (z : Nat) : Word := base + BitVec.ofInt 64 (imm.toInt * z)

/-- The checks of R102: the fault code and tval. -/
def State.scrFault (s : State) (c : Nat) (x : Word) (z : Nat) : Option (Nat × Word) :=
  if x.toNat + z > (s.ctx c).scrsize then some (0x06, x)
  else if x.toNat % z ≠ 0 then some (0x07, x)
  else none

/-- A number from bytes, in a register. -/
def bytesWord (bs : List Byte) : Word := BitVec.ofNat 64 (leNat bs)
def wordBytes (n : Nat) (v : Word) : List Byte := leBytes n v.toNat

end Sys2Proof.Machine
end

