-- ==== Sys2Proof/Machine/Sets.lean ====
section
/-!
DEFINITION. Atomic sets (spec/14): matching an access to a set, arbitration at the home directory, rollback buffers,
wounds, release and publication.
-/

namespace Sys2Proof.Machine

/-- The set of a function that a granule lies in, R283, R284. -/
def State.setOf (s : State) (vf : Nat) (va : Word) : Option (Nat × SetEnt) :=
  (s.vf vf).sets.findSome? (fun (i, e) => match e with
    | some e => if e.base.toNat ≤ va.toNat && va.toNat < e.base.toNat + e.len then some (i, e) else none
    | none => none)

def State.setEnt (s : State) (vf ix : Nat) : Option SetEnt := Tab.get none (s.vf vf).sets ix
def State.putEnt (s : State) (vf ix : Nat) (e : Option SetEnt) : State :=
  s.mapVf vf (fun v => { v with sets := Tab.set none v.sets ix e })

/-- Older, R286. -/
def older (a b : Word) : Bool := (a - b).getLsbD 63

/-- The suspended contexts of the package. -/
def State.suspended (s : State) : List Ctx :=
  s.dies.flatMap (fun (_, d) => d.queues.flatMap (fun (_, q) => q.resum))

/-- The context of a task, wherever it is. -/
def State.ctxOfTask (s : State) (t : Nat) : Option Ctx :=
  match coreOfTask s.cores t with
  | some c => (s.core c).ctx
  | none => s.suspended.find? (·.task == t)

def State.stampOf (s : State) (t : Nat) : Word := ((s.ctxOfTask t).map (·.stamp)).getD 0

/-- Release every set of a task: each becomes FREE, R287. -/
def State.releaseSets (s : State) (vf t : Nat) : State :=
  s.mapVf vf (fun v => { v with sets := v.sets.map (fun (i, e) => (i, e.map (fun e =>
    if e.st ≠ .free && e.holder = t then { e with st := .free, holder := 0 } else e))) })

/-- A task's waits in every set are withdrawn, R287. -/
def State.dropWaits (s : State) (vf t : Nat) : State :=
  s.mapVf vf (fun v => { v with sets := v.sets.map (fun (i, e) => (i, e.map (fun e =>
    { e with wait := e.wait.filter (fun w => w.1 != t) }))) })

/-- Discard a task's buffer and release its sets. -/
def State.discardSets (s : State) (vf t : Nat) : State := ((s.setBuf t none).releaseSets vf t).dropWaits vf t

/-- The state of the sets a task holds, R287. -/
def State.markSets (s : State) (vf t : Nat) (st : SetSt) : State :=
  s.mapVf vf (fun v => { v with sets := v.sets.map (fun (i, e) => (i, e.map (fun e =>
    if e.holder = t && (e.st == .held || e.st == .suspended) then { e with st := st } else e))) })

/-- The wound of a task by a core's request for set `ix` (R290, R292). A running task's restart follows as a step of
its own; a suspended task is acted on at once. -/
def State.wound (s : State) (c vf ix t : Nat) : State :=
  match coreOfTask s.cores t with
  | some h => s.mapCore h (fun x => { x with restart := x.restart.or (some (c, ix)) })
  | none =>
    let s := (s.discardSets vf t).mapTask t (fun x => { x with wounded := true, restarts := min (x.restarts + 1) 65535, reports := [], wpc := [] })
    let s : State := { s with armed := s.armed.filter (fun a => a.task != t) }
    s.post (dieOf c) (5 + c * 2 ^ 10) vf c c ix

/-- Take a buffer from the pool of the core's cluster, R289. -/
def State.takeBuf (s : State) (c : Nat) (t : Nat) : State × Bool :=
  if (s.buf t).isSome then (s, true) else
  let users := s.bufs.filterMap (fun (u, b) => match b with
    | some b => if b.pool = clusterOf c then some u else none
    | none => none)
  if users.length < 32 then (s.setBuf t (some { pool := clusterOf c }), true) else
  let susp := s.suspended.filter (fun x => users.contains x.task)
  match susp with
  | [] => (s, false)
  | x :: xs =>
    let y := xs.foldl (fun a b => if older a.stamp b.stamp then b else a) x
    let ix := ((s.vf y.vf).sets.findSome? (fun (i, e) => match e with
      | some e => if e.holder = y.task && e.st ≠ .free then some i else none
      | none => none)).getD 0
    let s := s.wound c y.vf ix y.task
    (s.setBuf t (some { pool := clusterOf c }), true)

/-- Whether a task could take a buffer now, or has one, R289. -/
def State.bufFor (s : State) (t : Nat) : Bool := match coreOfTask s.cores t with
  | some c => (s.takeBuf c t).2
  | none => false

/-- A set access reaches the home directory, R287: whether it is granted now. A FREE set goes to its oldest waiter before a new request,
but not to one that waits for a buffer alone. -/
def State.requestSet (s : State) (c vf ix : Nat) : State × Bool :=
  match s.setEnt vf ix with
  | none => (s, true)
  | some e =>
    let t := (s.ctx c).task
    let r := (s.ctx c).stamp
    let waitEnt (e : SetEnt) : SetEnt := if e.wait.any (·.1 == t) then e else { e with wait := e.wait ++ [(t, r)] }
    let oldest := e.wait.all (fun w => w.1 == t || !older w.2 r || !s.bufFor w.1)
    match e.st with
    | .free =>
      if !oldest then (s.putEnt vf ix (some (waitEnt e)), false) else
      match s.takeBuf c t with
      | (s, true) => (s.putEnt vf ix (some { e with st := .held, holder := t, wait := e.wait.filter (·.1 != t) }), true)
      | (s, false) => (s.putEnt vf ix (some (waitEnt e)), false)
    | .held =>
      if e.holder = t then (s, true)
      else if older r (s.stampOf e.holder) then
        ((s.putEnt vf ix (some { waitEnt e with st := .wounding })).wound c vf ix e.holder, false)
      else (s.putEnt vf ix (some (waitEnt e)), false)
    | .suspended =>
      if e.holder = t then (s, true) else
      ((s.putEnt vf ix (some (waitEnt e))).wound c vf ix e.holder, false)
    | .publishing => if e.holder = t then (s, true) else (s.putEnt vf ix (some (waitEnt e)), false)
    | .wounding => (s.putEnt vf ix (some (waitEnt e)), false)

/-- A byte of a task's set read: the buffered one where there is one, R288. -/
def bufBytes (b : Option RbBuf) (va : Word) (mem : List Byte) : List Byte :=
  match b with
  | none => mem
  | some b =>
    let g := Tab.get [] b.gran (va.toNat / 16)
    (mem.zip (List.range mem.length)).map (fun (x, j) => ((g.getD (va.toNat % 16 + j) none).getD x))

/-- Merge two enabled granules, the later over the earlier. -/
def mergeEn (old new : List (Option Byte)) : List (Option Byte) :=
  (List.range 16).map (fun j => (new.getD j none).or (old.getD j none))

/-- A store of an enabled granule into a task's buffer, R288; `none` when it would need a 4097th granule. -/
def State.bufStore (s : State) (t : Nat) (va : Word) (en : List (Option Byte)) : Option State :=
  match s.buf t with
  | none => some s
  | some b =>
    let g := va.toNat / 16
    if (Tab.keys b.gran).contains g || b.gran.length < 4096 then
      some (s.setBuf t (some { b with gran := Tab.set [] b.gran g (mergeEn (Tab.get [] b.gran g) en) }))
    else none

/-- Publish one buffered granule of task `t`, R294: whether it has left the buffer. One that cannot be written is logged and left out. -/
def publishOne (s : State) (c vf t g : Nat) (en : List (Option Byte)) : State × Bool :=
  let va : Word := BitVec.ofNat 64 (16 * g)
  match access s c (unitPub g) vf va .write 16 false with
  | (s, .ok pa) => (s.sendWrite { kind := 5, core := c, vf := vf, task := t, va := va } pa en false, true)
  | (s, .wait) | (s, .held _) => (s, false)
  | (s, .fault _ _) => (s, true)

/-- Publish the granules of a list; those that wait stay. -/
def publishAll (c vf t : Nat) : State → Tab (List (Option Byte)) → State × Tab (List (Option Byte))
  | s, [] => (s, [])
  | s, e :: l =>
    let r := publishOne s c vf t e.1 e.2
    let u := publishAll c vf t r.1 l
    (u.1, if r.2 then u.2 else e :: u.2)

/-- Whether every granule that a task has published is performed at system scope. -/
def State.published (s : State) (t : Nat) : Bool :=
  let mine (wr : Writer) : Bool := wr.kind == 5 && wr.ofTask t
  s.wire.all (fun f => !((f.writer.map mine).getD false)) && s.hostOut.all (fun e => !mine e.wr)

/-- Publication and release at tdone or at the end of a DRAIN, R293, R294: whether every granule is performed, after which the sets are
released. -/
def State.publish (s : State) (c vf t : Nat) : State × Bool :=
  match s.buf t with
  | none => if s.published t then (s.discardSets vf t, true) else (s, false)
  | some b =>
    let r := publishAll c vf t (s.markSets vf t .publishing) b.gran
    let s := r.1.setBuf t (some { b with gran := r.2 })
    if r.2.isEmpty && s.published t then (s.discardSets vf t, true) else (s, false)

end Sys2Proof.Machine
end

