-- ==== Sys2Proof/Machine/Tasks.lean ====
section
/-!
DEFINITION. Task records at their home ports (spec/17): the take of a record with its checks (spec/16 R323 to R330),
signals and poisons, futures, fault continuations, abandonment and the completion record of a sink.
-/

namespace Sys2Proof.Machine

/-- An access of a unit of die `d` that has been judged reaches its home port: apertures, poison (R300, R301). -/
def State.portAt (s : State) (d vf : Nat) (kind : AccKind) (n pa : Nat) : State × TrRes :=
  if kind != .write && s.heldUp d pa then (s.holdReq d pa, .held pa) else
  match homeOf pa with
  | .aper _ _ => (s, .fault false 9)
  | _ => (s, if !s.backed vf pa then .fault false 4 else if kind != .write && s.poisoned pa n then .fault false 8
             else if kind != .write && s.behindDie d pa then .held pa else .ok pa)

/-- An access that unit `u` of die `d` makes for a tenant: translated by the walker, judged once (R393), or judged already at `pa`. A
refusal is logged with reason 10 (R394). -/
def State.portTr (s : State) (d u vf : Nat) (va : Word) (kind : AccKind) (n : Nat) (pa : Option Nat) : State × TrRes :=
  match pa with
  | some pa => s.portAt d vf kind n pa
  | none =>
    let refuse (s : State) (pa : Nat) : State × TrRes := ((s.deny d vf pa).logAf d vf ⟨va, 0, kind, 10⟩, .fault true 10)
    if !(s.vf vf).ptroot.getLsbD 0 then (s.leaveWalks (· == ⟨4096 + d, u⟩), .fault false 1) else
    match missTr s d (512 * d) vf ⟨4096 + d, u⟩ va kind with
    | (s, .ok pa) => if s.refused d pa then refuse s pa else s.portAt d vf kind n pa
    | (s, .fault true r) => (s.logAf d vf ⟨va, 0, kind, r⟩, .fault true r)
    | r => r

/-- Such an access whose every failure is logged (R348, R313). -/
def State.portAcc (s : State) (d u vf : Nat) (va : Word) (kind : AccKind) (n : Nat) (pa : Option Nat) : State × TrRes :=
  match s.portTr d u vf va kind n pa with
  | (s, .fault false r) => (s.logAf d vf ⟨va, 0, kind, r⟩, .fault false r)
  | r => r

/-- Numbers of the units of a die: the takes of a queue, its actions, its collectives, the trace of a core. -/
def unitQueue (q : Nat) : Nat := 4 * q
def unitAct (id : Nat) : Nat := 4 * id + 1
def unitColl (task h : Nat) : Nat := 4 * (4 * task + h) + 2
def unitTrace (c : Nat) : Nat := 4 * c + 3

/-- The virtual address that RA of a link names, R346. -/
def linkVa (l : Word) : Word := ((l.extractLsb' 0 50 ++ 0#7).signExtend 64)
def linkSlot (l : Word) : Nat := (l.extractLsb' 50 3).toNat
def linkOk (l : Word) : Bool := l.extractLsb' 53 11 == 0

/-- Bytes of a device write at a port. -/
def portBytes (n v : Nat) : List (Option Byte) := (leBytes n v).map some

/-- The words of a record in memory. -/
def fieldAt (bs : List Byte) (o n : Nat) : Nat := leNat ((bs.drop o).take n)
def wordAt (bs : List Byte) (o : Nat) : Word := BitVec.ofNat 64 (fieldAt bs o 8)

/-- What a read of the device answers: data, nothing, or not yet. -/
inductive ReadRes where
  | data (bs : List Byte)
  | bad
  | wait
deriving DecidableEq, Repr

/-- A record the device reads once for a tenant: aligned, translated, not poisoned, else reason 12 (R324). -/
def State.readDev (s : State) (d u vf : Nat) (va : Word) (n : Nat) : State × ReadRes :=
  if va.toNat % n ≠ 0 || !canonical va then (s, .bad) else
  match s.portTr d u vf va .read n none with
  | (s, .ok pa) => ((s.noteRead pa n), .data (s.portRead pa n))
  | (s, .fault _ _) => (s, .bad)
  | (s, _) => (s, .wait)

/-- The take under way of unit `u` of die `d`. -/
def State.takeOf (s : State) (d u : Nat) : DevTake := (s.takes.find? (fun e => e.die == d && e.unit == u)).getD { die := d, unit := u }

/-- It goes on, or is over. -/
def State.endTake (s : State) (d u : Nat) : State := { s with takes := s.takes.filter (fun e => !(e.die == d && e.unit == u)) }
def State.putTake (s : State) (x : DevTake) : State := { s.endTake x.die x.unit with takes := (s.endTake x.die x.unit).takes ++ [x] }

/-- Part `i` of what a take reads: read by an earlier turn, or now (R323: each part is read once). -/
def State.readPart (s : State) (d u vf i : Nat) (va : Word) (n : Nat) : State × ReadRes :=
  match (s.takeOf d u).got[i]? with
  | some bs => (s, .data bs)
  | none => match s.readDev d u vf va n with
    | (s, .data bs) => (s.putTake { s.takeOf d u with got := (s.takeOf d u).got ++ [bs] }, .data bs)
    | r => r

/-! ### The checks of a take, spec/16 R324 -/

def zeros (bs : List Byte) (o n : Nat) : Bool := ((bs.drop o).take n).all (· == 0)

/-- Reasons 1 and 2: the record alone. -/
def recordReason (qctl : Word) (r : List Byte) : Option Nat :=
  let t := wordAt r 0
  let dep := wordAt r 0x20
  let ns := (t.extractLsb' 40 4).toNat
  let sink := t.getLsbD 28
  if t.extractLsb' 8 8 != qctl.extractLsb' 16 8 || t.extractLsb' 16 9 != qctl.extractLsb' 0 9 then some 1
  else if t.extractLsb' 44 20 != 0 || t.extractLsb' 38 2 != 0 || t.extractLsb' 29 3 != 0 || t.extractLsb' 2 6 != 0
      || ns > 8 || t.extractLsb' 0 2 == 3 || (!sink && t.extractLsb' 32 6 != 0)
      || !zeros r 0x1C 4 || dep.extractLsb' 24 40 != 0 || (t.extractLsb' 0 2 == 2 && dep.extractLsb' 0 8 == 0)
      || (wordAt r 0x28).extractLsb' 0 7 != 0 || (wordAt r 0x30).extractLsb' 0 5 != 0 || (!sink && wordAt r 0x30 != 0)
      || (wordAt r 0x38).extractLsb' 0 4 != 0
      || (List.range 8).any (fun i => let l := wordAt r (0x40 + 8 * i)
            if i < ns then !linkOk l else l != 0) then some 2
  else none

def orderAt (hctl : Word) (j : Nat) : Nat := hctl.toNat / 2 ^ (12 + 3 * j) % 8

/-- Reasons 3 to 11: the header and the descriptor. -/
def headerReason (pdebug : Bool) (h b : List Byte) : Option Nat :=
  let hctl := wordAt h 0
  let nf := (hctl.extractLsb' 0 3).toNat
  let group := (hctl.extractLsb' 4 3).toNat
  let width (i : Nat) := fieldAt h (8 + i) 1
  let ext (i : Nat) := fieldAt h (0x40 + 8 * i) 8
  let iter := fieldAt h 0x10 8
  let scrb := fieldAt h 0x18 8 % 2 ^ 21
  let nb := fieldAt h 0x20 8 % 64
  let fs := List.range nf
  let blk (k : Nat) := 0x40 + 0x30 * k
  let started (k : Nat) := fieldAt b (blk k) 8 ≠ 0
  let bad (a : Word) := !canonical a || !parcelAligned a
  if nf < 1 ∨ nf > 6 then some 3
  else if fs.any (fun i => width i < 1 || width i > 64) || (List.range 6).any (fun i => i ≥ nf && width i != 0)
      || (fs.map width).sum > 64 then some 4
  else if !(fs.all (fun f => fs.any (fun j => orderAt hctl j == f))) || group > nf then some 5
  else if fs.any (fun i => ext i = 0 || ext i > 2 ^ width i) then some 6
  else if iter = 0 || iter > (fs.map ext).foldl (· * ·) 1 then some 7
  else if scrb % 16 ≠ 0 || scrb < 16 || scrb > 2 ^ 20 || nb > 32 then some 8
  else if hctl.extractLsb' 30 34 != 0 || hctl.extractLsb' 7 5 != 0 || (List.range 6).any (fun j => j ≥ nf && orderAt hctl j != 0)
      || (hctl.getLsbD 3 && !pdebug) || !zeros h 0xE 2 || fieldAt h 0x18 8 ≥ 2 ^ 21 || fieldAt h 0x20 8 ≥ 64
      || !zeros h 0x28 0x18 || (List.range 6).any (fun i => i ≥ nf && ext i != 0) || !zeros h 0x70 0x10
      || !zeros b 4 0x3C
      || (List.range 4).any (fun k => if started k then fieldAt b (blk k + 0x20) 8 ≥ 16 || !zeros b (blk k + 0x28) 8
            else !zeros b (blk k) 0x30) then some 9
  else if !started 0 || (List.range 4).any (fun k => started k &&
      (bad (wordAt b (blk k)) || bad (wordAt b (blk k + 8)) || bad (wordAt b (blk k + 16))
        || fieldAt b (blk k + 16) 8 ≤ fieldAt b (blk k + 8) 8)) then some 10
  else if fieldAt b 0 4 = 0 then some 11
  else none

/-- What a launch remembers of its bytes. -/
def mkLaunch (va : Word) (d q : Nat) (r h b : List Byte) : Launch :=
  let t := wordAt r 0
  { va := va, die := d, q := q, vf := (t.extractLsb' 16 9).toNat, kind := t.extractLsb' 0 2
    prio := (t.extractLsb' 25 3).toNat, est := fieldAt r 0x18 4, sink := t.getLsbD 28, vec := (t.extractLsb' 32 6).toNat
    done := wordAt r 0x30, futa := wordAt r 0x38, fcont := wordAt r 0x28
    succ := (List.range (t.extractLsb' 40 4).toNat).map (fun i => wordAt r (0x40 + 8 * i))
    hdr := wordAt r 8, hctl := wordAt h 0, widths := (List.range 6).map (fun i => fieldAt h (8 + i) 1)
    iter := if t.extractLsb' 0 2 = 0 then fieldAt h 0x10 8 else 1
    scrb := fieldAt h 0x18 8, nb := fieldAt h 0x20 8, ext := (List.range 6).map (fun i => fieldAt h (0x40 + 8 * i) 8)
    ft := (List.range 16).map (fun i => wordAt h (0x80 + 8 * i)), trip := BitVec.ofNat 32 (fieldAt b 0 4)
    body := (List.range 4).map (fun k => let o := 0x40 + 0x30 * k
      { entry := wordAt b o, kstart := wordAt b (o + 8), kend := wordAt b (o + 16), stage := fieldAt b (o + 0x20) 8 % 16 }) }

/-- Group size GS, R330. -/
def Launch.gs (x : Launch) : Nat :=
  if x.kind ≠ 0 then 1
  else ((List.range (x.hctl.extractLsb' 4 3).toNat).map (fun j => x.ext.getD (orderAt x.hctl j) 1)).foldl (· * ·) 1

/-- The ticket ranges of R330: dealt over the dies of the partition for a NEST, on the queue's die otherwise. -/
def dealRanges (x : Launch) (ds : List Nat) : Tab (Nat × Nat) :=
  let nt := (x.iter + x.gs - 1) / x.gs
  if x.kind ≠ 0 then [(x.die, 0, 1)]
  else (ds.zip (List.range ds.length)).map (fun (d, k) => (d, k * nt / ds.length, (k + 1) * nt / ds.length))

/-- The take of a queue is over: it waits for no walk any more. -/
def State.quitTake (s : State) (d q : Nat) : State := (s.endTake d (unitQueue q)).leaveWalks (· == ⟨4096 + d, unitQueue q⟩)

/-- An ACTIVE queue faults with a reason, R323, R324, and takes no record any more. -/
def queueFault (s : State) (d q : Nat) (reason code : Nat) (va : Word) : State :=
  let y := s.queue d q
  if y.st != .active then s else
  ((s.quitTake d q).mapQueue d q (fun y => { y with st := .faulted, reason := reason, code := code, faddr := va })).out
    (.msix (y.qctl.toNat % 512) (y.qctl.extractLsb' 32 6).toNat)

/-- The checks of a take in their order, R324: the reason, or the launch; no reason while a read waits (R309, R311, R392). -/
def takeChecks (s : State) (d u q : Nat) (va : Word) : State × Except (Option Nat) Launch :=
  let qctl := (s.queue d q).qctl
  let vf := qctl.toNat % 512
  match s.readPart d u vf 0 va 128 with
  | (s, .bad) => (s, .error (some 12))
  | (s, .wait) => (s, .error none)
  | (s, .data r) =>
    match recordReason qctl r with
    | some e => (s, .error (some e))
    | none =>
      match s.readPart d u vf 1 (wordAt r 8) 256 with
      | (s, .bad) => (s, .error (some 12))
      | (s, .wait) => (s, .error none)
      | (s, .data h) =>
        match s.readPart d u vf 2 (wordAt r 16) 256 with
        | (s, .bad) => (s, .error (some 12))
        | (s, .wait) => (s, .error none)
        | (s, .data b) =>
          match headerReason (s.feat vf 3) h b with
          | some e => (s, .error (some e))
          | none => (s, .ok (mkLaunch va d q r h b))

/-- The word at a home port. -/
def State.wordAtPort (s : State) (pa : Nat) : Word := BitVec.ofNat 64 (leNat (s.portRead pa 8))

/-- A word of 8 bytes is written at a home port. -/
def State.setDep (s : State) (wr : Writer) (pa : Nat) (v : Word) : State := s.portWrite wr pa (portBytes 8 v.toNat)

/-- The writer of a die's port for a tenant. -/
def portWriter (d vf grp : Nat) : Writer := { kind := 1, dev := true, die := d, vf := vf, grp := grp }

/-- STATE of DEP, R345. -/
def depState (v : Word) : Nat := (v.extractLsb' 24 3).toNat
def withDepState (v : Word) (n : Nat) : Word := (v &&& ~~~(7#64 <<< 24)) ||| (BitVec.ofNat 64 n <<< 24)
def depSatisfied (v : Word) : Bool := v.extractLsb' 8 8 &&& v.extractLsb' 0 8 == v.extractLsb' 0 8
def depPoisoned (v : Word) : Bool := v.extractLsb' 16 8 &&& v.extractLsb' 0 8 != 0

/-- Set GOT[j], and POIS[j] for a poison, only where GOT[j] is clear (R347, R356). -/
def depGot (v : Word) (j : Nat) (poison : Bool) : Word :=
  if v.getLsbD (8 + j) then v
  else v ||| (1#64 <<< (8 + j)) ||| (if poison && depState v ≤ 1 then 1#64 <<< (16 + j) else 0)

/-- The launch that stands for a taken record which waits, by the memory that holds its DEP word. -/
def State.waiting (s : State) (pa : Nat) : Option Nat :=
  (s.launches.find? (fun e => e.2.dep == pa && !e.2.ready && !e.2.ended)).map Prod.fst

/-- A signal or poison reaches DEP at `pa`, R347, R348: the new state and what follows. -/
def applyTell (s : State) (wr : Writer) (pa slot : Nat) (poison : Bool) : State × List TaskAct :=
  let v := s.wordAtPort pa
  let v' := depGot v slot poison
  if depState v = 1 && depSatisfied v' then
    if depPoisoned v' then (s.setDep wr pa v', (s.waiting pa).toList.map TaskAct.skipTo)
    else
      let s := s.setDep wr pa (withDepState v' 2)
      (match s.waiting pa with
        | some n => s.mapLaunch n (fun x => { x with ready := true })
        | none => s, [])
  else (s.setDep wr pa v', [])

/-- LINK and SLOT of a WAITED state word, R353. -/
def futureLink (st : Word) : Word := (st.extractLsb' 0 53).setWidth 64

/-- Abandonment of the task whose FUTA names the future at `pa`, R354; a poison it sends leaves from that port. -/
def faultFuture (s : State) (wr : Writer) (vf pa : Nat) : State × List TaskAct :=
  let st := s.wordAtPort pa
  let t := s.portWrite wr pa (portBytes 8 (3 * 2 ^ 62))
  match (st.extractLsb' 62 2).toNat with
  | 0 => (t, [])
  | 1 => (t, [.tell (farDie pa) vf (futureLink st) true none])
  | _ => (s, [])

/-- A launch enters the table under the next number. -/
def State.addLaunch (s : State) (x : Launch) : State :=
  let ds := s.diesOf (s.partOf x.die)
  { s with launches := Tab.set {} s.launches s.nlaunch { x with ranges := dealRanges x ds }, nlaunch := s.nlaunch + 1 }

/-- DIE, QUEUE and STATE written at a take, R347. -/
def takenDep (d q st : Nat) (v : Word) : Word :=
  withDepState v st ||| (BitVec.ofNat 64 d <<< 38) ||| (BitVec.ofNat 64 q <<< 32)

/-- What an action answers: what follows it in its group, or that it waits, perhaps judged already. -/
inductive ActRes where
  | done (l : List TaskAct)
  | wait (pa : Option Nat)

/-- An access of an action, and what it does at the port; one that cannot be made is dropped and the sender goes on (R348). -/
def actAt (s : State) (d id vf : Nat) (va : Word) (kind : AccKind) (n : Nat) (pa : Option Nat) (f : State → Nat → State × List TaskAct)
    (no : List TaskAct) : State × ActRes :=
  match s.portAcc d (unitAct id) vf va kind n pa with
  | (s, .ok pa) => let r := f (if kind = .rmw then s.noteRead pa n else s) pa; (r.1, .done r.2)
  | (s, .fault _ _) => (s, .done no)
  | (s, .held pa) => (s, .wait (some pa))
  | (s, .wait) => (s, .wait none)

/-- The abandonment of a record, R356: STATE, its future, its poisons and its sink follow; its tickets are dropped. -/
def applyAbandon (s : State) (n : Nat) : State × ActRes :=
  let x := s.launch n
  if x.ended then (s, .done []) else
  (s.mapLaunch n (fun x => { x with ended := true, ranges := [], held := [] }),
    .done ([.recState x.die n 6] ++ (if x.futa ≠ 0 then [.fault x.die x.vf x.futa] else [])
      ++ x.succ.map (fun l => TaskAct.tell x.die x.vf l true none) ++ [.sink x.die n true]))

/-- A satisfied record with a poisoned slot: its fault continuation or its abandonment, R357. Where the DEP word of the continuation lies is
found once; its STATE is read in the turn in which it is taken. -/
def applySkip (s : State) (id grp n : Nat) : State × ActRes :=
  let x := s.launch n
  let u := unitAct id
  let leave (s : State) : State × ActRes := (s.endTake x.die u, .done [.abandon n])
  if x.fcont = 0 then leave s else
  match s.portTr x.die u x.vf (x.fcont + 0x20) .rmw 8 (s.takeOf x.die u).dep with
  | (s, .fault _ _) => leave (queueFault s x.die x.q 12 0 x.fcont)
  | (s, .ok pa) =>
    let s := (s.noteRead pa 8).putTake { s.takeOf x.die u with dep := some pa }
    let v := s.wordAtPort pa
    if depState v ≠ 0 then leave s else
    match takeChecks s x.die u x.q x.fcont with
    | (s, .error none) => (s, .wait none)
    | (s, .error (some e)) => leave (queueFault s x.die x.q e (if e = 1 then 0x1A else 0) x.fcont)
    | (s, .ok y) =>
      let s := (s.endTake x.die u).mapLaunch n (fun x => { x with ended := true, ranges := [] })
      ((s.setDep (portWriter x.die x.vf grp) pa (takenDep x.die x.q 2 v)).addLaunch { y with dep := pa, ready := true }, .done [.recState x.die n 5])
  | (s, .held pa) => (s.putTake { s.takeOf x.die u with dep := some pa }, .wait none)
  | (s, .wait) => (s, .wait none)

/-- The completion record of a sink, R359, then its vector once the record is performed at system scope (spec/19 R387). -/
def applySink (s : State) (p : Pending) (pa : Option Nat) (d n : Nat) (faulted : Bool) : State × ActRes :=
  let x := s.launch n
  if !x.sink then (s, .done []) else
  actAt s d p.id x.vf x.done .write 32 pa (fun s pa =>
    let wr := portWriter d x.vf p.grp
    ((s.portWrite wr pa (portBytes 8 (if faulted then 1 else 0) ++ portBytes 8 x.va.toNat)).portWrite wr (pa + 16)
      (portBytes 8 s.dieclk ++ portBytes 8 0), [.msix x.vf x.vec])) [.msix x.vf x.vec]

/-- Whether a write of a group of actions has still to be performed at system scope. -/
def State.grpOpen (s : State) (grp : Nat) : Bool :=
  let mine (wr : Writer) : Bool := wr.dev && wr.grp == grp
  s.wire.any (fun f => (f.writer.map mine).getD false) || s.hostOut.any (fun e => mine e.wr)

/-- One action, at the address where it has been judged if it has. -/
def applyAct (s : State) (p : Pending) (pa : Option Nat) : State × ActRes :=
  match p.act with
  | .tell d vf l poison core =>
    let wr : Writer := match core with
      | some c => { kind := 1, core := c, vf := vf, task := (s.ctx c).task }
      | none => portWriter d vf p.grp
    actAt s d p.id vf (linkVa l + 0x20) .rmw 8 pa (fun s pa => applyTell s wr pa (linkSlot l) poison) []
  | .recState d n st =>
    let x := s.launch n
    actAt s d p.id x.vf (x.va + 0x20) .rmw 8 pa (fun s pa =>
      let v := s.wordAtPort pa
      (if st = 3 && depState v ≠ 2 then s else s.setDep (portWriter d x.vf p.grp) pa (withDepState v st), [])) []
  | .abandon n => applyAbandon s n
  | .fault d vf futa => actAt s d p.id vf futa .rmw 16 pa (fun s pa => faultFuture s (portWriter d vf p.grp) vf pa) []
  | .skipTo n => applySkip s p.id p.grp n
  | .sink d n f => applySink s p pa d n f
  | .msix vf vec => (s.out (.msix vf vec), .done [])

/-- Actions with numbers from `n` on. -/
def numberActs (n grp : Nat) : List TaskAct → List Pending
  | [] => []
  | a :: t => ⟨n, grp, a, none⟩ :: numberActs (n + 1) grp t

/-- The action at a place among those that wait is tried, unless one of its group stands before it or a write of its group is not yet
performed at system scope (R351, R356, spec/19 R387); what follows takes its place. -/
def tryAct (i : Nat) (s : State) : State × Bool :=
  match s.acts[i]? with
  | none => (s, false)
  | some p =>
    if (s.acts.take i).any (fun q => q.grp == p.grp) || s.grpOpen p.grp then (s, false) else
    match applyAct s p p.pa with
    | (s, .done l) =>
      let s := s.leaveWalks (fun y => y.c ≥ 4096 && y.u == unitAct p.id)
      ({ s with acts := s.acts.take i ++ numberActs s.nact p.grp l ++ s.acts.drop (i + 1), nact := s.nact + l.length }, true)
    | (s, .wait pa) => ({ s with acts := s.acts.set i { p with pa := pa } }, false)

/-- The waiting actions are tried in order, from a place on; what an action leaves is tried next. Every abandonment ends a record and
every record has at most twelve actions, which bounds `fuel`. -/
def runActs : Nat → Nat → State → State
  | 0, _, s => s
  | f + 1, i, s => if i ≥ s.acts.length then s else
    match tryAct i s with
    | (s, true) => runActs f i s
    | (s, false) => runActs f (i + 1) s

/-- What can be done of the waiting actions from a place on is done. -/
def State.doActs (s : State) (i : Nat) : State := runActs (2 * s.acts.length + 14 * (s.launches.length + 1)) i s

/-- New actions of a group join those that wait, and all that can be done is. -/
def State.groupActs (s : State) (grp : Nat) (l : List TaskAct) : State :=
  if l.isEmpty then s else
  State.doActs { s with acts := s.acts ++ numberActs s.nact grp l, nact := s.nact + l.length } 0

/-- New actions as a group of their own. -/
def State.taskActs (s : State) (l : List TaskAct) : State := s.groupActs (2 * s.nact) l

/-- The group of the last actions of a task (R351). -/
def doneGrp (task : Nat) : Nat := 2 * task + 1

/-- The take of the record at the head of a queue, R323, R347: whether it is done, or waits for a read. One whose DEP word says that it has
been taken meanwhile fails with reason 2. -/
def takeRecord (s : State) (d q : Nat) (va : Word) : State × Bool :=
  let u := unitQueue q
  match takeChecks s d u q va with
  | (s, .error none) => (s, false)
  | (s, .error (some e)) => (queueFault s d q e (if e = 1 then 0x1A else 0) va, true)
  | (s, .ok x) =>
    match s.portTr d u x.vf (va + 0x20) .rmw 8 (s.takeOf d u).dep with
    | (s, .fault _ _) => (queueFault s d q 12 0 va, true)
    | (s, .ok pa) =>
      let s := (s.noteRead pa 8).quitTake d q
      let v := s.wordAtPort pa
      let wr := portWriter d x.vf 0
      let n := s.nlaunch
      if depState v ≠ 0 then (queueFault s d q 2 0 va, true)
      else if depSatisfied v && !depPoisoned v then
        ((s.setDep wr pa (takenDep d q 2 v)).addLaunch { x with dep := pa, ready := true }, true)
      else
        let s := (s.setDep wr pa (takenDep d q 1 v)).addLaunch { x with dep := pa }
        (if depSatisfied v then s.taskActs [.skipTo n] else s, true)
    | (s, .held pa) => (s.putTake { s.takeOf d u with dep := some pa }, false)
    | (s, .wait) => (s, false)

/-- A future's port applies a cpres or a cpreg of a core, R354, R355: the outcome is a fault code, or none. Its signals leave from the
port's die. -/
def futureApply (s : State) (c vf pa : Nat) (reg : Bool) (arg : Word) : State × Option Nat :=
  let st := s.wordAtPort pa
  let wr : Writer := { kind := 1, core := c, vf := vf, task := (s.ctx c).task }
  let put (x : Nat) (s : State) := s.portWrite wr pa (portBytes 8 x)
  let resolved (s : State) := s.portWrite wr pa (portBytes 8 (2 * 2 ^ 62) ++ portBytes 8 arg.toNat)
  let tell (l : Word) (poison : Bool) (s : State) : State := s.taskActs [.tell (farDie pa) vf l poison none]
  if reg && !linkOk arg then (s, some 0x14) else
  match reg, (st.extractLsb' 62 2).toNat with
  | false, 0 => (resolved s, none)
  | false, 1 => (tell (futureLink st) false (resolved s), none)
  | false, _ => (s, some 0x18)
  | true, 0 => (put (2 ^ 62 + arg.toNat) s, none)
  | true, 1 => (s, some 0x19)
  | true, 2 => (tell arg false s, none)
  | true, _ => (tell arg true s, none)

end Sys2Proof.Machine
end

