-- ==== Sys2Proof/Machine/Port.lean ====
section
/-!
DEFINITION. What copy commands leave to be done after their elements are sent: accumulations, futures and signals applied
at home ports (spec/11 R236 to R239), responses written to scratch (R233), and their completion at a stop (R242).
-/

namespace Sys2Proof.Machine

/-- Element size by ET code, with 10 a raw 16-byte element (R225). -/
def etSize (et : Nat) : Nat := match et with
  | 0 => 1 | 1 => 1 | 2 => 2 | 3 => 2 | 4 => 4 | 5 => 4 | 6 => 8 | 7 => 2 | 8 => 4 | 9 => 8 | _ => 16

/-- An integer element as its exact value. -/
def etInt' (et x : Nat) : Int := if et ≤ 6 && et % 2 = 0 then swrap x (8 * etSize et) else x

/-- AccElement of R237, on numbers of 8·z bits: RNE, FTZ off, flags discarded. -/
def accNew (op et old : Nat) (arg : List Byte) : Nat :=
  let z := etSize et
  let s := leNat (arg.take z)
  match op with
  | 0 => if et ≥ 7 then
      (roundFv (fmtOf et) 0 0 false (addFv 0 (readF (fmtOf et) false old).1 (readF (fmtOf et) false s).1).1).1
    else wrapN (etInt' et old + etInt' et s) (8 * z)
  | 1 => if et ≥ 7 then (minMaxF (fmtOf et) false false old s).1 else wrapN (min (etInt' et old) (etInt' et s)) (8 * z)
  | 2 => if et ≥ 7 then (minMaxF (fmtOf et) true false old s).1 else wrapN (max (etInt' et old) (etInt' et s)) (8 * z)
  | 3 => old &&& s
  | 4 => old ||| s
  | 5 => old ^^^ s
  | 6 => s
  | _ => if old = s then leNat ((arg.drop z).take z) else old

/-- The operation code of an accumulate word. -/
def accOp : Instr → Nat
  | .cpaccAdd .. => 0
  | .cpaccMin .. => 1
  | .cpaccMax .. => 2
  | .cpaccAnd .. => 3
  | .cpaccOr .. => 4
  | .cpaccXor .. => 5
  | .cpaccXchg .. => 6
  | _ => 7

/-- Change the command with an order number, in either queue. -/
def mapCmd (x : Core) (ord : Nat) (f : CpCmd → CpCmd) : Core :=
  { x with lq := x.lq.map (fun q => if q.ord = ord then f q else q), wq := x.wq.map (fun q => if q.ord = ord then f q else q) }

def State.mapCmd (s : State) (c ord : Nat) (f : CpCmd → CpCmd) : State := s.mapCore c (fun x => Machine.mapCmd x ord f)

/-- Image position of element e of an accumulate command: 16 bytes each for cas. -/
def imgPos (q : CpCmd) (z e : Nat) : Nat := (q.sreg.toNat % 2 ^ 47) + e * z

/-- Keep the lowest of two failed elements. -/
def lowBad (old : Option (Nat × Word)) (code : Nat) (va : Word) : Option (Nat × Word) := old.or (some (code, va))

/-- A refusal or a poisoned granule that an element or a future of a command meets at its home port is kept with the command. -/
def portBad (s : State) (c ord code : Nat) (va : Word) : State := s.mapCmd c ord (fun q => { q with port := lowBad q.port code va })

/-- An access that a home port does not apply, with its entry in the log (R313). -/
def refuseAt (s : State) (c vf ord : Nat) (va : Word) (kind : AccKind) (reason : Nat) : State :=
  portBad (s.logAf (dieOf c) vf ⟨va, c, kind, reason⟩) c ord 0x14 va

/-- The command with an order number. -/
def Core.cmd (x : Core) (ord : Nat) : Option CpCmd := (x.lq ++ x.wq).find? (·.ord == ord)

/-- The old value of an element returns: as a response of its command, or to scratch at once when the command has ended. -/
def returnOld (s : State) (c : Nat) (r : AccReq) (bs : List Byte) : State :=
  match r.ret with
  | none => s
  | some x => if ((s.core c).cmd r.ord).isSome then s.mapCmd c r.ord (fun q => { q with out := q.out ++ [⟨r.e, x, bs, none, rspHome r.pa⟩] })
    else s.mapCore c (·.scrWrite x bs)

/-- One element is applied, R237. -/
def applyElem (s : State) (c : Nat) (r : AccReq) : State :=
  let z := etSize r.et
  let op := accOp r.img
  let old := leNat (s.portRead r.pa z)
  let s := s.portWrite { kind := 1, core := c, vf := r.vf, task := (s.ctx c).task, ord := r.ord, va := r.va } r.pa (portBytes z (accNew op r.et old r.arg))
  let s := if op = 7 && old = leNat (r.arg.take z) then s.mapCmd c r.ord (fun q => { q with cas := q.cas + 1 }) else s
  returnOld s c r (leBytes z old)

/-- Bytes that a request updates at its port: an element, a future, or a DEP word. -/
def AccReq.bytes (r : AccReq) : Nat := match r.img with
  | .cpres .. | .cpreg .. => 16
  | .cpsig .. => 8
  | _ => etSize r.et

/-- Whether the port of a request applies it: the aperture of a core only while that runs a task of the tenant (R300), and no poisoned
granule (R301): the reason of the refusal. -/
def portRefuses (s : State) (r : AccReq) : Option Nat := match homeOf r.pa with
  | .aper k o => if s.aperOk r.vf k o r.bytes then none else some 9
  | _ => if s.poisoned r.pa r.bytes then some 8 else none

/-- A request reaches its home port, R237, R239, R300, R301. -/
def applyAcc (s : State) (c : Nat) (r : AccReq) : State :=
  let s := s.noteRead r.pa r.bytes
  match portRefuses s r with
  | some e => refuseAt s c r.vf r.ord r.va .rmw e
  | none =>
  match r.img with
  | .cpres .. | .cpreg .. =>
    match futureApply s c r.vf r.pa (match r.img with | .cpreg .. => true | _ => false) (bytesWord r.arg) with
    | (s, some code) => portBad s c r.ord code r.va
    | (s, none) => s
  | .cpsig _ _ _ j =>
    let a := applyTell s { kind := 1, core := c, vf := r.vf, task := (s.ctx c).task, ord := r.ord } r.pa j.toNat false
    a.1.taskActs a.2
  | _ => applyElem s c r

/-- The home port of an address: a stack, a slice, a core's scratch port, or the host. -/
def portOf (pa : Nat) : Nat × Nat := match homeOf pa with
  | .hbm st => (0, st)
  | .sdm d => (1, 32 * d + (pa - 2 ^ 40) % 2 ^ 31 / 0x3000000)
  | .aper k _ => (2, k)
  | .host _ => (3, 0)
  | .none => (4, 0)

/-- A write of the copy engine of a core on its way to a port. -/
def Flit.toPort (f : Flit) (c pa : Nat) : Bool := match f.cargo with
  | .store wr p _ _ => wr.kind == 1 && !wr.dev && wr.core == c && portOf p == portOf pa
  | _ => false

/-- Whether the oldest request of a core may be applied: the engine's requests reach one port in the order in which they were sent
(R233), a write on its way to the granule comes first (spec/19 R381), and a shut link or a stack under RECALHBM holds it (R392). -/
def accReady (s : State) (c : Nat) (r : AccReq) : Bool := !s.reqShut (dieOf c) r.pa && !s.behind c r.pa && !s.wire.any (fun f => f.toPort c r.pa)

/-- The oldest request of a core is applied. -/
def applyOldest (s : State) (c : Nat) : State :=
  match (s.core c).acc with
  | [] => s
  | r :: t => applyAcc (s.mapCore c (fun x => { x with acc := t })) c r

/-! ### Writes that arrive -/

/-- A write is applied at its home port; an aperture may refuse it (R300), and a set publication that is no longer backed is logged
(spec/14 R294). -/
def applyStore (s : State) (wr : Writer) (pa : Nat) (bs : List (Option Byte)) : State :=
  match homeOf pa with
  | .aper k o =>
    if s.aperOk wr.vf k o bs.length then s.portWrite wr pa bs
    else if wr.kind = 1 && !wr.dev then refuseAt s wr.core wr.vf wr.ord wr.va .write 9 else s
  | _ => if wr.kind = 5 && !wr.dev && !s.backed wr.vf pa then s.logAf wr.src wr.vf ⟨wr.va, wr.core, .write, 4⟩ else s.portWrite wr pa bs

/-- Every write that the copy engine of a core has sent is performed, R242. -/
def drainWire (s : State) (c : Nat) : State :=
  let mine (f : Flit) : Bool := match f.cargo with
    | .store wr _ _ _ => wr.kind == 1 && wr.ofCore c
    | _ => false
  (s.wire.filter mine).foldl (fun s f => match f.cargo with
    | .store wr pa bs _ => applyStore s wr pa bs
    | _ => s) { s with wire := s.wire.filter (fun f => !mine f) }

def isMulticast : Instr → Bool
  | .cpldm .. => true
  | _ => false

/-- A response writes the scratch image, or is kept for the destinations of a multicast; a failed one sets the cursor to
its element (R233, R235, R240). -/
def applyResp (s : State) (c : Nat) (q : CpCmd) : State :=
  match q.out with
  | [] => s
  | r :: t =>
    match r.bad with
    | some _ => s.mapCmd c q.ord (fun q => { q with out := t, sent := min q.sent r.e })
    | none =>
      if isMulticast q.img then s.mapCmd c q.ord (fun q => { q with out := t, mdata := writeBytes q.mdata r.x r.bytes })
      else (s.mapCmd c q.ord (fun q => { q with out := t })).mapCore c (·.scrWrite r.x r.bytes)

/-- Whether a core's port accepts multicast data up to scratch byte `e` from a task of launch `l`, R235. -/
def Core.accepts (x : Core) (l e : Nat) : Bool := match x.ctx with
  | some y => y.launch == l && e ≤ y.scrsize
  | none => false

/-- Bytes of a sparse image, one by one. -/
def Core.scrWriteTab (x : Core) (t : Tab Byte) : Core := t.foldl (fun x e => x.scrWrite e.1 [e.2]) x

/-- The data of a multicast goes to one destination, which accepts or refuses it: the state, and whether it accepted. -/
def castTo (s : State) (c d : Nat) (q : CpCmd) : State × Bool :=
  let z := etSize ((leNat (q.snap.getD {}).bytes) % 16)
  if (s.core d).accepts (s.ctx c).launch (q.x + q.n * z) then (s.mapCore d (·.scrWriteTab q.mdata), true) else (s, false)

/-- The record of KIND 0x02 at a destination, R232. -/
def castRec (c : Nat) (q : CpCmd) : Word :=
  let z := etSize ((leNat (q.snap.getD {}).bytes) % 16)
  evRec 2 .l (c + q.x % 2 ^ 20 * 2 ^ 12 + ((q.n * z + 15) / 16 - 1) * 2 ^ 32)

/-- A destination has been served, or has refused. -/
def castServed (s : State) (c ord d : Nat) (accepted : Bool) : State :=
  s.mapCmd c ord (fun q => { q with mleft := q.mleft.filter (· != d), mbad := if accepted then q.mbad else q.mbad ||| (1#16 <<< (d % 16)) })

/-- Every request already sent is performed, and its response written, R242. -/
def drainAcc : Nat → State → Nat → State
  | 0, s, _ => s
  | n + 1, s, c => drainAcc n (applyOldest s c) c

def drainOut : Nat → State → Nat → Nat → State
  | 0, s, _, _ => s
  | n + 1, s, c, ord => match (s.core c).cmd ord with
    | some q => drainOut n (applyResp s c q) c ord
    | none => s

/-- What a multicast has read goes to its destinations: with every element the last byte arrives too, and the destination is served
(R235); one that refuses stays refused. -/
def drainCast (s : State) (c ord : Nat) : State :=
  match (s.core c).cmd ord with
  | none => s
  | some q => if !isMulticast q.img then s else
    q.mleft.foldl (fun s d =>
      match castTo s c d q with
      | (s, false) => castServed s c ord d false
      | (s, true) => if q.sent < q.n then s else (castServed s c ord d true).postEv d 1 (castRec c q)) s

/-- What the record of a command that a stop interrupts cannot hold (R123, R232, R235). -/
def keptOf (q : CpCmd) : Option Kept :=
  if q.port.isSome || isMulticast q.img || q.cas ≠ 0 then some ⟨q.k, q.seq, q.port, q.mleft, q.mbad, q.cas⟩ else none

def State.drainCopies (s : State) (c : Nat) : State :=
  let s := drainWire s c
  let s := drainAcc (s.core c).acc.length s c
  let s := ((s.core c).lq ++ (s.core c).wq).foldl (fun s q => drainOut q.out.length s c q.ord) s
  let s := (s.core c).lq.foldl (fun s q => drainCast s c q.ord) s
  s.mapCtx c (fun y => { y with kept := ((s.core c).lq ++ (s.core c).wq).filterMap keptOf })

end Sys2Proof.Machine
end

