-- ==== Sys2Proof/Machine/Retire.lean ====
section
/-!
DEFINITION. The end of a core's clock cycle: landings (spec/01 R19 to R21), retirement and gives (spec/07 R143 to R146),
strands that exit or stop (R144, R154), and the DRAIN clamp (spec/16 R339).
-/

namespace Sys2Proof.Machine

/-! ### Token FIFOs, spec/02 R32 and spec/07 R147 -/

def takeL : StrandIx → Nat
  | .l => 4 | .c => 0 | .w => 2 | .s => 0
def takeR : StrandIx → Nat
  | .l => 1 | .c => 3 | .w => 5 | .s => 0
def giveL : StrandIx → Nat
  | .l => 5 | .c => 1 | .w => 3 | .s => 0
def giveR : StrandIx → Nat
  | .l => 0 | .c => 2 | .w => 4 | .s => 0

/-- The FIFOs a word takes from, by its token field. -/
def takesOf (k : StrandIx) (t : BitVec 4) : List Nat :=
  (if t.getLsbD 3 then [takeL k] else []) ++ (if t.getLsbD 2 then [takeR k] else [])

/-- The FIFOs a retirement gives into. -/
def givesOf (k : StrandIx) (gl gr : Bool) : List Nat := (if gl then [giveL k] else []) ++ (if gr then [giveR k] else [])

def cnt (t : Tab Nat) (f : Nat) : Nat := Tab.get 0 t f
def bump (t : Tab Nat) (f : Nat) : Tab Nat := Tab.set 0 t f (cnt t f + 1)

/-- Whether a give into a FIFO can be made in this clock cycle, R146. -/
def Core.room (x : Core) (f : Nat) : Bool := cnt x.tok f + cnt x.gave f < 8

/-- Make gives. -/
def Core.give (x : Core) (fs : List Nat) : Core := { x with gave := fs.foldl bump x.gave }

/-! ### Landings -/

/-- A stop cause of an operation already issued, spec/06 R123 rank 3. -/
def State.raiseOp (s : State) (c : Nat) (k : StrandIx) (code : Nat) (tval : Word) : State :=
  s.mapCore c (fun x => { x with stops := x.stops ++ [⟨3, k, code, 0, tval⟩] })

/-- Register results land, those of this cycle's own words excepted (R19). -/
def Strand.landRegs (t : Strand) (d : Reg) : List Word → Strand
  | [] => t
  | v :: vs => Strand.landRegs (if t.fresh.getLsbD d.toNat then t else t.setReg d v) (d + 1) vs

/-- One vector group lands: its bytes, its flags, and FP_ENABLED or a cut at an unwritten granule (R15, R187). -/
def landGroup (s : State) (c : Nat) (g : VGroup) : State :=
  let s := s.mapCore c (fun x => g.writes.foldl (fun x (w : Nat × List Byte) => x.scrWrite w.1 w.2) x)
  let en := fpEnabled (s.str c .c).sst g.flags
  let s := s.mapStr c .c (fun t => { t with sst := sstRaise t.sst g.flags })
  let s := if en then s.raiseOp c .c 0x08 (g.flags.setWidth 64) else s
  match g.fault with
  | some a => s.raiseOp c .c 0x05 (BitVec.ofNat 64 a)
  | none => s

/-- Where a vector word stands after its due groups have landed: the groups left, the element cursor, and whether a
group was cut at an unwritten granule. -/
structure GroupRes where
  left : List VGroup
  cur  : Nat
  cut  : Bool

/-- Land the exposed groups that are due, in order; a cut group ends the word. -/
def landGroups (s : State) (c ic cur : Nat) : List VGroup → State × GroupRes
  | [] => (s, ⟨[], cur, false⟩)
  | g :: gs =>
    if g.at' = 0 || g.at' > ic then (s, ⟨g :: gs, cur, false⟩) else
    let s := landGroup s c g
    if g.fault.isSome then (s, ⟨[], g.cur, true⟩) else landGroups s c ic g.cur gs

/-- What an operation does at the end of issue cycle `ic` of its strand: the state, and the operation unless it is
finished. A vector word that was cut stays, with no group left to land. -/
def landOp (c ic : Nat) (s : State) (o : Op) : State × Option Op :=
  match o.body with
  | .regs at' d vs => if at' ≤ ic then (s.mapStr c o.k (·.landRegs d vs), none) else (s, some o)
  | .store at' x bs => if at' ≤ ic then (s.mapCore c (·.scrWrite x bs), none) else (s, some o)
  | .shadow at' _ => if at' ≤ ic then (s, none) else (s, some o)
  | .ilock _ _ _ => (s, some o)
  | .vec gs =>
    let r := landGroups s c ic o.prog gs
    if !gs.isEmpty && r.2.left.isEmpty && !r.2.cut then (r.1, none)
    else (r.1, some { o with prog := r.2.cur, body := .vec r.2.left })

/-- Land what is due of one strand's operations, in order. -/
def landOps (c ic : Nat) (k : StrandIx) (s : State) : List Op → State × List Op
  | [] => (s, [])
  | o :: t =>
    if o.k = k then
      match landOp c ic s o with
      | (s, some o') => let r := landOps c ic k s t; (r.1, o' :: r.2)
      | (s, none) => landOps c ic k s t
    else let r := landOps c ic k s t; (r.1, o :: r.2)

/-- Whether the next group of a vector operation is interlocked. -/
def nextInterlocked (o : Op) : Bool := match o.body with
  | .vec (g :: _) => g.at' == 0
  | _ => false

/-- The first operation of the core whose next group is interlocked lands that group (spec/01 R21). -/
def landVector (c : Nat) (s : State) : State :=
  match (s.core c).ops.find? nextInterlocked with
  | none => s
  | some o => match o.body with
    | .vec (g :: gs) =>
      let s := landGroup s c g
      let done := gs.isEmpty && g.fault.isNone
      s.mapCore c (fun y => { y with ops := y.ops.flatMap (fun p =>
        if p.ord == o.ord && p.k == o.k then
          (if done then [] else [{ p with prog := g.cur, body := .vec (if g.fault.isSome then [] else gs) }])
        else [p]) })
    | _ => s

/-- Pending bits that no write in flight keeps are cleared, R27. -/
def Core.clearPend (x : Core) (k : StrandIx) (was : List Reg) : Core :=
  x.mapStr k (fun t => { t with pend := was.foldl (fun (p : BitVec 32) (r : Reg) =>
    if x.flying k r then p else p &&& ~~~(1#32 <<< r.toNat)) t.pend })

/-- The landings at the end of a strand's issue cycle. -/
def landStrand (s : State) (c : Nat) (k : StrandIx) : State :=
  let x := s.core c
  let r := landOps c (x.str k).ic k s x.ops
  r.1.mapCore c (fun y => ({ y with ops := r.2 } : Core).clearPend k
    (x.ops.flatMap (fun o => if o.k = k then exposedOf o.body else [])))

/-! ### Retirement -/

/-- A word has not reached its finish point, R143. -/
def Core.unfinished (x : Core) (k : StrandIx) (r : RetEnt) : Bool :=
  x.ops.any (fun o => o.k == k && o.ord == r.ord) || (k == .c && x.mxq.any (fun m => m.ord == r.ord))

/-- Retire finished words from the oldest, with their gives; a give without room holds the strand (R145). -/
def retireN (k : StrandIx) : Nat → Core → Core
  | 0, x => x
  | n + 1, x =>
    match (x.str k).ret with
    | [] => x
    | r :: t =>
      if x.unfinished k r then x else
      let gs := givesOf k r.gl r.gr
      if gs.all x.room then
        retireN k n ((x.give gs).mapStr k (fun u => { u with ret := t, held := false }))
      else x.mapStr k (fun u => { u with held := true })

/-- Retirement of a strand in a clock cycle: in an issue cycle every word that can; otherwise only a held one. -/
def retireStrand (x : Core) (k : StrandIx) : Core :=
  let t := x.str k
  if t.issued then retireN k t.ret.length x else if t.held then retireN k 1 x else x

/-- A strand that issues empty cycles stops once its words have retired, R144, R154. -/
def stopStrand (x : Core) (k : StrandIx) : Core :=
  let t := x.str k
  if t.running && t.exiting && t.ret.isEmpty then x.setStr k { t with running := false, exiting := false } else x

/-- The end of a strand's clock cycle. -/
def closeStrand (c : Nat) (s : State) (k : StrandIx) : State :=
  let s := if (s.str c k).issued then landStrand s c k else s
  let s := if k = .c && (s.core c).vdue then landVector c s else s
  s.mapCore c (fun x => stopStrand (retireStrand x k) k)

/-- What the next clock cycle starts from. -/
def Strand.nextCycle (t : Strand) : Strand :=
  { t with
    issued := false, fresh := 0, yready := false, ytakes := 0, yneed := 0, ygl := 0, ygr := 0, ygo := false, running := t.running || t.starting, starting := false
    fwait := if t.running && t.stopping then 0 else t.fwait - 1
    waited := if t.twait then t.waited + 1 else t.waited, twait := false
    exiting := t.exiting || (t.running && t.stopping), stopping := false }

/-- One tag write. -/
def tagApply (t : Tab (Option Word)) (w : TagWr) : Tab (Option Word) := match w.ix with
  | some i => Tab.set none t i w.ent
  | none => []

/-- The tag writes of a clock cycle in the order of R160: cptag completions, then strands by their index. -/
def tagsApply (t : Tab (Option Word)) (ws : List TagWr) : Tab (Option Word) :=
  (List.range 5).foldl (fun t p => (ws.filter (·.place == p)).foldl tagApply t) t

/-- The shape writes of a clock cycle: W's is the one that stays (spec/11 R228). -/
def shapesApply (t : Tab Shape) (ws : List ShapeWr) : Tab Shape :=
  (ws.filter (·.k != .w) ++ ws.filter (·.k == .w)).foldl (fun t w => Tab.set {} t w.h w.val) t

/-- Token counts, event queue, tag table and shape registers as the clock cycle leaves them, R146, R160, R161, spec/11 R227; records beyond 64 are held by their
sources. -/
def Core.settle (x : Core) : Core :=
  let q := x.evq ++ (x.ctx.getD {}).evwait ++ x.evnow.map Prod.snd
  { x with
    tok := (List.range 6).foldl (fun t f => Tab.set 0 t f (cnt t f + cnt x.gave f - cnt x.took f)) x.tok
    took := [], gave := [], evq := q.take 64, evnow := [], ev0 := min q.length 64, tags := tagsApply x.tags x.tagw, tagw := []
    sh := shapesApply x.sh x.shw, shw := []
    ctx := x.ctx.map (fun y => { y with evwait := q.drop 64 }) }

/-- What the next clock cycle starts from. -/
def Core.nextCycle (x : Core) : Core :=
  { x.settle with
    vdue := false, s := x.s.nextCycle, l := x.l.nextCycle, c := x.c.nextCycle, w := x.w.nextCycle }

/-! ### The DRAIN clamp, R339 -/

/-- Strands that the body descriptor starts. -/
def Launch.starts (x : Launch) (k : StrandIx) : Bool := (x.body.getD (ixOf k) {}).entry ≠ 0
def Launch.smax (x : Launch) : Nat :=
  (allStr.map (fun k => if x.starts k then (x.body.getD (ixOf k) {}).stage else 0)).foldl max 0

/-- The clamp at the end of the clock cycle of a drain point, with gd of a tchk. -/
def clampDrain (s : State) (c : Nat) : State :=
  let x := s.ctx c
  match x.drainPt with
  | none => s
  | some d =>
    let s := s.mapCtx c (fun x => { x with drainPt := none })
    match x.preempt with
    | .drain _ =>
      let n := s.launch x.launch
      let ks := allStr.filter n.starts
      let v := (ks.map (fun k => (s.str c k).lc0.toNat)).foldl min (2 ^ 32)
      if v < n.smax + 2 then s.mapCtx c (fun x => { x with preempt := .refused })
      else
        let s := s.mapCtx c (fun x => { x with preempt := .clamped (n.trip.toNat + n.smax + 1 - v) })
        (ks.foldl (fun s k => s.mapStr c k (fun t => { t with lc0 := t.lc0 - BitVec.ofNat 32 v + 1 })) s).mapStr c .s
          (·.setReg d 1)
    | _ => s

end Sys2Proof.Machine
end

