-- ==== Sys2Proof/Machine/Stop.lean ====
section
/-!
DEFINITION. What a stop writes: tadpole records, the context save area, the header of the tadpole area and the checkpoint
block (spec/06 R129 to R135, spec/12 R244 to R250).
-/

namespace Sys2Proof.Machine

/-! ### Images -/

def w8 (x : Word) : List Byte := wordBytes 8 x
def n8 (x : Nat) : List Byte := leBytes 8 x
def padTo (n : Nat) (bs : List Byte) : List Byte := (bs ++ List.replicate (n - bs.length) 0).take n

/-- The parcels of a word in memory order. -/
def imageOf (i : Instr) : List Byte := (encode i).flatMap (fun p => leBytes 4 p.toNat)

/-- The 256-byte form of a shape register, spec/11 R228. -/
def shapeImage (x : Shape) : List Byte :=
  padTo 256 (padTo 128 x.bytes ++ w8 x.fill ++ padTo 72 (x.org.flatMap (fun o => n8 (wrapN o 64)))
    ++ [if x.valid then 1 else 0])

/-- A strand block, R130: zeros for a strand never started. `ic` is the ICOUNT it shows. -/
def strandBlock (t : Strand) (ic : Nat) : List Byte :=
  if !t.started then List.replicate 0x200 0 else
  padTo 0x100 (w8 t.pc ++ w8 t.sst ++ w8 t.sgn ++ w8 t.ls0 ++ w8 t.le0 ++ n8 t.lc0.toNat ++ w8 t.ls1 ++ w8 t.le1
      ++ n8 t.lc1.toNat ++ n8 ic ++ n8 t.pend.toNat
      ++ n8 (1 + (if t.running then 2 else 0) + (if t.running && t.exiting then 4 else 0)))
    ++ (List.range 32).flatMap (fun r => w8 (t.rd (BitVec.ofNat 5 r)))

/-! ### Records -/

/-- A record before it has its place, R132 to R134. `snap` is its shape snapshot, `queue` 1 for the L queue, 2 for the W
queue, 3 for the matrix queue, `load` and `store` mark scratch words, `sb` a store-buffer entry. -/
structure Rec where
  k     : StrandIx
  ord   : Nat
  seq   : Nat
  img   : Instr
  op0   : Word := 0
  op1   : Word := 0
  op2   : Word := 0
  prog  : Word := 0
  kind  : Nat := 0
  pw    : Bool := false
  dk    : Nat := 0
  dreg  : Nat := 0
  elap  : Nat := 0
  snap  : Option Shape := none
  queue : Nat := 0
  load  : Bool := false
  store : Bool := false
  sb    : Bool := false
deriving DecidableEq, Repr

/-- The header of a record, R133. -/
def Rec.header (r : Rec) : Nat :=
  2 ^ 63 + ixOf r.k * 2 ^ 61 + r.kind * 2 ^ 59 + (if r.pw then 2 ^ 58 else 0) + r.seq % 2 ^ 16 * 2 ^ 40 + r.dk * 2 ^ 37
    + r.dreg * 2 ^ 32 + r.elap * 2 ^ 24

/-- The 64 bytes of a record with its shape-image slot, R132, R242. -/
def Rec.bytes (r : Rec) (slot : Nat) : List Byte :=
  padTo 24 (imageOf r.img) ++ w8 r.op0 ++ w8 r.op1
    ++ w8 (if r.snap.isSome then r.op2 ||| BitVec.ofNat 64 (0x80 + slot) else r.op2) ++ w8 r.prog ++ n8 r.header

/-- Whether a word is a scratch load or a copy command that writes scratch. -/
def isScrLoad : Instr → Bool
  | .ldS8 .. | .ldS16 .. | .ldS32 .. | .ldN8 .. | .ldN16 .. | .ldN32 .. | .ldD .. | .ldQ .. => true
  | _ => false
def copyWritesScr : Instr → Bool
  | .cpld .. | .cpldm .. | .cpgat .. | .cptag .. | .cpfillScr .. => true
  | _ => false
def copyDrains : Instr → Bool
  | .cpdrain .. | .cpdrainBoth .. | .seam .. => true
  | _ => false

/-- ELAP of an exposed word, R133. -/
def elapOf (o : Op) (ic : Nat) (exposedLeft : Bool) : Nat := if exposedLeft then o.lam - (o.last - ic) else o.lam - 1

/-- The record of an operation. -/
def opRec (x : Core) (o : Op) : Rec :=
  let ic := (x.str o.k).ic
  let base : Rec := { k := o.k, ord := o.ord, seq := o.seq, img := o.img, op0 := o.op0, op1 := o.op1, op2 := o.op2 }
  match o.body with
  | .regs _ d vs => { base with dk := if vs.length = 2 then 2 else 1, dreg := d.toNat, elap := elapOf o ic true
                                load := isScrLoad o.img }
  | .store _ _ _ | .shadow _ _ => { base with dk := 3, elap := elapOf o ic true, store := true }
  | .ilock d pair _ => { base with dk := if pair then 2 else 1, dreg := d.toNat }
  | .vec gs => { base with
      dk := 3, kind := if o.prog = 0 then 0 else 2, pw := o.prog ≠ 0
      prog := BitVec.ofNat 64 (o.prog + o.cnt * 2 ^ 48)
      elap := if o.lam = 0 then 0 else elapOf o ic (o.last > ic && (gs.isEmpty || gs.any (fun g => g.at' ≠ 0))) }

def mxDk : Instr → Nat
  | .mxread _ | .mxreadFlags _ => 3
  | _ => 4

def isLoad : Instr → Bool
  | .mxstat _ | .mxstatT _ => true
  | _ => false

/-- The record of a matrix word in the queue, R205, R221; a stream or bank word that has made all its cycles leaves none. -/
def mxRec (m : MxOp) : Option Rec :=
  if m.total ≠ 0 && m.prog = m.total && !isLoad m.img then none else
  let pr : Nat := if isLoad m.img then 0 else m.prog
  some { k := .c, ord := m.ord, seq := m.seq, img := m.img, op0 := m.base, op1 := BitVec.ofNat 64 m.ent
         prog := BitVec.ofNat 64 pr, kind := 2, pw := pr ≠ 0, dk := mxDk m.img, queue := 3 }

/-- The record of a copy command or seam, R242, R249. -/
def cpRec (q : CpCmd) : Rec :=
  let cur := q.sent
  { k := q.k, ord := q.ord, seq := q.seq, img := q.img, op0 := q.sreg, op1 := q.greg
    op2 := BitVec.ofNat 64 (q.idx % 2 ^ 20 * 2 ^ 8), prog := BitVec.ofNat 64 cur, kind := if cur = 0 then 1 else 2
    pw := cur ≠ 0, dk := if copyDrains q.img then 0 else if copyWritesScr q.img then 3 else 5
    snap := q.snap, queue := if q.k = .l then 1 else 2 }

/-- The image of a store-buffer entry: that of its gst with ORD and SC of the merged entry (R134). -/
def sbImage (e : SbEntry) : Instr :=
  match e.img with
  | .gst n d a _ _ q => .gst n d a (if e.rel then e.scope else 0) e.rel q
  | i => i

def sbRec (k : StrandIx) (e : SbEntry) : Rec :=
  { k := k, ord := e.ord, seq := e.seq, img := sbImage e, op0 := bytesWord (e.bytes.take 8), op1 := bytesWord (e.bytes.drop 8)
    op2 := e.va, prog := e.en.setWidth 64, kind := 1, dk := 5, sb := true }

/-- A word past its finish point whose gives are still to be made, R131. That goes for an mxfmt with GVL or GVR too, although R208 has
it leave no record of its own (DESIGN CHOICE, log entry 99). -/
def retRec (x : Core) (k : StrandIx) (r : RetEnt) : Option Rec :=
  let recorded := x.ops.any (fun o => o.k == k && o.ord == r.ord)
    || (k == .c && x.mxq.any (fun m => m.ord == r.ord && (mxRec m).isSome))
  if (r.gl || r.gr) && !recorded then some { k := k, ord := r.ord, seq := r.seq, img := r.img, pw := true } else none

/-- Put a record where orders rise. -/
def insRec (r : Rec) : List Rec → List Rec
  | [] => [r]
  | a :: t => if r.ord < a.ord then r :: a :: t else a :: insRec r t

/-- A scratch load stands before every earlier scratch store of its strand, R135. -/
def insLoad (r : Rec) : List Rec → List Rec
  | [] => [r]
  | a :: t => if a.store then r :: a :: t else a :: insLoad r t
def moveLoads (l : List Rec) : List Rec := l.foldl (fun acc r => if r.load then insLoad r acc else acc ++ [r]) []

/-- The records of one strand in the order of R135. -/
def strandRecs (x : Core) (k : StrandIx) : List Rec :=
  let t := x.str k
  let l := (x.ops.filter (·.k == k)).map (opRec x) ++ t.ret.filterMap (retRec x k)
    ++ (if k = .c then x.mxq.filterMap mxRec else []) ++ (if k = .l then x.lq.map cpRec else [])
    ++ (if k = .w then x.wq.map cpRec else []) ++ t.sb.map (sbRec k)
  moveLoads (l.foldl (fun acc r => insRec r acc) [])

/-- Records up to and including the last scratch load, and the rest, R247. -/
def splitLoad : List Rec → List Rec × List Rec
  | [] => ([], [])
  | r :: t =>
    let p := splitLoad t
    if r.load || !p.1.isEmpty then (r :: p.1, p.2) else ([], r :: t)

/-- The area order of all records, R247. -/
def areaRecs (x : Core) : List Rec :=
  let ps := allStr.map (fun k => splitLoad (strandRecs x k))
  ps.flatMap Prod.fst ++ ps.flatMap Prod.snd

/-- Operations that would leave a record, R245. -/
def Core.records (x : Core) : Nat :=
  x.ops.length + (x.mxq.filterMap mxRec).length + x.lq.length + x.wq.length
    + (allStr.map (fun k => (x.str k).sb.length + ((x.str k).ret.filterMap (retRec x k)).length)).sum

/-- Slots of records with a snapshot, from 0 upward in area order, R246. -/
def slotted : Nat → List Rec → List (Rec × Nat)
  | _, [] => []
  | n, r :: t => (r, n) :: slotted (if r.snap.isSome then n + 1 else n) t

/-- First and last index of the records that satisfy `p`, or 0xFF twice (R244). -/
def firstLast (rs : List Rec) (p : Rec → Bool) : List Byte :=
  match (rs.zip (List.range rs.length)).filter (fun e => p e.1) with
  | [] => [0xFF, 0xFF]
  | e :: t => [BitVec.ofNat 8 e.2, BitVec.ofNat 8 ((t.getLast?.getD e).2)]

/-- The header of the tadpole area, R244; SEND names the queue whose command the send stage holds with requests still to send (R231). -/
def tadHeader (x : Core) (rs : List Rec) (ckpt : Bool) : List Byte :=
  let stage : Nat := match x.stage with
    | some o =>
      let held (q : CpCmd) : Bool := q.ord == o && q.sent < q.n
      if x.lq.any held then 1 else if x.wq.any held then 2 else 0
    | none => 0
  padTo 0x100 (n8 rs.length ++ allStr.flatMap (fun k => firstLast rs (fun r => r.k == k && !r.sb))
    ++ allStr.flatMap (fun k => firstLast rs (fun r => r.k == k && r.sb))
    ++ [1, 2, 3].flatMap (fun q => firstLast rs (fun r => r.queue == q)) ++ [0xFF, 0xFF]
    ++ n8 stage ++ n8 (if ckpt then 1 else 0))

/-- The core state of the save area from 0xB00, R248. -/
def coreStateBytes (x : Core) : List Byte :=
  padTo 0x500 (padTo 8 ((List.range 6).map (fun f => BitVec.ofNat 8 (cnt x.tok f))) ++ padTo 0x38 (n8 x.evq.length)
    ++ x.evq.flatMap w8)

/-- The register cycle of a core, spec/05 R114 (log entry 66). -/
def State.cycleOf (s : State) (c : Nat) : Nat := s.clock - (s.die (dieOf c)).left

/-- The save area of a stop with DEPTH 0, R129. -/
def saveArea (x : Core) (cycle : Nat) (cause tval : Word) : List Byte :=
  padTo 0x100 (n8 1 ++ w8 cause ++ w8 tval ++ n8 cycle)
    ++ allStr.flatMap (fun k => strandBlock (x.str k) (x.str k).ic) ++ List.replicate 0x200 0 ++ coreStateBytes x

/-- tcause, R115. -/
def causeWord (e : Stop) : Word := BitVec.ofNat 64 (e.code + ixOf e.k * 2 ^ 8 + e.info.toNat * 2 ^ 16)

/-- Replayed stores that have not landed leave the bytes they found (R137, R248). -/
def undoShadows (x : Core) : Core :=
  x.ops.foldr (fun o x => match o.body with
    | .shadow _ old => { x with scr := old.foldl (fun m e => Tab.set 0 m e.1 e.2) x.scr }
    | _ => x) x

/-! ### The checkpoint block, spec/12 R250 -/

/-- Codes packed low bits first, `w` bits each. -/
def packBits (w : Nat) (cs : List Nat) : Nat := cs.foldr (fun c acc => c + acc * 2 ^ w) 0

/-- The width of an element code by BFMT (spec/03 R58, spec/09 R190). -/
def fmtWidth (f : Nat) : Nat := match f with
  | 0 => 16 | 1 => 8 | 2 => 6 | 3 => 4 | 4 => 8 | 5 => 6 | 6 => 4 | _ => 8

def planeBytes (p : Plane) : List Byte :=
  let w := fmtWidth p.bfmt
  let kn := p.kk * p.nn
  padTo 0x10000 (leBytes ((kn * w + 7) / 8) (packBits w ((List.range kn).map (fun j =>
      Tab.get 0 p.codes (j / p.nn * 1024 + j % p.nn)))))
    ++ padTo 0x1000 ((List.range (p.kk / 32 * p.nn)).map (fun j =>
      BitVec.ofNat 8 (Tab.get 0 p.scales (j / p.nn * 1024 + j % p.nn))))

def planeDesc (p : Plane) : List Byte :=
  n8 ((if p.valid then 1 else 0) + p.bfmt * 2 ^ 4 + p.kk * 2 ^ 8 + p.nn * 2 ^ 16 + (if p.sb then 2 ^ 27 else 0))

def bankBytes (b : Bank) : List Byte := (List.range 16384).flatMap (fun e => w8 (Tab.get 0 b.ent e))

/-- The tag table with tagcfg. The key of an invalid entry is written as 0 (DESIGN CHOICE, log entry 100: R160 makes an entry invalid
and says nothing of its key). -/
def tagBytes (x : Core) : List Byte :=
  (List.range 256).flatMap (fun i =>
    let e := Tab.get none x.tags i
    w8 (e.getD 0) ++ (if i = 255 then w8 (x.tagcfg ||| (if e.isSome then 1#64 <<< 63 else 0))
      else n8 (if e.isSome then 1 else 0)))

/-- The parts of the checkpoint block by offset. -/
def checkpointParts (x : Core) (scrsize : Nat) : List (Nat × List Byte) :=
  [(0, (List.range 16).flatMap (fun j => w8 (Tab.get 0 x.ft j))),
   (0x1000, (List.range 16).flatMap (fun j => shapeImage (Tab.get {} x.sh j))),
   (0x2000, tagBytes x), (0x3000, planeDesc x.live ++ planeDesc x.shadow),
   (0x4000, planeBytes x.live), (0x15000, planeBytes x.shadow),
   (0x26000, bankBytes x.work), (0x46000, bankBytes x.vis), (0x66000, w8 x.work.bfl ++ w8 x.vis.bfl),
   (0x67000, padTo 0x2000 (leBytes 0x2000 (packBits 1 ((List.range 65536).map (fun g =>
      if Tab.get false x.valid g then 1 else 0))))),
   (0x69000, (List.range scrsize).map (fun a => Tab.get 0 x.scr a))]

def writeCheckpoint (s : State) (c : Nat) : State :=
  (checkpointParts (s.core c) (s.ctx c).scrsize).foldl
    (fun s p => devWrite s c ((s.ctx c).tadp + 0x10000 + BitVec.ofNat 64 p.1) p.2) s

/-! ### Steps 1 to 4 of R124 -/

/-- Every record, slot, the save area, the header, tcause and tval are written. -/
def writeStop (s : State) (c : Nat) (cause tval : Word) (ckpt : Bool) : State :=
  let s := (s.drainCopies c).mapCore c (fun x => undoShadows x.settle)
  let x := s.core c
  let rs := areaRecs x
  let tadp := (s.ctx c).tadp
  let s := (slotted 0 rs).foldl (fun (a : State × Nat) r =>
    let s := devWrite a.1 c (tadp + 0x100 + BitVec.ofNat 64 (64 * a.2)) (r.1.bytes r.2)
    let s := match r.1.snap with
      | some sh => devWrite s c (tadp + 0x1100 + BitVec.ofNat 64 (256 * r.2)) (shapeImage sh)
      | none => s
    (s, a.2 + 1)) (s, 0) |>.1
  let s := devWrite s c (s.ctx c).tsave (saveArea x (s.cycleOf c) cause tval)
  let s := devWrite s c tadp (tadHeader x rs ckpt)
  let s := if ckpt then writeCheckpoint s c else s
  let s := s.mapCtx c (fun y => { y with tcause := cause, tval := tval })
  let s := s.postCore c .s 2 rs.length (cause.toNat % 256) 0
  s.trace c .s 5 tadp rs.length

end Sys2Proof.Machine
end

