-- ==== Sys2Proof/Machine/Ops.lean ====
section
/-!
DEFINITION. The shared operations of strand words: taking a stop as one operation (spec/06 R122 to R128), the end of a
turn and of a clock cycle, the checks and waits before a word issues (spec/02 R48, spec/01 R18 to R27), and its
issue with takes and end tests (spec/04 R97, spec/07 R145).
-/

namespace Sys2Proof.Machine

abbrev Result := Host.Outcome State Fault Refusal

/-! ### Taking a stop -/

/-- Whether the cause `a` comes before `b`: by rank, and by strand index in one rank. R123 orders strands so in ranks 1 and 2; that
it goes for rank 3 as well, and that of one strand the cause that arose first wins, is a DESIGN CHOICE (log entry 73). -/
def stopBefore (a b : Stop) : Bool := a.rank < b.rank || (a.rank == b.rank && ixOf a.k < ixOf b.k)

/-- The cause that is ranked first; among equals the one that arose first. -/
def firstStop : List Stop → Option Stop
  | [] => none
  | e :: t => match firstStop t with
    | some f => if stopBefore f e then some f else some e
    | none => some e

/-- Put a held trap where strand indices rise. -/
def insHeld (e : Stop) : List Stop → List Stop
  | [] => [e]
  | a :: t => if ixOf e.k < ixOf a.k then e :: a :: t else a :: insHeld e t

/-- S's state in handler mode, R125. -/
def Strand.handler (t : Strand) (tvec : Word) : Strand :=
  { t with
    pc := tvec, lc0 := 0, lc1 := 0, sst := t.sst &&& ~~~(0xFC00#64), pend := 0, running := true, started := true
    exiting := false, stopping := false, held := false, ret := [], sb := [], fwait := 0 }

/-- L, C and W stay idled until tret. -/
def Strand.idled (t : Strand) : Strand :=
  { t with running := false, exiting := false, stopping := false, held := false, ret := [], sb := [], fwait := 0 }

/-- The queues, buffers and operations leave the core once they are written out (R124, R248). -/
def Core.quiet (x : Core) : Core :=
  { x with ops := [], mxq := [], lq := [], wq := [], acc := [], stage := none, tok := [], took := [], gave := []
           evq := [], ev0 := 0, stops := [] }

/-- The accesses of a core withdraw from the walks they wait for. -/
def dropReqs (s : State) (c : Nat) : State := s.leaveWalks (fun y => y.c == c)

/-- A stop with DEPTH 0 and a handler: steps 1 to 5 of R124. -/
def fullStop (s : State) (c : Nat) (e : Stop) : State :=
  let cause := causeWord e
  let pc := (s.str c e.k).pc
  let s := writeStop s c cause e.tval false
  let s := s.trace c e.k 4 pc e.code
  let s := dropReqs s c
  let ic := (s.str c .s).ic
  let tvec := (s.ctx c).tvec
  let s := s.mapCore c (fun x => { x.quiet with
    s := x.s.handler tvec, l := x.l.idled, c := x.c.idled, w := x.w.idled })
  let s := s.mapCtx c (fun x => { x with depth := 1, ichold := ic })
  s.postCore c .s 1 (cause.toNat % 2 ^ 32) (e.tval.toNat % 2 ^ 32) (e.tval.toNat / 2 ^ 32)

/-- The cause field of CONTEXT_KILLED for a stop, R441. -/
def killedBy (e : Stop) : Word := BitVec.ofNat 64 ((causeWord e).toNat % 2 ^ 24)

/-- The cause of a nested stop while the core waits: a fault of a word issued before replaces it (R128). -/
def nestedCause (old : Option Stop) (e : Stop) : Stop :=
  match old with
  | some f => if e.rank = 3 then e else f
  | none => e

/-- The report that a WATCHPOINT stop raised is no longer held (spec/15 R320). -/
def dropReport (s : State) (c : Nat) (e : Stop) : State :=
  if e.code = 0x28 then s.mapCtx c (fun x => { x with
    reports := Tab.set none x.reports (e.tval.extractLsb' 16 2).toNat none }) else s

/-- A command whose refusal is the cause of the stop leaves no record (spec/11 R239, spec/17 R355). -/
def dropRefused (x : Core) (e : Stop) : Core :=
  let mine (q : CpCmd) : Bool := e.rank == 3 && q.k == e.k && q.port == some (e.code, e.tval)
  match (x.lq ++ x.wq).find? mine with
  | some q => { x with lq := x.lq.filter (·.ord != q.ord), wq := x.wq.filter (·.ord != q.ord) }
  | none => x

/-- A losing cause that no word and no record can raise again: a trap or brk, the refusals of a multicast that has completed, or
FP_ENABLED of a vector group that has landed (DEDUCED, log entry 94: its flags stand in sst, and its record goes on behind it). -/
def heldCause (e : Stop) : Bool := e.rank == 1 || (e.rank == 3 && (e.code == 0x15 || e.code == 0x08))

/-- The areas of a context that a core writes or reads: `n` bytes from tadp, and the save area. -/
def Ctx.areas (y : Ctx) (n : Nat) (kind : AccKind) : List Area := [⟨y.tadp, n, kind⟩, ⟨y.tsave, 0x1000, kind⟩]

/-- The stop with cause `e`, R122 to R128: by the handler, as a nested stop, or by the removal of the context. Losing causes that nothing
else keeps are held (R123). -/
def stopFor (s : State) (c : Nat) (e : Stop) : State :=
  let losers := (s.core c).stops.filter (fun f => heldCause f && f != e)
  let s := s.mapCore c (fun x => { dropRefused x e with stops := [], halted := false })
  let s := s.mapCtx c (fun x => { x with held := losers.foldl (fun l f => insHeld f l) x.held })
  let s := dropReport s c e
  let x := s.ctx c
  match x.depth with
  | 0 => if x.tvec = 0 then s.mapCore c (fun y => { y with removal := y.removal.or (some (killedBy e)) })
    else fullStop s c e
  | 1 => s.mapCore c (fun y => { y with nested := some (nestedCause y.nested e) })
  | _ => s.mapCore c (fun y => { y with removal := y.removal.or (some (killedBy e)) })

/-- A stop is taken at the end of a clock cycle. One that writes records waits, with the core as the cycle has left it, while the
translation of an area of the context waits (spec/15 R306, R309, R311; log entry 13). -/
def takeStop (s : State) (c : Nat) : State :=
  match firstStop (s.core c).stops with
  | none => s
  | some e =>
    let y := s.ctx c
    if y.depth ≠ 0 || y.tvec = 0 then stopFor s c e else
    match s.reach c (y.areas 0x3100 .write) with
    | (s, true) => stopFor s c e
    | (s, false) => s.mapCore c (fun x => { x with halted := true })

/-! ### The end of a turn and of a clock cycle -/

/-- The end of the clock cycle of a core (log entry 2); one whose stop waits only tries it again. -/
def closeCycle (s : State) (c : Nat) : State :=
  if (s.core c).halted then takeStop s c else
  let s := allStr.foldl (closeStrand c) s
  let s := clampDrain s c
  let s := s.mapCore c Core.nextCycle
  takeStop s c

/-- Whether the core still has a turn in this clock cycle. -/
def moreTurns (c : Nat) : List Turn → Bool
  | [] => false
  | .issue d _ :: t => d = c || moreTurns c t
  | _ :: t => moreTurns c t

/-- The turn of core `c` at the head of the agenda is over; the last one ends the core's clock cycle. -/
def endTurn (s : State) (c : Nat) : State :=
  let s := s.pop
  if moreTurns c s.agenda then s else closeCycle s c

/-! ### Words at the head of a strand -/

/-- What a word's own rule answers in its issue cycle. -/
inductive Next where
  | fall
  | jump (t : Word) (waits : Nat) (jr : Bool)
  | skip (x : Word)
  | resume
  | gone

inductive Act where
  | fault (s : State) (code : Nat) (tval : Word)
  | wait (s : State)
  | go (s : State) (n : Next)

/-- What the shared checks need to know of a word: its Y bit and token field, the strands that may execute it (bit
`ixOf`), the registers its operands read, its destinations, whether these are interlocked, whether it is held by an
acquire (R109), whether it leaves a record (R245), whether a handler may not issue it (R251), whether it issues only in a
handler (R117), features of spec/20 R402 with their reasons, the checks of R48 on values that no register holds (`early`) and on values
read at issue (`late`), which wait while a register of `lreg` is marked, and the records it leaves beside that of `recs`: those of `more`, and one for its gives where its other
effect does not carry them (`solo`). -/
structure Info where
  y     : Bool := false
  t     : BitVec 4 := 0
  who   : BitVec 4 := 15
  reads : List Reg := []
  dst   : List Reg := []
  il    : Bool := false
  gm    : Bool := false
  recs  : Bool := false
  nh    : Bool := false
  oh    : Bool := false
  feat  : List (Nat × BitVec 3) := []
  early : State → Nat → StrandIx → Option (BitVec 3) := fun _ _ _ => none
  late  : State → Nat → StrandIx → Option (BitVec 3) := fun _ _ _ => none
  lreg  : List Reg := []
  solo  : Bool := false
  more  : State → Nat → StrandIx → Nat := fun _ _ _ => 0

/-- The records that the word would leave, R131, R245. -/
def Info.needs (f : Info) (s : State) (c : Nat) (k : StrandIx) : Nat :=
  (if f.recs then 1 else 0) + f.more s c k + (if f.t &&& 3 != 0 && (!f.recs || f.solo) then 1 else 0)

/-- The first parcel of a word. -/
def parcel0 (i : Instr) : BitVec 32 := match i with
  | .unassignedWord p _ => p
  | i => (encode i).headD 0

/-- The strands that may execute a one-parcel word by its major opcode, spec/02 R35; words of the other frames are C's. -/
def whoOf (p : BitVec 32) : BitVec 4 :=
  if p.extractLsb' 30 2 != 0 then 4 else
  let op := (p.extractLsb' 18 7).toNat
  if op = 0x2C || op = 0x50 || op = 0x57 || (0x5C ≤ op && op ≤ 0x5E) then 10
  else if op = 0x51 || op = 0x53 || op = 0x54 || op = 0x5B then 2
  else if op = 0x52 || op = 0x55 || op = 0x56 || (0x58 ≤ op && op ≤ 0x5A) then 8
  else if (0x40 ≤ op && op ≤ 0x42) || (0x46 ≤ op && op ≤ 0x4A) || (0x60 ≤ op && op ≤ 0x6A) || op = 0x74 || op = 0x75 then 1
  else 15

/-- The major opcode of a one-parcel word; 128 for the other frames. -/
def majorOf (p : BitVec 32) : Nat := if p.extractLsb' 30 2 = 0 then (p.extractLsb' 18 7).toNat else 128

/-- System registers of S alone, R37. -/
def sOnlyReg (r : BitVec 8) : Bool := sysAssigned r && !sysAll r
def sysRestricted : Instr → Bool
  | .sysget _ _ r | .sysset _ _ r => sOnlyReg r
  | .unassignedWord p _ => (majorOf p == 0x70 || majorOf p == 0x71) && sOnlyReg (p.extractLsb' 0 8)
  | _ => false

/-- What the opcode alone says of a word whose fields fail a check: its strands, whether a handler may not issue it (spec/12 R251,
log entry 56) or only a handler may (spec/05 R117), and the feature that its opcode needs (spec/20 R402). -/
def opcodeInfo (p : BitVec 32) (f : Info) : Info :=
  let op := majorOf p
  { f with
    who := whoOf p
    nh := (0x40 ≤ op && op ≤ 0x42) || (0x48 ≤ op && op ≤ 0x4A) || (0x60 ≤ op && op ≤ 0x62)
    oh := op == 0x74
    feat := if 0x63 ≤ op && op ≤ 0x65 then [(8, 2)] else if op == 0x69 || op == 0x6A then [(9, 2)] else [] }

/-- The checks of R48 in their order: the reason, and none when the word passes. -/
def illegal (i : Instr) (f : Info) (s : State) (c : Nat) (k : StrandIx) : Option (BitVec 3) :=
  let f := match i with
    | .unassignedWord p _ => opcodeInfo p f
    | _ => f
  let pre : Option (BitVec 3) := match i with
    | .unassignedWord _ r => if r.toNat ≤ 2 then some r else none
    | _ => none
  let inHandler := (s.ctx c).depth ≠ 0
  let pre := pre.or (if f.feat.any (fun e => e.2 == 2 && !s.feat (s.ctx c).vf e.1) then some 2 else none)
  pre.or (if !f.who.getLsbD (ixOf k) || (f.nh && inHandler) || (f.oh && !inHandler) || (k ≠ .s && sysRestricted i) then some 3
    else if k = .s && f.t != 0 then some 4
    else (fieldReason i).or (((f.feat.find? (fun e => !s.feat (s.ctx c).vf e.1)).map Prod.snd).or ((f.early s c k).or (f.late s c k))))

/-- tval of ILLEGAL_WORD, R48. -/
def illegalVal (i : Instr) (r : BitVec 3) (k : StrandIx) : Word :=
  BitVec.ofNat 64 ((parcel0 i).toNat + r.toNat * 2 ^ 32 + ixOf k * 2 ^ 40)

/-- The lowest pending register that a word reads, R27. -/
def pendingRead (t : Strand) (rs : List Reg) : Option Reg :=
  if !sstPdm t.sst then none else
  (List.range 32).findSome? (fun j =>
    let r := BitVec.ofNat 5 j
    if r ≠ 0 && rs.contains r && t.pend.getLsbD j then some r else none)

/-- An acquire gld of the strand that has not landed, R109. -/
def Core.acquiring (x : Core) (k : StrandIx) : Bool :=
  x.ops.any (fun o => o.k == k && (match o.img with | .gld _ _ _ _ true _ => true | _ => false))

/-- Takes another strand's ready Y word has announced (log entry 16). -/
def Core.announced (x : Core) (k : StrandIx) (f : Nat) : Nat :=
  (allStr.filter (fun j => j != k && (x.str j).yready && !(x.str j).issued && (takesOf j (x.str j).ytakes).contains f)).length

/-- Whether a take from a FIFO can be made in this clock cycle, R146: a neighbour strand wins over S. S has its turn after the
others, so only a Y word of a neighbour can still take, and it issues with S's own word if that has Y = 1 (R25). -/
def Core.canTake (x : Core) (y : Bool) (k : StrandIx) (f : Nat) : Bool :=
  cnt x.tok f > cnt x.took f + (if k = .s && y then x.announced k f else 0)

/-- A fault of the word at the head of its strand, R123 rank 2: the word does not issue. -/
def raiseWord (s : State) (c : Nat) (k : StrandIx) (code : Nat) (tval : Word) : State :=
  s.mapCore c (fun x => { x with stops := x.stops ++ [⟨2, k, code, 0, tval⟩] })

/-- An empty cycle: it counts as an issue cycle (R24, R144). -/
def emptyCycle (s : State) (c : Nat) (k : StrandIx) : State :=
  s.mapStr c k (fun t => { t with ic := t.ic + 1, issued := true })

/-- Whether no other strand runs: a Y word then issues alone, R25. -/
def Core.alone (x : Core) (k : StrandIx) : Bool := allStr.all (fun j => j == k || !(x.str j).running)

/-- Whether the Y word of a strand, which would leave `n` records, completes a bundle (R25): every other running strand has a Y word
that can issue, and there is room for the records of all of them (spec/12 R245). -/
def Core.partnersReady (x : Core) (k : StrandIx) (n : Nat) : Bool :=
  allStr.all (fun j => j == k || !(x.str j).running || (x.str j).yready)
    && x.records + n + ((allStr.filter (fun j => j != k && (x.str j).running)).map (fun j => (x.str j).yneed)).sum ≤ 64

/-- A bundle issues in this clock cycle: the turns of its strands come next, S's last (log entry 17). -/
def startBundle (s : State) (c : Nat) : State :=
  let ks := [StrandIx.l, .c, .w, .s].filter (fun j => (s.str c j).running)
  let s := ks.foldl (fun s j => s.mapStr c j (fun t => { t with ygo := true })) s
  { s with agenda := s.agenda.take 1 ++ ks.map (fun j => Turn.issue c j) ++ s.agenda.drop 1 }

/-- The end tests at a fall-through address, R97: the strand, and the loop that repeats. A back-edge goes to lsN as it stands, with no
check that it is aligned and canonical, as R93 checks a transfer; the fetch there then fails or not (DESIGN CHOICE, log entry 96). -/
def Strand.endTests (t : Strand) (x : Word) : Strand × Option Nat :=
  let inner : Bool := t.lc1 ≠ 0 && t.le1 = x
  if inner && t.lc1.toNat > 1 then ({ t with lc1 := t.lc1 - 1, pc := t.ls1 }, some 1) else
  let t := if inner then { t with lc1 := 0 } else t
  let outer : Bool := t.lc0 ≠ 0 && t.le0 = x
  if outer && t.lc0.toNat > 1 then ({ t with lc0 := t.lc0 - 1, pc := t.ls0 }, some 0) else
  let t := if outer then { t with lc0 := 0 } else t
  ({ t with pc := x }, none)

/-- The length of a word in bytes, R29. -/
def wordLen (i : Instr) : Word := BitVec.ofNat 64 (4 * parcelCount (parcel0 i))

/-- The end tests of a strand, with the trace record of a back-edge and S's drain point (spec/16 R341). -/
def runEndTests (s : State) (c : Nat) (k : StrandIx) (x : Word) : State :=
  let r := (s.str c k).endTests x
  let s := s.mapStr c k (fun _ => r.1)
  match r.2 with
  | none => s
  | some n =>
    let s := s.trace c k 2 x n
    if n = 0 && k = .s && (s.ctx c).depth = 0 && (match (s.ctx c).preempt with | .drain _ => true | _ => false)
    then s.mapCtx c (fun y => { y with drainPt := y.drainPt.or (some 0) }) else s

/-- Where a word continues. -/
def continueAt (i : Instr) (s : State) (c : Nat) (k : StrandIx) : Next → State
  | .fall => runEndTests s c k ((s.str c k).pc + wordLen i)
  | .jump t n jr =>
    let pc := (s.str c k).pc
    let s := s.trace c k 1 pc (if jr then 1 else 0)
    let s := if jr then s.trace c k 6 t 0 else s
    s.mapStr c k (fun u => { u with pc := t, fwait := if t = 0 then 0 else n + 1, exiting := u.exiting || t = 0 })
  | .skip x =>
    let s := s.trace c k 1 (s.str c k).pc 0
    (runEndTests s c k x).mapStr c k (fun u => { u with fwait := 2 })
  | .resume | .gone => s

/-- Gives that the copy engine makes, R145, R232: the word itself gives nothing when it retires. -/
def givesLater : Instr → Bool
  | .cpld .. | .cpst .. | .cpldm .. | .cpgat .. | .cpsca .. | .cpaccAdd .. | .cpaccMin .. | .cpaccMax .. | .cpaccAnd ..
  | .cpaccOr .. | .cpaccXor .. | .cpaccXchg .. | .cpaccCas .. | .cpfill .. | .cpfillScr .. | .cpres .. | .cpreg ..
  | .cpsig .. | .cptag .. | .cpdrain .. | .cpdrainBoth .. => true
  | _ => false

/-- A word issues: its takes, its issue cycle, its place among the words that retire, and its continuation. -/
def commit (i : Instr) (f : Info) (c : Nat) (k : StrandIx) (n : Next) (s : State) : State :=
  match n with
  | .gone => s
  | .resume => s.mapCore c (fun x => x.mapStr k (fun t => { t with issued := false }))
  | _ =>
    let s := s.mapCore c (fun x =>
      ({ x with took := (takesOf k f.t).foldl bump x.took, nord := x.nord + 1 } : Core).mapStr k (fun t =>
        { t with
          ic := t.ic + 1, issued := true, yready := f.y, waited := 0, twait := false, starved := false
          ret := t.ret ++ [⟨x.nord, t.ic + 1, i, f.t.getLsbD 1 && !givesLater i, f.t.getLsbD 0 && !givesLater i⟩] }))
    continueAt i s c k n

/-- The gives that the strand of a Y word would make to the left and to the right in this clock cycle if the word issued and left `s`:
those of its words that would retire, its own among them (R143, R145). -/
def announceGives (i : Instr) (f : Info) (c : Nat) (k : StrandIx) (n : Next) (s : State) : Nat × Nat :=
  let t := closeStrand c (commit i f c k n s) k
  let made (q : Nat) : Nat := cnt (t.core c).gave q - cnt (s.core c).gave q
  (made (giveL k), made (giveR k))

/-- A word's turn at the head of its strand: the checks of R48, the pending check of R27, the waits of R18, the word's own
rule, and the sync rule of R25. A Y word faults by any of these without waiting for its partners: R48 says so of ILLEGAL_WORD, and for
the other faults it is a DESIGN CHOICE (log entry 70). A take that cannot be made and a full record area hold a word before the checks
of its own rule, those of R169 for a vector word (DESIGN CHOICE, log entry 95: R186 places only the waits of R21, R23 and R184). -/
def attempt (i : Instr) (f : Info) (body : Nat → StrandIx → State → Act) (c : Nat) (k : StrandIx) (s : State) : State :=
  let x := s.core c
  let t := x.str k
  match illegal i (if f.lreg.any (x.marked k) then { f with late := fun _ _ _ => none } else f) s c k with
  | some r => raiseWord s c k 0x01 (illegalVal i r k)
  | none =>
  match pendingRead t f.reads with
  | some r => raiseWord s c k 0x04 (BitVec.ofNat 64 (r.toNat + ixOf k * 2 ^ 8))
  | none =>
  if f.il && f.dst.any (x.flying k) then emptyCycle s c k
  else if (f.reads ++ f.dst).any (x.marked k) || (f.gm && x.acquiring k) then s
  else if !t.ygo && f.needs s c k != 0 && x.records + f.needs s c k > 64 then s
  else if !(takesOf k f.t).all (x.canTake f.y k) then s.mapStr c k (fun t => { t with twait := true, tfifo := ((takesOf k f.t).find? (fun n => !x.canTake f.y k n)).getD 0 })
  else match body c k s with
    | .fault s code tval => raiseWord s c k code tval
    | .wait s => s
    | .go s' n =>
      if !f.y || t.ygo || x.alone k then commit i f c k n s'
      else
        let g := announceGives i f c k n s'
        let s := s.mapStr c k (fun t => { t with yready := true, ytakes := f.t, yneed := f.needs s c k, ygl := g.1, ygr := g.2 })
        if x.partnersReady k (f.needs s c k) then startBundle s c else s

/-- The meaning of a strand word: it acts in the turn of a strand at the head of the agenda (log entry 1). -/
def issue (i : Instr) (f : Info) (body : Nat → StrandIx → State → Act) (s : State) : Result :=
  match s.agenda with
  | .issue c k :: _ => .next (endTurn (attempt i f body c k s) c)
  | _ => .next s

/-- Whether a strand's turn reaches its head word, which it has not yet faulted in this clock cycle. In a handler nothing
issues after a fault of the same cycle, so that a nested stop is precise (spec/06 R128). -/
def Core.canIssue (x : Core) (k : StrandIx) : Bool :=
  let t := x.str k
  x.stops.all (fun e => e.k != k || e.rank != 2) && (x.stops.isEmpty || (x.ctx.getD {}).depth == 0) && x.ctx.isSome && !x.halted && x.removal.isNone && x.restart.isNone && x.nested.isNone && t.running && !t.exiting && !t.issued && !t.held && t.fwait == 0

/-- A strand that issues empty cycles, R144. -/
def Core.canEmpty (x : Core) (k : StrandIx) : Bool :=
  let t := x.str k
  x.ctx.isSome && !x.halted && x.removal.isNone && x.restart.isNone && x.nested.isNone && t.running && t.exiting && !t.ret.isEmpty && !t.issued && !t.held && t.fwait == 0

/-! ### Events -/

/-- The turn at the head is over when it is an event's. -/
def State.popEvent (s : State) : State := match s.agenda with
  | .event _ _ _ _ :: _ => s.pop
  | _ => s

/-- The meaning of an event whose operands name all it acts on. -/
def event (f : State → State) (s : State) : Result := .next (f s.popEvent)

/-- The meaning of an event that acts on the core, strand and index of its turn. -/
def turnEvent (f : Nat → StrandIx → Nat → State → State) (s : State) : Result :=
  match s.agenda with
  | .event c k j _ :: _ => .next (f c k j s.pop)
  | _ => .next s

/-- Whether a core's units act: it holds a context that no stop, removal or restart has ended. -/
def Core.alive (x : Core) : Bool := x.ctx.isSome && !x.halted && x.removal.isNone && x.restart.isNone && x.stops.isEmpty

/-- A gld of a strand that has not landed. -/
def Core.loading (x : Core) (k : StrandIx) : Bool :=
  x.ops.any (fun o => o.k == k && (match o.img with | .gld .. => true | _ => false))

/-- What a release fence at a scope waits for, R112: earlier gld landed, earlier gst performed at the scope (spec/19 R381). -/
def State.released (s : State) (c : Nat) (k : StrandIx) (sc : Nat) : Bool :=
  !(s.core c).loading k && (s.str c k).sb.isEmpty && s.sentDone c k sc

/-- The wait of fence.rel at system scope. -/
def State.sysReleased (s : State) (c : Nat) (k : StrandIx) : Bool := s.released c k 4

/-- Whether a strand's turn reaches its head word; in a handler the writes of the stop are performed first (spec/06 R124). -/
def State.canIssue (s : State) (c : Nat) (k : StrandIx) : Bool := (s.core c).canIssue k && ((s.ctx c).depth == 0 || s.savedDone (s.ctx c).task)

/-! ### Fetch, spec/15 R308 -/

inductive FetchRes where
  | word (i : Instr)
  | fault (code : Nat) (tval : Word)
  | wait

/-- The `n` parcels from an address; the first that fails ends the fetch. -/
def fetchParcels (c u : Nat) : Nat → State → Word → State × Except (Option (Nat × Word)) (List (BitVec 32))
  | 0, s, _ => (s, .ok [])
  | n + 1, s, a =>
    match readNow s c u (s.ctx c).vf a .fetch 4 with
    | (s, .fault fw _) => (s, .error (some (if fw then 0x39 else 0x0C, a)))
    | (s, .held _) | (s, .wait) => (s, .error none)
    | (s, .ok pa) =>
      let p := BitVec.ofNat 32 (leNat (s.portRead pa 4))
      match fetchParcels c u n (s.noteRead pa 4) (a + 4) with
      | (s, .ok ps) => (s, .ok (p :: ps))
      | r => r

/-- Fetch and decode the word at a strand's pc. -/
def fetch (s : State) (c : Nat) (k : StrandIx) : State × FetchRes :=
  let pc := (s.str c k).pc
  match fetchParcels c (unitHead k) 1 s pc with
  | (s, .error e) => (s, match e with | some (code, a) => .fault code a | none => .wait)
  | (s, .ok ps) =>
    let n := parcelCount (ps.headD 0)
    if n = 1 then (s, .word (decodeParcels ps)) else
    match fetchParcels c (unitHead k) (n - 1) s (pc + 4) with
    | (s, .error e) => (s, match e with | some (code, a) => .fault code a | none => .wait)
    | (s, .ok qs) => (s, .word (decodeParcels (ps ++ qs)))

end Sys2Proof.Machine
end

