-- ==== Sys2Proof/Machine/Barrier.lean ====
section
/-!
DEFINITION. Stage barriers (spec/13 R259 to R271): windows, arrivals and waits of S.
-/

namespace Sys2Proof.Machine

/-- The window of a task's launch on its core's cluster, R261. -/
def State.window (s : State) (c : Nat) : Option Window :=
  (s.cluster (clusterOf c)).wins.find? (·.launch == (s.ctx c).launch)

/-- Barrier b of the issuing task's window, by its number in the cluster. -/
def State.barIx (s : State) (c : Nat) (b : BitVec 5) : Nat := ((s.window c).map (·.base)).getD 0 + b.toNat

def State.barrier (s : State) (c : Nat) (b : BitVec 5) : Barrier := Tab.get {} (s.cluster (clusterOf c)).bar (s.barIx c b)

/-- A number at or beyond NB fails reason 6 of R48. -/
def State.barBad (s : State) (c : Nat) (b : BitVec 5) : Bool := b.toNat ≥ ((s.window c).map (·.nb)).getD 0

/-- GEN as the words of a clock cycle read it: a completion takes effect at the end of its cycle (R266). -/
def Barrier.seen (x : Barrier) (clock : Nat) : BitVec 32 := if x.done = some clock then x.was else x.gen

/-- Arrive(c) of R265, with the arriving task kept for a withdrawal (R271). -/
def Barrier.arrive (x : Barrier) (clock task need : Nat) : Barrier :=
  let need := if x.arr.isEmpty then need else x.need
  if x.arr.length + 1 = need then { gen := x.gen + 1, need := 0, arr := [], done := some clock, was := x.seen clock }
  else { x with need := need, arr := x.arr ++ [task] }

/-- A barrier without the arrivals of a task. -/
def Barrier.without (x : Barrier) (task : Nat) : Barrier :=
  let a := x.arr.filter (· != task)
  { x with arr := a, need := if a.isEmpty then 0 else x.need }

/-- GenReached, R269. -/
def genReached (g e : BitVec 32) : Bool := (g - e).toNat < 2 ^ 31

/-- Withdraw the arrivals of a removed context's task from the windows of its launch, R271. -/
def State.withdraw (s : State) (task : Nat) : State :=
  (Tab.keys s.clusters).foldl (fun s n => s.mapCluster n (fun x => { x with
    bar := (Tab.keys x.bar).foldl (fun t j => Tab.set {} t j ((Tab.get {} t j).without task)) x.bar })) s

/-- An arrival: the barrier, and its completion event for the Newt (R266). Those of a clock cycle come in increasing core order, which
is the order of the cores' turns. -/
def State.arriveAt (s : State) (c : Nat) (b : BitVec 5) (need : Nat) : State :=
  let n := s.barIx c b
  let x := s.barrier c b
  let y := x.arrive s.clock (s.ctx c).task need
  let s := s.mapCluster (clusterOf c) (fun z => { z with bar := Tab.set {} z.bar n y })
  if x.arr.length + 1 = (if x.arr.isEmpty then need else x.need)
  then s.postCore c .s 7 (clusterOf c % 32 * 32 + n) y.gen.toNat 0 else s

/-- The check of a barrier's number, which reads no register (R261). -/
def barEarly (b : BitVec 5) (s : State) (c : Nat) (_ : StrandIx) : Option (BitVec 3) := if s.barBad c b then some 6 else none

/-- The check of the participant count, R265. -/
def barLate (a : Reg) (s : State) (c : Nat) (k : StrandIx) : Option (BitVec 3) :=
  let n := (s.rd c k a).toNat
  if n = 0 || n > 255 then some 7 else none

def execBarr (y : Bool) (a : Reg) (b : BitVec 5) (s : State) : Result :=
  issue (.barr y a b) { y := y, who := 1, reads := [a], lreg := [a], early := barEarly b, late := barLate a } (fun c k s =>
    if !s.released c k 1 then .wait s else .go (s.arriveAt c b (s.rd c k a).toNat) .fall) s
def execBwait (y : Bool) (a : Reg) (b : BitVec 5) (s : State) : Result :=
  issue (.bwait y a b) { y := y, who := 1, reads := [a], early := barEarly b } (fun c k s =>
    if genReached ((s.barrier c b).seen s.clock) ((s.rd c k a).extractLsb' 0 32) then .go s .fall else .wait s) s
def execBtest (y : Bool) (d : Reg) (b : BitVec 5) (s : State) : Result :=
  issue (.btest y d b) { y := y, who := 1, dst := [d], il := true, recs := true, early := barEarly b } (fun c k s =>
    .go (s.ilock c k (.btest y d b) d false none (b.setWidth 64) 0 0) .fall) s

end Sys2Proof.Machine
end

