-- ==== Sys2Proof/Machine/Buckets.lean ====
section
/-!
DEFINITION. Token buckets of a tenant on a die: Charge and Refill (spec/15 R315, R316, spec/16 R334, R335).
-/

namespace Sys2Proof.Machine

/-- Charge(v, c) of R315: the bucket and the pool after it, or `none` for WAIT. -/
def Bucket.charge (b : Bucket) (pool c : Nat) : Option (Bucket × Nat) :=
  let c := min c (max b.depthA 1)
  if b.tok ≥ c then some ({ b with tok := b.tok - c }, pool)
  else
    let d := c - b.tok
    if b.borrow && pool ≥ d && b.debt + d ≤ b.dmaxA then some ({ b with tok := 0, debt := b.debt + d }, pool - d) else none

/-- Refill(v) of R316, after which written limits are in effect. -/
def Bucket.refill (b : Bucket) (pool poolmax : Nat) : Bucket × Nat :=
  let b := { b with depthA := b.depth, dmaxA := b.dmax }
  let pay := min b.debt (b.rate / 4)
  let n := b.tok + b.rate - pay
  if n > b.depthA then ({ b with debt := b.debt - pay, tok := b.depthA }, min (pool + n - b.depthA) poolmax)
  else ({ b with debt := b.debt - pay, tok := n }, pool)

/-- The send stage of a tenant charges a request of `c` parts, unless the tenant is not metered. -/
def State.chargeCopy (s : State) (d v c : Nat) : Option State :=
  let x := s.vd d v
  if !x.cb.meter then some s else
  (x.cb.charge (s.die d).cbpool c).map (fun r => (s.mapVd d v (fun x => { x with cb := r.1 })).mapDie d (fun y => { y with cbpool := r.2 }))

/-- Whether a tenant is spent on a die: never while it is not metered (spec/16 R333). -/
def State.spent (s : State) (d v : Nat) : Bool := (s.vd d v).bu.meter && (s.vd d v).spent

/-- A core that holds a task of a metered tenant charges it one token; a WAIT marks the tenant spent (R334). -/
def State.chargeTime (s : State) (d v : Nat) : State :=
  let x := s.vd d v
  if !x.bu.meter then s else
  match x.bu.charge (s.die d).bupool 1 with
  | some r => (s.mapVd d v (fun x => { x with bu := r.1 })).mapDie d (fun y => { y with bupool := r.2 })
  | none => s.mapVd d v (fun x => { x with spent := true })

/-- The functions with registers on a die, in increasing number. -/
def State.tenantsOn (s : State) (d : Nat) : List Nat :=
  (s.vfdie.map Prod.fst).filterMap (fun k => if k / 512 = d then some (k % 512) else none)

def State.refillCopy (s : State) (d : Nat) : State :=
  (s.tenantsOn d).foldl (fun s v =>
    let r := (s.vd d v).cb.refill (s.die d).cbpool (s.die d).cbpoolmax
    (s.mapVd d v (fun x => { x with cb := r.1 })).mapDie d (fun y => { y with cbpool := r.2 })) s

/-- R335: a tenant with a token after the refill is no longer spent. -/
def State.refillTime (s : State) (d : Nat) : State :=
  (s.tenantsOn d).foldl (fun s v =>
    let r := (s.vd d v).bu.refill (s.die d).bupool (s.die d).bupoolmax
    (s.mapVd d v (fun x => { x with bu := r.1, spent := x.spent && r.1.tok = 0 })).mapDie d (fun y => { y with bupool := r.2 })) s

end Sys2Proof.Machine
end

