-- ==== Sys2Proof/Machine/MxQueue.lean ====
section
/-!
DEFINITION. Format entries (spec/03 R69, R70), the shape of matrix words, the bytes they read and write, and what strand C
waits for on their account (spec/09 R196, R200, spec/10 R214, R219).
-/

namespace Sys2Proof

/-- M, N, start, pitch and rows of a matrix word (spec/02 R44, spec/10 R212). -/
def MWord.M (m : MWord) : Nat := 16 * 2 ^ m.mc.toNat
def MWord.N (m : MWord) : Nat := 16 * (m.nf.toNat + 1)
/-- The start of the bytes a word reads or writes. -/
def MWord.start (m : MWord) (base : Word) : Nat := base.toNat + 16 * m.aoff.toNat
def MWord.pitch (m : MWord) (row : Nat) : Nat := if m.apitch = 0 then row else 64 * m.apitch.toNat
def MWord.rows (m : MWord) : Nat := if m.dt = 11 then 1 else m.M

end Sys2Proof

namespace Sys2Proof.Machine

/-! ### Format entries -/

def fmtA (v : Word) : Nat := (v.extractLsb' 0 4).toNat
def fmtB (v : Word) : Nat := (v.extractLsb' 4 4).toNat
def fmtAcc (v : Word) : Nat := (v.extractLsb' 8 2).toNat
def fmtQf (v : Word) : Nat := (v.extractLsb' 10 6).toNat
def isMx (f : Nat) : Bool := 1 ≤ f && f ≤ 3
def isPlain (f : Nat) : Bool := 4 ≤ f && f ≤ 6

/-- Fraction bits of a format, R58. -/
def fmtFrac (f : Nat) : Nat := match f with
  | 1 => 6 | 2 => 4 | 3 => 2 | _ => 0

/-- K by the widths of the pair, R70. -/
def kOf (wa wb : Nat) : Nat :=
  if wa = wb then (match wa with | 16 => 32 | 8 => 32 | 6 => 64 | _ => 128)
  else match wa + wb with
    | 10 => 96 | 12 => 64 | _ => 32

/-- K of an entry whose fields pass R69 and R70; `sa` and `sb` are the signedness bits that the BF16 check uses. -/
def entryK (narrow : Bool) (v : Word) (sa sb : Bool) : Option Nat :=
  let a := fmtA v
  let b := fmtB v
  let pair := (a = 0 && b = 0 && fmtAcc v = 0 && sa && sb) || (isMx a && isMx b)
    || (isPlain a && isPlain b && fmtAcc v = 1)
  let needsNarrow (f : Nat) : Bool := f == 2 || f == 3 || f == 5 || f == 6
  if v.extractLsb' 16 48 != 0 || fmtAcc v > 1 || !pair || (fmtQf v ≠ 0 && !(fmtAcc v = 1 && isMx a))
      || (!narrow && (needsNarrow a || needsNarrow b)) then none
  else some (kOf (fmtWidth a) (fmtWidth b))

/-! ### Words -/

def zeroMWord : MWord :=
  { n := ⟨false, 0⟩, mc := 0, nf := 0, fsel := 0, sa := false, sb := false, abase := 0, aoff := 0, apitch := 0, acc := 0, col := 0,
    ovw := false, spec := 0 }
def mword (i : Instr) : MWord := match encM i with
  | some (_, m) => m
  | none => zeroMWord


/-- The entry a selector names, spec/02 R45. -/
def fselEntry (f : BitVec 6) (t : Strand) : Nat :=
  let b := (f.extractLsb' 0 4).toNat
  if !f.getLsbD 5 then b else (b + (if f.getLsbD 4 then t.lc1 else t.lc0).toNat) % 16

/-- Row bytes of mxstat and of mxstream. -/
def statRow (m : MWord) (tr : Bool) (v : Word) (k : Nat) : Nat := (if tr then k else m.N) * fmtWidth (fmtB v) / 8
def streamRow (v : Word) (k : Nat) : Nat := k * fmtWidth (fmtA v) / 8 + (if isMx (fmtA v) then k / 32 else 0)
def isTr : Instr → Bool
  | .mxstatT _ => true
  | _ => false

/-- K of an entry that has passed its checks. -/
def entK (v : Word) : Nat := kOf (fmtWidth (fmtA v)) (fmtWidth (fmtB v))

/-- Element size and row bytes of mxread and mxwrite. -/
def bankRow (m : MWord) : Nat :=
  if m.dt = 11 then 8
  else if m.dt = 10 then m.N * mxfW m.mxf / 8 + m.N / 32 else m.N * etSize m.dt.toNat
/-- Cycles of a bank word, spec/10 R218. -/
def bankCycles : Instr → Nat
  | .mxread m | .mxwrite m => m.M * m.N / 32
  | .mxclear m => m.M * m.N / 256
  | .mxclearAll _ | .mxclearAllFlags _ => 64
  | .mxreadFlags _ | .mxwriteFlags _ | .mxclearFlags _ => 1
  | _ => 0

/-- Rows of bytes: `n` runs of `len` bytes at a pitch. -/
def runs (x p len n : Nat) : List (Nat × Nat) := (List.range n).map (fun r => (x + r * p, len))

/-- The bytes of one cycle of mxread or mxwrite. -/
def cycleSpans (m : MWord) (x j : Nat) : List (Nat × Nat) :=
  if m.dt = 11 then [(x, 8)] else
  let n := m.N
  let p := m.pitch (bankRow m)
  if m.dt = 10 then
    let r := 32 * j / n
    let b := 32 * j % n / 32
    let w := mxfW m.mxf
    [(x + r * p + 4 * w * b, 4 * w), (x + r * p + n * w / 8 + b, 1)]
  else
    let z := etSize m.dt.toNat
    (List.range 32).map (fun e => let e := 32 * j + e; (x + e / n * p + e % n * z, z))

/-- All bytes a matrix word reads. -/
def mxReads (i : Instr) (base entv : Word) : List (Nat × Nat) :=
  match i with
  | .mxstat m | .mxstatT m =>
    let tr := isTr i
    let k := entK entv
    let x := m.start base
    let row := statRow m tr entv k
    runs x (m.pitch row) row (if tr then m.N else k)
      ++ (if isMx (fmtB entv) then [(x + 16 * m.soff.toNat, k / 32 * m.N)] else [])
  | .mxstream m => let row := streamRow entv (entK entv); runs (m.start base) (m.pitch row) row m.M
  | .mxwrite m => runs (m.start base) (m.pitch (bankRow m)) (bankRow m) m.rows
  | .mxwriteFlags m => [(m.start base, 8)]
  | _ => []

/-- All bytes a matrix word writes. -/
def mxWrites (i : Instr) (base : Word) : List (Nat × Nat) :=
  match i with
  | .mxread m => runs (m.start base) (m.pitch (bankRow m)) (bankRow m) m.rows
  | .mxreadFlags m => [(m.start base, 8)]
  | _ => []

/-- The granules of 16 bytes in which a span lies, and its parts cut at them. -/
def spanGrans (s : Nat × Nat) : List Nat := granules s.1 s.2
def spanParts (s : Nat × Nat) : List (Nat × Nat) :=
  (spanGrans s).map (fun g => let a := max s.1 (16 * g); (a, min (s.1 + s.2) (16 * g + 16) - a))

/-- The bytes that a queued word has yet to read, and to write. -/
def MxOp.pendR (o : MxOp) : List (Nat × Nat) :=
  if o.read then [] else
  match o.todo with
  | some l => ((mxReads o.img o.base o.entv).flatMap spanParts).filter (fun p => l.contains (p.1 / 16))
  | none =>
  match o.img with
  | .mxwrite m | .mxwriteFlags m =>
    ((List.range o.total).filter (fun j => o.prog ≤ j)).flatMap (cycleSpans m (m.start o.base))
  | i => mxReads i o.base o.entv
def MxOp.pendW (o : MxOp) : List (Nat × Nat) :=
  match o.img with
  | .mxread m | .mxreadFlags m => ((List.range o.total).filter (fun j => o.prog ≤ j)).flatMap (cycleSpans m (m.start o.base))
  | _ => []

/-! ### Waits of strand C, R200, R219, spec/01 R21 -/

def spanHit (a n : Nat) (l : List (Nat × Nat)) : Bool := l.any (fun s => s.1 < a + n && a < s.1 + s.2)

/-- Whether a read of C must wait: for an interlocked group, or for an mxread that has yet to write the bytes. -/
def Core.readHeld (x : Core) (k : StrandIx) (a n : Nat) : Bool :=
  x.vheld k a n || (k == .c && x.mxq.any (fun o => spanHit a n o.pendW))

/-- Whether a write of C must wait: as a read, and for a matrix word that has yet to read the bytes. -/
def Core.writeHeld (x : Core) (k : StrandIx) (a n : Nat) : Bool :=
  x.readHeld k a n || (k == .c && x.mxq.any (fun o => spanHit a n o.pendR))

/-- Scratch writes of earlier words of C that have not landed. -/
def Core.unlanded (x : Core) : List (Nat × Nat) :=
  x.ops.flatMap (fun o => if o.k != .c then [] else match o.body with
    | .store _ a bs => [(a, bs.length)]
    | .shadow _ old => old.map (fun e => (e.1, 1))
    | .vec gs => gs.flatMap (fun g => g.writes.map (fun w => (w.1, w.2.length)))
    | _ => []) ++ x.mxq.flatMap (·.pendW)

def spansMeet (a b : List (Nat × Nat)) : Bool := a.any (fun s => spanHit s.1 s.2 b)

end Sys2Proof.Machine
end

