-- ==== Sys2Proof/Machine/Memory.lean ====
section
/-!
DEFINITION. Scratch loads and stores, global loads and stores with the store buffer, and fences (spec/05 R101 to R112),
and the performing of store-buffer entries at their home ports (spec/14 R284, R288, spec/15 R313).
-/

namespace Sys2Proof.Machine

/-! ### Scratch words -/

/-- The result register values of a scratch load from its bytes, R101: signed, zero-extended, or a pair. -/
def signedOf (bs : List Byte) : List Word := [toWord (swrap (leNat bs) (8 * bs.length))]
def plainOf (bs : List Byte) : List Word := [bytesWord bs]
def pairOf (bs : List Byte) : List Word := [bytesWord (bs.take 8), bytesWord (bs.drop 8)]

/-- The even register of a pair field. -/
def pairReg (d : BitVec 4) : Reg := d ++ 0#1

/-- A scratch load of `z` bytes, R102, R103. -/
def loadBody (i : Instr) (d a : Reg) (imm : BitVec 8) (z : Nat) (f : List Byte → List Word) (c : Nat) (k : StrandIx)
    (s : State) : Act :=
  let x := scrAddr (s.rd c k a) imm z
  match s.scrFault c x z with
  | some (code, v) => .fault s code v
  | none =>
    if (s.core c).readHeld k x.toNat z then .wait s else
    match s.readCheck c k x.toNat z with
    | .error g => .fault s 0x05 (BitVec.ofNat 64 g)
    | .ok s => .go (s.land c k i d (f ((s.core c).scrRead k x.toNat z)) 4 x 0 0) .fall

/-- A scratch store lands at the end of the next issue cycle, R103. -/
def State.store (s : State) (c : Nat) (k : StrandIx) (i : Instr) (x : Nat) (bs : List Byte) (o0 o1 o2 : Word) : State :=
  let y := s.core c
  let at' := (y.str k).ic + 2
  s.addOp c { y.newOp k i (.store at' x bs) with op0 := o0, op1 := o1, op2 := o2, lam := 2, last := at' }

/-- A scratch store of `z` bytes of one register or a pair. -/
def storeBody (i : Instr) (d a : Reg) (imm : BitVec 8) (z : Nat) (c : Nat) (k : StrandIx) (s : State) : Act :=
  let x := scrAddr (s.rd c k a) imm z
  match s.scrFault c x z with
  | some (code, v) => .fault s code v
  | none =>
    if (s.core c).writeHeld k x.toNat z then .wait s else
    let lo := s.rd c k d
    let hi := if z = 16 then s.rd c k (d + 1) else 0
    .go (s.store c k i x.toNat ((wordBytes 8 lo ++ wordBytes 8 hi).take z) lo hi x) .fall

def loadInfo (n : Ann) (d a : Reg) : Info := { y := n.y, t := n.t, reads := [a], dst := [d], recs := true }
def storeInfo (n : Ann) (d a : Reg) : Info := { y := n.y, t := n.t, reads := [d, a], recs := true }

def execLdS8 (n : Ann) (d a : Reg) (i : BitVec 8) (s : State) : Result :=
  issue (.ldS8 n d a i) (loadInfo n d a) (loadBody (.ldS8 n d a i) d a i 1 signedOf) s
def execLdS16 (n : Ann) (d a : Reg) (i : BitVec 8) (s : State) : Result :=
  issue (.ldS16 n d a i) (loadInfo n d a) (loadBody (.ldS16 n d a i) d a i 2 signedOf) s
def execLdS32 (n : Ann) (d a : Reg) (i : BitVec 8) (s : State) : Result :=
  issue (.ldS32 n d a i) (loadInfo n d a) (loadBody (.ldS32 n d a i) d a i 4 signedOf) s
def execLdN8 (n : Ann) (d a : Reg) (i : BitVec 8) (s : State) : Result :=
  issue (.ldN8 n d a i) (loadInfo n d a) (loadBody (.ldN8 n d a i) d a i 1 plainOf) s
def execLdN16 (n : Ann) (d a : Reg) (i : BitVec 8) (s : State) : Result :=
  issue (.ldN16 n d a i) (loadInfo n d a) (loadBody (.ldN16 n d a i) d a i 2 plainOf) s
def execLdN32 (n : Ann) (d a : Reg) (i : BitVec 8) (s : State) : Result :=
  issue (.ldN32 n d a i) (loadInfo n d a) (loadBody (.ldN32 n d a i) d a i 4 plainOf) s
def execLdD (n : Ann) (d a : Reg) (i : BitVec 8) (s : State) : Result :=
  issue (.ldD n d a i) (loadInfo n d a) (loadBody (.ldD n d a i) d a i 8 plainOf) s
def execLdQ (n : Ann) (d : BitVec 4) (a : Reg) (i : BitVec 8) (s : State) : Result :=
  issue (.ldQ n d a i) { loadInfo n (pairReg d) a with dst := [pairReg d, pairReg d + 1] }
    (loadBody (.ldQ n d a i) (pairReg d) a i 16 pairOf) s
def execStB (n : Ann) (d a : Reg) (i : BitVec 8) (s : State) : Result :=
  issue (.stB n d a i) (storeInfo n d a) (storeBody (.stB n d a i) d a i 1) s
def execStH (n : Ann) (d a : Reg) (i : BitVec 8) (s : State) : Result :=
  issue (.stH n d a i) (storeInfo n d a) (storeBody (.stH n d a i) d a i 2) s
def execStW (n : Ann) (d a : Reg) (i : BitVec 8) (s : State) : Result :=
  issue (.stW n d a i) (storeInfo n d a) (storeBody (.stW n d a i) d a i 4) s
def execStD (n : Ann) (d a : Reg) (i : BitVec 8) (s : State) : Result :=
  issue (.stD n d a i) (storeInfo n d a) (storeBody (.stD n d a i) d a i 8) s
def execStQ (n : Ann) (d : BitVec 4) (a : Reg) (i : BitVec 8) (s : State) : Result :=
  issue (.stQ n d a i) { storeInfo n (pairReg d) a with reads := [pairReg d, pairReg d + 1, a] }
    (storeBody (.stQ n d a i) (pairReg d) a i 16) s

/-! ### The store buffer, R106, R107 -/

/-- Byte enables of `n` bytes at offset `o` of a granule. -/
def enOf (o n : Nat) : BitVec 16 := BitVec.ofNat 16 ((2 ^ n - 1) * 2 ^ o)

def granuleOf (x : Word) : Word := x &&& ~~~(15#64)
def inGranule (x : Word) : Nat := x.toNat % 16

/-- The bytes of an access that an entry buffers. -/
def SbEntry.overlap (e : SbEntry) (x : Word) (n : Nat) : BitVec 16 :=
  if e.va = granuleOf x then e.en &&& enOf (inGranule x) n else 0

/-- Whether every byte of an access lies in buffered entries. -/
def sbCovers (sb : List SbEntry) (x : Word) (n : Nat) : Bool :=
  sb.foldl (fun m e => m ||| e.overlap x n) 0 == enOf (inGranule x) n

/-- The youngest buffered value of each byte. -/
def sbBytes (sb : List SbEntry) (x : Word) (n : Nat) : List Byte :=
  (List.range n).map (fun j => let o := inGranule x + j
    sb.foldl (fun b e => if e.va = granuleOf x && e.en.getLsbD o then e.bytes.getD o 0 else b) 0)

/-- A gld that reads memory and overlaps an entry only in part waits for it. -/
def waitsFor (o : Op) (e : SbEntry) (k : StrandIx) : Bool :=
  match o.img, o.body with
  | .gld _ _ _ _ _ q, .ilock _ _ none => o.k == k && o.cnt == 1 && o.ord > e.ord && e.overlap o.op2 (if q then 16 else 8) != 0
  | _, _ => false

/-- A global address is canonical and aligned, R105. -/
def gAddrBad (x : Word) (z : Nat) : Bool := !canonical x || x.toNat % z ≠ 0

/-- gld at issue: its forwarded bytes, or whether it waits for entries (op.cnt = 1). -/
def gldBody (i : Instr) (d a : Reg) (q : Bool) (c : Nat) (k : StrandIx) (s : State) : Act :=
  let x := s.rd c k a
  let z := if q then 16 else 8
  if gAddrBad x z then .fault s 0x07 x else
  let y := s.core c
  let sb := (y.str k).sb
  let fwd := if sbCovers sb x z then some (sbBytes sb x z) else none
  let part := fwd.isNone && sb.any (fun e => e.overlap x z != 0)
  .go (s.addOp c { y.newOp k i (.ilock d q fwd) with op2 := x, cnt := if part then 1 else 0 }) .fall

/-- Bytes laid over a granule by their enables. -/
def overlay (old : List Byte) (o : Nat) (bs : List Byte) : List Byte :=
  (List.range 16).map (fun j => if o ≤ j && j < o + bs.length then bs.getD (j - o) 0 else old.getD j 0)

/-- A gld of the strand that came after the entry and has not landed reads bytes of a gst to `n` bytes at an address. -/
def readsBefore (o : Op) (e : SbEntry) (k : StrandIx) (x : Word) (n : Nat) : Bool := match o.img with
  | .gld _ _ _ _ _ q => o.k == k && o.ord > e.ord && granuleOf o.op2 == granuleOf x
      && enOf (inGranule o.op2) (if q then 16 else 8) &&& enOf (inGranule x) n != 0
  | _ => false

/-- Whether a gst of `n` bytes at an address merges into the youngest entry, R107. R107 has a gst merge as long as the entry is unsent, and a
gld return the latest earlier gst; where an unlanded gld waits for the entry, or reads bytes of the gst that comes after it, and may be
replayed, the model keeps the gld's reading and takes a new entry (DESIGN CHOICE, log entry 71). -/
def gstMerges (y : Core) (k : StrandIx) (x : Word) (n : Nat) : Bool := match (y.str k).sb.getLast? with
  | some e => e.va == granuleOf x && !y.ops.any (fun op => waitsFor op e k || readsBefore op e k x n)
  | none => false

/-- gst at issue: a merge into the youngest entry or a new entry; a full buffer holds it (R106). -/
def gstBody (i : Instr) (d a : Reg) (sc : BitVec 3) (ord q : Bool) (c : Nat) (k : StrandIx) (s : State) : Act :=
  let x := s.rd c k a
  let z := if q then 16 else 8
  if gAddrBad x z then .fault s 0x07 x else
  let bs := (wordBytes 8 (s.rd c k d) ++ wordBytes 8 (if q then s.rd c k (d + 1) else 0)).take z
  let y := s.core c
  let t := y.str k
  let o := inGranule x
  match t.sb.getLast? with
  | some e =>
    if gstMerges y k x z then
      let e' := { e with lord := y.nord, bytes := overlay e.bytes o bs, en := e.en ||| enOf o z, rel := e.rel || ord
                         scope := if sc.toNat > e.scope.toNat then sc else e.scope }
      .go (s.mapStr c k (fun t => { t with sb := t.sb.dropLast ++ [e'] })) .fall
    else if t.sb.length ≥ 8 then .wait s
    else .go (s.mapStr c k (fun t => { t with sb := t.sb ++
      [⟨y.nord, y.nord, t.ic + 1, i, granuleOf x, overlay [] o bs, enOf o z, ord, sc⟩] })) .fall
  | none =>
    .go (s.mapStr c k (fun t => { t with sb := t.sb ++
      [⟨y.nord, y.nord, t.ic + 1, i, granuleOf x, overlay [] o bs, enOf o z, ord, sc⟩] })) .fall

def execGld (n : Ann) (d a : Reg) (sc : BitVec 3) (ord q : Bool) (s : State) : Result :=
  issue (.gld n d a sc ord q)
    { y := n.y, t := n.t, reads := [a], dst := if q then [d, d + 1] else [d], il := true, gm := true, recs := true }
    (gldBody (.gld n d a sc ord q) d a q) s
def execGst (n : Ann) (d a : Reg) (sc : BitVec 3) (ord q : Bool) (s : State) : Result :=
  issue (.gst n d a sc ord q) { y := n.y, t := n.t, reads := if q then [d, d + 1, a] else [d, a], gm := true,
                                more := fun s c k => if gstMerges (s.core c) k (s.rd c k a) (if q then 16 else 8) then 0 else 1 }
    (gstBody (.gst n d a sc ord q) d a sc ord q) s

/-- What each kind of fence waits for, R112. -/
def fenceReady (s : State) (c : Nat) (k : StrandIx) (kind : BitVec 2) (sc : Nat) : Bool :=
  if kind = 0 then !(s.core c).loading k else s.released c k sc

def execFence (n : Ann) (kind : BitVec 2) (sc : BitVec 3) (s : State) : Result :=
  issue (.fence n kind sc) { y := n.y, t := n.t, gm := true }
    (fun c k s => if fenceReady s c k kind sc.toNat then .go s .fall else .wait s) s

/-! ### Performing the oldest entry, R106, R107, R108 -/

/-- The enabled bytes of an entry. -/
def SbEntry.enabled (e : SbEntry) : List (Option Byte) :=
  (List.range 16).map (fun j => if e.en.getLsbD j then some (e.bytes.getD j 0) else none)

/-- The lowest enabled byte of an entry: the address that a fault of it names. R108 gives the x of a gst; of an entry that several have merged
into it says nothing more (DESIGN CHOICE, log entry 101). -/
def SbEntry.addr (e : SbEntry) : Word :=
  e.va + BitVec.ofNat 64 (((List.range 16).find? (fun j => e.en.getLsbD j)).getD 0)

/-- Whether an entry must wait: a release for every earlier gld, any entry for an earlier gld of its bytes (R107). -/
def sbHeld (x : Core) (k : StrandIx) (e : SbEntry) : Bool :=
  x.ops.any (fun o => o.k == k && o.ord < e.lord && (match o.img, o.body with
    | .gld _ _ _ _ _ q, .ilock _ _ fwd =>
      (e.rel && o.ord < e.lord && !waitsFor o e k)
        || (fwd.isNone && !waitsFor o e k && e.overlap o.op2 (if q then 16 else 8) != 0)
    | _, _ => false))

def dropSb (s : State) (c : Nat) (k : StrandIx) : State := s.mapStr c k (fun t => { t with sb := t.sb.drop 1 })

/-- In a handler, what a strand issued from place `ord` on and has not landed or performed is lost with a fault of the word in
that place: a nested stop waits only for the words before it, and writes no record (spec/06 R128). -/
def loseFrom (s : State) (c : Nat) (k : StrandIx) (ord : Nat) : State :=
  if (s.ctx c).depth = 0 then s else
  s.mapCore c (fun x =>
    ({ x with ops := x.ops.filter (fun o => o.k != k || o.ord < ord || (match o.body with | .ilock _ _ _ => false | _ => true)) } : Core).mapStr k
      (fun t => { t with sb := t.sb.filter (fun e => e.ord < ord) }))

/-- A fault of an entry: the entry and every younger one stay for their records (R108). -/
def sbFault (s : State) (c : Nat) (k : StrandIx) (code : Nat) (v : Word) (ord : Nat) : State :=
  loseFrom (s.raiseOp c k code v) c k ord

/-- The oldest store-buffer entry of a strand leaves for its home port (spec/19 R381, R393), or waits: a release for what is older at its
scope. A store to a set goes to the rollback buffer. A fault is raised once every older entry has been performed (R108). -/
def performSb (c : Nat) (k : StrandIx) (s : State) : State :=
  let x := s.core c
  match (x.str k).sb with
  | [] => s
  | e :: _ =>
    if !x.alive || sbHeld x k e || (e.rel && !s.sentDone c k e.scope.toNat) then s else
    let y := s.ctx c
    match access s c (unitOrd e.ord) y.vf e.addr .write 1 false with
    | (t, .fault fw _) => if s.applied c k then sbFault t c k (if fw then 0x39 else 0x0C) e.addr e.ord else s
    | (s, .wait) | (s, .held _) => s
    | (s, .ok pa) =>
      match s.setOf y.vf e.va with
      | none => dropSb (s.sendWrite { kind := 0, core := c, k := k, vf := y.vf, task := y.task, va := e.addr } (pa / 16 * 16) e.enabled false) c k
      | some (ix, _) =>
        match s.requestSet c y.vf ix with
        | (s, false) => s
        | (s, true) =>
          match s.bufStore y.task e.va e.enabled with
          | some s => dropSb s c k
          | none => if s.applied c k then sbFault s c k 0x22 e.va e.ord else s

def execStoreBufferPerform (s : State) : Result := turnEvent (fun c k _ s => performSb c k s) s

end Sys2Proof.Machine
end

