-- ==== Sys2Proof/Machine/Tokens.lean ====
section
/-!
DEFINITION. Token words, the tag table, the event queue and strand control (spec/07 R147 to R162), idle (spec/05 R118), and
the starvation of a take (spec/18 R362).
-/

namespace Sys2Proof.Machine

/-! ### Tokens, R147, R148 -/

/-- The strand whose words give into a FIFO. -/
def giver (f : Nat) : StrandIx := match f with
  | 0 => .l | 1 => .c | 2 => .c | 3 => .w | 4 => .w | _ => .l

/-- Gives that the neighbour strand makes in this cycle, which come before S's (R146, log entry 16); for a Y word of S (`y`) those that
the neighbour's ready Y word has announced, since both issue in one clock cycle or neither does (R25, R26). -/
def neighbourGives (s : State) (c : Nat) (y : Bool) (f : Nat) : Nat :=
  let u := s.str c (giver f)
  if y && u.yready && !u.issued then (if giveL (giver f) = f then u.ygl else u.ygr) else
  let t := closeStrand c s (giver f)
  cnt (t.core c).gave f - cnt (s.core c).gave f

def execTkgive (y : Bool) (f : BitVec 3) (s : State) : Result :=
  issue (.tkgive y f) { y := y, who := 1, nh := true } (fun c _ s =>
    let x := s.core c
    if cnt x.tok f.toNat + cnt x.gave f.toNat + neighbourGives s c y f.toNat < 8
    then .go (s.mapCore c (·.give [f.toNat])) .fall else .wait s) s
def execTktake (y : Bool) (f : BitVec 3) (s : State) : Result :=
  issue (.tktake y f) { y := y, who := 1, nh := true } (fun c k s =>
    if (s.core c).canTake y k f.toNat
    then .go (s.mapCore c (fun x => { x with took := bump x.took f.toNat })) .fall else .wait s) s
def execTkcount (y : Bool) (d : Reg) (f : BitVec 3) (s : State) : Result :=
  issue (.tkcount y d f) { y := y, who := 1, nh := true, dst := [d], recs := true } (fun c k s =>
    let v := BitVec.ofNat 64 (cnt (s.core c).tok f.toNat)
    .go (s.land c k (.tkcount y d f) d [v] 2 v 0 0) .fall) s

/-! ### The tag table, R157 to R160 -/

def tagCount (cfg : Word) : Nat := (cfg.extractLsb' 25 9).toNat
def tagSlot (cfg : Word) : Nat := 2 ^ (10 + (cfg.extractLsb' 20 4).toNat)
def tagBase (cfg : Word) : Nat := (cfg.extractLsb' 0 20).toNat

/-- The lowest valid entry that holds a key, or −1. -/
def tagLook (x : Core) (key : Word) : Word :=
  match (List.range (tagCount x.tagcfg)).find? (fun i => Tab.get none x.tags i == some key) with
  | some i => BitVec.ofNat 64 i
  | none => BitVec.allOnes 64

/-- An index at or beyond COUNT raises SCRATCH_RANGE. -/
def tagFault (x : Core) (i : Word) : Option Word :=
  if i.toNat ≥ tagCount x.tagcfg then some (BitVec.ofNat 64 (tagBase x.tagcfg + i.toNat * tagSlot x.tagcfg)) else none

/-- A tag write of this clock cycle; it takes effect at its end, in the order of R160. -/
def tagWrite (x : Core) (p : Nat) (i : Option Nat) (e : Option Word) : Core := { x with tagw := x.tagw ++ [⟨p, i, e⟩] }

def execTglook (n : Ann) (d a : Reg) (s : State) : Result :=
  issue (.tglook n d a) { y := n.y, t := n.t, reads := [a], dst := [d], recs := true } (fun c k s =>
    let v := tagLook (s.core c) (s.rd c k a)
    .go (s.land c k (.tglook n d a) d [v] 3 v 0 0) .fall) s
def execTgset (n : Ann) (a b : Reg) (s : State) : Result :=
  issue (.tgset n a b) { y := n.y, t := n.t, reads := [a, b] } (fun c k s =>
    match tagFault (s.core c) (s.rd c k b) with
    | some v => .fault s 0x06 v
    | none => .go (s.mapCore c (fun x => tagWrite x (1 + ixOf k) (some (s.rd c k b).toNat) (some (s.rd c k a)))) .fall) s
def execTgclr (n : Ann) (b : Reg) (s : State) : Result :=
  issue (.tgclr n b) { y := n.y, t := n.t, reads := [b] } (fun c k s =>
    match tagFault (s.core c) (s.rd c k b) with
    | some v => .fault s 0x06 v
    | none => .go (s.mapCore c (fun x => tagWrite x (1 + ixOf k) (some (s.rd c k b).toNat) none)) .fall) s
def execTgclrAll (n : Ann) (s : State) : Result :=
  issue (.tgclrAll n) { y := n.y, t := n.t } (fun c k s => .go (s.mapCore c (fun x => tagWrite x (1 + ixOf k) none none)) .fall) s

/-! ### The event queue, R162 -/

def execEvpop (y : Bool) (d : Reg) (s : State) : Result :=
  issue (.evpop y d) { y := y, who := 1, dst := [d], il := true, recs := true } (fun c k s =>
    .go (s.ilock c k (.evpop y d) d false none 0 0 0) .fall) s
def execEvpoll (y : Bool) (d : Reg) (s : State) : Result :=
  issue (.evpoll y d) { y := y, who := 1, dst := [d], recs := true } (fun c k s =>
    let v := BitVec.ofNat 64 (s.core c).ev0
    .go (s.land c k (.evpoll y d) d [v] 2 v 0 0) .fall) s
def execIdle (y : Bool) (s : State) : Result :=
  issue (.idle y) { y := y, who := 1 } (fun c _ s => if (s.core c).evq.isEmpty then .wait s else .go s .fall) s

/-! ### Strand control, R151 to R154 -/

/-- The seed of a strand's generator, spec/01 R16. -/
def seedOf (k : StrandIx) (work : Word) : Word :=
  let x := work ^^^ (match k with
    | .s => 0x5A173C94E2D08B61#64 | .l => 0x93C40E7B1A65D2F8#64 | .c => 0xC6E85B217F0A94D3#64 | .w => 0x2F9DA846C35B170E#64)
  if x = 0 then 1 else x

/-- WorkId(n) of spec/16 R327 from a launch, and the field values v_f. -/
def workFields (x : Launch) : List Nat → Nat → List (Nat × Nat)
  | [], _ => []
  | j :: js, n => let f := orderAt x.hctl j
                  let e := x.ext.getD f 1
                  (f, n % e) :: workFields x js (n / e)
def Launch.nf (x : Launch) : Nat := (x.hctl.extractLsb' 0 3).toNat
def Launch.fields (x : Launch) (n : Nat) : List (Nat × Nat) := workFields x (List.range x.nf) n
def Launch.workId (x : Launch) (n : Nat) : Word :=
  BitVec.ofNat 64 (((x.fields n).map (fun e => e.2 * 2 ^ ((x.widths.take e.1).sum))).sum)

/-- The R12 values of a strand that starts at `pc`: `hdr` is the launch-header address, kernel loop `ls`, `le`, `lc`. -/
def startStrand (x : Launch) (y : Ctx) (hdr : Word) (k : StrandIx) (pc ls le : Word) (lc : BitVec 32) : Strand :=
  let w := x.workId y.iter
  let g : Tab Word := [(1, w)] ++ (x.fields y.iter).map (fun e => (2 + e.1, BitVec.ofNat 64 e.2))
    ++ [(8, hdr), (9, x.va), (10, BitVec.ofNat 64 y.resume)]
  { pc := pc, g := g.foldl (fun t e => Tab.set 0 t e.1 e.2) [], ls0 := ls, le0 := le, lc0 := lc
    sst := if x.hctl.getLsbD 3 then 1#64 <<< 15 else 0, sgn := seedOf k w, started := true, running := true }

/-- The strand that stgo names. -/
def goStrand (k : BitVec 2) : StrandIx := ofIx k.toNat

/-- stgo on a strand that is not running, R152: it starts in the next clock cycle. -/
def stgoStart (s : State) (c : Nat) (j : StrandIx) (x : Word) : State :=
  let t := s.str c j
  let y := s.ctx c
  let l := s.launch y.launch
  let u := if t.started then { t with pc := x } else startStrand l y l.hdr j x 0 0 0
  (s.mapStr c j (fun _ => { u with running := false, starting := true, fwait := 0, waited := 0, twait := false, starved := false })).trace c j 8 x 0

def execStgo (y : Bool) (d a : Reg) (k : BitVec 2) (s : State) : Result :=
  issue (.stgo y d a k) { y := y, who := 1, nh := true, reads := [a], dst := [d] } (fun c kk s =>
    let x := s.rd c kk a
    let j := goStrand k
    if !parcelAligned x || !canonical x then .fault s 0x07 x
    else if (s.str c j).running then .go (s.put c kk d 0) .fall
    else .go ((stgoStart s c j x).put c kk d 1) .fall) s

/-- The strands of a mask with bit 0 for L, 1 for C, 2 for W. -/
def maskOf (m : BitVec 3) : List StrandIx := [.l, .c, .w].filter (fun k => m.getLsbD (ixOf k - 1))

def execStwait (y : Bool) (m : BitVec 3) (s : State) : Result :=
  issue (.stwait y m) { y := y, who := 1, nh := true } (fun c _ s =>
    if (maskOf m).all (fun k => !(s.str c k).running) then .go s .fall else .wait s) s
def execStstop (y : Bool) (m : BitVec 3) (s : State) : Result :=
  issue (.ststop y m) { y := y, who := 1, nh := true } (fun c _ s =>
    .go ((maskOf m).foldl (fun s k => s.mapStr c k (fun t => { t with stopping := t.stopping || t.running })) s) .fall) s

/-! ### Starvation -/

/-- A take that has waited NSTARVE clock cycles posts an event and a STALL record, once per wait, with the first of its FIFOs, left
before right, that the word could not take from when it waited last (log entry 67). -/
def starve (c : Nat) (k : StrandIx) (s : State) : State :=
  let t := s.str c k
  if t.running && !t.starved && t.waited ≥ (s.die (dieOf c)).nstarve && t.waited > 0 then
    let f := t.tfifo
    let s := s.postCore c k 3 f ((t.ic + 1) % 2 ^ 16) 0
    (s.trace c k 3 t.pc f).mapStr c k (fun t => { t with starved := true })
  else s

def execTokenStarvation (s : State) : Result := turnEvent (fun c k _ s => starve c k s) s

end Sys2Proof.Machine
end

