-- ==== Sys2Proof/Machine/Copy.lean ====
section
/-!
DEFINITION. Copy words and the copy engine (spec/11, spec/07 R166): shape registers, checks and pushes, the send stage with its
checks and charges, responses, multicast, completion, and the application of accumulations and futures at home ports.
-/

namespace Sys2Proof.Machine

/-! ### Shape records, R224 to R229 -/

def recCtl (b : List Byte) : Nat := fieldAt b 0 2
def recEt (b : List Byte) : Nat := recCtl b % 16
def recDim (b : List Byte) : Nat := recCtl b / 16 % 16
def recFault (b : List Byte) : Bool := recCtl b / 256 % 2 == 1
def recW (b : List Byte) (j : Nat) : Nat := fieldAt b (2 + 2 * j) 2 + 1
def recT (b : List Byte) (j : Nat) : Int := swrap (fieldAt b (0x14 + 4 * j) 4) 32
def recStr (b : List Byte) (j : Nat) : Int := swrap (fieldAt b (0x38 + 8 * j) 8) 64
/-- The elements of a window. -/
def recN (b : List Byte) : Nat := ((List.range (recDim b)).map (recW b)).foldl (· * ·) 1

def inS64 (x : Int) : Bool := -(2 ^ 63) ≤ x && x < 2 ^ 63

/-- The checks of a record, R226: the reason and the dimension. -/
def recCheck (b : List Byte) : Option (Nat × Nat) :=
  let nd := recDim b
  let z := etSize (recEt b)
  let js := List.range nd
  let rest := (List.range 9).filter (fun j => j ≥ nd)
  if recEt b > 10 then some (1, 0)
  else if nd < 1 || nd > 9 then some (2, 0)
  else if recCtl b / 512 ≠ 0 || rest.any (fun j => recW b j ≠ 1 || recT b j ≠ 0 || recStr b j ≠ 0) then some (3, 0)
  else match js.find? (fun j => recT b j < 1) with
    | some j => some (4, j)
    | none =>
      if z * recN b > 2 ^ 20 then some (5, 0)
      else match js.find? (fun j => !inS64 (recStr b j * z)) with
        | some j => some (6, j)
        | none => none

/-- tval of SHAPE_FORM. -/
def shapeVal (r h d : Nat) : Word := BitVec.ofNat 64 (r + h * 2 ^ 8 + d * 2 ^ 12)

def Core.shape (x : Core) (h : BitVec 4) : Shape := Tab.get {} x.sh h.toNat
def Core.setShape (x : Core) (h : BitVec 4) (y : Shape) : Core := { x with sh := Tab.set {} x.sh h.toNat y }

/-- A shape register is written with exposed latency 1: words see it from the next clock cycle on (R227). -/
def shapeWrite (x : Core) (k : StrandIx) (h : BitVec 4) (y : Shape) : Core := { x with shw := x.shw ++ [⟨k, h.toNat, y⟩] }

/-- The fill pattern: the low z bytes of FILL, or its 8 bytes twice. -/
def fillBytes (fill : Word) (z : Nat) : List Byte := if z = 16 then w8 fill ++ w8 fill else (w8 fill).take z

/-- The window coordinates of an element, dimension 0 fastest. -/
def winCoords (b : List Byte) : Nat → Nat → Nat → List Nat
  | 0, _, _ => []
  | n + 1, j, e => e % recW b j :: winCoords b n (j + 1) (e / recW b j)

/-- Where an element lies, R229. -/
inductive ElemAt where
  | outside | bounds | wrap
  | va (a : Word)

/-- ElementAddress(e), with the coordinate of the last dimension replaced by an index where there is one. -/
def elemAddr (sh : Shape) (base : Word) (e : Nat) (idx : Option Int) : ElemAt :=
  let b := sh.bytes
  let nd := recDim b
  let ws := winCoords b nd 0 e
  let cs : List Int := (ws.zip (List.range nd)).map (fun p => match idx with
    | some v => if p.2 + 1 = nd then v else sh.org.getD p.2 0 + p.1
    | none => sh.org.getD p.2 0 + p.1)
  if (cs.zip (List.range nd)).any (fun p => p.1 < 0 || p.1 ≥ recT b p.2) then (if recFault b then .bounds else .outside)
  else
    let a := base.toInt + etSize (recEt b) * ((cs.zip (List.range nd)).map (fun p => p.1 * recStr b p.2)).sum
    if a < -(2 ^ 56) || a ≥ 2 ^ 56 then .wrap else .va (toWord a)

/-! ### Issue, R230 -/

/-- cpshape after its record has been sampled. -/
def shapeBody (h : BitVec 4) (sr gr : Reg) (c : Nat) (k : StrandIx) (s : State) : Act :=
  let x := s.rd c k sr
  if x.toNat % 16 ≠ 0 then .fault s 0x11 x
  else if x.toNat + 128 > (s.ctx c).scrsize then .fault s 0x06 (BitVec.ofNat 64 (max x.toNat (s.ctx c).scrsize))
  else match s.readCheck c k x.toNat 128 with
    | .error g => .fault s 0x05 (BitVec.ofNat 64 g)
    | .ok s =>
      let b := (s.core c).scrRead k x.toNat 128
      match recCheck b with
      | some (r, d) => .fault s 0x10 (shapeVal r h.toNat d)
      | none => .go (s.mapCore c (shapeWrite · k h
          { bytes := b, fill := s.rd c k gr, org := List.replicate 9 0, valid := true })) .fall

/-- cporg and cpstep, R227. -/
def originBody (h d : BitVec 4) (f : Int → Int) (c : Nat) (k : StrandIx) (s : State) : Act :=
  let y := (s.core c).shape h
  let o := f (y.org.getD d.toNat 0)
  if !y.valid then .fault s 0x10 (shapeVal 7 h.toNat 0)
  else if d.toNat ≥ recDim y.bytes then .fault s 0x10 (shapeVal 9 h.toNat d.toNat)
  else if !inS64 o then .fault s 0x13 (d.setWidth 64)
  else .go (s.mapCore c (shapeWrite · k h { y with org := setAt y.org d.toNat o })) .fall

def copyInfo (n : Ann) (who : BitVec 4) (rs : List Reg) : Info := { y := n.y, t := n.t, who := who, reads := rs, recs := true }
def shapeInfo (n : Ann) (rs : List Reg) : Info := { y := n.y, t := n.t, who := 10, reads := rs }

def execCpshape (n : Ann) (h : BitVec 4) (sr gr : Reg) (s : State) : Result :=
  issue (.cpshape n h sr gr) (shapeInfo n [sr, gr]) (shapeBody h sr gr) s
def execCporg (n : Ann) (h : BitVec 4) (gr : Reg) (d : BitVec 4) (s : State) : Result :=
  issue (.cporg n h gr d) (shapeInfo n [gr]) (fun c k s => originBody h d (fun _ => (s.rd c k gr).toInt) c k s) s
def execCpstep (n : Ann) (h : BitVec 4) (gr : Reg) (d : BitVec 4) (s : State) : Result :=
  issue (.cpstep n h gr d) (shapeInfo n [gr]) (fun c k s => originBody h d (fun o => o + (s.rd c k gr).toInt) c k s) s

/-- What a command needs checked: its shape, its image with element size, its index list, scratch words, its global
operand and the alignment of that. -/
structure CpForm where
  shape : Option (BitVec 4) := none
  img   : Option Nat := none
  zimg  : Nat := 0
  idx   : Option Nat := none
  word  : Option Word := none
  glob  : Option Word := none
  al    : Nat := 0

/-- ET allowed, R234, R236. -/
def etAllowed (i : Instr) (et : Nat) : Bool :=
  match i with
  | .cpaccAdd .. | .cpaccMin .. | .cpaccMax .. => 4 ≤ et && et ≤ 8
  | .cpaccAnd .. | .cpaccOr .. | .cpaccXor .. | .cpaccXchg .. => et == 4 || et == 5 || et == 6 || et == 8 || et == 9
  | .cpaccCas .. => et == 6 || et == 9
  | _ => true

/-- The first byte at or beyond scrsize of a run. -/
def beyond (scrsize x n : Nat) : Option Nat := if x + n > scrsize then some (max x scrsize) else none

/-- Steps 3 to 6 of R230. -/
def formCheck (i : Instr) (f : CpForm) (x : Core) (scrsize : Nat) : Option (Nat × Word) :=
  let w (a : Nat) : Word := BitVec.ofNat 64 a
  let sh := match f.shape with
    | some h => x.shape h
    | none => {}
  let h := (f.shape.getD 0).toNat
  let n := recN sh.bytes
  if f.shape.isSome && !sh.valid then some (0x10, shapeVal 7 h 0)
  else if f.shape.isSome && !etAllowed i (recEt sh.bytes) then some (0x10, shapeVal 8 h 0)
  else if (f.img.getD 0) % 16 ≠ 0 then some (0x11, w (f.img.getD 0))
  else if (f.idx.getD 0) % 8 ≠ 0 then some (0x11, w (f.idx.getD 0))
  else if (f.word.getD 0).toNat % 8 ≠ 0 then some (0x11, f.word.getD 0)
  else if f.al ≠ 0 && (f.glob.getD 0).toNat % f.al ≠ 0 then some (0x11, f.glob.getD 0)
  else
    let r := ((f.img.bind (fun a => beyond scrsize a (n * f.zimg))).or
      (f.idx.bind (fun a => beyond scrsize a (8 * recW sh.bytes (recDim sh.bytes - 1))))).or
      (f.word.bind (fun a => beyond scrsize a.toNat 8))
    r.map (fun a => (0x06, w a))

/-- A command enters its queue, R231; step 7 of R230 holds it while sixteen entries are there. -/
def pushCmd (i : Instr) (h : Option (BitVec 4)) (sreg greg : Word) (idx x : Nat) (c : Nat) (k : StrandIx) (s : State) : Act :=
  let y := s.core c
  let q := if k = .l then y.lq else y.wq
  if q.length ≥ 16 then .wait s else
  let snap := h.map y.shape
  let n : Nat := match i with
    | .cpres .. | .cpreg .. | .cpsig .. => 1
    | _ => match snap with
      | some sh => recN sh.bytes
      | none => 0
  let left : List Nat := if isMulticast i then (List.range 16).filterMap (fun j =>
    if sreg.getLsbD (48 + j) then some (clusterOf c * 16 + j) else none) else []
  let e : CpCmd := { k := k, ord := y.nord, seq := (y.str k).ic + 1, img := i, sreg := sreg, greg := greg, idx := idx, snap := snap
                     n := n, x := x, mleft := left, since := s.clock }
  .go (s.mapCore c (fun y => if k = .l then { y with lq := y.lq ++ [e] } else { y with wq := y.wq ++ [e] })) .fall

/-- Element size of the named shape as it stands. -/
def State.shapeZ (s : State) (c : Nat) (h : BitVec 4) : Nat := etSize (recEt ((s.core c).shape h).bytes)

/-- A command with an image at g(sr) and a global base at g(gr). -/
def moveBody (i : Instr) (h : BitVec 4) (sr gr : Reg) (c : Nat) (k : StrandIx) (s : State) : Act :=
  let a := s.rd c k sr
  let b := s.rd c k gr
  let z := s.shapeZ c h
  match formCheck i { shape := some h, img := some a.toNat, zimg := z, glob := some b, al := z } (s.core c) (s.ctx c).scrsize with
  | some (code, v) => .fault s code v
  | none => pushCmd i (some h) a b 0 a.toNat c k s

/-- cpgat and cpsca: the index list at g(2j+1). -/
def indexBody (i : Instr) (h : BitVec 4) (sr : Reg) (gr : BitVec 4) (c : Nat) (k : StrandIx) (s : State) : Act :=
  let a := s.rd c k sr
  let b := s.rd c k (pairReg gr)
  let l := (s.rd c k (pairReg gr + 1)).toNat
  let z := s.shapeZ c h
  match formCheck i { shape := some h, img := some a.toNat, zimg := z, idx := some l, glob := some b, al := z } (s.core c)
      (s.ctx c).scrsize with
  | some (code, v) => .fault s code v
  | none => pushCmd i (some h) a b l a.toNat c k s

/-- cpldm: the core mask in bits [63:48], R235. -/
def castBody (i : Instr) (h : BitVec 4) (sr gr : Reg) (c : Nat) (k : StrandIx) (s : State) : Act :=
  let a := s.rd c k sr
  let b := s.rd c k gr
  let z := s.shapeZ c h
  let x := a.toNat % 2 ^ 48
  let f : CpForm := { shape := some h, img := some x, zimg := z, glob := some b, al := z }
  match formCheck i { f with zimg := 0 } (s.core c) (2 ^ 48) with
  | some (code, v) => .fault s code v
  | none =>
    if a.extractLsb' 48 16 = 0 then .fault s 0x15 0 else
    match formCheck i f (s.core c) (s.ctx c).scrsize with
    | some (code, v) => .fault s code v
    | none => pushCmd i (some h) a b 0 x c k s

/-- cpacc: RET in bit 47, bits [63:48] zero; 16-byte image elements for cas (R230, R236). -/
def accBody (i : Instr) (h : BitVec 4) (sr gr : Reg) (c : Nat) (k : StrandIx) (s : State) : Act :=
  let a := s.rd c k sr
  let b := s.rd c k gr
  let z := s.shapeZ c h
  let x := a.toNat % 2 ^ 47
  let zi : Nat := if accOp i = 7 then 16 else z
  let f : CpForm := { shape := some h, img := some x, zimg := zi, glob := some b, al := z }
  match formCheck i { f with zimg := 0 } (s.core c) (2 ^ 48) with
  | some (code, v) => .fault s code v
  | none =>
    if a.extractLsb' 48 16 ≠ 0 then .fault s 0x06 a else
    match formCheck i f (s.core c) (s.ctx c).scrsize with
    | some (code, v) => .fault s code v
    | none => pushCmd i (some h) a b 0 x c k s

/-- cptag: the slot of g(sr); its tag entry is invalid from the push on (R234). -/
def tagBody (i : Instr) (h : BitVec 4) (sr gr : Reg) (c : Nat) (k : StrandIx) (s : State) : Act :=
  let a := s.rd c k sr
  let b := s.rd c k gr
  let z := s.shapeZ c h
  let y := s.core c
  let n := recN (y.shape h).bytes * z
  let x := tagBase y.tagcfg + a.toNat * tagSlot y.tagcfg
  match formCheck i { shape := some h, glob := some b, al := z } y (s.ctx c).scrsize with
  | some (code, v) => .fault s code v
  | none =>
    match tagFault y a with
    | some v => .fault s 0x06 v
    | none =>
      if n > tagSlot y.tagcfg then .fault s 0x06 (BitVec.ofNat 64 (x + tagSlot y.tagcfg)) else
      match pushCmd i (some h) a b 0 x c k s with
      | .go s t => .go (s.mapCore c (fun y => tagWrite y (1 + ixOf k) (some a.toNat) none)) t
      | r => r

/-- cpfill and cpfill.scr. -/
def fillBody (i : Instr) (h : BitVec 4) (gr : Reg) (scr : Bool) (c : Nat) (k : StrandIx) (s : State) : Act :=
  let b := s.rd c k gr
  let z := s.shapeZ c h
  let f : CpForm := if scr then { shape := some h, img := some b.toNat, zimg := z } else { shape := some h, glob := some b, al := z }
  match formCheck i f (s.core c) (s.ctx c).scrsize with
  | some (code, v) => .fault s code v
  | none => pushCmd i (some h) 0 b 0 (if scr then b.toNat else 0) c k s

/-- cpres and cpreg: a scratch word and a future. -/
def futureBody (i : Instr) (sr gr : Reg) (c : Nat) (k : StrandIx) (s : State) : Act :=
  let a := s.rd c k sr
  let b := s.rd c k gr
  match formCheck i { word := some a, glob := some b, al := 16 } (s.core c) (s.ctx c).scrsize with
  | some (code, v) => .fault s code v
  | none => pushCmd i none a b 0 a.toNat c k s

def signalBody (i : Instr) (gr : Reg) (c : Nat) (k : StrandIx) (s : State) : Act :=
  let b := s.rd c k gr
  match formCheck i { glob := some b, al := 128 } (s.core c) (s.ctx c).scrsize with
  | some (code, v) => .fault s code v
  | none => pushCmd i none 0 b 0 0 c k s

def execSeam (n : Ann) (s : State) : Result := issue (.seam n) { copyInfo n 10 [] with solo := true } (pushCmd (.seam n) none 0 0 0 0) s
def execCpld (n : Ann) (h : BitVec 4) (sr gr : Reg) (ev : Bool) (s : State) : Result :=
  issue (.cpld n h sr gr ev) (copyInfo n 2 [sr, gr]) (moveBody (.cpld n h sr gr ev) h sr gr) s
def execCpst (n : Ann) (h : BitVec 4) (sr gr : Reg) (ev : Bool) (s : State) : Result :=
  issue (.cpst n h sr gr ev) (copyInfo n 8 [sr, gr]) (moveBody (.cpst n h sr gr ev) h sr gr) s
def execCpldm (n : Ann) (h : BitVec 4) (sr gr : Reg) (ev : Bool) (s : State) : Result :=
  issue (.cpldm n h sr gr ev) (copyInfo n 2 [sr, gr]) (castBody (.cpldm n h sr gr ev) h sr gr) s
def execCpgat (n : Ann) (h : BitVec 4) (sr : Reg) (gr : BitVec 4) (ev : Bool) (s : State) : Result :=
  issue (.cpgat n h sr gr ev) (copyInfo n 2 [sr, pairReg gr, pairReg gr + 1]) (indexBody (.cpgat n h sr gr ev) h sr gr) s
def execCpsca (n : Ann) (h : BitVec 4) (sr : Reg) (gr : BitVec 4) (ev : Bool) (s : State) : Result :=
  issue (.cpsca n h sr gr ev) (copyInfo n 8 [sr, pairReg gr, pairReg gr + 1]) (indexBody (.cpsca n h sr gr ev) h sr gr) s
def execCpaccAdd (n : Ann) (h : BitVec 4) (sr gr : Reg) (ev : Bool) (s : State) : Result :=
  issue (.cpaccAdd n h sr gr ev) (copyInfo n 8 [sr, gr]) (accBody (.cpaccAdd n h sr gr ev) h sr gr) s
def execCpaccMin (n : Ann) (h : BitVec 4) (sr gr : Reg) (ev : Bool) (s : State) : Result :=
  issue (.cpaccMin n h sr gr ev) (copyInfo n 8 [sr, gr]) (accBody (.cpaccMin n h sr gr ev) h sr gr) s
def execCpaccMax (n : Ann) (h : BitVec 4) (sr gr : Reg) (ev : Bool) (s : State) : Result :=
  issue (.cpaccMax n h sr gr ev) (copyInfo n 8 [sr, gr]) (accBody (.cpaccMax n h sr gr ev) h sr gr) s
def execCpaccAnd (n : Ann) (h : BitVec 4) (sr gr : Reg) (ev : Bool) (s : State) : Result :=
  issue (.cpaccAnd n h sr gr ev) (copyInfo n 8 [sr, gr]) (accBody (.cpaccAnd n h sr gr ev) h sr gr) s
def execCpaccOr (n : Ann) (h : BitVec 4) (sr gr : Reg) (ev : Bool) (s : State) : Result :=
  issue (.cpaccOr n h sr gr ev) (copyInfo n 8 [sr, gr]) (accBody (.cpaccOr n h sr gr ev) h sr gr) s
def execCpaccXor (n : Ann) (h : BitVec 4) (sr gr : Reg) (ev : Bool) (s : State) : Result :=
  issue (.cpaccXor n h sr gr ev) (copyInfo n 8 [sr, gr]) (accBody (.cpaccXor n h sr gr ev) h sr gr) s
def execCpaccXchg (n : Ann) (h : BitVec 4) (sr gr : Reg) (ev : Bool) (s : State) : Result :=
  issue (.cpaccXchg n h sr gr ev) (copyInfo n 8 [sr, gr]) (accBody (.cpaccXchg n h sr gr ev) h sr gr) s
def execCpaccCas (n : Ann) (h : BitVec 4) (sr gr : Reg) (ev : Bool) (s : State) : Result :=
  issue (.cpaccCas n h sr gr ev) (copyInfo n 8 [sr, gr]) (accBody (.cpaccCas n h sr gr ev) h sr gr) s
def execCpfill (n : Ann) (h : BitVec 4) (gr : Reg) (ev : Bool) (s : State) : Result :=
  issue (.cpfill n h gr ev) (copyInfo n 10 [gr]) (fillBody (.cpfill n h gr ev) h gr false) s
def execCpfillScr (n : Ann) (h : BitVec 4) (gr : Reg) (ev : Bool) (s : State) : Result :=
  issue (.cpfillScr n h gr ev) (copyInfo n 10 [gr]) (fillBody (.cpfillScr n h gr ev) h gr true) s
def execCpres (n : Ann) (sr gr : Reg) (ev : Bool) (s : State) : Result :=
  issue (.cpres n sr gr ev) (copyInfo n 8 [sr, gr]) (futureBody (.cpres n sr gr ev) sr gr) s
def execCpreg (n : Ann) (sr gr : Reg) (ev : Bool) (s : State) : Result :=
  issue (.cpreg n sr gr ev) (copyInfo n 8 [sr, gr]) (futureBody (.cpreg n sr gr ev) sr gr) s
def execCpsig (n : Ann) (gr : Reg) (ev : Bool) (j : BitVec 3) (s : State) : Result :=
  issue (.cpsig n gr ev j) (copyInfo n 8 [gr]) (signalBody (.cpsig n gr ev j) gr) s
def execCptag (n : Ann) (h : BitVec 4) (sr gr : Reg) (ev : Bool) (s : State) : Result :=
  issue (.cptag n h sr gr ev) (copyInfo n 2 [sr, gr]) (tagBody (.cptag n h sr gr ev) h sr gr) s
def execCpdrain (n : Ann) (ev : Bool) (s : State) : Result :=
  issue (.cpdrain n ev) (copyInfo n 10 []) (pushCmd (.cpdrain n ev) none 0 0 0 0) s
def execCpdrainBoth (n : Ann) (ev : Bool) (s : State) : Result :=
  issue (.cpdrainBoth n ev) (copyInfo n 10 []) (pushCmd (.cpdrainBoth n ev) none 0 0 0 0) s

/-! ### The send stage, R231 -/

def isSeam : Instr → Bool
  | .seam _ => true
  | _ => false

/-- The oldest command of a queue that has something left to send and has not begun, if no seam is ahead of it. -/
def nextCmd : List CpCmd → Option CpCmd
  | [] => none
  | q :: t => if isSeam q.img then none else if !q.began && q.sent < q.n then some q else nextCmd t

/-- A scratch write of the pushing strand from before the push has not landed, R233. -/
def pushHeld (x : Core) (q : CpCmd) : Bool :=
  x.ops.any (fun o => o.k == q.k && o.ord < q.ord && (match o.body with | .store .. | .shadow .. => true | _ => false))

/-- A global access of the pushing strand from before the push has not been performed at system scope, so that no access of the command
may be made yet (spec/21 R429, spec/17 R349). -/
def pushOpen (s : State) (c : Nat) (q : CpCmd) : Bool :=
  let x := s.core c
  (x.str q.k).sb.any (fun e => e.ord < q.ord) || !s.sentDone c q.k 4
    || x.ops.any (fun o => o.k == q.k && o.ord < q.ord && (match o.img with | .gld .. => true | _ => false))

def readyCmd (x : Core) (l : List CpCmd) : Option CpCmd := (nextCmd l).bind (fun q => if pushHeld x q then none else some q)

/-- The command in the stage, or the one that enters it now, R231. Of two queues that are ready while the stage has taken from neither
yet, at a task's start or after a resumption whose SEND is 00 (spec/12 R244), the W queue comes first (DESIGN CHOICE, log entry 74:
`lastq` is then true). -/
def pickStage (x : Core) : Option (Core × CpCmd) :=
  match x.stage.bind x.cmd with
  | some q => if q.sent < q.n then some (x, q) else next x
  | none => next x
where
  next (x : Core) : Option (Core × CpCmd) :=
    let r := if x.lastq then (readyCmd x x.wq).or (readyCmd x x.lq) else (readyCmd x x.lq).or (readyCmd x x.wq)
    r.map (fun q => (mapCmd { x with stage := some q.ord, lastq := q.k == .l } q.ord (fun q => { q with began := true }), { q with began := true }))

/-- The responses of elements already sent are written when a command ends at its cursor (R240), those of a multicast at its destinations
(R235). -/
def writeOut (c : Nat) (q : CpCmd) (s : State) : State :=
  let l := q.out.filter (·.bad.isNone)
  if isMulticast q.img then
    let q : CpCmd := { q with mdata := l.foldl (fun m r => writeBytes m r.x r.bytes) q.mdata }
    q.mleft.foldl (fun s d => (castTo s c d q).1) s
  else l.foldl (fun s r => s.mapCore c (·.scrWrite r.x r.bytes)) s

/-- A fault of a command, R241: a stop while its strand runs; otherwise the command ends and an event is posted. While the event queue has
no room the command stays as it was in `o`, and fails again. -/
def cmdFault (o s : State) (c : Nat) (q : CpCmd) (code : Nat) (tval : Word) : State :=
  if (s.str c q.k).running then s.raiseOp c q.k code tval
  else if !(s.core c).evRoom then o
  else ((match (s.core c).cmd q.ord with | some p => writeOut c p s | none => s).mapCore c
      (fun x => { x with lq := x.lq.filter (·.ord != q.ord), wq := x.wq.filter (·.ord != q.ord) })).postEv c 0
    (evRec 3 q.k (code + q.seq % 2 ^ 16 * 2 ^ 8 + q.sent % 2 ^ 24 * 2 ^ 24))

def isGather : Instr → Bool
  | .cpgat .. | .cpsca .. => true
  | _ => false

/-- Where element e of a command lies. -/
def cmdElem (x : Core) (q : CpCmd) (e : Nat) : ElemAt :=
  let sh := q.snap.getD {}
  let b := sh.bytes
  let w := (winCoords b (recDim b) 0 e).getLast?.getD 0
  elemAddr sh q.greg e (if isGather q.img then some (swrap (leNat (readBytes x.scr (q.idx + 8 * w) 8)) 64) else none)

/-- The block of 64 bytes of an address. -/
def blockOf (a : Word) : Nat := a.toNat / 64

/-- The granules that consecutive elements of the request from e touch, R315. -/
def reqGranules (x : Core) (q : CpCmd) (blk : Nat) : Nat → Nat → List Nat
  | 0, _ => []
  | f + 1, e =>
    if e ≥ q.n then [] else
    match cmdElem x q e with
    | .va a => if blockOf a = blk then a.toNat / 16 :: reqGranules x q blk f (e + 1) else []
    | _ => []

inductive CpKind where
  | load | store | acc
deriving DecidableEq

/-- What a command does to global memory. -/
def cpKind : Instr → CpKind
  | .cpld .. | .cpldm .. | .cpgat .. | .cptag .. => .load
  | .cpst .. | .cpsca .. | .cpfill .. | .cpfillScr .. => .store
  | _ => .acc

/-- Element e has been sent. -/
def sentOne (s : State) (c : Nat) (q : CpCmd) (blk : Option Nat) : State :=
  s.mapCmd c q.ord (fun q => { q with sent := q.sent + 1, blk := blk, pa := none })

/-- An element that has been judged waits on its way. -/
def heldOne (s : State) (c : Nat) (q : CpCmd) (pa : Nat) : State := s.mapCmd c q.ord (fun q => { q with pa := some pa })

/-- Bytes at an offset of a granule. -/
def enAt (o : Nat) (bs : List Byte) : List (Option Byte) := List.replicate o none ++ bs.map some ++ List.replicate (16 - o - bs.length) none

/-- The part of a request of a command that is still being put together, in the granule of an address. -/
def Flit.partOf (f : Flit) (c ord pa : Nat) : Bool := match f.cargo with
  | .store wr p _ more => more && wr.kind == 1 && wr.ofCore c && wr.ord == ord && p / 16 == pa / 16
  | _ => false

/-- The bytes of an element join the part of their granule, or begin one; `more` says that the next element of the request belongs to it
too (spec/15 R301, R315). -/
def State.sendPart (s : State) (wr : Writer) (pa : Nat) (bs : List Byte) (more : Bool) : State :=
  let en := enAt (pa % 16) bs
  if s.wire.any (fun f => f.partOf wr.core wr.ord pa) then
    { s with wire := s.wire.map (fun f => if f.partOf wr.core wr.ord pa then
        (match f.cargo with
          | .store w p b _ => { f with cargo := .store w p (mergeEn b en) more }
          | _ => f) else f) }
  else s.sendWrite wr (pa / 16 * 16) en more

/-- Whether the element after e lies in the granule of `a` too. -/
def samePart (x : Core) (q : CpCmd) (a : Word) : Bool := q.sent + 1 < q.n && (match cmdElem x q (q.sent + 1) with
  | .va b => b.toNat / 16 == a.toNat / 16
  | _ => false)

/-- The source bytes of element e, with the warning or fault of a never-written granule (R240). -/
def srcBytes (s : State) (c : Nat) (q : CpCmd) (x n : Nat) : Except Nat (State × List Byte) :=
  match s.readCheck c q.k x n with
  | .error g => .error g
  | .ok s => .ok (s, readBytes (s.core c).scr x n)

/-- What an element does in its turn: it waits, is sent, or fails with a code and tval. -/
inductive Sent where
  | waits (s : State)
  | sent (s : State)
  | fails (s : State) (code : Nat) (tval : Word)

/-- The source of an element of a command: its fill pattern, its image bytes in scratch, or nothing for a load. -/
def elemSrc (s : State) (c : Nat) (q : CpCmd) (z : Nat) : Except Nat (State × List Byte) := match q.img with
  | .cpfill .. => .ok (s, fillBytes (q.snap.getD {}).fill z)
  | i => if cpKind i = .load then .ok (s, [])
    else
      let n := if accOp i = 7 && cpKind i = .acc then 16 else z
      srcBytes s c q (q.x + q.sent * n) n

/-- An element that has passed its checks leaves for `pa`; `set` when a set covers it (R288). -/
def launchElem (s : State) (c : Nat) (q : CpCmd) (z : Nat) (a : Word) (pa : Nat) (set : Bool) (bs : List Byte) : Sent :=
  let y := s.ctx c
  let e := q.sent
  let blk := some (blockOf a)
  match cpKind q.img with
  | .load =>
    let mem := s.portRead pa z
    let bs := if set then bufBytes (s.buf y.task) a mem else mem
    .sent (sentOne ((s.noteRead pa z).mapCmd c q.ord (fun q => { q with out := q.out ++ [⟨e, q.x + e * z, bs, none, rspHome pa⟩] })) c q blk)
  | .acc =>
    let op := accOp q.img
    let back := op = 6 || op = 7 || q.sreg.getLsbD 47
    let r : AccReq := ⟨q.ord, q.k, q.img, y.vf, recEt (q.snap.getD {}).bytes, e, a, pa, bs, if back then some (imgPos q (if op = 7 then 16 else z) e) else none⟩
    .sent (sentOne (s.mapCore c (fun x => { x with acc := x.acc ++ [r] })) c q blk)
  | .store =>
    if set then
      match s.bufStore y.task (a &&& ~~~(15#64)) (enAt (a.toNat % 16) bs) with
      | some s => .sent (sentOne s c q blk)
      | none => .fails s 0x22 (a &&& ~~~(15#64))
    else .sent (sentOne (s.sendPart { kind := 1, core := c, vf := y.vf, task := y.task, ord := q.ord, va := a } pa bs (samePart (s.core c) q a)) c q blk)

/-- The source and the set of an element that may leave for `pa`: it waits for its set without a trace, or with its place there. -/
def readyElem (o s : State) (c : Nat) (q : CpCmd) (z : Nat) (a : Word) (pa : Nat) : Sent :=
  let vf := (s.ctx c).vf
  let set := s.setOf vf (a &&& ~~~(15#64))
  match elemSrc s c q z with
  | .error g => .fails s 0x05 (BitVec.ofNat 64 g)
  | .ok (t, bs) => match set with
    | none => launchElem t c q z a pa false bs
    | some (ix, _) => match s.requestSet c vf ix with
      | (u, false) => .waits (if u = s then o else u)
      | (u, true) => match elemSrc u c q z with
        | .ok (u, bs) => launchElem u c q z a pa true bs
        | .error g => .fails u 0x05 (BitVec.ofNat 64 g)

/-- One element that lies at `a` is checked and sent (R240, R284, R288; log entry 14). A store that would be held in the egress or at its
port is held here. -/
def sendElem (s : State) (c : Nat) (q : CpCmd) (z : Nat) (a : Word) : Sent :=
  let vf := (s.ctx c).vf
  let kind := cpKind q.img
  let acc : AccKind := match kind with | .load => .read | .store => .write | .acc => .rmw
  match accessFrom s c (unitOrd q.ord) vf a acc z true q.pa with
  | (s, .wait) => .waits s
  | (s, .held pa) => .waits (heldOne s c q pa)
  | (s, .fault fw r) =>
    if kind = .load && r = 8 then
      .sent (sentOne (s.mapCmd c q.ord (fun p => { p with out := p.out ++ [⟨q.sent, p.x + q.sent * z, [], some a, q.pa.map rspHome⟩] })) c q (some (blockOf a)))
    else .fails s (if fw then 0x39 else 0x14) a
  | (t, .ok pa) =>
    if kind = .acc && (t.setOf vf (a &&& ~~~(15#64))).isSome then .fails t 0x14 a
    else if (kind = .store && t.reqShut (dieOf c) pa) || (kind = .load && t.behind c pa) then .waits (heldOne t c q pa)
    else readyElem s t c q z a pa

/-- A future or signal is sent: one request, checked as an element (R239, R240). -/
def sendFuture (s : State) (c : Nat) (q : CpCmd) : Sent :=
  let vf := (s.ctx c).vf
  let sig : Bool := match q.img with | .cpsig .. => true | _ => false
  let a := if sig then q.greg + 0x20 else q.greg
  if !canonical a then .fails s 0x14 a else
  match accessFrom s c (unitOrd q.ord) vf a .rmw 16 true q.pa with
  | (s, .wait) => .waits s
  | (s, .held pa) => .waits (heldOne s c q pa)
  | (s, .fault fw _) => .fails s (if fw then 0x39 else 0x14) a
  | (t, .ok pa) =>
    if (t.setOf vf (a &&& ~~~(15#64))).isSome then .fails t 0x14 a else
    match if sig then .ok (t, []) else srcBytes t c q q.x 8 with
    | .error g => .fails t 0x05 (BitVec.ofNat 64 g)
    | .ok (u, bs) =>
      match u.chargeCopy (dieOf c) vf 1 with
      | none => .waits s
      | some u => .sent ((sentOne (u.mapCore c (fun x => { x with acc := x.acc ++ [⟨q.ord, q.k, q.img, vf, 0, 0, a, pa, bs, none⟩] })) c q none).mapCmd
          c q.ord (fun q => { q with parts := q.parts + 1 }))

/-- The index of element e is read, with the fault or the warning of a never-written granule (spec/07 R156). -/
def idxRead (s : State) (c : Nat) (q : CpCmd) (e : Nat) : Except Nat State :=
  if !isGather q.img then .ok s else
  let b := (q.snap.getD {}).bytes
  let w := (winCoords b (recDim b) 0 e).getLast?.getD 0
  s.readCheck c q.k (q.idx + 8 * w) 8

/-- An element that lies at `a` is charged for, when it begins a request, and sent; one that is not sent is not charged for. -/
def sendAt (s : State) (c : Nat) (q : CpCmd) (z : Nat) (a : Word) : Sent :=
  if q.blk = some (blockOf a) then sendElem s c q z a
  else
    let parts := (reqGranules (s.core c) q (blockOf a) (q.n - q.sent) q.sent).eraseDups.length
    match s.chargeCopy (dieOf c) (s.ctx c).vf parts with
    | none => .waits s
    | some t => match sendElem t c { q with blk := some (blockOf a) } z a with
      | .sent u => .sent (u.mapCmd c q.ord (fun q => { q with parts := q.parts + parts }))
      | _ => sendElem s c q z a

/-- The next element of a command with a shape, with the checks of R240 in their order. An element in scratch has no global address, and
R229's wrap check, which is of that, is not made (DESIGN CHOICE, log entry 103). One that waits has not read its index yet. -/
def sendShaped (s : State) (c : Nat) (q : CpCmd) (sh : Shape) : Sent :=
  let z := etSize (recEt sh.bytes)
  let e := q.sent
  let fill (s : State) : State :=
    s.mapCmd c q.ord (fun q => { q with out := q.out ++ [⟨e, q.x + e * z, fillBytes sh.fill z, none, none⟩] })
  match idxRead s c q e with
  | .error g => .fails s 0x05 (BitVec.ofNat 64 g)
  | .ok t =>
    match q.img, cmdElem (s.core c) q e with
    | _, .bounds => .fails t 0x12 (BitVec.ofNat 64 e)
    | .cpfillScr .., .outside => .sent (sentOne s c q none)
    | .cpfillScr .., _ => .sent (sentOne (fill s) c q none)
    | _, .wrap => .fails t 0x13 (BitVec.ofNat 64 e)
    | _, .outside => .sent (sentOne (if cpKind q.img = .load then fill t else t) c q none)
    | _, .va a => match sendAt t c q z a with
      | .waits _ => sendAt s c q z a
      | r => r

/-- One turn of the send stage: it takes a command if it holds none, and sends its next element. Nothing is sent before the
pushing strand's earlier global accesses have been performed (R429), and an element other than an accumulation waits until the
requests sent before it have arrived (R233). -/
def sendOne (c : Nat) (s : State) : State :=
  if !(s.core c).alive then s else
  match pickStage (s.core c) with
  | none => s
  | some (x, q) =>
    let s := s.setCore c x
    if pushOpen s c q then s else
    let r : Sent := match q.snap with
      | none => sendFuture s c q
      | some sh => if cpKind q.img ≠ .acc && !x.acc.isEmpty then .waits s else sendShaped s c q sh
    match r with
    | .waits u | .sent u => u
    | .fails u code v => cmdFault s u c q code v

def execCopySendRequest (s : State) : Result := turnEvent (fun c _ _ s => sendOne c s) s

/-! ### Responses and completion, R232 to R235 -/

/-- Whether a response is held on its way back to a core (R392). -/
def CpResp.held (r : CpResp) (s : State) (c : Nat) : Bool := (r.home.map (fun h => s.shut h.2 h.1 (dieOf c))).getD false

/-- The oldest response of command `j` of a queue is written; a failed one raises COPY_ACCESS at its element. -/
def respond (c : Nat) (k : StrandIx) (j : Nat) (s : State) : State :=
  let x := s.core c
  if !x.alive then s else
  match (if k = .l then x.lq else x.wq)[j]? with
  | none => s
  | some q => match q.out with
    | [] => s
    | r :: _ => if r.held s c then s else match r.bad with
      | none => applyResp s c q
      | some va => cmdFault s (applyResp s c q) c { q with sent := min q.sent r.e } 0x14 va

def execCopyResponse (s : State) : Result := turnEvent (fun c k j s => respond c k j s) s

/-- A multicast whose data has all arrived reaches one of its destinations (R235): data, valid bits and a KIND 0x02 event. -/
def deliver (c d : Nat) (s : State) : State :=
  let x := s.core c
  if !x.alive then s else
  match x.lq.find? (fun q => isMulticast q.img && q.sent ≥ q.n && q.out.isEmpty && q.mleft.contains d) with
  | none => s
  | some q =>
    match castTo s c d q with
    | (s, false) => castServed s c q.ord d false
    | (t, true) => if !(s.core d).evRoom then s else (castServed t c q.ord d true).postEv d 1 (castRec c q)

def execMulticastDelivery (core dest : Nat) (s : State) : Result := event (deliver core dest) s

/-- Whether every write of a command has been performed at its home port. -/
def State.cmdWritten (s : State) (c ord : Nat) : Bool :=
  let mine (wr : Writer) : Bool := wr.kind == 1 && wr.ofCore c && wr.ord == ord
  s.wire.all (fun f => !((f.writer.map mine).getD false)) && s.hostOut.all (fun e => !mine e.wr)

/-- Whether every effect of the head command has taken place, R234, R235, R237. -/
def cmdDone (s : State) (c : Nat) (q : CpCmd) : Bool :=
  let x := s.core c
  q.sent ≥ q.n && q.out.isEmpty && q.mleft.isEmpty && !x.acc.any (·.ord == q.ord) && s.cmdWritten c q.ord && !isSeam q.img
    && (match q.img with
      | .cpdrainBoth .. => !((if q.k = .l then x.wq else x.lq).any (fun p => p.ord < q.ord && !isSeam p.img))
      | _ => true)

/-- EV of a copy word. -/
def evOf : Instr → Bool
  | .cpld _ _ _ _ ev | .cpst _ _ _ _ ev | .cpldm _ _ _ _ ev | .cpgat _ _ _ _ ev | .cpsca _ _ _ _ ev | .cpaccAdd _ _ _ _ ev
  | .cpaccMin _ _ _ _ ev | .cpaccMax _ _ _ _ ev | .cpaccAnd _ _ _ _ ev | .cpaccOr _ _ _ _ ev | .cpaccXor _ _ _ _ ev
  | .cpaccXchg _ _ _ _ ev | .cpaccCas _ _ _ _ ev | .cpfill _ _ _ ev | .cpfillScr _ _ _ ev | .cpres _ _ _ ev | .cpreg _ _ _ ev
  | .cpsig _ _ ev _ | .cptag _ _ _ _ ev | .cpdrain _ ev | .cpdrainBoth _ ev => ev
  | _ => false

def dropCmd (x : Core) (ord : Nat) : Core :=
  { x with lq := x.lq.filter (·.ord != ord), wq := x.wq.filter (·.ord != ord), stage := if x.stage = some ord then none else x.stage }

/-- The head command of a queue completes: its gives, its event, its tag entry (R232, R234); a refusal kept with it is
raised instead, without gives and event, and the command leaves when that stop is taken (R239, R301, spec/06 R123); refused destinations are raised after it (R235). -/
def complete (c : Nat) (k : StrandIx) (s : State) : State :=
  let x := s.core c
  if !x.alive then s else
  match (if k = .l then x.lq else x.wq) with
  | [] => s
  | q :: _ =>
    if !cmdDone s c q then s else
    match q.port with
    | some (code, va) =>
      if (s.str c q.k).running then s.raiseOp c q.k code va
      else cmdFault s s c q code va
    | none =>
      let t := (annOf (parcel0 q.img)).t
      let gs := givesOf q.k (t.getLsbD 1) (t.getLsbD 0)
      let posts := (if evOf q.img then 1 else 0) + (if q.mbad ≠ 0 && !(s.str c q.k).running then 1 else 0)
      if !gs.all x.room || x.evCount + posts > 64 then s else
      let tag (x : Core) : Core := match q.img with
        | .cptag .. => tagWrite x 0 (some q.sreg.toNat) (some q.greg)
        | _ => x
      let s := s.mapCore c (fun x => tag ((dropCmd x q.ord).give gs))
      let op := ((parcel0 q.img).extractLsb' 18 7).toNat
      let s := s.postCore c q.k 4 (min (s.clock - q.since) (2 ^ 32 - 1)) (op + q.seq % 2 ^ 16 * 2 ^ 8) q.parts
      let s := if evOf q.img then s.postEv c 0 (evRec 1 q.k (q.seq % 2 ^ 16 + op * 2 ^ 16
        + q.cas % 2 ^ 24 * 2 ^ 24)) else s
      if q.mbad = 0 then s else cmdFault s s c q 0x15 (q.mbad.setWidth 64)

def execCopyComplete (s : State) : Result := turnEvent (fun c k _ s => complete c k s) s

/-- Two seams at the heads of both queues leave together, spec/07 R166. -/
def releaseSeams (c : Nat) (s : State) : State :=
  let x := s.core c
  if !x.alive then s else
  match x.lq, x.wq with
  | a :: l, b :: w => if isSeam a.img && isSeam b.img then s.mapCore c (fun x => { x with lq := l, wq := w }) else s
  | _, _ => s

def execSeamRelease (s : State) : Result := turnEvent (fun c _ _ s => releaseSeams c s) s

/-! ### At the home ports, R237 to R239 -/

/-- The oldest request of a core is applied if it is of the kind that the event names and may be. -/
def applyIf (p : Instr → Bool) (c : Nat) (s : State) : State :=
  match (s.core c).acc with
  | r :: _ => if p r.img && accReady s c r then applyOldest s c else s
  | [] => s

def execAccumulateOnWrite (s : State) : Result :=
  turnEvent (fun c _ _ s => applyIf (fun i => match i with | .cpres .. | .cpreg .. => false | _ => true) c s) s
def execFutureResolve (s : State) : Result :=
  turnEvent (fun c _ _ s => applyIf (fun i => match i with | .cpres .. => true | _ => false) c s) s
def execFutureRegister (s : State) : Result :=
  turnEvent (fun c _ _ s => applyIf (fun i => match i with | .cpreg .. => true | _ => false) c s) s

end Sys2Proof.Machine
end

