-- ==== Sys2Proof/Machine/Scalar.lean ====
section
/-!
DEFINITION. The scalar words (spec/04): integer arithmetic, immediates, constants, jumps, branches and loops, and the
values they compute.
-/

namespace Sys2Proof.Machine

/-! ### Values, R82 to R91 -/

/-- Sx32: the low half, sign-extended. -/
def sx32 (x : Word) : Word := (x.extractLsb' 0 32).signExtend 64

/-- A `.w` form computes on the low halves and sign-extends. -/
def byWidth (w : Bool) (full : Word) (half : BitVec 32) : Word := if w then half.signExtend 64 else full
def lo32 (x : Word) : BitVec 32 := x.extractLsb' 0 32

def addV (w : Bool) (a b : Word) : Word := byWidth w (a + b) (lo32 a + lo32 b)
def subV (w : Bool) (a b : Word) : Word := byWidth w (a - b) (lo32 a - lo32 b)
def andV (w : Bool) (a b : Word) : Word := byWidth w (a &&& b) (lo32 a &&& lo32 b)
def orV (w : Bool) (a b : Word) : Word := byWidth w (a ||| b) (lo32 a ||| lo32 b)
def xorV (w : Bool) (a b : Word) : Word := byWidth w (a ^^^ b) (lo32 a ^^^ lo32 b)

/-- The shift amount: b[5:0], or b[4:0] in the `.w` form. -/
def shamt (w : Bool) (b : Word) : Nat := if w then b.toNat % 32 else b.toNat % 64
def shlV (w : Bool) (a : Word) (n : Nat) : Word := byWidth w (a <<< n) (lo32 a <<< n)
def shrV (w : Bool) (a : Word) (n : Nat) : Word := byWidth w (a >>> n) (lo32 a >>> n)
def sraV (w : Bool) (a : Word) (n : Nat) : Word := byWidth w (a.sshiftRight n) ((lo32 a).sshiftRight n)
def mulV (w : Bool) (a b : Word) : Word := byWidth w (a * b) (lo32 a * lo32 b)

/-- A register read signed (.s) or unsigned (.n). -/
def sOrN (n : Bool) (a : Word) : Int := if n then a.toNat else a.toInt
def mulhV (n : Bool) (a b : Word) : Word := toWord (sOrN n a * sOrN n b / 2 ^ 64)
def minV (n : Bool) (a b : Word) : Word := toWord (min (sOrN n a) (sOrN n b))
def maxV (n : Bool) (a b : Word) : Word := toWord (max (sOrN n a) (sOrN n b))
def sltV (n : Bool) (a b : Word) : Word := if sOrN n a < sOrN n b then 1 else 0

/-- Division with truncation toward zero, R84. -/
def divV (n : Bool) (a b : Word) : Word := toWord ((sOrN n a).tdiv (sOrN n b))
def remV (n : Bool) (a b : Word) : Word := toWord ((sOrN n a).tmod (sOrN n b))

def seqV (a b : Word) : Word := if a = b then 1 else 0
def sneV (a b : Word) : Word := if a = b then 0 else 1
/-- csel.nz and csel.lz: the old gd is the condition. -/
def cselV (lz : Bool) (old a b : Word) : Word := if (if lz then old.getLsbD 63 else old != 0) then a else b

/-- Leading zeros among the low `n` bits. -/
def clzN (x : Nat) : Nat → Nat
  | 0 => 0
  | n + 1 => if x.testBit n then 0 else clzN x n + 1
/-- Trailing zeros from bit `i` among `n` bits. -/
def ctzN (x i : Nat) : Nat → Nat
  | 0 => 0
  | n + 1 => if x.testBit i then 0 else ctzN x (i + 1) n + 1
def popN (x : Nat) : Nat → Nat
  | 0 => 0
  | n + 1 => (if x.testBit n then 1 else 0) + popN x n

def bitWidth (w : Bool) : Nat := if w then 32 else 64
def clzV (w : Bool) (a : Word) : Word := BitVec.ofNat 64 (clzN a.toNat (bitWidth w))
def ctzV (w : Bool) (a : Word) : Word := BitVec.ofNat 64 (ctzN a.toNat 0 (bitWidth w))
def popcV (w : Bool) (a : Word) : Word := BitVec.ofNat 64 (popN a.toNat (bitWidth w))
def bswapV (w : Bool) (a : Word) : Word :=
  byWidth w (BitVec.ofNat 64 (leNat (wordBytes 8 a).reverse)) (BitVec.ofNat 32 (leNat (wordBytes 4 a).reverse))

def addxV (sh : BitVec 3) (a b : Word) : Word := a + (b <<< sh.toNat)

/-- Position and effective width of a bit field, R88. -/
def fieldPos (b : Word) : Nat := b.toNat % 64
def fieldWidth (b : Word) : Nat := min (min (b.toNat / 64 % 128) 64) (64 - fieldPos b)
def extV (sg : Bool) (a b : Word) : Word :=
  let w := fieldWidth b
  let v := a.toNat / 2 ^ fieldPos b % 2 ^ w
  if w = 0 then 0 else if sg then toWord (swrap v w) else BitVec.ofNat 64 v
def insV (old a b : Word) : Word :=
  let mask : Word := BitVec.ofNat 64 (2 ^ fieldWidth b - 1) <<< fieldPos b
  (old &&& ~~~mask) ||| ((a <<< fieldPos b) &&& mask)

/-- Immediates, R89. -/
def simm (i : BitVec 8) : Word := i.signExtend 64
def uimm (i : BitVec 8) : Word := i.setWidth 64
def liV (i : BitVec 13) : Word := i.signExtend 64
def lisV (old : Word) (i : BitVec 13) : Word := (old <<< 13) ||| i.setWidth 64

/-- A target: the word's address plus four times an offset (R91, R92). -/
def offset {n : Nat} (pc : Word) (o : BitVec n) : Word := pc + (o.signExtend 64 <<< 2)

/-! ### Shared bodies -/

/-- Information of a word that reads `rs` and writes `d`. -/
def regInfo (n : Ann) (d : Reg) (rs : List Reg) : Info := { y := n.y, t := n.t, reads := rs, dst := [d] }

/-- A result of latency 1. -/
def aluBody (d : Reg) (v : (Reg → Word) → Word) (c : Nat) (k : StrandIx) (s : State) : Act :=
  .go (s.put c k d (v (s.rd c k))) .fall

/-- A result of latency 3 with its operands recorded (spec/06 R134). -/
def mulBody (i : Instr) (d a b : Reg) (v : Word → Word → Word) (c : Nat) (k : StrandIx) (s : State) : Act :=
  .go (s.land c k i d [v (s.rd c k a) (s.rd c k b)] 3 (s.rd c k a) (s.rd c k b) 0) .fall

/-- An interlocked division, R84. -/
def divBody (i : Instr) (d a b : Reg) (c : Nat) (k : StrandIx) (s : State) : Act :=
  if s.rd c k b = 0 then .fault s 0x09 (s.rd c k a)
  else .go (s.ilock c k i d false none (s.rd c k a) (s.rd c k b) 0) .fall

/-- Whether a transfer target is refused, R93, R144: not aligned, not canonical, or 0 in S. -/
def badTarget (k : StrandIx) (t : Word) : Bool := !parcelAligned t || !canonical t || (k = .s && t = 0)

/-- A taken transfer. -/
def jumpTo (k : StrandIx) (s : State) (t : Word) (waits : Nat) (jr : Bool) : Act :=
  if badTarget k t then .fault s 0x07 t else .go s (.jump t waits jr)

/-- A branch, R92. -/
def branchBody (a : Reg) (o : BitVec 13) (cond : Word → Bool) (c : Nat) (k : StrandIx) (s : State) : Act :=
  if cond (s.rd c k a) then jumpTo k s (offset (s.str c k).pc o) 1 false else .go s .fall

def branchInfo (n : Ann) (a : Reg) : Info := { y := n.y, t := n.t, reads := [a] }

/-- Arm a loop, R96. -/
def Strand.arm (t : Strand) (lp : Bool) (ls le : Word) (c : BitVec 32) : Strand :=
  if lp then { t with ls1 := ls, le1 := le, lc1 := c } else { t with ls0 := ls, le0 := le, lc0 := c }

/-- A loop word with its count, R96. -/
def loopBody (lp : Bool) (e : BitVec 9) (count : (Reg → Word) → Nat) (c : Nat) (k : StrandIx) (s : State) : Act :=
  let pc := (s.str c k).pc
  let le := pc + (e.setWidth 64 <<< 2)
  let n := count (s.rd c k)
  let s := s.mapStr c k (·.arm lp (pc + 4) le (BitVec.ofNat 32 n))
  .go s (if n = 0 then .skip le else .fall)

/-! ### Meanings -/

def execNop (n : Ann) (s : State) : Result := issue (.nop n) { y := n.y, t := n.t } (fun _ _ s => .go s .fall) s

def execAdd (n : Ann) (d a b : Reg) (w : Bool) (s : State) : Result :=
  issue (.add n d a b w) (regInfo n d [a, b]) (aluBody d (fun r => addV w (r a) (r b))) s
def execSub (n : Ann) (d a b : Reg) (w : Bool) (s : State) : Result :=
  issue (.sub n d a b w) (regInfo n d [a, b]) (aluBody d (fun r => subV w (r a) (r b))) s
def execAnd (n : Ann) (d a b : Reg) (w : Bool) (s : State) : Result :=
  issue (.and n d a b w) (regInfo n d [a, b]) (aluBody d (fun r => andV w (r a) (r b))) s
def execOr (n : Ann) (d a b : Reg) (w : Bool) (s : State) : Result :=
  issue (.or n d a b w) (regInfo n d [a, b]) (aluBody d (fun r => orV w (r a) (r b))) s
def execXor (n : Ann) (d a b : Reg) (w : Bool) (s : State) : Result :=
  issue (.xor n d a b w) (regInfo n d [a, b]) (aluBody d (fun r => xorV w (r a) (r b))) s
def execShl (n : Ann) (d a b : Reg) (w : Bool) (s : State) : Result :=
  issue (.shl n d a b w) (regInfo n d [a, b]) (aluBody d (fun r => shlV w (r a) (shamt w (r b)))) s
def execShr (n : Ann) (d a b : Reg) (w : Bool) (s : State) : Result :=
  issue (.shr n d a b w) (regInfo n d [a, b]) (aluBody d (fun r => shrV w (r a) (shamt w (r b)))) s
def execSra (n : Ann) (d a b : Reg) (w : Bool) (s : State) : Result :=
  issue (.sra n d a b w) (regInfo n d [a, b]) (aluBody d (fun r => sraV w (r a) (shamt w (r b)))) s
def execMul (n : Ann) (d a b : Reg) (w : Bool) (s : State) : Result :=
  issue (.mul n d a b w) { regInfo n d [a, b] with recs := true } (mulBody (.mul n d a b w) d a b (mulV w)) s
def execMulh (n : Ann) (d a b : Reg) (u : Bool) (s : State) : Result :=
  issue (.mulh n d a b u) { regInfo n d [a, b] with recs := true } (mulBody (.mulh n d a b u) d a b (mulhV u)) s
def execDiv (n : Ann) (d a b : Reg) (u : Bool) (s : State) : Result :=
  issue (.div n d a b u) { regInfo n d [a, b] with il := true, recs := true } (divBody (.div n d a b u) d a b) s
def execRem (n : Ann) (d a b : Reg) (u : Bool) (s : State) : Result :=
  issue (.rem n d a b u) { regInfo n d [a, b] with il := true, recs := true } (divBody (.rem n d a b u) d a b) s
def execMin (n : Ann) (d a b : Reg) (u : Bool) (s : State) : Result :=
  issue (.min n d a b u) (regInfo n d [a, b]) (aluBody d (fun r => minV u (r a) (r b))) s
def execMax (n : Ann) (d a b : Reg) (u : Bool) (s : State) : Result :=
  issue (.max n d a b u) (regInfo n d [a, b]) (aluBody d (fun r => maxV u (r a) (r b))) s
def execSlt (n : Ann) (d a b : Reg) (u : Bool) (s : State) : Result :=
  issue (.slt n d a b u) (regInfo n d [a, b]) (aluBody d (fun r => sltV u (r a) (r b))) s
def execSeq (n : Ann) (d a b : Reg) (s : State) : Result :=
  issue (.seq n d a b) (regInfo n d [a, b]) (aluBody d (fun r => seqV (r a) (r b))) s
def execSne (n : Ann) (d a b : Reg) (s : State) : Result :=
  issue (.sne n d a b) (regInfo n d [a, b]) (aluBody d (fun r => sneV (r a) (r b))) s
def execCsel (n : Ann) (d a b : Reg) (z : Bool) (s : State) : Result :=
  issue (.csel n d a b z) (regInfo n d [d, a, b]) (aluBody d (fun r => cselV z (r d) (r a) (r b))) s
def execClz (n : Ann) (d a : Reg) (w : Bool) (s : State) : Result :=
  issue (.clz n d a w) (regInfo n d [a]) (aluBody d (fun r => clzV w (r a))) s
def execCtz (n : Ann) (d a : Reg) (w : Bool) (s : State) : Result :=
  issue (.ctz n d a w) (regInfo n d [a]) (aluBody d (fun r => ctzV w (r a))) s
def execPopc (n : Ann) (d a : Reg) (w : Bool) (s : State) : Result :=
  issue (.popc n d a w) (regInfo n d [a]) (aluBody d (fun r => popcV w (r a))) s
def execBswap (n : Ann) (d a : Reg) (w : Bool) (s : State) : Result :=
  issue (.bswap n d a w) (regInfo n d [a]) (aluBody d (fun r => bswapV w (r a))) s
def execAddx (n : Ann) (d a b : Reg) (sh : BitVec 3) (s : State) : Result :=
  issue (.addx n d a b sh) (regInfo n d [a, b]) (aluBody d (fun r => addxV sh (r a) (r b))) s
def execExt (n : Ann) (d a b : Reg) (sg : Bool) (s : State) : Result :=
  issue (.ext n d a b sg) (regInfo n d [a, b]) (aluBody d (fun r => extV sg (r a) (r b))) s
def execIns (n : Ann) (d a b : Reg) (s : State) : Result :=
  issue (.ins n d a b) (regInfo n d [d, a, b]) (aluBody d (fun r => insV (r d) (r a) (r b))) s
def execAddi (n : Ann) (d a : Reg) (i : BitVec 8) (s : State) : Result :=
  issue (.addi n d a i) (regInfo n d [a]) (aluBody d (fun r => addV false (r a) (simm i))) s
def execAndi (n : Ann) (d a : Reg) (i : BitVec 8) (s : State) : Result :=
  issue (.andi n d a i) (regInfo n d [a]) (aluBody d (fun r => andV false (r a) (simm i))) s
def execOri (n : Ann) (d a : Reg) (i : BitVec 8) (s : State) : Result :=
  issue (.ori n d a i) (regInfo n d [a]) (aluBody d (fun r => orV false (r a) (uimm i))) s
def execXori (n : Ann) (d a : Reg) (i : BitVec 8) (s : State) : Result :=
  issue (.xori n d a i) (regInfo n d [a]) (aluBody d (fun r => xorV false (r a) (uimm i))) s
def execShli (n : Ann) (d a : Reg) (w : Bool) (sh : BitVec 6) (s : State) : Result :=
  issue (.shli n d a w sh) (regInfo n d [a]) (aluBody d (fun r => shlV w (r a) sh.toNat)) s
def execShri (n : Ann) (d a : Reg) (w : Bool) (sh : BitVec 6) (s : State) : Result :=
  issue (.shri n d a w sh) (regInfo n d [a]) (aluBody d (fun r => shrV w (r a) sh.toNat)) s
def execSrai (n : Ann) (d a : Reg) (w : Bool) (sh : BitVec 6) (s : State) : Result :=
  issue (.srai n d a w sh) (regInfo n d [a]) (aluBody d (fun r => sraV w (r a) sh.toNat)) s
def execSlti (n : Ann) (d a : Reg) (i : BitVec 8) (s : State) : Result :=
  issue (.slti n d a i) (regInfo n d [a]) (aluBody d (fun r => sltV false (r a) (simm i))) s
def execLi (n : Ann) (d : Reg) (i : BitVec 13) (s : State) : Result :=
  issue (.li n d i) (regInfo n d []) (aluBody d (fun _ => liV i)) s
def execLis (n : Ann) (d : Reg) (i : BitVec 13) (s : State) : Result :=
  issue (.lis n d i) (regInfo n d [d]) (aluBody d (fun r => lisV (r d) i)) s
def execAddpc (n : Ann) (d : Reg) (i : BitVec 13) (s : State) : Result :=
  issue (.addpc n d i) (regInfo n d [])
    (fun c k s => .go (s.put c k d (offset (s.str c k).pc i)) .fall) s
def execJmp (n : Ann) (o : BitVec 18) (s : State) : Result :=
  issue (.jmp n o) { y := n.y, t := n.t } (fun c k s => jumpTo k s (offset (s.str c k).pc o) 1 false) s
def execCall (n : Ann) (o : BitVec 18) (s : State) : Result :=
  issue (.call n o) (regInfo n 31 []) (fun c k s =>
    let pc := (s.str c k).pc
    if badTarget k (offset pc o) then .fault s 0x07 (offset pc o)
    else .go (s.put c k 31 (pc + 4)) (.jump (offset pc o) 1 false)) s
def execJr (n : Ann) (a : Reg) (s : State) : Result :=
  issue (.jr n a) (branchInfo n a) (fun c k s => jumpTo k s (s.rd c k a) 2 true) s
def execBz (n : Ann) (a : Reg) (o : BitVec 13) (s : State) : Result :=
  issue (.bz n a o) (branchInfo n a) (branchBody a o (fun v => v == 0)) s
def execBnz (n : Ann) (a : Reg) (o : BitVec 13) (s : State) : Result :=
  issue (.bnz n a o) (branchInfo n a) (branchBody a o (fun v => v != 0)) s
def execBltz (n : Ann) (a : Reg) (o : BitVec 13) (s : State) : Result :=
  issue (.bltz n a o) (branchInfo n a) (branchBody a o (fun v => v.getLsbD 63)) s
def execBgez (n : Ann) (a : Reg) (o : BitVec 13) (s : State) : Result :=
  issue (.bgez n a o) (branchInfo n a) (branchBody a o (fun v => !v.getLsbD 63)) s
def execLoop (n : Ann) (lp : Bool) (c : Reg) (e : BitVec 9) (s : State) : Result :=
  issue (.loop n lp c e) (branchInfo n c) (loopBody lp e (fun r => min (r c).toNat (2 ^ 32 - 1))) s
def execLoopi (n : Ann) (lp : Bool) (k : BitVec 8) (e : BitVec 9) (s : State) : Result :=
  issue (.loopi n lp k e) { y := n.y, t := n.t } (loopBody lp e (fun _ => k.toNat)) s

/-- A word that decodes to nothing: ILLEGAL_WORD with the reason of R48, R36. -/
def execUnassignedWord (p0 : BitVec 32) (r : BitVec 3) (s : State) : Result :=
  issue (.unassignedWord p0 r) { y := (annOf p0).y, t := (annOf p0).t } (fun _ _ s => .go s .fall) s

end Sys2Proof.Machine
end

