-- ==== Sys2Proof/Machine/SetWords.lean ====
section
/-!
DEFINITION. The words of atomic sets (spec/14 R280 to R282, R295, R296) and the request and grant events of R287.
-/

namespace Sys2Proof.Machine

/-- The home dies of the 64 KiB blocks of a declaration, in increasing address (R281): the dies, a fault, or a wait. -/
def declHomes (c u vf : Nat) : Nat → State → Word → State × Except (Option (Nat × Word)) (List (Option Nat))
  | 0, s, _ => (s, .ok [])
  | n + 1, s, va =>
    match translate s c u vf va .read with
    | (s, .fault fw r) => (s.logAf (dieOf c) vf ⟨va, c, .read, r⟩, .error (some (if fw then 0x39 else 0x0C, va)))
    | (s, .ok pa) =>
      if s.refused (dieOf c) pa then
        ((s.deny (dieOf c) vf pa).logAf (dieOf c) vf ⟨va, c, .read, 10⟩, .error (some (0x39, va)))
      else
      let h : Option Nat := match homeOf pa with
        | .hbm st => some (st / 2)
        | .sdm d => some d
        | _ => none
      match declHomes c u vf n s (BitVec.ofNat 64 ((va.toNat / 2 ^ 16 + 1) * 2 ^ 16)) with
      | (s, .ok hs) => (s, .ok (h :: hs))
      | r => r
    | (s, _) => (s, .error none)

def blocksOf (x : Word) (n : Nat) : Nat := (x.toNat % 2 ^ 16 + n - 1) / 2 ^ 16 + 1

/-- The one home of a range, R281 reason 5. -/
def oneHome : List (Option Nat) → Option Nat
  | some h :: t => if t.all (· == some h) then some h else none
  | _ => none

/-- The valid entries of a function's set table. -/
def setList (v : Vf) : List (Nat × SetEnt) := v.sets.filterMap (fun e => e.2.map (fun x => (e.1, x)))

def setNamed (v : Vf) (id : Word) : Option (Nat × SetEnt) := (setList v).find? (fun e => e.2.id == id)

/-- The table step of a declaration: the reason it fails, or the table with the set (R281, R282). -/
def declare (v : Vf) (id x : Word) (n h : Nat) : Except Nat Vf :=
  match setNamed v id with
  | some (_, e) => if e.base = x && e.len = n then .ok v else .error 2
  | none =>
    if (setList v).any (fun e => x.toNat < e.2.base.toNat + e.2.len && e.2.base.toNat < x.toNat + n) then .error 3
    else match (List.range 256).find? (fun i => (Tab.get none v.sets i).isNone) with
      | none => .error 1
      | some i => .ok { v with sets := Tab.set none v.sets i (some { id := id, base := x, len := n, home := h }) }

def tableFull (s : State) (r : Nat) : Act := .fault s 0x21 (BitVec.ofNat 64 r)

def declBody (d a b : Reg) (c : Nat) (k : StrandIx) (s : State) : Act :=
  let id := s.rd c k d
  let x := s.rd c k a
  let n := (s.rd c k b).toNat
  let vf := (s.ctx c).vf
  if !canonical x || x.toNat % 16 ≠ 0 then .fault s 0x07 x
  else if n = 0 || n % 16 ≠ 0 || n > 2 ^ 32 then tableFull s 5
  else if x.toNat + n > 2 ^ 64 || !canonical (x + BitVec.ofNat 64 (n - 1)) then .fault s 0x07 (x + BitVec.ofNat 64 (n - 1))
  else match declHomes c (unitHead k) vf (blocksOf x n) s x with
    | (s, .error none) => .wait s
    | (s, .error (some (code, va))) => .fault s code va
    | (s, .ok hs) => match oneHome hs with
      | none => tableFull s 5
      | some h =>
        if !s.sysReleased c k then .wait s else
        match declare (s.vf vf) id x n h with
        | .error r => tableFull s r
        | .ok v => .go (s.mapVf vf (fun _ => v)) .fall

def removeBody (d : Reg) (c : Nat) (k : StrandIx) (s : State) : Act :=
  let vf := (s.ctx c).vf
  match setNamed (s.vf vf) (s.rd c k d) with
  | none => .go s .fall
  | some (ix, e) =>
    if e.st = .free then .go (s.putEnt vf ix none) .fall
    else if e.holder = (s.ctx c).task then tableFull s 4
    else .wait s

/-- Words of S that need the feature ASETS. -/
def setInfo (y : Bool) : Info := { y := y, who := 1, feat := [(8, 2)] }

def execAsdecl (y : Bool) (d a b : Reg) (s : State) : Result :=
  issue (.asdecl y d a b) { setInfo y with reads := [d, a, b], gm := true } (declBody d a b) s
def execAsdeclRm (y : Bool) (d : Reg) (s : State) : Result :=
  issue (.asdeclRm y d) { setInfo y with reads := [d] } (removeBody d) s

/-- asabort, R295: the restart of the task follows as a step of its own; the set index names no set. -/
def execAsabort (y : Bool) (s : State) : Result :=
  issue (.asabort y) (setInfo y) (fun c _ s =>
    let x := s.ctx c
    .go ((s.markSets x.vf x.task .wounding).mapCore c (fun z => { z with restart := z.restart.or (some (c, 2 ^ 32 - 1)) })) .fall) s

/-- asstat at issue: its record holds 0, or the ID for `.set`. -/
def statBody (i : Instr) (d : Reg) (id : Nat → StrandIx → State → Word) (c : Nat) (k : StrandIx) (s : State) : Act :=
  .go (s.ilock c k i d false none (id c k s) 0 0) .fall
def statInfo (y : Bool) (d : Reg) : Info := { setInfo y with dst := [d], il := true, recs := true }

def execAsstatSt (y : Bool) (d : Reg) (s : State) : Result :=
  issue (.asstatSt y d) (statInfo y d) (statBody (.asstatSt y d) d (fun _ _ _ => 0)) s
def execAsstatAge (y : Bool) (d : Reg) (s : State) : Result :=
  issue (.asstatAge y d) (statInfo y d) (statBody (.asstatAge y d) d (fun _ _ _ => 0)) s
def execAsstatSet (y : Bool) (d a : Reg) (s : State) : Result :=
  issue (.asstatSet y d a) { statInfo y d with reads := [a] } (statBody (.asstatSet y d a) d (fun c k s => s.rd c k a)) s

/-- The result of asstat when its query reaches the directory, R296. -/
def statValue (s : State) (c : Nat) (i : Instr) (id : Word) : Word :=
  let x := s.ctx c
  let held := (setList (s.vf x.vf)).filter (fun e => e.2.st ≠ .free && e.2.holder = x.task)
  match i with
  | .asstatSt .. => BitVec.ofNat 64 (held.length + ((s.buf x.task).map (·.gran.length)).getD 0 * 2 ^ 16 + x.restarts * 2 ^ 32)
  | .asstatAge .. => x.stamp
  | _ => match setNamed (s.vf x.vf) id with
    | none => 0
    | some (_, e) => if e.st = .free then 1 else if e.holder = x.task then 2 else 3

/-- A set access of a core reaches the home directory, R285, R287. -/
def execSetRequest (core : Nat) (va : Word) (s : State) : Result :=
  event (fun s =>
    let vf := (s.ctx core).vf
    if !(s.core core).alive then s else
    match s.setOf vf (va &&& ~~~(15#64)) with
    | some (ix, _) => (s.requestSet core vf ix).1
    | none => s) s

/-- The oldest waiter of a set. -/
def oldestWait : List (Nat × Word) → Option (Nat × Word)
  | [] => none
  | w :: t => match oldestWait t with
    | some u => if older u.2 w.2 then some u else some w
    | none => some w

/-- A FREE set is granted to its oldest waiter, as a fresh request of that waiter (R287). -/
def grantSet (vf ix : Nat) (s : State) : State :=
  match s.setEnt vf ix with
  | some e => match e.st, oldestWait e.wait with
    | .free, some w => match coreOfTask s.cores w.1 with
      | some c => (s.requestSet c vf ix).1
      | none => s
    | _, _ => s
  | none => s

def execSetGrant (vf ix : Nat) (s : State) : Result := event (grantSet vf ix) s

end Sys2Proof.Machine
end

