-- ==== Sys2Proof/Machine/Land.lean ====
section
/-!
DEFINITION. The landing of results as events of their own: exposed and interlocked results (spec/01 R19, R23), interlocked
vector groups (R21), and the retirement and the stop of a strand (spec/07 R143, R144).
-/

namespace Sys2Proof.Machine

/-! ### Interlocked results, R23 -/

def dropOp (s : State) (c ord : Nat) (k : StrandIx) : State :=
  s.mapCore c (fun x => { x with ops := x.ops.filter (fun o => !(o.ord == ord && o.k == k)) })

/-- The result lands: its registers are written and its marks cleared. -/
def finishOp (s : State) (c : Nat) (o : Op) (vs : List Word) : State :=
  match o.body with
  | .ilock d _ _ => dropOp (s.mapStr c o.k (fun t => (vs.zip (List.range vs.length)).foldl
      (fun t e => t.setReg (d + BitVec.ofNat 5 e.2) e.1) t)) c o.ord o.k
  | _ => s

/-- A fault of a gld: its record stays for the stop. -/
def gldFault (s : State) (c : Nat) (o : Op) (code : Nat) : State := loseFrom (s.raiseOp c o.k code o.op2) c o.k o.ord

/-- Whether a gld waits for a buffered store (R107) or for an earlier gld of its granule. -/
def gldWaits (x : Core) (o : Op) (n : Nat) : Bool :=
  (o.cnt = 1 && (x.str o.k).sb.any (fun e => e.ord < o.ord && e.overlap o.op2 n != 0))
    || x.ops.any (fun p => p.k == o.k && p.ord < o.ord && (match p.img, p.body with
      | .gld .., .ilock _ _ none => granuleOf p.op2 == granuleOf o.op2
      | _, _ => false))

/-- A gld reads its bytes at the home port, with its set and rollback buffer (R105 to R109, spec/14 R284, R288), behind the writes on
their way that it must see (spec/13 R273, spec/19 R381); its data comes back once no link holds it (R392). One whose bytes are forwarded makes no access, so it is neither translated nor
checked (DESIGN CHOICE, log entry 72: R108 does not say). -/
def landGld (s : State) (c : Nat) (o : Op) (q : Bool) : State :=
  let n := if q then 16 else 8
  match o.body with
  | .ilock _ _ (some bs) => if o.pa.any (s.rspShut (dieOf c)) then s else finishOp s c o (pairOf bs |>.take (n / 8))
  | _ =>
    if gldWaits (s.core c) o n then s else
    let vf := (s.ctx c).vf
    let put (f : Op → Op) (s : State) : State := s.mapCore c (fun x => { x with ops := x.ops.map (fun p => if p.ord == o.ord && p.k == o.k then f p else p) })
    let keep (s : State) (pa : Nat) : State := put (fun p => { p with pa := some pa }) s
    match accessFrom s c (unitOrd o.ord) vf o.op2 .read n false o.pa with
    | (s, .wait) => s
    | (s, .held pa) => keep s pa
    | (s, .fault fw _) => gldFault s c o (if fw then 0x39 else 0x0C)
    | (s, .ok pa) =>
      if s.behind c pa then keep s pa else
      let read (s : State) (b : Option RbBuf) : State :=
        let bs := bufBytes b o.op2 (s.portRead pa n)
        let s := s.noteRead pa n
        if s.rspShut (dieOf c) pa then put (fun p => { p with pa := some pa, body := match p.body with
            | .ilock d q _ => .ilock d q (some bs)
            | x => x }) s
        else finishOp s c o ((pairOf bs).take (n / 8))
      match s.setOf vf (granuleOf o.op2) with
      | none => read s none
      | some (ix, _) => match s.requestSet c vf ix with
        | (s, false) => s
        | (s, true) => read s (s.buf (s.ctx c).task)

/-- The oldest record of the event queue goes to the oldest evpop, R162. -/
def landPop (s : State) (c : Nat) (o : Op) : State :=
  let x := s.core c
  let first := x.ops.all (fun p => match p.img with | .evpop .. => p.ord ≥ o.ord | _ => true)
  match x.evq with
  | r :: t => if first then finishOp (s.mapCore c (fun y => { y with evq := t })) c o [r] else s
  | [] => s

/-- GEN of the barrier as it stands; btests of a strand on one barrier in order (spec/13 R268). -/
def landTest (s : State) (c : Nat) (o : Op) : State :=
  let first := (s.core c).ops.all (fun p => match p.img with | .btest .. => p.ord ≥ o.ord || p.op0.extractLsb' 0 5 != o.op0.extractLsb' 0 5 | _ => true)
  if first then finishOp s c o [((s.barrier c (o.op0.extractLsb' 0 5)).seen s.clock).setWidth 64] else s

/-- Whether a copy command has an element left to send that lies in a set. -/
def cmdInSet (s : State) (vf : Nat) (x : Core) (q : CpCmd) : Bool :=
  q.snap.isSome && (List.range q.n).any (fun e => e ≥ q.sent && (match cmdElem x q e with
    | .va a => (s.setOf vf (a &&& ~~~(15#64))).isSome
    | _ => false))

/-- A set access of the task that is still to be granted and comes before the query, by whichever strand or command, R296
(log entry 24). A replayed asstat comes after every operation that is replayed with it: its `cnt` is the first place after them. -/
def statWaits (s : State) (c : Nat) (o : Op) : Bool :=
  let x := s.core c
  let last := max o.ord o.cnt
  let y := s.ctx c
  (setList (s.vf y.vf)).any (fun e => e.2.wait.any (fun w => w.1 == y.task))
    || allStr.any (fun k => (x.str k).sb.any (fun e => e.lord < last && (s.setOf y.vf e.va).isSome))
    || x.ops.any (fun p => p.ord < last && (match p.img with
        | .gld .. => (s.setOf y.vf (p.op2 &&& ~~~(15#64))).isSome
        | _ => false))
    || (x.lq ++ x.wq).any (fun q => q.ord < last && cmdInSet s y.vf x q)

/-- The interlocked result of operation `j` of a core lands, if it can. -/
def landInterlocked (c : Nat) (j : Nat) (s : State) : State :=
  let x := s.core c
  if !x.alive then s else
  match x.ops[j]? with
  | none => s
  | some o => match o.img with
    | .gld _ _ _ _ _ q => landGld s c o q
    | .div _ _ _ _ u => finishOp s c o [divV u o.op0 o.op1]
    | .rem _ _ _ _ u => finishOp s c o [remV u o.op0 o.op1]
    | .evpop .. => landPop s c o
    | .btest .. => landTest s c o
    | .asstatSt .. | .asstatAge .. | .asstatSet .. => if statWaits s c o then s else finishOp s c o [statValue s c o.img o.op0]
    | _ => s

def execInterlockedResultLands (s : State) : Result := turnEvent (fun c _ j s => landInterlocked c j s) s

/-! ### Interlocked vector groups, R21 -/

/-- An interlocked group is to land: at the end of the clock cycle while a strand of the core still has a turn in it, and else at
once, which is an end of its own. -/
def dueVector (c : Nat) (s : State) : State :=
  if !(s.core c).alive then s
  else if moreTurns c s.agenda then s.mapCore c (fun x => { x with vdue := true })
  else takeStop (landVector c s) c

def execVectorGroupLands (s : State) : Result := turnEvent (fun c _ _ s => dueVector c s) s

/-! ### The end of a strand's clock cycle

Each of these is part of the end of a clock cycle (closeCycle), where it takes place in every run. As an event of its
own it acts on a core no strand of which has issued in the open clock cycle (log entry 2). -/

def Core.closed (x : Core) : Bool := !x.halted && allStr.all (fun k => !(x.str k).issued)

/-- Exposed results that are due land (R19). -/
def execResultLands (s : State) : Result :=
  turnEvent (fun c k _ s => if (s.core c).closed then landStrand s c k else s) s
/-- A word that a give holds retires once its FIFOs have room (spec/07 R143, R145). -/
def execWordRetire (s : State) : Result :=
  turnEvent (fun c k _ s => if (s.core c).closed then s.mapCore c (fun x => retireStrand x k) else s) s
/-- A strand that exits stops once its words have retired (R144, R154). -/
def execStrandStops (s : State) : Result :=
  turnEvent (fun c k _ s => if (s.core c).closed then s.mapCore c (fun x => stopStrand x k) else s) s

end Sys2Proof.Machine
end

