-- ==== Sys2Proof/Machine/Vector.lean ====
section
/-!
DEFINITION. The vector words (spec/08): operands and their checks (R168, R169), groups (R170), the element and reduction
arithmetic (R174 to R182), generator steps (R184), and the 36 meanings.
-/

namespace Sys2Proof.Machine

/-! ### Operands, R168 -/

/-- The stride of a stride code in elements, spec/02 R40. -/
def strideOf (c : BitVec 5) : Int :=
  let n := c.toNat
  if n = 0 then 0 else if n ≤ 16 then 2 ^ (n - 1) else -(2 ^ (n - 17))

/-- An operand as it is addressed: first byte, step in bytes, elements, element size, alignment. -/
structure VArr where
  x0 : Nat
  st : Int
  m  : Nat
  z  : Nat
  al : Nat

def VArr.at' (o : VArr) (j : Nat) : Int := o.x0 + j * o.st

/-- How a word uses its operands. -/
inductive VKind where
  | one | two | three | cvt | red | dot | perm | iota | pack | unpack
deriving DecidableEq, Repr

/-- The use of operands by each word, R172. -/
def vkind : Instr → VKind
  | .vfma _ | .vfms _ | .vsel _ => .three
  | .vabs _ | .vneg _ | .vrecip _ | .vrsqrt _ | .vsqrt _ | .vexp2 _ | .vlog2 _ | .vcopy _ => .one
  | .vcvt _ => .cvt
  | .vredSum _ | .vredMax _ | .vredMin _ => .red
  | .vdot _ => .dot
  | .vperm _ => .perm
  | .viota _ => .iota
  | .vmxpack _ => .pack
  | .vmxunpack _ => .unpack
  | _ => .two

/-- The operands D, A and B of a word with count n and these base values; `none` for one it does not use. -/
structure VLay where
  d : VArr
  a : VArr
  b : Option VArr

def varr (base : Word) (o : VOpd) (m z : Nat) : VArr :=
  { x0 := base.toNat + 16 * o.off.toNat, st := strideOf o.str * z, m := m, z := z, al := z }
def vone (base : Word) (o : VOpd) (z : Nat) : VArr := { x0 := base.toNat + 16 * o.off.toNat, st := 0, m := 1, z := z, al := z }
def vpacked (base : Word) (o : VOpd) (bytes : Nat) : VArr :=
  { x0 := base.toNat + 16 * o.off.toNat, st := 1, m := bytes, z := 1, al := 8 }

/-- Whether a reduction is wide, and the type of its result. -/
def vwide (v : VWord) : Bool := v.d.str == 1
def vresEt (v : VWord) : Nat := if vwide v then (if v.et.toNat ≥ 7 then 9 else 6) else v.et.toNat

def vlay (k : VKind) (v : VWord) (n : Nat) (bd ba bb : Word) : VLay :=
  let z := etSize v.et.toNat
  let d := varr bd v.d n z
  let a := varr ba v.a n z
  match k with
  | .one => ⟨d, a, none⟩
  | .two | .three => ⟨d, a, some (varr bb v.b n z)⟩
  | .cvt => ⟨d, varr ba v.a n (etSize (v.b.str.toNat % 16)), none⟩
  | .red => ⟨vone bd v.d (etSize (vresEt v)), a, none⟩
  | .dot => ⟨vone bd v.d (etSize (vresEt v)), a, some (varr bb v.b n z)⟩
  | .perm => ⟨d, a, some (varr bb v.b n 4)⟩
  | .iota => ⟨d, vone ba v.a z, some (vone bb v.b z)⟩
  | .pack => ⟨vpacked bd v.d (n * mxfW v.d.str / 8), a, some (varr bb v.b (n / 32) 1)⟩
  | .unpack => ⟨d, vpacked ba v.a (n * mxfW v.a.str / 8), some (varr bb v.b (n / 32) 1)⟩

/-- The checks of one operand, R169. -/
def VArr.check (o : VArr) (scrsize : Nat) : Option (Nat × Word) :=
  match (List.range o.m).find? (fun j => o.at' j < 0 || o.at' j + o.z > scrsize) with
  | some j => some (0x06, toWord (o.at' j))
  | none => if o.x0 % o.al ≠ 0 then some (0x07, BitVec.ofNat 64 o.x0) else none

def VLay.check (l : VLay) (scrsize : Nat) : Option (Nat × Word) :=
  (l.d.check scrsize).or ((l.a.check scrsize).or (l.b.bind (·.check scrsize)))

/-- Whether an operand meets bytes that an interlocked group or a matrix word holds back (spec/01 R21, spec/09 R200). -/
def VArr.held (x : Core) (o : VArr) (wr : Bool) : Bool :=
  (x.vbusy || !x.mxq.isEmpty) && (List.range o.m).any (fun j =>
    if wr then x.writeHeld .c (o.at' j).toNat o.z else x.readHeld .c (o.at' j).toNat o.z)
def VLay.held (l : VLay) (x : Core) (k : VKind) : Bool :=
  l.d.held x true || l.a.held x false || (match l.b with | some b => b.held x (k == .pack) | none => false)

/-- The size of a group in elements, R170: by the widest element operand, a reduction's result among them (log entry 31). -/
def vgroup (k : VKind) (v : VWord) : Nat :=
  let z := etSize v.et.toNat
  let w := match k with
    | .cvt => max z (etSize (v.b.str.toNat % 16))
    | .perm => max z 4
    | .red | .dot => max z (etSize (vresEt v))
    | _ => z
  match w with
  | 1 => 256 | 2 => 128 | 4 => 64 | _ => 16

/-! ### Element arithmetic -/

/-- An element read as a float under R56, and whether it is a signalling NaN. -/
def rdF (et : Nat) (ftz : Bool) (x : Nat) : Fv × Bool := readF (fmtOf et) ftz x

/-- An integer result saturated to its type. -/
def satE (et : Nat) (x : Int) : Nat := wrapN (satW (et % 2 == 0) (8 * etSize et) x) (8 * etSize et)

/-- A rounded value with NV raised when `nv`. -/
def rndF (et mode r : Nat) (ftz : Bool) (x : Fv) (nv : Bool) : Nat × Flags :=
  let y := roundFv (fmtOf et) mode r ftz x
  (y.1, y.2 ||| flIf nv flNV)

/-- a · b + d or a · b − d, rounded once, R174. -/
def fmaE (et mode r : Nat) (ftz sub : Bool) (a b d : Nat) : Nat × Flags :=
  if et ≤ 6 then
    let p := etInt' et a * etInt' et b
    (satE et (if sub then p - etInt' et d else p + etInt' et d), 0)
  else
    let (x, sx) := rdF et ftz a
    let (y, sy) := rdF et ftz b
    let (w, sw) := rdF et ftz d
    let (p, i1) := mulFv x y
    let (q, i2) := addFv mode p (if sub then negFv w else w)
    rndF et mode r ftz q (sx || sy || sw || i1 || i2)

def addE (et mode r : Nat) (ftz sub : Bool) (a b : Nat) : Nat × Flags :=
  if et ≤ 6 then (satE et (if sub then etInt' et a - etInt' et b else etInt' et a + etInt' et b), 0)
  else
    let (x, sx) := rdF et ftz a
    let (y, sy) := rdF et ftz b
    let (q, i) := addFv mode x (if sub then negFv y else y)
    rndF et mode r ftz q (sx || sy || i)

def mulE (et mode r : Nat) (ftz : Bool) (a b : Nat) : Nat × Flags :=
  if et ≤ 6 then (satE et (etInt' et a * etInt' et b), 0)
  else
    let (x, sx) := rdF et ftz a
    let (y, sy) := rdF et ftz b
    let (q, i) := mulFv x y
    rndF et mode r ftz q (sx || sy || i)

/-- vmin and vmax, R175. -/
def minMaxE (et : Nat) (isMax ftz : Bool) (a b : Nat) : Nat × Flags :=
  if et ≤ 6 then
    let x := etInt' et a
    let y := etInt' et b
    (wrapN (if isMax then max x y else min x y) (8 * etSize et), 0)
  else minMaxF (fmtOf et) isMax ftz a b

/-- vabs and vneg, R175. -/
def absNegE (et : Nat) (neg ftz : Bool) (a : Nat) : Nat × Flags :=
  if et ≤ 6 then (satE et (if neg then -etInt' et a else (etInt' et a).natAbs), 0)
  else
    let x := (rdF et ftz a).1
    let y := if neg then negFv x else match x with
      | .inf _ => .inf false
      | .num _ m e => .num false m e
      | .nan => .nan
    ((roundFv (fmtOf et) 1 0 false y).1, 0)

/-- The shifts, R176. -/
def shlE (w a c : Nat) : Nat := if c ≥ w then 0 else a * 2 ^ c % 2 ^ w
def shrE (w a c : Nat) : Nat := if c ≥ w then 0 else a / 2 ^ c
def sraE (w a c : Nat) : Nat := wrapN (swrap a w / 2 ^ (min c (w - 1))) w

/-- The compares, R177: 0 eq, 1 lt, 2 le. -/
def cmpE (et op : Nat) (ftz : Bool) (a b : Nat) : Nat × Flags :=
  let ones := 2 ^ (8 * etSize et) - 1
  if et ≤ 6 then
    let x := etInt' et a
    let y := etInt' et b
    (if (match op with | 0 => x == y | 1 => decide (x < y) | _ => decide (x ≤ y)) then ones else 0, 0)
  else
    let (x, sx) := rdF et ftz a
    let (y, sy) := rdF et ftz b
    let nv := if op = 0 then sx || sy else isNan x || isNan y
    (if (match op with | 0 => eqFv x y | 1 => ltFv x y | _ => ltFv x y || eqFv x y) then ones else 0, flIf nv flNV)

/-- vcvt, R178 by R66. -/
def cvtE (et src mode r : Nat) (ftz : Bool) (a : Nat) : Nat × Flags :=
  if src ≤ 6 then
    let x := etInt' src a
    if et ≤ 6 then (satE et x, 0) else rndF et mode r ftz (ofIntFv x) false
  else
    let (x, sx) := rdF src ftz a
    if et ≤ 6 then
      let y := floatToInt mode r (et % 2 == 0) (8 * etSize et) x
      (wrapN y.1 (8 * etSize et), y.2 ||| flIf sx flNV)
    else rndF et mode r ftz x sx

/-- A transcendental, R179. -/
def unE (et fn mode r : Nat) (ftz : Bool) (a : Nat) : Nat × Flags :=
  let (x, sx) := rdF et ftz a
  let y := unaryF (fmtOf et) fn mode r ftz x
  (y.1, y.2 ||| flIf sx flNV)

def divE (et mode r : Nat) (ftz : Bool) (a b : Nat) : Nat × Flags :=
  let (x, sx) := rdF et ftz a
  let (y, sy) := rdF et ftz b
  let q := divF (fmtOf et) mode r ftz x y
  (q.1, q.2 ||| flIf (sx || sy) flNV)

/-- Element i of a word with per-element results, R174 to R179, R181. -/
def elemE (i : Instr) (et src mode r : Nat) (ftz : Bool) (a b d : Nat) : Nat × Flags :=
  let w := 8 * etSize et
  match i with
  | .vadd _ => addE et mode r ftz false a b
  | .vsub _ => addE et mode r ftz true a b
  | .vmul _ => mulE et mode r ftz a b
  | .vfma _ => fmaE et mode r ftz false a b d
  | .vfms _ => fmaE et mode r ftz true a b d
  | .vmin _ => minMaxE et false ftz a b
  | .vmax _ => minMaxE et true ftz a b
  | .vabs _ => absNegE et false ftz a
  | .vneg _ => absNegE et true ftz a
  | .vand _ => (a &&& b, 0)
  | .vor _ => (a ||| b, 0)
  | .vxor _ => (a ^^^ b, 0)
  | .vshl _ => (shlE w a b, 0)
  | .vshr _ => (shrE w a b, 0)
  | .vsra _ => (sraE w a b, 0)
  | .vcmpEq _ => cmpE et 0 ftz a b
  | .vcmpLt _ => cmpE et 1 ftz a b
  | .vcmpLe _ => cmpE et 2 ftz a b
  | .vsel _ => (if d ≠ 0 then a else b, 0)
  | .vcvt _ => cvtE et src mode r ftz a
  | .vrecip _ => unE et 0 mode r ftz a
  | .vrsqrt _ => unE et 1 mode r ftz a
  | .vsqrt _ => unE et 2 mode r ftz a
  | .vexp2 _ => unE et 3 mode r ftz a
  | .vlog2 _ => unE et 4 mode r ftz a
  | .vdiv _ => divE et mode r ftz a b
  | _ => (a, 0)

/-- Element j of viota, R181. -/
def iotaE (et mode r : Nat) (ftz : Bool) (a b j : Nat) : Nat × Flags :=
  if et ≤ 6 then (satE et (etInt' et a + j * etInt' et b), 0)
  else
    let (x, sx) := rdF et ftz a
    let (y, sy) := rdF et ftz b
    if isNan x || isNan y then rndF et mode r ftz .nan (sx || sy)
    else if j = 0 then rndF et mode r ftz x false
    else
      let q := addFv mode x (mulFv y (.num false j 0)).1
      rndF et mode r ftz q.1 q.2

/-- An Add of a float reduction that carries flags and the STO values left, R180. -/
def redAdd (op : Nat → Nat → Nat → Nat × Flags) (x y : Nat) (g : Flags × List Nat) : Nat × (Flags × List Nat) :=
  let z := op (g.2.headD 0) x y
  (z.1, g.1 ||| z.2, g.2.drop 1)

/-- The result of a reduction or vdot on sampled elements, R180; `bs` for vdot. -/
def reduceE (i : Instr) (v : VWord) (mode : Nat) (ftz : Bool) (rs : List Nat) (as bs : List Nat) : Nat × Flags :=
  let et := v.et.toNat
  let rt := vresEt v
  let n := as.length
  let dot := vkind i == .dot
  if et ≤ 6 then
    let ps : List Int := if dot then (as.zip bs).map (fun p => etInt' et p.1 * etInt' et p.2) else as.map (etInt' et)
    match i with
    | .vredMax _ => (wrapN (ps.foldl max (ps.headD 0)) (8 * etSize et), 0)
    | .vredMin _ => (wrapN (ps.foldl min (ps.headD 0)) (8 * etSize et), 0)
    | _ => (satE rt ps.sum, 0)
  else
    let narrow := dot && !vwide v
    let sto (j : Nat) : Nat := rs.getD j 0
    let ps : List (Nat × Flags) :=
      if narrow then (as.zip (bs.zip (List.range n))).map (fun p => mulE et mode (sto p.2.2) ftz p.1 p.2.1)
      else if dot then (as.zip bs).map (fun p =>
        let (x, sx) := rdF et ftz p.1
        let (y, sy) := rdF et ftz p.2
        let (q, e) := mulFv x y
        rndF 9 1 0 false q (sx || sy || e))
      else as.map (fun a => let (x, sx) := rdF et ftz a; rndF rt 1 0 false x sx)
    let fl := ps.foldl (fun f p => f ||| p.2) 0
    let op (r x y : Nat) : Nat × Flags := match i with
      | .vredMax _ => minMaxF (fmtOf rt) true ftz x y
      | .vredMin _ => minMaxF (fmtOf rt) false ftz x y
      | _ => addE rt mode r ftz false x y
    let res := pairSum (redAdd op) 0 n (ps.map Prod.fst) (fl, if narrow then rs.drop n else rs)
    (res.1, res.2.1)

/-! ### Results and their groups -/

/-- One result: its lowest element, its group, the bytes it writes, its flags, the unwritten granules it depends on. -/
structure VRes where
  idx : Nat
  grp : Nat
  fgrp : Nat
  writes : List (Nat × List Byte)
  flags : Flags
  unw : List Nat

/-- Element j of an operand as C samples it, and its never-written granules. -/
def VArr.get (o : VArr) (x : Core) (j : Nat) : Nat := leNat (x.scrRead .c (o.at' j).toNat o.z)
def VArr.unw (o : VArr) (x : Core) (j : Nat) : List Nat := x.unwritten (o.at' j).toNat o.z

/-- Bits [w·j+w−1 : w·j] of a block's packed bytes, R59. -/
def packedCode (o : VArr) (x : Core) (w b j : Nat) : Nat :=
  leNat (x.scrRead .c (o.x0 + 4 * w * b) (4 * w)) / 2 ^ (w * j) % 2 ^ w

/-- The never-written granules under one packed element. -/
def packedUnw (o : VArr) (x : Core) (w b j : Nat) : List Nat :=
  let lo := w * j / 8
  x.unwritten (o.x0 + 4 * w * b + lo) ((w * j + w - 1) / 8 - lo + 1)

/-- vmxunpack of one element, R182. -/
def unpackE (et w f : Nat) (sg : Bool) (mode r : Nat) (ftz : Bool) (q c : Nat) : Nat × Flags :=
  if c = 0xFF then ((fmtOf et).qnan, 0)
  else
    let y : Int := if sg then swrap q w else q
    rndF et mode r ftz (.num (y < 0) y.natAbs (c - 127 - f : Int)) false

/-- All results of a word in order, from samples taken now (R171). vmxpack writes block by block, the codes of a block before its
scale, so that of two bytes of one group on one place the later one stays (DESIGN CHOICE, log entry 78). -/
def vresults (i : Instr) (v : VWord) (l : VLay) (x : Core) (n mode : Nat) (ftz : Bool) (rs : List Nat) : List VRes :=
  let k := vkind i
  let et := v.et.toNat
  let z := etSize et
  let gs := vgroup k v
  let b := l.b.getD l.a
  let src := v.b.str.toNat % 16
  let sto (j : Nat) : Nat := rs.getD j 0
  let elem (j : Nat) (r : Nat × Flags) (unw : List Nat) : VRes :=
    ⟨j, j / gs, j / gs, [((l.d.at' j).toNat, leBytes z r.1)], r.2, unw⟩
  match k with
  | .one | .cvt => (List.range n).map (fun j => elem j (elemE i et src mode (sto j) ftz (l.a.get x j) 0 0) (l.a.unw x j))
  | .two => (List.range n).map (fun j =>
      elem j (elemE i et src mode (sto j) ftz (l.a.get x j) (b.get x j) 0) (l.a.unw x j ++ b.unw x j))
  | .three => (List.range n).map (fun j =>
      elem j (elemE i et src mode (sto j) ftz (l.a.get x j) (b.get x j) (l.d.get x j))
        (l.d.unw x j ++ l.a.unw x j ++ b.unw x j))
  | .perm => (List.range n).map (fun j =>
      let p := b.get x j
      elem j (if p < n then l.a.get x p else 0, 0) (b.unw x j ++ (if p < n then l.a.unw x p else [])))
  | .iota => (List.range n).map (fun j =>
      elem j (iotaE et mode (sto j) ftz (l.a.get x 0) (b.get x 0) j) (l.a.unw x 0 ++ b.unw x 0))
  | .red | .dot =>
    let js := List.range n
    let G := (n + gs - 1) / gs
    let r := reduceE i v mode ftz rs (js.map (l.a.get x)) (if k = .dot then js.map (b.get x) else [])
    [⟨0, G - 1, G - 1, [(l.d.x0, leBytes l.d.z r.1)], r.2,
      js.flatMap (l.a.unw x) ++ (if k = .dot then js.flatMap (b.unw x) else [])⟩]
  | .pack =>
    let w := mxfW v.d.str
    (List.range (n / 32)).map (fun q =>
      let js := (List.range 32).map (32 * q + ·)
      let vs := js.map (fun j => rdF et ftz (l.a.get x j))
      let r := mxScale w (mxfF v.d.str) (mxfSigned v.d.str) mode (vs.map Prod.fst) (if rs.isEmpty then [] else js.map sto)
      ⟨32 * q, (32 * q + 31) / gs, 32 * q / gs,
        [(l.d.x0 + 4 * w * q, leBytes (4 * w) (packBits w r.2.1)), ((b.at' q).toNat, leBytes 1 r.1)],
        flIf (vs.any Prod.snd) flNV ||| flIf r.2.2 flNX, js.flatMap (l.a.unw x)⟩)
  | .unpack =>
    let w := mxfW v.a.str
    (List.range n).map (fun j =>
      let c := b.get x (j / 32)
      elem j (unpackE et w (mxfF v.a.str) (mxfSigned v.a.str) mode (sto j) ftz (packedCode l.a x w (j / 32) (j % 32)) c)
        (packedUnw l.a x w (j / 32) (j % 32) ++ b.unw x (j / 32)))

/-- Groups of a word, R170. -/
def vgroups (k : VKind) (v : VWord) (n : Nat) : Nat := (n + vgroup k v - 1) / vgroup k v

/-- The latency of group 0 or of a reduction's result before its groups, spec/01 R20. -/
def vlat : Instr → Nat
  | .vrecip _ | .vrsqrt _ | .vsqrt _ | .vexp2 _ | .vlog2 _ | .vdiv _ => 14
  | .vredSum _ | .vredMax _ | .vredMin _ | .vdot _ => 12
  | _ => 6

/-- Whether a word has one result. -/
def vsingle (i : Instr) : Bool := vkind i == .red || vkind i == .dot

/-- The R20 latency of the last exposed group, 0 when none is exposed (spec/06 R133). -/
def vlam (i : Instr) (v : VWord) (n : Nat) : Nat :=
  let l := vlat i + vgroups (vkind i) v n - 1
  if vsingle i then (if l ≤ 40 then l else 0) else min l 40

def minNat : List Nat → Option Nat
  | [] => none
  | a :: t => some (t.foldl min a)

/-- The landing groups, R20, R21, R187, from element `cur` on, for a word that is `elap` issue cycles old at issue count
`ic`; in fault mode a word ends at its first result, of those left to compute (R188), that depends on an unwritten granule, at the landing
of the group of its first element (DESIGN CHOICE for a vmxpack block of two groups, log entry 79). -/
def vlanding (i : Instr) (v : VWord) (n ic elap cur : Nat) (fault : Bool) (rs : List VRes) : List VGroup :=
  let G := vgroups (vkind i) v n
  let cut := if fault then rs.find? (fun r => r.idx ≥ cur && !r.unw.isEmpty) else none
  let gs := (if vsingle i then [G - 1] else List.range G).filter (fun g => match cut with
    | some r => g ≤ r.fgrp
    | none => true)
  let due (g : Nat) : Nat := let lam := vlat i + g; if lam > 40 then 0 else max 1 (ic + lam - elap)
  (gs.map (fun g =>
    let mine := rs.filter (fun r => r.grp == g && r.idx ≥ cur && (match cut with | some e => r.idx < e.idx | none => true))
    let next := ((rs.find? (fun r => r.grp > g)).map (·.idx)).getD n
    let bad : Option Nat := match cut with
      | some e => if e.fgrp = g then (minNat e.unw).map (16 * ·) else none
      | none => none
    (⟨due g, mine.flatMap (·.writes), mine.foldl (fun f r => f ||| r.flags) 0, bad,
      match bad, cut with | some _, some e => e.idx | _, _ => next⟩ : VGroup))).filter (fun g => g.cur > cur || g.fault.isSome)

/-! ### Generator steps, R184 -/

/-- Whether a word rounds with its RM field. -/
def vrounds (i : Instr) (v : VWord) : Bool :=
  match i with
  | .vadd _ | .vsub _ | .vmul _ | .vfma _ | .vfms _ | .vredSum _ | .vdot _ | .viota _ => etFloat v.et
  | .vcvt _ => etFloat v.et || etFloat (v.b.str.extractLsb' 0 4)
  | .vrecip _ | .vrsqrt _ | .vsqrt _ | .vexp2 _ | .vlog2 _ | .vdiv _ | .vmxpack _ | .vmxunpack _ => true
  | _ => false

def vsteps (i : Instr) (v : VWord) (n mode : Nat) : Nat :=
  if mode ≠ 5 || !vrounds i v then 0 else
  match vkind i with
  | .red => n - 1
  | .dot => if vwide v then n - 1 else n + (n - 1)
  | _ => n

/-! ### Issue -/

/-- The count register of a word with VLG = 1. -/
def vcountReg (v : VWord) : Reg := v.vlen.extractLsb' 0 5
def vcount (s : State) (c : Nat) (k : StrandIx) (v : VWord) : Nat := if v.vlg then (s.rd c k (vcountReg v)).toNat else immCount v

/-- Reason 7 of R48: a count out of range, or no multiple of 32 for the MX words (R41, R172). -/
def vecLate (i : Instr) (v : VWord) (s : State) (c : Nat) (k : StrandIx) : Option (BitVec 3) :=
  if !v.vlg then none else
  let n := vcount s c k v
  if n > 1024 || ((vkind i == .pack || vkind i == .unpack) && n % 32 ≠ 0) then some 7 else none

/-- The base registers a word reads. -/
def vbases (i : Instr) (v : VWord) : List Reg := match vkind i with
  | .one | .cvt | .red => [v.d.base, v.a.base]
  | _ => [v.d.base, v.a.base, v.b.base]

/-- Features a word needs, spec/20 R402. -/
def vfeat (i : Instr) (v : VWord) : List (Nat × BitVec 3) :=
  (if v.rm = 5 then [((2 : Nat), (6 : BitVec 3))] else []) ++ (match i with
    | .vmxpack _ => if mxfW v.d.str < 8 then [(1, 6)] else []
    | .vmxunpack _ => if mxfW v.a.str < 8 then [(1, 6)] else []
    | _ => [])

def vecInfo (i : Instr) (v : VWord) : Info :=
  let cr := if v.vlg then [vcountReg v] else []
  { y := v.n.y, t := v.n.t, who := 4, reads := vbases i v ++ cr, recs := true, feat := vfeat i v, late := vecLate i v, lreg := cr }

/-- The fields of a vector word with its rounding field replaced by the resolved mode (spec/06 R134). -/
def withMode (i : Instr) (m : Nat) : Instr :=
  match encV i with
  | some (vop, v) => (vecInstr vop.toNat { v with rm := BitVec.ofNat 3 m }).getD i
  | none => i

/-- A vector operation from its captured bases: the state after its steps and warnings, and the operation.
`sgn` is the generator before the steps; `elap` and `cur` are 0 at a first issue. -/
def vecOp (i : Instr) (v : VWord) (c n mode ord seq ic elap cur : Nat) (sgn bd ba bb : Word) (s : State) : State × Op :=
  let x := s.core c
  let l := vlay (vkind i) v n bd ba bb
  let steps := vsteps i v n mode
  let rs := vresults i v l x n mode (sstFtz x.c.sst) (stoDraw sgn steps).2
  let scrmode := (s.ctx c).scrmode
  let s := if scrmode = 1 then s.warn c .c (((rs.filter (·.idx ≥ cur)).flatMap (·.unw)).eraseDups) else s
  let lam := vlam i v n
  (s, { k := .c, ord := ord, seq := seq, img := withMode i mode, op0 := bd, op1 := ba, op2 := bb
        cnt := if v.vlg then n else 0, lam := lam, last := ic + lam - elap, prog := cur, steps := steps
        body := .vec (vlanding i v n ic elap cur (scrmode = 2) rs) })

/-- Base values of the operands a word uses; 0 for one it does not. -/
def vbaseVals (i : Instr) (v : VWord) (s : State) (c : Nat) (k : StrandIx) : Word × Word × Word :=
  (s.rd c k v.d.base, s.rd c k v.a.base, if (vbases i v).length = 3 then s.rd c k v.b.base else 0)

/-- Clock cycles a word holds the input stage, R173. -/
def vstageCycles (i : Instr) (v : VWord) (n : Nat) : Nat := vgroups (vkind i) v n * (if vlat i = 14 then 2 else 1)

/-- The rule of a vector word at its issue. A word of no elements has no group for the input stage of R173 and issues at once
(DESIGN CHOICE, log entry 77), and one that fails a check of R169 fails before it waits for that stage (DESIGN CHOICE, log entry 77). -/
def vecBody (i : Instr) (v : VWord) (c : Nat) (k : StrandIx) (s : State) : Act :=
  let x := s.core c
  let t := x.str k
  let n := vcount s c k v
  if n = 0 then .go s .fall else
  let mode := resolveRm v.rm t.sst
  let b := vbaseVals i v s c k
  let l := vlay (vkind i) v n b.1 b.2.1 b.2.2
  if (vsteps i v n mode ≠ 0 && x.drawing) || l.held x (vkind i) then .wait s else
  match l.check (s.ctx c).scrsize with
  | some (code, a) => .fault s code a
  | none =>
    if s.clock < x.vstage then .wait s else
    let r := vecOp i v c n mode x.nord (t.ic + 1) t.ic 0 0 t.sgn b.1 b.2.1 b.2.2 s
    let s := (r.1.addOp c r.2).mapCore c (fun x => { x with vstage := s.clock + vstageCycles i v n })
    .go (s.mapStr c k (fun t => { t with sgn := (stoDraw t.sgn (vsteps i v n mode)).1 })) .fall

/-- The shared meaning of the vector words. -/
def issueVec (i : Instr) (v : VWord) (s : State) : Result := issue i (vecInfo i v) (vecBody i v) s

/-! ### Meanings -/

def execVadd (v : VWord) (s : State) : Result := issueVec (.vadd v) v s
def execVsub (v : VWord) (s : State) : Result := issueVec (.vsub v) v s
def execVmul (v : VWord) (s : State) : Result := issueVec (.vmul v) v s
def execVfma (v : VWord) (s : State) : Result := issueVec (.vfma v) v s
def execVfms (v : VWord) (s : State) : Result := issueVec (.vfms v) v s
def execVmin (v : VWord) (s : State) : Result := issueVec (.vmin v) v s
def execVmax (v : VWord) (s : State) : Result := issueVec (.vmax v) v s
def execVabs (v : VWord) (s : State) : Result := issueVec (.vabs v) v s
def execVneg (v : VWord) (s : State) : Result := issueVec (.vneg v) v s
def execVand (v : VWord) (s : State) : Result := issueVec (.vand v) v s
def execVor (v : VWord) (s : State) : Result := issueVec (.vor v) v s
def execVxor (v : VWord) (s : State) : Result := issueVec (.vxor v) v s
def execVshl (v : VWord) (s : State) : Result := issueVec (.vshl v) v s
def execVshr (v : VWord) (s : State) : Result := issueVec (.vshr v) v s
def execVsra (v : VWord) (s : State) : Result := issueVec (.vsra v) v s
def execVcmpEq (v : VWord) (s : State) : Result := issueVec (.vcmpEq v) v s
def execVcmpLt (v : VWord) (s : State) : Result := issueVec (.vcmpLt v) v s
def execVcmpLe (v : VWord) (s : State) : Result := issueVec (.vcmpLe v) v s
def execVsel (v : VWord) (s : State) : Result := issueVec (.vsel v) v s
def execVcvt (v : VWord) (s : State) : Result := issueVec (.vcvt v) v s
def execVrecip (v : VWord) (s : State) : Result := issueVec (.vrecip v) v s
def execVrsqrt (v : VWord) (s : State) : Result := issueVec (.vrsqrt v) v s
def execVsqrt (v : VWord) (s : State) : Result := issueVec (.vsqrt v) v s
def execVexp2 (v : VWord) (s : State) : Result := issueVec (.vexp2 v) v s
def execVlog2 (v : VWord) (s : State) : Result := issueVec (.vlog2 v) v s
def execVdiv (v : VWord) (s : State) : Result := issueVec (.vdiv v) v s
def execVredSum (v : VWord) (s : State) : Result := issueVec (.vredSum v) v s
def execVredMax (v : VWord) (s : State) : Result := issueVec (.vredMax v) v s
def execVredMin (v : VWord) (s : State) : Result := issueVec (.vredMin v) v s
def execVdot (v : VWord) (s : State) : Result := issueVec (.vdot v) v s
def execVcopy (v : VWord) (s : State) : Result := issueVec (.vcopy v) v s
def execVperm (v : VWord) (s : State) : Result := issueVec (.vperm v) v s
def execViota (v : VWord) (s : State) : Result := issueVec (.viota v) v s
def execVmxpack (v : VWord) (s : State) : Result := issueVec (.vmxpack v) v s
def execVmxunpack (v : VWord) (s : State) : Result := issueVec (.vmxunpack v) v s

/-- The new generator state of vseed, R183. -/
def seedV (a b : Word) : Word := let x := a ^^^ (b * 0x9E3779B97F4A7C15#64); if x = 0 then 1 else x

def execVseed (v : VWord) (s : State) : Result :=
  issue (.vseed v) { y := v.n.y, t := v.n.t, who := 4, reads := [v.a.base, v.b.base] } (fun c k s =>
    if (s.core c).drawing then .wait s
    else .go (s.mapStr c k (fun t => { t with sgn := seedV (t.rd v.a.base) (t.rd v.b.base) })) .fall) s

end Sys2Proof.Machine
end

