-- ==== Sys2Proof/Machine/Collective.lean ====
section
/-!
DEFINITION. Collectives (spec/21 R417 to R428): coll and collwait, the rendezvous, the movement and reduction of data, deadlines
and aborts, and the Zwivel-link ports.
-/

namespace Sys2Proof.Machine

/-! ### What a collective reads and writes, R421, R425 -/

def Coll.live (x : Coll) : Bool := match x.st with
  | .ended _ => false
  | _ => true
def Coll.op (x : Coll) : Nat := x.me.op.toNat
def Coll.z (x : Coll) : Nat := etSize x.me.et.toNat
def Coll.nrank (x : Coll) : Nat := x.me.nrank.toNat
def Coll.rank (x : Coll) : Nat := x.me.rank.toNat

/-- Elements of SRC that a rank reads. -/
def Coll.srcCount (x : Coll) (r : Nat) : Nat := match x.op with
  | 0 => if r = x.me.root.toNat then x.me.count else 0
  | 5 => x.nrank * x.me.count
  | 6 => 0
  | _ => x.me.count

/-- Whether every rank's data is there. -/
def Coll.complete (x : Coll) : Bool :=
  (List.range x.nrank).all (fun r => (Tab.get [] x.data r).length ≥ x.srcCount r * x.z)

/-- Element i of a rank's data. -/
def Coll.elem (x : Coll) (r i : Nat) : Nat := leNat (((Tab.get [] x.data r).drop (i * x.z)).take x.z)

/-- A sum in the fixed order over ranks, R425: WIDE sums are exact and rounded once. -/
def sumE (et : Nat) (wide : Bool) (xs : List Nat) : Nat :=
  if et ≤ 6 then satE et ((xs.map (etInt' et)).sum)
  else if wide then
    (roundFv (fmtOf et) 0 0 false (pairSum (fun a b (u : Unit) => ((addFv 0 a b).1, u)) .nan xs.length
      (xs.map (fun a => (rdF et false a).1)) ()).1).1
  else (pairSum (fun a b (u : Unit) => ((addE et 0 0 false false a b).1, u)) 0 xs.length xs ()).1

def maxE (et : Nat) (isMax : Bool) (xs : List Nat) : Nat :=
  (pairSum (fun a b (u : Unit) => ((minMaxE et isMax false a b).1, u)) 0 xs.length xs ()).1

/-- The reduction of element i over the ranks. -/
def Coll.reduce (x : Coll) (i : Nat) : Nat :=
  let xs := (List.range x.nrank).map (fun r => x.elem r i)
  let et := x.me.et.toNat
  match x.op with
  | 2 => maxE et true xs
  | 3 => maxE et false xs
  | _ => sumE et x.me.wide xs

/-- Elements of DST. -/
def Coll.outCount (x : Coll) : Nat := match x.op with
  | 4 => x.nrank * x.me.count
  | 6 => 0
  | _ => x.me.count

/-- Element e of DST, with the rank whose SRC it copies, or none for a reduction (R421). -/
def Coll.outElem (x : Coll) (e : Nat) : Option Nat × List Byte :=
  let n := x.me.count
  let copy (r i : Nat) : Option Nat × List Byte := (some r, leBytes x.z (x.elem r i))
  match x.op with
  | 0 => copy x.me.root.toNat e
  | 4 => copy (e / n) (e % n)
  | 5 => (none, leBytes x.z (x.reduce (x.rank * n + e)))
  | _ => (none, leBytes x.z (x.reduce e))

/-- The number of the unit that moves the data of a collective. -/
def Coll.unit (x : Coll) : Nat := unitColl x.task x.h

/-- The writer of an element for watchpoints, R426: another package whose SRC it copies, or the engine. -/
def Coll.writer (s : State) (x : Coll) (r : Option Nat) : Writer :=
  let w : Writer := { kind := 4, dev := true, die := x.die, vf := x.vf, ord := x.unit }
  match r with
  | some r =>
    let p := (x.peers.getD r (0, 0)).1
    if p ≠ s.pkg.zpkg then { w with kind := 2, pkg := p } else w
  | none => w

/-- Whether a DST byte that a collective has written is not yet performed at system scope (R424). -/
def Coll.writing (s : State) (x : Coll) : Bool :=
  let mine (wr : Writer) : Bool := wr.dev && (wr.kind == 2 || wr.kind == 4) && wr.ord == x.unit
  s.wire.any (fun f => (f.writer.map mine).getD false) || s.hostOut.any (fun e => mine e.wr)

/-! ### Endings -/

def State.putColl (s : State) (i : Nat) (x : Coll) : State := { s with colls := setAt s.colls i x }

/-- The outstanding collective of a die with a CLKEY and SEQ. -/
def State.findColl (s : State) (d : Nat) (key : Word) (sq : BitVec 32) : Option (Nat × Coll) :=
  ((List.range s.colls.length).zip s.colls).find? (fun e => e.2.die == d && e.2.live && e.2.me.clkey == key && e.2.me.seq == sq)

/-- The completion record of KIND 0x04, R428. -/
def Coll.record (x : Coll) (reason : Nat) : Word := evRec 4 .s (x.me.seq.toNat + x.h * 2 ^ 32 + reason * 2 ^ 36)

/-- Whether a collective is outstanding: it runs, or no event queue has had room for its record yet (R161). -/
def Coll.unfinished (x : Coll) : Bool := x.live || x.cev

/-- The record of an ended collective goes to the core that runs its task; while none does, the engine holds it (R428). A full queue
leaves it with its source (R161). -/
def postColl (s : State) (i : Nat) : State :=
  match s.colls[i]? with
  | none => s
  | some x => match x.st with
    | .ended r =>
      if !x.cev then s else
      match coreOfTask s.cores x.task with
      | some c => if (s.core c).evRoom then (s.putColl i { x with cev := false }).postEv c 2 (x.record r) else s
      | none => s
    | _ => s

/-- A unit of a die waits for no walk any longer. -/
def State.quitUnit (s : State) (u : Nat) : State := s.leaveWalks (fun y => y.c ≥ 4096 && y.u == u)

/-- A collective ends with a reason; the turn of its engine at the end of the clock cycle posts its record (R161). -/
def endColl (s : State) (i : Nat) (reason : Nat) : State :=
  match s.colls[i]? with
  | none => s
  | some x => if !x.live then s else (s.putColl i { x with st := .ended reason, cev := x.ev }).quitUnit x.unit

/-- An ABORT reaches a party: it ends with reason 3 unless it has completed (R424). -/
def abortAt (s : State) (d : Nat) (key : Word) (sq : BitVec 32) : State :=
  match s.findColl d key sq with
  | some (i, _) => endColl s i 3
  | none => s

/-- The lowest UP port whose far package is the peer's, R424. -/
def State.portTo (s : State) (pkg : BitVec 16) : Option Nat :=
  (List.range 24).find? (fun p => let z := Tab.get {} s.pkg.zport p
    z.up && z.pkg == pkg)

/-- The die of the package that a message for a peer goes to: the peer's, or that of the port to its package. -/
def State.dieToward (s : State) (p : BitVec 16 × BitVec 3) : Option Nat :=
  if p.1 = s.pkg.zpkg then some p.2.toNat else (s.portTo p.1).map (· / 3)

/-- The peers of a party. -/
def Coll.others (x : Coll) : List (BitVec 16 × BitVec 3) := x.peers.filter (fun p => p != (x.me.pkg, x.me.die))

/-- A message of a party to a peer: over the links of the package to its die, or to the port that leads to its package (R424). -/
def sendPeer (s : State) (x : Coll) (p : BitVec 16 × BitVec 3) (ch : Chan) (near : Cargo) (far : Out) : State :=
  match s.dieToward p with
  | some d => s.sendFlit x.die d ch (if p.1 = s.pkg.zpkg then near else .out far)
  | none => s

/-- ABORT to every peer. -/
def sendAborts (s : State) (x : Coll) : State :=
  x.others.foldl (fun s p => sendPeer s x p .mgt (.abort x.me.clkey x.me.seq) (.abort p.1 p.2 x.me.clkey x.me.seq)) s

/-- A party ends by its own cause and tells its peers. -/
def failColl (s : State) (i : Nat) (reason : Nat) : State :=
  match s.colls[i]? with
  | none => s
  | some x => if !x.live then s else sendAborts (endColl s i reason) x

/-- The collectives of a removed task end, with ABORT to their peers, and their handles go (R427, R428). -/
def State.dropColls (s : State) (task : Nat) : State :=
  let mine := s.colls.filter (fun x => x.task == task && x.live)
  let s := { s with colls := s.colls.filter (fun x => x.task != task) }
  mine.foldl (fun s x => sendAborts (s.quitUnit x.unit) x) s

/-! ### The rendezvous and the data, R424 -/

/-- Data of a rank reaches a party of this package. -/
def giveData (s : State) (d : Nat) (key : Word) (sq : BitVec 32) (rank : Nat) (bs : List Byte) : State :=
  match s.findColl d key sq with
  | some (i, x) => s.putColl i { x with data := Tab.set [] x.data rank (Tab.get [] x.data rank ++ bs) }
  | none => s

/-- SRC of collective i is read on from where an earlier turn stopped: whether all of it is there, or a part could not be read, or
neither while a part waits. `fuel` bounds the elements. -/
def readSrc (i : Nat) : Nat → State → State × Option Bool
  | 0, s => (s, none)
  | fuel + 1, s =>
    match s.colls[i]? with
    | none => (s, none)
    | some x =>
      let had := Tab.get [] x.data x.rank
      if had.length ≥ x.srcCount x.rank * x.z then (s, some true) else
      match s.portAcc x.die x.unit x.vf (x.src + BitVec.ofNat 64 had.length) .read x.z x.pa with
      | (s, .ok pa) => readSrc i fuel ((s.noteRead pa x.z).putColl i { x with data := Tab.set [] x.data x.rank (had ++ s.portRead pa x.z), pa := none })
      | (s, .held pa) => (s.putColl i { x with pa := some pa }, none)
      | (s, .wait) => (s, none)
      | (s, .fault _ _) => (s, some false)

/-- Whether the data of a party would cross to another partition of the package on REQ (spec/19 R391, R393; log entry 82). -/
def Coll.crosses (s : State) (x : Coll) : Bool :=
  x.srcCount x.rank ≠ 0 && x.others.any (fun p => ((s.dieToward p).map (fun d => s.partOf d != s.partOf x.die)).getD false)

/-- A refusal at a die of traffic that carries no physical address: FWLAST takes a free value for it (spec/19 R393; log entry 82). -/
def State.denyFlit (s : State) (d vf home : Nat) : State :=
  let r := s.draw
  r.2.mapDie d (fun x => { x with
    fwdeny := min (x.fwdeny + 1) (2 ^ 32 - 1), fwlast := BitVec.ofNat 9 vf ++ BitVec.ofNat 3 home ++ r.1.extractLsb' 0 52 })

/-- A party that holds every READY reads its SRC and sends it to its peers. -/
def startColl (s : State) (i : Nat) : State :=
  match s.colls[i]? with
  | none => s
  | some x =>
    let all := (List.range x.nrank).all (fun r => r == x.rank || x.seen.contains r)
    if !(match x.st with | .meeting => true | _ => false) || !all then s
    else if x.crosses s then failColl ((s.denyFlit x.die x.vf x.die).logAf x.die x.vf ⟨x.src, 0, .read, 10⟩) i 5 else
    match readSrc i (x.srcCount x.rank + 1) s with
    | (s, none) => s
    | (s, some false) => failColl s i 5
    | (s, some true) =>
      match s.colls[i]? with
      | none => s
      | some x =>
        let bs := Tab.get [] x.data x.rank
        let s := s.putColl i { x with st := .moving }
        if bs.isEmpty then s else
        x.others.foldl (fun s p => sendPeer s x p .req (.data x.me.clkey x.me.seq x.rank bs)
          (.data p.1 p.2 x.me.clkey x.me.seq x.me.rank bs)) s

/-- Whether a READY matches the terms of a collective, R423 reason 4. -/
def Coll.matches (x : Coll) (m : ReadyMsg) : Bool :=
  m.op == x.me.op && m.et == x.me.et && m.wide == x.me.wide && m.count == x.me.count && m.nrank == x.me.nrank && m.root == x.me.root
    && x.peers[m.rank.toNat]? == some (m.pkg, m.die) && m.rank != x.me.rank

/-- A READY is matched with collective i. -/
def meetReady (s : State) (i : Nat) (m : ReadyMsg) : State :=
  match s.colls[i]? with
  | none => s
  | some x =>
    if !x.live then s
    else if x.matches m then startColl (s.putColl i { x with seen := if x.seen.contains m.rank.toNat then x.seen else m.rank.toNat :: x.seen }) i
    else failColl s i 4

/-- A READY reaches a die: it meets its collective, or is held while fewer than 256 are. -/
def readyAt (s : State) (d : Nat) (m : ReadyMsg) : State :=
  match s.findColl d m.clkey m.seq with
  | some (i, _) => meetReady s i m
  | none => if (s.die d).ready.length < 256 then s.mapDie d (fun x => { x with ready := x.ready ++ [m] }) else s

/-- DST of collective i is written on from where an earlier turn stopped, as SRC is read. -/
def writeDst (i : Nat) : Nat → State → State × Option Bool
  | 0, s => (s, none)
  | fuel + 1, s =>
    match s.colls[i]? with
    | none => (s, none)
    | some x =>
      if x.wrote ≥ x.outCount then (s, some true) else
      let e := x.outElem x.wrote
      match s.portAcc x.die x.unit x.vf (x.dst + BitVec.ofNat 64 (x.wrote * x.z)) .write x.z none with
      | (s, .ok pa) | (s, .held pa) =>
        writeDst i fuel ((s.sendWrite (x.writer s e.1) pa (e.2.map some) false).putColl i { x with wrote := x.wrote + 1 })
      | (s, .wait) => (s, none)
      | (s, .fault _ _) => (s, some false)

/-- A party writes its DST once all data is there; a failed access ends it (R423). The second component says that all is written. -/
def writeColl (s : State) (i : Nat) : State × Bool :=
  match s.colls[i]? with
  | none => (s, false)
  | some x =>
    if !(match x.st with | .moving => true | _ => false) || !x.complete then (s, false) else
    match writeDst i (x.outCount + 1) s with
    | (s, some false) => (failColl s i 5, false)
    | (s, r) => (s, r == some true)

/-- A party completes when every DST byte has been performed, R424, before its deadline; its completion waits for room for its record
(R161). -/
def completeColl (s : State) (i : Nat) : State :=
  match writeColl (startColl s i) i with
  | (s, false) => s
  | (s, true) => match s.colls[i]? with
    | none => s
    | some x =>
      if x.writing s || s.dieclk ≥ x.due
        || x.ev && !(match coreOfTask s.cores x.task with | some c => (s.core c).evRoom | none => true) then s
      else postColl (endColl s i 0) i

/-! ### coll and collwait, R422 -/

/-- tval of COLLECTIVE_TIMEOUT, R423. -/
def collVal (reason h : Nat) (sq : BitVec 32) : Word := BitVec.ofNat 64 (reason + h * 2 ^ 8 + sq.toNat * 2 ^ 32)

/-- The checks of R419 to R421 on a descriptor. -/
def descBad (b : List Byte) : Bool :=
  let t := wordAt b 0
  let op := (t.extractLsb' 0 4).toNat
  let et := (t.extractLsb' 4 4).toNat
  let nr := (t.extractLsb' 16 7).toNat
  let n := fieldAt b 0x10 8
  let tmo := fieldAt b 0x30 8
  op > 6 || t.extractLsb' 47 17 != 0 || t.extractLsb' 38 2 != 0 || t.extractLsb' 23 9 != 0 || t.extractLsb' 9 7 != 0
    || (if op = 6 then et ≠ 0 else !(et == 4 || et == 6 || et == 7 || et == 8 || et == 9))
    || (t.getLsbD 8 && !(op = 1 || op = 5))
    || nr < 2 || nr > 64 || (t.extractLsb' 32 6).toNat ≥ nr
    || (if op = 0 then (t.extractLsb' 40 6).toNat ≥ nr else t.extractLsb' 40 6 != 0)
    || (if op = 6 then n ≠ 0 else n = 0 || n > 2 ^ 28)
    || fieldAt b 0x0C 4 ≠ 0 || (wordAt b 0x18).toNat % 16 ≠ 0 || (wordAt b 0x20).toNat % 16 ≠ 0 || (wordAt b 0x28).toNat % 8 ≠ 0
    || tmo = 0 || tmo ≥ 2 ^ 20 || fieldAt b 0x38 8 ≠ 0

/-- An entry of the peer list. -/
def peerOf (b : List Byte) (r : Nat) : BitVec 16 × BitVec 3 := (BitVec.ofNat 16 (fieldAt b (4 * r) 4), BitVec.ofNat 3 (fieldAt b (4 * r) 4 / 2 ^ 16))
def peersBad (b : List Byte) (n : Nat) : Bool :=
  let ps := (List.range n).map (peerOf b)
  (List.range n).any (fun r => fieldAt b (4 * r) 4 ≥ 2 ^ 19) || ps.eraseDups.length ≠ n

/-- Reads of the word coll, with the core's own access path: n parts of z bytes, or the failing address. -/
def collRead (c z : Nat) : Nat → State → Word → State × Except (Option (Nat × Word)) (List Byte)
  | 0, s, _ => (s, .ok [])
  | n + 1, s, va =>
    if !canonical va then (s, .error (some (0x0C, va))) else
    match readNow s c (unitHead .s) (s.ctx c).vf va .read z with
    | (s, .wait) | (s, .held _) => (s, .error none)
    | (s, .fault fw _) => (s, .error (some (if fw then 0x39 else 0x0C, va)))
    | (s, .ok pa) =>
      let bs := s.portRead pa z
      match collRead c z n (s.noteRead pa z) (va + BitVec.ofNat 64 z) with
      | (s, .ok t) => (s, .ok (bs ++ t))
      | r => r

/-- The handle a new collective takes: the lowest that is free, or else the lowest that has ended. -/
def freeHandle (cs : List Coll) : Option Nat :=
  ((List.range 4).find? (fun h => cs.all (fun x => x.h != h))).or
    ((List.range 4).find? (fun h => cs.all (fun x => x.h != h || !x.unfinished)))

/-- A collective is registered, takes the READYs held for it, and sends its own (R424). -/
def launchColl (s : State) (x : Coll) : State :=
  let s : State := { s with colls := s.colls.filter (fun (y : Coll) => !(y.task == x.task && y.h == x.h)) ++ [x] }
  let i := s.colls.length - 1
  let held := (s.die x.die).ready.filter (fun m => m.clkey == x.me.clkey && m.seq == x.me.seq)
  let s := s.mapDie x.die (fun d => { d with ready := d.ready.filter (fun m => !(m.clkey == x.me.clkey && m.seq == x.me.seq)) })
  let s := x.others.foldl (fun s p => sendPeer s x p .mgt (.ready x.me) (.ready p.1 p.2 x.me)) s
  held.foldl (fun s m => meetReady s i m) s

/-- Whether SEQ matches an outstanding collective of a party, the engine of the die. -/
def State.seqBusy (s : State) (die : Nat) (sq : BitVec 32) : Bool := s.colls.any (fun x => x.die == die && x.unfinished && x.me.seq == sq)

/-- The word coll: the descriptor and the peer list are read before any check of them (R422). -/
def collBody (d a : Reg) (c : Nat) (k : StrandIx) (s : State) : Act :=
  let x := s.rd c k a
  let y := s.ctx c
  let die := dieOf c
  let mine := s.colls.filter (fun z => z.task == y.task)
  if !canonical x || x.toNat % 64 ≠ 0 then .fault s 0x07 x
  else if (mine.filter (·.unfinished)).length ≥ 4 || !s.sysReleased c k then .wait s
  else match collRead c 64 1 s x with
    | (s, .error none) => .wait s
    | (s, .error (some (code, va))) => .fault s code va
    | (s, .ok b) =>
      let t := wordAt b 0
      let sq := BitVec.ofNat 32 (fieldAt b 8 4)
      let nr := (t.extractLsb' 16 7).toNat
      match collRead c 4 nr s (wordAt b 0x28 &&& ~~~(7#64)) with
        | (s, .error none) => .wait s
        | (s, .error (some (code, va))) => .fault s code va
        | (s, .ok pl) =>
          let s := s.leaveWalks (· == ⟨c, unitHead .s⟩)
          let key := (s.vf y.vf).clkey
          let ps := (List.range nr).map (peerOf pl)
          let rank := (t.extractLsb' 32 6)
          if descBad b || peersBad pl nr || key = 0 || ps[rank.toNat]? ≠ some (s.pkg.zpkg, BitVec.ofNat 3 die) || s.seqBusy die sq then
            .fault s 0x38 (collVal 2 0 sq)
          else match freeHandle mine with
            | none => .wait s
            | some h =>
              let me : ReadyMsg := { clkey := key, seq := sq, pkg := s.pkg.zpkg, die := BitVec.ofNat 3 die, rank := rank
                                     op := t.extractLsb' 0 4, et := t.extractLsb' 4 4, wide := t.getLsbD 8, count := fieldAt b 0x10 8
                                     nrank := t.extractLsb' 16 7, root := t.extractLsb' 40 6 }
              let z : Coll := { die := die, task := y.task, vf := y.vf, h := h, me := me, src := wordAt b 0x18, dst := wordAt b 0x20
                                peers := ps, ev := t.getLsbD 46, due := s.dieclk + 1000 * fieldAt b 0x30 8 }
              .go ((launchColl s z).put c k d (BitVec.ofNat 64 h)) .fall

def collwaitBody (a : Reg) (c : Nat) (k : StrandIx) (s : State) : Act :=
  let h := (s.rd c k a).toNat % 4
  let task := (s.ctx c).task
  let s' : State := { s with colls := s.colls.filter (fun z => !(z.task == task && z.h == h)) }
  match s.colls.find? (fun z => z.task == task && z.h == h) with
  | none => .go s .fall
  | some x => if x.cev then .wait s else match x.st with
    | .ended 0 => .go s' .fall
    | .ended r => .fault s' 0x38 (collVal r h x.me.seq)
    | _ => .wait s

def collInfo (y : Bool) (a : Reg) : Info := { y := y, who := 1, reads := [a], feat := [(9, 2)] }

def execColl (y : Bool) (d a : Reg) (s : State) : Result :=
  issue (.coll y d a) { collInfo y a with dst := [d] } (collBody d a) s
def execCollwait (y : Bool) (a : Reg) (s : State) : Result := issue (.collwait y a) (collInfo y a) (collwaitBody a) s

/-! ### Events of the engines -/

/-- Data from a peer, R421: its bytes follow those received before, and the party writes or reduces once all are there. -/
def dataAt (s : State) (die : Nat) (clkey : Word) (sq : BitVec 32) (rank : Nat) (bs : List Byte) : State :=
  match s.findColl die clkey sq with
  | some (i, _) => (writeColl (giveData s die clkey sq rank bs) i).1
  | none => s

/-- A message of a collective reaches the engine of its die. -/
def collArrives (die : Nat) (x : Cargo) (s : State) : State := match x with
  | .ready m => readyAt s die m
  | .abort key sq => abortAt s die key sq
  | .data key sq rank bs => dataAt s die key sq rank bs
  | _ => s

/-- What comes in at a Zwivel port goes over the links of the package to the die it is for, unless that lies in another partition
than the port: it is then refused, and its sender told (spec/19 R394). The place in the turn of such an event is the port (log entry 64). -/
def arrive (port die : Nat) (key : Word) (sq : BitVec 32) (ch : Chan) (x : Cargo) (s : State) : State :=
  if s.partOf (port / 3) != s.partOf die then (s.denyFlit (port / 3) 0 die).out (.portRefused port key sq)
  else if port / 3 = die then collArrives die x s
  else s.sendFlit (port / 3) die ch x

def execCollectiveReady (die : Nat) (m : ReadyMsg) (s : State) : Result :=
  turnEvent (fun _ _ port s => arrive port die m.clkey m.seq .mgt (.ready m) s) s
def execCollectiveAbort (die : Nat) (clkey : Word) (sq : BitVec 32) (s : State) : Result :=
  turnEvent (fun _ _ port s => arrive port die clkey sq .mgt (.abort clkey sq) s) s

/-- A deadline that has passed, R424. -/
def collDeadline (die id : Nat) (s : State) : State :=
  match s.colls[id]? with
  | some x => if x.die = die && x.live && s.dieclk ≥ x.due then failColl s id 1 else s
  | none => s
def execCollectiveDeadline (die id : Nat) (s : State) : Result := event (collDeadline die id) s

/-- A party completes, when it can, or posts the record that has waited for room. -/
def execCollectiveComplete (die id : Nat) (s : State) : Result :=
  event (fun s => match s.colls[id]? with
    | some x => if x.die ≠ die then s else if x.live then completeColl s id else postColl s id
    | none => s) s

def execCollectiveData (die : Nat) (clkey : Word) (sq : BitVec 32) (rank : BitVec 6) (bytes : List Byte) (s : State) : Result :=
  turnEvent (fun _ _ port s => arrive port die clkey sq .req (.data clkey sq rank.toNat bytes) s) s

/-- A port loses or gains its link, R417, R418; a port that has lost it keeps the number of the far package and port. -/
def State.mapPort (s : State) (p : Nat) (f : ZPort → ZPort) : State :=
  { s with pkg := { s.pkg with zport := Tab.set {} s.pkg.zport p (f (Tab.get {} s.pkg.zport p)) } }
def execZwivelPortDown (p : Nat) (s : State) : Result := event (fun s => s.mapPort p (fun z => { z with up := false })) s
def execZwivelPortUp (p : Nat) (pkg : BitVec 16) (port : BitVec 5) (s : State) : Result :=
  event (fun s => s.mapPort p (fun _ => ⟨pkg, port, true⟩)) s

end Sys2Proof.Machine
end

