-- ==== Sys2Proof/Machine/Fabric.lean ====
section
/-!
DEFINITION. What reaches the package from outside and from its memories: uncorrectable and corrected errors (spec/15 R301), page
walks and their caching (R304, R305), page-request and ATS responses (R309 to R312), invalidations (R307), and the host's accesses
(spec/19 R383, spec/21 R415, R416).
-/

namespace Sys2Proof.Machine

/-! ### Errors, R301 -/

/-- Put a granule where the numbers rise. -/
def insGran (g : Nat) : List Nat → List Nat
  | [] => [g]
  | a :: t => if g < a then g :: a :: t else if g = a then a :: t else a :: insGran g t

/-- A granule of HBM or SDM becomes poisoned. -/
def poisonAt (pa : Nat) (s : State) : State :=
  match homeOf pa with
  | .hbm _ | .sdm _ => { s with poison := insGran (pa / 16) s.poison }
  | _ => s
def execUncorrectableError (pa : Nat) (s : State) : Result := event (poisonAt pa) s

/-- A corrected error is counted for Chameleon. -/
def execCorrectedError (die : Nat) (s : State) : Result := event (fun s => s.mapDie die (fun x => { x with errs := x.errs + 1 })) s

/-! ### Walks, R304, R305 -/

/-- The walker reads the leaf of an address for a core's context and caches it, in place of an older one (R305). Where it finds no leaf, or
one of host I/O space, which is cached with the host's answer (R309), the core and its cluster give up what they had cached for the
address: a present leaf that has been removed or narrowed may cease to be used before an invalidation. -/
def walkFor (c : Nat) (va : Word) (kind : AccKind) (s : State) : State :=
  let vf := (s.ctx c).vf
  let d := dieOf c
  let as := entriesOf s d vf va
  if (s.core c).ctx.isNone || as.any (fun a => s.heldUp d a || s.behindDie d a) then s else
  let s := as.foldl (fun s a => s.noteRead a 8) s
  match walk s d vf va kind with
  | .leaf base size perm false => s.cacheLeaf c vf va base size perm none
  | _ => { s with tlb := s.tlb.filter (fun e => !(e.seenBy c && e.covers vf va)) }
def execPageWalk (core : Nat) (va : Word) (kind : AccKind) (s : State) : Result := event (walkFor core va kind) s

/-! ### Page-request responses, R312 -/

/-- A response that is dropped is counted on the first die of the function's partition. -/
def dropResponse (vf : Nat) (s : State) : State :=
  s.mapVd ((s.diesOf (s.vf vf).part.toNat).headD 0) vf (fun y => { y with prdrop := min (y.prdrop + 1) (2 ^ 32 - 1) })

/-- A response of the host: it frees the slot of an outstanding request of the generation, and the walk that waits for it starts again
or faults. -/
def answerReq (vf : Nat) (pasid : BitVec 20) (ix : Nat) (code : PrgCode) (s : State) : State :=
  let v := s.vf vf
  if pasid.extractLsb' 0 16 != v.gen || !v.preqs.any (fun r => r.slot == ix) then dropResponse vf s else
  let s := s.mapVf vf (fun v => { v with
    prstop := v.prstop || code == .failure, preqs := v.preqs.filter (fun r => r.slot != ix) })
  { s with walks := s.walks.map (fun w => if w.vf = vf && w.st = .page ix then
      { w with st := if code = .success then .again else .refused 5 } else w) }

def execPrgResponse (vf : Nat) (pasid : BitVec 20) (ix : Nat) (code : PrgCode) (s : State) : Result :=
  event (answerReq vf pasid ix code) s

/-! ### ATS, R309 -/

/-- The first walk of a function that waits for the translation of an I/O page has its answer. -/
def answerAts (vf ioPage : Nat) (st : WalkSt) : List Walk → List Walk
  | [] => []
  | w :: t => if w.vf = vf && w.st = .ats ioPage then { w with st := st } :: t else w :: answerAts vf ioPage st t

/-- A Translation Completion for a request that is outstanding. -/
def completeAts (vf ioPage : Nat) (ok : Bool) (pa : Nat) (s : State) : State :=
  { s with walks := answerAts vf ioPage (if ok then .answer ioPage pa else .refused 6) s.walks }
def execAtsTranslationCompletion (vf : Nat) (ioPage : Nat) (ok : Bool) (pa : Nat) (s : State) : Result :=
  event (completeAts vf ioPage ok pa) s

/-- Whether a core holds an access that has been translated and judged and waits on its way. -/
def Core.translated (x : Core) : Bool :=
  x.ops.any (fun o => o.pa.isSome) || (x.lq ++ x.wq).any (fun q => q.pa.isSome)

/-- Whether a take has found its DEP word and is still to write it; one that waits on a withdrawn walk never will (spec/20 R408). -/
def State.keepsDep (s : State) (t : DevTake) : Bool :=
  t.dep.isSome && !s.walks.any (fun w => w.st == .withdrawn && w.who.contains ⟨4096 + t.die, t.unit⟩)

/-- An access of a function that was translated and has not been performed at system scope. -/
def State.inFlight (s : State) (vf : Nat) : Bool :=
  s.cores.any (fun e => e.2.acc.any (fun r => r.vf == vf) || ((e.2.ctx.map (·.vf)) == some vf && e.2.translated))
    || s.wire.any (fun f => (f.writer.map (·.vf == vf)).getD false) || s.hostOut.any (fun e => e.wr.vf == vf)
    || s.acts.any (fun p => p.pa.isSome) || s.takes.any s.keepsDep || s.colls.any (fun x => x.vf == vf && x.pa.isSome)

/-- An Invalidate Request: the entries that hold the I/O page go, walks that had its translation start again, and the completion is
sent once nothing translated is in flight; until then the request comes back in the next clock cycle. -/
def invalidateAts (vf ioPage : Nat) (s : State) : State :=
  let holds (e : TlbEntry) : Bool := match e.ats with
    | some io => e.vf == vf && io ≤ ioPage && ioPage < io + e.size / 4096
    | none => false
  let s : State := { s with
    tlb := s.tlb.filter (fun e => !holds e)
    walks := s.walks.map (fun w => if w.vf = vf && (match w.st with | .answer _ _ => true | _ => false) then { w with st := .again } else w) }
  if s.inFlight vf then { s with inbox := s.inbox ++ [.event 0 .s 0 (.atsInvalidateRequest vf ioPage)] } else s.out (.atsComplete vf ioPage)
def execAtsInvalidateRequest (vf : Nat) (ioPage : Nat) (s : State) : Result := event (invalidateAts vf ioPage) s

/-! ### Invalidation, R307 -/

/-- Whether an entry covers a block of a range of 64 KiB blocks; a count of 0 is the whole space. -/
def TlbEntry.inRange (e : TlbEntry) (r : Nat × Nat) : Bool :=
  r.2 == 0 || (e.base < (r.1 + r.2) * 2 ^ 16 && r.1 * 2 ^ 16 < e.base + e.size)

/-- A walk that has read an entry and waits for a translation or for a page-request slot starts again; one that waits for the answer of a
page request does so when that comes (R312). -/
def Walk.restart (w : Walk) : Walk := match w.st with
  | .ats _ | .answer _ _ | .slot => { w with st := .again }
  | _ => w

/-- The oldest invalidation of a function: entries of its range go and walks start again on the dies of the partition; it completes once
nothing that was translated is in flight. -/
def finishInvalidation (vf : Nat) (s : State) : State :=
  match (s.vf vf).tinv with
  | [] => s
  | r :: t =>
    let ds := s.diesOf (s.vf vf).part.toNat
    let s : State := { s with
      tlb := s.tlb.filter (fun e => !(e.vf == vf && e.inRange r && ds.contains (e.cluster / 32)))
      walks := s.walks.map (fun w => if w.vf = vf && ds.contains w.die then w.restart else w) }
    if s.inFlight vf then s else s.mapVf vf (fun v => { v with tinv := t })
def execInvalidationComplete (vf : Nat) (s : State) : Result := event (finishInvalidation vf) s

/-! ### The host -/

/-- A write in parts that lie in one 16-byte granule each, applied or sent by `f`; `fuel` bounds the parts. -/
def hostParts (f : Nat → List (Option Byte) → State → State) : Nat → Nat → List Byte → State → State
  | 0, _, _, s => s
  | n + 1, pa, bs, s =>
    if bs.isEmpty then s else
    let k := 16 - pa % 16
    hostParts f n (pa + k) (bs.drop k) (f pa ((bs.take k).map some) s)

/-- Whether host traffic to an address passes at once: the links are open, no stack is held, and nothing from the host is before it on
HST (spec/19 R380, R392, spec/20 R410). -/
def State.hostPasses (s : State) (pa : Nat) : Bool :=
  !s.recalled pa && !s.shut .hst 0 (farDie pa) && !s.shut .hst (farDie pa) 0 && !s.wire.any (fun f => f.src == 0 && f.dst == farDie pa && f.chan == .hst)

/-- A CXL.mem write at an offset of the HDM range travels on HST, is applied at its home port, and is completed (R383, R415). -/
def hostWrite (off : Nat) (bs : List Byte) (s : State) : State :=
  if off + bs.length > 2 ^ 40 then s
  else if s.hostPasses off && s.hostPasses (off + bs.length - 1) then
    (hostParts (fun pa b s => s.portWrite { kind := 3, dev := true } pa b) (bs.length + 1) off bs s).out (.memDone off)
  else
    let wr : Writer := { kind := 3, dev := true, ord := s.nact, va := BitVec.ofNat 64 off }
    hostParts (fun pa b s => s.sendFlit 0 (farDie pa) .hst (.store wr pa b false)) (bs.length + 1) off bs { s with nact := s.nact + 1 }
def execHostMemWrite (off : Nat) (bytes : List Byte) (s : State) : Result := event (hostWrite off bytes) s

/-- A CXL.mem read returns the value at the home port when it is applied there. -/
def hostRead (off n : Nat) (s : State) : State :=
  if off + n > 2 ^ 40 then s
  else if s.hostPasses off && s.hostPasses (off + n - 1) then s.out (.memData off (s.portRead off n))
  else s.sendFlit 0 (farDie off) .hst (.read off n)
def execHostMemRead (off n : Nat) (s : State) : Result := event (hostRead off n) s

/-- Every host snoop is answered as a miss. -/
def execHostSnoop (hpa : Nat) (s : State) : Result := event (fun s => s.out (.snoopMiss hpa)) s

/-- The host's completion of the write with a place in the list of those outstanding goes back to the die it came from (spec/19
R385). -/
def hostDone (id : Nat) (s : State) : State :=
  match s.hostOut[id]? with
  | none => s
  | some e =>
    let s : State := { s with hostOut := s.hostOut.eraseIdx id }
    if e.src = 0 then s else s.sendFlit 0 e.src .hst (.ack e.wr)
def execCxlCacheCompletion (id : Nat) (s : State) : Result := event (hostDone id) s

end Sys2Proof.Machine
end

