-- ==== Sys2Proof/Machine/Matrix.lean ====
section
/-!
DEFINITION. The matrix words (spec/09, spec/10): checks at issue (R202, R220), the queue and its three pipes (R198, R199,
R218), plane loads and exchange, array cycles, and the conversions of the bank pipe.
-/

namespace Sys2Proof.Machine

/-! ### Checks at issue -/

/-- A plane descriptor. -/
structure Desc where
  valid : Bool := false
  bfmt  : Nat := 0
  kk    : Nat := 0
  nn    : Nat := 0
  sb    : Bool := false
deriving DecidableEq, Repr

def Plane.desc (p : Plane) : Desc := ⟨p.valid, p.bfmt, p.kk, p.nn, p.sb⟩

/-- The descriptors, live then shadow, that queued words will leave, R202. -/
def descAfter (d : Desc × Desc) (m : MxOp) : Desc × Desc :=
  match m.img with
  | .mxstat w | .mxstatT w => (d.1, ⟨true, fmtB m.entv, entK m.entv, w.N, w.sb⟩)
  | .mxflip _ => (d.2, d.1)
  | _ => d
def descsLeft (live shadow : Desc) (q : List MxOp) : Desc × Desc := q.foldl descAfter (live, shadow)

/-- tval of MATRIX_SHAPE and FORMAT_ENTRY, R203. -/
def mxVal (reason ent : Nat) : Word := BitVec.ofNat 64 (reason + ent * 2 ^ 8)

/-- The lowest byte at or beyond scrsize among spans. -/
def spanBeyond (scrsize : Nat) (l : List (Nat × Nat)) : Option Nat :=
  (l.filterMap (fun s => if s.1 + s.2 > scrsize then some (max s.1 scrsize) else none)).foldl
    (fun m a => match m with | none => some a | some b => some (min a b)) none

/-- Steps 7 and 8 of R202 and R220. -/
def spanCheck (x scrsize : Nat) (l : List (Nat × Nat)) : Option (Nat × Word) :=
  if x % 16 ≠ 0 then some (0x07, BitVec.ofNat 64 x)
  else (spanBeyond scrsize l).map (fun a => (0x06, BitVec.ofNat 64 a))

/-- Steps 3 to 8 of R202 for a load or a stream with its resolved entry; a die in EARLY takes BF16 × BF16 alone (spec/20 R400); `live` is the live plane's descriptor then. -/
def mxCheck (i : Instr) (m : MWord) (base : Word) (ent : Nat) (v : Word) (narrow early : Bool) (live : Desc) (scrsize : Nat) :
    Option (Nat × Word) :=
  let stream : Bool := match i with | .mxstream _ => true | _ => false
  let bad (code reason : Nat) : Option (Nat × Word) := some (code, mxVal reason ent)
  if m.mc = 3 then some (0x0A, mxVal 1 0) else
  match entryK narrow v (!stream || m.sa) m.sb with
  | none => bad 0x0B 1
  | some k =>
    if early && (fmtA v ≠ 0 || fmtB v ≠ 0) then bad 0x0B 1
    else if !stream && m.soff ≠ 0 && !isMx (fmtB v) then bad 0x0B 4
    else if stream && !live.valid then bad 0x0A 4
    else if stream && (live.bfmt ≠ fmtB v || live.kk ≠ k) then bad 0x0B 2
    else if stream && live.sb ≠ m.sb then bad 0x0B 3
    else if stream && m.col.toNat + m.N > live.nn then bad 0x0A 5
    else if stream && m.M * m.N > 16384 then bad 0x0A 2
    else if stream && m.acc.toNat + m.M * m.N > 16384 then bad 0x0A 3
    else if !stream && k * m.N * fmtWidth (fmtB v) / 8 > 65536 then bad 0x0A 6
    else if m.apitch ≠ 0 && 64 * m.apitch.toNat < (if stream then streamRow v k else statRow m (isTr i) v k) then bad 0x0A 7
    else spanCheck (m.start base) scrsize (mxReads i base v)

/-- Steps 3 to 8 of R220. -/
def bankCheck (i : Instr) (m : MWord) (base : Word) (scrsize : Nat) : Option (Nat × Word) :=
  let shape (r : Nat) : Option (Nat × Word) := some (0x0A, mxVal r 0)
  let sized : Option (Nat × Word) :=
    if m.mc = 3 then shape 1
    else if m.M * m.N > 16384 then shape 2
    else if m.acc.toNat + m.M * m.N > 16384 then shape 3 else none
  match i with
  | .mxclear _ => sized
  | .mxread _ | .mxwrite _ => sized.or (
      if m.dt = 10 && m.N % 32 ≠ 0 then shape 8
      else if m.apitch ≠ 0 && 64 * m.apitch.toNat < bankRow m then shape 7
      else spanCheck (m.start base) scrsize (mxReads i base 0 ++ mxWrites i base))
  | .mxreadFlags _ | .mxwriteFlags _ => spanCheck (m.start base) scrsize [(m.start base, 8)]
  | _ => none

/-- Read cycles of a load, 128 bytes in each, elements then scales (R199). -/
def loadCycles (m : MWord) (v : Word) : Nat :=
  let e := entK v * m.N * fmtWidth (fmtB v) / 8
  let sc := if isMx (fmtB v) then entK v / 32 * m.N else 0
  (e + 127) / 128 + (sc + 127) / 128

/-- Cycles of a word in its pipe. -/
def mxTotal (i : Instr) (v : Word) : Nat := match i with
  | .mxstat m | .mxstatT m => loadCycles m v
  | .mxstream m => m.M * m.N / 32
  | i => bankCycles i

/-- Whether a matrix word must wait at issue: the queue holds eight, or R200 and R219 hold it back. -/
def mxWaits (x : Core) (i : Instr) (base v : Word) : Bool :=
  let rd := mxReads i base v
  let wr := mxWrites i base
  let un := if rd.isEmpty && wr.isEmpty then [] else x.unlanded
  x.mxq.length ≥ 8 || spansMeet rd un || spansMeet wr un || (!wr.isEmpty && spansMeet wr (x.mxq.flatMap (·.pendR)))

/-- A matrix word enters the queue. -/
def State.enqueue (s : State) (c : Nat) (i : Instr) (base : Word) (ent : Nat) (v : Word) : State :=
  s.mapCore c (fun x => { x with mxq := x.mxq ++ [{ ord := x.nord, seq := x.c.ic + 1, img := i, base := base, ent := ent, entv := v
                                                    prog := 0, total := mxTotal i v }] })

/-- mxstat, mxstat.t and mxstream at issue. -/
def streamBody (i : Instr) (m : MWord) (c : Nat) (k : StrandIx) (s : State) : Act :=
  let x := s.core c
  let base := s.rd c k m.abase
  let ent := fselEntry m.fsel (x.str k)
  let v := Tab.get 0 x.ft ent
  let live := (descsLeft x.live.desc x.shadow.desc x.mxq).1
  match mxCheck i m base ent v (s.feat (s.ctx c).vf 1) ((s.die (dieOf c)).st == .early) live (s.ctx c).scrsize with
  | some (code, a) => .fault s code a
  | none => if mxWaits x i base v then .wait s else .go (s.enqueue c i base ent v) .fall

/-- The other queued words at issue. -/
def bankBody (i : Instr) (m : MWord) (c : Nat) (k : StrandIx) (s : State) : Act :=
  let x := s.core c
  let base := s.rd c k m.abase
  match bankCheck i m base (s.ctx c).scrsize with
  | some (code, a) => .fault s code a
  | none => if mxWaits x i base 0 then .wait s else .go (s.enqueue c i base 0 0) .fall

def mxInfo (m : MWord) (rs : List Reg) : Info := { y := m.n.y, t := m.n.t, who := 4, reads := rs, recs := true }

def execMxstat (m : MWord) (s : State) : Result := issue (.mxstat m) (mxInfo m [m.abase]) (streamBody (.mxstat m) m) s
def execMxstatT (m : MWord) (s : State) : Result := issue (.mxstatT m) (mxInfo m [m.abase]) (streamBody (.mxstatT m) m) s
def execMxflip (m : MWord) (s : State) : Result := issue (.mxflip m) (mxInfo m []) (bankBody (.mxflip m) m) s
def execMxstream (m : MWord) (s : State) : Result := issue (.mxstream m) (mxInfo m [m.abase]) (streamBody (.mxstream m) m) s
def execMxswap (m : MWord) (s : State) : Result := issue (.mxswap m) (mxInfo m []) (bankBody (.mxswap m) m) s
def execMxread (m : MWord) (s : State) : Result :=
  issue (.mxread m) { mxInfo m [m.abase] with feat := if m.dt = 10 && mxfW m.mxf < 8 then [(1, 6)] else [] }
    (bankBody (.mxread m) m) s
def execMxreadFlags (m : MWord) (s : State) : Result :=
  issue (.mxreadFlags m) (mxInfo m [m.abase]) (bankBody (.mxreadFlags m) m) s
def execMxwrite (m : MWord) (s : State) : Result := issue (.mxwrite m) (mxInfo m [m.abase]) (bankBody (.mxwrite m) m) s
def execMxwriteFlags (m : MWord) (s : State) : Result :=
  issue (.mxwriteFlags m) (mxInfo m [m.abase]) (bankBody (.mxwriteFlags m) m) s
def execMxclear (m : MWord) (s : State) : Result := issue (.mxclear m) (mxInfo m []) (bankBody (.mxclear m) m) s
def execMxclearAll (m : MWord) (s : State) : Result := issue (.mxclearAll m) (mxInfo m []) (bankBody (.mxclearAll m) m) s
def execMxclearFlags (m : MWord) (s : State) : Result :=
  issue (.mxclearFlags m) (mxInfo m []) (bankBody (.mxclearFlags m) m) s
def execMxclearAllFlags (m : MWord) (s : State) : Result :=
  issue (.mxclearAllFlags m) (mxInfo m []) (bankBody (.mxclearAllFlags m) m) s

/-- mxfmt, R208: it waits for every earlier matrix word and writes its entry at issue. -/
def execMxfmt (m : MWord) (s : State) : Result :=
  issue (.mxfmt m) { y := m.n.y, t := m.n.t, who := 4, reads := [m.abase] } (fun c k s =>
    let x := s.core c
    if !x.mxq.isEmpty then .wait s
    else .go (s.mapCore c (fun x => { x with ft := Tab.set 0 x.ft (fselEntry m.fsel (x.str k)) ((x.str k).rd m.abase) })) .fall) s

/-! ### Queue access -/

def isFlip : Instr → Bool | .mxflip _ => true | _ => false
def isStream : Instr → Bool | .mxstream _ => true | _ => false
def isSwap : Instr → Bool | .mxswap _ => true | _ => false
def isBank (i : Instr) : Bool := !isLoad i && !isFlip i && !isStream i

/-- Whether a stream has finished its last array cycle. -/
def MxOp.cycled (m : MxOp) : Bool := m.prog ≥ m.total

/-- The first queued word that satisfies `p`, with the words before it. -/
def firstMx (p : MxOp → Bool) : List MxOp → Option (List MxOp × MxOp)
  | [] => none
  | m :: t => if p m then some ([], m) else (firstMx p t).map (fun r => (m :: r.1, r.2))

def setMx (x : Core) (m : MxOp) : Core := { x with mxq := x.mxq.map (fun o => if o.ord = m.ord then m else o) }
def dropMx (x : Core) (ord : Nat) : Core := { x with mxq := x.mxq.filter (fun o => o.ord != ord) }

/-- A number put into a rising list that does not hold it yet. -/
def insRising (a : Nat) : List Nat → List Nat
  | [] => [a]
  | b :: t => if a < b then a :: b :: t else if a = b then b :: t else b :: insRising a t

/-- The never-written granules among spans, in rising order. -/
def unwrittenSpans (x : Core) (l : List (Nat × Nat)) : List Nat :=
  (l.flatMap (fun s => x.unwritten s.1 s.2)).foldl (fun t a => insRising a t) []

/-- A read of the spans `l` by a matrix word, R204: the state after one warning for each granule not read before by the word (`old`), or
a stop that names the lowest never-written granule of all that the word reads (`all`). -/
def mxRead (s : State) (c : Nat) (l all : List (Nat × Nat)) (old : Nat → Bool) : Except State State :=
  match unwrittenSpans (s.core c) l, (s.ctx c).scrmode.toNat with
  | [], _ => .ok s
  | g :: _, 2 => .error (s.raiseOp c .c 0x05 (BitVec.ofNat 64 (16 * (unwrittenSpans (s.core c) all).headD g)))
  | gs, 1 => .ok (s.warn c .c (gs.filter (fun g => !old g)))
  | _, _ => .ok s

/-! ### Reads part by part, R199, R201 -/

/-- The bytes of spans as a table by address, joined to a table. -/
def sampleSpans (mem : Tab Byte) (t : Tab Byte) (l : List (Nat × Nat)) : Tab Byte :=
  l.foldl (fun t s => (List.range s.2).foldl (fun t j => Tab.set 0 t (s.1 + j) (Tab.get 0 mem (s.1 + j))) t) t

/-- The granules of the elements that a load reads before its scales, and all that a word reads. -/
def elemGrans (i : Instr) (base v : Word) : List Nat := match i with
  | .mxstat m | .mxstatT m =>
    let row := statRow m (isTr i) v (entK v)
    ((runs (m.start base) (m.pitch row) row (if isTr i then m.N else entK v)).flatMap spanGrans).eraseDups
  | i => ((mxReads i base v).flatMap spanGrans).eraseDups
def MxOp.left (o : MxOp) : List Nat := o.todo.getD ((mxReads o.img o.base o.entv).flatMap spanGrans).eraseDups

/-- Some `n` of a list of granules, in no stated order: each pick is a free value (log entry 15). -/
def State.pickGrans : Nat → State → List Nat → State × List Nat
  | 0, s, _ => (s, [])
  | n + 1, s, l =>
    if l.isEmpty then (s, []) else
    let a := s.draw
    let i := a.1.toNat % l.length
    let r := pickGrans n a.2 (l.eraseIdx i)
    (r.1, l.getD i 0 :: r.2)

/-- One read cycle of a matrix word, 128 bytes: eight of the granules it has left, those of elements before those of scales. -/
def readGrans (s : State) (c : Nat) (o : MxOp) : Except State (State × MxOp) :=
  let el := o.left.filter (fun g => (elemGrans o.img o.base o.entv).contains g)
  let r := s.pickGrans 8 (if el.isEmpty then o.left else el)
  match mxRead r.1 c (r.2.map (fun g => (16 * g, 16))) (mxReads o.img o.base o.entv) (fun _ => false) with
  | .error t => .error t
  | .ok t =>
    let l := o.left.filter (fun g => !r.2.contains g)
    .ok (t, { o with todo := some l, read := l.isEmpty, aby := sampleSpans (t.core c).scr o.aby (r.2.map (fun g => (16 * g, 16))) })

/-! ### The load pipe, R193, R199 -/

/-- Bits(x, i, w): the i-th code of `w` bits from a byte address. -/
def bitsAt (mem : Tab Byte) (x i w : Nat) : Nat :=
  let b := x + w * i / 8
  leNat (readBytes mem b 3) / 2 ^ (w * i % 8) % 2 ^ w

/-- The plane that a load leaves. -/
def loadPlane (mem : Tab Byte) (i : Instr) (m : MWord) (base v : Word) : Plane :=
  let k := entK v
  let n := m.N
  let w := fmtWidth (fmtB v)
  let tr := isTr i
  let y := m.start base
  let q := m.pitch (statRow m tr v k)
  let code (kk nn : Nat) : Nat := if tr then bitsAt mem (y + nn * q) kk w else bitsAt mem (y + kk * q) nn w
  let s0 := y + 16 * m.soff.toNat
  let sc (j nn : Nat) : Nat := (Tab.get 0 mem (if tr then s0 + nn * (k / 32) + j else s0 + j * n + nn)).toNat
  let fill (rows : Nat) (f : Nat → Nat → Nat) : Tab Nat :=
    (List.range (rows * n)).filterMap (fun e => let v := f (e / n) (e % n); if v = 0 then none else some (e / n * 1024 + e % n, v))
  { codes := fill k code, scales := if isMx (fmtB v) then fill (k / 32) sc else [], valid := true, bfmt := fmtB v, kk := k, nn := n
    sb := m.sb }

/-- One cycle of the load pipe: it starts a load when every earlier load and mxflip has completed; it reads until no
granule is left and completes four cycles after the last read. A load that has begun leaves the shadow plane invalid until it completes. -/
def planeLoad (c : Nat) (s : State) : State :=
  let x := s.core c
  if !x.alive then s else
  match firstMx (fun m => isLoad m.img || isFlip m.img) x.mxq with
  | none => s
  | some (_, m) =>
    if isFlip m.img then s else
    let w := mword m.img
    if !m.read then
      let s := s.mapCore c (fun x => { x with shadow := { x.shadow with valid := false } })
      match readGrans s c m with
      | .error s => s
      | .ok (s, o) =>
        s.mapCore c (fun x => setMx (if o.read then { x with shadow := { loadPlane o.aby o.img w o.base o.entv with valid := false } } else x)
          { o with prog := o.prog + 1 })
    else if m.tail + 1 < 4 then s.mapCore c (fun x => setMx x { m with tail := m.tail + 1 })
    else s.mapCore c (fun x => dropMx { x with shadow := { x.shadow with valid := true } } m.ord)

def execPlaneLoad (s : State) : Result := turnEvent (fun c _ _ s => planeLoad c s) s

/-- mxflip exchanges the planes, R195. -/
def planeFlip (c : Nat) (s : State) : State :=
  let x := s.core c
  if !x.alive then s else
  match firstMx (fun m => isFlip m.img) x.mxq with
  | none => s
  | some (before, m) =>
    if before.any (fun o => isLoad o.img || (isStream o.img && !o.cycled)) then s
    else s.mapCore c (fun x => dropMx { x with live := x.shadow, shadow := x.live } m.ord)

def execPlaneFlip (s : State) : Result := turnEvent (fun c _ _ s => planeFlip c s) s

/-! ### The array pipe, R196, R197, spec/03 R71 to R75 -/

def bflIV : Word := 1
def bflSOV : Word := 2
def bflRNV : Word := 4
def bflROF : Word := 8
def bflRUF : Word := 16
def bflRNX : Word := 32
def bflAOF : Word := 64
def bflIf (b : Bool) (f : Word) : Word := if b then f else 0

/-- A code read as its operand's signedness says. -/
def codeInt (w : Nat) (sg : Bool) (v : Nat) : Int := if sg then swrap v w else v

/-- The term of one group of 32: an exact value for binary64 entries, an integer for s64 entries, and IV. -/
structure Term where
  f  : Fv
  i  : Int
  iv : Bool

/-- IntGroupTerm of R73. -/
def intTerm (v : Word) (d : Int) (cA cB : Nat) : Term :=
  if isPlain (fmtA v) then ⟨.num false 0 0, d, false⟩
  else if cA = 0xFF || cB = 0xFF then ⟨.nan, 0, true⟩
  else
    let e : Int := cA + cB - 254 - fmtFrac (fmtA v) - fmtFrac (fmtB v)
    ⟨.num (d < 0) d.natAbs e, (roundInt 0 0 (d < 0) d.natAbs (e + fmtQf v)).1, false⟩

/-- One term from the element codes of A and B in a group. -/
def groupTerm (v : Word) (sa sb : Bool) (as bs : List Nat) (cA cB : Nat) : Term :=
  if fmtA v = 0 then
    let r := bf16Group ((as.zip bs).map (fun p => ((readF bf16 false p.1).1, (readF bf16 false p.2).1)))
    ⟨r.1, 0, r.2⟩
  else intTerm v ((as.zip bs).map (fun p => codeInt (fmtWidth (fmtA v)) sa p.1 * codeInt (fmtWidth (fmtB v)) sb p.2)).sum cA cB

/-- One addition to an entry, R74, R75: the entry and the bank flags. -/
def addTerm (v : Word) (e : Word × Word) (t : Term) : Word × Word :=
  if fmtAcc v = 1 then
    let y := e.1.toInt + t.i
    (toWord (satS y 64), e.2 ||| bflIf t.iv bflIV ||| bflIf (satS y 64 ≠ y) bflSOV)
  else
    let (a, sn) := readF f64 false e.1.toNat
    let (x, iv) := addFv 0 a t.f
    let r := roundFv f64 0 0 false x
    (BitVec.ofNat 64 r.1, e.2 ||| bflIf (t.iv || iv || sn) bflIV ||| bflIf (r.2 &&& flOF != 0) bflAOF)

/-- One entry of a stream: its new value and the flags. -/
def streamEntry (x : Core) (m : MWord) (o : MxOp) (e : Nat) (old : Word) : Word × Word :=
  let v := o.entv
  let k := entK v
  let wA := fmtWidth (fmtA v)
  let row := m.start o.base + e / m.N * m.pitch (streamRow v k)
  let n := m.col.toNat + e % m.N
  let ts := (List.range (k / 32)).map (fun j =>
    let ks := (List.range 32).map (32 * j + ·)
    groupTerm v m.sa m.sb (ks.map (fun q => bitsAt o.aby row q wA)) (ks.map (fun q => Tab.get 0 x.live.codes (q * 1024 + n)))
      (if isMx (fmtA v) then (Tab.get 0 o.aby (row + k * wA / 8 + j)).toNat else 0) (Tab.get 0 x.live.scales (j * 1024 + n)))
  ts.foldl (addTerm v) (if m.ovw then 0 else old, 0)

/-- One array cycle: 32 consecutive entries of the working bank. -/
def cycleBank (x : Core) (m : MWord) (o : MxOp) : Bank :=
  (List.range 32).foldl (fun b j =>
    let e := 32 * o.prog + j
    let a := m.acc.toNat + e
    let r := streamEntry x m o e (Tab.get 0 b.ent a)
    { b with ent := Tab.set 0 b.ent a r.1, bfl := b.bfl ||| r.2 }) x.work

/-- Streams whose array cycles are over complete with the updates of the last, eight cycles later. -/
def ageStreams (x : Core) : Core :=
  let q := x.mxq.map (fun o => if isStream o.img && o.cycled then { o with tail := o.tail + 1 } else o)
  { x with mxq := q.filter (fun o => !(isStream o.img && o.cycled && o.tail ≥ 8)) }

/-- One cycle of the array pipe: the head stream reads 128 of its A bytes, and once it has all runs one array cycle once every earlier mxflip
and mxswap has completed (R199, spec/10 R218; log entry 15). -/
def arrayCycle (c : Nat) (s : State) : State :=
  if !(s.core c).alive then s else
  let s := s.mapCore c ageStreams
  let x := s.core c
  match firstMx (fun m => isStream m.img && !m.cycled) x.mxq with
  | none => s
  | some (before, o) =>
    let m := mword o.img
    if !o.read then
      match readGrans s c o with
      | .error s => s
      | .ok (s, o) => s.mapCore c (fun x => setMx x o)
    else if before.any (fun p => isFlip p.img || isSwap p.img) then s
    else s.mapCore c (fun x => setMx { x with work := cycleBank x m o } { o with prog := o.prog + 1 })

def execArrayCycle (s : State) : Result := turnEvent (fun c _ _ s => arrayCycle c s) s

/-! ### The bank pipe, spec/10 R214 to R218 -/

/-- mxswap exchanges the banks once every earlier stream and bank word has completed. -/
def bankExchange (c : Nat) (s : State) : State :=
  let x := s.core c
  if !x.alive then s else
  match firstMx (fun m => isSwap m.img) x.mxq with
  | none => s
  | some (before, m) =>
    if before.any (fun o => isStream o.img || isBank o.img) then s
    else s.mapCore c (fun x => dropMx { x with work := x.vis, vis := x.work } m.ord)

def execBankExchange (s : State) : Result := turnEvent (fun c _ _ s => bankExchange c s) s

/-- x of R214: an entry with its fraction bits and shift, and whether it is a signalling NaN. -/
def bankValue (m : MWord) (e : Word) : Fv × Bool :=
  let r := if m.sk then (Fv.num (e.toInt < 0) e.toInt.natAbs (-(m.qf.toNat : Int)), false) else readF f64 false e.toNat
  (match r.1 with
    | .num s n x => .num s n (x - m.shr.toNat)
    | y => y, r.2)

/-- Conversion to a scratch type, R214: the element and the flags. -/
def bankOut (m : MWord) (v : Fv × Bool) : Nat × Word :=
  let dt := m.dt.toNat
  if dt ≥ 7 then
    let r := roundFv (fmtOf dt) m.rmf.toNat 0 false v.1
    (r.1, bflIf (r.2 &&& flNX != 0) bflRNX ||| bflIf (r.2 &&& flOF != 0) bflROF ||| bflIf (r.2 &&& flUF != 0) bflRUF
      ||| bflIf v.2 bflRNV)
  else
    let r := floatToInt m.rmf.toNat 0 (dt % 2 == 0) (8 * etSize dt) v.1
    (wrapN r.1 (8 * etSize dt), bflIf (r.2 &&& flNV != 0) bflRNV ||| bflIf (r.2 &&& flNX != 0) bflRNX)

/-- Conversion of an element to an entry, R215. -/
def bankIn (m : MWord) (raw : Nat) : Word × Word :=
  let dt := m.dt.toNat
  let (v, sn) := if dt ≥ 7 then readF (fmtOf dt) false raw else (ofIntFv (etInt' dt raw), false)
  if !m.sk then
    let r := roundFv f64 m.rmf.toNat 0 false v
    (BitVec.ofNat 64 r.1, bflIf (r.2 &&& flNX != 0) bflRNX ||| bflIf sn bflRNV)
  else
    let w := match v with
      | .num s n e => .num s n (e + m.qf.toNat)
      | y => y
    let r := floatToInt m.rmf.toNat 0 true 64 w
    (toWord r.1, bflIf (r.2 &&& flNV != 0) bflRNV ||| bflIf (r.2 &&& flNX != 0) bflRNX)

/-- One cycle of mxread: the bytes written and the flags. -/
def readCycle (x : Core) (m : MWord) (base : Word) (j : Nat) : List (Nat × List Byte) × Word :=
  let ent (e : Nat) := bankValue m (Tab.get 0 x.vis.ent (m.acc.toNat + e))
  let sp := cycleSpans m (m.start base) j
  if m.dt = 11 then ([(m.start base, w8 x.vis.bfl)], 0)
  else if m.dt = 10 then
    let w := mxfW m.mxf
    let r := mxScale w (mxfF m.mxf) (mxfSigned m.mxf) m.rmf.toNat ((List.range 32).map (fun e => (ent (32 * j + e)).1)) []
    ((sp.zip [leBytes (4 * w) (packBits w r.2.1), leBytes 1 r.1]).map (fun p => (p.1.1, p.2)),
      bflIf r.2.2 bflRNX ||| bflIf ((List.range 32).any (fun e => (ent (32 * j + e)).2)) bflRNV)
  else
    let rs := (sp.zip (List.range 32)).map (fun p => let o := bankOut m (ent (32 * j + p.2)); ((p.1.1, leBytes p.1.2 o.1), o.2))
    (rs.map Prod.fst, rs.foldl (fun f r => f ||| r.2) 0)

/-- One cycle of mxwrite on the visible bank. -/
def writeCycle (x : Core) (m : MWord) (base : Word) (j : Nat) : Bank :=
  let get (a n : Nat) : Nat := leNat (readBytes x.scr a n)
  if m.dt = 11 then { x.vis with bfl := BitVec.ofNat 64 (get (m.start base) 8 % 128) }
  else ((cycleSpans m (m.start base) j).zip (List.range 32)).foldl (fun b p =>
    let r := bankIn m (get p.1.1 p.1.2)
    { b with ent := Tab.set 0 b.ent (m.acc.toNat + 32 * j + p.2) r.1, bfl := b.bfl ||| r.2 }) x.vis

/-- One cycle of mxclear on the visible bank; the flags are cleared with the last. -/
def clearCycle (i : Instr) (b : Bank) (j total : Nat) : Bank :=
  let m := mword i
  let first : Nat := match i with | .mxclear _ => m.acc.toNat | _ => 0
  let ents : Bool := match i with | .mxclearFlags _ => false | _ => true
  let flags : Bool := match i with | .mxclearFlags _ | .mxclearAllFlags _ => true | _ => false
  { b with ent := if ents then b.ent.filter (fun e => !(first + 256 * j ≤ e.1 && e.1 < first + 256 * j + 256)) else b.ent
           bfl := if flags && j + 1 = total then 0 else b.bfl }

/-- The cycle `prog` of the head word of the bank pipe. -/
def bankCycle (s : State) (c : Nat) (o : MxOp) : Except State State :=
  let m := mword o.img
  match o.img with
  | .mxread _ | .mxreadFlags _ =>
    let r := readCycle (s.core c) m o.base o.prog
    .ok (s.mapCore c (fun x => r.1.foldl (fun x w => x.scrWrite w.1 w.2) { x with vis := { x.vis with bfl := x.vis.bfl ||| r.2 } }))
  | .mxwrite _ | .mxwriteFlags _ =>
    let before := (List.range o.prog).flatMap (fun j => (cycleSpans m (m.start o.base) j).flatMap spanGrans)
    match mxRead s c (cycleSpans m (m.start o.base) o.prog) o.pendR before.contains with
    | .error s => .error s
    | .ok s => .ok (s.mapCore c (fun x => { x with vis := writeCycle x m o.base o.prog }))
  | i => .ok (s.mapCore c (fun x => { x with vis := clearCycle i x.vis o.prog o.total }))

def isClear : Instr → Bool
  | .mxclear _ | .mxclearAll _ | .mxclearFlags _ | .mxclearAllFlags _ => true
  | _ => false

/-- One clock cycle of the bank pipe. -/
def bankPipe (c : Nat) (s : State) : State :=
  let x := s.core c
  if !x.alive then s else
  match firstMx (fun m => isBank m.img) x.mxq with
  | none => s
  | some (_, o) =>
    if isSwap o.img then s
    else if o.cycled then
      if o.tail + 1 < 4 then s.mapCore c (fun x => setMx x { o with tail := o.tail + 1 }) else s.mapCore c (fun x => dropMx x o.ord)
    else match bankCycle s c o with
      | .error s => s
      | .ok s =>
        if isClear o.img && o.prog + 1 = o.total then s.mapCore c (fun x => dropMx x o.ord)
        else s.mapCore c (fun x => setMx x { o with prog := o.prog + 1 })

def execBankPipeCycle (s : State) : Result := turnEvent (fun c _ _ s => bankPipe c s) s

end Sys2Proof.Machine
end

