-- ==== Sys2Proof/Machine/System.lean ====
section
/-!
DEFINITION. System registers (spec/05 R113, R114, spec/07 R158, spec/15 R317, R318), trap and brk (R116), and the report of a
watchpoint (spec/15 R320).
-/

namespace Sys2Proof.Machine

/-- Value of a system register, R114. A core leaves reset when its die leaves SELFTEST (spec/20 R399; log entry 66). -/
def State.sysRead (s : State) (c : Nat) (k : StrandIx) (r : BitVec 8) : Word :=
  let t := s.str c k
  let x := s.ctx c
  match r.toNat with
  | 0x00 => t.sst
  | 0x01 => t.sgn
  | 0x02 => t.ls0
  | 0x03 => t.le0
  | 0x04 => t.lc0.setWidth 64
  | 0x05 => t.ls1
  | 0x06 => t.le1
  | 0x07 => t.lc1.setWidth 64
  | 0x10 => BitVec.ofNat 64 (c % 4096)
  | 0x11 => BitVec.ofNat 64 (s.cycleOf c)
  | 0x18 => x.tvec
  | 0x19 => x.tcause
  | 0x1A => x.tval
  | 0x1B => x.tsave
  | 0x1C => x.tadp
  | 0x20 => BitVec.ofNat 64 x.scrsize
  | 0x21 => x.scrmode.setWidth 64
  | 0x22 => (s.core c).tagcfg
  | 0x28 => BitVec.ofNat 64 s.dieclk
  | 0x29 => 1
  | n => if 0x30 ≤ n && n ≤ 0x37 then (if n % 2 = 0 then Tab.get 0 x.wpa ((n - 0x30) / 2) else Tab.get 0 x.wpc ((n - 0x30) / 2))
    else 0

/-- Whether a number names wpa or wpc of a watchpoint. -/
def isWpc (n : Nat) : Bool := 0x30 ≤ n && n ≤ 0x37 && n % 2 == 1
def isWpa (n : Nat) : Bool := 0x30 ≤ n && n ≤ 0x37 && n % 2 == 0

/-- Reasons 5 and 6 of R48 on a value written, R7, R14, R114, R115, R157, R317, with the features of spec/20 R402. -/
def sysValueReason (pdebug stoch : Bool) (r : BitVec 8) (v : Word) : Option (BitVec 3) :=
  let n := r.toNat
  if n = 0 then sstReason pdebug stoch v
  else if n = 0x18 then (if v.extractLsb' 0 2 ≠ 0 then some 5 else none)
  else if n = 0x19 then (if v.extractLsb' 24 40 ≠ 0 || v.extractLsb' 10 6 ≠ 0 then some 5 else none)
  else if n = 0x22 then
    (if v.extractLsb' 34 30 ≠ 0 || v.getLsbD 24 then some 5
     else if tagCount v > 256 || (v.extractLsb' 20 4).toNat > 6 then some 6 else none)
  else if isWpc n then
    (if v.extractLsb' 16 48 ≠ 0 || v.extractLsb' 4 8 ≠ 0 || v.extractLsb' 1 2 ≠ 0 then some 5
     else if (v.extractLsb' 12 4).toNat > 12 then some 6 else none)
  else none

def sysLate (a : Reg) (r : BitVec 8) (s : State) (c : Nat) (k : StrandIx) : Option (BitVec 3) :=
  sysValueReason (s.feat (s.ctx c).vf 3) (s.feat (s.ctx c).vf 2) r (s.rd c k a)

/-- The registers of R114 that a strand holds itself. -/
def Strand.sysWrite (t : Strand) (n : Nat) (v : Word) : Strand :=
  let lc := BitVec.ofNat 32 (min v.toNat (2 ^ 32 - 1))
  match n with
  | 0 => { t with sst := v }
  | 1 => { t with sgn := if v = 0 then 1 else v }
  | 2 => { t with ls0 := v }
  | 3 => { t with le0 := v }
  | 4 => { t with lc0 := lc }
  | 5 => { t with ls1 := v }
  | 6 => { t with le1 := v }
  | 7 => { t with lc1 := lc }
  | _ => t

/-- A watchpoint of a task is disarmed. -/
def State.disarm (s : State) (task ix : Nat) : State :=
  { s with armed := s.armed.filter (fun a => !(a.task == task && a.ix == ix)) }

/-- A sysset of wpc with EN = 1, R318: the range is translated and armed at its home port. Every failure is logged (R313); a page outside
HBM and SDM has reason 4 (log entry 80). -/
def armBody (s : State) (c : Nat) (ix : Nat) (v : Word) : Act :=
  let x := s.ctx c
  let va := Tab.get 0 x.wpa ix
  let size := 2 ^ (4 + (v.extractLsb' 12 4).toNat)
  if !canonical va || va.toNat % size ≠ 0 then .fault s 0x07 va else
  let bad (s : State) (fw : Bool) (r : Nat) : Act := .fault (s.logAf (dieOf c) x.vf ⟨va, c, .read, r⟩) (if fw then 0x39 else 0x0C) va
  match translate s c (unitHead .s) x.vf va .read with
  | (s, .fault fw r) => bad s fw r
  | (s, .ok pa) =>
    if s.refused (dieOf c) pa then bad (s.deny (dieOf c) x.vf pa) true 10 else
    match homeOf pa with
    | .hbm _ | .sdm _ =>
      if s.heldUp (dieOf c) pa then .wait (s.holdReq (dieOf c) pa) else
      let s := s.disarm x.task ix
      .go (({ s with armed := s.armed ++ [⟨x.task, ix, pa, size⟩] } : State).mapCtx c (fun y => { y with wpc := Tab.set 0 y.wpc ix v })) .fall
    | _ => bad s false 4
  | (s, _) => .wait s

/-- sysset, R113, with the checks of R114, R158 and R318 on the value. A tagcfg counts at once for the words of this clock cycle whose
turn follows, and only the clearing of the entries waits for its end (DESIGN CHOICE, log entry 75). -/
def sysSetBody (a : Reg) (r : BitVec 8) (c : Nat) (k : StrandIx) (s : State) : Act :=
  let v := s.rd c k a
  let n := r.toNat
  let ix := (n - 0x30) / 2
  if n ≤ 7 then
    if n = 1 && k = .c && (s.core c).drawing then .wait s else .go (s.mapStr c k (·.sysWrite n v)) .fall
  else if n = 0x18 then
    if !canonical v then .fault s 0x07 v else .go (s.mapCtx c (fun x => { x with tvec := v })) .fall
  else if n = 0x19 then .go (s.mapCtx c (fun x => { x with tcause := v })) .fall
  else if n = 0x1A then .go (s.mapCtx c (fun x => { x with tval := v })) .fall
  else if n = 0x22 then
    let b := tagBase v
    let e := b + tagCount v * tagSlot v
    if b % tagSlot v ≠ 0 then .fault s 0x07 (BitVec.ofNat 64 b)
    else if e > (s.ctx c).scrsize then .fault s 0x06 (BitVec.ofNat 64 e)
    else .go (s.mapCore c (fun x => tagWrite { x with tagcfg := v } (1 + ixOf k) none none)) .fall
  else if isWpa n then .go (s.mapCtx c (fun x => { x with wpa := Tab.set 0 x.wpa ix v })) .fall
  else if v.getLsbD 0 then armBody s c ix v
  else .go ((s.disarm (s.ctx c).task ix).mapCtx c (fun x => { x with wpc := Tab.set 0 x.wpc ix v })) .fall

def execSysget (n : Ann) (d : Reg) (r : BitVec 8) (s : State) : Result :=
  issue (.sysget n d r) { y := n.y, t := n.t, dst := [d], recs := true } (fun c k s =>
    let v := s.sysRead c k r
    .go (s.land c k (.sysget n d r) d [v] 2 v 0 0) .fall) s
def execSysset (n : Ann) (a : Reg) (r : BitVec 8) (s : State) : Result :=
  issue (.sysset n a r) { y := n.y, t := n.t, reads := [a], lreg := [a], late := sysLate a r } (sysSetBody a r) s

/-- A trap or brk stops the core at the end of its clock cycle with a cause of rank 1, R116, R123. -/
def State.trapStop (s : State) (c : Nat) (k : StrandIx) (code : Nat) (info : BitVec 8) (tval : Word) : State :=
  s.mapCore c (fun x => { x with stops := x.stops ++ [⟨1, k, code, info, tval⟩] })

def execTrap (n : Ann) (a : Reg) (i : BitVec 8) (s : State) : Result :=
  issue (.trap n a i) { y := n.y, t := n.t, reads := [a] } (fun c k s => .go (s.trapStop c k 0x03 i (s.rd c k a)) .fall) s
def execBrk (n : Ann) (i : BitVec 8) (s : State) : Result :=
  issue (.brk n i) { y := n.y, t := n.t } (fun c k s => .go (s.trapStop c k 0x02 i (s.str c k).pc) .fall) s

/-- The lowest held report of a context. -/
def Ctx.report (x : Ctx) : Option (Nat × Word) :=
  (List.range 4).findSome? (fun i => (Tab.get none x.reports i).map (fun v => (i, v)))

/-- A held report of watchpoint `i` is raised on its owner's core, lowest index first, while DEPTH = 0 (R320). It stays held
until its stop is taken. -/
def reportWatch (c i : Nat) (s : State) : State :=
  let x := s.core c
  if !x.alive || (s.ctx c).depth ≠ 0 then s else
  match (s.ctx c).report with
  | some (j, v) => if j = i then
      (s.raiseOp c .s 0x28 v).postCore c .s 8 i (v.toNat % 2 ^ 32) (v.toNat / 2 ^ 32)
    else s
  | none => s

def execWatchpoint (core i : Nat) (s : State) : Result := event (reportWatch core i) s

end Sys2Proof.Machine
end

