-- ==== Sys2Proof/Machine/Replay.lean ====
section
/-!
DEFINITION. The checks of tret and the replay of tadpole records (spec/06 R136, R137, spec/12 R244 to R252, spec/08 R188,
spec/09 R205, spec/10 R221, spec/11 R242, R243).
-/

namespace Sys2Proof.Machine

/-! ### Reading an area -/

/-- A tadpole record as tret reads it, R132, R133; `off` is its byte offset in the area, `rest` and `pad` say that a reserved
field of the header, or a byte of the image beyond its word, is not zero. -/
structure TadRec where
  off  : Nat
  k    : StrandIx
  kind : Nat
  pw   : Bool
  seq  : Nat
  dk   : Nat
  dreg : Nat
  elap : Nat
  rest : Bool
  pad  : Bool
  img  : Instr
  op0  : Word
  op1  : Word
  op2  : Word
  prog : Word
deriving DecidableEq, Repr

/-- The parcels of a word image. -/
def imageParcels (b : List Byte) : List (BitVec 32) :=
  let ps := (List.range 6).map (fun i => BitVec.ofNat 32 (fieldAt b (4 * i) 4))
  ps.take (parcelCount (ps.headD 0))

/-- The record in 64 bytes, or none where V = 0. -/
def tadRec (off : Nat) (b : List Byte) : Option TadRec :=
  let h := wordAt b 56
  if !h.getLsbD 63 then none else some
  { off := off, k := ofIx (h.extractLsb' 61 2).toNat, kind := (h.extractLsb' 59 2).toNat, pw := h.getLsbD 58
    seq := (h.extractLsb' 40 16).toNat, dk := (h.extractLsb' 37 3).toNat, dreg := (h.extractLsb' 32 5).toNat
    elap := (h.extractLsb' 24 8).toNat, rest := h.extractLsb' 56 2 != 0 || h.extractLsb' 0 24 != 0
    pad := ((b.take 24).drop (4 * (imageParcels b).length)).any (· != 0), img := decodeParcels (imageParcels b), op0 := wordAt b 24, op1 := wordAt b 32, op2 := wordAt b 40, prog := wordAt b 48 }

/-- A shape image, R228: the shape and whether its other bits are 0. -/
def imageShape (b : List Byte) : Shape :=
  { bytes := b.take 128, fill := wordAt b 128
    org := (List.range 9).map (fun j => (wordAt b (136 + 8 * j)).toInt), valid := fieldAt b 208 1 % 2 = 1 }

/-- The slot of a record's snapshot in the area, or none for a number of 32 or above (R246). -/
def slotShape (area : List Byte) (op2 : Word) : Option Shape :=
  let s := (op2.extractLsb' 0 6).toNat
  if s ≥ 32 then none else some (imageShape ((area.drop (0x1100 + 256 * s)).take 256))

/-! ### What kind of record a word leaves, R134, R242, R249 -/

/-- Kinds, DK and the largest exposed latency (0 when none) of a word's own record; `n` is a vector word's count. -/
def recForm (i : Instr) (n : Nat) : Option (List Nat × Nat × Nat) :=
  match i with
  | .mul .. | .mulh .. => some ([0], 1, 3)
  | .sysget .. | .tkcount .. | .evpoll .. => some ([0], 1, 2)
  | .tglook .. => some ([0], 1, 3)
  | .div .. | .rem .. | .evpop .. | .btest .. | .asstatSt .. | .asstatAge .. | .asstatSet .. => some ([0], 1, 0)
  | .ldS8 .. | .ldS16 .. | .ldS32 .. | .ldN8 .. | .ldN16 .. | .ldN32 .. | .ldD .. => some ([0], 1, 4)
  | .ldQ .. => some ([0], 2, 4)
  | .stB .. | .stH .. | .stW .. | .stD .. | .stQ .. => some ([0], 3, 2)
  | .gld _ _ _ _ _ q => some ([0], if q then 2 else 1, 0)
  | .gst .. => some ([1], 5, 0)
  | .seam .. => some ([1], 0, 0)
  | .mxfmt _ | .vseed _ => none
  | i => match encV i, encM i with
    | some (_, v), _ => some ([0, 2], 3, vlam i v n)
    | _, some _ => some ([2], mxDk i, 0)
    | none, none =>
      if givesLater i then some ([1, 2], if copyDrains i then 0 else if copyWritesScr i then 3 else 5, 0) else none

/-- The destination register of a record's word. -/
def recReg : Instr → Nat
  | .mul _ d _ _ _ | .mulh _ d _ _ _ | .div _ d _ _ _ | .rem _ d _ _ _ | .sysget _ d _ | .tkcount _ d _ | .evpoll _ d | .tglook _ d _
  | .evpop _ d | .btest _ d _ | .asstatSt _ d | .asstatAge _ d | .asstatSet _ d _ | .ldS8 _ d _ _ | .ldS16 _ d _ _ | .ldS32 _ d _ _
  | .ldN8 _ d _ _ | .ldN16 _ d _ _ | .ldN32 _ d _ _ | .ldD _ d _ _ | .gld _ d _ _ _ _ => d.toNat
  | .ldQ _ d _ _ => 2 * d.toNat
  | _ => 0

/-- Features a word needs, spec/20 R402. -/
def recFeat (i : Instr) : List (Nat × BitVec 3) :=
  match i with
  | .asdecl .. | .asdeclRm .. | .asabort .. | .asstatSt .. | .asstatAge .. | .asstatSet .. => [(8, 2)]
  | .mxread m => if m.dt = 10 && mxfW m.mxf < 8 then [(1, 6)] else []
  | i => match encV i with
    | some (_, v) => vfeat i v
    | none => []

/-- Whether an image fails the checks of R48 as a word of its strand. -/
def imageBad (s : State) (c : Nat) (r : TadRec) : Bool :=
  let p := parcel0 r.img
  (illegal r.img { y := false, t := (annOf p).t, who := whoOf p, feat := recFeat r.img } s c r.k).isSome

/-- Element count of a vector record: its VLG count or its own, R134. -/
def recCount (v : VWord) (prog : Word) : Nat := if v.vlg then (prog.extractLsb' 48 16).toNat else immCount v
def recCursor (prog : Word) : Nat := prog.toNat % 2 ^ 48

/-- Whether a record stands for gives alone, R134. -/
def TadRec.givesOnly (r : TadRec) : Bool := r.dk == 0 && r.pw

/-! ### Checks of one record, R252 -/

/-- The copy form of a command from its captured operands, with the snapshot as shape 0. -/
def replayForm (i : Instr) (op0 op1 op2 : Word) (z : Nat) : CpForm :=
  let sh : Option (BitVec 4) := some 0
  match i with
  | .cpgat .. | .cpsca .. => { shape := sh, img := some op0.toNat, zimg := z, idx := some (op2.extractLsb' 8 20).toNat, glob := some op1, al := z }
  | .cpldm .. => { shape := sh, img := some (op0.toNat % 2 ^ 48), zimg := z, glob := some op1, al := z }
  | .cptag .. => { shape := sh, glob := some op1, al := z }
  | .cpfill .. => { shape := sh, glob := some op1, al := z }
  | .cpfillScr .. => { shape := sh, img := some op1.toNat, zimg := z }
  | .cpres .. | .cpreg .. => { word := some op0, glob := some op1, al := 16 }
  | .cpsig .. => { glob := some op1, al := 128 }
  | .cpdrain .. | .cpdrainBoth .. | .seam .. => {}
  | .cpld .. | .cpst .. => { shape := sh, img := some op0.toNat, zimg := z, glob := some op1, al := z }
  | i => { shape := sh, img := some (op0.toNat % 2 ^ 47), zimg := if accOp i = 7 then 16 else z, glob := some op1, al := z }

/-- The elements of a command. -/
def cmdCount (i : Instr) (sh : Option Shape) : Nat := match i with
  | .cpres .. | .cpreg .. | .cpsig .. => 1
  | _ => match sh with
    | some y => recN y.bytes
    | none => 0

/-- The faults of a copy command other than those of its form. -/
def cmdExtraBad (i : Instr) (op0 : Word) (sh : Shape) (x : Core) : Bool :=
  let z := etSize (recEt sh.bytes)
  match i with
  | .cpldm .. => op0.extractLsb' 48 16 == 0
  | .cptag .. => (tagFault x op0).isSome || recN sh.bytes * z > tagSlot x.tagcfg
  | .cpaccAdd .. | .cpaccMin .. | .cpaccMax .. | .cpaccAnd .. | .cpaccOr .. | .cpaccXor .. | .cpaccXchg .. | .cpaccCas .. =>
    op0.extractLsb' 48 16 != 0
  | _ => false

def copyRecBad (s : State) (c : Nat) (area : List Byte) (r : TadRec) : Bool :=
  let x := s.core c
  let want := (replayForm r.img 0 0 0 0).shape.isSome
  let own := match r.k with | .l | .w => true | _ => false
  let sh := if r.op2.getLsbD 7 then slotShape area r.op2 else none
  let slotBad := r.op2.getLsbD 7 && (match sh with
    | none => true
    | some y => !y.valid || (recCheck y.bytes).isSome)
  let y := sh.getD {}
  !own || want != r.op2.getLsbD 7 || slotBad
    || recCursor r.prog > cmdCount r.img sh || cmdExtraBad r.img r.op0 y x
    || (formCheck r.img (replayForm r.img r.op0 r.op1 r.op2 (etSize (recEt y.bytes))) (x.setShape 0 y) (s.ctx c).scrsize).isSome

/-- Whether a scalar word would fault on replay, R136. -/
def scalarRecBad (s : State) (c : Nat) (r : TadRec) : Bool :=
  let ld (z : Nat) : Bool := (s.scrFault c r.op0 z).isSome || ((s.ctx c).scrmode = 2 && !((s.core c).unwritten r.op0.toNat z).isEmpty)
  let st (z : Nat) : Bool := (s.scrFault c r.op2 z).isSome
  match r.img with
  | .div .. | .rem .. => r.op1 == 0
  | .ldS8 .. | .ldN8 .. => ld 1
  | .ldS16 .. | .ldN16 .. => ld 2
  | .ldS32 .. | .ldN32 .. => ld 4
  | .ldD .. => ld 8
  | .ldQ .. => ld 16
  | .stB .. => st 1
  | .stH .. => st 2
  | .stW .. => st 4
  | .stD .. => st 8
  | .stQ .. => st 16
  | .gld _ _ _ _ _ q => gAddrBad r.op2 (if q then 16 else 8)
  | .gst .. => gAddrBad r.op2 16
  | .btest _ _ b => s.barBad c b || s.barBad c (r.op0.extractLsb' 0 5)
  | _ => false

/-- A vector word: its count, cursor and addresses. -/
def vecRecBad (s : State) (c : Nat) (v : VWord) (r : TadRec) : Bool :=
  let n := recCount v r.prog
  let k := vkind r.img
  n == 0 || n > 1024 || ((k == .pack || k == .unpack) && n % 32 ≠ 0) || recCursor r.prog ≥ n
    || ((vlay k v n r.op0 r.op1 r.op2).check (s.ctx c).scrsize).isSome

/-- Header fields against R133 and R134. DREG must be the destination of the record's own image (DESIGN CHOICE, log entry 34: R133 does not
say which of the two wins when a handler edits one). -/
def headerBad (r : TadRec) : Bool :=
  let n := match encV r.img with
    | some (_, v) => recCount v r.prog
    | none => 0
  r.rest || r.kind = 3 || r.dk ≥ 6 || ((r.dk ≠ 1 && r.dk ≠ 2) && r.dreg ≠ 0) || (r.dk = 2 && r.dreg % 2 = 1)
    || (if r.givesOnly then
          givesLater r.img || (annOf (parcel0 r.img)).t &&& 3 == 0 || r.elap ≠ 0 || r.kind ≠ 0
        else match recForm r.img n with
          | none => true
          | some (ks, dk, lam) => !ks.contains r.kind || r.dk ≠ dk || r.dreg ≠ recReg r.img
              || (if lam = 0 then r.elap ≠ 0 else r.elap = 0 || r.elap ≥ lam))

/-- Progress bits that R134 leaves 0: all of them but a vector word's count and cursor, a store's enables, and the cursors of
matrix words and copy commands, whose ranges have checks of their own (log entry 34). -/
def progressBad (r : TadRec) : Bool :=
  if r.givesOnly then r.prog != 0 else
  match r.img, encV r.img, encM r.img with
  | .gst .., _, _ => r.prog.extractLsb' 16 48 != 0
  | _, some (_, v), _ => !v.vlg && r.prog.extractLsb' 48 16 != 0
  | _, _, some _ => r.prog.extractLsb' 48 16 != 0 || r.op1.extractLsb' 4 60 != 0
  | i, none, none => if givesLater i then r.prog.extractLsb' 48 16 != 0 else r.prog != 0

/-- Whether a valid record fails its own checks; those of matrix words follow in order. -/
def recordBad (s : State) (c : Nat) (area : List Byte) (r : TadRec) : Bool :=
  imageBad s c r || r.pad || headerBad r || progressBad r || (!r.givesOnly &&
    (match encV r.img with
      | some (_, v) => vecRecBad s c v r
      | none => if givesLater r.img || isSeam r.img then copyRecBad s c area r else scalarRecBad s c r))

/-! ### Checks of the whole area -/

/-- The queue whose length R252 limits: 1 and 2 the copy queues, 3 the matrix queue, 4 up the store buffers. -/
def TadRec.queue (r : TadRec) : Option (Nat × Nat) :=
  if r.givesOnly then none
  else if givesLater r.img || isSeam r.img then some (if r.k = .l then 1 else 2, 16)
  else if (encM r.img).isSome then some (3, 8)
  else match r.img with
    | .gst .. => some (4 + ixOf r.k, 8)
    | _ => none

/-- Offsets of the records beyond a queue's limit. -/
def overLimit : List TadRec → Tab Nat → List Nat
  | [], _ => []
  | r :: t, n => match r.queue with
    | none => overLimit t n
    | some (q, lim) => (if cnt n q ≥ lim then [r.off] else []) ++ overLimit t (bump n q)

/-- Checks of the matrix records against the descriptors as earlier records change them, R205. -/
def mxRecsBad (s : State) (c : Nat) (d : Desc × Desc) : List TadRec → List Nat
  | [] => []
  | r :: t =>
    if r.givesOnly then mxRecsBad s c d t else
    match encM r.img with
    | none => mxRecsBad s c d t
    | some (_, m) =>
      let x := s.core c
      let ent := (r.op1.extractLsb' 0 4).toNat
      let v := Tab.get 0 x.ft ent
      let sz := (s.ctx c).scrsize
      let st := isLoad r.img || isStream r.img
      let fault := if st then mxCheck r.img m r.op0 ent v (s.feat (s.ctx c).vf 1) false d.1 sz else bankCheck r.img m r.op0 sz
      let bad := fault.isSome || recCursor r.prog ≥ max 1 (mxTotal r.img v)
      (if bad then [r.off] else []) ++ mxRecsBad s c (descAfter d
        { ord := 0, seq := 0, img := r.img, base := r.op0, ent := ent, entv := v, prog := 0 }) t

/-- The valid records of an area that holds `n`, in area order. -/
def areaRecords (area : List Byte) (n : Nat) : List TadRec :=
  (List.range n).filterMap (fun i => tadRec (0x100 + 64 * i) ((area.drop (0x100 + 64 * i)).take 64))

/-- The nonzero 8-byte words of a reserved run. -/
def zRun (b : List Byte) (o n : Nat) : List Nat := ((List.range (n / 8)).map (o + 8 * ·)).filter (fun a => fieldAt b a 8 ≠ 0)

/-- The failing offsets of the tadpole area, R244 to R246, R252; the reserved words of its header are of class Z (spec/00 R7). -/
def areaBad (s : State) (c : Nat) (area : List Byte) : List Nat :=
  let n := fieldAt area 0 8
  if n > 64 then [0] else
  let rs := areaRecords area n
  let send := fieldAt area 0x20 8
  (if send ≥ 3 then [0x20] else []) ++ zRun area 0x30 0xD0 ++ (rs.filter (recordBad s c area)).map (·.off) ++ overLimit rs []
    ++ mxRecsBad s c ((s.core c).live.desc, (s.core c).shadow.desc) rs

/-! ### Checks of the save area, R129, R130, R248 -/

/-- The failing offsets of a strand block, R130. -/
def blockBad (s : State) (c : Nat) (b : List Byte) (o : Nat) : List Nat :=
  let st := fieldAt b (o + 0x58) 8
  let bad (p : Bool) (a : Nat) : List Nat := if p then [o + a] else []
  bad (st ≥ 8 || (st / 2 % 2 = 1 && st % 2 = 0) || (st / 4 % 2 = 1 && st / 2 % 2 = 0)) 0x58
    ++ (if st % 2 = 0 then [] else
      let pc := wordAt b o
      bad (!parcelAligned pc || !canonical pc) 0
        ++ bad (sstReason (s.feat (s.ctx c).vf 3) (s.feat (s.ctx c).vf 2) (wordAt b (o + 8))).isSome 8
        ++ bad (fieldAt b (o + 0x2C) 4 ≠ 0) 0x28 ++ bad (fieldAt b (o + 0x44) 4 ≠ 0) 0x40
        ++ bad (fieldAt b (o + 0x50) 8 % 2 = 1 || fieldAt b (o + 0x54) 4 ≠ 0) 0x50 ++ zRun b (o + 0x60) 0xA0)

/-- The Z bits of tcause, spec/05 R115. -/
def causeBad (v : Word) : Bool := v.extractLsb' 24 40 != 0 || v.extractLsb' 10 6 != 0

def blockAt (k : StrandIx) : Nat := 0x100 + 0x200 * ixOf k

/-- The failing offsets of the save area. A token count above 8 fails at its own byte, and the nested frame, which no stop at DEPTH 0 writes,
is not checked at DEPTH 1 (DESIGN CHOICES, log entry 34). -/
def saveBad (s : State) (c : Nat) (b : List Byte) : List Nat :=
  let bad (p : Bool) (a : Nat) : List Nat := if p then [a] else []
  let evc := fieldAt b 0xB08 8
  bad (fieldAt b 0 8 ≠ 1) 0 ++ bad (causeBad (wordAt b 8)) 8 ++ bad (causeBad (wordAt b 0x20)) 0x20 ++ zRun b 0x30 0xD0
    ++ allStr.flatMap (fun k => blockBad s c b (blockAt k))
    ++ ((List.range 6).filter (fun f => fieldAt b (0xB00 + f) 1 > 8)).map (0xB00 + ·)
    ++ bad (fieldAt b 0xB06 2 ≠ 0) 0xB06 ++ bad (evc > 64) 0xB08 ++ zRun b 0xB10 0x30
    ++ ((List.range (min evc 64)).filter (fun j => (wordAt b (0xB40 + 8 * j)).extractLsb' 48 6 != 0)).map (fun j => 0xB40 + 8 * j)
    ++ zRun b 0xD40 0x2C0

/-! ### Replay, R137 -/

/-- A strand from its block. -/
def blockStrand (b : List Byte) (o : Nat) : Strand :=
  let st := fieldAt b (o + 0x58) 8
  if st % 2 = 0 then {} else
  let sgn := wordAt b (o + 0x10)
  { pc := wordAt b o, sst := wordAt b (o + 8), sgn := if sgn = 0 then 1 else sgn
    ls0 := wordAt b (o + 0x18), le0 := wordAt b (o + 0x20), lc0 := BitVec.ofNat 32 (fieldAt b (o + 0x28) 4)
    ls1 := wordAt b (o + 0x30), le1 := wordAt b (o + 0x38), lc1 := BitVec.ofNat 32 (fieldAt b (o + 0x40) 4)
    ic := fieldAt b (o + 0x48) 8, pend := BitVec.ofNat 32 (fieldAt b (o + 0x50) 4)
    started := true, running := st / 2 % 2 = 1, exiting := st / 4 % 2 = 1
    g := (List.range 31).foldl (fun t r => Tab.set 0 t (r + 1) (wordAt b (o + 0x108 + 8 * r))) [] }

/-- The full issue count that 16 bits of SEQ stand for at issue counter `ic`. -/
def fullSeq (ic seq : Nat) : Nat := ic - (ic + 2 ^ 16 - seq) % 2 ^ 16

/-- Where a register result of the record lands. -/
def dueAt (ic lam elap : Nat) : Nat := ic + lam - elap

/-- The values of a register record. -/
def recValues (s : State) (c : Nat) (r : TadRec) : List Word :=
  let mem (z : Nat) : List Byte := readBytes (s.core c).scr r.op0.toNat z
  match r.img with
  | .mul _ _ _ _ w => [mulV w r.op0 r.op1]
  | .mulh _ _ _ _ u => [mulhV u r.op0 r.op1]
  | .ldS8 .. => signedOf (mem 1)
  | .ldS16 .. => signedOf (mem 2)
  | .ldS32 .. => signedOf (mem 4)
  | .ldN8 .. => plainOf (mem 1)
  | .ldN16 .. => plainOf (mem 2)
  | .ldN32 .. => plainOf (mem 4)
  | .ldD .. => plainOf (mem 8)
  | .ldQ .. => pairOf (mem 16)
  | _ => [r.op0]

/-- Bytes of a scratch load or store. -/
def scrBytes : Instr → Nat
  | .ldS8 .. | .ldN8 .. | .stB .. => 1
  | .ldS16 .. | .ldN16 .. | .stH .. => 2
  | .ldS32 .. | .ldN32 .. | .stW .. => 4
  | .ldD .. | .stD .. => 8
  | .ldQ .. | .stQ .. => 16
  | _ => 0

/-- The old bytes a replayed store hides from its strand's resumed words. -/
def oldBytes (m : Tab Byte) (x n : Nat) : Tab Byte := (List.range n).map (fun j => (x + j, Tab.get 0 m (x + j)))

/-- A replayed gld: it reads the store buffer as it stands then, R107. -/
def replayGld (s : State) (c : Nat) (o : Op) (d : Reg) (q : Bool) : State :=
  let z := if q then 16 else 8
  let sb := (s.str c o.k).sb
  let fwd := if sbCovers sb o.op2 z then some (sbBytes sb o.op2 z) else none
  let part := fwd.isNone && sb.any (fun e => e.overlap o.op2 z != 0)
  s.addOp c { o with body := .ilock d q fwd, cnt := if part then 1 else 0 }

/-- What the ports have answered to a command before the stop, or a multicast's destinations from its mask (R123, R235). -/
def State.keptFor (s : State) (c : Nat) (r : TadRec) (seq : Nat) : Kept :=
  (((s.ctx c).kept.find? (fun e => e.k == r.k && e.seq == seq)).map (fun e =>
      { e with mleft := e.mleft.map (fun d => clusterOf c * 16 + d % 16) })).getD
    ⟨r.k, seq, none, if isMulticast r.img then (List.range 16).filterMap (fun j =>
      if r.op0.getLsbD (48 + j) then some (clusterOf c * 16 + j) else none) else [], 0, 0⟩

/-- A replayed copy command, R243: one that has sent everything only completes. -/
def replayCmd (s : State) (c : Nat) (area : List Byte) (r : TadRec) (ord seq : Nat) : State :=
  let x := s.core c
  let sh := if r.op2.getLsbD 7 then slotShape area r.op2 else none
  let n := cmdCount r.img sh
  let cur := recCursor r.prog
  let at' : Nat := match r.img with
    | .cpldm .. => r.op0.toNat % 2 ^ 48
    | .cptag .. => tagBase x.tagcfg + r.op0.toNat * tagSlot x.tagcfg
    | .cpfillScr .. => r.op1.toNat
    | .cpaccAdd .. | .cpaccMin .. | .cpaccMax .. | .cpaccAnd .. | .cpaccOr .. | .cpaccXor .. | .cpaccXchg .. | .cpaccCas .. =>
      r.op0.toNat % 2 ^ 47
    | _ => r.op0.toNat
  let e := s.keptFor c r seq
  let q : CpCmd := { k := r.k, ord := ord, seq := seq, img := r.img, sreg := r.op0, greg := r.op1
                     idx := (r.op2.extractLsb' 8 20).toNat, snap := sh, n := n, sent := cur, began := cur ≥ n && n ≠ 0, x := at'
                     mleft := e.mleft, mbad := e.mbad, port := e.port, cas := e.cas, since := s.clock }
  s.mapCore c (fun x => if r.k = .l then { x with lq := x.lq ++ [q] } else { x with wq := x.wq ++ [q] })

/-- A replayed matrix word, R205, R221: it uses the entry it resolved at its issue. -/
def replayMx (s : State) (c : Nat) (r : TadRec) (ord seq : Nat) : State :=
  let ent := (r.op1.extractLsb' 0 4).toNat
  let v := Tab.get 0 (s.core c).ft ent
  s.mapCore c (fun x => { x with mxq := x.mxq ++ [{ ord := ord, seq := seq, img := r.img, base := r.op0, ent := ent, entv := v
                                                    prog := if isLoad r.img then 0 else recCursor r.prog, total := mxTotal r.img v }] })

/-- A replayed vector word, spec/08 R188. -/
def replayVec (s : State) (c : Nat) (v : VWord) (r : TadRec) (ord seq : Nat) : State :=
  let t := s.str c .c
  let n := recCount v r.prog
  let mode := resolveRm v.rm t.sst
  let sgn := stoBackN t.sgn (vsteps r.img v n mode)
  let o := vecOp r.img v c n mode ord seq t.ic r.elap (recCursor r.prog) sgn r.op0 r.op1 r.op2 s
  o.1.addOp c o.2

/-- One record is replayed under order number `ord`. -/
def replayOne (c : Nat) (area : List Byte) (s : State) (e : TadRec × Nat) : State :=
  let r := e.1
  let ord := e.2
  let t := s.str c r.k
  let ic := t.ic
  let seq := fullSeq ic r.seq
  let o : Op := { k := r.k, ord := ord, seq := seq, img := r.img, op0 := r.op0, op1 := r.op1, op2 := r.op2, body := .ilock 0 false none }
  let g := annOf (parcel0 r.img)
  let retire (s : State) : State := s.mapStr c r.k (fun t => { t with
    ret := t.ret ++ [⟨ord, seq, r.img, g.t.getLsbD 1 && !givesLater r.img, g.t.getLsbD 0 && !givesLater r.img⟩] })
  let d : Reg := BitVec.ofNat 5 r.dreg
  if r.givesOnly then retire s else
  match r.img with
  | .gst _ _ _ sc rel _ => s.mapStr c r.k (fun t => { t with
      sb := t.sb ++ [⟨ord, ord, seq, r.img, r.op2, wordBytes 8 r.op0 ++ wordBytes 8 r.op1, r.prog.extractLsb' 0 16, rel, sc⟩] })
  | .gld _ _ _ _ _ q => retire (replayGld s c o d q)
  | .div .. | .rem .. | .evpop .. | .btest .. => retire (s.addOp c { o with body := .ilock d false none })
  | .asstatSt .. | .asstatAge .. | .asstatSet .. =>
    retire (s.addOp c { o with body := .ilock d false none, cnt := (s.core c).nord + fieldAt area 0 8 })
  | .stB .. | .stH .. | .stW .. | .stD .. | .stQ .. =>
    let n := scrBytes r.img
    let x := r.op2.toNat
    let due := dueAt ic 2 r.elap
    let s := s.addOp c { o with body := .shadow due (oldBytes (s.core c).scr x n), lam := 2, last := due }
    retire (s.mapCore c (·.scrWrite x ((wordBytes 8 r.op0 ++ wordBytes 8 r.op1).take n)))
  | i =>
    match encV i, encM i with
    | some (_, v), _ => retire (replayVec s c v r ord seq)
    | _, some _ => retire (replayMx s c r ord seq)
    | none, none =>
      if givesLater i || isSeam i then replayCmd s c area r ord seq
      else
        let lam := match recForm i 0 with
          | some (_, _, l) => l
          | none => 1
        let due := dueAt ic lam r.elap
        let s := if isScrLoad i && (s.ctx c).scrmode = 1 then s.warn c r.k ((s.core c).unwritten r.op0.toNat (scrBytes i)) else s
        retire (s.addOp c { o with body := .regs due d (recValues s c r), lam := lam, last := due })

/-- Order numbers of the records of one area from `base` on: a strand's records take its places in the area by rising SEQ. -/
def rankIn (ic : Nat) (mine : List (TadRec × Nat)) (e : TadRec × Nat) : Nat :=
  let a := fullSeq ic e.1.seq
  (mine.filter (fun f => let b := fullSeq ic f.1.seq; b < a || (b == a && f.2 < e.2))).length

def replayOrders (x : Core) (rs : List TadRec) : List (TadRec × Nat) :=
  let es := rs.zip (List.range rs.length)
  es.map (fun e =>
    let mine := es.filter (fun f => f.1.k == e.1.k)
    (e.1, x.nord + ((mine.getD (rankIn (x.str e.1.k).ic mine e) e).2)))

/-- Words that wait to retire stand in their strand's program order. -/
def insRet (r : RetEnt) : List RetEnt → List RetEnt
  | [] => [r]
  | a :: t => if r.ord < a.ord then r :: a :: t else a :: insRet r t
def Strand.sortRet (t : Strand) : Strand := { t with ret := t.ret.foldl (fun l r => insRet r l) [] }

/-- A record that stands for gives alone, one of `only`, retires once it is the oldest of its strand: it needs no issue cycle, and the
strand issues nothing before (R137, R145). -/
def Strand.resumeRet (t : Strand) (only : List Nat) : Strand :=
  { t.sortRet with held := match t.sortRet.ret with
      | r :: _ => only.contains r.ord
      | [] => false }

/-- Every strand restored, its records replayed, and the strands resumed in the next clock cycle: R137, R248, R251. -/
def replayAll (s : State) (c : Nat) (area save : List Byte) : State :=
  let rs := areaRecords area (fieldAt area 0 8)
  let str (k : StrandIx) : Strand := { blockStrand save (blockAt k) with fwait := 1 }
  let evs := (List.range (min (fieldAt save 0xB08 8) 64)).map (fun j => wordAt save (0xB40 + 8 * j))
  let send := fieldAt area 0x20 8
  let s := s.mapCore c (fun x => { x with
    s := str .s, l := str .l, c := str .c, w := str .w, ops := [], mxq := [], lq := [], wq := [], acc := [], stage := none
    tok := (List.range 6).foldl (fun t f => Tab.set 0 t f (fieldAt save (0xB00 + f) 1)) []
    took := [], gave := [], evq := evs ++ x.evq, lastq := if send = 1 then false else if send = 2 then true else x.lastq })
  let es := replayOrders (s.core c) rs
  let s := es.foldl (replayOne c area) s
  let only := (es.filter (·.1.givesOnly)).map Prod.snd
  (s.mapCtx c (fun y => { y with kept := [] })).mapCore c (fun x => { x with
    nord := x.nord + rs.length, s := x.s.resumeRet only, l := x.l.resumeRet only, c := x.c.resumeRet only, w := x.w.resumeRet only })

/-- A RESUME record of every running strand, spec/18 R376. -/
def traceResume (s : State) (c : Nat) : State :=
  allStr.foldl (fun s k => if (s.str c k).running then s.trace c k 9 (s.str c k).pc 0 else s) s

/-- DEPTH becomes 0, and the first held trap is raised at once, R123. -/
def leaveHandler (s : State) (c : Nat) : State :=
  let s := devWrite s c (s.ctx c).tsave (n8 0)
  let held := (s.ctx c).held
  let s := s.mapCtx c (fun y => { y with depth := 0, held := held.drop 1 })
  s.mapCore c (fun x => { x with stops := x.stops ++ held.take 1 })

/-- The lowest failing offset of the area, or else of the save area: tval of TAD_FORM (R136). -/
def tretVal (s : State) (c : Nat) (area save : List Byte) : Option Word :=
  match minNat (areaBad s c area), minNat (saveBad s c save) with
  | some o, _ => some (BitVec.ofNat 64 o)
  | none, some o => some (BitVec.ofNat 64 (o + 2 ^ 16))
  | none, none => none

def tadArea (s : State) (c : Nat) : List Byte := devRead s c (s.ctx c).tadp 0x3100
def saveAreaOf (s : State) (c : Nat) : List Byte := devRead s c (s.ctx c).tsave 0x1000

/-- What S's handler has in flight lands, cycle by cycle in the order of R19. -/
def landHandler (s : State) (c : Nat) : State :=
  let ic := (s.str c .s).ic
  let top := ((s.core c).ops.map (fun o => if o.k == .s then o.last else 0)).foldl max ic
  (List.range (top - ic)).foldl (fun s j =>
    let r := landOps c (ic + 1 + j) .s s (s.core c).ops
    r.1.mapCore c (fun x => { x with ops := r.2 })) s

/-- The reads that a core makes of the areas of its context. -/
def State.noteAreas (s : State) (c n : Nat) : State :=
  let y := s.ctx c
  noteArea (noteArea s c y.tadp n) c y.tsave 0x1000

/-- The checks and the replay of tret at DEPTH 1: the state, or tval of the failure. -/
def resumeAll (s : State) (c : Nat) : Except Word State :=
  let s := (landHandler s c).noteAreas c 0x3100
  let area := tadArea s c
  let save := saveAreaOf s c
  match tretVal s c area save with
  | some v => .error v
  | none => .ok (leaveHandler (traceResume (replayAll s c area save) c) c)

end Sys2Proof.Machine
end

