-- ==== Sys2Proof/Machine/Resume.lean ====
section
/-!
DEFINITION. Contexts that leave a core and come back: tret (spec/06 R136, R137), nested stops (R128), removal (spec/12 R258,
spec/06 R441), restarts (spec/14 R290, R292), CHECKPOINT stops and their resumption (spec/06 R140, spec/12 R250), and the
start of a task (spec/01 R12, spec/16 R327 to R329).
-/

namespace Sys2Proof.Machine

/-! ### A core that is free, and the start of a task -/

/-- A core without a context: only its trace FIFO and its own counters stay. -/
def Core.freed (x : Core) : Core :=
  { trace := x.trace, lost := x.lost, tlast := x.tlast, stamped := x.stamped }

/-- tagcfg at task start, spec/07 R159. -/
def startTags (scrsize : Nat) : Word := BitVec.ofNat 64 (2 * 2 ^ 20 + min 256 (scrsize / 4096) * 2 ^ 25)

/-- A context as a start of its task leaves it. -/
def Ctx.atStart (y : Ctx) (c : Nat) : Ctx :=
  { y with
    tvec := 0, tcause := 0, tval := 0, wpa := [], wpc := [], reports := [], depth := 0, ichold := 0, drainPt := none
    held := [], evwait := [], kept := [], leaving := false, wounded := false, cluster := clusterOf c }

/-- A strand at its body entry with resume iteration I, R328, R329. -/
def entryStrand (x : Launch) (y : Ctx) (k : StrandIx) : Strand :=
  let b := x.body.getD (ixOf k) {}
  if x.starts k then startStrand x y x.hdr k b.entry b.kstart b.kend (x.trip - BitVec.ofNat 32 y.resume) else {}

/-- A trace record of every running strand: START or RESUME, spec/18 R376. -/
def traceStrands (s : State) (c kind : Nat) : State :=
  allStr.foldl (fun s k => if (s.str c k).running then s.trace c k kind (s.str c k).pc 0 else s) s

/-- A task starts at its body entries on a core, with the format table of its launch and every other unit as at reset. -/
def startTask (s : State) (c : Nat) (y : Ctx) (kind : Nat) : State :=
  let x := s.launch y.launch
  let y := y.atStart c
  let ft := (x.ft.zip (List.range 16)).foldl (fun (t : Tab Word) e => Tab.set 0 t e.2 e.1) []
  let s := s.mapCore c (fun z => { z.freed with
    ctx := some y, s := entryStrand x y .s, l := entryStrand x y .l, c := entryStrand x y .c, w := entryStrand x y .w
    ft := ft, tagcfg := startTags y.scrsize })
  traceStrands s c kind

/-! ### Barrier windows, spec/13 R261 -/

/-- Whether a task of a launch runs on a cluster, or waits to resume after it ran there. -/
def State.tasksOn (s : State) (n l : Nat) : Bool :=
  s.cores.any (fun e => clusterOf e.1 == n && (match e.2.ctx with | some y => y.launch == l | none => false))
    || s.suspended.any (fun y => y.launch == l && y.cluster == n)

/-- The windows of a launch whose record has ended are released where none of its tasks is left. -/
def State.releaseWindows (s : State) (l : Nat) : State :=
  if !(s.launch l).ended then s else
  (Tab.keys s.clusters).foldl (fun s n =>
    if s.tasksOn n l then s else s.mapCluster n (fun x => { x with wins := x.wins.filter (fun w => w.launch != l) })) s

/-! ### Removal, spec/12 R258 -/

/-- Steps 1 to 3 of the removal sequence: requests already sent are performed at their ports (stores that have left their buffer go on), and the context's arrivals,
watchpoints, sets, walks and collectives are withdrawn. What the empty bundles of step 1 land is seen by nobody. -/
def clearTask (s : State) (c : Nat) : State :=
  let y := s.ctx c
  let s := drainWire s c
  let s := (drainAcc (s.core c).acc.length s c).withdraw y.task
  let s := { s with armed := s.armed.filter (fun a => a.task != y.task) }
  (dropReqs (s.discardSets y.vf y.task) c).dropColls y.task

/-- A context is removed for a cause (spec/06 R441): CONTEXT_KILLED goes out, and its task is abandoned (spec/17 R356). -/
def removeContext (s : State) (c : Nat) (cause : Word) : State :=
  match (s.core c).ctx with
  | none => s
  | some y =>
    let s := ((clearTask s c).out (.killed y.vf cause)).mapCore c Core.freed
    (s.taskActs [.abandon y.launch]).releaseWindows y.launch

def removeNow (c : Nat) (s : State) : State :=
  match (s.core c).removal with
  | some v => removeContext (s.mapCore c (fun x => { x with removal := none })) c v
  | none => s

def execContextRemoval (s : State) : Result := turnEvent (fun c _ _ s => removeNow c s) s

/-! ### Restarts, spec/14 R290, R292, R295 -/

/-- The restart of a wounded task: a chosen pre-emption that has not begun stays chosen. -/
def restartTask (s : State) (c wounder ix : Nat) : State :=
  let y := s.ctx c
  let s := (clearTask s c).postCore c .s 5 c wounder ix
  let p := match y.preempt with
    | .drain t => Preempt.drain t
    | .checkpoint => Preempt.checkpoint
    | _ => Preempt.none
  startTask s c { y with restarts := min (y.restarts + 1) 65535, preempt := p } 9

def restartNow (c : Nat) (s : State) : State :=
  let x := s.core c
  match x.restart with
  | some (w, ix) => if x.ctx.isSome && x.removal.isNone then restartTask s c w ix else s
  | none => s

def execTaskRestart (s : State) : Result := turnEvent (fun c _ _ s => restartNow c s) s

/-! ### Nested stops, spec/06 R128 -/

/-- Whether every word that S issued before has landed or been performed. -/
def Core.settled (x : Core) : Bool :=
  x.s.sb.isEmpty && x.ops.all (fun o => o.k != .s || (match o.body with | .ilock _ _ _ => false | _ => true))

/-- S's handler state goes into the nested frame, and the handler is entered again at DEPTH 2. -/
def enterNested (s : State) (c : Nat) (e : Stop) : State :=
  let s := landHandler s c
  let s := s.mapStr c .s (fun t => { t with pend := 0 })
  let y := s.ctx c
  let cause := causeWord e
  let pc := (s.str c .s).pc
  let s := devWrite s c (y.tsave + 0x900) (strandBlock (s.str c .s) y.ichold)
  let s := devWrite s c (y.tsave + 0x20) (w8 cause ++ w8 e.tval)
  let s := devWrite s c y.tsave (n8 2)
  let s := s.mapCtx c (fun y => { y with depth := 2, tcause := cause, tval := e.tval })
  let s := s.mapCore c (fun x => { x with s := x.s.handler y.tvec, ops := x.ops.filter (fun o => o.k != .s), nested := none })
  let s := s.trace c .s 4 pc e.code
  s.postCore c .s 1 (cause.toNat % 2 ^ 32) (e.tval.toNat % 2 ^ 32) (e.tval.toNat / 2 ^ 32)

/-- A nested stop is taken once S's earlier words are done; with tvec = 0 the context is removed (R126). -/
def nestedNow (c : Nat) (s : State) : State :=
  let x := s.core c
  match x.nested with
  | none => s
  | some e =>
    if !x.alive || !x.closed || !x.settled || !s.applied c .s then s
    else if (s.ctx c).tvec = 0 then s.mapCore c (fun x => { x with nested := none, removal := some (killedBy e) })
    else match s.reach c [⟨(s.ctx c).tsave, 0x1000, .write⟩] with
      | (s, true) => enterNested s c e
      | (s, false) => s

def execNestedStop (s : State) : Result := turnEvent (fun c _ _ s => nestedNow c s) s

/-! ### tret, spec/06 R136, R137 -/

/-- The lowest failing offset of a tret at DEPTH 2. -/
def nestedBad (s : State) (c : Nat) (save : List Byte) : Option Nat :=
  minNat ((if fieldAt save 0 8 ≠ 2 then [0] else []) ++ blockBad s c save 0x900)

/-- S returns from the nested handler: its frame, tcause and tval are restored, and nothing is replayed. -/
def leaveNested (s : State) (c : Nat) (save : List Byte) : State :=
  let s := landHandler s c
  let s := devWrite s c (s.ctx c).tsave (n8 1)
  let s := s.mapCore c (fun x => { x with
    s := { blockStrand save 0x900 with fwait := 1, ic := x.s.ic, sb := x.s.sb }
    ops := x.ops.filter (fun o => o.k != .s) })
  let s := s.mapCtx c (fun y => { y with
    depth := 1, tcause := wordAt save 8, tval := wordAt save 16, ichold := fieldAt save 0x948 8 })
  s.trace c .s 9 (s.str c .s).pc 0

/-- tret: it waits for S's accesses, for the writes of the stop, and for what it reads of the areas and writes there. -/
def tretBody (c : Nat) (k : StrandIx) (s : State) : Act :=
  let y := s.ctx c
  if y.depth = 1 then
    if !s.sysReleased c k || !s.savedDone y.task then .wait s else
    match s.reach c (y.areas 0x3100 .read ++ [⟨y.tsave, 8, .write⟩]) with
    | (s, false) => .wait s
    | (s, true) => match resumeAll s c with
      | .error v => .fault (s.noteAreas c 0x3100) 0x0D v
      | .ok s => .go s .resume
  else
    match s.reach c [⟨y.tsave, 0x1000, .read⟩, ⟨y.tsave, 8, .write⟩] with
    | (s, false) => .wait s
    | (s, true) =>
      let s := noteArea s c y.tsave 0x1000
      let save := saveAreaOf s c
      match nestedBad s c save with
      | some o => .fault s 0x0D (BitVec.ofNat 64 (o + 2 ^ 16))
      | none => .go (leaveNested s c save) .resume

def execTret (y : Bool) (s : State) : Result := issue (.tret y) { y := y, who := 1, oh := true } tretBody s

/-! ### CHECKPOINT, spec/06 R140 -/

/-- A CHECKPOINT stop: the context with its records leaves the core for its queue (spec/16 R338); its sets are suspended and its
waits withdrawn (spec/14 R287). -/
def suspendTask (s : State) (c : Nat) (y : Ctx) : State :=
  let l := s.launch y.launch
  let ic := (s.str c .s).ic
  let pc := (s.str c .s).pc
  let s := (writeStop s c 0x31 0 true).trace c .s 4 pc 0x31
  let s := ((dropReqs s c).markSets y.vf y.task .suspended).dropWaits y.vf y.task
  let z := { s.ctx c with depth := 1, ichold := ic, preempt := .none }
  (s.mapCore c Core.freed).mapQueue l.die l.q (fun q => { q with resum := q.resum ++ [z] })

/-! ### The checkpoint block read back, spec/12 R250 -/

/-- A plane from its descriptor, codes and scale bytes. -/
def planeFrom (d : Word) (codes scales : List Byte) : Plane :=
  let f := (d.extractLsb' 4 4).toNat
  let kk := (d.extractLsb' 8 8).toNat
  let nn := (d.extractLsb' 16 11).toNat
  let w := fmtWidth f
  let num := leNat codes
  { valid := d.getLsbD 0, bfmt := f, kk := kk, nn := nn, sb := d.getLsbD 27
    codes := (List.range (kk * nn)).foldl (fun (t : Tab Nat) j =>
      Tab.set 0 t (j / nn * 1024 + j % nn) (num / 2 ^ (w * j) % 2 ^ w)) []
    scales := (List.range (kk / 32 * nn)).foldl (fun (t : Tab Nat) j =>
      Tab.set 0 t (j / nn * 1024 + j % nn) (fieldAt scales j 1)) [] }

/-- A table of words from bytes. -/
def tabFrom (n : Nat) (b : List Byte) : Tab Word :=
  (List.range n).foldl (fun (t : Tab Word) j => Tab.set 0 t j (wordAt b (8 * j))) []

/-- The tag table and tagcfg. -/
def tagsFrom (b : List Byte) : Tab (Option Word) :=
  (List.range 256).foldl (fun (t : Tab (Option Word)) i =>
    let v := if i = 255 then (wordAt b 0xFF8).getLsbD 63 else (wordAt b (16 * i + 8)).getLsbD 0
    Tab.set none t i (if v then some (wordAt b (16 * i)) else none)) []

/-- The units and scratch region of a core from the block at `base`; `rd o n` reads its bytes. -/
def Core.loadBlock (x : Core) (rd : Nat → Nat → List Byte) (scrsize : Nat) : Core :=
  let sh := rd 0x1000 0x1000
  let tg := rd 0x2000 0x1000
  let ds := rd 0x3000 16
  let fl := rd 0x66000 16
  let vb := leNat (rd 0x67000 0x2000)
  { x with
    ft := tabFrom 16 (rd 0 128)
    sh := (List.range 16).foldl (fun (t : Tab Shape) j => Tab.set {} t j (imageShape ((sh.drop (256 * j)).take 256))) []
    tags := tagsFrom tg, tagcfg := wordAt tg 0xFF8 &&& ~~~(1#64 <<< 63)
    live := planeFrom (wordAt ds 0) (rd 0x4000 0x10000) (rd 0x14000 0x1000)
    shadow := planeFrom (wordAt ds 8) (rd 0x15000 0x10000) (rd 0x25000 0x1000)
    work := { ent := tabFrom 16384 (rd 0x26000 0x20000), bfl := wordAt fl 0 }
    vis := { ent := tabFrom 16384 (rd 0x46000 0x20000), bfl := wordAt fl 8 }
    valid := (List.range 65536).foldl (fun (t : Tab Bool) g => Tab.set false t g (vb.testBit g)) []
    scr := writeBytes [] 0 (rd 0x69000 scrsize) }

/-- The held completion records of a resumed task follow its saved records (spec/21 R428). -/
def postHeld (s : State) (task : Nat) : State :=
  (List.range s.colls.length).foldl (fun s i =>
    if (s.colls[i]?.map (·.task)) = some task then postColl s i else s) s

/-- Bytes of the tadpole area with the checkpoint block of a context. -/
def ckptLen (y : Ctx) : Nat := 0x10000 + 0x69000 + y.scrsize

/-- The state of a checkpointed context is back on its core: it goes on through its handler, or by the checks and the replay of a tret when
tvec = 0 (R140). -/
def finishLoad (s : State) (c : Nat) : State :=
  let y := s.ctx c
  let s := (s.mapCore c (fun x => { x with halted := false })).noteAreas c (ckptLen y)
  let rd (o n : Nat) : List Byte := devRead s c (y.tadp + 0x10000 + BitVec.ofNat 64 o) n
  let s := s.mapCore c (fun x => x.loadBlock rd y.scrsize)
  if y.tvec = 0 then
    match resumeAll s c with
    | .ok s => postHeld s y.task
    | .error _ => removeContext s c 0x0D
  else
    let save := saveAreaOf s c
    let s := s.mapCore c (fun x => { x with
      s := (blockStrand save 0x100).handler y.tvec, l := (blockStrand save 0x300).idled, c := (blockStrand save 0x500).idled
      w := (blockStrand save 0x700).idled })
    let s := s.mapCtx c (fun y => { y with tcause := 0x31, tval := 0 })
    postHeld ((s.trace c .s 9 y.tvec 0).postCore c .s 1 0x31 0 0) y.task

/-- A core that a checkpointed context has been given to reads its state back, once its areas can be reached. -/
def loadNow (c : Nat) (s : State) : State :=
  let y := s.ctx c
  match s.reach c (y.areas (ckptLen y) .read ++ [⟨y.tsave, 8, .write⟩]) with
  | (s, true) => finishLoad s c
  | (s, false) => s

/-- A checkpointed context resumes on a core, which it holds from then on. -/
def resumeCheckpoint (s : State) (c : Nat) (y : Ctx) : State :=
  let s := s.mapCore c (fun x => { x.freed with ctx := some { y with cluster := clusterOf c }, halted := true })
  loadNow c (s.markSets y.vf y.task .held)

/-! ### The CHECKPOINT event -/

/-- A CHECKPOINT is taken between two clock cycles, after every other cause and never in a handler (R123, R127), once the areas of the
context can be reached. A context on its way back to a core goes on there. -/
def checkpointNow (c : Nat) (s : State) : State :=
  let x := s.core c
  match x.ctx with
  | some y =>
    if x.halted && x.stops.isEmpty && x.removal.isNone && x.restart.isNone then loadNow c s
    else if y.preempt == .checkpoint && y.depth == 0 && y.held.isEmpty && x.alive && x.nested.isNone && x.closed then
      match s.reach c (y.areas (ckptLen y) .write) with
      | (s, true) => suspendTask s c y
      | (s, false) => s
    else s
  | none => s

def execCheckpointPreemption (s : State) : Result := turnEvent (fun c _ _ s => checkpointNow c s) s

end Sys2Proof.Machine
end

