-- ==== Sys2Proof/Machine/Launch.lean ====
section
/-!
DEFINITION. Launch queues (spec/16 R322, R323, spec/20 R412), the walker and the arbiter (spec/16 R330 to R338, spec/13 R261,
R262), the task words (spec/17 R350, R351, spec/16 R339 to R342), and the events of records and futures (spec/17 R347 to R357).
-/

namespace Sys2Proof.Machine

/-! ### Queues -/

def queueVf (qctl : Word) : Nat := (qctl.extractLsb' 0 9).toNat
def queueRev (qctl : Word) : Nat := (qctl.extractLsb' 16 8).toNat
def queuePmax (qctl : Word) : Nat := (qctl.extractLsb' 24 3).toNat
def queueEn (qctl : Word) : Bool := qctl.getLsbD 31
/-- The Z bits of QCTL. -/
def queueZ (v : Word) : Bool := v.extractLsb' 38 26 != 0 || v.extractLsb' 28 3 != 0 || v.extractLsb' 9 7 != 0

/-- A QSUB write: the address joins the FIFO, or is discarded and counted (R322). -/
def submit (die q : Nat) (v : Word) (s : State) : State :=
  s.mapQueue die q (fun x =>
    if x.fifo.length ≥ 256 || !queueEn x.qctl then { x with ovf := min (x.ovf + 1) (2 ^ 32 - 1) } else { x with fifo := x.fifo ++ [v] })

def execQsubWrite (die q : Nat) (v : Word) (s : State) : Result := event (submit die q v) s

/-- A QCTL write with EN = 1 on a disabled queue binds it (R323, spec/19 R390, spec/20 R401). -/
def enableQueue (die q : Nat) (v : Word) (s : State) : State :=
  let dead := (s.die die).st == .failed || (s.die die).st == .offline
  if queueZ v || !queueEn v || queueEn (s.queue die q).qctl || (s.vf (queueVf v)).part.toNat ≠ s.partOf die || dead then s
  else s.mapQueue die q (fun x => { x with qctl := v, st := .active })

def execQueueEnable (die q : Nat) (v : Word) (s : State) : Result := event (enableQueue die q v) s

/-- A queue becomes DISABLED and its FIFO is emptied; REASON, CODE and QFADDR stay. -/
def Queue.off (x : Queue) : Queue := { x with qctl := x.qctl &&& ~~~(1#64 <<< 31), st := .disabled, fifo := [] }

/-- Such a queue makes no take any more. -/
def offQueue (die q : Nat) (s : State) : State := (s.quitTake die q).mapQueue die q Queue.off

def execQueueDisable (die q : Nat) (s : State) : Result := event (offQueue die q) s

/-- A QWDOG write: REM := LIMIT (spec/20 R412); REM itself is read-only. -/
def setWatchdog (die q : Nat) (v : Word) (s : State) : State :=
  if v.extractLsb' 56 8 != 0 || v.extractLsb' 24 8 != 0 then s
  else s.mapQueue die q (fun x => { x with limit := (v.extractLsb' 0 24).toNat, rem := (v.extractLsb' 0 24).toNat })

def execQwdogWrite (die q : Nat) (v : Word) (s : State) : Result := event (setWatchdog die q v) s

/-- Launches taken by a queue, in take order. -/
def State.taken (s : State) (die q : Nat) : List (Nat × Launch) := s.launches.filter (fun e => e.2.die == die && e.2.q == q)

/-- Whether a launch has iterations that no core has pulled. -/
def Launch.left (x : Launch) : Bool := x.ranges.any (fun e => e.2.1 < e.2.2) || x.held.any (fun e => e.2.1 < e.2.2)

/-- Whether some task of a launch runs or waits to resume. -/
def State.hasTasks (s : State) (l : Nat) : Bool :=
  s.cores.any (fun e => (e.2.ctx.map (·.launch)) == some l) || s.suspended.any (fun y => y.launch == l)

/-- Whether a queue holds a taken record that has not retired: its iterations run on after an abandonment (spec/17 R356). -/
def State.queueHolds (s : State) (die q : Nat) : Bool := (s.taken die q).any (fun e => !e.2.ended || s.hasTasks e.1)

/-- The head of an ACTIVE queue is taken once no earlier ready record has a ticket left (R323); it stays while a read of it waits. -/
def takeHead (die q : Nat) (s : State) : State :=
  let x := s.queue die q
  match x.fifo with
  | [] => s
  | va :: t =>
    if x.st != .active || (s.taken die q).any (fun e => e.2.ready && !e.2.ended && e.2.left) then s else
    match takeRecord s die q va with
    | (t', true) => t'.mapQueue die q (fun x => { x with fifo := t, rem := if s.queueHolds die q then x.rem else x.limit })
    | (s, false) => s

def execQueueTake (die q : Nat) (s : State) : Result := event (takeHead die q) s

/-! ### Records and futures -/

/-- The die on whose behalf a message of a function is judged: the first of its partition. -/
def State.homeDie (s : State) (vf : Nat) : Nat := (s.diesOf (s.vf vf).part.toNat).headD 0

/-- A signal or poison on a link; one with a nonzero Z field names no slot and is dropped (R346, R348). -/
def tellLink (vf : Nat) (link : Word) (poison : Bool) (s : State) : State :=
  if linkOk link then s.taskActs [.tell (s.homeDie vf) vf link poison none] else s

def execSignal (vf : Nat) (link : Word) (s : State) : Result := event (tellLink vf link false) s
def execPoison (vf : Nat) (link : Word) (s : State) : Result := event (tellLink vf link true) s

def abandonFuture (vf : Nat) (futa : Word) (s : State) : State := s.taskActs [.fault (s.homeDie vf) vf futa]
def execFutureAbandon (vf : Nat) (futa : Word) (s : State) : Result := event (abandonFuture vf futa) s

/-! ### Barrier windows, spec/13 R261, R262 -/

def Cluster.windowOf (x : Cluster) (l : Nat) : Option Window := x.wins.find? (·.launch == l)

/-- The lowest run of `nb` barriers that no window covers. -/
def Cluster.freeRun (x : Cluster) (nb : Nat) : Option Nat :=
  (List.range (33 - nb)).find? (fun b => x.wins.all (fun w => b + nb ≤ w.base || w.base + w.nb ≤ b))

/-- Whether a task of a launch may be placed on a cluster. -/
def State.placeable (s : State) (n l : Nat) : Bool :=
  let nb := (s.launch l).nb
  nb = 0 || ((s.cluster n).windowOf l).isSome || ((s.cluster n).freeRun nb).isSome

/-- A launch gets its window on a cluster, every barrier of it as at first. -/
def State.giveWindow (s : State) (n l : Nat) : State :=
  let nb := (s.launch l).nb
  if nb = 0 || ((s.cluster n).windowOf l).isSome then s else
  match (s.cluster n).freeRun nb with
  | none => s
  | some b => s.mapCluster n (fun x => { x with
      wins := x.wins ++ [⟨l, b, nb⟩], bar := (List.range nb).foldl (fun t j => Tab.set {} t (b + j) {}) x.bar })

/-! ### Pulls and steals, R331, R332 -/

/-- The die with the most tickets left, lowest on a tie. -/
def mostLeft (r : Tab (Nat × Nat)) : Option (Nat × Nat) :=
  r.foldl (fun m e =>
    let n := e.2.2 - e.2.1
    match m with
    | some (_, k) => if n > k then some (e.1, n) else m
    | none => some (e.1, n)) none

/-- Step 3 of R331: the walker of die d takes the top half of the longest range. -/
def steal (x : Launch) (d : Nat) : Launch :=
  match mostLeft x.ranges with
  | some (v, r) =>
    if r < 2 then x else
    let a := Tab.get (0, 0) x.ranges v
    { x with ranges := Tab.set (0, 0) (Tab.set (0, 0) x.ranges v (a.1, a.2 - r / 2)) d (a.2 - r / 2, a.2) }
  | none => x

/-- Step 1: the lowest iteration of the cluster's ticket. -/
def pullHeld (x : Launch) (n : Nat) : Option (Launch × Nat) :=
  let h := Tab.get (0, 0) x.held n
  if h.1 < h.2 then some ({ x with held := Tab.set (0, 0) x.held n (if h.1 + 1 < h.2 then (h.1 + 1, h.2) else (0, 0)) }, h.1) else none

/-- Step 2: the ticket at the low cursor goes to the cluster. -/
def pullTicket (x : Launch) (d n : Nat) : Option (Launch × Nat) :=
  let r := Tab.get (0, 0) x.ranges d
  if r.1 < r.2 then
    pullHeld { x with
      ranges := Tab.set (0, 0) x.ranges d (if r.1 + 1 < r.2 then (r.1 + 1, r.2) else (0, 0))
      held := Tab.set (0, 0) x.held n (r.1 * x.gs, min ((r.1 + 1) * x.gs) x.iter) } n
  else none

/-- The next iteration for a core, R331. -/
def pull (x : Launch) (c : Nat) : Option (Launch × Nat) :=
  (pullHeld x (clusterOf c)).or ((pullTicket x (dieOf c) (clusterOf c)).or (pullTicket (steal x (dieOf c)) (dieOf c) (clusterOf c)))

/-! ### The arbiter, R336, R338 -/

/-- The priority of a launch, with CONT at its queue's PMAX (R336, spec/17 R344). -/
def State.priority (s : State) (x : Launch) : Nat :=
  let p := queuePmax (s.queue x.die x.q).qctl
  if x.kind = 2 then p else min x.prio p

/-- Contexts of a queue that may resume on a core, in the order in which they were pre-empted; one with a write that is
not yet performed at system scope waits (spec/13 R274). -/
def State.resumable (s : State) (c die q : Nat) : List Ctx :=
  (s.queue die q).resum.filter (fun y => !s.spent (dieOf c) y.vf && s.placeable (clusterOf c) y.launch
    && s.savedDone y.task && s.allDone y.task)

/-- Whether a core may first start a task now: its stamp would differ from its last one (spec/14 R286). -/
def State.stampFree (s : State) (c : Nat) : Bool := (s.core c).stamped != some (s.dieclk / 16)

/-- Launches of a queue that offer a core an iteration, in take order; none of a function with FPEND (spec/20 R403). -/
def State.offers (s : State) (c die q : Nat) : List (Nat × Launch) :=
  if !s.stampFree c then [] else
  (s.taken die q).filter (fun e => e.2.ready && !e.2.ended && !s.spent (dieOf c) e.2.vf && !(s.vf e.2.vf).fpend
    && s.placeable (clusterOf c) e.1 && (pull e.2 c).isSome)

/-- The highest priority of a queue's candidates. -/
def State.queueBest (s : State) (c die q : Nat) : Option Nat :=
  ((s.resumable c die q).map (fun y => s.priority (s.launch y.launch)) ++ (s.offers c die q).map (fun e => s.priority e.2)).foldl
    (fun m p => match m with | some a => some (max a p) | none => some p) none

/-- A queue that could be served, with its priority and its place after the one served last. -/
structure Bid where
  prio  : Nat
  place : Nat
  die   : Nat
  q     : Nat

/-- The better of two bids. -/
def betterBid (a b : Bid) : Bid := if b.prio > a.prio || (b.prio == a.prio && b.place < a.place) then b else a

/-- The queues of a die that hold something: registers, or launches they have taken. -/
def State.queuesOf (s : State) (d : Nat) : List Nat :=
  (Tab.keys (s.die d).queues ++ s.launches.filterMap (fun e => if e.2.die = d then some e.2.q else none)).eraseDups

/-- The queue that the arbiter serves for a core. -/
def State.pickQueue (s : State) (c : Nat) : Option Bid :=
  let d := dieOf c
  ((s.diesOf (s.partOf d)).flatMap (fun e => (s.queuesOf e).filterMap (fun q =>
    (s.queueBest c e q).map (fun p => (⟨p, (e * 64 + q + 512 - Tab.get 0 (s.die d).served p) % 512, e, q⟩ : Bid))))).foldl
    (fun m b => match m with | some a => some (betterBid a b) | none => some b) none

/-- The offer of highest priority, first in take order. -/
def State.bestOffer (s : State) (l : List (Nat × Launch)) : Option (Nat × Launch) :=
  l.foldl (fun m e => match m with
    | some a => if s.priority e.2 > s.priority a.2 then some e else m
    | none => some e) none

/-- A 57-bit address aligned to 2^n from a free value (log entry 28). -/
def areaAddr (n : Nat) (w : Word) : Word := ((w >>> n <<< n).extractLsb' 0 57).signExtend 64

/-- The stamp of a first start, spec/14 R286. -/
def State.newStamp (s : State) (c : Nat) : Word := BitVec.ofNat 64 (s.dieclk / 16 % 2 ^ 52 * 2 ^ 12 + dieOf c * 2 ^ 9 + c % 512)

/-- Iteration n of a launch starts on a core for the first time; STATE becomes RUNNING at the record's first start (spec/17 R347). -/
def startIteration (s : State) (c l n : Nat) : State :=
  let x := s.launch l
  let a := s.draw
  let b := a.2.draw
  let s := b.2
  let y : Ctx := { task := s.ntask, vf := x.vf, launch := l, iter := n, stamp := s.newStamp c, scrsize := x.scrb
                   scrmode := (s.vf x.vf).scrmode, tsave := areaAddr 12 a.1, tadp := areaAddr 16 b.1 }
  let s := ({ s with ntask := s.ntask + 1 } : State).giveWindow (clusterOf c) l
  let s := startTask s c y 8
  let s := s.mapCore c (fun z => { z with stamped := some (s.dieclk / 16) })
  (s.postCore c .s 6 (x.q + x.die * 64) (n % 2 ^ 32) 0).taskActs [.recState (dieOf c) l 3]

/-- A pre-empted task goes on: restarted after a wound, with its arrivals and collectives withdrawn (spec/14 R290, R292), started again after
a DRAIN, or resumed from its checkpoint. -/
def resumeTask (s : State) (c die q : Nat) (y : Ctx) : State :=
  let s := s.mapQueue die q (fun x => { x with resum := x.resum.filter (fun z => z.task != y.task), rem := x.limit })
  let s := s.giveWindow (clusterOf c) y.launch
  let s := if y.wounded then (s.withdraw y.task).dropColls y.task else s
  (if y.wounded || y.depth = 0 then postHeld (startTask s c { y with preempt := .none } 9) y.task
    else resumeCheckpoint s c y).releaseWindows y.launch

/-- The arbiter serves one idle core, if some launch or resumable task is a candidate for it. -/
def serveCore (s : State) (c : Nat) : Option State :=
  match s.pickQueue c with
  | none => none
  | some b =>
    let t := s.mapDie (dieOf c) (fun x => { x with served := Tab.set 0 x.served b.prio (b.die * 64 + b.q + 1) })
    match s.resumable c b.die b.q with
    | y :: _ => some (resumeTask t c b.die b.q y)
    | [] => match s.bestOffer (s.offers c b.die b.q) with
      | none => none
      | some (l, x) => (pull x c).map (fun r => startIteration (t.mapLaunch l (fun _ => r.1)) c l r.2)

/-- Whether something waits for a core: a resumable context, or a ready launch with iterations left. -/
def State.someOffer (s : State) : Bool := !s.suspended.isEmpty || s.launches.any (fun e => e.2.ready && !e.2.ended && e.2.left)

/-- Whether a die starts and resumes tasks. -/
def State.serves (s : State) (d : Nat) : Bool := (s.die d).st == .full || (s.die d).st == .early

def coresOf (d : Nat) : List Nat := (List.range 512).map (512 * d + ·)

/-- Whether serving a core would begin with a steal, R331 step 3. -/
def stealsFor (s : State) (c : Nat) : Bool :=
  match s.pickQueue c with
  | none => false
  | some b => (s.resumable c b.die b.q).isEmpty && (match s.bestOffer (s.offers c b.die b.q) with
    | some (_, x) => ((pullHeld x (clusterOf c)).or (pullTicket x (dieOf c) (clusterOf c))).isNone
    | none => false)

/-- The turn of an arbiter that has put off its steal. -/
def lateServe (d : Nat) : Turn := .event (512 * d) .s 1 .arbiterServe

/-- Whether another arbiter has a turn of the clock cycle still to come. -/
def State.moreServes (s : State) : Bool := s.agenda.any (fun t => match t with
  | .event _ _ _ .arbiterServe => true
  | _ => false)

/-- The lowest idle core of a die with a candidate is served. The pulls of a clock cycle come before a steal, and steals in increasing
number of the die (R332): an arbiter that must steal has its turn after those of the others that are still to come. -/
def serveDie (d j : Nat) (s : State) : State :=
  if !s.serves d then s else
  match (coresOf d).find? (fun c => (s.core c).ctx.isNone && (serveCore s c).isSome) with
  | none => s
  | some c => if j = 0 && stealsFor s c && s.moreServes then { s with agenda := s.agenda ++ [lateServe d] } else (serveCore s c).getD s

def execArbiterServe (s : State) : Result := turnEvent (fun c _ j s => serveDie (dieOf c) j s) s

/-! ### tspawn, spec/17 R350 -/

/-- TASK_REVISION with its tval. -/
def revisionFault (s : State) (v : Nat) : Act := .fault s 0x1A (BitVec.ofNat 64 v)

def tspawnBody (a b : Reg) (c : Nat) (k : StrandIx) (s : State) : Act :=
  let x := s.rd c k a
  let t := s.rd c k b
  let q := (t.extractLsb' 0 6).toNat
  let d := (t.extractLsb' 6 3).toNat
  let vf := (s.ctx c).vf
  if x.toNat % 128 ≠ 0 || !canonical x then .fault s 0x07 x
  else if !s.sysReleased c k then .wait s
  else match readNow s c (unitHead .s) vf x .read 8 with
    | (s, .wait) | (s, .held _) => .wait s
    | (s, .fault fw _) => .fault s (if fw then 0x39 else 0x0C) x
    | (s, .ok pa) =>
      let tctl := bytesWord (s.portRead pa 8)
      let s := s.noteRead pa 8
      let y := s.queue d q
      let rev := (tctl.extractLsb' 8 8).toNat
      if s.partOf d ≠ s.partOf (dieOf c) || queueVf y.qctl ≠ vf then revisionFault s (2 ^ 23 + q * 2 ^ 16)
      else if y.st != .active then revisionFault s (2 ^ 22 + q * 2 ^ 16)
      else if rev ≠ queueRev y.qctl || (tctl.extractLsb' 16 9).toNat ≠ queueVf y.qctl then
        revisionFault s (rev + queueRev y.qctl * 2 ^ 8 + q * 2 ^ 16)
      else if y.fifo.length ≥ 256 then .wait s
      else .go (s.mapQueue d q (fun y => { y with fifo := y.fifo ++ [x] })) .fall

def execTspawn (y : Bool) (a b : Reg) (s : State) : Result :=
  issue (.tspawn y a b) { y := y, who := 1, nh := true, reads := [a, b], lreg := [a, b] } (tspawnBody a b) s

/-! ### tdone, spec/17 R351, R352, spec/16 R340 -/

/-- Step 1 of R351: L, C and W have stopped, nothing is queued, every global access is performed at system scope, and no
collective of the task is outstanding (spec/21 R427). -/
def doneReady (s : State) (c : Nat) : Bool :=
  let x := s.core c
  let y := s.ctx c
  !x.l.running && !x.c.running && !x.w.running && x.lq.isEmpty && x.wq.isEmpty && x.mxq.isEmpty && x.acc.isEmpty
    && allStr.all (fun k => s.released c k 4) && s.allDone y.task && s.colls.all (fun z => z.task != y.task || !z.unfinished)

/-- Sets are published and released and watchpoints disarmed, R351 step 2: whether that is done. -/
def settleTask (s : State) (c : Nat) (y : Ctx) : State × Bool :=
  match s.publish c y.vf y.task with
  | (s, true) => (({ s with armed := s.armed.filter (fun a => a.task != y.task) } : State).mapCtx c (fun z => { z with reports := [] }), true)
  | r => r

/-- Step 3 of R351 for a record's last iteration, by the die that makes the count complete (R352): signals, STATE, completion record. -/
def lastActs (d l : Nat) (x : Launch) : List TaskAct :=
  x.succ.map (fun k => TaskAct.tell d x.vf k false none) ++ [.recState d l 4, .sink d l false]

/-- An iteration is counted, and the last one of a record begins step 3. -/
def countTask (s : State) (c : Nat) (y : Ctx) : State :=
  let s := (s.mapCtx c (fun y => { y with leaving := true })).mapLaunch y.launch (fun x => { x with retired := x.retired + 1 })
  let x := s.launch y.launch
  let s := s.mapQueue x.die x.q (fun q => { q with rem := q.limit })
  if !x.ended && x.retired = x.iter then
    (s.mapLaunch y.launch (fun x => { x with ended := true })).groupActs (doneGrp y.task) (lastActs (dieOf c) y.launch x)
  else s

/-- Whether an action of step 3 is still to be performed at system scope. -/
def State.leavesActs (s : State) (task : Nat) : Bool := s.acts.any (fun p => p.grp == doneGrp task) || s.grpOpen (doneGrp task)

/-- A task retires: its handles go and its core is free, R351 step 4. -/
def retireTask (s : State) (c : Nat) (y : Ctx) : State :=
  let s := { s with colls := s.colls.filter (fun z => z.task != y.task) }
  (s.mapCore c Core.freed).releaseWindows y.launch

/-- The end of a DRAIN: the task waits at its queue with its resume iteration. -/
def endDrain (s : State) (c : Nat) (y : Ctx) (i : Nat) : State :=
  let x := s.launch y.launch
  (s.mapCore c Core.freed).mapQueue x.die x.q (fun q => { q with
    resum := q.resum ++ [{ y.atStart c with resume := i, preempt := .none }] })

def tdoneBody (c : Nat) (_ : StrandIx) (s : State) : Act :=
  let y := s.ctx c
  if !doneReady s c then .wait s else
  match settleTask s c y with
  | (s, false) => .wait s
  | (s, true) => match y.preempt with
    | .clamped i => .go (endDrain s c y i) .gone
    | _ =>
      let s := if y.leaving then s else countTask s c y
      if s.leavesActs y.task then .wait s else .go (retireTask s c y) .gone

def execTdone (y : Bool) (s : State) : Result := issue (.tdone y) { y := y, who := 1, nh := true } tdoneBody s

/-- tchk, spec/16 R342: gd becomes 1 at the end of the cycle when a waiting DRAIN is clamped there. -/
def execTchk (y : Bool) (d : Reg) (s : State) : Result :=
  issue (.tchk y d) { y := y, who := 1, nh := true, dst := [d] } (fun c k s =>
    let s := s.put c k d 0
    .go (match (s.ctx c).preempt with
      | .drain _ => s.mapCtx c (fun x => { x with drainPt := some d })
      | _ => s) .fall) s

end Sys2Proof.Machine
end

