-- ==== Sys2Proof/Machine/Newt.lean ====
section
/-!
DEFINITION. The Newt (spec/18): its words, the arrival of events, runs and budgets, slot control, and the drain of the
instruction trace.
-/

namespace Sys2Proof.Machine

/-! ### Words, R366 to R372 -/

def Slot.n (x : Slot) (r : BitVec 4) : BitVec 32 := Tab.get 0 x.reg r.toNat
def Slot.setN (x : Slot) (r : BitVec 4) (v : BitVec 32) : Slot := { x with reg := Tab.set 0 x.reg r.toNat v }
def Slot.t (x : Slot) (j : Nat) : BitVec 32 := Tab.get 0 x.tab j
def Slot.setT (x : Slot) (j : Nat) (v : BitVec 32) : Slot := { x with tab := Tab.set 0 x.tab j v }

/-- SatN of a sum of two words, R368. -/
def satAdd (a b : BitVec 32) : BitVec 32 := BitVec.ofNat 32 (min (a.toNat + b.toNat) (2 ^ 32 - 1))

/-- The second operand of an ALU word, R367. -/
def aluX (x : Slot) (b : BitVec 4) (imm : Bool) (i : BitVec 14) : BitVec 32 := if imm then i.setWidth 32 else x.n b

/-- The die and slot of the Newt turn at the head of the agenda run one word: one Newt cycle, and the next word (R372). -/
def newtWordAt (f : Nat → Nat → NewtRun → State → State) (s : State) : Result :=
  match s.agenda with
  | .newt d k :: _ => match (s.slot d k).run with
    | some r => .next (f d k r s.pop)
    | none => .next s.pop
  | _ => .next s

/-- The run goes on at another word. -/
def State.newtGo (s : State) (d k : Nat) (r : NewtRun) (pc : Nat) : State :=
  s.mapSlot d k (fun x => { x with run := some { r with pc := pc, n := r.n + 1 } })

/-- A word that changes its slot alone and falls through. -/
def slotWord (f : NewtRun → Slot → Slot) (s : State) : Result :=
  newtWordAt (fun d k r s => (s.mapSlot d k (f r)).newtGo d k r (r.pc + 1)) s

def aluWord (g : BitVec 32 → BitVec 32 → BitVec 32) (d a b : BitVec 4) (imm : Bool) (i : BitVec 14) (s : State) : Result :=
  slotWord (fun _ x => x.setN d (g (x.n a) (aluX x b imm i))) s

def execNget (d : BitVec 4) (f : BitVec 3) (s : State) : Result :=
  slotWord (fun r x => x.setN d (r.ev.getD f.toNat 0)) s
def execNli (d : BitVec 4) (i : BitVec 15) (s : State) : Result := slotWord (fun _ x => x.setN d (i.signExtend 32)) s
def execNadd (d a b : BitVec 4) (x : Bool) (i : BitVec 14) (s : State) : Result := aluWord (fun p q => p + q) d a b x i s
def execNsub (d a b : BitVec 4) (x : Bool) (i : BitVec 14) (s : State) : Result := aluWord (fun p q => p - q) d a b x i s
def execNand (d a b : BitVec 4) (x : Bool) (i : BitVec 14) (s : State) : Result := aluWord (fun p q => p &&& q) d a b x i s
def execNor (d a b : BitVec 4) (x : Bool) (i : BitVec 14) (s : State) : Result := aluWord (fun p q => p ||| q) d a b x i s
def execNshl (d a b : BitVec 4) (x : Bool) (i : BitVec 14) (s : State) : Result :=
  aluWord (fun p q => p <<< (q.toNat % 32)) d a b x i s
def execNshr (d a b : BitVec 4) (x : Bool) (i : BitVec 14) (s : State) : Result :=
  aluWord (fun p q => p >>> (q.toNat % 32)) d a b x i s
def execNmin (d a b : BitVec 4) (x : Bool) (i : BitVec 14) (s : State) : Result :=
  aluWord (fun p q => if q.toNat < p.toNat then q else p) d a b x i s
def execNmax (d a b : BitVec 4) (x : Bool) (i : BitVec 14) (s : State) : Result :=
  aluWord (fun p q => if p.toNat < q.toNat then q else p) d a b x i s
def execNcmp (d a b : BitVec 4) (x : Bool) (i : BitVec 14) (s : State) : Result :=
  aluWord (fun p q => if p = q then 0 else if p.toNat < q.toNat then 1 else 2) d a b x i s

/-- Whether a branch is taken, R367. -/
def nbfTaken (c : BitVec 2) (v : BitVec 32) : Bool := match c.toNat with
  | 0 => true
  | 1 => v == 0
  | 2 => v != 0
  | _ => false

def execNbf (a : BitVec 4) (c : BitVec 2) (o : BitVec 6) (s : State) : Result :=
  newtWordAt (fun d k r s => s.newtGo d k r (r.pc + (if nbfTaken c ((s.slot d k).n a) then o.toNat else 1))) s

/-- The bin of nbin, R368. -/
def binOf (m : Bool) (sh u : Nat) (v : Nat) : Nat :=
  let w := v / 2 ^ sh
  min (if m then (if w = 0 then 0 else Nat.log2 w + 1) else w) u

def execNbin (d a : BitVec 4) (m : Bool) (sh : BitVec 5) (u : BitVec 9) (s : State) : Result :=
  slotWord (fun _ x => x.setN d (BitVec.ofNat 32 (binOf m sh.toNat u.toNat (x.n a).toNat))) s

/-- nhinc, R368. -/
def nhincSlot (d a b : BitVec 4) (e : BitVec 10) (x : Slot) : Slot :=
  let j := e.toNat + (x.n a).toNat
  if j > 1023 then { x.setN d 0 with ixerr := min (x.ixerr + 1) (2 ^ 32 - 1) }
  else let v := satAdd (x.t j) (x.n b); (x.setT j v).setN d v

def execNhinc (d a b : BitVec 4) (e : BitVec 10) (s : State) : Result := slotWord (fun _ x => nhincSlot d a b e x) s

/-- Hash of R369. -/
def sketchHash (k r : Nat) (x : BitVec 32) : Nat :=
  let c : BitVec 32 := [0, 0x6A09E667, 0xBB67AE85, 0x3C6EF372].getD r 0
  let m : BitVec 32 := [0x9E3779B1, 0x85EBCA77, 0xC2B2AE3D, 0x27D4EB2F].getD r 0
  ((x ^^^ c) * m).toNat / 2 ^ (32 - k)
def sketchIx (k base r : Nat) (x : BitVec 32) : Nat := base + r * 2 ^ k + sketchHash k r x

def execNskt (a b : BitVec 4) (k : BitVec 4) (e : BitVec 10) (s : State) : Result :=
  slotWord (fun _ x => (List.range 4).foldl (fun y r =>
    let j := sketchIx k.toNat e.toNat r (x.n a)
    y.setT j (satAdd (y.t j) (x.n b))) x) s
def execNsktq (d a : BitVec 4) (k : BitVec 4) (e : BitVec 10) (s : State) : Result :=
  slotWord (fun _ x => x.setN d (BitVec.ofNat 32 (((List.range 4).map (fun r =>
    (x.t (sketchIx k.toNat e.toNat r (x.n a))).toNat)).foldl min (2 ^ 32 - 1)))) s

/-- Functions with registers on a die, or every one of them (R370). -/
def freezeVf (s : State) (d : Nat) (x : Slot) : State :=
  if x.any then (List.range 512).foldl (fun s v => s.mapVd d v (fun y => { y with frozen := true })) s
  else s.mapVd d x.vf.toNat (fun y => { y with frozen := true })

/-- The actions of ntrig in the order snapshot, freeze, interrupt (R370). -/
def trigger (d k : Nat) (a : BitVec 4) (i : BitVec 8) (c : BitVec 3) (s : State) : State :=
  let s := if c.getLsbD 2 then s.mapSlot d k (fun x => { x with snapR := x.reg, snapT := x.tab, snapN := x.snapN + 1 }) else s
  let x := s.slot d k
  let s := if c.getLsbD 1 then freezeVf s d x else s
  if c.getLsbD 0 then
    (s.mapSlot d k (fun y => { y with trig := (x.n a).setWidth 64 <<< 32 ||| i.setWidth 64 })).out (.msix x.vf.toNat x.vec.toNat)
  else s

def execNtrig (a : BitVec 4) (i : BitVec 8) (c : BitVec 3) (s : State) : Result :=
  newtWordAt (fun d k r s =>
    let s := if r.trig then s else trigger d k a i c s
    s.newtGo d k { r with trig := true } (r.pc + 1)) s

/-- nmark, R371: a MARK record of the event's core for the event's tenant. -/
def execNmark (a : BitVec 4) (t : BitVec 8) (s : State) : Result :=
  newtWordAt (fun d k r s =>
    let f0 := r.ev.getD 0 0
    let vf := (r.ev.getD 1 0).toNat % 512
    let c := (f0.extractLsb' 10 12).toNat
    let s := if f0.getLsbD 22 then s
      else s.traceFor vf c (ofIx (f0.extractLsb' 8 2).toNat) 7 (((s.slot d k).n a).setWidth 64) t.toNat
    s.newtGo d k r (r.pc + 1)) s

/-- The queued events are discarded, each a queue drop (R365). -/
def Slot.discard (x : Slot) : Slot := { x with queue := [], qdrop := min (x.qdrop + x.queue.length) (2 ^ 32 - 1) }

/-- EN becomes 0, R365. -/
def Slot.disable (x : Slot) : Slot := { x.discard with en := false, endEn := false }

/-- The end of a run, R372: the words run are paid, and a slot that a write has disabled meanwhile stops (R365). -/
def execNend (s : State) : Result :=
  newtWordAt (fun d k r s =>
    let s := s.mapVd d (s.slot d k).vf.toNat (fun y => { y with nbleft := y.nbleft - (r.n + 1) })
    s.mapSlot d k (fun x => let x := { x with run := none }; if x.endEn then x.disable else x)) s

/-! ### Events and runs, R363, R372 -/

/-- Whether a slot takes an event. -/
def Slot.wants (x : Slot) (ev : List (BitVec 32)) : Bool :=
  let kind := (ev.getD 0 0).toNat % 256
  x.en && 1 ≤ kind && kind ≤ 10 && x.mask.getLsbD (kind - 1) && (x.any || x.vf.toNat == (ev.getD 1 0).toNat)

/-- An event joins a slot's queue or is counted as a queue drop. -/
def Slot.offer (x : Slot) (ev : List (BitVec 32)) : Slot :=
  if !x.wants ev then x
  else if x.queue.length < 64 then { x with queue := x.queue ++ [ev] } else { x with qdrop := min (x.qdrop + 1) (2 ^ 32 - 1) }

/-- The oldest posted event of a die is offered to every slot in increasing order. -/
def arriveNewt (die : Nat) (s : State) : State :=
  match (s.die die).newtIn with
  | [] => s
  | ev :: t =>
    let s := s.mapDie die (fun x => { x with newtIn := t })
    (List.range 16).foldl (fun s k => s.mapSlot die k (fun x => x.offer ev)) s

def execNewtEventArrival (die : Nat) (s : State) : Result := event (arriveNewt die) s

/-- The next queued event starts its run when the budget of the slot's function allows it, and is a budget drop otherwise. -/
def startRun (die k : Nat) (s : State) : State :=
  let x := s.slot die k
  match x.run, x.queue with
  | none, ev :: t =>
    if !x.en then s
    else if (s.vd die x.vf.toNat).nbleft ≥ 64 then s.mapSlot die k (fun x => { x with
      queue := t, run := some { ev := ev, reg := x.reg, tab := x.tab, snapR := x.snapR, snapT := x.snapT, snapN := x.snapN } })
    else s.mapSlot die k (fun x => { x with queue := t, bdrop := min (x.bdrop + 1) (2 ^ 32 - 1) })
  | _, _ => s

/-- The turn of a slot that starts a run, as an event or at a Newt turn. -/
def execNewtRun (die slot : Nat) (s : State) : Result :=
  .next (startRun die slot (match s.agenda with
    | .newt _ _ :: _ => s.pop
    | _ => s.popEvent))

/-! ### Slot control, R364 to R366 -/

/-- The reasons of the load check for the word at index i, with the first nend at `last`. -/
def newtReason (w : BitVec 32) (i last : Nat) : Option Nat :=
  let code := (w.extractLsb' 27 5).toNat
  let nd := w.extractLsb' 23 4
  let na := w.extractLsb' 19 4
  let nb := w.extractLsb' 15 4
  let im := w.extractLsb' 0 15
  let k := (im.extractLsb' 10 4).toNat
  let z : Bool := match code with
    | 0x01 => na != 0 || nb != 0 || im.extractLsb' 3 12 != 0
    | 0x02 => na != 0 || nb != 0
    | 0x0C => nd != 0 || nb != 0 || im.extractLsb' 6 7 != 0 || (im.extractLsb' 13 2 == 0 && na != 0)
    | 0x0D => nb != 0
    | 0x0E => im.extractLsb' 10 5 != 0
    | 0x0F => nd != 0 || im.getLsbD 14
    | 0x10 => nb != 0 || im.getLsbD 14
    | 0x11 => nd != 0 || nb != 0 || im.extractLsb' 11 4 != 0
    | 0x12 => nd != 0 || nb != 0 || im.extractLsb' 8 7 != 0
    | 0x13 => nd != 0 || na != 0 || nb != 0 || im != 0
    | _ => if im.getLsbD 14 then nb != 0 else im.extractLsb' 0 14 != 0
  let bad : Bool := match code with
    | 0x0C => im.extractLsb' 13 2 == 3 || im.extractLsb' 0 6 == 0
    | 0x0F | 0x10 => k > 8 || (im.extractLsb' 0 10).toNat + 4 * 2 ^ k > 1024
    | 0x11 => im.extractLsb' 0 3 == 0
    | _ => false
  if code = 0 || code ≥ 0x14 then some 2
  else if z then some 3
  else if bad then some 4
  else if code = 0x0C && i + (im.extractLsb' 0 6).toNat > last then some 5
  else none

/-- The load check of a program: the reason and the index of the failing word. -/
def loadCheck (prog : Tab (BitVec 32)) : Option (Nat × Nat) :=
  match (List.range 64).find? (fun i => ((Tab.get 0 prog i).extractLsb' 27 5).toNat = 0x13) with
  | none => some (1, 63)
  | some last => (List.range (last + 1)).findSome? (fun i => (newtReason (Tab.get 0 prog i) i last).map (fun r => (r, i)))

/-- The Z bits of NSCTL. -/
def nsctlZ (v : Word) : Bool := v.extractLsb' 38 26 != 0 || v.extractLsb' 26 6 != 0 || v.extractLsb' 12 4 != 0 || v.getLsbD 9

/-- NSCTL as it reads: EN is 0 after a write that clears it. -/
def Slot.ctlWord (x : Slot) : Word :=
  BitVec.ofNat 64 (x.vf.toNat + (if x.en && !x.endEn then 2 ^ 10 else 0) + (if x.any then 2 ^ 11 else 0) + x.mask.toNat * 2 ^ 16
    + x.vec.toNat * 2 ^ 32)

/-- MASK and VEC of a write, with ANY and VF where the physical function's driver writes. -/
def Slot.ctl (x : Slot) (pf : Bool) (v : Word) : Slot :=
  let x := { x with vec := v.extractLsb' 32 6, mask := v.extractLsb' 16 10 }
  if pf then { x with any := v.getLsbD 11, vf := v.extractLsb' 0 9 } else x

/-- A write of NSCTL, R365. `pf` tells the physical function's driver from the owner's, whose writes that set EN are ignored
while NEWT is inactive (spec/20 R402). A write that clears EN while a run is in progress acts when that run ends (`endEn`);
one that sets EN meanwhile comes after it, so the events queued until then are discarded and the program is checked. -/
def writeNsctl (die k : Nat) (pf : Bool) (v : Word) (s : State) : State :=
  let x := s.slot die k
  let en := v.getLsbD 10
  if nsctlZ v then s
  else if !pf && en && !s.feat x.vf.toNat 5 then s
  else
    let y := x.ctl pf v
    s.mapSlot die k (fun _ =>
      if en && (!x.en || x.endEn) then
        let z := if x.endEn then y.discard else y
        match loadCheck x.prog with
        | some (r, i) => { z with reason := r, badix := i }
        | none => { z with en := true, endEn := false, reason := 0, badix := 0 }
      else if !en && x.en then (if x.run.isSome then { y with endEn := true } else y.disable)
      else y)

def execNewtSlotEnable (die slot : Nat) (v : Word) (s : State) : Result :=
  event (fun s => if v.getLsbD 10 then writeNsctl die slot true v s else s) s
def execNewtSlotDisable (die slot : Nat) (v : Word) (s : State) : Result :=
  event (fun s => if v.getLsbD 10 then s else writeNsctl die slot true v s) s

/-! ### The trace, R373, R374 -/

/-- A write of NTCTL: EN resets the ring when it becomes 1, and is ignored while TRACE is inactive (spec/20 R402); a 0 clears
FROZEN. -/
def writeNtctl (die vf : Nat) (v : Word) (s : State) : State :=
  if v.extractLsb' 2 62 != 0 || (v.getLsbD 0 && !s.feat vf 4) then s else
  s.mapVd die vf (fun y =>
    let z := { y with frozen := y.frozen && v.getLsbD 1, nten := v.getLsbD 0 }
    if v.getLsbD 0 && !y.nten then { z with nthead := 0, nttail := 0, ntsince := s.clock } else z)

def execNtctlWrite (die vf : Nat) (v : Word) (s : State) : Result := event (writeNtctl die vf v) s

/-- The 16 bytes of a trace record, R375. -/
def traceBytes (c : Nat) (r : TraceRec) : List Byte :=
  leBytes 8 r.pc.toNat ++ leBytes 8 (r.kind + ixOf r.k * 2 ^ 8 + (if r.lost then 2 ^ 10 else 0) + c * 2 ^ 12 + r.delta * 2 ^ 24
    + r.aux % 256 * 2 ^ 56)

/-- A record is lost: it is counted, and the core's next record says so. -/
def loseRecord (c : Nat) (r : TraceRec) (s : State) : State :=
  (s.mapVd (dieOf c) r.vf (fun y => { y with ntdrop := min (y.ntdrop + 1) (2 ^ 32 - 1) })).mapCore c (fun x =>
    match x.trace with
    | [] => { x with lost := true }
    | q :: t => { x with trace := { q with lost := true } :: t })

/-- The record at the head of a core's trace FIFO leaves it. -/
def State.popTrace (s : State) (c : Nat) : State :=
  (s.mapCore c (fun x => { x with trace := x.trace.drop 1 })).leaveWalks (· == ⟨4096 + dieOf c, unitTrace c⟩)

/-- Whether a record of a core of the die is being written into a ring. -/
def State.tracing (s : State) (d vf : Nat) : Bool := s.cores.any (fun e => dieOf e.1 == d && e.2.trace.any (fun r => r.vf == vf && r.sent.isSome))

/-- Whether that write has been performed. -/
def State.traced (s : State) (d vf : Nat) : Bool :=
  let mine (wr : Writer) : Bool := wr.kind == 6 && wr.dev && wr.die == d && wr.vf == vf
  s.wire.all (fun f => !((f.writer.map mine).getD false)) && s.hostOut.all (fun e => !mine e.wr)

/-- The record that has been written leaves its core, and NTHEAD passes it unless the ring has been started again meanwhile. -/
def closeRecord (c vf : Nat) (at' : BitVec 32 × Nat) (s : State) : State :=
  (s.popTrace c).mapVd (dieOf c) vf (fun y => if y.nthead = at'.1 && y.ntsince = at'.2 then { y with nthead := y.nthead + 1 } else y)

/-- The Newt writes the oldest record of a core into its ring, or drops it; one that waits for a translation or behind another of the ring
stays. NTHEAD rises once the record has been performed (R374). -/
def drainTrace (c : Nat) (s : State) : State :=
  match (s.core c).trace with
  | [] => s
  | r :: _ =>
    let d := dieOf c
    let y := s.vd d r.vf
    let n := 2 ^ y.ntsize
    match r.sent with
    | some h => if s.traced d r.vf then closeRecord c r.vf h s else s
    | none =>
    if y.frozen || (y.nthead - y.nttail).toNat = n then loseRecord c r (s.popTrace c)
    else if s.tracing d r.vf then s else
    let va := y.ntbase + BitVec.ofNat 64 (16 * (y.nthead.toNat % n))
    let put (s : State) (pa : Nat) : State :=
      (s.sendWrite { kind := 6, dev := true, die := d, vf := r.vf } pa ((traceBytes c r).map some) false).mapCore c
        (fun x => { x with trace := { r with sent := some (y.nthead, y.ntsince) } :: x.trace.drop 1 })
    match s.portTr d (unitTrace c) r.vf va .write 16 none with
    | (s, .ok pa) | (s, .held pa) => put s pa
    | (s, .wait) => s
    | (s, .fault fw e) => loseRecord c r (if fw then s.popTrace c else (s.popTrace c).logAf d r.vf ⟨va, c, .write, e⟩)

def execTraceDrain (s : State) : Result := turnEvent (fun c _ _ s => drainTrace c s) s

end Sys2Proof.Machine
end

