-- ==== Sys2Proof/Machine/Crypto.lean ====
section
/-!
DEFINITION. The algorithms that firmware, identity and attestation use (spec/00 R4): SHAKE256 and ML-DSA-65. The spec names them and
states neither; they are taken from FIPS 202 and FIPS 204 (PRESUMED, log entry 88). Keys, and where an image holds its signature, are
values of Config.
-/

namespace Sys2Proof.Machine

open Sys2Proof

/-! ### SHAKE -/

def keccakRounds : List Word :=
  [0x1, 0x8082, 0x800000000000808A, 0x8000000080008000, 0x808B, 0x80000001, 0x8000000080008081, 0x8000000000008009, 0x8A, 0x88, 0x80008009,
   0x8000000A, 0x8000808B, 0x800000000000008B, 0x8000000000008089, 0x8000000000008003, 0x8000000000008002, 0x8000000000000080, 0x800A,
   0x800000008000000A, 0x8000000080008081, 0x8000000000008080, 0x80000001, 0x8000000080008008]

/-- The rotation of lane x + 5y. -/
def keccakTurns : List Nat := [0, 1, 62, 28, 27, 36, 44, 6, 55, 20, 3, 10, 43, 25, 39, 41, 45, 15, 21, 8, 18, 2, 61, 56, 14]

/-- One round of the permutation on 25 lanes: theta, rho and pi, chi, iota. -/
def keccakRound (a : List Word) (rc : Word) : List Word :=
  let at' (l : List Word) (x y : Nat) : Word := l.getD (x % 5 + 5 * (y % 5)) 0
  let col := (List.range 5).map (fun x => (List.range 5).foldl (fun w y => w ^^^ at' a x y) 0)
  let d := (List.range 5).map (fun x => col.getD ((x + 4) % 5) 0 ^^^ (col.getD ((x + 1) % 5) 0).rotateLeft 1)
  let t := (List.range 25).map (fun i => a.getD i 0 ^^^ d.getD (i % 5) 0)
  -- lane (x, y) goes to (y, 2x + 3y), so lane (X, Y) comes from (X + 3Y, X)
  let b := (List.range 25).map (fun i =>
    let x := i % 5
    let y := i / 5
    let from' := (x + 3 * y) % 5 + 5 * x
    (t.getD from' 0).rotateLeft (keccakTurns.getD from' 0))
  let c := (List.range 25).map (fun i => at' b (i % 5) (i / 5) ^^^ (~~~(at' b (i % 5 + 1) (i / 5)) &&& at' b (i % 5 + 2) (i / 5)))
  c.set 0 (c.headD 0 ^^^ rc)

def keccakF (a : List Word) : List Word := keccakRounds.foldl keccakRound a

def laneBytes (w : Word) : List Byte := (List.range 8).map (fun i => w.extractLsb' (8 * i) 8)

/-- A block of at most `rate` bytes into the lanes. -/
def keccakAbsorb (a : List Word) (block : List Byte) : List Word :=
  (List.range 25).map (fun i => a.getD i 0 ^^^ BitVec.ofNat 64 ((List.range 8).foldl (fun n j => n + (block.getD (8 * i + j) 0).toNat * 256 ^ j) 0))

def shakeAbsorb (rate : Nat) : Nat → List Word → List Byte → List Word
  | 0, a, _ => a
  | n + 1, a, m =>
    if m.length < rate then
      let p := m ++ [0x1F] ++ List.replicate (rate - m.length - 1) 0
      keccakF (keccakAbsorb a (p.set (rate - 1) (p.getD (rate - 1) 0 ||| 0x80)))
    else shakeAbsorb rate n (keccakF (keccakAbsorb a (m.take rate))) (m.drop rate)

def shakeSqueeze (rate : Nat) : Nat → List Word → List Byte
  | 0, _ => []
  | n + 1, a => (a.flatMap laneBytes).take rate ++ shakeSqueeze rate n (keccakF a)

/-- The first `n` bytes of the extendable output. -/
def shake (rate : Nat) (m : List Byte) (n : Nat) : List Byte :=
  (shakeSqueeze rate (n / rate + 1) (shakeAbsorb rate (m.length / rate + 1) (List.replicate 25 0) m)).take n

def shake256 : List Byte → Nat → List Byte := shake 136
def shake128 : List Byte → Nat → List Byte := shake 168

/-! ### ML-DSA-65: polynomials of 256 coefficients modulo q -/

abbrev Poly := List Nat

def mlQ : Nat := 8380417
def mlGamma1 : Nat := 2 ^ 19
def mlGamma2 : Nat := 261888
def mlBeta : Nat := 196
def mlTau : Nat := 49
def mlOmega : Nat := 55
def mlK : Nat := 6
def mlL : Nat := 5

/-- Powers modulo q by squaring. -/
def mlPow (b : Nat) : Nat → Nat → Nat
  | 0, _ => 1
  | f + 1, e => if e = 0 then 1 else (if e % 2 = 1 then b else 1) * mlPow (b * b % mlQ) f (e / 2) % mlQ

/-- A number of 8 bits with its bits in reverse. -/
def rev8 (k : Nat) : Nat := (List.range 8).foldl (fun n i => 2 * n + k / 2 ^ i % 2) 0

def Poly.zip (f : Nat → Nat → Nat) (a b : Poly) : Poly := List.zipWith f a b
def Poly.add : Poly → Poly → Poly := Poly.zip (fun x y => (x + y) % mlQ)
def Poly.sub : Poly → Poly → Poly := Poly.zip (fun x y => (x + (mlQ - y % mlQ)) % mlQ)
def Poly.mul : Poly → Poly → Poly := Poly.zip (fun x y => x * y % mlQ)
def Poly.scale (z : Nat) (a : Poly) : Poly := a.map (fun x => z * x % mlQ)
def Poly.zero : Poly := List.replicate 256 0

/-- The number-theoretic transform of 2^f coefficients under node `k` of its tree, and its inverse but for the factor 256. -/
def nttAt : Nat → Nat → Poly → Poly
  | 0, _, w => w
  | f + 1, k, w =>
    let a : Poly := w.take (2 ^ f)
    let t := Poly.scale (mlPow 1753 9 (rev8 k)) (w.drop (2 ^ f))
    nttAt f (2 * k) (a.add t) ++ nttAt f (2 * k + 1) (a.sub t)
def invAt : Nat → Nat → Poly → Poly
  | 0, _, w => w
  | f + 1, k, w =>
    let a := invAt f (2 * k) (w.take (2 ^ f))
    let b := invAt f (2 * k + 1) (w.drop (2 ^ f))
    a.add b ++ (a.sub b).scale (mlPow 1753 10 (512 - rev8 k))
def ntt : Poly → Poly := nttAt 8 1
def intt (w : Poly) : Poly := (invAt 8 1 w).scale 8347681

/-- A matrix of transformed polynomials times a vector of them. -/
def matVec (m : List (List Poly)) (v : List Poly) : List Poly :=
  m.map (fun r => (List.zipWith Poly.mul r v).foldl Poly.add Poly.zero)

/-! ### Bits -/

def bitsOf (b : List Byte) : List Bool := b.flatMap (fun x => (List.range 8).map x.getLsbD)
def numOf (b : List Bool) : Nat := b.foldr (fun x n => 2 * n + x.toNat) 0
/-- `n` numbers of `w` bits each. -/
def unpackNats (w n : Nat) (b : List Byte) : List Nat := (List.range n).map (fun i => numOf (((bitsOf b).drop (w * i)).take w))
def packNats (w : Nat) (l : List Nat) : List Byte :=
  let bits := l.flatMap (fun x => (List.range w).map x.testBit)
  (List.range (bits.length / 8)).map (fun i => BitVec.ofNat 8 (numOf ((bits.drop (8 * i)).take 8)))
/-- Coefficients b − x, modulo q, and back. -/
def unpackFrom (b w : Nat) (s : List Byte) : Poly := (unpackNats w 256 s).map (fun x => (b + mlQ - x) % mlQ)
def packFrom (b w : Nat) (p : Poly) : List Byte := packNats w (p.map (fun x => (b + mlQ - x) % mlQ))

/-- The distance of a coefficient from 0, and the greatest of a list of polynomials. -/
def centred (x : Nat) : Nat := min x (mlQ - x)
def normOf (l : List Poly) : Nat := l.foldl (fun m p => p.foldl (fun m x => max m (centred x)) m) 0

/-- The high part of a coefficient, of 0 to 15, and its low part. -/
def decompose (r : Nat) : Nat × Int :=
  let m := 2 * mlGamma2
  let r0 : Int := if r % m > mlGamma2 then (r % m : Int) - m else r % m
  if (r : Int) - r0 = mlQ - 1 then (0, r0 - 1) else (((r : Int) - r0).toNat / m, r0)
def highBits (r : Nat) : Nat := (decompose r).1
def useHint (h : Bool) (r : Nat) : Nat :=
  let d := decompose r
  if !h then d.1 else if d.2 > 0 then (d.1 + 1) % 16 else (d.1 + 15) % 16
def encodeHigh (w : List (List Nat)) : List Byte := w.flatMap (packNats 4)

/-! ### Sampling -/

/-- A polynomial of the matrix, already transformed, from the first 336 candidates. -/
def rejNtt (seed : List Byte) : Poly :=
  let x := shake128 seed 1008
  let cs := (List.range 336).map (fun i => (x.getD (3 * i) 0).toNat + 256 * (x.getD (3 * i + 1) 0).toNat + 65536 * ((x.getD (3 * i + 2) 0).toNat % 128))
  let l := (cs.filter (· < mlQ)).take 256
  l ++ List.replicate (256 - l.length) 0
def expandA (rho : List Byte) : List (List Poly) :=
  (List.range mlK).map (fun r => (List.range mlL).map (fun s => rejNtt (rho ++ [BitVec.ofNat 8 s, BitVec.ofNat 8 r])))
def expandMask (seed : List Byte) (kappa : Nat) : List Poly :=
  (List.range mlL).map (fun r => unpackFrom mlGamma1 20 (shake256 (seed ++ packNats 16 [kappa + r]) 640))

/-- The places of a challenge: each is the first byte left that is at most its index. -/
def ballSteps (signs : List Bool) : List Nat → List Byte → Poly → Poly
  | [], _, c => c
  | i :: is, b, c =>
    let b := b.dropWhile (fun x => x.toNat > i)
    let j := (b.headD 0).toNat
    let c := c.set i (c.getD j 0)
    ballSteps signs is b.tail (c.set j (if signs.getD (i + mlTau - 256) false then mlQ - 1 else 1))
def sampleInBall (seed : List Byte) : Poly :=
  let x := shake256 seed 544
  ballSteps (bitsOf (x.take 8)) ((List.range mlTau).map (· + (256 - mlTau))) (x.drop 8) Poly.zero

/-! ### Hints -/

def packHint (h : List (List Bool)) : List Byte :=
  let on := h.map (fun p => (List.range 256).filter (p.getD · false))
  let l := on.flatten
  (l ++ List.replicate (mlOmega - l.length) 0 ++ (List.range mlK).map (fun i => ((on.take (i + 1)).flatten).length)).map (BitVec.ofNat 8)
/-- The hints of a signature; none where they are not written in their one form. -/
def unpackHint (y : List Byte) : Option (List (List Bool)) :=
  let n (i : Nat) : Nat := (y.getD (mlOmega + i) 0).toNat
  let start (i : Nat) : Nat := if i = 0 then 0 else n (i - 1)
  let part (i : Nat) : List Nat := (((y.take mlOmega).map (·.toNat)).take (n i)).drop (start i)
  let rises (l : List Nat) : Bool := (l.zip l.tail).all (fun e => e.1 < e.2)
  if (List.range mlK).all (fun i => start i ≤ n i && n i ≤ mlOmega && rises (part i)) && ((y.take mlOmega).drop (n (mlK - 1))).all (· == 0) then
    some ((List.range mlK).map (fun i => (List.range 256).map (part i).contains))
  else none

/-! ### Verifying and signing -/

def slices (w n : Nat) (b : List Byte) : List (List Byte) := (List.range n).map (fun i => (b.drop (w * i)).take w)
/-- The message as the pure form signs it, with no context string. -/
def pureMessage (m : List Byte) : List Byte := [0, 0] ++ m

/-- Whether `sig` is a signature of `m` under the public key `pk`. -/
def mldsaVerify (pk m sig : List Byte) : Bool :=
  pk.length = 1952 && sig.length = 3309 &&
  (let rho := pk.take 32
   let t1 := (slices 320 mlK (pk.drop 32)).map (unpackNats 10 256)
   let ch := sig.take 48
   let z := (slices 640 mlL (sig.drop 48)).map (unpackFrom mlGamma1 20)
   match unpackHint (sig.drop 3248) with
   | none => false
   | some h =>
     let mu := shake256 (shake256 pk 64 ++ pureMessage m) 64
     let c := ntt (sampleInBall ch)
     let w := List.zipWith (fun a t => intt (a.sub (c.mul (ntt (Poly.scale (2 ^ 13) t))))) (matVec (expandA rho) (z.map ntt)) t1
     let w1 := List.zipWith (List.zipWith useHint) h w
     normOf z < mlGamma1 - mlBeta && ch == shake256 (mu ++ encodeHigh w1) 48)

/-- One attempt of the signing loop with the counter `kappa`. -/
def signOnce (sk mu seed : List Byte) (kappa : Nat) : Option (List Byte) :=
  let s1 := ((slices 128 mlL (sk.drop 128)).map (unpackFrom 4 4)).map ntt
  let s2 := ((slices 128 mlK (sk.drop 768)).map (unpackFrom 4 4)).map ntt
  let t0 := ((slices 416 mlK (sk.drop 1536)).map (unpackFrom (2 ^ 12) 13)).map ntt
  let y := expandMask seed kappa
  let w := (matVec (expandA (sk.take 32)) (y.map ntt)).map intt
  let ch := shake256 (mu ++ encodeHigh (w.map (·.map highBits))) 48
  let c := ntt (sampleInBall ch)
  let z := List.zipWith (fun y s => y.add (intt (c.mul s))) y s1
  let r := List.zipWith (fun w s => w.sub (intt (c.mul s))) w s2
  let ct := t0.map (fun t => intt (c.mul t))
  let h := List.zipWith (List.zipWith (fun r t => decide (highBits r ≠ highBits ((r + t) % mlQ)))) r ct
  if normOf z < mlGamma1 - mlBeta ∧ (∀ p ∈ r, ∀ x ∈ p, (decompose x).2.natAbs < mlGamma2 - mlBeta) ∧ normOf ct < mlGamma2
      ∧ (h.flatten.count true) ≤ mlOmega then
    some (ch ++ z.flatMap (packFrom mlGamma1 20) ++ packHint h)
  else none

/-- The first attempt that succeeds. -/
def signLoop (sk mu seed : List Byte) : Nat → Nat → Option (List Byte)
  | 0, _ => none
  | n + 1, kappa => (signOnce sk mu seed kappa).or (signLoop sk mu seed n (kappa + mlL))

/-- The signature of `m` under the secret key `sk` with the random bytes `rnd`, in at most 814 attempts. -/
def mldsaSign (sk m rnd : List Byte) : Option (List Byte) :=
  let mu := shake256 ((sk.drop 64).take 64 ++ pureMessage m) 64
  signLoop sk mu (shake256 ((sk.drop 32).take 32 ++ rnd ++ mu) 64) 814 0

/-- The signature of a report under the device key (spec/20 R407). -/
def deviceSign (m : List Byte) : List Byte := (mldsaSign Config.deviceKey m (Config.signRnd m)).getD (Config.unsigned m)

/-- Whether an image carries a signature that verifies: under the firmware key, or under the configuration key (spec/20 R399, R409). -/
def imageVerifies (fw : Bool) (image : List Byte) : Bool :=
  mldsaVerify (Config.publicKey fw) (Config.signedPart fw image) (Config.signaturePart fw image)

end Sys2Proof.Machine
end

