-- ==== Sys2Proof/Machine/Reset.lean ====
section
/-!
DEFINITION. Resets and the service states of dies (spec/20 R399 to R401, R408, R411 to R413, spec/15 R310): functions, partitions,
the package, self-tests, training, over-temperature.
-/

namespace Sys2Proof.Machine

/-! ### PKGSTAT, spec/20 R398 -/

def dieCode : DieSt → Nat
  | .reset => 0 | .selftest => 1 | .early => 2 | .full => 3 | .offline => 4 | .failed => 5

def State.allFull (s : State) : Bool := (List.range 8).all (fun d => (s.die d).st == .full || (s.die d).st == .failed)

def State.pkgstat (s : State) : Word :=
  BitVec.ofNat 64 (((List.range 8).map (fun d => dieCode (s.die d).st * 2 ^ (3 * d))).sum + (if s.pkg.cfgok then 2 ^ 24 else 0)
    + (if s.allFull then 2 ^ 25 else 0))

/-- MSI-X vector 0 of the physical function is raised when ALLFULL becomes 1. -/
def State.noteFull (s : State) : State :=
  let f := s.allFull
  let t : State := { s with pkg := { s.pkg with wasfull := f } }
  if f && !s.pkg.wasfull then t.out (.pfMsix 0) else t

/-- A die changes its service state. -/
def State.setDie (s : State) (d : Nat) (st : DieSt) : State := (s.mapDie d (fun x => { x with st := st })).noteFull

/-! ### Functions, spec/20 R408, spec/15 R310 -/

def Vf.resetFn (v : Vf) : Vf := { v with gen := v.gen + 1, preqs := [], prstop := false, sets := [] }

/-- A walk that waits for the response to a page request of the function is withdrawn. -/
def Walk.withdraw (v : Nat) (w : Walk) : Walk := match w.st with
  | .page _ => if w.vf = v then { w with st := .withdrawn } else w
  | _ => w

/-- Every outstanding page request is freed and every access that waits on one is withdrawn: it is never performed (log entry 83). -/
def resetVf (v : Nat) (s : State) : State := { s.mapVf v Vf.resetFn with walks := s.walks.map (Walk.withdraw v) }
def execVfReset (vf : Nat) (s : State) : Result := event (resetVf vf) s

/-- A function is created, with its registers on every die at their initial values (spec/15 R310, R314, spec/16 R333, spec/18
R372, R373, spec/20 R403). -/
def createVf (v : Nat) (s : State) : State :=
  (List.range 8).foldl (fun s d => s.mapVd d v (fun _ => {})) (s.mapVf v (fun _ => {}))
def execVfCreation (vf : Nat) (s : State) : Result := event (createVf vf) s

/-! ### Partition reset, spec/20 R412 -/

/-- Step 2: a suspended context is discarded as R258 removes one, with its arrivals (spec/13 R271), and its task abandoned; windows of its launch may
be free then (R261). -/
def discardSuspended (s : State) (y : Ctx) : State :=
  let s := ((s.discardSets y.vf y.task).withdraw y.task).dropColls y.task
  let s := { s with armed := s.armed.filter (fun a => a.task != y.task) }
  (s.taskActs [.abandon y.launch]).releaseWindows y.launch

/-- The suspended contexts that satisfy `p`, by die and context, leave their queues and are discarded. -/
def dropSuspended (s : State) (p : Nat → Ctx → Bool) : State :=
  let gone := s.dies.flatMap (fun e => e.2.queues.flatMap (fun q => q.2.resum.filter (p e.1)))
  let s := { s with dies := s.dies.map (fun e => (e.1, { e.2 with queues := e.2.queues.map (fun q =>
    (q.1, { q.2 with resum := q.2.resum.filter (fun y => !p e.1 y) })) })) }
  gone.foldl discardSuspended s

/-- Step 2: every context on a die's cores is removed, in increasing core number. -/
def removeCores (s : State) (d : Nat) (cause : Word) : State :=
  (Tab.keys s.cores).foldl (fun s c => if dieOf c = d then removeContext s c cause else s) s

/-- The records of the queues of number `q` of some dies that have not ended are abandoned in take order. A continuation that starts
meanwhile is the last of them; each replaces a record that waited, which bounds `f`. -/
def abandonQueue (ds : List Nat) (q : Nat) : Nat → State → State
  | 0, s => s
  | f + 1, s => match s.launches.find? (fun e => ds.contains e.2.die && e.2.q == q && !e.2.ended) with
    | some e => abandonQueue ds q f (s.taskActs [.abandon e.1])
    | none => s

/-- Step 2: every record taken by a queue of these dies that has not ended is abandoned, in increasing queue number and then in take
order. -/
def abandonTaken (ds : List Nat) (s : State) : State :=
  (List.range 64).foldl (fun s q => abandonQueue ds q (2 * s.launches.length) s) s

/-- Step 4: the SDM slices of a die hold zeros. -/
def zeroSdm (s : State) (d : Nat) : State :=
  let mine (pa : Nat) : Bool := homeOf pa == .sdm d
  { s with mem := s.mem.filter (fun e => !mine e.1), poison := s.poison.filter (fun g => !mine (16 * g)) }

/-- A mailbox command that waits for something ends with a result. -/
def endCommand (s : State) (result : Nat) : State :=
  { s with pkg := { s.pkg with mbox := { s.pkg.mbox with busy := false, result := result } } }

/-- The self-test of a die that READMIT runs is over; the last one ends the command (R413). -/
def tested (s : State) (d : Nat) : State :=
  if !s.pkg.mbox.tests.contains d then s else
  let s : State := { s with pkg := { s.pkg with mbox := { s.pkg.mbox with tests := s.pkg.mbox.tests.filter (· != d) } } }
  if s.pkg.mbox.tests.isEmpty then endCommand s s.pkg.mbox.result else s

/-- Steps 4 and 5 for one die; a FAILED die stays so (R399). -/
def clearDie (s : State) (d : Nat) : State :=
  let s := (Tab.keys s.clusters).foldl (fun s n => if n / 32 = d then s.mapCluster n (fun _ => {}) else s) s
  let s := { s with
    tlb := s.tlb.filter (fun e => e.cluster / 32 != d)
    bufs := s.bufs.filter (fun e => match e.2 with | some b => b.pool / 32 != d | none => false) }
  let s := (List.range 16).foldl (fun s k => s.mapSlot d k Slot.disable) (zeroSdm s d)
  if (s.die d).st == .failed then s else tested (s.setDie d .offline) d

/-- PARTRESET of partition p with the SRCE field of spec/06 R441. -/
def partReset (s : State) (p srce : Nat) : State :=
  let ds := s.diesOf p
  let cause : Word := BitVec.ofNat 64 (srce * 2 ^ 24)
  let s := ds.foldl (fun s d => (List.range 64).foldl (fun s q => offQueue d q s) s) s
  let s := ds.foldl (fun s d => removeCores s d cause) s
  let s := dropSuspended s (fun _ y => (s.vf y.vf).part.toNat == p)
  let s := abandonTaken ds s
  let s := (List.range 512).foldl (fun s v => if (s.vf v).part.toNat = p then resetVf v s else s) s
  ds.foldl clearDie s

/-! ### Dies, spec/20 R399, R411, R413 -/

/-- The die is FAILED and holds no context (R401): every core loses its own, with SRCE 4, and those that wait at the die's queues are
discarded (log entry 41). -/
def failDie (d : Nat) (s : State) : State :=
  dropSuspended (removeCores (tested (s.setDie d .failed) d) d (BitVec.ofNat 64 (4 * 2 ^ 24))) (fun e _ => e == d)

def execDieOvertemp (die : Nat) (s : State) : Result := event (failDie die) s

/-- A die whose stacks are trained enters FULL at the 1000 ns tick. -/
def trainedFull (d : Nat) (s : State) : State :=
  if (s.die d).st == .early && (s.die d).trainedL && (s.die d).trainedU then s.setDie d .full else s

/-- A self-test ends: at bring-up the die enters EARLY, under READMIT it returns to FULL with its stacks trained, and a die that
fails enters FAILED. Its cores leave reset. -/
def selftestDone (d : Nat) (pass : Bool) (s : State) : State :=
  if (s.die d).st != .selftest then s else
  let back := s.pkg.mbox.tests.contains d
  let s := s.mapDie d (fun x => { x with left := s.clock, trainedL := x.trainedL || (back && pass), trainedU := x.trainedU || (back && pass) })
  tested (s.setDie d (if !pass then .failed else if back then .full else .early)) d

def execSelftestComplete (die : Nat) (pass : Bool) (s : State) : Result := event (selftestDone die pass) s

def execHbmTrainingComplete (die : Nat) (upper : Bool) (s : State) : Result :=
  event (fun s => s.mapDie die (fun x => if upper then { x with trainedU := true } else { x with trainedL := true })) s

/-- The die clocks are lowered or restored: it changes time only. -/
def execThrottle (die : Nat) (slow : Bool) (s : State) : Result := event (fun s => s.mapDie die (fun x => { x with slow := slow })) s

/-- Package reset: a configuration record that waits in flash takes the place of the one read; when it verifies, every die
enters SELFTEST. What memory holds stays, and so do the running firmware and what is outside the package. -/
def resetPackage (record : List Byte) (s : State) : State :=
  let cfg := s.pkg.cfgNext.getD record
  let ok := imageVerifies false cfg
  let t : State := { State.reset with
    mem := s.mem, poison := s.poison, free := s.free, inbox := s.inbox, outbox := s.outbox
    pkg := { cfgok := ok, fw := s.pkg.fw, cfg := cfg } }
  if ok then (List.range 8).foldl (fun s d => s.mapDie d (fun x => { x with st := .selftest })) t else t

def execPackageReset (record : List Byte) (s : State) : Result := event (resetPackage record) s

end Sys2Proof.Machine
end

