-- ==== Sys2Proof/Machine/Ticks.lean ====
section
/-!
DEFINITION. The ticks of a die: copy refills (spec/15 R316), charges of core time (spec/16 R334), the choice of a pre-emption
(R337), queue watchdogs (spec/20 R412), and the refills of every millisecond (spec/16 R335, spec/18 R372).
-/

namespace Sys2Proof.Machine

/-! ### Charges, R334 -/

/-- The core-microsecond of one core: its tenant is charged, and a charge that is collected counts for the task. -/
def chargeCore (d : Nat) (s : State) (c : Nat) : State :=
  match (s.core c).ctx with
  | none => s
  | some y =>
    let b := (s.vd d y.vf).bu
    let paid := b.meter && (b.charge (s.die d).bupool 1).isSome
    let s := s.chargeTime d y.vf
    if paid then s.mapCtx c (fun y => { y with charged := y.charged + 1 }) else s

def chargeCores (s : State) (d : Nat) : State := ((Tab.keys s.cores).filter (fun c => dieOf c = d)).foldl (chargeCore d) s

/-! ### The choice of a pre-emption, R337 -/

/-- A running task as a victim: its core, context, launch and priority. -/
structure Victim where
  core : Nat
  ctx  : Ctx
  prio : Nat
  rem  : Nat
  kill : Bool

/-- The running tasks of a die. -/
def State.victims (s : State) (d : Nat) : List Victim :=
  s.cores.filterMap (fun e => match e.2.ctx with
    | some y =>
      if dieOf e.1 = d && e.2.removal.isNone && e.2.restart.isNone then
        let x := s.launch y.launch
        some ⟨e.1, y, s.priority x, x.est - y.charged, (s.queue x.die x.q).qctl.getLsbD 27⟩
      else none
    | none => none)

/-- The victim of lowest priority, then on the lowest core number. -/
def lowestVictim (l : List Victim) : Option Victim :=
  l.foldl (fun m v => match m with
    | some a => if v.prio < a.prio then some v else m
    | none => some v) none

/-- The task that R336 would serve: its priority. -/
def State.newcomer (s : State) (d : Nat) : Option Nat := (coresOf d).findSome? (fun c => (s.pickQueue c).map (·.prio))

def setPreempt (s : State) (c : Nat) (p : Preempt) : State := s.mapCtx c (fun y => { y with preempt := p })

/-- A choice leaves a pre-emption that is already under way: a DRAIN whose clamp has been applied, and a CHECKPOINT (log entry 84). -/
def Preempt.choose (p q : Preempt) : Preempt := match p, q with
  | .clamped i, _ => .clamped i
  | .checkpoint, _ => .checkpoint
  | .drain t, .drain _ => .drain t
  | _, q => q

def choosePreempt (s : State) (v : Victim) (p : Preempt) : State := setPreempt s v.core (v.ctx.preempt.choose p)

/-- The first row of the table that matches, while no core of the partition is idle; those of dies that serve nothing are none. A task whose clamp was refused is chosen for no
DRAIN again. -/
def preemptOne (s : State) (d : Nat) : State :=
  if (s.diesOf (s.partOf d)).any (fun e => s.serves e && (coresOf e).any (fun c => (s.core c).ctx.isNone)) then s else
  match s.newcomer d with
  | none => s
  | some p =>
    let vs := s.victims d
    let free := vs.filter (fun v => v.ctx.preempt != .refused)
    match lowestVictim (free.filter (fun v => s.spent d v.ctx.vf)) with
    | some v => choosePreempt s v (.drain s.dieclk)
    | none => match lowestVictim (vs.filter (fun v => v.kill && p ≥ v.prio + 4)) with
      | some v => s.mapCore v.core (fun x => { x with removal := some 0x01000000 })
      | none =>
        if vs.any (fun v => v.prio < p && v.rem ≤ (s.die d).prwait) then s else
        match lowestVictim (free.filter (fun v => v.prio < p && v.rem ≤ (s.die d).prckpt)) with
        | some v => choosePreempt s v (.drain s.dieclk)
        | none => match lowestVictim (vs.filter (fun v => v.prio < p && v.rem > (s.die d).prckpt)) with
          | some v => choosePreempt s v .checkpoint
          | none => s

/-- A DRAIN that has met no drain point within PRDRAINW µs becomes a CHECKPOINT. -/
def hardenDrains (s : State) (d : Nat) : State :=
  (Tab.keys s.cores).foldl (fun s c =>
    if dieOf c ≠ d then s else
    match (s.ctx c).preempt with
    | .drain t => if s.dieclk > t + 1000 * (s.die d).prdrainw then setPreempt s c .checkpoint else s
    | _ => s) s

/-! ### Watchdogs, spec/20 R412 -/

/-- An expiry follows as an event of its own, once every die has had its tick. -/
def afterTicks (t : Turn) : List Turn → List Turn
  | .event c k j (.refillTick d) :: l => .event c k j (.refillTick d) :: afterTicks t l
  | l => t :: l

/-- One queue at a tick: REM counts down while it holds a record, an expiry follows, and an ACTIVE queue posts its tick (spec/18
R362). -/
def tickQueue (d : Nat) (s : State) (q : Nat) : State :=
  let x := s.queue d q
  if x.st == .disabled || x.limit = 0 then s else
  let counts := s.queueHolds d q && x.rem ≠ 0
  let s := if counts then s.mapQueue d q (fun x => { x with rem := x.rem - 1 }) else s
  let s := if counts && x.rem = 1 then { s with agenda := afterTicks (.event 0 .s 0 (.watchdog d q)) s.agenda } else s
  if x.st == .active then s.postNc d 0x0A (queueVf x.qctl) q (s.queue d q).rem 0 else s

/-- Whether another expiry of the same tick in this partition is still to come: the last of them starts the one reset. -/
def State.moreExpiries (s : State) (p : Nat) : Bool :=
  s.agenda.any (fun t => match t with
    | .event _ _ _ (.watchdog d _) => s.partOf d == p
    | _ => false)

/-- The expiry of a queue whose REM is 0: the queue faults, system software is told, and the partition is reset. -/
def expire (d q : Nat) (s : State) : State :=
  let x := s.queue d q
  if x.st == .disabled || x.limit = 0 || x.rem ≠ 0 then s else
  let v : Word := BitVec.ofNat 64 (q + d * 2 ^ 6)
  let s := s.mapQueue d q (fun x => { x with st := .faulted, reason := 13, code := 0x30 })
  let s := ({ s with pkg := { s.pkg with wdlast := v } } : State).out (.watchdog v)
  let s := s.out (.pfMsix 1)
  if s.moreExpiries (s.partOf d) then s else partReset s (s.partOf d) 2

def execWatchdog (die q : Nat) (s : State) : Result := event (expire die q) s

/-! ### Ticks -/

/-- The 1000 ns tick of a die: the refills come before the charges. -/
def tickDie (d : Nat) (s : State) : State :=
  let s := chargeCores (s.refillCopy d) d
  let s := hardenDrains (preemptOne s d) d
  trainedFull d ((List.range 64).foldl (tickQueue d) s)

def execRefillTick (die : Nat) (s : State) : Result := event (tickDie die) s

/-- The refills of every millisecond: core time and Newt words. -/
def refillDie (d : Nat) (s : State) : State :=
  (s.tenantsOn d).foldl (fun s v => s.mapVd d v (fun y => { y with nbleft := y.nbud })) (s.refillTime d)

def execBudgetRefill (die : Nat) (s : State) : Result := event (refillDie die) s

end Sys2Proof.Machine
end

