-- ==== Sys2Proof/Machine/Registers.lean ====
section
/-!
DEFINITION. Registers over CXL.io (spec/20 R396, R397, with R7 of spec/00 on Z fields), features (R402, R403), partitions (spec/19
R388 to R391), and the commands of Chameleon's mailbox (spec/20 R406 to R413).
-/

namespace Sys2Proof.Machine

/-! ### Features -/

/-- A FEATSEL write, R403. -/
def selectFeatures (vf : Nat) (v : BitVec 128) (s : State) : State := s.mapVf vf (fun x => { x with featsel := v, fpend := true })
def execFeatselWrite (vf : Nat) (v : BitVec 128) (s : State) : Result := event (selectFeatures vf v) s

/-- FEATACT for a selection: FEATSEL ∧ FEATCAP with bits 0 and 11 set. -/
def featactOf (v : BitVec 128) : BitVec 128 := (v &&& 0xFFF) ||| 0x801

/-- Whether a function has a context that runs or is suspended. -/
def State.vfBusy (s : State) (vf : Nat) : Bool :=
  s.cores.any (fun e => (e.2.ctx.map (·.vf)) == some vf) || s.suspended.any (fun y => y.vf == vf)

def activateFeatures (vf : Nat) (s : State) : State :=
  if (s.vf vf).fpend && !s.vfBusy vf then s.mapVf vf (fun x => { x with featact := featactOf x.featsel, fpend := false }) else s
def execFeaturesTakeEffect (vf : Nat) (s : State) : Result := event (activateFeatures vf) s

/-! ### Partitions, spec/19 R388 to R390, spec/20 R401 -/

/-- A VFPART write: ignored while a launch queue of the function is ACTIVE. -/
def bindVf (vf : Nat) (v : Word) (s : State) : State :=
  let active := s.dies.any (fun d => d.2.queues.any (fun q => q.2.st == .active && queueVf q.2.qctl == vf))
  if v.extractLsb' 3 61 != 0 || active then s else s.mapVf vf (fun x => { x with part := v.extractLsb' 0 3 })
def execVfpartWrite (vf : Nat) (v : Word) (s : State) : Result := event (bindVf vf v) s

def pidOf (m : BitVec 24) (d : Nat) : Nat := (m.extractLsb' (3 * d) 3).toNat

/-- A map is valid when every route between two dies of a partition stays in it (R388), and no FAILED die shares one (R401). -/
def State.mapValid (s : State) (m : BitVec 24) : Bool :=
  (List.range 8).all (fun a => (List.range 8).all (fun b =>
    a == b || pidOf m a != pidOf m b || ((route a b).all (fun x => pidOf m x == pidOf m a) && (s.die a).st != .failed)))

/-- Whether a request of die `src` for an address goes to or from die `d`. The firewall does not judge those for host memory (R385). -/
def touches (d src pa : Nat) : Bool := match (homeOf pa).die with
  | some h => h == d || src == d
  | none => false

/-- Whether core `c` has a request that has been judged, or awaits its response, to or from die `d`. -/
def Core.outstanding (x : Core) (d c : Nat) : Bool :=
  let far (p : Option Nat) : Bool := (p.map (touches d (dieOf c))).getD false
  x.acc.any (fun r => touches d (dieOf c) r.pa) || x.ops.any (fun o => far o.pa)
    || (x.lq ++ x.wq).any (fun q => far q.pa || q.out.any (fun r => (r.home.map (fun h => h.2 == .rsp && (h.1 == d || dieOf c == d))).getD false))

/-- The die on whose behalf an action waits. -/
def State.actDie (s : State) : TaskAct → Nat
  | .tell d _ _ _ _ | .recState d _ _ | .fault d _ _ | .sink d _ _ => d
  | .abandon n | .skipTo n => (s.launch n).die
  | .msix _ _ => 0

/-- Whether a request that has been judged, or its response, is outstanding to or from a die, R389, R395. -/
def State.outstanding (s : State) (d : Nat) : Bool :=
  s.wire.any (fun f => (f.chan == .req || f.chan == .rsp) && (f.src == d || f.dst == d))
    || s.cores.any (fun e => e.2.outstanding d e.1)
    || s.colls.any (fun x => (x.pa.map (touches d x.die)).getD false)
    || s.acts.any (fun p => (p.pa.map (touches d (s.actDie p.act))).getD false)
    || s.reqs.any (fun e => touches d e.1 e.2 && s.heldUp e.1 e.2)

/-- Conditions of R389 on the dies whose number changes. -/
def State.mapQuiet (s : State) (m : BitVec 24) : Bool :=
  (List.range 8).all (fun d => pidOf m d == s.partOf d ||
    (s.cores.all (fun e => dieOf e.1 != d || e.2.ctx.isNone) && (s.die d).queues.all (fun q => q.2.st == .disabled) && !s.outstanding d))

def takeMap (s : State) : State :=
  match s.pkg.pmpend with
  | some m => if s.mapQuiet m then { s with pkg := { s.pkg with pid := m, pmpend := none } } else s
  | none => s
def execPartmapTakesEffect (s : State) : Result := event takeMap s

/-! ### The mailbox -/

/-- A command that is served ends with its result; while no record has verified, UPDATE of a record alone is served (R399). -/
def command (f : State → State × Option Nat) (s : State) : State :=
  if !s.pkg.cfgok then endCommand s 1 else
  match f s with
  | (s, some r) => endCommand s r
  | (s, none) => s

def chargOf (s : State) (i : Nat) : Word := Tab.get 0 s.pkg.mbox.arg i

def setBuffer (s : State) (bs : List Byte) : State :=
  { s with pkg := { s.pkg with mbox := { s.pkg.mbox with buf := writeBytes s.pkg.mbox.buf 0 (bs.take 8192) } } }

/-- The bits of PARTMAP. -/
def State.partmapWord (s : State) : Word :=
  s.pkg.pid.setWidth 64 ||| (if s.pkg.pmpend.isSome then 1#64 <<< 24 else 0) ||| (if s.pkg.pmerr then 1#64 <<< 25 else 0)

/-- FWCTL of a link, spec/19 R391: FORCE, CLOSED by partition or by FORCE, DOWN. -/
def State.fwctlWord (s : State) (l : Nat) : Word :=
  let e := linkEnds.getD l (0, 0)
  let force := Tab.get false s.pkg.force l
  (if force then 1 else 0) ||| (if force || s.partOf e.1 != s.partOf e.2 then 2 else 0) ||| (if Tab.get false s.pkg.down l then 4 else 0)

/-- Every slot's NSPROG, slots in die and slot order. -/
def State.programs (s : State) : List Byte :=
  (List.range 8).flatMap (fun d => (List.range 16).flatMap (fun k => (List.range 64).flatMap (fun i =>
    leBytes 4 (Tab.get 0 (s.slot d k).prog i).toNat)))

/-- The report of R407 with its signature. -/
def attestReport (s : State) : List Byte :=
  let body := leBytes 8 1 ++ readBytes s.pkg.mbox.buf 0 32 ++ wordBytes 8 s.pkgstat ++ shake256 s.pkg.fw 64
    ++ shake256 s.pkg.cfg 64 ++ shake256 s.programs 64 ++ wordBytes 8 s.partmapWord
  body ++ padTo 3309 (deviceSign body)

def execAttest (s : State) : Result := event (command (fun s => (setBuffer s (attestReport s), some 0))) s
def execGetid (s : State) : Result := event (command (fun s => (setBuffer s (padTo 8192 Config.identity), some 0))) s

/-- UPDATE, R409, verifies the image under the firmware key: firmware runs from the end of the command, a record from the next package reset. -/
def updateImage (image : List Byte) (s : State) : State :=
  match (chargOf s 2).toNat with
  | 0 =>
    if !s.pkg.cfgok then endCommand s 1
    else if !imageVerifies true image then endCommand s 2
    else if Config.version image < Config.rollback s.pkg.cfg then endCommand s 3
    else endCommand { s with pkg := { s.pkg with fw := image } } 0
  | 1 =>
    if !imageVerifies true image then endCommand s 2
    else endCommand { s with pkg := { s.pkg with cfgNext := some image } } 0
  | _ => endCommand s 1
def execUpdate (image : List Byte) (s : State) : Result := event (updateImage image) s

/-- NEWTLOAD: between two runs, after the check of spec/18 R366; a run under way makes it wait. -/
def newtLoad (s : State) : State × Option Nat :=
  let d := (chargOf s 0).toNat
  let k := (chargOf s 1).toNat
  let prog := (List.range 64).foldl (fun (t : Tab (BitVec 32)) i =>
    Tab.set 0 t i (BitVec.ofNat 32 (leNat (readBytes s.pkg.mbox.buf (4 * i) 4)))) []
  if d ≥ 8 || k ≥ 16 then (s, some 1)
  else if (s.slot d k).run.isSome then ({ s with inbox := .event 0 .s 0 .newtload :: s.inbox }, none)
  else match loadCheck prog with
    | some (r, i) => (s.mapSlot d k (fun x => { x with reason := r, badix := i }), some 1)
    | none => (s.mapSlot d k (fun x => { x with prog := prog, reason := 0, badix := 0 }), some 0)
def execNewtload (s : State) : Result := event (command newtLoad) s

/-- RECALHBM holds every access to the stack until it is retrained (R410). -/
def recalStack (s : State) : State × Option Nat :=
  let k := (chargOf s 0).toNat
  if k ≥ 16 then (s, some 1) else ({ s with pkg := { s.pkg with recal := Tab.set false s.pkg.recal k true } }, none)
def execRecalhbm (s : State) : Result := event (command recalStack) s

/-- RECALLINK sets FORCE until the link is retrained. -/
def recalLink (s : State) : State × Option Nat :=
  let l := (chargOf s 0).toNat
  if l ≥ 14 then (s, some 1) else ({ s with pkg := { s.pkg with force := Tab.set false s.pkg.force l true } }, none)
def execRecallink (s : State) : Result := event (command recalLink) s

/-- PARTMAP: a refused map sets ERR (spec/19 R389). -/
def writeMap (s : State) : State × Option Nat :=
  let v := chargOf s 0
  let m := v.extractLsb' 0 24
  if v.extractLsb' 26 38 != 0 || !s.mapValid m then ({ s with pkg := { s.pkg with pmerr := true } }, some 1)
  else ({ s with pkg := { s.pkg with pmerr := false, pmpend := some m } }, some 0)
def execPartmap (s : State) : Result := event (command writeMap) s

def resetPartition (s : State) : State × Option Nat :=
  let p := (chargOf s 0).toNat
  if p ≥ 8 then (s, some 1) else (partReset s p 3, some 0)
def execPartreset (s : State) : Result := event (command resetPartition) s

/-- READMIT: the self-tests of a partition's OFFLINE dies begin; a die that is not OFFLINE is refused (R413). -/
def readmitDies (s : State) : State × Option Nat :=
  let p := (chargOf s 0).toNat
  let ds := if p < 8 then s.diesOf p else []
  let offl := ds.filter (fun d => (s.die d).st == .offline)
  let r := if offl.length = ds.length && !ds.isEmpty then 0 else 1
  let s := offl.foldl (fun s d => s.setDie d .selftest) s
  if offl.isEmpty then (s, some r)
  else ({ s with pkg := { s.pkg with mbox := { s.pkg.mbox with result := r, tests := offl } } }, none)
def execReadmit (s : State) : Result := event (command readmitDies) s

/-- A stack is retrained: held accesses go on, and RECALHBM of it ends. -/
def stackBack (k : Nat) (s : State) : State :=
  let s : State := { s with pkg := { s.pkg with recal := Tab.set false s.pkg.recal k false } }
  if s.pkg.mbox.busy && s.pkg.mbox.cmd = 5 && (chargOf s 0).toNat = k then endCommand s 0 else s
def execHbmRetrained (stack : Nat) (s : State) : Result := event (stackBack stack) s

/-- A link is retrained and opens (spec/19 R392). -/
def linkBack (l : Nat) (s : State) : State :=
  let s : State := { s with pkg := { s.pkg with force := Tab.set false s.pkg.force l false, down := Tab.set false s.pkg.down l false } }
  if s.pkg.mbox.busy && s.pkg.mbox.cmd = 6 && (chargOf s 0).toNat = l then endCommand s 0 else s
def execLinkRetrained (l : Nat) (s : State) : Result := event (linkBack l) s

/-- A link fails. -/
def execLinkDown (l : Nat) (s : State) : Result :=
  event (fun s => { s with pkg := { s.pkg with down := Tab.set false s.pkg.down l true } }) s

/-- The command of a CHCMD value; UPDATE's image is read from host memory. -/
def commandOf (s : State) (v : Word) : Option Instr := match v.toNat with
  | 1 => some .attest
  | 2 => some .getid
  | 3 => some (.update (readBytes s.mem (2 ^ 51 + (chargOf s 0).toNat) (chargOf s 1).toNat))
  | 4 => some .newtload
  | 5 => some .recalhbm
  | 6 => some .recallink
  | 7 => some .partmap
  | 8 => some .partreset
  | 9 => some .readmit
  | _ => none

/-- UPDATE reads its image from host memory (spec/21 R416). -/
def noteImage (s : State) (v : Word) : State :=
  if v = 3 then s.noteRead (2 ^ 51 + (chargOf s 0).toNat) (chargOf s 1).toNat else s

/-- A CHCMD write: discarded while BUSY, otherwise the command runs next; a value that names none is refused. -/
def writeChcmd (v : Word) (s : State) : State :=
  if s.pkg.mbox.busy then s else
  let s : State := { s with pkg := { s.pkg with mbox := { s.pkg.mbox with cmd := v, busy := true, result := 0 } } }
  match commandOf s v with
  | some i => { noteImage s v with agenda := .event 0 .s 0 i :: s.agenda }
  | none => endCommand s 1

/-! ### Translation registers, spec/15 R314 -/

/-- A TINVN write starts an invalidation of the range at TINVA, behind those that run (R307). R314 gives bits [62:32] no class; a write
with one of them set is discarded (DESIGN CHOICE, log entry 68). -/
def startInvalidation (vf : Nat) (v : Word) (s : State) : State :=
  if v.extractLsb' 32 31 != 0 then s
  else s.mapVf vf (fun x => { x with tinv := x.tinv ++ [(x.tinva.toNat % 2 ^ 57 / 2 ^ 16, (v.extractLsb' 0 32).toNat)] })
def execTinvnWrite (vf : Nat) (v : Word) (s : State) : Result := event (startInvalidation vf v) s

/-! ### Registers by offset -/

def low24 (v : Word) : Option Nat := if v.extractLsb' 24 40 = 0 then some (v.toNat) else none
def low32 (v : Word) : Nat := v.toNat % 2 ^ 32

/-- Change a bucket by a register number 0 to 3: control, rate, depth, debt limit. -/
def Bucket.write (b : Bucket) (i : Nat) (v : Word) : Bucket :=
  match i with
  | 0 => if v.extractLsb' 2 62 != 0 then b else { b with meter := v.getLsbD 0, borrow := v.getLsbD 1 }
  | 1 => { b with rate := (low24 v).getD b.rate }
  | 2 => { b with depth := (low24 v).getD b.depth }
  | _ => { b with dmax := (low24 v).getD b.dmax }

/-- The block of function v on die d. -/
def writeVfBlock (d v off : Nat) (w : Word) (s : State) : State :=
  match off / 8 with
  | 0 | 1 | 2 | 3 => s.mapVd d v (fun y => { y with cb := y.cb.write (off / 8) w })
  | 4 | 5 | 6 | 7 => s.mapVd d v (fun y => { y with bu := y.bu.write (off / 8 - 4) w })
  | 8 => s.mapVd d v (fun y => { y with nbud := low32 w })
  | 9 => bindVf v w s
  | 10 => s.mapVf v (fun x => { x with clkey := w })
  | _ => s

/-- A QCTL write: a write while EN = 1 changes only EN (spec/16 R322). -/
def writeQctl (d q : Nat) (v : Word) (s : State) : State :=
  if queueZ v then s
  else if queueEn v then enableQueue d q v s
  else if queueEn (s.queue d q).qctl then offQueue d q s
  else s.mapQueue d q (fun x => { x with qctl := v })

/-- The registers of a Newt slot, by 4-byte accesses (spec/18 R364); those other than NSCTL are the owner's while EN = 0. -/
def writeSlotReg (d k : Nat) (pf : Bool) (off : Nat) (v : Word) (s : State) : State :=
  let w := BitVec.ofNat 32 v.toNat
  let c := (s.slot d k).ctlWord
  if off = 0 then writeNsctl d k pf (c.extractLsb' 32 32 ++ w) s
  else if off = 4 then writeNsctl d k pf (w ++ c.extractLsb' 0 32) s
  else if pf || (s.slot d k).en || off % 4 ≠ 0 then s
  else if 0x100 ≤ off && off < 0x140 then s.mapSlot d k (fun x => { x with reg := Tab.set 0 x.reg ((off - 0x100) / 4) w })
  else if 0x200 ≤ off && off < 0x300 then s.mapSlot d k (fun x => { x with prog := Tab.set 0 x.prog ((off - 0x200) / 4) w })
  else if 0x1000 ≤ off && off < 0x2000 then s.mapSlot d k (fun x => { x with tab := Tab.set 0 x.tab ((off - 0x1000) / 4) w })
  else s

/-- The block of a die. A register of 32 bits takes the low half of its 8-byte write, and one of 24 bits takes no write with a bit above
them set: the spec gives those bits no class (DESIGN CHOICE, log entry 102; NTTAIL and NBUD in their windows likewise). -/
def writeDieBlock (d off : Nat) (v : Word) (s : State) : State :=
  if off < 0x10000 then
    match off / 8 with
    | 0 => s.mapDie d (fun x => { x with cbpoolmax := (low24 v).getD x.cbpoolmax })
    | 2 => s.mapDie d (fun x => { x with bupoolmax := low32 v })
    | 4 => s.mapDie d (fun x => { x with prwait := low32 v })
    | 5 => s.mapDie d (fun x => { x with prckpt := low32 v })
    | 6 => s.mapDie d (fun x => { x with prdrainw := low32 v })
    | 7 => s.mapDie d (fun x => { x with nstarve := low32 v })
    | _ => s
  else if off < 0x11000 then
    let q := (off - 0x10000) / 0x40
    match off % 0x40 with
    | 0 => writeQctl d q v s
    | 8 => submit d q v s
    | 0x20 => setWatchdog d q v s
    | _ => s
  else if 0x20000 ≤ off && off < 0x60000 then writeSlotReg d ((off - 0x20000) / 0x4000) true (off % 0x4000) v s
  else if 0x100000 ≤ off && off < 0x110000 then writeVfBlock d ((off - 0x100000) / 0x80) (off % 0x80) v s
  else s

/-- The package block and the mailbox buffer. PKGSTAT, PARTMAP, WDLAST, PWRNOW, FWCTL, CHSTAT and ZPORT are read-only here. -/
def writePkgBlock (off : Nat) (v : Word) (s : State) : State :=
  if off = 0x18 then
    (if v.toNat < 1000 || v.toNat > 3200 then s else { s with pkg := { s.pkg with pwrcap := v.toNat } })
  else if off = 0x200 then writeChcmd v s
  else if 0x208 ≤ off && off ≤ 0x220 then
    { s with pkg := { s.pkg with mbox := { s.pkg.mbox with arg := Tab.set 0 s.pkg.mbox.arg ((off - 0x208) / 8) v } } }
  else if off = 0x300 then
    (if v.extractLsb' 16 48 != 0 || s.colls.any Coll.live then s else { s with pkg := { s.pkg with zpkg := v.extractLsb' 0 16 } })
  else if 0x2000 ≤ off && off < 0x4000 then
    { s with pkg := { s.pkg with mbox := { s.pkg.mbox with buf := writeBytes s.pkg.mbox.buf (off - 0x2000) (wordBytes 8 v) } } }
  else s

/-- BAR0 of the physical function, R396. -/
def writePf (off : Nat) (v : Word) (s : State) : State :=
  if off < 0x1000000 then writePkgBlock off v s
  else if (off - 0x1000000) / 0x200000 < 8 then writeDieBlock ((off - 0x1000000) / 0x200000) ((off - 0x1000000) % 0x200000) v s
  else s

/-- Registers of a function that hold on every die of its partition, spec/15 R314. -/
def writeVfRegs (vf off : Nat) (v : Word) (s : State) : State :=
  match off with
  | 0x10 => selectFeatures vf ((s.vf vf).featsel.extractLsb' 64 64 ++ v) s
  | 0x18 => selectFeatures vf (v ++ (s.vf vf).featsel.extractLsb' 0 64) s
  | 0x40 => if v.extractLsb' 52 12 != 0 || v.extractLsb' 1 14 != 0 then s else s.mapVf vf (fun x => { x with ptroot := v })
  | 0x48 =>
    if v.extractLsb' 32 32 != 0 || v.extractLsb' 11 5 != 0 then s
    else s.mapVf vf (fun x => { x with pren := v.getLsbD 0, pralloc := v.extractLsb' 2 9 })
  | 0x50 => if v.extractLsb' 0 16 != 0 then s else s.mapVf vf (fun x => { x with tinva := v })
  | 0x58 => startInvalidation vf v s
  | _ => s

/-- The window of a die in a function's BAR0, spec/18 R373. A write of NTBASE that is not canonical or of NTSIZE outside 12 to 26, for
which the row names no fault, is discarded (DESIGN CHOICE, log entry 69). -/
def writeWindow (vf d off : Nat) (v : Word) (s : State) : State :=
  let y := s.vd d vf
  if off = 0x10 then writeNtctl d vf v s
  else if off = 0x18 then
    (if v.extractLsb' 0 16 != 0 || !canonical v || y.nten then s else s.mapVd d vf (fun y => { y with ntbase := v }))
  else if off = 0x20 then
    (if v.toNat < 12 || v.toNat > 26 || y.nten then s else s.mapVd d vf (fun y => { y with ntsize := v.toNat }))
  else if off = 0x30 then s.mapVd d vf (fun y => { y with nttail := BitVec.ofNat 32 v.toNat })
  else if 0x1000 ≤ off && off < 0x1800 && off % 0x20 = 0 then
    let q := (off - 0x1000) / 0x20
    if queueVf (s.queue d q).qctl = vf then submit d q v s else s
  else if 0x40000 ≤ off && off < 0x80000 then
    let k := (off - 0x40000) / 0x4000
    if (s.slot d k).vf.toNat = vf then writeSlotReg d k false (off % 0x4000) v s else s
  else s

/-- BAR0 of a function, R397: a die outside its partition discards the write. -/
def writeVfBar (vf off : Nat) (v : Word) (s : State) : State :=
  if off < 0x100000 then writeVfRegs vf off v s
  else
    let d := (off - 0x100000) / 0x80000
    if d < 8 && s.partOf d = (s.vf vf).part.toNat then writeWindow vf d ((off - 0x100000) % 0x80000) v s else s

/-- Accesses are aligned to 8 bytes, or to 4 in the map of a Newt slot. -/
def regAligned (pf : Bool) (off : Nat) : Bool :=
  let o := if pf then (off - 0x1000000) % 0x200000 else (off - 0x100000) % 0x80000
  let newt := if pf then 0x1000000 ≤ off && 0x20000 ≤ o && o < 0x60000 else 0x100000 ≤ off && 0x40000 ≤ o
  off % 8 = 0 || (off % 4 = 0 && newt)

/-- A register write. -/
def writeReg (pf : Bool) (vf off : Nat) (v : Word) (s : State) : State :=
  if !regAligned pf off then s else if pf then writePf off v s else writeVfBar vf off v s

def execRegisterWrite (pf : Bool) (vf : Nat) (off : Nat) (v : Word) (s : State) : Result := event (writeReg pf vf off v) s

/-! ### Reads of registers by offset -/

/-- A 32-bit half of a 64-bit register, by the offset of the access. -/
def halfWord (v : Word) (off : Nat) : Word := (if off % 8 = 0 then v.extractLsb' 0 32 else v.extractLsb' 32 32).setWidth 64

/-- An element of a table of 32-bit registers that begins at an offset. -/
def tabWord (t : Tab (BitVec 32)) (at' off : Nat) : Word := (Tab.get 0 t ((off - at') / 4)).setWidth 64

/-- The registers of a Newt slot as they stood between two runs, spec/18 R364. -/
def Slot.readAt (x : Slot) (off : Nat) : Word :=
  let r : NewtRun := x.run.getD { ev := [], reg := x.reg, tab := x.tab, snapR := x.snapR, snapT := x.snapT, snapN := x.snapN }
  if off < 8 then halfWord x.ctlWord off
  else if off < 0x10 then halfWord (BitVec.ofNat 64 (x.reason + x.badix * 2 ^ 8 + x.ixerr * 2 ^ 32)) off
  else if off < 0x18 then halfWord (BitVec.ofNat 64 (x.qdrop + x.bdrop * 2 ^ 32)) off
  else if off < 0x20 then (if off = 0x18 then r.snapN.setWidth 64 else 0)
  else if off < 0x28 then halfWord x.trig off
  else if 0x100 ≤ off && off < 0x140 then tabWord r.reg 0x100 off
  else if 0x200 ≤ off && off < 0x300 then tabWord x.prog 0x200 off
  else if 0x1000 ≤ off && off < 0x2000 then tabWord r.tab 0x1000 off
  else if 0x2000 ≤ off && off < 0x2040 then tabWord r.snapR 0x2000 off
  else if 0x2040 ≤ off && off < 0x3040 then tabWord r.snapT 0x2040 off
  else 0

/-- QSTAT, spec/16 R322. -/
def Queue.statWord (x : Queue) : Word :=
  BitVec.ofNat 64 (x.fifo.length + (match x.st with | .disabled => 0 | .active => 1 | .faulted => 2) * 2 ^ 10 + x.reason * 2 ^ 12
    + x.code * 2 ^ 20 + x.ovf * 2 ^ 32)

/-- A register of a bucket: control, rate, depth, debt limit. -/
def Bucket.readAt (b : Bucket) (i : Nat) : Word := match i with
  | 0 => (if b.meter then 1 else 0) ||| (if b.borrow then 2 else 0)
  | 1 => BitVec.ofNat 64 b.rate
  | 2 => BitVec.ofNat 64 b.depth
  | _ => BitVec.ofNat 64 b.dmax

/-- The block of a function on a die. -/
def State.readVfBlock (s : State) (d v off : Nat) : Word := match off / 8 with
  | 0 | 1 | 2 | 3 => (s.vd d v).cb.readAt (off / 8)
  | 4 | 5 | 6 | 7 => (s.vd d v).bu.readAt (off / 8 - 4)
  | 8 => BitVec.ofNat 64 (s.vd d v).nbud
  | 9 => (s.vf v).part.setWidth 64
  | 10 => (s.vf v).clkey
  | _ => 0

/-- The registers of a queue in the block of its die; QSUB is write-only. -/
def Queue.readAt (x : Queue) (off : Nat) : Word := match off with
  | 0 => x.qctl
  | 0x10 => x.statWord
  | 0x18 => x.faddr
  | 0x20 => BitVec.ofNat 64 (x.limit + x.rem * 2 ^ 32)
  | _ => 0

/-- The registers of a die itself. -/
def Die.readAt (x : Die) (i : Nat) : Word := match i with
  | 0 => BitVec.ofNat 64 x.cbpoolmax
  | 1 => BitVec.ofNat 64 x.cbpool
  | 2 => BitVec.ofNat 64 x.bupoolmax
  | 3 => BitVec.ofNat 64 x.bupool
  | 4 => BitVec.ofNat 64 x.prwait
  | 5 => BitVec.ofNat 64 x.prckpt
  | 6 => BitVec.ofNat 64 x.prdrainw
  | 7 => BitVec.ofNat 64 x.nstarve
  | 8 => BitVec.ofNat 64 x.fwdeny
  | 9 => x.fwlast
  | _ => 0

/-- The block of a die. -/
def State.readDieBlock (s : State) (d off : Nat) : Word :=
  if off < 0x10000 then (s.die d).readAt (off / 8)
  else if off < 0x11000 then (s.queue d ((off - 0x10000) / 0x40)).readAt (off % 0x40)
  else if 0x20000 ≤ off && off < 0x60000 then (s.slot d ((off - 0x20000) / 0x4000)).readAt (off % 0x4000)
  else if 0x100000 ≤ off && off < 0x110000 then s.readVfBlock d ((off - 0x100000) / 0x80) (off % 0x80)
  else 0

/-- ZPORT, spec/21 R417. -/
def ZPort.word (x : ZPort) : Word := BitVec.ofNat 64 (x.pkg.toNat + x.far.toNat * 2 ^ 16 + (if x.up then 2 ^ 21 else 0))

/-- The package block and the mailbox buffer. -/
def State.readPkgBlock (s : State) (off : Nat) : Word :=
  if off = 0 then s.pkgstat
  else if off = 8 then s.partmapWord
  else if off = 0x10 then s.pkg.wdlast
  else if off = 0x18 then BitVec.ofNat 64 s.pkg.pwrcap
  else if off = 0x20 then BitVec.ofNat 64 s.pkg.pwrnow
  else if 0x100 ≤ off && off < 0x170 then s.fwctlWord ((off - 0x100) / 8)
  else if off = 0x200 then s.pkg.mbox.cmd
  else if 0x208 ≤ off && off ≤ 0x220 then chargOf s ((off - 0x208) / 8)
  else if off = 0x228 then (if s.pkg.mbox.busy then 1 else 0) ||| BitVec.ofNat 64 (s.pkg.mbox.result * 2 ^ 8)
  else if off = 0x300 then s.pkg.zpkg.setWidth 64
  else if 0x400 ≤ off && off < 0x4C0 then (Tab.get {} s.pkg.zport ((off - 0x400) / 8)).word
  else if 0x2000 ≤ off && off < 0x4000 then bytesWord (readBytes s.pkg.mbox.buf (off - 0x2000) 8)
  else 0

/-- BAR0 of the physical function, R396; an offset that is not named reads as 0. -/
def State.readPf (s : State) (off : Nat) : Word :=
  if off < 0x1000000 then s.readPkgBlock off
  else if (off - 0x1000000) / 0x200000 < 8 then s.readDieBlock ((off - 0x1000000) / 0x200000) ((off - 0x1000000) % 0x200000)
  else 0

/-- FEATCAP, R402: every feature of the table. -/
def featcap : Word := 0xFFF

/-- Registers of a function that hold on every die of its partition. -/
def Vf.readAt (x : Vf) (off : Nat) : Word := match off with
  | 0 => featcap
  | 0x10 => x.featsel.extractLsb' 0 64
  | 0x18 => x.featsel.extractLsb' 64 64
  | 0x20 => x.featact.extractLsb' 0 64
  | 0x28 => x.featact.extractLsb' 64 64
  | 0x30 => (if x.fpend then 1 else 0) ||| (if x.rst then 2 else 0)
  | 0x40 => x.ptroot
  | 0x48 => BitVec.ofNat 64 ((if x.pren then 1 else 0) + (if x.prstop then 2 else 0) + x.pralloc.toNat * 4 + x.gen.toNat * 2 ^ 16)
  | 0x50 => x.tinva
  | 0x58 => if x.tinv.isEmpty then 0 else 1#64 <<< 63
  | _ => 0

/-- A word of an entry of the access-fault log. -/
def AfEnt.word (e : AfEnt) (i : Nat) : Word :=
  Config.afWord e.va e.core (match e.kind with | .read => 0 | .write => 1 | .rmw => 2 | .fetch => 3) e.reason i

/-- The registers of a function on one die, spec/15 R314, spec/16 R333, spec/18 R373. -/
def VfDie.readAt (y : VfDie) (off : Nat) : Word :=
  if 0x800 ≤ off then
    (if off < 0x1000 then ((Tab.get none y.aflog ((off - 0x800) / 32)).map (fun e => e.word (off % 32 / 8))).getD 0 else 0)
  else match off with
    | 0x00 => BitVec.ofNat 64 y.prdrop
    | 0x10 => (if y.nten then 1 else 0) ||| (if y.frozen then 2 else 0)
    | 0x18 => y.ntbase
    | 0x20 => BitVec.ofNat 64 y.ntsize
    | 0x28 => y.nthead.setWidth 64
    | 0x30 => y.nttail.setWidth 64
    | 0x38 => BitVec.ofNat 64 y.ntdrop
    | 0x40 => BitVec.ofNat 64 y.bu.tok
    | 0x48 => BitVec.ofNat 64 y.bu.debt
    | 0x50 => BitVec.ofNat 64 y.cb.tok
    | 0x58 => BitVec.ofNat 64 y.cb.debt
    | 0x60 => BitVec.ofNat 64 y.nbleft
    | 0x68 => BitVec.ofNat 64 (y.afhead % 64)
    | _ => 0

/-- The window of a die in a function's BAR0; a queue or slot that is not bound to the function reads as 0. -/
def State.readWindow (s : State) (vf d off : Nat) : Word :=
  if off < 0x1000 then (s.vd d vf).readAt off
  else if off < 0x1800 then
    let x := s.queue d ((off - 0x1000) / 0x20)
    if queueVf x.qctl ≠ vf then 0 else if off % 0x20 = 8 then x.statWord else if off % 0x20 = 0x10 then x.faddr else 0
  else if 0x40000 ≤ off then
    let x := s.slot d ((off - 0x40000) / 0x4000)
    if x.vf.toNat = vf then x.readAt (off % 0x4000) else 0
  else 0

/-- BAR0 of a function, R397: a die outside its partition reads as 0. -/
def State.readVfBar (s : State) (vf off : Nat) : Word :=
  if off < 0x100000 then (s.vf vf).readAt off
  else
    let d := (off - 0x100000) / 0x80000
    if d < 8 && s.partOf d = (s.vf vf).part.toNat then s.readWindow vf d ((off - 0x100000) % 0x80000) else 0

/-- PWRNOW is a free value of 16 bits at each read, R411 (log entry 86). -/
def State.meterPower (s : State) : State := let a := s.draw; { a.2 with pkg := { a.2.pkg with pwrnow := a.1.toNat % 2 ^ 16 } }

/-- A register read over CXL.io: its value goes to the host. -/
def readReg (pf : Bool) (vf off : Nat) (s : State) : State :=
  let s := if pf && off = 0x20 then s.meterPower else s
  s.out (.regData pf vf off (if !regAligned pf off then 0 else if pf then s.readPf off else s.readVfBar vf off))

end Sys2Proof.Machine
end

