-- ==== Sys2Proof/Machine/Dispatch.lean ====
section
/-!
DEFINITION. The meaning of every instruction and event: one arm per constructor of Instr, each one call.
-/

namespace Sys2Proof.Machine

def exec (i : Instr) (s : State) : Host.Outcome State Fault Refusal :=
  match i with
  | .nop n => Sys2Proof.Machine.execNop n s
  | .add n d a b w => Sys2Proof.Machine.execAdd n d a b w s
  | .sub n d a b w => Sys2Proof.Machine.execSub n d a b w s
  | .and n d a b w => Sys2Proof.Machine.execAnd n d a b w s
  | .or n d a b w => Sys2Proof.Machine.execOr n d a b w s
  | .xor n d a b w => Sys2Proof.Machine.execXor n d a b w s
  | .shl n d a b w => Sys2Proof.Machine.execShl n d a b w s
  | .shr n d a b w => Sys2Proof.Machine.execShr n d a b w s
  | .sra n d a b w => Sys2Proof.Machine.execSra n d a b w s
  | .mul n d a b w => Sys2Proof.Machine.execMul n d a b w s
  | .mulh n d a b u => Sys2Proof.Machine.execMulh n d a b u s
  | .div n d a b u => Sys2Proof.Machine.execDiv n d a b u s
  | .rem n d a b u => Sys2Proof.Machine.execRem n d a b u s
  | .min n d a b u => Sys2Proof.Machine.execMin n d a b u s
  | .max n d a b u => Sys2Proof.Machine.execMax n d a b u s
  | .slt n d a b u => Sys2Proof.Machine.execSlt n d a b u s
  | .seq n d a b => Sys2Proof.Machine.execSeq n d a b s
  | .sne n d a b => Sys2Proof.Machine.execSne n d a b s
  | .csel n d a b z => Sys2Proof.Machine.execCsel n d a b z s
  | .clz n d a w => Sys2Proof.Machine.execClz n d a w s
  | .ctz n d a w => Sys2Proof.Machine.execCtz n d a w s
  | .popc n d a w => Sys2Proof.Machine.execPopc n d a w s
  | .bswap n d a w => Sys2Proof.Machine.execBswap n d a w s
  | .addx n d a b sh => Sys2Proof.Machine.execAddx n d a b sh s
  | .ext n d a b sg => Sys2Proof.Machine.execExt n d a b sg s
  | .ins n d a b => Sys2Proof.Machine.execIns n d a b s
  | .addi n d a im => Sys2Proof.Machine.execAddi n d a im s
  | .andi n d a im => Sys2Proof.Machine.execAndi n d a im s
  | .ori n d a im => Sys2Proof.Machine.execOri n d a im s
  | .xori n d a im => Sys2Proof.Machine.execXori n d a im s
  | .shli n d a w sh => Sys2Proof.Machine.execShli n d a w sh s
  | .shri n d a w sh => Sys2Proof.Machine.execShri n d a w sh s
  | .srai n d a w sh => Sys2Proof.Machine.execSrai n d a w sh s
  | .slti n d a im => Sys2Proof.Machine.execSlti n d a im s
  | .li n d im => Sys2Proof.Machine.execLi n d im s
  | .lis n d im => Sys2Proof.Machine.execLis n d im s
  | .addpc n d im => Sys2Proof.Machine.execAddpc n d im s
  | .jmp n o => Sys2Proof.Machine.execJmp n o s
  | .call n o => Sys2Proof.Machine.execCall n o s
  | .jr n a => Sys2Proof.Machine.execJr n a s
  | .bz n a o => Sys2Proof.Machine.execBz n a o s
  | .bnz n a o => Sys2Proof.Machine.execBnz n a o s
  | .bltz n a o => Sys2Proof.Machine.execBltz n a o s
  | .bgez n a o => Sys2Proof.Machine.execBgez n a o s
  | .loop n lp c e => Sys2Proof.Machine.execLoop n lp c e s
  | .loopi n lp k e => Sys2Proof.Machine.execLoopi n lp k e s
  | .seam n => Sys2Proof.Machine.execSeam n s
  | .ldS8 n d a im => Sys2Proof.Machine.execLdS8 n d a im s
  | .ldS16 n d a im => Sys2Proof.Machine.execLdS16 n d a im s
  | .ldS32 n d a im => Sys2Proof.Machine.execLdS32 n d a im s
  | .ldN8 n d a im => Sys2Proof.Machine.execLdN8 n d a im s
  | .ldN16 n d a im => Sys2Proof.Machine.execLdN16 n d a im s
  | .ldN32 n d a im => Sys2Proof.Machine.execLdN32 n d a im s
  | .ldD n d a im => Sys2Proof.Machine.execLdD n d a im s
  | .ldQ n d a im => Sys2Proof.Machine.execLdQ n d a im s
  | .stB n d a im => Sys2Proof.Machine.execStB n d a im s
  | .stH n d a im => Sys2Proof.Machine.execStH n d a im s
  | .stW n d a im => Sys2Proof.Machine.execStW n d a im s
  | .stD n d a im => Sys2Proof.Machine.execStD n d a im s
  | .stQ n d a im => Sys2Proof.Machine.execStQ n d a im s
  | .gld n d a sc ord q => Sys2Proof.Machine.execGld n d a sc ord q s
  | .gst n d a sc ord q => Sys2Proof.Machine.execGst n d a sc ord q s
  | .fence n kind sc => Sys2Proof.Machine.execFence n kind sc s
  | .tkgive y f => Sys2Proof.Machine.execTkgive y f s
  | .tktake y f => Sys2Proof.Machine.execTktake y f s
  | .tkcount y d f => Sys2Proof.Machine.execTkcount y d f s
  | .tglook n d a => Sys2Proof.Machine.execTglook n d a s
  | .tgset n a b => Sys2Proof.Machine.execTgset n a b s
  | .tgclr n b => Sys2Proof.Machine.execTgclr n b s
  | .tgclrAll n => Sys2Proof.Machine.execTgclrAll n s
  | .evpop y d => Sys2Proof.Machine.execEvpop y d s
  | .evpoll y d => Sys2Proof.Machine.execEvpoll y d s
  | .stgo y d a k => Sys2Proof.Machine.execStgo y d a k s
  | .stwait y m => Sys2Proof.Machine.execStwait y m s
  | .ststop y m => Sys2Proof.Machine.execStstop y m s
  | .cpshape n h sr gr => Sys2Proof.Machine.execCpshape n h sr gr s
  | .cporg n h gr dim => Sys2Proof.Machine.execCporg n h gr dim s
  | .cpstep n h gr dim => Sys2Proof.Machine.execCpstep n h gr dim s
  | .cpld n h sr gr ev => Sys2Proof.Machine.execCpld n h sr gr ev s
  | .cpst n h sr gr ev => Sys2Proof.Machine.execCpst n h sr gr ev s
  | .cpldm n h sr gr ev => Sys2Proof.Machine.execCpldm n h sr gr ev s
  | .cpgat n h sr gr ev => Sys2Proof.Machine.execCpgat n h sr gr ev s
  | .cpsca n h sr gr ev => Sys2Proof.Machine.execCpsca n h sr gr ev s
  | .cpaccAdd n h sr gr ev => Sys2Proof.Machine.execCpaccAdd n h sr gr ev s
  | .cpaccMin n h sr gr ev => Sys2Proof.Machine.execCpaccMin n h sr gr ev s
  | .cpaccMax n h sr gr ev => Sys2Proof.Machine.execCpaccMax n h sr gr ev s
  | .cpaccAnd n h sr gr ev => Sys2Proof.Machine.execCpaccAnd n h sr gr ev s
  | .cpaccOr n h sr gr ev => Sys2Proof.Machine.execCpaccOr n h sr gr ev s
  | .cpaccXor n h sr gr ev => Sys2Proof.Machine.execCpaccXor n h sr gr ev s
  | .cpaccXchg n h sr gr ev => Sys2Proof.Machine.execCpaccXchg n h sr gr ev s
  | .cpaccCas n h sr gr ev => Sys2Proof.Machine.execCpaccCas n h sr gr ev s
  | .cpfill n h gr ev => Sys2Proof.Machine.execCpfill n h gr ev s
  | .cpfillScr n h gr ev => Sys2Proof.Machine.execCpfillScr n h gr ev s
  | .cpres n sr gr ev => Sys2Proof.Machine.execCpres n sr gr ev s
  | .cpreg n sr gr ev => Sys2Proof.Machine.execCpreg n sr gr ev s
  | .cpsig n gr ev j => Sys2Proof.Machine.execCpsig n gr ev j s
  | .cptag n h sr gr ev => Sys2Proof.Machine.execCptag n h sr gr ev s
  | .cpdrain n ev => Sys2Proof.Machine.execCpdrain n ev s
  | .cpdrainBoth n ev => Sys2Proof.Machine.execCpdrainBoth n ev s
  | .tspawn y a b => Sys2Proof.Machine.execTspawn y a b s
  | .tdone y => Sys2Proof.Machine.execTdone y s
  | .tchk y d => Sys2Proof.Machine.execTchk y d s
  | .asdecl y id a b => Sys2Proof.Machine.execAsdecl y id a b s
  | .asdeclRm y id => Sys2Proof.Machine.execAsdeclRm y id s
  | .asabort y => Sys2Proof.Machine.execAsabort y s
  | .asstatSt y d => Sys2Proof.Machine.execAsstatSt y d s
  | .asstatAge y d => Sys2Proof.Machine.execAsstatAge y d s
  | .asstatSet y d a => Sys2Proof.Machine.execAsstatSet y d a s
  | .barr y a b => Sys2Proof.Machine.execBarr y a b s
  | .bwait y a b => Sys2Proof.Machine.execBwait y a b s
  | .btest y d b => Sys2Proof.Machine.execBtest y d b s
  | .coll y d a => Sys2Proof.Machine.execColl y d a s
  | .collwait y a => Sys2Proof.Machine.execCollwait y a s
  | .sysget n d r => Sys2Proof.Machine.execSysget n d r s
  | .sysset n a r => Sys2Proof.Machine.execSysset n a r s
  | .trap n a k => Sys2Proof.Machine.execTrap n a k s
  | .brk n k => Sys2Proof.Machine.execBrk n k s
  | .tret y => Sys2Proof.Machine.execTret y s
  | .idle y => Sys2Proof.Machine.execIdle y s
  | .vadd v => Sys2Proof.Machine.execVadd v s
  | .vsub v => Sys2Proof.Machine.execVsub v s
  | .vmul v => Sys2Proof.Machine.execVmul v s
  | .vfma v => Sys2Proof.Machine.execVfma v s
  | .vfms v => Sys2Proof.Machine.execVfms v s
  | .vmin v => Sys2Proof.Machine.execVmin v s
  | .vmax v => Sys2Proof.Machine.execVmax v s
  | .vabs v => Sys2Proof.Machine.execVabs v s
  | .vneg v => Sys2Proof.Machine.execVneg v s
  | .vand v => Sys2Proof.Machine.execVand v s
  | .vor v => Sys2Proof.Machine.execVor v s
  | .vxor v => Sys2Proof.Machine.execVxor v s
  | .vshl v => Sys2Proof.Machine.execVshl v s
  | .vshr v => Sys2Proof.Machine.execVshr v s
  | .vsra v => Sys2Proof.Machine.execVsra v s
  | .vcmpEq v => Sys2Proof.Machine.execVcmpEq v s
  | .vcmpLt v => Sys2Proof.Machine.execVcmpLt v s
  | .vcmpLe v => Sys2Proof.Machine.execVcmpLe v s
  | .vsel v => Sys2Proof.Machine.execVsel v s
  | .vcvt v => Sys2Proof.Machine.execVcvt v s
  | .vrecip v => Sys2Proof.Machine.execVrecip v s
  | .vrsqrt v => Sys2Proof.Machine.execVrsqrt v s
  | .vsqrt v => Sys2Proof.Machine.execVsqrt v s
  | .vexp2 v => Sys2Proof.Machine.execVexp2 v s
  | .vlog2 v => Sys2Proof.Machine.execVlog2 v s
  | .vdiv v => Sys2Proof.Machine.execVdiv v s
  | .vredSum v => Sys2Proof.Machine.execVredSum v s
  | .vredMax v => Sys2Proof.Machine.execVredMax v s
  | .vredMin v => Sys2Proof.Machine.execVredMin v s
  | .vdot v => Sys2Proof.Machine.execVdot v s
  | .vcopy v => Sys2Proof.Machine.execVcopy v s
  | .vperm v => Sys2Proof.Machine.execVperm v s
  | .viota v => Sys2Proof.Machine.execViota v s
  | .vmxpack v => Sys2Proof.Machine.execVmxpack v s
  | .vmxunpack v => Sys2Proof.Machine.execVmxunpack v s
  | .vseed v => Sys2Proof.Machine.execVseed v s
  | .mxstat m => Sys2Proof.Machine.execMxstat m s
  | .mxstatT m => Sys2Proof.Machine.execMxstatT m s
  | .mxflip m => Sys2Proof.Machine.execMxflip m s
  | .mxstream m => Sys2Proof.Machine.execMxstream m s
  | .mxswap m => Sys2Proof.Machine.execMxswap m s
  | .mxread m => Sys2Proof.Machine.execMxread m s
  | .mxreadFlags m => Sys2Proof.Machine.execMxreadFlags m s
  | .mxwrite m => Sys2Proof.Machine.execMxwrite m s
  | .mxwriteFlags m => Sys2Proof.Machine.execMxwriteFlags m s
  | .mxclear m => Sys2Proof.Machine.execMxclear m s
  | .mxclearAll m => Sys2Proof.Machine.execMxclearAll m s
  | .mxclearFlags m => Sys2Proof.Machine.execMxclearFlags m s
  | .mxclearAllFlags m => Sys2Proof.Machine.execMxclearAllFlags m s
  | .mxfmt m => Sys2Proof.Machine.execMxfmt m s
  | .nget d f => Sys2Proof.Machine.execNget d f s
  | .nli d im => Sys2Proof.Machine.execNli d im s
  | .nadd d a b x im => Sys2Proof.Machine.execNadd d a b x im s
  | .nsub d a b x im => Sys2Proof.Machine.execNsub d a b x im s
  | .nand d a b x im => Sys2Proof.Machine.execNand d a b x im s
  | .nor d a b x im => Sys2Proof.Machine.execNor d a b x im s
  | .nshl d a b x im => Sys2Proof.Machine.execNshl d a b x im s
  | .nshr d a b x im => Sys2Proof.Machine.execNshr d a b x im s
  | .nmin d a b x im => Sys2Proof.Machine.execNmin d a b x im s
  | .nmax d a b x im => Sys2Proof.Machine.execNmax d a b x im s
  | .ncmp d a b x im => Sys2Proof.Machine.execNcmp d a b x im s
  | .nbf a c o => Sys2Proof.Machine.execNbf a c o s
  | .nbin d a m sh u => Sys2Proof.Machine.execNbin d a m sh u s
  | .nhinc d a b e => Sys2Proof.Machine.execNhinc d a b e s
  | .nskt a b k e => Sys2Proof.Machine.execNskt a b k e s
  | .nsktq d a k e => Sys2Proof.Machine.execNsktq d a k e s
  | .ntrig a im c => Sys2Proof.Machine.execNtrig a im c s
  | .nmark a t => Sys2Proof.Machine.execNmark a t s
  | .watchpoint core im => Sys2Proof.Machine.execWatchpoint core im s
  | .uncorrectableError pa => Sys2Proof.Machine.execUncorrectableError pa s
  | .pageWalk core va kind => Sys2Proof.Machine.execPageWalk core va kind s
  | .prgResponse vf pasid ix code => Sys2Proof.Machine.execPrgResponse vf pasid ix code s
  | .atsTranslationCompletion vf ioPage ok pa => Sys2Proof.Machine.execAtsTranslationCompletion vf ioPage ok pa s
  | .atsInvalidateRequest vf ioPage => Sys2Proof.Machine.execAtsInvalidateRequest vf ioPage s
  | .tinvnWrite vf v => Sys2Proof.Machine.execTinvnWrite vf v s
  | .invalidationComplete vf => Sys2Proof.Machine.execInvalidationComplete vf s
  | .multicastDelivery core dest => Sys2Proof.Machine.execMulticastDelivery core dest s
  | .setRequest core va => Sys2Proof.Machine.execSetRequest core va s
  | .setGrant vf ix => Sys2Proof.Machine.execSetGrant vf ix s
  | .qsubWrite die q v => Sys2Proof.Machine.execQsubWrite die q v s
  | .queueEnable die q v => Sys2Proof.Machine.execQueueEnable die q v s
  | .queueDisable die q => Sys2Proof.Machine.execQueueDisable die q s
  | .qwdogWrite die q v => Sys2Proof.Machine.execQwdogWrite die q v s
  | .queueTake die q => Sys2Proof.Machine.execQueueTake die q s
  | .signal vf link => Sys2Proof.Machine.execSignal vf link s
  | .poison vf link => Sys2Proof.Machine.execPoison vf link s
  | .futureAbandon vf futa => Sys2Proof.Machine.execFutureAbandon vf futa s
  | .refillTick die => Sys2Proof.Machine.execRefillTick die s
  | .watchdog die q => Sys2Proof.Machine.execWatchdog die q s
  | .budgetRefill die => Sys2Proof.Machine.execBudgetRefill die s
  | .newtEventArrival die => Sys2Proof.Machine.execNewtEventArrival die s
  | .newtRun die slot => Sys2Proof.Machine.execNewtRun die slot s
  | .newtSlotEnable die slot v => Sys2Proof.Machine.execNewtSlotEnable die slot v s
  | .newtSlotDisable die slot v => Sys2Proof.Machine.execNewtSlotDisable die slot v s
  | .ntctlWrite die vf v => Sys2Proof.Machine.execNtctlWrite die vf v s
  | .featselWrite vf v => Sys2Proof.Machine.execFeatselWrite vf v s
  | .featuresTakeEffect vf => Sys2Proof.Machine.execFeaturesTakeEffect vf s
  | .vfpartWrite vf v => Sys2Proof.Machine.execVfpartWrite vf v s
  | .registerWrite pf vf off v => Sys2Proof.Machine.execRegisterWrite pf vf off v s
  | .update image => Sys2Proof.Machine.execUpdate image s
  | .vfReset vf => Sys2Proof.Machine.execVfReset vf s
  | .packageReset record => Sys2Proof.Machine.execPackageReset record s
  | .selftestComplete die pass => Sys2Proof.Machine.execSelftestComplete die pass s
  | .hbmTrainingComplete die upper => Sys2Proof.Machine.execHbmTrainingComplete die upper s
  | .throttle die slow => Sys2Proof.Machine.execThrottle die slow s
  | .dieOvertemp die => Sys2Proof.Machine.execDieOvertemp die s
  | .linkDown l => Sys2Proof.Machine.execLinkDown l s
  | .hostMemWrite off bytes => Sys2Proof.Machine.execHostMemWrite off bytes s
  | .hostMemRead off n => Sys2Proof.Machine.execHostMemRead off n s
  | .hostSnoop hpa => Sys2Proof.Machine.execHostSnoop hpa s
  | .cxlCacheCompletion id => Sys2Proof.Machine.execCxlCacheCompletion id s
  | .collectiveReady die m => Sys2Proof.Machine.execCollectiveReady die m s
  | .collectiveAbort die clkey sq => Sys2Proof.Machine.execCollectiveAbort die clkey sq s
  | .collectiveDeadline die id => Sys2Proof.Machine.execCollectiveDeadline die id s
  | .collectiveComplete die id => Sys2Proof.Machine.execCollectiveComplete die id s
  | .zwivelPortDown p => Sys2Proof.Machine.execZwivelPortDown p s
  | .unassignedWord p0 r => Sys2Proof.Machine.execUnassignedWord p0 r s
  | .collectiveData die clkey sq rank bytes => Sys2Proof.Machine.execCollectiveData die clkey sq rank bytes s
  | .zwivelPortUp p pkg port => Sys2Proof.Machine.execZwivelPortUp p pkg port s
  | .linkRetrained l => Sys2Proof.Machine.execLinkRetrained l s
  | .hbmRetrained stack => Sys2Proof.Machine.execHbmRetrained stack s
  | .vfCreation vf => Sys2Proof.Machine.execVfCreation vf s
  | .correctedError die => Sys2Proof.Machine.execCorrectedError die s
  | .resultLands => Sys2Proof.Machine.execResultLands s
  | .interlockedResultLands => Sys2Proof.Machine.execInterlockedResultLands s
  | .vectorGroupLands => Sys2Proof.Machine.execVectorGroupLands s
  | .wordRetire => Sys2Proof.Machine.execWordRetire s
  | .strandStops => Sys2Proof.Machine.execStrandStops s
  | .nestedStop => Sys2Proof.Machine.execNestedStop s
  | .checkpointPreemption => Sys2Proof.Machine.execCheckpointPreemption s
  | .contextRemoval => Sys2Proof.Machine.execContextRemoval s
  | .storeBufferPerform => Sys2Proof.Machine.execStoreBufferPerform s
  | .copySendRequest => Sys2Proof.Machine.execCopySendRequest s
  | .copyResponse => Sys2Proof.Machine.execCopyResponse s
  | .accumulateOnWrite => Sys2Proof.Machine.execAccumulateOnWrite s
  | .copyComplete => Sys2Proof.Machine.execCopyComplete s
  | .seamRelease => Sys2Proof.Machine.execSeamRelease s
  | .planeLoad => Sys2Proof.Machine.execPlaneLoad s
  | .planeFlip => Sys2Proof.Machine.execPlaneFlip s
  | .arrayCycle => Sys2Proof.Machine.execArrayCycle s
  | .bankExchange => Sys2Proof.Machine.execBankExchange s
  | .bankPipeCycle => Sys2Proof.Machine.execBankPipeCycle s
  | .taskRestart => Sys2Proof.Machine.execTaskRestart s
  | .arbiterServe => Sys2Proof.Machine.execArbiterServe s
  | .futureResolve => Sys2Proof.Machine.execFutureResolve s
  | .futureRegister => Sys2Proof.Machine.execFutureRegister s
  | .tokenStarvation => Sys2Proof.Machine.execTokenStarvation s
  | .traceDrain => Sys2Proof.Machine.execTraceDrain s
  | .nend => Sys2Proof.Machine.execNend s
  | .attest => Sys2Proof.Machine.execAttest s
  | .getid => Sys2Proof.Machine.execGetid s
  | .newtload => Sys2Proof.Machine.execNewtload s
  | .recalhbm => Sys2Proof.Machine.execRecalhbm s
  | .recallink => Sys2Proof.Machine.execRecallink s
  | .partmap => Sys2Proof.Machine.execPartmap s
  | .partmapTakesEffect => Sys2Proof.Machine.execPartmapTakesEffect s
  | .partreset => Sys2Proof.Machine.execPartreset s
  | .readmit => Sys2Proof.Machine.execReadmit s

end Sys2Proof.Machine
end

