-- ==== Sys2Proof/Machine/Turn.lean ====
section
/-!
DEFINITION. The order of turns (log entry 1): the turns of a core that issues nothing, and the default round of a
clock cycle, which names every event of the package that has something to act on. An event whose conditions do not hold at its turn
changes nothing, so the round may name more than what happens.
-/

namespace Sys2Proof.Machine

/-- A strand's turn that reaches no word: an empty cycle (R144) or nothing. -/
def idleTurn (s : State) (c : Nat) (k : StrandIx) : State :=
  endTurn (if (s.core c).canEmpty k then emptyCycle s c k else s) c

/-- The chance of every strand to issue. -/
def issueTurns (c : Nat) : List Turn := [.issue c .l, .issue c .c, .issue c .w, .issue c .s]

/-- Whether an event is one of the units of its turn's core. -/
def ofCore : Instr → Bool
  | .resultLands | .interlockedResultLands | .vectorGroupLands | .wordRetire | .strandStops | .nestedStop | .checkpointPreemption
  | .contextRemoval | .storeBufferPerform | .copySendRequest | .copyResponse | .accumulateOnWrite | .copyComplete | .seamRelease
  | .planeLoad | .planeFlip | .arrayCycle | .bankExchange | .bankPipeCycle | .taskRestart | .futureResolve | .futureRegister
  | .tokenStarvation | .traceDrain | .watchpoint .. | .setRequest .. => true
  | _ => false

/-- The order of the strands of a core in a clock cycle: S comes after its neighbours (spec/07 R146). -/
def issuePlace : StrandIx → Nat
  | .l => 1 | .c => 2 | .w => 3 | .s => 4

/-- The place that comes after those of the cores. -/
def lastPlace : Nat := 3 + 8 * 4096

/-- The place of a turn in its clock cycle: the ticks and refills of the dies (spec/15 R316, spec/18 R372), then what concerns the
package, then the arbiters, then the cores in increasing number (spec/14 R281, R285), each with its units before its strands; what posts
to event queues for multicasts and for collectives comes after every copy engine (spec/07 R161). -/
def Turn.place : Turn → Nat
  | .event c _ _ i => match i with
    | .refillTick _ | .budgetRefill _ | .watchdog _ _ => 0
    | .arbiterServe => 2
    | .multicastDelivery .. => lastPlace
    | .collectiveComplete .. => lastPlace + 1
    | i => if ofCore i then 3 + 8 * c else 1
  | .newt _ _ | .flit _ | .act _ | .read _ _ _ => 1
  | .issue c k => 3 + 8 * c + issuePlace k

/-- The turn of least place, the first of those, and the others in their order. -/
def firstTurn : List Turn → Option (Turn × List Turn)
  | [] => none
  | t :: l => match firstTurn l with
    | some (u, r) => if u.place < t.place then some (u, t :: r) else some (t, l)
    | none => some (t, [])

/-- The open clock cycle with the turn that comes next at the head of its agenda (log entry 1). -/
def State.ordered (s : State) : State := match firstTurn s.agenda with
  | some (t, r) => { s with agenda := t :: r }
  | none => s

/-- A turn in the round when there is something for it to act on. -/
def turnIf (b : Bool) (t : Turn) : List Turn := if b then [t] else []

/-- Turns of the items of a list that satisfy a condition, each with its place in the list. -/
def turnsAt {α : Type} (p : α → Bool) (f : Nat → Turn) : Nat → List α → List Turn
  | _, [] => []
  | j, x :: t => turnIf (p x) (f j) ++ turnsAt p f (j + 1) t

/-- The event that applies a request at its home port. -/
def accEvent (r : AccReq) : Instr := match r.img with
  | .cpres .. => .futureResolve
  | .cpreg .. => .futureRegister
  | _ => .accumulateOnWrite

/-- An interlocked result that has not landed. -/
def Op.interlocked (o : Op) : Bool := match o.body with
  | .ilock _ _ _ => true
  | _ => false

/-- What the units of a core that holds a context do in a clock cycle, before its strands issue. Results land from the
youngest to the oldest, so that their places stay those of the round. -/
def unitTurns (c : Nat) (x : Core) (nstarve : Nat) : List Turn :=
  let e (i : Instr) : Turn := .event c .s 0 i
  let y := x.ctx.getD {}
  turnIf x.removal.isSome (e .contextRemoval) ++ turnIf x.restart.isSome (e .taskRestart) ++ turnIf x.nested.isSome (e .nestedStop)
  ++ turnIf (y.preempt == .checkpoint || x.halted) (e .checkpointPreemption)
  ++ (List.range 4).flatMap (fun i => turnIf (Tab.get none y.reports i).isSome (e (.watchpoint c i)))
  ++ (turnsAt Op.interlocked (fun j => .event c .s j .interlockedResultLands) 0 x.ops).reverse
  ++ turnIf (!x.ops.isEmpty) (e .vectorGroupLands)
  ++ allStr.flatMap (fun k => turnIf (!(x.str k).sb.isEmpty) (.event c k 0 .storeBufferPerform))
  ++ x.acc.map (fun r => e (accEvent r))
  ++ turnsAt (fun q => !q.out.isEmpty) (fun j => .event c .l j .copyResponse) 0 x.lq
  ++ turnsAt (fun q => !q.out.isEmpty) (fun j => .event c .w j .copyResponse) 0 x.wq
  ++ (x.lq.flatMap (·.mleft)).map (fun d => e (.multicastDelivery c d))
  ++ turnIf (!x.lq.isEmpty && !x.wq.isEmpty) (e .seamRelease)
  ++ turnIf (!x.lq.isEmpty) (.event c .l 0 .copyComplete) ++ turnIf (!x.wq.isEmpty) (.event c .w 0 .copyComplete)
  ++ turnIf (!x.lq.isEmpty || !x.wq.isEmpty) (e .copySendRequest)
  ++ (if x.mxq.isEmpty then [] else [e .planeLoad, e .planeFlip, e .arrayCycle, e .bankExchange, e .bankPipeCycle])
  ++ allStr.flatMap (fun k => turnIf ((x.str k).waited ≥ nstarve && (x.str k).waited > 0) (.event c k 0 .tokenStarvation))

/-- The round of a core. -/
def coreTurns (s : State) (c : Nat) (x : Core) : List Turn :=
  (if x.ctx.isSome then unitTurns c x (s.die (dieOf c)).nstarve ++ issueTurns c else [])
  ++ turnIf (!x.trace.isEmpty) (.event c .s 0 .traceDrain)

/-- Whether a period of `n` ns ends between two times. -/
def passes (n a b : Nat) : Bool := a / n < b / n

/-- The refills and ticks of the dies in the clock cycle that takes their clock from `t` to that of `s`, budgets first. -/
def tickTurns (t : Nat) (s : State) : List Turn :=
  let ds := Tab.keys s.dies
  (if passes 1000000 t s.dieclk then ds.map (fun d => .event 0 .s 0 (.budgetRefill d)) else [])
  ++ (if passes 1000 t s.dieclk then ds.map (fun d => .event 0 .s 0 (.refillTick d)) else [])

/-- The round of a die: the takes of its queues, its arbiter, and its Newt. -/
def dieTurns (s : State) (d : Nat) (x : Die) : List Turn :=
  x.queues.flatMap (fun (e : Nat × Queue) => turnIf (!e.2.fifo.isEmpty) (.event 0 .s 0 (.queueTake d e.1)))
  ++ turnIf (s.serves d && s.someOffer) (.event (512 * d) .s 0 .arbiterServe)
  ++ x.newtIn.map (fun _ => .event 0 .s 0 (.newtEventArrival d))
  ++ x.slots.flatMap (fun (e : Nat × Slot) => turnIf (e.2.run.isSome || !e.2.queue.isEmpty) (.newt d e.1))

/-- What the tables of the functions have to finish: features and invalidations that take effect, sets that are granted. -/
def vfTurns (v : Nat) (x : Vf) : List Turn :=
  let e (i : Instr) : Turn := .event 0 .s 0 i
  turnIf x.fpend (e (.featuresTakeEffect v)) ++ turnIf (!x.tinv.isEmpty) (e (.invalidationComplete v))
  ++ x.sets.flatMap (fun (y : Nat × Option SetEnt) => turnIf (y.2.any (fun z => z.st == .free && !z.wait.isEmpty)) (e (.setGrant v y.1)))

/-- Collectives that may end, by their place in the list, from the youngest. -/
def collTurns (s : State) : List Turn :=
  ((s.colls.zip (List.range s.colls.length)).flatMap (fun e =>
    turnIf (s.dieclk ≥ e.1.due) (.event 0 .s 0 (.collectiveDeadline e.1.die e.2))
    ++ [.event 0 .s 0 (.collectiveComplete e.1.die e.2)])).reverse

/-- The flits on their way, from the youngest, so that their places stay those of the round, and the waiting actions. -/
def netTurns (s : State) : List Turn := (List.range s.wire.length).reverse.map Turn.flit ++ turnIf (!s.acts.isEmpty) (.act 0)

/-- The next clock cycle: the clocks advance, and the agenda holds one input from outside and the default round. -/
def State.tick (s : State) : State :=
  let t := s.dieclk
  let s := { s with
    clock := s.clock + 1, dieclk := (s.clock + 1) * 5 / 12
    dies := s.dies.map (fun (e : Nat × Die) => (e.1, { e.2 with newtIn := e.2.newtIn ++ e.2.newtNow, newtNow := [] })) }
  { s with agenda := s.inbox.take 1 ++ turnIf s.pkg.pmpend.isSome (.event 0 .s 0 .partmapTakesEffect)
             ++ tickTurns t s ++ netTurns s ++ s.dies.flatMap (fun e => dieTurns s e.1 e.2) ++ s.vfs.flatMap (fun e => vfTurns e.1 e.2) ++ collTurns s
             ++ s.cores.flatMap (fun e => coreTurns s e.1 e.2)
           inbox := s.inbox.drop 1 }

end Sys2Proof.Machine
end

