-- ==== Sys2Proof/Machine/Wire.lean ====
section
/-!
DEFINITION. Flits on their way between the dies and to their home ports (spec/19 R380, R381, R383, R385, R392): first-in first-out on
each channel between two dies, and what each does where it arrives.
-/

namespace Sys2Proof.Machine

/-- Whether two flits take one channel from one die to another. -/
def Flit.along (f g : Flit) : Bool := f.src == g.src && f.dst == g.dst && f.chan == g.chan

/-- Whether the request that a part belongs to is still being put together: its command has elements to send (spec/15 R301, R315). -/
def State.unfinishedPart (s : State) (f : Flit) : Bool := match f.cargo with
  | .store wr _ _ true => !wr.dev && (match (s.core wr.core).cmd wr.ord with
    | some q => q.sent < q.n
    | none => false)
  | _ => false

/-- Whether a flit at its die comes after an earlier one there: a write from its die to its granule (R381), or a request of its copy
engine to its port (spec/11 R233). -/
def Flit.after (f e : Flit) : Bool := e.src == f.src && f.gran.isSome && (e.gran == f.gran
  || (match f.cargo with
    | .store wr pa _ _ => wr.kind == 1 && !wr.dev && e.toPort wr.core pa
    | _ => false))

/-- The home port that a flit goes to. -/
def Flit.port (f : Flit) : Option (Nat × Nat) := match f.cargo with
  | .store _ pa _ _ => some (portOf pa)
  | .read off _ => some (portOf off)
  | _ => none

/-- Whether a flit at its die can be delivered behind the flits `l` that came before it: not to a stack under RECALHBM, and each port takes
its requests in the order in which they arrived (spec/20 R410), those that are complete. -/
def State.deliverable (s : State) (l : List Flit) (f : Flit) : Bool :=
  let inTurn : Bool := !l.any (fun e => e.port == f.port && !s.unfinishedPart e)
  match f.cargo with
  | .store _ pa _ _ => !s.recalled pa && !s.unfinishedPart f && inTurn && !l.any f.after
  | .read off _ => !s.recalled off && inTurn
  | _ => true

/-- The last part of a host write that is applied completes it (R383). -/
def hostWritten (wr : Writer) (d : Nat) (s : State) : State :=
  if s.wire.any (fun f => f.isStore && f.writer == some wr) then s else
  s.sendFlit d 0 .hst (.out (.memDone wr.va.toNat))

/-- A write that has been applied on a die is acknowledged: to the host, or on RSP to its sender on another die; a write to host memory
waits for the host's completion (R381, R385). -/
def acknowledge (f : Flit) (wr : Writer) (pa : Nat) (s : State) : State :=
  if wr.kind = 3 then hostWritten wr f.dst s
  else match homeOf pa with
    | .host _ => s
    | _ => if f.src = f.dst then s else s.sendFlit f.dst f.src .rsp (.ack wr)

/-- What a flit does at its die, after it has left the network. -/
def deliverFlit (f : Flit) (s : State) : State := match f.cargo with
  | .store wr pa bs _ => acknowledge f wr pa (applyStore s wr pa bs)
  | .ack _ => s
  | .read off n => s.sendFlit f.dst 0 .hst (.out (.memData off (s.portRead off n)))
  | .out o => s.out o
  | x => collArrives f.dst x s

/-- Whether the next link of a flit is closed to it (R392) or a flit of its channel stands before that link still. -/
def State.stuck (s : State) (l : List Flit) (f : Flit) : Bool :=
  (((hopsOf f.src (route f.src f.dst))[f.hop]?).map (s.linkShut f.chan)).getD false || l.any (fun e => f.along e && e.hop ≤ f.hop)

/-- The turn of the flit at a place: over the next link of its route, behind the earlier flits of its channel, or into its die. At its die
it takes its place behind what has arrived there before. -/
def runFlit (i : Nat) (s : State) : State :=
  match s.wire[i]? with
  | none => s
  | some f =>
    let l := s.wire.take i
    let rest : State := { s with wire := s.wire.eraseIdx i }
    let g : Flit := { f with hop := f.hop + 1 }
    if f.home then if s.deliverable (l.filter Flit.home) f then deliverFlit f rest else s
    else if s.stuck l f then s
    else if g.home then { rest with wire := rest.wire ++ [g] }
    else { s with wire := s.wire.set i g }

end Sys2Proof.Machine
end

