-- ==== Sys2Proof/Machine/Step.lean ====
section
/-!
DEFINITION. One step: the turn of the agenda that comes first, or the next clock cycle when the agenda is empty.
-/

namespace Sys2Proof.Machine

/-- The Newt word that a slot's run is at. -/
def newtWord (x : Slot) (r : NewtRun) : Instr := (decodeNewt (Tab.get 0 x.prog r.pc)).getD .nend

/-- What the turn at the head of the agenda does. -/
def runTurn (s : State) : Host.Outcome State Fault Refusal :=
  match s.agenda with
  | [] => .next s.tick
  | .event _ _ _ i :: _ => exec i s
  | .newt d k :: _ => match (s.slot d k).run with
    | some r => exec (newtWord (s.slot d k) r) s
    | none => exec (.newtRun d k) s
  | .issue c k :: _ =>
    if s.canIssue c k then
      match fetch s c k with
      | (t, .word i) => exec i t
      | (t, .fault code a) => .next (endTurn (raiseWord t c k code a) c)
      | (t, .wait) => .next (endTurn t c)
    else .next (idleTurn s c k)
  | .flit i :: _ => .next (runFlit i s.pop)
  | .act i :: _ => .next (s.pop.doActs i)
  | .read pf vf off :: _ => .next (readReg pf vf off s.pop)

def step (s : State) : Host.Outcome State Fault Refusal := runTurn s.ordered

/-- The strand that may execute a word of these strands: C, L, W or S. -/
def strandFor (who : BitVec 4) : StrandIx := if who = 4 then .c else if who.getLsbD 0 then .s else if who.getLsbD 1 then .l else .w

/-- Page tables that map the first 64 GiB of virtual addresses to the first HBM stack, readable, writable and
executable: a level-4 table at the start of die 0's SDM and a level-3 table after it (spec/15 R302, R303). -/
def oneLeaf (m : List Host.Cell) : List Host.Cell :=
  writeBytes (writeBytes m (2 ^ 40) (leBytes 8 (2 ^ 40 + 0x8001))) (2 ^ 40 + 0x8000) (leBytes 8 0x3B)

/-- The parcels of a table word in memory order. -/
def tableParcels (w : Nat) : List Byte := leBytes 24 w

/-- The state in which step fetches and runs a table word next (log entry 5). -/
def State.withFetchWord (s : State) (nbits w : Nat) : State :=
  let v := BitVec.ofNat 32 w
  if nbits ≤ 32 && ((decodeTableWord nbits w).bind encN).isSome then
    (s.mapSlot 0 0 (fun x => { x with prog := [(0, v)], en := true, run := some { ev := [] } })) |> fun s =>
      { s with agenda := [.newt 0 0] }
  else
    let w := w % 2 ^ nbits
    let k := strandFor (whoOf v)
    let s := { s with mem := writeBytes (oneLeaf s.mem) 0x1000 (tableParcels w), agenda := [.issue 0 k] }
    let s := s.mapDie 0 (fun d => { d with st := .full })
    let s := s.mapVf 0 (fun f => { f with ptroot := BitVec.ofNat 64 (2 ^ 40 + 1) })
    s.setCore 0 (({ ctx := some { task := 1, scrsize := 2 ^ 20 } } : Core).setStr k
      { pc := 0x1000, started := true, running := true })

end Sys2Proof.Machine
end

