-- ==== Sys2Proof/Safety.lean ====
section
/-!
DEFINITION. The terms in which claims are stated: when a word of a strand can complete in its turn, what it leaves as it was,
and the canonical form of memory.
-/

namespace Sys2Proof.Machine

/-- The word `i` of strand `k` of core `c`, with annotations `n`, can complete in this turn: the turn is the strand's; the word's
own fields pass R48; the strand is one of `who` and a word of S carries no token field (R32); no register it reads is pending
under PDM (R27) and none it reads or writes is marked (R23); the tokens it takes are there (R145); a give that would need a 65th
record does not wait (R245); and for a word with Y = 1 no other strand runs, or its bundle issues in this clock cycle (R25). -/
structure Ready (s : State) (c : Nat) (k : StrandIx) (i : Instr) (n : Ann) (who : List StrandIx) (reads dst : List Reg) : Prop where
  turn     : ∃ rest, s.agenda = .issue c k :: rest
  formed   : fieldReason i = none
  strand   : k ∈ who
  tokenless : k = .s → n.t = 0
  readable : pendingRead (s.str c k) reads = none
  unmarked : ∀ r ∈ reads ++ dst, (s.core c).marked k r = false
  tokens   : ∀ f ∈ takesOf k n.t, (s.core c).canTake n.y k f = true
  room     : n.t &&& 3 ≠ 0 → (s.core c).records < 64
  partners : n.y = true → (s.str c k).ygo = true ∨ (s.core c).alone k = true

/-- What every issue of a word does (R18, R24, R145): the strand's issue cycle is counted, the cycle is used, the word's takes are
added to those of the clock cycle, which its own rule left as `w`, and the word stands among those that retire. -/
structure Issued (s t : State) (c : Nat) (k : StrandIx) (i : Instr) (n : Ann) (w : Tab Nat) : Prop where
  count   : (t.str c k).ic = (s.str c k).ic + 1
  once    : (t.str c k).issued = true
  takes   : (t.core c).took = (takesOf k n.t).foldl bump w
  retires : ∃ e ∈ (t.str c k).ret, e.ord = (s.core c).nord ∧ e.seq = (s.str c k).ic + 1 ∧ e.img = i

/-- The strand, which its word has left as `u`, goes on at `x`, or where an end test at `x` sends it (R97). -/
def ContinuesAt (u : Strand) (t : State) (c : Nat) (k : StrandIx) (x : Word) : Prop :=
  let r := (u.endTests x).1
  (t.str c k).pc = r.pc ∧ (t.str c k).lc0 = r.lc0 ∧ (t.str c k).lc1 = r.lc1

/-- The word falls through: the strand goes on behind it. -/
def FallsThrough (u : Strand) (t : State) (c : Nat) (k : StrandIx) (i : Instr) : Prop := ContinuesAt u t c k (u.pc + wordLen i)

/-- Two cores hold the same in their units beside the strands, byte by byte in the scratchpad. -/
structure SameUnits (x y : Core) : Prop where
  scratch  : ∀ a, Tab.get 0 y.scr a = Tab.get 0 x.scr a
  valid    : y.valid = x.valid
  tags     : y.tags = x.tags
  tagWrites : y.tagw = x.tagw
  tagcfg   : y.tagcfg = x.tagcfg
  tokens   : y.tok = x.tok
  gives    : y.gave = x.gave
  events   : y.evq = x.evq
  posted   : y.evnow = x.evnow
  shapes   : y.sh = x.sh
  shapeWrites : y.shw = x.shw
  formats  : y.ft = x.ft
  live     : y.live = x.live
  shadow   : y.shadow = x.shadow
  working  : y.work = x.work
  visible  : y.vis = x.vis
  flight   : y.ops = x.ops
  matrix   : y.mxq = x.mxq
  copyL    : y.lq = x.lq
  copyW    : y.wq = x.wq
  sending  : y.stage = x.stage
  requests : y.acc = x.acc
  landing  : y.vdue = x.vdue
  stops    : y.stops = x.stops
  nested   : y.nested = x.nested
  removal  : y.removal = x.removal
  restart  : y.restart = x.restart
  halted   : y.halted = x.halted

/-- Two contexts hold the same special registers and identity (spec/05 R114). -/
structure SameSpecial (x y : Ctx) : Prop where
  task    : y.task = x.task
  vf      : y.vf = x.vf
  launch  : y.launch = x.launch
  stamp   : y.stamp = x.stamp
  tvec    : y.tvec = x.tvec
  tcause  : y.tcause = x.tcause
  tval    : y.tval = x.tval
  tsave   : y.tsave = x.tsave
  tadp    : y.tadp = x.tadp
  scrsize : y.scrsize = x.scrsize
  scrmode : y.scrmode = x.scrmode
  wpa     : y.wpa = x.wpa
  wpc     : y.wpc = x.wpc
  depth   : y.depth = x.depth
  preempt : y.preempt = x.preempt

/-- What a word of strand `k` of core `c` leaves as it was, where `u` is the strand, `x` the core and `y` the context that its own
rule leaves: the strand's status, generator, loop addresses and store buffer, the other strands, every other core, every byte of
memory, and the core's units and special registers as `x` and `y` hold them. -/
structure Frame (s t : State) (c : Nat) (k : StrandIx) (u : Strand) (x : Core) (y : Ctx) : Prop where
  status    : (t.str c k).sst = u.sst
  generator : (t.str c k).sgn = u.sgn
  starts    : (t.str c k).ls0 = u.ls0 ∧ (t.str c k).ls1 = u.ls1
  ends      : (t.str c k).le0 = u.le0 ∧ (t.str c k).le1 = u.le1
  buffer    : (t.str c k).sb = u.sb
  runs      : (t.str c k).running = u.running ∧ (t.str c k).stopping = u.stopping
  strands   : ∀ j, j ≠ k → t.str c j = s.str c j
  cores     : ∀ e, e ≠ c → t.core e = s.core e
  memory    : ∀ a, t.portRead a 1 = s.portRead a 1
  units     : SameUnits x (t.core c)
  special   : SameSpecial y (t.ctx c)

/-- Everything of the package beside its cores is as it was, but for the counts of trace records that found no room. -/
structure SamePackage (s t : State) : Prop where
  clusters : t.clusters = s.clusters
  dies     : t.dies = s.dies
  vfs      : t.vfs = s.vfs
  pkg      : t.pkg = s.pkg
  tlb      : t.tlb = s.tlb
  walks    : t.walks = s.walks
  wire     : t.wire = s.wire
  reqs     : t.reqs = s.reqs
  takes    : t.takes = s.takes
  acts     : t.acts = s.acts
  launches : t.launches = s.launches
  bufs     : t.bufs = s.bufs
  colls    : t.colls = s.colls
  armed    : t.armed = s.armed
  hostOut  : t.hostOut = s.hostOut
  outbox   : t.outbox = s.outbox
  clock    : t.clock = s.clock
  dieclk   : t.dieclk = s.dieclk
  poison   : t.poison = s.poison
  nlaunch  : t.nlaunch = s.nlaunch
  ntask    : t.ntask = s.ntask
  free     : t.free = s.free
  inbox    : t.inbox = s.inbox
  agenda   : t.agenda = s.agenda
  vfdie    : ∀ d v, ∃ n, t.vd d v = { s.vd d v with ntdrop := n }

/-- The pending bits of the strand (R27): those it had, and those of the registers of `rs`. -/
def Pends (s t : State) (c : Nat) (k : StrandIx) (rs : List Reg) : Prop :=
  ∀ r : Reg, (t.str c k).pend.getLsbD r.toNat = ((s.str c k).pend.getLsbD r.toNat || (r != 0 && rs.contains r))

/-- Registers other than those of `rs` read as before. -/
def KeepsRegs (s t : State) (c : Nat) (k : StrandIx) (rs : List Reg) : Prop := ∀ r, r ∉ rs → t.rd c k r = s.rd c k r

/-- A register reads a value that was written to it; g0 reads zero (R13). -/
def Holds (t : State) (c : Nat) (k : StrandIx) (d : Reg) (v : Word) : Prop := t.rd c k d = if d = 0 then 0 else v

/-- The word completes with register `d` written and nothing else changed. Its next state is the end of its turn from `t`: the turn
leaves the agenda, and the core's last turn closes the clock cycle. -/
def WritesReg (i : Instr) (n : Ann) (s : State) (c : Nat) (k : StrandIx) (d : Reg) (v : Word) : Prop :=
  ∃ t, exec i s = .next (endTurn t c) ∧ Issued s t c k i n (s.core c).took ∧ FallsThrough (s.str c k) t c k i ∧ Holds t c k d v ∧ KeepsRegs s t c k [d]
    ∧ Pends s t c k [] ∧ Frame s t c k (s.str c k) (s.core c) (s.ctx c) ∧ SamePackage s t

/-- The word completes with an operation in flight and nothing else changed: the registers keep their values until it lands. -/
def StartsOp (i : Instr) (n : Ann) (s : State) (c : Nat) (k : StrandIx) (o : Op) : Prop :=
  ∃ t, exec i s = .next (endTurn t c) ∧ Issued s t c k i n (s.core c).took ∧ FallsThrough (s.str c k) t c k i ∧ KeepsRegs s t c k []
    ∧ Pends s t c k (exposedOf o.body) ∧ Frame s t c k (s.str c k) { s.core c with ops := (s.core c).ops ++ [o] } (s.ctx c) ∧ SamePackage s t

/-- The word completes with the strand, the core and the context that its rule leaves, and no register written. -/
def Leaves (i : Instr) (n : Ann) (s : State) (c : Nat) (k : StrandIx) (u : Strand) (x : Core) (y : Ctx) : Prop :=
  ∃ t, exec i s = .next (endTurn t c) ∧ Issued s t c k i n x.took ∧ FallsThrough u t c k i ∧ KeepsRegs s t c k []
    ∧ Pends s t c k [] ∧ Frame s t c k u x y ∧ SamePackage s t

/-- The word completes with the core and the context that its rule leaves, and its strand only goes on. -/
def LeavesCore (i : Instr) (n : Ann) (s : State) (c : Nat) (k : StrandIx) (x : Core) (y : Ctx) : Prop :=
  Leaves i n s c k (s.str c k) x y

/-- The word completes with its strand left as `u`, which goes on at `x` by the end tests after a cycle without a fetch (R94, R96). -/
def Skips (i : Instr) (n : Ann) (s : State) (c : Nat) (k : StrandIx) (u : Strand) (x : Word) : Prop :=
  ∃ t, exec i s = .next (endTurn t c) ∧ Issued s t c k i n (s.core c).took ∧ ContinuesAt u t c k x ∧ (t.str c k).fwait = 2 ∧ KeepsRegs s t c k []
    ∧ Pends s t c k [] ∧ Frame s t c k u (s.core c) (s.ctx c) ∧ SamePackage s t

/-- The word issues and goes to `x`, with `waits` cycles without a fetch (R94) and, where `d` names one, a register written. A
target of 0 ends the strand instead (R144). -/
def Jumps (i : Instr) (n : Ann) (s : State) (c : Nat) (k : StrandIx) (x : Word) (waits : Nat) (d : Option (Reg × Word)) : Prop :=
  ∃ t, exec i s = .next (endTurn t c) ∧ Issued s t c k i n (s.core c).took ∧ (t.str c k).pc = x
    ∧ (t.str c k).lc0 = (s.str c k).lc0 ∧ (t.str c k).lc1 = (s.str c k).lc1
    ∧ (t.str c k).fwait = (if x = 0 then 0 else waits + 1)
    ∧ (t.str c k).exiting = ((s.str c k).exiting || decide (x = 0))
    ∧ (∀ e ∈ d, Holds t c k e.1 e.2) ∧ KeepsRegs s t c k (d.toList.map Prod.fst)
    ∧ Pends s t c k [] ∧ Frame s t c k (s.str c k) (s.core c) (s.ctx c) ∧ SamePackage s t

/-- The word does not issue and raises a fault: the strand keeps its pc, its registers and its issue count, and the core's clock
cycle ends in a stop with this cause (R123). -/
def Raises (i : Instr) (s : State) (c : Nat) (k : StrandIx) (code : Nat) (tval : Word) : Prop :=
  exec i s = .next (endTurn (s.mapCore c (fun x => { x with stops := x.stops ++ [⟨2, k, code, 0, tval⟩] })) c)

/-- The first check of a list that does not pass gives the fault; where all pass, the word does what follows. -/
def FirstFault (l : List (Prop × Nat × Word)) (fault : Nat → Word → Prop) (pass : Prop) : Prop :=
  (∀ p e q, l = p ++ e :: q → (∀ f ∈ p, f.1) → ¬ e.1 → fault e.2.1 e.2.2) ∧ ((∀ f ∈ l, f.1) → pass)

/-- The canonical form of the device's memory. -/
def State.memOk (s : State) : Prop := Memory.wf s.mem

/-- The tables of cores and of functions on dies list each key once, in rising order. -/
def State.keysOk (s : State) : Prop := (s.cores.map Prod.fst).Pairwise (· < ·) ∧ (s.vfdie.map Prod.fst).Pairwise (· < ·)

end Sys2Proof.Machine
end

