-- ==== Sys2Proof/WellFormed.lean ====
section
/-!
DEFINITION. Which instructions are well formed: a word whose class Z fields are zero and whose class V fields hold
assigned values (spec/02 R48 reasons 5 and 6, spec/18 R366 reasons 3 and 4), an event whose operands name units
that exist (spec/00 R1, R2).
-/

namespace Sys2Proof

/-- Cores, dies, functions, queues and slots that exist. -/
def coreOk (c : Nat) : Bool := c < 4096
def dieOk (d : Nat) : Bool := d < 8
def vfOk (v : Nat) : Bool := v < 512
def queueOk (q : Nat) : Bool := q < 64
def slotOk (k : Nat) : Bool := k < 16

/-- An event names units that exist; a word passes trivially. -/
def eventOk : Instr → Bool
  | .watchpoint c i => coreOk c && i < 4
  | .uncorrectableError pa => pa < 2 ^ 52
  | .pageWalk c _ _ => coreOk c
  | .prgResponse v _ ix _ => vfOk v && ix < 512
  | .atsTranslationCompletion v _ _ pa => vfOk v && pa < 2 ^ 52
  | .atsInvalidateRequest v _ => vfOk v
  | .tinvnWrite v _ => vfOk v
  | .invalidationComplete v => vfOk v
  | .multicastDelivery c d => coreOk c && coreOk d
  | .setRequest c _ => coreOk c
  | .setGrant v ix => vfOk v && ix < 256
  | .qsubWrite d q _ => dieOk d && queueOk q
  | .queueEnable d q _ => dieOk d && queueOk q
  | .queueDisable d q => dieOk d && queueOk q
  | .qwdogWrite d q _ => dieOk d && queueOk q
  | .queueTake d q => dieOk d && queueOk q
  | .signal v _ => vfOk v
  | .poison v _ => vfOk v
  | .futureAbandon v _ => vfOk v
  | .refillTick d => dieOk d
  | .watchdog d q => dieOk d && queueOk q
  | .budgetRefill d => dieOk d
  | .newtEventArrival d => dieOk d
  | .newtRun d k => dieOk d && slotOk k
  | .newtSlotEnable d k _ => dieOk d && slotOk k
  | .newtSlotDisable d k _ => dieOk d && slotOk k
  | .ntctlWrite d v _ => dieOk d && vfOk v
  | .featselWrite v _ => vfOk v
  | .featuresTakeEffect v => vfOk v
  | .vfpartWrite v _ => vfOk v
  | .registerWrite _ v _ _ => vfOk v
  | .vfReset v => vfOk v
  | .selftestComplete d _ => dieOk d
  | .hbmTrainingComplete d _ => dieOk d
  | .throttle d _ => dieOk d
  | .dieOvertemp d => dieOk d
  | .linkDown l => l < 14
  | .hostMemWrite o b => o + b.length ≤ 2 ^ 52
  | .hostMemRead o n => o + n ≤ 2 ^ 40
  | .hostSnoop h => h < 2 ^ 51
  | .collectiveReady d _ => dieOk d
  | .collectiveAbort d _ _ => dieOk d
  | .collectiveDeadline d _ => dieOk d
  | .collectiveComplete d _ => dieOk d
  | .collectiveData d _ _ _ _ => dieOk d
  | .zwivelPortDown p => p < 24
  | .zwivelPortUp p _ _ => p < 24
  | .linkRetrained l => l < 14
  | .hbmRetrained k => k < 16
  | .vfCreation v => vfOk v
  | .correctedError d => dieOk d
  | _ => true

/-- A mxclear says in its word which of its four forms it is (CM, spec/10 R212, R213). -/
def modeOk : Instr → Bool
  | .mxclear m => m.cm == 0
  | .mxclearAll m => m.cm == 1
  | .mxclearFlags m => m.cm == 2
  | .mxclearAllFlags m => m.cm == 3
  | _ => true

/-- An instruction is well formed. An unassigned word never is: it is what the decoder answers for one. -/
def wellFormed (i : Instr) : Bool := fieldReason i == none && newtZ i && newtV i && modeOk i && eventOk i

end Sys2Proof
end

