-- ==== Sys2Proof/Certificates/Slice0/Obligations.lean ====
section
/-!
DEFINITION. The statements about the model for the provers, from the numbered rules of the spec. Each holds for every state that
meets its hypotheses, reachable or not.
-/

/-! ### The operators of the spec's pseudocode (spec/03 R51) -/

namespace Sys2Proof.Machine

/-- Wrap(x, 64). -/
def Wrap64 (x : Int) : Word := BitVec.ofInt 64 x
/-- Sx32(x): the low 32 bits, sign-extended. -/
def Sx32 (x : Int) : Word := (BitVec.ofInt 32 x).signExtend 64
/-- Signed or unsigned by the letter of the word: `.n` is unsigned. -/
def ByLetter (u : Bool) (x : Word) : Int := if u then x.toNat else x.toInt

/-! ### Shapes of statements about words -/

/-- A word that reads ga and gb and writes gd with latency 1: in every strand, ready to issue, it issues with the value of `v`. -/
def WritesOf (i : Ann → Reg → Reg → Reg → Instr) (v : Word → Word → Word) : Prop :=
  ∀ (s : State) (c : Nat) (k : StrandIx) (n : Ann) (d a b : Reg), Ready s c k (i n d a b) n allStr [a, b] [d] →
    WritesReg (i n d a b) n s c k d (v (s.rd c k a) (s.rd c k b))

/-- The same of a word that also reads its old gd. -/
def WritesOfOld (i : Ann → Reg → Reg → Reg → Instr) (v : Word → Word → Word → Word) : Prop :=
  ∀ (s : State) (c : Nat) (k : StrandIx) (n : Ann) (d a b : Reg), Ready s c k (i n d a b) n allStr [d, a, b] [d] →
    WritesReg (i n d a b) n s c k d (v (s.rd c k d) (s.rd c k a) (s.rd c k b))

/-- The same of a word that reads ga alone. -/
def WritesOfOne (i : Ann → Reg → Reg → Instr) (v : Word → Word) : Prop :=
  ∀ (s : State) (c : Nat) (k : StrandIx) (n : Ann) (d a : Reg), Ready s c k (i n d a) n allStr [a] [d] →
    WritesReg (i n d a) n s c k d (v (s.rd c k a))

/-- A result of exposed latency `lam` in flight: it lands in issue cycle t + lam − 1, where t is the cycle of the word (R19), and
its record holds the operands `o0`, `o1`. -/
def ExposedOp (s : State) (c : Nat) (k : StrandIx) (i : Instr) (d : Reg) (vs : List Word) (lam : Nat) (o0 o1 : Word) : Op :=
  { k := k, ord := (s.core c).nord, seq := (s.str c k).ic + 1, img := i, op0 := o0, op1 := o1, lam := lam
    last := (s.str c k).ic + lam, body := .regs ((s.str c k).ic + lam) d vs }

/-- A word that reads ga and gb and lands gd with latency 3 (mul and mulh); it leaves a record, so fewer than 64 stand (R245). -/
def LandsInThree (i : Ann → Reg → Reg → Reg → Instr) (v : Word → Word → Word) : Prop :=
  ∀ (s : State) (c : Nat) (k : StrandIx) (n : Ann) (d a b : Reg), Ready s c k (i n d a b) n allStr [a, b] [d] →
    (s.core c).records < 64 →
    StartsOp (i n d a b) n s c k
      (ExposedOp s c k (i n d a b) d [v (s.rd c k a) (s.rd c k b)] 3 (s.rd c k a) (s.rd c k b))

end Sys2Proof.Machine

open Sys2Proof Sys2Proof.Machine

/-- R82: the arithmetic, logic, shift and multiply words, in both forms, with every shift amount; the frame of each. -/
def Obligations.ArithmeticWordsComputeByR82 : Prop :=
  (∀ w, WritesOf (fun n d a b => .add n d a b w) fun a b =>
    if w then Sx32 ((a.setWidth 32).toNat + (b.setWidth 32).toNat) else Wrap64 (a.toNat + b.toNat)) ∧
  (∀ w, WritesOf (fun n d a b => .sub n d a b w) fun a b =>
    if w then Sx32 ((a.setWidth 32).toNat - (b.setWidth 32).toNat) else Wrap64 (a.toNat - b.toNat)) ∧
  (∀ w, WritesOf (fun n d a b => .and n d a b w) fun a b =>
    if w then (a.setWidth 32 &&& b.setWidth 32).signExtend 64 else a &&& b) ∧
  (∀ w, WritesOf (fun n d a b => .or n d a b w) fun a b =>
    if w then (a.setWidth 32 ||| b.setWidth 32).signExtend 64 else a ||| b) ∧
  (∀ w, WritesOf (fun n d a b => .xor n d a b w) fun a b =>
    if w then (a.setWidth 32 ^^^ b.setWidth 32).signExtend 64 else a ^^^ b) ∧
  (∀ w, WritesOf (fun n d a b => .shl n d a b w) fun a b =>
    if w then Sx32 ((a.setWidth 32).toNat * 2 ^ (b.extractLsb' 0 5).toNat) else Wrap64 (a.toNat * 2 ^ (b.extractLsb' 0 6).toNat)) ∧
  (∀ w, WritesOf (fun n d a b => .shr n d a b w) fun a b =>
    if w then Sx32 (((a.setWidth 32).toNat / 2 ^ (b.extractLsb' 0 5).toNat : Nat) : Int)
    else Wrap64 ((a.toNat / 2 ^ (b.extractLsb' 0 6).toNat : Nat) : Int)) ∧
  (∀ w, WritesOf (fun n d a b => .sra n d a b w) fun a b =>
    if w then Sx32 ((a.setWidth 32).toInt / 2 ^ (b.extractLsb' 0 5).toNat) else Wrap64 (a.toInt / 2 ^ (b.extractLsb' 0 6).toNat)) ∧
  (∀ w, LandsInThree (fun n d a b => .mul n d a b w) fun a b =>
    if w then Sx32 ((a.setWidth 32).toNat * (b.setWidth 32).toNat) else Wrap64 (a.toNat * b.toNat))

/-- R83: mulh, min, max and slt read their operands signed in the `.s` form and unsigned in the `.n` form. -/
def Obligations.MulhMinMaxSltComputeByR83 : Prop :=
  (∀ u, LandsInThree (fun n d a b => .mulh n d a b u) fun a b => Wrap64 (ByLetter u a * ByLetter u b / 2 ^ 64)) ∧
  (∀ u, WritesOf (fun n d a b => .min n d a b u) fun a b => Wrap64 (if ByLetter u a ≤ ByLetter u b then ByLetter u a else ByLetter u b)) ∧
  (∀ u, WritesOf (fun n d a b => .max n d a b u) fun a b => Wrap64 (if ByLetter u a ≤ ByLetter u b then ByLetter u b else ByLetter u a)) ∧
  (∀ u, WritesOf (fun n d a b => .slt n d a b u) fun a b => if ByLetter u a < ByLetter u b then 1 else 0)

/-- R85: seq, sne and both forms of csel; the condition of csel is the old gd, which is zero where d is g0. -/
def Sys2Proof.Machine.CompareAndSelectWordsFollowR85 : Prop :=
  WritesOf (fun n d a b => .seq n d a b) (fun a b => if a = b then 1 else 0) ∧
  WritesOf (fun n d a b => .sne n d a b) (fun a b => if a = b then 0 else 1) ∧
  WritesOfOld (fun n d a b => .csel n d a b false) (fun old a b => if old = 0 then b else a) ∧
  WritesOfOld (fun n d a b => .csel n d a b true) (fun old a b => if old.toInt < 0 then a else b) ∧
  ∀ (s : State) (c : Nat) (k : StrandIx), s.rd c k 0 = 0

/-- R86: what clz, ctz, popc and bswap write, by the bits of a: the leading zeros, the trailing zeros, how many bits are set, and
the bytes reversed. -/
def Sys2Proof.Machine.BitCountsAndByteSwapFollowR86 : Prop :=
  ∃ lead trail ones : Nat → Word → Word, ∃ swap : Bool → Word → Word,
  (∀ w, WritesOfOne (fun n d a => .clz n d a w) (lead (if w then 32 else 64))) ∧
  (∀ w, WritesOfOne (fun n d a => .ctz n d a w) (trail (if w then 32 else 64))) ∧
  (∀ w, WritesOfOne (fun n d a => .popc n d a w) (ones (if w then 32 else 64))) ∧
  (∀ w, WritesOfOne (fun n d a => .bswap n d a w) (swap w)) ∧
  (∀ m, m = 32 ∨ m = 64 → ∀ a : Word,
    (lead m a).toNat ≤ m ∧ (∀ j, m - (lead m a).toNat ≤ j → j < m → a.getLsbD j = false)
      ∧ ((lead m a).toNat < m → a.getLsbD (m - 1 - (lead m a).toNat) = true) ∧
    (trail m a).toNat ≤ m ∧ (∀ j, j < (trail m a).toNat → a.getLsbD j = false)
      ∧ ((trail m a).toNat < m → a.getLsbD (trail m a).toNat = true) ∧
    (ones m a).toNat = ((List.range m).filter (fun j => a.getLsbD j)).length) ∧
  (∀ a : Word, (∀ j < 8, (swap false a).extractLsb' (8 * j) 8 = a.extractLsb' (8 * (7 - j)) 8) ∧
    (∀ j < 4, (swap true a).extractLsb' (8 * j) 8 = a.extractLsb' (8 * (3 - j)) 8) ∧
    (swap true a).extractLsb' 32 32 = if a.getLsbD 7 then BitVec.allOnes 32 else 0)

/-- R87. -/
def Sys2Proof.Machine.AddxAddsScaledIndex : Prop :=
  ∀ sh : BitVec 3, WritesOf (fun n d a b => .addx n d a b sh) fun a b => Wrap64 (a.toNat + b.toNat * 2 ^ sh.toNat)

/-- R85, R86, R87: the compare and select words, the bit counts and byte swaps, and addx. -/
def Sys2Proof.Machine.SelectCountAndIndexWordsFollowR85ToR87 : Prop :=
  CompareAndSelectWordsFollowR85 ∧ BitCountsAndByteSwapFollowR86 ∧ AddxAddsScaledIndex

/-- R88: bit fields, with pos = b[5:0], len = Min(b[12:6], 64) and w = Min(len, 64 − pos), said bit by bit: ext takes the field
down to bit 0 and extends it with zeros or with the field's highest bit; ins replaces the field in the old gd. -/
def Sys2Proof.Machine.BitFieldWordsFollowR88 : Prop :=
  let pos := fun b : Word => (b.extractLsb' 0 6).toNat
  let wid := fun b : Word => min (min (b.extractLsb' 6 7).toNat 64) (64 - pos b)
  ∃ e : Bool → Word → Word → Word, ∃ f : Word → Word → Word → Word,
  (∀ sg, WritesOf (fun n d a b => .ext n d a b sg) (e sg)) ∧ WritesOfOld (fun n d a b => .ins n d a b) f ∧
  ∀ (a b old : Word) (j : Nat), j < 64 →
    (e false a b).getLsbD j = (decide (j < wid b) && a.getLsbD (pos b + j)) ∧
    (e true a b).getLsbD j = (if j < wid b then a.getLsbD (pos b + j) else decide (0 < wid b) && a.getLsbD (pos b + wid b - 1)) ∧
    (f old a b).getLsbD j = (if pos b ≤ j ∧ j < pos b + wid b then a.getLsbD (j - pos b) else old.getLsbD j)

/-- R85 to R88: compare and select, bit counts and byte swaps, addx, and the bit-field words. -/
def Obligations.SelectCountIndexAndBitFieldWordsFollowR85ToR88 : Prop :=
  BitFieldWordsFollowR88 ∧ SelectCountAndIndexWordsFollowR85ToR87

/-- R89 to R91: immediate words compute as their register forms would, with the immediate as R89 reads it; li, lis and addpc write
their constants. A shift by an immediate takes amount 0 to 63, or 0 to 31 in its `.w` form. -/
def Sys2Proof.Machine.ImmediateAndConstantWordsFollowR90AndR91 : Prop :=
  (∀ i : BitVec 8, WritesOfOne (fun n d a => .addi n d a i) (fun a => Wrap64 (a.toNat + i.toInt))) ∧
  (∀ i : BitVec 8, WritesOfOne (fun n d a => .andi n d a i) (fun a => a &&& i.signExtend 64)) ∧
  (∀ i : BitVec 8, WritesOfOne (fun n d a => .ori n d a i) (fun a => a ||| i.setWidth 64)) ∧
  (∀ i : BitVec 8, WritesOfOne (fun n d a => .xori n d a i) (fun a => a ^^^ i.setWidth 64)) ∧
  (∀ (w : Bool) (h : BitVec 6), WritesOfOne (fun n d a => .shli n d a w h) fun a =>
    if w then Sx32 ((a.setWidth 32).toNat * 2 ^ h.toNat) else Wrap64 (a.toNat * 2 ^ h.toNat)) ∧
  (∀ (w : Bool) (h : BitVec 6), WritesOfOne (fun n d a => .shri n d a w h) fun a =>
    if w then Sx32 (((a.setWidth 32).toNat / 2 ^ h.toNat : Nat) : Int) else Wrap64 ((a.toNat / 2 ^ h.toNat : Nat) : Int)) ∧
  (∀ (w : Bool) (h : BitVec 6), WritesOfOne (fun n d a => .srai n d a w h) fun a =>
    if w then Sx32 ((a.setWidth 32).toInt / 2 ^ h.toNat) else Wrap64 (a.toInt / 2 ^ h.toNat)) ∧
  (∀ i : BitVec 8, WritesOfOne (fun n d a => .slti n d a i) (fun a => if a.toInt < i.toInt then 1 else 0)) ∧
  (∀ (s : State) (c : Nat) (k : StrandIx) (n : Ann) (d : Reg) (i : BitVec 13),
    (Ready s c k (.li n d i) n allStr [] [d] → WritesReg (.li n d i) n s c k d (Wrap64 i.toInt)) ∧
    (Ready s c k (.lis n d i) n allStr [d] [d] → WritesReg (.lis n d i) n s c k d (Wrap64 ((s.rd c k d).toNat * 2 ^ 13 + i.toNat))) ∧
    (Ready s c k (.addpc n d i) n allStr [] [d] →
      WritesReg (.addpc n d i) n s c k d (Wrap64 ((s.str c k).pc.toNat + 4 * i.toInt))))

/-- R38: nop changes no register, takes and gives tokens, and counts as an issue cycle. -/
def Sys2Proof.Machine.NopOnlyIssues : Prop :=
  ∀ (s : State) (c : Nat) (k : StrandIx) (n : Ann), Ready s c k (.nop n) n allStr [] [] →
    LeavesCore (.nop n) n s c k (s.core c) (s.ctx c)

/-- R90, R91: the words with an immediate or a constant; and nop, which only issues. -/
def Obligations.ImmediateConstantAndNopWordsFollowR90AndR91 : Prop :=
  ImmediateAndConstantWordsFollowR90AndR91 ∧ NopOnlyIssues

/-! ### Division, transfers and loops -/

namespace Sys2Proof.Machine

/-- An interlocked operation as its word puts it in flight (R23): `fwd` the bytes forwarded to a gld. -/
def InterlockedOp (s : State) (c : Nat) (k : StrandIx) (i : Instr) (d : Reg) (pair : Bool) (fwd : Option (List Byte))
    (o0 o1 o2 : Word) (cnt : Nat) : Op :=
  { k := k, ord := (s.core c).nord, seq := (s.str c k).ic + 1, img := i, op0 := o0, op1 := o1, op2 := o2, cnt := cnt
    body := .ilock d pair fwd }

/-- A target that a transfer of strand `k` may take: bits [1:0] zero, bits [63:57] equal to bit 56 (R93), and not 0 in S (R144). -/
def GoodTarget (k : StrandIx) (t : Word) : Prop :=
  t.extractLsb' 0 2 = 0 ∧ (∀ j, 57 ≤ j → j < 64 → t.getLsbD j = t.getLsbD 56) ∧ (k = .s → t ≠ 0)

/-- A: the address of a word's first parcel, plus four times a signed distance in parcels. -/
def TargetOf {m : Nat} (pc : Word) (o : BitVec m) : Word := Wrap64 (pc.toNat + 4 * o.toInt)

/-- A branch on register a: taken with one fetch wait, or it falls through with nothing changed; a bad target faults at it. -/
def BranchOf (i : Ann → Reg → BitVec 13 → Instr) (taken : Word → Prop) : Prop :=
  ∀ (s : State) (c : Nat) (k : StrandIx) (n : Ann) (a : Reg) (o : BitVec 13), Ready s c k (i n a o) n allStr [a] [] →
    let t := TargetOf (s.str c k).pc o
    (¬ taken (s.rd c k a) → LeavesCore (i n a o) n s c k (s.core c) (s.ctx c)) ∧
    (taken (s.rd c k a) → GoodTarget k t → Jumps (i n a o) n s c k t 1 none) ∧
    (taken (s.rd c k a) → ¬ GoodTarget k t → Raises (i n a o) s c k 0x07 t)

/-- The loop registers that a loop word writes: lsN := A + 4, leN := A + 4·end, lcN := the count (R96). -/
def ArmedLoop (u : Strand) (lp : Bool) (e : BitVec 9) (count : Nat) : Strand :=
  let le := Wrap64 (u.pc.toNat + 4 * e.toNat)
  if lp then { u with ls1 := u.pc + 4, le1 := le, lc1 := BitVec.ofNat 32 count }
  else { u with ls0 := u.pc + 4, le0 := le, lc0 := BitVec.ofNat 32 count }

/-- A loop word with its count: it falls into the body, or with count 0 skips it by the end tests at leN. -/
def LoopsBy (i : Instr) (n : Ann) (s : State) (c : Nat) (k : StrandIx) (lp : Bool) (e : BitVec 9) (count : Nat) : Prop :=
  let u := ArmedLoop (s.str c k) lp e count
  (0 < count → Leaves i n s c k u (s.core c) (s.ctx c)) ∧
  (count = 0 → Skips i n s c k u (Wrap64 ((s.str c k).pc.toNat + 4 * e.toNat)))

end Sys2Proof.Machine

/-- R84: div and rem truncate toward zero, the remainder has the sign of the dividend; a zero divisor faults at the word with the
dividend in tval; otherwise the word issues, its destination interlocked, and the result that lands is the quotient or the remainder. -/
def Obligations.DivisionFollowsR84 : Prop :=
  (∀ (s : State) (c : Nat) (k : StrandIx) (n : Ann) (d a b : Reg) (u : Bool) (i : Instr), (i = .div n d a b u ∨ i = .rem n d a b u) →
    Ready s c k i n allStr [a, b] [d] → (s.core c).flying k d = false → (s.core c).records < 64 →
    (s.rd c k b ≠ 0 → StartsOp i n s c k (InterlockedOp s c k i d false none (s.rd c k a) (s.rd c k b) 0 0)) ∧
    (s.rd c k b = 0 → Raises i s c k 0x09 (s.rd c k a))) ∧
  ∀ (s : State) (rest : List Turn) (c : Nat) (k : StrandIx) (j : Nat) (o : Op) (n : Ann) (d a b : Reg) (u : Bool),
    s.agenda = .event c k j .interlockedResultLands :: rest → (s.core c).alive = true → (s.core c).ops[j]? = some o →
    o.body = .ilock d false none → (o.img = .div n d a b u ∨ o.img = .rem n d a b u) → ByLetter u o.op1 ≠ 0 →
    ∃ q r : Int, ByLetter u o.op0 = q * ByLetter u o.op1 + r ∧ r.natAbs < (ByLetter u o.op1).natAbs ∧
      (r = 0 ∨ (r < 0 ↔ ByLetter u o.op0 < 0)) ∧
      exec .interlockedResultLands s = .next ((({ s with agenda := rest } : State).mapStr c o.k (fun t =>
          t.setReg d (Wrap64 (if o.img = .div n d a b u then q else r)))).mapCore c (fun x =>
        { x with ops := x.ops.filter (fun p => !(p.ord == o.ord && p.k == o.k)) }))

/-- R92 to R94: jmp, call and jr go to their targets with one, one and two fetch waits, call with its link in g31; a target that R93
refuses faults at the word. -/
def Sys2Proof.Machine.JumpsGoToTheirTargets : Prop :=
  ∀ (s : State) (c : Nat) (k : StrandIx) (n : Ann),
    (∀ o : BitVec 18, Ready s c k (.jmp n o) n allStr [] [] → let t := TargetOf (s.str c k).pc o
      (GoodTarget k t → Jumps (.jmp n o) n s c k t 1 none) ∧ (¬ GoodTarget k t → Raises (.jmp n o) s c k 0x07 t)) ∧
    (∀ o : BitVec 18, Ready s c k (.call n o) n allStr [] [31] → let t := TargetOf (s.str c k).pc o
      (GoodTarget k t → Jumps (.call n o) n s c k t 1 (some (31, (s.str c k).pc + 4))) ∧
      (¬ GoodTarget k t → Raises (.call n o) s c k 0x07 t)) ∧
    (∀ a : Reg, Ready s c k (.jr n a) n allStr [a] [] → let t := s.rd c k a
      (GoodTarget k t → Jumps (.jr n a) n s c k t 2 none) ∧ (¬ GoodTarget k t → Raises (.jr n a) s c k 0x07 t))

/-- R92 to R94: the four branches. -/
def Sys2Proof.Machine.BranchesTestTheirRegister : Prop :=
  BranchOf .bz (fun v => v = 0) ∧ BranchOf .bnz (fun v => v ≠ 0) ∧ BranchOf .bltz (fun v => v.toInt < 0) ∧
  BranchOf .bgez (fun v => 0 ≤ v.toInt)

/-- R92 to R95: jumps go to their target; a branch goes there when its register passes the test and falls through otherwise. -/
def Obligations.JumpsAndBranchesGoToTheirTargets : Prop :=
  JumpsGoToTheirTargets ∧ BranchesTestTheirRegister

/-- R95, R96: the loop words arm their loop; the count of loop saturates at 2^32 − 1. -/
def Sys2Proof.Machine.LoopWordsArmByR96 : Prop :=
  ∀ (s : State) (c : Nat) (k : StrandIx) (n : Ann) (lp : Bool) (e : BitVec 9),
    (∀ a : Reg, Ready s c k (.loop n lp a e) n allStr [a] [] →
      LoopsBy (.loop n lp a e) n s c k lp e (if (s.rd c k a).toNat < 2 ^ 32 then (s.rd c k a).toNat else 2 ^ 32 - 1)) ∧
    (∀ m : BitVec 8, Ready s c k (.loopi n lp m e) n allStr [] [] → LoopsBy (.loopi n lp m e) n s c k lp e m.toNat)

/-- R97: the end tests, lp1 before lp0, written out for every strand and every address. -/
def Sys2Proof.Machine.EndTestsFollowR97 : Prop :=
  ∀ (t : Strand) (x : Word),
    ((t.lc1 ≠ 0 ∧ t.le1 = x ∧ 1 < t.lc1.toNat) → (t.endTests x).1 = { t with lc1 := t.lc1 - 1, pc := t.ls1 }) ∧
    (¬ (t.lc1 ≠ 0 ∧ t.le1 = x ∧ 1 < t.lc1.toNat) →
      let u : Strand := if t.lc1 ≠ 0 ∧ t.le1 = x then { t with lc1 := 0 } else t
      ((t.lc0 ≠ 0 ∧ t.le0 = x ∧ 1 < t.lc0.toNat) → (t.endTests x).1 = { u with lc0 := t.lc0 - 1, pc := t.ls0 }) ∧
      (¬ (t.lc0 ≠ 0 ∧ t.le0 = x ∧ 1 < t.lc0.toNat) →
        (t.endTests x).1 = { u with lc0 := if t.lc0 ≠ 0 ∧ t.le0 = x then 0 else t.lc0, pc := x }))

/-- R96, R97: the loop words arm a loop, and the end tests at its end repeat or leave it. -/
def Obligations.LoopsFollowR96AndR97 : Prop :=
  LoopWordsArmByR96 ∧ EndTestsFollowR97

/-! ### Scratch words -/

namespace Sys2Proof.Machine

/-- x of R102. -/
def ScratchAddress (base : Word) (imm : BitVec 8) (z : Nat) : Word := Wrap64 (base.toNat + imm.toInt * z)

/-- The number of `z` little-endian bytes. -/
def NumberOf (bs : List Byte) : Nat := bs.foldr (fun b n => b.toNat + 256 * n) 0

/-- The bytes that strand `k` samples: those of the scratchpad, where no replayed store that has not landed hides one (spec/06 R137). -/
def SampledBytes (x : Core) (k : StrandIx) (a z : Nat) (bs : List Byte) : Prop :=
  bs.length = z ∧ ∀ j < z, (∀ o ∈ x.ops, o.k = k → ∀ at' old, o.body = .shadow at' old → a + j ∉ Tab.keys old) →
    bs[j]? = some (Tab.get 0 x.scr (a + j))

/-- The event records of scratch warnings (R156, spec/18 R361, R362), one for each granule, join the die's events of the clock cycle. -/
def PostsWarnings (s t : State) (c : Nat) (k : StrandIx) (gs : List Nat) : Prop :=
  ∃ a b, (s.die (dieOf c)).newtNow = a ++ b ∧ (t.die (dieOf c)).newtNow = a ++ gs.map (fun g =>
    [BitVec.ofNat 32 (9 + 2 ^ 8 * ixOf k + 2 ^ 10 * c), BitVec.ofNat 32 (s.ctx c).vf, BitVec.ofNat 32 s.dieclk, BitVec.ofNat 32 (16 * g),
      0, 0, 0, 0]) ++ b

/-- What a scratch load of `z` bytes does, by R102, R103 and R156, with the registers' values `f` of its bytes. -/
def LoadsBy (i : Instr) (n : Ann) (s : State) (c : Nat) (k : StrandIx) (d a : Reg) (imm : BitVec 8) (z : Nat)
    (f : List Byte → List Word) : Prop :=
  let x := ScratchAddress (s.rd c k a) imm z
  let holes := (s.core c).unwritten x.toNat z
  ((s.ctx c).scrsize < x.toNat + z → Raises i s c k 0x06 x) ∧
  (x.toNat + z ≤ (s.ctx c).scrsize → x.toNat % z ≠ 0 → Raises i s c k 0x07 x) ∧
  (x.toNat + z ≤ (s.ctx c).scrsize → x.toNat % z = 0 → (s.core c).readHeld k x.toNat z = false →
    ((holes = [] ∨ (s.ctx c).scrmode = 0 ∨ (s.ctx c).scrmode = 3) →
      ∃ bs, SampledBytes (s.core c) k x.toNat z bs ∧ StartsOp i n s c k (ExposedOp s c k i d (f bs) 4 x 0)) ∧
    (∀ g rest, holes = g :: rest → (s.ctx c).scrmode = 2 → Raises i s c k 0x05 (BitVec.ofNat 64 (16 * g))) ∧
    (holes ≠ [] → (s.ctx c).scrmode = 1 →
      ∃ bs t, SampledBytes (s.core c) k x.toNat z bs ∧ exec i s = .next (endTurn t c) ∧ Issued s t c k i n (s.core c).took ∧
        (t.core c).ops = (s.core c).ops ++ [ExposedOp s c k i d (f bs) 4 x 0] ∧ KeepsRegs s t c k [] ∧ t.mem = s.mem ∧
        PostsWarnings s t c k holes))

/-- A load word of one register. -/
def LoadOf (i : Ann → Reg → Reg → BitVec 8 → Instr) (z : Nat) (f : List Byte → Word) : Prop :=
  ∀ (s : State) (c : Nat) (k : StrandIx) (n : Ann) (d a : Reg) (imm : BitVec 8), Ready s c k (i n d a imm) n allStr [a] [d] →
    (s.core c).records < 64 → LoadsBy (i n d a imm) n s c k d a imm z (fun bs => [f bs])

/-- The bytes a store writes: it lands at the end of the next issue cycle (R103). -/
def StoreOp (s : State) (c : Nat) (k : StrandIx) (i : Instr) (x : Word) (bs : List Byte) (lo hi : Word) : Op :=
  { k := k, ord := (s.core c).nord, seq := (s.str c k).ic + 1, img := i, op0 := lo, op1 := hi, op2 := x, lam := 2
    last := (s.str c k).ic + 2, body := .store ((s.str c k).ic + 2) x.toNat bs }

/-- What a scratch store of the bytes of `lo` and `hi` does, by R102 and R103. -/
def StoresBy (i : Instr) (n : Ann) (s : State) (c : Nat) (k : StrandIx) (a : Reg) (imm : BitVec 8) (z : Nat) (lo hi : Word) : Prop :=
  let x := ScratchAddress (s.rd c k a) imm z
  ((s.ctx c).scrsize < x.toNat + z → Raises i s c k 0x06 x) ∧
  (x.toNat + z ≤ (s.ctx c).scrsize → x.toNat % z ≠ 0 → Raises i s c k 0x07 x) ∧
  (x.toNat + z ≤ (s.ctx c).scrsize → x.toNat % z = 0 → (s.core c).writeHeld k x.toNat z = false →
    ∃ bs : List Byte, bs.length = z ∧ NumberOf bs = (lo.toNat + 2 ^ 64 * hi.toNat) % 2 ^ (8 * z) ∧
      StartsOp i n s c k (StoreOp s c k i x bs lo hi))

def StoreOf (i : Ann → Reg → Reg → BitVec 8 → Instr) (z : Nat) : Prop :=
  ∀ (s : State) (c : Nat) (k : StrandIx) (n : Ann) (d a : Reg) (imm : BitVec 8), Ready s c k (i n d a imm) n allStr [d, a] [] →
    (s.core c).records < 64 → StoresBy (i n d a imm) n s c k a imm z (s.rd c k d) 0

/-- The even register that a pair field names. -/
def PairOf (d : BitVec 4) : Reg := BitVec.ofNat 5 (2 * d.toNat)

end Sys2Proof.Machine

/-- R101 to R103: the eight scratch loads, their checks, what they sample and where it lands; the pair of ld.q lands together. -/
def Obligations.ScratchLoadsSampleAndLand : Prop :=
  LoadOf .ldS8 1 (fun bs => Wrap64 (BitVec.ofNat 8 (NumberOf bs)).toInt) ∧
  LoadOf .ldS16 2 (fun bs => Wrap64 (BitVec.ofNat 16 (NumberOf bs)).toInt) ∧
  LoadOf .ldS32 4 (fun bs => Wrap64 (BitVec.ofNat 32 (NumberOf bs)).toInt) ∧
  LoadOf .ldN8 1 (fun bs => Wrap64 (NumberOf bs)) ∧ LoadOf .ldN16 2 (fun bs => Wrap64 (NumberOf bs)) ∧
  LoadOf .ldN32 4 (fun bs => Wrap64 (NumberOf bs)) ∧ LoadOf .ldD 8 (fun bs => Wrap64 (NumberOf bs)) ∧
  ∀ (s : State) (c : Nat) (k : StrandIx) (n : Ann) (d : BitVec 4) (a : Reg) (imm : BitVec 8),
    Ready s c k (.ldQ n d a imm) n allStr [a] [PairOf d, PairOf d + 1] → (s.core c).records < 64 →
    LoadsBy (.ldQ n d a imm) n s c k (PairOf d) a imm 16 (fun bs => [Wrap64 (NumberOf (bs.take 8)), Wrap64 (NumberOf (bs.drop 8))])

/-- R101 to R103: the five scratch stores, their checks, and the bytes that land at the end of the next issue cycle. -/
def Obligations.ScratchStoresLandNextCycle : Prop :=
  StoreOf .stB 1 ∧ StoreOf .stH 2 ∧ StoreOf .stW 4 ∧ StoreOf .stD 8 ∧
  ∀ (s : State) (c : Nat) (k : StrandIx) (n : Ann) (d : BitVec 4) (a : Reg) (imm : BitVec 8),
    Ready s c k (.stQ n d a imm) n allStr [PairOf d, PairOf d + 1, a] [] → (s.core c).records < 64 →
    StoresBy (.stQ n d a imm) n s c k a imm 16 (s.rd c k (PairOf d)) (s.rd c k (PairOf d + 1))

/-! ### Global words and fences -/

namespace Sys2Proof.Machine

/-- A global address passes R105. -/
def GoodGlobal (x : Word) (z : Nat) : Prop := (∀ j, 57 ≤ j → j < 64 → x.getLsbD j = x.getLsbD 56) ∧ x.toNat % z = 0

/-- The entry that a gst of the low `z` bytes of `lo` and `hi` makes, in the granule of its address (R106). -/
def BuffersGst (e : SbEntry) (s : State) (c : Nat) (k : StrandIx) (i : Instr) (x lo hi : Word) (z : Nat) (rel : Bool) (sc : BitVec 3) :
    Prop :=
  e.ord = (s.core c).nord ∧ e.lord = (s.core c).nord ∧ e.seq = (s.str c k).ic + 1 ∧ e.img = i ∧ e.rel = rel ∧ e.scope = sc ∧
  e.va.toNat = x.toNat / 16 * 16 ∧ e.bytes.length = 16 ∧
  (∀ j, e.en.getLsbD j = (decide (x.toNat % 16 ≤ j) && decide (j < x.toNat % 16 + z))) ∧
  ∀ j < z, e.bytes[x.toNat % 16 + j]? = some (if j < 8 then lo.extractLsb' (8 * j) 8 else hi.extractLsb' (8 * (j - 8)) 8)

/-- The youngest entry `f` takes a gst of the same granule, and becomes `e` (R107). -/
def MergesGst (f e : SbEntry) (s : State) (c : Nat) (x lo hi : Word) (z : Nat) (rel : Bool) (sc : BitVec 3) : Prop :=
  e.ord = f.ord ∧ e.lord = (s.core c).nord ∧ e.seq = f.seq ∧ e.img = f.img ∧ e.rel = (f.rel || rel) ∧
  e.scope.toNat = (if f.scope.toNat < sc.toNat then sc.toNat else f.scope.toNat) ∧ e.va = f.va ∧
  (∀ j < 16, e.en.getLsbD j = (f.en.getLsbD j || decide (x.toNat % 16 ≤ j) && decide (j < x.toNat % 16 + z))) ∧
  (∀ j < z, e.bytes[x.toNat % 16 + j]? = some (if j < 8 then lo.extractLsb' (8 * j) 8 else hi.extractLsb' (8 * (j - 8)) 8)) ∧
  ∀ j < 16, (j < x.toNat % 16 ∨ x.toNat % 16 + z ≤ j) → e.bytes[j]? = some (f.bytes.getD j 0)

end Sys2Proof.Machine

namespace Sys2Proof.Machine

/-- A store-buffer entry holds byte `j` of an access at `x` (R106, R107). -/
def BuffersByte (e : SbEntry) (x : Word) (j : Nat) : Prop := e.va.toNat = x.toNat / 16 * 16 ∧ e.en.getLsbD (x.toNat % 16 + j) = true

/-- The bytes that a gld of `z` bytes at `x` takes from buffered entries: of each the youngest. -/
def YoungestBytes (sb : List SbEntry) (x : Word) (z : Nat) (bs : List Byte) : Prop :=
  bs.length = z ∧ ∀ j < z, ∃ older e younger, sb = older ++ e :: younger ∧ BuffersByte e x j ∧
    bs[j]? = some (e.bytes.getD (x.toNat % 16 + j) 0) ∧ ∀ y ∈ younger, ¬ BuffersByte y x j

end Sys2Proof.Machine

/-- R105 to R107, R109: a gld issues interlocked with its address recorded, for every state in which its destinations are not in
flight, no acquire holds it and a record is free; a bad address faults at the word. Where buffered entries hold all its bytes it takes
the youngest value of each (and so do sbCovers and sbBytes); one that overlaps an entry only in part is marked to wait, and does not
land while an older entry that it overlaps stays buffered; one that overlaps none reads memory. -/
def Obligations.GlobalLoadsIssueInterlocked : Prop :=
  (∀ (s : State) (c : Nat) (k : StrandIx) (n : Ann) (d a : Reg) (sc : BitVec 3) (ord q : Bool),
    let z := if q then 16 else 8
    let x := s.rd c k a
    Ready s c k (.gld n d a sc ord q) n allStr [a] (if q then [d, d + 1] else [d]) →
    (∀ r ∈ (if q then [d, d + 1] else [d]), (s.core c).flying k r = false) → (s.core c).acquiring k = false →
    (s.core c).records < 64 →
    (¬ GoodGlobal x z → Raises (.gld n d a sc ord q) s c k 0x07 x) ∧
    (GoodGlobal x z →
      let i : Instr := .gld n d a sc ord q
      let sb := (s.str c k).sb
      let covered := ∀ j < z, ∃ e ∈ sb, BuffersByte e x j
      let meets := ∃ e ∈ sb, ∃ j < z, BuffersByte e x j
      (∃ t, exec i s = .next t) ∧
      (sbCovers sb x z = true ↔ covered) ∧
      (covered → YoungestBytes sb x z (sbBytes sb x z) ∧
        StartsOp i n s c k (InterlockedOp s c k i d q (some (sbBytes sb x z)) 0 0 x 0)) ∧
      (¬ covered → meets → StartsOp i n s c k (InterlockedOp s c k i d q none 0 0 x 1)) ∧
      (¬ meets → StartsOp i n s c k (InterlockedOp s c k i d q none 0 0 x 0)))) ∧
  ∀ (s : State) (rest : List Turn) (c : Nat) (k : StrandIx) (l : Nat) (o : Op) (n : Ann) (d a : Reg) (sc : BitVec 3) (ord q : Bool),
    s.agenda = .event c k l .interlockedResultLands :: rest → (s.core c).alive = true → (s.core c).ops[l]? = some o →
    o.img = .gld n d a sc ord q → o.body = .ilock d q none → o.cnt = 1 →
    (∃ e ∈ (s.str c o.k).sb, e.ord < o.ord ∧ ∃ j < (if q then 16 else 8), BuffersByte e o.op2 j) →
    exec .interlockedResultLands s = .next { s with agenda := rest }

/-- R105 to R107, R245: a gst buffers its bytes in a new entry, with room for the records of entry and gives, or merges into the
youngest entry, of its granule, that the buffer holds; a bad address faults at the word. Memory is as it was until the entry is performed.
That an entry takes no merge while a gld waits for it, or while a younger gld has not landed that reads bytes of the new gst, is the
model's choice (log entry 71). -/
def Obligations.GlobalStoresEnterTheStoreBuffer : Prop :=
  ∀ (s : State) (c : Nat) (k : StrandIx) (n : Ann) (d a : Reg) (sc : BitVec 3) (rel q : Bool),
    let z := if q then 16 else 8
    let x := s.rd c k a
    let lo := s.rd c k d
    let hi := s.rd c k (d + 1)
    let i : Instr := .gst n d a sc rel q
    Ready s c k i n allStr (if q then [d, d + 1, a] else [d, a]) [] → (s.core c).acquiring k = false →
    (¬ GoodGlobal x z → Raises i s c k 0x07 x) ∧
    (GoodGlobal x z → (s.core c).records + (if n.t &&& 3 = 0 then 1 else 2) ≤ 64 → (s.str c k).sb.length < 8 →
      ((s.str c k).sb = [] ∨ ∃ l f, (s.str c k).sb = l ++ [f] ∧
        (f.va.toNat ≠ x.toNat / 16 * 16 ∨ ∃ o ∈ (s.core c).ops, waitsFor o f k = true ∨ readsBefore o f k x z = true)) →
      ∃ e, BuffersGst e s c k i x lo hi z rel sc ∧
        Leaves i n s c k { s.str c k with sb := (s.str c k).sb ++ [e] } (s.core c) (s.ctx c)) ∧
    (GoodGlobal x z → ∀ l f, (s.str c k).sb = l ++ [f] → f.va.toNat = x.toNat / 16 * 16 →
      (∀ o ∈ (s.core c).ops, waitsFor o f k = false ∧ readsBefore o f k x z = false) →
      ∃ e, MergesGst f e s c x lo hi z rel sc ∧
        Leaves i n s c k { s.str c k with sb := l ++ [e] } (s.core c) (s.ctx c))

namespace Sys2Proof.Machine

/-- The gst that happen before a release of a strand are performed at a scope, by the table of R381: up to die scope none of the strand
is on REQ to its own die; at package scope all of the die are applied and those on REQ acknowledged; at system scope none of the die
is on its way and every completion of the host has returned (R385). That the two wide scopes count every gst of the die, which holds
those that narrower releases have ordered before this one, is the model's (log entry 98). -/
def PerformedAt (s : State) (c : Nat) (k : StrandIx) (sc : Nat) : Prop :=
  (∀ f ∈ s.wire, ∀ wr, f.writer = some wr →
    (sc ≤ 2 → wr.isGst c k = true → f.src ≠ f.dst ∨ f.chan ≠ .req) ∧
    (sc = 3 → wr.gstOf (dieOf c) = true → f.isStore = false ∧ f.chan = .hst) ∧ (4 ≤ sc → wr.gstOf (dieOf c) = false)) ∧
  (4 ≤ sc → ∀ e ∈ s.hostOut, e.wr.gstOf (dieOf c) = false)

end Sys2Proof.Machine

/-- R112, R381: a fence issues, changing nothing else, once what its kind waits for has happened: every earlier gld landed and, for
release and full, the store buffer empty and the gst that have left it performed at the scope. At package and system scope these are the
gst of every strand of the die, which is the model's reading (log entry 98). -/
def Obligations.FencesIssueOnceTheirKindHolds : Prop :=
  ∀ (s : State) (c : Nat) (k : StrandIx) (n : Ann) (kind : BitVec 2) (sc : BitVec 3),
    Ready s c k (.fence n kind sc) n allStr [] [] →
    (∀ o ∈ (s.core c).ops, o.k = k → ∀ m d a s' r q, o.img ≠ .gld m d a s' r q) →
    (kind ≠ 0 → (s.str c k).sb = []) → (kind ≠ 0 → PerformedAt s c k sc.toNat) →
    LeavesCore (.fence n kind sc) n s c k (s.core c) (s.ctx c)

/-! ### Tokens, tags, the event queue and strand control -/

namespace Sys2Proof.Machine

/-- The word waits: its turn ends and nothing else happens (R18). -/
def Waits (i : Instr) (s : State) (c : Nat) : Prop := exec i s = .next (endTurn s c)

/-- The word waits, and the read it has made from die `d` and had judged stays outstanding (spec/19 R389, R392). -/
def WaitsHeld (i : Instr) (s : State) (c d pa : Nat) : Prop := ∃ l, (d, pa) ∈ l ∧ exec i s = .next (endTurn { s with reqs := l } c)

/-- The word does not issue and raises a fault, after accesses that have left the state as `t` has it but for the stop. -/
def RaisesAfter (i : Instr) (s : State) (c : Nat) (k : StrandIx) (code : Nat) (tval : Word) : Prop :=
  ∃ t, exec i s = .next (endTurn t c) ∧ (t.core c).stops = (s.core c).stops ++ [⟨2, k, code, 0, tval⟩] ∧
    (∀ j, t.str c j = s.str c j) ∧ (∀ e, e ≠ c → t.core e = s.core e) ∧ t.mem = s.mem

end Sys2Proof.Machine

/-- R146, R147: tkgive adds one to the FIFO it names and tktake removes one, in S with DEPTH 0, once the count at the start of the
cycle and what the cycle has taken and given allow it; tkcount lands that count with latency 2. -/
def Sys2Proof.Machine.TokenWordsOfSFollowR147 : Prop :=
  ∀ (s : State) (c : Nat) (k : StrandIx) (y : Bool) (f : BitVec 3), (s.ctx c).depth = 0 →
    let x := s.core c
    let here := Tab.get 0 x.tok f.toNat
    (Ready s c k (.tkgive y f) ⟨y, 0⟩ [.s] [] [] → here + Tab.get 0 x.gave f.toNat + neighbourGives s c y f.toNat < 8 →
      LeavesCore (.tkgive y f) ⟨y, 0⟩ s c k { x with gave := Tab.set 0 x.gave f.toNat (Tab.get 0 x.gave f.toNat + 1) } (s.ctx c)) ∧
    (Ready s c k (.tktake y f) ⟨y, 0⟩ [.s] [] [] → Tab.get 0 x.took f.toNat + (if y then x.announced .s f.toNat else 0) < here →
      LeavesCore (.tktake y f) ⟨y, 0⟩ s c k { x with took := Tab.set 0 x.took f.toNat (Tab.get 0 x.took f.toNat + 1) } (s.ctx c)) ∧
    ∀ d : Reg, Ready s c k (.tkcount y d f) ⟨y, 0⟩ [.s] [] [d] → x.records < 64 →
      StartsOp (.tkcount y d f) ⟨y, 0⟩ s c k
        (ExposedOp s c k (.tkcount y d f) d [BitVec.ofNat 64 here] 2 (BitVec.ofNat 64 here) 0)

namespace Sys2Proof.Machine

/-- The fields of tagcfg, R157. -/
def TagCount (v : Word) : Nat := (v.extractLsb' 25 9).toNat
def TagSlotBytes (v : Word) : Nat := 2 ^ (10 + (v.extractLsb' 20 4).toNat)
def TagBase (v : Word) : Nat := (v.extractLsb' 0 20).toNat

/-- A core with one more tag write of this clock cycle, by strand `k`. -/
def TagWritten (x : Core) (k : StrandIx) (i : Option Nat) (e : Option Word) : Core :=
  { x with tagw := x.tagw ++ [⟨1 + ixOf k, i, e⟩] }

end Sys2Proof.Machine

/-- R160: tglook, tgset, tgclr and tgclr.all each complete in every state in which their operands can be read: tglook lands with
latency 3 the lowest index below COUNT whose entry holds the key, else all ones; tgset and tgclr write one entry at the end of the
cycle, or fault on an index at or beyond COUNT; tgclr.all clears the table. -/
def Sys2Proof.Machine.TagWordsFollowR160 : Prop :=
  ∀ (s : State) (c : Nat) (k : StrandIx) (n : Ann),
    let x := s.core c
    (∀ d a : Reg, Ready s c k (.tglook n d a) n allStr [a] [d] → x.records < 64 →
      (∃ t, exec (.tglook n d a) s = .next t) ∧
      ∃ v : Word, StartsOp (.tglook n d a) n s c k (ExposedOp s c k (.tglook n d a) d [v] 3 v 0) ∧
        ((v = BitVec.allOnes 64 ∧ ∀ i < TagCount x.tagcfg, Tab.get none x.tags i ≠ some (s.rd c k a)) ∨
         (v.toNat < TagCount x.tagcfg ∧ Tab.get none x.tags v.toNat = some (s.rd c k a) ∧
          ∀ i < v.toNat, Tab.get none x.tags i ≠ some (s.rd c k a)))) ∧
    (∀ a b : Reg, Ready s c k (.tgset n a b) n allStr [a, b] [] →
      ((s.rd c k b).toNat < TagCount x.tagcfg → (∃ t, exec (.tgset n a b) s = .next t) ∧ LeavesCore (.tgset n a b) n s c k
        (TagWritten x k (some (s.rd c k b).toNat) (some (s.rd c k a))) (s.ctx c)) ∧
      (TagCount x.tagcfg ≤ (s.rd c k b).toNat → Raises (.tgset n a b) s c k 0x06
        (BitVec.ofNat 64 (TagBase x.tagcfg + (s.rd c k b).toNat * TagSlotBytes x.tagcfg)))) ∧
    (∀ b : Reg, Ready s c k (.tgclr n b) n allStr [b] [] →
      ((s.rd c k b).toNat < TagCount x.tagcfg → (∃ t, exec (.tgclr n b) s = .next t) ∧ LeavesCore (.tgclr n b) n s c k
        (TagWritten x k (some (s.rd c k b).toNat) none) (s.ctx c)) ∧
      (TagCount x.tagcfg ≤ (s.rd c k b).toNat → Raises (.tgclr n b) s c k 0x06
        (BitVec.ofNat 64 (TagBase x.tagcfg + (s.rd c k b).toNat * TagSlotBytes x.tagcfg)))) ∧
    (Ready s c k (.tgclrAll n) n allStr [] [] → (∃ t, exec (.tgclrAll n) s = .next t) ∧ LeavesCore (.tgclrAll n) n s c k (TagWritten x k none none) (s.ctx c))

/-- R160: at the end of a clock cycle its tag writes apply, cptag completions (place 0) first and then the strands' in the order of
their indices, so the last writer of an entry wins, be it a write of that entry or a clearing of the table; the next cycle starts with
none. -/
def Sys2Proof.Machine.TagWritesApplyInStrandOrder : Prop :=
  ∀ (x : Core) (i : Nat), x.nextCycle.tagw = [] ∧
    (∀ w ∈ x.tagw, w.ix = some i → w.place < 5 → (∀ v ∈ x.tagw, (v.ix = some i ∨ v.ix = none) → v = w ∨ v.place < w.place) →
      Tab.get none x.nextCycle.tags i = w.ent) ∧
    (∀ w ∈ x.tagw, w.ix = none → w.place < 5 → (∀ v ∈ x.tagw, (v.ix = some i ∨ v.ix = none) → v = w ∨ v.place < w.place) →
      Tab.get none x.nextCycle.tags i = none) ∧
    ((∀ v ∈ x.tagw, v.ix ≠ some i ∧ v.ix ≠ none) → Tab.get none x.nextCycle.tags i = Tab.get none x.tags i)

/-- R160: tglook, tgset, tgclr and tgclr.all complete, each with its effect on register or tag table, wherever their conditions hold;
and the order in which the writes of a clock cycle apply. -/
def Obligations.TagTableFollowsR160 : Prop :=
  TagWordsFollowR160 ∧ TagWritesApplyInStrandOrder

/-- R118, R162: evpop issues interlocked and its landing takes the oldest record, the oldest evpop first; evpoll lands the count at
the start of the cycle with latency 2; idle issues once the queue holds a record. -/
def Sys2Proof.Machine.EventQueueWordsFollowR162 : Prop :=
  (∀ (s : State) (c : Nat) (k : StrandIx) (y : Bool) (d : Reg),
    (Ready s c k (.evpop y d) ⟨y, 0⟩ [.s] [] [d] → (s.core c).flying k d = false → (s.core c).records < 64 →
      StartsOp (.evpop y d) ⟨y, 0⟩ s c k (InterlockedOp s c k (.evpop y d) d false none 0 0 0 0)) ∧
    (Ready s c k (.evpoll y d) ⟨y, 0⟩ [.s] [] [d] → (s.core c).records < 64 →
      StartsOp (.evpoll y d) ⟨y, 0⟩ s c k
        (ExposedOp s c k (.evpoll y d) d [BitVec.ofNat 64 (s.core c).ev0] 2 (BitVec.ofNat 64 (s.core c).ev0) 0)) ∧
    (Ready s c k (.idle y) ⟨y, 0⟩ [.s] [] [] → (s.core c).evq ≠ [] → LeavesCore (.idle y) ⟨y, 0⟩ s c k (s.core c) (s.ctx c))) ∧
  ∀ (s : State) (rest : List Turn) (c : Nat) (k : StrandIx) (j : Nat) (o : Op) (y : Bool) (d : Reg) (r : Word) (q : List Word),
    s.agenda = .event c k j .interlockedResultLands :: rest → (s.core c).alive = true → (s.core c).ops[j]? = some o →
    o.img = .evpop y d → o.body = .ilock d false none → (s.core c).evq = r :: q →
    (∀ p ∈ (s.core c).ops, (∃ y' d', p.img = .evpop y' d') → o.ord ≤ p.ord) →
    ∃ t, exec .interlockedResultLands s = .next t ∧ t.rd c o.k d = (if d = 0 then 0 else r) ∧ (t.core c).evq = q ∧
      (t.core c).ops = (s.core c).ops.filter (fun p => !(p.ord == o.ord && p.k == o.k)) ∧
      (∀ r', r' ≠ d → t.rd c o.k r' = s.rd c o.k r') ∧ (∀ j', j' ≠ o.k → t.str c j' = s.str c j') ∧
      (∀ e, e ≠ c → t.core e = s.core e) ∧ t.mem = s.mem ∧ t.agenda = rest

/-- R147, R162: the token words of S, and evpop, evpoll and idle. -/
def Obligations.TokenAndEventQueueWordsFollowR147AndR162 : Prop :=
  TokenWordsOfSFollowR147 ∧ EventQueueWordsFollowR162

namespace Sys2Proof.Machine

/-- Which strand a number of stgo names: 1 is L, 2 is C, 3 is W. -/
def StrandOf (m : BitVec 2) : StrandIx := if m = 1 then .l else if m = 2 then .c else if m = 3 then .w else .s

/-- Whether a mask with bit 0 for L, bit 1 for C and bit 2 for W names a strand. -/
def InMask (m : BitVec 3) (j : StrandIx) : Prop :=
  (j = .l ∧ m.getLsbD 0 = true) ∨ (j = .c ∧ m.getLsbD 1 = true) ∨ (j = .w ∧ m.getLsbD 2 = true)

/-- The constant of a strand kind, R16. -/
def SeedConstant : StrandIx → Word
  | .s => 0x5A173C94E2D08B61
  | .l => 0x93C40E7B1A65D2F8
  | .c => 0xC6E85B217F0A94D3
  | .w => 0x2F9DA846C35B170E

/-- The values of R12 in a strand's registers, sst and sgn, for iteration `y.iter` of launch `l`: the work identifier in g1, its fields
from g2 on, the addresses of header and record, the resume iteration; sst with PDM of the header, and sgn by R16. -/
structure FirstValues (u : Strand) (j : StrandIx) (l : Launch) (y : Ctx) : Prop where
  work   : u.rd 1 = l.workId y.iter
  fields : ∀ e ∈ l.fields y.iter, e.1 < 6 → (∀ f ∈ l.fields y.iter, f.1 = e.1 → f = e) →
    u.rd (BitVec.ofNat 5 (2 + e.1)) = BitVec.ofNat 64 e.2
  blank  : ∀ f < 6, (∀ e ∈ l.fields y.iter, e.1 ≠ f) → u.rd (BitVec.ofNat 5 (2 + f)) = 0
  header : u.rd 8 = l.hdr
  record : u.rd 9 = l.va
  resume : u.rd 10 = BitVec.ofNat 64 y.resume
  rest   : ∀ r : Reg, r = 0 ∨ 11 ≤ r.toNat → u.rd r = 0
  status : u.sst = if l.hctl.getLsbD 3 then 0x8000 else 0
  seed   : u.sgn = if l.workId y.iter ^^^ SeedConstant j = 0 then 1 else l.workId y.iter ^^^ SeedConstant j

end Sys2Proof.Machine

/-- R151 to R154: stgo, stwait and ststop of S complete in every state with DEPTH 0 that meets their conditions. stgo starts a strand
that is not running at its address, from the next clock cycle on, and writes 1, or writes 0; a strand that has run before keeps all its
state, and another gets the R12 values with its loop 0 disarmed. stwait issues once no named strand runs, and waits before. ststop makes
each named strand that runs exit from the next cycle on. -/
def Obligations.StrandControlFollowsR152ToR154 : Prop :=
  (∀ (x : Core) (j : StrandIx),
    ((x.str j).starting = true → (x.nextCycle.str j).running = true ∧ (x.nextCycle.str j).starting = false) ∧
    ((x.str j).running = true → (x.str j).stopping = true →
      (x.nextCycle.str j).running = true ∧ (x.nextCycle.str j).exiting = true ∧ (x.nextCycle.str j).pc = (x.str j).pc)) ∧
  ∀ (s : State) (c : Nat) (k : StrandIx) (y : Bool), (s.ctx c).depth = 0 →
    (∀ (d a : Reg) (m : BitVec 2), Ready s c k (.stgo y d a m) ⟨y, 0⟩ [.s] [a] [d] →
      let x := s.rd c k a
      let j := StrandOf m
      let u := s.str c j
      (¬ (x.extractLsb' 0 2 = 0 ∧ ∀ b, 57 ≤ b → b < 64 → x.getLsbD b = x.getLsbD 56) → Raises (.stgo y d a m) s c k 0x07 x) ∧
      (x.extractLsb' 0 2 = 0 → (∀ b, 57 ≤ b → b < 64 → x.getLsbD b = x.getLsbD 56) →
        (u.running = true → WritesReg (.stgo y d a m) ⟨y, 0⟩ s c k d 0) ∧
        (u.running = false → ∃ t, exec (.stgo y d a m) s = .next (endTurn t c) ∧ Issued s t c k (.stgo y d a m) ⟨y, 0⟩ (s.core c).took ∧
          FallsThrough (s.str c k) t c k (.stgo y d a m) ∧ Holds t c k d 1 ∧ KeepsRegs s t c k [d] ∧ (t.str c j).pc = x ∧
          (t.str c j).running = false ∧ (t.str c j).starting = true ∧
          (u.started = true → t.str c j = { u with
            pc := x, running := false, starting := true, fwait := 0, waited := 0, twait := false, starved := false }) ∧
          (u.started = false → (t.str c j).ls0 = 0 ∧ (t.str c j).le0 = 0 ∧ (t.str c j).lc0 = 0 ∧
            (t.str c j).ls1 = 0 ∧ (t.str c j).le1 = 0 ∧ (t.str c j).lc1 = 0 ∧
            FirstValues (t.str c j) j (s.launch (s.ctx c).launch) (s.ctx c) ∧ (t.str c j).started = true) ∧
          (∀ e, e ≠ k → e ≠ j → t.str c e = s.str c e) ∧ (∀ e, e ≠ c → t.core e = s.core e) ∧ t.mem = s.mem ∧ SamePackage s t))) ∧
    ∀ m : BitVec 3,
      (Ready s c k (.stwait y m) ⟨y, 0⟩ [.s] [] [] → (∀ j, InMask m j → (s.str c j).running = false) →
        (∃ t, exec (.stwait y m) s = .next t) ∧ LeavesCore (.stwait y m) ⟨y, 0⟩ s c k (s.core c) (s.ctx c)) ∧
      (Ready s c k (.stwait y m) ⟨y, 0⟩ [.s] [] [] → (∃ j, InMask m j ∧ (s.str c j).running = true) → Waits (.stwait y m) s c) ∧
      (Ready s c k (.ststop y m) ⟨y, 0⟩ [.s] [] [] → ∃ t, exec (.ststop y m) s = .next (endTurn t c) ∧
        Issued s t c k (.ststop y m) ⟨y, 0⟩ (s.core c).took ∧ FallsThrough (s.str c k) t c k (.ststop y m) ∧ KeepsRegs s t c k [] ∧
        (∀ j, InMask m j → t.str c j = { s.str c j with stopping := (s.str c j).stopping || (s.str c j).running }) ∧
        (∀ j, j ≠ k → ¬ InMask m j → t.str c j = s.str c j) ∧ (∀ e, e ≠ c → t.core e = s.core e) ∧ t.mem = s.mem ∧ SamePackage s t)

/-! ### System registers, traps -/

namespace Sys2Proof.Machine

/-- What a sysget reads, by R113 and R114: the register of the strand, the context or the package. -/
def SysRegister (s : State) (c : Nat) (k : StrandIx) (r : BitVec 8) (v : Word) : Prop :=
  let t := s.str c k
  let x := s.ctx c
  (r = 0x00 ∧ v = t.sst) ∨ (r = 0x01 ∧ v = t.sgn) ∨ (r = 0x02 ∧ v = t.ls0) ∨ (r = 0x03 ∧ v = t.le0) ∨
  (r = 0x04 ∧ v = t.lc0.setWidth 64) ∨ (r = 0x05 ∧ v = t.ls1) ∨ (r = 0x06 ∧ v = t.le1) ∨ (r = 0x07 ∧ v = t.lc1.setWidth 64) ∨
  (r = 0x10 ∧ v = BitVec.ofNat 64 (c % 4096)) ∨ (r = 0x11 ∧ v = BitVec.ofNat 64 (s.clock - (s.die (dieOf c)).left)) ∨
  (r = 0x18 ∧ v = x.tvec) ∨ (r = 0x19 ∧ v = x.tcause) ∨ (r = 0x1A ∧ v = x.tval) ∨ (r = 0x1B ∧ v = x.tsave) ∨
  (r = 0x1C ∧ v = x.tadp) ∨ (r = 0x20 ∧ v = BitVec.ofNat 64 x.scrsize) ∨ (r = 0x21 ∧ v = x.scrmode.setWidth 64) ∨
  (r = 0x22 ∧ v = (s.core c).tagcfg) ∨ (r = 0x28 ∧ v = BitVec.ofNat 64 s.dieclk) ∨ (r = 0x29 ∧ v = 1) ∨
  (∃ i : Nat, i < 4 ∧ r.toNat = 0x30 + 2 * i ∧ v = Tab.get 0 x.wpa i) ∨ (∃ i : Nat, i < 4 ∧ r.toNat = 0x31 + 2 * i ∧ v = Tab.get 0 x.wpc i)

/-- What a sysset of a strand's own register leaves of the strand, R113: sst and the loop addresses as written, sgn with 0 stored as
1, a loop count saturated at 2^32 − 1. -/
def StrandWritten (u : Strand) (r : BitVec 8) (v : Word) : Strand :=
  let lc := BitVec.ofNat 32 (if v.toNat < 2 ^ 32 then v.toNat else 2 ^ 32 - 1)
  if r = 0 then { u with sst := v } else if r = 1 then { u with sgn := if v = 0 then 1 else v }
  else if r = 2 then { u with ls0 := v } else if r = 3 then { u with le0 := v } else if r = 4 then { u with lc0 := lc }
  else if r = 5 then { u with ls1 := v } else if r = 6 then { u with le1 := v } else { u with lc1 := lc }

/-- A value that sst takes, R14 and spec/20 R402. -/
def GoodStatus (s : State) (c : Nat) (v : Word) : Prop :=
  v.extractLsb' 16 48 = 0 ∧ v.getLsbD 4 = false ∧ (v.extractLsb' 0 3).toNat < 6 ∧
  (v.getLsbD 15 = true → s.feat (s.ctx c).vf 3 = true) ∧ ((v.extractLsb' 0 3).toNat = 5 → s.feat (s.ctx c).vf 2 = true)

/-- The head word of a strand finds a cached leaf for an address: the function's translation is enabled, no walk holds the word back,
and the leaf allows the access and gives `pa` (spec/15 R305, R314). -/
def MappedAt (s : State) (c : Nat) (k : StrandIx) (va : Word) (kind : AccKind) (pa : Nat) : Prop :=
  (s.vf (s.ctx c).vf).ptroot.getLsbD 0 = true ∧ s.waits ⟨c, unitHead k⟩ (s.ctx c).vf (pageOf va) = false ∧
    tlbHit s c (s.ctx c).vf va kind = some pa

end Sys2Proof.Machine

/-- R113, R114: sysget lands the register it names with latency 2; strands other than S name only the registers that a strand holds
itself. -/
def Sys2Proof.Machine.SysgetLandsTheRegister : Prop :=
  ∀ (s : State) (c : Nat) (k : StrandIx) (n : Ann) (d : Reg) (r : BitVec 8), Ready s c k (.sysget n d r) n allStr [] [d] →
    (k = .s ∨ r.toNat ≤ 7) → (s.core c).records < 64 →
    ∃ v, SysRegister s c k r v ∧ StartsOp (.sysget n d r) n s c k (ExposedOp s c k (.sysget n d r) d [v] 2 v 0)

/-- R113 to R115, R158, R317, R318: sysset writes the register it names, with the checks of tvec and tagcfg. A wpc value with EN = 0
disarms its watchpoint. -/
def Sys2Proof.Machine.SyssetWritesTheRegister : Prop :=
  ∀ (s : State) (c : Nat) (k : StrandIx) (n : Ann) (a : Reg) (r : BitVec 8), Ready s c k (.sysset n a r) n allStr [a] [] →
    let v := s.rd c k a
    let x := s.core c
    let y := s.ctx c
    (r.toNat ≤ 7 → (r = 0 → GoodStatus s c v) → (r = 1 → k = .c → x.drawing = false) →
      Leaves (.sysset n a r) n s c k (StrandWritten (s.str c k) r v) x y) ∧
    (k = .s → x.ctx.isSome →
      (r = 0x18 → v.extractLsb' 0 2 = 0 →
        ((∀ j, 57 ≤ j → j < 64 → v.getLsbD j = v.getLsbD 56) → LeavesCore (.sysset n a r) n s c k x { y with tvec := v }) ∧
        (¬ (∀ j, 57 ≤ j → j < 64 → v.getLsbD j = v.getLsbD 56) → Raises (.sysset n a r) s c k 0x07 v)) ∧
      (r = 0x19 → v.extractLsb' 24 40 = 0 → v.extractLsb' 10 6 = 0 → LeavesCore (.sysset n a r) n s c k x { y with tcause := v }) ∧
      (r = 0x1A → LeavesCore (.sysset n a r) n s c k x { y with tval := v }) ∧
      (r = 0x22 → v.extractLsb' 34 30 = 0 → v.getLsbD 24 = false → TagCount v ≤ 256 → (v.extractLsb' 20 4).toNat ≤ 6 →
        (TagBase v % TagSlotBytes v ≠ 0 → Raises (.sysset n a r) s c k 0x07 (BitVec.ofNat 64 (TagBase v))) ∧
        (TagBase v % TagSlotBytes v = 0 → y.scrsize < TagBase v + TagCount v * TagSlotBytes v →
          Raises (.sysset n a r) s c k 0x06 (BitVec.ofNat 64 (TagBase v + TagCount v * TagSlotBytes v))) ∧
        (TagBase v % TagSlotBytes v = 0 → TagBase v + TagCount v * TagSlotBytes v ≤ y.scrsize →
          LeavesCore (.sysset n a r) n s c k (TagWritten { x with tagcfg := v } k none none) y)) ∧
      (∀ i : Nat, i < 4 → r.toNat = 0x30 + 2 * i → LeavesCore (.sysset n a r) n s c k x { y with wpa := Tab.set 0 y.wpa i v }))

/-- R114, R115: sysget lands the register in flight; sysset writes the registers that may be written. -/
def Obligations.SystemRegisterWordsFollowR114AndR115 : Prop :=
  SysgetLandsTheRegister ∧ SyssetWritesTheRegister

/-- R317, R318: a sysset of wpc with EN = 0 disarms the watchpoint of its index, and with EN = 1 arms the range of wpa at its home
port: the range that wpa translates to, of 2^(4+SIZE) bytes. A range that is not canonical or not aligned faults at the word, and so
does one whose home the firewall refuses (spec/19 R393) or that lies in no HBM and no SDM; one behind a shut link waits (R392). -/
def Sys2Proof.Machine.WatchpointsArmByR318 : Prop :=
  ∀ (s : State) (c : Nat) (n : Ann) (a : Reg) (r : BitVec 8) (i : Nat), Ready s c .s (.sysset n a r) n allStr [a] [] →
    i < 4 → r.toNat = 0x31 + 2 * i → (s.core c).ctx.isSome →
    let v := s.rd c .s a
    let y := s.ctx c
    let va := Tab.get 0 y.wpa i
    let size := 2 ^ (4 + (v.extractLsb' 12 4).toNat)
    v.extractLsb' 16 48 = 0 → v.extractLsb' 4 8 = 0 → v.extractLsb' 1 2 = 0 → (v.extractLsb' 12 4).toNat ≤ 12 →
    let kept := s.armed.filter (fun w => !(w.task == y.task && w.ix == i))
    (v.getLsbD 0 = false → ∃ t, exec (.sysset n a r) s = .next (endTurn t c) ∧ Issued s t c .s (.sysset n a r) n (s.core c).took ∧
      t.armed = kept ∧ SameSpecial { y with wpc := Tab.set 0 y.wpc i v } (t.ctx c) ∧ KeepsRegs s t c .s [] ∧ t.mem = s.mem) ∧
    (v.getLsbD 0 = true → ¬ GoodGlobal va size → Raises (.sysset n a r) s c .s 0x07 va) ∧
    (v.getLsbD 0 = true → GoodGlobal va size → ∀ pa, MappedAt s c .s va .read pa →
      let home := (∃ st, homeOf pa = .hbm st) ∨ ∃ d, homeOf pa = .sdm d
      (s.refused (dieOf c) pa = true → RaisesAfter (.sysset n a r) s c .s 0x39 va) ∧
      (s.refused (dieOf c) pa = false → ¬ home → RaisesAfter (.sysset n a r) s c .s 0x0C va) ∧
      (s.refused (dieOf c) pa = false → home → s.heldUp (dieOf c) pa = true → WaitsHeld (.sysset n a r) s c (dieOf c) pa) ∧
      (s.refused (dieOf c) pa = false → home → s.heldUp (dieOf c) pa = false →
        ∃ t, exec (.sysset n a r) s = .next (endTurn t c) ∧ Issued s t c .s (.sysset n a r) n (s.core c).took ∧
          t.armed = kept ++ [⟨y.task, i, pa, size⟩] ∧ SameSpecial { y with wpc := Tab.set 0 y.wpc i v } (t.ctx c) ∧
          KeepsRegs s t c .s [] ∧ t.mem = s.mem))

/-- R116, R123: trap and brk issue and stop the core at the end of the clock cycle, with a cause of the first rank: code 3 with the
number and the register, and code 2 with the number and the pc of the brk. -/
def Sys2Proof.Machine.TrapAndBrkStopTheCore : Prop :=
  ∀ (s : State) (c : Nat) (k : StrandIx) (n : Ann) (m : BitVec 8),
    let x := s.core c
    (∀ a : Reg, Ready s c k (.trap n a m) n allStr [a] [] →
      LeavesCore (.trap n a m) n s c k { x with stops := x.stops ++ [⟨1, k, 0x03, m, s.rd c k a⟩] } (s.ctx c)) ∧
    (Ready s c k (.brk n m) n allStr [] [] →
      LeavesCore (.brk n m) n s c k { x with stops := x.stops ++ [⟨1, k, 0x02, m, (s.str c k).pc⟩] } (s.ctx c))

/-- R116, R123, R317, R318: writes of the watchpoint registers; trap and brk. -/
def Obligations.WatchpointsAndTrapsFollowR318AndR116 : Prop :=
  WatchpointsArmByR318 ∧ TrapAndBrkStopTheCore

/-! ### Copy words -/

namespace Sys2Proof.Machine

/-- A shape register of a core, and the element size and element count of its record (R224, R225, R229). -/
def ShapeOf (s : State) (c : Nat) (h : BitVec 4) : Shape := Tab.get {} (s.core c).sh h.toNat
def ElementSize (s : State) (c : Nat) (h : BitVec 4) : Nat := etSize (recEt (ShapeOf s c h).bytes)
def ElementCount (s : State) (c : Nat) (h : BitVec 4) : Nat := recN (ShapeOf s c h).bytes

/-- tval of SHAPE_FORM: the reason, the shape register and a dimension. -/
def ShapeTval (reason h d : Nat) : Word := BitVec.ofNat 64 (reason + 2 ^ 8 * h + 2 ^ 12 * d)

/-- Step 3 of R230. -/
def ShapeChecks (s : State) (c : Nat) (h : BitVec 4) (ets : List Nat) : List (Prop × Nat × Word) :=
  [((ShapeOf s c h).valid = true, 0x10, ShapeTval 7 h.toNat 0), (recEt (ShapeOf s c h).bytes ∈ ets, 0x10, ShapeTval 8 h.toNat 0)]

/-- Every element type a record may have. -/
def anyEt : List Nat := List.range 16

/-- An alignment check of step 4 and a range check of step 6 of R230. -/
def Aligned (m : Nat) (a : Word) : Prop × Nat × Word := (a.toNat % m = 0, 0x11, a)
def InScratch (s : State) (c : Nat) (x n : Nat) : Prop × Nat × Word :=
  (x + n ≤ (s.ctx c).scrsize, 0x06, BitVec.ofNat 64 (if x < (s.ctx c).scrsize then (s.ctx c).scrsize else x))

/-- The queue of a strand's commands, R231. -/
def QueueOf (x : Core) (k : StrandIx) : List CpCmd := if k = .l then x.lq else x.wq
def Enqueued (x : Core) (k : StrandIx) (q : CpCmd) : Core :=
  if k = .l then { x with lq := x.lq ++ [q] } else { x with wq := x.wq ++ [q] }

/-- The command that a word pushes: the registers' values, its snapshot and its element count. -/
def CommandOf (s : State) (c : Nat) (k : StrandIx) (i : Instr) (h : Option (BitVec 4)) (sreg greg : Word) (idx x n : Nat)
    (left : List Nat) : CpCmd :=
  { k := k, ord := (s.core c).nord, seq := (s.str c k).ic + 1, img := i, sreg := sreg, greg := greg, idx := idx
    snap := h.map (ShapeOf s c), n := n, x := x, mleft := left, since := s.clock }

/-- A copy word that passes its checks enters its strand's queue while that has room (R230, R231). -/
def PushesBy (i : Instr) (n : Ann) (s : State) (c : Nat) (k : StrandIx) (checks : List (Prop × Nat × Word)) (q : CpCmd) : Prop :=
  FirstFault checks (Raises i s c k) ((QueueOf (s.core c) k).length < 16 → LeavesCore i n s c k (Enqueued (s.core c) k q) (s.ctx c))

/-- cpld and cpst. -/
def MoveOf (i : Ann → BitVec 4 → Reg → Reg → Bool → Instr) (k : StrandIx) : Prop :=
  ∀ (s : State) (c : Nat) (n : Ann) (h : BitVec 4) (sr gr : Reg) (ev : Bool), Ready s c k (i n h sr gr ev) n [k] [sr, gr] [] →
    (s.core c).records < 64 →
    let a := s.rd c k sr
    let b := s.rd c k gr
    let z := ElementSize s c h
    PushesBy (i n h sr gr ev) n s c k
      (ShapeChecks s c h anyEt ++ [Aligned 16 a, Aligned z b, InScratch s c a.toNat (ElementCount s c h * z)])
      (CommandOf s c k (i n h sr gr ev) (some h) a b 0 a.toNat (ElementCount s c h) [])

/-- cpgat and cpsca: the index list has one entry of eight bytes for each coordinate of the last dimension. -/
def IndexedOf (i : Ann → BitVec 4 → Reg → BitVec 4 → Bool → Instr) (k : StrandIx) : Prop :=
  ∀ (s : State) (c : Nat) (n : Ann) (h : BitVec 4) (sr : Reg) (gr : BitVec 4) (ev : Bool),
    Ready s c k (i n h sr gr ev) n [k] [sr, PairOf gr, PairOf gr + 1] [] → (s.core c).records < 64 →
    let a := s.rd c k sr
    let b := s.rd c k (PairOf gr)
    let l := s.rd c k (PairOf gr + 1)
    let z := ElementSize s c h
    let r := (ShapeOf s c h).bytes
    PushesBy (i n h sr gr ev) n s c k
      (ShapeChecks s c h anyEt ++ [Aligned 16 a, Aligned 8 l, Aligned z b, InScratch s c a.toNat (ElementCount s c h * z),
        InScratch s c l.toNat (8 * recW r (recDim r - 1))])
      (CommandOf s c k (i n h sr gr ev) (some h) a b l.toNat a.toNat (ElementCount s c h) [])

/-- A cpacc: the offset is bits [46:0], bits [63:48] must be zero, and an image element of cas has 16 bytes. -/
def AccumulateOf (i : Ann → BitVec 4 → Reg → Reg → Bool → Instr) (ets : List Nat) (zi : Nat → Nat) : Prop :=
  ∀ (s : State) (c : Nat) (n : Ann) (h : BitVec 4) (sr gr : Reg) (ev : Bool), Ready s c .w (i n h sr gr ev) n [.w] [sr, gr] [] →
    (s.core c).records < 64 →
    let a := s.rd c .w sr
    let b := s.rd c .w gr
    let x := (a.extractLsb' 0 47).setWidth 64
    let z := ElementSize s c h
    PushesBy (i n h sr gr ev) n s c .w
      (ShapeChecks s c h ets ++ [Aligned 16 x, Aligned z b, (a.extractLsb' 48 16 = 0, 0x06, a),
        InScratch s c x.toNat (ElementCount s c h * zi z)])
      (CommandOf s c .w (i n h sr gr ev) (some h) a b 0 x.toNat (ElementCount s c h) [])

/-- The failures of a shape record, with the reason and the dimension of each in the order of R226. -/
def RecordChecks (b : List Byte) (h : Nat) : List (Prop × Nat × Word) :=
  let nd := recDim b
  let z := etSize (recEt b)
  [(recEt b ≤ 10, 0x10, ShapeTval 1 h 0), (1 ≤ nd ∧ nd ≤ 9, 0x10, ShapeTval 2 h 0),
   (recCtl b < 2 ^ 9 ∧ ∀ j, nd ≤ j → j < 9 → recW b j = 1 ∧ recT b j = 0 ∧ recStr b j = 0, 0x10, ShapeTval 3 h 0)] ++
  (List.range nd).map (fun j => (1 ≤ recT b j, 0x10, ShapeTval 4 h j)) ++
  [(z * recN b ≤ 2 ^ 20, 0x10, ShapeTval 5 h 0)] ++
  (List.range nd).map (fun j => (-(2 ^ 63) ≤ recStr b j * z ∧ recStr b j * z < 2 ^ 63, 0x10, ShapeTval 6 h j))

/-- A core whose clock cycle writes one shape register more at its end. -/
def ShapeSet (x : Core) (k : StrandIx) (h : BitVec 4) (y : Shape) : Core := { x with shw := x.shw ++ [⟨k, h.toNat, y⟩] }

/-- The shape writes of a clock cycle land at its end (R227), and of those to one register W's stays (R228). -/
def ShapeWritesLandByR228 : Prop :=
  ∀ (x : Core) (h : Nat), x.nextCycle.shw = [] ∧ ((∀ v ∈ x.shw, v.h ≠ h) → Tab.get {} x.nextCycle.sh h = Tab.get {} x.sh h) ∧
    ∀ p w q, x.shw = p ++ w :: q → w.h = h →
      (w.k = .w → (∀ v ∈ q, v.k = .w → v.h ≠ h) → Tab.get {} x.nextCycle.sh h = w.val) ∧
      (w.k ≠ .w → (∀ v ∈ x.shw, v.k = .w → v.h ≠ h) → (∀ v ∈ q, v.h ≠ h) → Tab.get {} x.nextCycle.sh h = w.val)

/-- cporg and cpstep, R227. -/
def MovesOrigin (i : Instr) (n : Ann) (s : State) (c : Nat) (k : StrandIx) (h d : BitVec 4) (o : Int) : Prop :=
  let y := ShapeOf s c h
  FirstFault [(y.valid = true, 0x10, ShapeTval 7 h.toNat 0), (d.toNat < recDim y.bytes, 0x10, ShapeTval 9 h.toNat d.toNat),
      (-(2 ^ 63) ≤ o ∧ o < 2 ^ 63, 0x13, d.setWidth 64)] (Raises i s c k)
    (∃ org, org.length = y.org.length ∧ (∀ e, e ≠ d.toNat → org[e]? = y.org[e]?) ∧ (d.toNat < y.org.length → org[d.toNat]? = some o) ∧
      LeavesCore i n s c k (ShapeSet (s.core c) k h { y with org := org }) (s.ctx c))

end Sys2Proof.Machine

/-- R226 to R228, R230: cpshape samples and checks a record and loads the shape register; cporg and cpstep set an origin exactly; each
write lands at the end of the clock cycle. -/
def Obligations.ShapeWordsFollowR226AndR227 : Prop :=
  ShapeWritesLandByR228 ∧
  ∀ (s : State) (c : Nat) (k : StrandIx) (n : Ann) (h : BitVec 4),
    (∀ sr gr : Reg, Ready s c k (.cpshape n h sr gr) n [.l, .w] [sr, gr] [] →
      let i : Instr := .cpshape n h sr gr
      let x := s.rd c k sr
      let holes := (s.core c).unwritten x.toNat 128
      (x.toNat % 16 ≠ 0 → Raises i s c k 0x11 x) ∧
      (x.toNat % 16 = 0 → (s.ctx c).scrsize < x.toNat + 128 → Raises i s c k 0x06 (InScratch s c x.toNat 128).2.2) ∧
      (x.toNat % 16 = 0 → x.toNat + 128 ≤ (s.ctx c).scrsize →
        (∀ g rest, holes = g :: rest → (s.ctx c).scrmode = 2 → Raises i s c k 0x05 (BitVec.ofNat 64 (16 * g))) ∧
        ((holes = [] ∨ (s.ctx c).scrmode = 0 ∨ (s.ctx c).scrmode = 3) → ∃ b, SampledBytes (s.core c) k x.toNat 128 b ∧
          FirstFault (RecordChecks b h.toNat) (Raises i s c k) (LeavesCore i n s c k
            (ShapeSet (s.core c) k h { bytes := b, fill := s.rd c k gr, org := List.replicate 9 0, valid := true }) (s.ctx c))) ∧
        (holes ≠ [] → (s.ctx c).scrmode = 1 → ∃ b, SampledBytes (s.core c) k x.toNat 128 b ∧ ((∀ f ∈ RecordChecks b h.toNat, f.1) →
          ∃ t, exec i s = .next (endTurn t c) ∧ Issued s t c k i n (s.core c).took ∧ KeepsRegs s t c k [] ∧ t.mem = s.mem ∧
            (t.core c).shw = (s.core c).shw ++ [⟨k, h.toNat, { bytes := b, fill := s.rd c k gr, org := List.replicate 9 0, valid := true }⟩] ∧
            PostsWarnings s t c k holes)))) ∧
    ∀ (gr : Reg) (d : BitVec 4),
      (Ready s c k (.cporg n h gr d) n [.l, .w] [gr] [] → MovesOrigin (.cporg n h gr d) n s c k h d (s.rd c k gr).toInt) ∧
      (Ready s c k (.cpstep n h gr d) n [.l, .w] [gr] [] →
        MovesOrigin (.cpstep n h gr d) n s c k h d ((ShapeOf s c h).org.getD d.toNat 0 + (s.rd c k gr).toInt))

/-- R230, R231, R234, R235: cpld, cpst, cpldm, cpgat, cpsca and cptag make the checks of R230 in order and enter their strand's
queue with their registers and snapshot; cptag also makes its entry invalid. -/
def Obligations.DataCommandsEnterTheirQueue : Prop :=
  MoveOf .cpld .l ∧ MoveOf .cpst .w ∧ IndexedOf .cpgat .l ∧ IndexedOf .cpsca .w ∧
  (∀ (s : State) (c : Nat) (n : Ann) (h : BitVec 4) (sr gr : Reg) (ev : Bool), Ready s c .l (.cpldm n h sr gr ev) n [.l] [sr, gr] [] →
    (s.core c).records < 64 →
    let a := s.rd c .l sr
    let b := s.rd c .l gr
    let x := (a.extractLsb' 0 48).setWidth 64
    let z := ElementSize s c h
    PushesBy (.cpldm n h sr gr ev) n s c .l
      (ShapeChecks s c h anyEt ++ [Aligned 16 x, Aligned z b, (a.extractLsb' 48 16 ≠ 0, 0x15, 0),
        InScratch s c x.toNat (ElementCount s c h * z)])
      (CommandOf s c .l (.cpldm n h sr gr ev) (some h) a b 0 x.toNat (ElementCount s c h)
        (((List.range 16).filter (fun j => a.getLsbD (48 + j))).map (fun j => 16 * (c / 16) + j)))) ∧
  ∀ (s : State) (c : Nat) (n : Ann) (h : BitVec 4) (sr gr : Reg) (ev : Bool), Ready s c .l (.cptag n h sr gr ev) n [.l] [sr, gr] [] →
    (s.core c).records < 64 →
    let a := s.rd c .l sr
    let b := s.rd c .l gr
    let z := ElementSize s c h
    let cfg := (s.core c).tagcfg
    let x := TagBase cfg + a.toNat * TagSlotBytes cfg
    FirstFault (ShapeChecks s c h anyEt ++ [Aligned z b, (a.toNat < TagCount cfg, 0x06, BitVec.ofNat 64 x),
        (ElementCount s c h * z ≤ TagSlotBytes cfg, 0x06, BitVec.ofNat 64 (x + TagSlotBytes cfg))])
      (Raises (.cptag n h sr gr ev) s c .l)
      ((s.core c).lq.length < 16 → LeavesCore (.cptag n h sr gr ev) n s c .l
        (TagWritten (Enqueued (s.core c) .l (CommandOf s c .l (.cptag n h sr gr ev) (some h) a b 0 x (ElementCount s c h) [])) .l
          (some a.toNat) none) (s.ctx c))

/-- R230, R236: the eight cpacc words check the element types of their operation and enter the W queue. -/
def Obligations.AccumulationsEnterTheWQueue : Prop :=
  AccumulateOf .cpaccAdd [4, 5, 6, 7, 8] id ∧ AccumulateOf .cpaccMin [4, 5, 6, 7, 8] id ∧ AccumulateOf .cpaccMax [4, 5, 6, 7, 8] id ∧
  AccumulateOf .cpaccAnd [4, 5, 6, 8, 9] id ∧ AccumulateOf .cpaccOr [4, 5, 6, 8, 9] id ∧ AccumulateOf .cpaccXor [4, 5, 6, 8, 9] id ∧
  AccumulateOf .cpaccXchg [4, 5, 6, 8, 9] id ∧ AccumulateOf .cpaccCas [6, 9] (fun _ => 16)

/-- R230, R231, R234, R239, R166: fills, futures, signals, drains and seams make their checks and enter their strand's queue; a
seam that gives tokens needs room for a second record (R245). -/
def Obligations.FillsFuturesDrainsAndSeamsEnterTheirQueue : Prop :=
  ∀ (s : State) (c : Nat) (k : StrandIx) (n : Ann), (s.core c).records < 64 →
    (∀ (h : BitVec 4) (gr : Reg) (ev : Bool), let b := s.rd c k gr
      (Ready s c k (.cpfill n h gr ev) n [.l, .w] [gr] [] → PushesBy (.cpfill n h gr ev) n s c k
        (ShapeChecks s c h anyEt ++ [Aligned (ElementSize s c h) b])
        (CommandOf s c k (.cpfill n h gr ev) (some h) 0 b 0 0 (ElementCount s c h) [])) ∧
      (Ready s c k (.cpfillScr n h gr ev) n [.l, .w] [gr] [] → PushesBy (.cpfillScr n h gr ev) n s c k
        (ShapeChecks s c h anyEt ++ [Aligned 16 b, InScratch s c b.toNat (ElementCount s c h * ElementSize s c h)])
        (CommandOf s c k (.cpfillScr n h gr ev) (some h) 0 b 0 b.toNat (ElementCount s c h) []))) ∧
    (∀ (sr gr : Reg) (ev : Bool), let a := s.rd c .w sr
      let b := s.rd c .w gr
      (Ready s c .w (.cpres n sr gr ev) n [.w] [sr, gr] [] → PushesBy (.cpres n sr gr ev) n s c .w
        [Aligned 8 a, Aligned 16 b, InScratch s c a.toNat 8] (CommandOf s c .w (.cpres n sr gr ev) none a b 0 a.toNat 1 [])) ∧
      (Ready s c .w (.cpreg n sr gr ev) n [.w] [sr, gr] [] → PushesBy (.cpreg n sr gr ev) n s c .w
        [Aligned 8 a, Aligned 16 b, InScratch s c a.toNat 8] (CommandOf s c .w (.cpreg n sr gr ev) none a b 0 a.toNat 1 []))) ∧
    (∀ (gr : Reg) (ev : Bool) (j : BitVec 3), Ready s c .w (.cpsig n gr ev j) n [.w] [gr] [] → PushesBy (.cpsig n gr ev j) n s c .w
      [Aligned 128 (s.rd c .w gr)] (CommandOf s c .w (.cpsig n gr ev j) none 0 (s.rd c .w gr) 0 0 1 [])) ∧
    (∀ ev : Bool, (Ready s c k (.cpdrain n ev) n [.l, .w] [] [] →
        PushesBy (.cpdrain n ev) n s c k [] (CommandOf s c k (.cpdrain n ev) none 0 0 0 0 0 [])) ∧
      (Ready s c k (.cpdrainBoth n ev) n [.l, .w] [] [] →
        PushesBy (.cpdrainBoth n ev) n s c k [] (CommandOf s c k (.cpdrainBoth n ev) none 0 0 0 0 0 []))) ∧
    (Ready s c k (.seam n) n [.l, .w] [] [] → (n.t &&& 3 = 0 ∨ (s.core c).records < 63) → PushesBy (.seam n) n s c k [] (CommandOf s c k (.seam n) none 0 0 0 0 0 []))

/-! ### Barriers, sets, tasks and collectives -/

namespace Sys2Proof.Machine

/-- The word issues and falls through; no register of its strand but those of `rs` changes, and no other strand and no other core. -/
structure Passes (i : Instr) (n : Ann) (s t : State) (c : Nat) (k : StrandIx) (rs : List Reg) : Prop where
  next    : exec i s = .next (endTurn t c)
  issued  : Issued s t c k i n (s.core c).took
  falls   : FallsThrough (s.str c k) t c k i
  keeps   : KeepsRegs s t c k rs
  strands : ∀ j, j ≠ k → t.str c j = s.str c j
  cores   : ∀ e, e ≠ c → t.core e = s.core e

/-- tval of ILLEGAL_WORD, R48: the first parcel, the reason and the strand. -/
def IllegalTval (i : Instr) (r : Nat) (k : StrandIx) : Word := BitVec.ofNat 64 ((parcel0 i).toNat + 2 ^ 32 * r + 2 ^ 40 * ixOf k)

/-- NB of the barriers of a task's window. -/
def BarrierCount (s : State) (c : Nat) : Nat := ((s.window c).map (·.nb)).getD 0

/-- GEN as a clock cycle sees it: a completion takes effect at the cycle's end (R266). -/
def SeenGen (x : Barrier) (clock : Nat) : BitVec 32 := if x.done = some clock then x.was else x.gen

/-- Arrive of R265 by a task: the arrival that completes the generation starts the next, which this clock cycle does not see yet; the
first of a generation fixes NEED. -/
def Arrived (x : Barrier) (clock task need : Nat) : Barrier :=
  if x.arr.length + 1 = (if x.arr = [] then need else x.need) then
    { gen := x.gen + 1, need := 0, arr := [], done := some clock, was := SeenGen x clock }
  else { x with need := if x.arr = [] then need else x.need, arr := x.arr ++ [task] }

end Sys2Proof.Machine

/-- R264 to R266, R268, R269: barr counts an arrival once the release of its strand at cluster scope holds, bwait issues once the barrier's generation
has reached the one it names, and btest issues interlocked; numbers at or beyond NB and counts outside 1 to 255 are illegal. -/
def Obligations.BarrierWordsFollowR265ToR269 : Prop :=
  ∀ (s : State) (c : Nat) (y : Bool) (b : BitVec 5),
    (∀ a : Reg, Ready s c .s (.barr y a b) ⟨y, 0⟩ [.s] [a] [] →
      let need := (s.rd c .s a).toNat
      (BarrierCount s c ≤ b.toNat → Raises (.barr y a b) s c .s 0x01 (IllegalTval (.barr y a b) 6 .s)) ∧
      (b.toNat < BarrierCount s c → (need = 0 ∨ 255 < need) → Raises (.barr y a b) s c .s 0x01 (IllegalTval (.barr y a b) 7 .s)) ∧
      (b.toNat < BarrierCount s c → need ≠ 0 → need ≤ 255 → (s.released c .s 1 = false → Waits (.barr y a b) s c) ∧
        (s.released c .s 1 = true → ∃ t, Passes (.barr y a b) ⟨y, 0⟩ s t c .s [] ∧
          t.barrier c b = Arrived (s.barrier c b) s.clock (s.ctx c).task need ∧ t.mem = s.mem ∧
          ∀ m e, (m ≠ clusterOf c ∨ e ≠ s.barIx c b) → Tab.get {} (t.cluster m).bar e = Tab.get {} (s.cluster m).bar e))) ∧
    (BarrierCount s c ≤ b.toNat →
      (∀ a : Reg, Ready s c .s (.bwait y a b) ⟨y, 0⟩ [.s] [a] [] → Raises (.bwait y a b) s c .s 0x01 (IllegalTval (.bwait y a b) 6 .s)) ∧
      ∀ d : Reg, Ready s c .s (.btest y d b) ⟨y, 0⟩ [.s] [] [d] → Raises (.btest y d b) s c .s 0x01 (IllegalTval (.btest y d b) 6 .s)) ∧
    (∀ a : Reg, Ready s c .s (.bwait y a b) ⟨y, 0⟩ [.s] [a] [] → b.toNat < BarrierCount s c →
      let past := ((SeenGen (s.barrier c b) s.clock).toInt - ((s.rd c .s a).extractLsb' 0 32).toInt) % 2 ^ 32
      (past < 2 ^ 31 → LeavesCore (.bwait y a b) ⟨y, 0⟩ s c .s (s.core c) (s.ctx c)) ∧
      (2 ^ 31 ≤ past → Waits (.bwait y a b) s c)) ∧
    ∀ d : Reg, Ready s c .s (.btest y d b) ⟨y, 0⟩ [.s] [] [d] → b.toNat < BarrierCount s c → (s.core c).flying .s d = false →
      (s.core c).records < 64 →
      StartsOp (.btest y d b) ⟨y, 0⟩ s c .s (InterlockedOp s c .s (.btest y d b) d false none (b.setWidth 64) 0 0 0)

namespace Sys2Proof.Machine

/-- The address at which block j of a range of sets begins, cut at its first byte. -/
def BlockAddress (x : Word) (j : Nat) : Word := if j = 0 then x else BitVec.ofNat 64 ((x.toNat / 2 ^ 16 + j) * 2 ^ 16)

/-- Every 64 KiB block of a range lies on die h (R281). -/
def LiesOn (s : State) (c : Nat) (x : Word) (n h : Nat) : Prop :=
  ∀ j, j ≤ (x.toNat % 2 ^ 16 + n - 1) / 2 ^ 16 → ∃ pa, MappedAt s c .s (BlockAddress x j) .read pa ∧
    s.refused (dieOf c) pa = false ∧ ((∃ st, homeOf pa = .hbm st ∧ st / 2 = h) ∨ homeOf pa = .sdm h)

/-- Two ranges share a byte. -/
def Overlap (e : SetEnt) (x n : Nat) : Prop := x < e.base.toNat + e.len ∧ e.base.toNat < x + n

end Sys2Proof.Machine

/-- R280 to R282, R295, R296: asdecl checks its range, whose blocks lie on one die, and enters the set in the lowest free place;
asdecl.rm removes a FREE set; asabort marks the task's sets and its restart; asstat issues interlocked. -/
def Obligations.SetWordsFollowR280ToR296 : Prop :=
  ∀ (s : State) (c : Nat) (y : Bool), let vf := (s.ctx c).vf
    s.feat vf 8 = true →
    (∀ d a b : Reg, Ready s c .s (.asdecl y d a b) ⟨y, 0⟩ [.s] [d, a, b] [] → (s.core c).acquiring .s = false →
      let i : Instr := .asdecl y d a b
      let id := s.rd c .s d
      let x := s.rd c .s a
      let n := (s.rd c .s b).toNat
      let v := s.vf vf
      (¬ GoodGlobal x 16 → Raises i s c .s 0x07 x) ∧
      (GoodGlobal x 16 → (n = 0 ∨ n % 16 ≠ 0 ∨ 2 ^ 32 < n) → Raises i s c .s 0x21 5) ∧
      (GoodGlobal x 16 → n ≠ 0 → n % 16 = 0 → n ≤ 2 ^ 32 →
        let inside := x.toNat + n - 1 < 2 ^ 64 ∧ GoodGlobal (x + BitVec.ofNat 64 n - 1) 1
        (¬ inside → Raises i s c .s 0x07 (x + BitVec.ofNat 64 n - 1)) ∧
        (inside → ∀ h, LiesOn s c x n h → s.sysReleased c .s = true →
          (∀ ix e, setNamed v id = some (ix, e) →
            (e.base = x ∧ e.len = n → LeavesCore i ⟨y, 0⟩ s c .s (s.core c) (s.ctx c)) ∧
            (¬ (e.base = x ∧ e.len = n) → Raises i s c .s 0x21 2)) ∧
          (setNamed v id = none → (∃ e ∈ setList v, Overlap e.2 x.toNat n) → Raises i s c .s 0x21 3) ∧
          (setNamed v id = none → (∀ e ∈ setList v, ¬ Overlap e.2 x.toNat n) →
            ((∀ j < 256, Tab.get none v.sets j ≠ none) → Raises i s c .s 0x21 1) ∧
            ∀ j < 256, Tab.get none v.sets j = none → (∀ e < j, Tab.get none v.sets e ≠ none) →
              ∃ t, Passes i ⟨y, 0⟩ s t c .s [] ∧ t.setEnt vf j = some { id := id, base := x, len := n, home := h } ∧
                (∀ e, e ≠ j → t.setEnt vf e = s.setEnt vf e) ∧ t.mem = s.mem)))) ∧
    (∀ d : Reg, Ready s c .s (.asdeclRm y d) ⟨y, 0⟩ [.s] [d] [] → let i : Instr := .asdeclRm y d
      (setNamed (s.vf vf) (s.rd c .s d) = none → LeavesCore i ⟨y, 0⟩ s c .s (s.core c) (s.ctx c)) ∧
      ∀ ix e, setNamed (s.vf vf) (s.rd c .s d) = some (ix, e) →
        (e.st = .free → ∃ t, Passes i ⟨y, 0⟩ s t c .s [] ∧ t.setEnt vf ix = none ∧
          (∀ j, j ≠ ix → t.setEnt vf j = s.setEnt vf j) ∧ t.mem = s.mem) ∧
        (e.st ≠ .free → e.holder = (s.ctx c).task → Raises i s c .s 0x21 4) ∧
        (e.st ≠ .free → e.holder ≠ (s.ctx c).task → Waits i s c)) ∧
    (Ready s c .s (.asabort y) ⟨y, 0⟩ [.s] [] [] → ∃ t, Passes (.asabort y) ⟨y, 0⟩ s t c .s [] ∧
      (t.core c).restart = some ((s.core c).restart.getD (c, 2 ^ 32 - 1)) ∧ t.mem = s.mem ∧
      ∀ ix e, s.setEnt vf ix = some e → t.setEnt vf ix =
        some (if e.holder = (s.ctx c).task ∧ (e.st = .held ∨ e.st = .suspended) then { e with st := .wounding } else e)) ∧
    ∀ d : Reg, (s.core c).flying .s d = false → (s.core c).records < 64 →
      (Ready s c .s (.asstatSt y d) ⟨y, 0⟩ [.s] [] [d] →
        StartsOp (.asstatSt y d) ⟨y, 0⟩ s c .s (InterlockedOp s c .s (.asstatSt y d) d false none 0 0 0 0)) ∧
      (Ready s c .s (.asstatAge y d) ⟨y, 0⟩ [.s] [] [d] →
        StartsOp (.asstatAge y d) ⟨y, 0⟩ s c .s (InterlockedOp s c .s (.asstatAge y d) d false none 0 0 0 0)) ∧
      ∀ a : Reg, Ready s c .s (.asstatSet y d a) ⟨y, 0⟩ [.s] [a] [d] →
        StartsOp (.asstatSet y d a) ⟨y, 0⟩ s c .s (InterlockedOp s c .s (.asstatSet y d a) d false none (s.rd c .s a) 0 0 0)

namespace Sys2Proof.Machine

/-- The 64-bit word at a physical address. -/
def WordAt (s : State) (pa : Nat) : Word := BitVec.ofNat 64 (NumberOf (s.portRead pa 8))

end Sys2Proof.Machine

/-- R350: tspawn, outside a handler, checks the address, the queue's partition and function, that it is ACTIVE and the revision, and
appends the record's address to the queue's FIFO, waiting while that is full. -/
def Sys2Proof.Machine.TspawnSubmitsByR350 : Prop :=
  ∀ (s : State) (c : Nat) (y : Bool) (a b : Reg), Ready s c .s (.tspawn y a b) ⟨y, 0⟩ [.s] [a, b] [] → (s.ctx c).depth = 0 →
    let i : Instr := .tspawn y a b
    let x := s.rd c .s a
    let q := ((s.rd c .s b).extractLsb' 0 6).toNat
    let d := ((s.rd c .s b).extractLsb' 6 3).toNat
    let vf := (s.ctx c).vf
    let z := s.queue d q
    let qvf := (z.qctl.extractLsb' 0 9).toNat
    let qrev := (z.qctl.extractLsb' 16 8).toNat
    (¬ GoodGlobal x 128 → Raises i s c .s 0x07 x) ∧
    (GoodGlobal x 128 → s.sysReleased c .s = false → Waits i s c) ∧
    (GoodGlobal x 128 → s.sysReleased c .s = true → ∀ s' pa, readNow s c (unitHead .s) vf x .read 8 = (s', .ok pa) →
      let w := WordAt s pa
      let rev := (w.extractLsb' 8 8).toNat
      (s.partOf d ≠ s.partOf (dieOf c) ∨ qvf ≠ vf → RaisesAfter i s c .s 0x1A (BitVec.ofNat 64 (2 ^ 23 + 2 ^ 16 * q))) ∧
      (s.partOf d = s.partOf (dieOf c) → qvf = vf →
        (z.st ≠ .active → RaisesAfter i s c .s 0x1A (BitVec.ofNat 64 (2 ^ 22 + 2 ^ 16 * q))) ∧
        (z.st = .active → (rev ≠ qrev ∨ (w.extractLsb' 16 9).toNat ≠ qvf) →
          RaisesAfter i s c .s 0x1A (BitVec.ofNat 64 (rev + 2 ^ 8 * qrev + 2 ^ 16 * q))) ∧
        (z.st = .active → rev = qrev → (w.extractLsb' 16 9).toNat = qvf → z.fifo.length < 256 →
          ∃ t, Passes i ⟨y, 0⟩ s t c .s [] ∧ t.queue d q = { z with fifo := z.fifo ++ [x] } ∧ t.mem = s.mem ∧
            ∀ d' q', (d' ≠ d ∨ q' ≠ q) → t.queue d' q' = s.queue d' q')))

/-- A rollback buffer holds no granule to publish (spec/14 R294). -/
def Sys2Proof.Machine.NoGranules (b : Option RbBuf) : Prop := ∀ z, b = some z → z.gran = []

/-- R351, R352, R340, R342: tdone waits until the core is quiet and what its task has stored in sets is performed; it then counts the
iteration, begins the signals, the STATE and the completion record of a record's last one, and, once these are performed, frees the core,
with its sets released and its watchpoints disarmed; at the end of a DRAIN it leaves the task at its queue with its resume iteration.
tchk writes 0 and marks the drain point of a waiting DRAIN. -/
def Sys2Proof.Machine.TaskWordsFollowR342AndR351 : Prop :=
  ∀ (s : State) (c : Nat) (y : Bool), (s.ctx c).depth = 0 → (s.core c).ctx.isSome →
    let x := s.ctx c
    let l := s.launch x.launch
    (Ready s c .s (.tdone y) ⟨y, 0⟩ [.s] [] [] →
      (doneReady s c = false → Waits (.tdone y) s c) ∧
      (doneReady s c = true → ¬ NoGranules (s.buf x.task) →
        ∃ t, exec (.tdone y) s = .next (endTurn t c) ∧ ((t.core c).ctx = (s.core c).ctx ∨ t.buf x.task = none)) ∧
      (doneReady s c = true → NoGranules (s.buf x.task) → (∀ i, x.preempt ≠ .clamped i) →
        let first := x.leaving = false
        let last := l.ended = false ∧ l.retired + 1 = l.iter
        (¬ (first ∧ last) → s.leavesActs x.task = false →
          ∃ t, exec (.tdone y) s = .next (endTurn t c) ∧ (t.core c).ctx = none ∧
            (∀ a ∈ t.armed, a.task ≠ x.task) ∧ t.buf x.task = none ∧
            (∀ ix e, t.setEnt x.vf ix = some e → e.st = .free ∨ e.holder ≠ x.task) ∧
            t.launch x.launch = if x.leaving then l else { l with retired := l.retired + 1 }) ∧
        (first → last → x.launch < s.nlaunch → ∃ t, exec (.tdone y) s = .next (endTurn t c) ∧
          t.launch x.launch = { l with retired := l.retired + 1, ended := true } ∧ ((t.core c).ctx = none ∨ (t.ctx c).leaving = true)) ∧
        (¬ first → s.leavesActs x.task = true → ∃ t, exec (.tdone y) s = .next (endTurn t c) ∧ (t.core c).ctx = (s.core c).ctx ∧
          t.launch x.launch = l)) ∧
      ∀ i, doneReady s c = true → NoGranules (s.buf x.task) → x.preempt = .clamped i → ∃ t, exec (.tdone y) s = .next (endTurn t c) ∧
        (t.core c).ctx = none ∧ (∀ ix e, t.setEnt x.vf ix = some e → e.st = .free ∨ e.holder ≠ x.task) ∧ t.launch x.launch = l ∧
        ∃ z, (t.queue l.die l.q).resum.getLast? = some z ∧ z.task = x.task ∧ z.iter = x.iter ∧ z.resume = i) ∧
    ∀ d : Reg, Ready s c .s (.tchk y d) ⟨y, 0⟩ [.s] [] [d] → ∃ t, Passes (.tchk y d) ⟨y, 0⟩ s t c .s [d] ∧ Holds t c .s d 0 ∧
      t.mem = s.mem ∧ ((∃ n, x.preempt = .drain n) → (t.ctx c).drainPt = some d) ∧
      ((∀ n, x.preempt ≠ .drain n) → (t.ctx c).drainPt = x.drainPt)

/-- R342, R350, R351: tspawn, tchk and tdone. -/
def Obligations.TaskWordsFollowR342R350AndR351 : Prop :=
  TspawnSubmitsByR350 ∧ TaskWordsFollowR342AndR351

/-- R419 to R423, R427: coll reads its descriptor and its peers, checks them, and registers the collective under a free handle, which it
writes; collwait waits for the collective of a handle, and for room for its record (R161), and raises the reason of one that failed. -/
def Obligations.CollectiveWordsFollowR422AndR423 : Prop :=
  ∀ (s : State) (c : Nat) (y : Bool), s.feat (s.ctx c).vf 9 = true →
    (∀ d a : Reg, Ready s c .s (.coll y d a) ⟨y, 0⟩ [.s] [a] [d] →
      let i : Instr := .coll y d a
      let x := s.rd c .s a
      let mine := s.colls.filter (fun z => z.task == (s.ctx c).task)
      (¬ GoodGlobal x 64 → Raises i s c .s 0x07 x) ∧
      (GoodGlobal x 64 → 4 ≤ (mine.filter (·.unfinished)).length ∨ s.sysReleased c .s = false → Waits i s c) ∧
      (GoodGlobal x 64 → (mine.filter (·.unfinished)).length < 4 → s.sysReleased c .s = true →
        ∀ s1 b, collRead c 64 1 s x = (s1, .ok b) →
          let t0 := BitVec.ofNat 64 (NumberOf (b.take 8))
          let sq := BitVec.ofNat 32 (NumberOf ((b.drop 8).take 4))
          let nr := (t0.extractLsb' 16 7).toNat
          ∀ s2 pl, collRead c 4 nr s1 (BitVec.ofNat 64 (NumberOf ((b.drop 0x28).take 8) / 8 * 8)) = (s2, .ok pl) →
            let key := (s.vf (s.ctx c).vf).clkey
            let good := descBad b = false ∧ peersBad pl nr = false ∧ key ≠ 0 ∧
              peerOf pl (t0.extractLsb' 32 6).toNat = (s.pkg.zpkg, BitVec.ofNat 3 (dieOf c)) ∧
              ∀ z ∈ s.colls, z.die = dieOf c → z.unfinished = true → z.me.seq ≠ sq
            (¬ good → RaisesAfter i s c .s 0x38 (BitVec.ofNat 64 (2 + 2 ^ 32 * sq.toNat))) ∧
            (good → ∀ h, freeHandle mine = some h →
              ∃ t, exec i s = .next (endTurn t c) ∧ Issued s t c .s i ⟨y, 0⟩ (s.core c).took ∧ FallsThrough (s.str c .s) t c .s i ∧
                Holds t c .s d (BitVec.ofNat 64 h) ∧ KeepsRegs s t c .s [d] ∧ ∃ z ∈ t.colls, z.task = (s.ctx c).task ∧ z.h = h ∧
                  z.die = dieOf c ∧ z.me.clkey = (s.vf (s.ctx c).vf).clkey ∧ z.me.seq = sq ∧
                  z.src = BitVec.ofNat 64 (NumberOf ((b.drop 0x18).take 8)) ∧ z.dst = BitVec.ofNat 64 (NumberOf ((b.drop 0x20).take 8)) ∧
                  z.due = s.dieclk + 1000 * NumberOf ((b.drop 0x30).take 8)))) ∧
    ∀ a : Reg, Ready s c .s (.collwait y a) ⟨y, 0⟩ [.s] [a] [] →
      let i : Instr := .collwait y a
      let h := (s.rd c .s a).toNat % 4
      let named (z : Coll) : Bool := z.task == (s.ctx c).task && z.h == h
      (s.colls.find? named = none → LeavesCore i ⟨y, 0⟩ s c .s (s.core c) (s.ctx c)) ∧
      ∀ z, s.colls.find? named = some z →
        (z.st = .meeting ∨ z.st = .moving ∨ z.cev = true → Waits i s c) ∧
        (z.st = .ended 0 → z.cev = false → ∃ t, Passes i ⟨y, 0⟩ s t c .s [] ∧ t.colls = s.colls.filter (fun w => !named w) ∧ t.mem = s.mem) ∧
        ∀ r, r ≠ 0 → z.st = .ended r → z.cev = false → ∃ t, exec i s = .next (endTurn t c) ∧ t.colls = s.colls.filter (fun w => !named w) ∧
          (t.core c).stops = (s.core c).stops ++ [⟨2, .s, 0x38, 0, BitVec.ofNat 64 (r + 2 ^ 8 * h + 2 ^ 32 * z.me.seq.toNat)⟩]

/-! ### Exceptions: illegal words, stops, and the return from a handler -/

namespace Sys2Proof.Machine

/-- The words that S alone may issue, and that need no feature (R35, R37, R146, R151, R162, R263, R350 to R352, R342). -/
def SWord (i : Instr) : Prop :=
  (∃ y f, i = .tkgive y f) ∨ (∃ y f, i = .tktake y f) ∨ (∃ y d f, i = .tkcount y d f) ∨ (∃ y d, i = .evpop y d) ∨
  (∃ y d, i = .evpoll y d) ∨ (∃ y, i = .idle y) ∨ (∃ y d a m, i = .stgo y d a m) ∨ (∃ y m, i = .stwait y m) ∨
  (∃ y m, i = .ststop y m) ∨ (∃ y a b, i = .tspawn y a b) ∨ (∃ y, i = .tdone y) ∨ (∃ y d, i = .tchk y d) ∨ (∃ y, i = .tret y) ∨
  (∃ y a b, i = .barr y a b) ∨ (∃ y a b, i = .bwait y a b) ∨ (∃ y d b, i = .btest y d b)

/-- The words of S that a handler may not issue (R251, R350). -/
def NotInHandler (i : Instr) : Prop :=
  (∃ y f, i = .tkgive y f) ∨ (∃ y f, i = .tktake y f) ∨ (∃ y d f, i = .tkcount y d f) ∨ (∃ y d a m, i = .stgo y d a m) ∨
  (∃ y m, i = .stwait y m) ∨ (∃ y m, i = .ststop y m) ∨ (∃ y a b, i = .tspawn y a b) ∨ (∃ y, i = .tdone y) ∨ (∃ y d, i = .tchk y d)

/-- The words of the features ASETS (8) and ZWIVEL (9). -/
def FeatureWord (i : Instr) (f : Nat) : Prop :=
  (f = 8 ∧ ((∃ y d a b, i = .asdecl y d a b) ∨ (∃ y d, i = .asdeclRm y d) ∨ (∃ y, i = .asabort y) ∨ (∃ y d, i = .asstatSt y d) ∨
    (∃ y d, i = .asstatAge y d) ∨ (∃ y d a, i = .asstatSet y d a))) ∨
  (f = 9 ∧ ((∃ y d a, i = .coll y d a) ∨ (∃ y a, i = .collwait y a)))

/-- The feature that a major opcode needs (spec/20 R402). -/
def OpcodeFeature (op f : Nat) : Prop := (f = 8 ∧ 0x63 ≤ op ∧ op ≤ 0x65) ∨ (f = 9 ∧ (op = 0x69 ∨ op = 0x6A))

/-- A parcel's major opcode is not one that strand `k` may issue at this DEPTH, or it names a system register of S in another strand. -/
def OpcodeKept (p : BitVec 32) (k : StrandIx) (depth : Nat) : Prop :=
  let op := majorOf p
  (whoOf p).getLsbD (ixOf k) = false ∨
  (depth ≠ 0 ∧ ((0x40 ≤ op ∧ op ≤ 0x42) ∨ (0x48 ≤ op ∧ op ≤ 0x4A) ∨ (0x60 ≤ op ∧ op ≤ 0x62))) ∨ (depth = 0 ∧ op = 0x74) ∨
  (k ≠ .s ∧ (op = 0x70 ∨ op = 0x71) ∧ 7 < (p.extractLsb' 0 8).toNat ∧ sysAssigned (p.extractLsb' 0 8) = true)

end Sys2Proof.Machine

/-- R35, R37, R48, R117, R251: a word of S in another strand, a word that a handler may not issue in a handler, a tret outside one and
a system register that a strand may not reach raise ILLEGAL_WORD with reason 3, a word of a feature that is not active with reason 2;
a word whose fields fail a check raises its reason after what its opcode says of features (reason 2), strands, handlers and system
registers (reason 3), and after a token field of S (reason 4). No other check comes first. -/
def Obligations.IllegalWordsRaiseTheirReason : Prop :=
  ∀ (s : State) (c : Nat) (k : StrandIx) (rest : List Turn) (i : Instr), s.agenda = .issue c k :: rest →
    (SWord i → k ≠ .s → Raises i s c k 0x01 (IllegalTval i 3 k)) ∧
    (NotInHandler i → (s.ctx c).depth ≠ 0 → Raises i s c k 0x01 (IllegalTval i 3 k)) ∧
    (∀ y, i = .tret y → (s.ctx c).depth = 0 → Raises i s c k 0x01 (IllegalTval i 3 k)) ∧
    (∀ n d r, i = .sysget n d r → k ≠ .s → 7 < r.toNat → sysAssigned r = true → Raises i s c k 0x01 (IllegalTval i 3 k)) ∧
    (∀ n a r, i = .sysset n a r → k ≠ .s → 7 < r.toNat → sysAssigned r = true → Raises i s c k 0x01 (IllegalTval i 3 k)) ∧
    (∀ f, FeatureWord i f → (s.feat (s.ctx c).vf f = false → Raises i s c k 0x01 (IllegalTval i 2 k)) ∧
      (s.feat (s.ctx c).vf f = true → k ≠ .s → Raises i s c k 0x01 (IllegalTval i 3 k))) ∧
    ∀ (p : BitVec 32) (r : BitVec 3), i = .unassignedWord p r →
      (r.toNat ≤ 2 → Raises i s c k 0x01 (IllegalTval i r.toNat k)) ∧
      (2 < r.toNat →
        let op := majorOf p
        let off := ∃ f, OpcodeFeature op f ∧ s.feat (s.ctx c).vf f = false
        let kept := OpcodeKept p k (s.ctx c).depth
        (off → Raises i s c k 0x01 (IllegalTval i 2 k)) ∧
        (¬ off → kept → Raises i s c k 0x01 (IllegalTval i 3 k)) ∧
        (¬ off → ¬ kept → k = .s → (annOf p).t ≠ 0 → Raises i s c k 0x01 (IllegalTval i 4 k)) ∧
        (¬ off → ¬ kept → (k ≠ .s ∨ (annOf p).t = 0) → Raises i s c k 0x01 (IllegalTval i r.toNat k)))

/-- R123 to R125, R128: the cause ranked first is the cause of the stop, and traps that lose are held; with DEPTH 0 and a handler the
core enters tvec with S's registers, the saved cause, the changed status and DEPTH 1, its other strands idled and its queues empty; with
DEPTH 1 the cause waits as a nested stop; without a handler and at DEPTH 2 the context is to be removed. The model's own choices: of
causes in rank 3 the strand index decides, and the first of a strand (log entry 73); the refusals of a completed multicast are held
like a trap (log entry 35, on R235), and so is FP_ENABLED of a landed vector group (log entry 94); a stop that is to write records
waits while a translation of the context's areas waits (log entry 13). -/
def Obligations.TakingAStopFollowsR123ToR128 : Prop :=
  ∀ (s : State) (c : Nat), (s.core c).stops ≠ [] → (s.core c).ctx.isSome →
    ∃ e ∈ (s.core c).stops,
      (∀ f ∈ (s.core c).stops, e.rank < f.rank ∨ (e.rank = f.rank ∧ ixOf e.k ≤ ixOf f.k)) ∧
      let t := takeStop s c
      let cause := BitVec.ofNat 64 (e.code + 2 ^ 8 * ixOf e.k + 2 ^ 16 * e.info.toNat)
      let x := s.ctx c
      let areas := s.reach c [⟨x.tadp, 0x3100, .write⟩, ⟨x.tsave, 0x1000, .write⟩]
      (x.depth = 0 → x.tvec ≠ 0 → areas.2 = false → t = areas.1.mapCore c (fun y => { y with halted := true })) ∧
      ((x.depth = 0 → x.tvec ≠ 0 → areas.2 = true) →
        ∀ f ∈ (s.core c).stops, (f.rank = 1 ∨ (f.rank = 3 ∧ (f.code = 0x15 ∨ f.code = 0x08))) → f ≠ e → f ∈ (t.ctx c).held) ∧
      (x.depth = 0 → x.tvec ≠ 0 → areas.2 = true →
        (t.ctx c).depth = 1 ∧ (t.ctx c).tcause = cause ∧ (t.ctx c).tval = e.tval ∧
        (t.str c .s).pc = x.tvec ∧ (t.str c .s).lc0 = 0 ∧ (t.str c .s).lc1 = 0 ∧ (t.str c .s).running = true ∧
        (∀ b, (t.str c .s).sst.getLsbD b = ((s.str c .s).sst.getLsbD b && !(decide (10 ≤ b) && decide (b ≤ 15)))) ∧
        (∀ r, t.rd c .s r = s.rd c .s r) ∧ (∀ k, k ≠ .s → (t.str c k).running = false ∧ ∀ r, t.rd c k r = s.rd c k r) ∧
        (t.core c).ops = [] ∧ (t.core c).mxq = [] ∧ (t.core c).lq = [] ∧ (t.core c).wq = [] ∧ (t.core c).stops = [] ∧
        ∀ d, d ≠ c → t.str d = s.str d) ∧
      (x.depth = 0 → x.tvec = 0 → (t.core c).removal = some ((s.core c).removal.getD (cause &&& 0xFFFFFF#64)) ∧ (t.ctx c).depth = 0) ∧
      (x.depth = 1 → (t.core c).nested = some (match (s.core c).nested with | some f => if e.rank = 3 then e else f | none => e) ∧
        (t.ctx c).depth = 1 ∧ (t.core c).stops = []) ∧
      (2 ≤ x.depth → (t.core c).removal = some ((s.core c).removal.getD (cause &&& 0xFFFFFF#64)))

namespace Sys2Proof.Machine

/-- The 64-bit word at an offset of an area read from memory. -/
def AreaWord (b : List Byte) (o : Nat) : Word := BitVec.ofNat 64 (NumberOf ((b.drop o).take 8))

/-- A strand holds what a strand block says (R130): bit 0 of its STATE says that it was started, bit 1 that it runs, bit 2 that it is
at its exit. -/
def HoldsBlock (t : State) (c : Nat) (k : StrandIx) (b : List Byte) (o : Nat) : Prop :=
  let u := t.str c k
  let st := AreaWord b (o + 0x58)
  (st.getLsbD 0 = false → u.running = false ∧ u.started = false) ∧
  (st.getLsbD 0 = true → u.pc = AreaWord b o ∧ u.sst = AreaWord b (o + 8) ∧
    u.sgn = (if AreaWord b (o + 0x10) = 0 then 1 else AreaWord b (o + 0x10)) ∧
    u.pend = (AreaWord b (o + 0x50)).setWidth 32 ∧ u.ls0 = AreaWord b (o + 0x18) ∧
    u.le0 = AreaWord b (o + 0x20) ∧ u.lc0 = (AreaWord b (o + 0x28)).setWidth 32 ∧ u.ls1 = AreaWord b (o + 0x30) ∧
    u.le1 = AreaWord b (o + 0x38) ∧ u.lc1 = (AreaWord b (o + 0x40)).setWidth 32 ∧ u.running = st.getLsbD 1 ∧
    u.exiting = st.getLsbD 2 ∧ ∀ r : Reg, r ≠ 0 → t.rd c k r = AreaWord b (o + 0x100 + 8 * r.toNat))

end Sys2Proof.Machine

/-- R117, R136, R137, R128: tret at DEPTH 1 restores every strand, its issue counter and pending bits with it, from the save area and
leaves the handler, or raises TAD_FORM with the first failing offset; at DEPTH 2 it restores S from the nested frame, returns to DEPTH 1
and keeps the counter of the frame for the tret after. What the area holds is read after the handler's own results have landed. That
tret waits while a translation of an area waits, or a read of one is held on its way, is the model's (log entry 13). -/
def Obligations.TretRestoresTheStrands : Prop :=
  ∀ (s : State) (c : Nat) (y : Bool), Ready s c .s (.tret y) ⟨y, 0⟩ [.s] [] [] → (s.core c).ctx.isSome →
    let i : Instr := .tret y
    let x := s.ctx c
    let done := s.sysReleased c .s = true ∧ s.savedDone x.task = true
    let rd := s.reach c [⟨x.tadp, 0x3100, .read⟩, ⟨x.tsave, 0x1000, .read⟩, ⟨x.tsave, 8, .write⟩]
    let s0 := (landHandler rd.1 c).noteAreas c 0x3100
    let area := devRead s0 c x.tadp 0x3100
    let save := devRead s0 c x.tsave 0x1000
    let rn := s.reach c [⟨x.tsave, 0x1000, .read⟩, ⟨x.tsave, 8, .write⟩]
    let s1 := noteArea rn.1 c x.tsave 0x1000
    let frame := devRead s1 c x.tsave 0x1000
    (x.depth = 1 → ¬ done → Waits i s c) ∧
    (x.depth = 1 → done → rd.2 = false → exec i s = .next (endTurn rd.1 c)) ∧
    (x.depth = 1 → done → rd.2 = true → ∀ v, tretVal s0 c area save = some v → RaisesAfter i s c .s 0x0D v) ∧
    (x.depth = 1 → done → rd.2 = true → tretVal s0 c area save = none →
      ∃ t, exec i s = .next (endTurn t c) ∧ (t.ctx c).depth = 0 ∧
        (∀ k, let o := 0x100 + 0x200 * ixOf k
          HoldsBlock t c k save o ∧ ((AreaWord save (o + 0x58)).getLsbD 0 = true → (t.str c k).ic = (AreaWord save (o + 0x48)).toNat)) ∧
        (t.core c).stops = (s0.core c).stops ++ x.held.take 1 ∧ (t.ctx c).held = x.held.drop 1 ∧ ∀ d, d ≠ c → t.str d = s.str d) ∧
    (x.depth = 2 → rn.2 = false → exec i s = .next (endTurn rn.1 c)) ∧
    (x.depth = 2 → rn.2 = true → ∀ o, nestedBad s1 c frame = some o → RaisesAfter i s c .s 0x0D (BitVec.ofNat 64 (o + 0x10000))) ∧
    (x.depth = 2 → rn.2 = true → AreaWord frame 0 ≠ 2 → RaisesAfter i s c .s 0x0D 0x10000) ∧
    (x.depth = 2 → rn.2 = true → nestedBad s1 c frame = none →
      ∃ t, exec i s = .next (endTurn t c) ∧ (t.ctx c).depth = 1 ∧ HoldsBlock t c .s frame 0x900 ∧
        (t.ctx c).ichold = (AreaWord frame 0x948).toNat ∧
        (t.ctx c).tcause = AreaWord frame 8 ∧ (t.ctx c).tval = AreaWord frame 16 ∧
        (∀ k, k ≠ .s → t.str c k = (landHandler s1 c).str c k) ∧ ∀ d, d ≠ c → t.str d = s.str d)

/-! ### Vector words -/

namespace Sys2Proof.Machine

/-- The vector words with one result for each element, of two, of one or of three source elements (R174 to R179). -/
def Elementwise (i : Instr) (v : VWord) : Prop :=
  i = .vadd v ∨ i = .vsub v ∨ i = .vmul v ∨ i = .vfma v ∨ i = .vfms v ∨ i = .vmin v ∨ i = .vmax v ∨ i = .vabs v ∨ i = .vneg v ∨
  i = .vand v ∨ i = .vor v ∨ i = .vxor v ∨ i = .vshl v ∨ i = .vshr v ∨ i = .vsra v ∨ i = .vcmpEq v ∨ i = .vcmpLt v ∨ i = .vcmpLe v ∨
  i = .vsel v ∨ i = .vcvt v ∨ i = .vrecip v ∨ i = .vrsqrt v ∨ i = .vsqrt v ∨ i = .vexp2 v ∨ i = .vlog2 v ∨ i = .vdiv v ∨ i = .vcopy v

/-- The reductions, and the words that index, count, pack and unpack (R180 to R182). -/
def Folding (i : Instr) (v : VWord) : Prop := i = .vredSum v ∨ i = .vredMax v ∨ i = .vredMin v ∨ i = .vdot v
def Arranging (i : Instr) (v : VWord) : Prop := i = .vperm v ∨ i = .viota v ∨ i = .vmxpack v ∨ i = .vmxunpack v

/-- The element count of a vector word in a state (R41), and the operands it addresses (R168). -/
def CountOf (s : State) (c : Nat) (v : VWord) : Nat :=
  if v.vlg then (s.rd c .c (v.vlen.extractLsb' 0 5)).toNat else v.vlen.toNat + 1
def LayoutOf (s : State) (c : Nat) (i : Instr) (v : VWord) : VLay :=
  vlay (vkind i) v (CountOf s c v) (s.rd c .c v.d.base) (s.rd c .c v.a.base) (if (vbases i v).length = 3 then s.rd c .c v.b.base else 0)
def OperandsOf (l : VLay) : List VArr := [l.d, l.a] ++ l.b.toList

/-- The element of an operand lies in the scratch region, R169. -/
def VArr.Fits (o : VArr) (scrsize j : Nat) : Prop := 0 ≤ o.at' j ∧ o.at' j + o.z ≤ scrsize

/-- A vector word of C is ready: it can issue, its features are active, its count is in range, no interlocked group and no matrix
word is under way, the input stage is free, and no other word draws from the generator it needs (R172, R173, R184). -/
structure VectorReady (s : State) (c : Nat) (i : Instr) (v : VWord) : Prop where
  ready    : Ready s c .c i v.n [.c] (vbases i v ++ if v.vlg then [v.vlen.extractLsb' 0 5] else []) []
  features : ∀ e ∈ vfeat i v, s.feat (s.ctx c).vf e.1 = true
  room     : (s.core c).records < 64
  bound    : CountOf s c v ≤ 1024
  blocks   : (i = .vmxpack v ∨ i = .vmxunpack v) → CountOf s c v % 32 = 0
  groups   : (s.core c).vbusy = false
  matrix   : (s.core c).mxq = []
  stage    : (s.core c).vstage ≤ s.clock
  draws    : (s.core c).drawing = false

/-- Every operand lies in the scratch region and is aligned; in fault mode every byte that is read has been written (R156, R187). -/
def OperandsFit (s : State) (c : Nat) (i : Instr) (v : VWord) : Prop :=
  let l := LayoutOf s c i v
  (∀ o ∈ OperandsOf l, (∀ j < o.m, o.Fits (s.ctx c).scrsize j) ∧ o.x0 % o.al = 0) ∧
  ((s.ctx c).scrmode = 2 → ∀ o ∈ [l.a] ++ l.b.toList ++ (if vkind i = .three then [l.d] else []), ∀ j < o.m,
    (s.core c).unwritten (o.at' j).toNat o.z = [])

/-- The rounding mode a word resolves at issue (R60), and the STO bits of its roundings (R64, R184). -/
def ModeOf (s : State) (c : Nat) (v : VWord) : Nat :=
  if v.rm = 6 then ((s.str c .c).sst.extractLsb' 0 3).toNat else v.rm.toNat
def DrawsOf (s : State) (c : Nat) (i : Instr) (v : VWord) : Word × List Nat :=
  stoDraw (s.str c .c).sgn (vsteps i v (CountOf s c v) (ModeOf s c v))

/-- The word issues with an operation in flight that satisfies `body`; its generator has made its steps, and no register, status,
byte of memory or of the scratchpad and no other strand or core has changed. -/
def VectorStarts (i : Instr) (v : VWord) (s : State) (c : Nat) (body : Op → Prop) : Prop :=
  ∃ t o, exec i s = .next (endTurn t c) ∧ Issued s t c .c i v.n (s.core c).took ∧ FallsThrough (s.str c .c) t c .c i ∧
    KeepsRegs s t c .c [] ∧ (t.core c).ops = (s.core c).ops ++ [o] ∧ o.k = .c ∧ o.ord = (s.core c).nord ∧
    o.seq = (s.str c .c).ic + 1 ∧ o.op0 = s.rd c .c v.d.base ∧ o.op1 = s.rd c .c v.a.base ∧ o.prog = 0 ∧
    (t.str c .c).sst = (s.str c .c).sst ∧ (t.str c .c).sgn = (DrawsOf s c i v).1 ∧ (t.core c).scr = (s.core c).scr ∧
    t.mem = s.mem ∧ (∀ j, j ≠ .c → t.str c j = s.str c j) ∧ (∀ e, e ≠ c → t.core e = s.core e) ∧ body o

/-- Element j of an operand, as strand C samples it. -/
def SampleOf (s : State) (c : Nat) (o : VArr) (j : Nat) : Nat := NumberOf ((s.core c).scrRead .c (o.at' j).toNat o.z)

/-- The landing issue cycle of group g of a word whose first group has latency `lat`: interlocked beyond latency 40 (R20, R21). -/
def LandsAt (s : State) (c lat g : Nat) : Nat := if 40 < lat + g then 0 else (s.str c .c).ic + lat + g

/-- The results of a word in groups of `gsz` elements: group g lands its elements' bytes and raises their flags. -/
def LandsElements (s : State) (c : Nat) (i : Instr) (v : VWord) (lat : Nat) (val : Nat → Nat × Flags) (o : Op) : Prop :=
  let n := CountOf s c v
  let d := (LayoutOf s c i v).d
  let gsz := vgroup (vkind i) v
  ∃ gs, o.body = .vec gs ∧ gs.length = (n + gsz - 1) / gsz ∧ ∀ g q, gs[g]? = some q →
    let js := (List.range n).filter (fun j => j / gsz == g)
    q.at' = LandsAt s c lat g ∧ q.fault = none ∧ q.writes = js.map (fun j => ((d.at' j).toNat, leBytes d.z (val j).1)) ∧
    q.flags = js.foldl (fun f j => f ||| (val j).2) 0

end Sys2Proof.Machine

/-- R168 to R173, R20, R184: a vector word with one result for each element samples its operands at issue and lands its results in
groups, with the bytes and flags of its element function; a count of 0 changes nothing; the first operand in the order D, A, B that
leaves the region or is misaligned faults. -/
def Obligations.ElementwiseVectorWordsLandTheirElements : Prop :=
  ∀ (s : State) (c : Nat) (i : Instr) (v : VWord), Elementwise i v → VectorReady s c i v →
    (CountOf s c v = 0 → LeavesCore i v.n s c .c (s.core c) (s.ctx c)) ∧
    (0 < CountOf s c v → OperandsFit s c i v → VectorStarts i v s c (LandsElements s c i v
      (if i = .vrecip v ∨ i = .vrsqrt v ∨ i = .vsqrt v ∨ i = .vexp2 v ∨ i = .vlog2 v ∨ i = .vdiv v then 14 else 6) (fun j =>
        let l := LayoutOf s c i v
        elemE i v.et.toNat (v.b.str.toNat % 16) (ModeOf s c v) ((DrawsOf s c i v).2.getD j 0) ((s.str c .c).sst.getLsbD 3)
          (SampleOf s c l.a j) (match l.b with | some b => SampleOf s c b j | none => 0)
          (if i = .vfma v ∨ i = .vfms v ∨ i = .vsel v then SampleOf s c l.d j else 0)))) ∧
    (0 < CountOf s c v → ∀ p o q, OperandsOf (LayoutOf s c i v) = p ++ o :: q →
      (∀ e ∈ p, (∀ j < e.m, e.Fits (s.ctx c).scrsize j) ∧ e.x0 % e.al = 0) →
      (∀ j < o.m, (∀ h < j, o.Fits (s.ctx c).scrsize h) → ¬ o.Fits (s.ctx c).scrsize j → Raises i s c .c 0x06 (Wrap64 (o.at' j))) ∧
      ((∀ j < o.m, o.Fits (s.ctx c).scrsize j) → o.x0 % o.al ≠ 0 → Raises i s c .c 0x07 (BitVec.ofNat 64 o.x0)))

namespace Sys2Proof.Machine

/-- An integer element's value, by its type code (R42, R51), and Sat of a result to the type. -/
def IntOf (et x : Nat) : Int := if et % 2 = 0 then (BitVec.ofNat (8 * etSize et) x).toInt else (BitVec.ofNat (8 * etSize et) x).toNat
def SatTo (et : Nat) (x : Int) : Nat :=
  let w := 8 * etSize et
  let lo : Int := if et % 2 = 0 then -(2 ^ (w - 1)) else 0
  let hi : Int := if et % 2 = 0 then 2 ^ (w - 1) - 1 else 2 ^ w - 1
  (BitVec.ofInt w (if x < lo then lo else if hi < x then hi else x)).toNat

end Sys2Proof.Machine

/-- R174 to R178, R181: on the integer types the element functions are exact results saturated to the type, bitwise operations, shifts
with zeros or the sign beyond the width, compares with all ones or zero, and selections; no flag is raised. -/
def Obligations.IntegerElementsFollowR174ToR178 : Prop :=
  ∀ (v : VWord) (et src mode r a b d : Nat) (ftz : Bool), et ≤ 6 →
    let w := 8 * etSize et
    a < 2 ^ w → b < 2 ^ w → d < 2 ^ w →
    let x := IntOf et a
    let y := IntOf et b
    let z := IntOf et d
    let e (i : Instr) : Nat × Flags := elemE i et src mode r ftz a b d
    e (.vadd v) = (SatTo et (x + y), 0) ∧ e (.vsub v) = (SatTo et (x - y), 0) ∧ e (.vmul v) = (SatTo et (x * y), 0) ∧
    e (.vfma v) = (SatTo et (x * y + z), 0) ∧ e (.vfms v) = (SatTo et (x * y - z), 0) ∧
    e (.vmin v) = (if x ≤ y then a else b, 0) ∧ e (.vmax v) = (if x ≤ y then b else a, 0) ∧
    e (.vabs v) = (SatTo et (if x < 0 then -x else x), 0) ∧ e (.vneg v) = (SatTo et (-x), 0) ∧
    (∀ k, (e (.vand v)).1.testBit k = (a.testBit k && b.testBit k)) ∧ (∀ k, (e (.vor v)).1.testBit k = (a.testBit k || b.testBit k)) ∧
    (∀ k, (e (.vxor v)).1.testBit k = (a.testBit k != b.testBit k)) ∧
    e (.vshl v) = (if b < w then a * 2 ^ b % 2 ^ w else 0, 0) ∧ e (.vshr v) = (if b < w then a / 2 ^ b else 0, 0) ∧
    e (.vsra v) = (((BitVec.ofNat w a).sshiftRight b).toNat, 0) ∧
    e (.vcmpEq v) = (if x = y then 2 ^ w - 1 else 0, 0) ∧ e (.vcmpLt v) = (if x < y then 2 ^ w - 1 else 0, 0) ∧
    e (.vcmpLe v) = (if x ≤ y then 2 ^ w - 1 else 0, 0) ∧ e (.vsel v) = (if d = 0 then b else a, 0) ∧ e (.vcopy v) = (a, 0) ∧
    (src ≤ 6 → a < 2 ^ (8 * etSize src) → e (.vcvt v) = (SatTo et (IntOf src a), 0)) ∧
    ∀ k, iotaE et mode r ftz a b k = (SatTo et (x + k * y), 0)

namespace Sys2Proof.Machine

/-- The real number of a value that is neither NaN nor infinite. -/
def RealOf : Fv → Option ℚ
  | .num s m e => some ((if s then -1 else 1) * m * (2 : ℚ) ^ e)
  | _ => none

/-- The infinite cases of a sum of two terms, of which neither is NaN (R55, R174): opposite infinities are invalid, and otherwise the
sum is the infinity. -/
def InfSum (F : Fmt) (p z : Fv) (res : Nat × Flags) : Prop :=
  (∀ t, p = .inf t → z = .inf (!t) → res = (F.qnan, flNV)) ∧ (∀ t, p = .inf t → z ≠ .nan → z ≠ .inf (!t) → res = (F.infBits t, 0)) ∧
  ∀ t u, z = .inf t → RealOf p = some u → res = (F.infBits t, 0)

/-- The choice of the neighbour away from zero, by mode (R60, R64): s the sign, lo the neighbour toward zero in places, t the discarded
part in places, r the STO bits. -/
def RoundsUp (mode r : Nat) (s : Bool) (lo : Nat) (t : ℚ) : Prop :=
  t ≠ 0 ∧ ((mode = 0 ∧ (1 / 2 < t ∨ (t = 1 / 2 ∧ lo % 2 = 1))) ∨ (mode = 2 ∧ s = false) ∨ (mode = 3 ∧ s = true) ∨
    (mode = 4 ∧ 1 / 2 ≤ t) ∨ (mode = 5 ∧ 2 ^ 16 ≤ ⌊t * 2 ^ 16⌋ + r))

/-- R60 to R64, R56: what roundFv makes of a finite value of magnitude x. Its neighbours are lo and lo + 1 in units of the last place,
t is the discarded part in places, and the mode chooses between them; a result beyond the largest finite number overflows, by the table
of R62 to the infinity or to the code below it; NX says inexact, UF inexact and subnormal, and FTZ flushes a nonzero subnormal result. -/
def RoundingFollowsR60ToR64 : Prop :=
  ∀ (F : Fmt) (mode r : Nat) (ftz s : Bool) (m : Nat) (e : Int), (F = bf16 ∨ F = f32 ∨ F = f64) → mode ≤ 5 → r < 2 ^ 16 →
    let x : ℚ := m * (2 : ℚ) ^ e
    let y := roundFv F mode r ftz (.num s m e)
    (m = 0 → y = (F.zeroBits s, 0)) ∧
    ∀ (E : Int) (lo M : Nat), (2 : ℚ) ^ E ≤ x → x < (2 : ℚ) ^ (E + 1) →
      let u : ℚ := (2 : ℚ) ^ (max E F.emin - F.p + 1)
      let t := x / u - lo
      0 ≤ t → t < 1 → (RoundsUp mode r s lo t → M = lo + 1) → (¬ RoundsUp mode r s lo t → M = lo) →
      let z : ℚ := M * u
      let top : ℚ := (2 ^ F.p - 1) * (2 : ℚ) ^ (F.emax - F.p + 1)
      let tiny := 0 < z ∧ z < (2 : ℚ) ^ F.emin
      (top < z → y = (if mode = 1 ∨ (mode = 2 ∧ s = true) ∨ (mode = 3 ∧ s = false) then F.infBits s - 1 else F.infBits s, flOF ||| flNX)) ∧
      (z ≤ top → ftz = true → tiny → y = (F.zeroBits s, flUF ||| flNX)) ∧
      (z ≤ top → ¬ (ftz = true ∧ tiny) →
        y.2 = (if t ≠ 0 then flNX else 0) ||| (if t ≠ 0 ∧ tiny then flUF else 0) ∧ y.1 < 2 ^ F.bits ∧
        ∃ n g, readF F false y.1 = (.num s n g, false) ∧ n * (2 : ℚ) ^ g = z)

/-- R54, R55, R67, R174: vadd, vsub, vmul, vfma and vfms of finite elements round the exact result once, an exact zero with the sign of
R67; the exact result of infinities is an infinity; a NaN element and an invalid operation give the default NaN, and NV is raised by a
signalling NaN and by an invalid operation. -/
def FloatElementsFollowR174 : Prop :=
  ∀ (v : VWord) (et src mode r a b d : Nat) (ftz : Bool), 7 ≤ et → et ≤ 9 →
    let F := fmtOf et
    let x := readF F ftz a
    let y := readF F ftz b
    let z := readF F ftz d
    let sx := a.testBit (F.bits - 1)
    let sy := b.testBit (F.bits - 1)
    let sz := d.testBit (F.bits - 1)
    let e (i : Instr) : Nat × Flags := elemE i et src mode r ftz a b d
    let rounds (i : Instr) (f : ℚ) (sg : Bool) : Prop :=
      ∃ q, RealOf q = some f ∧ (f = 0 → signFv q = sg) ∧ e i = roundFv F mode r ftz q
    let infX := ∃ t, x.1 = .inf t
    let infY := ∃ t, y.1 = .inf t
    let bad := (infX ∧ RealOf y.1 = some 0) ∨ (RealOf x.1 = some 0 ∧ infY)
    let big := (infX ∧ y.1 ≠ .nan ∧ RealOf y.1 ≠ some 0) ∨ (infY ∧ x.1 ≠ .nan ∧ RealOf x.1 ≠ some 0)
    (∀ p q, RealOf x.1 = some p → RealOf y.1 = some q →
      rounds (.vadd v) (p + q) (if p = 0 ∧ q = 0 ∧ sx = sy then sx else decide (mode = 3)) ∧
      rounds (.vsub v) (p - q) (if p = 0 ∧ q = 0 ∧ sx ≠ sy then sx else decide (mode = 3)) ∧
      rounds (.vmul v) (p * q) (sx != sy) ∧
      (∀ u, RealOf z.1 = some u →
        rounds (.vfma v) (p * q + u) (if p * q = 0 ∧ u = 0 ∧ (sx != sy) = sz then sz else decide (mode = 3)) ∧
        rounds (.vfms v) (p * q - u) (if p * q = 0 ∧ u = 0 ∧ (sx != sy) ≠ sz then sx != sy else decide (mode = 3))) ∧
      (∀ t, z.1 = .inf t → e (.vfma v) = (F.infBits t, 0) ∧ e (.vfms v) = (F.infBits (!t), 0))) ∧
    InfSum F x.1 y.1 (e (.vadd v)) ∧ InfSum F x.1 (negFv y.1) (e (.vsub v)) ∧
    (bad → e (.vmul v) = (F.qnan, flNV)) ∧ (big → e (.vmul v) = (F.infBits (sx != sy), 0)) ∧
    (z.1 ≠ .nan → (bad → e (.vfma v) = (F.qnan, flNV) ∧ e (.vfms v) = (F.qnan, flNV)) ∧
      (big → InfSum F (.inf (sx != sy)) z.1 (e (.vfma v)) ∧ InfSum F (.inf (sx != sy)) (negFv z.1) (e (.vfms v)))) ∧
    ((x.1 = .nan ∨ y.1 = .nan) → ∀ i, (i = .vadd v ∨ i = .vsub v ∨ i = .vmul v) →
      e i = (F.qnan, if x.2 ∨ y.2 then flNV else 0)) ∧
    ((x.1 = .nan ∨ y.1 = .nan ∨ z.1 = .nan) → ∀ i, (i = .vfma v ∨ i = .vfms v) →
      e i = (F.qnan, if x.2 ∨ y.2 ∨ z.2 ∨ bad then flNV else 0))

end Sys2Proof.Machine

/-- R54 to R56, R60 to R64, R67, R174: on the float types vadd, vsub, vmul, vfma and vfms round the exact result once, and what that
rounding is in each mode; zeros, infinities, NaN and invalid operations. -/
def Obligations.FloatElementsRoundTheExactResult : Prop := RoundingFollowsR60ToR64 ∧ FloatElementsFollowR174

/-- R170, R180 to R182: vredsum, vredmax, vredmin and vdot land one result with latency 12 counted from their last group; vperm, viota
and vmxunpack land an element for each, vmxpack its blocks and their scales. -/
def Sys2Proof.Machine.FoldingAndArrangingVectorWordsLandTheirResults : Prop :=
  ∀ (s : State) (c : Nat) (i : Instr) (v : VWord), VectorReady s c i v → 0 < CountOf s c v → OperandsFit s c i v →
    let n := CountOf s c v
    let l := LayoutOf s c i v
    let b := l.b.getD l.a
    let ftz := (s.str c .c).sst.getLsbD 3
    let mode := ModeOf s c v
    let rs := (DrawsOf s c i v).2
    let gsz := vgroup (vkind i) v
    (Folding i v → VectorStarts i v s c (fun o =>
      let as := (List.range n).map (SampleOf s c l.a)
      let bs := if i = .vdot v then (List.range n).map (SampleOf s c b) else []
      let e := reduceE i v mode ftz rs as bs
      ∃ q, o.body = .vec [q] ∧ q.at' = LandsAt s c 12 ((n + gsz - 1) / gsz - 1) ∧ q.fault = none ∧
        q.writes = [(l.d.x0, leBytes l.d.z e.1)] ∧ q.flags = e.2)) ∧
    (i = .vperm v → VectorStarts i v s c (LandsElements s c i v 6 (fun j =>
      (if SampleOf s c b j < n then SampleOf s c l.a (SampleOf s c b j) else 0, 0)))) ∧
    (i = .viota v → VectorStarts i v s c (LandsElements s c i v 6 (fun j =>
      iotaE v.et.toNat mode (rs.getD j 0) ftz (SampleOf s c l.a 0) (SampleOf s c b 0) j))) ∧
    (i = .vmxunpack v → VectorStarts i v s c (LandsElements s c i v 6 (fun j =>
      let w := mxfW v.a.str
      let code := NumberOf ((s.core c).scrRead .c (l.a.x0 + 4 * w * (j / 32)) (4 * w)) / 2 ^ (w * (j % 32)) % 2 ^ w
      unpackE v.et.toNat w (mxfF v.a.str) (mxfSigned v.a.str) mode (rs.getD j 0) ftz code (SampleOf s c b (j / 32))))) ∧
    (i = .vmxpack v → VectorStarts i v s c (fun o => ∃ gs, o.body = .vec gs ∧ (∀ q ∈ gs, q.fault = none) ∧
      let w := mxfW v.d.str
      gs.flatMap (·.writes) = (List.range (n / 32)).flatMap (fun q =>
        let xs := (List.range 32).map (fun j => (readF (fmtOf v.et.toNat) ftz (SampleOf s c l.a (32 * q + j))).1)
        let p := mxScale w (mxfF v.d.str) (mxfSigned v.d.str) mode xs (if rs = [] then [] else (List.range 32).map (fun j => rs.getD (32 * q + j) 0))
        [(l.d.x0 + 4 * w * q, leBytes (4 * w) (p.2.1.foldr (fun a m => a + m * 2 ^ w) 0)), ((b.at' q).toNat, leBytes 1 p.1)])))

/-- R180: on the integer types vredsum and vdot are the exact sum, of the elements or of their products, saturated to the type of the
result, which is s64 in the wide form; vredmax and vredmin are the largest and the smallest element. -/
def Obligations.IntegerReductionsFollowR180 : Prop :=
  ∀ (v : VWord) (mode : Nat) (ftz : Bool) (rs as bs : List Nat), v.et.toNat ≤ 6 → as ≠ [] → bs.length = as.length →
    let et := v.et.toNat
    let rt := if v.d.str = 1 then 6 else et
    (∀ a ∈ as, a < 2 ^ (8 * etSize et)) → (∀ b ∈ bs, b < 2 ^ (8 * etSize et)) →
    reduceE (.vredSum v) v mode ftz rs as [] = (SatTo rt (as.map (IntOf et)).sum, 0) ∧
    reduceE (.vdot v) v mode ftz rs as bs = (SatTo rt ((as.zip bs).map (fun p => IntOf et p.1 * IntOf et p.2)).sum, 0) ∧
    (∃ m ∈ as, reduceE (.vredMax v) v mode ftz rs as [] = (m, 0) ∧ ∀ a ∈ as, IntOf et a ≤ IntOf et m) ∧
    ∃ m ∈ as, reduceE (.vredMin v) v mode ftz rs as [] = (m, 0) ∧ ∀ a ∈ as, IntOf et m ≤ IntOf et a

/-- R183: vseed sets the generator of C from its two registers, 0 stored as 1, once no vector word in flight draws from it. -/
def Sys2Proof.Machine.VseedSetsTheGenerator : Prop :=
  ∀ (s : State) (c : Nat) (v : VWord), Ready s c .c (.vseed v) v.n [.c] [v.a.base, v.b.base] [] →
    ((s.core c).drawing = true → Waits (.vseed v) s c) ∧
    ((s.core c).drawing = false →
      let x := s.rd c .c v.a.base ^^^ Wrap64 ((s.rd c .c v.b.base).toNat * 0x9E3779B97F4A7C15)
      Leaves (.vseed v) v.n s c .c { s.str c .c with sgn := if x = 0 then 1 else x } (s.core c) (s.ctx c))

/-- The vector words that fold or arrange elements land their results; vseed sets the generator. -/
def Obligations.FoldingArrangingAndSeedWordsFollowR180 : Prop :=
  FoldingAndArrangingVectorWordsLandTheirResults ∧ VseedSetsTheGenerator

/-! ### Matrix words and the matrix unit -/

namespace Sys2Proof.Machine

/-- A matrix word enters the queue (R198): its base, its entry and the entry's value, and the cycles it makes in its pipe. -/
def EntersQueue (i : Instr) (m : MWord) (s : State) (c : Nat) (base : Word) (ent : Nat) (v : Word) (total : Nat) : Prop :=
  let x := s.core c
  LeavesCore i m.n s c .c { x with mxq := x.mxq ++ [{ ord := x.nord, seq := (s.str c .c).ic + 1, img := i, base := base, ent := ent
                                                      entv := v, prog := 0, total := total }] } (s.ctx c)

/-- A word of the queue that reads the base register, with its faults and its waits: eight words stand in the queue, or an earlier
word of C has yet to write or read bytes that it reads or writes (R200, R219). -/
def QueuesBy (i : Instr) (m : MWord) (s : State) (c : Nat) (ent : Nat) (v : Word) (total : Nat) (check : Option (Nat × Word)) : Prop :=
  let base := s.rd c .c m.abase
  (∀ e, check = some e → Raises i s c .c e.1 e.2) ∧
  (check = none → mxWaits (s.core c) i base v = true → Waits i s c) ∧
  (check = none → mxWaits (s.core c) i base v = false → EntersQueue i m s c base ent v total)

/-- M and N of a matrix word, R44, and its entry, R45. -/
def RowsOf (m : MWord) : Nat := 16 * 2 ^ m.mc.toNat
def ColsOf (m : MWord) : Nat := 16 * (m.nf.toNat + 1)
def EntryOf (s : State) (c : Nat) (m : MWord) : Nat :=
  let b := (m.fsel.extractLsb' 0 4).toNat
  if m.fsel.getLsbD 5 = false then b
  else if m.fsel.getLsbD 4 then (b + (s.str c .c).lc1.toNat) % 16 else (b + (s.str c .c).lc0.toNat) % 16

end Sys2Proof.Machine

/-- R198 to R203, R214 to R220: the words of the matrix queue make their checks, wait while the queue is full or the bytes of another
word are in the way, and enter the queue with their base, their resolved entry and the cycles of their pipe. -/
def Sys2Proof.Machine.MatrixWordsEnterTheQueue : Prop :=
  ∀ (s : State) (c : Nat) (m : MWord), (s.core c).records < 64 →
    let x := s.core c
    let base := s.rd c .c m.abase
    let ent := EntryOf s c m
    let v := Tab.get 0 x.ft ent
    let live := (descsLeft x.live.desc x.shadow.desc x.mxq).1
    let narrow := s.feat (s.ctx c).vf 1
    let early := decide ((s.die (dieOf c)).st = .early)
    let size := (s.ctx c).scrsize
    let mn := RowsOf m * ColsOf m
    (∀ i, (i = .mxstat m ∨ i = .mxstatT m) → Ready s c .c i m.n [.c] [m.abase] [] →
      QueuesBy i m s c ent v (loadCycles m v) (mxCheck i m base ent v narrow early live size)) ∧
    (Ready s c .c (.mxstream m) m.n [.c] [m.abase] [] →
      QueuesBy (.mxstream m) m s c ent v (mn / 32) (mxCheck (.mxstream m) m base ent v narrow early live size)) ∧
    (∀ i, (i = .mxread m ∨ i = .mxwrite m) → Ready s c .c i m.n [.c] [m.abase] [] →
      (i = .mxread m → m.dt = 10 → mxfW m.mxf < 8 → narrow = true) → QueuesBy i m s c 0 0 (mn / 32) (bankCheck i m base size)) ∧
    (∀ i, (i = .mxreadFlags m ∨ i = .mxwriteFlags m) → Ready s c .c i m.n [.c] [m.abase] [] →
      QueuesBy i m s c 0 0 1 (bankCheck i m base size)) ∧
    (Ready s c .c (.mxclear m) m.n [.c] [] [] → QueuesBy (.mxclear m) m s c 0 0 (mn / 256) (bankCheck (.mxclear m) m base size)) ∧
    (∀ i, (i = .mxclearAll m ∨ i = .mxclearAllFlags m) → Ready s c .c i m.n [.c] [] [] → QueuesBy i m s c 0 0 64 none) ∧
    (Ready s c .c (.mxclearFlags m) m.n [.c] [] [] → QueuesBy (.mxclearFlags m) m s c 0 0 1 none) ∧
    ∀ i, (i = .mxflip m ∨ i = .mxswap m) → Ready s c .c i m.n [.c] [] [] → QueuesBy i m s c 0 0 0 none

/-- R208: mxfmt waits until the matrix queue is empty and then writes the entry its selector names with the register's value. -/
def Sys2Proof.Machine.MxfmtWritesItsEntry : Prop :=
  ∀ (s : State) (c : Nat) (m : MWord), Ready s c .c (.mxfmt m) m.n [.c] [m.abase] [] →
    ((s.core c).mxq ≠ [] → Waits (.mxfmt m) s c) ∧
    ((s.core c).mxq = [] → ∃ t, Passes (.mxfmt m) m.n s t c .c [] ∧ t.mem = s.mem ∧
      Tab.get 0 (t.core c).ft (EntryOf s c m) = s.rd c .c m.abase ∧
      ∀ e, e ≠ EntryOf s c m → Tab.get 0 (t.core c).ft e = Tab.get 0 (s.core c).ft e)

/-- Every queue word of the matrix unit checks its operands and enters the queue; mxfmt writes its format entry. -/
def Obligations.MatrixWordsFollowTheirRules : Prop :=
  MatrixWordsEnterTheQueue ∧ MxfmtWritesItsEntry

namespace Sys2Proof.Machine

/-- An event of the matrix unit acts in the turn of a core that is alive: its turn is over and that core alone changes. -/
def UnitEvent (i : Instr) (s : State) (c : Nat) (rest : List Turn) (y : Core) : Prop :=
  ∃ cs, exec i s = .next { s with cores := cs, agenda := rest } ∧ Tab.get {} cs c = y ∧ ∀ e, e ≠ c → Tab.get {} cs e = s.core e

/-- One read cycle of a matrix word: of the granules it has yet to read, those of elements first, it reads `n`, or all that are left,
which of them being free (log entry 15), and the core is left as `f` makes it of the word that has their bytes. -/
def ReadsPart (i : Instr) (s : State) (c : Nat) (rest : List Turn) (o : MxOp) (n : Nat) (f : MxOp → Core) : Prop :=
  let el := o.left.filter (fun g => (elemGrans o.img o.base o.entv).contains g)
  let pool := if el.isEmpty then o.left else el
  ∃ gs later, List.Perm (gs ++ later) pool ∧ gs.length = min n pool.length ∧
    let l := o.left.filter (fun g => !gs.contains g)
    ∃ cs k, exec i s = .next { s with cores := cs, free := k, agenda := rest } ∧
      Tab.get {} cs c = f { o with todo := some l, read := l.isEmpty
                                   aby := sampleSpans (s.core c).scr o.aby (gs.map (fun g => (16 * g, 16))) } ∧
      ∀ e, e ≠ c → Tab.get {} cs e = s.core e

/-- The queue without a word, and with one word changed. -/
def Without (x : Core) (o : MxOp) : List MxOp := x.mxq.filter (fun p => p.ord != o.ord)
def Changed (x : Core) (o p : MxOp) : List MxOp := x.mxq.map (fun q => if q.ord = o.ord then p else q)

end Sys2Proof.Machine

/-- R193, R195, R199, R201, R204: the load pipe makes one cycle at a time of the oldest load, in each of which it reads eight granules of
16 bytes, elements before scales; it has its plane with the last of them, and completes it four cycles later with the shadow plane valid;
mxflip exchanges the planes once no earlier load or unfinished stream is left. -/
def Sys2Proof.Machine.PlanesLoadAndFlipByR195AndR199 : Prop :=
  ∀ (s : State) (rest : List Turn) (c : Nat) (k : StrandIx) (j : Nat) (older younger : List MxOp) (o : MxOp),
    let x := s.core c
    x.alive = true → x.mxq = older ++ o :: younger →
    let load (p : MxOp) : Prop := ∃ m, p.img = .mxstat m ∨ p.img = .mxstatT m
    let flip (p : MxOp) : Prop := ∃ m, p.img = .mxflip m
    (s.agenda = .event c k j .planeLoad :: rest → (∀ p ∈ older, ¬ load p ∧ ¬ flip p) →
      (flip o → UnitEvent .planeLoad s c rest x) ∧
      (∀ m, (o.img = .mxstat m ∨ o.img = .mxstatT m) → o.read = false → (s.ctx c).scrmode = 0 →
        ReadsPart .planeLoad s c rest o 8 (fun p =>
          { x with shadow := { (if p.read then loadPlane p.aby o.img m o.base o.entv else x.shadow) with valid := false }
                   mxq := Changed x o { p with prog := o.prog + 1 } })) ∧
      (load o → o.read = true → o.tail < 3 → UnitEvent .planeLoad s c rest { x with mxq := Changed x o { o with tail := o.tail + 1 } }) ∧
      (load o → o.read = true → 3 ≤ o.tail → UnitEvent .planeLoad s c rest
        { x with shadow := { x.shadow with valid := true }, mxq := Without x o })) ∧
    (s.agenda = .event c k j .planeFlip :: rest → flip o → (∀ p ∈ older, ¬ flip p) →
      ((∀ p ∈ older, ¬ load p ∧ ∀ m, p.img = .mxstream m → p.total ≤ p.prog) →
        UnitEvent .planeFlip s c rest { x with live := x.shadow, shadow := x.live, mxq := Without x o }) ∧
      ((∃ p ∈ older, load p ∨ ∃ m, p.img = .mxstream m ∧ p.prog < p.total) → UnitEvent .planeFlip s c rest x))

/-- R189 to R192, R196, R197: a plane that a load has left holds, for every k and n below its size, the code at its place in the
scratchpad, row by row or, in the transposed form, column by column; and its descriptor. -/
def Sys2Proof.Machine.LoadedPlanesHoldTheirCodes : Prop :=
  ∀ (mem : Tab Byte) (m : MWord) (base v : Word) (kk nn : Nat), kk < entK v → nn < ColsOf m →
    let w := fmtWidth (fmtB v)
    let y := base.toNat + 16 * m.aoff.toNat
    let pitch (row : Nat) : Nat := if m.apitch = 0 then row else 64 * m.apitch.toNat
    let codeAt (p : Plane) : Nat := Tab.get 0 p.codes (kk * 1024 + nn)
    let bits (a i : Nat) : Nat := NumberOf (readBytes mem (a + w * i / 8) 3) / 2 ^ (w * i % 8) % 2 ^ w
    let stat := loadPlane mem (.mxstat m) m base v
    let trans := loadPlane mem (.mxstatT m) m base v
    codeAt stat = bits (y + kk * pitch (ColsOf m * w / 8)) nn ∧
    codeAt trans = bits (y + nn * pitch (entK v * w / 8)) kk ∧
    stat.bfmt = (v.extractLsb' 4 4).toNat ∧ stat.kk = entK v ∧ stat.nn = ColsOf m ∧ stat.sb = m.sb ∧
    (1 ≤ fmtB v → fmtB v ≤ 3 → kk < entK v / 32 → Tab.get 0 stat.scales (kk * 1024 + nn) =
      (Tab.get 0 mem (y + 16 * m.soff.toNat + kk * ColsOf m + nn)).toNat)

/-- R195, R199: plane loads and flips, and what a loaded plane holds. -/
def Obligations.PlanesFollowR195AndR199 : Prop :=
  PlanesLoadAndFlipByR195AndR199 ∧ LoadedPlanesHoldTheirCodes

/-- R197, R199, R216 to R218: a stream reads its bytes, eight granules in a cycle, and then adds to 32 entries of the working bank in each
array cycle; mxswap exchanges the banks; a bank word completes four cycles after its last, a clear in its last. -/
def Sys2Proof.Machine.ArrayAndBankPipesMakeTheirCycles : Prop :=
  ∀ (s : State) (rest : List Turn) (c : Nat) (k : StrandIx) (j : Nat) (older younger : List MxOp) (o : MxOp),
    let x := s.core c
    x.alive = true → x.mxq = older ++ o :: younger → (s.ctx c).scrmode = 0 →
    let flip (p : MxOp) : Prop := ∃ m, p.img = .mxflip m
    let swap (p : MxOp) : Prop := ∃ m, p.img = .mxswap m
    let stream (p : MxOp) : Prop := ∃ m, p.img = .mxstream m
    let queued (p : MxOp) : Prop := (∃ m, p.img = .mxstat m ∨ p.img = .mxstatT m) ∨ flip p ∨ stream p
    (∀ m, s.agenda = .event c k j .arrayCycle :: rest → o.img = .mxstream m → o.prog < o.total → (∀ p ∈ x.mxq, stream p → p.prog < p.total) →
      (∀ p ∈ older, ¬ stream p) →
      (o.read = false → ReadsPart .arrayCycle s c rest o 8 (fun p => { x with mxq := Changed x o p })) ∧
      (o.read = true → (∃ p ∈ older, flip p ∨ swap p) → UnitEvent .arrayCycle s c rest x) ∧
      (o.read = true → (∀ p ∈ older, ¬ flip p ∧ ¬ swap p) → ∃ b : Bank,
        UnitEvent .arrayCycle s c rest { x with work := b, mxq := Changed x o { o with prog := o.prog + 1 } } ∧
        (∀ e < 32, Tab.get 0 b.ent (m.acc.toNat + 32 * o.prog + e) =
          (streamEntry x m o (32 * o.prog + e) (Tab.get 0 x.work.ent (m.acc.toNat + 32 * o.prog + e))).1) ∧
        ∀ a, (a < m.acc.toNat + 32 * o.prog ∨ m.acc.toNat + 32 * o.prog + 32 ≤ a) → Tab.get 0 b.ent a = Tab.get 0 x.work.ent a)) ∧
    (s.agenda = .event c k j .bankExchange :: rest → swap o → (∀ p ∈ older, ¬ swap p) →
      ((∀ p ∈ older, queued p ∧ ¬ stream p) → UnitEvent .bankExchange s c rest { x with work := x.vis, vis := x.work, mxq := Without x o }) ∧
      ((∃ p ∈ older, ¬ queued p ∨ stream p) → UnitEvent .bankExchange s c rest x)) ∧
    (s.agenda = .event c k j .bankPipeCycle :: rest → ¬ queued o → (∀ p ∈ older, queued p) →
      (swap o → UnitEvent .bankPipeCycle s c rest x) ∧
      (¬ swap o → o.total ≤ o.prog → o.tail < 3 → UnitEvent .bankPipeCycle s c rest { x with mxq := Changed x o { o with tail := o.tail + 1 } }) ∧
      (¬ swap o → o.total ≤ o.prog → 3 ≤ o.tail → UnitEvent .bankPipeCycle s c rest { x with mxq := Without x o }) ∧
      (∀ m, o.img = .mxclear m → o.prog < o.total → ∃ y : Core, UnitEvent .bankPipeCycle s c rest y ∧ y.work = x.work ∧ y.scr = x.scr ∧
        y.vis.bfl = x.vis.bfl ∧ y.mxq = (if o.prog + 1 = o.total then Without x o else Changed x o { o with prog := o.prog + 1 }) ∧
        ∀ a, Tab.get 0 y.vis.ent a = if m.acc.toNat + 256 * o.prog ≤ a ∧ a < m.acc.toNat + 256 * o.prog + 256 then 0
          else Tab.get 0 x.vis.ent a) ∧
      (∀ m, (o.img = .mxclearAll m ∨ o.img = .mxclearAllFlags m) → o.prog < o.total → ∃ y : Core, UnitEvent .bankPipeCycle s c rest y ∧
        y.work = x.work ∧ y.scr = x.scr ∧ y.vis.bfl = (if o.img = .mxclearAllFlags m ∧ o.prog + 1 = o.total then 0 else x.vis.bfl) ∧
        y.mxq = (if o.prog + 1 = o.total then Without x o else Changed x o { o with prog := o.prog + 1 }) ∧
        ∀ a, Tab.get 0 y.vis.ent a = if 256 * o.prog ≤ a ∧ a < 256 * o.prog + 256 then 0 else Tab.get 0 x.vis.ent a) ∧
      (∀ m, o.img = .mxclearFlags m → o.prog = 0 → o.total = 1 →
        UnitEvent .bankPipeCycle s c rest { x with vis := { x.vis with bfl := 0 }, mxq := Without x o }))

namespace Sys2Proof.Machine

/-- The bytes of entry e of a word of the bank pipe: where they start, and how far apart its rows are (R212, R214). -/
def EntryAt (m : MWord) (base : Word) (z e : Nat) : Nat :=
  base.toNat + 16 * m.aoff.toNat + e / ColsOf m * (if m.apitch = 0 then ColsOf m * z else 64 * m.apitch.toNat) + e % ColsOf m * z

/-- The integer that RoundInt gives for a finite value of magnitude x (R65). -/
def IntRounding (mode : Nat) (s : Bool) (x : ℚ) (y : Int) : Prop :=
  ∀ lo M : Nat, (lo : ℚ) ≤ x → x < lo + 1 → (RoundsUp mode 0 s lo (x - lo) → M = lo + 1) → (¬ RoundsUp mode 0 s lo (x - lo) → M = lo) →
    y = if s then -(M : Int) else (M : Int)

/-- R214, R215, R211: the conversions of mxread and mxwrite, entry by entry, with the flags RNX (32), RUF (16), ROF (8) and RNV (4) that
they raise. -/
def BankConversionsFollowR214AndR215 : Prop :=
  ∀ (m : MWord), m.rmf.toNat ≤ 4 → m.dt.toNat ≤ 9 →
    let dt := m.dt.toNat
    let sign (v : Fv) : ℚ := if signFv v then -1 else 1
    let toInt (et : Nat) (v : Fv) (res : Nat × Word) : Prop :=
      (v = .nan → res = (0, 4)) ∧ (∀ t, v = .inf t → res = (SatTo et (if t then -(2 ^ 70) else 2 ^ 70), 4)) ∧
      ∀ q, RealOf v = some q → ∃ y, IntRounding m.rmf.toNat (signFv v) (sign v * q) y ∧
        res = (SatTo et y, if IntOf et (SatTo et y) ≠ y then 4 else if (y : ℚ) ≠ q then 32 else 0)
    (∀ e : Word, m.sk = true → (bankValue m e).2 = false ∧
      RealOf (bankValue m e).1 = some (e.toInt * (2 : ℚ) ^ (-((m.qf.toNat + m.shr.toNat : Nat) : Int)))) ∧
    (∀ e : Word, m.sk = false → let r := readF f64 false e.toNat
      (bankValue m e).2 = r.2 ∧ signFv (bankValue m e).1 = signFv r.1 ∧ (RealOf r.1 = none → (bankValue m e).1 = r.1) ∧
      ∀ q, RealOf r.1 = some q → RealOf (bankValue m e).1 = some (q * (2 : ℚ) ^ (-(m.shr.toNat : Int)))) ∧
    (∀ (v : Fv) (sn : Bool), (7 ≤ dt → let r := roundFv (fmtOf dt) m.rmf.toNat 0 false v
      bankOut m (v, sn) = (r.1, (if r.2.getLsbD 0 then 32 else 0) ||| (if r.2.getLsbD 1 then 16 else 0) |||
        (if r.2.getLsbD 2 then 8 else 0) ||| (if sn then 4 else 0))) ∧ (dt ≤ 6 → toInt dt v (bankOut m (v, sn)))) ∧
    ∀ raw : Nat, raw < 2 ^ (8 * etSize dt) →
      let v := if 7 ≤ dt then readF (fmtOf dt) false raw else (ofIntFv (IntOf dt raw), false)
      (m.sk = false → let r := roundFv f64 m.rmf.toNat 0 false v.1
        bankIn m raw = (BitVec.ofNat 64 r.1, (if r.2.getLsbD 0 then 32 else 0) ||| (if v.2 then 4 else 0))) ∧
      (m.sk = true → ∀ u : Fv, signFv u = signFv v.1 → (RealOf v.1 = none → u = v.1) →
        (∀ q, RealOf v.1 = some q → RealOf u = some (q * 2 ^ m.qf.toNat)) →
        toInt 6 u ((bankIn m raw).1.toNat, (bankIn m raw).2))

end Sys2Proof.Machine

/-- R211, R214, R215, R218, R219: mxread writes the bytes of its next 32 entries, or of its next block with DT = 10, and sets their valid
bits, mxwrite sets its next 32 entries from their bytes, and each raises its conversion flags in the visible BFL with that cycle; with
DT = 11 they move BFL itself. -/
def Sys2Proof.Machine.BankWordsMoveTheirEntries : Prop :=
  ∀ (s : State) (rest : List Turn) (c : Nat) (k : StrandIx) (j : Nat) (older younger : List MxOp) (o : MxOp) (m : MWord),
    let x := s.core c
    s.agenda = .event c k j .bankPipeCycle :: rest → x.alive = true → x.mxq = older ++ o :: younger → (s.ctx c).scrmode = 0 →
    (∀ p ∈ older, isBank p.img = false) → o.prog < o.total →
    let z := etSize m.dt.toNat
    let next := Changed x o { o with prog := o.prog + 1 }
    let at' (e : Nat) : Nat := EntryAt m o.base z (32 * o.prog + e)
    let val (e : Nat) : Fv × Bool := bankValue m (Tab.get 0 x.vis.ent (m.acc.toNat + 32 * o.prog + e))
    (o.img = .mxread m → m.dt.toNat ≤ 9 → (m.apitch = 0 ∨ ColsOf m * z ≤ 64 * m.apitch.toNat) →
      ∃ y : Core, UnitEvent .bankPipeCycle s c rest y ∧ y.work = x.work ∧ y.vis.ent = x.vis.ent ∧ y.mxq = next ∧
        y.vis.bfl = (List.range 32).foldl (fun f e => f ||| (bankOut m (val e)).2) x.vis.bfl ∧
        (∀ e < 32, ∀ b < z, Tab.get 0 y.scr (at' e + b) = (leBytes z (bankOut m (val e)).1).getD b 0 ∧
          Tab.get false y.valid ((at' e + b) / 16) = true) ∧
        ∀ a, (∀ e < 32, a < at' e ∨ at' e + z ≤ a) → Tab.get 0 y.scr a = Tab.get 0 x.scr a) ∧
    (o.img = .mxread m → m.dt = 10 → ColsOf m % 32 = 0 →
      let w := mxfW m.mxf
      let r := mxScale w (mxfF m.mxf) (mxfSigned m.mxf) m.rmf.toNat ((List.range 32).map (fun e => (val e).1)) []
      let row := ColsOf m * w / 8 + ColsOf m / 32
      (m.apitch = 0 ∨ row ≤ 64 * m.apitch.toNat) →
      let y0 := o.base.toNat + 16 * m.aoff.toNat + o.prog / (ColsOf m / 32) * (if m.apitch = 0 then row else 64 * m.apitch.toNat)
      let blk := y0 + 4 * w * (o.prog % (ColsOf m / 32))
      let sc := y0 + ColsOf m * w / 8 + o.prog % (ColsOf m / 32)
      ∃ y : Core, UnitEvent .bankPipeCycle s c rest y ∧ y.work = x.work ∧ y.vis.ent = x.vis.ent ∧ y.mxq = next ∧
        y.vis.bfl = x.vis.bfl ||| (if r.2.2 then 32 else 0) ||| (if (List.range 32).any (fun e => (val e).2) then 4 else 0) ∧
        (∀ b < 4 * w, Tab.get 0 y.scr (blk + b) = (leBytes (4 * w) (r.2.1.foldr (fun q n => q + n * 2 ^ w) 0)).getD b 0) ∧
        Tab.get 0 y.scr sc = BitVec.ofNat 8 r.1 ∧
        ∀ a, (a < blk ∨ blk + 4 * w ≤ a) → a ≠ sc → Tab.get 0 y.scr a = Tab.get 0 x.scr a) ∧
    (o.img = .mxreadFlags m → m.dt = 11 → ∃ y : Core, UnitEvent .bankPipeCycle s c rest y ∧ y.vis = x.vis ∧ y.work = x.work ∧
      y.mxq = next ∧ ∀ b < 8, Tab.get 0 y.scr (o.base.toNat + 16 * m.aoff.toNat + b) = x.vis.bfl.extractLsb' (8 * b) 8) ∧
    (o.img = .mxwrite m → m.dt.toNat ≤ 9 → ∃ y : Core, UnitEvent .bankPipeCycle s c rest y ∧ y.work = x.work ∧ y.scr = x.scr ∧
      y.mxq = next ∧
      let new (e : Nat) : Word × Word := bankIn m (NumberOf (readBytes x.scr (at' e) z))
      y.vis.bfl = (List.range 32).foldl (fun f e => f ||| (new e).2) x.vis.bfl ∧
      (∀ e < 32, Tab.get 0 y.vis.ent (m.acc.toNat + 32 * o.prog + e) = (new e).1) ∧
      ∀ a, (a < m.acc.toNat + 32 * o.prog ∨ m.acc.toNat + 32 * o.prog + 32 ≤ a) → Tab.get 0 y.vis.ent a = Tab.get 0 x.vis.ent a) ∧
    (o.img = .mxwriteFlags m → m.dt = 11 →
      UnitEvent .bankPipeCycle s c rest { x with
        vis := { x.vis with bfl := BitVec.ofNat 64 (NumberOf (readBytes x.scr (o.base.toNat + 16 * m.aoff.toNat) 8) % 128) }, mxq := next })

/-- R197, R199, R209 to R219: array cycles, bank exchanges, the cycles of bank words with the data they move, and its conversions. -/
def Obligations.ArrayAndBankPipesFollowR197AndR218 : Prop :=
  ArrayAndBankPipesMakeTheirCycles ∧ BankConversionsFollowR214AndR215 ∧ BankWordsMoveTheirEntries

/-! ### The Newt and the trace -/

namespace Sys2Proof.Machine

/-- A Newt word runs in the turn of its slot (R372): its turn is over and that slot alone changes. -/
def NewtStep (i : Instr) (s : State) (rest : List Turn) (d k : Nat) (y : Slot) : Prop :=
  ∃ ds, let t : State := { s with dies := ds, agenda := rest }
    exec i s = .next t ∧ t.slot d k = y ∧ (∀ e j, (e ≠ d ∨ j ≠ k) → t.slot e j = s.slot e j) ∧
    ∀ e, t.die e = { s.die e with slots := (t.die e).slots }

/-- The run goes on `o` words further. -/
def Onward (r : NewtRun) (o : Nat) : NewtRun := { r with pc := r.pc + o, n := r.n + 1 }

/-- A word that writes one register of its slot and goes on. -/
def WritesN (i : Instr) (s : State) (rest : List Turn) (d k : Nat) (r : NewtRun) (nd : BitVec 4) (v : BitVec 32) : Prop :=
  ∃ regs, NewtStep i s rest d k { s.slot d k with reg := regs, run := some (Onward r 1) } ∧
    ∀ e, Tab.get 0 regs e = if e = nd.toNat then v else Tab.get 0 (s.slot d k).reg e

/-- Register n of a slot and entry j of its table; a value limited to 32 bits. -/
def NewtReg (x : Slot) (n : BitVec 4) : BitVec 32 := Tab.get 0 x.reg n.toNat
def NewtEntry (x : Slot) (j : Nat) : BitVec 32 := Tab.get 0 x.tab j
def Sat32 (n : Nat) : Nat := if n < 2 ^ 32 then n else 2 ^ 32 - 1

/-- An ALU word: register b, or the immediate when the word says so. -/
def NewtAlu (i : BitVec 4 → BitVec 4 → BitVec 4 → Bool → BitVec 14 → Instr) (v : BitVec 32 → BitVec 32 → BitVec 32) : Prop :=
  ∀ (s : State) (rest : List Turn) (d k : Nat) (r : NewtRun) (nd a b : BitVec 4) (imm : Bool) (m : BitVec 14),
    s.agenda = .newt d k :: rest → (s.slot d k).run = some r →
    WritesN (i nd a b imm m) s rest d k r nd
      (v (NewtReg (s.slot d k) a) (if imm then BitVec.ofNat 32 m.toNat else NewtReg (s.slot d k) b))

/-- Row r of a sketch with 2^k counters in a row, for the value x (R369). -/
def SketchIndex (k base r : Nat) (x : BitVec 32) : Nat :=
  let c : Nat := if r = 0 then 0 else if r = 1 then 0x6A09E667 else if r = 2 then 0xBB67AE85 else 0x3C6EF372
  let m : Nat := if r = 0 then 0x9E3779B1 else if r = 1 then 0x85EBCA77 else if r = 2 then 0xC2B2AE3D else 0x27D4EB2F
  base + r * 2 ^ k + (x ^^^ BitVec.ofNat 32 c).toNat * m % 2 ^ 32 / 2 ^ (32 - k)

end Sys2Proof.Machine

/-- R367, R368, R369: the Newt words that write one register: arithmetic modulo 2^32, shifts by the low five bits, unsigned minimum,
maximum and comparison, a field of the event, a sign-extended immediate, a bin, and the smallest counter of a sketch. -/
def Obligations.NewtRegisterWordsFollowR367ToR369 : Prop :=
  NewtAlu .nadd (fun p q => BitVec.ofNat 32 (p.toNat + q.toNat)) ∧
  NewtAlu .nsub (fun p q => BitVec.ofInt 32 (p.toNat - q.toNat)) ∧
  NewtAlu .nand (fun p q => p &&& q) ∧ NewtAlu .nor (fun p q => p ||| q) ∧
  NewtAlu .nshl (fun p q => BitVec.ofNat 32 (p.toNat * 2 ^ (q.extractLsb' 0 5).toNat)) ∧
  NewtAlu .nshr (fun p q => BitVec.ofNat 32 (p.toNat / 2 ^ (q.extractLsb' 0 5).toNat)) ∧
  NewtAlu .nmin (fun p q => if p.toNat ≤ q.toNat then p else q) ∧ NewtAlu .nmax (fun p q => if p.toNat ≤ q.toNat then q else p) ∧
  NewtAlu .ncmp (fun p q => if p = q then 0 else if p.toNat < q.toNat then 1 else 2) ∧
  ∀ (s : State) (rest : List Turn) (d k : Nat) (r : NewtRun) (nd a : BitVec 4), s.agenda = .newt d k :: rest →
    (s.slot d k).run = some r → let x := NewtReg (s.slot d k) a
    (∀ f : BitVec 3, WritesN (.nget nd f) s rest d k r nd (r.ev.getD f.toNat 0)) ∧
    (∀ i : BitVec 15, WritesN (.nli nd i) s rest d k r nd (BitVec.ofInt 32 i.toInt)) ∧
    (∀ (lg : Bool) (sh : BitVec 5) (u : BitVec 9), ∃ bin : Nat, WritesN (.nbin nd a lg sh u) s rest d k r nd (BitVec.ofNat 32 bin) ∧
      let w := x.toNat / 2 ^ sh.toNat
      (lg = false → bin = if w ≤ u.toNat then w else u.toNat) ∧
      (lg = true → w = 0 → bin = 0) ∧
      (lg = true → ∀ e, 2 ^ e ≤ w → w < 2 ^ (e + 1) → bin = if e + 1 ≤ u.toNat then e + 1 else u.toNat)) ∧
    ∀ (kk : BitVec 4) (e : BitVec 10), ∃ v : BitVec 32, WritesN (.nsktq nd a kk e) s rest d k r nd v ∧
      (∀ row < 4, v.toNat ≤ (NewtEntry (s.slot d k) (SketchIndex kk.toNat e.toNat row x)).toNat) ∧
      ∃ row < 4, v = NewtEntry (s.slot d k) (SketchIndex kk.toNat e.toNat row x)

/-- R367 to R372: nbf goes on at its target or behind it; nhinc and nskt add to table entries, saturating; ntrig acts once in a run, in
the order of its bits; nmark makes a trace record of the event's core; nend ends the run and pays its words. -/
def Obligations.NewtTableAndControlWordsFollowR367ToR372 : Prop :=
  ∀ (s : State) (rest : List Turn) (d k : Nat) (r : NewtRun), s.agenda = .newt d k :: rest → (s.slot d k).run = some r →
    let x := s.slot d k
    (∀ (a : BitVec 4) (c : BitVec 2) (o : BitVec 6),
      ((c = 0 ∨ (c = 1 ∧ NewtReg x a = 0) ∨ (c = 2 ∧ NewtReg x a ≠ 0)) →
        NewtStep (.nbf a c o) s rest d k { x with run := some (Onward r o.toNat) }) ∧
      (¬ (c = 0 ∨ (c = 1 ∧ NewtReg x a = 0) ∨ (c = 2 ∧ NewtReg x a ≠ 0)) →
        NewtStep (.nbf a c o) s rest d k { x with run := some (Onward r 1) })) ∧
    (∀ (nd a b : BitVec 4) (e : BitVec 10), let j := e.toNat + (NewtReg x a).toNat
      (1023 < j → ∃ regs, NewtStep (.nhinc nd a b e) s rest d k
        { x with reg := regs, ixerr := Sat32 (x.ixerr + 1), run := some (Onward r 1) } ∧
        ∀ n, Tab.get 0 regs n = if n = nd.toNat then 0 else Tab.get 0 x.reg n) ∧
      (j ≤ 1023 → ∃ regs tab, let v := BitVec.ofNat 32 (Sat32 ((NewtEntry x j).toNat + (NewtReg x b).toNat))
        NewtStep (.nhinc nd a b e) s rest d k { x with reg := regs, tab := tab, run := some (Onward r 1) } ∧
        (∀ n, Tab.get 0 regs n = if n = nd.toNat then v else Tab.get 0 x.reg n) ∧
        ∀ n, Tab.get 0 tab n = if n = j then v else Tab.get 0 x.tab n)) ∧
    (∀ (a b kk : BitVec 4) (e : BitVec 10), ∃ tab, NewtStep (.nskt a b kk e) s rest d k { x with tab := tab, run := some (Onward r 1) } ∧
      (∀ row < 4, let j := SketchIndex kk.toNat e.toNat row (NewtReg x a)
        Tab.get 0 tab j = BitVec.ofNat 32 (Sat32 ((NewtEntry x j).toNat + (NewtReg x b).toNat))) ∧
      ∀ n, (∀ row < 4, n ≠ SketchIndex kk.toNat e.toNat row (NewtReg x a)) → Tab.get 0 tab n = Tab.get 0 x.tab n) ∧
    (∀ (a : BitVec 4) (i : BitVec 8) (c : BitVec 3),
      (r.trig = true → NewtStep (.ntrig a i c) s rest d k { x with run := some (Onward r 1) }) ∧
      (r.trig = false → ∃ t, exec (.ntrig a i c) s = .next t ∧ t.agenda = rest ∧
        (t.slot d k).run = some { Onward r 1 with trig := true } ∧ (t.slot d k).reg = x.reg ∧ (t.slot d k).tab = x.tab ∧
        (if c.getLsbD 2 then (t.slot d k).snapR = x.reg ∧ (t.slot d k).snapT = x.tab ∧ (t.slot d k).snapN = x.snapN + 1
          else (t.slot d k).snapR = x.snapR ∧ (t.slot d k).snapT = x.snapT ∧ (t.slot d k).snapN = x.snapN) ∧
        (∀ v < 512, (t.vd d v).frozen = ((s.vd d v).frozen || (c.getLsbD 1 && (x.any || decide (v = x.vf.toNat))))) ∧
        (if c.getLsbD 0 then (t.slot d k).trig = (NewtReg x a ++ BitVec.ofNat 32 i.toNat) ∧
            t.outbox = s.outbox ++ [.msix x.vf.toNat x.vec.toNat]
          else (t.slot d k).trig = x.trig ∧ t.outbox = s.outbox))) ∧
    (∀ (a : BitVec 4) (tag : BitVec 8), let f := r.ev.getD 0 0
      let v := (r.ev.getD 1 0).toNat % 512
      let c := (f.extractLsb' 10 12).toNat
      (f.getLsbD 22 = true → NewtStep (.nmark a tag) s rest d k { x with run := some (Onward r 1) }) ∧
      (f.getLsbD 22 = false → ∃ t, exec (.nmark a tag) s = .next t ∧ t.agenda = rest ∧
        t.slot d k = { x with run := some (Onward r 1) } ∧ (∀ e, e ≠ c → t.core e = s.core e) ∧ t.mem = s.mem ∧
        ((s.vd (dieOf c) v).nten = false → t.core c = s.core c) ∧
        ((s.vd (dieOf c) v).nten = true → (s.core c).trace.length < 32 → ∃ q : TraceRec, (t.core c).trace = (s.core c).trace ++ [q] ∧
          q.kind = 7 ∧ q.pc = (NewtReg x a).setWidth 64 ∧ q.aux = tag.toNat ∧ q.vf = v ∧ ixOf q.k = (f.extractLsb' 8 2).toNat))) ∧
    ∃ t, exec .nend s = .next t ∧ t.agenda = rest ∧ (t.vd d x.vf.toNat).nbleft = (s.vd d x.vf.toNat).nbleft - (r.n + 1) ∧
      (x.endEn = false → t.slot d k = { x with run := none }) ∧
      (x.endEn = true → t.slot d k = { x with run := none, en := false, endEn := false, queue := []
                                              qdrop := Sat32 (x.qdrop + x.queue.length) })

/-- R361, R363, R365, R366, R372 to R374: an arriving event joins the queue of every slot that takes it, or is counted; a run starts
within the budget; NSCTL enables a slot whose program passes its load check, and disables one; NTCTL resets a ring that it enables; the
oldest trace record of a core goes to its ring, unless that is full or frozen, and NTHEAD passes it once it has been performed. -/
def Obligations.NewtEventsAndTraceFollowR361ToR374 : Prop :=
  ∀ (s : State) (rest : List Turn) (c d k : Nat) (kk : StrandIx) (j : Nat),
    (∀ ev q, s.agenda = .event c kk j (.newtEventArrival d) :: rest → (s.die d).newtIn = ev :: q →
      ∃ t, exec (.newtEventArrival d) s = .next t ∧ t.agenda = rest ∧ (t.die d).newtIn = q ∧ ∀ m < 16,
        let x := s.slot d m
        let kind := (ev.getD 0 0).toNat % 256
        let wants : Prop := x.en = true ∧ 1 ≤ kind ∧ kind ≤ 10 ∧ x.mask.getLsbD (kind - 1) = true ∧
          (x.any = true ∨ x.vf.toNat = (ev.getD 1 0).toNat)
        (¬ wants → t.slot d m = x) ∧
        (wants → x.queue.length < 64 → t.slot d m = { x with queue := x.queue ++ [ev] }) ∧
        (wants → 64 ≤ x.queue.length → t.slot d m = { x with qdrop := Sat32 (x.qdrop + 1) })) ∧
    (let x := s.slot d k
     ∀ ev q, (s.agenda = .event c kk j (.newtRun d k) :: rest ∨ s.agenda = .newt d k :: rest) → x.run = none → x.queue = ev :: q →
      x.en = true →
      (64 ≤ (s.vd d x.vf.toNat).nbleft → let r : NewtRun := { ev := ev, reg := x.reg, tab := x.tab, snapR := x.snapR, snapT := x.snapT, snapN := x.snapN }
        NewtStep (.newtRun d k) s rest d k { x with queue := q, run := some r }) ∧
      ((s.vd d x.vf.toNat).nbleft < 64 → NewtStep (.newtRun d k) s rest d k { x with queue := q, bdrop := Sat32 (x.bdrop + 1) })) ∧
    (∀ v : Word, v.extractLsb' 38 26 = 0 → v.extractLsb' 26 6 = 0 → v.extractLsb' 12 4 = 0 → v.getLsbD 9 = false →
      let x := s.slot d k
      let y : Slot := { x with vec := v.extractLsb' 32 6, mask := v.extractLsb' 16 10, any := v.getLsbD 11, vf := v.extractLsb' 0 9 }
      (s.agenda = .event c kk j (.newtSlotEnable d k v) :: rest → v.getLsbD 10 = true →
        let z : Slot := if x.endEn then { y with queue := [], qdrop := Sat32 (x.qdrop + x.queue.length) } else y
        (x.en = true → x.endEn = false → NewtStep (.newtSlotEnable d k v) s rest d k y) ∧
        ((x.en = false ∨ x.endEn = true) → loadCheck x.prog = none →
          NewtStep (.newtSlotEnable d k v) s rest d k { z with en := true, endEn := false, reason := 0, badix := 0 }) ∧
        ((x.en = false ∨ x.endEn = true) → ∀ e, loadCheck x.prog = some e →
          NewtStep (.newtSlotEnable d k v) s rest d k { z with reason := e.1, badix := e.2 })) ∧
      (s.agenda = .event c kk j (.newtSlotDisable d k v) :: rest → v.getLsbD 10 = false →
        (x.en = false → NewtStep (.newtSlotDisable d k v) s rest d k y) ∧
        (x.en = true → x.run ≠ none → NewtStep (.newtSlotDisable d k v) s rest d k { y with endEn := true }) ∧
        (x.en = true → x.run = none → NewtStep (.newtSlotDisable d k v) s rest d k
          { y with en := false, endEn := false, queue := [], qdrop := Sat32 (x.qdrop + x.queue.length) }))) ∧
    (∀ (vf : Nat) (v : Word), vf < 512 → s.agenda = .event c kk j (.ntctlWrite d vf v) :: rest → v.extractLsb' 2 62 = 0 →
      (v.getLsbD 0 = true → s.feat vf 4 = true) → ∃ t, exec (.ntctlWrite d vf v) s = .next t ∧ t.agenda = rest ∧ t.cores = s.cores ∧
        t.mem = s.mem ∧ let y := s.vd d vf
        t.vd d vf = (let z := { y with frozen := y.frozen && v.getLsbD 1, nten := v.getLsbD 0 }
          if v.getLsbD 0 = true ∧ y.nten = false then { z with nthead := 0, nttail := 0, ntsince := s.clock } else z)) ∧
    ∀ q l, s.agenda = .event c kk j .traceDrain :: rest → (s.core c).trace = q :: l → q.vf < 512 →
      let y := s.vd (dieOf c) q.vf
      let va := y.ntbase + BitVec.ofNat 64 (16 * (y.nthead.toNat % 2 ^ y.ntsize))
      let full := y.frozen = true ∨ (y.nthead - y.nttail).toNat = 2 ^ y.ntsize
      let written := ∀ wr : Writer, wr.kind = 6 → wr.dev = true → wr.die = dieOf c → wr.vf = q.vf →
        (∀ f ∈ s.wire, f.writer ≠ some wr) ∧ ∀ e ∈ s.hostOut, e.wr ≠ wr
      (∀ h, q.sent = some h →
        (written → ∃ t, exec .traceDrain s = .next t ∧ t.agenda = rest ∧ t.mem = s.mem ∧ (t.core c).trace = l ∧
          (t.vd (dieOf c) q.vf).nthead = if y.nthead = h.1 ∧ y.ntsince = h.2 then y.nthead + 1 else y.nthead) ∧
        (¬ written → exec .traceDrain s = .next { s with agenda := rest })) ∧
      (q.sent = none → full → ∃ t, exec .traceDrain s = .next t ∧ t.agenda = rest ∧ t.mem = s.mem ∧
        (t.vd (dieOf c) q.vf).ntdrop = Sat32 (y.ntdrop + 1) ∧ (t.core c).trace = (match l with | [] => [] | p :: u => { p with lost := true } :: u)) ∧
      (q.sent = none → ¬ full → s.tracing (dieOf c) q.vf = true → exec .traceDrain s = .next { s with agenda := rest }) ∧
      (q.sent = none → ¬ full → s.tracing (dieOf c) q.vf = false → ∀ u pa,
        ({ s with agenda := rest } : State).portTr (dieOf c) (unitTrace c) q.vf va .write 16 none = (u, .ok pa) →
        ∃ t f bs, exec .traceDrain s = .next t ∧ t.agenda = rest ∧ t.mem = s.mem ∧
          (t.vd (dieOf c) q.vf).nthead = y.nthead ∧ (t.core c).trace = { q with sent := some (y.nthead, y.ntsince) } :: l ∧
          t.wire = u.wire ++ [f] ∧
          (∃ wr, f.cargo = .store wr pa bs false) ∧ bs.length = 16 ∧ ∀ j < 8, bs[j]? = some (some (q.pc.extractLsb' (8 * j) 8)))

/-! ### Launch queues, records and futures -/

namespace Sys2Proof.Machine

/-- An event is the turn at the head of the agenda, and `rest` follows it. -/
def Turns (s : State) (i : Instr) (rest : List Turn) : Prop := ∃ c k j, s.agenda = .event c k j i :: rest

/-- An event with its core, strand and index is the turn at the head of the agenda. -/
def CoreTurns (s : State) (c : Nat) (k : StrandIx) (j : Nat) (i : Instr) (rest : List Turn) : Prop := s.agenda = .event c k j i :: rest

/-- The turn is over and nothing else has happened. -/
def Passed (s : State) (rest : List Turn) : State := { s with agenda := rest }

/-- An event that changes nothing. -/
def Idles (i : Instr) (s : State) (rest : List Turn) : Prop := exec i s = .next (Passed s rest)

/-- An event that leaves the package as `u` has it but for one queue. -/
def QueueStepFrom (u : State) (i : Instr) (s : State) (rest : List Turn) (d q : Nat) (y : Queue) : Prop :=
  ∃ ds, let t : State := { u with dies := ds, agenda := rest }
    exec i s = .next t ∧ t.queue d q = y ∧ (∀ e p, (e ≠ d ∨ p ≠ q) → t.queue e p = s.queue e p) ∧
    ∀ e, t.die e = { s.die e with queues := (t.die e).queues }

/-- An event that changes one queue alone. -/
def QueueStep (i : Instr) (s : State) (rest : List Turn) (d q : Nat) (y : Queue) : Prop := QueueStepFrom s i s rest d q y

/-- Fields of QCTL that must be zero (spec/16 R322) and those of QWDOG that are reserved (spec/20 R412). -/
def QctlClear (v : Word) : Prop := v.extractLsb' 9 7 = 0 ∧ v.extractLsb' 28 3 = 0 ∧ v.extractLsb' 38 26 = 0
def QwdogClear (v : Word) : Prop := v.extractLsb' 24 8 = 0 ∧ v.extractLsb' 56 8 = 0

/-- A QSUB write: the address joins the FIFO, or is discarded and counted (R322). -/
def QsubWritten (i : Instr) (s : State) (rest : List Turn) (d q : Nat) (v : Word) : Prop :=
  let x := s.queue d q
  (x.fifo.length < 256 ∧ x.qctl.getLsbD 31 = true → QueueStep i s rest d q { x with fifo := x.fifo ++ [v] }) ∧
  (¬ (x.fifo.length < 256 ∧ x.qctl.getLsbD 31 = true) → QueueStep i s rest d q { x with ovf := Sat32 (x.ovf + 1) })

/-- When a QCTL value with EN = 1 binds a queue (R323, spec/19 R390, spec/20 R401). -/
def QueueBinds (s : State) (d q : Nat) (v : Word) : Prop :=
  QctlClear v ∧ v.getLsbD 31 = true ∧ (s.queue d q).qctl.getLsbD 31 = false
    ∧ (s.vf (v.extractLsb' 0 9).toNat).part.toNat = s.partOf d ∧ (s.die d).st ≠ .failed ∧ (s.die d).st ≠ .offline

/-- The take of a queue is over: nothing is left of what it has read, and it waits for no walk any more. -/
def TakeQuits (s : State) (d q : Nat) : State :=
  ({ s with takes := s.takes.filter (fun e => !(e.die == d && e.unit == unitQueue q)) } : State).leaveWalks
    (fun y => y == ⟨4096 + d, unitQueue q⟩)

/-- A queue becomes DISABLED: EN is cleared and its FIFO is empty. -/
def QueueOff (i : Instr) (s : State) (rest : List Turn) (d q : Nat) : Prop :=
  ∃ w, QueueStepFrom (TakeQuits s d q) i s rest d q { s.queue d q with qctl := w, st := .disabled, fifo := [] } ∧
    ∀ b < 64, w.getLsbD b = ((s.queue d q).qctl.getLsbD b && b != 31)

/-- A QWDOG write: LIMIT, and REM starts again (spec/20 R412). -/
def QwdogWritten (i : Instr) (s : State) (rest : List Turn) (d q : Nat) (v : Word) : Prop :=
  let n := (v.extractLsb' 0 24).toNat
  (QwdogClear v → QueueStep i s rest d q { s.queue d q with limit := n, rem := n }) ∧ (¬ QwdogClear v → Idles i s rest)

/-- A word, and a pair of them, written at a home port by `wr`, with the watchpoints that see it. -/
def WordBytes (v : Word) : List (Option Byte) := (List.range 8).map fun i => some (v.extractLsb' (8 * i) 8)
def PortPuts (s : State) (wr : Writer) (pa : Nat) (v : Word) : State := s.portWrite wr pa (WordBytes v)
def PortPutsPair (s : State) (wr : Writer) (pa : Nat) (v w : Word) : State := s.portWrite wr pa (WordBytes v ++ WordBytes w)

/-- A word with another STATE field of DEP (spec/17 R345), and with the fields of a take (R347). -/
def DepState (v w : Word) (st : Nat) : Prop := ∀ b < 64, w.getLsbD b = if 24 ≤ b ∧ b < 27 then st.testBit (b - 24) else v.getLsbD b
def DepTaken (v w : Word) (d q st : Nat) : Prop := ∀ b < 64, w.getLsbD b =
  if 24 ≤ b ∧ b < 27 then st.testBit (b - 24)
  else (v.getLsbD b || (decide (32 ≤ b ∧ b < 38) && q.testBit (b - 32)) || (decide (38 ≤ b ∧ b < 41) && d.testBit (b - 38)))

/-- DEP with slot j arrived, and poisoned too where it arrives first, with a poison, at a record whose STATE is at most 1 (R347, R356). -/
def DepArrived (v w : Word) (j : Nat) (poison : Bool) : Prop :=
  ∀ b < 64, w.getLsbD b = (v.getLsbD b || b == 8 + j
    || (b == 16 + j && poison && !v.getLsbD (8 + j) && decide ((v.extractLsb' 24 3).toNat ≤ 1)))

/-- Every slot that a record needs has arrived; one of them with a poison. -/
def AllArrived (v : Word) : Prop := ∀ b < 8, v.getLsbD b = true → v.getLsbD (8 + b) = true
def SomePoisoned (v : Word) : Prop := ∃ b < 8, v.getLsbD b = true ∧ v.getLsbD (16 + b) = true

/-- An active queue faults: REASON, CODE and the address are kept, and its tenant's vector is raised (spec/16 R323, R324). -/
def QueueFaults (t w : State) (d q reason code : Nat) (va : Word) : Prop :=
  let y := t.queue d q
  ∃ ds, w = { t with dies := ds, outbox := t.outbox ++ [.msix (y.qctl.extractLsb' 0 9).toNat (y.qctl.extractLsb' 32 6).toNat] } ∧
    w.queue d q = { y with st := .faulted, reason := reason, code := code, faddr := va } ∧
    ∀ e p, (e ≠ d ∨ p ≠ q) → w.queue e p = t.queue e p

/-- A launch enters the table behind those taken before, with its tickets dealt (R330), and the take is written to its DEP word. -/
def Launches (t w : State) (wr : Writer) (pa : Nat) (v : Word) (d q st : Nat) (y : Launch) : Prop :=
  ∃ x ls, DepTaken v x d q st ∧ w = { PortPuts t wr pa x with launches := ls, nlaunch := t.nlaunch + 1 } ∧
    ∀ m, Tab.get {} ls m = if m = t.nlaunch then { y with ranges := dealRanges y (t.diesOf (t.partOf y.die)) } else t.launch m

/-- The take is over with the package as `w` has it: the address has left the FIFO, and REM of a queue that held no record starts. -/
def TakeEnds (i : Instr) (s w : State) (d q : Nat) (f : List Word) : Prop :=
  let y := w.queue d q
  ∃ ds, let z : State := { w with dies := ds }
    exec i s = .next z ∧ z.queue d q = { y with fifo := f, rem := if s.queueHolds d q then y.rem else y.limit } ∧
    (∀ e p, (e ≠ d ∨ p ≠ q) → z.queue e p = w.queue e p) ∧ ∀ e, z.die e = { w.die e with queues := (z.die e).queues }

/-- The action at place `i` of those that wait has its turn: none of its group stands before it, and every write of its group has been
performed. -/
def ActTurn (s : State) (i : Nat) (p : Pending) : Prop :=
  s.acts[i]? = some p ∧ (∀ q ∈ s.acts.take i, q.grp ≠ p.grp) ∧ s.grpOpen p.grp = false

/-- The action has been done, with the package as `z` has it and the actions `l` in its place. -/
def ActDone (i : Nat) (s : State) (p : Pending) (z : State) (l : List TaskAct) : Prop :=
  let w := z.leaveWalks (fun y => decide (4096 ≤ y.c) && y.u == unitAct p.id)
  tryAct i s = ({ w with acts := s.acts.take i ++ numberActs s.nact p.grp l ++ s.acts.drop (i + 1), nact := s.nact + l.length }, true)

/-- An action that makes one access: it waits while that waits, keeps the address where it is held, is dropped with a log entry where it
cannot be made (R348), with the actions `no` after it, and does `f` where it can. -/
def ActAccess (i : Nat) (s : State) (p : Pending) (d vf : Nat) (va : Word) (kind : AccKind) (n : Nat) (no : List TaskAct)
    (f : State → Nat → Prop) : Prop :=
  ∀ t r, s.portAcc d (unitAct p.id) vf va kind n p.pa = (t, r) →
    (r = .wait → tryAct i s = ({ t with acts := s.acts.set i { p with pa := none } }, false)) ∧
    (∀ pa, r = .held pa → tryAct i s = ({ t with acts := s.acts.set i { p with pa := some pa } }, false)) ∧
    (∀ fw e, r = .fault fw e → ActDone i s p t no) ∧
    ∀ pa, r = .ok pa → f (if kind = .rmw then t.noteRead pa n else t) pa

end Sys2Proof.Machine

/-- R322, R323, R412: what the writes of a queue's registers do: QSUB appends or counts an overflow; QCTL binds a disabled queue to a
function of its partition or disables it; QWDOG starts the watchdog again. -/
def Obligations.QueueRegistersFollowR322R323AndR412 : Prop :=
  ∀ (s : State) (rest : List Turn) (d q : Nat) (v : Word),
    (Turns s (.qsubWrite d q v) rest → QsubWritten (.qsubWrite d q v) s rest d q v) ∧
    (Turns s (.queueEnable d q v) rest →
      (QueueBinds s d q v → QueueStep (.queueEnable d q v) s rest d q { s.queue d q with qctl := v, st := .active }) ∧
      (¬ QueueBinds s d q v → Idles (.queueEnable d q v) s rest)) ∧
    (Turns s (.queueDisable d q) rest → QueueOff (.queueDisable d q) s rest d q) ∧
    (Turns s (.qwdogWrite d q v) rest → QwdogWritten (.qwdogWrite d q v) s rest d q v)

/-- R323, R324, R347, R412: a queue takes the record at the head of its FIFO once no earlier ready record of it has a ticket left. A
take whose reads wait stays, with what it has read. A record that a check refuses faults the queue, and so does one that its DEP word says
has been taken meanwhile; a satisfied one becomes READY; one that a poison reached is skipped; another waits. -/
def Obligations.QueueTakesFollowR323R324AndR347 : Prop :=
  ∀ (s : State) (rest : List Turn) (d q : Nat), d < 8 → q < 64 → Turns s (.queueTake d q) rest → let x := s.queue d q
    let held : Prop := ∃ e ∈ s.launches, e.2.die = d ∧ e.2.q = q ∧ e.2.ready = true ∧ e.2.ended = false ∧ e.2.left = true
    let i : Instr := .queueTake d q
    (x.fifo = [] ∨ x.st ≠ .active ∨ held → Idles i s rest) ∧
    ∀ (va : Word) (f : List Word), x.fifo = va :: f → x.st = .active → ¬ held →
      ∀ t c, takeChecks (Passed s rest) d (unitQueue q) q va = (t, c) →
        (c = .error none → exec i s = .next t) ∧
        (∀ r, c = .error (some r) → ∃ w, QueueFaults (TakeQuits t d q) w d q r (if r = 1 then 0x1A else 0) va ∧ TakeEnds i s w d q f) ∧
        ∀ y, c = .ok y → ∀ t' a, t.portTr d (unitQueue q) y.vf (va + 0x20) .rmw 8 (t.takeOf d (unitQueue q)).dep = (t', a) →
          (a = .wait → exec i s = .next t') ∧ (∀ pa, a = .held pa → exec i s = .next (t'.putTake { t'.takeOf d (unitQueue q) with dep := some pa })) ∧
          (∀ fw e, a = .fault fw e → ∃ w, QueueFaults (TakeQuits t' d q) w d q 12 0 va ∧ TakeEnds i s w d q f) ∧
          ∀ pa, a = .ok pa → let v := WordAt t' pa
            let u := TakeQuits (t'.noteRead pa 8) d q
            let wr := portWriter d y.vf 0
            ((v.extractLsb' 24 3).toNat ≠ 0 → ∃ w, QueueFaults u w d q 2 0 va ∧ TakeEnds i s w d q f) ∧
            ((v.extractLsb' 24 3).toNat = 0 →
            (AllArrived v → ¬ SomePoisoned v → ∃ w, Launches u w wr pa v d q 2 { y with dep := pa, ready := true } ∧ TakeEnds i s w d q f) ∧
            (¬ AllArrived v → ∃ w, Launches u w wr pa v d q 1 { y with dep := pa } ∧ TakeEnds i s w d q f) ∧
            (AllArrived v → SomePoisoned v → ∃ w, Launches u w wr pa v d q 1 { y with dep := pa } ∧
              TakeEnds i s (w.taskActs [.skipTo u.nlaunch]) d q f))

namespace Sys2Proof.Machine

/-- A signal or poison that is done sets its slot in the record's DEP word. A waiting record that is then satisfied becomes READY or, with
a poison, is passed on to its continuation or its abandonment (R347, R356, R357). -/
def TellsDo : Prop :=
  ∀ (s : State) (i : Nat) (p : Pending) (d vf : Nat) (link : Word) (bad : Bool) (core : Option Nat), ActTurn s i p →
    p.act = .tell d vf link bad core →
    let wr : Writer := match core with | some c => { kind := 1, core := c, vf := vf, task := (s.ctx c).task } | none => portWriter d vf p.grp
    ActAccess i s p d vf (Wrap64 ((link.extractLsb' 0 50).toInt * 128) + 0x20) .rmw 8 [] (fun t pa => let v := WordAt t pa
      ∃ w, DepArrived v w (link.extractLsb' 50 3).toNat bad ∧
        let due : Prop := (v.extractLsb' 24 3).toNat = 1 ∧ AllArrived w
        (¬ due → ActDone i s p (PortPuts t wr pa w) []) ∧
        (due → ¬ SomePoisoned w → ∃ x ls, DepState w x 2 ∧ ActDone i s p { PortPuts t wr pa x with launches := ls } [] ∧
          ∀ m, Tab.get {} ls m = if t.waiting pa = some m then { t.launch m with ready := true } else t.launch m) ∧
        (due → SomePoisoned w → ActDone i s p (PortPuts t wr pa w) ((t.waiting pa).toList.map TaskAct.skipTo)))

/-- A record without a continuation is abandoned: it ends with its tickets dropped; STATE 6, its future, its poisons and its completion
record follow in this order. A STATE is written by an action of its own; STATE 3 only over 2 (R345, R356, R359). -/
def RecordActsDo : Prop :=
  ∀ (s : State) (i : Nat) (p : Pending) (n : Nat), ActTurn s i p → let x := s.launch n
    (p.act = .skipTo n → x.fcont = 0 → ActDone i s p (s.endTake x.die (unitAct p.id)) [.abandon n]) ∧
    (p.act = .abandon n → x.ended = true → ActDone i s p s []) ∧
    (p.act = .abandon n → x.ended = false → ∃ ls, ActDone i s p { s with launches := ls }
        ([.recState x.die n 6] ++ (if x.futa = 0 then [] else [.fault x.die x.vf x.futa]) ++ x.succ.map (fun l => .tell x.die x.vf l true none)
          ++ [.sink x.die n true]) ∧
      ∀ m, Tab.get {} ls m = if m = n then { x with ended := true, ranges := [], held := [] } else s.launch m) ∧
    (∀ d st, p.act = .recState d n st → ActAccess i s p d x.vf (x.va + 0x20) .rmw 8 [] (fun t pa => let v := WordAt t pa
      (st = 3 → (v.extractLsb' 24 3).toNat ≠ 2 → ActDone i s p t []) ∧
      ((st ≠ 3 ∨ (v.extractLsb' 24 3).toNat = 2) → st < 8 → ∃ w, DepState v w st ∧ ActDone i s p (PortPuts t (portWriter d x.vf p.grp) pa w) []))) ∧
    (∀ d bad, p.act = .sink d n bad → x.sink = true → ActAccess i s p d x.vf x.done .write 32 [.msix x.vf x.vec] (fun t pa =>
      let wr := portWriter d x.vf p.grp
      ActDone i s p (PortPutsPair (PortPutsPair t wr pa (if bad then 1 else 0) x.va) wr (pa + 16) (BitVec.ofNat 64 t.dieclk) 0)
        [.msix x.vf x.vec])) ∧
    (∀ v vec, p.act = .msix v vec → ActDone i s p { s with outbox := s.outbox ++ [.msix v vec] } [])

end Sys2Proof.Machine

/-- R346 to R348, R356, R357, R359: a signal or poison event makes an action of a port, unless its link has a nonzero Z field; such an
action sets its slot in the record's DEP word, and what follows at records and sinks are actions in their order. One that cannot reach its
record changes nothing. -/
def Obligations.SignalsAndPoisonsFollowR346ToR348 : Prop :=
  (∀ (s : State) (rest : List Turn) (vf : Nat) (link : Word) (bad : Bool), let i : Instr := if bad then .poison vf link else .signal vf link
    Turns s i rest →
    (link.extractLsb' 53 11 ≠ 0 → Idles i s rest) ∧
    (link.extractLsb' 53 11 = 0 → exec i s = .next ((Passed s rest).taskActs
      [.tell (((s.diesOf (s.vf vf).part.toNat).head?).getD 0) vf link bad none]))) ∧
  TellsDo ∧ RecordActsDo

namespace Sys2Proof.Machine

/-- The abandonment of a future at its port: one action on the pair (R354). -/
def FutureFaultsDo : Prop :=
  ∀ (s : State) (i : Nat) (p : Pending) (d vf : Nat) (va : Word), ActTurn s i p → p.act = .fault d vf va →
    ActAccess i s p d vf va .rmw 16 [] (fun t pa => let v := WordAt t pa
      let put := PortPuts t (portWriter d vf p.grp) pa (3 <<< 62)
      ((v.extractLsb' 62 2).toNat = 0 → ActDone i s p put []) ∧
      ((v.extractLsb' 62 2).toNat = 1 → ActDone i s p put [.tell (farDie pa) vf ((v.extractLsb' 0 53).setWidth 64) true none]) ∧
      (2 ≤ (v.extractLsb' 62 2).toNat → ActDone i s p t []))

end Sys2Proof.Machine

/-- R237, R239, R354, R355: the transitions of a future at its port: an abandonment, a cpres and a cpreg, each one action on the pair; a
signal or a poison follows that write. An accumulation is one action on its element, and its old value returns where the word asks for
it. A refusal stays with the command, and so do a poisoned pair or element (R301) and an aperture that does not take it (R300). That the
first die of the function's partition makes an abandonment's access is the model's choice (log entry 47). -/
def Obligations.FuturesFollowR354AndR355 : Prop :=
  let stored (v : Word) (n : Nat) : Prop := (v.extractLsb' 62 2).toNat = n
  (∀ (s : State) (rest : List Turn) (vf : Nat) (va : Word), Turns s (.futureAbandon vf va) rest →
    exec (.futureAbandon vf va) s = .next ((Passed s rest).taskActs [.fault (((s.diesOf (s.vf vf).part.toNat).head?).getD 0) vf va])) ∧
  FutureFaultsDo ∧
  ∀ (s : State) (rest : List Turn) (c : Nat) (k : StrandIx) (j : Nat) (e : Instr), s.agenda = .event c k j e :: rest →
    ∀ (r : AccReq) (q : List AccReq), (s.core c).acc = r :: q → accReady s c r = true →
    let u := ((Passed s rest).mapCore c (fun x => { x with acc := q })).noteRead r.pa r.bytes
    let v := WordAt u r.pa
    let arg : Word := BitVec.ofNat 64 (NumberOf r.arg)
    let next (t : State) : Prop := exec e s = .next t
    let keptBy (t : State) (code : Nat) : Prop := next (t.mapCmd c r.ord (fun p => { p with port := p.port.or (some (code, r.va)) }))
    let keeps (code : Nat) : Prop := keptBy u code
    let refuses (reason : Nat) : Prop := keptBy (u.logAf (dieOf c) r.vf ⟨r.va, c, .rmw, reason⟩) 0x14
    let wr : Writer := { kind := 1, core := c, vf := r.vf, task := (s.ctx c).task }
    let taken (n : Nat) : Prop := match homeOf r.pa with | .aper d o => u.aperOk r.vf d o n = true | _ => u.poisoned r.pa n = false
    let reason : Nat := match homeOf r.pa with | .aper _ _ => 9 | _ => 8
    let tells (t : State) (l : Word) (bad : Bool) : Prop := next (t.taskActs [.tell (farDie r.pa) r.vf l bad none])
    (e = .futureResolve → ∀ n sr gr ev, r.img = .cpres n sr gr ev →
      (¬ taken 16 → refuses reason) ∧
      (taken 16 →
        (stored v 0 → next (PortPutsPair u wr r.pa (2 <<< 62) arg)) ∧
        (stored v 1 → tells (PortPutsPair u wr r.pa (2 <<< 62) arg) ((v.extractLsb' 0 53).setWidth 64) false) ∧
        (stored v 2 ∨ stored v 3 → keeps 0x18))) ∧
    (e = .futureRegister → ∀ n sr gr ev, r.img = .cpreg n sr gr ev →
      (¬ taken 16 → refuses reason) ∧
      (taken 16 → arg.extractLsb' 53 11 ≠ 0 → keeps 0x14) ∧
      (taken 16 → arg.extractLsb' 53 11 = 0 →
        (stored v 0 → next (PortPuts u wr r.pa ((1 <<< 62) ||| arg))) ∧
        (stored v 1 → keeps 0x19) ∧
        (stored v 2 → tells u arg false) ∧
        (stored v 3 → tells u arg true))) ∧
    (e = .accumulateOnWrite → ∀ n h sr gr ev (op : Nat), ((op = 0 ∧ r.img = .cpaccAdd n h sr gr ev) ∨ (op = 1 ∧ r.img = .cpaccMin n h sr gr ev)
        ∨ (op = 2 ∧ r.img = .cpaccMax n h sr gr ev) ∨ (op = 3 ∧ r.img = .cpaccAnd n h sr gr ev) ∨ (op = 4 ∧ r.img = .cpaccOr n h sr gr ev)
        ∨ (op = 5 ∧ r.img = .cpaccXor n h sr gr ev) ∨ (op = 6 ∧ r.img = .cpaccXchg n h sr gr ev) ∨ (op = 7 ∧ r.img = .cpaccCas n h sr gr ev)) →
      let z := etSize r.et
      let old := NumberOf (u.portRead r.pa z)
      let arg := NumberOf (r.arg.take z)
      (¬ taken z → refuses reason) ∧
      (taken z → ∃ v : Nat,
        (7 ≤ r.et → v = accNew op r.et old r.arg) ∧
        (r.et < 7 →
          (op = 0 → v = BitVec.toNat (BitVec.ofNat (8 * z) (old + arg))) ∧
          (op = 1 → v = if IntOf r.et old ≤ IntOf r.et arg then old else arg) ∧
          (op = 2 → v = if IntOf r.et old ≤ IntOf r.et arg then arg else old) ∧
          (op = 3 → v = old &&& arg) ∧ (op = 4 → v = old ||| arg) ∧ (op = 5 → v = old ^^^ arg) ∧ (op = 6 → v = arg) ∧
          (op = 7 → v = if old = arg then NumberOf ((r.arg.drop z).take z) else old)) ∧
        let w := u.portWrite { wr with ord := r.ord, va := r.va } r.pa ((List.range z).map fun b => some (BitVec.ofNat 8 (v / 256 ^ b)))
        let w := if op = 7 ∧ old = arg then w.mapCmd c r.ord (fun p => { p with cas := p.cas + 1 }) else w
        let back := (List.range z).map (fun b => BitVec.ofNat 8 (old / 256 ^ b))
        (r.ret = none → next w) ∧
        ∀ a, r.ret = some a →
          (((w.core c).cmd r.ord).isSome = true → next (w.mapCmd c r.ord (fun p =>
            { p with out := p.out ++ [⟨r.e, a, back, none, rspHome r.pa⟩] }))) ∧
          (((w.core c).cmd r.ord).isSome = false → next (w.mapCore c (fun x => x.scrWrite a back)))))

/-! ### Ticks, resets and the service states of dies -/

namespace Sys2Proof.Machine

/-- An event that changes one die alone. -/
def DieStep (i : Instr) (s : State) (rest : List Turn) (d : Nat) (y : Die) : Prop :=
  ∃ ds, let t : State := { s with dies := ds, agenda := rest }
    exec i s = .next t ∧ t.die d = y ∧ ∀ e, e ≠ d → t.die e = s.die e

/-- An event that changes the registers of one function alone. -/
def VfStep (i : Instr) (s : State) (rest : List Turn) (v : Nat) (y : Vf) : Prop :=
  ∃ vs, let t : State := { s with vfs := vs, agenda := rest }
    exec i s = .next t ∧ t.vf v = y ∧ ∀ e, e ≠ v → t.vf e = s.vf e

/-- Refill(v) of spec/15 R316 between two buckets and the pool before and after. -/
def Refilled (b : Bucket) (pool poolmax : Nat) (b' : Bucket) (pool' : Nat) : Prop :=
  let pay := if b.debt ≤ b.rate / 4 then b.debt else b.rate / 4
  let n := b.tok + b.rate - pay
  b' = { b with depthA := b.depth, dmaxA := b.dmax, debt := b.debt - pay, tok := if n ≤ b.depth then n else b.depth } ∧
  pool' = if n ≤ b.depth then pool else if pool + (n - b.depth) ≤ poolmax then pool + (n - b.depth) else poolmax

/-- Charge(v, 1) of spec/15 R315: collected, or WAIT. -/
def Charged (b : Bucket) (pool : Nat) (b' : Bucket) (pool' : Nat) : Prop :=
  (1 ≤ b.tok ∧ b' = { b with tok := b.tok - 1 } ∧ pool' = pool) ∨
  (b.tok = 0 ∧ b.borrow = true ∧ 1 ≤ pool ∧ b.debt + 1 ≤ b.dmaxA ∧ b' = { b with debt := b.debt + 1 } ∧ pool' = pool - 1)
def ChargeWaits (b : Bucket) (pool : Nat) : Prop := b.tok = 0 ∧ ¬ (b.borrow = true ∧ 1 ≤ pool ∧ b.debt + 1 ≤ b.dmaxA)

/-- Whether every die is FULL or FAILED: ALLFULL of PKGSTAT (spec/20 R398). -/
def AllFull (s : State) : Prop := ∀ e < 8, (s.die e).st = .full ∨ (s.die e).st = .failed

/-- A die changes its service state; vector 0 of the physical function is raised when ALLFULL becomes 1; `tests` are the self-tests that
a READMIT has still to see end, and `free` frees the mailbox. -/
def DieBecomes (i : Instr) (s : State) (rest : List Turn) (d : Nat) (y : Die) (tests : List Nat) (free : Bool) : Prop :=
  ∃ ds f out, let t : State := { s with
      dies := ds, agenda := rest, outbox := s.outbox ++ out
      pkg := { s.pkg with wasfull := f, mbox := { s.pkg.mbox with busy := s.pkg.mbox.busy && !free, tests := tests } } }
    exec i s = .next t ∧ t.die d = y ∧ (∀ e, e ≠ d → t.die e = s.die e) ∧
    (f = true ↔ AllFull t) ∧ (AllFull t → s.pkg.wasfull = false → out = [.pfMsix 0]) ∧ (¬ AllFull t ∨ s.pkg.wasfull = true → out = [])

/-- What PARTRESET leaves of a partition (spec/20 R412): its dies OFFLINE but for a FAILED one (R399), their queues DISABLED and empty, no context on their cores,
SDM zeros, and no Newt slot enabled; dies outside it keep their service state. -/
def PartitionReset (s t : State) (p : Nat) : Prop :=
  (∀ d < 8, s.partOf d = p → (t.die d).st = (if (s.die d).st = .failed then .failed else .offline) ∧ (∀ q < 64, (t.queue d q).st = .disabled ∧ (t.queue d q).fifo = [] ∧ (t.queue d q).qctl.getLsbD 31 = false) ∧
    (∀ c, dieOf c = d → (t.core c).ctx = none) ∧ (∀ pa, homeOf pa = .sdm d → t.portRead pa 1 = [0]) ∧ ∀ k < 16, (t.slot d k).en = false) ∧
  ∀ e < 8, s.partOf e ≠ p → (t.die e).st = (s.die e).st

end Sys2Proof.Machine

/-- R316, R335 and spec/18 R372: every millisecond a die refills its tenants' core time, in increasing number and with one pool, and their
Newt words; a tenant with a token is no longer spent. -/
def Sys2Proof.Machine.BudgetRefillFollowsR316AndR335 : Prop :=
  ∀ (s : State) (rest : List Turn) (d : Nat), Turns s (.budgetRefill d) rest → s.keysOk →
    ∃ (ds : Tab Die) (vs : Tab VfDie) (pool : Nat → Nat), let t : State := { s with dies := ds, vfdie := vs, agenda := rest }
      exec (.budgetRefill d) s = .next t ∧ pool 0 = (s.die d).bupool ∧
      (∀ i v, (s.tenantsOn d)[i]? = some v → ∃ b, Refilled (s.vd d v).bu (pool i) (s.die d).bupoolmax b (pool (i + 1)) ∧
        t.vd d v = { s.vd d v with bu := b, spent := (s.vd d v).spent && decide (b.tok = 0), nbleft := (s.vd d v).nbud }) ∧
      t.die d = { s.die d with bupool := pool (s.tenantsOn d).length } ∧
      (∀ e, e ≠ d → t.die e = s.die e) ∧ ∀ e v, v < 512 → (e ≠ d ∨ v ∉ s.tenantsOn d) → t.vd e v = s.vd e v

/-- R316, R334, R337, R399, R412: what the 1000 ns tick of a die does: the refill of copy tokens, the charge of core time, a DRAIN that has
waited too long, the watchdogs' count, and the entry into FULL. A die whose partition has an idle core on a die that serves tasks chooses
no pre-emption. -/
def Sys2Proof.Machine.TicksFollowR316R334R337AndR412 : Prop :=
  ∀ (s : State) (rest : List Turn) (d : Nat), Turns s (.refillTick d) rest → s.keysOk → ∃ t, exec (.refillTick d) s = .next t ∧
    (∃ pool : Nat → Nat, pool 0 = (s.die d).cbpool ∧ (t.die d).cbpool = pool (s.tenantsOn d).length ∧
      ∀ i v, (s.tenantsOn d)[i]? = some v → Refilled (s.vd d v).cb (pool i) (s.die d).cbpoolmax (t.vd d v).cb (pool (i + 1))) ∧
    (t.die d).st = (if (s.die d).st = .early ∧ (s.die d).trainedL = true ∧ (s.die d).trainedU = true then .full else (s.die d).st) ∧
    (∀ q < 64, let x := s.queue d q
      let counts : Prop := x.st ≠ .disabled ∧ x.limit ≠ 0 ∧ s.queueHolds d q = true ∧ x.rem ≠ 0
      (counts → t.queue d q = { x with rem := x.rem - 1 } ∧ (x.rem = 1 → ∃ c k j, .event c k j (.watchdog d q) ∈ t.agenda)) ∧
      (¬ counts → t.queue d q = x)) ∧
    (∀ c t0, dieOf c = d → (s.ctx c).preempt = .drain t0 →
      (t.ctx c).preempt = .checkpoint ∨ ((t.ctx c).preempt = .drain t0 ∧ s.dieclk ≤ t0 + 1000 * (s.die d).prdrainw)) ∧
    ((∃ e, dieOf e ∈ s.diesOf (s.partOf d) ∧ s.serves (dieOf e) = true ∧ (s.core e).ctx = none) → ∀ c, (t.core c).removal = (s.core c).removal ∧
      (dieOf c ≠ d ∨ (∀ t0, (s.ctx c).preempt ≠ .drain t0) → (t.ctx c).preempt = (s.ctx c).preempt) ∧
      (dieOf c = d → ∀ t0, (s.ctx c).preempt = .drain t0 →
        (t.ctx c).preempt = if s.dieclk > t0 + 1000 * (s.die d).prdrainw then .checkpoint else .drain t0)) ∧
    (∀ c y, dieOf c = d → (s.core c).ctx = some y → (s.vd d y.vf).bu.meter = false → (t.ctx c).charged = y.charged ∧ t.vd d y.vf = { s.vd d y.vf with cb := (t.vd d y.vf).cb }) ∧
    ∀ c y, dieOf c = d → s.cores.filter (fun e => decide (dieOf e.1 = d ∧ e.2.ctx.isSome)) = [(c, s.core c)] → (s.core c).ctx = some y →
      (s.vd d y.vf).bu.meter = true → y.vf < 512 →
      (∀ b pool, Charged (s.vd d y.vf).bu (s.die d).bupool b pool →
        (t.vd d y.vf).bu = b ∧ (t.die d).bupool = pool ∧ (t.ctx c).charged = y.charged + 1 ∧ (t.vd d y.vf).spent = (s.vd d y.vf).spent) ∧
      (ChargeWaits (s.vd d y.vf).bu (s.die d).bupool →
        (t.vd d y.vf).bu = (s.vd d y.vf).bu ∧ (t.die d).bupool = (s.die d).bupool ∧ (t.ctx c).charged = y.charged ∧ (t.vd d y.vf).spent = true)

/-- R316, R334, R335, R337, R412: the refills of every millisecond, and what the 1000 ns tick of a die does. -/
def Obligations.TicksAndRefillsFollowR316R334R335AndR412 : Prop :=
  BudgetRefillFollowsR316AndR335 ∧ TicksFollowR316R334R337AndR412

/-- R301, R310, R399 to R401, R408, R411 to R413: resets of functions, partitions and the package, watchdog expiries, the self-tests and
training of dies, over-temperature, and memory errors. That the reset of a partition follows the last expiry of one tick in it is the
model's choice (log entry 53). -/
def Obligations.ResetsAndServiceStatesFollowR399ToR413 : Prop :=
  ∀ (s : State) (rest : List Turn) (d : Nat),
    (∀ v, Turns s (.vfReset v) rest → let x := s.vf v
      ∃ vs ws, let t : State := { s with vfs := vs, walks := ws, agenda := rest }
        exec (.vfReset v) s = .next t ∧ t.vf v = { x with gen := x.gen + 1, preqs := [], prstop := false, sets := [] } ∧
        (∀ e, e ≠ v → t.vf e = s.vf e) ∧ ws.length = s.walks.length ∧ ∀ (j : Nat) (w : Walk), s.walks[j]? = some w →
          ((w.vf = v ∧ ∃ ix, w.st = .page ix) → ws[j]? = some { w with st := .withdrawn }) ∧
          (¬ (w.vf = v ∧ ∃ ix, w.st = .page ix) → ws[j]? = some w)) ∧
    (∀ v, v < 512 → Turns s (.vfCreation v) rest → ∃ vs ws, let t : State := { s with vfs := vs, vfdie := ws, agenda := rest }
      exec (.vfCreation v) s = .next t ∧ t.vf v = {} ∧ (∀ w, w ≠ v → t.vf w = s.vf w) ∧ (∀ e < 8, t.vd e v = {}) ∧
      ∀ e w, w < 512 → w ≠ v → t.vd e w = s.vd e w) ∧
    (∀ upper, Turns s (.hbmTrainingComplete d upper) rest → let x := s.die d
      DieStep (.hbmTrainingComplete d upper) s rest d { x with trainedL := x.trainedL || !upper, trainedU := x.trainedU || upper }) ∧
    (∀ slow, Turns s (.throttle d slow) rest → DieStep (.throttle d slow) s rest d { s.die d with slow := slow }) ∧
    (Turns s (.correctedError d) rest → DieStep (.correctedError d) s rest d { s.die d with errs := (s.die d).errs + 1 }) ∧
    (∀ pass, d < 8 → Turns s (.selftestComplete d pass) rest → let x := s.die d
      let tests := s.pkg.mbox.tests
      (x.st ≠ .selftest → Idles (.selftestComplete d pass) s rest) ∧
      (x.st = .selftest → d ∉ tests → DieBecomes (.selftestComplete d pass) s rest d
        { x with st := if pass = true then .early else .failed, left := s.clock } tests false) ∧
      (x.st = .selftest → d ∈ tests → DieBecomes (.selftestComplete d pass) s rest d
        { x with st := if pass = true then .full else .failed, left := s.clock
                 trainedL := x.trainedL || pass, trainedU := x.trainedU || pass }
        (tests.filter (fun e => e != d)) (tests.all (fun e => e == d)))) ∧
    (Turns s (.dieOvertemp d) rest → ∃ t, exec (.dieOvertemp d) s = .next t ∧ (t.die d).st = .failed ∧
      (∀ c, dieOf c = d → (t.core c).ctx = none) ∧ (∀ q, (t.queue d q).resum = []) ∧ ∀ e, e ≠ d → (t.die e).st = (s.die e).st) ∧
    (∀ pa, Turns s (.uncorrectableError pa) rest →
      ((∃ n, homeOf pa = .hbm n ∨ homeOf pa = .sdm n) → ∃ p, exec (.uncorrectableError pa) s = .next { s with poison := p, agenda := rest } ∧
        ∀ g, g ∈ p ↔ (g = pa / 16 ∨ g ∈ s.poison)) ∧
      (¬ (∃ n, homeOf pa = .hbm n ∨ homeOf pa = .sdm n) → Idles (.uncorrectableError pa) s rest)) ∧
    (∀ q, d < 8 → Turns s (.watchdog d q) rest → let x := s.queue d q
      let w : Word := BitVec.ofNat 64 (q + 64 * d)
      let others : Prop := ∃ c k j e p, .event c k j (.watchdog e p) ∈ rest ∧ s.partOf e = s.partOf d
      (x.st = .disabled ∨ x.limit = 0 ∨ x.rem ≠ 0 → Idles (.watchdog d q) s rest) ∧
      (x.st ≠ .disabled → x.limit ≠ 0 → x.rem = 0 → ∃ ds, let t : State := { s with
          dies := ds, agenda := rest, pkg := { s.pkg with wdlast := w }, outbox := s.outbox ++ [.watchdog w, .pfMsix 1] }
        t.queue d q = { x with st := .faulted, reason := 13, code := 0x30 } ∧ (∀ e p, (e ≠ d ∨ p ≠ q) → t.queue e p = s.queue e p) ∧
        (others → exec (.watchdog d q) s = .next t) ∧
        (¬ others → ∃ u, exec (.watchdog d q) s = .next u ∧ PartitionReset t u (s.partOf d)))) ∧
    (∀ bs, Turns s (.packageReset bs) rest → let cfg := s.pkg.cfgNext.getD bs
      ∃ ds, exec (.packageReset bs) s = .next { State.reset with
          mem := s.mem, poison := s.poison, free := s.free, inbox := s.inbox, outbox := s.outbox, dies := ds
          pkg := { cfgok := imageVerifies false cfg, fw := s.pkg.fw, cfg := cfg } } ∧
        ∀ e, Tab.get {} ds e = { st := if imageVerifies false cfg = true ∧ e < 8 then .selftest else .reset })

/-! ### Registers, features, partitions and the mailbox -/

namespace Sys2Proof.Machine

/-- An event that changes the package's own registers alone. -/
def PkgStep (i : Instr) (s : State) (rest : List Turn) (y : Pkg) : Prop := exec i s = .next { s with pkg := y, agenda := rest }

/-- An event that changes the registers of one function on one die alone. -/
def VdStep (i : Instr) (s : State) (rest : List Turn) (d v : Nat) (y : VfDie) : Prop :=
  ∃ vs, let t : State := { s with vfdie := vs, agenda := rest }
    exec i s = .next t ∧ t.vd d v = y ∧ ∀ e w, w < 512 → (e ≠ d ∨ w ≠ v) → t.vd e w = s.vd e w

/-- A mailbox that ends its command with a result (spec/20 R406). -/
def Mailbox.done (m : Mailbox) (r : Nat) : Mailbox := { m with busy := false, result := r }

/-- A command ends with a result and the package's registers as `y`, but for the mailbox. While no configuration record has verified it is
refused instead (R399). -/
def Commands (i : Instr) (s : State) (rest : List Turn) (served : Prop) : Prop :=
  (s.pkg.cfgok = false → PkgStep i s rest { s.pkg with mbox := s.pkg.mbox.done 1 }) ∧ (s.pkg.cfgok = true → served)

/-- The buffer of the mailbox holds these bytes, and is otherwise as it was. -/
def BufferHolds (m m' : Mailbox) (bs : List Byte) : Prop :=
  ∃ b, m' = { m with buf := b, busy := false, result := 0 } ∧ ∀ a, Tab.get 0 b a = (bs[a]?).getD (Tab.get 0 m.buf a)

/-- A flag of a table of flags becomes `v`. -/
def FlagSet (f f' : Tab Bool) (k : Nat) (v : Bool) : Prop := ∀ e, Tab.get false f' e = if e = k then v else Tab.get false f e

/-- A PARTMAP value keeps every route inside its partition, and no FAILED die shares one (spec/19 R388, spec/20 R401). -/
def MapFits (s : State) (m : BitVec 24) : Prop :=
  ∀ a < 8, ∀ b < 8, a ≠ b → m.extractLsb' (3 * a) 3 = m.extractLsb' (3 * b) 3 →
    (∀ x ∈ route a b, m.extractLsb' (3 * x) 3 = m.extractLsb' (3 * a) 3) ∧ (s.die a).st ≠ .failed

/-- The conditions of spec/19 R389 on the dies whose partition a map changes: no context, no bound queue, and no judged request or
response outstanding. -/
def MapQuiet (s : State) (m : BitVec 24) : Prop :=
  ∀ d < 8, (m.extractLsb' (3 * d) 3).toNat ≠ s.partOf d →
    (∀ e ∈ s.cores, dieOf e.1 = d → e.2.ctx = none) ∧ (∀ q ∈ (s.die d).queues, q.2.st = .disabled) ∧
      s.outstanding d = false

/-- Whether a function's context runs or is suspended. -/
def VfBusy (s : State) (v : Nat) : Prop :=
  (∃ e ∈ s.cores, ∃ y, e.2.ctx = some y ∧ y.vf = v) ∨ ∃ d ∈ s.dies, ∃ q ∈ d.2.queues, ∃ y ∈ q.2.resum, y.vf = v

end Sys2Proof.Machine

/-- R307, R389, R390, R402, R403: writes of a function's FEATSEL, VFPART and TINVN; when its features, a partition map and an invalidation
take effect. That an invalidation waits for every access of the function that has been translated, whatever its address, is the model's
choice (log entry 91). -/
def Obligations.FunctionRegistersFollowR307R390AndR403 : Prop :=
  ∀ (s : State) (rest : List Turn) (vf : Nat), let x := s.vf vf
    (∀ v, Turns s (.featselWrite vf v) rest → VfStep (.featselWrite vf v) s rest vf { x with featsel := v, fpend := true }) ∧
    (Turns s (.featuresTakeEffect vf) rest →
      (x.fpend = true → ¬ VfBusy s vf → ∃ a, VfStep (.featuresTakeEffect vf) s rest vf { x with featact := a, fpend := false } ∧
        ∀ b < 128, a.getLsbD b = ((decide (b < 12) && x.featsel.getLsbD b) || b == 0 || b == 11)) ∧
      (x.fpend = false ∨ VfBusy s vf → Idles (.featuresTakeEffect vf) s rest)) ∧
    (∀ v, Turns s (.vfpartWrite vf v) rest →
      let active : Prop := ∃ d ∈ s.dies, ∃ q ∈ d.2.queues, q.2.st = .active ∧ (q.2.qctl.extractLsb' 0 9).toNat = vf
      (v.extractLsb' 3 61 = 0 → ¬ active → VfStep (.vfpartWrite vf v) s rest vf { x with part := v.extractLsb' 0 3 }) ∧
      (v.extractLsb' 3 61 ≠ 0 ∨ active → Idles (.vfpartWrite vf v) s rest)) ∧
    (∀ v, Turns s (.tinvnWrite vf v) rest →
      (v.extractLsb' 32 31 = 0 → VfStep (.tinvnWrite vf v) s rest vf
        { x with tinv := x.tinv ++ [((x.tinva.extractLsb' 16 41).toNat, (v.extractLsb' 0 32).toNat)] }) ∧
      (v.extractLsb' 32 31 ≠ 0 → Idles (.tinvnWrite vf v) s rest)) ∧
    (Turns s (.invalidationComplete vf) rest →
      let mine (d : Nat) : Prop := d < 8 ∧ s.partOf d = x.part.toNat
      (x.tinv = [] → Idles (.invalidationComplete vf) s rest) ∧
      (∀ r l, x.tinv = r :: l → ∃ vs tlb ws, let t : State := { s with vfs := vs, tlb := tlb, walks := ws, agenda := rest }
        exec (.invalidationComplete vf) s = .next t ∧
        t.vf vf = { x with tinv := if ({ s with walks := ws } : State).inFlight vf then x.tinv else l } ∧ (∀ e, e ≠ vf → t.vf e = s.vf e) ∧
        (∀ e, e ∈ tlb ↔ (e ∈ s.tlb ∧ ¬ (e.vf = vf ∧ mine (e.cluster / 32) ∧
          (r.2 = 0 ∨ (e.base < (r.1 + r.2) * 2 ^ 16 ∧ r.1 * 2 ^ 16 < e.base + e.size))))) ∧
        ws.length = s.walks.length ∧ ∀ (j : Nat) (w : Walk), s.walks[j]? = some w →
          let starts : Prop := w.vf = vf ∧ mine w.die ∧ (w.st = .slot ∨ (∃ io, w.st = .ats io) ∨ ∃ io pa, w.st = .answer io pa)
          (starts → ws[j]? = some { w with st := .again }) ∧ (¬ starts → ws[j]? = some w))) ∧
    (Turns s .partmapTakesEffect rest →
      (∀ m, s.pkg.pmpend = some m → MapQuiet s m → PkgStep .partmapTakesEffect s rest { s.pkg with pid := m, pmpend := none }) ∧
      ((∀ m, s.pkg.pmpend = some m → ¬ MapQuiet s m) → Idles .partmapTakesEffect s rest))

/-- R392, R399, R406, R407, R409, R410, R412, R413: the commands of Chameleon's mailbox and what ends those that wait; links that fail and
return. -/
def Obligations.MailboxCommandsFollowR406ToR413 : Prop :=
  ∀ (s : State) (rest : List Turn), let p := s.pkg
    let m := p.mbox
    let a (i : Nat) : Word := Tab.get 0 m.arg i
    let ends (i : Instr) (r : Nat) : Prop := PkgStep i s rest { p with mbox := m.done r }
    (Turns s .attest rest → Commands .attest s rest (∃ m', PkgStep .attest s rest { p with mbox := m' } ∧ BufferHolds m m' (attestReport s) ∧
      (attestReport s).length = 3557)) ∧
    (Turns s .getid rest → Commands .getid s rest (∃ m', PkgStep .getid s rest { p with mbox := m' } ∧
      BufferHolds m m' ((Config.identity ++ List.replicate 8192 0).take 8192))) ∧
    (∀ img, Turns s (.update img) rest →
      (a 2 = 0 → (p.cfgok = false → ends (.update img) 1) ∧ (p.cfgok = true →
        (imageVerifies true img = false → ends (.update img) 2) ∧
        (imageVerifies true img = true → Config.version img < Config.rollback p.cfg → ends (.update img) 3) ∧
        (imageVerifies true img = true → Config.rollback p.cfg ≤ Config.version img →
          PkgStep (.update img) s rest { p with fw := img, mbox := m.done 0 }))) ∧
      (a 2 = 1 → (imageVerifies true img = false → ends (.update img) 2) ∧
        (imageVerifies true img = true → PkgStep (.update img) s rest { p with cfgNext := some img, mbox := m.done 0 })) ∧
      (a 2 ≠ 0 → a 2 ≠ 1 → ends (.update img) 1)) ∧
    (Turns s .newtload rest → let d := (a 0).toNat
      let k := (a 1).toNat
      Commands .newtload s rest (
        (8 ≤ d ∨ 16 ≤ k → ends .newtload 1) ∧
        (d < 8 → k < 16 → (s.slot d k).run ≠ none →
          exec .newtload s = .next { s with agenda := rest, inbox := .event 0 .s 0 .newtload :: s.inbox }) ∧
        (d < 8 → k < 16 → (s.slot d k).run = none → ∃ (ds : Tab Die) (prog : Tab (BitVec 32)) (r : Nat),
          let t : State := { s with dies := ds, agenda := rest, pkg := { p with mbox := m.done r } }
          exec .newtload s = .next t ∧ (∀ e j, (e ≠ d ∨ j ≠ k) → t.slot e j = s.slot e j) ∧
          (∀ w < 64, Tab.get 0 prog w = BitVec.ofNat 32 (NumberOf ((List.range 4).map fun b => Tab.get 0 m.buf (4 * w + b)))) ∧
          (loadCheck prog = none → r = 0 ∧ t.slot d k = { s.slot d k with prog := prog, reason := 0, badix := 0 }) ∧
          ∀ e, loadCheck prog = some e → r = 1 ∧ t.slot d k = { s.slot d k with reason := e.1, badix := e.2 }))) ∧
    (Turns s .recalhbm rest → Commands .recalhbm s rest (
      (16 ≤ (a 0).toNat → ends .recalhbm 1) ∧
      ((a 0).toNat < 16 → ∃ f, PkgStep .recalhbm s rest { p with recal := f } ∧ FlagSet p.recal f (a 0).toNat true))) ∧
    (Turns s .recallink rest → Commands .recallink s rest (
      (14 ≤ (a 0).toNat → ends .recallink 1) ∧
      ((a 0).toNat < 14 → ∃ f, PkgStep .recallink s rest { p with force := f } ∧ FlagSet p.force f (a 0).toNat true))) ∧
    (Turns s .partmap rest → let v := a 0
      Commands .partmap s rest (
        (v.extractLsb' 26 38 = 0 → MapFits s (v.extractLsb' 0 24) →
          PkgStep .partmap s rest { p with pmerr := false, pmpend := some (v.extractLsb' 0 24), mbox := m.done 0 }) ∧
        (v.extractLsb' 26 38 ≠ 0 ∨ ¬ MapFits s (v.extractLsb' 0 24) → PkgStep .partmap s rest { p with pmerr := true, mbox := m.done 1 }))) ∧
    (Turns s .partreset rest → Commands .partreset s rest (
      (8 ≤ (a 0).toNat → ends .partreset 1) ∧
      ((a 0).toNat < 8 → ∃ t, exec .partreset s = .next t ∧ PartitionReset s t (a 0).toNat ∧
        t.pkg.mbox = { m.done 0 with tests := t.pkg.mbox.tests }))) ∧
    (Turns s .readmit rest → let mine (d : Nat) : Prop := d < 8 ∧ s.partOf d = (a 0).toNat ∧ (a 0).toNat < 8
      Commands .readmit s rest (
        ((∀ d, mine d → (s.die d).st ≠ .offline) → ends .readmit 1) ∧
        ((∃ d, mine d ∧ (s.die d).st = .offline) → ∃ t, exec .readmit s = .next t ∧
          t.pkg.mbox = { m with result := t.pkg.mbox.result, tests := t.pkg.mbox.tests } ∧
          (∀ d, d ∈ t.pkg.mbox.tests ↔ (mine d ∧ (s.die d).st = .offline)) ∧
          (t.pkg.mbox.result = 0 ↔ ∀ d, mine d → (s.die d).st = .offline) ∧ t.pkg.mbox.result ≤ 1 ∧
          ∀ d, t.die d = { s.die d with st := (t.die d).st } ∧
            (mine d → (s.die d).st = .offline → (t.die d).st = .selftest) ∧
            (¬ (mine d ∧ (s.die d).st = .offline) → (t.die d).st = (s.die d).st)))) ∧
    (∀ k, Turns s (.hbmRetrained k) rest → ∃ f, FlagSet p.recal f k false ∧
      let ending : Prop := m.busy = true ∧ m.cmd = 5 ∧ (a 0).toNat = k
      (ending → PkgStep (.hbmRetrained k) s rest { p with recal := f, mbox := m.done 0 }) ∧
      (¬ ending → PkgStep (.hbmRetrained k) s rest { p with recal := f })) ∧
    (∀ l, Turns s (.linkRetrained l) rest → ∃ f g, FlagSet p.force f l false ∧ FlagSet p.down g l false ∧
      let ending : Prop := m.busy = true ∧ m.cmd = 6 ∧ (a 0).toNat = l
      (ending → PkgStep (.linkRetrained l) s rest { p with force := f, down := g, mbox := m.done 0 }) ∧
      (¬ ending → PkgStep (.linkRetrained l) s rest { p with force := f, down := g })) ∧
    ∀ l, Turns s (.linkDown l) rest → ∃ g, FlagSet p.down g l true ∧ PkgStep (.linkDown l) s rest { p with down := g }

namespace Sys2Proof.Machine

/-- NSCTL of a slot as it reads: VF, EN, which a write has cleared at once, ANY, MASK and VEC, and zeros (R364, R365). -/
def NsctlHolds (z : Slot) (c : Word) : Prop :=
  c.extractLsb' 0 9 = z.vf ∧ c.getLsbD 9 = false ∧ c.getLsbD 10 = (z.en && !z.endEn) ∧ c.getLsbD 11 = z.any ∧ c.extractLsb' 12 4 = 0 ∧
  c.extractLsb' 16 10 = z.mask ∧ c.extractLsb' 26 6 = 0 ∧ c.extractLsb' 32 6 = z.vec ∧ c.extractLsb' 38 26 = 0

/-- What a read at an offset of the map of a Newt slot gives: halves of its 64-bit registers, and its words as they stood before the run
that is under way (R364). -/
def SlotRead (z : Slot) (o : Nat) (v : Word) : Prop :=
  let r : NewtRun := match z.run with
    | some r => r
    | none => { ev := [], reg := z.reg, tab := z.tab, snapR := z.snapR, snapT := z.snapT, snapN := z.snapN }
  let half (u : Word) (a : Nat) : Prop :=
    (o = a → v = (u.extractLsb' 0 32).setWidth 64) ∧ (o = a + 4 → v = (u.extractLsb' 32 32).setWidth 64)
  let entry (t : Tab (BitVec 32)) (a n : Nat) : Prop := ∀ j < n, o = a + 4 * j → v = (Tab.get 0 t j).setWidth 64
  (∀ c, NsctlHolds z c → half c 0) ∧ half (BitVec.ofNat 64 (z.reason + 2 ^ 8 * z.badix + 2 ^ 32 * z.ixerr)) 8 ∧
  half (BitVec.ofNat 64 (z.qdrop + 2 ^ 32 * z.bdrop)) 0x10 ∧ half (r.snapN.setWidth 64) 0x18 ∧ half z.trig 0x20 ∧
  entry r.reg 0x100 16 ∧ entry z.prog 0x200 64 ∧ entry r.tab 0x1000 1024 ∧ entry r.snapR 0x2000 16 ∧ entry r.snapT 0x2040 1024 ∧
  ((0x28 ≤ o ∧ o < 0x100) ∨ (0x140 ≤ o ∧ o < 0x200) ∨ (0x300 ≤ o ∧ o < 0x1000) ∨ 0x3040 ≤ o → v = 0)

/-- A write of NSCTL (R365, R366): MASK and VEC, with ANY and VF where the physical function's driver writes; EN enables a slot whose
program passes its load check, and a slot in a run is disabled when that ends. -/
def NsctlWrites (i : Instr) (s : State) (rest : List Turn) (d k : Nat) (pf : Bool) (v : Word) : Prop :=
  let x := s.slot d k
  let fits : Prop := v.extractLsb' 38 26 = 0 ∧ v.extractLsb' 26 6 = 0 ∧ v.extractLsb' 12 4 = 0 ∧ v.getLsbD 9 = false ∧
    (pf = true ∨ v.getLsbD 10 = false ∨ s.feat x.vf.toNat 5 = true)
  let y : Slot := { x with vec := v.extractLsb' 32 6, mask := v.extractLsb' 16 10, any := if pf then v.getLsbD 11 else x.any
                           vf := if pf then v.extractLsb' 0 9 else x.vf }
  let emptied (z : Slot) : Slot := { z with queue := [], qdrop := Sat32 (x.qdrop + x.queue.length) }
  (¬ fits → Idles i s rest) ∧
  (fits → v.getLsbD 10 = true → x.en = true → x.endEn = false → NewtStep i s rest d k y) ∧
  (fits → v.getLsbD 10 = true → x.en = false ∨ x.endEn = true → let z := if x.endEn then emptied y else y
    (loadCheck x.prog = none → NewtStep i s rest d k { z with en := true, endEn := false, reason := 0, badix := 0 }) ∧
    ∀ e, loadCheck x.prog = some e → NewtStep i s rest d k { z with reason := e.1, badix := e.2 }) ∧
  (fits → v.getLsbD 10 = false → x.en = false → NewtStep i s rest d k y) ∧
  (fits → v.getLsbD 10 = false → x.en = true → x.run ≠ none → NewtStep i s rest d k { y with endEn := true }) ∧
  (fits → v.getLsbD 10 = false → x.en = true → x.run = none → NewtStep i s rest d k { emptied y with en := false, endEn := false })

/-- What the reads of a die's block of the physical function's BAR give (R396), at an offset of the block. -/
def DieBlockReads (s : State) (d o : Nat) (gives : Word → Prop) : Prop :=
  let x := s.die d
  let num (n : Nat) : Prop := gives (BitVec.ofNat 64 n)
  let ctl (b : Bucket) : Word := (if b.meter then 1 else 0) ||| (if b.borrow then 2 else 0)
  (o = 0 → num x.cbpoolmax) ∧ (o = 0x08 → num x.cbpool) ∧ (o = 0x10 → num x.bupoolmax) ∧ (o = 0x18 → num x.bupool) ∧
  (o = 0x20 → num x.prwait) ∧ (o = 0x28 → num x.prckpt) ∧ (o = 0x30 → num x.prdrainw) ∧ (o = 0x38 → num x.nstarve) ∧
  (o = 0x40 → num x.fwdeny) ∧ (o = 0x48 → gives x.fwlast) ∧
  (∀ q < 64, let b := 0x10000 + 0x40 * q
    let y := s.queue d q
    (o = b → gives y.qctl) ∧ (o = b + 8 → gives 0) ∧ (o = b + 0x18 → gives y.faddr) ∧ (o = b + 0x20 → num (y.limit + 2 ^ 32 * y.rem))) ∧
  (∀ k < 16, ∀ j < 0x1000, o = 0x20000 + 0x4000 * k + 4 * j → ∃ v, gives v ∧ SlotRead (s.slot d k) (4 * j) v) ∧
  ∀ w < 512, let b := 0x100000 + 0x80 * w
    let y := s.vd d w
    (o = b → gives (ctl y.cb)) ∧ (o = b + 0x08 → num y.cb.rate) ∧ (o = b + 0x10 → num y.cb.depth) ∧ (o = b + 0x18 → num y.cb.dmax) ∧
    (o = b + 0x20 → gives (ctl y.bu)) ∧ (o = b + 0x28 → num y.bu.rate) ∧ (o = b + 0x30 → num y.bu.depth) ∧
    (o = b + 0x38 → num y.bu.dmax) ∧ (o = b + 0x40 → num y.nbud) ∧ (o = b + 0x48 → gives ((s.vf w).part.setWidth 64)) ∧
    (o = b + 0x50 → gives (s.vf w).clkey)

/-- R314, R322, R364, R373, R389, R396 to R398, R402, R403: what register reads give: the value to the host, and nothing else of the
package changes. Zeros for an offset that is misaligned or named by no register, a die outside the function's partition, and a queue or
slot that is not bound to it; of a slot in a run, what stood before the run. -/
def RegisterReadsFollowTheirTables : Prop :=
  ∀ (s : State) (rest : List Turn) (pf : Bool) (vf off : Nat), s.agenda = .read pf vf off :: rest →
    let gives (v : Word) : Prop := runTurn s = .next { s with agenda := rest, outbox := s.outbox ++ [.regData pf vf off v] }
    let flag (b : Bool) (k : Nat) : Nat := if b then 2 ^ k else 0
    let code (q : QSt) : Nat := match q with | .disabled => 0 | .active => 1 | .faulted => 2
    let qstat (y : Queue) : Word := BitVec.ofNat 64
      (y.fifo.length + 2 ^ 10 * code y.st + 2 ^ 12 * y.reason + 2 ^ 20 * y.code + 2 ^ 32 * y.ovf)
    (off % 4 ≠ 0 → gives 0) ∧
    (pf = true → let p := s.pkg
      (off = 0 → ∃ v, gives v ∧ v.getLsbD 24 = p.cfgok ∧ (v.getLsbD 25 = true ↔ AllFull s) ∧ v.extractLsb' 26 38 = 0 ∧
        ∀ d < 8, (v.extractLsb' (3 * d) 3).toNat = (match (s.die d).st with
          | .reset => 0 | .selftest => 1 | .early => 2 | .full => 3 | .offline => 4 | .failed => 5)) ∧
      (off = 8 → ∃ v, gives v ∧ v.extractLsb' 0 24 = p.pid ∧ v.getLsbD 24 = p.pmpend.isSome ∧ v.getLsbD 25 = p.pmerr ∧
        v.extractLsb' 26 38 = 0) ∧
      (off = 0x10 → gives p.wdlast) ∧ (off = 0x18 → gives (BitVec.ofNat 64 p.pwrcap)) ∧
      (off = 0x20 → ∃ t v, runTurn s = .next t ∧ t.agenda = rest ∧ t.outbox = s.outbox ++ [.regData pf vf off v] ∧ v.toNat < 2 ^ 16) ∧
      (0x28 ≤ off → off < 0x100 → off % 8 = 0 → gives 0) ∧
      (∀ l < 14, off = 0x100 + 8 * l → let e := linkEnds.getD l (0, 0)
        let force := Tab.get false p.force l
        gives (BitVec.ofNat 64 (flag force 0 + flag (force || decide (s.partOf e.1 ≠ s.partOf e.2)) 1 + flag (Tab.get false p.down l) 2))) ∧
      (off = 0x200 → gives p.mbox.cmd) ∧ (∀ j < 4, off = 0x208 + 8 * j → gives (Tab.get 0 p.mbox.arg j)) ∧
      (∀ j < 0x400, off = 0x2000 + 8 * j → ∃ v, gives v ∧ ∀ b < 8, v.extractLsb' (8 * b) 8 = Tab.get 0 p.mbox.buf (8 * j + b)) ∧
      (off = 0x300 → gives (p.zpkg.setWidth 64)) ∧
      (∀ j < 24, off = 0x400 + 8 * j → let z := Tab.get {} p.zport j
        gives (BitVec.ofNat 64 (z.pkg.toNat + 2 ^ 16 * z.far.toNat + flag z.up 21))) ∧
      (∀ d o, d < 8 → o < 0x200000 → off = 0x1000000 + 0x200000 * d + o → DieBlockReads s d o gives) ∧
      (off = 0x228 → gives (BitVec.ofNat 64 (flag p.mbox.busy 0 + 2 ^ 8 * p.mbox.result))) ∧
      ∀ d q, d < 8 → q < 64 → off = 0x1000000 + 0x200000 * d + 0x10010 + 0x40 * q → gives (qstat (s.queue d q))) ∧
    (pf = false → let x := s.vf vf
      (off = 0 → gives 0xFFF) ∧ (off = 8 → gives 0) ∧
      (off = 0x10 → gives (x.featsel.extractLsb' 0 64)) ∧ (off = 0x18 → gives (x.featsel.extractLsb' 64 64)) ∧
      (off = 0x20 → gives (x.featact.extractLsb' 0 64)) ∧ (off = 0x28 → gives (x.featact.extractLsb' 64 64)) ∧
      (off = 0x30 → gives (BitVec.ofNat 64 (flag x.fpend 0 + flag x.rst 1))) ∧ (off = 0x40 → gives x.ptroot) ∧
      (off = 0x48 → gives (BitVec.ofNat 64 (flag x.pren 0 + flag x.prstop 1 + 2 ^ 2 * x.pralloc.toNat + 2 ^ 16 * x.gen.toNat))) ∧
      (off = 0x50 → gives x.tinva) ∧
      (off = 0x58 → gives (if x.tinv = [] then 0 else 1 <<< 63)) ∧
      ∀ d o, o < 0x80000 → off = 0x100000 + 0x80000 * d + o → off % 4 = 0 →
        (8 ≤ d ∨ s.partOf d ≠ x.part.toNat → gives 0) ∧
        (d < 8 → s.partOf d = x.part.toNat → let y := s.vd d vf
          let num (n : Nat) : Prop := gives (BitVec.ofNat 64 n)
          (o = 0 → num y.prdrop) ∧ (o = 0x10 → num (flag y.nten 0 + flag y.frozen 1)) ∧ (o = 0x20 → num y.ntsize) ∧
          (o = 0x38 → num y.ntdrop) ∧ (o = 0x40 → num y.bu.tok) ∧ (o = 0x48 → num y.bu.debt) ∧ (o = 0x50 → num y.cb.tok) ∧
          (o = 0x58 → num y.cb.debt) ∧ (o = 0x60 → num y.nbleft) ∧ (o = 0x68 → num (y.afhead % 64)) ∧
          (∀ j < 64, ∀ h < 4, o = 0x800 + 32 * j + 8 * h → gives (((Tab.get none y.aflog j).map (fun e => e.word h)).getD 0)) ∧
          (∀ q < 64, o = 0x1010 + 0x20 * q → gives (if ((s.queue d q).qctl.extractLsb' 0 9).toNat = vf then (s.queue d q).faddr else 0)) ∧
          (o = 0x18 → gives y.ntbase) ∧ (o = 0x28 → gives (y.nthead.setWidth 64)) ∧ (o = 0x30 → gives (y.nttail.setWidth 64)) ∧
          (∀ q < 64, o = 0x1008 + 0x20 * q → gives (if ((s.queue d q).qctl.extractLsb' 0 9).toNat = vf then qstat (s.queue d q) else 0)) ∧
          ∀ k < 16, let z := s.slot d k
            let b := 0x40000 + 0x4000 * k
            (z.vf.toNat ≠ vf → b ≤ o → o < b + 0x4000 → gives 0) ∧
            (z.vf.toNat = vf → ∀ j < 0x1000, o = b + 4 * j → ∃ v, gives v ∧ SlotRead z (4 * j) v)))

/-- R396, R397, R406, R314, R322, R333: what a register write does at each offset of the physical function's BAR and of a function's; a
write to an offset that names no register, and one to a die outside the function's partition, is discarded. The model's own choices: the
high half of the write of a 32-bit register is dropped, and CBPOOLMAX takes no write with a bit above 23 set (log entry 102); a CHCMD value
that names no command has result 1, and a PWRCAP value outside its range is discarded (log entry 44). -/
def RegisterWritesFollowTheirTables : Prop :=
  ∀ (s : State) (rest : List Turn) (vf off : Nat) (v : Word), let p := s.pkg
    let low24 : Prop := v.extractLsb' 24 40 = 0
    (∀ pf, off % 4 ≠ 0 → Turns s (.registerWrite pf vf off v) rest → Idles (.registerWrite pf vf off v) s rest) ∧
    (let i : Instr := .registerWrite true vf off v
     Turns s i rest →
      (off % 8 ≠ 0 → off < 0x1000000 → Idles i s rest) ∧
      (off = 0 ∨ off = 8 ∨ off = 0x10 ∨ off = 0x20 ∨ off = 0x228 → Idles i s rest) ∧
      (off = 0x18 → (1000 ≤ v.toNat → v.toNat ≤ 3200 → PkgStep i s rest { p with pwrcap := v.toNat }) ∧
        (v.toNat < 1000 ∨ 3200 < v.toNat → Idles i s rest)) ∧
      (off = 0x200 → (p.mbox.busy = true → Idles i s rest) ∧
        (p.mbox.busy = false → v.toNat = 0 ∨ 10 ≤ v.toNat → PkgStep i s rest { p with mbox := { p.mbox with cmd := v, busy := false, result := 1 } }) ∧
        (p.mbox.busy = false → 1 ≤ v.toNat → v.toNat ≤ 9 → ∃ e out, exec i s = .next { s with
            pkg := { p with mbox := { p.mbox with cmd := v, busy := true, result := 0 } }, agenda := .event 0 .s 0 e :: rest
            outbox := s.outbox ++ out } ∧
          (v ≠ 3 → out = []) ∧ (v = 3 → ∀ h, homeOf (2 ^ 51 + (Tab.get 0 p.mbox.arg 0).toNat) = .host h →
            out = [.rdCurr (h / 64 * 64) (Tab.get 0 p.mbox.arg 1).toNat]) ∧
          (v = 1 → e = .attest) ∧ (v = 2 → e = .getid) ∧ (v = 4 → e = .newtload) ∧ (v = 5 → e = .recalhbm) ∧ (v = 6 → e = .recallink) ∧
          (v = 7 → e = .partmap) ∧ (v = 8 → e = .partreset) ∧ (v = 9 → e = .readmit) ∧
          (v = 3 → e = .update ((List.range (Tab.get 0 p.mbox.arg 1).toNat).map fun b => Tab.get 0 s.mem (2 ^ 51 + (Tab.get 0 p.mbox.arg 0).toNat + b))))) ∧
      (0x100 ≤ off ∧ off < 0x170 ∨ 0x400 ≤ off ∧ off < 0x4C0 → off % 8 = 0 → Idles i s rest) ∧
      (off = 0x300 → let live := ∃ x ∈ s.colls, x.live = true
        (v.extractLsb' 16 48 = 0 → ¬ live → PkgStep i s rest { p with zpkg := v.extractLsb' 0 16 }) ∧
        (v.extractLsb' 16 48 ≠ 0 ∨ live → Idles i s rest)) ∧
      (∀ j < 4, off = 0x208 + 8 * j → ∃ t, PkgStep i s rest { p with mbox := { p.mbox with arg := t } } ∧
        ∀ e, Tab.get 0 t e = if e = j then v else Tab.get 0 p.mbox.arg e) ∧
      (∀ o, o < 0x2000 → o % 8 = 0 → off = 0x2000 + o → ∃ t, PkgStep i s rest { p with mbox := { p.mbox with buf := t } } ∧
        ∀ e, Tab.get 0 t e = if o ≤ e ∧ e < o + 8 then v.extractLsb' (8 * (e - o)) 8 else Tab.get 0 p.mbox.buf e) ∧
      (∀ d o, d < 8 → o < 0x200000 → off = 0x1000000 + d * 0x200000 + o → let x := s.die d
        (o = 0 → low24 → DieStep i s rest d { x with cbpoolmax := v.toNat }) ∧
        (o = 0 → ¬ low24 → DieStep i s rest d x) ∧
        (o = 0x10 → DieStep i s rest d { x with bupoolmax := (v.extractLsb' 0 32).toNat }) ∧
        (o = 0x20 → DieStep i s rest d { x with prwait := (v.extractLsb' 0 32).toNat }) ∧
        (o = 0x28 → DieStep i s rest d { x with prckpt := (v.extractLsb' 0 32).toNat }) ∧
        (o = 0x30 → DieStep i s rest d { x with prdrainw := (v.extractLsb' 0 32).toNat }) ∧
        (o = 0x38 → DieStep i s rest d { x with nstarve := (v.extractLsb' 0 32).toNat }) ∧
        (o = 0x08 ∨ o = 0x18 ∨ o = 0x40 ∨ o = 0x48 → Idles i s rest) ∧
        (∀ q < 64, o = 0x10008 + 0x40 * q → QsubWritten i s rest d q v) ∧
        (∀ q < 64, o = 0x10020 + 0x40 * q → QwdogWritten i s rest d q v) ∧
        (∀ q < 64, o = 0x10000 + 0x40 * q → let y := s.queue d q
          (¬ QctlClear v → Idles i s rest) ∧
          (QueueBinds s d q v → QueueStep i s rest d q { y with qctl := v, st := .active }) ∧
          (v.getLsbD 31 = true → ¬ QueueBinds s d q v → Idles i s rest) ∧
          (QctlClear v → v.getLsbD 31 = false → y.qctl.getLsbD 31 = true → QueueOff i s rest d q) ∧
          (QctlClear v → v.getLsbD 31 = false → y.qctl.getLsbD 31 = false → QueueStep i s rest d q { y with qctl := v })) ∧
        (∀ k < 16, let b := 0x20000 + 0x4000 * k
          ∀ c, NsctlHolds (s.slot d k) c →
            (o = b → NsctlWrites i s rest d k true (c.extractLsb' 32 32 ++ v.extractLsb' 0 32)) ∧
            (o = b + 4 → NsctlWrites i s rest d k true (v.extractLsb' 0 32 ++ c.extractLsb' 0 32))) ∧
        (∀ w < 512, let b := 0x100000 + 0x80 * w
          let y := s.vd d w
          let active : Prop := ∃ e ∈ s.dies, ∃ q ∈ e.2.queues, q.2.st = .active ∧ (q.2.qctl.extractLsb' 0 9).toNat = w
          (o = b + 0x48 → v.extractLsb' 3 61 = 0 → ¬ active → VfStep i s rest w { s.vf w with part := v.extractLsb' 0 3 }) ∧
          (o = b + 0x48 → v.extractLsb' 3 61 ≠ 0 ∨ active → Idles i s rest) ∧
          (o = b → v.extractLsb' 2 62 = 0 → VdStep i s rest d w { y with cb := { y.cb with meter := v.getLsbD 0, borrow := v.getLsbD 1 } }) ∧
          (o = b + 0x08 → low24 → VdStep i s rest d w { y with cb := { y.cb with rate := v.toNat } }) ∧
          (o = b + 0x10 → low24 → VdStep i s rest d w { y with cb := { y.cb with depth := v.toNat } }) ∧
          (o = b + 0x18 → low24 → VdStep i s rest d w { y with cb := { y.cb with dmax := v.toNat } }) ∧
          (o = b + 0x20 → v.extractLsb' 2 62 = 0 → VdStep i s rest d w { y with bu := { y.bu with meter := v.getLsbD 0, borrow := v.getLsbD 1 } }) ∧
          (o = b + 0x28 → low24 → VdStep i s rest d w { y with bu := { y.bu with rate := v.toNat } }) ∧
          (o = b + 0x30 → low24 → VdStep i s rest d w { y with bu := { y.bu with depth := v.toNat } }) ∧
          (o = b + 0x38 → low24 → VdStep i s rest d w { y with bu := { y.bu with dmax := v.toNat } }) ∧
          (o = b + 0x40 → VdStep i s rest d w { y with nbud := (v.extractLsb' 0 32).toNat }) ∧
          (o = b + 0x50 → VfStep i s rest w { s.vf w with clkey := v })))) ∧
    (let i : Instr := .registerWrite false vf off v
     let x := s.vf vf
     Turns s i rest →
      (off = 0x10 → ∃ f, VfStep i s rest vf { x with featsel := f, fpend := true } ∧ f.extractLsb' 0 64 = v ∧
        f.extractLsb' 64 64 = x.featsel.extractLsb' 64 64) ∧
      (off = 0x18 → ∃ f, VfStep i s rest vf { x with featsel := f, fpend := true } ∧ f.extractLsb' 64 64 = v ∧
        f.extractLsb' 0 64 = x.featsel.extractLsb' 0 64) ∧
      (off = 0 ∨ off = 8 ∨ off = 0x20 ∨ off = 0x28 ∨ off = 0x30 → Idles i s rest) ∧
      (off = 0x40 → v.extractLsb' 52 12 = 0 → v.extractLsb' 1 14 = 0 → VfStep i s rest vf { x with ptroot := v }) ∧
      (off = 0x48 → v.extractLsb' 32 32 = 0 → v.extractLsb' 11 5 = 0 →
        VfStep i s rest vf { x with pren := v.getLsbD 0, pralloc := v.extractLsb' 2 9 }) ∧
      (off = 0x50 → v.extractLsb' 0 16 = 0 → VfStep i s rest vf { x with tinva := v }) ∧
      (off = 0x58 → v.extractLsb' 32 31 = 0 → VfStep i s rest vf
        { x with tinv := x.tinv ++ [((x.tinva.extractLsb' 16 41).toNat, (v.extractLsb' 0 32).toNat)] }) ∧
      ∀ d o, o < 0x80000 → off = 0x100000 + d * 0x80000 + o →
        (8 ≤ d ∨ s.partOf d ≠ x.part.toNat → Idles i s rest) ∧
        (d < 8 → s.partOf d = x.part.toNat → vf < 512 → let y := s.vd d vf
          (o = 0x18 → v.extractLsb' 0 16 = 0 → (∀ j, 57 ≤ j → j < 64 → v.getLsbD j = v.getLsbD 56) → y.nten = false →
            VdStep i s rest d vf { y with ntbase := v }) ∧
          (o = 0x20 → 12 ≤ v.toNat → v.toNat ≤ 26 → y.nten = false → VdStep i s rest d vf { y with ntsize := v.toNat }) ∧
          (o = 0x10 → let fits : Prop := v.extractLsb' 2 62 = 0 ∧ (v.getLsbD 0 = true → s.feat vf 4 = true)
            (¬ fits → Idles i s rest) ∧
            (fits → VdStep i s rest d vf (let z := { y with frozen := y.frozen && v.getLsbD 1, nten := v.getLsbD 0 }
              if v.getLsbD 0 = true ∧ y.nten = false then { z with nthead := 0, nttail := 0, ntsince := s.clock } else z))) ∧
          (o = 0x30 → VdStep i s rest d vf { y with nttail := v.extractLsb' 0 32 }) ∧
          (∀ q < 64, o = 0x1000 + 0x20 * q →
            (((s.queue d q).qctl.extractLsb' 0 9).toNat = vf → QsubWritten i s rest d q v) ∧
            (((s.queue d q).qctl.extractLsb' 0 9).toNat ≠ vf → Idles i s rest)) ∧
          ∀ k < 16, ∀ j, let z := s.slot d k
            let b := 0x40000 + 0x4000 * k
            (z.vf.toNat ≠ vf → o = b + 4 * j → j < 0x1000 → Idles i s rest) ∧
            (z.vf.toNat = vf → ∀ c, NsctlHolds z c →
              (o = b → NsctlWrites i s rest d k false (c.extractLsb' 32 32 ++ v.extractLsb' 0 32)) ∧
              (o = b + 4 → NsctlWrites i s rest d k false (v.extractLsb' 0 32 ++ c.extractLsb' 0 32))) ∧
            (z.vf.toNat = vf → z.en = false → o = b + 0x100 + 4 * j → j < 16 → ∃ t, NewtStep i s rest d k { z with reg := t } ∧
              ∀ e, Tab.get 0 t e = if e = j then v.extractLsb' 0 32 else Tab.get 0 z.reg e) ∧
            (z.vf.toNat = vf → z.en = false → o = b + 0x200 + 4 * j → j < 64 → ∃ t, NewtStep i s rest d k { z with prog := t } ∧
              ∀ e, Tab.get 0 t e = if e = j then v.extractLsb' 0 32 else Tab.get 0 z.prog e) ∧
            (z.vf.toNat = vf → z.en = false → o = b + 0x1000 + 4 * j → j < 1024 → ∃ t, NewtStep i s rest d k { z with tab := t } ∧
              ∀ e, Tab.get 0 t e = if e = j then v.extractLsb' 0 32 else Tab.get 0 z.tab e)))

end Sys2Proof.Machine

/-- R396, R397: writes and reads of the registers in BAR0 of the physical function and of a function. That a write with a bit of TINVN
62:32 set, a window base that is not canonical and a size outside 12 to 26 are discarded, and so are the bits of log entry 102 and the
values of log entry 44, is the model's choice (log entries 44, 68, 69, 102). -/
def Obligations.RegisterWritesFollowR396AndR397 : Prop :=
  RegisterWritesFollowTheirTables ∧ RegisterReadsFollowTheirTables

/-! ### The host, translation and its services -/

namespace Sys2Proof.Machine

/-- A flit as it enters the network: it has crossed no link (spec/19 R380); one for a port of its own die is there. -/
def FlitTo (a b : Nat) (ch : Chan) (x : Cargo) : Flit := ⟨a, b, ch, 0, x⟩

/-- Nothing keeps host traffic to the bytes of a range from being applied at once. -/
def HostPasses (s : State) (off n : Nat) : Prop := s.hostPasses off = true ∧ s.hostPasses (off + n - 1) = true

/-- The parts of a write, each in one granule of 16 bytes, one behind the other. -/
def CutsAtGranules (off : Nat) (bs : List Byte) (parts : List (Nat × List Byte)) : Prop :=
  parts.flatMap Prod.snd = bs ∧ ∀ l e m, parts = l ++ e :: m →
    e.1 = off + (l.flatMap Prod.snd).length ∧ e.2 ≠ [] ∧ e.1 % 16 + e.2.length ≤ 16

/-- The host's reads, writes and snoops, and the completions that it returns (spec/19 R383, R385, R392, spec/21 R415, R416). -/
def HostAccessesDo : Prop :=
  ∀ (s : State) (rest : List Turn),
    (∀ off bs, Turns s (.hostMemWrite off bs) rest → let i : Instr := .hostMemWrite off bs
      let wr : Writer := { kind := 3, dev := true, ord := s.nact, va := BitVec.ofNat 64 off }
      (2 ^ 40 < off + bs.length → Idles i s rest) ∧
      (off + bs.length ≤ 2 ^ 40 → HostPasses s off bs.length → ∃ t, exec i s = .next t ∧ t.agenda = rest ∧
        t.outbox = s.outbox ++ [.memDone off] ∧
        (∀ a, t.portRead a 1 = if off ≤ a ∧ a < off + bs.length then [bs.getD (a - off) 0] else s.portRead a 1) ∧
        (∀ g, g ∈ t.poison ↔ (g ∈ s.poison ∧ ¬ (off ≤ 16 * g ∧ 16 * g + 16 ≤ off + bs.length))) ∧
        t.vfs = s.vfs ∧ t.vfdie = s.vfdie ∧ t.pkg = s.pkg ∧ t.tlb = s.tlb ∧ t.wire = s.wire ∧ t.hostOut = s.hostOut) ∧
      (off + bs.length ≤ 2 ^ 40 → ¬ HostPasses s off bs.length → ∃ parts, CutsAtGranules off bs parts ∧
        exec i s = .next { s with
          agenda := rest, nact := s.nact + 1, wire := s.wire ++ parts.map (fun e => FlitTo 0 (e.1 / 2 ^ 37) .hst (.store wr e.1 (e.2.map some) false)) })) ∧
    (∀ off n, Turns s (.hostMemRead off n) rest → let i : Instr := .hostMemRead off n
      (2 ^ 40 < off + n → Idles i s rest) ∧
      (off + n ≤ 2 ^ 40 → HostPasses s off n → exec i s = .next
        { s with agenda := rest, outbox := s.outbox ++ [.memData off (s.portRead off n)] }) ∧
      (off + n ≤ 2 ^ 40 → off < 2 ^ 40 → ¬ HostPasses s off n → exec i s = .next
        { s with agenda := rest, wire := s.wire ++ [FlitTo 0 (off / 2 ^ 37) .hst (.read off n)] })) ∧
    (∀ a, Turns s (.hostSnoop a) rest → exec (.hostSnoop a) s = .next { s with agenda := rest, outbox := s.outbox ++ [.snoopMiss a] }) ∧
    ∀ l w m, s.hostOut = l ++ w :: m → Turns s (.cxlCacheCompletion l.length) rest →
      exec (.cxlCacheCompletion l.length) s = .next { s with
        agenda := rest, hostOut := l ++ m, wire := s.wire ++ if w.src = 0 then [] else [FlitTo 0 w.src .hst (.ack w.wr)] }

/-- A walk of a leaf in the device's own ranges puts it into the cluster's TLB and the core's micro-TLB, in place of what covered the
address there, and makes the reads of its entries (spec/15 R304, R305). Where it finds no such leaf, the two give up what they hold for
the address; and one whose reads are held leaves no trace (model's choices, log entries 9 and 97). -/
def WalksCacheTheirLeaf : Prop :=
  ∀ (s : State) (rest : List Turn) (c : Nat) (va : Word) (kind : AccKind), Turns s (.pageWalk c va kind) rest →
    let i : Instr := .pageWalk c va kind
    let vf := (s.ctx c).vf
    let as := entriesOf s (dieOf c) vf va
    let shut : Prop := ∃ a ∈ as, s.heldUp (dieOf c) a = true ∨ s.behindDie (dieOf c) a = true
    let reads : List Out := as.flatMap (fun a => match homeOf a with | .host h => [.rdCurr (h / 64 * 64) 8] | _ => [])
    ((s.core c).ctx = none ∨ shut → Idles i s rest) ∧
    ((s.core c).ctx ≠ none → ¬ shut → (∀ b z p, walk s (dieOf c) vf va kind ≠ .leaf b z p false) →
      ∃ tlb, exec i s = .next { s with agenda := rest, tlb := tlb, outbox := s.outbox ++ reads } ∧
        ∀ e, e ∈ tlb ↔ (e ∈ s.tlb ∧ ¬ (e.cluster = clusterOf c ∧ (e.micro = none ∨ e.micro = some c) ∧ e.vf = vf ∧
          e.base ≤ va.toNat % 2 ^ 57 ∧ va.toNat % 2 ^ 57 < e.base + e.size))) ∧
    ∀ base size perm, (s.core c).ctx ≠ none → ¬ shut → walk s (dieOf c) vf va kind = .leaf base size perm false →
      ∃ tlb, exec i s = .next { s with
          agenda := rest, tlb := tlb, outbox := s.outbox ++ reads } ∧
        let put (m : Option Nat) : TlbEntry := ⟨clusterOf c, m, vf, va.toNat % 2 ^ 57 / size * size, size, base, perm, none⟩
        ∀ m, (m = none ∨ m = some c) →
          put m ∈ tlb ∧
          (∀ e ∈ tlb, e.cluster = clusterOf c → e.micro = m → e.vf = vf → e.base ≤ (put m).base → (put m).base < e.base + e.size → e = put m) ∧
          (∀ e ∈ tlb, e = put none ∨ e = put (some c) ∨ e ∈ s.tlb) ∧
          let held (l : List TlbEntry) : Nat := (l.filter fun e => e.cluster == clusterOf c && e.micro == m).length
          held tlb ≤ max (if m = none then 2048 else 64) (held s.tlb)

/-- Page-request responses, ATS completions and ATS invalidations (spec/15 R307, R309, R312). -/
def TranslationServicesDo : Prop :=
  ∀ (s : State) (rest : List Turn) (vf : Nat), let x := s.vf vf
    (∀ pasid ix code, Turns s (.prgResponse vf pasid ix code) rest → vf < 512 →
      let i : Instr := .prgResponse vf pasid ix code
      let d := (s.diesOf x.part.toNat).headD 0
      let y := s.vd d vf
      let asked : Prop := pasid.extractLsb' 0 16 = x.gen ∧ ∃ q ∈ x.preqs, q.slot = ix
      (¬ asked → VdStep i s rest d vf { y with prdrop := Sat32 (y.prdrop + 1) }) ∧
      (asked → ∃ vs ws, let t : State := { s with vfs := vs, walks := ws, agenda := rest }
        exec i s = .next t ∧ (∀ e, e ≠ vf → t.vf e = s.vf e) ∧
        t.vf vf = { x with prstop := x.prstop || decide (code = .failure), preqs := x.preqs.filter fun q => decide (q.slot ≠ ix) } ∧
        ws.length = s.walks.length ∧ ∀ (j : Nat) (w : Walk), s.walks[j]? = some w →
          let told : Prop := w.vf = vf ∧ w.st = .page ix
          (told → ws[j]? = some { w with st := if code = .success then .again else .refused 5 }) ∧ (¬ told → ws[j]? = some w))) ∧
    (∀ io ok pa, Turns s (.atsTranslationCompletion vf io ok pa) rest → let i : Instr := .atsTranslationCompletion vf io ok pa
      let waits (w : Walk) : Prop := w.vf = vf ∧ w.st = .ats io
      ((∀ w ∈ s.walks, ¬ waits w) → Idles i s rest) ∧
      ∀ l w m, s.walks = l ++ w :: m → (∀ z ∈ l, ¬ waits z) → waits w → exec i s = .next { s with
        agenda := rest, walks := l ++ { w with st := if ok = true then .answer io pa else .refused 6 } :: m }) ∧
    ∀ io, Turns s (.atsInvalidateRequest vf io) rest → let i : Instr := .atsInvalidateRequest vf io
      ∃ tlb ws, let t : State := { s with tlb := tlb, walks := ws, agenda := rest }
        (s.inFlight vf = false → exec i s = .next { t with outbox := s.outbox ++ [.atsComplete vf io] }) ∧
        (s.inFlight vf = true → exec i s = .next { t with inbox := s.inbox ++ [.event 0 .s 0 i] }) ∧
        (∀ e, e ∈ tlb ↔ (e ∈ s.tlb ∧ ¬ (e.vf = vf ∧ ∃ b, e.ats = some b ∧ b ≤ io ∧ io < b + e.size / 4096))) ∧
        ws.length = s.walks.length ∧ ∀ (j : Nat) (w : Walk), s.walks[j]? = some w →
          let had : Prop := w.vf = vf ∧ ∃ b pa, w.st = .answer b pa
          (had → ws[j]? = some { w with st := .again }) ∧ (¬ had → ws[j]? = some w)

/-- Flits cross one link of their route at a time, behind the earlier ones of their channel, where the link is not closed to them (spec/19
R379, R380, R391, R392), and take their place at their die behind what has come there; there a write is applied at its port, each port
taking its requests in the order of arrival (spec/20 R410), and acknowledged on RSP to another die (R381), an acknowledgement ends, a host
read is answered, and a message leaves the package. -/
def FlitsGoTheirWay : Prop :=
  ∀ (s : State) (rest : List Turn) (j : Nat), s.agenda = .flit j :: rest →
    let does (w : List Flit) : Prop := runTurn s = .next { s with agenda := rest, wire := w }
    let gone := s.wire.eraseIdx j
    (s.wire[j]? = none → does s.wire) ∧
    ∀ f, s.wire[j]? = some f →
      let len := (route f.src f.dst).length
      let closed (k : Nat) : Prop := Tab.get false s.pkg.down k = true ∨ (Tab.get false s.pkg.force k = true ∧
        (s.partOf (linkEnds.getD k (0, 0)).1 = s.partOf (linkEnds.getD k (0, 0)).2 ∨ f.chan = .req ∨ f.chan = .rsp))
      let stuck : Prop := (∃ k, (hopsOf f.src (route f.src f.dst))[f.hop]? = some k ∧ closed k) ∨
        ∃ e ∈ s.wire.take j, e.src = f.src ∧ e.dst = f.dst ∧ e.chan = f.chan ∧ e.hop ≤ f.hop
      let g : Flit := { f with hop := f.hop + 1 }
      (f.hop < len → stuck → does s.wire) ∧
      (f.hop + 1 < len → ¬ stuck → does (s.wire.set j g)) ∧ (f.hop + 1 = len → ¬ stuck → does (gone ++ [g])) ∧
      (len ≤ f.hop →
        let turn : Prop := ∀ e ∈ s.wire.take j, e.home = true → e.port = f.port → s.unfinishedPart e = true
        (∀ wr, f.cargo = .ack wr → does gone) ∧
        (∀ o, f.cargo = .out o → runTurn s = .next { s with agenda := rest, wire := gone, outbox := s.outbox ++ [o] }) ∧
        (∀ off n, f.cargo = .read off n →
          (s.recalled off = true ∨ ¬ turn → does s.wire) ∧
          (s.recalled off = false → turn → does (gone ++ [FlitTo f.dst 0 .hst (.out (.memData off (s.portRead off n)))]))) ∧
        ∀ wr pa bs more, f.cargo = .store wr pa bs more →
          let waits : Prop := s.recalled pa = true ∨ s.unfinishedPart f = true ∨ ¬ turn ∨ ∃ e ∈ s.wire.take j, e.home = true ∧ f.after e = true
          (waits → does s.wire) ∧
          (¬ waits → (∃ n, homeOf pa = .hbm n ∨ homeOf pa = .sdm n) → wr.kind ≠ 3 → bs.length ≤ 16 - pa % 16 →
            ∃ t, runTurn s = .next t ∧ t.agenda = rest ∧ t.hostOut = s.hostOut ∧ t.outbox = s.outbox ∧
              t.wire = gone ++ (if f.src = f.dst then [] else [FlitTo f.dst f.src .rsp (.ack wr)]) ∧
              ∀ a, t.portRead a 1 = match if pa ≤ a then bs[a - pa]? else none with
                | some (some b) => [b]
                | _ => s.portRead a 1))

end Sys2Proof.Machine

/-- R301, R304, R305, R307, R309, R312, R380, R381, R383, R385, R392, R410, R415, R416: the host's reads, writes and snoops; the completion
of a device write; a page walk and the leaf it caches; page-request responses; ATS completions and invalidations; flits over the links.
That an ATS invalidation waits for every access of the function that has been translated is the model's choice (log entry 91). -/
def Obligations.HostAndTranslationEventsFollowTheirRules : Prop :=
  HostAccessesDo ∧ WalksCacheTheirLeaf ∧ TranslationServicesDo ∧ FlitsGoTheirWay

/-! ### Collectives -/

namespace Sys2Proof.Machine

/-- The outstanding collective of a die with a CLKEY and SEQ stands between `l` and `r` (spec/21 R423, R424). -/
def IsColl (s : State) (d : Nat) (key : Word) (sq : BitVec 32) (l : List Coll) (x : Coll) (r : List Coll) : Prop :=
  let mine (y : Coll) : Prop := y.die = d ∧ (∀ n, y.st ≠ .ended n) ∧ y.me.clkey = key ∧ y.me.seq = sq
  s.colls = l ++ x :: r ∧ (∀ y ∈ l, ¬ mine y) ∧ mine x
def NoColl (s : State) (d : Nat) (key : Word) (sq : BitVec 32) : Prop :=
  ∀ y ∈ s.colls, y.die = d → (∀ n, y.st ≠ .ended n) → ¬ (y.me.clkey = key ∧ y.me.seq = sq)

/-- A collective ends with a reason and waits for no walk; the engine holds the completion record that EV asks for (R161, R428). -/
def CollEnd (s : State) (l : List Coll) (x : Coll) (r : List Coll) (reason : Nat) : State :=
  { s.quitUnit x.unit with colls := l ++ { x with st := .ended reason, cev := x.ev } :: r }

/-- Whether the event queue of the core that runs the task has room (R161). -/
def RoomFor (s : State) (x : Coll) : Prop := ∀ c, coreOfTask s.cores x.task = some c → (s.core c).evRoom = true

/-- The record that an ended collective holds is posted at the core that runs its task, and stays with the engine while none does (R161,
R428). -/
def RecordLeaves (s t : State) (l : List Coll) (x : Coll) (r : List Coll) (reason : Nat) : Prop :=
  (x.cev = false → t = s) ∧ (coreOfTask s.cores x.task = none → t = s) ∧
  ∀ c, x.cev = true → coreOfTask s.cores x.task = some c →
    t = ({ s with colls := l ++ { x with cev := false } :: r } : State).postEv c 2
      (BitVec.ofNat 64 (4 * 2 ^ 56 + (x.me.seq.toNat + x.h * 2 ^ 32 + reason * 2 ^ 36) % 2 ^ 48))

/-- ABORT goes to each peer of this package over its links, and to each other that a port reaches by the die of that port (R424). -/
def AbortFlit (s : State) (x : Coll) (p : BitVec 16 × BitVec 3) : Option Flit :=
  if p.1 = s.pkg.zpkg then some (FlitTo x.die p.2.toNat .mgt (.abort x.me.clkey x.me.seq))
  else (s.portTo p.1).map fun q => FlitTo x.die (q / 3) .mgt (.out (.abort p.1 p.2 x.me.clkey x.me.seq))
def Aborts (s : State) (x : Coll) : List Flit := (x.peers.filter fun p => p != (x.me.pkg, x.me.die)).filterMap (AbortFlit s x)

/-- The collective ends and its peers are told. -/
def CollFails (i : Instr) (s u : State) (l : List Coll) (x : Coll) (r : List Coll) (reason : Nat) : Prop :=
  exec i s = .next { CollEnd u l x r reason with wire := s.wire ++ Aborts s x }

/-- What comes in at a port of another partition than the die's is refused, and its sender told (spec/19 R393, R394); what comes in at
another die's port goes on over the links; at a port of the die the engine has it. -/
def ComesIn (i : Instr) (s : State) (rest : List Turn) (port d : Nat) (key : Word) (sq : BitVec 32) (ch : Chan) (x : Cargo) (here : Prop) : Prop :=
  let e := port / 3
  (s.partOf e ≠ s.partOf d → ∃ ds, let t : State := { s with
      dies := ds, agenda := rest, free := s.free + 1, outbox := s.outbox ++ [.portRefused port key sq] }
    exec i s = .next t ∧ (∀ j, j ≠ e → t.die j = s.die j) ∧
    t.die e = { s.die e with fwdeny := Sat32 ((s.die e).fwdeny + 1), fwlast := (t.die e).fwlast } ∧
    (t.die e).fwlast.extractLsb' 55 9 = 0 ∧ (t.die e).fwlast.extractLsb' 52 3 = BitVec.ofNat 3 d) ∧
  (s.partOf e = s.partOf d → e ≠ d → exec i s = .next { s with agenda := rest, wire := s.wire ++ [FlitTo e d ch x] }) ∧
  (e = d → here)

/-- A READY, an ABORT and the data of a rank reach a die's engine through the port that the turn's place names (spec/21 R421, R423, R424). -/
def MessagesReachTheirCollective : Prop :=
  ∀ (s : State) (rest : List Turn) (c : Nat) (k : StrandIx) (port d : Nat), let u := Passed s rest
    (∀ m, CoreTurns s c k port (.collectiveReady d m) rest → let i : Instr := .collectiveReady d m
      ComesIn i s rest port d m.clkey m.seq .mgt (.ready m)
        ((NoColl s d m.clkey m.seq → (s.die d).ready.length < 256 → DieStep i s rest d { s.die d with ready := (s.die d).ready ++ [m] }) ∧
        (NoColl s d m.clkey m.seq → 256 ≤ (s.die d).ready.length → Idles i s rest) ∧
        ∀ l x r, IsColl s d m.clkey m.seq l x r →
          let fits : Prop := m.op = x.me.op ∧ m.et = x.me.et ∧ m.wide = x.me.wide ∧ m.count = x.me.count ∧ m.nrank = x.me.nrank ∧
            m.root = x.me.root ∧ x.peers[m.rank.toNat]? = some (m.pkg, m.die) ∧ m.rank ≠ x.me.rank
          let seen := if m.rank.toNat ∈ x.seen then x.seen else m.rank.toNat :: x.seen
          (¬ fits → CollFails i s u l x r 4) ∧
          (fits → (∃ k < x.me.nrank.toNat, k ≠ x.me.rank.toNat ∧ k ∉ seen) → exec i s = .next { u with colls := l ++ { x with seen := seen } :: r }))) ∧
    (∀ key sq, CoreTurns s c k port (.collectiveAbort d key sq) rest → let i : Instr := .collectiveAbort d key sq
      ComesIn i s rest port d key sq .mgt (.abort key sq)
        ((NoColl s d key sq → Idles i s rest) ∧ ∀ l x r, IsColl s d key sq l x r → exec i s = .next (CollEnd u l x r 3))) ∧
    ∀ key sq rank bs, CoreTurns s c k port (.collectiveData d key sq rank bs) rest → let i : Instr := .collectiveData d key sq rank bs
      ComesIn i s rest port d key sq .req (.data key sq rank.toNat bs)
        ((NoColl s d key sq → Idles i s rest) ∧
        ∀ l x r, IsColl s d key sq l x r → ∃ f, let y := { x with data := f }
          (∀ k, Tab.get [] f k = if k = rank.toNat then Tab.get [] x.data k ++ bs else Tab.get [] x.data k) ∧
          ((x.st = .meeting ∨ ∃ k < x.me.nrank.toNat, (Tab.get [] f k).length < x.srcCount k * x.z) → exec i s = .next { u with colls := l ++ y :: r }))

/-- A deadline that has passed, and a completion: a party that holds all its data, has written its DST, and has every byte of it performed
ends with reason 0 before its deadline, when its record has room; the record of one that has ended otherwise is posted in the engine's turn
once there is room (R161, R424). -/
def DeadlinesAndCompletionsEnd : Prop :=
  ∀ (s : State) (rest : List Turn) (d : Nat) (l : List Coll) (x : Coll) (r : List Coll), s.colls = l ++ x :: r →
    let u := Passed s rest
    (Turns s (.collectiveDeadline d l.length) rest → let i : Instr := .collectiveDeadline d l.length
      let passed : Prop := x.die = d ∧ (∀ n, x.st ≠ .ended n) ∧ x.due ≤ s.dieclk
      (¬ passed → Idles i s rest) ∧ (passed → CollFails i s u l x r 1)) ∧
    (Turns s (.collectiveComplete d l.length) rest → let i : Instr := .collectiveComplete d l.length
      let all : Prop := ∀ k < x.me.nrank.toNat, x.srcCount k * x.z ≤ (Tab.get [] x.data k).length
      let room : Prop := x.ev = true → RoomFor s x
      (x.die ≠ d → Idles i s rest) ∧
      (x.die = d → x.st = .meeting → (∃ k < x.me.nrank.toNat, k ≠ x.me.rank.toNat ∧ k ∉ x.seen) → Idles i s rest) ∧
      (x.die = d → x.st = .moving → ¬ all → Idles i s rest) ∧
      (x.die = d → x.st = .moving → all → x.outCount ≤ x.wrote →
        (x.writing s = false → s.dieclk < x.due → room →
          ∃ t, RecordLeaves (CollEnd u l x r 0) t l { x with st := .ended 0, cev := x.ev } r 0 ∧ exec i s = .next t) ∧
        (¬ (x.writing s = false ∧ s.dieclk < x.due ∧ room) → Idles i s rest)) ∧
      ∀ n, x.die = d → x.st = .ended n →
        (RoomFor s x → ∃ t, RecordLeaves u t l x r n ∧ exec i s = .next t) ∧ (¬ RoomFor s x → Idles i s rest))

/-- Zwivel-link ports that lose and gain their link (R417, R418). -/
def ZwivelPortsGoDownAndUp : Prop :=
  ∀ (s : State) (rest : List Turn) (p : Nat), let old (e : Nat) : ZPort := Tab.get {} s.pkg.zport e
    (Turns s (.zwivelPortDown p) rest → ∃ z, PkgStep (.zwivelPortDown p) s rest { s.pkg with zport := z } ∧
      ∀ e, Tab.get {} z e = if e = p then { old p with up := false } else old e) ∧
    ∀ pkg far, Turns s (.zwivelPortUp p pkg far) rest → ∃ z, PkgStep (.zwivelPortUp p pkg far) s rest { s.pkg with zport := z } ∧
      ∀ e, Tab.get {} z e = if e = p then ⟨pkg, far, true⟩ else old e

/-- The reduction of integer elements over the ranks (R425). -/
def IntegersReduceOverRanks : Prop :=
  ∀ (x : Coll) (j : Nat), let xs := (List.range x.me.nrank.toNat).map fun k => x.elem k j
    let et := x.me.et.toNat
    et < 7 → xs ≠ [] →
      ((x.me.op = 1 ∨ x.me.op = 5) → x.reduce j = SatTo et ((xs.map (IntOf et)).sum)) ∧
      (x.me.op = 2 → x.reduce j ∈ xs ∧ ∀ y ∈ xs, IntOf et y ≤ IntOf et (x.reduce j)) ∧
      (x.me.op = 3 → x.reduce j ∈ xs ∧ ∀ y ∈ xs, IntOf et (x.reduce j) ≤ IntOf et y)

end Sys2Proof.Machine

/-- R417, R418, R421, R423 to R425, R428, and R393, R394 at a port of another partition: what reaches a die's collective engine: a READY that
meets its collective, is held, or differs in its terms; an ABORT; a deadline; the data of a rank; the completion and the posting of
its record; and Zwivel-link ports that fail and return. -/
def Obligations.CollectiveEventsFollowR417ToR428 : Prop :=
  MessagesReachTheirCollective ∧ DeadlinesAndCompletionsEnd ∧ ZwivelPortsGoDownAndUp ∧ IntegersReduceOverRanks

/-! ### What happens in a core between its words -/

namespace Sys2Proof.Machine

/-- The units of a core act: it holds a context that no stop, removal or restart has ended, and none is under way. -/
def Alive (x : Core) : Prop := x.ctx ≠ none ∧ x.halted = false ∧ x.removal = none ∧ x.restart = none ∧ x.stops = []

/-- No strand of a core has issued in the open clock cycle, and no stop is under way. -/
def Closed (x : Core) : Prop := x.halted = false ∧ ∀ k, (x.str k).issued = false

/-- An interlocked result lands: its register reads `v`, the one after it `hi` where it is a pair, its operation is gone, and nothing else
changes (R23). -/
def LandsResult (i : Instr) (s u : State) (c : Nat) (l : List Op) (o : Op) (r : List Op) (d : Reg) (v : Word)
    (hi : Option Word := none) : Prop :=
  ∃ t, exec i s = .next { u with cores := t } ∧ (∀ e, e ≠ c → Tab.get {} t e = u.core e) ∧
    let y := Tab.get {} t c
    y.ops = l ++ r ∧ (∀ k, k ≠ o.k → y.str k = (u.core c).str k) ∧
    (∀ g, (y.str o.k).rd g = if g = 0 then 0 else if g = d then v else if g = d + 1 then hi.getD (((u.core c).str o.k).rd g)
      else ((u.core c).str o.k).rd g) ∧ SameUnits { u.core c with ops := l ++ r } y

/-- The operation stands alone under its number in the core's list. -/
def Alone (x : Core) (l : List Op) (o : Op) (r : List Op) : Prop := x.ops = l ++ o :: r ∧ ∀ p ∈ l ++ r, p.ord ≠ o.ord ∨ p.k ≠ o.k

/-- An operation that is not due at the end of issue cycle `ic`. -/
def NotDue (ic : Nat) (o : Op) : Prop := match o.body with
  | .regs x _ _ | .store x _ _ | .shadow x _ => ic < x
  | .ilock _ _ _ => True
  | .vec [] => True
  | .vec (g :: _) => g.at' = 0 ∨ ic < g.at'

end Sys2Proof.Machine

/-- R19, R21, R23, R104 to R108, R143 to R145, R154, R268, R284, R288, R296, R393: landings of exposed and interlocked results and vector groups;
retirement and the stop of a strand; a buffered store leaves for its home port or joins its task's rollback buffer. R108: a fault of an
entry is raised once every store that its strand sent before has been applied. That a gld all of whose bytes are forwarded lands with no
translation, permission check or fault is the model's choice (log entry 72), and so is the byte that the fault of a merged entry names
(log entry 101). -/
def Sys2Proof.Machine.LandingsAndRetirementFollowR19R23R143AndR106 : Prop :=
  ∀ (s : State) (rest : List Turn) (c : Nat) (k : StrandIx) (j : Nat), let x := s.core c
    let u := Passed s rest
    let y := x.str k
    (CoreTurns s c k j .resultLands rest →
      (¬ Closed x → Idles .resultLands s rest) ∧
      (Closed x → ∀ l o r, x.ops = l ++ o :: r → o.k = k → (∀ p ∈ l ++ r, p.k = k → NotDue y.ic p) →
        (∀ x0 d v, o.body = .regs x0 d [v] → x0 ≤ y.ic → ∃ t, exec .resultLands s = .next t ∧ t.agenda = rest ∧ (t.core c).ops = l ++ r ∧
          (∀ g, t.rd c k g = if g = d ∧ g ≠ 0 ∧ y.fresh.getLsbD d.toNat = false then v else s.rd c k g) ∧ ∀ i, i ≠ k → t.str c i = s.str c i) ∧
        (∀ x0 a bs, o.body = .store x0 a bs → x0 ≤ y.ic → ∃ t, exec .resultLands s = .next t ∧ t.agenda = rest ∧ (t.core c).ops = l ++ r ∧
          (∀ b, Tab.get 0 (t.core c).scr b = if a ≤ b ∧ b < a + bs.length then bs.getD (b - a) 0 else Tab.get 0 x.scr b) ∧
          (∀ g, t.rd c k g = s.rd c k g) ∧ ∀ i, i ≠ k → t.str c i = s.str c i))) ∧
    (CoreTurns s c k j .wordRetire rest →
      (¬ Closed x → Idles .wordRetire s rest) ∧
      (Closed x → y.held = false → UnitEvent .wordRetire s c rest x) ∧
      (Closed x → y.held = true → ∀ e q, y.ret = e :: q → x.unfinished k e = false →
        let gives := givesOf k e.gl e.gr
        ((∀ f ∈ gives, cnt x.tok f + cnt x.gave f < 8) → ∃ g, UnitEvent .wordRetire s c rest
            (({ x with gave := g } : Core).setStr k { y with ret := q, held := false }) ∧
          ∀ f, cnt g f = cnt x.gave f + gives.count f) ∧
        ((∃ f ∈ gives, 8 ≤ cnt x.tok f + cnt x.gave f) → UnitEvent .wordRetire s c rest x))) ∧
    (CoreTurns s c k j .strandStops rest →
      (¬ Closed x → Idles .strandStops s rest) ∧
      (Closed x → y.running = true → y.exiting = true → y.ret = [] →
        UnitEvent .strandStops s c rest (x.setStr k { y with running := false, exiting := false })) ∧
      (Closed x → y.running = false ∨ y.exiting = false ∨ y.ret ≠ [] → UnitEvent .strandStops s c rest x)) ∧
    (CoreTurns s c k j .interlockedResultLands rest → let i : Instr := .interlockedResultLands
      (¬ Alive x ∨ x.ops.length ≤ j → Idles i s rest) ∧
      (Alive x → ∀ l o r, Alone x l o r → l.length = j → ∀ d,
        (∀ n a b un, o.img = .div n d a b un → o.body = .ilock d false none → LandsResult i s u c l o r d (divV un o.op0 o.op1)) ∧
        (∀ n a b un, o.img = .rem n d a b un → o.body = .ilock d false none → LandsResult i s u c l o r d (remV un o.op0 o.op1)) ∧
        (∀ n b, o.img = .btest n d b → o.body = .ilock d false none →
          (∀ p ∈ l ++ r, (∃ m e f, p.img = .btest m e f) → o.ord ≤ p.ord ∨ p.op0.extractLsb' 0 5 ≠ o.op0.extractLsb' 0 5) →
          LandsResult i s u c l o r d ((SeenGen (s.barrier c (o.op0.extractLsb' 0 5)) s.clock).setWidth 64)) ∧
        (o.body = .ilock d false none → statWaits u c o = false → let vf := s.vf (s.ctx c).vf
          let task := (s.ctx c).task
          (∀ n, o.img = .asstatAge n d → LandsResult i s u c l o r d (s.ctx c).stamp) ∧
          (∀ n, o.img = .asstatSt n d → LandsResult i s u c l o r d (BitVec.ofNat 64
            (((setList vf).filter (fun e => e.2.st != .free && e.2.holder == task)).length
              + 2 ^ 16 * ((s.buf task).map (·.gran.length)).getD 0 + 2 ^ 32 * (s.ctx c).restarts))) ∧
          (∀ n a, o.img = .asstatSet n d a → LandsResult i s u c l o r d (match setNamed vf o.op0 with
            | none => 0
            | some e => if e.2.st = .free then 1 else if e.2.holder = task then 2 else 3))) ∧
        (∀ n a x0 aq q fwd, o.img = .gld n d a x0 aq q → o.body = .ilock d q fwd → let n := if q = true then 16 else 8
          let shut : Prop := ∃ pa, o.pa = some pa ∧ s.rspShut (dieOf c) pa = true
          (fwd ≠ none → shut → Idles i s rest) ∧
          (∀ bs, fwd = some bs → ¬ shut → LandsResult i s u c l o r d (BitVec.ofNat 64 (NumberOf (bs.take 8)))
            (if q = true then some (BitVec.ofNat 64 (NumberOf (bs.drop 8))) else none)) ∧
          (fwd = none → gldWaits x o n = true → Idles i s rest) ∧
          (fwd = none → gldWaits x o n = false → ∀ t a, accessFrom u c (unitOrd o.ord) (s.ctx c).vf o.op2 .read n false o.pa = (t, a) →
            let stands (pa : Nat) : Prop := exec i s = .next (t.mapCore c fun y => { y with ops := l ++ { o with pa := some pa } :: r })
            (a = .wait → exec i s = .next t) ∧
            (∀ pa, a = .held pa → stands pa) ∧ (∀ pa, a = .ok pa → t.behind c pa = true → stands pa) ∧
            (∀ fw m, a = .fault fw m → (s.ctx c).depth = 0 → exec i s = .next (t.mapCore c fun y =>
              { y with stops := [⟨3, o.k, if fw = true then 0x39 else 0x0C, 0, o.op2⟩] })) ∧
            ∀ pa, a = .ok pa → t.behind c pa = false → t.setOf (s.ctx c).vf (o.op2 &&& ~~~15) = none →
              (∃ m, homeOf pa = .hbm m ∨ homeOf pa = .sdm m) →
              (t.rspShut (dieOf c) pa = true → exec i s = .next (t.mapCore c fun y => { y with ops := l ++ { o with
                pa := some pa, body := .ilock d q (some ((List.range n).map fun b => Tab.get 0 s.mem (pa + b))) } :: r })) ∧
              (t.rspShut (dieOf c) pa = false → LandsResult i s t c l o r d (BitVec.ofNat 64 (NumberOf ((List.range 8).map fun b => Tab.get 0 s.mem (pa + b))))
                (if q = true then some (BitVec.ofNat 64 (NumberOf ((List.range 8).map fun b => Tab.get 0 s.mem (pa + 8 + b)))) else none)))))) ∧
    (CoreTurns s c k j .vectorGroupLands rest → let i : Instr := .vectorGroupLands
      let more : Prop := ∃ m, .issue c m ∈ rest
      (¬ Alive x → Idles i s rest) ∧
      (Alive x → more → UnitEvent i s c rest { x with vdue := true }) ∧
      (Alive x → ¬ more → ∀ l o r g gs, Alone x l o r → o.body = .vec (g :: gs) → g.at' = 0 → (∀ p ∈ l, ∀ h hs, p.body = .vec (h :: hs) → h.at' ≠ 0) →
        ∃ t, exec i s = .next (takeStop t c) ∧ t.agenda = rest ∧ let z := t.core c
          (g.fault = none → z.ops = l ++ (if gs = [] then [] else [{ o with prog := g.cur, body := .vec gs }]) ++ r) ∧
          (g.fault ≠ none → z.ops = l ++ [{ o with prog := g.cur, body := .vec [] }] ++ r) ∧
          (∀ b, Tab.get 0 z.scr b = Tab.get 0 (g.writes.foldl (fun m w => writeBytes m w.1 w.2) x.scr) b) ∧
          (∀ b, z.c.sst.getLsbD b = (x.c.sst.getLsbD b || (decide (5 ≤ b ∧ b < 10) && g.flags.getLsbD (b - 5)))) ∧
          z.stops = (if fpEnabled x.c.sst g.flags = true then [⟨3, .c, 0x08, 0, g.flags.setWidth 64⟩] else [])
            ++ (match g.fault with | some a => [⟨3, .c, 0x05, 0, BitVec.ofNat 64 a⟩] | none => []))) ∧
    (CoreTurns s c k j .storeBufferPerform rest → let i : Instr := .storeBufferPerform
      (y.sb = [] ∨ ¬ Alive x → Idles i s rest) ∧
      ∀ e q, y.sb = e :: q → Alive x → let goes : Prop := sbHeld x k e = false ∧ (e.rel = true → s.sentDone c k e.scope.toNat = true)
        let vf := (s.ctx c).vf
        (¬ goes → Idles i s rest) ∧
        (goes → ∀ t a, access u c (unitOrd e.ord) vf e.addr .write 1 false = (t, a) →
          let bytes : List (Option Byte) := (List.range 16).map fun b => if e.en.getLsbD b = true then some (e.bytes.getD b 0) else none
          let stops (v : State) (code : Nat) (a : Word) : Prop := exec i s = .next (v.mapCore c fun z => { z with stops := [⟨3, k, code, 0, a⟩] })
          (a = .wait → exec i s = .next t) ∧
          (∀ fw n, a = .fault fw n → u.applied c k = false → Idles i s rest) ∧
          (∀ fw n, a = .fault fw n → u.applied c k = true → (s.ctx c).depth = 0 → stops t (if fw = true then 0x39 else 0x0C) e.addr) ∧
          (∀ pa ix f, a = .ok pa → t.setOf vf e.va = some (ix, f) → ∀ v g, t.requestSet c vf ix = (v, g) →
            (g = false → exec i s = .next v) ∧
            (g = true → ∀ w, v.bufStore (s.ctx c).task e.va bytes = some w → exec i s = .next (w.mapStr c k fun z => { z with sb := q })) ∧
            (g = true → v.bufStore (s.ctx c).task e.va bytes = none → (v.applied c k = false → exec i s = .next v) ∧
              (v.applied c k = true → (s.ctx c).depth = 0 → stops v 0x22 e.va))) ∧
          ∀ pa, a = .ok pa → t.setOf vf e.va = none → let g := pa / 16 * 16
            let wr : Writer := { kind := 0, core := c, k := k, vf := vf, task := (s.ctx c).task, va := e.addr }
            exec i s = .next (({ t with wire := t.wire ++ [FlitTo (dieOf c) (farDie g) (match homeOf g with | .host _ => .hst | _ => .req)
              (.store wr g bytes false)] } : State).mapStr c k fun z => { z with sb := q })))

/-- R128, R140, R258, R290, R292, R320, R338, R362: a starved take, a held watchpoint report, a nested stop, a CHECKPOINT and the return of its
context to a core, the removal of a context and the restart of a task. That a stop waits for the areas that it writes or reads is log entry
13. -/
def Sys2Proof.Machine.ContextEventsFollowR128R140R258R290R320AndR362 : Prop :=
  ∀ (s : State) (rest : List Turn) (c : Nat) (k : StrandIx) (j : Nat), let x := s.core c
    let u := Passed s rest
    let y := x.str k
    (CoreTurns s c k j .tokenStarvation rest →
      let due : Prop := y.running = true ∧ y.starved = false ∧ (s.die (dieOf c)).nstarve ≤ y.waited ∧ 0 < y.waited
      (¬ due → Idles .tokenStarvation s rest) ∧
      (due → ∃ t, exec .tokenStarvation s = .next t ∧ t.agenda = rest ∧ t.str c k = { y with starved := true } ∧
        (∀ i, i ≠ k → t.str c i = s.str c i) ∧ t.mem = s.mem)) ∧
    (∀ n < 4, Turns s (.watchpoint c n) rest → let i : Instr := .watchpoint c n
      let held (m : Nat) : Option Word := Tab.get none (s.ctx c).reports m
      (¬ Alive x ∨ (s.ctx c).depth ≠ 0 ∨ held n = none ∨ (∃ m < n, held m ≠ none) → Idles i s rest) ∧
      ∀ v, Alive x → (s.ctx c).depth = 0 → held n = some v → (∀ m < n, held m = none) → ∃ t, exec i s = .next t ∧ t.agenda = rest ∧
        t.core c = { x with stops := [⟨3, .s, 0x28, 0, v⟩] } ∧ ∀ e, e ≠ c → t.core e = s.core e) ∧
    (CoreTurns s c k j .nestedStop rest →
      (x.nested = none ∨ ¬ Alive x ∨ ¬ Closed x ∨ x.settled = false ∨ s.applied c .s = false → Idles .nestedStop s rest) ∧
      ∀ e, x.nested = some e → Alive x → Closed x → x.settled = true → s.applied c .s = true →
        let cause := BitVec.ofNat 64 (e.code + 2 ^ 8 * ixOf e.k + 2 ^ 16 * e.info.toNat)
        ((s.ctx c).tvec = 0 → UnitEvent .nestedStop s c rest { x with nested := none, removal := some (cause.setWidth 24 |>.setWidth 64) }) ∧
        ((s.ctx c).tvec ≠ 0 → ∀ v, u.reach c [⟨(s.ctx c).tsave, 0x1000, .write⟩] = (v, false) → exec .nestedStop s = .next v) ∧
        ((s.ctx c).tvec ≠ 0 → ∀ v, u.reach c [⟨(s.ctx c).tsave, 0x1000, .write⟩] = (v, true) → ∃ t, exec .nestedStop s = .next t ∧ t.agenda = rest ∧ (t.core c).nested = none ∧ (t.ctx c).depth = 2 ∧
          (t.ctx c).tcause = cause ∧ (t.ctx c).tval = e.tval ∧ (t.str c .s).pc = (s.ctx c).tvec ∧ (t.str c .s).running = true ∧
          (t.str c .s).pend = 0 ∧ (t.str c .s).lc0 = 0 ∧ (t.str c .s).lc1 = 0)) ∧
    (CoreTurns s c k j .checkpointPreemption rest →
      let due (z : Ctx) : Prop := z.preempt = .checkpoint ∧ z.depth = 0 ∧ z.held = [] ∧ Alive x ∧ x.nested = none ∧ Closed x
      let comes : Prop := x.halted = true ∧ x.removal = none ∧ x.restart = none ∧ x.stops = []
      ((∀ z, x.ctx = some z → ¬ due z ∧ ¬ comes) → Idles .checkpointPreemption s rest) ∧
      (∀ z v, x.ctx = some z → comes → u.reach c (z.areas (ckptLen z) .read ++ [⟨z.tsave, 8, .write⟩]) = (v, false) →
        exec .checkpointPreemption s = .next v) ∧
      (∀ z v, x.ctx = some z → comes → u.reach c (z.areas (ckptLen z) .read ++ [⟨z.tsave, 8, .write⟩]) = (v, true) → z.tvec ≠ 0 →
        ∃ t, exec .checkpointPreemption s = .next t ∧ t.agenda = rest ∧ (t.core c).halted = false ∧ (t.str c .s).pc = z.tvec ∧
          (t.str c .s).running = true ∧ (t.ctx c).tcause = 0x31 ∧ (t.ctx c).tval = 0) ∧
      (∀ z v, x.ctx = some z → due z → u.reach c (z.areas (ckptLen z) .write) = (v, false) → exec .checkpointPreemption s = .next v) ∧
      ∀ z v, x.ctx = some z → due z → u.reach c (z.areas (ckptLen z) .write) = (v, true) → ∃ t, exec .checkpointPreemption s = .next t ∧ t.agenda = rest ∧ (t.core c).ctx = none ∧
        let l := s.launch z.launch
        ∃ q w, (t.queue l.die l.q).resum = q ++ [w] ∧ q.length = (s.queue l.die l.q).resum.length ∧ w.task = z.task ∧ w.stamp = z.stamp ∧
          w.depth = 1 ∧ w.preempt = .none ∧ w.tcause = 0x31 ∧ w.tval = 0) ∧
    (CoreTurns s c k j .contextRemoval rest →
      (x.removal = none → Idles .contextRemoval s rest) ∧
      ∀ v z, x.removal = some v → x.ctx = some z → ∃ t, exec .contextRemoval s = .next t ∧ t.agenda = rest ∧ (t.core c).ctx = none ∧
        .killed z.vf v ∈ t.outbox ∧ (∀ a ∈ t.armed, a.task ≠ z.task) ∧ ∀ w ∈ t.colls, w.task ≠ z.task) ∧
    (CoreTurns s c k j .taskRestart rest →
      (x.restart = none ∨ x.ctx = none ∨ x.removal ≠ none → Idles .taskRestart s rest) ∧
      ∀ w z, x.restart = some w → x.ctx = some z → x.removal = none → z.launch < s.nlaunch → ∃ t v, exec .taskRestart s = .next t ∧ t.agenda = rest ∧
        (t.core c).ctx = some v ∧ v.task = z.task ∧ v.stamp = z.stamp ∧ v.iter = z.iter ∧ v.resume = z.resume ∧
        v.restarts = (if z.restarts < 65535 then z.restarts + 1 else 65535) ∧ v.depth = 0 ∧ v.tvec = 0 ∧ (t.core c).restart = none ∧
        (∀ i, let b := ((s.launch z.launch).body[ixOf i]?).getD {}
          (b.entry = 0 → (t.str c i).running = false) ∧
          (b.entry ≠ 0 → (t.str c i).running = true ∧ (t.str c i).pc = b.entry ∧ (t.str c i).ls0 = b.kstart ∧ (t.str c i).le0 = b.kend ∧
            (t.str c i).lc0 = (s.launch z.launch).trip - BitVec.ofNat 32 z.resume)))

/-- R19, R23, R128, R140, R143, R258, R290: what happens in a core between its words. The model's own choices: a gld all of whose bytes are
forwarded lands with no translation, permission check or fault (log entry 72); the fault of a merged store names the lowest byte (log entry
101); a stop waits for the areas of its context (log entry 13); words retire as log entry 30 reads R143. -/
def Obligations.CoreEventsFollowR19R23R128R140R143AndR258 : Prop :=
  LandingsAndRetirementFollowR19R23R143AndR106 ∧ ContextEventsFollowR128R140R258R290R320AndR362

/-! ### The copy engine, sets and the arbiter -/

namespace Sys2Proof.Machine

/-- A command leaves its queue. -/
def Dropped (x : Core) (q : CpCmd) : Core :=
  { x with
    lq := x.lq.filter (fun p => p.ord != q.ord), wq := x.wq.filter (fun p => p.ord != q.ord)
    stage := if x.stage = some q.ord then none else x.stage }

/-- The next element of a command has been sent, with `n` granules charged for a request that it begins. -/
def SentElement (x : Core) (q : CpCmd) (blk : Option Nat) (n : Nat := 0) : Core :=
  mapCmd x q.ord (fun p => { p with sent := p.sent + 1, blk := blk, pa := none, parts := p.parts + n })
/-- And its response is on its way. -/
def Answered (x : Core) (q : CpCmd) (r : CpResp) (blk : Option Nat) (n : Nat := 0) : Core :=
  mapCmd x q.ord (fun p => { p with sent := p.sent + 1, blk := blk, pa := none, parts := p.parts + n, out := p.out ++ [r] })
/-- It has left its unit and waits on its way to `pa` (spec/19 R392, R393). -/
def Waiting (x : Core) (q : CpCmd) (pa : Nat) : Core := mapCmd x q.ord (fun p => { p with pa := some pa })

/-- The element after the next of a command lies in the granule of `a` too: it belongs to the same part (spec/15 R301, R315). -/
def GoesOn (x : Core) (q : CpCmd) (a : Word) : Prop :=
  q.sent + 1 < q.n ∧ ∃ b, cmdElem x q (q.sent + 1) = .va b ∧ b.toNat / 16 = a.toNat / 16

/-- Bytes of scratch. -/
def ScrBytes (x : Core) (a n : Nat) : List Byte := (List.range n).map fun j => Tab.get 0 x.scr (a + j)

/-- The bytes that the next element of a command carries: the fill pattern, its scratch bytes with their check (16 of them for a compare
and swap), or none for a load (R233, R236, R240). -/
def SourceIs (t : State) (c : Nat) (q : CpCmd) (z : Nat) (r : Except Nat (State × List Byte)) : Prop :=
  let n := if cpKind q.img = .acc ∧ accOp q.img = 7 then 16 else z
  let x := q.x + q.sent * n
  let fill : Prop := ∃ m h g ev, q.img = .cpfill m h g ev
  (fill → r = .ok (t, fillBytes (q.snap.getD {}).fill z)) ∧
  (cpKind q.img = .load → r = .ok (t, [])) ∧
  (¬ fill → cpKind q.img ≠ .load → (∀ g, t.readCheck c q.k x n = .error g → r = .error g) ∧
    ∀ u, t.readCheck c q.k x n = .ok u → r = .ok (u, ScrBytes (u.core c) x n))

/-- A command fails, R241: while its strand runs that is a stop. Otherwise it waits for room in the event queue, with the package as `v` was,
and then ends with the responses of its elements written (R240) and an event. -/
def CommandFails (i : Instr) (s v u : State) (c : Nat) (q : CpCmd) (code : Nat) (tval : Word) : Prop :=
  let runs := (s.str c q.k).running
  (runs = true → exec i s = .next (u.setCore c { u.core c with stops := (u.core c).stops ++ [⟨3, q.k, code, 0, tval⟩] })) ∧
  (runs = false → (u.core c).evRoom = false → exec i s = .next v) ∧
  (runs = false → (u.core c).evRoom = true → ∃ w, exec i s = .next w ∧ (∀ p ∈ (w.core c).lq ++ (w.core c).wq, p.ord ≠ q.ord) ∧
    (w.core c).evnow = insPost (4 * s.clock) (BitVec.ofNat 64 (3 * 2 ^ 56 + 2 ^ 54 * ixOf q.k +
      (code + q.seq % 2 ^ 16 * 2 ^ 8 + q.sent % 2 ^ 24 * 2 ^ 24) % 2 ^ 48)) (u.core c).evnow ∧
    ((∀ n h sr g ev, q.img ≠ .cpldm n h sr g ev) → ∀ p, (u.core c).cmd q.ord = some p → p.img = q.img → ∀ b, Tab.get 0 (w.core c).scr b =
      Tab.get 0 ((p.out.filter (·.bad.isNone)).foldl (fun m r => writeBytes m r.x r.bytes) (u.core c).scr) b))

/-- The kind of access that the elements of a command make. -/
def CmdAccess (q : CpCmd) : AccKind := match cpKind q.img with | .load => .read | .store => .write | .acc => .rmw

/-- The next element of a command, which lies at `a`, fails by its access, by the set that it lies in, or by its source: with a code, a
tval, and the package as `u` then is (R240, R284). -/
def ElementFails (t : State) (c : Nat) (q : CpCmd) (z : Nat) (a : Word) (u : State) (code : Nat) (tval : Word) : Prop :=
  ∃ v r, accessFrom t c (unitOrd q.ord) (t.ctx c).vf a (CmdAccess q) z true q.pa = (v, r) ∧
    let set := v.setOf (t.ctx c).vf (a &&& ~~~15)
    ((∃ fw e, r = .fault fw e ∧ ¬ (cpKind q.img = .load ∧ e = 8) ∧ u = v ∧ code = (if fw = true then 0x39 else 0x14) ∧ tval = a) ∨
    (∃ pa, r = .ok pa ∧ cpKind q.img = .acc ∧ set ≠ none ∧ u = v ∧ code = 0x14 ∧ tval = a) ∨
    ∃ pa g, r = .ok pa ∧ (cpKind q.img = .acc → set = none) ∧ (cpKind q.img = .store → v.reqShut (dieOf c) pa = false) ∧
      cpKind q.img ≠ .load ∧ SourceIs v c q z (.error g) ∧ u = v ∧ code = 0x05 ∧ tval = BitVec.ofNat 64 g)

/-- It waits for its walk, or on its way: a store in the egress, a load behind a write of its granule (R273, R306, R381, R392). -/
def ElementWaits (t : State) (c : Nat) (q : CpCmd) (z : Nat) (a : Word) (u : State) : Prop :=
  ∃ v r, accessFrom t c (unitOrd q.ord) (t.ctx c).vf a (CmdAccess q) z true q.pa = (v, r) ∧
    ((r = .wait ∧ u = v) ∨ (∃ pa, r = .held pa ∧ u = v.setCore c (Waiting (v.core c) q pa)) ∨
    ∃ pa, r = .ok pa ∧ ((cpKind q.img = .store ∧ v.reqShut (dieOf c) pa = true) ∨ (cpKind q.img = .load ∧ v.behind c pa = true)) ∧
      u = v.setCore c (Waiting (v.core c) q pa))

/-- Bytes at their place in a granule. -/
def InGranule (pa : Nat) (bs : List Byte) : List (Option Byte) :=
  List.replicate (pa % 16) none ++ bs.map some ++ List.replicate (16 - pa % 16 - bs.length) none

/-- The bytes of a store join the part of its request that is on its way to their granule, or begin one (R315). -/
def JoinsPart (i : Instr) (s u : State) (c : Nat) (q : CpCmd) (a : Word) (pa : Nat) (bs : List Byte) (blk : Option Nat) (n : Nat) : Prop :=
  let g := pa / 16 * 16
  let wr : Writer := { kind := 1, core := c, vf := (u.ctx c).vf, task := (u.ctx c).task, ord := q.ord, va := a }
  let mine (f : Flit) : Prop := f.partOf c q.ord pa = true
  ∃ (more : Bool) (l : List Flit), (more = true ↔ GoesOn (u.core c) q a) ∧
    exec i s = .next (({ u with wire := l } : State).setCore c (SentElement (u.core c) q blk n)) ∧
    ((∀ f ∈ u.wire, ¬ mine f) → l = u.wire ++ [FlitTo (dieOf c) (farDie g) (match homeOf g with | .host _ => .hst | _ => .req)
      (.store wr g (InGranule pa bs) more)]) ∧
    ((∃ f ∈ u.wire, mine f) → l.length = u.wire.length ∧ ∀ (j : Nat) (f : Flit), u.wire[j]? = some f →
      (¬ mine f → l[j]? = some f) ∧
      ∀ w p old m, mine f → f.cargo = .store w p old m → l[j]? = some { f with
        cargo := .store w p ((List.range 16).map fun b => ((InGranule pa bs).getD b none).or (old.getD b none)) more })

/-- The next element of a command leaves for `pa`, where no set covers it (R233, R236, R237): a load is answered with what its home holds; an
accumulation joins the engine's requests, with a return of the old value for an exchange, a compare and swap, and RET; a store is a write
on its way. -/
def ElementLeaves (i : Instr) (s t : State) (c : Nat) (q : CpCmd) (z : Nat) (a : Word) (pa n : Nat) : Prop :=
  let blk := some (a.toNat / 64)
  let home := some (farDie pa, match homeOf pa with | .host _ => Chan.hst | _ => Chan.rsp)
  (cpKind q.img = .load → t.behind c pa = false →
    exec i s = .next ((t.noteRead pa z).setCore c (Answered (t.core c) q ⟨q.sent, q.x + q.sent * z, t.portRead pa z, none, home⟩ blk n))) ∧
  (cpKind q.img = .store → t.reqShut (dieOf c) pa = false → ∀ u bs, SourceIs t c q z (.ok (u, bs)) → JoinsPart i s u c q a pa bs blk n) ∧
  (cpKind q.img = .acc → ∀ u bs, SourceIs t c q z (.ok (u, bs)) →
    let op := accOp q.img
    let back : Option Nat := if op = 6 ∨ op = 7 ∨ q.sreg.getLsbD 47 = true then
      some (q.sreg.toNat % 2 ^ 47 + q.sent * (if op = 7 then 16 else z)) else none
    let r : AccReq := ⟨q.ord, q.k, q.img, (u.ctx c).vf, recEt (q.snap.getD {}).bytes, q.sent, a, pa, bs, back⟩
    exec i s = .next (u.setCore c (SentElement { u.core c with acc := (u.core c).acc ++ [r] } q blk n)))

/-- It leaves for a granule of set `ix`, which its task holds or is granted (R287, R288): a load sees the task's own bytes, a store goes to its
buffer. -/
def ElementInSet (i : Instr) (s t : State) (c : Nat) (q : CpCmd) (z : Nat) (a : Word) (pa n ix : Nat) : Prop :=
  let blk := some (a.toNat / 64)
  let home := some (farDie pa, match homeOf pa with | .host _ => Chan.hst | _ => Chan.rsp)
  let g : Word := a &&& ~~~15
  ∀ v, t.requestSet c (t.ctx c).vf ix = (v, true) →
    (cpKind q.img = .load → t.behind c pa = false → exec i s = .next ((v.noteRead pa z).setCore c (Answered (v.core c) q
      ⟨q.sent, q.x + q.sent * z, bufBytes (v.buf (v.ctx c).task) a (v.portRead pa z), none, home⟩ blk n))) ∧
    (cpKind q.img = .store → t.reqShut (dieOf c) pa = false → ∀ r u bs w, SourceIs t c q z (.ok r) → SourceIs v c q z (.ok (u, bs)) →
      u.bufStore (u.ctx c).task g (InGranule a.toNat bs) = some w → exec i s = .next (w.setCore c (SentElement (w.core c) q blk n)))

end Sys2Proof.Machine

/-- R166, R231 to R236, R239 to R241, R315, R429: the send stage takes a command and sends its next element, of a load, a store from scratch, a
fill, a scatter or an accumulation, or the one request of a future or a signal; responses are written; a multicast reaches its destinations;
commands complete with their gives and events; seams leave together. That cpfill.scr is checked for bounds alone is log entry 103. -/
def Obligations.CopyEngineFollowsR231ToR241 : Prop :=
  ∀ (s : State) (rest : List Turn) (c : Nat) (k : StrandIx) (j : Nat), let x := s.core c
    let u := Passed s rest
    (CoreTurns s c k j .copySendRequest rest → let i : Instr := .copySendRequest
      (¬ Alive x ∨ pickStage x = none → Idles i s rest) ∧
      (Alive x → ∀ y q, pickStage x = some (y, q) →
        let waits : Prop := pushOpen s c q = true ∨ (q.snap ≠ none ∧ cpKind q.img ≠ .acc ∧ y.acc ≠ [])
        (waits → UnitEvent i s c rest y) ∧
        (¬ waits → ∀ sh, q.snap = some sh → y.cmd q.ord = some q →
          let v := u.setCore c y
          let z := etSize (recEt sh.bytes)
          let fills : CpResp := { e := q.sent, x := q.x + q.sent * z, bytes := fillBytes sh.fill z }
          let scr : Prop := ∃ n h g ev, q.img = .cpfillScr n h g ev
          (∀ g, idxRead v c q q.sent = .error g → CommandFails i s v v c q 0x05 (BitVec.ofNat 64 g)) ∧
          ∀ w, idxRead v c q q.sent = .ok w →
            (cmdElem y q q.sent = .bounds → CommandFails i s v w c q 0x12 (BitVec.ofNat 64 q.sent)) ∧
            (cmdElem y q q.sent = .wrap → ¬ scr → CommandFails i s v w c q 0x13 (BitVec.ofNat 64 q.sent)) ∧
            (scr → (cmdElem y q q.sent = .wrap ∨ ∃ a, cmdElem y q q.sent = .va a) → UnitEvent i s c rest (Answered y q fills none)) ∧
            (cmdElem y q q.sent = .outside → cpKind q.img = .load → exec i s = .next (w.setCore c (Answered (w.core c) q fills none))) ∧
            (cmdElem y q q.sent = .outside → cpKind q.img ≠ .load → exec i s = .next (w.setCore c (SentElement (w.core c) q none))) ∧
            ∀ a, cmdElem y q q.sent = .va a → ¬ scr → let vf := (s.ctx c).vf
              let block := some (a.toNat / 64)
              let parts := (reqGranules y q (a.toNat / 64) (q.n - q.sent) q.sent).eraseDups.length
              let starts (t : State) (n : Nat) : Prop :=
                (q.blk = block ∧ t = w ∧ n = 0) ∨ (q.blk ≠ block ∧ n = parts ∧ w.chargeCopy (dieOf c) vf n = some t)
              (q.blk ≠ block → v.chargeCopy (dieOf c) vf parts = none → w = v → UnitEvent i s c rest y) ∧
              ∀ t n, starts t n →
                (∀ e f m, ElementFails t c q z a e f m → ∀ x code tval, ElementFails w c q z a x code tval → CommandFails i s v x c q code tval) ∧
                (w = v → ∀ x, ElementWaits t c q z a x → ∀ x', ElementWaits v c q z a x' → exec i s = .next x') ∧
                ∀ x r, accessFrom t c (unitOrd q.ord) vf a (CmdAccess q) z true q.pa = (x, r) →
                  (cpKind q.img = .load → ∀ fw, r = .fault fw 8 →
                    exec i s = .next (x.setCore c (Answered (x.core c) q ⟨q.sent, q.x + q.sent * z, [], some a, q.pa.map rspHome⟩ block n))) ∧
                  (∀ pa, r = .ok pa → x.setOf vf (a &&& ~~~15) = none → ElementLeaves i s x c q z a pa n) ∧
                  ∀ pa ix f, r = .ok pa → x.setOf vf (a &&& ~~~15) = some (ix, f) → ElementInSet i s x c q z a pa n ix) ∧
        (¬ waits → q.snap = none → let v := u.setCore c y
          let vf := (s.ctx c).vf
          let sig : Prop := ∃ n g ev m, q.img = .cpsig n g ev m
          ∀ a, (sig → a = q.greg + 0x20) → (¬ sig → a = q.greg) →
            (canonical a = false → CommandFails i s v v c q 0x14 a) ∧
            (canonical a = true → ∀ t r, accessFrom v c (unitOrd q.ord) vf a .rmw 16 true q.pa = (t, r) →
              (r = .wait → exec i s = .next t) ∧
              (∀ pa, r = .held pa → exec i s = .next (t.setCore c (Waiting (t.core c) q pa))) ∧
              (∀ fw e, r = .fault fw e → CommandFails i s v t c q (if fw = true then 0x39 else 0x14) a) ∧
              ∀ pa, r = .ok pa →
                (t.setOf vf (a &&& ~~~15) ≠ none → CommandFails i s v t c q 0x14 a) ∧
                (t.setOf vf (a &&& ~~~15) = none → (¬ sig → ∀ g, t.readCheck c q.k q.x 8 = .error g → CommandFails i s v t c q 0x05 (BitVec.ofNat 64 g)) ∧
                  ∀ w bs, (sig → w = t ∧ bs = []) → (¬ sig → t.readCheck c q.k q.x 8 = .ok w ∧ bs = ScrBytes (w.core c) q.x 8) →
                    (w.chargeCopy (dieOf c) vf 1 = none → exec i s = .next v) ∧
                    ∀ x, w.chargeCopy (dieOf c) vf 1 = some x → exec i s = .next (x.setCore c (SentElement
                      { x.core c with acc := (x.core c).acc ++ [⟨q.ord, q.k, q.img, vf, 0, 0, a, pa, bs, none⟩] } q none 1))))))) ∧
    (CoreTurns s c k j .copyResponse rest → let i : Instr := .copyResponse
      let l := if k = .l then x.lq else x.wq
      (¬ Alive x ∨ l[j]? = none → Idles i s rest) ∧
      (Alive x → ∀ q r o, l[j]? = some q → q.out = r :: o → let shut : Prop := ∃ h, r.home = some h ∧ s.shut h.2 h.1 (dieOf c) = true
        (shut → Idles i s rest) ∧
        (¬ shut → r.bad = none → (∀ n h sr g ev, q.img ≠ .cpldm n h sr g ev) →
          UnitEvent i s c rest ((mapCmd x q.ord (fun p => { p with out := o })).scrWrite r.x r.bytes)) ∧
        (¬ shut → r.bad = none → (∃ n h sr g ev, q.img = .cpldm n h sr g ev) →
          UnitEvent i s c rest (mapCmd x q.ord (fun p => { p with out := o, mdata := writeBytes p.mdata r.x r.bytes }))) ∧
        (¬ shut → ∀ va, r.bad = some va →
          CommandFails i s u (u.setCore c (mapCmd x q.ord (fun p => { p with out := o, sent := min p.sent r.e }))) c
            { q with sent := min q.sent r.e } 0x14 va))) ∧
    (CoreTurns s c k j .copyComplete rest → let i : Instr := .copyComplete
      let l := if k = .l then x.lq else x.wq
      (¬ Alive x ∨ l = [] → Idles i s rest) ∧
      (Alive x → ∀ q m, l = q :: m →
        (cmdDone s c q = false → Idles i s rest) ∧
        (cmdDone s c q = true → ∀ e, q.port = some e → CommandFails i s u u c q e.1 e.2) ∧
        (cmdDone s c q = true → q.port = none → q.mbad = 0 → (∀ n h sr g ev, q.img ≠ .cptag n h sr g ev) →
          let t := (annOf (parcel0 q.img)).t
          let gs := givesOf q.k (t.getLsbD 1) (t.getLsbD 0)
          let posts := if evOf q.img = true then 1 else 0
          (64 < x.evCount + posts ∨ (∃ f ∈ gs, 8 ≤ cnt x.tok f + cnt x.gave f) → Idles i s rest) ∧
          (x.evCount + posts ≤ 64 → (∀ f ∈ gs, cnt x.tok f + cnt x.gave f < 8) →
            ∃ g w, exec i s = .next w ∧ w.agenda = rest ∧ (∀ f, cnt g f = cnt x.gave f + gs.count f) ∧
              w.core c = { Dropped x q with
                gave := g
                evnow := if evOf q.img = true then insPost (4 * s.clock) (BitVec.ofNat 64 (2 ^ 56 + 2 ^ 54 * ixOf q.k +
                  (q.seq % 2 ^ 16 + 2 ^ 16 * ((parcel0 q.img).extractLsb' 18 7).toNat + 2 ^ 24 * (q.cas % 2 ^ 24)) % 2 ^ 48)) x.evnow
                  else x.evnow } ∧
              (∀ e, e ≠ c → w.core e = s.core e) ∧ w.mem = s.mem)))) ∧
    (CoreTurns s c k j .seamRelease rest → let i : Instr := .seamRelease
      (¬ Alive x ∨ x.lq = [] ∨ x.wq = [] → Idles i s rest) ∧
      (Alive x → ∀ a l b w, x.lq = a :: l → x.wq = b :: w →
        let both : Prop := (∃ n, a.img = .seam n) ∧ ∃ n, b.img = .seam n
        (both → UnitEvent i s c rest { x with lq := l, wq := w }) ∧ (¬ both → Idles i s rest))) ∧
    ∀ d, Turns s (.multicastDelivery c d) rest → let i : Instr := .multicastDelivery c d
      let mine (q : CpCmd) : Prop := (∃ n h sr g ev, q.img = .cpldm n h sr g ev) ∧ q.n ≤ q.sent ∧ q.out = [] ∧ d ∈ q.mleft
      (¬ Alive x ∨ (∀ q ∈ x.lq, ¬ mine q) → Idles i s rest) ∧
      (Alive x → ∀ l q r, x.lq = l ++ q :: r → (∀ p ∈ l, ¬ mine p) → mine q →
        let z := etSize (recEt (q.snap.getD {}).bytes)
        let fits : Prop := ∃ y, (s.core d).ctx = some y ∧ y.launch = (s.ctx c).launch ∧ q.x + q.n * z ≤ y.scrsize
        (¬ fits → UnitEvent i s c rest (mapCmd x q.ord (fun p => { p with
          mleft := p.mleft.filter (fun e => e != d), mbad := p.mbad ||| (1#16 <<< (d % 16)) }))) ∧
        (fits → (s.core d).evRoom = false → Idles i s rest) ∧
        (fits → (s.core d).evRoom = true → d ≠ c → ∃ w, exec i s = .next w ∧ w.agenda = rest ∧
          (w.core d).scr = (((s.core d).scrWriteTab q.mdata)).scr ∧
          (w.core d).evnow = insPost (4 * s.clock + 1) (BitVec.ofNat 64 (2 * 2 ^ 56 + 2 ^ 54 +
            (c + 2 ^ 12 * (q.x % 2 ^ 20) + 2 ^ 32 * ((q.n * z + 15) / 16 - 1)) % 2 ^ 48)) (s.core d).evnow ∧
          w.core c = mapCmd x q.ord (fun p => { p with mleft := p.mleft.filter (fun e => e != d) }) ∧
          ∀ e, e ≠ c → e ≠ d → w.core e = s.core e))

/-- R12, R285 to R287, R329, R331, R332, R336: a set access at its home directory is granted, waits, or wounds a younger holder; a free set goes to
its oldest waiter; the arbiter serves the lowest idle core that has a candidate, a steal only after the first turns of the other arbiters
(R332), and an iteration starts with its stamp at its body entries. -/
def Obligations.SetsAndArbiterFollowR285ToR287AndR336 : Prop :=
  (∀ (s : State) (rest : List Turn) (c : Nat) (va : Word), Turns s (.setRequest c va) rest → let i : Instr := .setRequest c va
    let y := s.ctx c
    let u := Passed s rest
    (¬ Alive (s.core c) ∨ s.setOf y.vf (va &&& ~~~15) = none → Idles i s rest) ∧
    (Alive (s.core c) → ∀ ix e0 e, s.setOf y.vf (va &&& ~~~15) = some (ix, e0) → s.setEnt y.vf ix = some e →
      let waits : SetEnt := if e.wait.any (fun w => w.1 == y.task) then e else { e with wait := e.wait ++ [(y.task, y.stamp)] }
      let put (f : SetEnt) : Prop := VfStep i s rest y.vf { s.vf y.vf with sets := Tab.set none (s.vf y.vf).sets ix (some f) }
      (e.st = .held → e.holder = y.task → Idles i s rest) ∧
      (e.st = .free → s.buf y.task ≠ none → (∀ w ∈ e.wait, w.1 = y.task ∨ older w.2 y.stamp = false ∨ s.bufFor w.1 = false) →
        put { e with st := .held, holder := y.task, wait := e.wait.filter (fun w => w.1 != y.task) }) ∧
      (e.st = .free → (∃ w ∈ e.wait, w.1 ≠ y.task ∧ older w.2 y.stamp = true ∧ s.bufFor w.1 = true) → put waits) ∧
      (e.st = .held → e.holder ≠ y.task → older y.stamp (s.stampOf e.holder) = false → put waits) ∧
      (e.st = .held → e.holder ≠ y.task → older y.stamp (s.stampOf e.holder) = true → ∀ h, coreOfTask s.cores e.holder = some h →
        ∃ vs cs, let t : State := { u with vfs := vs, cores := cs }
          exec i s = .next t ∧ t.vf y.vf = { s.vf y.vf with sets := Tab.set none (s.vf y.vf).sets ix (some { waits with st := .wounding }) } ∧
          t.core h = { s.core h with restart := (s.core h).restart.or (some (c, ix)) } ∧ ∀ d, d ≠ h → t.core d = s.core d) ∧
      (e.st = .wounding ∨ e.st = .publishing → put waits))) ∧
  (∀ (s : State) (rest : List Turn) (vf ix : Nat), Turns s (.setGrant vf ix) rest → let i : Instr := .setGrant vf ix
    ((∀ e, s.setEnt vf ix = some e → e.st ≠ .free ∨ e.wait = []) → Idles i s rest) ∧
    ∀ e w c, s.keysOk → s.setEnt vf ix = some e → e.st = .free → oldestWait e.wait = some w → coreOfTask s.cores w.1 = some c → (s.ctx c).stamp = w.2 →
      (∀ v ∈ e.wait, v.1 = w.1 ∨ older v.2 w.2 = false) → s.buf w.1 ≠ none →
      let f : SetEnt := { e with st := .held, holder := w.1, wait := e.wait.filter (fun v => v.1 != w.1) }
      VfStep i s rest vf { s.vf vf with sets := Tab.set none (s.vf vf).sets ix (some f) }) ∧
  (∀ (s : State) (rest : List Turn) (c : Nat) (k : StrandIx) (j : Nat), CoreTurns s c k j .arbiterServe rest → let d := dieOf c
    let u := Passed s rest
    let serves : Prop := (s.die d).st = .full ∨ (s.die d).st = .early
    (¬ serves ∨ (∀ n, dieOf n = d → (s.core n).ctx = none → serveCore u n = none) → Idles .arbiterServe s rest) ∧
    ∀ n t, serves → dieOf n = d → (s.core n).ctx = none → serveCore u n = some t →
      (∀ m < n, dieOf m = d → (s.core m).ctx = none → serveCore u m = none) →
      let later : Prop := j = 0 ∧ stealsFor u n = true ∧ ∃ e z m, Turn.event e z m .arbiterServe ∈ rest
      (later → exec .arbiterServe s = .next { s with agenda := rest ++ [.event (512 * d) .s 1 .arbiterServe] }) ∧
      (¬ later → exec .arbiterServe s = .next t)) ∧
  ∀ (s : State) (c l n : Nat), let t := startIteration s c l n
    let x := s.launch l
    ∃ y, (t.core c).ctx = some y ∧ y.task = s.ntask ∧ t.ntask = s.ntask + 1 ∧ y.launch = l ∧ y.iter = n ∧ y.vf = x.vf ∧ y.resume = 0 ∧
      y.restarts = 0 ∧ y.depth = 0 ∧ y.tvec = 0 ∧ y.scrsize = x.scrb ∧
      y.stamp = BitVec.ofNat 64 (s.dieclk / 16 % 2 ^ 52 * 2 ^ 12 + dieOf c * 2 ^ 9 + c % 512) ∧
      ∀ k, let b := (x.body[ixOf k]?).getD {}
        (b.entry = 0 → (t.str c k).running = false) ∧
        (b.entry ≠ 0 → (t.str c k).running = true ∧ (t.str c k).pc = b.entry ∧ (t.str c k).ls0 = b.kstart ∧ (t.str c k).le0 = b.kend ∧
          (t.str c k).lc0 = x.trip ∧ (t.str c k).pend = 0 ∧ (t.str c k).ic = 0)

/-! ### The whole machine -/

namespace Sys2Proof.Machine

/-- When the turn of a strand reaches the word at its pc: its core holds a context that is not leaving and no stop is under way, no fault of this clock cycle
stops it, the strand runs, has not issued, is held by no give and has no fetch wait left (R18, R24, R94, R144, R145), and in a handler what the
stop wrote is performed (R124). -/
structure MayIssue (s : State) (c : Nat) (k : StrandIx) : Prop where
  faults  : ∀ e ∈ (s.core c).stops, e.k ≠ k ∨ e.rank ≠ 2
  handler : (s.core c).stops = [] ∨ (s.ctx c).depth = 0
  context : (s.core c).ctx ≠ none ∧ (s.core c).halted = false ∧ (s.core c).removal = none ∧ (s.core c).restart = none ∧ (s.core c).nested = none
  runs    : (s.str c k).running = true ∧ (s.str c k).exiting = false
  free    : (s.str c k).issued = false ∧ (s.str c k).held = false ∧ (s.str c k).fwait = 0
  saved   : (s.ctx c).depth = 0 ∨ s.savedDone (s.ctx c).task = true

/-- The turn of an agenda that comes next: the first of those of least place (log entry 1). -/
def ComesFirst (l : List Turn) (t : Turn) (r : List Turn) : Prop :=
  ∃ a b, l = a ++ t :: b ∧ r = a ++ b ∧ (∀ u ∈ a, t.place < u.place) ∧ ∀ u ∈ b, t.place ≤ u.place

/-- The parcels of a vector word and of a matrix word in memory order: the highest bits first (R29). -/
def ThreeParcels (w : BitVec 96) : List (BitVec 32) := [w.extractLsb' 64 32, w.extractLsb' 32 32, w.extractLsb' 0 32]
def SixParcels (w : BitVec 192) : List (BitVec 32) :=
  [w.extractLsb' 160 32, w.extractLsb' 128 32, w.extractLsb' 96 32, w.extractLsb' 64 32, w.extractLsb' 32 32, w.extractLsb' 0 32]

end Sys2Proof.Machine

/-- R29 to R47: every well-formed word of a strand decodes to itself from the parcels that encode it, as many as its frame says; and every
parcel sequence that decodes to a well-formed word is that word's encoding, so no bit of it is dropped. -/
def Obligations.StrandWordsAndParcelsAgreeByR29ToR46 : Prop :=
  (∀ i : Instr, wellFormed i = true → encode i ≠ [] →
    decodeParcels (encode i) = i ∧ (encode i).length = parcelCount ((encode i).headD 0)) ∧
  ∀ ps : List (BitVec 32), ps.length = parcelCount (ps.headD 0) → wellFormed (decodeParcels ps) = true → encode (decodeParcels ps) = ps

/-- R47, R367: every well-formed Newt word decodes to itself from its encoding, and every 32-bit word that decodes to a well-formed Newt word
is that word's encoding. -/
def Obligations.NewtWordsAndEncodingsAgreeByR47 : Prop :=
  (∀ (i : Instr) (w : BitVec 32), wellFormed i = true → encN i = some w → decodeNewt w = some i) ∧
  ∀ (w : BitVec 32) (i : Instr), decodeNewt w = some i → wellFormed i = true → encN i = some w

/-- A few words written field by field from the encodings of R31 to R47 decode to the instruction they stand for. -/
def Obligations.WordsOfTheSpecDecode : Prop :=
  decodeParcels [0#32] = .nop ⟨false, 0⟩ ∧
  decodeParcels [0b00#2 ++ 0b1#1 ++ 0b0001#4 ++ 0x01#7 ++ 4#5 ++ 5#5 ++ 6#5 ++ 0b000#3] = .add ⟨true, 1⟩ 4 5 6 false ∧
  decodeParcels [0b00#2 ++ 0b0#1 ++ 0b0000#4 ++ 0x20#7 ++ 31#5 ++ 0x1FFF#13] = .li ⟨false, 0⟩ 31 0x1FFF ∧
  decodeParcels [0b00#2 ++ 0b0#1 ++ 0b1000#4 ++ 0x26#7 ++ 7#5 ++ 0x1000#13] = .bz ⟨false, 8⟩ 7 0x1000 ∧
  decodeParcels [0x01888000#32] = .tchk false 4 ∧
  decodeParcels [0x01000002#32] = .tkgive false 2 ∧
  decodeParcels [0x010C8500#32] = .tglook ⟨false, 0⟩ 4 5 ∧
  decodeParcels (ThreeParcels (0b01#2 ++ 0b0#1 ++ 0b0000#4 ++ 0x003#9 ++ 7#10 ++ 0b0#1 ++ 8#4 ++ 0b000#3 ++ 0b00#2
      ++ 1#5 ++ 2#10 ++ 1#5 ++ 2#5 ++ 0#10 ++ 1#5 ++ 3#5 ++ 4#10 ++ 17#5))
    = .vfma ⟨⟨false, 0⟩, 7, false, 8, 0, ⟨1, 2, 1⟩, ⟨2, 0, 1⟩, ⟨3, 4, 17⟩⟩ ∧
  decodeParcels (SixParcels (0b10#2 ++ 0b1#1 ++ 0b0000#4 ++ 0x04#6 ++ 0b01#2 ++ 3#6 ++ 2#6 ++ 0b1#1 ++ 0b0#1 ++ 9#5 ++ 16#16 ++ 5#10
      ++ 100#14 ++ 7#10 ++ 0b1#1 ++ 0#43 ++ 0#64))
    = .mxstream ⟨⟨true, 0⟩, 1, 3, 2, true, false, 9, 16, 5, 100, 7, true, 0⟩ ∧
  decodeNewt (0x03#5 ++ 1#4 ++ 2#4 ++ 3#4 ++ 0#15) = some (.nadd 1 2 3 false 0) ∧
  decodeNewt (0x13#5 ++ 0#27) = some .nend

/-- A step takes the turn that comes next: in a clock cycle the ticks come first (R316), a core's units before its strands, S after its
neighbours (R146), and the posts of multicasts and of collectives after every core (R161).
R18, R29, R30, R308: a turn of a strand that may issue fetches the parcels at its pc and is the meaning of the word they decode to, at the state the fetch leaves; an event's turn is the event; a Newt turn is the word its run is at; and an empty agenda begins the next
clock cycle. R146: the end of a turn takes it off the agenda, and the end of a core's last turn closes its clock cycle, from which the tokens
given stand in their FIFOs and those taken do not; stated for a core with nothing in flight, the strands having issued or not. -/
def Obligations.AStepRunsTheDecodedInstruction : Prop :=
  (∀ (s : State) (t : Turn) (r : List Turn), ComesFirst s.agenda t r → step s = runTurn { s with agenda := t :: r }) ∧
  (∀ c d k, (Turn.event c .s 0 (.refillTick d)).place < (Turn.event c k 0 .copySendRequest).place ∧
    (Turn.event c k 0 .copySendRequest).place < (Turn.issue c k).place ∧ (k ≠ .s → (Turn.issue c k).place < (Turn.issue c .s).place)) ∧
  (∀ c e d k j m, c < 4096 → (Turn.issue c k).place < (Turn.event e .s 0 (.multicastDelivery e d)).place ∧
    (Turn.event e .s 0 (.multicastDelivery e d)).place < (Turn.event j .s 0 (.collectiveComplete d m)).place) ∧
  (∀ (s : State) (rest : List Turn) (c : Nat) (k : StrandIx), s.agenda = .issue c k :: rest →
    let pc := (s.str c k).pc
    (MayIssue s c k → ∀ n t ps, fetchParcels c (unitHead k) n s pc = (t, .ok ps) → ps ≠ [] → n = parcelCount (ps.headD 0) →
      runTurn s = exec (decodeParcels ps) t ∧ t.agenda = s.agenda ∧ t.cores = s.cores ∧ t.mem = s.mem) ∧
    (MayIssue s c k → ∀ t code a, fetchParcels c (unitHead k) 1 s pc = (t, .error (some (code, a))) →
      runTurn s = .next (endTurn (t.mapCore c (fun x => { x with stops := x.stops ++ [⟨2, k, code, 0, a⟩] })) c)) ∧
    (MayIssue s c k → ∀ t, fetchParcels c (unitHead k) 1 s pc = (t, .error none) → runTurn s = .next (endTurn t c)) ∧
    (¬ MayIssue s c k → runTurn s = .next (idleTurn s c k))) ∧
  (∀ (s : State) (rest : List Turn) (i : Instr), Turns s i rest → runTurn s = exec i s) ∧
  (∀ (s : State) (rest : List Turn) (d k : Nat) (r : NewtRun) (i : Instr), s.agenda = .newt d k :: rest → (s.slot d k).run = some r →
    decodeNewt (Tab.get 0 (s.slot d k).prog r.pc) = some i → runTurn s = exec i s) ∧
  (∀ s : State, s.agenda = [] → ∃ l ds, let t : State := { s with
      clock := s.clock + 1, dieclk := (s.clock + 1) * 5 / 12, dies := ds, agenda := l, inbox := s.inbox.drop 1 }
    step s = .next t ∧ (∀ e ∈ s.inbox.head?, e ∈ l) ∧
    ∀ d, t.die d = { s.die d with newtIn := (s.die d).newtIn ++ (s.die d).newtNow, newtNow := [] }) ∧
  ∀ (s : State) (c : Nat), let x := s.core c
    let t := endTurn s c
    let q := x.evq ++ (s.ctx c).evwait ++ x.evnow.map Prod.snd
    ((∃ k, Turn.issue c k ∈ s.agenda.drop 1) → t = { s with agenda := s.agenda.drop 1 }) ∧
    ((∀ k, Turn.issue c k ∉ s.agenda.drop 1) → x.halted = false → x.ops = [] → x.stops = [] → (s.ctx c).drainPt = none → (∀ k, (x.str k).ret = []) →
      t.agenda = s.agenda.drop 1 ∧ t.mem = s.mem ∧ (∀ e, e ≠ c → t.core e = s.core e) ∧
      (t.core c).evq = q.take 64 ∧ (t.core c).ev0 = min q.length 64 ∧ (x.ctx ≠ none → (t.ctx c).evwait = q.drop 64) ∧
      (∀ f < 6, cnt (t.core c).tok f = cnt x.tok f + cnt x.gave f - cnt x.took f ∧ cnt (t.core c).gave f = 0 ∧ cnt (t.core c).took f = 0) ∧
      ∀ k, (∀ r, t.rd c k r = s.rd c k r) ∧ (t.str c k).issued = false ∧ (t.str c k).ic = (x.str k).ic ∧ (t.str c k).pc = (x.str k).pc ∧
        (t.str c k).running = (((x.str k).running && !(x.str k).exiting) || (x.str k).starting))

/-- Every step keeps the canonical form of memory and the order of the tables of cores and of functions on dies. -/
def Obligations.EveryStepKeepsMemoryAndTablesInForm : Prop :=
  ∀ s t : State, s.memOk → s.keysOk → step s = .next t → t.memOk ∧ t.keysOk

/-- The invariant of EveryStepKeepsMemoryAndTablesInForm holds at package reset. -/
def Obligations.ResetIsInForm : Prop := State.reset.memOk ∧ State.reset.keysOk

/-- R310, R314, R322, R333, R337, R364, R389, R391, R399, R403, R411, R412: what package reset leaves of the registers whose reset value the spec
gives; and R210, R259: no context, token, event or barrier stands. -/
def Obligations.ResetLeavesTheValuesOfTheSpec : Prop :=
  let s := State.reset
  (∀ d, (s.die d).st = .reset ∧ (s.die d).prwait = 20 ∧ (s.die d).prckpt = 500 ∧ (s.die d).prdrainw = 100 ∧ (s.die d).nstarve = 1024 ∧
    (s.die d).fwdeny = 0) ∧
  (∀ d q, (s.queue d q).qctl = 0 ∧ (s.queue d q).st = .disabled ∧ (s.queue d q).fifo = [] ∧ (s.queue d q).ovf = 0 ∧ (s.queue d q).faddr = 0 ∧
    (s.queue d q).limit = 0) ∧
  (∀ d k, (s.slot d k).en = false ∧ (s.slot d k).queue = [] ∧ (s.slot d k).run = none) ∧
  (∀ d v, (s.vd d v).cb.meter = false ∧ (s.vd d v).bu.meter = false ∧ (s.vd d v).nten = false) ∧
  (∀ v, (s.vf v).ptroot = 0 ∧ (s.vf v).gen = 0 ∧ (s.vf v).featact = 0x801 ∧ (s.vf v).part = 0) ∧
  (∀ c, (s.core c).ctx = none) ∧ (∀ l b, Tab.get {} (s.cluster l).bar b = {}) ∧ s.pkg.pid = 0 ∧ s.pkg.pmpend = none ∧
  (∀ l, Tab.get false s.pkg.force l = false ∧ Tab.get false s.pkg.down l = false) ∧ s.pkg.pwrcap = 3200 ∧ s.pkg.cfgok = false ∧ s.pkg.wdlast = 0 ∧
  ∀ c, (s.core c).evq = [] ∧ ∀ f, Tab.get 0 (s.core c).tok f = 0
end

