-- ==== Sys2Proof/Laws/Crypto.lean ====
section
/-!
SUPPORT. The lengths of what SHAKE gives, for the bytes of the attestation report (spec/20 R407).
-/

namespace Sys2Proof.Machine

@[simp] theorem keccakRound_length (a : List Word) (rc : Word) : (keccakRound a rc).length = 25 := by simp [keccakRound]

@[simp] theorem keccakF_length (a : List Word) : (keccakF a).length = 25 := by simp [keccakF, keccakRounds]

@[simp] theorem laneBytes_length (w : Word) : (laneBytes w).length = 8 := by simp [laneBytes]

theorem shakeAbsorb_length (rate : Nat) : ∀ (n : Nat) (a : List Word) (m : List Byte), a.length = 25 → (shakeAbsorb rate n a m).length = 25
  | 0, _, _, h => h
  | n + 1, a, m, h => by
    rw [shakeAbsorb]
    split
    · exact keccakF_length _
    · exact shakeAbsorb_length rate n _ _ (keccakF_length _)

theorem shakeSqueeze_length {rate : Nat} (hr : rate ≤ 200) : ∀ (n : Nat) (a : List Word), a.length = 25 → (shakeSqueeze rate n a).length = n * rate
  | 0, _, _ => by simp [shakeSqueeze]
  | n + 1, a, h => by
    have e : (a.flatMap laneBytes).length = 200 := by simp [List.length_flatMap, h]
    rw [shakeSqueeze, List.length_append, shakeSqueeze_length hr n _ (keccakF_length _), List.length_take, e, Nat.min_eq_left hr, Nat.add_mul]
    omega

/-- The output has the length that is asked for. -/
theorem shake_length {rate : Nat} (h0 : 0 < rate) (hr : rate ≤ 200) (m : List Byte) (n : Nat) : (shake rate m n).length = n := by
  rw [shake, List.length_take, shakeSqueeze_length hr _ _ (shakeAbsorb_length _ _ _ _ (by simp)), Nat.add_mul, Nat.one_mul]
  have := Nat.div_add_mod n rate
  have := Nat.mod_lt n h0
  rw [Nat.mul_comm rate] at *
  omega

@[simp] theorem shake256_length (m : List Byte) (n : Nat) : (shake256 m n).length = n := shake_length (by decide) (by decide) m n

end Sys2Proof.Machine
end

