-- ==== Sys2Proof/Laws/Tab.lean ====
section
/-!
SUPPORT. Laws of sparse tables: what a read gives after a write, and the canonical form that every operation keeps.
-/

namespace Sys2Proof.Machine

variable {α : Type}

theorem Tab.get_insert_self (d : α) (t : Tab α) (i : Nat) (v : α) : Tab.get d (Tab.insert i v (Tab.erase i t)) i = v := by
  suffices h : ∀ t : Tab α, (∀ x ∈ t, x.1 ≠ i) → Tab.get d (Tab.insert i v t) i = v by
    refine h _ ?_
    induction t with
    | nil => simp [Tab.erase]
    | cons a t ih =>
      intro x hx
      simp only [Tab.erase] at hx
      split at hx
      · exact ih x hx
      · rcases List.mem_cons.1 hx with rfl | hx
        · assumption
        · exact ih x hx
  intro t ht
  induction t with
  | nil => simp [Tab.insert, Tab.get]
  | cons a t ih =>
    have ha : a.1 ≠ i := ht a (by simp)
    simp only [Tab.insert]
    split
    · simp [Tab.get]
    · simp only [Tab.get, ha, ↓reduceIte]
      exact ih (fun x hx => ht x (List.mem_cons_of_mem _ hx))

theorem Tab.get_erase_ne (d : α) (t : Tab α) {i j : Nat} (h : j ≠ i) : Tab.get d (Tab.erase i t) j = Tab.get d t j := by
  induction t with
  | nil => rfl
  | cons a t ih =>
    simp only [Tab.erase]
    split
    · rename_i ha
      simp only [Tab.get, ha, h.symm, ↓reduceIte, ih]
    · simp only [Tab.get, ih]

theorem Tab.get_erase_self (d : α) (t : Tab α) (i : Nat) : Tab.get d (Tab.erase i t) i = d := by
  induction t with
  | nil => rfl
  | cons a t ih =>
    simp only [Tab.erase]
    split
    · exact ih
    · rename_i ha
      simp only [Tab.get, ha, ↓reduceIte, ih]

theorem Tab.get_insert_ne (d : α) (t : Tab α) {i j : Nat} (v : α) (h : j ≠ i) :
    Tab.get d (Tab.insert i v t) j = Tab.get d t j := by
  induction t with
  | nil => simp [Tab.insert, Tab.get, h.symm]
  | cons a t ih =>
    simp only [Tab.insert]
    split
    · simp [Tab.get, h.symm]
    · simp only [Tab.get, ih]

/-- Read after write at the same key. -/
@[simp] theorem Tab.get_set_self [DecidableEq α] (d : α) (t : Tab α) (i : Nat) (v : α) : Tab.get d (Tab.set d t i v) i = v := by
  unfold Tab.set
  split
  · rename_i h; rw [Tab.get_erase_self, h]
  · exact Tab.get_insert_self d t i v

/-- A write leaves every other key alone. -/
@[simp] theorem Tab.get_set_ne [DecidableEq α] (d : α) (t : Tab α) {i j : Nat} (v : α) (h : j ≠ i) :
    Tab.get d (Tab.set d t i v) j = Tab.get d t j := by
  unfold Tab.set
  split
  · exact Tab.get_erase_ne d t h
  · rw [Tab.get_insert_ne d _ v h, Tab.get_erase_ne d t h]

theorem Tab.get_set [DecidableEq α] (d : α) (t : Tab α) (i j : Nat) (v : α) :
    Tab.get d (Tab.set d t i v) j = if j = i then v else Tab.get d t j := by
  split
  · rename_i h; subst h; simp
  · rename_i h; simp [h]

/-! ### The canonical form -/

theorem Tab.erase_sub (i : Nat) (t : Tab α) : ∀ x ∈ Tab.erase i t, x ∈ t ∧ x.1 ≠ i := by
  induction t with
  | nil => simp [Tab.erase]
  | cons a t ih =>
    intro x hx
    simp only [Tab.erase] at hx
    split at hx
    · exact ⟨List.mem_cons_of_mem _ (ih x hx).1, (ih x hx).2⟩
    · rename_i ha
      rcases List.mem_cons.1 hx with rfl | hx
      · exact ⟨by simp, ha⟩
      · exact ⟨List.mem_cons_of_mem _ (ih x hx).1, (ih x hx).2⟩

theorem Tab.wf_erase {d : α} {t : Tab α} (i : Nat) (h : Tab.wf d t) : Tab.wf d (Tab.erase i t) := by
  refine ⟨?_, fun x hx => h.2 x (Tab.erase_sub i t x hx).1⟩
  have hp := h.1
  clear h
  induction t with
  | nil => simp [Tab.erase]
  | cons a t ih =>
    rw [List.pairwise_cons] at hp
    simp only [Tab.erase]
    split
    · exact ih hp.2
    · exact List.pairwise_cons.2 ⟨fun x hx => hp.1 x (Tab.erase_sub i t x hx).1, ih hp.2⟩

theorem Tab.insert_mem (i : Nat) (v : α) (t : Tab α) : ∀ x ∈ Tab.insert i v t, x = (i, v) ∨ x ∈ t := by
  induction t with
  | nil => simp [Tab.insert]
  | cons a t ih =>
    intro x hx
    simp only [Tab.insert] at hx
    split at hx
    · simpa using hx
    · rcases List.mem_cons.1 hx with rfl | hx
      · simp
      · rcases ih x hx with h | h
        · exact .inl h
        · exact .inr (List.mem_cons_of_mem _ h)

theorem Tab.wf_insert {d : α} {t : Tab α} {i : Nat} {v : α} (hv : v ≠ d) (h : Tab.wf d t) (hi : ∀ x ∈ t, x.1 ≠ i) :
    Tab.wf d (Tab.insert i v t) := by
  refine ⟨?_, fun x hx => ?_⟩
  · have hp := h.1
    clear h
    induction t with
    | nil => simp [Tab.insert]
    | cons a t ih =>
      have hp' := List.pairwise_cons.1 hp
      have ha : a.1 ≠ i := hi a (by simp)
      simp only [Tab.insert]
      split
      · rename_i hlt
        refine List.pairwise_cons.2 ⟨fun x hx => ?_, hp⟩
        rcases List.mem_cons.1 hx with rfl | hx
        · exact hlt
        · exact Nat.lt_trans hlt (hp'.1 x hx)
      · rename_i hlt
        refine List.pairwise_cons.2 ⟨fun x hx => ?_, ih (fun x hx => hi x (List.mem_cons_of_mem _ hx)) hp'.2⟩
        rcases Tab.insert_mem i v t x hx with rfl | hx
        · have : i ≠ a.1 := ha.symm
          simp only
          omega
        · exact hp'.1 x hx
  · rcases Tab.insert_mem i v t x hx with rfl | hx
    · exact hv
    · exact h.2 x hx

/-- A write keeps the canonical form. -/
theorem Tab.wf_set [DecidableEq α] {d : α} {t : Tab α} (i : Nat) (v : α) (h : Tab.wf d t) : Tab.wf d (Tab.set d t i v) := by
  unfold Tab.set
  split
  · exact Tab.wf_erase i h
  · rename_i hv
    exact Tab.wf_insert hv (Tab.wf_erase i h) (fun x hx => (Tab.erase_sub i t x hx).2)

theorem Tab.wf_nil (d : α) : Tab.wf d ([] : Tab α) := ⟨List.Pairwise.nil, by simp⟩

theorem Tab.wf_filter {d : α} {t : Tab α} (p : Nat × α → Bool) (h : Tab.wf d t) : Tab.wf d (t.filter p) :=
  ⟨h.1.filter p, fun x hx => h.2 x (List.mem_filter.1 hx).1⟩

/-- Writing bytes keeps the canonical form. -/
theorem writeBytes_wf (bs : List Byte) : ∀ (x : Nat) (t : Tab Byte), Tab.wf 0 t → Tab.wf 0 (writeBytes t x bs) := by
  induction bs with
  | nil => intro x t h; exact h
  | cons b bs ih => intro x t h; exact ih _ _ (Tab.wf_set x b h)

/-- Bytes outside the written run read as before. -/
theorem writeBytes_get (bs : List Byte) : ∀ (x : Nat) (t : Tab Byte) (a : Nat), (a < x ∨ x + bs.length ≤ a) →
    Tab.get 0 (writeBytes t x bs) a = Tab.get 0 t a := by
  induction bs with
  | nil => intro x t a _; rfl
  | cons b bs ih =>
    intro x t a h
    simp only [List.length_cons] at h
    have hx : a ≠ x := by omega
    rw [writeBytes, ih (x + 1) _ a (by omega), Tab.get_set_ne 0 t b hx]

/-- A written byte reads back. -/
theorem writeBytes_get_self (bs : List Byte) : ∀ (x : Nat) (t : Tab Byte) (j : Nat), j < bs.length →
    Tab.get 0 (writeBytes t x bs) (x + j) = bs.getD j 0 := by
  induction bs with
  | nil => intro x t j h; simp at h
  | cons b bs ih =>
    intro x t j h
    cases j with
    | zero =>
      have := writeBytes_get bs (x + 1) (Tab.set 0 t x b) x (by omega)
      simpa [writeBytes] using this
    | succ j =>
      have := ih (x + 1) (Tab.set 0 t x b) j (by simpa using h)
      rw [writeBytes, show x + (j + 1) = x + 1 + j by omega, this]
      simp

end Sys2Proof.Machine
end

