-- ==== Sys2Proof/Laws/State.lean ====
section
/-!
SUPPORT. One lemma per field per update of the state, and read after write of its named places, so that no proof unfolds
an update.
-/

namespace Sys2Proof.Machine

/-! `setCore` -/

@[simp] theorem State.setCore_mem (s : State) (c : Nat) (x : Core) : (s.setCore c x).mem = s.mem := rfl
@[simp] theorem State.setCore_poison (s : State) (c : Nat) (x : Core) : (s.setCore c x).poison = s.poison := rfl
@[simp] theorem State.setCore_clusters (s : State) (c : Nat) (x : Core) : (s.setCore c x).clusters = s.clusters := rfl
@[simp] theorem State.setCore_dies (s : State) (c : Nat) (x : Core) : (s.setCore c x).dies = s.dies := rfl
@[simp] theorem State.setCore_vfs (s : State) (c : Nat) (x : Core) : (s.setCore c x).vfs = s.vfs := rfl
@[simp] theorem State.setCore_vfdie (s : State) (c : Nat) (x : Core) : (s.setCore c x).vfdie = s.vfdie := rfl
@[simp] theorem State.setCore_pkg (s : State) (c : Nat) (x : Core) : (s.setCore c x).pkg = s.pkg := rfl
@[simp] theorem State.setCore_tlb (s : State) (c : Nat) (x : Core) : (s.setCore c x).tlb = s.tlb := rfl
@[simp] theorem State.setCore_walks (s : State) (c : Nat) (x : Core) : (s.setCore c x).walks = s.walks := rfl
@[simp] theorem State.setCore_wire (s : State) (c : Nat) (x : Core) : (s.setCore c x).wire = s.wire := rfl
@[simp] theorem State.setCore_reqs (s : State) (c : Nat) (x : Core) : (s.setCore c x).reqs = s.reqs := rfl
@[simp] theorem State.setCore_acts (s : State) (c : Nat) (x : Core) : (s.setCore c x).acts = s.acts := rfl
@[simp] theorem State.setCore_takes (s : State) (c : Nat) (x : Core) : (s.setCore c x).takes = s.takes := rfl
@[simp] theorem State.setCore_nact (s : State) (c : Nat) (x : Core) : (s.setCore c x).nact = s.nact := rfl
@[simp] theorem State.setCore_launches (s : State) (c : Nat) (x : Core) : (s.setCore c x).launches = s.launches := rfl
@[simp] theorem State.setCore_nlaunch (s : State) (c : Nat) (x : Core) : (s.setCore c x).nlaunch = s.nlaunch := rfl
@[simp] theorem State.setCore_ntask (s : State) (c : Nat) (x : Core) : (s.setCore c x).ntask = s.ntask := rfl
@[simp] theorem State.setCore_bufs (s : State) (c : Nat) (x : Core) : (s.setCore c x).bufs = s.bufs := rfl
@[simp] theorem State.setCore_colls (s : State) (c : Nat) (x : Core) : (s.setCore c x).colls = s.colls := rfl
@[simp] theorem State.setCore_armed (s : State) (c : Nat) (x : Core) : (s.setCore c x).armed = s.armed := rfl
@[simp] theorem State.setCore_hostOut (s : State) (c : Nat) (x : Core) : (s.setCore c x).hostOut = s.hostOut := rfl
@[simp] theorem State.setCore_clock (s : State) (c : Nat) (x : Core) : (s.setCore c x).clock = s.clock := rfl
@[simp] theorem State.setCore_dieclk (s : State) (c : Nat) (x : Core) : (s.setCore c x).dieclk = s.dieclk := rfl
@[simp] theorem State.setCore_free (s : State) (c : Nat) (x : Core) : (s.setCore c x).free = s.free := rfl
@[simp] theorem State.setCore_agenda (s : State) (c : Nat) (x : Core) : (s.setCore c x).agenda = s.agenda := rfl
@[simp] theorem State.setCore_inbox (s : State) (c : Nat) (x : Core) : (s.setCore c x).inbox = s.inbox := rfl
@[simp] theorem State.setCore_outbox (s : State) (c : Nat) (x : Core) : (s.setCore c x).outbox = s.outbox := rfl
@[simp] theorem State.die_setCore (s : State) (c : Nat) (x : Core) (e : Nat) : (s.setCore c x).die e = s.die e := rfl
@[simp] theorem State.queue_setCore (s : State) (c : Nat) (x : Core) (e q' : Nat) : (s.setCore c x).queue e q' = s.queue e q' := rfl
@[simp] theorem State.slot_setCore (s : State) (c : Nat) (x : Core) (e k' : Nat) : (s.setCore c x).slot e k' = s.slot e k' := rfl
@[simp] theorem State.vf_setCore (s : State) (c : Nat) (x : Core) (e : Nat) : (s.setCore c x).vf e = s.vf e := rfl
@[simp] theorem State.feat_setCore (s : State) (c : Nat) (x : Core) (e b' : Nat) : (s.setCore c x).feat e b' = s.feat e b' := rfl
@[simp] theorem State.vd_setCore (s : State) (c : Nat) (x : Core) (e v' : Nat) : (s.setCore c x).vd e v' = s.vd e v' := rfl
@[simp] theorem State.cluster_setCore (s : State) (c : Nat) (x : Core) (e : Nat) : (s.setCore c x).cluster e = s.cluster e := rfl
@[simp] theorem State.launch_setCore (s : State) (c : Nat) (x : Core) (e : Nat) : (s.setCore c x).launch e = s.launch e := rfl
@[simp] theorem State.buf_setCore (s : State) (c : Nat) (x : Core) (e : Nat) : (s.setCore c x).buf e = s.buf e := rfl

/-! `mapCore` -/

@[simp] theorem State.mapCore_mem (s : State) (c : Nat) (f : Core → Core) : (s.mapCore c f).mem = s.mem := rfl
@[simp] theorem State.mapCore_poison (s : State) (c : Nat) (f : Core → Core) : (s.mapCore c f).poison = s.poison := rfl
@[simp] theorem State.mapCore_clusters (s : State) (c : Nat) (f : Core → Core) : (s.mapCore c f).clusters = s.clusters := rfl
@[simp] theorem State.mapCore_dies (s : State) (c : Nat) (f : Core → Core) : (s.mapCore c f).dies = s.dies := rfl
@[simp] theorem State.mapCore_vfs (s : State) (c : Nat) (f : Core → Core) : (s.mapCore c f).vfs = s.vfs := rfl
@[simp] theorem State.mapCore_vfdie (s : State) (c : Nat) (f : Core → Core) : (s.mapCore c f).vfdie = s.vfdie := rfl
@[simp] theorem State.mapCore_pkg (s : State) (c : Nat) (f : Core → Core) : (s.mapCore c f).pkg = s.pkg := rfl
@[simp] theorem State.mapCore_tlb (s : State) (c : Nat) (f : Core → Core) : (s.mapCore c f).tlb = s.tlb := rfl
@[simp] theorem State.mapCore_walks (s : State) (c : Nat) (f : Core → Core) : (s.mapCore c f).walks = s.walks := rfl
@[simp] theorem State.mapCore_wire (s : State) (c : Nat) (f : Core → Core) : (s.mapCore c f).wire = s.wire := rfl
@[simp] theorem State.mapCore_reqs (s : State) (c : Nat) (f : Core → Core) : (s.mapCore c f).reqs = s.reqs := rfl
@[simp] theorem State.mapCore_acts (s : State) (c : Nat) (f : Core → Core) : (s.mapCore c f).acts = s.acts := rfl
@[simp] theorem State.mapCore_takes (s : State) (c : Nat) (f : Core → Core) : (s.mapCore c f).takes = s.takes := rfl
@[simp] theorem State.mapCore_nact (s : State) (c : Nat) (f : Core → Core) : (s.mapCore c f).nact = s.nact := rfl
@[simp] theorem State.mapCore_launches (s : State) (c : Nat) (f : Core → Core) : (s.mapCore c f).launches = s.launches := rfl
@[simp] theorem State.mapCore_nlaunch (s : State) (c : Nat) (f : Core → Core) : (s.mapCore c f).nlaunch = s.nlaunch := rfl
@[simp] theorem State.mapCore_ntask (s : State) (c : Nat) (f : Core → Core) : (s.mapCore c f).ntask = s.ntask := rfl
@[simp] theorem State.mapCore_bufs (s : State) (c : Nat) (f : Core → Core) : (s.mapCore c f).bufs = s.bufs := rfl
@[simp] theorem State.mapCore_colls (s : State) (c : Nat) (f : Core → Core) : (s.mapCore c f).colls = s.colls := rfl
@[simp] theorem State.mapCore_armed (s : State) (c : Nat) (f : Core → Core) : (s.mapCore c f).armed = s.armed := rfl
@[simp] theorem State.mapCore_hostOut (s : State) (c : Nat) (f : Core → Core) : (s.mapCore c f).hostOut = s.hostOut := rfl
@[simp] theorem State.mapCore_clock (s : State) (c : Nat) (f : Core → Core) : (s.mapCore c f).clock = s.clock := rfl
@[simp] theorem State.mapCore_dieclk (s : State) (c : Nat) (f : Core → Core) : (s.mapCore c f).dieclk = s.dieclk := rfl
@[simp] theorem State.mapCore_free (s : State) (c : Nat) (f : Core → Core) : (s.mapCore c f).free = s.free := rfl
@[simp] theorem State.mapCore_agenda (s : State) (c : Nat) (f : Core → Core) : (s.mapCore c f).agenda = s.agenda := rfl
@[simp] theorem State.mapCore_inbox (s : State) (c : Nat) (f : Core → Core) : (s.mapCore c f).inbox = s.inbox := rfl
@[simp] theorem State.mapCore_outbox (s : State) (c : Nat) (f : Core → Core) : (s.mapCore c f).outbox = s.outbox := rfl
@[simp] theorem State.die_mapCore (s : State) (c : Nat) (f : Core → Core) (e : Nat) : (s.mapCore c f).die e = s.die e := rfl
@[simp] theorem State.queue_mapCore (s : State) (c : Nat) (f : Core → Core) (e q' : Nat) : (s.mapCore c f).queue e q' = s.queue e q' := rfl
@[simp] theorem State.slot_mapCore (s : State) (c : Nat) (f : Core → Core) (e k' : Nat) : (s.mapCore c f).slot e k' = s.slot e k' := rfl
@[simp] theorem State.vf_mapCore (s : State) (c : Nat) (f : Core → Core) (e : Nat) : (s.mapCore c f).vf e = s.vf e := rfl
@[simp] theorem State.feat_mapCore (s : State) (c : Nat) (f : Core → Core) (e b' : Nat) : (s.mapCore c f).feat e b' = s.feat e b' := rfl
@[simp] theorem State.vd_mapCore (s : State) (c : Nat) (f : Core → Core) (e v' : Nat) : (s.mapCore c f).vd e v' = s.vd e v' := rfl
@[simp] theorem State.cluster_mapCore (s : State) (c : Nat) (f : Core → Core) (e : Nat) : (s.mapCore c f).cluster e = s.cluster e := rfl
@[simp] theorem State.launch_mapCore (s : State) (c : Nat) (f : Core → Core) (e : Nat) : (s.mapCore c f).launch e = s.launch e := rfl
@[simp] theorem State.buf_mapCore (s : State) (c : Nat) (f : Core → Core) (e : Nat) : (s.mapCore c f).buf e = s.buf e := rfl

/-! `mapStr` -/

@[simp] theorem State.mapStr_mem (s : State) (c : Nat) (k : StrandIx) (f : Strand → Strand) : (s.mapStr c k f).mem = s.mem := rfl
@[simp] theorem State.mapStr_poison (s : State) (c : Nat) (k : StrandIx) (f : Strand → Strand) : (s.mapStr c k f).poison = s.poison := rfl
@[simp] theorem State.mapStr_clusters (s : State) (c : Nat) (k : StrandIx) (f : Strand → Strand) : (s.mapStr c k f).clusters = s.clusters := rfl
@[simp] theorem State.mapStr_dies (s : State) (c : Nat) (k : StrandIx) (f : Strand → Strand) : (s.mapStr c k f).dies = s.dies := rfl
@[simp] theorem State.mapStr_vfs (s : State) (c : Nat) (k : StrandIx) (f : Strand → Strand) : (s.mapStr c k f).vfs = s.vfs := rfl
@[simp] theorem State.mapStr_vfdie (s : State) (c : Nat) (k : StrandIx) (f : Strand → Strand) : (s.mapStr c k f).vfdie = s.vfdie := rfl
@[simp] theorem State.mapStr_pkg (s : State) (c : Nat) (k : StrandIx) (f : Strand → Strand) : (s.mapStr c k f).pkg = s.pkg := rfl
@[simp] theorem State.mapStr_tlb (s : State) (c : Nat) (k : StrandIx) (f : Strand → Strand) : (s.mapStr c k f).tlb = s.tlb := rfl
@[simp] theorem State.mapStr_walks (s : State) (c : Nat) (k : StrandIx) (f : Strand → Strand) : (s.mapStr c k f).walks = s.walks := rfl
@[simp] theorem State.mapStr_wire (s : State) (c : Nat) (k : StrandIx) (f : Strand → Strand) : (s.mapStr c k f).wire = s.wire := rfl
@[simp] theorem State.mapStr_reqs (s : State) (c : Nat) (k : StrandIx) (f : Strand → Strand) : (s.mapStr c k f).reqs = s.reqs := rfl
@[simp] theorem State.mapStr_acts (s : State) (c : Nat) (k : StrandIx) (f : Strand → Strand) : (s.mapStr c k f).acts = s.acts := rfl
@[simp] theorem State.mapStr_takes (s : State) (c : Nat) (k : StrandIx) (f : Strand → Strand) : (s.mapStr c k f).takes = s.takes := rfl
@[simp] theorem State.mapStr_nact (s : State) (c : Nat) (k : StrandIx) (f : Strand → Strand) : (s.mapStr c k f).nact = s.nact := rfl
@[simp] theorem State.mapStr_launches (s : State) (c : Nat) (k : StrandIx) (f : Strand → Strand) : (s.mapStr c k f).launches = s.launches := rfl
@[simp] theorem State.mapStr_nlaunch (s : State) (c : Nat) (k : StrandIx) (f : Strand → Strand) : (s.mapStr c k f).nlaunch = s.nlaunch := rfl
@[simp] theorem State.mapStr_ntask (s : State) (c : Nat) (k : StrandIx) (f : Strand → Strand) : (s.mapStr c k f).ntask = s.ntask := rfl
@[simp] theorem State.mapStr_bufs (s : State) (c : Nat) (k : StrandIx) (f : Strand → Strand) : (s.mapStr c k f).bufs = s.bufs := rfl
@[simp] theorem State.mapStr_colls (s : State) (c : Nat) (k : StrandIx) (f : Strand → Strand) : (s.mapStr c k f).colls = s.colls := rfl
@[simp] theorem State.mapStr_armed (s : State) (c : Nat) (k : StrandIx) (f : Strand → Strand) : (s.mapStr c k f).armed = s.armed := rfl
@[simp] theorem State.mapStr_hostOut (s : State) (c : Nat) (k : StrandIx) (f : Strand → Strand) : (s.mapStr c k f).hostOut = s.hostOut := rfl
@[simp] theorem State.mapStr_clock (s : State) (c : Nat) (k : StrandIx) (f : Strand → Strand) : (s.mapStr c k f).clock = s.clock := rfl
@[simp] theorem State.mapStr_dieclk (s : State) (c : Nat) (k : StrandIx) (f : Strand → Strand) : (s.mapStr c k f).dieclk = s.dieclk := rfl
@[simp] theorem State.mapStr_free (s : State) (c : Nat) (k : StrandIx) (f : Strand → Strand) : (s.mapStr c k f).free = s.free := rfl
@[simp] theorem State.mapStr_agenda (s : State) (c : Nat) (k : StrandIx) (f : Strand → Strand) : (s.mapStr c k f).agenda = s.agenda := rfl
@[simp] theorem State.mapStr_inbox (s : State) (c : Nat) (k : StrandIx) (f : Strand → Strand) : (s.mapStr c k f).inbox = s.inbox := rfl
@[simp] theorem State.mapStr_outbox (s : State) (c : Nat) (k : StrandIx) (f : Strand → Strand) : (s.mapStr c k f).outbox = s.outbox := rfl
@[simp] theorem State.die_mapStr (s : State) (c : Nat) (k : StrandIx) (f : Strand → Strand) (e : Nat) : (s.mapStr c k f).die e = s.die e := rfl
@[simp] theorem State.queue_mapStr (s : State) (c : Nat) (k : StrandIx) (f : Strand → Strand) (e q' : Nat) : (s.mapStr c k f).queue e q' = s.queue e q' := rfl
@[simp] theorem State.slot_mapStr (s : State) (c : Nat) (k : StrandIx) (f : Strand → Strand) (e k' : Nat) : (s.mapStr c k f).slot e k' = s.slot e k' := rfl
@[simp] theorem State.vf_mapStr (s : State) (c : Nat) (k : StrandIx) (f : Strand → Strand) (e : Nat) : (s.mapStr c k f).vf e = s.vf e := rfl
@[simp] theorem State.feat_mapStr (s : State) (c : Nat) (k : StrandIx) (f : Strand → Strand) (e b' : Nat) : (s.mapStr c k f).feat e b' = s.feat e b' := rfl
@[simp] theorem State.vd_mapStr (s : State) (c : Nat) (k : StrandIx) (f : Strand → Strand) (e v' : Nat) : (s.mapStr c k f).vd e v' = s.vd e v' := rfl
@[simp] theorem State.cluster_mapStr (s : State) (c : Nat) (k : StrandIx) (f : Strand → Strand) (e : Nat) : (s.mapStr c k f).cluster e = s.cluster e := rfl
@[simp] theorem State.launch_mapStr (s : State) (c : Nat) (k : StrandIx) (f : Strand → Strand) (e : Nat) : (s.mapStr c k f).launch e = s.launch e := rfl
@[simp] theorem State.buf_mapStr (s : State) (c : Nat) (k : StrandIx) (f : Strand → Strand) (e : Nat) : (s.mapStr c k f).buf e = s.buf e := rfl

/-! `mapCtx` -/

@[simp] theorem State.mapCtx_mem (s : State) (c : Nat) (f : Ctx → Ctx) : (s.mapCtx c f).mem = s.mem := rfl
@[simp] theorem State.mapCtx_poison (s : State) (c : Nat) (f : Ctx → Ctx) : (s.mapCtx c f).poison = s.poison := rfl
@[simp] theorem State.mapCtx_clusters (s : State) (c : Nat) (f : Ctx → Ctx) : (s.mapCtx c f).clusters = s.clusters := rfl
@[simp] theorem State.mapCtx_dies (s : State) (c : Nat) (f : Ctx → Ctx) : (s.mapCtx c f).dies = s.dies := rfl
@[simp] theorem State.mapCtx_vfs (s : State) (c : Nat) (f : Ctx → Ctx) : (s.mapCtx c f).vfs = s.vfs := rfl
@[simp] theorem State.mapCtx_vfdie (s : State) (c : Nat) (f : Ctx → Ctx) : (s.mapCtx c f).vfdie = s.vfdie := rfl
@[simp] theorem State.mapCtx_pkg (s : State) (c : Nat) (f : Ctx → Ctx) : (s.mapCtx c f).pkg = s.pkg := rfl
@[simp] theorem State.mapCtx_tlb (s : State) (c : Nat) (f : Ctx → Ctx) : (s.mapCtx c f).tlb = s.tlb := rfl
@[simp] theorem State.mapCtx_walks (s : State) (c : Nat) (f : Ctx → Ctx) : (s.mapCtx c f).walks = s.walks := rfl
@[simp] theorem State.mapCtx_wire (s : State) (c : Nat) (f : Ctx → Ctx) : (s.mapCtx c f).wire = s.wire := rfl
@[simp] theorem State.mapCtx_reqs (s : State) (c : Nat) (f : Ctx → Ctx) : (s.mapCtx c f).reqs = s.reqs := rfl
@[simp] theorem State.mapCtx_acts (s : State) (c : Nat) (f : Ctx → Ctx) : (s.mapCtx c f).acts = s.acts := rfl
@[simp] theorem State.mapCtx_takes (s : State) (c : Nat) (f : Ctx → Ctx) : (s.mapCtx c f).takes = s.takes := rfl
@[simp] theorem State.mapCtx_nact (s : State) (c : Nat) (f : Ctx → Ctx) : (s.mapCtx c f).nact = s.nact := rfl
@[simp] theorem State.mapCtx_launches (s : State) (c : Nat) (f : Ctx → Ctx) : (s.mapCtx c f).launches = s.launches := rfl
@[simp] theorem State.mapCtx_nlaunch (s : State) (c : Nat) (f : Ctx → Ctx) : (s.mapCtx c f).nlaunch = s.nlaunch := rfl
@[simp] theorem State.mapCtx_ntask (s : State) (c : Nat) (f : Ctx → Ctx) : (s.mapCtx c f).ntask = s.ntask := rfl
@[simp] theorem State.mapCtx_bufs (s : State) (c : Nat) (f : Ctx → Ctx) : (s.mapCtx c f).bufs = s.bufs := rfl
@[simp] theorem State.mapCtx_colls (s : State) (c : Nat) (f : Ctx → Ctx) : (s.mapCtx c f).colls = s.colls := rfl
@[simp] theorem State.mapCtx_armed (s : State) (c : Nat) (f : Ctx → Ctx) : (s.mapCtx c f).armed = s.armed := rfl
@[simp] theorem State.mapCtx_hostOut (s : State) (c : Nat) (f : Ctx → Ctx) : (s.mapCtx c f).hostOut = s.hostOut := rfl
@[simp] theorem State.mapCtx_clock (s : State) (c : Nat) (f : Ctx → Ctx) : (s.mapCtx c f).clock = s.clock := rfl
@[simp] theorem State.mapCtx_dieclk (s : State) (c : Nat) (f : Ctx → Ctx) : (s.mapCtx c f).dieclk = s.dieclk := rfl
@[simp] theorem State.mapCtx_free (s : State) (c : Nat) (f : Ctx → Ctx) : (s.mapCtx c f).free = s.free := rfl
@[simp] theorem State.mapCtx_agenda (s : State) (c : Nat) (f : Ctx → Ctx) : (s.mapCtx c f).agenda = s.agenda := rfl
@[simp] theorem State.mapCtx_inbox (s : State) (c : Nat) (f : Ctx → Ctx) : (s.mapCtx c f).inbox = s.inbox := rfl
@[simp] theorem State.mapCtx_outbox (s : State) (c : Nat) (f : Ctx → Ctx) : (s.mapCtx c f).outbox = s.outbox := rfl
@[simp] theorem State.die_mapCtx (s : State) (c : Nat) (f : Ctx → Ctx) (e : Nat) : (s.mapCtx c f).die e = s.die e := rfl
@[simp] theorem State.queue_mapCtx (s : State) (c : Nat) (f : Ctx → Ctx) (e q' : Nat) : (s.mapCtx c f).queue e q' = s.queue e q' := rfl
@[simp] theorem State.slot_mapCtx (s : State) (c : Nat) (f : Ctx → Ctx) (e k' : Nat) : (s.mapCtx c f).slot e k' = s.slot e k' := rfl
@[simp] theorem State.vf_mapCtx (s : State) (c : Nat) (f : Ctx → Ctx) (e : Nat) : (s.mapCtx c f).vf e = s.vf e := rfl
@[simp] theorem State.feat_mapCtx (s : State) (c : Nat) (f : Ctx → Ctx) (e b' : Nat) : (s.mapCtx c f).feat e b' = s.feat e b' := rfl
@[simp] theorem State.vd_mapCtx (s : State) (c : Nat) (f : Ctx → Ctx) (e v' : Nat) : (s.mapCtx c f).vd e v' = s.vd e v' := rfl
@[simp] theorem State.cluster_mapCtx (s : State) (c : Nat) (f : Ctx → Ctx) (e : Nat) : (s.mapCtx c f).cluster e = s.cluster e := rfl
@[simp] theorem State.launch_mapCtx (s : State) (c : Nat) (f : Ctx → Ctx) (e : Nat) : (s.mapCtx c f).launch e = s.launch e := rfl
@[simp] theorem State.buf_mapCtx (s : State) (c : Nat) (f : Ctx → Ctx) (e : Nat) : (s.mapCtx c f).buf e = s.buf e := rfl

/-! `mapDie` -/

@[simp] theorem State.mapDie_mem (s : State) (d : Nat) (f : Die → Die) : (s.mapDie d f).mem = s.mem := rfl
@[simp] theorem State.mapDie_poison (s : State) (d : Nat) (f : Die → Die) : (s.mapDie d f).poison = s.poison := rfl
@[simp] theorem State.mapDie_cores (s : State) (d : Nat) (f : Die → Die) : (s.mapDie d f).cores = s.cores := rfl
@[simp] theorem State.mapDie_clusters (s : State) (d : Nat) (f : Die → Die) : (s.mapDie d f).clusters = s.clusters := rfl
@[simp] theorem State.mapDie_vfs (s : State) (d : Nat) (f : Die → Die) : (s.mapDie d f).vfs = s.vfs := rfl
@[simp] theorem State.mapDie_vfdie (s : State) (d : Nat) (f : Die → Die) : (s.mapDie d f).vfdie = s.vfdie := rfl
@[simp] theorem State.mapDie_pkg (s : State) (d : Nat) (f : Die → Die) : (s.mapDie d f).pkg = s.pkg := rfl
@[simp] theorem State.mapDie_tlb (s : State) (d : Nat) (f : Die → Die) : (s.mapDie d f).tlb = s.tlb := rfl
@[simp] theorem State.mapDie_walks (s : State) (d : Nat) (f : Die → Die) : (s.mapDie d f).walks = s.walks := rfl
@[simp] theorem State.mapDie_wire (s : State) (d : Nat) (f : Die → Die) : (s.mapDie d f).wire = s.wire := rfl
@[simp] theorem State.mapDie_reqs (s : State) (d : Nat) (f : Die → Die) : (s.mapDie d f).reqs = s.reqs := rfl
@[simp] theorem State.mapDie_acts (s : State) (d : Nat) (f : Die → Die) : (s.mapDie d f).acts = s.acts := rfl
@[simp] theorem State.mapDie_takes (s : State) (d : Nat) (f : Die → Die) : (s.mapDie d f).takes = s.takes := rfl
@[simp] theorem State.mapDie_nact (s : State) (d : Nat) (f : Die → Die) : (s.mapDie d f).nact = s.nact := rfl
@[simp] theorem State.mapDie_launches (s : State) (d : Nat) (f : Die → Die) : (s.mapDie d f).launches = s.launches := rfl
@[simp] theorem State.mapDie_nlaunch (s : State) (d : Nat) (f : Die → Die) : (s.mapDie d f).nlaunch = s.nlaunch := rfl
@[simp] theorem State.mapDie_ntask (s : State) (d : Nat) (f : Die → Die) : (s.mapDie d f).ntask = s.ntask := rfl
@[simp] theorem State.mapDie_bufs (s : State) (d : Nat) (f : Die → Die) : (s.mapDie d f).bufs = s.bufs := rfl
@[simp] theorem State.mapDie_colls (s : State) (d : Nat) (f : Die → Die) : (s.mapDie d f).colls = s.colls := rfl
@[simp] theorem State.mapDie_armed (s : State) (d : Nat) (f : Die → Die) : (s.mapDie d f).armed = s.armed := rfl
@[simp] theorem State.mapDie_hostOut (s : State) (d : Nat) (f : Die → Die) : (s.mapDie d f).hostOut = s.hostOut := rfl
@[simp] theorem State.mapDie_clock (s : State) (d : Nat) (f : Die → Die) : (s.mapDie d f).clock = s.clock := rfl
@[simp] theorem State.mapDie_dieclk (s : State) (d : Nat) (f : Die → Die) : (s.mapDie d f).dieclk = s.dieclk := rfl
@[simp] theorem State.mapDie_free (s : State) (d : Nat) (f : Die → Die) : (s.mapDie d f).free = s.free := rfl
@[simp] theorem State.mapDie_agenda (s : State) (d : Nat) (f : Die → Die) : (s.mapDie d f).agenda = s.agenda := rfl
@[simp] theorem State.mapDie_inbox (s : State) (d : Nat) (f : Die → Die) : (s.mapDie d f).inbox = s.inbox := rfl
@[simp] theorem State.mapDie_outbox (s : State) (d : Nat) (f : Die → Die) : (s.mapDie d f).outbox = s.outbox := rfl
@[simp] theorem State.core_mapDie (s : State) (d : Nat) (f : Die → Die) (e : Nat) : (s.mapDie d f).core e = s.core e := rfl
@[simp] theorem State.str_mapDie (s : State) (d : Nat) (f : Die → Die) (e : Nat) (j : StrandIx) : (s.mapDie d f).str e j = s.str e j := rfl
@[simp] theorem State.ctx_mapDie (s : State) (d : Nat) (f : Die → Die) (e : Nat) : (s.mapDie d f).ctx e = s.ctx e := rfl
@[simp] theorem State.rd_mapDie (s : State) (d : Nat) (f : Die → Die) (e : Nat) (j : StrandIx) (r : Reg) : (s.mapDie d f).rd e j r = s.rd e j r := rfl
@[simp] theorem State.vf_mapDie (s : State) (d : Nat) (f : Die → Die) (e : Nat) : (s.mapDie d f).vf e = s.vf e := rfl
@[simp] theorem State.feat_mapDie (s : State) (d : Nat) (f : Die → Die) (e b' : Nat) : (s.mapDie d f).feat e b' = s.feat e b' := rfl
@[simp] theorem State.vd_mapDie (s : State) (d : Nat) (f : Die → Die) (e v' : Nat) : (s.mapDie d f).vd e v' = s.vd e v' := rfl
@[simp] theorem State.cluster_mapDie (s : State) (d : Nat) (f : Die → Die) (e : Nat) : (s.mapDie d f).cluster e = s.cluster e := rfl
@[simp] theorem State.launch_mapDie (s : State) (d : Nat) (f : Die → Die) (e : Nat) : (s.mapDie d f).launch e = s.launch e := rfl
@[simp] theorem State.buf_mapDie (s : State) (d : Nat) (f : Die → Die) (e : Nat) : (s.mapDie d f).buf e = s.buf e := rfl

/-! `mapVf` -/

@[simp] theorem State.mapVf_mem (s : State) (v : Nat) (f : Vf → Vf) : (s.mapVf v f).mem = s.mem := rfl
@[simp] theorem State.mapVf_poison (s : State) (v : Nat) (f : Vf → Vf) : (s.mapVf v f).poison = s.poison := rfl
@[simp] theorem State.mapVf_cores (s : State) (v : Nat) (f : Vf → Vf) : (s.mapVf v f).cores = s.cores := rfl
@[simp] theorem State.mapVf_clusters (s : State) (v : Nat) (f : Vf → Vf) : (s.mapVf v f).clusters = s.clusters := rfl
@[simp] theorem State.mapVf_dies (s : State) (v : Nat) (f : Vf → Vf) : (s.mapVf v f).dies = s.dies := rfl
@[simp] theorem State.mapVf_vfdie (s : State) (v : Nat) (f : Vf → Vf) : (s.mapVf v f).vfdie = s.vfdie := rfl
@[simp] theorem State.mapVf_pkg (s : State) (v : Nat) (f : Vf → Vf) : (s.mapVf v f).pkg = s.pkg := rfl
@[simp] theorem State.mapVf_tlb (s : State) (v : Nat) (f : Vf → Vf) : (s.mapVf v f).tlb = s.tlb := rfl
@[simp] theorem State.mapVf_walks (s : State) (v : Nat) (f : Vf → Vf) : (s.mapVf v f).walks = s.walks := rfl
@[simp] theorem State.mapVf_wire (s : State) (v : Nat) (f : Vf → Vf) : (s.mapVf v f).wire = s.wire := rfl
@[simp] theorem State.mapVf_reqs (s : State) (v : Nat) (f : Vf → Vf) : (s.mapVf v f).reqs = s.reqs := rfl
@[simp] theorem State.mapVf_acts (s : State) (v : Nat) (f : Vf → Vf) : (s.mapVf v f).acts = s.acts := rfl
@[simp] theorem State.mapVf_takes (s : State) (v : Nat) (f : Vf → Vf) : (s.mapVf v f).takes = s.takes := rfl
@[simp] theorem State.mapVf_nact (s : State) (v : Nat) (f : Vf → Vf) : (s.mapVf v f).nact = s.nact := rfl
@[simp] theorem State.mapVf_launches (s : State) (v : Nat) (f : Vf → Vf) : (s.mapVf v f).launches = s.launches := rfl
@[simp] theorem State.mapVf_nlaunch (s : State) (v : Nat) (f : Vf → Vf) : (s.mapVf v f).nlaunch = s.nlaunch := rfl
@[simp] theorem State.mapVf_ntask (s : State) (v : Nat) (f : Vf → Vf) : (s.mapVf v f).ntask = s.ntask := rfl
@[simp] theorem State.mapVf_bufs (s : State) (v : Nat) (f : Vf → Vf) : (s.mapVf v f).bufs = s.bufs := rfl
@[simp] theorem State.mapVf_colls (s : State) (v : Nat) (f : Vf → Vf) : (s.mapVf v f).colls = s.colls := rfl
@[simp] theorem State.mapVf_armed (s : State) (v : Nat) (f : Vf → Vf) : (s.mapVf v f).armed = s.armed := rfl
@[simp] theorem State.mapVf_hostOut (s : State) (v : Nat) (f : Vf → Vf) : (s.mapVf v f).hostOut = s.hostOut := rfl
@[simp] theorem State.mapVf_clock (s : State) (v : Nat) (f : Vf → Vf) : (s.mapVf v f).clock = s.clock := rfl
@[simp] theorem State.mapVf_dieclk (s : State) (v : Nat) (f : Vf → Vf) : (s.mapVf v f).dieclk = s.dieclk := rfl
@[simp] theorem State.mapVf_free (s : State) (v : Nat) (f : Vf → Vf) : (s.mapVf v f).free = s.free := rfl
@[simp] theorem State.mapVf_agenda (s : State) (v : Nat) (f : Vf → Vf) : (s.mapVf v f).agenda = s.agenda := rfl
@[simp] theorem State.mapVf_inbox (s : State) (v : Nat) (f : Vf → Vf) : (s.mapVf v f).inbox = s.inbox := rfl
@[simp] theorem State.mapVf_outbox (s : State) (v : Nat) (f : Vf → Vf) : (s.mapVf v f).outbox = s.outbox := rfl
@[simp] theorem State.core_mapVf (s : State) (v : Nat) (f : Vf → Vf) (e : Nat) : (s.mapVf v f).core e = s.core e := rfl
@[simp] theorem State.str_mapVf (s : State) (v : Nat) (f : Vf → Vf) (e : Nat) (j : StrandIx) : (s.mapVf v f).str e j = s.str e j := rfl
@[simp] theorem State.ctx_mapVf (s : State) (v : Nat) (f : Vf → Vf) (e : Nat) : (s.mapVf v f).ctx e = s.ctx e := rfl
@[simp] theorem State.rd_mapVf (s : State) (v : Nat) (f : Vf → Vf) (e : Nat) (j : StrandIx) (r : Reg) : (s.mapVf v f).rd e j r = s.rd e j r := rfl
@[simp] theorem State.die_mapVf (s : State) (v : Nat) (f : Vf → Vf) (e : Nat) : (s.mapVf v f).die e = s.die e := rfl
@[simp] theorem State.queue_mapVf (s : State) (v : Nat) (f : Vf → Vf) (e q' : Nat) : (s.mapVf v f).queue e q' = s.queue e q' := rfl
@[simp] theorem State.slot_mapVf (s : State) (v : Nat) (f : Vf → Vf) (e k' : Nat) : (s.mapVf v f).slot e k' = s.slot e k' := rfl
@[simp] theorem State.vd_mapVf (s : State) (v : Nat) (f : Vf → Vf) (e v' : Nat) : (s.mapVf v f).vd e v' = s.vd e v' := rfl
@[simp] theorem State.cluster_mapVf (s : State) (v : Nat) (f : Vf → Vf) (e : Nat) : (s.mapVf v f).cluster e = s.cluster e := rfl
@[simp] theorem State.launch_mapVf (s : State) (v : Nat) (f : Vf → Vf) (e : Nat) : (s.mapVf v f).launch e = s.launch e := rfl
@[simp] theorem State.buf_mapVf (s : State) (v : Nat) (f : Vf → Vf) (e : Nat) : (s.mapVf v f).buf e = s.buf e := rfl

/-! `mapVd` -/

@[simp] theorem State.mapVd_mem (s : State) (d v : Nat) (f : VfDie → VfDie) : (s.mapVd d v f).mem = s.mem := rfl
@[simp] theorem State.mapVd_poison (s : State) (d v : Nat) (f : VfDie → VfDie) : (s.mapVd d v f).poison = s.poison := rfl
@[simp] theorem State.mapVd_cores (s : State) (d v : Nat) (f : VfDie → VfDie) : (s.mapVd d v f).cores = s.cores := rfl
@[simp] theorem State.mapVd_clusters (s : State) (d v : Nat) (f : VfDie → VfDie) : (s.mapVd d v f).clusters = s.clusters := rfl
@[simp] theorem State.mapVd_dies (s : State) (d v : Nat) (f : VfDie → VfDie) : (s.mapVd d v f).dies = s.dies := rfl
@[simp] theorem State.mapVd_vfs (s : State) (d v : Nat) (f : VfDie → VfDie) : (s.mapVd d v f).vfs = s.vfs := rfl
@[simp] theorem State.mapVd_pkg (s : State) (d v : Nat) (f : VfDie → VfDie) : (s.mapVd d v f).pkg = s.pkg := rfl
@[simp] theorem State.mapVd_tlb (s : State) (d v : Nat) (f : VfDie → VfDie) : (s.mapVd d v f).tlb = s.tlb := rfl
@[simp] theorem State.mapVd_walks (s : State) (d v : Nat) (f : VfDie → VfDie) : (s.mapVd d v f).walks = s.walks := rfl
@[simp] theorem State.mapVd_wire (s : State) (d v : Nat) (f : VfDie → VfDie) : (s.mapVd d v f).wire = s.wire := rfl
@[simp] theorem State.mapVd_reqs (s : State) (d v : Nat) (f : VfDie → VfDie) : (s.mapVd d v f).reqs = s.reqs := rfl
@[simp] theorem State.mapVd_acts (s : State) (d v : Nat) (f : VfDie → VfDie) : (s.mapVd d v f).acts = s.acts := rfl
@[simp] theorem State.mapVd_takes (s : State) (d v : Nat) (f : VfDie → VfDie) : (s.mapVd d v f).takes = s.takes := rfl
@[simp] theorem State.mapVd_nact (s : State) (d v : Nat) (f : VfDie → VfDie) : (s.mapVd d v f).nact = s.nact := rfl
@[simp] theorem State.mapVd_launches (s : State) (d v : Nat) (f : VfDie → VfDie) : (s.mapVd d v f).launches = s.launches := rfl
@[simp] theorem State.mapVd_nlaunch (s : State) (d v : Nat) (f : VfDie → VfDie) : (s.mapVd d v f).nlaunch = s.nlaunch := rfl
@[simp] theorem State.mapVd_ntask (s : State) (d v : Nat) (f : VfDie → VfDie) : (s.mapVd d v f).ntask = s.ntask := rfl
@[simp] theorem State.mapVd_bufs (s : State) (d v : Nat) (f : VfDie → VfDie) : (s.mapVd d v f).bufs = s.bufs := rfl
@[simp] theorem State.mapVd_colls (s : State) (d v : Nat) (f : VfDie → VfDie) : (s.mapVd d v f).colls = s.colls := rfl
@[simp] theorem State.mapVd_armed (s : State) (d v : Nat) (f : VfDie → VfDie) : (s.mapVd d v f).armed = s.armed := rfl
@[simp] theorem State.mapVd_hostOut (s : State) (d v : Nat) (f : VfDie → VfDie) : (s.mapVd d v f).hostOut = s.hostOut := rfl
@[simp] theorem State.mapVd_clock (s : State) (d v : Nat) (f : VfDie → VfDie) : (s.mapVd d v f).clock = s.clock := rfl
@[simp] theorem State.mapVd_dieclk (s : State) (d v : Nat) (f : VfDie → VfDie) : (s.mapVd d v f).dieclk = s.dieclk := rfl
@[simp] theorem State.mapVd_free (s : State) (d v : Nat) (f : VfDie → VfDie) : (s.mapVd d v f).free = s.free := rfl
@[simp] theorem State.mapVd_agenda (s : State) (d v : Nat) (f : VfDie → VfDie) : (s.mapVd d v f).agenda = s.agenda := rfl
@[simp] theorem State.mapVd_inbox (s : State) (d v : Nat) (f : VfDie → VfDie) : (s.mapVd d v f).inbox = s.inbox := rfl
@[simp] theorem State.mapVd_outbox (s : State) (d v : Nat) (f : VfDie → VfDie) : (s.mapVd d v f).outbox = s.outbox := rfl
@[simp] theorem State.core_mapVd (s : State) (d v : Nat) (f : VfDie → VfDie) (e : Nat) : (s.mapVd d v f).core e = s.core e := rfl
@[simp] theorem State.str_mapVd (s : State) (d v : Nat) (f : VfDie → VfDie) (e : Nat) (j : StrandIx) : (s.mapVd d v f).str e j = s.str e j := rfl
@[simp] theorem State.ctx_mapVd (s : State) (d v : Nat) (f : VfDie → VfDie) (e : Nat) : (s.mapVd d v f).ctx e = s.ctx e := rfl
@[simp] theorem State.rd_mapVd (s : State) (d v : Nat) (f : VfDie → VfDie) (e : Nat) (j : StrandIx) (r : Reg) : (s.mapVd d v f).rd e j r = s.rd e j r := rfl
@[simp] theorem State.die_mapVd (s : State) (d v : Nat) (f : VfDie → VfDie) (e : Nat) : (s.mapVd d v f).die e = s.die e := rfl
@[simp] theorem State.queue_mapVd (s : State) (d v : Nat) (f : VfDie → VfDie) (e q' : Nat) : (s.mapVd d v f).queue e q' = s.queue e q' := rfl
@[simp] theorem State.slot_mapVd (s : State) (d v : Nat) (f : VfDie → VfDie) (e k' : Nat) : (s.mapVd d v f).slot e k' = s.slot e k' := rfl
@[simp] theorem State.vf_mapVd (s : State) (d v : Nat) (f : VfDie → VfDie) (e : Nat) : (s.mapVd d v f).vf e = s.vf e := rfl
@[simp] theorem State.feat_mapVd (s : State) (d v : Nat) (f : VfDie → VfDie) (e b' : Nat) : (s.mapVd d v f).feat e b' = s.feat e b' := rfl
@[simp] theorem State.cluster_mapVd (s : State) (d v : Nat) (f : VfDie → VfDie) (e : Nat) : (s.mapVd d v f).cluster e = s.cluster e := rfl
@[simp] theorem State.launch_mapVd (s : State) (d v : Nat) (f : VfDie → VfDie) (e : Nat) : (s.mapVd d v f).launch e = s.launch e := rfl
@[simp] theorem State.buf_mapVd (s : State) (d v : Nat) (f : VfDie → VfDie) (e : Nat) : (s.mapVd d v f).buf e = s.buf e := rfl

/-! `mapQueue` -/

@[simp] theorem State.mapQueue_mem (s : State) (d q : Nat) (f : Queue → Queue) : (s.mapQueue d q f).mem = s.mem := rfl
@[simp] theorem State.mapQueue_poison (s : State) (d q : Nat) (f : Queue → Queue) : (s.mapQueue d q f).poison = s.poison := rfl
@[simp] theorem State.mapQueue_cores (s : State) (d q : Nat) (f : Queue → Queue) : (s.mapQueue d q f).cores = s.cores := rfl
@[simp] theorem State.mapQueue_clusters (s : State) (d q : Nat) (f : Queue → Queue) : (s.mapQueue d q f).clusters = s.clusters := rfl
@[simp] theorem State.mapQueue_vfs (s : State) (d q : Nat) (f : Queue → Queue) : (s.mapQueue d q f).vfs = s.vfs := rfl
@[simp] theorem State.mapQueue_vfdie (s : State) (d q : Nat) (f : Queue → Queue) : (s.mapQueue d q f).vfdie = s.vfdie := rfl
@[simp] theorem State.mapQueue_pkg (s : State) (d q : Nat) (f : Queue → Queue) : (s.mapQueue d q f).pkg = s.pkg := rfl
@[simp] theorem State.mapQueue_tlb (s : State) (d q : Nat) (f : Queue → Queue) : (s.mapQueue d q f).tlb = s.tlb := rfl
@[simp] theorem State.mapQueue_walks (s : State) (d q : Nat) (f : Queue → Queue) : (s.mapQueue d q f).walks = s.walks := rfl
@[simp] theorem State.mapQueue_wire (s : State) (d q : Nat) (f : Queue → Queue) : (s.mapQueue d q f).wire = s.wire := rfl
@[simp] theorem State.mapQueue_reqs (s : State) (d q : Nat) (f : Queue → Queue) : (s.mapQueue d q f).reqs = s.reqs := rfl
@[simp] theorem State.mapQueue_acts (s : State) (d q : Nat) (f : Queue → Queue) : (s.mapQueue d q f).acts = s.acts := rfl
@[simp] theorem State.mapQueue_takes (s : State) (d q : Nat) (f : Queue → Queue) : (s.mapQueue d q f).takes = s.takes := rfl
@[simp] theorem State.mapQueue_nact (s : State) (d q : Nat) (f : Queue → Queue) : (s.mapQueue d q f).nact = s.nact := rfl
@[simp] theorem State.mapQueue_launches (s : State) (d q : Nat) (f : Queue → Queue) : (s.mapQueue d q f).launches = s.launches := rfl
@[simp] theorem State.mapQueue_nlaunch (s : State) (d q : Nat) (f : Queue → Queue) : (s.mapQueue d q f).nlaunch = s.nlaunch := rfl
@[simp] theorem State.mapQueue_ntask (s : State) (d q : Nat) (f : Queue → Queue) : (s.mapQueue d q f).ntask = s.ntask := rfl
@[simp] theorem State.mapQueue_bufs (s : State) (d q : Nat) (f : Queue → Queue) : (s.mapQueue d q f).bufs = s.bufs := rfl
@[simp] theorem State.mapQueue_colls (s : State) (d q : Nat) (f : Queue → Queue) : (s.mapQueue d q f).colls = s.colls := rfl
@[simp] theorem State.mapQueue_armed (s : State) (d q : Nat) (f : Queue → Queue) : (s.mapQueue d q f).armed = s.armed := rfl
@[simp] theorem State.mapQueue_hostOut (s : State) (d q : Nat) (f : Queue → Queue) : (s.mapQueue d q f).hostOut = s.hostOut := rfl
@[simp] theorem State.mapQueue_clock (s : State) (d q : Nat) (f : Queue → Queue) : (s.mapQueue d q f).clock = s.clock := rfl
@[simp] theorem State.mapQueue_dieclk (s : State) (d q : Nat) (f : Queue → Queue) : (s.mapQueue d q f).dieclk = s.dieclk := rfl
@[simp] theorem State.mapQueue_free (s : State) (d q : Nat) (f : Queue → Queue) : (s.mapQueue d q f).free = s.free := rfl
@[simp] theorem State.mapQueue_agenda (s : State) (d q : Nat) (f : Queue → Queue) : (s.mapQueue d q f).agenda = s.agenda := rfl
@[simp] theorem State.mapQueue_inbox (s : State) (d q : Nat) (f : Queue → Queue) : (s.mapQueue d q f).inbox = s.inbox := rfl
@[simp] theorem State.mapQueue_outbox (s : State) (d q : Nat) (f : Queue → Queue) : (s.mapQueue d q f).outbox = s.outbox := rfl
@[simp] theorem State.core_mapQueue (s : State) (d q : Nat) (f : Queue → Queue) (e : Nat) : (s.mapQueue d q f).core e = s.core e := rfl
@[simp] theorem State.str_mapQueue (s : State) (d q : Nat) (f : Queue → Queue) (e : Nat) (j : StrandIx) : (s.mapQueue d q f).str e j = s.str e j := rfl
@[simp] theorem State.ctx_mapQueue (s : State) (d q : Nat) (f : Queue → Queue) (e : Nat) : (s.mapQueue d q f).ctx e = s.ctx e := rfl
@[simp] theorem State.rd_mapQueue (s : State) (d q : Nat) (f : Queue → Queue) (e : Nat) (j : StrandIx) (r : Reg) : (s.mapQueue d q f).rd e j r = s.rd e j r := rfl
@[simp] theorem State.vf_mapQueue (s : State) (d q : Nat) (f : Queue → Queue) (e : Nat) : (s.mapQueue d q f).vf e = s.vf e := rfl
@[simp] theorem State.feat_mapQueue (s : State) (d q : Nat) (f : Queue → Queue) (e b' : Nat) : (s.mapQueue d q f).feat e b' = s.feat e b' := rfl
@[simp] theorem State.vd_mapQueue (s : State) (d q : Nat) (f : Queue → Queue) (e v' : Nat) : (s.mapQueue d q f).vd e v' = s.vd e v' := rfl
@[simp] theorem State.cluster_mapQueue (s : State) (d q : Nat) (f : Queue → Queue) (e : Nat) : (s.mapQueue d q f).cluster e = s.cluster e := rfl
@[simp] theorem State.launch_mapQueue (s : State) (d q : Nat) (f : Queue → Queue) (e : Nat) : (s.mapQueue d q f).launch e = s.launch e := rfl
@[simp] theorem State.buf_mapQueue (s : State) (d q : Nat) (f : Queue → Queue) (e : Nat) : (s.mapQueue d q f).buf e = s.buf e := rfl

/-! `mapSlot` -/

@[simp] theorem State.mapSlot_mem (s : State) (d k : Nat) (f : Slot → Slot) : (s.mapSlot d k f).mem = s.mem := rfl
@[simp] theorem State.mapSlot_poison (s : State) (d k : Nat) (f : Slot → Slot) : (s.mapSlot d k f).poison = s.poison := rfl
@[simp] theorem State.mapSlot_cores (s : State) (d k : Nat) (f : Slot → Slot) : (s.mapSlot d k f).cores = s.cores := rfl
@[simp] theorem State.mapSlot_clusters (s : State) (d k : Nat) (f : Slot → Slot) : (s.mapSlot d k f).clusters = s.clusters := rfl
@[simp] theorem State.mapSlot_vfs (s : State) (d k : Nat) (f : Slot → Slot) : (s.mapSlot d k f).vfs = s.vfs := rfl
@[simp] theorem State.mapSlot_vfdie (s : State) (d k : Nat) (f : Slot → Slot) : (s.mapSlot d k f).vfdie = s.vfdie := rfl
@[simp] theorem State.mapSlot_pkg (s : State) (d k : Nat) (f : Slot → Slot) : (s.mapSlot d k f).pkg = s.pkg := rfl
@[simp] theorem State.mapSlot_tlb (s : State) (d k : Nat) (f : Slot → Slot) : (s.mapSlot d k f).tlb = s.tlb := rfl
@[simp] theorem State.mapSlot_walks (s : State) (d k : Nat) (f : Slot → Slot) : (s.mapSlot d k f).walks = s.walks := rfl
@[simp] theorem State.mapSlot_wire (s : State) (d k : Nat) (f : Slot → Slot) : (s.mapSlot d k f).wire = s.wire := rfl
@[simp] theorem State.mapSlot_reqs (s : State) (d k : Nat) (f : Slot → Slot) : (s.mapSlot d k f).reqs = s.reqs := rfl
@[simp] theorem State.mapSlot_acts (s : State) (d k : Nat) (f : Slot → Slot) : (s.mapSlot d k f).acts = s.acts := rfl
@[simp] theorem State.mapSlot_takes (s : State) (d k : Nat) (f : Slot → Slot) : (s.mapSlot d k f).takes = s.takes := rfl
@[simp] theorem State.mapSlot_nact (s : State) (d k : Nat) (f : Slot → Slot) : (s.mapSlot d k f).nact = s.nact := rfl
@[simp] theorem State.mapSlot_launches (s : State) (d k : Nat) (f : Slot → Slot) : (s.mapSlot d k f).launches = s.launches := rfl
@[simp] theorem State.mapSlot_nlaunch (s : State) (d k : Nat) (f : Slot → Slot) : (s.mapSlot d k f).nlaunch = s.nlaunch := rfl
@[simp] theorem State.mapSlot_ntask (s : State) (d k : Nat) (f : Slot → Slot) : (s.mapSlot d k f).ntask = s.ntask := rfl
@[simp] theorem State.mapSlot_bufs (s : State) (d k : Nat) (f : Slot → Slot) : (s.mapSlot d k f).bufs = s.bufs := rfl
@[simp] theorem State.mapSlot_colls (s : State) (d k : Nat) (f : Slot → Slot) : (s.mapSlot d k f).colls = s.colls := rfl
@[simp] theorem State.mapSlot_armed (s : State) (d k : Nat) (f : Slot → Slot) : (s.mapSlot d k f).armed = s.armed := rfl
@[simp] theorem State.mapSlot_hostOut (s : State) (d k : Nat) (f : Slot → Slot) : (s.mapSlot d k f).hostOut = s.hostOut := rfl
@[simp] theorem State.mapSlot_clock (s : State) (d k : Nat) (f : Slot → Slot) : (s.mapSlot d k f).clock = s.clock := rfl
@[simp] theorem State.mapSlot_dieclk (s : State) (d k : Nat) (f : Slot → Slot) : (s.mapSlot d k f).dieclk = s.dieclk := rfl
@[simp] theorem State.mapSlot_free (s : State) (d k : Nat) (f : Slot → Slot) : (s.mapSlot d k f).free = s.free := rfl
@[simp] theorem State.mapSlot_agenda (s : State) (d k : Nat) (f : Slot → Slot) : (s.mapSlot d k f).agenda = s.agenda := rfl
@[simp] theorem State.mapSlot_inbox (s : State) (d k : Nat) (f : Slot → Slot) : (s.mapSlot d k f).inbox = s.inbox := rfl
@[simp] theorem State.mapSlot_outbox (s : State) (d k : Nat) (f : Slot → Slot) : (s.mapSlot d k f).outbox = s.outbox := rfl
@[simp] theorem State.core_mapSlot (s : State) (d k : Nat) (f : Slot → Slot) (e : Nat) : (s.mapSlot d k f).core e = s.core e := rfl
@[simp] theorem State.str_mapSlot (s : State) (d k : Nat) (f : Slot → Slot) (e : Nat) (j : StrandIx) : (s.mapSlot d k f).str e j = s.str e j := rfl
@[simp] theorem State.ctx_mapSlot (s : State) (d k : Nat) (f : Slot → Slot) (e : Nat) : (s.mapSlot d k f).ctx e = s.ctx e := rfl
@[simp] theorem State.rd_mapSlot (s : State) (d k : Nat) (f : Slot → Slot) (e : Nat) (j : StrandIx) (r : Reg) : (s.mapSlot d k f).rd e j r = s.rd e j r := rfl
@[simp] theorem State.vf_mapSlot (s : State) (d k : Nat) (f : Slot → Slot) (e : Nat) : (s.mapSlot d k f).vf e = s.vf e := rfl
@[simp] theorem State.feat_mapSlot (s : State) (d k : Nat) (f : Slot → Slot) (e b' : Nat) : (s.mapSlot d k f).feat e b' = s.feat e b' := rfl
@[simp] theorem State.vd_mapSlot (s : State) (d k : Nat) (f : Slot → Slot) (e v' : Nat) : (s.mapSlot d k f).vd e v' = s.vd e v' := rfl
@[simp] theorem State.cluster_mapSlot (s : State) (d k : Nat) (f : Slot → Slot) (e : Nat) : (s.mapSlot d k f).cluster e = s.cluster e := rfl
@[simp] theorem State.launch_mapSlot (s : State) (d k : Nat) (f : Slot → Slot) (e : Nat) : (s.mapSlot d k f).launch e = s.launch e := rfl
@[simp] theorem State.buf_mapSlot (s : State) (d k : Nat) (f : Slot → Slot) (e : Nat) : (s.mapSlot d k f).buf e = s.buf e := rfl

/-! `mapCluster` -/

@[simp] theorem State.mapCluster_mem (s : State) (n : Nat) (f : Cluster → Cluster) : (s.mapCluster n f).mem = s.mem := rfl
@[simp] theorem State.mapCluster_poison (s : State) (n : Nat) (f : Cluster → Cluster) : (s.mapCluster n f).poison = s.poison := rfl
@[simp] theorem State.mapCluster_cores (s : State) (n : Nat) (f : Cluster → Cluster) : (s.mapCluster n f).cores = s.cores := rfl
@[simp] theorem State.mapCluster_dies (s : State) (n : Nat) (f : Cluster → Cluster) : (s.mapCluster n f).dies = s.dies := rfl
@[simp] theorem State.mapCluster_vfs (s : State) (n : Nat) (f : Cluster → Cluster) : (s.mapCluster n f).vfs = s.vfs := rfl
@[simp] theorem State.mapCluster_vfdie (s : State) (n : Nat) (f : Cluster → Cluster) : (s.mapCluster n f).vfdie = s.vfdie := rfl
@[simp] theorem State.mapCluster_pkg (s : State) (n : Nat) (f : Cluster → Cluster) : (s.mapCluster n f).pkg = s.pkg := rfl
@[simp] theorem State.mapCluster_tlb (s : State) (n : Nat) (f : Cluster → Cluster) : (s.mapCluster n f).tlb = s.tlb := rfl
@[simp] theorem State.mapCluster_walks (s : State) (n : Nat) (f : Cluster → Cluster) : (s.mapCluster n f).walks = s.walks := rfl
@[simp] theorem State.mapCluster_wire (s : State) (n : Nat) (f : Cluster → Cluster) : (s.mapCluster n f).wire = s.wire := rfl
@[simp] theorem State.mapCluster_reqs (s : State) (n : Nat) (f : Cluster → Cluster) : (s.mapCluster n f).reqs = s.reqs := rfl
@[simp] theorem State.mapCluster_acts (s : State) (n : Nat) (f : Cluster → Cluster) : (s.mapCluster n f).acts = s.acts := rfl
@[simp] theorem State.mapCluster_takes (s : State) (n : Nat) (f : Cluster → Cluster) : (s.mapCluster n f).takes = s.takes := rfl
@[simp] theorem State.mapCluster_nact (s : State) (n : Nat) (f : Cluster → Cluster) : (s.mapCluster n f).nact = s.nact := rfl
@[simp] theorem State.mapCluster_launches (s : State) (n : Nat) (f : Cluster → Cluster) : (s.mapCluster n f).launches = s.launches := rfl
@[simp] theorem State.mapCluster_nlaunch (s : State) (n : Nat) (f : Cluster → Cluster) : (s.mapCluster n f).nlaunch = s.nlaunch := rfl
@[simp] theorem State.mapCluster_ntask (s : State) (n : Nat) (f : Cluster → Cluster) : (s.mapCluster n f).ntask = s.ntask := rfl
@[simp] theorem State.mapCluster_bufs (s : State) (n : Nat) (f : Cluster → Cluster) : (s.mapCluster n f).bufs = s.bufs := rfl
@[simp] theorem State.mapCluster_colls (s : State) (n : Nat) (f : Cluster → Cluster) : (s.mapCluster n f).colls = s.colls := rfl
@[simp] theorem State.mapCluster_armed (s : State) (n : Nat) (f : Cluster → Cluster) : (s.mapCluster n f).armed = s.armed := rfl
@[simp] theorem State.mapCluster_hostOut (s : State) (n : Nat) (f : Cluster → Cluster) : (s.mapCluster n f).hostOut = s.hostOut := rfl
@[simp] theorem State.mapCluster_clock (s : State) (n : Nat) (f : Cluster → Cluster) : (s.mapCluster n f).clock = s.clock := rfl
@[simp] theorem State.mapCluster_dieclk (s : State) (n : Nat) (f : Cluster → Cluster) : (s.mapCluster n f).dieclk = s.dieclk := rfl
@[simp] theorem State.mapCluster_free (s : State) (n : Nat) (f : Cluster → Cluster) : (s.mapCluster n f).free = s.free := rfl
@[simp] theorem State.mapCluster_agenda (s : State) (n : Nat) (f : Cluster → Cluster) : (s.mapCluster n f).agenda = s.agenda := rfl
@[simp] theorem State.mapCluster_inbox (s : State) (n : Nat) (f : Cluster → Cluster) : (s.mapCluster n f).inbox = s.inbox := rfl
@[simp] theorem State.mapCluster_outbox (s : State) (n : Nat) (f : Cluster → Cluster) : (s.mapCluster n f).outbox = s.outbox := rfl
@[simp] theorem State.core_mapCluster (s : State) (n : Nat) (f : Cluster → Cluster) (e : Nat) : (s.mapCluster n f).core e = s.core e := rfl
@[simp] theorem State.str_mapCluster (s : State) (n : Nat) (f : Cluster → Cluster) (e : Nat) (j : StrandIx) : (s.mapCluster n f).str e j = s.str e j := rfl
@[simp] theorem State.ctx_mapCluster (s : State) (n : Nat) (f : Cluster → Cluster) (e : Nat) : (s.mapCluster n f).ctx e = s.ctx e := rfl
@[simp] theorem State.rd_mapCluster (s : State) (n : Nat) (f : Cluster → Cluster) (e : Nat) (j : StrandIx) (r : Reg) : (s.mapCluster n f).rd e j r = s.rd e j r := rfl
@[simp] theorem State.die_mapCluster (s : State) (n : Nat) (f : Cluster → Cluster) (e : Nat) : (s.mapCluster n f).die e = s.die e := rfl
@[simp] theorem State.queue_mapCluster (s : State) (n : Nat) (f : Cluster → Cluster) (e q' : Nat) : (s.mapCluster n f).queue e q' = s.queue e q' := rfl
@[simp] theorem State.slot_mapCluster (s : State) (n : Nat) (f : Cluster → Cluster) (e k' : Nat) : (s.mapCluster n f).slot e k' = s.slot e k' := rfl
@[simp] theorem State.vf_mapCluster (s : State) (n : Nat) (f : Cluster → Cluster) (e : Nat) : (s.mapCluster n f).vf e = s.vf e := rfl
@[simp] theorem State.feat_mapCluster (s : State) (n : Nat) (f : Cluster → Cluster) (e b' : Nat) : (s.mapCluster n f).feat e b' = s.feat e b' := rfl
@[simp] theorem State.vd_mapCluster (s : State) (n : Nat) (f : Cluster → Cluster) (e v' : Nat) : (s.mapCluster n f).vd e v' = s.vd e v' := rfl
@[simp] theorem State.launch_mapCluster (s : State) (n : Nat) (f : Cluster → Cluster) (e : Nat) : (s.mapCluster n f).launch e = s.launch e := rfl
@[simp] theorem State.buf_mapCluster (s : State) (n : Nat) (f : Cluster → Cluster) (e : Nat) : (s.mapCluster n f).buf e = s.buf e := rfl

/-! `mapLaunch` -/

@[simp] theorem State.mapLaunch_mem (s : State) (n : Nat) (f : Launch → Launch) : (s.mapLaunch n f).mem = s.mem := rfl
@[simp] theorem State.mapLaunch_poison (s : State) (n : Nat) (f : Launch → Launch) : (s.mapLaunch n f).poison = s.poison := rfl
@[simp] theorem State.mapLaunch_cores (s : State) (n : Nat) (f : Launch → Launch) : (s.mapLaunch n f).cores = s.cores := rfl
@[simp] theorem State.mapLaunch_clusters (s : State) (n : Nat) (f : Launch → Launch) : (s.mapLaunch n f).clusters = s.clusters := rfl
@[simp] theorem State.mapLaunch_dies (s : State) (n : Nat) (f : Launch → Launch) : (s.mapLaunch n f).dies = s.dies := rfl
@[simp] theorem State.mapLaunch_vfs (s : State) (n : Nat) (f : Launch → Launch) : (s.mapLaunch n f).vfs = s.vfs := rfl
@[simp] theorem State.mapLaunch_vfdie (s : State) (n : Nat) (f : Launch → Launch) : (s.mapLaunch n f).vfdie = s.vfdie := rfl
@[simp] theorem State.mapLaunch_pkg (s : State) (n : Nat) (f : Launch → Launch) : (s.mapLaunch n f).pkg = s.pkg := rfl
@[simp] theorem State.mapLaunch_tlb (s : State) (n : Nat) (f : Launch → Launch) : (s.mapLaunch n f).tlb = s.tlb := rfl
@[simp] theorem State.mapLaunch_walks (s : State) (n : Nat) (f : Launch → Launch) : (s.mapLaunch n f).walks = s.walks := rfl
@[simp] theorem State.mapLaunch_wire (s : State) (n : Nat) (f : Launch → Launch) : (s.mapLaunch n f).wire = s.wire := rfl
@[simp] theorem State.mapLaunch_reqs (s : State) (n : Nat) (f : Launch → Launch) : (s.mapLaunch n f).reqs = s.reqs := rfl
@[simp] theorem State.mapLaunch_acts (s : State) (n : Nat) (f : Launch → Launch) : (s.mapLaunch n f).acts = s.acts := rfl
@[simp] theorem State.mapLaunch_takes (s : State) (n : Nat) (f : Launch → Launch) : (s.mapLaunch n f).takes = s.takes := rfl
@[simp] theorem State.mapLaunch_nact (s : State) (n : Nat) (f : Launch → Launch) : (s.mapLaunch n f).nact = s.nact := rfl
@[simp] theorem State.mapLaunch_nlaunch (s : State) (n : Nat) (f : Launch → Launch) : (s.mapLaunch n f).nlaunch = s.nlaunch := rfl
@[simp] theorem State.mapLaunch_ntask (s : State) (n : Nat) (f : Launch → Launch) : (s.mapLaunch n f).ntask = s.ntask := rfl
@[simp] theorem State.mapLaunch_bufs (s : State) (n : Nat) (f : Launch → Launch) : (s.mapLaunch n f).bufs = s.bufs := rfl
@[simp] theorem State.mapLaunch_colls (s : State) (n : Nat) (f : Launch → Launch) : (s.mapLaunch n f).colls = s.colls := rfl
@[simp] theorem State.mapLaunch_armed (s : State) (n : Nat) (f : Launch → Launch) : (s.mapLaunch n f).armed = s.armed := rfl
@[simp] theorem State.mapLaunch_hostOut (s : State) (n : Nat) (f : Launch → Launch) : (s.mapLaunch n f).hostOut = s.hostOut := rfl
@[simp] theorem State.mapLaunch_clock (s : State) (n : Nat) (f : Launch → Launch) : (s.mapLaunch n f).clock = s.clock := rfl
@[simp] theorem State.mapLaunch_dieclk (s : State) (n : Nat) (f : Launch → Launch) : (s.mapLaunch n f).dieclk = s.dieclk := rfl
@[simp] theorem State.mapLaunch_free (s : State) (n : Nat) (f : Launch → Launch) : (s.mapLaunch n f).free = s.free := rfl
@[simp] theorem State.mapLaunch_agenda (s : State) (n : Nat) (f : Launch → Launch) : (s.mapLaunch n f).agenda = s.agenda := rfl
@[simp] theorem State.mapLaunch_inbox (s : State) (n : Nat) (f : Launch → Launch) : (s.mapLaunch n f).inbox = s.inbox := rfl
@[simp] theorem State.mapLaunch_outbox (s : State) (n : Nat) (f : Launch → Launch) : (s.mapLaunch n f).outbox = s.outbox := rfl
@[simp] theorem State.core_mapLaunch (s : State) (n : Nat) (f : Launch → Launch) (e : Nat) : (s.mapLaunch n f).core e = s.core e := rfl
@[simp] theorem State.str_mapLaunch (s : State) (n : Nat) (f : Launch → Launch) (e : Nat) (j : StrandIx) : (s.mapLaunch n f).str e j = s.str e j := rfl
@[simp] theorem State.ctx_mapLaunch (s : State) (n : Nat) (f : Launch → Launch) (e : Nat) : (s.mapLaunch n f).ctx e = s.ctx e := rfl
@[simp] theorem State.rd_mapLaunch (s : State) (n : Nat) (f : Launch → Launch) (e : Nat) (j : StrandIx) (r : Reg) : (s.mapLaunch n f).rd e j r = s.rd e j r := rfl
@[simp] theorem State.die_mapLaunch (s : State) (n : Nat) (f : Launch → Launch) (e : Nat) : (s.mapLaunch n f).die e = s.die e := rfl
@[simp] theorem State.queue_mapLaunch (s : State) (n : Nat) (f : Launch → Launch) (e q' : Nat) : (s.mapLaunch n f).queue e q' = s.queue e q' := rfl
@[simp] theorem State.slot_mapLaunch (s : State) (n : Nat) (f : Launch → Launch) (e k' : Nat) : (s.mapLaunch n f).slot e k' = s.slot e k' := rfl
@[simp] theorem State.vf_mapLaunch (s : State) (n : Nat) (f : Launch → Launch) (e : Nat) : (s.mapLaunch n f).vf e = s.vf e := rfl
@[simp] theorem State.feat_mapLaunch (s : State) (n : Nat) (f : Launch → Launch) (e b' : Nat) : (s.mapLaunch n f).feat e b' = s.feat e b' := rfl
@[simp] theorem State.vd_mapLaunch (s : State) (n : Nat) (f : Launch → Launch) (e v' : Nat) : (s.mapLaunch n f).vd e v' = s.vd e v' := rfl
@[simp] theorem State.cluster_mapLaunch (s : State) (n : Nat) (f : Launch → Launch) (e : Nat) : (s.mapLaunch n f).cluster e = s.cluster e := rfl
@[simp] theorem State.buf_mapLaunch (s : State) (n : Nat) (f : Launch → Launch) (e : Nat) : (s.mapLaunch n f).buf e = s.buf e := rfl

/-! `setBuf` -/

@[simp] theorem State.setBuf_mem (s : State) (t : Nat) (b : Option RbBuf) : (s.setBuf t b).mem = s.mem := rfl
@[simp] theorem State.setBuf_poison (s : State) (t : Nat) (b : Option RbBuf) : (s.setBuf t b).poison = s.poison := rfl
@[simp] theorem State.setBuf_cores (s : State) (t : Nat) (b : Option RbBuf) : (s.setBuf t b).cores = s.cores := rfl
@[simp] theorem State.setBuf_clusters (s : State) (t : Nat) (b : Option RbBuf) : (s.setBuf t b).clusters = s.clusters := rfl
@[simp] theorem State.setBuf_dies (s : State) (t : Nat) (b : Option RbBuf) : (s.setBuf t b).dies = s.dies := rfl
@[simp] theorem State.setBuf_vfs (s : State) (t : Nat) (b : Option RbBuf) : (s.setBuf t b).vfs = s.vfs := rfl
@[simp] theorem State.setBuf_vfdie (s : State) (t : Nat) (b : Option RbBuf) : (s.setBuf t b).vfdie = s.vfdie := rfl
@[simp] theorem State.setBuf_pkg (s : State) (t : Nat) (b : Option RbBuf) : (s.setBuf t b).pkg = s.pkg := rfl
@[simp] theorem State.setBuf_tlb (s : State) (t : Nat) (b : Option RbBuf) : (s.setBuf t b).tlb = s.tlb := rfl
@[simp] theorem State.setBuf_walks (s : State) (t : Nat) (b : Option RbBuf) : (s.setBuf t b).walks = s.walks := rfl
@[simp] theorem State.setBuf_wire (s : State) (t : Nat) (b : Option RbBuf) : (s.setBuf t b).wire = s.wire := rfl
@[simp] theorem State.setBuf_reqs (s : State) (t : Nat) (b : Option RbBuf) : (s.setBuf t b).reqs = s.reqs := rfl
@[simp] theorem State.setBuf_acts (s : State) (t : Nat) (b : Option RbBuf) : (s.setBuf t b).acts = s.acts := rfl
@[simp] theorem State.setBuf_takes (s : State) (t : Nat) (b : Option RbBuf) : (s.setBuf t b).takes = s.takes := rfl
@[simp] theorem State.setBuf_nact (s : State) (t : Nat) (b : Option RbBuf) : (s.setBuf t b).nact = s.nact := rfl
@[simp] theorem State.setBuf_launches (s : State) (t : Nat) (b : Option RbBuf) : (s.setBuf t b).launches = s.launches := rfl
@[simp] theorem State.setBuf_nlaunch (s : State) (t : Nat) (b : Option RbBuf) : (s.setBuf t b).nlaunch = s.nlaunch := rfl
@[simp] theorem State.setBuf_ntask (s : State) (t : Nat) (b : Option RbBuf) : (s.setBuf t b).ntask = s.ntask := rfl
@[simp] theorem State.setBuf_colls (s : State) (t : Nat) (b : Option RbBuf) : (s.setBuf t b).colls = s.colls := rfl
@[simp] theorem State.setBuf_armed (s : State) (t : Nat) (b : Option RbBuf) : (s.setBuf t b).armed = s.armed := rfl
@[simp] theorem State.setBuf_hostOut (s : State) (t : Nat) (b : Option RbBuf) : (s.setBuf t b).hostOut = s.hostOut := rfl
@[simp] theorem State.setBuf_clock (s : State) (t : Nat) (b : Option RbBuf) : (s.setBuf t b).clock = s.clock := rfl
@[simp] theorem State.setBuf_dieclk (s : State) (t : Nat) (b : Option RbBuf) : (s.setBuf t b).dieclk = s.dieclk := rfl
@[simp] theorem State.setBuf_free (s : State) (t : Nat) (b : Option RbBuf) : (s.setBuf t b).free = s.free := rfl
@[simp] theorem State.setBuf_agenda (s : State) (t : Nat) (b : Option RbBuf) : (s.setBuf t b).agenda = s.agenda := rfl
@[simp] theorem State.setBuf_inbox (s : State) (t : Nat) (b : Option RbBuf) : (s.setBuf t b).inbox = s.inbox := rfl
@[simp] theorem State.setBuf_outbox (s : State) (t : Nat) (b : Option RbBuf) : (s.setBuf t b).outbox = s.outbox := rfl
@[simp] theorem State.core_setBuf (s : State) (t : Nat) (b : Option RbBuf) (e : Nat) : (s.setBuf t b).core e = s.core e := rfl
@[simp] theorem State.str_setBuf (s : State) (t : Nat) (b : Option RbBuf) (e : Nat) (j : StrandIx) : (s.setBuf t b).str e j = s.str e j := rfl
@[simp] theorem State.ctx_setBuf (s : State) (t : Nat) (b : Option RbBuf) (e : Nat) : (s.setBuf t b).ctx e = s.ctx e := rfl
@[simp] theorem State.rd_setBuf (s : State) (t : Nat) (b : Option RbBuf) (e : Nat) (j : StrandIx) (r : Reg) : (s.setBuf t b).rd e j r = s.rd e j r := rfl
@[simp] theorem State.die_setBuf (s : State) (t : Nat) (b : Option RbBuf) (e : Nat) : (s.setBuf t b).die e = s.die e := rfl
@[simp] theorem State.queue_setBuf (s : State) (t : Nat) (b : Option RbBuf) (e q' : Nat) : (s.setBuf t b).queue e q' = s.queue e q' := rfl
@[simp] theorem State.slot_setBuf (s : State) (t : Nat) (b : Option RbBuf) (e k' : Nat) : (s.setBuf t b).slot e k' = s.slot e k' := rfl
@[simp] theorem State.vf_setBuf (s : State) (t : Nat) (b : Option RbBuf) (e : Nat) : (s.setBuf t b).vf e = s.vf e := rfl
@[simp] theorem State.feat_setBuf (s : State) (t : Nat) (b : Option RbBuf) (e b' : Nat) : (s.setBuf t b).feat e b' = s.feat e b' := rfl
@[simp] theorem State.vd_setBuf (s : State) (t : Nat) (b : Option RbBuf) (e v' : Nat) : (s.setBuf t b).vd e v' = s.vd e v' := rfl
@[simp] theorem State.cluster_setBuf (s : State) (t : Nat) (b : Option RbBuf) (e : Nat) : (s.setBuf t b).cluster e = s.cluster e := rfl
@[simp] theorem State.launch_setBuf (s : State) (t : Nat) (b : Option RbBuf) (e : Nat) : (s.setBuf t b).launch e = s.launch e := rfl

/-! `out` -/

@[simp] theorem State.out_mem (s : State) (o : Out) : (s.out o).mem = s.mem := rfl
@[simp] theorem State.out_poison (s : State) (o : Out) : (s.out o).poison = s.poison := rfl
@[simp] theorem State.out_cores (s : State) (o : Out) : (s.out o).cores = s.cores := rfl
@[simp] theorem State.out_clusters (s : State) (o : Out) : (s.out o).clusters = s.clusters := rfl
@[simp] theorem State.out_dies (s : State) (o : Out) : (s.out o).dies = s.dies := rfl
@[simp] theorem State.out_vfs (s : State) (o : Out) : (s.out o).vfs = s.vfs := rfl
@[simp] theorem State.out_vfdie (s : State) (o : Out) : (s.out o).vfdie = s.vfdie := rfl
@[simp] theorem State.out_pkg (s : State) (o : Out) : (s.out o).pkg = s.pkg := rfl
@[simp] theorem State.out_tlb (s : State) (o : Out) : (s.out o).tlb = s.tlb := rfl
@[simp] theorem State.out_walks (s : State) (o : Out) : (s.out o).walks = s.walks := rfl
@[simp] theorem State.out_wire (s : State) (o : Out) : (s.out o).wire = s.wire := rfl
@[simp] theorem State.out_reqs (s : State) (o : Out) : (s.out o).reqs = s.reqs := rfl
@[simp] theorem State.out_acts (s : State) (o : Out) : (s.out o).acts = s.acts := rfl
@[simp] theorem State.out_takes (s : State) (o : Out) : (s.out o).takes = s.takes := rfl
@[simp] theorem State.out_nact (s : State) (o : Out) : (s.out o).nact = s.nact := rfl
@[simp] theorem State.out_launches (s : State) (o : Out) : (s.out o).launches = s.launches := rfl
@[simp] theorem State.out_nlaunch (s : State) (o : Out) : (s.out o).nlaunch = s.nlaunch := rfl
@[simp] theorem State.out_ntask (s : State) (o : Out) : (s.out o).ntask = s.ntask := rfl
@[simp] theorem State.out_bufs (s : State) (o : Out) : (s.out o).bufs = s.bufs := rfl
@[simp] theorem State.out_colls (s : State) (o : Out) : (s.out o).colls = s.colls := rfl
@[simp] theorem State.out_armed (s : State) (o : Out) : (s.out o).armed = s.armed := rfl
@[simp] theorem State.out_hostOut (s : State) (o : Out) : (s.out o).hostOut = s.hostOut := rfl
@[simp] theorem State.out_clock (s : State) (o : Out) : (s.out o).clock = s.clock := rfl
@[simp] theorem State.out_dieclk (s : State) (o : Out) : (s.out o).dieclk = s.dieclk := rfl
@[simp] theorem State.out_free (s : State) (o : Out) : (s.out o).free = s.free := rfl
@[simp] theorem State.out_agenda (s : State) (o : Out) : (s.out o).agenda = s.agenda := rfl
@[simp] theorem State.out_inbox (s : State) (o : Out) : (s.out o).inbox = s.inbox := rfl
@[simp] theorem State.core_out (s : State) (o : Out) (e : Nat) : (s.out o).core e = s.core e := rfl
@[simp] theorem State.str_out (s : State) (o : Out) (e : Nat) (j : StrandIx) : (s.out o).str e j = s.str e j := rfl
@[simp] theorem State.ctx_out (s : State) (o : Out) (e : Nat) : (s.out o).ctx e = s.ctx e := rfl
@[simp] theorem State.rd_out (s : State) (o : Out) (e : Nat) (j : StrandIx) (r : Reg) : (s.out o).rd e j r = s.rd e j r := rfl
@[simp] theorem State.die_out (s : State) (o : Out) (e : Nat) : (s.out o).die e = s.die e := rfl
@[simp] theorem State.queue_out (s : State) (o : Out) (e q' : Nat) : (s.out o).queue e q' = s.queue e q' := rfl
@[simp] theorem State.slot_out (s : State) (o : Out) (e k' : Nat) : (s.out o).slot e k' = s.slot e k' := rfl
@[simp] theorem State.vf_out (s : State) (o : Out) (e : Nat) : (s.out o).vf e = s.vf e := rfl
@[simp] theorem State.feat_out (s : State) (o : Out) (e b' : Nat) : (s.out o).feat e b' = s.feat e b' := rfl
@[simp] theorem State.vd_out (s : State) (o : Out) (e v' : Nat) : (s.out o).vd e v' = s.vd e v' := rfl
@[simp] theorem State.cluster_out (s : State) (o : Out) (e : Nat) : (s.out o).cluster e = s.cluster e := rfl
@[simp] theorem State.launch_out (s : State) (o : Out) (e : Nat) : (s.out o).launch e = s.launch e := rfl
@[simp] theorem State.buf_out (s : State) (o : Out) (e : Nat) : (s.out o).buf e = s.buf e := rfl

/-! `pop` -/

@[simp] theorem State.pop_mem (s : State) : (s.pop ).mem = s.mem := rfl
@[simp] theorem State.pop_poison (s : State) : (s.pop ).poison = s.poison := rfl
@[simp] theorem State.pop_cores (s : State) : (s.pop ).cores = s.cores := rfl
@[simp] theorem State.pop_clusters (s : State) : (s.pop ).clusters = s.clusters := rfl
@[simp] theorem State.pop_dies (s : State) : (s.pop ).dies = s.dies := rfl
@[simp] theorem State.pop_vfs (s : State) : (s.pop ).vfs = s.vfs := rfl
@[simp] theorem State.pop_vfdie (s : State) : (s.pop ).vfdie = s.vfdie := rfl
@[simp] theorem State.pop_pkg (s : State) : (s.pop ).pkg = s.pkg := rfl
@[simp] theorem State.pop_tlb (s : State) : (s.pop ).tlb = s.tlb := rfl
@[simp] theorem State.pop_walks (s : State) : (s.pop ).walks = s.walks := rfl
@[simp] theorem State.pop_wire (s : State) : (s.pop ).wire = s.wire := rfl
@[simp] theorem State.pop_reqs (s : State) : (s.pop ).reqs = s.reqs := rfl
@[simp] theorem State.pop_acts (s : State) : (s.pop ).acts = s.acts := rfl
@[simp] theorem State.pop_takes (s : State) : (s.pop ).takes = s.takes := rfl
@[simp] theorem State.pop_nact (s : State) : (s.pop ).nact = s.nact := rfl
@[simp] theorem State.pop_launches (s : State) : (s.pop ).launches = s.launches := rfl
@[simp] theorem State.pop_nlaunch (s : State) : (s.pop ).nlaunch = s.nlaunch := rfl
@[simp] theorem State.pop_ntask (s : State) : (s.pop ).ntask = s.ntask := rfl
@[simp] theorem State.pop_bufs (s : State) : (s.pop ).bufs = s.bufs := rfl
@[simp] theorem State.pop_colls (s : State) : (s.pop ).colls = s.colls := rfl
@[simp] theorem State.pop_armed (s : State) : (s.pop ).armed = s.armed := rfl
@[simp] theorem State.pop_hostOut (s : State) : (s.pop ).hostOut = s.hostOut := rfl
@[simp] theorem State.pop_clock (s : State) : (s.pop ).clock = s.clock := rfl
@[simp] theorem State.pop_dieclk (s : State) : (s.pop ).dieclk = s.dieclk := rfl
@[simp] theorem State.pop_free (s : State) : (s.pop ).free = s.free := rfl
@[simp] theorem State.pop_inbox (s : State) : (s.pop ).inbox = s.inbox := rfl
@[simp] theorem State.pop_outbox (s : State) : (s.pop ).outbox = s.outbox := rfl
@[simp] theorem State.core_pop (s : State)  (e : Nat) : (s.pop ).core e = s.core e := rfl
@[simp] theorem State.str_pop (s : State)  (e : Nat) (j : StrandIx) : (s.pop ).str e j = s.str e j := rfl
@[simp] theorem State.ctx_pop (s : State)  (e : Nat) : (s.pop ).ctx e = s.ctx e := rfl
@[simp] theorem State.rd_pop (s : State)  (e : Nat) (j : StrandIx) (r : Reg) : (s.pop ).rd e j r = s.rd e j r := rfl
@[simp] theorem State.die_pop (s : State)  (e : Nat) : (s.pop ).die e = s.die e := rfl
@[simp] theorem State.queue_pop (s : State)  (e q' : Nat) : (s.pop ).queue e q' = s.queue e q' := rfl
@[simp] theorem State.slot_pop (s : State)  (e k' : Nat) : (s.pop ).slot e k' = s.slot e k' := rfl
@[simp] theorem State.vf_pop (s : State)  (e : Nat) : (s.pop ).vf e = s.vf e := rfl
@[simp] theorem State.feat_pop (s : State)  (e b' : Nat) : (s.pop ).feat e b' = s.feat e b' := rfl
@[simp] theorem State.vd_pop (s : State)  (e v' : Nat) : (s.pop ).vd e v' = s.vd e v' := rfl
@[simp] theorem State.cluster_pop (s : State)  (e : Nat) : (s.pop ).cluster e = s.cluster e := rfl
@[simp] theorem State.launch_pop (s : State)  (e : Nat) : (s.pop ).launch e = s.launch e := rfl
@[simp] theorem State.buf_pop (s : State)  (e : Nat) : (s.pop ).buf e = s.buf e := rfl

/-! ### Read after write -/

@[simp] theorem State.core_setCore_self (s : State) (c : Nat) (x : Core) : (s.setCore c x).core c = x := by
  simp [State.core, State.setCore]
@[simp] theorem State.core_setCore_ne (s : State) {c e : Nat} (x : Core) (h : e ≠ c) : (s.setCore c x).core e = s.core e := by
  simp [State.core, State.setCore, h]
@[simp] theorem State.core_mapCore_self (s : State) (c : Nat) (f : Core → Core) : (s.mapCore c f).core c = f (s.core c) := by
  simp [State.mapCore]
@[simp] theorem State.core_mapCore_ne (s : State) {c e : Nat} (f : Core → Core) (h : e ≠ c) : (s.mapCore c f).core e = s.core e := by
  simp [State.mapCore, h]

@[simp] theorem Core.str_setStr_self (x : Core) (k : StrandIx) (t : Strand) : (x.setStr k t).str k = t := by cases k <;> rfl
@[simp] theorem Core.str_setStr_ne (x : Core) {k j : StrandIx} (t : Strand) (h : j ≠ k) : (x.setStr k t).str j = x.str j := by
  cases k <;> cases j <;> first | rfl | exact absurd rfl h
@[simp] theorem Core.str_mapStr_self (x : Core) (k : StrandIx) (f : Strand → Strand) : (x.mapStr k f).str k = f (x.str k) := by
  simp [Core.mapStr]
@[simp] theorem Core.str_mapStr_ne (x : Core) {k j : StrandIx} (f : Strand → Strand) (h : j ≠ k) : (x.mapStr k f).str j = x.str j := by
  simp [Core.mapStr, h]

@[simp] theorem State.core_mapStr_self (s : State) (c : Nat) (k : StrandIx) (f : Strand → Strand) :
    (s.mapStr c k f).core c = (s.core c).mapStr k f := by simp [State.mapStr]
@[simp] theorem State.core_mapStr_ne (s : State) {c e : Nat} (k : StrandIx) (f : Strand → Strand) (h : e ≠ c) :
    (s.mapStr c k f).core e = s.core e := by simp [State.mapStr, h]
@[simp] theorem State.core_mapCtx_self (s : State) (c : Nat) (f : Ctx → Ctx) :
    (s.mapCtx c f).core c = { s.core c with ctx := (s.core c).ctx.map f } := by simp [State.mapCtx]
@[simp] theorem State.core_mapCtx_ne (s : State) {c e : Nat} (f : Ctx → Ctx) (h : e ≠ c) : (s.mapCtx c f).core e = s.core e := by
  simp [State.mapCtx, h]

@[simp] theorem State.str_mapStr_self (s : State) (c : Nat) (k : StrandIx) (f : Strand → Strand) :
    (s.mapStr c k f).str c k = f (s.str c k) := by simp [State.str]
@[simp] theorem State.str_mapStr_ne (s : State) (c : Nat) {k j : StrandIx} (f : Strand → Strand) (h : j ≠ k) :
    (s.mapStr c k f).str c j = s.str c j := by simp [State.str, h]
@[simp] theorem State.str_mapCtx (s : State) (c e : Nat) (f : Ctx → Ctx) (j : StrandIx) : (s.mapCtx c f).str e j = s.str e j := by
  by_cases h : e = c
  · subst h; cases j <;> simp [State.str, Core.str]
  · simp [State.str, h]

@[simp] theorem Core.setStr_ctx (x : Core) (k : StrandIx) (t : Strand) : (x.setStr k t).ctx = x.ctx := by cases k <;> rfl
@[simp] theorem Core.mapStr_ctx (x : Core) (k : StrandIx) (f : Strand → Strand) : (x.mapStr k f).ctx = x.ctx := by simp [Core.mapStr]
@[simp] theorem State.ctx_mapStr (s : State) (c e : Nat) (k : StrandIx) (f : Strand → Strand) : (s.mapStr c k f).ctx e = s.ctx e := by
  by_cases h : e = c
  · subst h; simp [State.ctx]
  · simp [State.ctx, h]
theorem State.ctx_mapCtx_self (s : State) (c : Nat) (f : Ctx → Ctx) (h : (s.core c).ctx.isSome) : (s.mapCtx c f).ctx c = f (s.ctx c) := by
  cases hx : (s.core c).ctx <;> simp_all [State.ctx]

@[simp] theorem State.die_mapDie_self (s : State) (d : Nat) (f : Die → Die) : (s.mapDie d f).die d = f (s.die d) := by
  simp [State.die, State.mapDie]
@[simp] theorem State.die_mapDie_ne (s : State) {d e : Nat} (f : Die → Die) (h : e ≠ d) : (s.mapDie d f).die e = s.die e := by
  simp [State.die, State.mapDie, h]
@[simp] theorem State.vf_mapVf_self (s : State) (v : Nat) (f : Vf → Vf) : (s.mapVf v f).vf v = f (s.vf v) := by
  simp [State.vf, State.mapVf]
@[simp] theorem State.vf_mapVf_ne (s : State) {v e : Nat} (f : Vf → Vf) (h : e ≠ v) : (s.mapVf v f).vf e = s.vf e := by
  simp [State.vf, State.mapVf, h]
@[simp] theorem State.vd_mapVd_self (s : State) (d v : Nat) (f : VfDie → VfDie) : (s.mapVd d v f).vd d v = f (s.vd d v) := by
  simp [State.vd, State.mapVd]
theorem State.vd_mapVd_ne (s : State) {d v e u : Nat} (f : VfDie → VfDie) (h : e * 512 + u ≠ d * 512 + v) :
    (s.mapVd d v f).vd e u = s.vd e u := by simp [State.vd, State.mapVd, h]
@[simp] theorem State.queue_mapQueue_self (s : State) (d q : Nat) (f : Queue → Queue) :
    (s.mapQueue d q f).queue d q = f (s.queue d q) := by simp [State.queue, State.mapQueue]
@[simp] theorem State.slot_mapSlot_self (s : State) (d k : Nat) (f : Slot → Slot) :
    (s.mapSlot d k f).slot d k = f (s.slot d k) := by simp [State.slot, State.mapSlot]
@[simp] theorem State.cluster_mapCluster_self (s : State) (n : Nat) (f : Cluster → Cluster) :
    (s.mapCluster n f).cluster n = f (s.cluster n) := by simp [State.cluster, State.mapCluster]
@[simp] theorem State.launch_mapLaunch_self (s : State) (n : Nat) (f : Launch → Launch) :
    (s.mapLaunch n f).launch n = f (s.launch n) := by simp [State.launch, State.mapLaunch]

/-! ### Fields of a core beside a strand -/

@[simp] theorem Core.setStr_scr (x : Core) (k : StrandIx) (t : Strand) : (x.setStr k t).scr = x.scr := by cases k <;> rfl
@[simp] theorem Core.mapStr_scr (x : Core) (k : StrandIx) (f : Strand → Strand) : (x.mapStr k f).scr = x.scr := by cases k <;> rfl
@[simp] theorem Core.setStr_valid (x : Core) (k : StrandIx) (t : Strand) : (x.setStr k t).valid = x.valid := by cases k <;> rfl
@[simp] theorem Core.mapStr_valid (x : Core) (k : StrandIx) (f : Strand → Strand) : (x.mapStr k f).valid = x.valid := by cases k <;> rfl
@[simp] theorem Core.setStr_tags (x : Core) (k : StrandIx) (t : Strand) : (x.setStr k t).tags = x.tags := by cases k <;> rfl
@[simp] theorem Core.mapStr_tags (x : Core) (k : StrandIx) (f : Strand → Strand) : (x.mapStr k f).tags = x.tags := by cases k <;> rfl
@[simp] theorem Core.setStr_tagw (x : Core) (k : StrandIx) (t : Strand) : (x.setStr k t).tagw = x.tagw := by cases k <;> rfl
@[simp] theorem Core.mapStr_tagw (x : Core) (k : StrandIx) (f : Strand → Strand) : (x.mapStr k f).tagw = x.tagw := by cases k <;> rfl
@[simp] theorem Core.setStr_shw (x : Core) (k : StrandIx) (t : Strand) : (x.setStr k t).shw = x.shw := by cases k <;> rfl
@[simp] theorem Core.mapStr_shw (x : Core) (k : StrandIx) (f : Strand → Strand) : (x.mapStr k f).shw = x.shw := by cases k <;> rfl
@[simp] theorem Core.setStr_tagcfg (x : Core) (k : StrandIx) (t : Strand) : (x.setStr k t).tagcfg = x.tagcfg := by cases k <;> rfl
@[simp] theorem Core.mapStr_tagcfg (x : Core) (k : StrandIx) (f : Strand → Strand) : (x.mapStr k f).tagcfg = x.tagcfg := by cases k <;> rfl
@[simp] theorem Core.setStr_tok (x : Core) (k : StrandIx) (t : Strand) : (x.setStr k t).tok = x.tok := by cases k <;> rfl
@[simp] theorem Core.mapStr_tok (x : Core) (k : StrandIx) (f : Strand → Strand) : (x.mapStr k f).tok = x.tok := by cases k <;> rfl
@[simp] theorem Core.setStr_took (x : Core) (k : StrandIx) (t : Strand) : (x.setStr k t).took = x.took := by cases k <;> rfl
@[simp] theorem Core.mapStr_took (x : Core) (k : StrandIx) (f : Strand → Strand) : (x.mapStr k f).took = x.took := by cases k <;> rfl
@[simp] theorem Core.setStr_gave (x : Core) (k : StrandIx) (t : Strand) : (x.setStr k t).gave = x.gave := by cases k <;> rfl
@[simp] theorem Core.mapStr_gave (x : Core) (k : StrandIx) (f : Strand → Strand) : (x.mapStr k f).gave = x.gave := by cases k <;> rfl
@[simp] theorem Core.setStr_evq (x : Core) (k : StrandIx) (t : Strand) : (x.setStr k t).evq = x.evq := by cases k <;> rfl
@[simp] theorem Core.mapStr_evq (x : Core) (k : StrandIx) (f : Strand → Strand) : (x.mapStr k f).evq = x.evq := by cases k <;> rfl
@[simp] theorem Core.setStr_evnow (x : Core) (k : StrandIx) (t : Strand) : (x.setStr k t).evnow = x.evnow := by cases k <;> rfl
@[simp] theorem Core.mapStr_evnow (x : Core) (k : StrandIx) (f : Strand → Strand) : (x.mapStr k f).evnow = x.evnow := by cases k <;> rfl
@[simp] theorem Core.setStr_ev0 (x : Core) (k : StrandIx) (t : Strand) : (x.setStr k t).ev0 = x.ev0 := by cases k <;> rfl
@[simp] theorem Core.mapStr_ev0 (x : Core) (k : StrandIx) (f : Strand → Strand) : (x.mapStr k f).ev0 = x.ev0 := by cases k <;> rfl
@[simp] theorem Core.setStr_sh (x : Core) (k : StrandIx) (t : Strand) : (x.setStr k t).sh = x.sh := by cases k <;> rfl
@[simp] theorem Core.mapStr_sh (x : Core) (k : StrandIx) (f : Strand → Strand) : (x.mapStr k f).sh = x.sh := by cases k <;> rfl
@[simp] theorem Core.setStr_ft (x : Core) (k : StrandIx) (t : Strand) : (x.setStr k t).ft = x.ft := by cases k <;> rfl
@[simp] theorem Core.mapStr_ft (x : Core) (k : StrandIx) (f : Strand → Strand) : (x.mapStr k f).ft = x.ft := by cases k <;> rfl
@[simp] theorem Core.setStr_live (x : Core) (k : StrandIx) (t : Strand) : (x.setStr k t).live = x.live := by cases k <;> rfl
@[simp] theorem Core.mapStr_live (x : Core) (k : StrandIx) (f : Strand → Strand) : (x.mapStr k f).live = x.live := by cases k <;> rfl
@[simp] theorem Core.setStr_shadow (x : Core) (k : StrandIx) (t : Strand) : (x.setStr k t).shadow = x.shadow := by cases k <;> rfl
@[simp] theorem Core.mapStr_shadow (x : Core) (k : StrandIx) (f : Strand → Strand) : (x.mapStr k f).shadow = x.shadow := by cases k <;> rfl
@[simp] theorem Core.setStr_work (x : Core) (k : StrandIx) (t : Strand) : (x.setStr k t).work = x.work := by cases k <;> rfl
@[simp] theorem Core.mapStr_work (x : Core) (k : StrandIx) (f : Strand → Strand) : (x.mapStr k f).work = x.work := by cases k <;> rfl
@[simp] theorem Core.setStr_vis (x : Core) (k : StrandIx) (t : Strand) : (x.setStr k t).vis = x.vis := by cases k <;> rfl
@[simp] theorem Core.mapStr_vis (x : Core) (k : StrandIx) (f : Strand → Strand) : (x.mapStr k f).vis = x.vis := by cases k <;> rfl
@[simp] theorem Core.setStr_ops (x : Core) (k : StrandIx) (t : Strand) : (x.setStr k t).ops = x.ops := by cases k <;> rfl
@[simp] theorem Core.mapStr_ops (x : Core) (k : StrandIx) (f : Strand → Strand) : (x.mapStr k f).ops = x.ops := by cases k <;> rfl
@[simp] theorem Core.setStr_nord (x : Core) (k : StrandIx) (t : Strand) : (x.setStr k t).nord = x.nord := by cases k <;> rfl
@[simp] theorem Core.mapStr_nord (x : Core) (k : StrandIx) (f : Strand → Strand) : (x.mapStr k f).nord = x.nord := by cases k <;> rfl
@[simp] theorem Core.setStr_vstage (x : Core) (k : StrandIx) (t : Strand) : (x.setStr k t).vstage = x.vstage := by cases k <;> rfl
@[simp] theorem Core.mapStr_vstage (x : Core) (k : StrandIx) (f : Strand → Strand) : (x.mapStr k f).vstage = x.vstage := by cases k <;> rfl
@[simp] theorem Core.setStr_vdue (x : Core) (k : StrandIx) (t : Strand) : (x.setStr k t).vdue = x.vdue := by cases k <;> rfl
@[simp] theorem Core.mapStr_vdue (x : Core) (k : StrandIx) (f : Strand → Strand) : (x.mapStr k f).vdue = x.vdue := by cases k <;> rfl
@[simp] theorem Core.setStr_halted (x : Core) (k : StrandIx) (t : Strand) : (x.setStr k t).halted = x.halted := by cases k <;> rfl
@[simp] theorem Core.mapStr_halted (x : Core) (k : StrandIx) (f : Strand → Strand) : (x.mapStr k f).halted = x.halted := by cases k <;> rfl
@[simp] theorem Core.setStr_mxq (x : Core) (k : StrandIx) (t : Strand) : (x.setStr k t).mxq = x.mxq := by cases k <;> rfl
@[simp] theorem Core.mapStr_mxq (x : Core) (k : StrandIx) (f : Strand → Strand) : (x.mapStr k f).mxq = x.mxq := by cases k <;> rfl
@[simp] theorem Core.setStr_lq (x : Core) (k : StrandIx) (t : Strand) : (x.setStr k t).lq = x.lq := by cases k <;> rfl
@[simp] theorem Core.mapStr_lq (x : Core) (k : StrandIx) (f : Strand → Strand) : (x.mapStr k f).lq = x.lq := by cases k <;> rfl
@[simp] theorem Core.setStr_wq (x : Core) (k : StrandIx) (t : Strand) : (x.setStr k t).wq = x.wq := by cases k <;> rfl
@[simp] theorem Core.mapStr_wq (x : Core) (k : StrandIx) (f : Strand → Strand) : (x.mapStr k f).wq = x.wq := by cases k <;> rfl
@[simp] theorem Core.setStr_stage (x : Core) (k : StrandIx) (t : Strand) : (x.setStr k t).stage = x.stage := by cases k <;> rfl
@[simp] theorem Core.mapStr_stage (x : Core) (k : StrandIx) (f : Strand → Strand) : (x.mapStr k f).stage = x.stage := by cases k <;> rfl
@[simp] theorem Core.setStr_lastq (x : Core) (k : StrandIx) (t : Strand) : (x.setStr k t).lastq = x.lastq := by cases k <;> rfl
@[simp] theorem Core.mapStr_lastq (x : Core) (k : StrandIx) (f : Strand → Strand) : (x.mapStr k f).lastq = x.lastq := by cases k <;> rfl
@[simp] theorem Core.setStr_acc (x : Core) (k : StrandIx) (t : Strand) : (x.setStr k t).acc = x.acc := by cases k <;> rfl
@[simp] theorem Core.mapStr_acc (x : Core) (k : StrandIx) (f : Strand → Strand) : (x.mapStr k f).acc = x.acc := by cases k <;> rfl
@[simp] theorem Core.setStr_stops (x : Core) (k : StrandIx) (t : Strand) : (x.setStr k t).stops = x.stops := by cases k <;> rfl
@[simp] theorem Core.mapStr_stops (x : Core) (k : StrandIx) (f : Strand → Strand) : (x.mapStr k f).stops = x.stops := by cases k <;> rfl
@[simp] theorem Core.setStr_nested (x : Core) (k : StrandIx) (t : Strand) : (x.setStr k t).nested = x.nested := by cases k <;> rfl
@[simp] theorem Core.mapStr_nested (x : Core) (k : StrandIx) (f : Strand → Strand) : (x.mapStr k f).nested = x.nested := by cases k <;> rfl
@[simp] theorem Core.setStr_removal (x : Core) (k : StrandIx) (t : Strand) : (x.setStr k t).removal = x.removal := by cases k <;> rfl
@[simp] theorem Core.mapStr_removal (x : Core) (k : StrandIx) (f : Strand → Strand) : (x.mapStr k f).removal = x.removal := by cases k <;> rfl
@[simp] theorem Core.setStr_restart (x : Core) (k : StrandIx) (t : Strand) : (x.setStr k t).restart = x.restart := by cases k <;> rfl
@[simp] theorem Core.mapStr_restart (x : Core) (k : StrandIx) (f : Strand → Strand) : (x.mapStr k f).restart = x.restart := by cases k <;> rfl
@[simp] theorem Core.setStr_trace (x : Core) (k : StrandIx) (t : Strand) : (x.setStr k t).trace = x.trace := by cases k <;> rfl
@[simp] theorem Core.mapStr_trace (x : Core) (k : StrandIx) (f : Strand → Strand) : (x.mapStr k f).trace = x.trace := by cases k <;> rfl
@[simp] theorem Core.setStr_lost (x : Core) (k : StrandIx) (t : Strand) : (x.setStr k t).lost = x.lost := by cases k <;> rfl
@[simp] theorem Core.mapStr_lost (x : Core) (k : StrandIx) (f : Strand → Strand) : (x.mapStr k f).lost = x.lost := by cases k <;> rfl
@[simp] theorem Core.setStr_tlast (x : Core) (k : StrandIx) (t : Strand) : (x.setStr k t).tlast = x.tlast := by cases k <;> rfl
@[simp] theorem Core.mapStr_tlast (x : Core) (k : StrandIx) (f : Strand → Strand) : (x.mapStr k f).tlast = x.tlast := by cases k <;> rfl
@[simp] theorem Core.setStr_stamped (x : Core) (k : StrandIx) (t : Strand) : (x.setStr k t).stamped = x.stamped := by cases k <;> rfl
@[simp] theorem Core.mapStr_stamped (x : Core) (k : StrandIx) (f : Strand → Strand) : (x.mapStr k f).stamped = x.stamped := by cases k <;> rfl

/-! ### Registers -/

@[simp] theorem Strand.rd_zero (t : Strand) : t.rd 0 = 0 := by simp [Strand.rd]
/-- A register reads what was written to it; g0 reads zero (R13). -/
theorem Strand.rd_setReg (t : Strand) (d r : Reg) (v : Word) :
    (t.setReg d v).rd r = if r = d then (if d = 0 then 0 else v) else t.rd r := by
  unfold Strand.setReg Strand.rd
  by_cases hd : d = 0
  · rw [if_pos hd]
    by_cases hr : r = d
    · rw [if_pos hr, if_pos hd, if_pos (hr.trans hd)]
    · rw [if_neg hr]
  · rw [if_neg hd]
    by_cases hr : r = d
    · rw [if_pos hr, if_neg hd, if_neg (hr ▸ hd), hr, Tab.get_set_self]
    · have : r.toNat ≠ d.toNat := fun h => hr (BitVec.eq_of_toNat_eq h)
      rw [if_neg hr, Tab.get_set_ne _ _ _ this]
theorem Strand.rd_put (t : Strand) (d r : Reg) (v : Word) : (t.put d v).rd r = if r = d then (if d = 0 then 0 else v) else t.rd r := by
  rw [← Strand.rd_setReg]; rfl

end Sys2Proof.Machine
end

