-- ==== Sys2Proof/Laws/Issue.lean ====
section
/-!
SUPPORT. What the shared issue of a word does, once: a ready word whose rule answers `go` issues, and what its issue keeps. The
meanings of words are read through these lemmas, never by unfolding `attempt`.
-/

namespace Sys2Proof.Machine

/-! ### Trace records touch only the trace -/

@[simp] theorem State.core_traceFor_ne (s : State) {c e : Nat} (v : Nat) (k : StrandIx) (n : Nat) (p : Word) (a : Nat) (h : e ≠ c) :
    (s.traceFor v c k n p a).core e = s.core e := by
  unfold State.traceFor; dsimp only; split; · rfl
  split <;> simp [h]

/-- A trace record leaves the core as it was beside its trace FIFO. -/
theorem State.core_traceFor (s : State) (v c : Nat) (k : StrandIx) (n : Nat) (p : Word) (a : Nat) :
    ∃ tr l tl, (s.traceFor v c k n p a).core c = { s.core c with trace := tr, lost := l, tlast := tl } := by
  unfold State.traceFor; dsimp only; split; · exact ⟨_, _, _, rfl⟩
  split
  · exact ⟨(s.core c).trace, true, (s.core c).tlast, by simp⟩
  · exact ⟨_, _, _, s.core_mapCore_self c _⟩

@[simp] theorem State.core_trace_ne (s : State) {c e : Nat} (k : StrandIx) (n : Nat) (p : Word) (a : Nat) (h : e ≠ c) :
    (s.trace c k n p a).core e = s.core e := s.core_traceFor_ne _ k n p a h

theorem State.core_trace (s : State) (c : Nat) (k : StrandIx) (n : Nat) (p : Word) (a : Nat) :
    ∃ tr l tl, (s.trace c k n p a).core c = { s.core c with trace := tr, lost := l, tlast := tl } := s.core_traceFor _ c k n p a

theorem SamePackage.refl (s : State) : SamePackage s s := by constructor <;> first | rfl | exact fun _ _ => ⟨_, rfl⟩
theorem SamePackage.trans {s t u : State} (a : SamePackage s t) (b : SamePackage t u) : SamePackage s u :=
  ⟨b.1.trans a.1, b.2.trans a.2, b.3.trans a.3, b.4.trans a.4, b.5.trans a.5, b.6.trans a.6, b.7.trans a.7, b.8.trans a.8, b.9.trans a.9, b.10.trans a.10, b.11.trans a.11,
   b.12.trans a.12, b.13.trans a.13, b.14.trans a.14, b.15.trans a.15, b.16.trans a.16, b.17.trans a.17, b.18.trans a.18, b.19.trans a.19, b.20.trans a.20, b.21.trans a.21, b.22.trans a.22, b.23.trans a.23, b.24.trans a.24, fun d v => by
     obtain ⟨m, hm⟩ := b.25 d v; obtain ⟨n, hn⟩ := a.25 d v; exact ⟨m, by rw [hm, hn]⟩⟩
/-- A change of cores alone. -/
theorem SamePackage.setCore (s : State) (c : Nat) (x : Core) : SamePackage s (s.setCore c x) := by
  constructor <;> first | rfl | exact fun _ _ => ⟨_, rfl⟩
theorem SamePackage.mapCore (s : State) (c : Nat) (f : Core → Core) : SamePackage s (s.mapCore c f) := .setCore s c _
theorem SamePackage.mapStr (s : State) (c : Nat) (k : StrandIx) (f : Strand → Strand) : SamePackage s (s.mapStr c k f) := .setCore s c _
theorem SamePackage.mapCtx (s : State) (c : Nat) (f : Ctx → Ctx) : SamePackage s (s.mapCtx c f) := .setCore s c _

/-- What a trace record keeps of the package. -/
theorem State.trace_same (s : State) (c : Nat) (k : StrandIx) (n : Nat) (p : Word) (a : Nat) :
    SamePackage s (s.trace c k n p a) ∧ (s.trace c k n p a).mem = s.mem := by
  unfold State.trace State.traceFor; dsimp only; split
  · exact ⟨.refl s, rfl⟩
  split
  · refine ⟨SamePackage.trans (t := s.mapVd (dieOf c) (s.ctx c).vf (fun v => { v with ntdrop := min (v.ntdrop + 1) (2 ^ 32 - 1) })) ?_
      (.mapCore _ c _), rfl⟩
    constructor <;> first | rfl | skip
    intro d v
    by_cases h : d * 512 + v = dieOf c * 512 + (s.ctx c).vf
    · refine ⟨min ((s.vd d v).ntdrop + 1) (2 ^ 32 - 1), ?_⟩
      have e : s.vd d v = s.vd (dieOf c) (s.ctx c).vf := by unfold State.vd; rw [h]
      have e2 : ∀ u : State, u.vd d v = u.vd (dieOf c) (s.ctx c).vf := fun u => by unfold State.vd; rw [h]
      rw [e2, State.vd_mapVd_self, e]
    · exact ⟨(s.vd d v).ntdrop, by rw [State.vd_mapVd_ne s _ h]⟩
  · exact ⟨.mapCore s c _, rfl⟩

/-! ### The issue of a word that falls through -/

/-- The strand of a word at its issue, before it continues. -/
def Strand.issueOf (t : Strand) (i : Instr) (f : Info) (ord : Nat) : Strand :=
  { t with
    ic := t.ic + 1, issued := true, yready := f.y, waited := 0, twait := false, starved := false
    ret := t.ret ++ [⟨ord, t.ic + 1, i, f.t.getLsbD 1 && !givesLater i, f.t.getLsbD 0 && !givesLater i⟩] }

/-- End tests change the pc and the loop counts alone. -/
theorem Strand.endTests_eq (t : Strand) (x : Word) :
    (t.endTests x).1 = { t with pc := (t.endTests x).1.pc, lc0 := (t.endTests x).1.lc0, lc1 := (t.endTests x).1.lc1 } := by
  unfold Strand.endTests; dsimp only
  split
  · rfl
  split <;> split <;> try split
  all_goals rfl

theorem Strand.endTests_issueOf (t : Strand) (i : Instr) (f : Info) (o : Nat) (x : Word) :
    (t.issueOf i f o).endTests x = (((t.endTests x).1).issueOf i f o, (t.endTests x).2) := by
  unfold Strand.endTests Strand.issueOf; dsimp only
  split
  · rfl
  split <;> split <;> try split
  all_goals rfl

/-! ### What only a trace record or a drain point can tell apart -/

theorem SameSpecial.refl (y : Ctx) : SameSpecial y y := by constructor <;> rfl
theorem SameSpecial.trans {x y z : Ctx} (a : SameSpecial x y) (b : SameSpecial y z) : SameSpecial x z := by
  constructor <;> first
    | exact b.1.trans a.1 | exact b.2.trans a.2 | exact b.3.trans a.3 | exact b.4.trans a.4 | exact b.5.trans a.5
    | exact b.6.trans a.6 | exact b.7.trans a.7 | exact b.8.trans a.8 | exact b.9.trans a.9 | exact b.10.trans a.10
    | exact b.11.trans a.11 | exact b.12.trans a.12 | exact b.13.trans a.13 | exact b.14.trans a.14 | exact b.15.trans a.15

/-- Two cores that differ in their trace FIFO, and in fields of the context that are no special registers. -/
def Beside (x y : Core) : Prop :=
  ∃ tr l tl g, (∀ z, SameSpecial z (g z)) ∧ y = { x with trace := tr, lost := l, tlast := tl, ctx := x.ctx.map g }

theorem Beside.refl (x : Core) : Beside x x := ⟨x.trace, x.lost, x.tlast, id, SameSpecial.refl, by simp⟩
theorem Beside.trans {x y z : Core} : Beside x y → Beside y z → Beside x z
  | ⟨_, _, _, g, hg, hy⟩, ⟨tr, l, tl, g', hg', hz⟩ =>
    ⟨tr, l, tl, g' ∘ g, fun z => (hg z).trans (hg' _), by subst hy; simp [hz]⟩
theorem Beside.str {x y : Core} (h : Beside x y) (k : StrandIx) : y.str k = x.str k := by
  obtain ⟨_, _, _, _, _, rfl⟩ := h; cases k <;> rfl
theorem Beside.units {x y : Core} (h : Beside x y) : SameUnits x y := by
  obtain ⟨_, _, _, _, _, rfl⟩ := h; constructor <;> first | rfl | exact fun _ => rfl
theorem Beside.took {x y : Core} (h : Beside x y) : y.took = x.took := by obtain ⟨_, _, _, _, _, rfl⟩ := h; rfl
theorem Beside.nord {x y : Core} (h : Beside x y) : y.nord = x.nord := by obtain ⟨_, _, _, _, _, rfl⟩ := h; rfl
theorem Beside.special {x y : Core} (h : Beside x y) : SameSpecial (x.ctx.getD {}) (y.ctx.getD {}) := by
  obtain ⟨_, _, _, g, hg, rfl⟩ := h
  cases h : x.ctx
  · simpa [h] using SameSpecial.refl _
  · simpa [h] using hg _

/-- Two states that differ in trace records and drain points of core `c` alone. -/
structure Quiet (s t : State) (c : Nat) : Prop where
  core   : Beside (s.core c) (t.core c)
  cores  : ∀ e, e ≠ c → t.core e = s.core e
  pkg    : SamePackage s t
  mem    : t.mem = s.mem

theorem Quiet.refl (s : State) (c : Nat) : Quiet s s c := ⟨.refl _, fun _ _ => rfl, .refl s, rfl⟩
theorem Quiet.trans {s t u : State} {c : Nat} (a : Quiet s t c) (b : Quiet t u c) : Quiet s u c :=
  ⟨a.core.trans b.core, fun e h => (b.cores e h).trans (a.cores e h), a.pkg.trans b.pkg, b.mem.trans a.mem⟩

theorem Quiet.trace (s : State) (c : Nat) (k : StrandIx) (n : Nat) (p : Word) (a : Nat) : Quiet s (s.trace c k n p a) c := by
  obtain ⟨tr, l, tl, h⟩ := s.core_trace c k n p a
  have h' := s.trace_same c k n p a
  exact ⟨⟨tr, l, tl, id, SameSpecial.refl, by simpa using h⟩, fun _ he => s.core_trace_ne k n p a he, h'.1, h'.2⟩

theorem Quiet.mapCtx (s : State) (c : Nat) (g : Ctx → Ctx) (hg : ∀ z, SameSpecial z (g z)) : Quiet s (s.mapCtx c g) c :=
  ⟨⟨_, _, _, g, hg, s.core_mapCtx_self c g⟩, fun _ he => s.core_mapCtx_ne g he, .mapCtx s c g, rfl⟩

/-- End tests change their strand, and else at most a trace record and the drain point. -/
theorem Quiet.runEndTests (s : State) (c : Nat) (k : StrandIx) (x : Word) :
    Quiet (s.mapStr c k (fun t => (t.endTests x).1)) (runEndTests s c k x) c := by
  have e : s.mapStr c k (fun t => (t.endTests x).1) = s.mapStr c k (fun _ => ((s.str c k).endTests x).1) := by
    simp [State.mapStr, State.mapCore, Core.mapStr, State.str]
  rw [e]; unfold Machine.runEndTests; dsimp only
  cases ((s.str c k).endTests x).2 with
  | none => exact .refl _ _
  | some n =>
    dsimp only
    split <;> split <;> first
      | exact .trace _ c k _ _ _
      | exact (Quiet.trace _ c k _ _ _).trans (.mapCtx _ _ (fun y => { y with drainPt := y.drainPt.or (some 0) })
          fun z => by constructor <;> rfl)

/-- A change of one strand keeps two states alike. -/
theorem Quiet.mapStr {s t : State} {c : Nat} (q : Quiet s t c) (k : StrandIx) (g : Strand → Strand) :
    Quiet (s.mapStr c k g) (t.mapStr c k g) c := by
  obtain ⟨tr, l, tl, f, hf, e⟩ := q.core
  refine ⟨⟨tr, l, tl, f, hf, ?_⟩, fun e he => by simp [he, q.cores e he], ?_, q.mem⟩
  · rw [State.core_mapStr_self, State.core_mapStr_self, e]; cases k <;> rfl
  · have := q.pkg
    constructor <;> first
      | exact this.1 | exact this.2 | exact this.3 | exact this.4 | exact this.5 | exact this.6 | exact this.7 | exact this.8
      | exact this.9 | exact this.10 | exact this.11 | exact this.12 | exact this.13 | exact this.14 | exact this.15
      | exact this.16 | exact this.17 | exact this.18 | exact this.19 | exact this.20 | exact this.21 | exact this.22 | exact this.23 | exact this.24 | exact this.25

/-- The core right after the issue of a word that goes on at `a`. -/
def Core.issueOf (x : Core) (k : StrandIx) (i : Instr) (f : Info) (a : Word) : Core :=
  ({ x with took := (takesOf k f.t).foldl bump x.took, nord := x.nord + 1 } : Core).mapStr k (fun t =>
    ((t.endTests a).1).issueOf i f x.nord)

/-- The core right after the issue of a word, before it goes on. -/
def Core.counted (x : Core) (k : StrandIx) (i : Instr) (f : Info) : Core :=
  ({ x with took := (takesOf k f.t).foldl bump x.took, nord := x.nord + 1 } : Core).mapStr k (fun t => t.issueOf i f x.nord)

theorem Quiet.issueAt (i : Instr) (f : Info) (c : Nat) (k : StrandIx) (s u : State) (a : Word)
    (h : Quiet (s.mapCore c (fun x => x.counted k i f)) u c) :
    Quiet (s.mapCore c (fun x => x.issueOf k i f a)) (Machine.runEndTests u c k a) c := by
  have e : Quiet (s.mapCore c (fun x => x.issueOf k i f a))
      ((s.mapCore c (fun x => x.counted k i f)).mapStr c k (fun t => (t.endTests a).1)) c := by
    refine ⟨?_, fun e he => by simp [he], by constructor <;> first | rfl | exact fun _ _ => ⟨_, rfl⟩, rfl⟩
    have : ((s.mapCore c (fun x => x.counted k i f)).mapStr c k (fun t => (t.endTests a).1)).core c
        = (s.mapCore c (fun x => x.issueOf k i f a)).core c := by
      simp only [State.core_mapStr_self, State.core_mapCore_self, Core.issueOf, Core.counted]
      cases k <;> simp only [Core.mapStr, Core.setStr, Core.str] <;> rw [Strand.endTests_issueOf]
    rw [this]; exact .refl _
  exact (e.trans (h.mapStr k _)).trans (.runEndTests u c k a)

theorem State.str_counted (s : State) (c : Nat) (k : StrandIx) (i : Instr) (f : Info) :
    (s.mapCore c (fun x => x.counted k i f)).str c k = (s.str c k).issueOf i f (s.core c).nord := by
  simp only [State.str, State.core_mapCore_self, Core.counted, Core.str_mapStr_self]; cases k <;> rfl

/-- A word that falls through issues and goes on behind itself, by the end tests. -/
theorem Quiet.commit_fall (i : Instr) (f : Info) (c : Nat) (k : StrandIx) (s : State) :
    Quiet (s.mapCore c (fun x => x.issueOf k i f ((s.str c k).pc + wordLen i))) (commit i f c k .fall s) c := by
  have hc : commit i f c k .fall s = Machine.runEndTests (s.mapCore c (fun x => x.counted k i f)) c k
      (((s.mapCore c (fun x => x.counted k i f)).str c k).pc + wordLen i) := rfl
  rw [hc, State.str_counted]
  exact .issueAt i f c k s _ _ (.refl _ c)

/-- A word that skips issues and goes on at `a`, with a cycle without a fetch. -/
theorem Quiet.commit_skip (i : Instr) (f : Info) (c : Nat) (k : StrandIx) (s : State) (a : Word) :
    Quiet ((s.mapCore c (fun x => x.issueOf k i f a)).mapStr c k (fun u => { u with fwait := 2 })) (commit i f c k (.skip a) s) c :=
  (Quiet.issueAt i f c k s _ a (.trace _ c k 1 _ 0)).mapStr k _

/-! ### Reading of memory -/

/-- A byte reads the same where memory and every scratchpad do. -/
theorem State.portRead_congr {s t : State} (hm : ∀ a, Tab.get 0 t.mem a = Tab.get 0 s.mem a)
    (hs : ∀ e a, Tab.get 0 (t.core e).scr a = Tab.get 0 (s.core e).scr a) (a : Nat) : t.portRead a 1 = s.portRead a 1 := by
  unfold State.portRead
  split
  · exact congrArg (fun b => [b]) (hs _ _)
  · exact congrArg (fun b => [b]) (hm _)

/-! ### A ready word issues -/

/-- What the information of a word says of it, for a word that any strand of `who` may issue now. -/
structure Fits (f : Info) (s : State) (c : Nat) (k : StrandIx) (i : Instr) (n : Ann) (ks : List StrandIx) (rs ds : List Reg) : Prop where
  assigned : ∀ p r, i ≠ .unassignedWord p r
  y     : f.y = n.y
  t     : f.t = n.t
  who   : k ∈ ks → f.who.getLsbD (ixOf k) = true
  sys   : k ≠ .s → sysRestricted i = false
  reads : f.reads = rs
  dst   : f.dst = ds
  il    : f.il = true → ∀ r ∈ ds, (s.core c).flying k r = false
  gm    : f.gm = true → (s.core c).acquiring k = false
  recs  : f.recs = true → (s.core c).records < 64
  room  : (f.solo = false ∧ f.more s c k = 0) ∨ (s.core c).records + f.needs s c k ≤ 64
  nh    : f.nh = true → (s.ctx c).depth = 0
  oh    : f.oh = true → (s.ctx c).depth ≠ 0
  feat  : ∀ e ∈ f.feat, s.feat (s.ctx c).vf e.1 = true
  late  : f.late s c k = none
  early : f.early s c k = none := by rfl

/-- R48 passes for a ready word. -/
theorem Ready.legal {s : State} {c : Nat} {k : StrandIx} {i : Instr} {n : Ann} {who : List StrandIx} {rs ds : List Reg} {f : Info}
    (h : Ready s c k i n who rs ds) (hf : Fits f s c k i n who rs ds) (f' : Info)
    (e : f' = f ∨ f' = { f with late := fun _ _ _ => none }) : illegal i f' s c k = none := by
  have hw := hf.who h.strand
  have h1 : f.feat.any (fun e => e.2 == 2 && !s.feat (s.ctx c).vf e.1) = false := by
    rw [List.any_eq_false]; intro e he; simp [hf.feat e he]
  have h2 : f.feat.find? (fun e => !s.feat (s.ctx c).vf e.1) = none := by
    rw [List.find?_eq_none]; intro e he; simp [hf.feat e he]
  have h3 : ((!f.who.getLsbD (ixOf k)) || (f.nh && decide ((s.ctx c).depth ≠ 0)) || (f.oh && !decide ((s.ctx c).depth ≠ 0))
      || (decide (k ≠ .s) && sysRestricted i)) = false := by
    have a : (f.nh && decide ((s.ctx c).depth ≠ 0)) = false := by
      cases hx : f.nh <;> simp [hf.nh, hx]
    have b : (f.oh && !decide ((s.ctx c).depth ≠ 0)) = false := by
      cases hx : f.oh
      · rfl
      · simp [hf.oh hx]
    have d : (decide (k ≠ .s) && sysRestricted i) = false := by
      by_cases hk : k = .s
      · simp [hk]
      · simp [hf.sys hk]
    rw [hw, a, b, d]; rfl
  have h4 : (decide (k = .s) && f.t != 0) = false := by
    by_cases hk : k = .s
    · simp [hk, hf.t, h.tokenless hk]
    · simp [hk]
  have main : ∀ l : State → Nat → StrandIx → Option (BitVec 3), l s c k = none → illegal i { f with late := l } s c k = none := by
    intro l hl
    unfold illegal
    have hp : ∀ (p : BitVec 32) (r : BitVec 3), i ≠ .unassignedWord p r := hf.assigned
    cases i with
    | unassignedWord p r => exact absurd rfl (hp p r)
    | _ => simp only [h1, h2, h3, h4, h.formed, hf.early, hl]; rfl
  rcases e with rfl | rfl
  · exact main _ hf.late
  · exact main _ rfl

/-- A ready word meets its own rule. -/
theorem Ready.meets {s : State} {c : Nat} {k : StrandIx} {i : Instr} {n : Ann} {who : List StrandIx} {rs ds : List Reg} {f : Info}
    {body : Nat → StrandIx → State → Act} (h : Ready s c k i n who rs ds) (hf : Fits f s c k i n who rs ds) :
    issue i f body s = .next (endTurn (match body c k s with
      | .fault s code tval => raiseWord s c k code tval
      | .wait s => s
      | .go s' nx => commit i f c k nx s') c) := by
  obtain ⟨rest, ha⟩ := h.turn
  unfold issue
  rw [ha]
  dsimp only
  congr 2
  unfold attempt
  dsimp only
  have h1 := h.legal hf (if f.lreg.any ((s.core c).marked k) then { f with late := fun _ _ _ => none } else f)
    (by split <;> simp)
  have h2 : pendingRead ((s.core c).str k) f.reads = none := by rw [hf.reads]; exact h.readable
  have h3 : (f.il && f.dst.any ((s.core c).flying k)) = false := by
    cases hx : f.il
    · rfl
    · simp only [Bool.true_and, hf.dst, List.any_eq_false]; intro r hr; simp [hf.il hx r hr]
  have h4 : (((f.reads ++ f.dst).any ((s.core c).marked k) || (f.gm && (s.core c).acquiring k)
      )) = false := by
    have a : (f.reads ++ f.dst).any ((s.core c).marked k) = false := by
      rw [List.any_eq_false]; intro r hr; rw [hf.reads, hf.dst] at hr; simp [h.unmarked r hr]
    have b : (f.gm && (s.core c).acquiring k) = false := by
      cases hx : f.gm
      · rfl
      · simp [hf.gm hx]
    rw [a, b]; rfl
  have h7 : (!((s.core c).str k).ygo && f.needs s c k != 0 && decide ((s.core c).records + f.needs s c k > 64)) = false := by
    have d : f.needs s c k = 0 ∨ (s.core c).records + f.needs s c k ≤ 64 := by
      rcases hf.room with ⟨e, g⟩ | e
      · unfold Info.needs
        rw [e, g, hf.t]
        by_cases hr : (s.core c).records < 64
        · right; cases f.recs <;> simp <;> first | omega | (split <;> omega)
        · left
          have e1 : f.recs = false := by
            cases hx : f.recs
            · rfl
            · exact absurd (hf.recs hx) hr
          have e2 : n.t &&& 3 = 0 := by
            by_contra hx; exact hr (h.room hx)
          rw [e1, e2]; rfl
      · exact .inr e
    rcases d with d | d
    · simp [d]
    · simp [Nat.not_lt.2 d]
  have h5 : (takesOf k f.t).all ((s.core c).canTake f.y k) = true := by
    rw [List.all_eq_true, hf.t, hf.y]; exact h.tokens
  have h6 : (!f.y || ((s.core c).str k).ygo || (s.core c).alone k) = true := by
    cases hx : n.y
    · simp [hf.y, hx]
    · rcases h.partners hx with e | e
      · have e' : ((s.core c).str k).ygo = true := e
        simp [e']
      · simp [e]
  rw [h1, h2, h3, h4, h7, h5]
  dsimp only
  simp only [Bool.false_eq_true, ↓reduceIte, Bool.not_true]
  cases body c k s <;> simp [h6]

/-- A ready word whose rule answers `go` issues, and its turn ends. -/
theorem Ready.go {s s' : State} {c : Nat} {k : StrandIx} {i : Instr} {n : Ann} {who : List StrandIx} {rs ds : List Reg} {f : Info}
    {body : Nat → StrandIx → State → Act} {nx : Next} (h : Ready s c k i n who rs ds) (hf : Fits f s c k i n who rs ds)
    (hb : body c k s = .go s' nx) : issue i f body s = .next (endTurn (commit i f c k nx s') c) := by
  rw [h.meets hf, hb]

/-- A ready word whose rule answers a fault does not issue. -/
theorem Ready.fails {s s' : State} {c : Nat} {k : StrandIx} {i : Instr} {n : Ann} {who : List StrandIx} {rs ds : List Reg} {f : Info}
    {body : Nat → StrandIx → State → Act} {code : Nat} {v : Word} (h : Ready s c k i n who rs ds) (hf : Fits f s c k i n who rs ds)
    (hb : body c k s = .fault s' code v) : issue i f body s = .next (endTurn (raiseWord s' c k code v) c) := by
  rw [h.meets hf, hb]

/-! ### What a word that falls through leaves -/

/-- End tests look at no register, and change none. -/
theorem Strand.endTests_regs (t : Strand) (g : Tab Word) (fr : BitVec 32) (x : Word) :
    ({ t with g := g, fresh := fr } : Strand).endTests x
      = ({ (t.endTests x).1 with g := g, fresh := fr }, (t.endTests x).2) := by
  unfold Strand.endTests; dsimp only
  repeat' split
  all_goals rfl
theorem Strand.endTests_pend (t : Strand) (p : BitVec 32) (x : Word) :
    ({ t with pend := p } : Strand).endTests x = ({ (t.endTests x).1 with pend := p }, (t.endTests x).2) := by
  unfold Strand.endTests; dsimp only
  repeat' split
  all_goals rfl

/-- The word's own rule left the state `s'`: nothing has been counted or taken yet. -/
structure SamePlace (s s' : State) (c : Nat) (k : StrandIx) : Prop where
  ic  : (s'.str c k).ic = (s.str c k).ic
  nord : (s'.core c).nord = (s.core c).nord

theorem SamePlace.refl (s : State) (c : Nat) (k : StrandIx) : SamePlace s s c k := by constructor <;> rfl

theorem Core.issueOf_str (x : Core) (k : StrandIx) (i : Instr) (f : Info) (a : Word) :
    (x.issueOf k i f a).str k = (((x.str k).endTests a).1).issueOf i f x.nord := by
  cases k <;> rfl
theorem Core.issueOf_str_ne (x : Core) {k j : StrandIx} (i : Instr) (f : Info) (a : Word) (h : j ≠ k) : (x.issueOf k i f a).str j = x.str j := by
  cases k <;> cases j <;> first | rfl | exact absurd rfl h
theorem Core.issueOf_units (x : Core) (k : StrandIx) (i : Instr) (f : Info) (a : Word) : SameUnits x (x.issueOf k i f a) := by
  cases k <;> (constructor <;> first | rfl | exact fun _ => rfl)
theorem Core.issueOf_ctx (x : Core) (k : StrandIx) (i : Instr) (f : Info) (a : Word) : (x.issueOf k i f a).ctx = x.ctx := by cases k <;> rfl
theorem Core.issueOf_took (x : Core) (k : StrandIx) (i : Instr) (f : Info) (a : Word) :
    (x.issueOf k i f a).took = (takesOf k f.t).foldl bump x.took := by cases k <;> rfl

theorem Strand.endTests_keeps (t : Strand) (x : Word) (r : Reg) : (t.endTests x).1.sst = t.sst ∧ (t.endTests x).1.sgn = t.sgn
    ∧ (t.endTests x).1.rd r = t.rd r ∧ (t.endTests x).1.ic = t.ic ∧ (t.endTests x).1.ret = t.ret := by
  rw [t.endTests_eq x]; exact ⟨rfl, rfl, rfl, rfl, rfl⟩

/-- Two strands alike in what no shared operation of a word's issue touches, registers and pending bits apart. -/
structure SameStrandRest (t u : Strand) : Prop where
  sst : u.sst = t.sst
  sgn : u.sgn = t.sgn
  ls0 : u.ls0 = t.ls0
  ls1 : u.ls1 = t.ls1
  le0 : u.le0 = t.le0
  le1 : u.le1 = t.le1
  sb  : u.sb = t.sb
  running : u.running = t.running
  stopping : u.stopping = t.stopping

/-- What the issue of a word keeps of its strand beside pc, loop counts and the counting of issue cycles. -/
structure SameStrand (t u : Strand) : Prop extends SameStrandRest t u where
  pend : u.pend = t.pend
  rd  : ∀ r, u.rd r = t.rd r

theorem SameStrandRest.refl (t : Strand) : SameStrandRest t t := by constructor <;> rfl
theorem SameStrand.refl (t : Strand) : SameStrand t t := ⟨.refl t, rfl, fun _ => rfl⟩
theorem SameStrand.issue (t : Strand) (x : Word) (i : Instr) (f : Info) (o : Nat) :
    SameStrand t (((t.endTests x).1).issueOf i f o) := by
  rw [t.endTests_eq x]; exact ⟨⟨rfl, rfl, rfl, rfl, rfl, rfl, rfl, rfl, rfl⟩, rfl, fun _ => rfl⟩

theorem SameUnits.trans {x y z : Core} (a : SameUnits x y) (b : SameUnits y z) : SameUnits x z :=
  ⟨fun q => (b.1 q).trans (a.1 q), b.2.trans a.2, b.3.trans a.3, b.4.trans a.4, b.5.trans a.5, b.6.trans a.6, b.7.trans a.7, b.8.trans a.8,
   b.9.trans a.9, b.10.trans a.10, b.11.trans a.11, b.12.trans a.12, b.13.trans a.13, b.14.trans a.14, b.15.trans a.15,
   b.16.trans a.16, b.17.trans a.17, b.18.trans a.18, b.19.trans a.19, b.20.trans a.20, b.21.trans a.21, b.22.trans a.22, b.23.trans a.23,
   b.24.trans a.24, b.25.trans a.25, b.26.trans a.26, b.27.trans a.27, b.28.trans a.28⟩
theorem SameUnits.refl (x : Core) : SameUnits x x := by constructor <;> first | rfl | exact fun _ => rfl

/-- What is true of the state after a word that goes on at `a`, whatever its rule did to `s'`. -/
structure FellAt (s s' t : State) (c : Nat) (k : StrandIx) (i : Instr) (n : Ann) (a : Word) : Prop where
  issued : Issued s t c k i n (s'.core c).took
  falls  : ContinuesAt (s'.str c k) t c k a
  strand : SameStrand (s'.str c k) (t.str c k)
  strands : ∀ j, j ≠ k → t.str c j = s'.str c j
  cores  : ∀ e, e ≠ c → t.core e = s'.core e
  memory : ∀ a, t.portRead a 1 = s'.portRead a 1
  units  : SameUnits (s'.core c) (t.core c)
  special : SameSpecial (s'.ctx c) (t.ctx c)
  pkg    : SamePackage s' t

abbrev Fell (s s' t : State) (c : Nat) (k : StrandIx) (i : Instr) (n : Ann) : Prop :=
  FellAt s s' t c k i n ((s'.str c k).pc + wordLen i)

theorem Quiet.fellAt {s s' t : State} {c : Nat} {k : StrandIx} {i : Instr} {n : Ann} {f : Info} {a : Word} (ht : f.t = n.t)
    (h : SamePlace s s' c k) (q : Quiet (s'.mapCore c (fun x => x.issueOf k i f a)) t c) : FellAt s s' t c k i n a := by
  have hc := q.core
  rw [State.core_mapCore_self] at hc
  have hs : ∀ j, t.str c j = ((s'.core c).issueOf k i f a).str j := fun j => hc.str j
  have hk := hs k
  rw [Core.issueOf_str] at hk
  have hu := ((s'.core c).issueOf_units k i f a).trans hc.units
  have hcs : ∀ e, e ≠ c → t.core e = s'.core e := fun e he => by rw [q.cores e he]; simp [he]
  have keep := fun r => ((s'.core c).str k).endTests_keeps a r
  refine ⟨⟨?_, ?_, ?_, ?_⟩, ?_, ?_, ?_, hcs, ?_, hu, ?_, ?_⟩
  · rw [hk]; show _ + 1 = _; rw [(keep 0).2.2.2.1]; exact congrArg (· + 1) h.ic
  · rw [hk]; rfl
  · rw [hc.took, Core.issueOf_took, ht]
  · rw [hk]
    refine ⟨_, List.mem_append_right _ (List.mem_singleton.2 rfl), h.nord, ?_, rfl⟩
    show _ + 1 = _; rw [(keep 0).2.2.2.1]; exact congrArg (· + 1) h.ic
  · rw [ContinuesAt, hk]; exact ⟨rfl, rfl, rfl⟩
  · rw [hk]; exact .issue _ _ i f _
  · intro j hj; rw [hs j, Core.issueOf_str_ne _ _ _ _ hj]; rfl
  · apply State.portRead_congr
    · intro a; rw [q.mem]; rfl
    · intro e a
      by_cases he : e = c
      · subst he; exact hu.scratch a
      · rw [hcs e he]
  · have := hc.special; rw [Core.issueOf_ctx] at this; exact this
  · exact (SamePackage.mapCore s' c (fun x => x.issueOf k i f a)).trans q.pkg

theorem commit_fall_spec (s s' : State) (c : Nat) (k : StrandIx) (i : Instr) (n : Ann) (f : Info) (ht : f.t = n.t)
    (h : SamePlace s s' c k) : Fell s s' (commit i f c k .fall s') c k i n := Quiet.fellAt ht h (.commit_fall i f c k s')

/-! ### The three shapes of a word that falls through -/

theorem SamePlace.mapStr (s : State) (c : Nat) (k : StrandIx) (f : Strand → Strand) (h : ∀ t, (f t).ic = t.ic) :
    SamePlace s (s.mapStr c k f) c k := by
  have := h (s.str c k); constructor <;> simp [*]

/-- A write of a register keeps everything of its strand but that register. -/
theorem Strand.put_keeps (t : Strand) (d : Reg) (v : Word) : ∃ g fr, t.put d v = { t with g := g, fresh := fr } := by
  unfold Strand.put Strand.setReg; split
  · exact ⟨t.g, _, rfl⟩
  · exact ⟨_, _, rfl⟩

/-- A frame from what a word that fell through leaves, where its rule left `s'`. -/
theorem FellAt.frame {s s' t : State} {c : Nat} {k : StrandIx} {i : Instr} {n : Ann} {u : Strand} {x : Core} {y : Ctx}
    {b : Word} (a : FellAt s s' t c k i n b) (h : SameStrandRest u (s'.str c k))
    (hs : ∀ j, j ≠ k → s'.str c j = s.str c j) (hc : ∀ e, e ≠ c → s'.core e = s.core e)
    (hm : ∀ b, s'.portRead b 1 = s.portRead b 1) (hu : SameUnits x (s'.core c)) (hy : SameSpecial y (s'.ctx c)) :
    Frame s t c k u x y :=
  ⟨a.strand.sst.trans h.sst, a.strand.sgn.trans h.sgn, ⟨a.strand.ls0.trans h.ls0, a.strand.ls1.trans h.ls1⟩,
   ⟨a.strand.le0.trans h.le0, a.strand.le1.trans h.le1⟩, a.strand.sb.trans h.sb,
   ⟨a.strand.running.trans h.running, a.strand.stopping.trans h.stopping⟩, fun j hj => (a.strands j hj).trans (hs j hj),
   fun e he => (a.cores e he).trans (hc e he), fun b => (a.memory b).trans (hm b), hu.trans a.units, hy.trans a.special⟩

theorem FellAt.rd {s s' t : State} {c : Nat} {k : StrandIx} {i : Instr} {n : Ann} {b : Word} (a : FellAt s s' t c k i n b) (r : Reg) :
    t.rd c k r = s'.rd c k r := a.strand.rd r

/-- The pending bits that `setPend` sets. -/
theorem Strand.pend_setPend (t : Strand) (rs : List Reg) (r : Reg) :
    (t.setPend rs).pend.getLsbD r.toNat = (t.pend.getLsbD r.toNat || (r != 0 && rs.contains r)) := by
  unfold Strand.setPend
  dsimp only
  generalize t.pend = p
  induction rs generalizing p with
  | nil => simp
  | cons a l ih =>
    rw [List.foldl_cons, ih]
    have hb : ∀ q : BitVec 32, (if a = 0 then q else q ||| 1#32 <<< a.toNat).getLsbD r.toNat
        = (q.getLsbD r.toNat || (r != 0 && r == a)) := by
      intro q
      by_cases ha : a = 0
      · subst ha; by_cases hr : r = 0 <;> simp [hr]
      · by_cases hr : r = a
        · subst hr
          have : r.toNat < 32 := r.isLt
          rw [if_neg ha]; simp [this]; exact .inr ha
        · have h2 : r.toNat ≠ a.toNat := fun h => hr (BitVec.eq_of_toNat_eq h)
          have h3 : (1#32 <<< a.toNat).getLsbD r.toNat = false := by
            simp only [BitVec.getLsbD_shiftLeft, BitVec.getLsbD_one]
            have : ¬ (r.toNat - a.toNat = 0 ∧ ¬ r.toNat < a.toNat) := by omega
            by_cases h : r.toNat < a.toNat
            · simp [h]
            · simp [h]; omega
          rw [if_neg ha, BitVec.getLsbD_or, h3]; simp [hr]
    rw [hb]
    rw [List.contains_cons]
    cases p.getLsbD r.toNat <;> cases (r != 0) <;> cases (r == a) <;> cases l.contains r <;> rfl

theorem Core.mapStr_units (x : Core) (k : StrandIx) (f : Strand → Strand) : SameUnits x (x.mapStr k f) := by
  cases k <;> (constructor <;> first | rfl | exact fun _ => rfl)

/-- A change of one strand leaves memory and scratchpads as they read. -/
theorem State.portRead_mapStr (s : State) (c : Nat) (k : StrandIx) (f : Strand → Strand) (a : Nat) :
    (s.mapStr c k f).portRead a 1 = s.portRead a 1 := by
  apply State.portRead_congr
  · exact fun _ => rfl
  · intro e b; by_cases h : e = c
    · subst h; simp
    · simp [h]

/-- A ready word whose rule writes one register in this cycle. -/
theorem Ready.writesReg {s : State} {c : Nat} {k : StrandIx} {i : Instr} {n : Ann} {who : List StrandIx} {rs ds : List Reg} {f : Info}
    {body : Nat → StrandIx → State → Act} {d : Reg} {v : Word} (h : Ready s c k i n who rs ds) (hf : Fits f s c k i n who rs ds)
    (hb : body c k s = .go (s.put c k d v) .fall) (he : exec i s = issue i f body s) : WritesReg i n s c k d v := by
  have hic : ∀ t : Strand, (t.put d v).ic = t.ic := fun t => by obtain ⟨g, fr, e⟩ := t.put_keeps d v; rw [e]
  have a := commit_fall_spec s (s.put c k d v) c k i n f hf.t (.mapStr s c k _ hic)
  have e : (s.put c k d v).str c k = (s.str c k).put d v := State.str_mapStr_self s c k _
  obtain ⟨g, fr, hp⟩ := (s.str c k).put_keeps d v
  have hx := a.falls
  rw [e, hp] at hx
  have hw : ((s.put c k d v).core c).took = (s.core c).took := by simp [State.put]
  refine ⟨_, he.trans (h.go hf hb), hw ▸ a.issued, ?_, ?_, ?_, ?_, ?_, ?_⟩
  · rw [ContinuesAt] at hx; rw [FallsThrough, ContinuesAt]; rw [Strand.endTests_regs] at hx; exact hx
  · rw [Holds, a.rd]; simp only [State.put, State.rd, State.str_mapStr_self, Strand.rd_put, if_pos]
  · intro r hr
    have : r ≠ d := fun e => hr (e ▸ List.mem_singleton.2 rfl)
    rw [a.rd]; simp only [State.put, State.rd, State.str_mapStr_self, Strand.rd_put, if_neg this]
  · intro r; rw [a.strand.pend, e, hp]; simp
  · refine a.frame ?_ ?_ ?_ ?_ ?_ ?_
    · rw [e, hp]; constructor <;> rfl
    · intro j hj; simp [State.put, hj]
    · intro e he; simp [State.put, he]
    · exact s.portRead_mapStr c k _
    · rw [State.put, State.core_mapStr_self]; exact Core.mapStr_units _ _ _
    · simpa [State.put] using SameSpecial.refl _
  · exact (SamePackage.mapStr s c k _).trans a.pkg

/-- An operation added to a core changes no strand, no scratchpad and no other core. -/
@[simp] theorem State.str_addOp (s : State) (c e : Nat) (o : Op) (j : StrandIx) : (s.addOp c o).str e j = s.str e j := by
  by_cases h : e = c
  · subst h; cases j <;> simp [State.addOp, State.str, Core.str]
  · simp [State.addOp, State.str, h]
@[simp] theorem State.core_addOp_self (s : State) (c : Nat) (o : Op) :
    (s.addOp c o).core c = { s.core c with ops := (s.core c).ops ++ [o] } := by simp [State.addOp]
@[simp] theorem State.core_addOp_ne (s : State) {c e : Nat} (o : Op) (h : e ≠ c) : (s.addOp c o).core e = s.core e := by
  simp [State.addOp, h]
@[simp] theorem State.ctx_addOp (s : State) (c e : Nat) (o : Op) : (s.addOp c o).ctx e = s.ctx e := by
  by_cases h : e = c
  · subst h; simp [State.ctx]
  · simp [State.ctx, h]
theorem State.portRead_addOp (s : State) (c : Nat) (o : Op) (a : Nat) : (s.addOp c o).portRead a 1 = s.portRead a 1 := by
  apply State.portRead_congr
  · exact fun _ => rfl
  · intro e b; by_cases h : e = c
    · subst h; simp
    · simp [h]

/-- A ready word whose rule puts an operation in flight, with pending bits of its strand. -/
theorem Ready.startsOp {s : State} {c : Nat} {k : StrandIx} {i : Instr} {n : Ann} {who : List StrandIx} {rs ds : List Reg} {f : Info}
    {body : Nat → StrandIx → State → Act} {o : Op} {ps : List Reg} (h : Ready s c k i n who rs ds) (hf : Fits f s c k i n who rs ds)
    (hb : body c k s = .go ((s.addOp c o).mapStr c k (·.setPend ps)) .fall) (he : exec i s = issue i f body s) (hps : ps = exposedOf o.body) :
    StartsOp i n s c k o := by
  have p : SamePlace s ((s.addOp c o).mapStr c k (·.setPend ps)) c k := by
    constructor <;> simp [Strand.setPend]
  have a := commit_fall_spec s _ c k i n f hf.t p
  have hx := a.falls
  rw [State.str_mapStr_self, State.str_addOp] at hx
  have hw : (((s.addOp c o).mapStr c k (·.setPend ps)).core c).took = (s.core c).took := by simp
  refine ⟨_, he.trans (h.go hf hb), hw ▸ a.issued, ?_, ?_, ?_, ?_, ?_⟩
  · rw [ContinuesAt] at hx; rw [FallsThrough, ContinuesAt]; rw [Strand.setPend, Strand.endTests_pend] at hx; exact hx
  · intro r _; rw [a.rd, State.rd, State.str_mapStr_self, State.str_addOp]; rfl
  · intro r; rw [a.strand.pend, State.str_mapStr_self, State.str_addOp, ← hps]; exact Strand.pend_setPend _ _ r
  · refine a.frame ?_ ?_ ?_ ?_ ?_ ?_
    · rw [State.str_mapStr_self, State.str_addOp]; constructor <;> rfl
    · intro j hj; simp [hj]
    · intro e he; simp [he]
    · intro q; rw [State.portRead_mapStr, State.portRead_addOp]
    · rw [State.core_mapStr_self, State.core_addOp_self]; exact Core.mapStr_units _ _ _
    · simpa using SameSpecial.refl _
  · exact ((SamePackage.mapCore s c _).trans (.mapStr _ c k _)).trans a.pkg

/-- A ready word whose rule leaves its strand, core and context as `u`, `x` and `y`, and every register as it was. -/
theorem Ready.leaves {s s' : State} {c : Nat} {k : StrandIx} {i : Instr} {n : Ann} {who : List StrandIx} {rs ds : List Reg} {f : Info}
    {body : Nat → StrandIx → State → Act} {u : Strand} {x : Core} {y : Ctx} (h : Ready s c k i n who rs ds)
    (hf : Fits f s c k i n who rs ds) (hb : body c k s = .go s' .fall) (he : exec i s = issue i f body s)
    (hk : s'.str c k = u) (hic : u.ic = (s.str c k).ic) (hrd : ∀ r, u.rd r = (s.str c k).rd r) (hpd : u.pend = (s.str c k).pend)
    (hs : ∀ j, j ≠ k → s'.str c j = s.str c j) (ht : (s'.core c).took = x.took) (hn : (s'.core c).nord = (s.core c).nord)
    (hu : SameUnits x (s'.core c)) (hy : SameSpecial y (s'.ctx c)) (hc : ∀ e, e ≠ c → s'.core e = s.core e)
    (hm : ∀ a, s'.portRead a 1 = s.portRead a 1) (hp : SamePackage s s') : Leaves i n s c k u x y := by
  have a := commit_fall_spec s s' c k i n f hf.t ⟨by rw [hk, hic], hn⟩
  refine ⟨_, he.trans (h.go hf hb), ht ▸ a.issued, hk ▸ a.falls, ?_, ?_, ?_, hp.trans a.pkg⟩
  · intro r _; rw [a.rd, State.rd, hk, hrd]; rfl
  · intro r; rw [a.strand.pend, hk, hpd]; simp
  · exact a.frame (hk ▸ .refl _) hs hc hm hu hy

/-- A ready word whose rule leaves its core and context as `x` and `y` and every strand as it was. -/
theorem Ready.leavesCore {s s' : State} {c : Nat} {k : StrandIx} {i : Instr} {n : Ann} {who : List StrandIx} {rs ds : List Reg} {f : Info}
    {body : Nat → StrandIx → State → Act} {x : Core} {y : Ctx} (h : Ready s c k i n who rs ds) (hf : Fits f s c k i n who rs ds)
    (hb : body c k s = .go s' .fall) (he : exec i s = issue i f body s) (hs : ∀ j, s'.str c j = s.str c j)
    (ht : (s'.core c).took = x.took) (hn : (s'.core c).nord = (s.core c).nord)
    (hu : SameUnits x (s'.core c)) (hy : SameSpecial y (s'.ctx c)) (hc : ∀ e, e ≠ c → s'.core e = s.core e)
    (hm : ∀ a, s'.portRead a 1 = s.portRead a 1) (hp : SamePackage s s') : LeavesCore i n s c k x y :=
  h.leaves hf hb he (hs k) rfl (fun _ => rfl) rfl (fun j _ => hs j) ht hn hu hy hc hm hp

/-- A ready word whose rule puts an operation in flight that writes no exposed register. -/
theorem Ready.startsHeld {s : State} {c : Nat} {k : StrandIx} {i : Instr} {n : Ann} {who : List StrandIx} {rs ds : List Reg} {f : Info}
    {body : Nat → StrandIx → State → Act} {o : Op} (h : Ready s c k i n who rs ds) (hf : Fits f s c k i n who rs ds)
    (hb : body c k s = .go (s.addOp c o) .fall) (he : exec i s = issue i f body s) (ho : exposedOf o.body = []) :
    StartsOp i n s c k o := by
  have a : LeavesCore i n s c k { s.core c with ops := (s.core c).ops ++ [o] } (s.ctx c) :=
    h.leavesCore hf hb he (fun j => s.str_addOp c c o j) (by simp) (by simp) (by rw [State.core_addOp_self]; exact .refl _)
      (by rw [State.ctx_addOp]; exact .refl _) (fun e he => s.core_addOp_ne o he) (s.portRead_addOp c o) (.mapCore s c _)
  obtain ⟨t, h1, h2, h3, h4, h5, h6⟩ := a
  exact ⟨t, h1, h2, h3, h4, ho ▸ h5, h6⟩

/-- A ready word that skips to `a`, its strand left as `u`. -/
theorem Ready.skips {s : State} {c : Nat} {k : StrandIx} {i : Instr} {n : Ann} {who : List StrandIx} {rs ds : List Reg} {f : Info}
    {body : Nat → StrandIx → State → Act} {g : Strand → Strand} {a : Word} (h : Ready s c k i n who rs ds)
    (hf : Fits f s c k i n who rs ds) (hb : body c k s = .go (s.mapStr c k g) (.skip a)) (he : exec i s = issue i f body s)
    (hg : ∀ t, (g t).ic = t.ic ∧ (g t).pend = t.pend ∧ ∀ r, (g t).rd r = t.rd r) : Skips i n s c k (g (s.str c k)) a := by
  let w : Strand → Strand := fun u => { u with fwait := 2 }
  let t1 := (s.mapStr c k g).mapCore c (fun x => x.issueOf k i f a)
  have a1 : FellAt s (s.mapStr c k g) t1 c k i n a := Quiet.fellAt hf.t (.mapStr s c k g fun t => (hg t).1) (.refl _ c)
  have z := Quiet.commit_skip i f c k (s.mapStr c k g) a
  have zs : ∀ j, (commit i f c k (.skip a) (s.mapStr c k g)).str c j = (t1.mapStr c k w).str c j := fun j => z.core.str j
  have zk := zs k
  rw [State.str_mapStr_self] at zk
  have ek : (s.mapStr c k g).str c k = g (s.str c k) := State.str_mapStr_self s c k g
  have hcs : ∀ e, e ≠ c → (commit i f c k (.skip a) (s.mapStr c k g)).core e = s.core e := fun e he => by
    rw [z.cores e he, State.core_mapStr_ne _ _ _ he, State.core_mapCore_ne _ _ he, State.core_mapStr_ne _ _ _ he]
  have hu : SameUnits (s.core c) ((commit i f c k (.skip a) (s.mapStr c k g)).core c) := by
    refine SameUnits.trans ?_ z.core.units
    rw [State.core_mapStr_self]
    refine SameUnits.trans ?_ (Core.mapStr_units _ _ _)
    refine SameUnits.trans ?_ a1.units
    rw [State.core_mapStr_self]; exact Core.mapStr_units _ _ _
  refine ⟨_, he.trans (h.go hf hb), ⟨?_, ?_, ?_, ?_⟩, ?_, ?_, ?_, ?_, ⟨?_, ?_, ?_, ?_, ?_, ?_, ?_, hcs, ?_, hu, ?_⟩, ?_⟩
  · rw [zk]; exact a1.issued.count
  · rw [zk]; exact a1.issued.once
  · rw [z.core.took, State.core_mapStr_self, Core.mapStr_took, a1.issued.takes]; simp
  · rw [zk]; exact a1.issued.retires
  · rw [ContinuesAt, zk, ← ek]; exact a1.falls
  · rw [zk]
  · intro r _; rw [State.rd, zk]; show (t1.str c k).rd r = _; rw [a1.strand.rd, ek, (hg _).2.2]; rfl
  · intro r; rw [zk]; show (t1.str c k).pend.getLsbD _ = _; rw [a1.strand.pend, ek, (hg _).2.1]; simp
  · rw [zk, ← ek]; exact a1.strand.sst
  · rw [zk, ← ek]; exact a1.strand.sgn
  · rw [zk, ← ek]; exact ⟨a1.strand.ls0, a1.strand.ls1⟩
  · rw [zk, ← ek]; exact ⟨a1.strand.le0, a1.strand.le1⟩
  · rw [zk, ← ek]; exact a1.strand.sb
  · rw [zk, ← ek]; exact ⟨a1.strand.running, a1.strand.stopping⟩
  · intro j hj; rw [zs j, State.str_mapStr_ne _ _ _ hj, a1.strands j hj, State.str_mapStr_ne _ _ _ hj]
  · apply State.portRead_congr
    · intro a; rw [z.mem]; rfl
    · intro e a
      by_cases he : e = c
      · subst he; exact hu.scratch a
      · rw [hcs e he]
  · have hx := z.core.special
    rw [State.core_mapStr_self, Core.mapStr_ctx, State.core_mapCore_self, Core.issueOf_ctx, State.core_mapStr_self, Core.mapStr_ctx] at hx
    exact hx
  · exact (((SamePackage.mapStr s c k g).trans (.mapCore _ c _)).trans (.mapStr _ c k w)).trans z.pkg

/-! ### A word that jumps -/

/-- The core right after the issue of a word that jumps to `x`. -/
def Core.issueTo (x : Core) (k : StrandIx) (i : Instr) (f : Info) (p : Word) (w : Nat) : Core :=
  ({ x with took := (takesOf k f.t).foldl bump x.took, nord := x.nord + 1 } : Core).mapStr k (fun t =>
    { t.issueOf i f x.nord with pc := p, fwait := if p = 0 then 0 else w + 1, exiting := t.exiting || p = 0 })

theorem Quiet.commit_jump (i : Instr) (f : Info) (c : Nat) (k : StrandIx) (s : State) (p : Word) (w : Nat) (jr : Bool) :
    Quiet (s.mapCore c (fun x => x.issueTo k i f p w)) (commit i f c k (.jump p w jr) s) c := by
  let u := s.mapCore c (fun x =>
    ({ x with took := (takesOf k f.t).foldl bump x.took, nord := x.nord + 1 } : Core).mapStr k (fun t => t.issueOf i f x.nord))
  let g : Strand → Strand := fun t => { t with pc := p, fwait := if p = 0 then 0 else w + 1, exiting := t.exiting || p = 0 }
  have e : Quiet (s.mapCore c (fun x => x.issueTo k i f p w)) (u.mapStr c k g) c := by
    refine ⟨?_, fun e he => by simp [u, he], by constructor <;> first | rfl | exact fun _ _ => ⟨_, rfl⟩, rfl⟩
    have : (u.mapStr c k g).core c = (s.mapCore c (fun x => x.issueTo k i f p w)).core c := by
      simp only [State.core_mapStr_self, State.core_mapCore_self, u, Core.issueTo]
      cases k <;> rfl
    rw [this]; exact .refl _
  have h : Quiet u (if jr then (u.trace c k 1 (u.str c k).pc (if jr then 1 else 0)).trace c k 6 p 0
      else u.trace c k 1 (u.str c k).pc (if jr then 1 else 0)) c := by
    split
    · exact (Quiet.trace _ c k _ _ _).trans (.trace _ c k _ _ _)
    · exact .trace _ c k _ _ _
  exact e.trans (h.mapStr k g)

/-- At most one register written. -/
def State.putOpt (s : State) (c : Nat) (k : StrandIx) : Option (Reg × Word) → State
  | some e => s.put c k e.1 e.2
  | none => s
def Strand.putOpt (t : Strand) : Option (Reg × Word) → Strand
  | some e => t.put e.1 e.2
  | none => t
def Strand.rdOpt (t : Strand) (r : Reg) : Option (Reg × Word) → Word
  | some e => if r = e.1 then (if e.1 = 0 then 0 else e.2) else t.rd r
  | none => t.rd r

/-- A ready word that jumps, having written at most one register. -/
theorem Ready.jumps {s s' : State} {c : Nat} {k : StrandIx} {i : Instr} {n : Ann} {who : List StrandIx} {rs ds : List Reg} {f : Info}
    {body : Nat → StrandIx → State → Act} {x : Word} {w : Nat} {jr : Bool} (d : Option (Reg × Word)) (h : Ready s c k i n who rs ds)
    (hf : Fits f s c k i n who rs ds) (hb : body c k s = .go s' (.jump x w jr)) (he : exec i s = issue i f body s)
    (hd : s' = s.putOpt c k d) : Jumps i n s c k x w d := by
  have q := Quiet.commit_jump i f c k s' x w jr
  have hc := q.core
  rw [State.core_mapCore_self] at hc
  have hs : ∀ j, (commit i f c k (.jump x w jr) s').str c j = ((s'.core c).issueTo k i f x w).str j := fun j => hc.str j
  have hk := hs k
  have hr : ∀ r, s'.rd c k r = (s.str c k).rdOpt r d := by
    subst hd; cases d
    · exact fun _ => rfl
    · intro r; simp only [State.putOpt, State.put, State.rd, State.str_mapStr_self, Strand.rd_put, Strand.rdOpt]
  have hstr : s'.str c k = (s.str c k).putOpt d := by
    subst hd; cases d
    · rfl
    · exact State.str_mapStr_self s c k _
  have kp : ∃ g fr, s'.str c k = { s.str c k with g := g, fresh := fr } := by
    rw [hstr]; cases d
    · exact ⟨_, _, rfl⟩
    · exact Strand.put_keeps _ _ _
  obtain ⟨g, fr, kp⟩ := kp
  have pl : SamePlace s s' c k := by
    refine ⟨by rw [kp], ?_⟩; subst hd; cases d <;> simp [State.putOpt, State.put]
  have tk : (s'.core c).took = (s.core c).took := by subst hd; cases d <;> simp [State.putOpt, State.put]
  have st : (s'.str c k).sst = (s.str c k).sst ∧ (s'.str c k).sgn = (s.str c k).sgn ∧ (s'.str c k).sb = (s.str c k).sb
      ∧ (s'.str c k).running = (s.str c k).running ∧ (s'.str c k).stopping = (s.str c k).stopping
      ∧ (s'.str c k).pend = (s.str c k).pend ∧ (s'.str c k).exiting = (s.str c k).exiting := by
    rw [kp]; exact ⟨rfl, rfl, rfl, rfl, rfl, rfl, rfl⟩
  have sl : (s'.str c k).lc0 = (s.str c k).lc0 ∧ (s'.str c k).lc1 = (s.str c k).lc1 ∧ (s'.str c k).ls0 = (s.str c k).ls0
      ∧ (s'.str c k).ls1 = (s.str c k).ls1 ∧ (s'.str c k).le0 = (s.str c k).le0 ∧ (s'.str c k).le1 = (s.str c k).le1 := by
    rw [kp]; exact ⟨rfl, rfl, rfl, rfl, rfl, rfl⟩
  have it : ((s'.core c).issueTo k i f x w).str k = { (s'.str c k).issueOf i f (s'.core c).nord with
      pc := x, fwait := if x = 0 then 0 else w + 1, exiting := (s'.str c k).exiting || x = 0 } := by cases k <;> rfl
  rw [it] at hk
  have sn : ∀ j, j ≠ k → ((s'.core c).issueTo k i f x w).str j = s.str c j := by
    intro j hj
    have : ((s'.core c).issueTo k i f x w).str j = s'.str c j := by
      cases k <;> cases j <;> first | rfl | exact absurd rfl hj
    rw [this]; subst hd; cases d
    · rfl
    · simp [State.putOpt, State.put, hj]
  have uc : SameUnits (s.core c) (s'.core c) := by
    subst hd; cases d
    · exact .refl _
    · rw [State.putOpt, State.put, State.core_mapStr_self]; exact Core.mapStr_units _ _ _
  have ui : SameUnits (s'.core c) ((s'.core c).issueTo k i f x w) := by cases k <;> (constructor <;> first | rfl | exact fun _ => rfl)
  have hce : ∀ e, e ≠ c → (commit i f c k (.jump x w jr) s').core e = s.core e := by
    intro e he
    rw [q.cores e he, State.core_mapCore_ne _ _ he]; subst hd; cases d
    · rfl
    · simp [State.putOpt, State.put, he]
  have hmem : s'.mem = s.mem := by subst hd; cases d <;> rfl
  have hpk : SamePackage s s' := by
    subst hd; cases d
    · exact .refl s
    · exact .mapStr s c k _
  refine ⟨_, he.trans (h.go hf hb), ⟨?_, ?_, ?_, ?_⟩, ?_, ?_, ?_, ?_, ?_, ?_, ?_, ?_, ⟨?_, ?_, ?_, ?_, ?_, ?_, ?_, hce, ?_, ?_, ?_⟩, ?_⟩
  · rw [hk]; exact congrArg (· + 1) pl.ic
  · rw [hk]; rfl
  · rw [hc.took]; have : ((s'.core c).issueTo k i f x w).took = (takesOf k f.t).foldl bump (s'.core c).took := by cases k <;> rfl
    rw [this, hf.t, tk]
  · rw [hk]
    exact ⟨_, List.mem_append_right _ (List.mem_singleton.2 rfl), pl.nord, congrArg (· + 1) pl.ic, rfl⟩
  · rw [hk]
  · rw [hk]; exact sl.1
  · rw [hk]; exact sl.2.1
  · rw [hk]
  · rw [hk]; show (_ || _) = _; rw [st.2.2.2.2.2.2]
  · intro e hed
    rw [Option.mem_def] at hed; subst hed
    have : (commit i f c k (.jump x w jr) s').rd c k e.1 = s'.rd c k e.1 := by rw [State.rd, hk]; rfl
    rw [Holds, this, hr, Strand.rdOpt, if_pos rfl]
  · intro r hrn
    have : (commit i f c k (.jump x w jr) s').rd c k r = s'.rd c k r := by rw [State.rd, hk]; rfl
    rw [this, hr]; cases d with
    | none => rfl
    | some e =>
      have : r ≠ e.1 := fun h => hrn (by rw [h]; exact List.mem_singleton.2 rfl)
      rw [Strand.rdOpt, if_neg this]; rfl
  · intro r; rw [hk]; show (s'.str c k).pend.getLsbD _ = _; rw [st.2.2.2.2.2.1]; simp
  · rw [hk]; exact st.1
  · rw [hk]; exact st.2.1
  · rw [hk]; exact ⟨sl.2.2.1, sl.2.2.2.1⟩
  · rw [hk]; exact ⟨sl.2.2.2.2.1, sl.2.2.2.2.2⟩
  · rw [hk]; exact st.2.2.1
  · rw [hk]; exact ⟨st.2.2.2.1, st.2.2.2.2.1⟩
  · intro j hj; rw [hs j, sn j hj]
  · apply State.portRead_congr
    · intro a; rw [q.mem, State.mapCore_mem, hmem]
    · intro e a
      by_cases he : e = c
      · subst he; exact ((uc.trans ui).trans hc.units).scratch a
      · rw [hce e he]
  · exact (uc.trans ui).trans hc.units
  · have hx := hc.special
    have e1 : ((s'.core c).issueTo k i f x w).ctx = (s.core c).ctx := by
      have : ((s'.core c).issueTo k i f x w).ctx = (s'.core c).ctx := by cases k <;> rfl
      rw [this]; subst hd; cases d
      · rfl
      · simp [State.putOpt, State.put]
    rw [e1] at hx; exact hx
  · exact (hpk.trans (.mapCore s' c _)).trans q.pkg

/-- A ready word whose own rule finds a fault does not issue. -/
theorem Ready.raises {s : State} {c : Nat} {k : StrandIx} {i : Instr} {n : Ann} {who : List StrandIx} {rs ds : List Reg} {f : Info}
    {body : Nat → StrandIx → State → Act} {code : Nat} {v : Word} (h : Ready s c k i n who rs ds) (hf : Fits f s c k i n who rs ds)
    (hb : body c k s = .fault s code v) (he : exec i s = issue i f body s) : Raises i s c k code v := by
  rw [Raises, he]; exact h.fails hf hb

/-- A word without checks does what follows. -/
theorem firstFault_nil (fault : Nat → Word → Prop) (pass : Prop) : FirstFault [] fault pass ↔ pass := by
  constructor
  · exact fun h => h.2 (by simp)
  · exact fun h => ⟨fun p e q hl => by simp at hl, fun _ => h⟩

/-- The first check decides, or the rest. -/
theorem firstFault_cons (e : Prop × Nat × Word) (l : List (Prop × Nat × Word)) (fault : Nat → Word → Prop) (pass : Prop) :
    FirstFault (e :: l) fault pass ↔ (¬ e.1 → fault e.2.1 e.2.2) ∧ (e.1 → FirstFault l fault pass) := by
  constructor
  · refine fun h => ⟨fun he => h.1 [] e l rfl (by simp) he, fun he => ⟨fun p f q hl hp hf => h.1 (e :: p) f q (by rw [hl]; rfl) ?_ hf,
      fun hl => h.2 (by simpa [he] using hl)⟩⟩
    simpa [he] using hp
  · rintro ⟨h1, h2⟩
    refine ⟨fun p f q hl hp hf => ?_, fun hl => (h2 (hl e (by simp))).2 fun f hf => hl f (by simp [hf])⟩
    cases p with
    | nil =>
      simp only [List.nil_append, List.cons.injEq] at hl
      obtain ⟨rfl, rfl⟩ := hl
      exact h1 hf
    | cons a p =>
      simp only [List.cons_append, List.cons.injEq] at hl
      obtain ⟨rfl, rfl⟩ := hl
      exact (h2 (hp e (by simp))).1 p f q rfl (fun g hg => hp g (by simp [hg])) hf

end Sys2Proof.Machine
end

