-- ==== Sys2Proof/Laws/Memory.lean ====
section
/-!
SUPPORT. Every operation that writes memory keeps its canonical form, and a write with byte enables changes the enabled bytes alone.
-/

namespace Sys2Proof.Machine

/-- Memory at package reset lists nothing. -/
theorem reset_mem_wf : Memory.wf State.reset.mem := Tab.wf_nil 0

/-- A write with byte enables keeps the canonical form. -/
theorem writeEn_wf (bs : List (Option Byte)) : ∀ (m : List Host.Cell) (x : Nat), Memory.wf m → Memory.wf (writeEn m x bs) := by
  induction bs with
  | nil => exact fun m x h => h
  | cons b bs ih => cases b with
    | none => exact fun m x h => ih m (x + 1) h
    | some b => exact fun m x h => ih _ (x + 1) (Tab.wf_set x b h)

/-- Below its first byte, a write with byte enables changes nothing. -/
theorem writeEn_get_below (bs : List (Option Byte)) : ∀ (m : List Host.Cell) (x a : Nat), a < x → Tab.get 0 (writeEn m x bs) a = Tab.get 0 m a := by
  induction bs with
  | nil => exact fun m x a _ => rfl
  | cons b bs ih =>
    intro m x a h
    cases b with
    | none => exact ih m (x + 1) a (by omega)
    | some b => rw [writeEn, ih _ (x + 1) a (by omega), Tab.get_set_ne 0 m b (by omega)]

/-- What a byte reads as after a write with byte enables: the byte written to it, or what it read as before. -/
theorem writeEn_get (bs : List (Option Byte)) : ∀ (m : List Host.Cell) (x a : Nat), x ≤ a →
    Tab.get 0 (writeEn m x bs) a = (bs.getD (a - x) none).getD (Tab.get 0 m a) := by
  induction bs with
  | nil => intro m x a _; simp [writeEn]
  | cons b bs ih =>
    intro m x a h
    rcases Nat.eq_or_lt_of_le h with rfl | h
    · cases b with
      | none => rw [writeEn, writeEn_get_below bs m (x + 1) x (by omega), Nat.sub_self]; rfl
      | some b => rw [writeEn, writeEn_get_below bs _ (x + 1) x (by omega), Nat.sub_self, Tab.get_set_self]; rfl
    · have e : a - x = a - (x + 1) + 1 := by omega
      cases b with
      | none => rw [writeEn, ih m (x + 1) a (by omega), e, List.getD_cons_succ]
      | some b => rw [writeEn, ih _ (x + 1) a (by omega), e, List.getD_cons_succ, Tab.get_set_ne 0 m b (by omega)]

/-- Meeting watchpoints writes no memory. -/
@[simp] theorem hitOne_mem (wr : Writer) (ix : List Nat) (s : State) (a : Armed) : (hitOne wr ix s a).mem = s.mem := by
  unfold hitOne State.mapTask
  split
  · rfl
  · split <;> rfl

theorem hitAll_mem (wr : Writer) (ix : List Nat) (l : List Armed) : ∀ s : State, (l.foldl (hitOne wr ix) s).mem = s.mem := by
  induction l with
  | nil => exact fun s => rfl
  | cons a l ih => exact fun s => (ih _).trans (hitOne_mem wr ix s a)

/-- What a write at a home port does to memory: nothing in an aperture, and elsewhere the enabled bytes. -/
theorem portWrite_mem (s : State) (wr : Writer) (pa : Nat) (bs : List (Option Byte)) :
    (s.portWrite wr pa bs).mem = s.mem ∨ (s.portWrite wr pa bs).mem = writeEn s.mem pa bs := by
  unfold State.portWrite
  dsimp only
  split
  · exact .inl rfl
  · split
    · exact .inl rfl
    · right
      rw [hitAll_mem]
      split <;> rfl

theorem portWrite_memOk (s : State) (wr : Writer) (pa : Nat) (bs : List (Option Byte)) (h : Memory.wf s.mem) :
    Memory.wf (s.portWrite wr pa bs).mem := by
  rcases portWrite_mem s wr pa bs with e | e <;> rw [e]
  · exact h
  · exact writeEn_wf bs _ pa h

theorem devGranule_memOk (c : Nat) (s : State) (e : Nat × List (Option Byte)) (h : Memory.wf s.mem) : Memory.wf (devGranule c s e).mem := by
  unfold devGranule
  dsimp only
  split
  · exact h
  · exact portWrite_memOk s _ _ _ h

theorem devGranules_memOk (c : Nat) : ∀ (l : List (Nat × List (Option Byte))) (s : State), Memory.wf s.mem →
    Memory.wf (l.foldl (devGranule c) s).mem
  | [], _, h => h
  | e :: l, s, h => devGranules_memOk c l _ (devGranule_memOk c s e h)

/-- The device's own writes keep the canonical form. -/
theorem devWriteF_memOk (c : Nat) : ∀ (n : Nat) (s : State) (va : Word) (bs : List Byte), Memory.wf s.mem → Memory.wf (devWriteF s c n va bs).mem := by
  intro n
  induction n with
  | zero => exact fun s va bs h => h
  | succ n ih =>
    intro s va bs h
    unfold devWriteF
    dsimp only
    split
    · exact h
    · refine ih _ _ _ ?_
      split
      · exact devGranules_memOk c _ s h
      · exact h

theorem devWrite_memOk (s : State) (c : Nat) (va : Word) (bs : List Byte) (h : Memory.wf s.mem) : Memory.wf (devWrite s c va bs).mem :=
  devWriteF_memOk c _ s va bs h

/-- Zeroing a die's SDM slices keeps the canonical form. -/
theorem zeroSdm_memOk (s : State) (d : Nat) (h : Memory.wf s.mem) : Memory.wf (zeroSdm s d).mem := Tab.wf_filter _ h

/-- Package reset keeps what memory holds. -/
theorem resetPackage_mem (r : List Byte) (s : State) : (resetPackage r s).mem = s.mem := by
  unfold resetPackage
  dsimp only
  split <;> rfl

theorem oneLeaf_wf (m : List Host.Cell) (h : Memory.wf m) : Memory.wf (oneLeaf m) := writeBytes_wf _ _ _ (writeBytes_wf _ _ _ h)

/-- Placing a word to be fetched keeps the canonical form. -/
theorem withFetchWord_memOk (s : State) (n w : Nat) (h : Memory.wf s.mem) : Memory.wf (s.withFetchWord n w).mem := by
  unfold State.withFetchWord
  dsimp only
  split
  · exact h
  · exact writeBytes_wf _ _ _ (oneLeaf_wf _ h)

end Sys2Proof.Machine
end

