-- ==== Sys2Proof/Tests/Slice0.lean ====
section
/-!
SUPPORT. Tests of decoding, of well-formedness and of single steps, with expected results from the worked encodings and the rules of
the spec, and for every statement with hypotheses a state and operands that meet them.
-/

namespace Sys2Proof.Tests

open Sys2Proof Sys2Proof.Machine

set_option Elab.async false

/-! ### States of one core at work -/

/-- No annotation. -/
def a0 : Ann := ⟨false, 0⟩

/-- Core 0 runs a task with a region of 1 MiB on one strand with the registers `g`; the turn is that strand's, and the core has
another turn after it. -/
def one (k : StrandIx) (g : Tab Word) (f : Core → Core := id) (y : Ctx := {}) : State :=
  ({ State.reset with agenda := [.issue 0 k, .issue 0 k] } : State).setCore 0
    (f ((({ ctx := some { y with task := 1, scrsize := 2 ^ 20 } } : Core)).setStr k
      { pc := 0x1000, g := g, started := true, running := true }))

/-- The next state; the state itself where there is none. -/
def run (i : Instr) (s : State) : State := match exec i s with
  | .next t => t
  | _ => s

/-- The state after the turn at the head of the agenda. -/
def turned (s : State) : State := match runTurn s with
  | .next t => t
  | _ => s

/-- The state in which an event is the turn, with another turn of core 0 after it. -/
def ev (i : Instr) (s : State) : State := { s with agenda := [.event 0 .s 0 i, .issue 0 .s] }

/-- The turn of an event of core 0 that names strand `k` and place `j`. -/
def evAt (k : StrandIx) (j : Nat) (i : Instr) (s : State) : State := { s with agenda := [.event 0 k j i, .issue 0 .s] }

theorem turns (i : Instr) (s : State) : Turns (ev i s) i [.issue 0 .s] := ⟨0, .s, 0, rfl⟩

/-- Ready, as a computation. -/
def readyB (s : State) (c : Nat) (k : StrandIx) (i : Instr) (n : Ann) (who : List StrandIx) (reads dst : List Reg) : Bool :=
  s.agenda.head? == some (.issue c k) && fieldReason i == none && who.contains k && (k != .s || n.t == 0)
  && (pendingRead (s.str c k) reads).isNone && (reads ++ dst).all (fun r => !(s.core c).marked k r)
  && (takesOf k n.t).all (fun f => (s.core c).canTake n.y k f) && (n.t &&& 3 == 0 || (s.core c).records < 64)
  && (!n.y || (s.str c k).ygo || (s.core c).alone k)

theorem readyB_ready {s : State} {c : Nat} {k : StrandIx} {i : Instr} {n : Ann} {who : List StrandIx} {reads dst : List Reg}
    (h : readyB s c k i n who reads dst = true) : Ready s c k i n who reads dst := by
  simp only [readyB, Bool.and_eq_true, beq_iff_eq, Bool.or_eq_true, bne_iff_ne, ne_eq, List.contains_iff_mem, List.all_eq_true,
    Bool.not_eq_true', Option.isNone_iff_eq_none, decide_eq_true_eq] at h
  obtain ⟨⟨⟨⟨⟨⟨⟨⟨ht, hf⟩, hw⟩, hk⟩, hp⟩, hu⟩, hc⟩, hr⟩, hy⟩ := h
  refine ⟨?_, hf, hw, ?_, hp, hu, hc, ?_, ?_⟩
  · cases hs : s.agenda with
    | nil => simp [hs] at ht
    | cons a t => simp [hs] at ht; exact ⟨t, by rw [ht]⟩
  · intro h; simpa [h] using hk
  · intro h; exact hr.resolve_left h
  · intro h; simpa [h] using hy

/-- Ready, for each word of a list. -/
theorem all_ready {s : State} {c : Nat} {k : StrandIx} {n : Ann} {who : List StrandIx} {reads dst : List Reg} {l : List Instr}
    (h : (l.all fun i => readyB s c k i n who reads dst) = true) : ∀ i ∈ l, Ready s c k i n who reads dst :=
  fun i hi => readyB_ready (List.all_eq_true.1 h i hi)

/-- The bodies of what is in flight on core 0 after a word. -/
def flies (i : Instr) (s : State) : List OpBody := ((run i s).core 0).ops.map (·.body)

/-- Every check of a list passes. -/
theorem pass_nil : ∀ f ∈ ([] : List (Prop × Nat × Word)), f.1 := by simp
theorem pass_cons {p : Prop} {a : Nat × Word} {l : List (Prop × Nat × Word)} (h : p) (t : ∀ f ∈ l, f.1) : ∀ f ∈ (p, a) :: l, f.1 :=
  fun f hf => by rcases List.mem_cons.1 hf with rfl | hf; exact h; exact t f hf

/-- The stops of core 0 after a word: cause and tval. -/
def stopped (i : Instr) (s : State) : List (Nat × Word) := ((run i s).core 0).stops.map (fun e => (e.code, e.tval))

/-- Strand S with a store buffer; addresses at the top of the canonical half. -/
def gs (x : Word) (sb : List SbEntry := []) : State :=
  one .s [(4, 0x1122334455667788), (6, x)] (fun c => { c with s := { c.s with sb := sb } })

/-- An entry of the granule at 0x1000 with its low eight bytes. -/
def ent : SbEntry :=
  { ord := 1, lord := 1, seq := 1, img := .gst a0 4 6 0 false false, va := 0x1000, bytes := List.replicate 16 7, en := 0x00FF, rel := false
    scope := 0 }

/-- The same in another granule. -/
def far : SbEntry := { ent with va := 0x2000 }

/-- Strand S starts L, which has run before, or C, which has not; W runs. -/
def cs (a : Word) : State := one .s [(4, a)] (fun c => { c with
  l := { started := true, lc0 := 5, g := [(7, 7)] }, c := { lc0 := 5 }, w := { started := true, running := true } })

/-- An answer with a given second part. -/
theorem answers {α β : Type} {p : α × β} {b : β} (h : p.2 = b) : ∃ a, p = (a, b) := ⟨p.1, by rw [← h]⟩

/-- The function of the tests: ASETS and ZWIVEL active, and a page table at 0 whose one leaf maps the first 64 GiB onto themselves. -/
def vf0 : Vf := { featact := 0xB01, ptroot := 1, clkey := 7 }

/-- Strand S in a package that runs: die 0 is FULL, `m` is listed beside the page table, `sets` are declared, `q` is queue 5 of the die. -/
def ps (g : Tab Word) (m : List Host.Cell := []) (sets : Tab (Option SetEnt) := []) (y : Ctx := {}) (q : Queue := {}) : State :=
  { one .s g id y with
    mem := [(0, 1), (1, 0x10), (0x1000, 0x3B)] ++ m
    vfs := [(0, { vf0 with sets := sets })]
    dies := [(0, { st := .full, queues := [(5, q)] })]
    clusters := [(0, { wins := [⟨0, 16, 8⟩], bar := [(17, { gen := 5, need := 2, arr := [3] })] })] }

/-- A set of 0x100 bytes at `b`. -/
def aset (id b : Word) (st : SetSt := .free) (holder : Nat := 0) : SetEnt := { id := id, base := b, len := 0x100, home := 0, st := st, holder := holder }

/-- S declares the set named in g4 of g6 bytes at g5; a leaf of the first 64 KiB is cached. -/
def ds (id b n : Word) (sets : Tab (Option SetEnt) := []) : State :=
  { ps [(4, id), (5, b), (6, n)] [] sets with tlb := [⟨0, none, 0, 0, 2 ^ 16, 0, 7, none⟩] }

/-- Die 0 in a service state with a tenant's buckets, and the package's registers. -/
def zs (x : Die := {}) (b : VfDie := {}) (p : Pkg := { cfgok := true }) : State := { State.reset with dies := [(0, x)], vfdie := [(3, b)], pkg := p }

/-- The state after an event that is the turn. -/
def after (i : Instr) (s : State) : State := run i (ev i s)

/-- A collective of task 1 under handle 0. -/
def cl (st : CollSt) : Coll := { die := 0, task := 1, vf := 0, h := 0, me := ⟨7, 9, 0, 0, 0, 6, 0, false, 0, 2, 0⟩, src := 0, dst := 0, peers := [], ev := false
                                 due := 0, st := st }

/-- A shape record with element type `et` and one dimension of `n` elements. -/
def rcd (et n : Byte) : List Byte :=
  [et + 16, 0, n - 1, 0] ++ List.replicate 16 0 ++ [0, 16, 0, 0] ++ List.replicate 32 0 ++ [1, 0, 0, 0, 0, 0, 0, 0] ++ List.replicate 64 0

theorem alive_of {x : Core} (h : (x.ctx.isSome && !x.halted && x.removal.isNone && x.restart.isNone && x.stops.isEmpty) = true) : Alive x := by
  simp only [Bool.and_eq_true, Option.isNone_iff_eq_none, List.isEmpty_iff, Option.isSome_iff_ne_none, Bool.not_eq_true'] at h
  exact ⟨h.1.1.1.1, h.1.1.1.2, h.1.1.2, h.1.2, h.2⟩
theorem closed_of {x : Core} (h : (!x.halted && !x.s.issued && !x.l.issued && !x.c.issued && !x.w.issued) = true) : Closed x := by
  simp only [Bool.and_eq_true, Bool.not_eq_true'] at h
  refine ⟨h.1.1.1.1, fun k => ?_⟩; cases k <;> simp [Core.str, h]
/-! ### Decoding: the encodings that the spec works out -/

/-- spec/02 (mul, add with tokens), spec/04 (li, lis, the two loops). -/
theorem test_decode_scalar :
    decode1 0x0024C428#32 = .mul a0 6 4 5 false ∧ decode1 0x1204E600#32 = .add ⟨false, 0b1001⟩ 7 6 0 false ∧
    decode1 0x00808004#32 = .li a0 4 4 ∧ decode1 0x008491A2#32 = .lis a0 4 0x11A2 ∧ decode1 0x00AC0403#32 = .loopi a0 false 2 3 ∧
    decode1 0x00AA0A02#32 = .loop a0 true 5 2 ∧ decode1 0x00608401#32 = .addi a0 4 4 1 ∧ decode1 0x00056B64#32 = .add a0 11 11 12 true ∧
    decode1 0x00716B28#32 = .shli a0 11 11 false 40 ∧ decode1 0x008A8020#32 = .addpc a0 20 0x20 := by decide

/-- spec/06, Nested Sum: transfers. -/
theorem test_decode_control :
    decode1 0x00A18009#32 = .bltz a0 12 9 ∧ decode1 0x008FFFF6#32 = .jmp a0 (-10) ∧ decode1 0x00940000#32 = .jr a0 0 ∧
    decode1 0x20000000#32 = .nop ⟨true, 0⟩ ∧ decode1 0x10000000#32 = .nop ⟨false, 8⟩ := by decide

/-- spec/05 and spec/10, Two Layers: scratch and global words, the fence. -/
theorem test_decode_memory :
    decode1 0x00ECC402#32 = .stD a0 6 4 2 ∧ decode1 0x00D90402#32 = .ldD a0 8 4 2 ∧ decode1 0x00E31600#32 = .stB a0 24 22 0 ∧
    decode1 0x00E6B400#32 = .stH a0 21 20 0 ∧ decode1 0x00E96005#32 = .stW a0 11 0 5 ∧ decode1 0x00F4850A#32 = .gld a0 4 5 1 true false ∧
    decode1 0x00F97800#32 = .gst a0 11 24 0 false false ∧ decode1 0x00F84401#32 = .gst a0 2 4 0 false true ∧
    decode1 0x00FC000A#32 = .fence a0 1 2 ∧ decode1 0x00FC000C#32 = .fence a0 1 4 := by decide

/-- spec/07: tokens, strand control, tags, the event queue. -/
theorem test_decode_core :
    decode1 0x01000002#32 = .tkgive false 2 ∧ decode1 0x01088004#32 = .tkcount false 4 4 ∧ decode1 0x010C8500#32 = .tglook a0 4 5 ∧
    decode1 0x01188000#32 = .evpop false 4 ∧ decode1 0x011C8000#32 = .evpoll false 4 ∧ decode1 0x0120A602#32 = .stgo false 5 6 2 ∧
    decode1 0x0124000E#32 = .stwait false 7 ∧ decode1 0x01280008#32 = .ststop false 4 := by decide

/-- spec/06 and spec/12: system words. -/
theorem test_decode_system :
    decode1 0x01C41718#32 = .sysset a0 23 0x18 ∧ decode1 0x01C04019#32 = .sysget a0 2 0x19 ∧ decode1 0x01CC0007#32 = .brk a0 7 ∧
    decode1 0x21CC0004#32 = .brk ⟨true, 0⟩ 4 ∧ decode1 0x01D00000#32 = .tret false := by decide

/-- spec/11: copy words. -/
theorem test_decode_copy :
    decode1 0x034420D0#32 = .cpld ⟨false, 1⟩ 0 16 13 false ∧ decode1 0x0158CC58#32 = .cpaccAdd a0 3 6 5 true := by decide

/-- spec/13, spec/14, spec/16, spec/17: barriers, sets and tasks. -/
theorem test_decode_cluster :
    decode1 0x01980503#32 = .barr false 5 3 ∧ decode1 0x019C0603#32 = .bwait false 6 3 ∧ decode1 0x01A08003#32 = .btest false 4 3 ∧
    decode1 0x018DAB60#32 = .asdecl false 13 11 12 ∧ decode1 0x018DA001#32 = .asdeclRm false 13 ∧ decode1 0x01900000#32 = .asabort false ∧
    decode1 0x0194C000#32 = .asstatSt false 6 ∧ decode1 0x01840000#32 = .tdone false ∧ decode1 0x01888000#32 = .tchk false 4 := by decide

/-- spec/02: vadd.f32 [g4+256], [g5], [g6, 0], #64; spec/08: a wide vdot and vcvt; spec/11: vred.sum.s32; spec/08 R183: vseed g1, g12. -/
theorem test_decode_vector :
    decodeParcels [0x40000FD1#32, 0x82020128#32, 0x00130000#32] = .vadd ⟨a0, 63, false, 8, 6, ⟨4, 16, 1⟩, ⟨5, 0, 1⟩, ⟨6, 0, 0⟩⟩ ∧
    decodeParcels [0x404300D0#32, 0x02006120#32, 0x00120021#32] = .vdot ⟨a0, 3, false, 8, 0, ⟨4, 3, 1⟩, ⟨4, 0, 1⟩, ⟨4, 1, 1⟩⟩ ∧
    decodeParcels [0x40200010#32, 0x4200C120#32, 0x06100009#32] = .vcvt ⟨a0, 0, false, 8, 1, ⟨4, 6, 1⟩, ⟨4, 3, 1⟩, ⟨0, 0, 9⟩⟩ ∧
    decodeParcels [0x504003C8#32, 0x00018000#32, 0x10100000#32] = .vredSum ⟨⟨false, 8⟩, 15, false, 4, 0, ⟨0, 12, 0⟩, ⟨0, 8, 1⟩, ⟨0, 0, 0⟩⟩ ∧
    decodeParcels [0x40700000#32, 0x00000008#32, 0x00060000#32] = .vseed ⟨a0, 0, false, 0, 0, ⟨0, 0, 0⟩, ⟨1, 0, 0⟩, ⟨12, 0, 0⟩⟩ := by decide

/-- spec/10, Two Layers, and spec/09: matrix words. -/
theorem test_decode_matrix :
    decodeParcels [0x806001E7#32, 0, 0, 0, 0, 0] = .mxfmt ⟨a0, 0, 0, 15, false, false, 28, 0, 0, 0, 0, false, 0⟩ ∧
    decodeParcels [0x80080809#32, 0x40000000#32, 0, 0, 0, 0] = .mxstat ⟨a0, 0, 1, 0, false, true, 5, 0, 0, 0, 0, false, 0⟩ ∧
    decodeParcels [0x80180000#32, 0, 0, 0, 0, 0] = .mxflip ⟨a0, 0, 0, 0, false, false, 0, 0, 0, 0, 0, false, 0⟩ ∧
    decodeParcels [0x80200DD9#32, 0, 0x00000800#32, 0, 0, 0] = .mxstream ⟨a0, 0, 1, 46, true, true, 4, 0, 0, 0, 0, true, 0⟩ ∧
    decodeParcels [0x80280000#32, 0, 0, 0, 0, 0] = .mxswap ⟨a0, 0, 0, 0, false, false, 0, 0, 0, 0, 0, false, 0⟩ ∧
    decodeParcels [0x80400801#32, 0x80000000#32, 0x0000000A#32, 0x00100000#32, 0, 0] =
      .mxread ⟨a0, 0, 1, 0, false, false, 6, 0, 0, 0, 0, false, 10 * 2 ^ 32 + 4 * 2 ^ 18⟩ := by decide

/-- spec/18, the worked program. -/
theorem test_decode_newt :
    decodeNewt 0x08800003#32 = some (.nget 1 3) ∧ decodeNewt 0x6908400F#32 = some (.nbin 2 1 true 0 15) ∧
    decodeNewt 0x11800001#32 = some (.nli 3 1) ∧ decodeNewt 0x72118000#32 = some (.nhinc 4 2 3 0) ∧
    decodeNewt 0x5A914007#32 = some (.ncmp 5 2 2 true 7) ∨ decodeNewt 0x60284004#32 = some (.nbf 5 2 4) := by decide

/-! ### Well-formedness: a term that each check refuses -/

/-- spec/02 R48 reasons 5 and 6: a shift by 32 in a `.w` form, a loop of length 1, a scope without its ordering bit, an odd pair, scope 5,
fence kind 3, FIFO 6, strand 0 of stgo, dimension 9, a write of a register that is read only. -/
theorem test_fields_refused : ([.shli a0 4 4 true 32, .loop a0 false 4 1, .gld a0 4 5 1 false false, .gld a0 5 6 0 false true,
    .gst a0 4 5 5 true false, .fence a0 3 0, .tkgive false 6, .stgo false 4 5 0, .cporg a0 1 4 9, .sysset a0 4 0x10] : List Instr).all
      (fun i => (fieldReason i).isSome && !wellFormed i) = true := by decide

theorem test_fields_accepted : ([.shli a0 4 4 true 31, .shli a0 4 4 false 63, .loop a0 false 4 2, .gld a0 4 5 4 true false,
    .gld a0 4 6 0 false true, .fence a0 2 4, .tkgive false 5, .stgo false 4 5 3, .cporg a0 1 4 8, .sysset a0 4 0x18] : List Instr).all
      (fun i => wellFormed i) = true := by decide

/-- spec/08 R172, spec/10 R212: an element type that is not assigned, a shift of floats, a stride beyond 16, the rounding mode of an
integer word; a read-out in type 11, flags in type 10. -/
theorem test_vector_and_matrix_fields_refused :
    ([.vadd ⟨a0, 0, false, 10, 0, ⟨0, 0, 1⟩, ⟨0, 0, 1⟩, ⟨0, 0, 1⟩⟩, .vshl ⟨a0, 0, false, 8, 0, ⟨0, 0, 1⟩, ⟨0, 0, 1⟩, ⟨0, 0, 1⟩⟩,
      .vmin ⟨a0, 0, false, 4, 1, ⟨0, 0, 1⟩, ⟨0, 0, 1⟩, ⟨0, 0, 1⟩⟩, .vabs ⟨a0, 0, false, 5, 0, ⟨0, 0, 1⟩, ⟨0, 0, 1⟩, ⟨0, 0, 0⟩⟩,
      .mxread ⟨a0, 0, 0, 0, false, false, 0, 0, 0, 0, 0, false, 11 * 2 ^ 32⟩,
      .mxreadFlags ⟨a0, 0, 0, 0, false, false, 0, 0, 0, 0, 0, false, 10 * 2 ^ 32⟩] : List Instr).all
      (fun i => (fieldReason i).isSome && !wellFormed i) = true ∧
    ([.vadd ⟨a0, 0, false, 4, 0, ⟨0, 0, 1⟩, ⟨0, 0, 1⟩, ⟨0, 0, 1⟩⟩, .vshl ⟨a0, 0, false, 4, 0, ⟨0, 0, 1⟩, ⟨0, 0, 1⟩, ⟨0, 0, 1⟩⟩,
      .mxreadFlags ⟨a0, 0, 0, 0, false, false, 0, 0, 0, 0, 0, false, 11 * 2 ^ 32⟩] : List Instr).all (fun i => wellFormed i) = true := by decide

/-- spec/18 R367: in ncmp the bits nb are class Z (the word that spec/18 prints has nb = 2). -/
theorem test_newtZ_refuses : newtZ (.ncmp 5 2 2 true 7) = false ∧ wellFormed (.ncmp 5 2 2 true 7) = false ∧
    wellFormed (.ncmp 5 2 0 true 7) = true := by decide

/-- spec/18 R366: a branch to itself, a trigger of no code, a sketch of nine bits. -/
theorem test_newtV_refuses : ([.nbf 0 0 0, .ntrig 0 1 0, .nskt 0 1 9 0] : List Instr).all (fun i => !newtV i && !wellFormed i) = true := by decide

/-- spec/10 R213: the mxclear words differ in CM. -/
theorem test_modeOk_refuses : ([.mxclear, .mxclearAll, .mxclearFlags, .mxclearAllFlags] : List (MWord → Instr)).map (fun i =>
    ((List.range 4).map (fun m => modeOk (i ⟨a0, 0, 0, 0, false, false, 0, 0, 0, 0, 0, false, BitVec.ofNat 43 (m * 2 ^ 41)⟩)))) =
    [[true, false, false, false], [false, true, false, false], [false, false, true, false], [false, false, false, true]] := by decide

/-- spec/00 R1, R2: there are 4096 cores, 8 dies and 512 functions. -/
theorem test_eventOk_refuses : wellFormed (.refillTick 8) = false ∧ wellFormed (.refillTick 7) = true ∧
    wellFormed (.vfReset 512) = false ∧ wellFormed (.multicastDelivery 4095 0) = true ∧ eventOk (.multicastDelivery 4096 0) = false := by decide

/-! ### Scalar words: spec/04 and its examples -/

/-- Strand C with two operands. -/
def sc (a b : Word) (d : Word := 0) : State := one .c [(4, d), (5, a), (6, b)]

/-- The value that a word leaves in g4. -/
def g4 (i : Instr) (s : State) : Word := (run i s).rd 0 .c 4

theorem test_add_wraps : g4 (.add a0 4 5 6 false) (sc (-1) 2) = 1 ∧ g4 (.add a0 4 5 6 true) (sc 0x7FFFFFFF 1) = 0xFFFFFFFF80000000 := by decide
theorem test_sub_order : g4 (.sub a0 4 5 6 false) (sc 3 5) = -2 ∧ g4 (.sub a0 4 5 6 true) (sc 0x80000000 1) = 0x7FFFFFFF := by decide
theorem test_logic : g4 (.and a0 4 5 6 false) (sc 0xC 0xA) = 8 ∧ g4 (.or a0 4 5 6 false) (sc 0xC 0xA) = 0xE ∧
    g4 (.xor a0 4 5 6 false) (sc 0xC 0xA) = 6 ∧ g4 (.xor a0 4 5 6 true) (sc 0x80000000 1) = 0xFFFFFFFF80000001 := by decide
/-- spec/04: shr.w by 0 of 0x8000_0000 writes 0xFFFF_FFFF_8000_0000; sra keeps the sign; amounts are taken modulo the width. -/
theorem test_shifts : g4 (.shr a0 4 5 6 true) (sc 0x80000000 0) = 0xFFFFFFFF80000000 ∧ g4 (.shr a0 4 5 6 false) (sc (-1) 63) = 1 ∧
    g4 (.sra a0 4 5 6 false) (sc 0x8000000000000000 63) = -1 ∧ g4 (.shl a0 4 5 6 false) (sc 1 65) = 2 ∧
    g4 (.shl a0 4 5 6 true) (sc 1 31) = 0xFFFFFFFF80000000 := by decide
theorem test_min_max : g4 (.min a0 4 5 6 false) (sc (-1) 1) = -1 ∧ g4 (.min a0 4 5 6 true) (sc (-1) 1) = 1 ∧
    g4 (.max a0 4 5 6 false) (sc (-1) 1) = 1 ∧ g4 (.max a0 4 5 6 true) (sc (-1) 1) = -1 := by decide
theorem test_slt : g4 (.slt a0 4 5 6 false) (sc (-1) 1) = 1 ∧ g4 (.slt a0 4 5 6 true) (sc (-1) 1) = 0 := by decide
theorem test_seq_sne : g4 (.seq a0 4 5 6) (sc 3 3) = 1 ∧ g4 (.sne a0 4 5 6) (sc 3 3) = 0 := by decide
/-- csel takes a where the old gd is not zero; its other form takes a where the old gd is negative. -/
theorem test_csel : g4 (.csel a0 4 5 6 false) (sc 10 20 1) = 10 ∧ g4 (.csel a0 4 5 6 false) (sc 10 20 0) = 20 ∧
    g4 (.csel a0 4 5 6 true) (sc 10 20 (-1)) = 10 ∧ g4 (.csel a0 4 5 6 true) (sc 10 20 1) = 20 := by decide
theorem test_counts : g4 (.clz a0 4 5 false) (sc 1 0) = 63 ∧ g4 (.clz a0 4 5 true) (sc 0 0) = 32 ∧ g4 (.ctz a0 4 5 false) (sc 0 0) = 64 ∧
    g4 (.ctz a0 4 5 true) (sc 8 0) = 3 ∧ g4 (.popc a0 4 5 false) (sc (-1) 0) = 64 ∧ g4 (.popc a0 4 5 true) (sc (-1) 0) = 32 := by decide
theorem test_bswap : g4 (.bswap a0 4 5 false) (sc 0x0102030405060708 0) = 0x0807060504030201 ∧
    g4 (.bswap a0 4 5 true) (sc 0x80 0) = 0xFFFFFFFF80000000 := by decide
theorem test_addx : g4 (.addx a0 4 5 6 3) (sc 0x100 5) = 0x128 := by decide
/-- spec/04: control 524 is pos 12, len 8. -/
theorem test_ext_ins : g4 (.ext a0 4 5 6 false) (sc 0x00ABC000 524) = 0xBC ∧ g4 (.ext a0 4 5 6 true) (sc 0x00ABC000 524) = 0xFFFFFFFFFFFFFFBC ∧
    g4 (.ins a0 4 5 6) (sc 0x12 524 (-1)) = 0xFFFFFFFFFFF12FFF := by decide
theorem test_immediates : g4 (.addi a0 4 5 0xFF) (sc 5 0) = 4 ∧ g4 (.andi a0 4 5 0xF0) (sc (-1) 0) = -16 ∧ g4 (.ori a0 4 5 0xF0) (sc 1 0) = 0xF1 ∧
    g4 (.xori a0 4 5 0xFF) (sc 1 0) = 0xFE ∧ g4 (.slti a0 4 5 0xFF) (sc (-2) 0) = 1 := by decide
theorem test_shift_immediates : g4 (.shli a0 4 5 false 40) (sc 1 0) = 2 ^ 40 ∧ g4 (.shri a0 4 5 true 4) (sc 0x80000000 0) = 0x08000000 ∧
    g4 (.srai a0 4 5 false 4) (sc (-16) 0) = -1 := by decide
/-- spec/04: li, then lis appends 13 bits; addpc counts parcels from its own address. -/
theorem test_constants : g4 (.li a0 4 0x1FFF) (sc 0 0) = -1 ∧ g4 (.lis a0 4 0x11A2) (sc 0 0 4) = 0x91A2 ∧ g4 (.addpc a0 4 0x1FFF) (sc 0 0) = 0xFFC := by decide
theorem test_nop_counts : ((run (.nop a0) (sc 1 2)).str 0 .c).ic = 1 ∧ ((run (.nop a0) (sc 1 2)).str 0 .c).pc = 0x1004 := by decide
/-- spec/04 R83: mulh and mul land with latency 3. -/
theorem test_mul_flies : ((run (.mul a0 4 5 6 false) (sc 3 5)).core 0).ops.map (·.body) = [.regs 3 4 [15]] ∧
    ((run (.mulh a0 4 5 6 false) (sc (-1) 1)).core 0).ops.map (·.body) = [.regs 3 4 [-1]] ∧
    ((run (.mulh a0 4 5 6 true) (sc (-1) (-1))).core 0).ops.map (·.body) = [.regs 3 4 [-2]] := by decide
/-- spec/04 R84: a zero divisor is cause 0x09 with the dividend as tval. -/
theorem test_div_zero : ((run (.div a0 4 5 6 false) (sc 7 0)).core 0).stops = [⟨2, .c, 0x09, 0, 7⟩] ∧
    ((run (.rem a0 4 5 6 true) (sc 7 0)).core 0).stops = [⟨2, .c, 0x09, 0, 7⟩] := by decide

/-- Division truncates toward zero, as the result lands: −7 by 2. -/
theorem test_div_lands :
    (run .interlockedResultLands (evAt .c 0 .interlockedResultLands (run (.div a0 4 5 6 false) (sc (-7) 2)))).rd 0 .c 4 = -3 ∧
    (run .interlockedResultLands (evAt .c 0 .interlockedResultLands (run (.rem a0 4 5 6 false) (sc (-7) 2)))).rd 0 .c 4 = -1 := by decide

theorem witness_ArithmeticWordsComputeByR82 : (∀ i ∈ ([.add a0 4 5 6 false, .sub a0 4 5 6 true, .and a0 4 5 6 false, .or a0 4 5 6 true,
    .xor a0 4 5 6 false, .shl a0 4 5 6 true, .shr a0 4 5 6 true, .sra a0 4 5 6 false, .mul a0 4 5 6 true] : List Instr),
    Ready (sc 3 5) 0 .c i a0 allStr [5, 6] [4]) ∧ ((sc 3 5).core 0).records < 64 := ⟨all_ready (by decide), by decide⟩

theorem witness_MulhMinMaxSltComputeByR83 : (∀ i ∈ ([.mulh a0 0 5 6 true, .min a0 0 5 6 false, .max a0 0 5 6 true, .slt a0 0 5 6 false]
    : List Instr), Ready (sc 3 5) 0 .c i a0 allStr [5, 6] [0]) ∧ ((sc 3 5).core 0).records < 64 := ⟨all_ready (by decide), by decide⟩

theorem witness_SelectCountIndexAndBitFieldWordsFollowR85ToR88 :
    (∀ i ∈ ([.seq a0 4 5 6, .sne a0 4 5 6, .addx a0 4 5 6 7, .ext a0 4 5 6 true] : List Instr), Ready (sc 3 5) 0 .c i a0 allStr [5, 6] [4]) ∧
    (∀ i ∈ ([.csel a0 4 5 6 false, .csel a0 4 5 6 true, .ins a0 4 5 6] : List Instr), Ready (sc 3 5) 0 .c i a0 allStr [4, 5, 6] [4]) ∧
    (∀ i ∈ ([.clz a0 4 5 false, .ctz a0 4 5 true, .popc a0 4 5 false, .bswap a0 4 5 true] : List Instr),
      Ready (sc 3 5) 0 .c i a0 allStr [5] [4]) := ⟨all_ready (by decide), all_ready (by decide), all_ready (by decide)⟩

/-- The annotated nop takes a token of L and waits for the other running strands. -/
theorem witness_ImmediateConstantAndNopWordsFollowR90AndR91 :
    (∀ i ∈ ([.addi a0 4 5 0x80, .andi a0 4 5 0, .ori a0 4 5 0xFF, .xori a0 4 5 1, .shli a0 4 5 true 31, .shri a0 4 5 false 63, .srai a0 4 5 true 0,
      .slti a0 4 5 0x7F] : List Instr), Ready (sc 3 5) 0 .c i a0 allStr [5] [4]) ∧
    (∀ i ∈ ([.li a0 4 0x1000, .addpc a0 4 0] : List Instr), Ready (sc 3 5) 0 .c i a0 allStr [] [4]) ∧
    Ready (sc 3 5) 0 .c (.lis a0 4 0) a0 allStr [4] [4] ∧
    Ready (one .c [] (fun x => { x with tok := [(0, 1)] })) 0 .c (.nop ⟨true, 8⟩) ⟨true, 8⟩ allStr [] [] :=
  ⟨all_ready (by decide), all_ready (by decide), readyB_ready (by decide), readyB_ready (by decide)⟩

theorem witness_DivisionFollowsR84 :
    (∀ i ∈ ([.div a0 4 5 6 false, .rem a0 4 5 6 true] : List Instr), Ready (sc 7 2) 0 .c i a0 allStr [5, 6] [4] ∧ Ready (sc 7 0) 0 .c i a0 allStr [5, 6] [4]) ∧
    ((sc 7 2).core 0).flying .c 4 = false ∧ ((sc 7 2).core 0).records < 64 ∧ (sc 7 2).rd 0 .c 6 ≠ 0 ∧ (sc 7 0).rd 0 .c 6 = 0 := by
  refine ⟨fun i hi => ⟨(all_ready (by decide) : ∀ i ∈ ([.div a0 4 5 6 false, .rem a0 4 5 6 true] : List Instr), _) i hi,
    (all_ready (by decide) : ∀ i ∈ ([.div a0 4 5 6 false, .rem a0 4 5 6 true] : List Instr), _) i hi⟩, by decide⟩

/-- The most negative number by −1, as it lands. -/
theorem witness_DivisionFollowsR84_lands :
    let s := evAt .c 0 .interlockedResultLands (run (.div a0 4 5 6 false) (sc 0x8000000000000000 (-1)))
    ∃ o, s.agenda = .event 0 .c 0 .interlockedResultLands :: [.issue 0 .s] ∧ (s.core 0).alive = true ∧ (s.core 0).ops[0]? = some o ∧
      o.body = .ilock 4 false none ∧ o.img = .div a0 4 5 6 false ∧ ByLetter false o.op1 ≠ 0 := by
  refine ⟨_, rfl, by decide, rfl, rfl, rfl, by decide⟩

/-- Targets at the edges of R93: the highest address of the low half, the lowest of the high half; 0 is bad in S alone. -/
theorem witness_targets : GoodTarget .c 0 ∧ ¬ GoodTarget .s 0 ∧ GoodTarget .s 0x00FFFFFFFFFFFFFC ∧ ¬ GoodTarget .s 0x0100000000000000 ∧
    GoodTarget .s 0xFF00000000000000 ∧ ¬ GoodTarget .c 2 := by
  unfold GoodTarget; decide

theorem witness_JumpsAndBranchesGoToTheirTargets :
    Ready (one .s [(5, 0x100)]) 0 .s (.jmp a0 1) a0 allStr [] [] ∧ GoodTarget .s (TargetOf ((one .s []).str 0 .s).pc (1 : BitVec 18)) ∧
    ¬ GoodTarget .s (TargetOf ((one .s []).str 0 .s).pc (BitVec.ofInt 18 (-0x400))) ∧
    Ready (one .s [(5, 0x100)]) 0 .s (.call a0 1) a0 allStr [] [31] ∧ Ready (one .s [(5, 0x100)]) 0 .s (.jr a0 5) a0 allStr [5] [] ∧
    GoodTarget .s ((one .s [(5, 0x100)]).rd 0 .s 5) ∧ ¬ GoodTarget .s ((one .s [(5, 0x102)]).rd 0 .s 5) := by
  refine ⟨readyB_ready (by decide), ?_, ?_, readyB_ready (by decide), readyB_ready (by decide), ?_, ?_⟩ <;> unfold GoodTarget <;> decide

theorem witness_branches : (∀ i ∈ ([.bz a0 5 1, .bnz a0 5 1, .bltz a0 5 1, .bgez a0 5 1] : List Instr),
      Ready (one .s [(5, -1)]) 0 .s i a0 allStr [5] []) ∧ ((one .s [(5, -1)]).rd 0 .s 5).toInt < 0 ∧ (one .s [(5, -1)]).rd 0 .s 5 ≠ 0 ∧
    GoodTarget .s (TargetOf ((one .s []).str 0 .s).pc (1 : BitVec 13)) ∧
    ¬ GoodTarget .s (TargetOf ((one .s []).str 0 .s).pc (BitVec.ofInt 13 (-0x400))) := by
  refine ⟨all_ready (by decide), by decide, by decide, ?_, ?_⟩ <;> unfold GoodTarget <;> decide

/-- spec/06: a taken branch waits one cycle and jr two; call links behind itself. -/
theorem test_transfers : ((run (.bz a0 5 0x1FFF) (one .c [])).str 0 .c).pc = 0xFFC ∧ ((run (.bz a0 5 1) (one .c [(5, 1)])).str 0 .c).pc = 0x1004 ∧
    ((run (.jr a0 5) (one .c [(5, 0x100)])).str 0 .c).pc = 0x100 ∧ (run (.call a0 4) (one .c [])).rd 0 .c 31 = 0x1004 ∧
    ((run (.call a0 4) (one .c [])).str 0 .c).pc = 0x1010 := by decide
theorem test_branch_conditions : ((run (.bltz a0 5 4) (one .c [(5, -1)])).str 0 .c).pc = 0x1010 ∧
    ((run (.bgez a0 5 4) (one .c [])).str 0 .c).pc = 0x1010 ∧ ((run (.bnz a0 5 4) (one .c [])).str 0 .c).pc = 0x1004 ∧
    ((run (.jmp a0 4) (one .c [])).str 0 .c).pc = 0x1010 := by decide
/-- spec/06 R143: a jump of L, C or W to 0 ends the strand. -/
theorem test_jump_to_zero_ends : ((run (.jr a0 5) (one .c [])).str 0 .c).exiting = true := by decide

theorem witness_LoopsFollowR96AndR97 :
    (∀ i ∈ ([.loop a0 false 5 2, .loop a0 true 5 511] : List Instr), Ready (one .l [(5, 2 ^ 32)]) 0 .l i a0 allStr [5] []) ∧
    (∀ i ∈ ([.loopi a0 true 0 2, .loopi a0 false 255 2] : List Instr), Ready (one .l []) 0 .l i a0 allStr [] []) :=
  ⟨all_ready (by decide), all_ready (by decide)⟩

/-- Both loops end at 16: lp1 repeats while its count is above 1; at 1 it ends and lp0 repeats, or ends too. -/
theorem witness_EndTestsFollowR97 :
    (let t : Strand := { lc1 := 2, le1 := 16, ls1 := 8 }; t.lc1 ≠ 0 ∧ t.le1 = 16 ∧ 1 < t.lc1.toNat) ∧
    (let t : Strand := { lc1 := 1, le1 := 16, lc0 := 2, le0 := 16 }; ¬ (t.lc1 ≠ 0 ∧ t.le1 = 16 ∧ 1 < t.lc1.toNat) ∧
      (t.lc0 ≠ 0 ∧ t.le0 = 16 ∧ 1 < t.lc0.toNat)) ∧
    (let t : Strand := { lc1 := 1, le1 := 16, lc0 := 1, le0 := 16 }; ¬ (t.lc1 ≠ 0 ∧ t.le1 = 16 ∧ 1 < t.lc1.toNat) ∧
      ¬ (t.lc0 ≠ 0 ∧ t.le0 = 16 ∧ 1 < t.lc0.toNat)) := by decide

/-- spec/04 R95, R96: the start behind the word, the end by parcels, the count saturated; a count of 0 skips. -/
theorem test_loop : let u := (run (.loop a0 true 5 5) (one .c [(5, 2 ^ 32)])).str 0 .c
    u.ls1 = 0x1004 ∧ u.le1 = 0x1014 ∧ u.lc1 = 0xFFFFFFFF ∧ u.pc = 0x1004 := by decide
theorem test_loopi : let u := (run (.loopi a0 false 0 5) (one .c [])).str 0 .c
    u.pc = 0x1014 ∧ u.lc0 = 0 ∧ u.fwait ≠ 0 := by decide

/-! ### Scratch and global words: spec/05 -/

/-- Strand L with an address in g5 and a stored value in g4, in mode `m` of SCRMODE; bytes at 8 to 15 of the scratchpad. -/
def ms (x : Word) (m : BitVec 2 := 0) (v : Word := 0) : State :=
  one .l [(4, v), (5, x)] (fun c => { c with scr := [(8, 0xFE), (9, 0xFF), (15, 0x80)] }) { scrmode := m }

theorem test_loads_signed : flies (.ldS8 a0 4 5 0) (ms 8) = [.regs 4 4 [-2]] ∧ flies (.ldS16 a0 4 5 4) (ms 0) = [.regs 4 4 [-2]] ∧
    flies (.ldS32 a0 4 5 2) (ms 0) = [.regs 4 4 [0xFFFE]] := by decide
theorem test_loads_unsigned : flies (.ldN8 a0 4 5 0) (ms 8) = [.regs 4 4 [0xFE]] ∧ flies (.ldN16 a0 4 5 4) (ms 0) = [.regs 4 4 [0xFFFE]] ∧
    flies (.ldN32 a0 4 5 3) (ms 0) = [.regs 4 4 [0x80000000]] := by decide
theorem test_load_doubles : flies (.ldD a0 4 5 0xFF) (ms 16) = [.regs 4 4 [0x800000000000FFFE]] ∧
    flies (.ldQ a0 2 5 0) (ms 0) = [.regs 4 4 [0, 0x800000000000FFFE]] := by decide
theorem test_stores : flies (.stB a0 4 5 1) (ms 1 0 0x1234) = [.store 2 2 [0x34]] ∧ flies (.stH a0 4 5 1) (ms 2 0 0x1234) = [.store 2 4 [0x34, 0x12]] ∧
    flies (.stW a0 4 5 1) (ms 4 0 0x12345678) = [.store 2 8 [0x78, 0x56, 0x34, 0x12]] ∧
    flies (.stD a0 4 5 0xFF) (ms 8 0 1) = [.store 2 0 [1, 0, 0, 0, 0, 0, 0, 0]] := by decide
theorem test_store_pair : flies (.stQ a0 2 5 0) (ms 16 0 1) = [.store 2 16 [1, 0, 0, 0, 0, 0, 0, 0, 16, 0, 0, 0, 0, 0, 0, 0]] := by decide
/-- spec/05 R102: the last byte of a region of 1 MiB may be read; one further is cause 0x06; 2 bytes at an odd address cause 0x07. -/
theorem test_scratch_checks : ((run (.ldN8 a0 4 5 1) (ms 0xFFFFF)).core 0).stops = [⟨2, .l, 6, 0, 0x100000⟩] ∧
    ((run (.ldN8 a0 4 5 0) (ms 0xFFFFF)).core 0).stops = [] ∧ ((run (.stH a0 4 5 0) (ms 3)).core 0).stops = [⟨2, .l, 7, 0, 3⟩] := by decide

theorem witness_ScratchLoadsSampleAndLand :
    (∀ m ∈ [0, 1, 2, 3], ∀ i ∈ ([.ldS8 a0 4 5 0, .ldN8 a0 4 5 0, .ldS16 a0 4 5 0, .ldN16 a0 4 5 0, .ldS32 a0 4 5 0, .ldN32 a0 4 5 0, .ldD a0 4 5 0]
      : List Instr), Ready (ms 0xFFFF8 m) 0 .l i a0 allStr [5] [4]) ∧
    (∀ m ∈ [0, 1, 2, 3], ((ms 0xFFFF8 m).core 0).records < 64) ∧
    (∀ m ∈ [0, 1, 2, 3], Ready (ms 0xFFFF0 m) 0 .l (.ldQ a0 2 5 0) a0 allStr [5] [PairOf 2, PairOf 2 + 1]) := by
  refine ⟨?_, by decide, ?_⟩
  · intro m hm; fin_cases hm <;> exact all_ready (by decide)
  · intro m hm; fin_cases hm <;> exact readyB_ready (by decide)

/-- Beyond the region, misaligned inside it, and in it: with no hole or a mode that ignores one, with one in mode 2, with one in mode 1. -/
theorem witness_ScratchLoadsSampleAndLand_clauses :
    (let x := ScratchAddress ((ms 0xFFFF9).rd 0 .l 5) 0 8; ((ms 0).ctx 0).scrsize < x.toNat + 8) ∧
    (let x := ScratchAddress ((ms 0xFFFF7).rd 0 .l 5) 0 8; x.toNat + 8 ≤ ((ms 0).ctx 0).scrsize ∧ x.toNat % 8 ≠ 0) ∧
    (let x := ScratchAddress ((ms 0xFFFF8).rd 0 .l 5) 0 8; x.toNat + 8 ≤ ((ms 0).ctx 0).scrsize ∧ x.toNat % 8 = 0 ∧
      ((ms 0).core 0).readHeld .l x.toNat 8 = false ∧ ((ms 0).ctx 0).scrmode = 0 ∧
      (((ms 0 2).core 0).unwritten x.toNat 8 = [0xFFFF] ∧ ((ms 0 2).ctx 0).scrmode = 2) ∧
      (((ms 0 1).core 0).unwritten x.toNat 8 ≠ [] ∧ ((ms 0 1).ctx 0).scrmode = 1)) := by decide

theorem witness_ScratchStoresLandNextCycle :
    (∀ i ∈ ([.stB a0 4 5 0, .stH a0 4 5 0, .stW a0 4 5 0, .stD a0 4 5 0] : List Instr), Ready (ms 0xFFFF8) 0 .l i a0 allStr [4, 5] []) ∧
    Ready (ms 0xFFFF0) 0 .l (.stQ a0 2 5 0) a0 allStr [PairOf 2, PairOf 2 + 1, 5] [] ∧ ((ms 0xFFFF8).core 0).records < 64 ∧
    (let x := ScratchAddress ((ms 0xFFFF8).rd 0 .l 5) 1 8; ((ms 0).ctx 0).scrsize < x.toNat + 8) ∧
    (let x := ScratchAddress ((ms 0xFFFF7).rd 0 .l 5) 0 8; x.toNat + 8 ≤ ((ms 0).ctx 0).scrsize ∧ x.toNat % 8 ≠ 0) ∧
    (let x := ScratchAddress ((ms 0xFFFF8).rd 0 .l 5) 0 8; x.toNat + 8 ≤ ((ms 0).ctx 0).scrsize ∧ x.toNat % 8 = 0 ∧
      ((ms 0).core 0).writeHeld .l x.toNat 8 = false) :=
  ⟨all_ready (by decide), readyB_ready (by decide), by decide, by decide, by decide, by decide⟩

theorem test_gst_buffers : ((run (.gst a0 4 6 2 true false) (gs 0x1008)).str 0 .s).sb.map (fun e => (e.va, e.en, e.rel, e.scope)) =
    [(0x1000, 0xFF00, true, 2)] ∧ (run (.gst a0 4 6 2 true false) (gs 0x1008)).mem = [] := by decide
theorem test_gst_merges : ((run (.gst a0 4 6 0 false false) (gs 0x1008 [ent])).str 0 .s).sb.map (·.en) = [0xFFFF] ∧
    ((run (.gst a0 4 6 0 false false) (gs 0x1008 [far])).str 0 .s).sb.map (·.en) = [0x00FF, 0xFF00] := by decide
theorem test_gld_forwards : flies (.gld a0 4 6 0 false false) (gs 0x1000 [ent]) = [.ilock 4 false (some (List.replicate 8 7))] ∧
    flies (.gld a0 4 6 0 false false) (gs 0x1008 [ent]) = [.ilock 4 false none] := by decide
theorem test_global_checks : ((run (.gld a0 4 6 0 false true) (gs 0x1008)).core 0).stops = [⟨2, .s, 7, 0, 0x1008⟩] ∧
    ((run (.gst a0 4 6 0 false false) (gs 0x0100000000000000)).core 0).stops = [⟨2, .s, 7, 0, 0x0100000000000000⟩] := by decide

theorem witness_GlobalLoadsIssueInterlocked :
    Ready (gs 0x1000) 0 .s (.gld a0 4 6 0 false false) a0 allStr [6] [4] ∧ Ready (gs 0x1000) 0 .s (.gld a0 4 6 4 true true) a0 allStr [6] [4, 4 + 1] ∧
    (∀ r ∈ ([4, 5] : List Reg), ((gs 0x1000).core 0).flying .s r = false) ∧ ((gs 0x1000).core 0).acquiring .s = false ∧
    ((gs 0x1000).core 0).records < 64 ∧ GoodGlobal ((gs 0x00FFFFFFFFFFFFF0).rd 0 .s 6) 16 ∧ ¬ GoodGlobal ((gs 0x0100000000000000).rd 0 .s 6) 8 ∧
    ¬ GoodGlobal ((gs 0x1008).rd 0 .s 6) 16 ∧ ((gs 0x1000).str 0 .s).sb = [] := by
  refine ⟨readyB_ready (by decide), readyB_ready (by decide), by decide, by decide, by decide, ?_, ?_, ?_, by decide⟩ <;> unfold GoodGlobal <;> decide

/-- A load of eight buffered bytes, one of sixteen of which eight are buffered, and one beside them. -/
theorem witness_GlobalLoadsIssueInterlocked_buffer : let sb := ((gs 0x1000 [ent]).str 0 .s).sb
    (∀ j < 8, ∃ e ∈ sb, BuffersByte e 0x1000 j) ∧ (¬ (∀ j < 16, ∃ e ∈ sb, BuffersByte e 0x1000 j) ∧ ∃ e ∈ sb, ∃ j < 16, BuffersByte e 0x1000 j) ∧
    ¬ ∃ e ∈ sb, ∃ j < 8, BuffersByte e 0x1008 j := by
  unfold BuffersByte; decide
theorem test_gld_buffer_cases : (((run (.gld a0 4 6 0 false true) (gs 0x1000 [ent])).core 0).ops.map (fun o => (o.body, o.cnt))) =
    [(.ilock 4 true none, 1)] ∧ (((run (.gld a0 4 6 0 false false) (gs 0x1008 [ent])).core 0).ops.map (·.cnt)) = [0] := by decide

/-- A gld in flight that waits for the entry in place 1. -/
def gwait : State := gs 0x1000 [ent] |>.mapCore 0 (fun x => { x with
  ops := [{ k := .s, ord := 5, seq := 2, img := .gld a0 4 6 0 false true, op2 := 0x1000, cnt := 1, body := .ilock 4 true none }] })
theorem witness_GlobalLoadsIssueInterlocked_waits : let s := evAt .s 0 .interlockedResultLands gwait
    ∃ o, s.agenda = .event 0 .s 0 .interlockedResultLands :: [.issue 0 .s] ∧ (s.core 0).alive = true ∧ (s.core 0).ops[0]? = some o ∧
      o.img = .gld a0 4 6 0 false true ∧ o.body = .ilock 4 true none ∧ o.cnt = 1 ∧
      ∃ e ∈ (s.str 0 o.k).sb, e.ord < o.ord ∧ ∃ j < (if true then 16 else 8), BuffersByte e o.op2 j :=
  ⟨_, rfl, by decide, rfl, rfl, rfl, rfl, ent, by decide, by decide, 0, by decide, by unfold BuffersByte; decide⟩

theorem witness_GlobalStoresEnterTheStoreBuffer :
    (∀ l ∈ [[], [far], [ent]], Ready (gs 0x1008 l) 0 .s (.gst a0 4 6 0 false false) a0 allStr [4, 6] [] ∧
      ((gs 0x1008 l).core 0).acquiring .s = false ∧ ((gs 0x1008 l).core 0).records + 2 ≤ 64 ∧ ((gs 0x1008 l).str 0 .s).sb.length < 8 ∧
      (∀ o ∈ ((gs 0x1008 l).core 0).ops, ∀ f ∈ l, waitsFor o f .s = false ∧ readsBefore o f .s 0x1008 8 = false)) ∧
    (∃ o ∈ (gwait.core 0).ops, waitsFor o ent .s = true) ∧
    Ready (gs 0x1010) 0 .s (.gst a0 4 6 3 true true) a0 allStr [4, 4 + 1, 6] [] ∧
    GoodGlobal ((gs 0x1008).rd 0 .s 6) 8 ∧ ((gs 0x1008 [far]).str 0 .s).sb = [] ++ [far] ∧ far.va.toNat ≠ (0x1008 : Word).toNat / 16 * 16 ∧
    ((gs 0x1008 [ent]).str 0 .s).sb = [] ++ [ent] ∧ ent.va.toNat = (0x1008 : Word).toNat / 16 * 16 := by
  refine ⟨?_, by decide, readyB_ready (by decide), ?_, by decide, by decide, by decide, by decide⟩
  · intro l hl; fin_cases hl <;> exact ⟨readyB_ready (by decide), by decide, by decide, by decide, by decide⟩
  · unfold GoodGlobal; decide

theorem witness_FencesIssueOnceTheirKindHolds : Ready (gs 0x1000) 0 .s (.fence a0 2 4) a0 allStr [] [] ∧
    Ready (gs 0x1000 [ent]) 0 .s (.fence a0 0 0) a0 allStr [] [] ∧ ((gs 0x1000).core 0).ops = [] ∧
    ((gs 0x1000 [ent]).core 0).ops = [] ∧ ((gs 0x1000).str 0 .s).sb = [] ∧ PerformedAt (gs 0x1000) 0 .s 4 ∧
    PerformedAt { gs 0x1000 with wire := [⟨0, 1, .req, 0, .store { k := .s } (2 ^ 37) [some 1] false⟩] } 0 .s 2 ∧
    ¬ PerformedAt { gs 0x1000 with wire := [⟨0, 1, .req, 0, .store { k := .s } (2 ^ 37) [some 1] false⟩] } 0 .s 3 := by
  refine ⟨readyB_ready (by decide), readyB_ready (by decide), by decide, by decide, by decide, ?_, ?_, ?_⟩
  · simp [PerformedAt, gs, one, State.setCore, State.reset]
  · simp [PerformedAt, Flit.writer, gs, one, State.setCore, State.reset]
  · simp [PerformedAt, Flit.writer, Writer.isGst, Writer.gstOf, Flit.isStore, gs, one, State.setCore, State.reset]
/-- spec/05 R112: an acquire does not wait for the buffer, a release does. -/
theorem test_fence : ((run (.fence a0 0 0) (gs 0 [ent])).str 0 .s).pc = 0x1004 ∧ ((run (.fence a0 1 0) (gs 0 [ent])).str 0 .s).pc = 0x1000 ∧
    ((run (.fence a0 1 0) (gs 0)).str 0 .s).pc = 0x1004 := by decide

/-! ### The units of a core: spec/07 -/

/-- Strand S with operands in g4 and g5; FIFO 2 holds one token, the queue two events, the tag table 16 entries of which 3 holds 0x77. -/
def us (a b : Word) : State := one .s [(4, a), (5, b)] (fun c => { c with
  tok := [(2, 1)], evq := [0x11, 0x22], ev0 := 2, tagcfg := 16 * 2 ^ 25, tags := [(3, some 0x77)] })

theorem test_token_words : Tab.get 0 ((run (.tkgive false 2) (us 0 0)).core 0).gave 2 = 1 ∧
    Tab.get 0 ((run (.tktake false 2) (us 0 0)).core 0).took 2 = 1 ∧ ((run (.tktake false 3) (us 0 0)).str 0 .s).pc = 0x1000 ∧
    flies (.tkcount false 6 2) (us 0 0) = [.regs 2 6 [1]] := by decide
theorem test_tag_words : flies (.tglook a0 6 4) (us 0x77 0) = [.regs 3 6 [3]] ∧ flies (.tglook a0 6 4) (us 0x78 0) = [.regs 3 6 [-1]] ∧
    ((run (.tgset a0 4 5) (us 9 15)).core 0).tagw = [⟨1, some 15, some 9⟩] ∧ ((run (.tgclr a0 5) (us 9 3)).core 0).tagw = [⟨1, some 3, none⟩] := by decide
/-- An index of COUNT faults with the address of the slot that is not there: 16 slots of 1 KiB. -/
theorem test_tag_range : ((run (.tgset a0 4 5) (us 9 16)).core 0).stops = [⟨2, .s, 6, 0, 0x4000⟩] ∧
    ((run (.tgclrAll a0) (us 0 0)).core 0).tagw = [⟨1, none, none⟩] := by decide
theorem test_event_words : flies (.evpop false 6) (us 0 0) = [.ilock 6 false none] ∧ flies (.evpoll false 6) (us 0 0) = [.regs 2 6 [2]] ∧
    ((run (.idle false) (us 0 0)).str 0 .s).pc = 0x1004 ∧ ((run (.idle false) (one .s [])).str 0 .s).pc = 0x1000 := by decide
theorem test_evpop_lands : let t := run .interlockedResultLands (evAt .s 0 .interlockedResultLands (run (.evpop false 6) (us 0 0)))
    t.rd 0 .s 6 = 0x11 ∧ (t.core 0).evq = [0x22] := by decide

theorem witness_TokenAndEventQueueWordsFollowR147AndR162 : let s := us 0 0
    (s.ctx 0).depth = 0 ∧ Ready s 0 .s (.tkgive false 5) ⟨false, 0⟩ [.s] [] [] ∧
    Tab.get 0 (s.core 0).tok 5 + Tab.get 0 (s.core 0).gave 5 + neighbourGives s 0 false 5 < 8 ∧
    Ready s 0 .s (.tktake false 2) ⟨false, 0⟩ [.s] [] [] ∧ Tab.get 0 (s.core 0).took 2 + (if false then (s.core 0).announced .s 2 else 0) < Tab.get 0 (s.core 0).tok 2 ∧
    Ready s 0 .s (.tkcount false 4 0) ⟨false, 0⟩ [.s] [] [4] ∧ Ready s 0 .s (.evpop false 4) ⟨false, 0⟩ [.s] [] [4] ∧
    (s.core 0).flying .s 4 = false ∧ (s.core 0).records < 64 ∧ Ready s 0 .s (.evpoll true 4) ⟨true, 0⟩ [.s] [] [4] ∧
    Ready s 0 .s (.idle false) ⟨false, 0⟩ [.s] [] [] ∧ (s.core 0).evq ≠ [] :=
  ⟨by decide, readyB_ready (by decide), by decide, readyB_ready (by decide), by decide, readyB_ready (by decide), readyB_ready (by decide), by decide,
    by decide, readyB_ready (by decide), readyB_ready (by decide), by decide⟩

theorem witness_EventQueueWordsFollowR162_lands :
    let s := evAt .s 0 .interlockedResultLands (run (.evpop false 6) (us 0 0))
    ∃ o, s.agenda = .event 0 .s 0 .interlockedResultLands :: [.issue 0 .s] ∧ (s.core 0).alive = true ∧ (s.core 0).ops[0]? = some o ∧
      o.img = .evpop false 6 ∧ o.body = .ilock 6 false none ∧ (s.core 0).evq = 0x11 :: [0x22] ∧
      ∀ p ∈ (s.core 0).ops, (∃ y' d', p.img = .evpop y' d') → o.ord ≤ p.ord := by
  refine ⟨_, rfl, by decide, rfl, rfl, rfl, by decide, ?_⟩
  intro p hp _
  have : ∀ p ∈ ((evAt .s 0 .interlockedResultLands (run (.evpop false 6) (us 0 0))).core 0).ops, 1 ≤ p.ord := by decide
  exact this p hp

theorem witness_TagTableFollowsR160 : let s := us 0x77 15
    Ready s 0 .s (.tglook a0 6 4) a0 allStr [4] [6] ∧ (s.core 0).records < 64 ∧ Ready s 0 .s (.tgset a0 4 5) a0 allStr [4, 5] [] ∧
    (s.rd 0 .s 5).toNat < TagCount (s.core 0).tagcfg ∧ TagCount ((us 0 16).core 0).tagcfg ≤ ((us 0 16).rd 0 .s 5).toNat ∧
    Ready s 0 .s (.tgclr a0 5) a0 allStr [5] [] ∧ Ready s 0 .s (.tgclrAll a0) a0 allStr [] [] :=
  ⟨readyB_ready (by decide), by decide, readyB_ready (by decide), by decide, by decide, readyB_ready (by decide), readyB_ready (by decide)⟩

/-- A cptag completion, S and W write entry 3: W is last. Entry 4 has no write. L clears the table after S has written. -/
theorem witness_TagWritesApplyInStrandOrder :
    let x : Core := { tagw := [⟨4, some 3, some 9⟩, ⟨0, some 3, some 7⟩, ⟨1, some 3, none⟩] }
    (∃ w ∈ x.tagw, w.ix = some 3 ∧ w.place < 5 ∧ ∀ v ∈ x.tagw, (v.ix = some 3 ∨ v.ix = none) → v = w ∨ v.place < w.place) ∧
    (∀ v ∈ x.tagw, v.ix ≠ some 4 ∧ v.ix ≠ none) ∧
    (let z : Core := { tagw := [⟨1, some 3, some 9⟩, ⟨2, none, none⟩] }
     ∃ w ∈ z.tagw, w.ix = none ∧ w.place < 5 ∧ ∀ v ∈ z.tagw, (v.ix = some 3 ∨ v.ix = none) → v = w ∨ v.place < w.place) := by
  refine ⟨⟨⟨4, some 3, some 9⟩, ?_⟩, ?_, ⟨2, none, none⟩, ?_⟩ <;> decide

theorem test_stgo : (let t := run (.stgo false 6 4 1) (cs 0x2000)
      (t.str 0 .l).pc = 0x2000 ∧ (t.str 0 .l).starting = true ∧ (t.str 0 .l).lc0 = 5 ∧ t.rd 0 .l 7 = 7 ∧ t.rd 0 .s 6 = 1) ∧
    (let t := run (.stgo false 6 4 2) (cs 0x2000); (t.str 0 .c).starting = true ∧ (t.str 0 .c).lc0 = 0 ∧ t.rd 0 .s 6 = 1) := by decide
theorem test_stgo_running : (let t := run (.stgo false 6 4 3) (cs 0x2000); (t.str 0 .w).pc = 0 ∧ t.rd 0 .s 6 = 0) ∧
    ((run (.stgo false 6 4 3) (cs 0x2002)).core 0).stops = [⟨2, .s, 7, 0, 0x2002⟩] := by decide
theorem test_stwait_ststop : ((run (.stwait false 3) (cs 0)).str 0 .s).pc = 0x1004 ∧ ((run (.stwait false 4) (cs 0)).str 0 .s).pc = 0x1000 ∧
    ((run (.ststop false 6) (cs 0)).str 0 .w).stopping = true ∧ ((run (.ststop false 6) (cs 0)).str 0 .c).stopping = false := by decide

theorem witness_StrandControlFollowsR152ToR154 : let s := cs 0x2000
    (s.ctx 0).depth = 0 ∧ (∀ i ∈ ([.stgo false 6 4 1, .stgo false 6 4 2, .stgo false 6 4 3] : List Instr), Ready s 0 .s i ⟨false, 0⟩ [.s] [4] [6]) ∧
    (¬ (((cs 2).rd 0 .s 4).extractLsb' 0 2 = 0)) ∧ (s.rd 0 .s 4).extractLsb' 0 2 = 0 ∧
    (∀ b, 57 ≤ b → b < 64 → (s.rd 0 .s 4).getLsbD b = (s.rd 0 .s 4).getLsbD 56) ∧
    (s.str 0 (StrandOf 3)).running = true ∧ (s.str 0 (StrandOf 1)).running = false ∧ (s.str 0 (StrandOf 1)).started = true ∧
    (s.str 0 (StrandOf 2)).started = false ∧ Ready s 0 .s (.stwait false 3) ⟨false, 0⟩ [.s] [] [] ∧
    (∀ j, InMask 3 j → (s.str 0 j).running = false) ∧ Ready s 0 .s (.ststop false 7) ⟨false, 0⟩ [.s] [] [] := by
  refine ⟨by decide, all_ready (by decide), by decide, by decide, by decide, by decide, by decide, by decide, by decide, readyB_ready (by decide), ?_,
    readyB_ready (by decide)⟩
  intro j h; rcases h with ⟨rfl, _⟩ | ⟨rfl, _⟩ | ⟨_, h⟩
  · decide
  · decide
  · exact absurd h (by decide)

/-! ### System registers and traps: spec/05, spec/06 -/

theorem test_sysget : flies (.sysget a0 6 0x10) (one .s []) = [.regs 2 6 [0]] ∧ flies (.sysget a0 6 0x20) (one .s []) = [.regs 2 6 [0x100000]] ∧
    flies (.sysget a0 6 0x29) (one .s []) = [.regs 2 6 [1]] ∧ flies (.sysget a0 6 0x01) (one .c []) = [.regs 2 6 [1]] := by decide
/-- spec/05 R113: sgn stores 0 as 1, a loop count saturates. -/
theorem test_sysset : ((run (.sysset a0 4 1) (one .s [])).str 0 .s).sgn = 1 ∧ ((run (.sysset a0 4 4) (one .s [(4, 2 ^ 32)])).str 0 .s).lc0 = 0xFFFFFFFF ∧
    ((run (.sysset a0 4 0x18) (one .s [(4, 0x40)])).ctx 0).tvec = 0x40 ∧
    ((run (.sysset a0 4 0x10) (one .s [])).core 0).stops.map (·.code) = [1] := by decide

theorem witness_SystemRegisterWordsFollowR114AndR115 :
    (∀ i ∈ ([.sysget a0 4 0, .sysget a0 4 7, .sysget a0 4 0x1C, .sysget a0 4 0x37] : List Instr), Ready (us 0 0) 0 .s i a0 allStr [] [4]) ∧
    Ready (one .l []) 0 .l (.sysget a0 4 7) a0 allStr [] [4] ∧ ((us 0 0).core 0).records < 64 ∧
    (∀ i ∈ ([.sysset a0 4 0, .sysset a0 4 1, .sysset a0 4 7, .sysset a0 4 0x18, .sysset a0 4 0x19, .sysset a0 4 0x1A, .sysset a0 4 0x22,
      .sysset a0 4 0x30, .sysset a0 4 0x36] : List Instr), Ready (us 0x8004 0) 0 .s i a0 allStr [4] []) ∧
    Ready (one .c []) 0 .c (.sysset a0 4 1) a0 allStr [4] [] ∧ ((one .c []).core 0).drawing = false ∧ ((us 0 0).core 0).ctx.isSome = true :=
  ⟨all_ready (by decide), readyB_ready (by decide), by decide, all_ready (by decide), readyB_ready (by decide), by decide, by decide⟩

/-- Values at the edges: a status with rounding 4, a vector at each edge of the canonical halves, a cause with every field it has; a tag table off
its slots, one that ends beyond the region, one that ends with it. -/
theorem witness_SyssetWritesTheRegister_values :
    GoodStatus (us 0 0) 0 0x000C ∧
    (let v : Word := 0x00FFFFFFFFFFFFFC; v.extractLsb' 0 2 = 0 ∧ ∀ j, 57 ≤ j → j < 64 → v.getLsbD j = v.getLsbD 56) ∧
    (let v : Word := 0x0100000000000000; v.extractLsb' 0 2 = 0 ∧ ¬ ∀ j, 57 ≤ j → j < 64 → v.getLsbD j = v.getLsbD 56) ∧
    (let v : Word := 0xFF03FF; v.extractLsb' 24 40 = 0 ∧ v.extractLsb' 10 6 = 0) ∧
    (let v : Word := 256 * 2 ^ 25 + 6 * 2 ^ 20 + 1; v.extractLsb' 34 30 = 0 ∧ v.getLsbD 24 = false ∧ TagCount v ≤ 256 ∧ (v.extractLsb' 20 4).toNat ≤ 6 ∧
      TagBase v % TagSlotBytes v ≠ 0) ∧
    (let v : Word := 17 * 2 ^ 25 + 6 * 2 ^ 20; v.extractLsb' 34 30 = 0 ∧ v.getLsbD 24 = false ∧ TagCount v ≤ 256 ∧ (v.extractLsb' 20 4).toNat ≤ 6 ∧
      TagBase v % TagSlotBytes v = 0 ∧ ((us 0 0).ctx 0).scrsize < TagBase v + TagCount v * TagSlotBytes v) ∧
    (let v : Word := 16 * 2 ^ 25 + 6 * 2 ^ 20; v.extractLsb' 34 30 = 0 ∧ v.getLsbD 24 = false ∧ TagCount v ≤ 256 ∧ (v.extractLsb' 20 4).toNat ≤ 6 ∧
      TagBase v % TagSlotBytes v = 0 ∧ TagBase v + TagCount v * TagSlotBytes v ≤ ((us 0 0).ctx 0).scrsize) := by
  unfold GoodStatus; decide

/-- Strand S writes wpc 0; wpa 0 holds `va`; a leaf maps the first 64 KiB to `pa`. -/
def ws (v va : Word) (pa : Nat := 2 ^ 30) (p : Pkg := {}) : State :=
  { one .s [(4, v)] id { wpa := [(0, va)] } with tlb := [⟨0, none, 0, 0, 2 ^ 16, pa, 7, none⟩], vfs := [(0, { ptroot := 1 })], pkg := p }

/-- spec/15 R318: a range of 16 bytes at 0x100 arms at its physical address. -/
theorem test_wpc_arms : (run (.sysset a0 4 0x31) (ws 1 0x100)).armed = [⟨1, 0, 2 ^ 30 + 0x100, 16⟩] ∧
    ((run (.sysset a0 4 0x31) (ws 1 0x108)).core 0).stops = [⟨2, .s, 7, 0, 0x108⟩] ∧ (run (.sysset a0 4 0x31) (ws 0 0)).armed = [] := by decide
/-- spec/19 R392, R393: die 1 in another partition refuses the range, and behind a shut link the word waits. -/
theorem test_wpc_refused : ((run (.sysset a0 4 0x31) (ws 1 0x100 (2 ^ 37) { pid := 8 })).core 0).stops = [⟨2, .s, 0x39, 0, 0x100⟩] ∧
    ((run (.sysset a0 4 0x31) (ws 1 0x100 (2 ^ 37) { force := [(0, true)] })).str 0 .s).pc = 0x1000 := by decide

theorem witness_WatchpointsAndTrapsFollowR318AndR116 :
    Ready (ws 0xC009 0xF000) 0 .s (.sysset a0 4 0x31) a0 allStr [4] [] ∧ (0x31 : BitVec 8).toNat = 0x31 + 2 * 0 ∧ ((ws 0xC009 0xF000).core 0).ctx.isSome = true ∧
    (let v := (ws 0xC001 0xF000).rd 0 .s 4; v.extractLsb' 16 48 = 0 ∧ v.extractLsb' 4 8 = 0 ∧ v.extractLsb' 1 2 = 0 ∧ (v.extractLsb' 12 4).toNat ≤ 12 ∧
      v.getLsbD 0 = true) ∧ ((ws 0xC000 0).rd 0 .s 4).getLsbD 0 = false ∧
    (let v := (ws 0x0001 0x108).rd 0 .s 4; v.getLsbD 0 = true ∧ ¬ GoodGlobal (Tab.get 0 ((ws 0x0001 0x108).ctx 0).wpa 0) (2 ^ (4 + (v.extractLsb' 12 4).toNat))) ∧
    GoodGlobal (Tab.get 0 ((ws 0x0001 0xFFF0).ctx 0).wpa 0) 16 := by
  refine ⟨readyB_ready (by decide), by decide, by decide, by decide, by decide, ?_, ?_⟩ <;> unfold GoodGlobal <;> decide

/-- A range that arms, one that is refused, one outside HBM and SDM, and one behind a shut link. -/
theorem witness_WatchpointsArmByR318_homes :
    (let s := ws 1 0xFFF0; MappedAt s 0 .s 0xFFF0 .read (2 ^ 30 + 0xFFF0) ∧ s.refused 0 (2 ^ 30 + 0xFFF0) = false ∧ homeOf (2 ^ 30 + 0xFFF0) = .hbm 0 ∧
      s.heldUp 0 (2 ^ 30 + 0xFFF0) = false) ∧
    (let s := ws 1 0x100 (2 ^ 37) { pid := 8 }; MappedAt s 0 .s 0x100 .read (2 ^ 37 + 0x100) ∧ s.refused 0 (2 ^ 37 + 0x100) = true) ∧
    (let s := ws 1 0x100 (2 ^ 51); MappedAt s 0 .s 0x100 .read (2 ^ 51 + 0x100) ∧ s.refused 0 (2 ^ 51 + 0x100) = false ∧ homeOf (2 ^ 51 + 0x100) = .host 0x100) ∧
    (let s := ws 1 0x100 (2 ^ 37) { force := [(0, true)] }; MappedAt s 0 .s 0x100 .read (2 ^ 37 + 0x100) ∧ s.refused 0 (2 ^ 37 + 0x100) = false ∧
      homeOf (2 ^ 37 + 0x100) = .hbm 2 ∧ s.heldUp 0 (2 ^ 37 + 0x100) = true) := by
  unfold MappedAt; decide

theorem witness_TrapAndBrkStopTheCore : Ready (us 7 0) 0 .s (.trap a0 4 255) a0 allStr [4] [] ∧ Ready (us 7 0) 0 .s (.brk a0 0) a0 allStr [] [] :=
  ⟨readyB_ready (by decide), readyB_ready (by decide)⟩
theorem test_trap_brk : ((run (.trap a0 4 9) (us 7 0)).core 0).stops = [⟨1, .s, 3, 9, 7⟩] ∧
    ((run (.brk a0 8) (us 7 0)).core 0).stops = [⟨1, .s, 2, 8, 0x1000⟩] ∧ ((run (.brk a0 8) (us 7 0)).str 0 .s).pc = 0x1004 := by decide

/-! ### Copy words: spec/11 -/

/-- Strand `k` with operands in g4 to g7; shape register 0 holds 16 f32, 1 holds 16 s32, 2 holds 8 s64, 3 nothing. The tag table has 2 slots of
1 KiB, and a record lies at 0x100 of the scratchpad. -/
def ks (k : StrandIx) (a b : Word) (d : Word := 0) : State := one k [(4, a), (5, b), (6, b), (7, d)] (fun c => { c with
  sh := [(0, ⟨rcd 8 16, 0, List.replicate 9 0, true⟩), (1, ⟨rcd 4 16, 0, List.replicate 9 0, true⟩), (2, ⟨rcd 6 8, 0, List.replicate 9 0, true⟩)]
  tagcfg := 2 * 2 ^ 25
  scr := (List.range 128).zip (rcd 8 16) |>.filterMap (fun e => if e.2 == 0 then none else some (e.1 + 0x100, e.2)) })

/-- The commands in the queues of core 0 after a word: registers, first image byte, elements. -/
def queued (i : Instr) (s : State) : List (Word × Word × Nat × Nat) :=
  let x := (run i s).core 0
  (x.lq ++ x.wq).map (fun q => (q.sreg, q.greg, q.x, q.n))

theorem test_cpshape : (let y := Tab.get {} ((run (.cpshape a0 3 4 5) (ks .l 0x100 7)).core 0).nextCycle.sh 3
      y.valid = true ∧ recEt y.bytes = 8 ∧ recN y.bytes = 16 ∧ y.fill = 7) ∧
    stopped (.cpshape a0 3 4 5) (ks .l 0x108 7) = [(0x11, 0x108)] ∧ stopped (.cpshape a0 3 4 5) (ks .l 0x200 7) = [(0x10, 0x302)] := by decide
theorem test_origins : (Tab.get {} ((run (.cporg a0 0 4 0) (ks .l (-5) 0)).core 0).nextCycle.sh 0).org.headD 0 = -5 ∧
    (Tab.get {} ((run (.cpstep a0 0 4 0) (ks .w 7 0)).core 0).nextCycle.sh 0).org.headD 0 = 7 ∧
    stopped (.cporg a0 3 4 0) (ks .l 0 0) = [(0x10, 0x307)] ∧ stopped (.cpstep a0 0 4 1) (ks .l 0 0) = [(0x10, 0x1009)] := by decide
theorem test_moves : queued (.cpld a0 0 4 5 false) (ks .l 0x40 0x1000) = [(0x40, 0x1000, 0x40, 16)] ∧
    queued (.cpst a0 0 4 5 false) (ks .w 0x40 0x1000) = [(0x40, 0x1000, 0x40, 16)] ∧
    queued (.cpgat a0 0 4 3 false) (ks .l 0x40 0x1000 0x80) = [(0x40, 0x1000, 0x40, 16)] ∧
    queued (.cpsca a0 0 4 3 false) (ks .w 0x40 0x1000 0x80) = [(0x40, 0x1000, 0x40, 16)] := by decide
theorem test_move_checks : stopped (.cpld a0 3 4 5 false) (ks .l 0x41 0x1001) = [(0x10, 0x307)] ∧
    stopped (.cpld a0 0 4 5 false) (ks .l 0x41 0x1001) = [(0x11, 0x41)] ∧ stopped (.cpst a0 0 4 5 false) (ks .w 0x40 0x1001) = [(0x11, 0x1001)] ∧
    stopped (.cpgat a0 0 4 3 false) (ks .l 0x40 0x1000 0x84) = [(0x11, 0x84)] ∧ stopped (.cpsca a0 0 4 3 false) (ks .w 0xFFFF0 0x1000 0) = [(6, 0x100000)] := by decide
theorem test_cpldm_cptag : queued (.cpldm a0 0 4 5 false) (ks .l 0x8001000000000040 0x1000) = [(0x8001000000000040, 0x1000, 0x40, 16)] ∧
    ((run (.cpldm a0 0 4 5 false) (ks .l 0x8001000000000040 0x1000)).core 0).lq.map (·.mleft) = [[0, 15]] ∧
    stopped (.cpldm a0 0 4 5 false) (ks .l 0x40 0x1000) = [(0x15, 0)] ∧ queued (.cptag a0 0 4 5 false) (ks .l 1 0x1000) = [(1, 0x1000, 0x400, 16)] ∧
    stopped (.cptag a0 0 4 5 false) (ks .l 2 0x1000) = [(6, 0x800)] := by decide
theorem test_accumulations : ([.cpaccAdd, .cpaccMin, .cpaccMax, .cpaccAnd, .cpaccOr, .cpaccXor, .cpaccXchg]
      : List (Ann → BitVec 4 → Reg → Reg → Bool → Instr)).all (fun i => queued (i a0 1 4 5 false) (ks .w 0x40 0x1000) == [(0x40, 0x1000, 0x40, 16)]) = true ∧
    queued (.cpaccCas a0 2 4 5 false) (ks .w 0x40 0x1000) = [(0x40, 0x1000, 0x40, 8)] ∧
    stopped (.cpaccCas a0 1 4 5 false) (ks .w 0x40 0x1000) = [(0x10, 0x108)] ∧
    stopped (.cpaccAdd a0 1 4 5 false) (ks .w 0x0001000000000040 0x1000) = [(6, 0x0001000000000040)] := by decide
theorem test_fills : queued (.cpfill a0 0 5 false) (ks .l 0 0x1000) = [(0, 0x1000, 0, 16)] ∧ queued (.cpfillScr a0 0 5 false) (ks .w 0 0x40) = [(0, 0x40, 0x40, 16)] ∧
    queued (.cpres a0 4 5 false) (ks .w 8 0x1000) = [(8, 0x1000, 8, 1)] ∧ queued (.cpreg a0 4 5 false) (ks .w 8 0x1000) = [(8, 0x1000, 8, 1)] ∧
    queued (.cpsig a0 5 false 1) (ks .w 0 0x1080) = [(0, 0x1080, 0, 1)] := by decide
theorem test_fill_checks : stopped (.cpfillScr a0 0 5 false) (ks .w 0 0xFFFF0) = [(6, 0x100000)] ∧ stopped (.cpsig a0 5 false 1) (ks .w 0 0x1040) = [(0x11, 0x1040)] ∧
    stopped (.cpres a0 4 5 false) (ks .w 4 0x1000) = [(0x11, 4)] ∧ stopped (.cpreg a0 4 5 false) (ks .w 8 0x1008) = [(0x11, 0x1008)] := by decide
theorem test_drains_seam : ((run (.cpdrain a0 false) (ks .l 0 0)).core 0).lq.length = 1 ∧ ((run (.cpdrainBoth a0 false) (ks .w 0 0)).core 0).wq.length = 1 ∧
    ((run (.seam a0) (ks .l 0 0)).core 0).lq.length = 1 ∧ ((run (.seam a0) (ks .w 0 0)).core 0).wq.length = 1 := by decide

theorem witness_ShapeWordsFollowR226AndR227 :
    (∀ k ∈ [StrandIx.l, .w], Ready (ks k 0x100 7) 0 k (.cpshape a0 3 4 5) a0 [.l, .w] [4, 5] [] ∧
      Ready (ks k 0x100 7) 0 k (.cporg a0 0 4 0) a0 [.l, .w] [4] [] ∧ Ready (ks k 0x100 7) 0 k (.cpstep a0 0 4 8) a0 [.l, .w] [4] []) ∧
    ((ks .l 0x101 0).rd 0 .l 4).toNat % 16 ≠ 0 ∧
    (let x := (ks .l 0xFFF90 0).rd 0 .l 4; x.toNat % 16 = 0 ∧ ((ks .l 0 0).ctx 0).scrsize < x.toNat + 128) ∧
    (let x := (ks .l 0xFFF80 0).rd 0 .l 4; x.toNat % 16 = 0 ∧ x.toNat + 128 ≤ ((ks .l 0 0).ctx 0).scrsize ∧ ((ks .l 0 0).ctx 0).scrmode = 0 ∧
      ((ks .l 0 0).core 0).unwritten x.toNat 128 = [65528, 65529, 65530, 65531, 65532, 65533, 65534, 65535]) ∧
    ((one .l [] id { scrmode := 2 }).ctx 0).scrmode = 2 ∧ ((one .l [] id { scrmode := 1 }).ctx 0).scrmode = 1 := by
  refine ⟨?_, by decide, by decide, by decide, by decide, by decide⟩
  intro k hk; fin_cases hk <;> exact ⟨readyB_ready (by decide), readyB_ready (by decide), readyB_ready (by decide)⟩

/-- W and L write register 3 in one clock cycle, and L alone register 4; register 5 has no write. -/
theorem witness_ShapeWritesLandByR228 : let a : ShapeWr := ⟨.w, 3, { fill := 1 }⟩; let b : ShapeWr := ⟨.l, 3, { fill := 2 }⟩; let e : ShapeWr := ⟨.l, 4, {}⟩
    let x : Core := { shw := [a, b, e] }
    (∀ v ∈ x.shw, v.h ≠ 5) ∧ (x.shw = [] ++ a :: [b, e] ∧ a.h = 3 ∧ a.k = .w ∧ ∀ v ∈ [b, e], v.k = .w → v.h ≠ 3) ∧
    (x.shw = [a, b] ++ e :: [] ∧ e.h = 4 ∧ e.k ≠ .w ∧ ∀ v ∈ x.shw, v.k = .w → v.h ≠ 4) := by decide

/-- The checks of the words all pass, and the last or a middle one fails alone. -/
theorem witness_DataCommandsEnterTheirQueue :
    Ready (ks .l 0x40 0x1000) 0 .l (.cpld a0 0 4 5 false) a0 [.l] [4, 5] [] ∧ Ready (ks .w 0x40 0x1000) 0 .w (.cpst a0 0 4 5 true) a0 [.w] [4, 5] [] ∧
    Ready (ks .l 0x40 0x1000) 0 .l (.cpgat a0 0 4 3 false) a0 [.l] [4, PairOf 3, PairOf 3 + 1] [] ∧
    Ready (ks .w 0x40 0x1000) 0 .w (.cpsca a0 0 4 3 false) a0 [.w] [4, PairOf 3, PairOf 3 + 1] [] ∧
    Ready (ks .l 0x40 0x1000) 0 .l (.cpldm a0 0 4 5 false) a0 [.l] [4, 5] [] ∧ Ready (ks .l 1 0x1000) 0 .l (.cptag a0 0 4 5 false) a0 [.l] [4, 5] [] ∧
    ((ks .l 0x40 0x1000).core 0).records < 64 ∧ ((ks .l 0x40 0x1000).core 0).lq.length < 16 :=
  ⟨readyB_ready (by decide), readyB_ready (by decide), readyB_ready (by decide), readyB_ready (by decide), readyB_ready (by decide), readyB_ready (by decide),
    by decide, by decide⟩

theorem witness_DataCommandsEnterTheirQueue_checks :
    (let s := ks .l 0xFFFC0 0x1000; ∀ f ∈ ShapeChecks s 0 0 anyEt ++ [Aligned 16 (s.rd 0 .l 4), Aligned (ElementSize s 0 0) (s.rd 0 .l 5),
      InScratch s 0 (s.rd 0 .l 4).toNat (ElementCount s 0 0 * ElementSize s 0 0)], f.1) ∧
    (let s := ks .l 0xFFFD0 0x1000; ∃ p e, ShapeChecks s 0 0 anyEt ++ [Aligned 16 (s.rd 0 .l 4), Aligned (ElementSize s 0 0) (s.rd 0 .l 5),
      InScratch s 0 (s.rd 0 .l 4).toNat (ElementCount s 0 0 * ElementSize s 0 0)] = p ++ e :: [] ∧ (∀ f ∈ p, f.1) ∧ ¬ e.1) ∧
    (let s := ks .w 0x40 0x1000 0x80; ∀ f ∈ ShapeChecks s 0 0 anyEt ++ [Aligned 16 (s.rd 0 .w 4), Aligned 8 (s.rd 0 .w (PairOf 3 + 1)),
      Aligned (ElementSize s 0 0) (s.rd 0 .w (PairOf 3)), InScratch s 0 (s.rd 0 .w 4).toNat (ElementCount s 0 0 * ElementSize s 0 0),
      InScratch s 0 (s.rd 0 .w (PairOf 3 + 1)).toNat (8 * recW (ShapeOf s 0 0).bytes (recDim (ShapeOf s 0 0).bytes - 1))], f.1) := by
  refine ⟨pass_cons (by decide) (pass_cons (by decide) (pass_cons (by decide) (pass_cons (by decide) (pass_cons (by decide) pass_nil)))),
    ⟨[_, _, _, _], _, rfl, pass_cons (by decide) (pass_cons (by decide) (pass_cons (by decide) (pass_cons (by decide) pass_nil))), by simp only [InScratch]; decide⟩,
    pass_cons (by decide) (pass_cons (by decide) (pass_cons (by decide) (pass_cons (by decide) (pass_cons (by decide) (pass_cons (by decide)
      (pass_cons (by decide) pass_nil))))))⟩

theorem witness_DataCommandsEnterTheirQueue_tags :
    (let s := ks .l 1 0x1000; ∀ f ∈ ShapeChecks s 0 0 anyEt ++ [Aligned (ElementSize s 0 0) (s.rd 0 .l 5),
      ((s.rd 0 .l 4).toNat < TagCount (s.core 0).tagcfg, 0x06, 0), (ElementCount s 0 0 * ElementSize s 0 0 ≤ TagSlotBytes (s.core 0).tagcfg, 0x06, 0)], f.1) ∧
    (let s := ks .l 2 0x1000; ¬ (s.rd 0 .l 4).toNat < TagCount (s.core 0).tagcfg) ∧
    (let a := (ks .l 0x0001000000000040 0).rd 0 .l 4; a.extractLsb' 48 16 ≠ 0) ∧ ¬ (let a := (ks .l 0x40 0).rd 0 .l 4; a.extractLsb' 48 16 ≠ 0) :=
  ⟨pass_cons (by decide) (pass_cons (by decide) (pass_cons (by decide) (pass_cons (by decide) (pass_cons (by decide) pass_nil)))), by decide, by decide,
    by decide⟩

theorem witness_AccumulationsEnterTheWQueue :
    (∀ i ∈ ([.cpaccAdd a0 1 4 5 false, .cpaccMin a0 1 4 5 false, .cpaccMax a0 1 4 5 false, .cpaccAnd a0 1 4 5 false, .cpaccOr a0 1 4 5 false,
      .cpaccXor a0 1 4 5 false, .cpaccXchg a0 1 4 5 false, .cpaccCas a0 2 4 5 true] : List Instr), Ready (ks .w 0x40 0x1000) 0 .w i a0 [.w] [4, 5] []) ∧
    ((ks .w 0x40 0x1000).core 0).records < 64 ∧
    (let s := ks .w 0xFFFC0 0x1000; let x := ((s.rd 0 .w 4).extractLsb' 0 47).setWidth 64
     ∀ f ∈ ShapeChecks s 0 1 [4, 5, 6, 7, 8] ++ [Aligned 16 x, Aligned (ElementSize s 0 1) (s.rd 0 .w 5),
      ((s.rd 0 .w 4).extractLsb' 48 16 = 0, 0x06, s.rd 0 .w 4), InScratch s 0 x.toNat (ElementCount s 0 1 * ElementSize s 0 1)], f.1) ∧
    (let s := ks .w 0x0001000000000040 0x1000; ¬ (s.rd 0 .w 4).extractLsb' 48 16 = 0) :=
  ⟨all_ready (by decide), by decide,
    pass_cons (by decide) (pass_cons (by decide) (pass_cons (by decide) (pass_cons (by decide) (pass_cons (by decide) (pass_cons (by decide) pass_nil))))),
    by decide⟩

theorem witness_FillsFuturesDrainsAndSeamsEnterTheirQueue : let s := ks .w 8 0x1000
    (s.core 0).records < 64 ∧ Ready s 0 .w (.cpfill a0 0 5 false) a0 [.l, .w] [5] [] ∧ Ready s 0 .w (.cpfillScr a0 0 5 true) a0 [.l, .w] [5] [] ∧
    Ready s 0 .w (.cpres a0 4 5 false) a0 [.w] [4, 5] [] ∧ Ready s 0 .w (.cpreg a0 4 5 false) a0 [.w] [4, 5] [] ∧
    Ready s 0 .w (.cpsig a0 5 false 7) a0 [.w] [5] [] ∧ Ready s 0 .w (.cpdrain a0 false) a0 [.l, .w] [] [] ∧
    Ready (ks .l 0 0) 0 .l (.cpdrainBoth a0 true) a0 [.l, .w] [] [] ∧ Ready (ks .l 0 0) 0 .l (.seam a0) a0 [.l, .w] [] [] ∧
    (∀ f ∈ [Aligned 8 (s.rd 0 .w 4), Aligned 16 (s.rd 0 .w 5), InScratch s 0 (s.rd 0 .w 4).toNat 8], f.1) ∧
    ¬ (Aligned 128 ((ks .w 0 0x1040).rd 0 .w 5)).1 ∧ (QueueOf (s.core 0) .w).length < 16 :=
  ⟨by decide, readyB_ready (by decide), readyB_ready (by decide), readyB_ready (by decide), readyB_ready (by decide), readyB_ready (by decide),
    readyB_ready (by decide), readyB_ready (by decide), readyB_ready (by decide), pass_cons (by decide) (pass_cons (by decide) (pass_cons (by decide) pass_nil)),
    by simp only [Aligned]; decide, by decide⟩

/-! ### Barriers, sets, tasks and collectives: spec/13, spec/14, spec/16, spec/17, spec/21 -/

/-- spec/13 R265: the first arrival of a generation fixes its count; the last starts the next one. -/
theorem test_barr : (run (.barr false 4 0) (ps [(4, 2)])).barrier 0 0 = { need := 2, arr := [1] } ∧
    (run (.barr false 4 1) (ps [(4, 9)])).barrier 0 1 = { gen := 6, done := some 0, was := 5 } ∧
    stopped (.barr false 4 8) (ps [(4, 2)]) = [(1, (parcel0 (.barr false 4 8)).setWidth 64 + 6 * 2 ^ 32)] := by decide
/-- spec/13 R266: a bwait of the clock cycle in which the generation completes waits still. -/
theorem test_bwait_same_cycle : let s := { ps [(4, 6)] with clusters := [(0, { wins := [⟨0, 16, 8⟩], bar := [(17, { gen := 6, done := some 0, was := 5 })] })] }
    ((run (.bwait false 4 1) s).str 0 .s).pc = 0x1000 ∧ ((run (.bwait false 4 1) { s with clock := 1 }).str 0 .s).pc = 0x1004 := by decide
/-- spec/13 R268: the generation is compared as a signed difference of 32 bits. -/
theorem test_bwait_btest : ((run (.bwait false 4 1) (ps [(4, 5)])).str 0 .s).pc = 0x1004 ∧ ((run (.bwait false 4 1) (ps [(4, 6)])).str 0 .s).pc = 0x1000 ∧
    flies (.btest false 4 1) (ps []) = [.ilock 4 false none] := by decide

theorem witness_BarrierWordsFollowR265ToR269 :
    (∀ v ∈ [0, 1, 255, 256], Ready (ps [(4, v)]) 0 .s (.barr false 4 7) ⟨false, 0⟩ [.s] [4] []) ∧ Ready (ps [(4, 1)]) 0 .s (.barr false 4 8) ⟨false, 0⟩ [.s] [4] [] ∧
    BarrierCount (ps []) 0 ≤ (8 : BitVec 5).toNat ∧ (7 : BitVec 5).toNat < BarrierCount (ps []) 0 ∧ (ps []).released 0 .s 1 = true ∧
    (gs 0 [ent]).released 0 .s 1 = false ∧ Ready (ps [(4, 5)]) 0 .s (.bwait false 4 1) ⟨false, 0⟩ [.s] [4] [] ∧
    (let past (v : Word) := (((ps [(4, v)]).barrier 0 1).gen.toInt - (((ps [(4, v)]).rd 0 .s 4).extractLsb' 0 32).toInt) % 2 ^ 32
     past 5 < 2 ^ 31 ∧ 2 ^ 31 ≤ past 6 ∧ past 0x80000006 < 2 ^ 31 ∧ 2 ^ 31 ≤ past 0x80000005) ∧ SeenGen ((ps []).barrier 0 1) 0 = 5 ∧
    Ready (ps []) 0 .s (.btest false 4 1) ⟨false, 0⟩ [.s] [] [4] ∧ ((ps []).core 0).flying .s 4 = false ∧ ((ps []).core 0).records < 64 ∧
    Ready (ps [(4, 5)]) 0 .s (.bwait false 4 8) ⟨false, 0⟩ [.s] [4] [] ∧ Ready (ps []) 0 .s (.btest false 4 31) ⟨false, 0⟩ [.s] [] [4] := by
  refine ⟨?_, readyB_ready (by decide), by decide, by decide, by decide, by decide, readyB_ready (by decide), by decide, by decide, readyB_ready (by decide),
    by decide, by decide, readyB_ready (by decide), readyB_ready (by decide)⟩
  intro v hv; fin_cases hv <;> exact readyB_ready (by decide)

theorem test_asdecl : (run (.asdecl false 4 5 6) (ds 9 0x2000 0x100)).setEnt 0 0 = some (aset 9 0x2000) ∧
    stopped (.asdecl false 4 5 6) (ds 9 0x2000 0x108) = [(0x21, 5)] ∧ stopped (.asdecl false 4 5 6) (ds 9 0x2000 0x100 [(0, some (aset 9 0x3000))]) = [(0x21, 2)] ∧
    stopped (.asdecl false 4 5 6) (ds 8 0x2000 0x100 [(0, some (aset 9 0x20F0))]) = [(0x21, 3)] := by decide
theorem test_set_words : (run (.asdeclRm false 4) (ds 9 0 0 [(0, some (aset 9 0x3000))])).setEnt 0 0 = none ∧
    stopped (.asdeclRm false 4) (ds 9 0 0 [(0, some (aset 9 0x3000 .held 1))]) = [(0x21, 4)] ∧
    ((run (.asabort false) (ds 9 0 0 [(0, some (aset 9 0x3000 .held 1))])).core 0).restart = some (0, 2 ^ 32 - 1) ∧
    ((run (.asabort false) (ds 9 0 0 [(0, some (aset 9 0x3000 .held 1))])).setEnt 0 0).map (·.st) = some .wounding := by decide
theorem test_asstat : flies (.asstatSt false 4) (ds 0 0 0) = [.ilock 4 false none] ∧ flies (.asstatAge false 4) (ds 0 0 0) = [.ilock 4 false none] ∧
    flies (.asstatSet false 4 5) (ds 0 0 0) = [.ilock 4 false none] := by decide

theorem witness_SetWordsFollowR280ToR296 : let s := ds 9 0x2000 0x100 [(0, some (aset 9 0x2000))]
    s.feat (s.ctx 0).vf 8 = true ∧ Ready s 0 .s (.asdecl false 4 5 6) ⟨false, 0⟩ [.s] [4, 5, 6] [] ∧ (s.core 0).acquiring .s = false ∧
    ¬ GoodGlobal ((ds 9 0x2008 0).rd 0 .s 5) 16 ∧ GoodGlobal (s.rd 0 .s 5) 16 ∧
    ¬ (0x00FFFFFFFFFFFFF0 + 0x20 - 1 < 2 ^ 64 ∧ GoodGlobal ((0x00FFFFFFFFFFFFF0 : Word) + BitVec.ofNat 64 0x20 - 1) 1) ∧
    ¬ ((0xFFFFFFFFFFFFFFF0 : Word).toNat + 0x20 - 1 < 2 ^ 64) ∧ GoodGlobal (s.rd 0 .s 5 + BitVec.ofNat 64 0x100 - 1) 1 ∧
    LiesOn s 0 (s.rd 0 .s 5) 0x100 0 ∧ s.sysReleased 0 .s = true ∧ setNamed (s.vf 0) (s.rd 0 .s 4) = some (0, aset 9 0x2000) ∧
    setNamed (s.vf 0) 8 = none ∧ Overlap (aset 9 0x2000) 0x20F0 0x10 ∧ ¬ Overlap (aset 9 0x2000) 0x2100 0x10 ∧
    Tab.get none (s.vf 0).sets 1 = none ∧ (∀ e < 1, Tab.get none (s.vf 0).sets e ≠ none) := by
  refine ⟨by decide, readyB_ready (by decide), by decide, ?_, ?_, ?_, by decide, ?_, ?_, by decide, by decide, by decide, ?_, ?_, by decide, by decide⟩
  · unfold GoodGlobal; decide
  · unfold GoodGlobal; decide
  · unfold GoodGlobal; decide
  · unfold GoodGlobal; decide
  · intro j hj
    have : j = 0 := by
      have h : (((ds 9 0x2000 0x100 [(0, some (aset 9 0x2000))]).rd 0 .s 5).toNat % 2 ^ 16 + 0x100 - 1) / 2 ^ 16 = 0 := by decide
      omega
    subst this
    exact ⟨0x2000, by unfold MappedAt; decide, by decide, .inl ⟨0, by decide, by decide⟩⟩
  · unfold Overlap; decide
  · unfold Overlap; decide

/-- A full table of 256 sets; the words beside asdecl. -/
theorem witness_SetWordsFollowR280ToR296_others : let s := ds 9 0 0 [(0, some (aset 9 0x3000 .held 1))]
    (∀ j < 256, Tab.get none (((List.range 256).map (fun j => (j, some (aset (BitVec.ofNat 64 j) 0x3000)))) : Tab (Option SetEnt)) j ≠ none) ∧
    Ready s 0 .s (.asdeclRm false 4) ⟨false, 0⟩ [.s] [4] [] ∧ setNamed (s.vf 0) 9 = some (0, aset 9 0x3000 .held 1) ∧
    (aset 9 0x3000 .held 1).holder = (s.ctx 0).task ∧ (aset 9 0x3000 .held 2).holder ≠ (s.ctx 0).task ∧
    Ready s 0 .s (.asabort false) ⟨false, 0⟩ [.s] [] [] ∧ (s.core 0).flying .s 6 = false ∧ (s.core 0).records < 64 ∧
    (∀ i ∈ ([.asstatSt false 6, .asstatAge false 6] : List Instr), Ready s 0 .s i ⟨false, 0⟩ [.s] [] [6]) ∧
    Ready s 0 .s (.asstatSet false 6 4) ⟨false, 0⟩ [.s] [4] [6] :=
  ⟨by decide +kernel, readyB_ready (by decide), by decide, by decide, by decide, readyB_ready (by decide), by decide, by decide, all_ready (by decide),
    readyB_ready (by decide)⟩

/-- S submits the record at 0x4000, of revision 3 and function 0, to queue 5 of die 0. -/
def ts (q : Queue) : State := { ps [(4, 0x4000), (5, 5)] [(0x4001, 3)] [] {} q with tlb := [⟨0, none, 0, 0, 2 ^ 16, 0, 7, none⟩] }

theorem test_tspawn : ((run (.tspawn false 4 5) (ts { qctl := 3 * 2 ^ 16, st := .active })).queue 0 5).fifo = [0x4000] ∧
    stopped (.tspawn false 4 5) (ts { qctl := 4 * 2 ^ 16, st := .active }) = [(0x1A, 3 + 4 * 2 ^ 8 + 5 * 2 ^ 16)] ∧
    stopped (.tspawn false 4 5) (ts { qctl := 3 * 2 ^ 16 }) = [(0x1A, 2 ^ 22 + 5 * 2 ^ 16)] ∧
    stopped (.tspawn false 4 5) (ts { qctl := 3 * 2 ^ 16 + 1, st := .active }) = [(0x1A, 2 ^ 23 + 5 * 2 ^ 16)] := by decide
theorem test_tdone_tchk : ((run (.tdone false) (ps [])).core 0).ctx = none ∧ ((run (.tdone false) (cs 0)).str 0 .s).pc = 0x1000 ∧
    (run (.tchk false 4) (ps [(4, 9)])).rd 0 .s 4 = 0 ∧ ((run (.tchk false 4) (ps [] [] [] { preempt := .drain 0 })).ctx 0).drainPt = some 4 := by decide

theorem witness_TaskWordsFollowR342R350AndR351 : let s := ts { qctl := 3 * 2 ^ 16, st := .active }
    Ready s 0 .s (.tspawn false 4 5) ⟨false, 0⟩ [.s] [4, 5] [] ∧ (s.ctx 0).depth = 0 ∧ GoodGlobal (s.rd 0 .s 4) 128 ∧
    ¬ GoodGlobal ((one .s [(4, 0x4040)]).rd 0 .s 4) 128 ∧ s.sysReleased 0 .s = true ∧ (gs 0 [ent]).sysReleased 0 .s = false ∧
    (∃ s', readNow s 0 (unitHead .s) 0 (s.rd 0 .s 4) .read 8 = (s', .ok 0x4000)) ∧ ((WordAt s 0x4000).extractLsb' 8 8).toNat = 3 ∧
    ((WordAt s 0x4000).extractLsb' 16 9).toNat = 0 ∧ (s.queue 0 5).fifo.length < 256 ∧ s.partOf 0 = s.partOf (dieOf 0) ∧
    (∃ s', readNow (ts {}) 0 (unitHead .s) 0 ((ts {}).rd 0 .s 4) .read 8 = (s', .ok 0x4000)) ∧ ((ts {}).queue 0 5).st ≠ .active ∧
    (((ts { qctl := 1 }).queue 0 5).qctl.extractLsb' 0 9).toNat ≠ 0 := by
  refine ⟨readyB_ready (by decide), by decide, ?_, ?_, by decide, by decide, answers (by decide), by decide, by decide, by decide, by decide, answers (by decide),
    by decide, by decide⟩ <;> unfold GoodGlobal <;> decide

theorem witness_TaskWordsFollowR342AndR351 : let s := ps []
    (s.ctx 0).depth = 0 ∧ (s.core 0).ctx.isSome = true ∧ Ready s 0 .s (.tdone false) ⟨false, 0⟩ [.s] [] [] ∧ doneReady s 0 = true ∧
    doneReady (cs 0) 0 = false ∧ (s.ctx 0).preempt = .none ∧ ((ps [] [] [] { preempt := .clamped 3 }).ctx 0).preempt = .clamped 3 ∧
    doneReady (ps [] [] [] { preempt := .clamped 3 }) 0 = true ∧ Ready s 0 .s (.tchk false 4) ⟨false, 0⟩ [.s] [] [4] ∧
    ((ps [] [] [] { preempt := .drain 7 }).ctx 0).preempt = .drain 7 :=
  ⟨by decide, by decide, readyB_ready (by decide), by decide, by decide, by decide, by decide, by decide, readyB_ready (by decide), by decide⟩

/-- A rollback buffer with a granule; the last iteration of a record and one that is not; a task whose completion record is yet to be performed. -/
theorem witness_TaskWordsFollowR342AndR351_cases :
    (let s : State := { ps [] with bufs := [(1, some { gran := [(0, [some 1])] })] }; doneReady s 0 = true ∧ s.buf 1 = some { gran := [(0, [some 1])] }) ∧
    (ps []).buf 1 = none ∧
    (let s : State := { ps [] with nlaunch := 1 }; doneReady s 0 = true ∧ (s.ctx 0).leaving = false ∧ (s.launch 0).ended = false ∧
      (s.launch 0).retired + 1 = (s.launch 0).iter ∧ (s.ctx 0).launch < s.nlaunch) ∧
    (let s : State := { ps [] with launches := [(0, { iter := 2 })] }; doneReady s 0 = true ∧ ¬ (s.launch 0).retired + 1 = (s.launch 0).iter ∧
      s.leavesActs 1 = false) ∧
    (let s : State := { ps [] [] [] { leaving := true } with acts := [⟨1, doneGrp 1, .sink 0 0 false, none⟩] };
      doneReady s 0 = true ∧ (s.ctx 0).leaving = true ∧ s.leavesActs 1 = true) := by decide

/-! ### Collective words: spec/21 -/

/-- A barrier of two ranks, this package first, with the descriptor at 0x4000 and the peers at 0x5000. -/
def ls (bad : Byte := 0) (colls : List Coll := []) : State :=
  { ps [(4, 0x4000)] ([(0x4000, 6), (0x4002, 2), (0x4029, 0x50), (0x4030, 1)] ++ (if bad = 0 then [] else [(0x4038, bad)]) ++ [(0x5004, 1)]) with
    tlb := [⟨0, none, 0, 0, 2 ^ 16, 0, 7, none⟩], colls := colls }

theorem test_coll : (let t := run (.coll false 6 4) (ls); t.rd 0 .s 6 = 0 ∧ t.colls.map (fun z => (z.task, z.h, z.due)) = [(1, 0, 1000)]) ∧
    stopped (.coll false 6 4) (ls 1) = [(0x38, 2)] := by decide
theorem test_collwait : ((run (.collwait false 7) (ls 0 [cl .moving])).str 0 .s).pc = 0x1000 ∧ (run (.collwait false 7) (ls 0 [cl (.ended 0)])).colls = [] ∧
    stopped (.collwait false 7) (ls 0 [cl (.ended 3)]) = [(0x38, 3 + 9 * 2 ^ 32)] := by decide

theorem witness_CollectiveWordsFollowR422AndR423 : let s := ls
    s.feat (s.ctx 0).vf 9 = true ∧ Ready s 0 .s (.coll false 6 4) ⟨false, 0⟩ [.s] [4] [6] ∧ ¬ GoodGlobal ((ds 0 0x4020 0).rd 0 .s 5) 64 ∧
    GoodGlobal (s.rd 0 .s 4) 64 ∧ (s.colls.filter (·.unfinished)).length < 4 ∧ 4 ≤ ((List.replicate 4 (cl .moving)).filter (·.unfinished)).length ∧
    s.sysReleased 0 .s = true ∧
    (∃ s1 b, collRead 0 64 1 s (s.rd 0 .s 4) = (s1, .ok b) ∧ descBad b = false ∧
      ∃ s2 pl, collRead 0 4 2 s1 0x5000 = (s2, .ok pl) ∧ peersBad pl 2 = false ∧ peerOf pl 0 = (s.pkg.zpkg, BitVec.ofNat 3 (dieOf 0))) ∧
    (∃ s1 b, collRead 0 64 1 (ls 1) (s.rd 0 .s 4) = (s1, .ok b) ∧ descBad b = true) ∧
    (s.vf (s.ctx 0).vf).clkey ≠ 0 ∧ (∀ z ∈ s.colls, z.die = dieOf 0 → z.unfinished = true → z.me.seq ≠ 0) ∧
    ¬ (∀ z ∈ (ls 0 [cl .moving]).colls, z.die = dieOf 0 → z.unfinished = true → z.me.seq ≠ (cl .moving).me.seq) ∧ freeHandle [] = some 0 := by
  refine ⟨by decide, readyB_ready (by decide), ?_, ?_, by decide, by decide, by decide, ?_, ?_, by decide, by decide, by decide, by decide⟩
  · unfold GoodGlobal; decide
  · unfold GoodGlobal; decide
  · refine ⟨_, _, Prod.ext rfl (Eq.refl (Except.ok _)), by decide, _, _, Prod.ext rfl (Eq.refl (Except.ok _)), by decide, by decide⟩
  · refine ⟨_, _, Prod.ext rfl (Eq.refl (Except.ok _)), by decide⟩

theorem witness_collwait : (∀ l ∈ [[], [cl .moving], [cl (.ended 0)], [cl (.ended 1)], [{ cl (.ended 0) with cev := true }]], Ready (ls 0 l) 0 .s (.collwait false 4) ⟨false, 0⟩ [.s] [4] []) ∧
    (let named (z : Coll) : Bool := z.task == ((ls).ctx 0).task && z.h == ((ls).rd 0 .s 4).toNat % 4
     (ls 0 []).colls.find? named = none ∧ (ls 0 [cl .meeting]).colls.find? named = some (cl .meeting) ∧
     (ls 0 [cl (.ended 0)]).colls.find? named = some (cl (.ended 0)) ∧ (ls 0 [cl (.ended 1)]).colls.find? named = some (cl (.ended 1))) := by
  refine ⟨?_, by decide⟩
  intro l hl; fin_cases hl <;> exact readyB_ready (by decide)

/-! ### Illegal words, stops and tret: spec/02 R48, spec/06 -/

/-- spec/02 R48: a word of S in C, a word of an inactive feature, an unassigned code. -/
theorem test_illegal : stopped (.tdone false) (one .c []) = [(1, (parcel0 (.tdone false)).setWidth 64 + 3 * 2 ^ 32 + 2 * 2 ^ 40)] ∧
    stopped (.asabort false) (one .s []) = [(1, (parcel0 (.asabort false)).setWidth 64 + 2 * 2 ^ 32)] ∧
    stopped (.tret false) (one .s []) = [(1, (parcel0 (.tret false)).setWidth 64 + 3 * 2 ^ 32)] := by decide
theorem test_unassigned : stopped (.unassignedWord 0xC0000000 1) (one .l []) = [(1, 0xC0000000 + 1 * 2 ^ 32 + 1 * 2 ^ 40)] ∧
    stopped (decode1 0x00000007#32) (one .s []) = [(1, 7 + 5 * 2 ^ 32)] := by decide

/-- The same with a field that must be zero: sysget of coreid in L (op 0x70), tret outside a handler, coll without its feature; a token of S comes first too. -/
theorem test_illegal_fields : stopped (decode1 0x01C08110#32) (one .l []) = [(1, 0x01C08110 + 3 * 2 ^ 32 + 1 * 2 ^ 40)] ∧
    stopped (decode1 0x01D00001#32) (one .s []) = [(1, 0x01D00001 + 3 * 2 ^ 32)] ∧ stopped (decode1 0x01A4C401#32) (one .s []) = [(1, 0x01A4C401 + 2 * 2 ^ 32)] ∧
    stopped (decode1 0x03C08110#32) (one .s []) = [(1, 0x03C08110 + 4 * 2 ^ 32)] ∧ stopped (decode1 0x01C08110#32) (one .s []) = [(1, 0x01C08110 + 5 * 2 ^ 32)] := by
  decide

theorem witness_IllegalWordsRaiseTheirReason_fields :
    decode1 0x01C08110#32 = .unassignedWord 0x01C08110 5 ∧ (2 : Nat) < (5 : BitVec 3).toNat ∧ OpcodeKept 0x01C08110 .l 0 ∧ ¬ OpcodeKept 0x01C08110 .s 0 ∧
    (¬ ∃ f, OpcodeFeature (majorOf 0x01C08110) f ∧ (one .s []).feat ((one .s []).ctx 0).vf f = false) ∧
    (∃ f, OpcodeFeature (majorOf 0x01A4C401) f ∧ (one .s []).feat ((one .s []).ctx 0).vf f = false) ∧ (annOf 0x01C08110).t = 0 ∧ (annOf 0x03C08110).t ≠ 0 ∧
    OpcodeKept 0x01D00001 .s 0 := by
  refine ⟨by decide, by decide, ?_, ?_, ?_, ⟨9, .inr ⟨rfl, ?_⟩, by decide⟩, by decide, by decide, ?_⟩
  · unfold OpcodeKept; decide
  · unfold OpcodeKept; decide
  · rintro ⟨f, h, _⟩
    have e : majorOf 0x01C08110 = 0x70 := by decide
    rw [e] at h; rcases h with ⟨_, _, h⟩ | ⟨_, h⟩ <;> omega
  · decide
  · unfold OpcodeKept; decide

theorem witness_IllegalWordsRaiseTheirReason : (one .c []).agenda = .issue 0 .c :: [.issue 0 .c] ∧ SWord (.tdone false) ∧ NotInHandler (.tdone false) ∧
    ((one .s [] id { depth := 1 }).ctx 0).depth ≠ 0 ∧ ((one .s []).ctx 0).depth = 0 ∧ (7 : Nat) < (0x10 : BitVec 8).toNat ∧ sysAssigned 0x10 = true ∧
    FeatureWord (.asabort false) 8 ∧ (one .s []).feat ((one .s []).ctx 0).vf 8 = false ∧ (ps []).feat ((ps []).ctx 0).vf 8 = true ∧
    (whoOf (parcel0 (.tdone false))).getLsbD (ixOf .c) = false ∧ (whoOf (parcel0 (.tdone false))).getLsbD (ixOf .s) = true := by
  refine ⟨by decide, ?_, ?_, by decide, by decide, by decide, by decide, .inl ⟨rfl, ?_⟩, by decide, by decide, by decide, by decide⟩ <;> simp [SWord, NotInHandler]

/-- A core with three causes: traps of C and L, a fault of S. -/
def xs (depth : Nat) (tvec : Word) : State := one .s [(4, 9)] (fun c => { c with
  stops := [⟨1, .c, 3, 8, 5⟩, ⟨2, .s, 7, 0, 6⟩, ⟨1, .l, 2, 4, 0x44⟩] }) { depth := depth, tvec := tvec }

/-- spec/06 R123: the trap of L is taken, that of C is held; the handler begins at tvec with DEPTH 1. -/
theorem test_stop_taken : let t := takeStop (xs 0 0x800) 0
    (t.ctx 0).depth = 1 ∧ (t.ctx 0).tcause = 0x040102 ∧ (t.ctx 0).tval = 0x44 ∧ (t.str 0 .s).pc = 0x800 ∧ t.rd 0 .s 4 = 9 ∧
    (t.ctx 0).held = [⟨1, .c, 3, 8, 5⟩] := by decide +kernel
theorem test_stop_kills : ((takeStop (xs 0 0) 0).core 0).removal = some 0x040102 ∧ ((takeStop (xs 1 0x800) 0).core 0).nested = some ⟨1, .l, 2, 4, 0x44⟩ ∧
    ((takeStop (xs 2 0x800) 0).core 0).removal = some 0x040102 := by decide +kernel

theorem witness_TakingAStopFollowsR123ToR128 : ∀ d ∈ [0, 1, 2], ∀ v ∈ [(0 : Word), 0x800], ((xs d v).core 0).stops ≠ [] ∧ ((xs d v).core 0).ctx.isSome = true ∧
    ((xs d v).ctx 0).depth = d ∧ ((xs d v).ctx 0).tvec = v := by
  intro d hd v hv; fin_cases hd <;> fin_cases hv <;> decide +kernel

/-- Areas that are reached, and areas that wait. -/
def areasOf (s : State) : State × Bool := let x := s.ctx 0; s.reach 0 [⟨x.tadp, 0x3100, .write⟩, ⟨x.tsave, 0x1000, .write⟩]

/-- S in a handler of depth `d` with the save area at 0x10000, whose first byte is `f`, and the transaction area at 0x20000. -/
def rs (d : Nat) (f : Byte) (sb : List SbEntry := []) : State :=
  (ps [] (if f = 0 then [] else [(0x10000, f)]) [] { depth := d, tsave := 0x10000, tadp := 0x20000 }).mapStr 0 .s (fun t => { t with sb := sb }) |> fun s =>
  { s with tlb := [⟨0, none, 0, 0, 2 ^ 34, 0, 7, none⟩] }

/-- An area with zeros behind its first byte. -/
def zeros (f n : Nat) : List Byte := BitVec.ofNat 8 f :: List.replicate n 0#8

theorem fieldAt_zeros (f n o k : Nat) (h : 0 < o) : fieldAt (zeros f n) o k = 0 := by
  obtain ⟨o, rfl⟩ : ∃ p, o = p + 1 := ⟨o - 1, by omega⟩
  have z : ∀ m, leNat (List.replicate m 0#8) = 0 := fun m => by induction m with
    | zero => rfl
    | succ m ih => simp [List.replicate_succ, leNat, ih]
  simp [fieldAt, zeros, List.drop_replicate, List.take_replicate, z]

theorem fieldAt_first (f n : Nat) : fieldAt (zeros f (n + 7)) 0 8 = f % 256 := by
  simp [fieldAt, zeros, List.replicate_succ, leNat]

theorem get_unlisted : ∀ (m : Tab Byte) (x : Nat), (∀ e ∈ m, e.1 ≠ x) → Tab.get 0 m x = 0
  | [], _, _ => rfl
  | (a, b) :: m, x, h => by rw [Tab.get, if_neg (h _ (.head _))]; exact get_unlisted m x (fun e he => h e (.tail _ he))

theorem bytes_unlisted (m : Tab Byte) : ∀ (n x : Nat), (∀ e ∈ m, e.1 < x ∨ x + n ≤ e.1) → readBytes m x n = List.replicate n 0
  | 0, _, _ => rfl
  | n + 1, x, h => by
    rw [readBytes, get_unlisted m x (fun e he => by have := h e he; omega), bytes_unlisted m n (x + 1) (fun e he => by have := h e he; omega)]
    rfl

/-- A page that maps onto itself in stack 0. -/
def OwnPage (s : State) (va : Word) : Prop := devPa s 0 va .read = some va.toNat ∧ homeOf va.toNat = .hbm 0
theorem page_reads {s : State} {va : Word} (h : OwnPage s va) (p : s.poison = []) (n : Nat) : s.cleanRead va.toNat n = readBytes s.mem va.toNat n := by
  simp [State.cleanRead, State.poisoned, p, State.portRead, h.2]

/-- Pages that hold nothing read as zeros. -/
theorem devRead_zeros {s : State} (p : s.poison = []) : ∀ (f : Nat) (va : Word) (n : Nat), va.toNat % 4096 = 0 → va.toNat + 4096 * f < 2 ^ 40 →
    (∀ j < f, OwnPage s (va + BitVec.ofNat 64 (4096 * j))) → (∀ e ∈ s.mem, e.1 < va.toNat ∨ va.toNat + n ≤ e.1) →
    devReadF s 0 f va n = List.replicate (min n (4096 * f)) 0
  | 0, va, n, _, _, _, _ => by simp [devReadF]
  | f + 1, va, n, hv, hl, h, hm => by
    have h0 : OwnPage s va := by simpa using h 0 (by omega)
    have t : (va + BitVec.ofNat 64 4096).toNat = va.toNat + 4096 := by
      rw [BitVec.toNat_add, show (BitVec.ofNat 64 4096).toNat = 4096 from by decide]; omega
    have ih : ∀ m, 4096 + m ≤ n → devReadF s 0 f (va + BitVec.ofNat 64 4096) m = List.replicate (min m (4096 * f)) 0 := fun m hmn =>
      devRead_zeros p f _ m (by omega) (by omega) (fun j hj => by
        have := h (j + 1) (by omega)
        rwa [Nat.mul_add, Nat.mul_one, Nat.add_comm, BitVec.ofNat_add, ← BitVec.add_assoc] at this)
        (fun e he => by have := hm e he; omega)
    rw [devReadF, h0.1, hv]
    by_cases hn : n = 0
    · simp [hn]
    · rw [if_neg hn]
      simp only [page_reads h0 p]
      rw [bytes_unlisted s.mem _ _ (fun e he => by have := hm e he; omega)]
      by_cases hl : n ≤ 4096
      · have e : n - min n (4096 - 0) = 0 := by omega
        have z : ∀ x, devReadF s 0 f x 0 = [] := fun x => by cases f <;> simp [devReadF]
        simp only [e, z, List.append_nil]
        exact congrArg (List.replicate · 0) (by omega)
      · have e : min n (4096 - 0) = 4096 := by omega
        simp only [e, ih (n - 4096) (by omega), ← List.replicate_add]
        rw [show 4096 + min (n - 4096) (4096 * f) = min n (4096 * (f + 1)) from by omega]

/-- An area that begins with the bytes `l` and holds nothing else. -/
theorem devRead_first {s : State} (p : s.poison = []) {f : Nat} {va : Word} {n : Nat} (l : List Byte) (hv : va.toNat % 4096 = 0)
    (hl : va.toNat + 4096 * (f + 1) < 2 ^ 40) (h : ∀ j < f + 1, OwnPage s (va + BitVec.ofNat 64 (4096 * j)))
    (hs : l.length ≤ 16) (hn : 4096 ≤ n) (hb : readBytes s.mem va.toNat l.length = l)
    (hm : ∀ e ∈ s.mem, e.1 < va.toNat + l.length ∨ va.toNat + n ≤ e.1) :
    devReadF s 0 (f + 1) va n = l ++ List.replicate (min n (4096 * (f + 1)) - l.length) 0 := by
  have cut : ∀ (a b x : Nat), readBytes s.mem x (a + b) = readBytes s.mem x a ++ readBytes s.mem (x + a) b := fun a => by
    induction a with
    | zero => intro b x; simp [readBytes]
    | succ a ih => intro b x; rw [show a + 1 + b = a + b + 1 from by omega, readBytes, readBytes, ih, List.cons_append,
        show x + 1 + a = x + (a + 1) from by omega]
  have h0 : OwnPage s va := by simpa using h 0 (by omega)
  have t : (va + BitVec.ofNat 64 4096).toNat = va.toNat + 4096 := by
      rw [BitVec.toNat_add, show (BitVec.ofNat 64 4096).toNat = 4096 from by decide]; omega
  rw [devReadF, h0.1, hv, if_neg (by omega)]
  have e : min n (4096 - 0) = l.length + (4096 - l.length) := by omega
  simp only [page_reads h0 p, e, cut, hb]
  rw [bytes_unlisted s.mem _ _ (fun e he => by have := hm e he; omega), show l.length + (4096 - l.length) = 4096 from by omega,
    devRead_zeros p f _ _ (by omega) (by omega) (fun j hj => by
        have := h (j + 1) (by omega)
        rwa [Nat.mul_add, Nat.mul_one, Nat.add_comm, BitVec.ofNat_add, ← BitVec.add_assoc] at this)
      (fun e he => by have := hm e he; omega), List.append_assoc, ← List.replicate_add]
  have k : 4096 - l.length + min (n - 4096) (4096 * f) = min n (4096 * (f + 1)) - l.length := by omega
  rw [k]

theorem minNat_zero : ∀ l : List Nat, minNat (0 :: l) = some 0 := fun l => by
  have h : l.foldl min 0 = 0 := by induction l with
    | nil => rfl
    | cons a l ih => rw [List.foldl_cons, Nat.zero_min, ih]
  rw [minNat, h]

/-- The save area of each of the states. -/
theorem save_areas : devRead (rs 1 1) 0 0x10000 0x1000 = zeros 1 0xFFF ∧ devRead (rs 2 0) 0 0x10000 0x1000 = zeros 0 0xFFF ∧
    devRead (rs 2 2) 0 0x10000 0x1000 = zeros 2 0xFFF := by
  have own : ∀ s ∈ [rs 1 1, rs 2 0, rs 2 2], ∀ j < 3, OwnPage s (0x10000 + BitVec.ofNat 64 (4096 * j)) := by unfold OwnPage; decide +kernel
  exact ⟨devRead_first rfl (f := 2) [1] (by decide) (by decide) (own _ (by simp)) (by decide) (by decide) (by decide) (by decide),
    devRead_first rfl (f := 2) [0] (by decide) (by decide) (own _ (by simp)) (by decide) (by decide) (by decide) (by decide),
    devRead_first rfl (f := 2) [2] (by decide) (by decide) (own _ (by simp)) (by decide) (by decide) (by decide) (by decide)⟩

theorem other_areas (f : Byte) (h : f = 0 ∨ f = 1) : devRead (rs 1 f) 0 0x20000 0x3100 = zeros 0 0x30FF :=
  devRead_zeros rfl 5 _ _ (by decide) (by decide) (by unfold OwnPage; rcases h with rfl | rfl <;> decide +kernel) (by rcases h with rfl | rfl <;> decide)

theorem area_passes (s : State) : areaBad s 0 (zeros 0 0x30FF) = [] := by
  have h : fieldAt (zeros 0 0x30FF) 0 8 = 0 := fieldAt_first 0 12536
  simp [areaBad, h, fieldAt_zeros, zRun, areaRecords, overLimit, mxRecsBad]

theorem save_passes (s : State) : saveBad s 0 (zeros 1 0xFFF) = [] := by
  have h : fieldAt (zeros 1 0xFFF) 0 8 = 1 := fieldAt_first 1 4088
  simp [saveBad, h, fieldAt_zeros, zRun, blockBad, wordAt, allStr, blockAt, causeBad]

/-- S in a handler whose transaction area begins with a count of 65 records. -/
def rsBad : State := (rs 1 65).mapCtx 0 (fun y => { y with tadp := 0x10000, tsave := 0x20000 })

theorem area_fails (s : State) (l : List Byte) : areaBad s 0 ([65, 0, 0, 0, 0, 0, 0, 0] ++ l) = [0] := by
  have h : fieldAt ([65, 0, 0, 0, 0, 0, 0, 0] ++ l) 0 8 = 65 := by simp [fieldAt, leNat]
  simp only [areaBad, h]; rfl

theorem tret_fails : ∃ v, tretVal rsBad 0 (devRead rsBad 0 0x10000 0x3100) (devRead rsBad 0 0x20000 0x1000) = some v := by
  have own : ∀ j < 5, OwnPage rsBad (0x10000 + BitVec.ofNat 64 (4096 * j)) := by unfold OwnPage; decide +kernel
  have h : devRead rsBad 0 0x10000 0x3100 = [65, 0, 0, 0, 0, 0, 0, 0] ++ List.replicate _ 0 :=
    devRead_first rfl (f := 4) [65, 0, 0, 0, 0, 0, 0, 0] (by decide) (by decide) own (by decide) (by decide) (by decide) (by decide)
  rw [h]
  simp only [tretVal, area_fails, minNat]
  exact ⟨_, rfl⟩

theorem tret_passes : tretVal (rs 1 1) 0 (devRead (rs 1 1) 0 0x20000 0x3100) (devRead (rs 1 1) 0 0x10000 0x1000) = none := by
  rw [other_areas 1 (.inr rfl), save_areas.1, tretVal, area_passes, save_passes]; rfl

/-- Reading areas in HBM sends no RdCur. -/
def both (s : State) : State × Bool := let x := s.ctx 0; s.reach 0 [⟨x.tadp, 0x3100, .read⟩, ⟨x.tsave, 0x1000, .read⟩, ⟨x.tsave, 8, .write⟩]
def inner (s : State) : State × Bool := let x := s.ctx 0; s.reach 0 [⟨x.tsave, 0x1000, .read⟩, ⟨x.tsave, 8, .write⟩]
theorem reads_quiet : (landHandler (both (rs 1 1)).1 0).noteAreas 0 0x3100 = rs 1 1 ∧ (landHandler (both rsBad).1 0).noteAreas 0 0x3100 = rsBad ∧
    (∀ f ∈ [0, 2], noteArea (inner (rs 2 f)).1 0 0x10000 0x1000 = rs 2 f) := by decide +kernel

/-- Without a cached leaf and with the stack of the page table recalled, a walk begins that waits. -/
def cold (s : State) : State := { s with tlb := [], pkg := { recal := [(0, true)] } }

theorem witness_TretRestoresTheStrands :
    (∀ s ∈ [rsBad, rs 1 1, rs 2 0, rs 2 2, rs 1 1 [ent]], Ready s 0 .s (.tret false) ⟨false, 0⟩ [.s] [] [] ∧ (s.core 0).ctx.isSome = true) ∧
    (rs 1 1 [ent]).sysReleased 0 .s = false ∧ (rs 1 1).sysReleased 0 .s = true ∧ rsBad.sysReleased 0 .s = true ∧
    (∀ s ∈ [rsBad, rs 1 1, cold (rs 1 1)], s.sysReleased 0 .s = true ∧ s.savedDone (s.ctx 0).task = true) ∧
    (both rsBad).2 = true ∧ (both (rs 1 1)).2 = true ∧ (both (cold (rs 1 1))).2 = false ∧
    (let s := (landHandler (both (rs 1 1)).1 0).noteAreas 0 0x3100; tretVal s 0 (devRead s 0 0x20000 0x3100) (devRead s 0 0x10000 0x1000) = none) ∧
    (let s := (landHandler (both rsBad).1 0).noteAreas 0 0x3100; ∃ v, tretVal s 0 (devRead s 0 0x10000 0x3100) (devRead s 0 0x20000 0x1000) = some v) ∧
    (∀ f ∈ [0, 2], (inner (rs 2 f)).2 = true) ∧ (inner (cold (rs 2 2))).2 = false ∧
    (let s := noteArea (inner (rs 2 0)).1 0 0x10000 0x1000; AreaWord (devRead s 0 0x10000 0x1000) 0 ≠ 2) ∧
    (let s := noteArea (inner (rs 2 2)).1 0 0x10000 0x1000; nestedBad s 0 (devRead s 0 0x10000 0x1000) = none) ∧
    (let s := noteArea (inner (rs 2 0)).1 0 0x10000 0x1000; nestedBad s 0 (devRead s 0 0x10000 0x1000) = some 0) := by
  refine ⟨?_, by decide, by decide, by decide, by decide +kernel, by decide +kernel, by decide +kernel, by decide +kernel, ?_, ?_, by decide +kernel,
    by decide +kernel, ?_, ?_, ?_⟩
  · intro s hs; fin_cases hs <;> exact ⟨readyB_ready (by decide), by decide⟩
  · rw [reads_quiet.1]; exact tret_passes
  · rw [reads_quiet.2.1]; exact tret_fails
  · rw [reads_quiet.2.2 0 (by simp)]; dsimp only; rw [save_areas.2.1]; decide
  · rw [reads_quiet.2.2 2 (by simp)]; dsimp only; rw [save_areas.2.2]
    simp [nestedBad, show fieldAt (zeros 2 0xFFF) 0 8 = 2 from fieldAt_first 2 4088, fieldAt_zeros, blockBad]; rfl
  · rw [reads_quiet.2.2 0 (by simp)]; dsimp only; rw [save_areas.2.1]
    simp [nestedBad, show fieldAt (zeros 0 0xFFF) 0 8 = 0 from fieldAt_first 0 4088, minNat_zero]

/-- A stop with a handler whose areas are reached, and one whose areas wait; a landed FP_ENABLED and a kept multicast refusal among its causes. -/
theorem witness_TakingAStopFollowsR123ToR128_areas :
    (let s := (rs 0 0).mapCore 0 (fun x => { x with stops := [⟨1, .s, 2, 0, 0⟩, ⟨3, .c, 8, 0, 0⟩, ⟨3, .l, 0x15, 0, 0⟩] }) |>.mapCtx 0 (fun y => { y with tvec := 0x800 })
     (areasOf s).2 = true ∧ (areasOf (cold s)).2 = false ∧ (s.ctx 0).depth = 0 ∧ (s.ctx 0).tvec ≠ 0) := by decide +kernel

/-! ### Vector words: spec/08 -/

/-- A list of the nonzero bytes of numbers of `z` bytes from `x` on. -/
def cells (x z : Nat) (vs : List Nat) : Tab Byte :=
  ((List.range (z * vs.length)).zip (vs.flatMap (leBytes z))).filterMap (fun e => if e.2 == 0 then none else some (x + e.1, e.2))

/-- Strand C with the elements of D at 0x100, of A at 0x200 and of B at 0x300, `z` bytes each. -/
def vs (z : Nat) (d a b : List Nat) : State := one .c [(1, 0x100), (2, 0x200), (3, 0x300), (4, 4)] (fun c => { c with
  scr := cells 0x100 z d ++ cells 0x200 z a ++ cells 0x300 z b })

/-- A vector word of `n` elements of type `et`, each operand at its base and in rising order. -/
def vw (et : BitVec 4) (n : Nat) (db : BitVec 5 := 1) (bb : BitVec 5 := 1) : VWord :=
  ⟨a0, BitVec.ofNat 10 (n - 1), false, et, 0, ⟨1, 0, db⟩, ⟨2, 0, 1⟩, ⟨3, 0, bb⟩⟩

/-- The same of a word without an operand B. -/
def vu (et : BitVec 4) (n : Nat) (db : BitVec 5 := 1) : VWord := { vw et n db with b := ⟨0, 0, 0⟩ }

/-- What a vector word lands: the numbers written and the flags of each group. -/
def lands' (i : Instr) (s : State) : List (List Nat × Flags) :=
  (flies i s).flatMap (fun o => match o with | .vec gs => gs.map (fun g => (g.writes.map (fun w => leNat w.2), g.flags)) | _ => [])

theorem test_v_integer : lands' (.vadd (vw 4 2)) (vs 4 [] [0x7FFFFFFF, 5] [1, 3]) = [([0x7FFFFFFF, 8], 0)] ∧
    lands' (.vsub (vw 1 1)) (vs 1 [] [1] [2]) = [([0], 0)] ∧ lands' (.vmul (vw 4 1)) (vs 4 [] [3] [5]) = [([15], 0)] ∧
    lands' (.vfma (vw 4 1)) (vs 4 [7] [3] [5]) = [([22], 0)] ∧ lands' (.vfms (vw 4 1)) (vs 4 [7] [3] [5]) = [([8], 0)] := by decide
theorem test_v_extremes : lands' (.vmin (vw 4 1)) (vs 4 [] [0xFFFFFFFF] [1]) = [([0xFFFFFFFF], 0)] ∧
    lands' (.vmax (vw 5 1)) (vs 4 [] [0xFFFFFFFF] [1]) = [([0xFFFFFFFF], 0)] ∧ lands' (.vabs (vu 0 1)) (vs 1 [] [0x80] []) = [([0x7F], 0)] ∧
    lands' (.vneg (vu 4 1)) (vs 4 [] [5] []) = [([0xFFFFFFFB], 0)] := by decide
theorem test_v_bits : lands' (.vand (vw 4 1)) (vs 4 [] [0xC] [0xA]) = [([8], 0)] ∧ lands' (.vor (vw 4 1)) (vs 4 [] [0xC] [0xA]) = [([0xE], 0)] ∧
    lands' (.vxor (vw 4 1)) (vs 4 [] [0xC] [0xA]) = [([6], 0)] := by decide
theorem test_v_shifts : lands' (.vshl (vw 5 1)) (vs 4 [] [1] [32]) = [([0], 0)] ∧ lands' (.vshr (vw 5 1)) (vs 4 [] [0x80000000] [31]) = [([1], 0)] ∧
    lands' (.vsra (vw 4 1)) (vs 4 [] [0x80000000] [40]) = [([0xFFFFFFFF], 0)] := by decide
theorem test_v_compares : lands' (.vcmpEq (vw 4 2)) (vs 4 [] [1, 2] [1, 1]) = [([0xFFFFFFFF, 0], 0)] ∧
    lands' (.vcmpLt (vw 4 1)) (vs 4 [] [0xFFFFFFFF] [0]) = [([0xFFFFFFFF], 0)] ∧ lands' (.vcmpLe (vw 4 1)) (vs 4 [] [1] [1]) = [([0xFFFFFFFF], 0)] ∧
    lands' (.vsel (vw 4 2)) (vs 4 [1, 0] [10, 11] [20, 21]) = [([10, 21], 0)] := by decide
/-- f32: 1 + 2 = 3, 1.5 · 1.5 = 2.25, and the integer 3 as f32. -/
theorem test_v_float : lands' (.vadd (vw 8 1)) (vs 4 [] [0x3F800000] [0x40000000]) = [([0x40400000], 0)] ∧
    lands' (.vmul (vw 8 1)) (vs 4 [] [0x3FC00000] [0x3FC00000]) = [([0x40100000], 0)] ∧
    lands' (.vcvt ⟨a0, 0, false, 8, 0, ⟨1, 0, 1⟩, ⟨2, 0, 1⟩, ⟨0, 0, 4⟩⟩) (vs 4 [] [3] []) = [([0x40400000], 0)] := by decide +kernel
/-- f32: 1/2, the square root of 4, 1/4; 1/0 is infinity with DZ. -/
theorem test_v_division : lands' (.vrecip (vu 8 1)) (vs 4 [] [0x40000000] []) = [([0x3F000000], 0)] ∧
    lands' (.vsqrt (vu 8 1)) (vs 4 [] [0x40800000] []) = [([0x40000000], 0)] ∧
    lands' (.vdiv (vw 8 2)) (vs 4 [] [0x3F800000, 0x3F800000] [0x40800000, 0]) = [([0x3E800000, 0x7F800000], flDZ)] := by decide +kernel
/-- f32: 2^3 = 8, log2 8 = 3, 1/sqrt 4 = 1/2. -/
theorem test_v_functions : lands' (.vexp2 (vu 8 1)) (vs 4 [] [0x40400000] []) = [([0x41000000], 0)] ∧
    lands' (.vlog2 (vu 8 1)) (vs 4 [] [0x41000000] []) = [([0x40400000], 0)] ∧
    lands' (.vrsqrt (vu 8 1)) (vs 4 [] [0x40800000] []) = [([0x3F000000], 0)] := by decide +kernel
theorem test_v_reductions : lands' (.vredSum (vu 4 3 0)) (vs 4 [] [1, 2, 3] []) = [([6], 0)] ∧ lands' (.vredMax (vu 4 3 0)) (vs 4 [] [1, 0xFFFFFFFF, 3] []) = [([3], 0)] ∧
    lands' (.vredMin (vu 4 3 0)) (vs 4 [] [1, 0xFFFFFFFF, 3] []) = [([0xFFFFFFFF], 0)] ∧ lands' (.vdot (vw 4 2 0)) (vs 4 [] [2, 3] [5, 7]) = [([31], 0)] := by decide
/-- spec/08 R181: viota.s32 with 5 and −2 writes 5, 3, 1, −1. -/
theorem test_v_arrange : lands' (.viota ⟨a0, 3, false, 4, 0, ⟨1, 0, 1⟩, ⟨2, 0, 0⟩, ⟨3, 0, 0⟩⟩) (vs 4 [] [5] [0xFFFFFFFE]) = [([5, 3, 1, 0xFFFFFFFF], 0)] ∧
    lands' (.vperm (vw 4 3)) (vs 4 [] [10, 11, 12] [2, 0, 3]) = [([12, 10, 0], 0)] ∧ lands' (.vcopy (vu 4 2)) (vs 4 [] [10, 11] []) = [([10, 11], 0)] := by decide
/-- spec/08 R182, spec/03 R68: 32 ones pack into codes 0x40 with scale 0x7F, and unpack again. -/
theorem test_v_blocks : (lands' (.vmxpack ⟨a0, 31, false, 8, 0, ⟨1, 0, 4⟩, ⟨2, 0, 1⟩, ⟨3, 0, 1⟩⟩) (vs 4 [] (List.replicate 32 0x3F800000) [])).map Prod.snd = [0] ∧
    ((lands' (.vmxpack ⟨a0, 31, false, 8, 0, ⟨1, 0, 4⟩, ⟨2, 0, 1⟩, ⟨3, 0, 1⟩⟩) (vs 4 [] (List.replicate 32 0x3F800000) [])).head?.map (fun e => (e.1.map (· % 256)))) =
      some [0x40, 0x7F] ∧
    (lands' (.vmxunpack ⟨a0, 31, false, 8, 0, ⟨1, 0, 1⟩, ⟨2, 0, 4⟩, ⟨3, 0, 1⟩⟩) (vs 1 [] [0x40, 0x20] [0x7F])).map (fun e => e.1.take 3) = [[0x3F800000, 0x3F000000, 0]] := by
  decide +kernel
/-- spec/08 R183: a value of 0 is stored as 1. -/
theorem test_vseed : ((run (.vseed ⟨a0, 0, false, 0, 0, ⟨0, 0, 0⟩, ⟨5, 0, 0⟩, ⟨6, 0, 0⟩⟩) (one .c [])).str 0 .c).sgn = 1 ∧
    ((run (.vseed ⟨a0, 0, false, 0, 0, ⟨0, 0, 0⟩, ⟨5, 0, 0⟩, ⟨6, 0, 0⟩⟩) (one .c [(6, 2)])).str 0 .c).sgn = 0x3C6EF372FE94F82A := by decide
/-- spec/08 R169, R172: an operand that leaves the region, one that is misaligned. -/
theorem test_v_checks : stopped (.vadd (vw 4 1)) (one .c [(1, 0x100000)]) = [(6, 0x100000)] ∧ stopped (.vadd (vw 4 1)) (one .c [(1, 0x102)]) = [(7, 0x102)] := by decide

/-- VectorReady for count registers of 32 or an immediate count, as a computation. -/
def vecB (s : State) (i : Instr) (v : VWord) : Bool :=
  readyB s 0 .c i v.n [.c] (vbases i v ++ if v.vlg then [v.vlen.extractLsb' 0 5] else []) [] && (vfeat i v).all (fun e => s.feat (s.ctx 0).vf e.1)
  && decide ((s.core 0).records < 64) && decide (CountOf s 0 v ≤ 1024) && decide (CountOf s 0 v % 32 = 0) && !(s.core 0).vbusy && (s.core 0).mxq == []
  && decide ((s.core 0).vstage ≤ s.clock) && !(s.core 0).drawing

theorem vecB_ready {s : State} {i : Instr} {v : VWord} (h : vecB s i v = true) : VectorReady s 0 i v := by
  simp only [vecB, Bool.and_eq_true, Bool.not_eq_true', decide_eq_true_eq, beq_iff_eq, List.all_eq_true] at h
  obtain ⟨⟨⟨⟨⟨⟨⟨⟨a, b⟩, c⟩, d⟩, e⟩, f⟩, g⟩, m⟩, n⟩ := h
  exact ⟨readyB_ready a, b, c, d, fun _ => e, f, g, m, n⟩

/-- The 27 elementwise words on 32 elements, and with a count register that holds 0. -/
theorem witness_ElementwiseVectorWordsLandTheirElements :
    (∀ i ∈ ([.vadd, .vsub, .vmul, .vfma, .vfms, .vmin, .vmax, .vabs, .vneg, .vand, .vor, .vxor, .vshl, .vshr, .vsra, .vcmpEq, .vcmpLt, .vcmpLe, .vsel, .vcopy]
      : List (VWord → Instr)), Elementwise (i (vw 4 32)) (vw 4 32)) ∧
    (∀ v ∈ [vw 4 32, { vw 4 32 with vlg := true, vlen := 0 }],
      ∀ i ∈ ([.vadd v, .vsub v, .vmul v, .vfma v, .vfms v, .vmin v, .vmax v, .vand v, .vor v, .vxor v, .vshl v, .vshr v, .vsra v, .vcmpEq v, .vcmpLt v,
        .vcmpLe v, .vsel v] : List Instr), VectorReady (vs 4 [] [] []) 0 i v) ∧
    (∀ i ∈ ([.vabs, .vneg, .vcopy] : List (VWord → Instr)), let v := vu 4 32; VectorReady (vs 4 [] [] []) 0 (i v) v) ∧
    (∀ i ∈ ([.vrecip, .vrsqrt, .vsqrt, .vexp2, .vlog2] : List (VWord → Instr)), let v := vu 8 32
      VectorReady (vs 4 [] [] []) 0 (i v) v) ∧
    VectorReady (vs 4 [] [] []) 0 (.vdiv (vw 8 32)) (vw 8 32) ∧ (let v : VWord := { vw 8 32 with b := ⟨0, 0, 4⟩ }; VectorReady (vs 4 [] [] []) 0 (.vcvt v) v) ∧
    CountOf (vs 4 [] [] []) 0 { vw 4 32 with vlg := true, vlen := 0 } = 0 ∧ 0 < CountOf (vs 4 [] [] []) 0 (vw 4 32) := by
  refine ⟨?_, ?_, ?_, ?_, vecB_ready (by decide), vecB_ready (by decide), by decide, by decide⟩
  · intro i hi; fin_cases hi <;> simp [Elementwise]
  · intro v hv i hi; fin_cases hv <;> fin_cases hi <;> exact vecB_ready (by decide)
  · intro i hi; fin_cases hi <;> exact vecB_ready (by decide)
  · intro i hi; fin_cases hi <;> exact vecB_ready (by decide)

/-- Operands that end with the region, in fault mode on written granules; D beyond the region, and A misaligned where D fits. -/
theorem witness_ElementwiseVectorWordsLandTheirElements_operands :
    (let s := one .c [(1, 0xFFFF0), (2, 0x200), (3, 0x300)] (fun c => { c with valid := [(0x20, true), (0x30, true)] }) { scrmode := 2 }
     OperandsFit s 0 (.vadd (vw 4 4)) (vw 4 4)) ∧
    (let s := one .c [(1, 0xFFFF4), (2, 0x200), (3, 0x300)]
     ∃ o q, OperandsOf (LayoutOf s 0 (.vadd (vw 4 4)) (vw 4 4)) = [] ++ o :: q ∧ (∀ h < 3, o.Fits (s.ctx 0).scrsize h) ∧ 3 < o.m ∧ ¬ o.Fits (s.ctx 0).scrsize 3) ∧
    (let s := one .c [(1, 0x100), (2, 0x202), (3, 0x300)]
     ∃ p o q, OperandsOf (LayoutOf s 0 (.vadd (vw 4 4)) (vw 4 4)) = [p] ++ o :: q ∧ ((∀ j < p.m, p.Fits (s.ctx 0).scrsize j) ∧ p.x0 % p.al = 0) ∧
      (∀ j < o.m, o.Fits (s.ctx 0).scrsize j) ∧ o.x0 % o.al ≠ 0) := by
  unfold OperandsFit VArr.Fits
  refine ⟨by decide, ⟨_, _, rfl, by decide, by decide, by decide⟩, ⟨_, _, _, rfl, by decide, by decide, by decide⟩⟩

theorem witness_IntegerElementsFollowR174ToR178 : ∀ et ∈ List.range 7, et ≤ 6 ∧ 2 ^ (8 * etSize et) - 1 < 2 ^ (8 * etSize et) := by decide

/-- Elements of f32: 0, 1, the greatest finite number, both infinities, and a signalling NaN. -/
theorem witness_FloatElementsFollowR174 : let rd (x : Nat) := (readF (fmtOf 8) false x).1
    (∀ et ∈ [7, 8, 9], 7 ≤ et ∧ et ≤ 9) ∧ RealOf (rd 0) = some 0 ∧ (∃ p, RealOf (rd 0x3F800000) = some p ∧ p ≠ 0) ∧
    (∃ p, RealOf (readF (fmtOf 8) true 0x7F7FFFFF).1 = some p) ∧ rd 0x7F800000 = .inf false ∧ rd 0xFF800000 = .inf (!false) ∧
    rd 0x3F800000 ≠ .nan ∧ rd 0x7F800001 = .nan := by
  refine ⟨by decide, ?_, ?_, ?_, by decide, by decide, by decide, by decide⟩
  · show RealOf (readF (fmtOf 8) false 0).1 = some 0
    rw [show (readF (fmtOf 8) false 0).1 = .num false 0 (-149) from by decide]; simp [RealOf]
  · show ∃ p, RealOf (readF (fmtOf 8) false 0x3F800000).1 = some p ∧ p ≠ 0
    rw [show (readF (fmtOf 8) false 0x3F800000).1 = .num false (2 ^ 23) (-23) from by decide]
    exact ⟨_, rfl, by norm_num⟩
  · rw [show (readF (fmtOf 8) true 0x7F7FFFFF).1 = .num false (2 ^ 24 - 1) 104 from by decide]; exact ⟨_, rfl⟩

/-- The hypotheses of the rounding of m · 2^e with the neighbours lo and lo + 1 in units of the last place. -/
def Neighbours (F : Fmt) (mode r : Nat) (s : Bool) (m : Nat) (e E : Int) (lo M : Nat) (z : ℚ) : Prop :=
  let x : ℚ := m * (2 : ℚ) ^ e
  let u : ℚ := (2 : ℚ) ^ (max E F.emin - F.p + 1)
  let t := x / u - lo
  (2 : ℚ) ^ E ≤ x ∧ x < (2 : ℚ) ^ (E + 1) ∧ 0 ≤ t ∧ t < 1 ∧ (RoundsUp mode r s lo t → M = lo + 1) ∧ (¬ RoundsUp mode r s lo t → M = lo) ∧ M * u = z

/-- f32: ties that go down and up to even; beyond the greatest finite number; a subnormal. -/
theorem witness_FloatElementsRoundTheExactResult :
    Neighbours f32 0 0 false (2 ^ 24 + 1) 0 24 (2 ^ 23) (2 ^ 23) (2 ^ 24) ∧ Neighbours f32 0 0 false (2 ^ 24 + 3) 0 24 (2 ^ 23 + 1) (2 ^ 23 + 2) (2 ^ 24 + 4) ∧
    (Neighbours f32 1 0 true 1 128 128 (2 ^ 23) (2 ^ 23) (2 ^ 128) ∧ (2 ^ f32.p - 1) * (2 : ℚ) ^ (f32.emax - f32.p + 1) < 2 ^ 128) ∧
    (Neighbours f32 0 0 false 1 (-149) (-149) 1 1 (1 / 2 ^ 149) ∧ (0 : ℚ) < 1 / 2 ^ 149 ∧ (1 / 2 ^ 149 : ℚ) < (2 : ℚ) ^ f32.emin) := by
  refine ⟨?_, ?_, ⟨?_, ?_⟩, ?_, ?_, ?_⟩ <;> norm_num [Neighbours, RoundsUp, f32]
/-- spec/03 R62, R63: overflow by mode, and an inexact subnormal. -/
theorem test_rounding : roundFv f32 1 0 false (.num true 1 128) = (0xFF7FFFFF, flOF ||| flNX) ∧ roundFv f32 0 0 false (.num true 1 128) = (0xFF800000, flOF ||| flNX) ∧
    roundFv f32 0 0 false (.num false 3 (-150)) = (2, flUF ||| flNX) := by decide

theorem witness_IntegerReductionsFollowR180 : (vw 6 2).et.toNat ≤ 6 ∧ ([1, 2 ^ 64 - 1] : List Nat) ≠ [] ∧ ([3, 4] : List Nat).length = 2 ∧
    ∀ a ∈ [1, 2 ^ 64 - 1], a < 2 ^ (8 * etSize 6) := by decide

theorem witness_FoldingArrangingAndSeedWordsFollowR180 :
    (∀ i ∈ ([.vredSum, .vredMax, .vredMin] : List (VWord → Instr)), let v := vu 4 32 0
      VectorReady (vs 4 [] [] []) 0 (i v) v ∧ Folding (i v) v ∧ 0 < CountOf (vs 4 [] [] []) 0 v ∧ OperandsFit (vs 4 [] [] []) 0 (i v) v) ∧
    (let v := vw 8 32 0; VectorReady (vs 4 [] [] []) 0 (.vdot v) v ∧ Folding (.vdot v) v ∧ OperandsFit (vs 4 [] [] []) 0 (.vdot v) v) ∧
    (let v := vw 4 32; VectorReady (vs 4 [] [] []) 0 (.vperm v) v ∧ OperandsFit (vs 4 [] [] []) 0 (.vperm v) v) ∧
    (let v : VWord := ⟨a0, 31, false, 4, 0, ⟨1, 0, 1⟩, ⟨2, 0, 0⟩, ⟨3, 0, 0⟩⟩; VectorReady (vs 4 [] [] []) 0 (.viota v) v ∧ OperandsFit (vs 4 [] [] []) 0 (.viota v) v) ∧
    (let v : VWord := ⟨a0, 31, false, 8, 0, ⟨1, 0, 1⟩, ⟨2, 0, 4⟩, ⟨3, 0, 1⟩⟩; VectorReady (vs 4 [] [] []) 0 (.vmxunpack v) v ∧ OperandsFit (vs 4 [] [] []) 0 (.vmxunpack v) v) ∧
    (let v : VWord := ⟨a0, 31, false, 8, 0, ⟨1, 0, 4⟩, ⟨2, 0, 1⟩, ⟨3, 0, 1⟩⟩; VectorReady (vs 4 [] [] []) 0 (.vmxpack v) v ∧ OperandsFit (vs 4 [] [] []) 0 (.vmxpack v) v) := by
  unfold OperandsFit VArr.Fits
  refine ⟨?_, ⟨vecB_ready (by decide), by simp [Folding], by decide⟩, ⟨vecB_ready (by decide), by decide⟩, ⟨vecB_ready (by decide), by decide⟩,
    ⟨vecB_ready (by decide), by decide⟩, ⟨vecB_ready (by decide), by decide⟩⟩
  intro i hi; fin_cases hi <;> exact ⟨vecB_ready (by decide), by simp [Folding], by decide, by decide⟩

/-- vseed, and a word in flight that draws from the generator. -/
theorem witness_VseedSetsTheGenerator : let v : VWord := ⟨a0, 0, false, 0, 0, ⟨0, 0, 0⟩, ⟨1, 0, 0⟩, ⟨12, 0, 0⟩⟩
    Ready (vs 4 [] [] []) 0 .c (.vseed v) a0 [.c] [v.a.base, v.b.base] [] ∧ ((vs 4 [] [] []).core 0).drawing = false ∧
    (let s := run (.vadd ⟨a0, 0, false, 8, 5, ⟨1, 0, 1⟩, ⟨2, 0, 1⟩, ⟨3, 0, 1⟩⟩) { vs 4 [] [0x3F800001] [0x33800000] with vfs := [(0, { featact := 0x805 })] }
     (s.core 0).drawing = true) := by
  refine ⟨readyB_ready (by decide), by decide, by decide +kernel⟩

/-! ### Matrix words and the matrix unit: spec/09, spec/10 -/

/-- A matrix word of 16 rows and columns with format entry 0 and base g5. -/
def mw (spec : BitVec 43 := 0) (base : BitVec 5 := 5) (mc : BitVec 2 := 0) : MWord := ⟨a0, mc, 0, 0, true, true, base, 0, 0, 0, 0, false, spec⟩
/-- The same of a bank word: class Z where it has no formats. -/
def bw (spec : BitVec 43 := 0) (base : BitVec 5 := 5) (mc : BitVec 2 := 0) : MWord := ⟨a0, mc, 0, 0, false, false, base, 0, 0, 0, 0, false, spec⟩

/-- Strand C with a base at the region's end less `back`; entry 0 is INT8 by INT8 into int64; a live plane of 32 by 16; `q` is the matrix queue. -/
def mxs (back : Nat := 512) (q : List MxOp := []) (f : Core → Core := id) : State := one .c [(5, BitVec.ofNat 64 (2 ^ 20 - back))] (fun c => f { c with
  ft := [(0, 0x144)], mxq := q, live := { valid := true, bfmt := 4, kk := 32, nn := 16, sb := true } })

/-- A word of the queue. -/
def mo (i : Instr) (ord prog total : Nat) (tail : Nat := 0) (read : Bool := false) : MxOp :=
  { ord := ord, seq := ord, img := i, base := 0x1000, ent := 0, entv := 0x144, prog := prog, total := total, tail := tail, read := read }

/-- INT8 by INT8: a plane of 512 bytes takes 4 cycles, a stream of 256 entries 8, a read-out 8, a clear 1. -/
theorem test_mx_enter : ((run (.mxstat { mw with sa := false }) mxs).core 0).mxq.map (fun o => (o.base, o.ent, o.total)) = [(0xFFE00, 0, 4)] ∧
    ((run (.mxstatT { mw with sa := false }) mxs).core 0).mxq.map (·.total) = [4] ∧ ((run (.mxstream mw) mxs).core 0).mxq.map (·.total) = [8] ∧
    ((run (.mxread (bw (6 * 2 ^ 32))) (mxs 2048)).core 0).mxq.map (·.total) = [8] ∧ ((run (.mxwrite (bw (6 * 2 ^ 32))) (mxs 2048)).core 0).mxq.map (·.total) = [8] := by decide
theorem test_mx_others : ([.mxclear (bw 0 0), .mxclearAll (bw (2 ^ 41) 0), .mxclearFlags (bw (2 ^ 42) 0), .mxclearAllFlags (bw (3 * 2 ^ 41) 0), .mxreadFlags (bw (11 * 2 ^ 32)),
      .mxwriteFlags (bw (11 * 2 ^ 32)), .mxflip (bw 0 0), .mxswap (bw 0 0)] : List Instr).map (fun i => ((run i (mxs)).core 0).mxq.map (·.total)) =
    [[1], [64], [1], [64], [1], [1], [0], [0]] := by decide
theorem test_mxfmt : Tab.get 0 ((run (.mxfmt ⟨a0, 0, 0, 3, false, false, 5, 0, 0, 0, 0, false, 0⟩) (mxs)).core 0).ft 3 = 0xFFE00 ∧
    ((run (.mxfmt ⟨a0, 0, 0, 3, false, false, 5, 0, 0, 0, 0, false, 0⟩) (mxs 512 [mo (.mxflip (bw 0 0)) 1 0 0])).str 0 .c).pc = 0x1000 := by decide
/-- spec/09 R202: a plane that ends beyond the region; spec/10 R220: MC = 3; a plane that the stream does not match. -/
theorem test_mx_checks : stopped (.mxstat { mw with sa := false }) (mxs 496) = [(6, 0x100000)] ∧ stopped (.mxclear (bw 0 0 3)) (mxs) = [(0x0A, 1)] ∧
    stopped (.mxstream mw) (mxs 512 [] (fun x => { x with live := {} })) = [(0x0A, 4)] := by decide

theorem witness_MatrixWordsFollowTheirRules :
    ((mxs).core 0).records < 64 ∧
    (∀ i ∈ ([.mxstat { mw with sa := false }, .mxstatT { mw with sa := false }, .mxstream mw, .mxread (bw (6 * 2 ^ 32)), .mxwrite (bw (6 * 2 ^ 32)),
      .mxreadFlags (bw (11 * 2 ^ 32)), .mxwriteFlags (bw (11 * 2 ^ 32)), .mxfmt { bw with fsel := 3 }] : List Instr), Ready (mxs 2048) 0 .c i a0 [.c] [5] []) ∧
    (∀ i ∈ ([.mxclear (bw 0 0), .mxclearAll (bw (2 ^ 41) 0), .mxclearFlags (bw (2 ^ 42) 0), .mxclearAllFlags (bw (3 * 2 ^ 41) 0), .mxflip (bw 0 0),
      .mxswap (bw 0 0)] : List Instr), Ready (mxs) 0 .c i a0 [.c] [] []) :=
  ⟨by decide, all_ready (by decide), all_ready (by decide)⟩

/-- The last place of a plane in the region, one beyond it; a free queue, and one with eight words. -/
theorem witness_MatrixWordsEnterTheQueue : let live := (descsLeft ((mxs).core 0).live.desc ((mxs).core 0).shadow.desc ((mxs).core 0).mxq).1
    mxCheck (.mxstream mw) mw (2 ^ 20 - 512) 0 0x144 false false live (2 ^ 20) = none ∧
    (∃ e, mxCheck (.mxstream mw) mw (2 ^ 20 - 496) 0 0x144 false false live (2 ^ 20) = some e) ∧
    bankCheck (.mxread (bw (6 * 2 ^ 32))) (bw (6 * 2 ^ 32)) (2 ^ 20 - 2048) (2 ^ 20) = none ∧
    (∃ e, bankCheck (.mxread (bw (6 * 2 ^ 32))) (bw (6 * 2 ^ 32)) (2 ^ 20 - 2032) (2 ^ 20) = some e) ∧
    bankCheck (.mxclear (bw 0 0)) (bw 0 0) 0 (2 ^ 20) = none ∧ mxWaits ((mxs).core 0) (.mxstream mw) (2 ^ 20 - 512) 0x144 = false ∧
    mxWaits ((mxs 512 ((List.range 8).map (fun n => mo (.mxflip (bw 0 0)) n 0 0))).core 0) (.mxflip (bw 0 0)) 0 0 = true :=
  ⟨by decide, ⟨_, rfl⟩, by decide, ⟨_, rfl⟩, by decide, by decide, by decide⟩

/-- An event of the matrix unit is the turn. -/
def mev (i : Instr) (q : List MxOp) : State := evAt .c 0 i (mxs 512 q)

/-- The last read cycle of a load whose granules have been read leaves its plane with K = 32 and the byte read as its first code, not valid yet; four
cycles later it is. -/
theorem test_plane_load : (let x := (run .planeLoad (mev .planeLoad [{ mo (.mxstat { mw with sa := false }) 1 3 4 with todo := some [], aby := [(0x1000, 9)] }])).core 0
      x.shadow.valid = false ∧ x.shadow.kk = 32 ∧ Tab.get 0 x.shadow.codes 0 = 9 ∧ x.mxq.map (·.read) = [true]) ∧
    (let x := (run .planeLoad (mev .planeLoad [mo (.mxstat { mw with sa := false }) 1 4 4 3 true])).core 0; x.shadow.valid = true ∧ x.mxq = []) := by decide +kernel
/-- spec/09 R192, R193: 32 rows of 16 bytes of an MX format, with 16 scale bytes behind them; elements come before scales. -/
theorem test_plane_scales : let i : Instr := .mxstat { mw (32 * 2 ^ 27) with sa := false }
    Tab.get 0 ((run .planeLoad (mev .planeLoad [{ mo i 1 4 5 with entv := 0x111, todo := some [], aby := [(0x1200, 7)] }])).core 0).shadow.scales 0 = 7 ∧
    (elemGrans i 0x1000 0x111).contains 0x11F = true ∧ (elemGrans i 0x1000 0x111).contains 0x120 = false ∧
    ({ mo i 1 0 5 with entv := 0x111 } : MxOp).left.contains 0x120 = true := by decide +kernel
theorem test_plane_flip : ((run .planeFlip (mev .planeFlip [mo (.mxflip (bw 0 0)) 1 0 0])).core 0).shadow.valid = true ∧
    ((run .planeFlip (mev .planeFlip [mo (.mxstream mw) 1 7 8, mo (.mxflip (bw 0 0)) 2 0 0])).core 0).shadow.valid = false := by decide
theorem test_bank_exchange : ((run .bankExchange (evAt .c 0 .bankExchange (mxs 512 [mo (.mxswap (bw 0 0)) 1 0 0] (fun c => { c with work := { bfl := 7 } })))).core 0).vis.bfl = 7 := by
  decide
theorem test_bank_pipe : Tab.get 0 ((run .bankPipeCycle (evAt .c 0 .bankPipeCycle (mxs 512 [mo (.mxclear (bw 0 0)) 1 0 1] (fun c => { c with
    vis := { ent := [(255, 9), (256, 8)] } })))).core 0).vis.ent 255 = 0 ∧
    Tab.get 0 ((run .bankPipeCycle (evAt .c 0 .bankPipeCycle (mxs 512 [mo (.mxclear (bw 0 0)) 1 0 1] (fun c => { c with
    vis := { ent := [(255, 9), (256, 8)] } })))).core 0).vis.ent 256 = 8 := by decide
/-- One array cycle of a stream: 2 · 3 for entry (0, 0), with the plane's element (0, 0) at 3. -/
theorem test_array_cycle : Tab.get 0 ((run .arrayCycle (evAt .c 0 .arrayCycle (mxs 512 [{ mo (.mxstream mw) 1 0 8 0 true with aby := [(0x1000, 2)] }] (fun c => { c with
    live := { c.live with codes := [(0, 3)] } })))).core 0).work.ent 0 = 6 := by decide +kernel

/-- The queue's words of each kind at the edges of their cycles. -/
theorem witness_PlanesFollowR195AndR199 :
    (∀ o ∈ [mo (.mxstat mw) 1 0 4, mo (.mxstatT mw) 1 3 4, mo (.mxstat mw) 1 4 4 2, mo (.mxstat mw) 1 4 4 3, mo (.mxflip (bw 0 0)) 1 0 0],
      let s := mev .planeLoad [o]
      (s.core 0).alive = true ∧ (s.core 0).mxq = [] ++ o :: [] ∧ s.agenda = .event 0 .c 0 .planeLoad :: [.issue 0 .s] ∧ (s.ctx 0).scrmode = 0) ∧
    (let o := mo (.mxflip (bw 0 0)) 2 0 0; let p := mo (.mxstream mw) 1 8 8; (mev .planeFlip [p, o]).agenda = .event 0 .c 0 .planeFlip :: [.issue 0 .s] ∧
      ((mev .planeFlip [p, o]).core 0).mxq = [p] ++ o :: [] ∧ p.total ≤ p.prog ∧ (mo (.mxstream mw) 1 7 8).prog < 8) ∧
    (1 : Nat) < entK 0x144 ∧ 15 < ColsOf mw ∧ 1 ≤ fmtB 0x111 ∧ fmtB 0x111 ≤ 3 ∧ 0 < entK 0x111 / 32 := by decide

theorem witness_ArrayAndBankPipesFollowR197AndR218 :
    (∀ o ∈ [mo (.mxstream mw) 1 0 8, mo (.mxstream mw) 1 7 8 0 true], (mev .arrayCycle [o]).agenda = .event 0 .c 0 .arrayCycle :: [.issue 0 .s] ∧
      ((mev .arrayCycle [o]).core 0).alive = true ∧ ((mev .arrayCycle [o]).core 0).mxq = [] ++ o :: [] ∧ o.prog < o.total) ∧
    (let o := mo (.mxstream mw) 2 0 8 0 true; ((mev .arrayCycle [mo (.mxflip (bw 0 0)) 1 0 0, o]).core 0).mxq = [mo (.mxflip (bw 0 0)) 1 0 0] ++ o :: []) ∧
    (let o := mo (.mxswap (bw 0 0)) 2 0 0; ((mev .bankExchange [mo (.mxflip (bw 0 0)) 1 0 0, o]).core 0).mxq = [mo (.mxflip (bw 0 0)) 1 0 0] ++ o :: [] ∧
      ((mev .bankExchange [mo (.mxstream mw) 1 0 8, o]).core 0).mxq = [mo (.mxstream mw) 1 0 8] ++ o :: []) ∧
    (∀ o ∈ [mo (.mxswap (bw 0 0)) 1 0 0, mo (.mxread (bw (6 * 2 ^ 32))) 1 8 8 2, mo (.mxread (bw (6 * 2 ^ 32))) 1 8 8 3, mo (.mxclear (bw 0 0)) 1 0 1,
      mo (.mxclear { bw 0 0 with mc := 1 }) 1 0 2, mo (.mxclearFlags (bw (2 ^ 42) 0)) 1 0 1, mo (.mxreadFlags (bw (11 * 2 ^ 32))) 1 0 1],
      (mev .bankPipeCycle [o]).agenda = .event 0 .c 0 .bankPipeCycle :: [.issue 0 .s] ∧ ((mev .bankPipeCycle [o]).core 0).alive = true ∧
      ((mev .bankPipeCycle [o]).core 0).mxq = [] ++ o :: [] ∧ ((mev .bankPipeCycle [o]).ctx 0).scrmode = 0) ∧ (bw (11 * 2 ^ 32)).dt = 11 := by decide

/-- Words of the bank pipe with a data cycle to make, of each type, and with a row pitch of 64 bytes that holds a row. -/
theorem witness_BankWordsMoveTheirEntries :
    (∀ o ∈ [mo (.mxread (bw (6 * 2 ^ 32))) 1 0 8, mo (.mxread (bw (4 * 2 ^ 32))) 1 7 8, mo (.mxread { bw (10 * 2 ^ 32) with nf := 1 }) 1 0 16,
        mo (.mxreadFlags (bw (11 * 2 ^ 32))) 1 0 1, mo (.mxwrite (bw (6 * 2 ^ 32))) 1 7 8, mo (.mxwriteFlags (bw (11 * 2 ^ 32))) 1 0 1,
        mo (.mxclearAll (bw (2 ^ 41) 0)) 1 63 64, mo (.mxclearAllFlags (bw (3 * 2 ^ 41) 0)) 1 0 64],
      let s := evAt .c 0 .bankPipeCycle (mxs 512 [mo (.mxflip (bw 0 0)) 0 0 0, o])
      s.agenda = .event 0 .c 0 .bankPipeCycle :: [.issue 0 .s] ∧ (s.core 0).alive = true ∧ (s.core 0).mxq = [mo (.mxflip (bw 0 0)) 0 0 0] ++ o :: [] ∧
      (s.ctx 0).scrmode = 0 ∧ isBank (mo (.mxflip (bw 0 0)) 0 0 0).img = false ∧ o.prog < o.total) ∧
    (bw (6 * 2 ^ 32)).dt.toNat ≤ 9 ∧ (bw (6 * 2 ^ 32)).apitch = 0 ∧ (let m := { bw (4 * 2 ^ 32) with apitch := 1 }; ColsOf m * etSize m.dt.toNat ≤ 64 * m.apitch.toNat) ∧
    (let m := { bw (10 * 2 ^ 32) with nf := 1 }; m.dt = 10 ∧ ColsOf m % 32 = 0) ∧ (bw (11 * 2 ^ 32)).dt = 11 := by decide

/-- Rounding modes below 5, types 6 and 9, accumulators of both classes; a tie that goes down to an even integer. -/
theorem witness_BankConversionsFollowR214AndR215 : (bw (6 * 2 ^ 32)).rmf.toNat ≤ 4 ∧ (bw (9 * 2 ^ 32 + 4 * 2 ^ 29)).rmf.toNat ≤ 4 ∧
    (bw (2 ^ 42 + 6 * 2 ^ 32)).sk = true ∧ (bw (6 * 2 ^ 32)).sk = false ∧ (∃ q, RealOf (readF f64 false 0x3FF0000000000000).1 = some q) ∧
    (readF f64 false 0x7FF0000000000000).1 = .inf false ∧ (readF f64 false 0x7FF0000000000001).1 = .nan ∧
    ((2 : ℕ) : ℚ) ≤ 5 / 2 ∧ (5 / 2 : ℚ) < (2 : ℕ) + 1 ∧ ¬ RoundsUp 0 0 false 2 (5 / 2 - (2 : ℕ)) := by
  refine ⟨by decide, by decide, by decide, by decide, ?_, by decide, by decide, by norm_num, by norm_num, by norm_num [RoundsUp]⟩
  rw [show (readF f64 false 0x3FF0000000000000).1 = .num false (2 ^ 52) (-52) from by decide]; exact ⟨_, rfl⟩

/-- spec/10 R214, R215: the read-out of int64 5 with two fraction bits as s64, ties to even; entry 32 of a row of 16 lies in row 2; DT = 11 moves BFL. -/
theorem test_bank_words : (let m := bw (2 ^ 42 + 6 * 2 ^ 32 + 2 * 2 ^ 36)
      let y := (run .bankPipeCycle (evAt .c 0 .bankPipeCycle (mxs 512 [mo (.mxread m) 1 1 8] (fun c => { c with vis := { ent := [(32, 5)] } })))).core 0
      Tab.get 0 y.scr 0x1100 = 1 ∧ y.vis.bfl = 32) ∧
    ((run .bankPipeCycle (evAt .c 0 .bankPipeCycle (mxs 512 [mo (.mxwriteFlags (bw (11 * 2 ^ 32))) 1 0 1] (fun c => { c with scr := [(0x1000, 0xFF)] })))).core 0).vis.bfl =
      0x7F := by decide +kernel

/-! ### The Newt and the trace: spec/18 -/

/-- A run of slot 0 of die 0 is at its first word, with registers `g`, table `t` and the event of core 5 in function 3. -/
def nr (g t : Tab (BitVec 32)) (x : Slot := {}) (trig : Bool := false) : State :=
  { State.reset with agenda := [.newt 0 0, .newt 0 0], vfdie := [(3, { nten := true, nbleft := 70 })], dies := [(0, { slots := [(0, { x with
    reg := g, tab := t, vf := 3, en := true, run := some { ev := [5 * 2 ^ 10 + 1, 3, 77], trig := trig } })] })] }

/-- Register 4 after a word. -/
def n4 (i : Instr) (g : Tab (BitVec 32)) : BitVec 32 := Tab.get 0 ((run i (nr g [])).slot 0 0).reg 4

theorem test_n_arithmetic : n4 (.nadd 4 1 2 false 0) [(1, 0xFFFFFFFF), (2, 2)] = 1 ∧ n4 (.nsub 4 1 0 true 5) [(1, 3)] = 0xFFFFFFFE ∧
    n4 (.nand 4 1 2 false 0) [(1, 0xC), (2, 0xA)] = 8 ∧ n4 (.nor 4 1 2 false 0) [(1, 0xC), (2, 0xA)] = 0xE ∧ n4 (.nshl 4 1 0 true 33) [(1, 1)] = 2 ∧
    n4 (.nshr 4 1 0 true 31) [(1, 0x80000000)] = 1 := by decide
theorem test_n_order : n4 (.nmin 4 1 2 false 0) [(1, 0xFFFFFFFF), (2, 2)] = 2 ∧ n4 (.nmax 4 1 2 false 0) [(1, 0xFFFFFFFF), (2, 2)] = 0xFFFFFFFF ∧
    n4 (.ncmp 4 1 0 true 7) [(1, 7)] = 0 ∧ n4 (.ncmp 4 1 0 true 7) [(1, 6)] = 1 ∧ n4 (.ncmp 4 1 0 true 7) [(1, 8)] = 2 := by decide
/-- spec/18 R368: the logarithmic bin of 8 is 4, limited by the greatest bin. -/
theorem test_n_load : n4 (.nget 4 2) [] = 77 ∧ n4 (.nli 4 0x7FFF) [] = 0xFFFFFFFF ∧ n4 (.nbin 4 1 true 0 15) [(1, 8)] = 4 ∧ n4 (.nbin 4 1 true 0 3) [(1, 8)] = 3 ∧
    n4 (.nbin 4 1 false 1 15) [(1, 9)] = 4 := by decide
theorem test_n_branch : ((run (.nbf 1 1 5) (nr [] [])).slot 0 0).run.map (·.pc) = some 5 ∧ ((run (.nbf 1 2 5) (nr [] [])).slot 0 0).run.map (·.pc) = some 1 := by decide
theorem test_n_hinc : (let x := (run (.nhinc 4 1 2 1000) (nr [(1, 23), (2, 9)] [(1023, 0xFFFFFFFE)])).slot 0 0
      Tab.get 0 x.tab 1023 = 0xFFFFFFFF ∧ Tab.get 0 x.reg 4 = 0xFFFFFFFF) ∧
    ((run (.nhinc 4 1 2 1000) (nr [(1, 24), (2, 9)] [])).slot 0 0).ixerr = 1 := by decide
/-- A sketch of rows of one counter: the four counters from 8 on; the query takes the smallest. -/
theorem test_n_sketch : ((run (.nskt 1 2 0 8) (nr [(1, 5), (2, 9)] [(9, 1)])).slot 0 0).tab = [(8, 9), (9, 10), (10, 9), (11, 9)] ∧
    Tab.get 0 ((run (.nsktq 4 1 0 8) (nr [(1, 5)] [(8, 9), (9, 10), (10, 7), (11, 9)])).slot 0 0).reg 4 = 7 := by decide
theorem test_n_trigger : (let t := run (.ntrig 1 9 7) (nr [(1, 5)] [(2, 3)] { vec := 6 })
      t.outbox = [.msix 3 6] ∧ (t.slot 0 0).trig = 0x0000000500000009 ∧ (t.slot 0 0).snapN = 1 ∧ (t.slot 0 0).snapT = [(2, 3)] ∧ (t.vd 0 3).frozen = true) ∧
    (run (.ntrig 1 9 7) (nr [(1, 5)] [] {} true)).outbox = [] := by decide
theorem test_n_mark : ((run (.nmark 1 9) (nr [(1, 5)] [])).core 5).trace.map (fun q => (q.kind, q.pc, q.aux, q.vf)) = [(7, 5, 9, 3)] := by decide
theorem test_n_end : (let t := run .nend (nr [] []); (t.slot 0 0).run = none ∧ (t.vd 0 3).nbleft = 69) ∧ ((run .nend (nr [] [] { endEn := true })).slot 0 0).en = false := by decide

theorem witness_NewtRegisterWordsFollowR367ToR369 : (nr [] []).agenda = .newt 0 0 :: [.newt 0 0] ∧ (∃ r, ((nr [] []).slot 0 0).run = some r) ∧
    (2 ^ 31 ≤ 0xFFFFFFFF ∧ 0xFFFFFFFF < 2 ^ (31 + 1)) := ⟨rfl, ⟨_, rfl⟩, by decide⟩

theorem witness_NewtTableAndControlWordsFollowR367ToR372 : (nr [] []).agenda = .newt 0 0 :: [.newt 0 0] ∧
    (let x := (nr [(1, 23), (2, 24)] []).slot 0 0; (1000 : BitVec 10).toNat + (NewtReg x 1).toNat ≤ 1023 ∧ 1023 < (1000 : BitVec 10).toNat + (NewtReg x 2).toNat ∧
      NewtReg x 3 = 0 ∧ NewtReg x 1 ≠ 0) ∧
    (∃ r, ((nr [] []).slot 0 0).run = some r ∧ r.trig = false ∧ (r.ev.getD 0 0).getLsbD 22 = false) ∧ (∃ r, ((nr [] [] {} true).slot 0 0).run = some r ∧ r.trig = true) ∧
    ((nr [] []).vd (dieOf 5) 3).nten = true ∧ ((nr [] []).core 5).trace.length < 32 ∧ ((nr [] []).vd (dieOf 5) 4).nten = false ∧
    ((nr [] []).slot 0 0).endEn = false ∧ ((nr [] [] { endEn := true }).slot 0 0).endEn = true := by
  refine ⟨rfl, by decide, ⟨_, rfl, by decide, by decide⟩, ⟨_, rfl, by decide⟩, by decide, by decide, by decide, by decide, by decide⟩

/-- Die 0 with one event on its way, slot 0 as given, and the ring of function 3 at 0x6000 with 16 records; core 0 has two trace records. -/
def ne (x : Slot) (y : VfDie := { nten := true, ntbase := 0x6000, ntsize := 4, nbleft := 64 }) (sent : Option (BitVec 32 × Nat) := none) : State :=
  { (ps []) with
    vfs := [(3, { vf0 with featact := 0xB11 })], vfdie := [(3, y)], dies := [(0, { st := .full, slots := [(0, x)], newtIn := [[1, 3], [2, 3]] })]
    cores := [(0, { ((ps []).core 0) with trace := [⟨0x44, 1, .s, false, 0, 0, 3, sent⟩, ⟨0x48, 1, .s, false, 0, 0, 3, none⟩] })] }

theorem test_newt_arrival : ((run (.newtEventArrival 0) (evAt .s 0 (.newtEventArrival 0) (ne { en := true, mask := 1, vf := 3 }))).slot 0 0).queue = [[1, 3]] ∧
    ((run (.newtEventArrival 0) (evAt .s 0 (.newtEventArrival 0) (ne { en := true, mask := 2, vf := 3 }))).slot 0 0).queue = [] := by decide +kernel
theorem test_newt_run : ((run (.newtRun 0 0) (evAt .s 0 (.newtRun 0 0) (ne { en := true, vf := 3, queue := [[1, 3]] }))).slot 0 0).run.map (·.ev) = some [1, 3] ∧
    ((run (.newtRun 0 0) (evAt .s 0 (.newtRun 0 0) (ne { en := true, vf := 3, queue := [[1, 3]] } {}))).slot 0 0).bdrop = 1 := by decide
/-- spec/18 R365, R366: a program of one nend passes; an empty one fails with reason 1 at word 63. -/
theorem test_newt_enable : ((run (.newtSlotEnable 0 0 0x10403) (evAt .s 0 (.newtSlotEnable 0 0 0x10403) (ne { prog := [(0, 0x98000000)] }))).slot 0 0).en = true ∧
    (let x := (run (.newtSlotEnable 0 0 0x10403) (evAt .s 0 (.newtSlotEnable 0 0 0x10403) (ne {}))).slot 0 0; (x.en, x.reason, x.badix) = (false, 1, 63)) ∧
    ((run (.newtSlotDisable 0 0 3) (evAt .s 0 (.newtSlotDisable 0 0 3) (ne { en := true, queue := [[1, 3]] }))).slot 0 0).qdrop = 1 := by decide
/-- spec/18 R365: EN = 1 again while a disable waits for the run: the slot is checked anew, its queue dropped, and stays enabled. -/
theorem test_newt_reenable : let s := ne { en := true, endEn := true, queue := [[1, 3]], run := some { ev := [] }, prog := [(0, 0x98000000)] }
    let x := (run (.newtSlotEnable 0 0 0x10403) (evAt .s 0 (.newtSlotEnable 0 0 0x10403) s)).slot 0 0
    (x.en, x.endEn, x.queue, x.qdrop) = (true, false, [], 1) := by decide
theorem test_ntctl : ((run (.ntctlWrite 0 3 1) (evAt .s 0 (.ntctlWrite 0 3 1) (ne {} { nthead := 9 }))).vd 0 3).nthead = 0 := by decide
/-- spec/18 R374: the record leaves for the ring, and NTHEAD passes it once it has been performed there. -/
theorem test_trace_drain : (let t := run .traceDrain (evAt .s 0 .traceDrain (ne {}));
      t.wire.map (fun f => (f.gran, f.src, f.dst)) = [(some 0x600, 0, 0)] ∧ (t.vd 0 3).nthead = 0 ∧ (t.core 0).trace.map (·.sent) = [some (0, 0), none]) ∧
    (let t := run .traceDrain (evAt .s 0 .traceDrain (ne {} { nthead := 7 } (some (7, 0)))); (t.vd 0 3).nthead = 8 ∧ (t.core 0).trace.map (·.pc) = [0x48]) ∧
    ((run .traceDrain (evAt .s 0 .traceDrain (ne {} { frozen := true }))).vd 0 3).ntdrop = 1 := by decide +kernel

theorem witness_NewtEventsAndTraceFollowR361ToR374 :
    (evAt .s 0 (.newtEventArrival 0) (ne {})).agenda = .event 0 .s 0 (.newtEventArrival 0) :: [.issue 0 .s] ∧ ((ne {}).die 0).newtIn = [1, 3] :: [[2, 3]] ∧
    (let x := (ne { en := true, mask := 1, vf := 3 }).slot 0 0
     x.en = true ∧ 1 ≤ ((1 : BitVec 32).toNat % 256) ∧ x.mask.getLsbD (1 - 1) = true ∧ x.vf.toNat = (3 : BitVec 32).toNat ∧ x.queue.length < 64) ∧
    (ne { en := false }).slot 0 0 = { en := false } ∧ 64 ≤ (List.replicate 64 [(1 : BitVec 32)]).length ∧
    (let s := ne { en := true, vf := 3, queue := [[1, 3]] }; (s.slot 0 0).run = none ∧ (s.slot 0 0).queue = [1, 3] :: [] ∧ (s.slot 0 0).en = true ∧
      64 ≤ (s.vd 0 (s.slot 0 0).vf.toNat).nbleft) ∧ ((ne { vf := 3 } { nbleft := 63 }).vd 0 3).nbleft < 64 ∧
    (let v : Word := 0x3F03FF0DFF; v.extractLsb' 38 26 = 0 ∧ v.extractLsb' 26 6 = 0 ∧ v.extractLsb' 12 4 = 0 ∧ v.getLsbD 9 = false ∧ v.getLsbD 10 = true) ∧
    (let v : Word := 0x3F03FF09FF; v.extractLsb' 38 26 = 0 ∧ v.extractLsb' 26 6 = 0 ∧ v.extractLsb' 12 4 = 0 ∧ v.getLsbD 9 = false ∧ v.getLsbD 10 = false) ∧
    loadCheck [(0, 0x98000000)] = none ∧ loadCheck [] = some (1, 63) ∧ ((ne { run := some { ev := [] } }).slot 0 0).run ≠ none ∧
    (3 : Word).extractLsb' 2 62 = 0 ∧ (ne {}).feat 3 4 = true := by decide

theorem witness_NewtEventsAndTraceFollowR361ToR374_drain : let s := evAt .s 0 .traceDrain (ne {})
    (∃ q l, (s.core 0).trace = q :: l ∧ q.vf < 512) ∧ (s.vd 0 3).frozen = false ∧ ((s.vd 0 3).nthead - (s.vd 0 3).nttail).toNat ≠ 2 ^ (s.vd 0 3).ntsize ∧
    ((ne {} { frozen := true }).vd 0 3).frozen = true ∧ (let y := (ne {} { nthead := 16, ntsize := 4 }).vd 0 3; (y.nthead - y.nttail).toNat = 2 ^ y.ntsize) ∧
    (∃ u, ({ s with agenda := [.issue 0 .s] } : State).portTr (dieOf 0) (unitTrace 0) 3 ((s.vd 0 3).ntbase + BitVec.ofNat 64 (16 * ((s.vd 0 3).nthead.toNat % 2 ^ (s.vd 0 3).ntsize))) .write 16 none = (u, .ok 0x6000)) := by
  refine ⟨⟨_, _, rfl, by decide⟩, by decide, by decide, by decide, by decide, answers (by decide +kernel)⟩

/-- A record whose write has been performed, one whose write is on its way, and one that waits for another of its ring. -/
theorem witness_NewtEventsAndTraceFollowR361ToR374_sent : let s := evAt .s 0 .traceDrain (ne {} {} (some (0, 0)))
    let wr : Writer := { kind := 6, core := 0, dev := true, die := 0, vf := 3 }
    let u : State := { s with wire := [⟨0, 0, .req, 0, .store wr 0x6000 [some 1] false⟩] }
    (∃ q l, (s.core 0).trace = q :: l ∧ q.sent = some (0, 0)) ∧ (s.wire = [] ∧ s.hostOut = []) ∧ (∃ f ∈ u.wire, f.writer = some wr) ∧
    (let v : State := { evAt .s 0 .traceDrain (ne {}) with cores := [(0, (ne {}).core 0), (5, (ne {} {} (some (0, 0))).core 0)] }
     (∃ q l, (v.core 0).trace = q :: l ∧ q.sent = none) ∧ v.tracing 0 3 = true) ∧
    (evAt .s 0 .traceDrain (ne {})).tracing 0 3 = false := by
  refine ⟨⟨_, _, rfl, rfl⟩, by decide, ⟨_, .head _, rfl⟩, ⟨⟨_, _, rfl, rfl⟩, by decide⟩, by decide⟩

/-! ### Queues, signals and futures: spec/16, spec/17 -/

/-- The cells of a record of revision 3 at 0x4000, its header at 0x5000 with one iteration, its body at 0x6000 with S at 0x1000; `dep` is the low word of DEP. -/
def recCells (dep : List Host.Cell) : List Host.Cell :=
  [(0x4001, 3), (0x4009, 0x50), (0x4011, 0x60)] ++ dep ++ [(0x5000, 1), (0x5008, 1), (0x5010, 1), (0x5018, 16), (0x5040, 1), (0x6000, 1), (0x6041, 0x10), (0x6050, 4)]

/-- Queue 5 of die 0 holds the record; `ev'` makes an event the turn. -/
def qs (dep : List Host.Cell := []) (q : Queue := { qctl := 3 * 2 ^ 16 + 2 ^ 31, st := .active, fifo := [0x4000] }) : State :=
  { ps [] (recCells dep) [] {} q with cores := [] }

theorem test_qsub : ((run (.qsubWrite 0 5 0x4000) (ev (.qsubWrite 0 5 0x4000) (qs [] { qctl := 2 ^ 31 }))).queue 0 5).fifo = [0x4000] ∧
    ((run (.qsubWrite 0 5 0x4000) (ev (.qsubWrite 0 5 0x4000) (qs [] {}))).queue 0 5).ovf = 1 := by decide
theorem test_qctl : ((run (.queueEnable 0 5 (2 ^ 31)) (ev (.queueEnable 0 5 (2 ^ 31)) (qs [] {}))).queue 0 5).st = .active ∧
    ((run (.queueEnable 0 5 (2 ^ 31 + 2 ^ 9)) (ev (.queueEnable 0 5 (2 ^ 31 + 2 ^ 9)) (qs [] {}))).queue 0 5).st = .disabled ∧
    ((run (.queueDisable 0 5) (ev (.queueDisable 0 5) qs)).queue 0 5).fifo = [] := by decide
theorem test_qwdog : ((run (.qwdogWrite 0 5 9) (ev (.qwdogWrite 0 5 9) qs)).queue 0 5).rem = 9 ∧
    ((run (.qwdogWrite 0 5 (2 ^ 24)) (ev (.qwdogWrite 0 5 (2 ^ 24)) qs)).queue 0 5).rem = 0 := by decide
/-- spec/16 R323: the record becomes a launch whose DEP word is READY (STATE 2); a record of another revision faults the queue with reason 1. -/
theorem test_take : (let t := run (.queueTake 0 5) (ev (.queueTake 0 5) qs); t.nlaunch = 1 ∧ (t.launch 0).ready = true ∧ Tab.get 0 t.mem 0x4023 = 2 ∧ (t.queue 0 5).fifo = []) ∧
    (let x := (run (.queueTake 0 5) (ev (.queueTake 0 5) (qs [] { qctl := 4 * 2 ^ 16 + 2 ^ 31, st := .active, fifo := [0x4000] }))).queue 0 5
     (x.st, x.reason, x.code, x.faddr) = (.faulted, 1, 0x1A, 0x4000)) := by decide +kernel
/-- spec/17 R347: slot 0 of a WAITING record is signalled: READY; a poison of the same slot abandons a launch without a continuation. -/
theorem test_signal : Tab.get 0 (run (.signal 0 0x80) (ev (.signal 0 0x80) (qs [(0x4020, 1), (0x4023, 1)]))).mem 0x4023 = 2 ∧
    Tab.get 0 (run (.signal 0 0x80) (ev (.signal 0 0x80) (qs [(0x4020, 3), (0x4023, 1)]))).mem 0x4021 = 1 := by decide +kernel
theorem test_poison : Tab.get 0 (run (.poison 0 0x80) (ev (.poison 0 0x80) (qs [(0x4020, 3), (0x4023, 1)]))).mem 0x4022 = 1 := by decide +kernel
theorem test_abandon : Tab.get 0 (run (.futureAbandon 0 0x7000) (ev (.futureAbandon 0 0x7000) qs)).mem 0x7007 = 0xC0 := by decide +kernel

theorem witness_QueueRegistersFollowR322R323AndR412 :
    Turns (ev (.qsubWrite 0 5 1) qs) (.qsubWrite 0 5 1) [.issue 0 .s] ∧ (qs.queue 0 5).fifo.length < 256 ∧ (qs.queue 0 5).qctl.getLsbD 31 = true ∧
    ¬ (((qs [] {}).queue 0 5).fifo.length < 256 ∧ ((qs [] {}).queue 0 5).qctl.getLsbD 31 = true) ∧
    QueueBinds (qs [] {}) 0 5 (2 ^ 31) ∧ ¬ QueueBinds qs 0 5 (2 ^ 31) ∧ ¬ QueueBinds (qs [] {}) 0 5 (2 ^ 31 + 2 ^ 15) ∧
    QwdogClear 0x00FFFFFF00FFFFFF ∧ ¬ QwdogClear 0x01000000 := by
  refine ⟨turns _ _, by decide, by decide, by decide, ?_, ?_, ?_, ?_, ?_⟩ <;> first | unfold QueueBinds QctlClear | unfold QwdogClear
  all_goals decide

/-- A record that waits for nothing, one that waits for slot 0, one whose slot 0 has arrived with a poison. -/
theorem witness_QueueTakesFollowR323R324AndR347 : let s := ev (.queueTake 0 5) qs
    Turns s (.queueTake 0 5) [.issue 0 .s] ∧ (s.queue 0 5).fifo = 0x4000 :: [] ∧ (s.queue 0 5).st = .active ∧ s.launches = [] ∧
    (∃ t y, takeChecks (Passed s []) 0 (unitQueue 5) 5 0x4000 = (t, .ok y)) ∧
    (∃ t, takeChecks (qs [] { qctl := 0, st := .active, fifo := [0x4000] }) 0 (unitQueue 5) 5 0x4000 = (t, .error (some 1))) ∧
    (∃ t, takeChecks { Passed s [] with pkg := { recal := [(0, true)] } } 0 (unitQueue 5) 5 0x4000 = (t, .error none)) ∧
    (∃ t, (takeChecks (Passed s []) 0 (unitQueue 5) 5 0x4000).1.portTr 0 (unitQueue 5) 0 (0x4000 + 0x20) .rmw 8 none = (t, .ok 0x4020)) ∧
    AllArrived (WordAt s 0x4020) ∧ ¬ SomePoisoned 0 ∧ ¬ AllArrived (WordAt (qs [(0x4020, 1)]) 0x4020) ∧ AllArrived 0x10101 ∧ SomePoisoned 0x10101 := by
  refine ⟨turns _ _, by decide, by decide, by decide, ⟨_, _, Prod.ext rfl (Eq.refl (Except.ok _))⟩, answers (by decide +kernel), answers (by decide +kernel),
    answers (by decide +kernel), ?_, ?_, ?_, ?_, ?_⟩ <;> first | unfold AllArrived | unfold SomePoisoned
  all_goals decide +kernel

/-- A ready record with a ticket left; a DEP word held at a recalled stack, and one whose page is gone. -/
theorem witness_QueueTakesFollowR323R324AndR347_cases : let s := Passed qs []
    (let l : Launch := { die := 0, q := 5, ready := true, ranges := [(0, 0, 1)] }; l.die = 0 ∧ l.q = 5 ∧ l.ready = true ∧ l.ended = false ∧ l.left = true) ∧
    (∃ t, ({ s with pkg := { recal := [(0, true)] } } : State).portTr 0 (unitQueue 5) 0 (0x4000 + 0x20) .rmw 8 (some 0x4020) = (t, .held 0x4020)) ∧
    (∃ t, ({ s with vfs := [] } : State).portTr 0 (unitQueue 5) 0 (0x4000 + 0x20) .rmw 8 none = (t, .fault false 1)) ∧
    ((WordAt (qs [(0x4023, 2)]) 0x4020).extractLsb' 24 3).toNat ≠ 0 := by
  refine ⟨by decide, answers (by decide +kernel), answers (by decide +kernel), by decide +kernel⟩

theorem witness_SignalsAndPoisonsFollowR346ToR348 : let i : Instr := .signal 0 0x80
    Turns (ev i (qs [(0x4020, 1), (0x4023, 1)])) i [.issue 0 .s] ∧ (0x80 : Word).extractLsb' 53 11 = 0 ∧ (0x0020000000000080 : Word).extractLsb' 53 11 ≠ 0 :=
  ⟨turns _ _, by decide, by decide⟩

/-- An action waits at die 0; DEP of the record is `dep`, and launch 2 waits on it. -/
def ac (a : TaskAct) (dep : List Host.Cell := [(0x4020, 1), (0x4023, 1)]) (pa : Option Nat := none) : State :=
  { qs dep with acts := [⟨9, 8, a, pa⟩], launches := [(2, { va := 0x4000, dep := 0x4020, sink := true, done := 0x7000 })] }

/-- Each action has its turn, and the access that it makes: done, without a page, behind a stack under RECALHBM, or waiting for a page request. -/
theorem witness_ActTurn : (∀ a ∈ ([.tell 0 0 0x80 true none, .skipTo 2, .abandon 2, .recState 0 2 3, .sink 0 2 true, .msix 0 7, .fault 0 0 0x7000] : List TaskAct),
      ActTurn (ac a) 0 ⟨9, 8, a, none⟩) ∧
    (let s := ac (.tell 0 0 0x80 false none)
     (∃ t, s.portAcc 0 (unitAct 9) 0 0x4020 .rmw 8 none = (t, .ok 0x4020)) ∧
     (∃ t, s.portAcc 0 (unitAct 9) 0 (2 ^ 37) .rmw 8 none = (t, .fault false 1)) ∧
     (∃ t, ({ s with pkg := { recal := [(0, true)] } } : State).portAcc 0 (unitAct 9) 0 0x4020 .rmw 8 (some 0x4020) = (t, .held 0x4020)) ∧
     (∃ t, ({ s with mem := s.mem.take 3 ++ [(0x1008, 0x40)] ++ s.mem.drop 3, vfs := [(0, { vf0 with featact := 0xB41, pren := true, pralloc := 1 })] } : State).portAcc
       0 (unitAct 9) 0 (2 ^ 36) .rmw 8 none = (t, .wait))) := by
  refine ⟨?_, answers (by decide +kernel), answers (by decide +kernel), answers (by decide +kernel), answers (by decide +kernel)⟩
  intro a ha; fin_cases ha <;> exact ⟨rfl, by simp, by decide⟩

/-- Words of DEP as a tell meets them: waiting and then satisfied, without and with a poison; a record that runs. -/
theorem witness_TellsDo : DepArrived 0x01000001 0x01000101 0 false ∧ DepArrived 0x01000001 0x01010101 0 true ∧ DepArrived 0x02000001 0x02000101 0 true ∧
    AllArrived 0x01000101 ∧ ¬ SomePoisoned 0x01000101 ∧ SomePoisoned 0x01010101 ∧ ¬ AllArrived 0x01000103 ∧
    ((0x01000001 : Word).extractLsb' 24 3).toNat = 1 ∧ ((0x02000001 : Word).extractLsb' 24 3).toNat = 2 ∧ (ac (.skipTo 2)).waiting 0x4020 = some 2 ∧
    Wrap64 (((0x80 : Word).extractLsb' 0 50).toInt * 128) = 0x4000 := by
  refine ⟨?_, ?_, ?_, ?_, ?_, ?_, ?_, ?_⟩ <;> first | unfold DepArrived | unfold AllArrived | unfold SomePoisoned | skip
  all_goals decide

theorem witness_RecordActsDo : ((ac (.skipTo 2)).launch 2).fcont = 0 ∧ ((ac (.abandon 2)).launch 2).ended = false ∧
    ((({ ac (.abandon 2) with launches := [(2, { ended := true })] } : State)).launch 2).ended = true ∧ ((ac (.sink 0 2 true)).launch 2).sink = true ∧
    ((WordAt (ac (.recState 0 2 3) [(0x4023, 2)]) 0x4020).extractLsb' 24 3).toNat = 2 ∧ ((WordAt (ac (.recState 0 2 3)) 0x4020).extractLsb' 24 3).toNat ≠ 2 := by
  decide +kernel
/-- A signal satisfies the record: STATE 2 and a ready launch; a completion record of a faulted one. -/
theorem test_acts : (let t := (tryAct 0 (ac (.tell 0 0 0x80 false none))).1; (t.launch 2).ready = true ∧ Tab.get 0 t.mem 0x4023 = 2 ∧ t.acts = []) ∧
    (let t := (tryAct 0 (ac (.sink 0 2 true))).1; Tab.get 0 t.mem 0x7000 = 1 ∧ Tab.get 0 t.mem 0x7009 = 0x40 ∧ t.acts.map (·.act) = [.msix 0 0]) := by decide +kernel

/-- A pair at 0x7000 whose state word is `st` · 2^62, and an answer of core 0 that reaches it. -/
def fs (i img : Instr) (et : Nat) (st : Byte) (arg : List Byte) : State :=
  { evAt .w 0 i (ps [] (if st = 0 then [] else [(0x7007, st)])) with
    cores := [(0, { ((ps []).core 0) with acc := [⟨1, .w, img, 0, et, 0, 0x7000, 0x7000, arg, none⟩], wq := [{ k := .w, ord := 1, seq := 1, img := img }] })] }

theorem test_resolve : (let t := run .futureResolve (fs .futureResolve (.cpres a0 4 5 false) 6 0 [9, 0, 0, 0, 0, 0, 0, 0])
      Tab.get 0 t.mem 0x7007 = 0x80 ∧ Tab.get 0 t.mem 0x7008 = 9) ∧
    ((run .futureResolve (fs .futureResolve (.cpres a0 4 5 false) 6 0x80 [9, 0, 0, 0, 0, 0, 0, 0])).core 0).wq.map (·.port) = [some (0x18, 0x7000)] := by decide +kernel
theorem test_register : Tab.get 0 (run .futureRegister (fs .futureRegister (.cpreg a0 4 5 false) 6 0 [9, 0, 0, 0, 0, 0, 0, 0])).mem 0x7007 = 0x40 ∧
    ((run .futureRegister (fs .futureRegister (.cpreg a0 4 5 false) 6 0x40 [9, 0, 0, 0, 0, 0, 0, 0])).core 0).wq.map (·.port) = [some (0x19, 0x7000)] := by decide +kernel
theorem test_accumulate : Tab.get 0 (run .accumulateOnWrite (fs .accumulateOnWrite (.cpaccAdd a0 1 4 5 false) 4 0 [9, 0, 0, 0])).mem 0x7000 = 9 ∧
    Tab.get 0 (run .accumulateOnWrite (fs .accumulateOnWrite (.cpaccMax a0 1 4 5 false) 4 0 [0xFF, 0xFF, 0xFF, 0xFF])).mem 0x7000 = 0 := by decide +kernel

theorem witness_FuturesFollowR354AndR355 : let s := fs .futureResolve (.cpres a0 4 5 false) 6 0x40 []
    s.agenda = .event 0 .w 0 .futureResolve :: [.issue 0 .s] ∧
    (∃ r, (s.core 0).acc = r :: [] ∧ r.img = .cpres a0 4 5 false ∧ r.pa = 0x7000 ∧ r.ret = none ∧ accReady s 0 r = true) ∧
    s.poisoned 0x7000 16 = false ∧ ((WordAt s 0x7000).extractLsb' 62 2).toNat = 1 ∧ ((WordAt qs 0x7000).extractLsb' 62 2).toNat = 0 ∧
    Turns (ev (.futureAbandon 0 0x7000) qs) (.futureAbandon 0 0x7000) [.issue 0 .s] ∧
    ({ s with poison := [0x700] }.poisoned 0x7000 16 = true) ∧ (4 : Nat) < 7 ∧ 7 ≤ 8 ∧ s.aperOk 0 0 0x100 4 = true ∧ s.aperOk 0 1 0x100 4 = false ∧
    ((s.core 0).cmd 1).isSome = true ∧ ((s.core 0).cmd 2).isSome = false := by
  refine ⟨rfl, ⟨_, rfl, rfl, rfl, rfl, by decide⟩, by decide, by decide, by decide +kernel, turns _ _, by decide, by decide, by decide, by decide, by decide, by decide,
    by decide⟩

/-! ### Ticks, resets, registers and the mailbox: spec/15, spec/16, spec/20 -/

/-- spec/15 R316: a refill of 10 tokens pays at most a quarter of its rate; the surplus over the depth goes to the pool. -/
theorem test_refill : (let t := after (.refillTick 0) (zs { cbpoolmax := 5 } { cb := { meter := true, rate := 10, depth := 12, debt := 9, tok := 7 } });
      ((t.vd 0 3).cb.tok, (t.vd 0 3).cb.debt, (t.die 0).cbpool) = (12, 7, 3)) ∧
    (let t := after (.budgetRefill 0) (zs {} { bu := { meter := true, rate := 10, depth := 12 }, nbud := 7, spent := true });
      ((t.vd 0 3).bu.tok, (t.vd 0 3).nbleft, (t.vd 0 3).spent) = (10, 7, false)) := by decide +kernel
theorem test_tick_full : ((after (.refillTick 0) (zs { st := .early, trainedL := true, trainedU := true })).die 0).st = .full ∧
    ((after (.refillTick 0) (zs { st := .early, trainedL := true })).die 0).st = .early := by decide +kernel
theorem test_function_resets : ((after (.vfReset 3) { zs with vfs := [(3, { gen := 7 })] }).vf 3).gen = 8 ∧
    ((after (.vfCreation 3) { zs with vfs := [(3, { gen := 7 })] }).vf 3).gen = 0 := by decide
theorem test_die_states : ((after (.selftestComplete 0 false) (zs { st := .selftest })).die 0).st = .failed ∧
    ((after (.selftestComplete 0 true) (zs { st := .selftest, trainedL := true })).die 0).st = .early ∧ ((after (.dieOvertemp 0) (zs { st := .full })).die 0).st = .failed ∧
    ((after (.hbmTrainingComplete 0 true) (zs)).die 0).trainedU = true ∧ ((after (.throttle 0 true) (zs)).die 0).slow = true ∧
    ((after (.correctedError 0) (zs)).die 0).errs = 1 := by decide
theorem test_errors : (after (.uncorrectableError 0x105) (zs)).poison = [0x10] := by decide
theorem test_package_reset : (after (.packageReset []) { zs with nlaunch := 5 }).nlaunch = 0 := by
  show (resetPackage [] _).nlaunch = 0
  dsimp only [resetPackage]
  split <;> rfl
/-- The second queue of the same partition that expires in the clock cycle comes after the first, which resets nothing yet. -/
theorem test_watchdog : (let i : Instr := .watchdog 0 5
     let t := run i { zs { st := .full, queues := [(5, { st := .active, limit := 3 })] } with agenda := [.event 0 .s 0 i, .event 0 .s 0 (.watchdog 1 5)] }
     t.pkg.wdlast = 5 ∧ (t.queue 0 5).reason = 13 ∧ t.outbox = [.watchdog 5, .pfMsix 1]) ∧
    (after (.watchdog 0 5) (zs { st := .full, queues := [(5, { st := .active, limit := 3, rem := 1 })] })).outbox = [] := by decide

theorem witness_TicksAndRefillsFollowR316R334R335AndR412 : let s := zs { st := .early, trainedL := true, trainedU := true } { bu := { meter := true, tok := 1 } }
    Turns (ev (.budgetRefill 0) s) (.budgetRefill 0) [.issue 0 .s] ∧ Turns (ev (.refillTick 0) s) (.refillTick 0) [.issue 0 .s] ∧ s.keysOk ∧
    (∃ v, (s.tenantsOn 0)[0]? = some v) ∧ (∃ e, dieOf e ∈ s.diesOf (s.partOf 0) ∧ s.serves (dieOf e) = true ∧ (s.core e).ctx = none) ∧
    (let x : Queue := { st := .active, limit := 3, rem := 1 }; x.st ≠ .disabled ∧ x.limit ≠ 0 ∧ x.rem ≠ 0) ∧
    Charged { tok := 1 } 0 { tok := 0 } 0 ∧ Charged { borrow := true, dmaxA := 1 } 1 { borrow := true, dmaxA := 1, debt := 1 } 0 ∧
    ChargeWaits { borrow := true, dmaxA := 1, debt := 1 } 9 := by
  refine ⟨turns _ _, turns _ _, ?_, ⟨3, by decide⟩, ⟨7, by decide, by decide, by decide⟩, by decide, .inl (by decide), .inr (by decide), ?_⟩
  · unfold State.keysOk; decide
  · unfold ChargeWaits; decide

/-- One core at work on the die whose tenant's core time is metered. -/
theorem witness_TicksFollowR316R334R337AndR412 :
    let s : State := { ps [] with vfdie := [(0, { bu := { meter := true } })], cores := [(0, { ctx := some { preempt := .drain 0 } })], dieclk := 100001 }
    s.cores.filter (fun e => decide (dieOf e.1 = 0 ∧ e.2.ctx.isSome)) = [(0, s.core 0)] ∧ (s.core 0).ctx = some { preempt := .drain 0 } ∧
    (s.ctx 0).preempt = .drain 0 ∧ s.dieclk > 0 + 1000 * (s.die 0).prdrainw ∧ (s.vd 0 0).bu.meter = true ∧ (s.vd 0 1).bu.meter = false := by decide

theorem witness_ResetsAndServiceStatesFollowR399ToR413 :
    (∀ i ∈ ([.vfReset 3, .vfCreation 511, .hbmTrainingComplete 0 true, .throttle 0 true, .correctedError 0, .selftestComplete 0 true, .dieOvertemp 0,
      .uncorrectableError 5, .watchdog 0 5, .packageReset []] : List Instr), Turns (ev i zs) i [.issue 0 .s]) ∧
    (zs { st := .selftest }).die 0 = { st := .selftest } ∧ (zs {}).die 0 ≠ { st := .selftest } ∧ 0 ∉ (zs).pkg.mbox.tests ∧ 0 ∈ ({ tests := [0, 1] } : Mailbox).tests ∧
    (let p : Pkg := { mbox := { busy := true, cmd := 9 } }; p.mbox.busy = true ∧ p.mbox.cmd = 9) ∧ (∀ e < 8, e ≠ 0 → ((zs).die e).st ≠ .selftest) ∧
    homeOf 5 = .hbm 0 ∧ homeOf (2 ^ 40) = .sdm 0 ∧ homeOf (2 ^ 51) = .host 0 ∧
    (let x := (zs { queues := [(5, { st := .active, limit := 3 })] }).queue 0 5; x.st ≠ .disabled ∧ x.limit ≠ 0 ∧ x.rem = 0) :=
  ⟨fun i _ => turns i _, by decide, by decide, by decide, by decide, by decide, by decide, by decide, by decide, by decide, by decide⟩

/-! ### Registers and the mailbox: spec/20 -/

theorem test_function_registers : ((after (.featselWrite 3 0xB01) (zs)).vf 3).fpend = true ∧
    ((after (.featuresTakeEffect 3) { zs with vfs := [(3, { featsel := 0x10B00, fpend := true })] }).vf 3).featact = 0xB01 ∧
    ((after (.vfpartWrite 3 5) (zs)).vf 3).part = 5 ∧ ((after (.vfpartWrite 3 9) (zs)).vf 3).part = 0 ∧
    ((after (.tinvnWrite 3 2) { zs with vfs := [(3, { tinva := 0x30000 })] }).vf 3).tinv = [(3, 2)] := by decide
theorem test_invalidation : (after (.invalidationComplete 3) { zs with vfs := [(3, { tinv := [(3, 2)] })]
                                                                       tlb := [⟨0, none, 3, 0x30000, 2 ^ 16, 0, 7, none⟩, ⟨0, some 1, 3, 0x50000, 2 ^ 16, 0, 7, none⟩] }).tlb =
    [⟨0, some 1, 3, 0x50000, 2 ^ 16, 0, 7, none⟩] := by decide
theorem test_partmap : (after .partmapTakesEffect (zs {} {} { pmpend := some 1 })).pkg.pid = 1 ∧
    (after .partmap (zs {} {} { cfgok := true, mbox := { busy := true, cmd := 7, arg := [(0, 2 ^ 26)] } })).pkg.mbox.result = 1 := by decide
theorem test_mailbox : (after .recalhbm (zs {} {} { cfgok := true, mbox := { arg := [(0, 3)] } })).pkg.recal = [(3, true)] ∧
    (after .recallink (zs {} {} { cfgok := true, mbox := { arg := [(0, 14)] } })).pkg.mbox.result = 1 ∧
    (after (.hbmRetrained 3) (zs {} {} { recal := [(3, true)] })).pkg.recal = [] ∧ (after (.linkDown 3) (zs)).pkg.down = [(3, true)] ∧
    (after (.linkRetrained 3) (zs {} {} { down := [(3, true)] })).pkg.down = [] := by decide
theorem test_newtload : (let t := after .newtload (zs {} {} { cfgok := true, mbox := { busy := true, cmd := 4, buf := [(3, 0x98)] } })
      Tab.get 0 (t.slot 0 0).prog 0 = 0x98000000 ∧ t.pkg.mbox.result = 0 ∧ t.pkg.mbox.busy = false) ∧
    (after .newtload (zs {} {} { cfgok := true, mbox := {} })).pkg.mbox.result = 1 := by decide
theorem test_readmit : ((after .readmit (zs { st := .offline } {} { cfgok := true, mbox := { arg := [(0, 0)] } })).die 0).st = .selftest ∧
    (after .readmit (zs { st := .full } {} { cfgok := true, mbox := { arg := [(0, 0)] } })).pkg.mbox.result = 1 := by decide
theorem test_partreset : (after .partreset (zs {} {} { cfgok := true, mbox := { arg := [(0, 8)] } })).pkg.mbox.result = 1 := by decide
/-- spec/20 R399: without a configuration record every command is refused. -/
theorem test_refused : ([.attest, .getid, .newtload, .recalhbm, .recallink, .partmap, .partreset, .readmit] : List Instr).all
    (fun i => (after i (zs {} {} { mbox := { busy := true } })).pkg.mbox == { result := 1 }) = true := by decide
theorem test_update : (after (.update []) (zs {} {} { mbox := { arg := [(2, 2)] } })).pkg.mbox.result = 1 := by decide
theorem test_attest_getid : (after .attest (zs)).pkg.mbox.result = 0 ∧ (after .getid (zs)).pkg.mbox.result = 0 := ⟨rfl, rfl⟩
theorem test_register_write : (after (.registerWrite true 0 0x18 1000) (zs)).pkg.pwrcap = 1000 ∧ (after (.registerWrite true 0 0x18 999) (zs)).pkg.pwrcap = 3200 ∧
    ((after (.registerWrite true 0 0x1000020 7) (zs)).die 0).prwait = 7 ∧ ((after (.registerWrite false 3 0x40 0x8001) (zs)).vf 3).ptroot = 0x8001 := by decide

/-- spec/20 R396, R397: PKGSTAT of a package whose die 0 is EARLY; FEATCAP; the queue of another function reads as 0. -/
theorem test_register_read : let rd (pf : Bool) (off : Nat) : List Out :=
      (turned { zs { st := .early, queues := [(5, { qctl := 3 + 2 ^ 31, st := .active, fifo := [1, 2], ovf := 7 })] } with agenda := [.read pf 3 off] }).outbox
    rd true 0 = [.regData true 3 0 0x1000002] ∧ rd false 0 = [.regData false 3 0 0xFFF] ∧
    rd false (0x100000 + 0x1008 + 0x20 * 5) = [.regData false 3 (0x100000 + 0x1008 + 0x20 * 5) 0x700000402] ∧
    rd false (0x100000 + 0x1008 + 0x20 * 6) = [.regData false 3 (0x100000 + 0x1008 + 0x20 * 6) 0] ∧ rd true 0x30 = [.regData true 3 0x30 0] := by decide +kernel
theorem witness_RegisterReadsFollowTheirTables : let s : State := { zs with agenda := [.read false 3 0x40, .issue 0 .s] }
    s.agenda = .read false 3 0x40 :: [.issue 0 .s] ∧ 0x40 % 4 = 0 ∧ ¬ AllFull s ∧ s.partOf 0 = (s.vf 3).part.toNat ∧ s.partOf 7 ≠ 1 ∧
    ((s.slot 0 0).vf.toNat ≠ 3) ∧ ((s.slot 0 0).vf.toNat = 0) := by
  refine ⟨rfl, by decide, fun h => ?_, by decide, by decide, by decide, by decide⟩
  have := h 1 (by decide); exact absurd this (by decide)

/-- NSCTL of a slot at work, and of one whose disabling waits for its run; a value that a function's driver may write, one that has a zero field set, and
one that enables a slot of a function without NEWT. -/
theorem witness_NsctlWrites : NsctlHolds { en := true, vf := 3, mask := 5, vec := 6 } (3 + 2 ^ 10 + 5 * 2 ^ 16 + 6 * 2 ^ 32) ∧
    NsctlHolds { en := true, endEn := true, any := true } (2 ^ 11) ∧
    (let fits (s : State) (v : Word) : Prop := v.extractLsb' 38 26 = 0 ∧ v.extractLsb' 26 6 = 0 ∧ v.extractLsb' 12 4 = 0 ∧ v.getLsbD 9 = false ∧
      (v.getLsbD 10 = false ∨ s.feat 0 5 = true)
     fits zs (5 * 2 ^ 16) ∧ ¬ fits zs (2 ^ 10) ∧ ¬ fits zs (2 ^ 9) ∧ fits { zs with vfs := [(0, { featact := 0x21 })] } (2 ^ 10)) := by
  unfold NsctlHolds; decide

theorem witness_FunctionRegistersFollowR307R390AndR403 :
    (∀ i ∈ ([.featselWrite 3 1, .featuresTakeEffect 3, .vfpartWrite 3 7, .tinvnWrite 3 2, .invalidationComplete 3, .partmapTakesEffect] : List Instr),
      Turns (ev i zs) i [.issue 0 .s]) ∧
    (let s : State := { zs with vfs := [(3, { fpend := true, tinv := [(3, 2)] })], pkg := { pmpend := some 1 } }
     (s.vf 3).fpend = true ∧ ¬ VfBusy s 3 ∧ (s.vf 3).tinv = (3, 2) :: [] ∧ s.pkg.pmpend = some 1 ∧ MapQuiet s 1) ∧
    VfBusy (ps []) 0 ∧ (7 : Word).extractLsb' 3 61 = 0 ∧ (8 : Word).extractLsb' 3 61 ≠ 0 ∧ (0x80000000FFFFFFFF : Word).extractLsb' 32 31 = 0 ∧
    ¬ MapQuiet { ps [] with pkg := { pmpend := some 1 } } 1 := by
  refine ⟨fun i _ => turns i _, ⟨by decide, ?_, by decide, by decide, ?_⟩, ?_, by decide, by decide, by decide, ?_⟩
  · unfold VfBusy
    rintro (⟨e, he, y, _⟩ | ⟨d, hd, q, hq, _⟩)
    · simp [zs, State.reset] at he
    · simp [zs, State.reset] at hd; subst hd; simp at hq
  · unfold MapQuiet; decide
  · exact .inl ⟨_, List.mem_singleton.2 rfl, _, rfl, rfl⟩
  · intro h
    have := (h 0 (by decide) (by decide)).1 _ (List.mem_singleton.2 rfl) (by decide)
    exact absurd this (by decide)

theorem witness_MailboxCommandsFollowR406ToR413 :
    (∀ i ∈ ([.attest, .getid, .update [1], .newtload, .recalhbm, .recallink, .partmap, .partreset, .readmit, .hbmRetrained 15, .linkRetrained 13, .linkDown 13]
      : List Instr), Turns (ev i zs) i [.issue 0 .s]) ∧
    (zs).pkg.cfgok = true ∧ (zs {} {} {}).pkg.cfgok = false ∧ MapFits zs 0 ∧ (0x3FFFFFF : Word).extractLsb' 26 38 = 0 ∧ (0x4000000 : Word).extractLsb' 26 38 ≠ 0 ∧
    ((zs).slot 7 15).run = none ∧ loadCheck [(0, 0x98000000)] = none ∧ loadCheck [] ≠ none ∧ (zs { st := .offline }).partOf 0 = 0 ∧
    ((zs { st := .offline }).die 0).st = .offline := by
  refine ⟨fun i _ => turns i _, by decide, by decide, ?_, by decide, by decide, by decide, by decide +kernel, by decide, by decide, by decide⟩
  have h : ∀ a < 8, ∀ b < 8, (∀ x ∈ route a b, (0 : BitVec 24).extractLsb' (3 * x) 3 = (0 : BitVec 24).extractLsb' (3 * a) 3) ∧
      (zs.die a).st ≠ .failed := by decide +kernel
  exact fun a ha b hb _ _ => h a ha b hb

theorem witness_RegisterWritesFollowR396AndR397 :
    (∀ i ∈ ([.registerWrite true 0 2 0, .registerWrite true 0 4 0, .registerWrite true 0 0x18 3200, .registerWrite true 0 0x200 9, .registerWrite true 0 0x220 1,
      .registerWrite true 0 0x3FF8 1, .registerWrite true 0 (0x1000000 + 7 * 0x200000 + 0x10FC0) 0, .registerWrite true 0 (0x1000000 + 0x100000 + 0x80 * 511) 3,
      .registerWrite false 3 0x18 1, .registerWrite false 3 0x40 0x000FFFFFFFFF8001, .registerWrite false 3 (0x100000 + 0x20) 26,
      .registerWrite false 3 (0x100000 + 0x40000 + 0x4000 * 15 + 0x1FFC) 1] : List Instr), Turns (ev i zs) i [.issue 0 .s]) ∧
    (0x1000000 + 7 * 0x200000 + 0x10FC0 = 0x1000000 + 7 * 0x200000 + (0x10000 + 0x40 * 63)) ∧ 0x1FFC = 0x1000 + 4 * 1023 ∧ (zs).pkg.mbox.busy = false ∧
    (let v : Word := 0x000FFFFFFFFF8001; v.extractLsb' 52 12 = 0 ∧ v.extractLsb' 1 14 = 0) ∧ (0xFFFFFF : Word).extractLsb' 24 40 = 0 ∧
    ¬ (0x1000000 : Word).extractLsb' 24 40 = 0 ∧ (zs).partOf 7 = ((zs).vf 3).part.toNat ∧ ((zs).slot 0 15).vf.toNat = 0 ∧ ((zs).slot 0 15).en = false ∧
    ((zs).vd 0 3).nten = false ∧ ¬ QctlClear (2 ^ 9) := by
  refine ⟨fun i _ => turns i _, by decide, by decide, by decide, by decide, by decide, by decide, by decide, by decide, by decide, by decide, ?_⟩
  unfold QctlClear; decide

/-! ### The host and translation: spec/15, spec/19, spec/21 -/

theorem test_host_memory : (after (.hostMemWrite 0x100 [7, 8]) (zs)).mem = [(0x100, 7), (0x101, 8)] ∧ (after (.hostMemWrite (2 ^ 40) [7]) (zs)).outbox = [] ∧
    (after (.hostMemRead 0x100 2) { zs with mem := [(0x101, 8)] }).outbox = [.memData 0x100 [0, 8]] ∧ (after (.hostSnoop 5) (zs)).outbox = [.snoopMiss 5] := by decide
/-- A write of function 3 to host memory that waits for its completion. -/
def hw : HostWr := { src := 1, wr := {}, hpa := 0, bytes := [] }
theorem test_host_completion : (let t := after (.cxlCacheCompletion 0) { zs with hostOut := [hw] }; t.hostOut = [] ∧ t.wire = [⟨0, 1, .hst, 0, .ack {}⟩]) := by decide
/-- spec/19 R392: behind the shut link 0 a host write waits in its granules, and a read too. -/
theorem test_host_held : (after (.hostMemWrite (2 ^ 37 + 8) (List.replicate 16 5)) (zs {} {} { force := [(0, true)] })).wire.map (fun f => (f.hop, f.gran)) =
      [(0, some (2 ^ 33)), (0, some (2 ^ 33 + 1))] ∧
    (after (.hostMemRead (2 ^ 37) 2) (zs {} {} { force := [(0, true)] })).wire.map (·.cargo) = [.read (2 ^ 37) 2] := by decide
theorem test_page_walk : (after (.pageWalk 0 0x12345678 .read) (ps [])).tlb.map (fun e => (e.micro, e.vf, e.base, e.pa, e.size)) =
    [(none, 0, 0, 0, 2 ^ 36), (some 0, 0, 0, 0, 2 ^ 36)] := by decide +kernel
/-- A walk of function 3 in a state. -/
def wk (st : WalkSt) : Walk := ⟨0, 3, 5, [], true, st⟩
theorem test_prg_response : (let t := after (.prgResponse 3 7 2 .failure) { zs with vfs := [(3, { gen := 7, preqs := [⟨2, 9⟩] })], walks := [wk (.page 2)] }
      (t.vf 3).prstop = true ∧ (t.vf 3).preqs = [] ∧ t.walks = [wk (.refused 5)]) ∧
    ((after (.prgResponse 3 6 2 .success) { zs with vfs := [(3, { gen := 7, preqs := [⟨2, 9⟩] })] }).vd 0 3).prdrop = 1 := by decide
theorem test_ats : (after (.atsTranslationCompletion 3 9 true 0x5000) { zs with walks := [wk (.ats 9)] }).walks = [wk (.answer 9 0x5000)] ∧
    (let t := after (.atsInvalidateRequest 3 9) { zs with tlb := [⟨0, none, 3, 0, 4096, 0, 7, some 9⟩], walks := [wk (.answer 9 0x5000)] }
     t.tlb = [] ∧ t.walks = [wk .again] ∧ t.outbox = [.atsComplete 3 9]) := by decide
/-- A flit crosses the link to die 1, where it is applied and acknowledged; one to die 5 crosses two links (spec/19 R379). -/
theorem test_flit : let go (d hop : Nat) (pkg : Pkg) : State :=
      (turned { zs with agenda := [.flit 0], pkg := pkg, wire := [⟨0, d, .req, hop, .store {} (d * 2 ^ 37) [some 9] false⟩] })
    let at' (t : State) : List (Nat × Chan) := t.wire.map (fun f => (f.hop, f.chan))
    at' (go 1 0 {}) = [(1, .req)] ∧ at' (go 1 0 { down := [(0, true)] }) = [(0, .req)] ∧ at' (go 1 1 {}) = [(0, .rsp)] ∧ (go 1 1 {}).mem = [(2 ^ 37, 9)] ∧
    at' (go 5 1 {}) = [(2, .req)] ∧ (go 5 1 {}).mem = [] := by decide

theorem witness_HostAndTranslationEventsFollowTheirRules :
    (∀ i ∈ ([.hostMemWrite (2 ^ 40 - 1) [7], .hostMemWrite (2 ^ 40) [7], .hostMemRead (2 ^ 40 - 1) 1, .hostMemRead (2 ^ 40) 1, .hostSnoop 5, .cxlCacheCompletion 0,
      .pageWalk 0 0x5000 .read, .prgResponse 3 7 2 .success, .atsTranslationCompletion 3 9 true 0x5000, .atsInvalidateRequest 3 9] : List Instr),
      Turns (ev i (ps [])) i [.issue 0 .s]) ∧ HostPasses (ps []) (2 ^ 40 - 1) 1 ∧ ¬ HostPasses (zs {} {} { force := [(0, true)] }) (2 ^ 37) 1 ∧
    (let s : State := { zs with hostOut := [hw] }; s.hostOut = [] ++ hw :: []) ∧ ((zs).core 0).ctx = none ∧ ((ps []).core 0).ctx ≠ none ∧
    (∃ b z p, walk (ps []) (dieOf 0) 0 0x5000 .read = .leaf b z p false) ∧ (∀ a ∈ entriesOf (ps []) (dieOf 0) 0 0x5000, (ps []).heldUp (dieOf 0) a = false ∧ (ps []).behindDie (dieOf 0) a = false) ∧
    (let s : State := { ps [] with pkg := { recal := [(0, true)] } }; ∃ a ∈ entriesOf s (dieOf 0) 0 0x5000, s.heldUp (dieOf 0) a = true) ∧
    (∀ b z p, walk (ps []) (dieOf 0) 0 (2 ^ 37) .read ≠ .leaf b z p false) ∧
    (let x : Vf := { gen := 7, preqs := [⟨2, 9⟩] }
     (7 : BitVec 20).extractLsb' 0 16 = x.gen ∧ (∃ q ∈ x.preqs, q.slot = 2) ∧ ¬ ∃ q ∈ x.preqs, q.slot = 3) ∧
    (ps []).inFlight 3 = false ∧ ({ ps [] with hostOut := [{ hw with wr := { vf := 3 } }] } : State).inFlight 3 = true := by
  refine ⟨fun i _ => turns i _, ?_, ?_, by decide, by decide, by decide, ⟨0, 2 ^ 36, 7, by decide +kernel⟩, by decide +kernel,
    by decide +kernel, ?_, by decide, by decide, by decide⟩
  · unfold HostPasses; decide
  · unfold HostPasses; decide
  · have h : (match walk (ps []) (dieOf 0) 0 (2 ^ 37) .read with | .leaf _ _ _ a => a | _ => true) = true := by decide +kernel
    intro b z p e; rw [e] at h; simp at h

/-- Flits on their way and at their die; one behind another of its channel; a link that is closed to REQ alone; a write that a stack under RECALHBM holds. -/
theorem witness_FlitsGoTheirWay : let f (d hop : Nat) : Flit := ⟨0, d, .req, hop, .store {} (2 ^ 37) [some 9] false⟩
    (∀ hop ∈ [0, 1, 2], let s : State := { zs with agenda := [.flit 1], wire := [f 5 0, f 5 hop] }
      s.agenda = .flit 1 :: [] ∧ s.wire[1]? = some (f 5 hop) ∧ f 5 0 ∈ s.wire.take 1) ∧
    (route 0 5).length = 2 ∧ (hopsOf 0 (route 0 1))[0]? = some 0 ∧ (f 5 0).hop ≤ (f 5 0).hop ∧ ¬ (f 5 1).hop ≤ (f 5 0).hop ∧ Tab.get false (zs {} {} { down := [(0, true)] }).pkg.down 0 = true ∧
    (let p := (zs {} {} { force := [(0, true)], pid := 8 }); Tab.get false p.pkg.force 0 = true ∧ p.partOf 0 ≠ p.partOf 1) ∧
    (zs {} {} { recal := [(2, true)] }).recalled (2 ^ 37) = true ∧ (zs).recalled (2 ^ 37) = false ∧ homeOf (2 ^ 37) = .hbm 2 ∧
    (f 1 1).home = true ∧ (f 1 1).port = (f 1 1).port ∧ (zs).unfinishedPart (f 1 1) = false ∧ (f 1 1).after (f 1 1) = true := by
  decide

/-- A package with one collective of die 0. -/
def es (x : Coll) : State := { zs with colls := [x] }
/-- A READY of rank 1 that meets it. -/
def rdy (op : BitVec 4 := 6) : ReadyMsg := ⟨7, 9, 1, 0, 1, op, 0, false, 0, 2, 0⟩
/-- The collective with its peers: this package and package 1. -/
def clp (st : CollSt) : Coll := { cl st with peers := [(0, 0), (1, 0)] }

theorem test_ready : ((after (.collectiveReady 0 (rdy)) (zs)).die 0).ready = [rdy] ∧ (after (.collectiveReady 0 (rdy 5)) (es (clp .meeting))).colls.map (·.st) = [.ended 4] := by
  decide
theorem test_coll_events : (after (.collectiveAbort 0 7 9) (es (cl .moving))).colls.map (·.st) = [.ended 3] ∧
    (after (.collectiveDeadline 0 0) (es (cl .moving))).colls.map (·.st) = [.ended 1] ∧ (after (.collectiveDeadline 0 0) (es { cl .moving with due := 9 })).colls.map (·.st) = [.moving] ∧
    (after (.collectiveData 0 7 9 1 [5]) (es (cl .meeting))).colls.map (fun x => Tab.get [] x.data 1) = [[5]] ∧
    (after (.collectiveComplete 0 0) (es { cl .moving with due := 9, wrote := 1 })).colls.map (·.st) = [.ended 0] ∧
    (after (.collectiveComplete 0 0) (es { cl .moving with wrote := 1 })).colls.map (·.st) = [.moving] := by decide
/-- spec/21 R417, R418: a port that goes down keeps its far end. -/
theorem test_ports : (after (.zwivelPortUp 3 9 2) (zs)).pkg.zport = [(3, ⟨9, 2, true⟩)] ∧
    (after (.zwivelPortDown 3) (zs {} {} { zport := [(3, ⟨9, 2, true⟩)] })).pkg.zport = [(3, ⟨9, 2, false⟩)] := by decide
/-- spec/19 R394: a READY at a port of a die of another partition is refused and its sender told; at a port of another die of the partition it goes on. -/
theorem test_ready_comes_in : (let t := run (.collectiveReady 0 (rdy)) (evAt .s 4 (.collectiveReady 0 (rdy)) (zs {} {} { pid := 8 })); t.outbox = [.portRefused 4 7 9] ∧ (t.die 1).fwdeny = 1) ∧
    (run (.collectiveReady 0 (rdy)) (evAt .s 4 (.collectiveReady 0 (rdy)) zs)).wire = [⟨1, 0, .mgt, 0, .ready (rdy)⟩] := by decide

theorem witness_CollectiveEventsFollowR417ToR428 :
    (∀ i ∈ ([.collectiveReady 0 (rdy), .collectiveAbort 0 7 9, .collectiveDeadline 0 0, .collectiveData 0 7 9 1 [5], .collectiveComplete 0 0, .zwivelPortDown 23,
      .zwivelPortUp 23 9 2] : List Instr), Turns (ev i zs) i [.issue 0 .s]) ∧
    (∀ i s, CoreTurns (evAt .s 23 i s) 0 .s 23 i [.issue 0 .s]) ∧
    NoColl zs 0 7 9 ∧ ((zs).die 0).ready.length < 256 ∧ IsColl (es (clp .meeting)) 0 7 9 [] (clp .meeting) [] ∧
    ¬ (rdy 5).op = (clp .meeting).me.op ∧ (rdy).op = (clp .meeting).me.op ∧ (clp .meeting).peers[(rdy).rank.toNat]? = some ((rdy).pkg, (rdy).die) ∧
    (∃ k < ({ clp .meeting with me := { (clp .meeting).me with nrank := 3 } } : Coll).me.nrank.toNat, k ≠ 0 ∧ k ∉ [1]) ∧
    (cl .moving).due ≤ (es (cl .moving)).dieclk ∧ (es (cl .moving)).colls = [] ++ cl .moving :: [] ∧ (4 : Nat) < 7 ∧
    (List.range (cl .moving).me.nrank.toNat).map (fun k => (cl .moving).elem k 0) ≠ [] ∧
    (zs {} {} { pid := 8 }).partOf (4 / 3) ≠ (zs {} {} { pid := 8 }).partOf 0 ∧ (zs).partOf (4 / 3) = (zs).partOf 0 ∧ 4 / 3 ≠ 0 := by
  refine ⟨fun i _ => turns i _, fun _ _ => rfl, ?_, by decide, ⟨rfl, ?_, ?_⟩, by decide, by decide, by decide, ⟨2, by decide, by decide, by decide⟩, by decide, rfl, by decide, by decide,
    by decide, by decide, by decide⟩
  · intro y hy; simp [zs, State.reset] at hy
  · intro y hy; simp at hy
  · exact ⟨rfl, fun n h => by simp [clp, cl] at h, rfl, rfl⟩

/-- A collective that has all its data and has written it: before its deadline and after; one that waits for data; a posted record with and without a core that runs its task. -/
theorem witness_DeadlinesAndCompletionsEnd : let x : Coll := { cl .moving with due := 9 }
    (∀ k < x.me.nrank.toNat, x.srcCount k * x.z ≤ (Tab.get [] x.data k).length) ∧ x.outCount ≤ x.wrote ∧ x.writing (es x) = false ∧ (es x).dieclk < x.due ∧
    (let y : Coll := { x with me := { x.me with op := 1, count := 4 } }; ¬ ∀ k < y.me.nrank.toNat, y.srcCount k * y.z ≤ (Tab.get [] y.data k).length) ∧
    (∃ k < (cl .meeting).me.nrank.toNat, k ≠ (cl .meeting).me.rank.toNat ∧ k ∉ (cl .meeting).seen) ∧
    coreOfTask (es x).cores 1 = none ∧ coreOfTask (ps []).cores 1 = some 0 ∧ ((ps []).core 0).evRoom = true ∧
    (({ (ps []).core 0 with evq := List.replicate 64 0 } : Core).evRoom = false) ∧ ({ cl (.ended 3) with cev := true } : Coll).st = .ended 3 := by decide

/-! ### Between the words of a core: spec/01, spec/05 to spec/07, spec/13 to spec/16, spec/18 -/

/-- Core 0 with operations in flight, strand S at issue cycle `ic`. -/
def fl0 (o : List Op) (g : Tab Word := []) (ic : Nat := 3) (f : Core → Core := id) : State :=
  one .s g (fun x => f { x with ops := o, s := { x.s with ic := ic } })
/-- An operation of strand S. -/
def op (i : Instr) (b : OpBody) (x y : Word := 0) : Op := { k := .s, ord := 5, seq := 1, img := i, op0 := x, op1 := y, op2 := 0x1000, body := b }
/-- A vector word of strand C with one group that stores two bytes. -/
def vop (fault : Option Nat) : Op := { k := .c, ord := 5, seq := 1, img := .nop a0, body := .vec [⟨0, [(0x40, [1, 2])], 1, fault, 4⟩] }
/-- Strand S retires a word that gives both ways; FIFO 1 holds `n` tokens. -/
def rt0 (k : StrandIx) (n : Nat) : State := one k [] (fun x => ({ x with tok := [(1, n)] } : Core).setStr k
  { x.str k with held := true, ret := [⟨5, 1, .nop a0, true, true⟩] })

theorem test_result_lands : (after .resultLands (fl0 [op (.nop a0) (.regs 3 4 [7])])).rd 0 .s 4 = 7 ∧
    (after .resultLands (fl0 [op (.nop a0) (.regs 4 4 [7])])).rd 0 .s 4 = 0 ∧
    Tab.get 0 ((after .resultLands (fl0 [op (.nop a0) (.store 3 0x41 [7])])).core 0).scr 0x41 = 7 := by decide
/-- spec/07 R145, R146: a give waits for room of 8. -/
theorem test_retire : cnt ((run .wordRetire (evAt .c 0 .wordRetire (rt0 .c 7))).core 0).gave 1 = 1 ∧
    cnt ((run .wordRetire (evAt .c 0 .wordRetire (rt0 .c 8))).core 0).gave 1 = 0 := by decide
theorem test_strand_stops : ((after .strandStops (one .s [] (fun x => { x with s := { x.s with exiting := true } }))).str 0 .s).running = false := by decide
/-- spec/03 R84, spec/13 R268: landings of the interlocked results. -/
theorem test_interlocked : (after .interlockedResultLands (fl0 [op (.div a0 4 5 6 false) (.ilock 4 false none) (-7) 2])).rd 0 .s 4 = -3 ∧
    (after .interlockedResultLands (fl0 [op (.rem a0 4 5 6 false) (.ilock 4 false none) (-7) 2])).rd 0 .s 4 = -1 ∧
    (after .interlockedResultLands { fl0 [op (.btest false 4 0) (.ilock 4 false none) 17] with clusters := [(0, { bar := [(17, { gen := 5, need := 2 })] })] }).rd 0 .s 4 = 5 := by decide
/-- The turn of a group in a clock cycle in which every strand has had its own; while one is left, the group lands only at the cycle's end. -/
def vg (o : Op) : State := { fl0 [o] with agenda := [.event 0 .s 0 .vectorGroupLands] }
theorem test_vector_group_waits : let x := (after .vectorGroupLands (fl0 [vop none])).core 0; x.vdue = true ∧ x.ops = [vop none] := by decide
theorem test_vector_group : (let x := (run .vectorGroupLands (vg (vop none))).core 0
      Tab.get 0 x.scr 0x41 = 2 ∧ x.c.sst = 0x20 ∧ x.ops = [] ∧ x.stops = []) ∧
    (let x := (run .vectorGroupLands (vg (vop (some 0x41)))).core 0; x.removal = some 0x205 ∧ Tab.get 0 x.scr 0x41 = 2) := by decide +kernel
/-- spec/05 R106: the enabled bytes of the granule leave for their port, where they are stored. -/
theorem test_store_buffer : let s := after .storeBufferPerform ((ps []).mapStr 0 .s (fun y => { y with sb := [ent] }))
    (s.str 0 .s).sb = [] ∧ (turned { s with agenda := [.flit 0] }).portRead 0x1000 10 = [7, 7, 7, 7, 7, 7, 7, 7, 0, 0] := by decide +kernel
theorem test_starvation : (let s := after .tokenStarvation (one .s [] (fun x => { x with s := { x.s with waited := 1024, twait := true } }))
    (s.str 0 .s).starved = true) ∧ ((after .tokenStarvation (one .s [] (fun x => { x with s := { x.s with waited := 1023, twait := true } }))).str 0 .s).starved = false := by decide
theorem test_watchpoint : ((after (.watchpoint 0 2) (one .s [] id { reports := [(2, some 0x1234)] })).core 0).stops.map (fun e => (e.code, e.tval)) = [(0x28, 0x1234)] := by decide
/-- spec/06 R128: without a handler the nested stop ends the context; with one the handler is entered at depth 2. -/
theorem test_nested : ((after .nestedStop (one .s [] (fun x => { x with nested := some ⟨3, .s, 0x0C, 0, 0⟩ }) { depth := 1 })).core 0).removal = some 0x0C ∧
    (let t := after .nestedStop (one .s [] (fun x => { x with nested := some ⟨3, .s, 0x0C, 0, 9⟩ }) { depth := 1, tvec := 0x2000 })
     (t.ctx 0).depth = 2 ∧ (t.ctx 0).tcause = 0x0C ∧ (t.ctx 0).tval = 9 ∧ (t.str 0 .s).pc = 0x2000) := by decide +kernel
theorem test_removal : (let t := after .contextRemoval (one .s [] (fun x => { x with removal := some 0x0C }))
    (t.core 0).ctx = none ∧ t.outbox = [.killed 0 0x0C]) := by decide +kernel
theorem test_restart : (let s := one .s [] (fun x => { x with restart := some (1, 0) }) { restarts := 4, stamp := 77 }
    let t := after .taskRestart { s with nlaunch := 1, launches := [(0, { body := [{ entry := 0x3000 }], trip := 9 })] }
    (t.ctx 0).restarts = 5 ∧ (t.ctx 0).stamp = 77 ∧ (t.str 0 .s).pc = 0x3000 ∧ (t.str 0 .s).lc0 = 9) := by decide +kernel

theorem witness_CoreEventsFollowR19R23R128R140R143AndR258 :
    (∀ i ∈ ([.resultLands, .wordRetire, .strandStops, .interlockedResultLands, .vectorGroupLands, .storeBufferPerform, .tokenStarvation, .nestedStop,
      .checkpointPreemption, .contextRemoval, .taskRestart] : List Instr), ∀ k, ∀ s, CoreTurns (evAt k 0 i s) 0 k 0 i [.issue 0 .s]) ∧
    Turns (ev (.watchpoint 0 3) (fl0 [])) (.watchpoint 0 3) [.issue 0 .s] ∧ Alive ((fl0 []).core 0) ∧ ¬ Alive (State.reset.core 0) ∧
    Closed ((fl0 []).core 0) ∧ ¬ Closed ((one .s [] (fun x => { x with s := { x.s with issued := true } })).core 0) := by
  refine ⟨fun i _ k s => rfl, turns _ _, alive_of (by decide), fun h => h.1 rfl, closed_of (by decide), fun h => ?_⟩
  exact absurd (h.2 .s) (by decide)
/-- Landings. -/
theorem witness_CoreEventsFollowR19R23R128R140R143AndR258_landings :
    NotDue 2 (op (.nop a0) (.regs 3 4 [7])) ∧ (let o := op (.nop a0) (.regs 3 4 [7]); ((fl0 [o]).core 0).ops = [] ++ o :: [] ∧ o.k = .s) ∧
    (let o := op (.nop a0) (.store 3 0xFFFFF [7]); ((fl0 [o]).core 0).ops = [] ++ o :: [] ∧ o.k = .s ∧ 3 ≤ ((fl0 [o]).str 0 .s).ic) ∧
    (let o := op (.div a0 4 5 6 false) (.ilock 4 false none) (2 ^ 63) (-1); Alone ((fl0 [o]).core 0) [] o []) ∧
    (let o := op (.asstatAge false 4) (.ilock 4 false none); Alone ((fl0 [o]).core 0) [] o [] ∧ statWaits (Passed (fl0 [o]) []) 0 o = false) ∧
    (let o := op (.gld a0 4 6 0 false true) (.ilock 4 true none)
     let s := { ps [] with tlb := [⟨0, none, 0, 0, 2 ^ 16, 0, 7, none⟩] }
     gldWaits (s.core 0) o 16 = false ∧ (∃ t, accessFrom (Passed s []) 0 (unitOrd o.ord) (s.ctx 0).vf o.op2 .read 16 false o.pa = (t, .ok 0x1000) ∧
       t.behind 0 0x1000 = false ∧ t.setOf 0 (o.op2 &&& ~~~15) = none) ∧ homeOf 0x1000 = .hbm 0 ∧
     ({ s with wire := [⟨0, 0, .req, 0, .store {} 0x1008 [some 1] false⟩] } : State).behind 0 0x1000 = true ∧
     (∃ t, accessFrom { s with pkg := { recal := [(0, true)] } } 0 (unitOrd o.ord) (s.ctx 0).vf o.op2 .read 16 false none = (t, .held 0x1000))) ∧
    (Alone ((fl0 [vop none]).core 0) [] (vop none) [] ∧ Alone ((fl0 [vop (some 0)]).core 0) [] (vop (some 0)) []) := by
  refine ⟨by simp only [NotDue, op]; decide, by decide, by decide, ?_, ⟨?_, by decide⟩, ⟨by decide, ⟨_, Prod.ext rfl (by decide +kernel), by decide +kernel, by decide +kernel⟩, by decide, by decide, answers (by decide +kernel)⟩, ?_, ?_⟩ <;>
    exact ⟨rfl, fun p h => by simp at h⟩
/-- Retirement, a strand that exits, and the store buffer. -/
theorem witness_CoreEventsFollowR19R23R128R140R143AndR258_retirement :
    (∀ n ∈ [7, 8], (let x := (rt0 .c n).core 0
      let e : RetEnt := ⟨5, 1, .nop a0, true, true⟩
      (x.str .c).held = true ∧ (x.str .c).ret = e :: [] ∧ x.unfinished .c e = false)) ∧
    (∀ f ∈ givesOf .c true true, cnt ((rt0 .c 7).core 0).tok f + cnt ((rt0 .c 7).core 0).gave f < 8) ∧
    (∃ f ∈ givesOf .c true true, 8 ≤ cnt ((rt0 .c 8).core 0).tok f + cnt ((rt0 .c 8).core 0).gave f) ∧
    (let y := ((one .s [] (fun x => { x with s := { x.s with exiting := true } })).core 0).str .s
     y.running = true ∧ y.exiting = true ∧ y.ret = []) ∧
    (let s := { (ps []).mapStr 0 .s (fun y => { y with sb := [ent] }) with tlb := [⟨0, none, 0, 0, 2 ^ 16, 0, 7, none⟩] }
     let u := Passed (ev .storeBufferPerform s) [.issue 0 .s]
     sbHeld (s.core 0) .s ent = false ∧ ent.rel = false ∧ s.sentDone 0 .s 4 = true ∧
     (∃ t, access u 0 (unitOrd 1) (s.ctx 0).vf ent.addr .write 1 false = (t, .ok 0x1000) ∧ t.setOf 0 ent.va = none) ∧
     (∃ t, access { u with tlb := [], pkg := { recal := [(0, true)] } } 0 (unitOrd 1) (s.ctx 0).vf ent.addr .write 1 false = (t, .wait))) ∧
    (let u := Passed (ev .storeBufferPerform (ps [])) [.issue 0 .s]
     (∃ t, access u 0 (unitOrd 1) 0 (-16) .write 1 false = (t, .fault false 1)) ∧ (u.ctx 0).depth = 0 ∧ u.applied 0 .s = true ∧
     ({ u with wire := [⟨0, 1, .req, 0, .store { k := .s } 0x1008 [some 1] false⟩] } : State).applied 0 .s = false) := by
  refine ⟨by decide, by decide, ⟨1, by decide, by decide⟩, by decide,
    ⟨by decide, by decide, by decide, ⟨_, Prod.ext rfl (by decide +kernel), by decide +kernel⟩, answers (by decide +kernel)⟩, answers (by decide +kernel), by decide, by decide, by decide⟩
/-- What happens to the context. -/
theorem witness_CoreEventsFollowR19R23R128R140R143AndR258_context :
    (let s := one .s [] (fun x => { x with s := { x.s with waited := 1024 } })
     (s.str 0 .s).running = true ∧ (s.str 0 .s).starved = false ∧ (s.die (dieOf 0)).nstarve ≤ (s.str 0 .s).waited ∧ 0 < (s.str 0 .s).waited) ∧
    (let s := one .s [] id { reports := [(3, some 0x1234)] }
     Alive (s.core 0) ∧ (s.ctx 0).depth = 0 ∧ Tab.get none (s.ctx 0).reports 3 = some 0x1234 ∧ ∀ m < 3, Tab.get none (s.ctx 0).reports m = none) ∧
    (∀ v ∈ [(0 : Word), 0x2000], let s := one .s [] (fun x => { x with nested := some ⟨3, .s, 0x0C, 0, 0⟩ }) { depth := 1, tvec := v }
     Alive (s.core 0) ∧ Closed (s.core 0) ∧ (s.core 0).settled = true ∧ (s.ctx 0).tvec = v) ∧
    (let s := one .s [] id { preempt := .checkpoint }
     ∃ z, (s.core 0).ctx = some z ∧ z.preempt = .checkpoint ∧ z.depth = 0 ∧ z.held = [] ∧ Alive (s.core 0) ∧ (s.core 0).nested = none ∧ Closed (s.core 0)) ∧
    (let s := one .s [] (fun x => { x with removal := some 0x0C }); (s.core 0).removal = some 0x0C ∧ (s.core 0).ctx ≠ none) ∧
    (let s := { one .s [] (fun x => { x with restart := some (1, 0) }) { restarts := 65535 } with nlaunch := 1 }
     ∃ z, (s.core 0).restart = some (1, 0) ∧ (s.core 0).ctx = some z ∧ (s.core 0).removal = none ∧ z.launch < s.nlaunch ∧ z.restarts = 65535) := by
  refine ⟨by decide, ⟨alive_of (by decide), by decide, by decide, by decide⟩, ?_, ⟨_, rfl, by decide, by decide, by decide, alive_of (by decide), by decide,
    closed_of (by decide)⟩, by decide, ⟨_, rfl, rfl, by decide⟩⟩
  intro v hv
  have h : v = 0 ∨ v = 0x2000 := by simpa using hv
  rcases h with rfl | rfl <;> exact ⟨alive_of (by decide), closed_of (by decide), by decide, by decide⟩
/-- A store that lies in a set, and a gld whose response is held at a link or is not. -/
theorem witness_CoreEventsFollowR19R23R128R140R143AndR258_sets :
    (let s (e : SetEnt) (b : RbBuf) : State := { ps [] [] [(0, some e)] with bufs := [(1, some b)] }
     let bytes : List (Option Byte) := (List.range 16).map fun b => if ent.en.getLsbD b = true then some (ent.bytes.getD b 0) else none
     let free := aset 9 0x1000
     ((s free {}).setOf 0 ent.va = some (0, free) ∧ ((s free {}).requestSet 0 0 0).2 = true ∧
       (((s free {}).requestSet 0 0 0).1.bufStore ((s free {}).ctx 0).task ent.va bytes).isSome = true) ∧
     ((s { free with st := .publishing, holder := 2 } {}).requestSet 0 0 0).2 = false ∧
     (let t := s { free with st := .held, holder := 1 } { gran := List.replicate 4096 (0, []) }
      (t.requestSet 0 0 0).2 = true ∧ (t.requestSet 0 0 0).1.bufStore (t.ctx 0).task ent.va bytes = none ∧
       (t.requestSet 0 0 0).1.applied 0 .s = true ∧
       ({ (t.requestSet 0 0 0).1 with wire := [⟨0, 1, .req, 0, .store { k := .s } 0x1008 [some 1] false⟩] } : State).applied 0 .s = false)) ∧
    (let s := ps []
     let p := 12 * 2 ^ 36
     let away : State := { s with pkg := { s.pkg with down := [(0, true)] } }
     homeOf p = .hbm 12 ∧ s.rspShut 0 p = false ∧ away.rspShut 0 p = true ∧ away.reqShut 0 p = false) := by
  refine ⟨⟨by decide, by decide, by decide +kernel⟩, by decide⟩
/-- The areas of a context can be reached, or not yet. -/
theorem witness_CoreEventsFollowR19R23R128R140R143AndR258_areas :
    (let y : Ctx := { tadp := 2 ^ 28, tsave := 2 ^ 29, tvec := 0x2000 }
     let warm (f : Core → Core) : State := { (ps [] [] [] y).mapCore 0 f with tlb := [⟨0, none, 0, 0, 2 ^ 34, 0, 7, none⟩] }
     let cold (f : Core → Core) : State := { warm f with tlb := [], pkg := { recal := [(0, true)] } }
     let back (x : Core) : Core := { x with halted := true }
     let z := (warm id).ctx 0
     (∃ v, (warm id).reach 0 [⟨z.tsave, 0x1000, .write⟩] = (v, true)) ∧ (∃ v, (cold id).reach 0 [⟨z.tsave, 0x1000, .write⟩] = (v, false)) ∧
     (∃ v, (warm id).reach 0 (z.areas (ckptLen z) .write) = (v, true)) ∧ (∃ v, (cold id).reach 0 (z.areas (ckptLen z) .write) = (v, false)) ∧
     (let x := (warm back).core 0; x.halted = true ∧ x.removal = none ∧ x.restart = none ∧ x.stops = [] ∧ x.ctx = some z) ∧
     (∃ v, (warm back).reach 0 (z.areas (ckptLen z) .read ++ [⟨z.tsave, 8, .write⟩]) = (v, true)) ∧
     (∃ v, (cold back).reach 0 (z.areas (ckptLen z) .read ++ [⟨z.tsave, 8, .write⟩]) = (v, false)) ∧ (warm id).applied 0 .s = true) := by
  refine ⟨answers ?_, answers ?_, answers ?_, answers ?_, ?_, answers ?_, answers ?_, ?_⟩ <;> decide +kernel

/-! ### The copy engine, sets and the arbiter: spec/11, spec/14, spec/16 -/

/-- A command of strand L with a shape of 16 elements of 4 bytes filled with 7; its image begins at 0x40. -/
def cmd (i : Instr) (sent : Nat := 0) (out : List CpResp := []) : CpCmd :=
  { k := .l, ord := 5, seq := 1, img := i, greg := 0x1000, snap := some ⟨rcd 8 16, 7, List.replicate 9 0, true⟩, n := 16, sent := sent, x := 0x40, out := out
    blk := some 64 }
/-- Core 0 with copy queues, its function's first 64 KiB mapped. -/
def cq (l w : List CpCmd) (f : Core → Core := id) (m : List Host.Cell := []) : State :=
  { ps [] m with tlb := [⟨0, none, 0, 0, 2 ^ 16, 0, 7, none⟩] }.mapCore 0 (fun c => f { c with lq := l, wq := w, l := { c.l with running := true } })
/-- The state after an event of strand L. -/
def afterL (i : Instr) (s : State) : State := run i (evAt .l 0 i s)
/-- A response: element 3, or a failed one. -/
def resp (bad : Option Word := none) : CpResp := ⟨3, 0x4C, [1, 2, 3, 4], bad, some (0, .rsp)⟩

theorem test_send : (((after .copySendRequest (cq [cmd (.cpld a0 0 4 5 false)] [] id [(0x1002, 9)])).core 0).lq.map (fun q => (q.sent, q.out)) =
      [(1, [⟨0, 0x40, [0x3B, 0, 9, 0], none, some (0, .rsp)⟩])]) ∧
    (((after .copySendRequest (cq [] [{ cmd (.cpfillScr a0 0 5 false) 15 with k := .w }])).core 0).wq.map (fun q => (q.sent, q.out)) =
      [(16, [⟨15, 0x7C, [7, 0, 0, 0], none, none⟩])]) := by decide +kernel
theorem test_send_fill : let s := after .copySendRequest (cq [cmd (.cpfill a0 0 5 false) 3] [])
    s.wire.length = 1 ∧ s.portRead 0x100C 4 = [0, 0, 0, 0] ∧
      (turned (turned (turned { s with agenda := [.flit 0, .flit 0, .flit 0] }))).portRead 0x100C 4 = [7, 0, 0, 0] := by decide +kernel
theorem test_response : (let x := (afterL .copyResponse (cq [cmd (.cpld a0 0 4 5 false) 16 [resp]] [])).core 0;
      Tab.get 0 x.scr 0x4F = 4 ∧ x.lq.map (·.out) = [[]]) ∧
    ((afterL .copyResponse (cq [cmd (.cpld a0 0 4 5 false) 16 [resp (some 0x100C)]] [])).core 0).stops.map (fun e => (e.code, e.tval)) = [(0x14, 0x100C)] := by decide
/-- spec/11 R240, R166: EV posts an event with the identifier of the command. -/
theorem test_complete : (let x := (afterL .copyComplete (cq [cmd (.cpld a0 0 4 5 true) 16] [])).core 0;
    x.lq = [] ∧ x.evnow.map (fun e => let v := e.2; (v.extractLsb' 56 8, v.extractLsb' 54 2, v.extractLsb' 0 16)) = [(1, 1, 1)]) := by decide
theorem test_seams : (let x := (after .seamRelease (cq [cmd (.seam a0)] [{ cmd (.seam a0) with ord := 6, k := .w }])).core 0; x.lq = [] ∧ x.wq = []) ∧
    ((after .seamRelease (cq [cmd (.seam a0)] [cmd (.cpld a0 0 4 5 true)])).core 0).lq.length = 1 := by decide
theorem test_multicast : (let x := (after (.multicastDelivery 0 0) (cq [{ cmd (.cpldm a0 0 4 5 false) 16 with mdata := [(0x40, 5)], mleft := [0] }] [])).core 0;
    Tab.get 0 x.scr 0x40 = 5 ∧ x.lq.map (·.mleft) = [[]] ∧ x.evnow.length = 1) := by decide +kernel

theorem witness_CopyEngineFollowsR231ToR241 :
    (∀ i ∈ ([.copySendRequest, .copyResponse, .copyComplete, .seamRelease] : List Instr), ∀ k, ∀ s, CoreTurns (evAt k 0 i s) 0 k 0 i [.issue 0 .s]) ∧
    (∀ s, Turns (ev (.multicastDelivery 0 15) s) (.multicastDelivery 0 15) [.issue 0 .s]) ∧ Alive ((cq [] []).core 0) ∧ pickStage ((cq [] []).core 0) = none ∧
    (∀ i ∈ ([.cpld a0 0 4 5 false, .cpst a0 0 4 5 false, .cpfill a0 0 5 false, .cpfillScr a0 0 5 false] : List Instr), ∀ sent ∈ [0, 15],
      let s := cq [cmd i sent] []
      ∃ y q, pickStage (s.core 0) = some (y, q) ∧ q.img = i ∧ q.sent = sent ∧ pushOpen s 0 q = false ∧ y.acc = [] ∧ y.cmd q.ord = some q ∧
        q.snap = some ⟨rcd 8 16, 7, List.replicate 9 0, true⟩ ∧ (∃ w, idxRead ((Passed s []).setCore 0 y) 0 q q.sent = .ok w) ∧
        cmdElem y q q.sent = .va (BitVec.ofNat 64 (0x1000 + 4 * sent)) ∧ q.blk = some ((BitVec.ofNat 64 (0x1000 + 4 * sent)).toNat / 64)) ∧
    (let s := cq [cmd (.cpld a0 0 4 5 false)] [] (fun c => { c with ops := [{ k := .l, ord := 4, seq := 1, img := .gld a0 4 6 0 false false, body := .ilock 4 false none }] })
     ∃ y q, pickStage (s.core 0) = some (y, q) ∧ pushOpen s 0 q = true) := by
  refine ⟨fun i _ k s => rfl, fun s => turns _ s, alive_of (by decide), by decide, ?_, ⟨_, _, rfl, by decide⟩⟩
  intro i hi n hn
  fin_cases hi <;> fin_cases hn <;> exact ⟨_, _, rfl, rfl, rfl, by decide, by decide, by decide, by decide, ⟨_, rfl⟩, rfl, by decide⟩

/-- An index that nothing has written, and one that is there; a command that begins a request with and without tokens for it. -/
theorem witness_CopyEngineFollowsR231ToR241_begins :
    (let q := cmd (.cpgat a0 0 4 3 false)
     let s := cq [q] []
     (∃ w, idxRead s 0 q 0 = .ok w) ∧ idxRead (s.mapCtx 0 (fun y => { y with scrmode := 2 })) 0 q 0 = .error 0) ∧
    (let s := { cq [{ cmd (.cpld a0 0 4 5 false) with blk := none }] [] with vfdie := [(0, { cb := { meter := true } })] }
     ∃ y q, pickStage (s.core 0) = some (y, q) ∧ q.blk ≠ some (0x1000 / 64) ∧ ((Passed s []).setCore 0 y).chargeCopy (dieOf 0) 0
       (reqGranules y q (0x1000 / 64) 64 q.sent).eraseDups.length = none) := by
  exact ⟨⟨⟨_, rfl⟩, by decide +kernel⟩, ⟨_, _, rfl, by decide, by decide +kernel⟩⟩

/-- The image of a command of 8-byte elements in one dimension of 16, origin `o`, stride `st`, with the fault bit. -/
def elemAt (o : Int) (st : List Byte) (fault : Byte) : ElemAt :=
  cmdElem {} { cmd (.cpld a0 0 4 5 false) with
    snap := some ⟨[6 + 16, fault, 15, 0] ++ List.replicate 16 0 ++ [0, 16, 0, 0] ++ List.replicate 32 0 ++ st ++ List.replicate 64 0, 0, [o], true⟩ } 15

/-- Elements and responses. -/
theorem witness_CopyEngineFollowsR231ToR241_elements :
    elemAt 4081 [8, 0, 0, 0, 0, 0, 0, 0] 1 = .bounds ∧ elemAt 4081 [8, 0, 0, 0, 0, 0, 0, 0] 0 = .outside ∧ elemAt 0 [0, 0, 0, 0, 0, 0, 0, 0x10] 0 = .wrap ∧
    (∃ t, accessFrom (cq [] []) 0 (unitOrd 5) 0 0x103C .read 4 true none = (t, .ok 0x103C) ∧ t.behind 0 0x103C = false) ∧
    (∃ t, accessFrom { cq [] [] with poison := [0x100] } 0 (unitOrd 5) 0 0x1000 .read 4 true none = (t, .fault false 8)) ∧
    (∃ t, accessFrom { cq [] [] with pkg := { recal := [(0, true)] } } 0 (unitOrd 5) 0 0x1000 .read 4 true none = (t, .held 0x1000)) ∧
    (∃ t, accessFrom { cq [] [] with pkg := { recal := [(0, true)] } } 0 (unitOrd 5) 0 0x1000 .read 4 true (some 0x1000) = (t, .held 0x1000)) ∧
    (∃ t, accessFrom (cq [] []) 0 (unitOrd 5) 0 0x103C .write 4 true none = (t, .ok 0x103C) ∧ t.wire = []) ∧
    (cq [] []).setOf 0 (0x103C &&& ~~~15) = none ∧ homeOf 0x103C = .hbm 0 ∧
    GoesOn ((cq [] []).core 0) (cmd (.cpfill a0 0 5 false) 2) 0x1008 ∧ ¬ GoesOn ((cq [] []).core 0) (cmd (.cpfill a0 0 5 false) 3) 0x100C ∧
    (let q := cmd (.cpld a0 0 4 5 false) 16 [resp]
     Alive ((cq [q] []).core 0) ∧ ((cq [q] []).core 0).lq[0]? = some q ∧ q.out = resp :: []) ∧
    (let q := { cmd (.cpldm a0 0 4 5 false) 16 [resp] with mleft := [0, 15] }
     Alive ((cq [q] []).core 0) ∧ ((cq [q] []).core 0).lq[0]? = some q ∧ q.out = resp :: []) ∧
    (let q := cmd (.cpld a0 0 4 5 false) 16 [resp (some 0x100C)]
     ((cq [q] []).core 0).lq[0]? = some q ∧ ((cq [q] []).str 0 q.k).running = true) := by
  refine ⟨rfl, rfl, rfl, ⟨_, rfl, by decide +kernel⟩, answers (by decide +kernel), answers (by decide +kernel), answers (by decide +kernel),
    ⟨_, rfl, by decide +kernel⟩, by decide, by decide, ⟨by decide, _, rfl, by decide⟩, ?_,
    ⟨alive_of (by decide), by decide, by decide⟩, ⟨alive_of (by decide), by decide, by decide⟩, by decide⟩
  rintro ⟨_, b, h, hb⟩
  have e : cmdElem ((cq [] []).core 0) (cmd (.cpfill a0 0 5 false) 3) 4 = .va 0x1010 := rfl
  obtain rfl : (0x1010 : Word) = b := ElemAt.va.inj (e.symm.trans h)
  exact absurd hb (by decide)

/-- Completion, seams and multicasts. -/
theorem witness_CopyEngineFollowsR231ToR241_ends :
    (let q := cmd (.cpld ⟨false, 3⟩ 0 4 5 true) 16
     let x := (cq [q] []).core 0
     Alive x ∧ x.lq = q :: [] ∧ cmdDone (cq [q] []) 0 q = true ∧ q.port = none ∧ q.mbad = 0 ∧ givesOf .l true true = [5, 0] ∧
       x.evCount + 1 ≤ 64 ∧ ∀ f ∈ givesOf .l true true, cnt x.tok f + cnt x.gave f < 8) ∧
    (let q := cmd (.cpld ⟨false, 3⟩ 0 4 5 true) 16
     let x := (cq [q] [] (fun c => { c with tok := [(5, 8)], evq := List.replicate 64 0 })).core 0
     64 < x.evCount + 1 ∧ ∃ f ∈ givesOf .l true true, 8 ≤ cnt x.tok f + cnt x.gave f) ∧
    (let q := { cmd (.cpreg a0 4 5 false) 16 with port := some (0x1B, 0x1000) }
     cmdDone (cq [q] []) 0 q = true ∧ q.port = some (0x1B, 0x1000) ∧ ((cq [q] []).str 0 q.k).running = true) ∧
    cmdDone (cq [cmd (.cpld a0 0 4 5 true) 15] []) 0 (cmd (.cpld a0 0 4 5 true) 15) = false ∧
    (let x := (cq [cmd (.seam a0)] [cmd (.seam a0)]).core 0; Alive x ∧ x.lq = cmd (.seam a0) :: [] ∧ x.wq = cmd (.seam a0) :: []) ∧
    (let q := { cmd (.cpldm a0 0 4 5 false) 16 with mleft := [0, 15] }
     let x := (cq [q] []).core 0
     Alive x ∧ x.lq = [] ++ q :: [] ∧ q.n ≤ q.sent ∧ q.out = [] ∧ (15 : Nat) ∈ q.mleft ∧ etSize (recEt (q.snap.getD {}).bytes) = 4 ∧
       (let s := (cq [q] []).setCore 15 { ctx := some { scrsize := 128 } }
        ∃ y, (s.core 15).ctx = some y ∧ y.launch = (s.ctx 0).launch ∧ q.x + q.n * 4 = y.scrsize ∧ (s.core 15).evRoom = true) ∧
       (let s := (cq [q] []).setCore 15 { ctx := some { scrsize := 128 }, evq := List.replicate 64 0 }
        (s.core 15).evRoom = false) ∧
       ((cq [q] []).core 15).ctx = none) := by
  refine ⟨⟨alive_of (by decide), by decide, by decide, by decide, by decide, by decide, by decide, by decide⟩, ⟨by decide, 5, by decide, by decide⟩,
    by decide, by decide, ⟨alive_of (by decide), by decide, by decide⟩, ⟨alive_of (by decide), by decide, by decide, by decide, by decide, by decide,
    ⟨_, rfl, by decide, by decide, by decide⟩, by decide, by decide⟩⟩

/-- The other kinds of elements: their access, their source, what stops or holds them, and sets. -/
theorem witness_CopyEngineFollowsR231ToR241_kinds :
    (∀ i ∈ ([.cpst a0 0 4 5 false, .cpaccAdd a0 0 4 5 false, .cpaccXchg a0 0 4 5 false, .cpaccCas a0 0 4 5 false, .cpfill a0 0 5 false] : List Instr),
      let q := cmd i
      let s := cq [q] []
      pickStage (s.core 0) = some (mapCmd { s.core 0 with stage := some 5, lastq := true } 5 (fun p => { p with began := true }), { q with began := true }) ∧
      pushOpen s 0 q = false ∧ cmdElem (s.core 0) q 0 = .va 0x1000 ∧
      (∃ t, accessFrom s 0 (unitOrd 5) 0 0x1000 (CmdAccess q) 4 true none = (t, .ok 0x1000) ∧ t.setOf 0 0x1000 = none ∧ t.reqShut 0 0x1000 = false) ∧
      (∃ u, s.readCheck 0 .l 0x40 16 = .ok u) ∧ (s.mapCtx 0 (fun y => { y with scrmode := 2 })).readCheck 0 .l 0x40 16 = .error 0x40) ∧
    (∃ t, accessFrom (cq [] []) 0 (unitOrd 5) 0 (-16) .write 4 true none = (t, .fault false 1)) ∧
    (∃ t, accessFrom { cq [] [] with tlb := [], pkg := { recal := [(0, true)] } } 0 (unitOrd 5) 0 0x1000 .rmw 4 true none = (t, .wait)) ∧
    (let s : State := { cq [] [] with wire := [⟨0, 0, .req, 0, .store {} 0x1008 [some 1] false⟩] }
     ∃ t, accessFrom s 0 (unitOrd 5) 0 0x1000 .read 4 true none = (t, .ok 0x1000) ∧ t.behind 0 0x1000 = true) ∧
    (let s (x : Core → Core) : State := { cq [cmd (.cpst a0 0 4 5 false)] [] x with
        vfs := [(0, { vf0 with sets := [(0, some (aset 9 0x1000))] })], bufs := [(1, some {})] }
     let t := s id
     t.setOf 0 0x1000 = some (0, aset 9 0x1000) ∧ (t.requestSet 0 0 0).2 = true ∧
       ((t.requestSet 0 0 0).1.bufStore (t.ctx 0).task 0x1000 (InGranule 0x1000 [1, 2, 3, 4])).isSome = true) ∧
    (let s (n : Nat) : State := cq [cmd (.cpst a0 0 4 5 false)] [] (fun c => { c with l := {}, evq := List.replicate n 0 })
     ((s 63).str 0 .l).running = false ∧ ((s 63).core 0).evRoom = true ∧ ((s 64).core 0).evRoom = false) ∧
    (let s : State := { cq [cmd (.cpld a0 0 4 5 false) 16 [⟨3, 0x4C, [1], none, some (6, .rsp)⟩]] [] with pkg := { down := [(0, true)] } }
     s.shut .rsp 6 (dieOf 0) = true ∧ s.shut .rsp 0 (dieOf 0) = false) := by
  refine ⟨?_, answers (by decide +kernel), answers (by decide +kernel), ⟨_, Prod.ext rfl (by decide +kernel), by decide +kernel⟩, by decide +kernel,
    by decide +kernel, by decide +kernel⟩
  intro i hi
  fin_cases hi <;> exact ⟨by decide +kernel, by decide, rfl, ⟨_, Prod.ext rfl (by decide +kernel), by decide +kernel⟩, ⟨_, rfl⟩, by decide +kernel⟩

/-- A future, a register and a signal: with and without tokens, at a good and at a bad address, its result written or not. -/
theorem witness_CopyEngineFollowsR231ToR241_futures :
    (∀ i ∈ ([.cpres a0 4 5 false, .cpreg a0 4 5 false, .cpsig a0 5 false 0] : List Instr),
      let q : CpCmd := { cmd i with snap := none, n := 1 }
      let s := cq [q] []
      (∃ y p, pickStage (s.core 0) = some (y, p) ∧ p.img = i ∧ p.snap = none ∧ pushOpen s 0 p = false) ∧
      (∃ t, accessFrom s 0 (unitOrd 5) 0 0x1020 .rmw 16 true none = (t, .ok 0x1020) ∧ t.setOf 0 0x1020 = none ∧
        (t.chargeCopy (dieOf 0) 0 1).isSome = true) ∧
      (∃ u, s.readCheck 0 .l 0x40 8 = .ok u) ∧ (s.mapCtx 0 (fun y => { y with scrmode := 2 })).readCheck 0 .l 0x40 8 = .error 0x40 ∧
      (({ s with vfdie := [(0, { cb := { meter := true } })] } : State).chargeCopy (dieOf 0) 0 1) = none) ∧
    canonical 0x1020 = true ∧ canonical 0x1000000000000000 = false ∧
    (∃ t, accessFrom (cq [] []) 0 (unitOrd 5) 0 (-16) .rmw 16 true none = (t, .fault false 1)) ∧
    (∃ t, accessFrom { cq [] [] with tlb := [], pkg := { recal := [(0, true)] } } 0 (unitOrd 5) 0 0x1020 .rmw 16 true none = (t, .wait)) ∧
    ({ cq [] [] with vfs := [(0, { vf0 with sets := [(0, some (aset 9 0x1000))] })] } : State).setOf 0 (0x1020 &&& ~~~15) ≠ none := by
  refine ⟨?_, by decide, by decide, answers (by decide +kernel), answers (by decide +kernel), by decide⟩
  intro i hi
  fin_cases hi <;> exact ⟨⟨_, _, rfl, rfl, rfl, by decide⟩, ⟨_, Prod.ext rfl (by decide +kernel), by decide +kernel⟩, ⟨_, rfl⟩, by decide +kernel, by decide +kernel⟩

/-! ### Sets and the arbiter: spec/14, spec/16 -/

/-- Core 0 runs task 1 with stamp 50; core 1 task 2 with stamp `n`; one set of the function at 0x2000. -/
def hs (x : SetEnt) (n : Word := 60) : State :=
  { (ps [] [] [(0, some x)] { stamp := 50 }).setCore 1 { ctx := some { task := 2, stamp := n } } with bufs := [(1, some {}), (2, some {})] }
/-- The set after an event. -/
def ent' (i : Instr) (s : State) : Option (SetSt × Nat × List Nat) := ((after i s).setEnt 0 0).map (fun e => (e.st, e.holder, e.wait.map (·.1)))

/-- spec/14 R285 to R287: a grant, a wait, a wound. -/
theorem test_set_request : ent' (.setRequest 0 0x2000) (hs (aset 9 0x2000)) = some (.held, 1, []) ∧
    ent' (.setRequest 0 0x20FF) (hs (aset 9 0x2000 .held 2) 40) = some (.held, 2, [1]) ∧
    ent' (.setRequest 0 0x20FF) (hs (aset 9 0x2000 .held 2) 60) = some (.wounding, 2, [1]) ∧
    ((after (.setRequest 0 0x20FF) (hs (aset 9 0x2000 .held 2) 60)).core 1).restart = some (0, 0) ∧
    ent' (.setRequest 0 0x2100) (hs (aset 9 0x2000)) = some (.free, 0, []) := by decide
theorem test_set_grant : ent' (.setGrant 0 0) (hs { aset 9 0x2000 with wait := [(2, 60), (1, 50)] }) = some (.held, 1, [2]) ∧
    ent' (.setGrant 0 0) (hs { aset 9 0x2000 .held 2 with wait := [(1, 50)] }) = some (.held, 2, [1]) := by decide

/-- A launch of two iterations of queue 5; strand S has a body. -/
def lau : Launch := { q := 5, ready := true, iter := 2, scrb := 64, ranges := [(0, (0, 2))], body := [{ entry := 0x3000, kstart := 0x3004, kend := 0x3008 }], trip := 9, prio := 1 }
/-- A die that serves one launch, with core 1 idle or core 0 too. -/
def arb (busy : Bool) : State :=
  { State.reset with
    cores := if busy then [(0, { ctx := some { task := 7 } })] else []
    dies := [(0, { st := .full, queues := [(5, { qctl := 2 ^ 10, st := .active })] })]
    launches := [(0, lau)], nlaunch := 1, ntask := 8 }
/-- spec/16 R329, R331, R336: the lowest idle core gets the first iteration. -/
theorem test_arbiter : (let t := after .arbiterServe (arb true)
      (t.ctx 1).task = 8 ∧ (t.ctx 1).iter = 0 ∧ (t.str 1 .s).pc = 0x3000 ∧ (t.str 1 .s).lc0 = 9 ∧ (t.str 1 .l).running = false ∧ (t.ctx 1).scrsize = 64) := by
  decide +kernel
theorem test_arbiter_idle : ((after .arbiterServe (arb false)).core 0).ctx ≠ none ∧
    ((after .arbiterServe { arb false with dies := [] }).core 0).ctx = none := by decide +kernel

theorem witness_SetsAndArbiterFollowR285ToR287AndR336 :
    (∀ s, Turns (ev (.setRequest 0 0x20FF) s) (.setRequest 0 0x20FF) [.issue 0 .s]) ∧ (∀ s, Turns (ev (.setGrant 0 255) s) (.setGrant 0 255) [.issue 0 .s]) ∧
    (∀ s, CoreTurns (evAt .s 0 .arbiterServe s) 0 .s 0 .arbiterServe [.issue 0 .s]) ∧
    (∀ x ∈ [aset 9 0x2000, { aset 9 0x2000 with wait := [(2, 40)] }, aset 9 0x2000 .held 2, aset 9 0x2000 .held 1, aset 9 0x2000 .wounding 2],
      Alive ((hs x).core 0) ∧ (hs x).setOf ((hs x).ctx 0).vf (0x20FF &&& ~~~15) = some (0, x) ∧ (hs x).setEnt ((hs x).ctx 0).vf 0 = some x) ∧
    (hs (aset 9 0x2000)).setOf 0 (0x2100 &&& ~~~15) = none ∧ (hs (aset 9 0x2000)).buf 1 ≠ none ∧ older 40 50 = true ∧ older 60 50 = false ∧ older 50 50 = false ∧
    older 50 ((hs (aset 9 0x2000) 60).stampOf 2) = true ∧ older 50 ((hs (aset 9 0x2000) 40).stampOf 2) = false ∧
    coreOfTask (hs (aset 9 0x2000)).cores 2 = some 1 ∧
    (let s := hs { aset 9 0x2000 with wait := [(2, 60), (1, 50)] }
     s.keysOk ∧ oldestWait [(2, 60), (1, 50)] = some (1, 50) ∧ coreOfTask s.cores 1 = some 0 ∧ (s.ctx 0).stamp = 50 ∧ s.buf 1 ≠ none) := by
  refine ⟨fun s => turns _ s, fun s => turns _ s, fun s => rfl, ?_, by decide, by decide, by decide, by decide, by decide, by decide, by decide, by decide, ?_⟩
  · intro x hx; fin_cases hx <;> exact ⟨alive_of (by decide), by decide, by decide⟩
  · exact ⟨by unfold State.keysOk; decide, by decide, by decide, by decide, by decide⟩
/-- An older waiter that could take a buffer, and one that could not. -/
theorem witness_SetsAndArbiterFollowR285ToR287AndR336_buffers :
    (hs (aset 9 0x2000)).bufFor 2 = true ∧
    ({ hs (aset 9 0x2000) with bufs := (1, some {}) :: (List.range 32).map fun j => (j + 10, some {}) } : State).bufFor 2 = false := by decide +kernel
/-- The arbiter has something to serve, and has not. -/
theorem witness_SetsAndArbiterFollowR285ToR287AndR336_arbiter :
    (let u := Passed (evAt .s 0 .arbiterServe (arb true)) [.issue 0 .s]
     ((arb true).die (dieOf 0)).st = .full ∧ dieOf 1 = dieOf 0 ∧ ((arb true).core 1).ctx = none ∧ (serveCore u 1).isSome = true ∧
       ∀ m < 1, dieOf m = dieOf 0 → ((arb true).core m).ctx = none → serveCore u m = none) ∧
    ¬ (((State.reset).die 0).st = .full ∨ ((State.reset).die 0).st = .early) ∧
    (let s := { arb true with
        launches := [(0, { lau with ranges := [(1, (0, 2))] })]
        dies := [(0, { st := .full, queues := [(5, { qctl := 2 ^ 10, st := .active })] }), (1, { st := .full })] }
     stealsFor s 1 = true ∧ (serveCore s 1).isSome = true) ∧
    (∃ e z m, Turn.event e z m .arbiterServe ∈ [Turn.event 512 .s 0 .arbiterServe]) := by
  refine ⟨⟨by decide, by decide, by decide, by decide +kernel, ?_⟩, by decide, by decide +kernel, ⟨_, _, _, by simp; exact ⟨rfl, rfl, rfl⟩⟩⟩
  intro m hm _ h
  obtain rfl : m = 0 := by omega
  exact absurd h (by decide)

/-! ### A step: spec/01 -/

/-- Strand S at 0x4000 with the words `ws` there in memory. -/
def fw0 (ws : List Byte) (m : List Host.Cell := (List.range ws.length).zip ws |>.filterMap fun e => if e.2 == 0 then none else some (0x4000 + e.1, e.2)) : State :=
  (ps [(5, 7), (6, 3)] m).mapStr 0 .s (fun y => { y with pc := 0x4000 })
/-- add g4, g5, g6, spec/02 R31. -/
def addW : BitVec 32 := 0b00#2 ++ 0b0#1 ++ 0b0000#4 ++ 0x01#7 ++ 4#5 ++ 5#5 ++ 6#5 ++ 0b000#3
def addBytes : List Byte := (List.range 4).map fun i => addW.extractLsb' (8 * i) 8

/-- spec/01 R18: the word at the pc is fetched, decoded and executed in one step. -/
theorem test_step_add : (match step (fw0 addBytes) with | .next t => t.rd 0 .s 4 | _ => 0) = 10 := by decide +kernel
/-- spec/20 R396, R391: the die clock and the clock of the package. -/
theorem test_clock : (match step State.reset with | .next t => (t.clock, t.dieclk) | _ => (0, 0)) = (1, 0) := by decide +kernel

/-- spec/07 R146: a token given in a clock cycle is there in the next. -/
theorem test_end_of_cycle : cnt ((endTurn { (one .s [] (fun x => { x with tok := [(1, 2)], gave := [(1, 1)], took := [(1, 2)] })) with agenda := [.issue 0 .s] } 0).core 0).tok 1 = 1 := by
  decide

theorem mayIssue_of {s : State} {k : StrandIx} (h : (let x := s.core 0
    x.stops.isEmpty && x.ctx.isSome && !x.halted && x.removal.isNone && x.restart.isNone && x.nested.isNone
    && (x.str k).running && !(x.str k).exiting && !(x.str k).issued && !(x.str k).held && (x.str k).fwait == 0
    && (s.ctx 0).depth == 0) = true) : MayIssue s 0 k := by
  simp only [Bool.and_eq_true, Option.isNone_iff_eq_none, List.isEmpty_iff, Option.isSome_iff_ne_none, Bool.not_eq_true', beq_iff_eq] at h
  obtain ⟨⟨⟨⟨⟨⟨⟨⟨⟨⟨⟨h1, h2⟩, h0⟩, h3⟩, h4⟩, h5⟩, h6⟩, h7⟩, h8⟩, h9⟩, h10⟩, h11⟩ := h
  exact ⟨by simp [h1], .inl h1, ⟨h2, h0, h3, h4, h5⟩, ⟨h6, h7⟩, ⟨h8, h9, h10⟩, .inl h11⟩

/-- spec/01 R18, spec/07 R146: units before strands, S after its neighbours, whatever stands first in the agenda. -/
theorem test_turn_order : (match step { fw0 addBytes with agenda := [.issue 0 .s, .issue 0 .l, .event 0 .s 0 .copySendRequest] } with
    | .next t => t.agenda
    | _ => []) = [.issue 0 .s, .issue 0 .l] := by decide +kernel

theorem witness_AStepRunsTheDecodedInstruction :
    (∃ l, (fw0 addBytes).agenda = .issue 0 .s :: l) ∧
    ComesFirst [.issue 0 .s, .issue 0 .l, .issue 1 .l] (.issue 0 .l) [.issue 0 .s, .issue 1 .l] ∧ MayIssue (fw0 addBytes) 0 .s ∧
    (∃ t, fetchParcels 0 (unitHead .s) 1 (fw0 addBytes) ((fw0 addBytes).str 0 .s).pc = (t, .ok [addW])) ∧ 1 = parcelCount ([addW].headD 0) ∧
    decodeParcels [addW] = .add ⟨false, 0⟩ 4 5 6 false ∧
    (let s := (ps []).mapStr 0 .s (fun y => { y with pc := -4 })
     MayIssue s 0 .s ∧ ∃ t, fetchParcels 0 (unitHead .s) 1 s (s.str 0 .s).pc = (t, .error (some (0x0C, -4)))) ∧
    (let s := { fw0 addBytes with pkg := { recal := [(0, true)] } }
     MayIssue s 0 .s ∧ ∃ t, fetchParcels 0 (unitHead .s) 1 s (s.str 0 .s).pc = (t, .error none)) ∧
    (let s : State := { State.reset with agenda := [.newt 0 0], dies := [(0, { slots := [(0, { run := some { ev := [] }, prog := [(0, 0x98000000)] })] })] }
     s.agenda = .newt 0 0 :: [] ∧ (s.slot 0 0).run = some { ev := [] } ∧ decodeNewt (Tab.get 0 (s.slot 0 0).prog 0) = some .nend) ∧
    State.reset.agenda = [] ∧ ¬ MayIssue State.reset 0 .s ∧ (∀ i s, Turns (ev i s) i [.issue 0 .s]) ∧
    (∃ k, Turn.issue 0 k ∈ (fw0 addBytes).agenda.drop 1) ∧
    (let s := { fw0 addBytes with agenda := [.issue 0 .s, .issue 1 .s] }
     (∀ k, Turn.issue 0 k ∉ s.agenda.drop 1) ∧ (s.core 0).halted = false ∧ (s.core 0).ops = [] ∧ (s.core 0).stops = [] ∧ (s.ctx 0).drainPt = none ∧ ∀ k, ((s.core 0).str k).ret = []) := by
  refine ⟨⟨_, rfl⟩, ⟨[.issue 0 .s], [.issue 1 .l], rfl, rfl, by decide, by decide⟩, mayIssue_of (by decide), answers (by decide +kernel), by decide, by decide, ⟨mayIssue_of (by decide), answers (by decide +kernel)⟩,
    ⟨mayIssue_of (by decide), answers (by decide +kernel)⟩, by decide, rfl, fun h => h.context.1 rfl, turns, ⟨.s, by decide⟩, fun k => by simp, by decide, by decide, by decide, by decide, fun k => by cases k <;> decide⟩

theorem witness_StrandWordsAndParcelsAgreeByR29ToR46 : wellFormed (.add ⟨true, 15⟩ 31 31 31 true) = true ∧ encode (.add ⟨true, 15⟩ 31 31 31 true) ≠ [] ∧
    [addW].length = parcelCount ([addW].headD 0) ∧ wellFormed (decodeParcels [addW]) = true := by decide
theorem witness_NewtWordsAndEncodingsAgreeByR47 : wellFormed .nend = true ∧ encN .nend = some 0x98000000 ∧ decodeNewt 0x98000000 = some .nend := by decide
theorem witness_EveryStepKeepsMemoryAndTablesInForm : State.reset.memOk ∧ State.reset.keysOk ∧ (∃ t, step State.reset = .next t) ∧
    (fw0 addBytes).memOk ∧ (fw0 addBytes).keysOk ∧ ∃ t, step (fw0 addBytes) = .next t := by
  refine ⟨by unfold State.memOk; decide, by unfold State.keysOk; decide, ⟨_, rfl⟩, by unfold State.memOk; decide, by unfold State.keysOk; decide, ?_⟩
  have h : (match step (fw0 addBytes) with | .next _ => true | _ => false) = true := by decide +kernel
  revert h
  cases step (fw0 addBytes) with
  | next t => exact fun _ => ⟨t, rfl⟩
  | fault _ => intro h; simp at h
  | refused _ => intro h; simp at h

end Sys2Proof.Tests
end

section
/-!
SUPPORT. What a translation, an access and a fetch leave as it was: they change the walks, the TLBs, the page requests, the logs and the counts of
refusals, the reads that are held, and what leaves for the host, and nothing else (spec/15 R305 to R313).
-/

namespace Sys2Proof.Machine

/-- Two states that agree in all that no translation, access or fetch changes. -/
structure Looked (s t : State) : Prop where
  rest    : t = { s with
    dies := t.dies, vfs := t.vfs, vfdie := t.vfdie, tlb := t.tlb, walks := t.walks, reqs := t.reqs, outbox := t.outbox }
  sets    : ∀ v, (t.vf v).sets = (s.vf v).sets
  queues  : ∀ d, (t.die d).queues = (s.die d).queues
  service : ∀ d, (t.die d).st = (s.die d).st
  sent    : s.outbox <+: t.outbox

theorem Looked.refl (s : State) : Looked s s := ⟨rfl, fun _ => rfl, fun _ => rfl, fun _ => rfl, ⟨[], List.append_nil _⟩⟩

theorem Looked.trans {s t u : State} (a : Looked s t) (b : Looked t u) : Looked s u :=
  ⟨by rw [b.rest, a.rest], fun v => (b.sets v).trans (a.sets v), fun d => (b.queues d).trans (a.queues d),
   fun d => (b.service d).trans (a.service d), a.sent.trans b.sent⟩

theorem Looked.mem {s t : State} (h : Looked s t) : t.mem = s.mem := by rw [h.rest]
theorem Looked.cores {s t : State} (h : Looked s t) : t.cores = s.cores := by rw [h.rest]
theorem Looked.agenda {s t : State} (h : Looked s t) : t.agenda = s.agenda := by rw [h.rest]
theorem Looked.core {s t : State} (h : Looked s t) (c : Nat) : t.core c = s.core c := by rw [State.core, h.cores]; rfl
theorem Looked.str {s t : State} (h : Looked s t) (c : Nat) (k : StrandIx) : t.str c k = s.str c k := by rw [State.str, h.core]; rfl
theorem Looked.ctx {s t : State} (h : Looked s t) (c : Nat) : t.ctx c = s.ctx c := by rw [State.ctx, h.core]; rfl

theorem Looked.launch {s t : State} (h : Looked s t) (n : Nat) : t.launch n = s.launch n := by rw [State.launch, h.rest]; rfl
theorem Looked.queue {s t : State} (h : Looked s t) (d q : Nat) : t.queue d q = s.queue d q := by rw [State.queue, h.queues]; rfl

/-! ### The updates that a look-up makes -/

/-- A state with other walks, TLBs, held reads and messages to the host. -/
theorem Looked.buffers (s : State) (w : List Walk) (l : List TlbEntry) (r : List (Nat × Nat)) {o : List Out} (h : s.outbox <+: o := by exact ⟨[], List.append_nil _⟩) :
    Looked s { s with walks := w, tlb := l, reqs := r, outbox := o } :=
  ⟨rfl, fun _ => rfl, fun _ => rfl, fun _ => rfl, h⟩

theorem Looked.out (s : State) (o : Out) : Looked s (s.out o) := .buffers s s.walks s.tlb s.reqs ⟨_, rfl⟩
theorem Looked.holdReq (s : State) (d pa : Nat) : Looked s (s.holdReq d pa) := .buffers s s.walks s.tlb _
theorem Looked.leaveWalk (s : State) (w : Walk) (y : Who) : Looked s (leaveWalk s w y) := .buffers s _ s.tlb s.reqs
theorem Looked.leaveWalks (s : State) (p : Who → Bool) : Looked s (s.leaveWalks p) := .buffers s _ s.tlb s.reqs
theorem Looked.putWalk (s : State) (w z : Walk) : Looked s (s.putWalk w z) := .buffers s _ s.tlb s.reqs
theorem Looked.cacheLeaf (s : State) (c vf : Nat) (va : Word) (b n : Nat) (p : BitVec 3) (a : Option Nat) :
    Looked s (s.cacheLeaf c vf va b n p a) := .buffers s s.walks _ s.reqs

/-- A change of one function that keeps its sets. -/
theorem Looked.mapVf (s : State) (v : Nat) (f : Vf → Vf) (h : ∀ x, (f x).sets = x.sets) : Looked s (s.mapVf v f) := by
  refine ⟨rfl, fun e => ?_, fun _ => rfl, fun _ => rfl, ⟨[], List.append_nil _⟩⟩
  by_cases he : e = v
  · subst he; rw [State.vf_mapVf_self, h]
  · rw [State.vf_mapVf_ne s f he]

theorem Looked.mapVd (s : State) (d v : Nat) (f : VfDie → VfDie) : Looked s (s.mapVd d v f) :=
  ⟨rfl, fun _ => rfl, fun _ => rfl, fun _ => rfl, ⟨[], List.append_nil _⟩⟩

/-- A change of one die that keeps its queues and its service state. -/
theorem Looked.mapDie (s : State) (d : Nat) (f : Die → Die) (h : ∀ x, (f x).queues = x.queues ∧ (f x).st = x.st) : Looked s (s.mapDie d f) := by
  have e : ∀ e, ((s.mapDie d f).die e).queues = (s.die e).queues ∧ ((s.mapDie d f).die e).st = (s.die e).st := by
    intro e
    by_cases he : e = d
    · subst he; rw [State.die_mapDie_self]; exact h _
    · rw [State.die_mapDie_ne s f he]; exact ⟨rfl, rfl⟩
  exact ⟨rfl, fun _ => rfl, fun d => (e d).1, fun d => (e d).2, ⟨[], List.append_nil _⟩⟩

theorem Looked.deny (s : State) (d vf pa : Nat) : Looked s (s.deny d vf pa) := .mapDie s d _ fun _ => ⟨rfl, rfl⟩
theorem Looked.logAf (s : State) (d vf : Nat) (e : AfEnt) : Looked s (s.logAf d vf e) := .mapVd s d vf _

theorem Looked.noteLines (n : Nat) : ∀ (h m : Nat) (s : State), Looked s (noteLines n h m s) := by
  induction n with
  | zero => exact fun _ _ s => .refl s
  | succ n ih =>
    intro h m s
    rw [Machine.noteLines]
    split
    · exact .refl s
    · exact (Looked.out s _).trans (ih _ _ _)

theorem Looked.noteRead (s : State) (pa n : Nat) : Looked s (s.noteRead pa n) := by
  rw [State.noteRead]
  split
  · exact .noteLines _ _ _ s
  · exact .refl s

/-- A run of changes that each are look-ups is one. -/
theorem Looked.foldl {α : Type} (f : State → α → State) (h : ∀ s a, Looked s (f s a)) : ∀ (l : List α) (s : State), Looked s (l.foldl f s)
  | [], s => .refl s
  | a :: l, s => (h s a).trans (Looked.foldl f h l (f s a))

/-! ### Walks, translations and accesses -/

theorem Looked.askPage (s : State) (w : Walk) (kind : AccKind) : Looked s (askPage s w kind) := by
  rw [Machine.askPage]
  split
  · exact .putWalk s w _
  · exact ((Looked.putWalk s w _).trans (.mapVf _ w.vf (fun v => { v with preqs := v.preqs ++ [⟨_, w.page⟩] }) fun _ => rfl)).trans (.out _ _)

theorem Looked.walkOnce (s : State) (d c : Nat) (w : Walk) (y : Who) (va : Word) (kind : AccKind) :
    Looked s (walkOnce s d c w y va kind).1 := by
  rw [Machine.walkOnce]
  dsimp only
  split
  · exact .holdReq s d _
  split
  · exact .refl s
  have r : Looked s ((entriesOf s d w.vf va).foldl (fun s a => s.noteRead a 8) s) := .foldl _ (fun s a => .noteRead s a 8) _ s
  refine r.trans ?_
  generalize (entriesOf s d w.vf va).foldl (fun s a => s.noteRead a 8) s = u
  split
  · exact .leaveWalk u w y
  · exact (Looked.leaveWalk u w y).trans (.deny _ d _ _)
  · split
    · exact .leaveWalk u w y
    · exact .askPage u w kind
  · exact .leaveWalk u w y
  · split
    · split
      · exact (Looked.leaveWalk u w y).trans (.cacheLeaf _ _ _ _ _ _ _ _)
      · exact (Looked.putWalk u w _).trans (.out _ _)
    · exact (Looked.putWalk u w _).trans (.out _ _)

theorem Looked.newWalk (s : State) (d c vf : Nat) (y : Who) (va : Word) (kind : AccKind) : Looked s (newWalk s d c vf y va kind).1 := by
  rw [Machine.newWalk]
  split
  · exact .refl s
  have h : ∀ w : Walk, Looked s (Machine.walkOnce { s with walks := s.walks ++ [w] } d c w y va kind).1 := fun w =>
    (Looked.buffers s (s.walks ++ [w]) s.tlb s.reqs).trans (.walkOnce _ d c w y va kind)
  dsimp only
  split
  · rename_i t e
    have ht := h ⟨d, vf, pageOf va, [y], false, .again⟩
    rw [e] at ht
    dsimp only
    split
    · exact ht.trans (.buffers t s.walks t.tlb t.reqs)
    · exact ht
  · exact h _

theorem Looked.missTr (s : State) (d c vf : Nat) (y : Who) (va : Word) (kind : AccKind) : Looked s (missTr s d c vf y va kind).1 := by
  rw [Machine.missTr]
  split
  · exact .newWalk s d c vf y va kind
  rename_i w _
  dsimp only
  have p : ∀ z, Looked s (s.putWalk w z) := Looked.putWalk s w
  split
  · exact (p _).trans (.askPage _ _ kind)
  · exact p _
  · exact p _
  · exact p _
  · exact (p _).trans (.leaveWalk _ _ y)
  · exact (p _).trans (.walkOnce _ d c _ y va kind)
  · exact (p _).trans (.walkOnce _ d c _ y va kind)

theorem Looked.translate (s : State) (c u vf : Nat) (va : Word) (kind : AccKind) : Looked s (translate s c u vf va kind).1 := by
  rw [Machine.translate]
  split
  · exact .leaveWalks s _
  split
  · exact .refl s
  · exact .missTr s _ c vf _ va kind

theorem Looked.badAccess (s : State) (c vf : Nat) (va : Word) (kind : AccKind) (fw : Bool) (r : Nat) :
    Looked s (badAccess s c vf va kind fw r).1 := .logAf s _ vf _

theorem Looked.accessAt (s : State) (c vf : Nat) (va : Word) (kind : AccKind) (n : Nat) (ap : Bool) (pa : Nat) :
    Looked s (accessAt s c vf va kind n ap pa).1 := by
  rw [Machine.accessAt]
  split
  · exact .holdReq s _ pa
  split
  · split
    · exact .refl s
    · exact .badAccess s ..
  · exact .badAccess s ..
  · split
    · exact .badAccess s ..
    · split
      · exact .badAccess s ..
      · exact .refl s

theorem Looked.access (s : State) (c u vf : Nat) (va : Word) (kind : AccKind) (n : Nat) (ap : Bool) :
    Looked s (access s c u vf va kind n ap).1 := by
  have h := Looked.translate s c u vf va kind
  rw [Machine.access]
  split
  · rename_i t pa e
    rw [e] at h
    refine h.trans ?_
    dsimp only
    split
    · exact (Looked.deny t _ vf pa).trans (.badAccess _ ..)
    · exact .accessAt t ..
  · rename_i t fw r e
    rw [e] at h
    exact h.trans (.badAccess t ..)
  · exact h

theorem Looked.accessFrom (s : State) (c u vf : Nat) (va : Word) (kind : AccKind) (n : Nat) (ap : Bool) (pa : Option Nat) :
    Looked s (accessFrom s c u vf va kind n ap pa).1 := by
  cases pa with
  | some pa => exact .accessAt s ..
  | none => exact .access s ..

theorem Looked.readNow (s : State) (c u vf : Nat) (va : Word) (kind : AccKind) (n : Nat) : Looked s (readNow s c u vf va kind n).1 := by
  have h := Looked.access s c u vf va kind n false
  rw [Machine.readNow]
  split
  · rename_i t pa e
    rw [e] at h
    refine h.trans ?_
    dsimp only
    split
    · exact .holdReq t _ pa
    · split <;> exact .refl t
  · exact h

/-- A fetch looks, and answers parcels, a fault or a wait. -/
theorem Looked.fetchParcels (c u n : Nat) : ∀ (s : State) (a : Word), Looked s (fetchParcels c u n s a).1 := by
  induction n with
  | zero => exact fun s _ => .refl s
  | succ n ih =>
    intro s a
    have h := Looked.readNow s c u (s.ctx c).vf a .fetch 4
    rw [Machine.fetchParcels]
    split
    · rename_i t fw r e; rw [e] at h; exact h
    · rename_i t pa e; rw [e] at h; exact h
    · rename_i t e; rw [e] at h; exact h
    · rename_i t pa e
      rw [e] at h
      have g := (h.trans (.noteRead t pa 4)).trans (ih _ (a + 4))
      dsimp only
      split
      · rename_i v ps e2; rw [e2] at g; exact g
      · exact g

end Sys2Proof.Machine
end

section
/-!
SUPPORT. The order of turns, the fetch of a word and the close of a clock cycle with nothing in flight (O57).
-/

namespace Sys2Proof.Machine

/-! ### The turn that comes next -/

theorem firstTurn_eq_none {l : List Turn} : firstTurn l = none ↔ l = [] := by
  cases l with
  | nil => simp [firstTurn]
  | cons t l => rw [firstTurn]; split <;> (try split) <;> simp

theorem firstTurn_mem : ∀ {l : List Turn} {t : Turn} {r : List Turn}, firstTurn l = some (t, r) → t ∈ l
  | [], _, _, h => by simp [firstTurn] at h
  | a :: l, t, r, h => by
    rw [firstTurn] at h
    split at h
    · rename_i u q e
      split at h
      · obtain ⟨rfl, -⟩ := Prod.mk.inj (Option.some.inj h); exact List.mem_cons_of_mem _ (firstTurn_mem e)
      · obtain ⟨rfl, -⟩ := Prod.mk.inj (Option.some.inj h); exact List.mem_cons_self
    · obtain ⟨rfl, -⟩ := Prod.mk.inj (Option.some.inj h); exact List.mem_cons_self

/-- The head comes first where no later turn has a lower place. -/
theorem firstTurn_cons_of_le {t : Turn} {b : List Turn} (h : ∀ u ∈ b, t.place ≤ u.place) : firstTurn (t :: b) = some (t, b) := by
  rw [firstTurn]
  split
  · rename_i u r e
    rw [if_neg (Nat.not_lt.2 (h u (firstTurn_mem e)))]
  · rename_i e; rw [firstTurn_eq_none.1 e]

theorem ComesFirst.firstTurn {l : List Turn} {t : Turn} {r : List Turn} : ComesFirst l t r → firstTurn l = some (t, r) := by
  rintro ⟨a, b, rfl, rfl, ha, hb⟩
  induction a with
  | nil => exact firstTurn_cons_of_le hb
  | cons u a ih =>
    have e := ih fun v hv => ha v (List.mem_cons_of_mem _ hv)
    rw [List.cons_append, Machine.firstTurn, e]
    exact if_pos (ha u List.mem_cons_self)

theorem State.ordered_of_comesFirst {s : State} {t : Turn} {r : List Turn} (h : ComesFirst s.agenda t r) :
    s.ordered = { s with agenda := t :: r } := by rw [State.ordered, h.firstTurn]

/-! ### A strand's turn -/

theorem State.canIssue_iff (s : State) (c : Nat) (k : StrandIx) : s.canIssue c k = true ↔ MayIssue s c k := by
  constructor
  · intro h
    simp only [State.canIssue, Core.canIssue, Bool.and_eq_true, Bool.or_eq_true, List.all_eq_true, bne_iff_ne, beq_iff_eq, Bool.not_eq_true',
      Option.isNone_iff_eq_none, Option.isSome_iff_ne_none, List.isEmpty_iff] at h
    obtain ⟨⟨⟨⟨⟨⟨⟨⟨⟨⟨⟨⟨h1, h2⟩, h3⟩, h4⟩, h5⟩, h6⟩, h7⟩, h8⟩, h9⟩, h10⟩, h11⟩, h12⟩, h13⟩ := h
    exact ⟨h1, h2, ⟨h3, h4, h5, h6, h7⟩, ⟨h8, h9⟩, ⟨h10, h11, h12⟩, h13⟩
  · rintro ⟨h1, h2, ⟨h3, h4, h5, h6, h7⟩, ⟨h8, h9⟩, ⟨h10, h11, h12⟩, h13⟩
    simp only [State.canIssue, Core.canIssue, Bool.and_eq_true, Bool.or_eq_true, List.all_eq_true, bne_iff_ne, beq_iff_eq, Bool.not_eq_true',
      Option.isNone_iff_eq_none, Option.isSome_iff_ne_none, List.isEmpty_iff]
    exact ⟨⟨⟨⟨⟨⟨⟨⟨⟨⟨⟨⟨h1, h2⟩, h3⟩, h4⟩, h5⟩, h6⟩, h7⟩, h8⟩, h9⟩, h10⟩, h11⟩, h12⟩, h13⟩

/-- What the answers of two fetches, one behind the other, make together. -/
def joinParcels (c u n : Nat) (a : Word) : State × Except (Option (Nat × Word)) (List (BitVec 32)) →
    State × Except (Option (Nat × Word)) (List (BitVec 32))
  | (t, .error e) => (t, .error e)
  | (t, .ok ps) => match fetchParcels c u n t a with
    | (v, .ok qs) => (v, .ok (ps ++ qs))
    | (v, .error e) => (v, .error e)

/-- A fetch of more parcels is the fetch of the first and then of the others. -/
theorem fetchParcels_succ (c u n : Nat) (s : State) (a : Word) :
    fetchParcels c u (n + 1) s a = joinParcels c u n (a + 4) (fetchParcels c u 1 s a) := by
  rw [fetchParcels, fetchParcels]
  rcases readNow s c u (s.ctx c).vf a .fetch 4 with ⟨t, r⟩
  cases r with
  | fault fw r => rfl
  | held pa => rfl
  | wait => rfl
  | ok pa =>
    simp only [fetchParcels, joinParcels, List.cons_append, List.nil_append]
    rcases fetchParcels c u n (t.noteRead pa 4) (a + 4) with ⟨v, _ | _⟩ <;> rfl

theorem parcelCount_pos (p : BitVec 32) : 0 < parcelCount p := by
  unfold parcelCount; split <;> decide

/-- A fetch that answers one parcel answers a list of one. -/
theorem fetchParcels_one_length {c u : Nat} {s t : State} {a : Word} {ps : List (BitVec 32)} (h : fetchParcels c u 1 s a = (t, .ok ps)) :
    ps.length = 1 := by
  rw [fetchParcels] at h
  rcases e : readNow s c u (s.ctx c).vf a .fetch 4 with ⟨v, r⟩
  rw [e] at h
  cases r with
  | ok pa =>
    simp only [fetchParcels, Prod.mk.injEq, Except.ok.injEq] at h
    rw [← h.2]; rfl
  | _ => simp at h

/-- A fetch that answers a whole word is the fetch of that word. -/
theorem fetch_word {s t : State} {c n : Nat} {k : StrandIx} {ps : List (BitVec 32)}
    (h : fetchParcels c (unitHead k) n s (s.str c k).pc = (t, .ok ps)) (hps : ps ≠ []) (hn : n = parcelCount (ps.headD 0)) :
    fetch s c k = (t, .word (decodeParcels ps)) := by
  obtain ⟨m, rfl⟩ : ∃ m, n = m + 1 := ⟨n - 1, by have := parcelCount_pos (ps.headD 0); omega⟩
  rw [fetchParcels_succ] at h
  rw [fetch]
  rcases e : fetchParcels c (unitHead k) 1 s (s.str c k).pc with ⟨v, _ | qs⟩
  · rw [e] at h; simp [joinParcels] at h
  · rw [e] at h
    obtain ⟨p, rfl⟩ := List.length_eq_one_iff.1 (fetchParcels_one_length e)
    simp only [joinParcels] at h
    dsimp only
    rcases e2 : fetchParcels c (unitHead k) m v ((s.str c k).pc + 4) with ⟨w, _ | rs⟩
    · rw [e2] at h; simp at h
    · rw [e2] at h
      simp only [Prod.mk.injEq, Except.ok.injEq] at h
      obtain ⟨rfl, rfl⟩ := h
      have hp : parcelCount (List.headD [p] 0) = m + 1 := hn.symm
      rw [hp]
      by_cases hm : m = 0
      · subst hm
        rw [if_pos rfl]
        rw [fetchParcels] at e2
        simp only [Prod.mk.injEq, Except.ok.injEq] at e2
        obtain ⟨rfl, rfl⟩ := e2
        rfl
      · rw [if_neg (by omega), Nat.add_sub_cancel, e2]

theorem fetch_fault {s t : State} {c : Nat} {k : StrandIx} {code : Nat} {a : Word}
    (h : fetchParcels c (unitHead k) 1 s (s.str c k).pc = (t, .error (some (code, a)))) : fetch s c k = (t, .fault code a) := by
  rw [fetch]; simp only [h]
theorem fetch_wait {s t : State} {c : Nat} {k : StrandIx}
    (h : fetchParcels c (unitHead k) 1 s (s.str c k).pc = (t, .error none)) : fetch s c k = (t, .wait) := by
  rw [fetch]; simp only [h]

/-! ### Closing a clock cycle with nothing in flight -/

/-- Two states that differ in one core alone. -/
structure OnCore (s t : State) (c : Nat) : Prop where
  rest  : t = { s with cores := t.cores }
  cores : ∀ e, e ≠ c → t.core e = s.core e

theorem OnCore.refl (s : State) (c : Nat) : OnCore s s c := ⟨rfl, fun _ _ => rfl⟩
theorem OnCore.trans {s t u : State} {c : Nat} (a : OnCore s t c) (b : OnCore t u c) : OnCore s u c :=
  ⟨by rw [b.rest, a.rest], fun e he => (b.cores e he).trans (a.cores e he)⟩
theorem OnCore.mapCore (s : State) (c : Nat) (f : Core → Core) : OnCore s (s.mapCore c f) c := ⟨rfl, fun _ he => s.core_mapCore_ne f he⟩
theorem OnCore.mapStr (s : State) (c : Nat) (k : StrandIx) (f : Strand → Strand) : OnCore s (s.mapStr c k f) c := .mapCore s c _
theorem OnCore.mapCtx (s : State) (c : Nat) (f : Ctx → Ctx) : OnCore s (s.mapCtx c f) c := .mapCore s c _
theorem OnCore.agenda {s t : State} {c : Nat} (h : OnCore s t c) : t.agenda = s.agenda := by rw [h.rest]
theorem OnCore.mem {s t : State} {c : Nat} (h : OnCore s t c) : t.mem = s.mem := by rw [h.rest]

theorem Core.setStr_str (x : Core) (k : StrandIx) : x.setStr k (x.str k) = x := by cases k <;> rfl

/-- A core with no operation and no word to retire. -/
def Core.Empty (x : Core) : Prop := x.ops = [] ∧ ∀ k, (x.str k).ret = []

/-- A strand without words that issues empty cycles stops. -/
def Strand.stopped (t : Strand) : Strand := { t with running := t.running && !t.exiting, exiting := t.exiting && !t.running }

theorem retireStrand_of_ret {x : Core} {k : StrandIx} (h : (x.str k).ret = []) : retireStrand x k = x := by
  unfold retireStrand
  dsimp only
  rw [h]
  split
  · rfl
  split
  · rw [retireN, h]
  · rfl

theorem stopStrand_of_ret {x : Core} {k : StrandIx} (h : (x.str k).ret = []) : stopStrand x k = x.setStr k (x.str k).stopped := by
  have he : (x.str k).ret.isEmpty = true := by rw [h]; rfl
  simp only [stopStrand, he, Bool.and_true, Bool.and_eq_true]
  split
  · rename_i hb
    rw [Strand.stopped, hb.1, hb.2]; rfl
  · rename_i hb
    have e : (x.str k).stopped = x.str k := by
      rw [Strand.stopped]
      rcases hx : x.str k with ⟨⟩
      rw [hx] at hb
      simp only [Strand.mk.injEq, true_and, and_true, Bool.and_eq_left_iff_imp, Bool.not_eq_true']
      exact ⟨fun hr => Bool.eq_false_iff.2 fun he => hb ⟨hr, he⟩, fun he => Bool.eq_false_iff.2 fun hr => hb ⟨hr, he⟩⟩
    rw [e, Core.setStr_str]

/-- With no operation of the core, a strand's landings change nothing. -/
theorem landStrand_core_of_ops {s : State} {c : Nat} {k : StrandIx} (h : (s.core c).ops = []) : (landStrand s c k).core c = s.core c := by
  have e : ({ s.core c with ops := [] } : Core) = s.core c := by rw [← h]
  unfold landStrand
  simp only [h, landOps, State.core_mapCore_self, List.flatMap_nil, e]
  exact Core.setStr_str _ k

theorem landStrand_onCore_of_ops {s : State} {c : Nat} {k : StrandIx} (h : (s.core c).ops = []) : OnCore s (landStrand s c k) c := by
  unfold landStrand
  dsimp only
  rw [h]
  exact .mapCore s c _

/-- The close of a strand of an empty core. -/
theorem closeStrand_of_empty {s : State} {c : Nat} (k : StrandIx) (h : (s.core c).Empty) :
    OnCore s (closeStrand c s k) c ∧ (closeStrand c s k).core c = (s.core c).setStr k ((s.core c).str k).stopped := by
  obtain ⟨hops, hret⟩ := h
  have land : OnCore s (if (s.str c k).issued then landStrand s c k else s) c ∧
      (if (s.str c k).issued then landStrand s c k else s).core c = s.core c := by
    split
    · exact ⟨landStrand_onCore_of_ops hops, landStrand_core_of_ops hops⟩
    · exact ⟨.refl s c, rfl⟩
  rw [closeStrand]
  generalize (if (s.str c k).issued then landStrand s c k else s) = t at land ⊢
  obtain ⟨ht, hc⟩ := land
  have vec : (if (decide (k = .c) && (t.core c).vdue) = true then landVector c t else t) = t := by
    rw [landVector, hc, hops]; exact ite_self t
  rw [vec]
  refine ⟨ht.trans (.mapCore t c _), ?_⟩
  rw [State.core_mapCore_self, hc, retireStrand_of_ret (hret k), stopStrand_of_ret (hret k)]

/-- The core with every strand stopped that issues empty cycles. -/
def Core.stopped (x : Core) : Core := { x with s := x.s.stopped, l := x.l.stopped, c := x.c.stopped, w := x.w.stopped }

theorem Core.Empty.setStr_stopped {x : Core} (h : x.Empty) (k : StrandIx) : (x.setStr k (x.str k).stopped).Empty := by
  refine ⟨by rw [Core.setStr_ops]; exact h.1, fun j => ?_⟩
  by_cases hj : j = k
  · subst hj; rw [Core.str_setStr_self]; exact h.2 j
  · rw [Core.str_setStr_ne x _ hj]; exact h.2 j

theorem closeStrands_of_empty {s : State} {c : Nat} (h : (s.core c).Empty) :
    OnCore s (allStr.foldl (closeStrand c) s) c ∧ (allStr.foldl (closeStrand c) s).core c = (s.core c).stopped := by
  have step : ∀ (l : List StrandIx) (t : State), (t.core c).Empty → OnCore t (l.foldl (closeStrand c) t) c ∧
      (l.foldl (closeStrand c) t).core c = l.foldl (fun x k => x.setStr k (x.str k).stopped) (t.core c) := by
    intro l
    induction l with
    | nil => exact fun t _ => ⟨.refl t c, rfl⟩
    | cons k l ih =>
      intro t ht
      obtain ⟨h1, h2⟩ := closeStrand_of_empty k ht
      obtain ⟨h3, h4⟩ := ih (closeStrand c t k) (h2 ▸ ht.setStr_stopped k)
      exact ⟨h1.trans h3, by rw [List.foldl_cons, h4, h2]; rfl⟩
  obtain ⟨h1, h2⟩ := step allStr s h
  exact ⟨h1, h2⟩

theorem takeStop_of_stops {s : State} {c : Nat} (h : (s.core c).stops = []) : takeStop s c = s := by
  rw [takeStop, h]; rfl

theorem clampDrain_of_drainPt {s : State} {c : Nat} (h : (s.ctx c).drainPt = none) : clampDrain s c = s := by
  rw [clampDrain]; dsimp only; rw [h]

/-- The close of the clock cycle of an empty core that no stop and no drain point concerns. -/
theorem closeCycle_of_empty {s : State} {c : Nat} (hh : (s.core c).halted = false) (he : (s.core c).Empty) (hs : (s.core c).stops = [])
    (hd : (s.ctx c).drainPt = none) : OnCore s (closeCycle s c) c ∧ (closeCycle s c).core c = (s.core c).stopped.nextCycle := by
  obtain ⟨h1, h2⟩ := closeStrands_of_empty he
  have hd' : ((allStr.foldl (closeStrand c) s).ctx c).drainPt = none := by rw [State.ctx, h2]; exact hd
  have hn : ((allStr.foldl (closeStrand c) s).mapCore c Core.nextCycle).core c = (s.core c).stopped.nextCycle := by
    rw [State.core_mapCore_self, h2]
  rw [closeCycle, hh]
  dsimp only
  rw [if_neg (by decide), clampDrain_of_drainPt hd', takeStop_of_stops (by rw [hn]; exact hs)]
  exact ⟨h1.trans (.mapCore _ c _), hn⟩

theorem moreTurns_iff (c : Nat) (l : List Turn) : moreTurns c l = true ↔ ∃ k, Turn.issue c k ∈ l := by
  induction l with
  | nil => simp [moreTurns]
  | cons t l ih =>
    cases t with
    | issue d j =>
      rw [moreTurns, Bool.or_eq_true, ih, decide_eq_true_iff]
      constructor
      · rintro (rfl | ⟨k, h⟩)
        · exact ⟨j, List.mem_cons_self⟩
        · exact ⟨k, List.mem_cons_of_mem _ h⟩
      · rintro ⟨k, h⟩
        rcases List.mem_cons.1 h with h | h
        · obtain ⟨rfl, -⟩ := Turn.issue.inj h; exact .inl rfl
        · exact .inr ⟨k, h⟩
    | _ => show moreTurns c l = true ↔ _; rw [ih]; simp

/-- What the token counts are after a clock cycle, R146. -/
theorem Core.settle_tok (x : Core) {f : Nat} (hf : f < 6) : cnt x.settle.tok f = cnt x.tok f + cnt x.gave f - cnt x.took f := by
  have step : ∀ (l : List Nat) (t : Tab Nat), l.Nodup → cnt (l.foldl (fun t f => Tab.set 0 t f (cnt t f + cnt x.gave f - cnt x.took f)) t) f
      = if f ∈ l then cnt t f + cnt x.gave f - cnt x.took f else cnt t f := by
    intro l
    induction l with
    | nil => intro t _; simp
    | cons a l ih =>
      intro t hl
      obtain ⟨ha, hl⟩ := List.nodup_cons.1 hl
      rw [List.foldl_cons, ih _ hl]
      by_cases h : f = a
      · subst h; simp [ha, cnt]
      · have : cnt (Tab.set 0 t a (cnt t a + cnt x.gave a - cnt x.took a)) f = cnt t f := Tab.get_set_ne 0 t _ h
        simp [h, this]
  have := step (List.range 6) x.tok List.nodup_range
  rw [if_pos (List.mem_range.2 hf)] at this
  exact this

/-- The event records that find no room in the queue stay with their sources, R161. -/
theorem Core.settle_evwait {x : Core} (h : x.ctx ≠ none) :
    (x.settle.ctx.getD {}).evwait = (x.evq ++ (x.ctx.getD {}).evwait ++ x.evnow.map Prod.snd).drop 64 := by
  obtain ⟨y, hy⟩ := Option.ne_none_iff_exists'.1 h
  simp only [Core.settle, hy, Option.map_some, Option.getD_some]

/-- What a strand holds at the start of the next clock cycle, after it may have stopped. -/
theorem Core.str_stopped_nextCycle (x : Core) (k : StrandIx) : x.stopped.nextCycle.str k = (x.str k).stopped.nextCycle := by cases k <;> rfl

/-- A die whose Newt hears of the events of the last clock cycle. -/
def Die.hears (x : Die) : Die := { x with newtIn := x.newtIn ++ x.newtNow, newtNow := [] }

/-- The dies at the start of a clock cycle: the events of the last have reached their Newt (spec/18 R363). -/
theorem State.die_tick (s : State) (d : Nat) : s.tick.die d = (s.die d).hears := by
  have step : ∀ t : Tab Die, Tab.get {} (t.map fun e : Nat × Die => (e.1, e.2.hears)) d = (Tab.get {} t d).hears := by
    intro t
    induction t with
    | nil => rfl
    | cons a t ih =>
      rw [List.map_cons, Tab.get, Tab.get]
      split
      · rfl
      · exact ih
  exact step s.dies

end Sys2Proof.Machine
end

section

open Sys2Proof Sys2Proof.Machine

/-- Settles O57: the first turn by `ComesFirst.firstTurn`, the fetch of a whole word by `fetch_word`, and the close of the clock cycle of a
core with nothing in flight by `closeCycle_of_empty`. -/
theorem aStepRunsTheDecodedInstruction : Obligations.AStepRunsTheDecodedInstruction := by
  refine ⟨fun s t r h => ?_, fun c d k => ⟨?_, ?_, ?_⟩, fun c e d k j m hc => ⟨?_, ?_⟩, fun s rest c k ha => ⟨?_, ?_, ?_, ?_⟩, ?_, ?_, fun s ha => ?_,
    fun s c => ⟨?_, ?_⟩⟩
  · rw [step, State.ordered_of_comesFirst h]
  · show 0 < 3 + 8 * c; omega
  · show 3 + 8 * c < 3 + 8 * c + issuePlace k; cases k <;> simp [issuePlace]
  · intro hk
    show 3 + 8 * c + issuePlace k < 3 + 8 * c + 4
    cases k <;> simp_all [issuePlace]
  · show 3 + 8 * c + issuePlace k < lastPlace
    have : issuePlace k ≤ 4 := by cases k <;> decide
    unfold lastPlace; omega
  · show lastPlace < lastPlace + 1; omega
  · intro hm n t ps hf hps hn
    have l := Looked.fetchParcels c (unitHead k) n s (s.str c k).pc
    rw [hf] at l
    refine ⟨?_, l.agenda, l.cores, l.mem⟩
    simp only [runTurn, ha, (s.canIssue_iff c k).2 hm, if_true, fetch_word hf hps hn]
  · intro hm t code a hf
    simp only [runTurn, ha, (s.canIssue_iff c k).2 hm, if_true, fetch_fault hf]; rfl
  · intro hm t hf
    simp only [runTurn, ha, (s.canIssue_iff c k).2 hm, if_true, fetch_wait hf]
  · intro hm
    simp only [runTurn, ha, mt (s.canIssue_iff c k).1 hm]; rfl
  · rintro s rest i ⟨c, k, j, ha⟩
    simp only [runTurn, ha]
  · intro s rest d k r i ha hr hi
    simp only [runTurn, ha, hr, newtWord, hi, Option.getD_some]
  · refine ⟨_, _, ?_, ?_, State.die_tick s⟩
    · rw [step, State.ordered, ha]; simp only [firstTurn, runTurn, ha]; rfl
    · intro e he
      cases hi : s.inbox with
      | nil => simp [hi] at he
      | cons a l => simp_all
  · intro h
    have hm := (moreTurns_iff c (s.agenda.drop 1)).2 h
    rw [List.drop_one] at hm
    rw [endTurn]; simp only [State.pop, hm, if_true, List.drop_one]
  · intro h hh hops hstops hd hret
    have hm : moreTurns c s.pop.agenda = false := by
      rw [Bool.eq_false_iff]; intro hm; obtain ⟨k, hk⟩ := (moreTurns_iff c _).1 hm; exact h k (List.drop_one ▸ hk)
    have he : endTurn s c = closeCycle s.pop c := by rw [endTurn]; simp only [hm]; rfl
    obtain ⟨ho, hc⟩ := closeCycle_of_empty (s := s.pop) (c := c) hh ⟨hops, hret⟩ hstops hd
    rw [← he] at ho hc
    have hstr : ∀ k, (endTurn s c).str c k = ((s.core c).str k).stopped.nextCycle := fun k => by
      rw [State.str, hc]; exact Core.str_stopped_nextCycle _ k
    refine ⟨by rw [ho.agenda, List.drop_one]; rfl, ho.mem, ho.cores, by rw [hc]; rfl, by rw [hc]; rfl, fun hx => ?_, fun f hf => ?_,
      fun k => ⟨fun r => ?_, ?_, ?_, ?_, ?_⟩⟩
    · rw [State.ctx, hc]; exact Core.settle_evwait hx
    · rw [hc]; exact ⟨Core.settle_tok (s.core c) hf, rfl, rfl⟩
    · rw [State.rd, hstr]; rfl
    · rw [hstr]; rfl
    · rw [hstr]; rfl
    · rw [hstr]; rfl
    · rw [hstr]; rfl

end

section
/-!
SUPPORT. Words of S that start, wait for and stop other strands (spec/07 R151 to R154), and the first values of a strand (spec/01 R12).
-/

namespace Sys2Proof.Machine

/-! ### A ready word that falls through, in full -/

theorem Beside.scr {x y : Core} (h : Beside x y) : y.scr = x.scr := by obtain ⟨_, _, _, _, _, rfl⟩ := h; rfl

/-- A ready word whose rule leaves `s'` issues and goes on behind itself, with memory and the scratchpad as `s'` has them. -/
theorem Ready.falls {s s' : State} {c : Nat} {k : StrandIx} {i : Instr} {n : Ann} {who : List StrandIx} {rs ds : List Reg} {f : Info}
    {body : Nat → StrandIx → State → Act} (h : Ready s c k i n who rs ds) (hf : Fits f s c k i n who rs ds)
    (hb : body c k s = .go s' .fall) (he : exec i s = issue i f body s) (pl : SamePlace s s' c k) :
    ∃ t, exec i s = .next (endTurn t c) ∧ Fell s s' t c k i n ∧ t.mem = s'.mem ∧ (t.core c).scr = (s'.core c).scr := by
  have q := Quiet.commit_fall i f c k s'
  refine ⟨_, he.trans (h.go hf hb), commit_fall_spec s s' c k i n f hf.t pl, q.mem, ?_⟩
  have hc := q.core.scr
  rw [State.core_mapCore_self, Core.issueOf, Core.mapStr_scr] at hc
  exact hc

/-- A word whose rule has written a register falls through from the strand as it was before. -/
theorem FellAt.fallsThrough_put {s s1 t : State} {c : Nat} {k : StrandIx} {i : Instr} {n : Ann} {d : Reg} {v : Word}
    (a : Fell s (s1.put c k d v) t c k i n) (hk : s1.str c k = s.str c k) : FallsThrough (s.str c k) t c k i := by
  have e : (s1.put c k d v).str c k = (s.str c k).put d v := (State.str_mapStr_self s1 c k _).trans (by rw [hk])
  obtain ⟨g, fr, hp⟩ := (s.str c k).put_keeps d v
  have hx := a.falls
  rw [e, hp, ContinuesAt, Strand.endTests_regs] at hx
  exact hx

/-- What a word whose rule writes one register of its strand, after other changes that left `s1`, reads there afterwards. -/
theorem FellAt.rd_put {s s1 t : State} {c : Nat} {k : StrandIx} {i : Instr} {n : Ann} {d : Reg} {v : Word}
    (a : Fell s (s1.put c k d v) t c k i n) (hk : s1.str c k = s.str c k) : Holds t c k d v ∧ KeepsRegs s t c k [d] := by
  have e : ∀ r, t.rd c k r = if r = d then (if d = 0 then 0 else v) else s.rd c k r := fun r => by
    rw [a.rd, State.rd, State.put, State.str_mapStr_self, Strand.rd_put, hk, State.rd]
  exact ⟨by rw [Holds, e, if_pos rfl], fun r hr => by rw [e, if_neg (mt List.mem_singleton.2 hr)]⟩

/-! ### Changes of several strands of a core -/

theorem State.str_foldl_mapStr (c : Nat) (f : Strand → Strand) (j : StrandIx) : ∀ (l : List StrandIx) (s : State), l.Nodup →
    (l.foldl (fun s k => s.mapStr c k f) s).str c j = if j ∈ l then f (s.str c j) else s.str c j
  | [], s, _ => by simp
  | k :: l, s, h => by
    obtain ⟨hk, hl⟩ := List.nodup_cons.1 h
    rw [List.foldl_cons, State.str_foldl_mapStr c f j l _ hl]
    by_cases hj : j = k
    · subst hj; simp [hk]
    · simp [hj]

theorem OnCore.foldl {α : Type} {c : Nat} (f : State → α → State) (h : ∀ s a, OnCore s (f s a) c) : ∀ (l : List α) (s : State),
    OnCore s (l.foldl f s) c
  | [], s => .refl s c
  | a :: l, s => (h s a).trans (OnCore.foldl f h l (f s a))

theorem OnCore.samePackage {s t : State} {c : Nat} (h : OnCore s t c) : SamePackage s t := by
  rw [h.rest]; exact ⟨rfl, rfl, rfl, rfl, rfl, rfl, rfl, rfl, rfl, rfl, rfl, rfl, rfl, rfl, rfl, rfl, rfl, rfl, rfl, rfl, rfl, rfl, rfl, rfl, fun _ _ => ⟨_, rfl⟩⟩

/-- A change of one strand keeps the fields of the core that count its words. -/
theorem SamePlace.foldl_mapStr (c : Nat) (k : StrandIx) (f : Strand → Strand) (l : List StrandIx) (hk : k ∉ l) : ∀ s : State,
    SamePlace s (l.foldl (fun s k => s.mapStr c k f) s) c k ∧ ((l.foldl (fun s k => s.mapStr c k f) s).core c).took = (s.core c).took := by
  induction l with
  | nil => exact fun s => ⟨.refl s c k, rfl⟩
  | cons j l ih =>
    intro s
    obtain ⟨hj, hl⟩ := not_or.1 (mt List.mem_cons.2 hk)
    obtain ⟨⟨h1, h2⟩, h3⟩ := ih hl (s.mapStr c j f)
    rw [State.str_mapStr_ne s c f hj] at h1
    rw [State.core_mapStr_self, Core.mapStr_nord] at h2
    rw [State.core_mapStr_self, Core.mapStr_took] at h3
    exact ⟨⟨h1, h2⟩, h3⟩

/-! ### The first values of a strand -/

theorem Tab.get_foldl_set_of_notMem (l : List (Nat × Word)) (i : Nat) : ∀ t : Tab Word, (∀ e ∈ l, e.1 ≠ i) →
    Tab.get 0 (l.foldl (fun t e => Tab.set 0 t e.1 e.2) t) i = Tab.get 0 t i := by
  induction l with
  | nil => exact fun t _ => rfl
  | cons e l ih =>
    intro t h
    rw [List.foldl_cons, ih _ fun f hf => h f (List.mem_cons_of_mem _ hf), Tab.get_set_ne 0 t _ (h e List.mem_cons_self).symm]

/-- A key that some entry writes reads as what all its entries agree on. -/
theorem Tab.get_foldl_set_of_mem {l : List (Nat × Word)} {i : Nat} {v : Word} : ∀ t : Tab Word, (∀ e ∈ l, e.1 = i → e.2 = v) → (i, v) ∈ l →
    Tab.get 0 (l.foldl (fun t e => Tab.set 0 t e.1 e.2) t) i = v := by
  induction l with
  | nil => intro t _ hm; simp at hm
  | cons e l ih =>
    intro t h hm
    rw [List.foldl_cons]
    by_cases hl : ∃ f ∈ l, f.1 = i
    · obtain ⟨f, hf, rfl⟩ := hl
      refine ih _ (fun g hg => h g (List.mem_cons_of_mem _ hg)) ?_
      rw [← h f (List.mem_cons_of_mem _ hf) rfl]; exact hf
    · rw [Tab.get_foldl_set_of_notMem l i _ fun f hf he => hl ⟨f, hf, he⟩]
      rcases List.mem_cons.1 hm with rfl | hm
      · exact Tab.get_set_self 0 t i v
      · exact absurd ⟨_, hm, rfl⟩ hl

theorem workFields_fst_lt (x : Launch) : ∀ (js : List Nat) (n : Nat), ∀ e ∈ workFields x js n, e.1 < 8
  | [], _, e, h => by simp [workFields] at h
  | j :: js, n, e, h => by
    rcases List.mem_cons.1 h with rfl | h
    · exact Nat.mod_lt _ (by decide)
    · exact workFields_fst_lt x js _ e h

/-- The entries that fill the registers of a strand that starts: those below g8, and those from there on. -/
def lowFirst (x : Launch) (y : Ctx) : List (Nat × Word) :=
  [(1, x.workId y.iter)] ++ (x.fields y.iter).map fun e => (2 + e.1, BitVec.ofNat 64 e.2)
def highFirst (x : Launch) (y : Ctx) : List (Nat × Word) := [(8, x.hdr), (9, x.va), (10, BitVec.ofNat 64 y.resume)]

theorem lowFirst_mem {x : Launch} {y : Ctx} {e : Nat × Word} : e ∈ lowFirst x y ↔
    e = (1, x.workId y.iter) ∨ ∃ f ∈ x.fields y.iter, (2 + f.1, BitVec.ofNat 64 f.2) = e := by simp [lowFirst]

theorem startStrand_g (x : Launch) (y : Ctx) (k : StrandIx) (pc ls le : Word) (lc : BitVec 32) : (startStrand x y x.hdr k pc ls le lc).g =
    (highFirst x y).foldl (fun t e => Tab.set 0 t e.1 e.2) ((lowFirst x y).foldl (fun t e => Tab.set 0 t e.1 e.2) []) := by
  rw [← List.foldl_append]; rfl

/-- A register below g8 reads what the low entries left. -/
theorem startStrand_rd_low (x : Launch) (y : Ctx) (k : StrandIx) (pc ls le : Word) (lc : BitVec 32) {r : Reg} (h0 : r ≠ 0) (h : r.toNat < 8) :
    (startStrand x y x.hdr k pc ls le lc).rd r = Tab.get 0 ((lowFirst x y).foldl (fun t e => Tab.set 0 t e.1 e.2) []) r.toNat := by
  rw [Strand.rd, if_neg h0, startStrand_g, Tab.get_foldl_set_of_notMem]
  intro e he
  simp only [highFirst, List.mem_cons, List.not_mem_nil, or_false] at he
  rcases he with rfl | rfl | rfl <;> (dsimp only; omega)

/-- A register that one of the high entries names reads its value. -/
theorem startStrand_rd_high (x : Launch) (y : Ctx) (k : StrandIx) (pc ls le : Word) (lc : BitVec 32) {r : Reg} (h0 : r ≠ 0) {v : Word}
    (h : (r.toNat, v) ∈ highFirst x y) : (startStrand x y x.hdr k pc ls le lc).rd r = v := by
  rw [Strand.rd, if_neg h0, startStrand_g]
  refine Tab.get_foldl_set_of_mem _ (fun e he hr => ?_) h
  have keys : ((highFirst x y).map Prod.fst).Nodup := show [8, 9, 10].Nodup by decide
  exact congrArg Prod.snd (List.inj_on_of_nodup_map keys he h hr)

theorem toNat_fieldReg {f : Nat} (h : f < 6) : (BitVec.ofNat 5 (2 + f)).toNat = 2 + f := by
  rw [BitVec.toNat_ofNat]; exact Nat.mod_eq_of_lt (by omega)

theorem fieldReg_ne_zero {f : Nat} (h : f < 6) : BitVec.ofNat 5 (2 + f) ≠ 0 := fun e => by
  have := congrArg BitVec.toNat e
  rw [toNat_fieldReg h] at this
  simp at this

/-- A strand that starts holds the values of R12. -/
theorem startStrand_firstValues (x : Launch) (y : Ctx) (k : StrandIx) (pc ls le : Word) (lc : BitVec 32) :
    FirstValues (startStrand x y x.hdr k pc ls le lc) k x y where
  work := by
    rw [startStrand_rd_low _ _ _ _ _ _ _ (by decide) (by decide)]
    refine Tab.get_foldl_set_of_mem _ (fun e he h1 => ?_) (lowFirst_mem.2 (.inl rfl))
    rcases lowFirst_mem.1 he with rfl | ⟨f, -, rfl⟩
    · rfl
    · dsimp only at h1; have : (1 : Reg).toNat = 1 := rfl; omega
  fields e he h6 hu := by
    rw [startStrand_rd_low _ _ _ _ _ _ _ (fieldReg_ne_zero h6) (by rw [toNat_fieldReg h6]; omega), toNat_fieldReg h6]
    refine Tab.get_foldl_set_of_mem _ (fun g hg h1 => ?_) (lowFirst_mem.2 (.inr ⟨e, he, rfl⟩))
    rcases lowFirst_mem.1 hg with rfl | ⟨f, hf, rfl⟩
    · dsimp only at h1; omega
    · dsimp only at h1 ⊢; rw [hu f hf (by omega)]
  blank f h6 hn := by
    rw [startStrand_rd_low _ _ _ _ _ _ _ (fieldReg_ne_zero h6) (by rw [toNat_fieldReg h6]; omega), toNat_fieldReg h6,
      Tab.get_foldl_set_of_notMem]
    · rfl
    intro g hg h1
    rcases lowFirst_mem.1 hg with rfl | ⟨e, he, rfl⟩
    · dsimp only at h1; omega
    · dsimp only at h1; exact hn e he (by omega)
  header := startStrand_rd_high _ _ _ _ _ _ _ (by decide) (by simp [highFirst])
  record := startStrand_rd_high _ _ _ _ _ _ _ (by decide) (by simp [highFirst])
  resume := startStrand_rd_high _ _ _ _ _ _ _ (by decide) (by simp [highFirst])
  rest r hr := by
    rcases hr with rfl | hr
    · exact Strand.rd_zero _
    · have h0 : r ≠ 0 := fun h => by subst h; simp at hr
      rw [Strand.rd, if_neg h0, startStrand_g, Tab.get_foldl_set_of_notMem, Tab.get_foldl_set_of_notMem]
      · rfl
      · intro g hg h1
        rcases lowFirst_mem.1 hg with rfl | ⟨f, hf, rfl⟩
        · dsimp only at h1; omega
        · have := workFields_fst_lt x _ _ f hf
          dsimp only at h1; omega
      · intro e he
        simp only [highFirst, List.mem_cons, List.not_mem_nil, or_false] at he
        rcases he with rfl | rfl | rfl <;> (dsimp only; omega)
  status := rfl
  seed := by cases k <;> rfl

/-! ### Strand control -/

theorem mem_maskOf (m : BitVec 3) (j : StrandIx) : j ∈ maskOf m ↔ InMask m j := by
  cases j <;> simp [maskOf, InMask, ixOf]

theorem goStrand_eq (m : BitVec 2) : goStrand m = StrandOf m := by revert m; decide
theorem goStrand_ne_s {m : BitVec 2} (h : m ≠ 0) : goStrand m ≠ .s := by revert m; decide

/-- R93: bits [63:57] equal to bit 56, and bits [1:0] zero. -/
theorem canonical_iff (x : Word) : canonical x = true ↔ ∀ b, 57 ≤ b → b < 64 → x.getLsbD b = x.getLsbD 56 := by
  have bit : ∀ b, 56 ≤ b → b < 64 → x.getLsbD b = (x.extractLsb' 56 8).getLsbD (b - 56) := fun b h1 h2 => by
    rw [BitVec.getLsbD_extractLsb', Nat.add_sub_of_le h1]; simp [show b - 56 < 8 by omega]
  have all : ∀ y : BitVec 8, (y == 0#8 || y == 255#8) = true ↔ ∀ b < 8, y.getLsbD b = y.getLsbD 0 := by decide
  rw [canonical, all]
  constructor
  · intro h b h1 h2; rw [bit b (by omega) h2, bit 56 (by omega) (by omega), h _ (by omega)]
  · intro h b hb
    rcases Nat.eq_zero_or_pos b with rfl | hp
    · rfl
    · have := h (56 + b) (by omega) (by omega)
      rwa [bit _ (by omega) (by omega), bit 56 (by omega) (by omega), Nat.add_sub_cancel_left] at this

theorem parcelAligned_iff (x : Word) : parcelAligned x = true ↔ x.extractLsb' 0 2 = 0 := beq_iff_eq

/-- What stgo leaves of the strands before it writes its register. -/
theorem stgoStart_str {s : State} {c : Nat} {j : StrandIx} {x : Word} :
    (stgoStart s c j x).str c j = { (if (s.str c j).started then { s.str c j with pc := x } else
      startStrand (s.launch (s.ctx c).launch) (s.ctx c) (s.launch (s.ctx c).launch).hdr j x 0 0 0) with
        running := false, starting := true, fwait := 0, waited := 0, twait := false, starved := false } ∧
    ∀ e, e ≠ j → (stgoStart s c j x).str c e = s.str c e := by
  rw [stgoStart]
  dsimp only
  refine ⟨?_, fun e he => ?_⟩
  · rw [State.str, (Quiet.trace _ c j 8 x 0).core.str, State.core_mapStr_self, Core.str_mapStr_self]
  · rw [State.str, (Quiet.trace _ c j 8 x 0).core.str, State.core_mapStr_self, Core.str_mapStr_ne _ _ he, State.str]

theorem stgoStart_frame (s : State) (c : Nat) (j : StrandIx) (x : Word) : (∀ e, e ≠ c → (stgoStart s c j x).core e = s.core e) ∧
    (stgoStart s c j x).mem = s.mem ∧ SamePackage s (stgoStart s c j x) ∧ ((stgoStart s c j x).core c).took = (s.core c).took ∧
    ((stgoStart s c j x).core c).nord = (s.core c).nord := by
  rw [stgoStart]
  generalize hf : (fun _ : Strand => _) = f
  have q := Quiet.trace (s.mapStr c j f) c j 8 x 0
  refine ⟨fun e he => ?_, ?_, (SamePackage.mapStr s c j f).trans q.pkg, ?_, ?_⟩
  · rw [q.cores e he, State.core_mapStr_ne s j f he]
  · rw [q.mem]; rfl
  · rw [q.core.took, State.core_mapStr_self, Core.mapStr_took]
  · rw [q.core.nord, State.core_mapStr_self, Core.mapStr_nord]

/-- What the checks before a word need to know of a word of S alone that no handler may issue. -/
theorem fits_ofS {s : State} {c : Nat} {k : StrandIx} {i : Instr} {y : Bool} {rs ds : List Reg} {ks : List StrandIx} (hd : (s.ctx c).depth = 0)
    (hk : ks = [.s]) (hi : ∀ p r, i ≠ .unassignedWord p r) (hs : k ∈ ks) :
    Fits { y := y, who := 1, nh := true, reads := rs, dst := ds } s c k i ⟨y, 0⟩ ks rs ds where
  assigned := hi
  y := rfl
  t := rfl
  who h := by rw [hk, List.mem_singleton] at h; subst h; show (1 : BitVec 4).getLsbD 0 = true; decide
  sys h := by rw [hk, List.mem_singleton] at hs; exact absurd hs h
  reads := rfl
  dst := rfl
  il h := by simp at h
  gm h := by simp at h
  recs h := by simp at h
  room := .inl ⟨rfl, rfl⟩
  nh _ := hd
  oh h := by simp at h
  feat e he := by simp at he
  late := rfl

/-- A stgo of S on a strand that is not running starts it and writes 1. -/
theorem stgo_falls {s : State} {c : Nat} {k : StrandIx} {y : Bool} {d a : Reg} {m : BitVec 2} (hd : (s.ctx c).depth = 0)
    (h : Ready s c k (.stgo y d a m) ⟨y, 0⟩ [.s] [a] [d]) (hjk : goStrand m ≠ k) (h1 : parcelAligned (s.rd c k a) = true)
    (h2 : canonical (s.rd c k a) = true) (hr : (s.str c (goStrand m)).running = false) : ∃ t, exec (.stgo y d a m) s = .next (endTurn t c) ∧
      Fell s ((stgoStart s c (goStrand m) (s.rd c k a)).put c k d 1) t c k (.stgo y d a m) ⟨y, 0⟩ ∧ t.mem = s.mem ∧
      (((stgoStart s c (goStrand m) (s.rd c k a)).put c k d 1).core c).took = (s.core c).took := by
  obtain ⟨-, gm, -, gt, gn⟩ := stgoStart_frame s c (goStrand m) (s.rd c k a)
  have gk : (stgoStart s c (goStrand m) (s.rd c k a)).str c k = s.str c k := stgoStart_str.2 k hjk.symm
  have pl : SamePlace s ((stgoStart s c (goStrand m) (s.rd c k a)).put c k d 1) c k := by
    have hic : ∀ t : Strand, (t.put d 1).ic = t.ic := fun t => by obtain ⟨g, fr, e⟩ := t.put_keeps d 1; rw [e]
    exact ⟨by rw [State.put, State.str_mapStr_self, hic, gk], by rw [State.put, State.core_mapStr_self, Core.mapStr_nord, gn]⟩
  obtain ⟨t, h3, h4, h5, -⟩ := h.falls (fits_ofS hd rfl (fun _ _ => Instr.noConfusion) h.strand) (by dsimp only; rw [h1, h2, hr]; rfl) rfl pl
  exact ⟨t, h3, h4, h5.trans gm, by rw [State.put, State.core_mapStr_self, Core.mapStr_took, gt]⟩

end Sys2Proof.Machine
end

section

open Sys2Proof Sys2Proof.Machine

/-- R152, R154: what a strand is in the clock cycle after it was started or stopped. -/
theorem Sys2Proof.Machine.Core.nextCycle_starts_and_exits (x : Core) (j : StrandIx) :
    ((x.str j).starting = true → (x.nextCycle.str j).running = true ∧ (x.nextCycle.str j).starting = false) ∧
    ((x.str j).running = true → (x.str j).stopping = true →
      (x.nextCycle.str j).running = true ∧ (x.nextCycle.str j).exiting = true ∧ (x.nextCycle.str j).pc = (x.str j).pc) := by
  have e : x.nextCycle.str j = (x.str j).nextCycle := by cases j <;> rfl
  rw [e]
  exact ⟨fun h => ⟨by simp [Strand.nextCycle, h], rfl⟩, fun h1 h2 => ⟨by simp [Strand.nextCycle, h1], by simp [Strand.nextCycle, h1, h2], rfl⟩⟩

/-- Settles O15: each word's own rule, read through `Ready.falls`; the first values by `startStrand_firstValues`. -/
theorem strandControlFollowsR152ToR154 : Obligations.StrandControlFollowsR152ToR154 := by
  refine ⟨Core.nextCycle_starts_and_exits, fun s c k y hd => ⟨fun d a m h => ?_, fun m => ⟨fun h hm => ?_, fun h hm => ?_, fun h => ?_⟩⟩⟩
  · have hks : k = .s := List.mem_singleton.1 h.strand
    have hf := fits_ofS (y := y) (rs := [a]) (ds := [d]) (i := .stgo y d a m) hd rfl (fun _ _ => Instr.noConfusion) h.strand
    have hm0 : m ≠ 0 := fun e => by have := h.formed; subst e; simp [fieldReason, reason56] at this
    have hjk : goStrand m ≠ k := hks ▸ goStrand_ne_s hm0
    rw [← goStrand_eq m]
    dsimp only
    refine ⟨fun hbad => ?_, fun h1 h2 => ⟨fun hr => ?_, fun hr => ?_⟩⟩
    · refine h.raises hf ?_ rfl
      have : (!parcelAligned (s.rd c k a) || !canonical (s.rd c k a)) = true := by
        rw [← parcelAligned_iff, ← canonical_iff, ← Bool.and_eq_true] at hbad
        rw [← Bool.not_and, Bool.not_eq_true', Bool.eq_false_iff]; exact hbad
      dsimp only; rw [if_pos this]
    · refine h.writesReg hf ?_ rfl
      dsimp only; rw [(parcelAligned_iff _).2 h1, (canonical_iff _).2 h2, hr]; rfl
    · obtain ⟨gc, -, gp, -, -⟩ := stgoStart_frame s c (goStrand m) (s.rd c k a)
      obtain ⟨gj, ge⟩ := stgoStart_str (s := s) (c := c) (j := goStrand m) (x := s.rd c k a)
      obtain ⟨t, h3, h4, h5, hw⟩ := stgo_falls hd h hjk ((parcelAligned_iff _).2 h1) ((canonical_iff _).2 h2) hr
      have gk := ge k hjk.symm
      have hstr : ∀ e, e ≠ k → t.str c e = (stgoStart s c (goStrand m) (s.rd c k a)).str c e := fun e he => by
        rw [h4.strands e he, State.put, State.str_mapStr_ne _ _ _ he]
      obtain ⟨hh, hkeep⟩ := h4.rd_put gk
      refine ⟨t, h3, hw ▸ h4.issued, h4.fallsThrough_put gk, hh, hkeep, ?_, ?_, ?_, fun hs => ?_, fun hs => ?_, fun e he hej => ?_, fun e he => ?_,
        h5, gp.trans ((SamePackage.mapStr _ c k _).trans h4.pkg)⟩
      · rw [hstr _ hjk, gj]; dsimp only; split <;> rfl
      · rw [hstr _ hjk, gj]
      · rw [hstr _ hjk, gj]
      · rw [hstr _ hjk, gj, if_pos hs]
      · rw [hstr _ hjk, gj, if_neg (by simp [hs])]
        have v := startStrand_firstValues (s.launch (s.ctx c).launch) (s.ctx c) (goStrand m) (s.rd c k a) 0 0 0
        exact ⟨rfl, rfl, rfl, rfl, rfl, rfl, ⟨v.work, v.fields, v.blank, v.header, v.record, v.resume, v.rest, v.status, v.seed⟩, rfl⟩
      · rw [hstr e he, ge e hej]
      · rw [h4.cores e he, State.put, State.core_mapStr_ne _ _ _ he, gc e he]
  · have hf := fits_ofS (y := y) (rs := []) (ds := []) (i := .stwait y m) hd rfl (fun _ _ => Instr.noConfusion) h.strand
    have hall : (maskOf m).all (fun k => !(s.str c k).running) = true := List.all_eq_true.2 fun j hj => by
      rw [hm j ((mem_maskOf m j).1 hj)]; rfl
    have r : LeavesCore (.stwait y m) ⟨y, 0⟩ s c k (s.core c) (s.ctx c) := h.leavesCore hf (if_pos hall) rfl (fun _ => rfl) rfl rfl
      (.refl _) (.refl _) (fun _ _ => rfl) (fun _ => rfl) (.refl s)
    obtain ⟨t, ht, -⟩ := id r
    exact ⟨⟨_, ht⟩, r⟩
  · have hf := fits_ofS (y := y) (rs := []) (ds := []) (i := .stwait y m) hd rfl (fun _ _ => Instr.noConfusion) h.strand
    obtain ⟨j, hj, hr⟩ := hm
    have hall : ¬ (maskOf m).all (fun k => !(s.str c k).running) = true := fun ha => by
      have := List.all_eq_true.1 ha j ((mem_maskOf m j).2 hj); simp [hr] at this
    rw [Waits]
    refine (h.meets hf).trans ?_
    rw [if_neg hall]
  · have hf := fits_ofS (y := y) (rs := []) (ds := []) (i := .ststop y m) hd rfl (fun _ _ => Instr.noConfusion) h.strand
    have hks : k = .s := List.mem_singleton.1 h.strand
    have hkm : k ∉ maskOf m := by rw [hks, mem_maskOf]; simp [InMask]
    obtain ⟨pl, tk⟩ := SamePlace.foldl_mapStr c k (fun t => { t with stopping := t.stopping || t.running }) (maskOf m) hkm s
    have on := OnCore.foldl (c := c) (fun s k => s.mapStr c k fun t => { t with stopping := t.stopping || t.running })
      (fun s k => .mapStr s c k _) (maskOf m) s
    have nd : (maskOf m).Nodup := List.Nodup.filter _ (by decide)
    have hs := fun j => State.str_foldl_mapStr c (fun t => { t with stopping := t.stopping || t.running }) j (maskOf m) s nd
    obtain ⟨t, h3, h4, h5, -⟩ := h.falls hf rfl rfl pl
    have hk := hs k
    rw [if_neg hkm] at hk
    refine ⟨t, h3, tk ▸ h4.issued, ?_, fun r _ => ?_, fun j hj => ?_, fun j hjk hj => ?_, fun e he => ?_, h5.trans on.mem,
      on.samePackage.trans h4.pkg⟩
    · have := h4.falls; rw [hk] at this; exact this
    · rw [h4.rd, State.rd, hk, State.rd]
    · have hjk : j ≠ k := fun e => hkm (e ▸ (mem_maskOf m j).2 hj)
      rw [h4.strands j hjk, hs, if_pos ((mem_maskOf m j).2 hj)]
    · rw [h4.strands j hjk, hs, if_neg (mt (mem_maskOf m j).1 hj)]
    · rw [h4.cores e he, on.cores e he]

end

section
/-!
SUPPORT. The vector words with one result for each element (spec/08 R168 to R179): their operands, samples, results and landing groups.
-/

namespace Sys2Proof.Machine

/-- The number of a list of bytes is the little-endian one. -/
theorem numberOf_eq_leNat : ∀ bs : List Byte, NumberOf bs = leNat bs
  | [] => rfl
  | b :: bs => congrArg (fun n => b.toNat + 256 * n) (numberOf_eq_leNat bs)

/-! ### The words -/

/-- The words of three source elements, and those of the longer latency. -/
def ThreeSources (i : Instr) (v : VWord) : Prop := i = .vfma v ∨ i = .vfms v ∨ i = .vsel v
def LongLatency (i : Instr) (v : VWord) : Prop := i = .vrecip v ∨ i = .vrsqrt v ∨ i = .vsqrt v ∨ i = .vexp2 v ∨ i = .vlog2 v ∨ i = .vdiv v

/-- What the proofs use of an element-wise word. -/
structure ElementFacts (i : Instr) (v : VWord) : Prop where
  exec   : ∀ s, exec i s = issueVec i v s
  kind   : vkind i = .one ∨ vkind i = .cvt ∨ vkind i = .two ∨ vkind i = .three
  three  : vkind i = .three ↔ ThreeSources i v
  long   : LongLatency i v → vlat i = 14
  short  : ¬ LongLatency i v → vlat i = 6
  free   : sysRestricted i = false
  assigned : ∀ p r, i ≠ .unassignedWord p r

theorem Elementwise.facts {i : Instr} {v : VWord} (h : Elementwise i v) : ElementFacts i v := by
  rcases h with rfl | rfl | rfl | rfl | rfl | rfl | rfl | rfl | rfl | rfl | rfl | rfl | rfl | rfl | rfl | rfl | rfl | rfl | rfl | rfl | rfl |
    rfl | rfl | rfl | rfl | rfl | rfl
  all_goals exact ⟨fun _ => rfl, by simp [vkind], by simp [vkind, ThreeSources], by simp [vlat, LongLatency], by simp [vlat, LongLatency], rfl,
    fun _ _ => Instr.noConfusion⟩

theorem ElementFacts.single {i : Instr} {v : VWord} (h : ElementFacts i v) : vsingle i = false := by
  rcases h.kind with e | e | e | e <;> simp [vsingle, e]

/-! ### Operands and samples -/

theorem countOf_eq (s : State) (c : Nat) (v : VWord) : vcount s c .c v = CountOf s c v := rfl
theorem modeOf_eq (s : State) (c : Nat) (v : VWord) : resolveRm v.rm (s.str c .c).sst = ModeOf s c v := rfl
theorem layoutOf_eq (s : State) (c : Nat) (i : Instr) (v : VWord) :
    vlay (vkind i) v (CountOf s c v) (vbaseVals i v s c .c).1 (vbaseVals i v s c .c).2.1 (vbaseVals i v s c .c).2.2 = LayoutOf s c i v := rfl

theorem VArr.get_eq_sampleOf (s : State) (c : Nat) (o : VArr) (j : Nat) : o.get (s.core c) j = SampleOf s c o j := by
  rw [SampleOf, numberOf_eq_leNat]; rfl

/-- A layout whose destination has the element size of the word, and a second source just in the words that read one. -/
structure VLay.Elements (l : VLay) (i : Instr) (v : VWord) (n : Nat) : Prop where
  count : ∀ o ∈ OperandsOf l, o.m = n
  size : l.d.z = etSize v.et.toNat
  one  : vkind i = .one ∨ vkind i = .cvt → l.b = none
  two  : vkind i = .two ∨ vkind i = .three → ∃ b, l.b = some b

theorem ElementFacts.layout {i : Instr} {v : VWord} (h : ElementFacts i v) (s : State) (c : Nat) : (LayoutOf s c i v).Elements i v (CountOf s c v) := by
  constructor <;> rcases h.kind with e | e | e | e <;> simp [LayoutOf, vlay, varr, OperandsOf, e]

/-- The granules never written that element `j` depends on. -/
def elemUnw (i : Instr) (l : VLay) (x : Core) (j : Nat) : List Nat :=
  (if vkind i = .three then l.d.unw x j else []) ++ l.a.unw x j ++ (match l.b with | some b => b.unw x j | none => [])

/-- Element `j` of the word on its samples. -/
def elemVal (i : Instr) (v : VWord) (l : VLay) (x : Core) (mode : Nat) (ftz : Bool) (rs : List Nat) (j : Nat) : Nat × Flags :=
  elemE i v.et.toNat (v.b.str.toNat % 16) mode (rs.getD j 0) ftz (l.a.get x j) (match l.b with | some b => b.get x j | none => 0)
    (if vkind i = .three then l.d.get x j else 0)

/-- The result for element `j`: one write of its bytes, in the group that it belongs to. -/
def elemRes (l : VLay) (gs : Nat) (val : Nat → Nat × Flags) (unw : Nat → List Nat) (j : Nat) : VRes :=
  ⟨j, j / gs, j / gs, [((l.d.at' j).toNat, leBytes l.d.z (val j).1)], (val j).2, unw j⟩

theorem ElementFacts.results {i : Instr} {v : VWord} (h : ElementFacts i v) {l : VLay} {n : Nat} (hl : l.Elements i v n) (x : Core) (mode : Nat) (ftz : Bool)
    (rs : List Nat) : vresults i v l x n mode ftz rs = (List.range n).map (elemRes l (vgroup (vkind i) v) (elemVal i v l x mode ftz rs) (elemUnw i l x)) := by
  unfold vresults
  rcases h.kind with e | e | e | e
  · have hb := hl.one (.inl e)
    simp [e, elemRes, elemVal, elemUnw, hb, hl.size]
  · have hb := hl.one (.inr e)
    simp [e, elemRes, elemVal, elemUnw, hb, hl.size]
  · obtain ⟨b, hb⟩ := hl.two (.inl e)
    simp [e, elemRes, elemVal, elemUnw, hb, hl.size]
  · obtain ⟨b, hb⟩ := hl.two (.inr e)
    simp [e, elemRes, elemVal, elemUnw, hb, hl.size]

/-! ### Landing groups -/

/-- Group `g` of a word that issues in cycle `ic`, none of whose results is cut at an unwritten granule. -/
def elemGroup (l : VLay) (n gs lat ic : Nat) (val : Nat → Nat × Flags) (cur g : Nat) : VGroup :=
  let js := (List.range n).filter (fun j => j / gs == g)
  ⟨if 40 < lat + g then 0 else ic + lat + g, js.map (fun j => ((l.d.at' j).toNat, leBytes l.d.z (val j).1)),
    js.foldl (fun f j => f ||| (val j).2) 0, none, cur⟩

/-- The first element behind group `g`. -/
def nextElem (n gs g : Nat) : Nat := ((List.range n).find? (fun j => decide (j / gs > g))).getD n

theorem nextElem_pos {n gs g : Nat} (hn : 0 < n) : 0 < nextElem n gs g := by
  unfold nextElem
  cases h : (List.range n).find? (fun j => decide (j / gs > g)) with
  | none => exact hn
  | some j =>
    have hj := List.find?_some h
    rcases Nat.eq_zero_or_pos j with rfl | hp
    · simp at hj
    · exact hp

theorem vlanding_of_elements {i : Instr} {v : VWord} {l : VLay} {n ic gs : Nat} {fault : Bool} {val : Nat → Nat × Flags} {unw : Nat → List Nat}
    (hs : vsingle i = false) (hlat : 1 ≤ vlat i) (hn : 0 < n) (hu : fault = true → ∀ j < n, unw j = []) :
    vlanding i v n ic 0 0 fault ((List.range n).map (elemRes l gs val unw)) =
      (List.range (vgroups (vkind i) v n)).map (fun g => elemGroup l n gs (vlat i) ic val (nextElem n gs g) g) := by
  have hcut : (if fault = true then ((List.range n).map (elemRes l gs val unw)).find? (fun r => decide (r.idx ≥ 0) && !r.unw.isEmpty) else none)
      = none := by
    split
    · rename_i hf
      rw [List.find?_eq_none]
      intro r hr
      obtain ⟨j, hj, rfl⟩ := List.mem_map.1 hr
      simp [elemRes, hu hf j (List.mem_range.1 hj)]
    · rfl
  have hgroup : ∀ g, (⟨if 40 < vlat i + g then 0 else max 1 (ic + (vlat i + g) - 0),
      (((List.range n).map (elemRes l gs val unw)).filter (fun r => r.grp == g && decide (r.idx ≥ 0) && true)).flatMap (·.writes),
      (((List.range n).map (elemRes l gs val unw)).filter (fun r => r.grp == g && decide (r.idx ≥ 0) && true)).foldl (fun f r => f ||| r.flags) 0,
      none, ((((List.range n).map (elemRes l gs val unw)).find? (fun r => decide (r.grp > g))).map (·.idx)).getD n⟩ : VGroup)
      = elemGroup l n gs (vlat i) ic val (nextElem n gs g) g := by
    intro g
    have e : ic + (vlat i + g) - 0 = ic + vlat i + g := by omega
    have e2 : max 1 (ic + vlat i + g) = ic + vlat i + g := by omega
    rw [e, e2, List.filter_map, List.flatMap_map, List.foldl_map, List.find?_map, Option.map_map]
    simp only [elemGroup, nextElem, Function.comp_def, elemRes, ge_iff_le, Nat.zero_le, decide_true, Bool.and_true, ← List.map_eq_flatMap,
      Option.map_id']
    rfl
  unfold vlanding
  dsimp only
  rw [hcut, hs]
  dsimp only
  simp only [hgroup]
  rw [if_neg (by decide), List.filter_eq_self.2 (fun _ _ => rfl), List.filter_eq_self.2]
  intro g hg
  obtain ⟨a, -, rfl⟩ := List.mem_map.1 hg
  simp [elemGroup, nextElem_pos hn]

/-! ### The checks of the operands, R169 -/

theorem VArr.check_of_misfit {o : VArr} {n j : Nat} (hj : j < o.m) (hb : ∀ h < j, o.Fits n h) (ho : ¬ o.Fits n j) :
    o.check n = some (0x06, Wrap64 (o.at' j)) := by
  have e : (List.range o.m).find? (fun j => o.at' j < 0 || o.at' j + o.z > n) = some j := by
    rw [List.find?_range_eq_some]
    refine ⟨?_, List.mem_range.2 hj, fun h hh => ?_⟩
    · simp only [Fits, not_and_or, not_le] at ho
      simpa using ho
    · have := hb h hh
      simp only [Fits] at this
      simpa using this
  rw [check, e]; rfl

theorem VArr.check_of_fits {o : VArr} {n : Nat} (h : ∀ j < o.m, o.Fits n j) :
    o.check n = if o.x0 % o.al ≠ 0 then some (0x07, BitVec.ofNat 64 o.x0) else none := by
  have e : (List.range o.m).find? (fun j => o.at' j < 0 || o.at' j + o.z > n) = none := by
    rw [List.find?_eq_none]
    intro j hj
    have := h j (List.mem_range.1 hj)
    simp only [Fits] at this
    simpa using this
  rw [check, e]

/-- The checks of a word are those of its operands in the order D, A, B. -/
theorem VLay.check_eq (l : VLay) (n : Nat) : l.check n = (OperandsOf l).findSome? (fun o => o.check n) := by
  rw [check, OperandsOf, List.findSome?_append]
  cases hb : l.b <;> cases hd : l.d.check n <;> cases ha : l.a.check n <;> simp [hd, ha, List.findSome?]

theorem VLay.check_of_fits {l : VLay} {n : Nat} (h : ∀ o ∈ OperandsOf l, (∀ j < o.m, o.Fits n j) ∧ o.x0 % o.al = 0) : l.check n = none := by
  rw [check_eq, List.findSome?_eq_none_iff]
  intro o ho
  obtain ⟨h1, h2⟩ := h o ho
  rw [VArr.check_of_fits h1, h2]; rfl

/-- The first operand that does not pass decides. -/
theorem VLay.check_of_first {l : VLay} {n : Nat} {p q : List VArr} {o : VArr} {e : Nat × Word} (hl : OperandsOf l = p ++ o :: q)
    (hp : ∀ e ∈ p, (∀ j < e.m, e.Fits n j) ∧ e.x0 % e.al = 0) (ho : o.check n = some e) : l.check n = some e := by
  have hn : p.findSome? (fun o => o.check n) = none := by
    rw [List.findSome?_eq_none_iff]
    intro o ho
    obtain ⟨h1, h2⟩ := hp o ho
    rw [VArr.check_of_fits h1, h2]; rfl
  rw [check_eq, hl, List.findSome?_append, hn, List.findSome?_cons_of_isSome (by rw [ho]; rfl), ho]; rfl

/-! ### The rule of a ready vector word -/

section
variable {s : State} {c : Nat} {i : Instr} {v : VWord}

theorem ElementFacts.fits (h : ElementFacts i v) (r : VectorReady s c i v) : Fits (vecInfo i v) s c .c i v.n [.c]
    (vbases i v ++ if v.vlg then [v.vlen.extractLsb' 0 5] else []) [] where
  assigned := h.assigned
  y := rfl
  t := rfl
  who _ := by show (4 : BitVec 4).getLsbD 2 = true; decide
  sys _ := h.free
  reads := rfl
  dst := rfl
  il hx := by simp [vecInfo] at hx
  gm hx := by simp [vecInfo] at hx
  recs _ := r.room
  room := .inl ⟨rfl, rfl⟩
  nh hx := by simp [vecInfo] at hx
  oh hx := by simp [vecInfo] at hx
  feat := r.features
  late := by
    have hp : (vkind i == .pack || vkind i == .unpack) = false := by rcases h.kind with e | e | e | e <;> simp [e]
    have hb : ¬ (vcount s c .c v > 1024) := Nat.not_lt.2 r.bound
    show vecLate i v s c .c = none
    rw [vecLate]
    split
    · rfl
    · dsimp only; rw [hp]; simp [hb]

theorem VArr.held_eq_false (r : VectorReady s c i v) (o : VArr) (w : Bool) : o.held (s.core c) w = false := by
  rw [VArr.held, r.groups, r.matrix]; rfl

theorem VLay.held_eq_false (r : VectorReady s c i v) (l : VLay) (k : VKind) : l.held (s.core c) k = false := by
  rw [VLay.held, VArr.held_eq_false r, VArr.held_eq_false r]
  cases l.b with
  | none => rfl
  | some b => exact VArr.held_eq_false r b _

/-- The operation that the word puts in flight, and the state after its warnings. -/
def vecStart (s : State) (c : Nat) (i : Instr) (v : VWord) : State × Op :=
  let b := vbaseVals i v s c .c
  vecOp i v c (CountOf s c v) (ModeOf s c v) (s.core c).nord ((s.str c .c).ic + 1) (s.str c .c).ic 0 0 (s.str c .c).sgn b.1 b.2.1 b.2.2 s

def Core.staged (x : Core) (n : Nat) : Core := { x with vstage := n }
def Strand.drew (t : Strand) (n : Nat) : Strand := { t with sgn := (stoDraw t.sgn n).1 }

/-- The state that the word's rule leaves. -/
def vecLeft (s : State) (c : Nat) (i : Instr) (v : VWord) : State :=
  let r := vecStart s c i v
  ((r.1.addOp c r.2).mapCore c (fun x => x.staged (s.clock + vstageCycles i v (CountOf s c v)))).mapStr c .c
    (fun t => t.drew (vsteps i v (CountOf s c v) (ModeOf s c v)))

/-- The rule of a vector word of C in the terms of the statements. -/
theorem vecBody_eq (s : State) (c : Nat) (i : Instr) (v : VWord) : vecBody i v c .c s =
    if CountOf s c v = 0 then .go s .fall else
    if ((vsteps i v (CountOf s c v) (ModeOf s c v) ≠ 0 && (s.core c).drawing) || (LayoutOf s c i v).held (s.core c) (vkind i)) = true then .wait s else
    match (LayoutOf s c i v).check (s.ctx c).scrsize with
    | some (code, a) => .fault s code a
    | none => if s.clock < (s.core c).vstage then .wait s else .go (vecLeft s c i v) .fall := rfl

theorem vecBody_of_zero (hn : CountOf s c v = 0) : vecBody i v c .c s = .go s .fall := by rw [vecBody_eq, if_pos hn]

/-- A ready word with elements does what its checks say. -/
theorem vecBody_of_ready (r : VectorReady s c i v) (hn : 0 < CountOf s c v) : vecBody i v c .c s =
    match (LayoutOf s c i v).check (s.ctx c).scrsize with
    | some (code, a) => .fault s code a
    | none => .go (vecLeft s c i v) .fall := by
  rw [vecBody_eq, if_neg (by omega), VLay.held_eq_false r, r.draws, Bool.and_false, Bool.or_false, if_neg Bool.false_ne_true,
    if_neg (Nat.not_lt.2 r.stage)]

theorem Looked.post (s : State) (d f0 vf f3 f4 f5 : Nat) : Looked s (s.post d f0 vf f3 f4 f5) :=
  .mapDie s d (fun x => { x with newtNow := insEvent _ x.newtNow }) fun _ => ⟨rfl, rfl⟩

theorem Looked.warn (s : State) (c : Nat) (k : StrandIx) (gs : List Nat) : Looked s (s.warn c k gs) :=
  .foldl (fun s g => s.postCore c k 9 (16 * g) 0 0) (fun s _ => .post s ..) gs s

theorem vecStart_looked (s : State) (c : Nat) (i : Instr) (v : VWord) : Looked s (vecStart s c i v).1 := by
  rw [vecStart, vecOp]
  dsimp only
  split
  · exact .warn s c _ _
  · exact .refl s

theorem vecLeft_core (s : State) (c : Nat) (i : Instr) (v : VWord) : (vecLeft s c i v).core c =
    (({ s.core c with ops := (s.core c).ops ++ [(vecStart s c i v).2] } : Core).staged (s.clock + vstageCycles i v (CountOf s c v))).mapStr .c
      (fun t => t.drew (vsteps i v (CountOf s c v) (ModeOf s c v))) := by
  rw [vecLeft, State.core_mapStr_self, State.core_mapCore_self, State.core_addOp_self, (vecStart_looked s c i v).core]

theorem vecLeft_str (s : State) (c : Nat) (i : Instr) (v : VWord) : (vecLeft s c i v).str c .c =
    (s.str c .c).drew (vsteps i v (CountOf s c v) (ModeOf s c v)) := by rw [State.str, vecLeft_core, Core.str_mapStr_self]; rfl

theorem vecLeft_str_ne (s : State) (c : Nat) (i : Instr) (v : VWord) {j : StrandIx} (h : j ≠ .c) : (vecLeft s c i v).str c j = s.str c j := by
  rw [State.str, vecLeft_core, Core.str_mapStr_ne _ _ h]; cases j <;> rfl

theorem vecLeft_core_ne (s : State) {c e : Nat} (i : Instr) (v : VWord) (h : e ≠ c) : (vecLeft s c i v).core e = s.core e := by
  rw [vecLeft, State.core_mapStr_ne _ _ _ h, State.core_mapCore_ne _ _ h, State.core_addOp_ne _ _ h, (vecStart_looked s c i v).core]

/-- End tests look at no generator. -/
theorem Strand.endTests_drew (t : Strand) (n : Nat) (x : Word) : (t.drew n).endTests x = ({ (t.endTests x).1 with sgn := (t.drew n).sgn }, (t.endTests x).2) := by
  unfold Strand.endTests Strand.drew
  dsimp only
  repeat' split
  all_goals rfl

/-- A ready word whose operands pass their checks issues, with the operation of `vecStart` in flight. -/
theorem ElementFacts.starts (h : ElementFacts i v) (r : VectorReady s c i v) (hn : 0 < CountOf s c v)
    (hc : (LayoutOf s c i v).check (s.ctx c).scrsize = none) {p : Op → Prop} (hp : p (vecStart s c i v).2) : VectorStarts i v s c p := by
  have hb : vecBody i v c .c s = .go (vecLeft s c i v) .fall := by rw [vecBody_of_ready r hn, hc]
  have hk := vecLeft_str s c i v
  have hx := vecLeft_core s c i v
  have pl : SamePlace s (vecLeft s c i v) c .c := ⟨by rw [hk]; rfl, by rw [hx, Core.mapStr_nord]; rfl⟩
  obtain ⟨t, h1, h2, h3, h4⟩ := r.ready.falls (h.fits r) hb (h.exec s) pl
  have htook : ((vecLeft s c i v).core c).took = (s.core c).took := by rw [hx, Core.mapStr_took]; rfl
  refine ⟨t, (vecStart s c i v).2, h1, htook ▸ h2.issued, ?_, fun q _ => ?_, ?_, rfl, rfl, rfl, rfl, rfl, rfl, ?_, ?_, ?_, ?_, fun j hj => ?_,
    fun e he => ?_, hp⟩
  · have := h2.falls
    rw [hk, ContinuesAt, Strand.endTests_drew] at this
    exact this
  · rw [h2.rd, State.rd, hk]; rfl
  · rw [h2.units.flight, hx, Core.mapStr_ops]; rfl
  · rw [h2.strand.sst, hk]; rfl
  · rw [h2.strand.sgn, hk]; rfl
  · rw [h4, hx, Core.mapStr_scr]; rfl
  · rw [h3]; exact (vecStart_looked s c i v).mem
  · rw [h2.strands j hj, vecLeft_str_ne s c i v hj]
  · rw [h2.cores e he, vecLeft_core_ne s i v he]

/-- In fault mode no element of fitting operands depends on a granule that was never written. -/
theorem ElementFacts.unwritten_eq_nil (h : ElementFacts i v) (hf : OperandsFit s c i v) (hm : (s.ctx c).scrmode = 2) {j : Nat}
    (hj : j < CountOf s c v) : elemUnw i (LayoutOf s c i v) (s.core c) j = [] := by
  have hl := h.layout s c
  have hw := hf.2 hm
  have ha := hw (LayoutOf s c i v).a (by simp) j (by rw [hl.count _ (by simp [OperandsOf])]; exact hj)
  have hb : (match (LayoutOf s c i v).b with | some b => b.unw (s.core c) j | none => []) = [] := by
    cases e : (LayoutOf s c i v).b with
    | none => rfl
    | some b => exact hw b (by simp [e]) j (by rw [hl.count _ (by simp [OperandsOf, e])]; exact hj)
  have hd : (if vkind i = .three then (LayoutOf s c i v).d.unw (s.core c) j else []) = [] := by
    split
    · rename_i e
      exact hw (LayoutOf s c i v).d (by simp [e]) j (by rw [hl.count _ (by simp [OperandsOf])]; exact hj)
    · rfl
  rw [elemUnw, hd, hb, List.nil_append, List.append_nil]
  exact ha

/-- The operation in flight lands the elements that it has sampled at its issue. -/
theorem ElementFacts.lands (h : ElementFacts i v) (hn : 0 < CountOf s c v) (hf : OperandsFit s c i v) :
    LandsElements s c i v (vlat i) (elemVal i v (LayoutOf s c i v) (s.core c) (ModeOf s c v) (sstFtz (s.str c .c).sst) (DrawsOf s c i v).2)
      (vecStart s c i v).2 := by
  have hlat : 1 ≤ vlat i := by
    by_cases hl : LongLatency i v
    · rw [h.long hl]; decide
    · rw [h.short hl]; decide
  have hunw : decide ((s.ctx c).scrmode = 2) = true → ∀ j < CountOf s c v, elemUnw i (LayoutOf s c i v) (s.core c) j = [] := fun hm j hj =>
    h.unwritten_eq_nil hf (of_decide_eq_true hm) hj
  have hbody : (vecStart s c i v).2.body = .vec ((List.range (vgroups (vkind i) v (CountOf s c v))).map fun g =>
      elemGroup (LayoutOf s c i v) (CountOf s c v) (vgroup (vkind i) v) (vlat i) (s.str c .c).ic
        (elemVal i v (LayoutOf s c i v) (s.core c) (ModeOf s c v) (sstFtz (s.str c .c).sst) (DrawsOf s c i v).2)
        (nextElem (CountOf s c v) (vgroup (vkind i) v) g) g) := by
    rw [← vlanding_of_elements h.single hlat hn hunw, ← h.results (h.layout s c)]
    rfl
  refine ⟨_, hbody, by rw [List.length_map, List.length_range]; rfl, fun g q hq => ?_⟩
  rw [List.getElem?_map, Option.map_eq_some_iff] at hq
  obtain ⟨a, ha, rfl⟩ := hq
  obtain ⟨hg, rfl⟩ := List.getElem?_eq_some_iff.1 ha
  rw [List.getElem_range]
  exact ⟨rfl, rfl, rfl, rfl⟩

/-- The elements in the terms of the statement. -/
theorem ElementFacts.elemVal_eq (h : ElementFacts i v) (j : Nat) :
    elemVal i v (LayoutOf s c i v) (s.core c) (ModeOf s c v) (sstFtz (s.str c .c).sst) (DrawsOf s c i v).2 j =
      elemE i v.et.toNat (v.b.str.toNat % 16) (ModeOf s c v) ((DrawsOf s c i v).2.getD j 0) ((s.str c .c).sst.getLsbD 3)
        (SampleOf s c (LayoutOf s c i v).a j) (match (LayoutOf s c i v).b with | some b => SampleOf s c b j | none => 0)
        (if i = .vfma v ∨ i = .vfms v ∨ i = .vsel v then SampleOf s c (LayoutOf s c i v).d j else 0) := by
  have hd : (if vkind i = .three then (LayoutOf s c i v).d.get (s.core c) j else 0) =
      if i = .vfma v ∨ i = .vfms v ∨ i = .vsel v then SampleOf s c (LayoutOf s c i v).d j else 0 := by
    rw [VArr.get_eq_sampleOf]; exact if_congr h.three rfl rfl
  have hb : (match (LayoutOf s c i v).b with | some b => b.get (s.core c) j | none => 0) =
      match (LayoutOf s c i v).b with | some b => SampleOf s c b j | none => 0 := by
    cases (LayoutOf s c i v).b with
    | none => rfl
    | some b => exact VArr.get_eq_sampleOf s c b j
  rw [elemVal, VArr.get_eq_sampleOf, hb, hd]
  rfl

theorem ElementFacts.vlat_eq (h : ElementFacts i v) :
    (if i = .vrecip v ∨ i = .vrsqrt v ∨ i = .vsqrt v ∨ i = .vexp2 v ∨ i = .vlog2 v ∨ i = .vdiv v then 14 else 6) = vlat i := by
  split
  · exact (h.long ‹_›).symm
  · exact (h.short ‹_›).symm

theorem ElementFacts.raises (h : ElementFacts i v) (r : VectorReady s c i v) (hn : 0 < CountOf s c v) {code : Nat} {a : Word}
    (hc : (LayoutOf s c i v).check (s.ctx c).scrsize = some (code, a)) : Raises i s c .c code a :=
  r.ready.raises (h.fits r) (by rw [vecBody_of_ready r hn, hc]) (h.exec s)

end

end Sys2Proof.Machine
end

section

open Sys2Proof Sys2Proof.Machine

/-- Settles O29: `ElementFacts.starts` issues the word, `ElementFacts.lands` gives its groups, and `VLay.check_of_first` the first operand that
does not pass. -/
theorem elementwiseVectorWordsLandTheirElements : Obligations.ElementwiseVectorWordsLandTheirElements := by
  intro s c i v he r
  have h := he.facts
  refine ⟨fun hn => ?_, fun hn hf => ?_, fun hn p o q hl hp => ⟨fun j hj hb ho => ?_, fun ha ho => ?_⟩⟩
  · exact r.ready.leavesCore (h.fits r) (vecBody_of_zero hn) (h.exec s) (fun _ => rfl) rfl rfl (.refl _) (.refl _) (fun _ _ => rfl) (fun _ => rfl)
      (.refl s)
  · refine h.starts r hn (VLay.check_of_fits hf.1) ?_
    have hv := funext (h.elemVal_eq (s := s) (c := c))
    have hg := h.lands hn hf
    rw [hv] at hg
    rw [h.vlat_eq]
    exact hg
  · exact h.raises r hn (VLay.check_of_first hl hp (VArr.check_of_misfit hj hb ho))
  · exact h.raises r hn (VLay.check_of_first hl hp (by rw [VArr.check_of_fits ha, if_pos ho]))

end

section
/-!
SUPPORT. The turn of an event, and a request for a set that the asking task is itself publishing (spec/14 R287).
-/

namespace Sys2Proof.Machine

/-! ### The turn of an event -/

theorem popEvent_of_turns {s : State} {i : Instr} {rest : List Turn} (h : Turns s i rest) : s.popEvent = Passed s rest := by
  obtain ⟨c, k, j, h⟩ := h
  rw [State.popEvent, h]
  simp only [State.pop, h, List.tail_cons]
  rfl

theorem event_of_turns {s : State} {i : Instr} {rest : List Turn} (f : State → State) (h : Turns s i rest) : event f s = .next (f (Passed s rest)) := by
  rw [event, popEvent_of_turns h]

theorem turnEvent_of_turns {s : State} {i : Instr} {rest : List Turn} {c j : Nat} {k : StrandIx} (f : Nat → StrandIx → Nat → State → State)
    (h : CoreTurns s c k j i rest) : turnEvent f s = .next (f c k j (Passed s rest)) := by
  rw [turnEvent, show s.agenda = _ from h]
  simp only [State.pop, show s.agenda = _ from h, List.tail_cons]
  rfl

theorem Core.alive_iff (x : Core) : x.alive = true ↔ Alive x := by
  rw [Core.alive, Alive]
  simp only [Bool.and_eq_true, Option.isSome_iff_ne_none, Bool.not_eq_true', Option.isNone_iff_eq_none, List.isEmpty_iff, and_assoc]

/-- An event that changes its core alone. -/
theorem unitEvent_of_mapCore {s : State} {i : Instr} {rest : List Turn} {c : Nat} {f : Core → Core}
    (h : exec i s = .next ((Passed s rest).mapCore c f)) : UnitEvent i s c rest (f (s.core c)) :=
  ⟨_, h, (Passed s rest).core_mapCore_self c f, fun _ he => (Passed s rest).core_mapCore_ne f he⟩

/-! ### A request of the task that publishes the set -/

theorem requestSet_of_own_publishing {s : State} {c vf ix : Nat} {e : SetEnt} (h : s.setEnt vf ix = some e) (hs : e.st = .publishing)
    (ht : e.holder = (s.ctx c).task) : s.requestSet c vf ix = (s, true) := by
  simp only [State.requestSet, h, hs, ht, if_pos]

/-- A request of the task that publishes the set is granted at once, and the turn changes nothing. -/
theorem setRequest_idles_of_own_publishing {s : State} {rest : List Turn} {c ix : Nat} {va : Word} {e0 e : SetEnt}
    (h : Turns s (.setRequest c va) rest) (ha : Alive (s.core c)) (ho : s.setOf (s.ctx c).vf (va &&& ~~~15) = some (ix, e0))
    (he : s.setEnt (s.ctx c).vf ix = some e) (hs : e.st = .publishing) (ht : e.holder = (s.ctx c).task) : Idles (.setRequest c va) s rest := by
  rw [Idles, show exec (.setRequest c va) s = execSetRequest c va s from rfl, execSetRequest, event_of_turns _ h]
  have hc : (Passed s rest).ctx c = s.ctx c := rfl
  have hf : (Passed s rest).setOf (s.ctx c).vf (va &&& ~~~15#64) = some (ix, e0) := ho
  have hr : (Passed s rest).requestSet c (s.ctx c).vf ix = (Passed s rest, true) := requestSet_of_own_publishing he hs ht
  simp only [show ((Passed s rest).core c).alive = true from (Core.alive_iff _).mpr ha, hc, hf, hr, Bool.not_true, Bool.false_eq_true, if_false]

end Sys2Proof.Machine
end

section
open Sys2Proof Sys2Proof.Machine

/-- Refutes O53: its last clause on set requests says that a set which is PUBLISHING gets the asking task as a waiter, whoever holds it. Where the
asking task is the one that publishes, the request is granted and the set stays as it is (R287). The state has core 0 run task 1, which
publishes the set at address 0 and asks for it. -/
theorem not_setsAndArbiterFollowR285ToR287AndR336 : ¬ Obligations.SetsAndArbiterFollowR285ToR287AndR336 := by
  unfold Obligations.SetsAndArbiterFollowR285ToR287AndR336
  intro h
  let e : SetEnt := { id := 0, base := 0, home := 0, len := 16, st := .publishing, holder := 1 }
  let s : State := { State.reset with
    agenda := [.event 0 .s 0 (.setRequest 0 0)]
    cores := [(0, { ctx := some { task := 1 } })]
    vfs := [(0, { sets := [(0, some e)] })] }
  have ht : Turns s (.setRequest 0 0) [] := ⟨0, .s, 0, rfl⟩
  have ha : Alive (s.core 0) := (Core.alive_iff _).mp (by decide)
  have ho : s.setOf (s.ctx 0).vf (0 &&& ~~~15) = some (0, e) := by decide
  have he : s.setEnt (s.ctx 0).vf 0 = some e := by decide
  have idle : exec (.setRequest 0 0) s = .next (Passed s []) := setRequest_idles_of_own_publishing ht ha ho he rfl rfl
  obtain ⟨-, -, -, -, -, waits⟩ := (h.1 s [] 0 0 ht).2 ha 0 e e ho he
  obtain ⟨vs, next, joined, -⟩ := waits (Or.inr rfl)
  have same : s.vfs = vs := congrArg State.vfs (Host.Outcome.next.inj (idle.symm.trans next))
  subst same
  exact absurd (congrArg Vf.sets joined) (by decide)

end

section
/-!
SUPPORT. What the work of home ports, of the actions of task records, of the device's own writes and of a core's drain keeps: the agenda, what a
context is but for its reports and what it holds for others, what a launch is made of, the number of the contexts that wait at a queue, and
what has gone to the host. Nothing of it arms a watchpoint or opens a collective.
-/

namespace Sys2Proof.Machine

/-! ### The relation -/

/-- A context without its watchpoint reports and settings and without the records it holds for its sources. -/
def Ctx.bare (y : Ctx) : Ctx := { y with reports := [], wpc := [], kept := [], evwait := [] }

/-- What two contexts share that are the same without those. -/
theorem Ctx.same_of_bare {y z : Ctx} (h : y.bare = z.bare) :
    y.task = z.task ∧ y.stamp = z.stamp ∧ y.tvec = z.tvec ∧ y.tcause = z.tcause ∧ y.tval = z.tval :=
  have get {α : Type} (f : Ctx → α) : f y.bare = f z.bare := congrArg f h
  ⟨get Ctx.task, get Ctx.stamp, get Ctx.tvec, get Ctx.tcause, get Ctx.tval⟩

/-- A launch without what its progress changes. -/
def Launch.bare (x : Launch) : Launch := { x with ready := false, ended := false, ranges := [], held := [] }

theorem Launch.same_of_bare {x y : Launch} (h : x.bare = y.bare) : x.body = y.body ∧ x.trip = y.trip :=
  have get {α : Type} (f : Launch → α) : f x.bare = f y.bare := congrArg f h
  ⟨get Launch.body, get Launch.trip⟩

/-- Two states between which tasks, launches and queues stand as they were. -/
structure Keeps (s t : State) : Prop where
  agenda   : t.agenda = s.agenda
  contexts : ∀ c, (t.core c).ctx.map Ctx.bare = (s.core c).ctx.map Ctx.bare
  numbers  : s.nlaunch ≤ t.nlaunch
  launches : ∀ n < s.nlaunch, (t.launch n).bare = (s.launch n).bare
  queues   : ∀ d q, (t.queue d q).resum.length = (s.queue d q).resum.length
  sent     : s.outbox <+: t.outbox
  armed    : t.armed ⊆ s.armed
  colls    : t.colls ⊆ s.colls

theorem Keeps.refl (s : State) : Keeps s s :=
  ⟨rfl, fun _ => rfl, Nat.le_refl _, fun _ _ => rfl, fun _ _ => rfl, ⟨[], List.append_nil _⟩, fun _ h => h, fun _ h => h⟩

theorem Keeps.trans {s t u : State} (a : Keeps s t) (b : Keeps t u) : Keeps s u :=
  ⟨b.agenda.trans a.agenda, fun c => (b.contexts c).trans (a.contexts c), a.numbers.trans b.numbers,
   fun n h => (b.launches n (Nat.lt_of_lt_of_le h a.numbers)).trans (a.launches n h), fun d q => (b.queues d q).trans (a.queues d q),
   a.sent.trans b.sent, fun _ h => a.armed (b.armed h), fun _ h => a.colls (b.colls h)⟩

/-- The state of an answer that keeps. -/
theorem Keeps.answer {α : Type} {s t : State} {p : State × α} {a : α} (h : Keeps s p.1) (e : p = (t, a)) : Keeps s t := by rw [e] at h; exact h

/-- A change that is made or not. -/
theorem Keeps.ite {p : Prop} [Decidable p] {s t u : State} (h : Keeps s u) (g : Keeps u t) : Keeps s (if p then t else u) := by
  split
  · exact h.trans g
  · exact h

/-- A context that is kept is there, and is the same beside what it may change. -/
theorem Keeps.ctx_some {s t : State} (h : Keeps s t) {c : Nat} {y : Ctx} (hy : (s.core c).ctx = some y) :
    ∃ z, (t.core c).ctx = some z ∧ z.bare = y.bare := by
  have e := h.contexts c
  rw [hy] at e
  cases hz : (t.core c).ctx with
  | none => rw [hz] at e; cases e
  | some z => rw [hz] at e; exact ⟨z, rfl, Option.some.inj e⟩

theorem Keeps.ctx_none {s t : State} (h : Keeps s t) {c : Nat} (hy : (s.core c).ctx = none) : (t.core c).ctx = none := by
  have e := h.contexts c
  rw [hy] at e
  exact Option.map_eq_none_iff.mp e

theorem Keeps.ctx_bare {s t : State} (h : Keeps s t) (c : Nat) : (t.ctx c).bare = (s.ctx c).bare := by
  cases hy : (s.core c).ctx with
  | none => rw [State.ctx, State.ctx, h.ctx_none hy, hy]
  | some y =>
    obtain ⟨z, hz, e⟩ := h.ctx_some hy
    rw [State.ctx, State.ctx, hz, hy]
    exact e

/-- A run of changes that each are kept is one. -/
theorem Keeps.foldl {α : Type} (f : State → α → State) (h : ∀ s a, Keeps s (f s a)) : ∀ (l : List α) (s : State), Keeps s (l.foldl f s)
  | [], s => .refl s
  | a :: l, s => (h s a).trans (Keeps.foldl f h l (f s a))

/-- A look-up is kept. -/
theorem Looked.keeps {s t : State} (h : Looked s t) : Keeps s t := by
  refine ⟨h.agenda, fun c => by rw [h.core], ?_, fun n _ => by rw [h.launch], fun d q => by rw [h.queue], h.sent, ?_, ?_⟩
  · rw [h.rest]
  · rw [h.rest]; exact fun _ h => h
  · rw [h.rest]; exact fun _ h => h

/-! ### Single changes -/

/-- A change of none of the tables that the relation speaks of, but for what leaves for the host and for watchpoints and collectives that go. -/
theorem Keeps.elsewhere {s t : State} (ha : t.agenda = s.agenda) (hc : t.cores = s.cores) (hl : t.launches = s.launches) (hn : t.nlaunch = s.nlaunch)
    (hd : t.dies = s.dies) (ho : s.outbox <+: t.outbox := by exact ⟨[], List.append_nil _⟩) (hw : t.armed ⊆ s.armed := by exact fun _ h => h)
    (hx : t.colls ⊆ s.colls := by exact fun _ h => h) : Keeps s t := by
  refine ⟨ha, fun c => ?_, hn.ge, fun n _ => ?_, fun d q => ?_, ho, hw, hx⟩
  · rw [State.core, hc]; rfl
  · rw [State.launch, hl]; rfl
  · rw [State.queue, State.die, hd]; rfl

theorem Keeps.mapCore (s : State) (c : Nat) (f : Core → Core)
    (h : ∀ x, (f x).ctx.map Ctx.bare = x.ctx.map Ctx.bare := by exact fun _ => rfl) : Keeps s (s.mapCore c f) := by
  refine ⟨rfl, fun d => ?_, Nat.le_refl _, fun _ _ => rfl, fun _ _ => rfl, ⟨[], List.append_nil _⟩, fun _ h => h, fun _ h => h⟩
  by_cases hd : d = c
  · subst hd; rw [State.core_mapCore_self, h]
  · rw [State.core_mapCore_ne s f hd]

theorem Keeps.mapCtx (s : State) (c : Nat) (f : Ctx → Ctx) (h : ∀ y, (f y).bare = y.bare := by exact fun _ => rfl) : Keeps s (s.mapCtx c f) :=
  .mapCore s c _ fun x => by cases x.ctx <;> simp [h]

theorem Keeps.mapStr (s : State) (c : Nat) (k : StrandIx) (f : Strand → Strand) : Keeps s (s.mapStr c k f) :=
  .mapCore s c _ fun x => by rw [Core.mapStr, Core.setStr_ctx]

theorem State.queue_mapQueue_ne (s : State) {d q e p : Nat} (f : Queue → Queue) (h : e ≠ d ∨ p ≠ q) : (s.mapQueue d q f).queue e p = s.queue e p := by
  rw [State.queue, State.mapQueue]
  by_cases he : e = d
  · subst he
    rw [State.die_mapDie_self, Tab.get_set_ne _ _ _ (h.resolve_left (· rfl))]
    rfl
  · rw [State.die_mapDie_ne s _ he]
    rfl

theorem State.launch_mapLaunch_ne (s : State) {n m : Nat} (f : Launch → Launch) (h : m ≠ n) : (s.mapLaunch n f).launch m = s.launch m :=
  Tab.get_set_ne _ _ _ h

theorem Keeps.mapQueue (s : State) (d q : Nat) (f : Queue → Queue) (h : ∀ y, (f y).resum.length = y.resum.length := by exact fun _ => rfl) : Keeps s (s.mapQueue d q f) := by
  refine ⟨rfl, fun _ => rfl, Nat.le_refl _, fun _ _ => rfl, fun e p => ?_, ⟨[], List.append_nil _⟩, fun _ h => h, fun _ h => h⟩
  by_cases he : e = d ∧ p = q
  · obtain ⟨rfl, rfl⟩ := he; rw [State.queue_mapQueue_self, h]
  · rw [State.queue_mapQueue_ne s f (not_and_or.mp he)]

theorem Keeps.mapLaunch (s : State) (n : Nat) (f : Launch → Launch) (h : ∀ x, (f x).bare = x.bare := by exact fun _ => rfl) : Keeps s (s.mapLaunch n f) := by
  refine ⟨rfl, fun _ => rfl, Nat.le_refl _, fun m _ => ?_, fun _ _ => rfl, ⟨[], List.append_nil _⟩, fun _ h => h, fun _ h => h⟩
  by_cases hm : m = n
  · subst hm; rw [State.launch_mapLaunch_self, h]
  · rw [State.launch_mapLaunch_ne s f hm]

/-- A launch that enters the table leaves those that stand there. -/
theorem Keeps.addLaunch (s : State) (x : Launch) : Keeps s (s.addLaunch x) := by
  refine ⟨rfl, fun _ => rfl, Nat.le_succ _, fun n hn => ?_, fun _ _ => rfl, ⟨[], List.append_nil _⟩, fun _ h => h, fun _ h => h⟩
  rw [State.launch, State.addLaunch, Tab.get_set_ne _ _ _ (Nat.ne_of_lt hn)]
  rfl

theorem Keeps.out (s : State) (o : Out) : Keeps s (s.out o) := (Looked.out s o).keeps
theorem Keeps.leaveWalks (s : State) (p : Who → Bool) : Keeps s (s.leaveWalks p) := (Looked.leaveWalks s p).keeps
theorem Keeps.post (s : State) (d f0 vf f3 f4 f5 : Nat) : Keeps s (s.post d f0 vf f3 f4 f5) := (Looked.post s d f0 vf f3 f4 f5).keeps
theorem Keeps.postCore (s : State) (c : Nat) (k : StrandIx) (kind f3 f4 f5 : Nat) : Keeps s (s.postCore c k kind f3 f4 f5) := .post s _ _ _ _ _ _
theorem Keeps.mapVf (s : State) (v : Nat) (f : Vf → Vf) : Keeps s (s.mapVf v f) := .elsewhere rfl rfl rfl rfl rfl
theorem Keeps.mapVd (s : State) (d v : Nat) (f : VfDie → VfDie) : Keeps s (s.mapVd d v f) := .elsewhere rfl rfl rfl rfl rfl
theorem Keeps.logAf (s : State) (d vf : Nat) (e : AfEnt) : Keeps s (s.logAf d vf e) := (Looked.logAf s d vf e).keeps
theorem Keeps.noteRead (s : State) (pa n : Nat) : Keeps s (s.noteRead pa n) := (Looked.noteRead s pa n).keeps
theorem Keeps.sendFlit (s : State) (a b : Nat) (ch : Chan) (x : Cargo) : Keeps s (s.sendFlit a b ch x) := .elsewhere rfl rfl rfl rfl rfl
theorem Keeps.sendWrite (s : State) (wr : Writer) (pa : Nat) (bs : List (Option Byte)) (m : Bool) : Keeps s (s.sendWrite wr pa bs m) :=
  .sendFlit s _ _ _ _

theorem Keeps.traceFor (s : State) (vf c : Nat) (k : StrandIx) (kind : Nat) (pc : Word) (aux : Nat) : Keeps s (s.traceFor vf c k kind pc aux) := by
  rw [State.traceFor]
  dsimp only
  split
  · exact .refl s
  split
  · exact (Keeps.mapVd s _ vf _).trans (.mapCore _ c _)
  · exact .mapCore s c _

theorem Keeps.trace (s : State) (c : Nat) (k : StrandIx) (kind : Nat) (pc : Word) (aux : Nat) : Keeps s (s.trace c k kind pc aux) := .traceFor s ..

/-! ### Writes at home ports -/

/-- Every context that waits at a queue with a task's number is changed: as many wait as before. -/
theorem queue_mapResum (s : State) (g : Ctx → Ctx) (d q : Nat) :
    (Tab.get {} (Tab.get {} (s.dies.map fun e => (e.1, { e.2 with queues := e.2.queues.map fun p => (p.1, { p.2 with resum := p.2.resum.map g }) })) d : Die).queues
      q : Queue).resum = (s.queue d q).resum.map g := by
  have inner : ∀ l : Tab Queue, (Tab.get {} (l.map fun p => (p.1, { p.2 with resum := p.2.resum.map g })) q : Queue).resum
      = (Tab.get {} l q : Queue).resum.map g := by
    intro l
    induction l with
    | nil => rfl
    | cons e l ih =>
      simp only [List.map_cons, Tab.get]
      split
      · rfl
      · exact ih
  rw [State.queue, State.die]
  induction s.dies with
  | nil => rfl
  | cons e l ih =>
    simp only [List.map_cons, Tab.get]
    split
    · exact inner _
    · exact ih

theorem Keeps.mapTask (s : State) (t : Nat) (f : Ctx → Ctx) (h : ∀ y, (f y).bare = y.bare := by exact fun _ => rfl) : Keeps s (s.mapTask t f) := by
  rw [State.mapTask]
  split
  · exact .mapCtx s _ f h
  · refine ⟨rfl, fun _ => rfl, Nat.le_refl _, fun _ _ => rfl, fun d q => ?_, ⟨[], List.append_nil _⟩, fun _ h => h, fun _ h => h⟩
    exact (congrArg List.length (queue_mapResum s _ d q)).trans (List.length_map _)

theorem Keeps.hitOne (wr : Writer) (ix : List Nat) (s : State) (a : Armed) : Keeps s (hitOne wr ix s a) := by
  rw [Machine.hitOne]
  split
  · exact .refl s
  · refine .mapTask s _ _ fun y => ?_
    split <;> rfl

theorem Keeps.portWrite (s : State) (wr : Writer) (pa : Nat) (bs : List (Option Byte)) : Keeps s (s.portWrite wr pa bs) := by
  rw [State.portWrite]
  dsimp only
  split
  · exact .refl s
  split
  · exact .mapCore s _ _
  · refine Keeps.trans ?_ (.foldl _ (Keeps.hitOne wr _) _ _)
    split
    · exact .elsewhere rfl rfl rfl rfl rfl ⟨_, rfl⟩
    · exact .elsewhere rfl rfl rfl rfl rfl

theorem Keeps.setDep (s : State) (wr : Writer) (pa : Nat) (v : Word) : Keeps s (s.setDep wr pa v) := .portWrite s ..

end Sys2Proof.Machine
end

section
/-!
SUPPORT. Actions of task records at their home ports (spec/17) are kept.
-/

namespace Sys2Proof.Machine

/-! ### Accesses of a die's ports -/

theorem Looked.portAt (s : State) (d vf : Nat) (kind : AccKind) (n pa : Nat) : Looked s (s.portAt d vf kind n pa).1 := by
  rw [State.portAt]
  split
  · exact .holdReq s d pa
  · split <;> exact .refl s

theorem Looked.portTr (s : State) (d u vf : Nat) (va : Word) (kind : AccKind) (n : Nat) (pa : Option Nat) :
    Looked s (s.portTr d u vf va kind n pa).1 := by
  cases pa with
  | some pa => exact .portAt s ..
  | none =>
  rw [State.portTr.eq_2]
  dsimp only
  split
  · exact .leaveWalks s _
  have h := Looked.missTr s d (512 * d) vf ⟨4096 + d, u⟩ va kind
  split
  · rename_i t pa e
    rw [e] at h
    refine h.trans ?_
    dsimp only
    split
    · exact (Looked.deny t d vf pa).trans (.logAf _ d vf _)
    · exact .portAt t ..
  · rename_i t r e
    rw [e] at h
    exact h.trans (.logAf t d vf _)
  · exact h

theorem Looked.portAcc (s : State) (d u vf : Nat) (va : Word) (kind : AccKind) (n : Nat) (pa : Option Nat) :
    Looked s (s.portAcc d u vf va kind n pa).1 := by
  have h := Looked.portTr s d u vf va kind n pa
  rw [State.portAcc]
  split
  · rename_i t r e
    rw [e] at h
    exact h.trans (.logAf t d vf _)
  · exact h

/-! ### The take of a record -/

theorem Keeps.endTake (s : State) (d u : Nat) : Keeps s (s.endTake d u) := .elsewhere rfl rfl rfl rfl rfl
theorem Keeps.putTake (s : State) (x : DevTake) : Keeps s (s.putTake x) := .elsewhere rfl rfl rfl rfl rfl
theorem Keeps.quitTake (s : State) (d q : Nat) : Keeps s (s.quitTake d q) := (Keeps.endTake s d _).trans (.leaveWalks _ _)

theorem Keeps.readDev (s : State) (d u vf : Nat) (va : Word) (n : Nat) : Keeps s (s.readDev d u vf va n).1 := by
  have h := (Looked.portTr s d u vf va .read n none).keeps
  rw [State.readDev]
  split
  · exact .refl s
  split
  · rename_i t pa e; exact (h.answer e).trans (.noteRead t pa n)
  · rename_i e; exact h.answer e
  · rename_i e; exact h.answer e

theorem Keeps.readPart (s : State) (d u vf i : Nat) (va : Word) (n : Nat) : Keeps s (s.readPart d u vf i va n).1 := by
  have h := Keeps.readDev s d u vf va n
  rw [State.readPart]
  split
  · exact .refl s
  split
  · rename_i t bs e; exact (h.answer e).trans (.putTake t _)
  · exact h

theorem Keeps.takeChecks (s : State) (d u q : Nat) (va : Word) : Keeps s (takeChecks s d u q va).1 := by
  rw [Machine.takeChecks]
  split
  · rename_i e; exact (Keeps.readPart s ..).answer e
  · rename_i e; exact (Keeps.readPart s ..).answer e
  rename_i t r e
  refine Keeps.trans ((Keeps.readPart s ..).answer e) ?_
  split
  · exact .refl t
  split
  · rename_i e; exact (Keeps.readPart t ..).answer e
  · rename_i e; exact (Keeps.readPart t ..).answer e
  rename_i v h e
  refine Keeps.trans ((Keeps.readPart t ..).answer e) ?_
  split
  · rename_i e; exact (Keeps.readPart v ..).answer e
  · rename_i e; exact (Keeps.readPart v ..).answer e
  rename_i w b e
  refine Keeps.trans ((Keeps.readPart v ..).answer e) ?_
  split <;> exact .refl w

theorem Keeps.queueFault (s : State) (d q reason code : Nat) (va : Word) : Keeps s (queueFault s d q reason code va) := by
  rw [Machine.queueFault]
  split
  · exact .refl s
  · exact ((Keeps.quitTake s d q).trans (.mapQueue _ d q _)).trans (.out _ _)

/-! ### What an action does at its port -/

theorem Keeps.applyTell (s : State) (wr : Writer) (pa slot : Nat) (poison : Bool) : Keeps s (applyTell s wr pa slot poison).1 := by
  rw [Machine.applyTell]
  dsimp only
  split
  · split
    · exact .setDep s ..
    · refine (Keeps.setDep s wr pa (withDepState (depGot (s.wordAtPort pa) slot poison) 2)).trans ?_
      dsimp only
      split
      · exact .mapLaunch _ _ _
      · exact .refl _
  · exact .setDep s ..

theorem Keeps.faultFuture (s : State) (wr : Writer) (vf pa : Nat) : Keeps s (faultFuture s wr vf pa).1 := by
  rw [Machine.faultFuture]
  split
  · dsimp only; exact .portWrite s ..
  · dsimp only; exact .portWrite s ..
  · exact .refl s

theorem Keeps.actAt (s : State) (d id vf : Nat) (va : Word) (kind : AccKind) (n : Nat) (pa : Option Nat) (f : State → Nat → State × List TaskAct)
    (no : List TaskAct) (hf : ∀ t p, Keeps t (f t p).1) : Keeps s (actAt s d id vf va kind n pa f no).1 := by
  have h := (Looked.portAcc s d (unitAct id) vf va kind n pa).keeps
  rw [Machine.actAt]
  split
  · rename_i t pa e
    refine ((h.answer e).trans ?_).trans (hf _ _)
    split
    · exact .noteRead t pa n
    · exact .refl t
  · rename_i e; exact h.answer e
  · rename_i e; exact h.answer e
  · rename_i e; exact h.answer e

theorem Keeps.applyAbandon (s : State) (n : Nat) : Keeps s (applyAbandon s n).1 := by
  rw [Machine.applyAbandon]
  split
  · exact .refl s
  · dsimp only; exact .mapLaunch s n _

theorem Keeps.applySkip (s : State) (id grp n : Nat) : Keeps s (applySkip s id grp n).1 := by
  rw [Machine.applySkip]
  dsimp only
  split
  · exact .endTake s _ _
  have h := (Looked.portTr s (s.launch n).die (unitAct id) (s.launch n).vf ((s.launch n).fcont + 0x20) .rmw 8
    (s.takeOf (s.launch n).die (unitAct id)).dep).keeps
  split
  · rename_i e; exact ((h.answer e).trans (.queueFault _ _ _ _ _ _)).trans (.endTake _ _ _)
  · rename_i t pa e
    refine (((h.answer e).trans (.noteRead t pa 8)).trans
      (.putTake _ { t.takeOf (s.launch n).die (unitAct id) with dep := some pa })).trans ?_
    dsimp only
    split
    · exact .endTake _ _ _
    split
    · rename_i e; exact (Keeps.takeChecks _ ..).answer e
    · rename_i e; exact (((Keeps.takeChecks _ ..).answer e).trans (.queueFault _ _ _ _ _ _)).trans (.endTake _ _ _)
    · rename_i e
      exact (((((Keeps.takeChecks _ ..).answer e).trans (.endTake _ _ _)).trans (.mapLaunch _ n _)).trans (.setDep _ _ _ _)).trans
        (.addLaunch _ _)
  · rename_i e; exact (h.answer e).trans (.putTake _ _)
  · rename_i e; exact h.answer e

theorem Keeps.applySink (s : State) (p : Pending) (pa : Option Nat) (d n : Nat) (faulted : Bool) : Keeps s (applySink s p pa d n faulted).1 := by
  rw [Machine.applySink]
  dsimp only
  split
  · exact .refl s
  · refine .actAt _ _ _ _ _ _ _ _ _ _ fun t p => ?_
    dsimp only
    exact (Keeps.portWrite t ..).trans (.portWrite ..)

theorem Keeps.applyAct (s : State) (p : Pending) (pa : Option Nat) : Keeps s (applyAct s p pa).1 := by
  rw [Machine.applyAct]
  split
  · exact .actAt _ _ _ _ _ _ _ _ _ _ fun t p => .applyTell t _ _ _ _
  · refine .actAt _ _ _ _ _ _ _ _ _ _ fun t p => ?_
    dsimp only
    split
    · exact .refl t
    · exact .setDep t _ _ _
  · exact .applyAbandon s _
  · exact .actAt _ _ _ _ _ _ _ _ _ _ fun t p => .faultFuture t _ _ _
  · exact .applySkip s _ _ _
  · exact .applySink s _ _ _ _ _
  · exact .out s _

theorem Keeps.tryAct (i : Nat) (s : State) : Keeps s (tryAct i s).1 := by
  rw [Machine.tryAct]
  split
  · exact .refl s
  rename_i p _
  split
  · exact .refl s
  have h := Keeps.applyAct s p p.pa
  split
  · rename_i t l e
    exact ((h.answer e).trans (.leaveWalks t fun y => y.c ≥ 4096 && y.u == unitAct p.id)).trans (.elsewhere rfl rfl rfl rfl rfl)
  · rename_i t w e
    exact (h.answer e).trans (.elsewhere rfl rfl rfl rfl rfl)

theorem Keeps.runActs : ∀ (f i : Nat) (s : State), Keeps s (runActs f i s)
  | 0, _, s => .refl s
  | f + 1, i, s => by
    have h := Keeps.tryAct i s
    rw [Machine.runActs]
    split
    · exact .refl s
    split
    · rename_i e; exact (h.answer e).trans (Keeps.runActs f i _)
    · rename_i e; exact (h.answer e).trans (Keeps.runActs f (i + 1) _)

theorem Keeps.groupActs (s : State) (grp : Nat) (l : List TaskAct) : Keeps s (s.groupActs grp l) := by
  rw [State.groupActs]
  split
  · exact .refl s
  · exact Keeps.trans (t := { s with acts := s.acts ++ numberActs s.nact grp l, nact := s.nact + l.length })
      (.elsewhere rfl rfl rfl rfl rfl) (.runActs _ _ _)

theorem Keeps.taskActs (s : State) (l : List TaskAct) : Keeps s (s.taskActs l) := .groupActs s _ l

end Sys2Proof.Machine
end

section
/-!
SUPPORT. What a stop, a removal and a restart do for a core before it is free: the copy engine's work is performed, areas are written, sets,
watchpoints, walks and collectives are given up. All of it is kept.
-/

namespace Sys2Proof.Machine

/-! ### Copy commands at their ports -/

theorem Core.scrWrite_ctx (x : Core) (a : Nat) (bs : List Byte) : (x.scrWrite a bs).ctx = x.ctx := by
  rw [Core.scrWrite]
  split <;> rfl

theorem Keeps.scrWrite (s : State) (c a : Nat) (bs : List Byte) : Keeps s (s.mapCore c (·.scrWrite a bs)) :=
  .mapCore s c _ fun x => by rw [Core.scrWrite_ctx]

theorem Keeps.mapCmd (s : State) (c ord : Nat) (f : CpCmd → CpCmd) : Keeps s (s.mapCmd c ord f) := .mapCore s c _
theorem Keeps.portBad (s : State) (c ord code : Nat) (va : Word) : Keeps s (portBad s c ord code va) := .mapCmd s c ord _
theorem Keeps.refuseAt (s : State) (c vf ord : Nat) (va : Word) (kind : AccKind) (r : Nat) : Keeps s (refuseAt s c vf ord va kind r) :=
  (Keeps.logAf s _ vf _).trans (.portBad _ c ord _ va)

theorem Keeps.returnOld (s : State) (c : Nat) (r : AccReq) (bs : List Byte) : Keeps s (returnOld s c r bs) := by
  rw [Machine.returnOld]
  split
  · exact .refl s
  · split
    · exact .mapCmd s ..
    · exact .scrWrite s ..

theorem Keeps.applyElem (s : State) (c : Nat) (r : AccReq) : Keeps s (applyElem s c r) := by
  rw [Machine.applyElem]
  refine Keeps.trans ?_ (.returnOld _ c r _)
  split
  · exact (Keeps.portWrite s ..).trans (.mapCmd _ c r.ord _)
  · exact .portWrite s ..

theorem Keeps.futureApply (s : State) (c vf pa : Nat) (reg : Bool) (arg : Word) : Keeps s (futureApply s c vf pa reg arg).1 := by
  rw [Machine.futureApply.eq_def]
  dsimp only
  split
  · exact .refl s
  split <;> dsimp only
  · exact .portWrite s ..
  · exact (Keeps.portWrite s ..).trans (.taskActs _ _)
  · exact .refl s
  · exact .portWrite s ..
  · exact .refl s
  · exact .taskActs s _
  · exact .taskActs s _

theorem Keeps.applyAcc (s : State) (c : Nat) (r : AccReq) : Keeps s (applyAcc s c r) := by
  rw [Machine.applyAcc]
  refine (Keeps.noteRead s r.pa r.bytes).trans ?_
  dsimp only
  split
  · exact .refuseAt _ ..
  split
  · split <;> rename_i e
    · exact ((Keeps.futureApply _ ..).answer e).trans (.portBad _ ..)
    · exact (Keeps.futureApply _ ..).answer e
  · split <;> rename_i e
    · exact ((Keeps.futureApply _ ..).answer e).trans (.portBad _ ..)
    · exact (Keeps.futureApply _ ..).answer e
  · exact (Keeps.applyTell _ ..).trans (.taskActs _ _)
  · exact .applyElem _ c r

theorem Keeps.applyOldest (s : State) (c : Nat) : Keeps s (applyOldest s c) := by
  rw [Machine.applyOldest]
  split
  · exact .refl s
  · exact Keeps.trans (.mapCore s c _) (.applyAcc _ c _)

theorem Keeps.drainAcc : ∀ (n : Nat) (s : State) (c : Nat), Keeps s (drainAcc n s c)
  | 0, s, _ => .refl s
  | n + 1, s, c => (Keeps.applyOldest s c).trans (Keeps.drainAcc n _ c)

theorem Keeps.applyStore (s : State) (wr : Writer) (pa : Nat) (bs : List (Option Byte)) : Keeps s (applyStore s wr pa bs) := by
  rw [Machine.applyStore]
  split
  · split
    · exact .portWrite s ..
    · split
      · exact .refuseAt s ..
      · exact .refl s
  · split
    · exact .logAf s ..
    · exact .portWrite s ..

theorem Keeps.drainWire (s : State) (c : Nat) : Keeps s (drainWire s c) := by
  rw [Machine.drainWire]
  refine Keeps.trans ?_ (.foldl _ (fun s f => ?_) _ _)
  · exact .elsewhere rfl rfl rfl rfl rfl
  · split
    · exact .applyStore s ..
    · exact .refl s

theorem Keeps.applyResp (s : State) (c : Nat) (q : CpCmd) : Keeps s (applyResp s c q) := by
  rw [Machine.applyResp]
  split
  · exact .refl s
  split
  · exact .mapCmd s ..
  · split
    · exact .mapCmd s ..
    · exact (Keeps.mapCmd s ..).trans (.scrWrite _ ..)

theorem Keeps.drainOut : ∀ (n : Nat) (s : State) (c ord : Nat), Keeps s (drainOut n s c ord)
  | 0, s, _, _ => .refl s
  | n + 1, s, c, ord => by
    rw [Machine.drainOut]
    split
    · exact (Keeps.applyResp s c _).trans (Keeps.drainOut n _ c ord)
    · exact .refl s

theorem Core.scrWriteTab_ctx (t : Tab Byte) : ∀ x : Core, (x.scrWriteTab t).ctx = x.ctx := by
  induction t with
  | nil => exact fun _ => rfl
  | cons e t ih => exact fun x => (ih _).trans (Core.scrWrite_ctx x _ _)

theorem Keeps.postEv (s : State) (c p : Nat) (r : Word) : Keeps s (s.postEv c p r) := .mapCore s c _

theorem Keeps.castTo (s : State) (c d : Nat) (q : CpCmd) : Keeps s (castTo s c d q).1 := by
  rw [Machine.castTo]
  split
  · exact .mapCore s d _ fun x => by rw [Core.scrWriteTab_ctx]
  · exact .refl s

theorem Keeps.castServed (s : State) (c ord d : Nat) (a : Bool) : Keeps s (castServed s c ord d a) := .mapCmd s ..

theorem Keeps.drainCast (s : State) (c ord : Nat) : Keeps s (drainCast s c ord) := by
  rw [Machine.drainCast]
  split
  · exact .refl s
  split
  · exact .refl s
  refine .foldl _ (fun s d => ?_) _ s
  split <;> rename_i e
  · exact ((Keeps.castTo s ..).answer e).trans (.castServed _ ..)
  · refine ((Keeps.castTo s ..).answer e).trans ?_
    split
    · exact .refl _
    · exact (Keeps.castServed _ ..).trans (.postEv _ ..)

theorem Keeps.setKept (s : State) (c : Nat) (l : List Kept) : Keeps s (s.mapCtx c fun y => { y with kept := l }) := .mapCtx s c _

theorem Keeps.drainCopies (s : State) (c : Nat) : Keeps s (s.drainCopies c) := by
  rw [State.drainCopies]
  exact ((((Keeps.drainWire s c).trans (.drainAcc _ _ c)).trans (.foldl _ (fun s q => .drainOut _ s c _) _ _)).trans
    (.foldl _ (fun s q => .drainCast s c _) _ _)).trans (.setKept _ c _)

/-! ### The device's own writes -/

theorem Keeps.devGranule (c : Nat) (s : State) (e : Nat × List (Option Byte)) : Keeps s (devGranule c s e) := by
  rw [Machine.devGranule]
  split
  · exact .sendWrite s ..
  · exact .portWrite s ..

theorem Keeps.devWriteF (c : Nat) : ∀ (n : Nat) (s : State) (va : Word) (bs : List Byte), Keeps s (devWriteF s c n va bs)
  | 0, s, _, _ => .refl s
  | n + 1, s, va, bs => by
    rw [Machine.devWriteF]
    split
    · exact .refl s
    refine Keeps.trans ?_ (Keeps.devWriteF c n _ _ _)
    split
    · exact .foldl _ (Keeps.devGranule c) _ s
    · exact .refl s

theorem Keeps.devWrite (s : State) (c : Nat) (va : Word) (bs : List Byte) : Keeps s (devWrite s c va bs) := .devWriteF c _ s va bs

/-! ### What a stop writes -/

theorem undoShadows_ctx (x : Core) : (undoShadows x).ctx = x.ctx := by
  rw [undoShadows]
  induction x.ops with
  | nil => rfl
  | cons o l ih =>
    rw [List.foldr_cons]
    split
    · exact ih
    · exact ih

theorem Core.settle_bare (x : Core) : x.settle.ctx.map Ctx.bare = x.ctx.map Ctx.bare := by
  rw [Core.settle]
  cases x.ctx <;> rfl

theorem Keeps.writeCheckpoint (s : State) (c : Nat) : Keeps s (writeCheckpoint s c) := .foldl _ (fun s _ => .devWrite s c _ _) _ s

/-- The records of a stop, written one after another. -/
theorem Keeps.foldl_fst {α β : Type} (f : State × β → α → State × β) (h : ∀ a r, Keeps a.1 (f a r).1) : ∀ (l : List α) (a : State × β),
    Keeps a.1 (l.foldl f a).1
  | [], a => .refl a.1
  | r :: l, a => (h a r).trans (Keeps.foldl_fst f h l (f a r))

/-- A stop writes the areas of its context, then its cause and value, and posts. -/
theorem writeStop_parts (s : State) (c : Nat) (cause tval : Word) (ckpt : Bool) :
    ∃ t, Keeps s t ∧ Keeps (t.mapCtx c fun y => { y with tcause := cause, tval := tval }) (writeStop s c cause tval ckpt) := by
  rw [writeStop]
  dsimp only
  refine ⟨_, ?_, (Keeps.postCore _ c .s _ _ _ _).trans (.trace _ c .s _ _ _)⟩
  have undone : Keeps s ((s.drainCopies c).mapCore c fun x => undoShadows x.settle) :=
    (Keeps.drainCopies s c).trans (.mapCore _ c _ fun x => by rw [undoShadows_ctx, Core.settle_bare])
  refine undone.trans ?_
  generalize (s.drainCopies c).mapCore c (fun x => undoShadows x.settle) = u
  refine Keeps.ite (Keeps.trans (Keeps.trans (.foldl_fst _ (fun a r => ?_) _ (u, 0)) (.devWrite _ ..)) (.devWrite _ ..)) (.writeCheckpoint _ c)
  dsimp only
  split
  · exact (Keeps.devWrite a.1 ..).trans (.devWrite _ ..)
  · exact .devWrite a.1 ..

/-! ### Sets, windows, walks and collectives -/

theorem Keeps.markSets (s : State) (vf t : Nat) (st : SetSt) : Keeps s (s.markSets vf t st) := .mapVf s vf _
theorem Keeps.dropWaits (s : State) (vf t : Nat) : Keeps s (s.dropWaits vf t) := .mapVf s vf _
theorem Keeps.discardSets (s : State) (vf t : Nat) : Keeps s (s.discardSets vf t) := .elsewhere rfl rfl rfl rfl rfl
theorem Keeps.dropReqs (s : State) (c : Nat) : Keeps s (dropReqs s c) := .leaveWalks s _
theorem Keeps.mapCluster (s : State) (n : Nat) (f : Cluster → Cluster) : Keeps s (s.mapCluster n f) := .elsewhere rfl rfl rfl rfl rfl
theorem Keeps.withdraw (s : State) (t : Nat) : Keeps s (s.withdraw t) := .foldl _ (fun s n => .mapCluster s n _) _ s

theorem Keeps.releaseWindows (s : State) (l : Nat) : Keeps s (s.releaseWindows l) := by
  rw [State.releaseWindows]
  split
  · exact .refl s
  · refine .foldl _ (fun s n => ?_) _ s
    split
    · exact .refl s
    · exact .mapCluster s n _

theorem Keeps.sendAborts (s : State) (x : Coll) : Keeps s (sendAborts s x) := by
  rw [Machine.sendAborts]
  refine .foldl _ (fun s p => ?_) _ s
  rw [sendPeer]
  split
  · exact .sendFlit s ..
  · exact .refl s

/-- The collectives of a task go. -/
theorem dropColls_parts (s : State) (t : Nat) : Keeps { s with colls := s.colls.filter (fun x => x.task != t) } (s.dropColls t) := by
  rw [State.dropColls]
  exact .foldl _ (fun s x => (Keeps.leaveWalks s _).trans (.sendAborts _ x)) _ _

theorem Keeps.dropColls (s : State) (t : Nat) : Keeps s (s.dropColls t) :=
  .trans (t := { s with colls := s.colls.filter (fun x => x.task != t) })
    (.elsewhere rfl rfl rfl rfl rfl ⟨[], List.append_nil _⟩ (fun _ h => h) (fun _ h => List.mem_of_mem_filter h)) (dropColls_parts s t)

theorem dropColls_task (s : State) (t : Nat) : ∀ w ∈ (s.dropColls t).colls, w.task ≠ t := fun w hw => by
  simpa using (List.mem_filter.mp ((dropColls_parts s t).colls hw)).2

/-! ### The arrivals, watchpoints, sets, walks and collectives of a task are withdrawn -/

theorem clearTask_parts (s : State) (c : Nat) : ∃ t, Keeps s t ∧
    Keeps { t with armed := t.armed.filter (fun a => a.task != (s.ctx c).task) } (clearTask s c) := by
  rw [clearTask]
  exact ⟨_, ((Keeps.drainWire s c).trans (.drainAcc _ _ c)).trans (.withdraw _ _),
    ((Keeps.discardSets _ _ _).trans (.dropReqs _ c)).trans (.dropColls _ _)⟩

theorem Keeps.clearTask (s : State) (c : Nat) : Keeps s (clearTask s c) := by
  obtain ⟨t, h, g⟩ := clearTask_parts s c
  refine h.trans (Keeps.trans ?_ g)
  exact .elsewhere rfl rfl rfl rfl rfl ⟨[], List.append_nil _⟩ fun _ h => List.mem_of_mem_filter h

theorem clearTask_armed (s : State) (c : Nat) : ∀ a ∈ (clearTask s c).armed, a.task ≠ (s.ctx c).task := fun a ha => by
  obtain ⟨t, _, g⟩ := clearTask_parts s c
  simpa using (List.mem_filter.mp (g.armed ha)).2

theorem clearTask_colls (s : State) (c : Nat) : ∀ w ∈ (clearTask s c).colls, w.task ≠ (s.ctx c).task := by
  rw [clearTask]
  exact dropColls_task _ _

/-! ### What S has in flight lands -/

theorem Keeps.raiseOp (s : State) (c : Nat) (k : StrandIx) (code : Nat) (v : Word) : Keeps s (s.raiseOp c k code v) := .mapCore s c _

theorem foldl_scrWrite_ctx (l : List (Nat × List Byte)) : ∀ x : Core, (l.foldl (fun x w => x.scrWrite w.1 w.2) x).ctx = x.ctx := by
  induction l with
  | nil => exact fun _ => rfl
  | cons w l ih => exact fun x => (ih _).trans (Core.scrWrite_ctx x _ _)

theorem Keeps.landGroup (s : State) (c : Nat) (g : VGroup) : Keeps s (landGroup s c g) := by
  rw [Machine.landGroup]
  have landed : Keeps s ((s.mapCore c fun x => g.writes.foldl (fun x w => x.scrWrite w.1 w.2) x).mapStr c .c
      fun t => { t with sst := sstRaise t.sst g.flags }) :=
    (Keeps.mapCore s c _ fun x => by rw [foldl_scrWrite_ctx]).trans (.mapStr _ c .c _)
  split
  · exact (landed.ite (.raiseOp _ ..)).trans (.raiseOp _ ..)
  · exact landed.ite (.raiseOp _ ..)

theorem Keeps.landGroups (c ic : Nat) : ∀ (l : List VGroup) (s : State) (cur : Nat), Keeps s (landGroups s c ic cur l).1
  | [], s, _ => .refl s
  | g :: gs, s, cur => by
    rw [Machine.landGroups]
    split
    · exact .refl s
    dsimp only
    split
    · exact .landGroup s c g
    · exact (Keeps.landGroup s c g).trans (Keeps.landGroups c ic gs _ _)

theorem Keeps.landOp (c ic : Nat) (s : State) (o : Op) : Keeps s (landOp c ic s o).1 := by
  rw [Machine.landOp]
  split
  · split
    · exact .mapStr s ..
    · exact .refl s
  · split
    · exact .scrWrite s ..
    · exact .refl s
  · split <;> exact .refl s
  · exact .refl s
  · dsimp only
    split <;> exact .landGroups c ic _ s _

theorem Keeps.landOps (c ic : Nat) (k : StrandIx) : ∀ (l : List Op) (s : State), Keeps s (landOps c ic k s l).1
  | [], s => .refl s
  | o :: l, s => by
    rw [Machine.landOps]
    split
    · split <;> rename_i e
      · exact ((Keeps.landOp c ic s o).answer e).trans (Keeps.landOps c ic k l _)
      · exact ((Keeps.landOp c ic s o).answer e).trans (Keeps.landOps c ic k l _)
    · exact Keeps.landOps c ic k l s

theorem Keeps.landHandler (s : State) (c : Nat) : Keeps s (landHandler s c) := by
  rw [Machine.landHandler]
  exact .foldl _ (fun s j => (Keeps.landOps c _ .s _ s).trans (.mapCore _ c _)) _ s

/-! ### Areas that a core reaches and reads -/

theorem Looked.areasWalked (c : Nat) : ∀ (l : List (Nat × Word × AccKind)) (s : State), Looked s (areasWalked c s l).1
  | [], s => .refl s
  | (j, va, kind) :: l, s => by
    have h := Looked.translate s c (unitArea j) (s.ctx c).vf va kind
    rw [Machine.areasWalked]
    split <;> rename_i e <;> rw [e] at h
    · exact h
    · exact h
    · exact Looked.areasWalked c l s
    · rename_i u pa
      refine h.trans ?_
      split
      · exact .holdReq u _ pa
      split
      · exact .refl u
      · exact Looked.areasWalked c l u

theorem Looked.areaLog (c : Nat) (s : State) (e : Nat × Word × AccKind) : Looked s (areaLog c s e) := by
  have h := Looked.translate s c (unitArea e.1) (s.ctx c).vf e.2.1 e.2.2
  rw [Machine.areaLog]
  dsimp only
  split <;> rename_i eq <;> rw [eq] at h
  · exact h.trans (.logAf _ ..)
  · rename_i t pa
    refine h.trans ?_
    dsimp only
    split
    · exact (Looked.deny t ..).trans (.logAf _ ..)
    · split
      · exact .logAf t ..
      · split
        · exact .refl t
        · exact .logAf t ..
  · exact h

theorem Looked.reach (s : State) (c : Nat) (l : List Area) : Looked s (s.reach c l).1 := by
  have h := Looked.areasWalked c (areaList l) s
  rw [State.reach]
  split
  · rename_i t e
    rw [e] at h
    exact h.trans (.foldl _ (Looked.areaLog c) _ t)
  · exact h

theorem looked_of_reach {s t : State} {c : Nat} {l : List Area} {b : Bool} (h : s.reach c l = (t, b)) : Looked s t := by
  have look := Looked.reach s c l
  rwa [h] at look

theorem Looked.noteArea (s : State) (c : Nat) (va : Word) (n : Nat) : Looked s (noteArea s c va n) := by
  rw [Machine.noteArea]
  refine .foldl _ (fun t j => ?_) _ s
  split
  · exact .noteRead t ..
  · exact .refl t

theorem Looked.noteAreas (s : State) (c n : Nat) : Looked s (s.noteAreas c n) := (Looked.noteArea s ..).trans (.noteArea _ ..)

/-! ### Trace records and events -/

/-- Two states between which cores have taken trace records and events alone. -/
structure Noted (s t : State) : Prop where
  agenda : t.agenda = s.agenda
  mem    : t.mem = s.mem
  cores  : ∀ c, t.core c = { s.core c with
    trace := (t.core c).trace, lost := (t.core c).lost, tlast := (t.core c).tlast, evnow := (t.core c).evnow }

theorem Noted.refl (s : State) : Noted s s := ⟨rfl, rfl, fun _ => rfl⟩
theorem Noted.trans {s t u : State} (a : Noted s t) (b : Noted t u) : Noted s u :=
  ⟨b.agenda.trans a.agenda, b.mem.trans a.mem, fun c => by rw [b.cores, a.cores]⟩

theorem Noted.foldl {α : Type} (f : State → α → State) (h : ∀ s a, Noted s (f s a)) : ∀ (l : List α) (s : State), Noted s (l.foldl f s)
  | [], s => .refl s
  | a :: l, s => (h s a).trans (Noted.foldl f h l (f s a))

theorem Noted.ctx {s t : State} (h : Noted s t) (c : Nat) : (t.core c).ctx = (s.core c).ctx := by rw [h.cores]
theorem Noted.str {s t : State} (h : Noted s t) (c : Nat) (k : StrandIx) : t.str c k = s.str c k := by
  rw [State.str, h.cores]
  cases k <;> rfl

/-- A state with the same cores, memory and agenda. -/
theorem Noted.of_cores {s t : State} (hc : t.cores = s.cores) (hm : t.mem = s.mem) (ha : t.agenda = s.agenda) : Noted s t :=
  ⟨ha, hm, fun c => by rw [State.core, hc]; rfl⟩

/-- A change of a core's trace and of its posted events alone. -/
theorem Noted.mapCore (s : State) (c : Nat) (f : Core → Core)
    (h : ∀ x, f x = { x with trace := (f x).trace, lost := (f x).lost, tlast := (f x).tlast, evnow := (f x).evnow }) : Noted s (s.mapCore c f) := by
  refine ⟨rfl, rfl, fun d => ?_⟩
  by_cases hd : d = c
  · subst hd; rw [State.core_mapCore_self]; exact h _
  · rw [State.core_mapCore_ne s f hd]

theorem Noted.postEv (s : State) (c p : Nat) (r : Word) : Noted s (s.postEv c p r) := .mapCore s c _ fun _ => rfl
theorem Noted.post (s : State) (d f0 vf f3 f4 f5 : Nat) : Noted s (s.post d f0 vf f3 f4 f5) := .of_cores rfl rfl rfl
theorem Noted.postCore (s : State) (c : Nat) (k : StrandIx) (kind f3 f4 f5 : Nat) : Noted s (s.postCore c k kind f3 f4 f5) := .of_cores rfl rfl rfl

theorem Noted.trace (s : State) (c : Nat) (k : StrandIx) (kind : Nat) (pc : Word) (aux : Nat) : Noted s (s.trace c k kind pc aux) := by
  rw [State.trace, State.traceFor]
  dsimp only
  split
  · exact .refl s
  split
  · exact Noted.trans (t := s.mapVd _ _ _) (.of_cores rfl rfl rfl) (.mapCore _ c _ fun _ => rfl)
  · exact .mapCore s c _ fun _ => rfl

theorem Noted.traceStrands (s : State) (c kind : Nat) : Noted s (traceStrands s c kind) := by
  rw [Machine.traceStrands]
  refine .foldl _ (fun s k => ?_) _ s
  split
  · exact .trace s ..
  · exact .refl s

theorem Noted.postColl (s : State) (i : Nat) : Noted s (postColl s i) := by
  rw [Machine.postColl]
  split
  · exact .refl s
  split
  · split
    · exact .refl s
    split
    · split
      · exact Noted.trans (t := s.putColl i _) (.of_cores rfl rfl rfl) (.postEv ..)
      · exact .refl s
    · exact .refl s
  · exact .refl s

theorem Noted.postHeld (s : State) (task : Nat) : Noted s (postHeld s task) := by
  rw [Machine.postHeld]
  refine .foldl _ (fun s i => ?_) _ s
  split
  · exact .postColl s i
  · exact .refl s

end Sys2Proof.Machine
end

section
/-!
SUPPORT. Starved takes, held watchpoint reports, nested stops, CHECKPOINTs, removals and restarts (spec/06 R128, R140, spec/12 R258, spec/14
R290, spec/15 R320, spec/18 R362).
-/

namespace Sys2Proof.Machine

variable {s : State} {rest : List Turn} {c j : Nat} {k : StrandIx}

/-! ### The conditions of a turn -/

theorem Core.closed_iff (x : Core) : x.closed = true ↔ Closed x := by
  rw [Core.closed, Closed, Bool.and_eq_true, List.all_eq_true]
  refine and_congr (by rw [Bool.not_eq_true']) ⟨fun h k => ?_, fun h k _ => ?_⟩
  · simpa using h k (by cases k <;> simp [allStr])
  · simpa using h k

theorem Core.alive_eq_false {x : Core} (h : ¬ Alive x) : x.alive = false := Bool.eq_false_iff.mpr (mt (Core.alive_iff x).mp h)
theorem Core.closed_eq_false {x : Core} (h : ¬ Closed x) : x.closed = false := Bool.eq_false_iff.mpr (mt (Core.closed_iff x).mp h)

/-- A cause that an operation raises is the first where the core is alive. -/
theorem raiseOp_core_of_alive (k : StrandIx) (code : Nat) (v : Word) (h : Alive (s.core c)) :
    (s.raiseOp c k code v).core c = { s.core c with stops := [⟨3, k, code, 0, v⟩] } := by
  obtain ⟨-, -, -, -, hs⟩ := h
  rw [State.raiseOp, State.core_mapCore_self, hs]
  rfl

theorem State.ctx_of_some {z : Ctx} (h : (s.core c).ctx = some z) : s.ctx c = z := by rw [State.ctx, h]; rfl

theorem raiseOp_core_ne {e : Nat} (k : StrandIx) (code : Nat) (v : Word) (h : e ≠ c) : (s.raiseOp c k code v).core e = s.core e := s.core_mapCore_ne _ h

/-! ### A starved take -/

/-- A take has waited so long that it posts, and has not yet. -/
def Starves (s : State) (c : Nat) (k : StrandIx) : Prop :=
  (s.str c k).running = true ∧ (s.str c k).starved = false ∧ (s.die (dieOf c)).nstarve ≤ (s.str c k).waited ∧ 0 < (s.str c k).waited

theorem exec_tokenStarvation (h : CoreTurns s c k j .tokenStarvation rest) : exec .tokenStarvation s = .next (starve c k (Passed s rest)) :=
  turnEvent_of_turns (fun c k _ s => starve c k s) h

theorem starves_iff (s : State) (c : Nat) (k : StrandIx) :
    ((s.str c k).running && !(s.str c k).starved && decide ((s.str c k).waited ≥ (s.die (dieOf c)).nstarve) && decide ((s.str c k).waited > 0)) = true
      ↔ Starves s c k := by
  simp only [Bool.and_eq_true, Bool.not_eq_true', decide_eq_true_eq, Starves, and_assoc]

theorem starve_of_not (h : ¬ Starves s c k) : starve c k s = s := by
  rw [starve]
  exact if_neg (mt (starves_iff s c k).mp h)

/-- The take is noted as starved; besides, a trace record and an event. -/
theorem starve_noted (h : Starves s c k) : ∃ t, Noted s t ∧ starve c k s = t.mapStr c k fun y => { y with starved := true } := by
  rw [starve]
  exact ⟨_, (Noted.postCore s ..).trans (.trace _ ..), if_pos ((starves_iff s c k).mpr h)⟩

/-! ### A held watchpoint report -/

theorem Ctx.report_eq_some (y : Ctx) (n : Nat) (v : Word) :
    y.report = some (n, v) ↔ n < 4 ∧ Tab.get none y.reports n = some v ∧ ∀ m < n, Tab.get none y.reports m = none := by
  have held : ∀ i, (Tab.get none y.reports i).map (fun v => (i, v)) = some (n, v) ↔ i = n ∧ Tab.get none y.reports i = some v := fun i => by
    cases Tab.get none y.reports i <;> simp
  rw [Ctx.report, List.range_eq_range', List.findSome?_eq_some_iff]
  constructor
  · rintro ⟨l, a, r, e, ha, hl⟩
    obtain ⟨rfl, hv⟩ := (held a).mp ha
    obtain ⟨i, -, rfl, hr⟩ := List.range'_eq_append_iff.mp e
    obtain ⟨hi, hn, -⟩ := List.range'_eq_cons_iff.mp hr.symm
    refine ⟨by omega, hv, fun m hm => ?_⟩
    exact Option.map_eq_none_iff.mp (hl m (List.mem_range'_1.mpr (by omega)))
  · rintro ⟨hn, hv, hm⟩
    refine ⟨List.range' 0 n, n, List.range' (n + 1) (4 - n - 1), ?_, (held n).mpr ⟨rfl, hv⟩, fun m h => ?_⟩
    · exact List.range'_eq_append_iff.mpr ⟨n, hn.le, rfl, (List.range'_eq_cons_iff.mpr ⟨by omega, by omega, rfl⟩).symm⟩
    · rw [hm m (by have := List.mem_range'_1.mp h; omega)]; rfl

theorem exec_watchpoint {n : Nat} (h : Turns s (.watchpoint c n) rest) : exec (.watchpoint c n) s = .next (reportWatch c n (Passed s rest)) :=
  event_of_turns (reportWatch c n) h

/-- A report that is not due: its core or its handler does not take it, or it is not the first that is held. -/
theorem reportWatch_of_not {n : Nat} (h : ¬ Alive (s.core c) ∨ (s.ctx c).depth ≠ 0 ∨ ∀ v, (s.ctx c).report ≠ some (n, v)) : reportWatch c n s = s := by
  rw [reportWatch]
  split
  · rfl
  next hb =>
    simp only [Bool.or_eq_true, Bool.not_eq_true', decide_eq_true_eq, not_or, Bool.not_eq_false, not_not] at hb
    have hr := (h.resolve_left (not_not.mpr ((Core.alive_iff _).mp hb.1))).resolve_left (not_not.mpr hb.2)
    split
    · next m v e => exact if_neg fun hm : m = n => hr v (hm ▸ e)
    · rfl

theorem reportWatch_of_first {n : Nat} {v : Word} (ha : Alive (s.core c)) (hd : (s.ctx c).depth = 0) (hr : (s.ctx c).report = some (n, v)) :
    reportWatch c n s = (s.raiseOp c .s 0x28 v).postCore c .s 8 n (v.toNat % 2 ^ 32) (v.toNat / 2 ^ 32) := by
  simp only [reportWatch, (Core.alive_iff _).mpr ha, hd, hr, Bool.not_true, ne_eq, not_true_eq_false, decide_false, Bool.or_self,
    Bool.false_eq_true, if_false, if_true]

/-! ### A nested stop -/

theorem exec_nestedStop (h : CoreTurns s c k j .nestedStop rest) : exec .nestedStop s = .next (nestedNow c (Passed s rest)) :=
  turnEvent_of_turns (fun c _ _ s => nestedNow c s) h

/-- What S issued before the cause of a nested stop is done, and the core is between two clock cycles. -/
def NestedReady (s : State) (c : Nat) : Prop := Alive (s.core c) ∧ Closed (s.core c) ∧ (s.core c).settled = true ∧ s.applied c .s = true

theorem not_nestedReady (h : ¬ Alive (s.core c) ∨ ¬ Closed (s.core c) ∨ (s.core c).settled = false ∨ s.applied c .s = false) : ¬ NestedReady s c := by
  rintro ⟨ha, hc, hs, hp⟩
  rw [hs, hp] at h
  simp [ha, hc] at h

theorem nestedReady_iff (s : State) (c : Nat) :
    (!(s.core c).alive || !(s.core c).closed || !(s.core c).settled || !s.applied c .s) = true ↔ ¬ NestedReady s c := by
  rw [NestedReady, ← Core.alive_iff, ← Core.closed_iff]
  simp only [Bool.or_eq_true, Bool.not_eq_true', ← Bool.not_eq_true]
  tauto

theorem nestedNow_of_not (h : (s.core c).nested = none ∨ ¬ NestedReady s c) : nestedNow c s = s := by
  rw [nestedNow]
  split
  · rfl
  next e he => exact if_pos ((nestedReady_iff s c).mpr (h.resolve_left (by simp [he])))

theorem nestedNow_removes {e : Stop} (he : (s.core c).nested = some e) (h : NestedReady s c) (ht : (s.ctx c).tvec = 0) :
    nestedNow c s = s.mapCore c (fun x => { x with nested := none, removal := some (killedBy e) }) := by
  simp only [nestedNow, he, if_neg (mt (nestedReady_iff s c).mp (not_not.mpr h)), ht, if_true]

theorem nestedNow_waits {e : Stop} {v : State} (he : (s.core c).nested = some e) (h : NestedReady s c) (ht : (s.ctx c).tvec ≠ 0)
    (hr : s.reach c [⟨(s.ctx c).tsave, 0x1000, .write⟩] = (v, false)) : nestedNow c s = v := by
  simp only [nestedNow, he, if_neg (mt (nestedReady_iff s c).mp (not_not.mpr h)), if_neg ht, hr]

theorem nestedNow_enters {e : Stop} {v : State} (he : (s.core c).nested = some e) (h : NestedReady s c) (ht : (s.ctx c).tvec ≠ 0)
    (hr : s.reach c [⟨(s.ctx c).tsave, 0x1000, .write⟩] = (v, true)) : nestedNow c s = enterNested v c e := by
  simp only [nestedNow, he, if_neg (mt (nestedReady_iff s c).mp (not_not.mpr h)), if_neg ht, hr]

theorem causeWord_eq (e : Stop) : causeWord e = BitVec.ofNat 64 (e.code + 2 ^ 8 * ixOf e.k + 2 ^ 16 * e.info.toNat) := by
  rw [causeWord, Nat.mul_comm (ixOf e.k), Nat.mul_comm e.info.toNat]

theorem killedBy_eq (e : Stop) : killedBy e = ((causeWord e).setWidth 24).setWidth 64 := by
  apply BitVec.eq_of_toNat_eq
  rw [killedBy]
  simp

/-- A core whose nested handler is entered. -/
def Core.nestedAt (tvec : Word) (x : Core) : Core := { x with s := x.s.handler tvec, ops := x.ops.filter (fun o => o.k != .s), nested := none }

/-- The handler is entered at DEPTH 2, after what S has in flight has landed and the nested frame is written. -/
theorem enterNested_parts (s : State) (c : Nat) (e : Stop) : ∃ u, Keeps s u ∧
    Noted ((u.mapCtx c fun y => { y with depth := 2, tcause := causeWord e, tval := e.tval }).mapCore c (Core.nestedAt (s.ctx c).tvec)) (enterNested s c e) := by
  have landed : Keeps s ((landHandler s c).mapStr c .s fun t => { t with pend := 0 }) := (Keeps.landHandler s c).trans (.mapStr _ ..)
  have tvec : (((landHandler s c).mapStr c .s fun t => { t with pend := 0 }).ctx c).tvec = (s.ctx c).tvec := (Ctx.same_of_bare (landed.ctx_bare c)).2.2.1
  rw [enterNested, ← tvec]
  refine ⟨_, ?_, (Noted.trace (State.mapCore _ c (Core.nestedAt _)) ..).trans (.postCore ..)⟩
  exact landed.trans (((Keeps.devWrite ..).trans (.devWrite ..)).trans (.devWrite ..))

theorem enterNested_facts {z : Ctx} (e : Stop) (hz : (s.core c).ctx = some z) : (enterNested s c e).agenda = s.agenda ∧
    ((enterNested s c e).core c).nested = none ∧ ((enterNested s c e).ctx c).depth = 2 ∧ ((enterNested s c e).ctx c).tcause = causeWord e ∧
    ((enterNested s c e).ctx c).tval = e.tval ∧ ∃ t : Strand, (enterNested s c e).str c .s = t.handler z.tvec := by
  obtain ⟨u, kept, note⟩ := enterNested_parts s c e
  rw [State.ctx_of_some hz] at note
  obtain ⟨y, hy, -⟩ := kept.ctx_some hz
  have core : ((u.mapCtx c fun y => { y with depth := 2, tcause := causeWord e, tval := e.tval }).mapCore c (Core.nestedAt z.tvec)).core c =
      Core.nestedAt z.tvec { u.core c with ctx := some { y with depth := 2, tcause := causeWord e, tval := e.tval } } := by
    rw [State.core_mapCore_self, State.mapCtx, State.core_mapCore_self, hy]
    rfl
  have ctx : ((enterNested s c e).core c).ctx = some { y with depth := 2, tcause := causeWord e, tval := e.tval } := by rw [note.ctx, core]; rfl
  refine ⟨note.agenda.trans kept.agenda, ?_, by rw [State.ctx_of_some ctx], by rw [State.ctx_of_some ctx], by rw [State.ctx_of_some ctx], (u.core c).s, ?_⟩
  · rw [note.cores, core]; rfl
  · rw [note.str, State.str, core]; rfl

/-! ### A CHECKPOINT and the return of its context -/

theorem exec_checkpointPreemption (h : CoreTurns s c k j .checkpointPreemption rest) :
    exec .checkpointPreemption s = .next (checkpointNow c (Passed s rest)) :=
  turnEvent_of_turns (fun c _ _ s => checkpointNow c s) h

/-- A context is on its way back to its core. -/
def ComesBack (x : Core) : Prop := x.halted = true ∧ x.removal = none ∧ x.restart = none ∧ x.stops = []

/-- A context is to leave its core for its queue. -/
def CheckpointDue (x : Core) (z : Ctx) : Prop := z.preempt = .checkpoint ∧ z.depth = 0 ∧ z.held = [] ∧ Alive x ∧ x.nested = none ∧ Closed x

theorem comesBack_iff (x : Core) : (x.halted && x.stops.isEmpty && x.removal.isNone && x.restart.isNone) = true ↔ ComesBack x := by
  simp only [Bool.and_eq_true, List.isEmpty_iff, Option.isNone_iff_eq_none, ComesBack]
  tauto

theorem checkpointDue_iff (x : Core) (z : Ctx) :
    (z.preempt == .checkpoint && z.depth == 0 && z.held.isEmpty && x.alive && x.nested.isNone && x.closed) = true ↔ CheckpointDue x z := by
  rw [CheckpointDue, ← Core.alive_iff, ← Core.closed_iff]
  simp only [Bool.and_eq_true, beq_iff_eq, List.isEmpty_iff, Option.isNone_iff_eq_none, and_assoc]

theorem CheckpointDue.not_comesBack {x : Core} {z : Ctx} (h : CheckpointDue x z) : ¬ ComesBack x := fun g => by
  obtain ⟨-, -, -, ha, -, -⟩ := h
  exact absurd (ha.2.1.symm.trans g.1) (by decide)

theorem checkpointNow_of_not (h : ∀ z, (s.core c).ctx = some z → ¬ CheckpointDue (s.core c) z ∧ ¬ ComesBack (s.core c)) : checkpointNow c s = s := by
  rw [checkpointNow]
  split
  next z hz => rw [if_neg (mt (comesBack_iff _).mp (h z hz).2), if_neg (mt (checkpointDue_iff _ z).mp (h z hz).1)]
  next => rfl

theorem checkpointNow_of_comesBack {z : Ctx} (hz : (s.core c).ctx = some z) (h : ComesBack (s.core c)) : checkpointNow c s = loadNow c s := by
  simp only [checkpointNow, hz, (comesBack_iff _).mpr h, if_true]

theorem checkpointNow_waits {z : Ctx} {v : State} (hz : (s.core c).ctx = some z) (h : CheckpointDue (s.core c) z)
    (hr : s.reach c (z.areas (ckptLen z) .write) = (v, false)) : checkpointNow c s = v := by
  simp only [checkpointNow, hz, if_neg (mt (comesBack_iff _).mp h.not_comesBack), (checkpointDue_iff _ z).mpr h, if_true, hr]

theorem checkpointNow_suspends {z : Ctx} {v : State} (hz : (s.core c).ctx = some z) (h : CheckpointDue (s.core c) z)
    (hr : s.reach c (z.areas (ckptLen z) .write) = (v, true)) : checkpointNow c s = suspendTask v c z := by
  simp only [checkpointNow, hz, if_neg (mt (comesBack_iff _).mp h.not_comesBack), (checkpointDue_iff _ z).mpr h, if_true, hr]

theorem loadNow_waits {z : Ctx} {v : State} (hz : (s.core c).ctx = some z)
    (hr : s.reach c (z.areas (ckptLen z) .read ++ [⟨z.tsave, 8, .write⟩]) = (v, false)) : loadNow c s = v := by
  simp only [loadNow, State.ctx_of_some hz, hr]

theorem loadNow_loads {z : Ctx} {v : State} (hz : (s.core c).ctx = some z)
    (hr : s.reach c (z.areas (ckptLen z) .read ++ [⟨z.tsave, 8, .write⟩]) = (v, true)) : loadNow c s = finishLoad v c := by
  simp only [loadNow, State.ctx_of_some hz, hr]

/-- What a core is, with its handler entered, once the state of its context is back. -/
structure BackInHandler (x y : Core) (tvec : Word) : Prop where
  halted  : y.halted = x.halted
  context : y.ctx = x.ctx
  pc      : y.s.pc = tvec
  running : y.s.running = true

/-- The state is read back, S enters its handler with cause 0x31, and what the engine holds for the task is posted. -/
theorem finishLoad_parts (s : State) (c : Nat) (h : (s.ctx c).tvec ≠ 0) : ∃ (u : State) (f g : Core → Core),
    Looked (s.mapCore c fun x => { x with halted := false }) u ∧ (∀ x, (f x).halted = x.halted ∧ (f x).ctx = x.ctx) ∧
    (∀ x, BackInHandler x (g x) (s.ctx c).tvec) ∧
    Noted (((u.mapCore c f).mapCore c g).mapCtx c fun y => { y with tcause := 0x31, tval := 0 }) (finishLoad s c) := by
  rw [finishLoad]
  dsimp only
  rw [if_neg h]
  refine ⟨_, _, _, .noteAreas _ c _, fun x => ?f, fun x => ?g, ((Noted.trace ..).trans (.postCore ..)).trans (.postHeld ..)⟩
  case f => exact ⟨rfl, rfl⟩
  case g => exact ⟨rfl, rfl, rfl, rfl⟩

theorem finishLoad_facts {z : Ctx} (hz : (s.core c).ctx = some z) (h : z.tvec ≠ 0) : ((finishLoad s c).core c).halted = false ∧
    ((finishLoad s c).str c .s).pc = z.tvec ∧ ((finishLoad s c).str c .s).running = true ∧ ((finishLoad s c).ctx c).tcause = 0x31 ∧
    ((finishLoad s c).ctx c).tval = 0 ∧ (finishLoad s c).agenda = s.agenda := by
  have tvec : (s.ctx c).tvec = z.tvec := by rw [State.ctx_of_some hz]
  obtain ⟨u, f, g, look, hf, hg, note⟩ := finishLoad_parts s c (tvec ▸ h)
  have hu : u.core c = { s.core c with halted := false } := by rw [look.core, State.core_mapCore_self]
  obtain ⟨fh, fc⟩ := hf (u.core c)
  obtain ⟨gh, gc, gp, gr⟩ := hg (f (u.core c))
  have core : (((u.mapCore c f).mapCore c g).mapCtx c fun y => { y with tcause := 0x31, tval := 0 }).core c =
      { g (f (u.core c)) with ctx := some { z with tcause := 0x31, tval := 0 } } := by
    simp only [State.mapCtx, State.core_mapCore_self]
    rw [gc, fc, hu]
    simp only [hz, Option.map_some]
  have ctx : ((finishLoad s c).core c).ctx = some { z with tcause := 0x31, tval := 0 } := by rw [note.ctx, core]
  have str : (finishLoad s c).str c .s = (g (f (u.core c))).s := by rw [note.str, State.str, core]; rfl
  refine ⟨?_, by rw [str, gp, tvec], by rw [str, gr], by rw [State.ctx_of_some ctx], by rw [State.ctx_of_some ctx], ?_⟩
  · rw [note.cores, core]
    exact gh.trans (fh.trans (by rw [hu]))
  · rw [note.agenda]
    exact look.agenda

/-- A suspended context as its queue holds it. -/
def Ctx.waiting (y : Ctx) (ic : Nat) : Ctx := { y with depth := 1, ichold := ic, preempt := .none }

/-- A stop is written, the sets of the task are suspended, and its context joins its queue. -/
theorem suspendTask_parts (s : State) (c : Nat) (z : Ctx) : ∃ t u ic, Keeps s t ∧ Keeps (t.mapCtx c fun y => { y with tcause := 0x31, tval := 0 }) u ∧
    suspendTask s c z = (u.mapCore c Core.freed).mapQueue (s.launch z.launch).die (s.launch z.launch).q
      fun q => { q with resum := q.resum ++ [(u.ctx c).waiting ic] } := by
  obtain ⟨t, kept, written⟩ := writeStop_parts s c 0x31 0 true
  rw [suspendTask]
  exact ⟨t, _, _, kept, (((written.trans (.trace ..)).trans (.dropReqs ..)).trans (.markSets ..)).trans (.dropWaits ..), rfl⟩

/-- A suspended context waits at its queue, and its core is free. -/
theorem suspendTask_facts {z : Ctx} (hz : (s.core c).ctx = some z) : (suspendTask s c z).agenda = s.agenda ∧ ((suspendTask s c z).core c).ctx = none ∧
    ∃ q w, ((suspendTask s c z).queue (s.launch z.launch).die (s.launch z.launch).q).resum = q ++ [w] ∧
      q.length = (s.queue (s.launch z.launch).die (s.launch z.launch).q).resum.length ∧
      w.task = z.task ∧ w.stamp = z.stamp ∧ w.depth = 1 ∧ w.preempt = .none ∧ w.tcause = 0x31 ∧ w.tval = 0 := by
  obtain ⟨t, u, ic, kept, after, e⟩ := suspendTask_parts s c z
  obtain ⟨y, hy, ey⟩ := kept.ctx_some hz
  have stopped : ((t.mapCtx c fun y => { y with tcause := 0x31, tval := 0 }).core c).ctx = some { y with tcause := 0x31, tval := 0 } := by
    rw [State.mapCtx, State.core_mapCore_self, hy]; rfl
  obtain ⟨w, hw, ew⟩ := after.ctx_some stopped
  obtain ⟨task, stamp, -, -, -⟩ := Ctx.same_of_bare ey
  obtain ⟨wtask, wstamp, -, wcause, wval⟩ := Ctx.same_of_bare ew
  rw [e]
  refine ⟨after.agenda.trans kept.agenda, ?_, (u.queue _ _).resum, w.waiting ic, ?_, (after.queues _ _).trans (kept.queues _ _),
    wtask.trans task, wstamp.trans stamp, rfl, rfl, wcause, wval⟩
  · rw [State.core_mapQueue, State.core_mapCore_self]; rfl
  · rw [State.queue_mapQueue_self, State.ctx_of_some hw]; rfl

/-! ### A removal -/

theorem exec_contextRemoval (h : CoreTurns s c k j .contextRemoval rest) : exec .contextRemoval s = .next (removeNow c (Passed s rest)) :=
  turnEvent_of_turns (fun c _ _ s => removeNow c s) h

theorem removeNow_of_none (h : (s.core c).removal = none) : removeNow c s = s := by
  simp only [removeNow, h]

theorem removeNow_of_some {v : Word} (h : (s.core c).removal = some v) :
    removeNow c s = removeContext (s.mapCore c (fun x => { x with removal := none })) c v := by
  simp only [removeNow, h]

theorem removeContext_of_some {z : Ctx} (v : Word) (hz : (s.core c).ctx = some z) :
    removeContext s c v = (((((clearTask s c).out (.killed z.vf v)).mapCore c Core.freed).taskActs [.abandon z.launch]).releaseWindows z.launch) := by
  simp only [removeContext, hz]

/-- A core is left free, with a message to the host, and with nothing armed or open for its task. -/
theorem removeContext_facts {z : Ctx} (v : Word) (hz : (s.core c).ctx = some z) :
    (removeContext s c v).agenda = s.agenda ∧ ((removeContext s c v).core c).ctx = none ∧ .killed z.vf v ∈ (removeContext s c v).outbox ∧
      (∀ a ∈ (removeContext s c v).armed, a.task ≠ z.task) ∧ ∀ w ∈ (removeContext s c v).colls, w.task ≠ z.task := by
  have task : (s.ctx c).task = z.task := by rw [State.ctx_of_some hz]
  have cleared := Keeps.clearTask s c
  have acts : Keeps (((clearTask s c).out (.killed z.vf v)).mapCore c Core.freed) (removeContext s c v) := by
    rw [removeContext_of_some v hz]
    exact (Keeps.taskActs ..).trans (.releaseWindows ..)
  have armed := clearTask_armed s c
  have colls := clearTask_colls s c
  rw [task] at armed colls
  generalize removeContext s c v = t at acts ⊢
  generalize clearTask s c = u at cleared acts armed colls
  refine ⟨acts.agenda.trans cleared.agenda, acts.ctx_none ?_, acts.sent.subset ?_, fun a ha => armed a (acts.armed ha),
    fun w hw => colls w (acts.colls hw)⟩
  · rw [State.core_mapCore_self]; rfl
  · exact List.mem_append_right _ (List.mem_singleton.mpr rfl)

/-! ### A restart -/

theorem exec_taskRestart (h : CoreTurns s c k j .taskRestart rest) : exec .taskRestart s = .next (restartNow c (Passed s rest)) :=
  turnEvent_of_turns (fun c _ _ s => restartNow c s) h

theorem restartNow_of_not (h : (s.core c).restart = none ∨ (s.core c).ctx = none ∨ (s.core c).removal ≠ none) : restartNow c s = s := by
  rw [restartNow]
  split
  next w ix hw =>
    refine if_neg fun hp => ?_
    rw [Bool.and_eq_true, Option.isSome_iff_ne_none, Option.isNone_iff_eq_none] at hp
    exact (h.resolve_left (by simp [hw])).elim hp.1 (· hp.2)
  next => rfl

theorem restartNow_of_restart {w : Nat × Nat} {z : Ctx} (hw : (s.core c).restart = some w) (hz : (s.core c).ctx = some z)
    (hr : (s.core c).removal = none) : restartNow c s = restartTask s c w.1 w.2 := by
  simp only [restartNow, hw, hz, hr, Option.isSome_some, Option.isNone_none, Bool.and_self, if_true]

/-- A context as a restart starts it again. -/
def Ctx.again (y : Ctx) (c : Nat) : Ctx :=
  ({ y with
    restarts := min (y.restarts + 1) 65535
    preempt := match y.preempt with
      | .drain t => Preempt.drain t
      | .checkpoint => Preempt.checkpoint
      | _ => Preempt.none } : Ctx).atStart c

/-- A core on which a context starts at the body entries of its launch. -/
structure StartsAt (t : State) (c : Nat) (x : Launch) (y : Ctx) : Prop where
  context : (t.core c).ctx = some y
  restart : (t.core c).restart = none
  strands : ∀ k, t.str c k = entryStrand x y k

theorem startTask_facts (s : State) (c : Nat) (y : Ctx) (kind : Nat) :
    StartsAt (startTask s c y kind) c (s.launch y.launch) (y.atStart c) ∧ (startTask s c y kind).agenda = s.agenda := by
  rw [startTask]
  refine ⟨⟨?_, ?_, fun k => ?_⟩, (Noted.traceStrands ..).agenda⟩
  · rw [(Noted.traceStrands ..).ctx, State.core_mapCore_self]
  · rw [(Noted.traceStrands ..).cores, State.core_mapCore_self]; rfl
  · rw [(Noted.traceStrands ..).str, State.str, State.core_mapCore_self]
    cases k <;> rfl

/-- A strand at its body entry, or not started. -/
theorem entryStrand_facts (x : Launch) (y : Ctx) (k : StrandIx) : let b := (x.body[ixOf k]?).getD {}
    (b.entry = 0 → (entryStrand x y k).running = false) ∧
    (b.entry ≠ 0 → (entryStrand x y k).running = true ∧ (entryStrand x y k).pc = b.entry ∧ (entryStrand x y k).ls0 = b.kstart ∧
      (entryStrand x y k).le0 = b.kend ∧ (entryStrand x y k).lc0 = x.trip - BitVec.ofNat 32 y.resume) := by
  intro b
  have body : x.body.getD (ixOf k) {} = b := List.getD_eq_getElem?_getD
  refine ⟨fun h => ?_, fun h => ?_⟩
  · rw [entryStrand, Launch.starts, body, h]; rfl
  · have e : entryStrand x y k = startStrand x y x.hdr k b.entry b.kstart b.kend (x.trip - BitVec.ofNat 32 y.resume) := by
      rw [entryStrand, Launch.starts, body]
      exact if_pos (decide_eq_true h)
    rw [e]
    exact ⟨rfl, rfl, rfl, rfl, rfl⟩

/-- A task starts again on its core: from the launch as the withdrawal leaves it. -/
theorem restartTask_parts {z : Ctx} (w ix : Nat) (hz : (s.core c).ctx = some z) : ∃ u, Keeps s u ∧
    StartsAt (restartTask s c w ix) c (u.launch z.launch) (z.again c) ∧ (restartTask s c w ix).agenda = s.agenda := by
  have kept : Keeps s ((clearTask s c).postCore c .s 5 c w ix) := (Keeps.clearTask s c).trans (.postCore ..)
  rw [restartTask, State.ctx_of_some hz]
  generalize (clearTask s c).postCore c .s 5 c w ix = u at kept ⊢
  obtain ⟨starts, agenda⟩ := startTask_facts u c { z with
    restarts := min (z.restarts + 1) 65535
    preempt := match z.preempt with
      | .drain t => Preempt.drain t
      | .checkpoint => Preempt.checkpoint
      | _ => Preempt.none } 9
  exact ⟨u, kept, starts, agenda.trans kept.agenda⟩

end Sys2Proof.Machine
end

section
open Sys2Proof Sys2Proof.Machine

/-- Starved takes, watchpoints, nested stops, checkpoints, removals and restarts: an event each. -/
theorem Sys2Proof.Machine.contextEventsFollowR128R140R258R290R320AndR362 : ContextEventsFollowR128R140R258R290R320AndR362 := by
  intro s rest c k j
  dsimp only
  refine ⟨fun h => ?starve, fun n hn h => ?watch, fun h => ?nested, fun h => ?checkpoint, fun h => ?removal, fun h => ?restart⟩
  case starve =>
    rw [Idles, exec_tokenStarvation h]
    refine ⟨fun hd => congrArg _ (starve_of_not hd), fun hd => ?_⟩
    obtain ⟨t, note, e⟩ := starve_noted (s := Passed s rest) hd
    refine ⟨_, congrArg _ e, note.agenda, ?_, fun i hi => ?_, note.mem⟩
    · rw [State.str_mapStr_self, note.str]; rfl
    · rw [State.str_mapStr_ne _ _ _ hi, note.str]; rfl
  case watch =>
    rw [Idles, exec_watchpoint h]
    refine ⟨fun hd => congrArg _ (reportWatch_of_not ?_), fun v ha hd hv hm => ?_⟩
    · refine hd.imp_right (Or.imp_right fun hr v hv => ?_)
      obtain ⟨-, hv, first⟩ := (Ctx.report_eq_some _ _ _).mp hv
      obtain hr | ⟨m, hm, hr⟩ := hr
      · exact absurd (hr.symm.trans hv) (by simp)
      · exact hr (first m hm)
    · have first : ((Passed s rest).ctx c).report = some (n, v) := (Ctx.report_eq_some _ _ _).mpr ⟨hn, hv, hm⟩
      exact ⟨_, congrArg _ (reportWatch_of_first ha hd first), rfl, raiseOp_core_of_alive .s 0x28 v ha, fun _ he => raiseOp_core_ne (s := Passed s rest) .s 0x28 v he⟩
  case nested =>
    rw [Idles, exec_nestedStop h]
    refine ⟨fun hn => congrArg _ (nestedNow_of_not ?_), fun e he ha hc hs hp => ?_⟩
    · exact hn.imp_right (not_nestedReady (s := Passed s rest))
    have ready : NestedReady (Passed s rest) c := ⟨ha, hc, hs, hp⟩
    rw [← causeWord_eq, ← killedBy_eq]
    refine ⟨fun ht => ?_, fun ht v hr => congrArg _ (nestedNow_waits he ready ht hr), fun ht v hr => ?_⟩
    · exact unitEvent_of_mapCore ((exec_nestedStop h).trans (congrArg _ (nestedNow_removes he ready ht)))
    · obtain ⟨z, hz⟩ := Option.ne_none_iff_exists'.mp ha.1
      have look := looked_of_reach hr
      obtain ⟨agenda, nested, depth, cause, tval, y, str⟩ := enterNested_facts e (show (v.core c).ctx = some z by rw [look.core]; exact hz)
      rw [State.ctx_of_some hz]
      refine ⟨_, congrArg _ (nestedNow_enters he ready ht hr), agenda.trans look.agenda, nested, depth, cause, tval, ?_⟩
      rw [str]
      exact ⟨rfl, rfl, rfl, rfl, rfl⟩
  case checkpoint =>
    rw [Idles, exec_checkpointPreemption h]
    refine ⟨fun hn => congrArg _ (checkpointNow_of_not hn), fun z v hz hc hr => ?_, fun z v hz hc hr ht => ?_,
      fun z v hz hd hr => congrArg _ (checkpointNow_waits hz hd hr), fun z v hz hd hr => ?_⟩
    · exact congrArg _ ((checkpointNow_of_comesBack (s := Passed s rest) hz hc).trans (loadNow_waits hz hr))
    · have look := looked_of_reach hr
      have hv : (v.core c).ctx = some z := by rw [look.core]; exact hz
      obtain ⟨halted, pc, runs, cause, tval, agenda⟩ := finishLoad_facts hv ht
      exact ⟨_, congrArg _ ((checkpointNow_of_comesBack (s := Passed s rest) hz hc).trans (loadNow_loads hz hr)), agenda.trans look.agenda, halted, pc, runs, cause, tval⟩
    · have look := looked_of_reach hr
      have hv : (v.core c).ctx = some z := by rw [look.core]; exact hz
      obtain ⟨agenda, free, waits⟩ := suspendTask_facts hv
      rw [look.launch, look.queue] at waits
      exact ⟨_, congrArg _ (checkpointNow_suspends hz hd hr), agenda.trans look.agenda, free, waits⟩
  case removal =>
    rw [Idles, exec_contextRemoval h]
    refine ⟨fun hn => congrArg _ (removeNow_of_none hn), fun v z hv hz => ⟨_, congrArg _ (removeNow_of_some hv), ?_⟩⟩
    exact removeContext_facts v (by rw [State.core_mapCore_self]; exact hz)
  case restart =>
    rw [Idles, exec_taskRestart h]
    refine ⟨fun hn => congrArg _ (restartNow_of_not hn), fun w z hw hz hr hl => ?_⟩
    obtain ⟨u, kept, starts, agenda⟩ := restartTask_parts (s := Passed s rest) w.1 w.2 hz
    have bare : (u.launch z.launch).bare = (s.launch z.launch).bare := kept.launches _ hl
    refine ⟨_, z.again c, congrArg _ (restartNow_of_restart hw hz hr), agenda, starts.context, rfl, rfl, rfl, rfl, ?_, rfl, rfl, starts.restart,
      fun i => ?_⟩
    · show min (z.restarts + 1) 65535 = _
      split <;> omega
    · obtain ⟨idle, runs⟩ := entryStrand_facts (u.launch z.launch) (z.again c) i
      obtain ⟨body, trip⟩ := Launch.same_of_bare bare
      rw [starts.strands, ← body, ← trip]
      exact ⟨idle, runs⟩

end

section
/-!
SUPPORT. Landings, retirement and stops of a strand between its words (spec/01 R19 to R23, spec/07 R143 to R145, R154).
-/

namespace Sys2Proof.Machine

variable {s : State} {rest : List Turn} {c j : Nat} {k : StrandIx}

theorem Core.mapStr_setOps (x : Core) (k : StrandIx) (f : Strand → Strand) (l : List Op) :
    ({ x.mapStr k f with ops := l } : Core) = ({ x with ops := l } : Core).mapStr k f := by cases k <;> rfl

/-! ### Exposed results -/

theorem exec_resultLands (h : CoreTurns s c k j .resultLands rest) :
    exec .resultLands s = .next (if ((Passed s rest).core c).closed then landStrand (Passed s rest) c k else Passed s rest) :=
  turnEvent_of_turns (fun c k _ s => if (s.core c).closed then landStrand s c k else s) h

/-- An operation that is not due stays as it is. -/
theorem landOp_of_notDue {ic : Nat} {o : Op} (s : State) (h : NotDue ic o) : landOp c ic s o = (s, some o) := by
  rw [NotDue] at h
  rw [landOp]
  split
  next e => rw [e] at h; exact if_neg (Nat.not_le.mpr h)
  next e => rw [e] at h; exact if_neg (Nat.not_le.mpr h)
  next e => rw [e] at h; exact if_neg (Nat.not_le.mpr h)
  next => rfl
  next gs e =>
    have all : landGroups s c ic o.prog gs = (s, ⟨gs, o.prog, false⟩) := by
      cases gs with
      | nil => rfl
      | cons g gs =>
        rw [e] at h
        rw [landGroups, if_pos (by simpa using h)]
    rw [all]
    dsimp only
    rw [if_neg (by cases gs <;> simp), ← e]

/-- Of operations of which one is due and lands whole, the others stay. -/
theorem landOps_of_one {ic : Nat} {o : Op} {t : State} (ho : o.k = k) (hl : landOp c ic s o = (t, none)) (r : List Op)
    (hr : ∀ p ∈ r, p.k = k → NotDue ic p) : ∀ l : List Op, (∀ p ∈ l, p.k = k → NotDue ic p) → landOps c ic k s (l ++ o :: r) = (t, l ++ r) := by
  have stay : ∀ (u : State) (m : List Op), (∀ p ∈ m, p.k = k → NotDue ic p) → landOps c ic k u m = (u, m) := by
    intro u m
    induction m with
    | nil => exact fun _ => rfl
    | cons p m ih =>
      intro hm
      have rest := ih fun q hq => hm q (List.mem_cons_of_mem _ hq)
      rw [landOps]
      split
      next hp => rw [landOp_of_notDue u (hm p List.mem_cons_self hp)]; simp only [rest]
      next => simp only [rest]
  intro l
  induction l with
  | nil =>
    intro _
    rw [List.nil_append, landOps, if_pos ho, hl]
    exact stay t r hr
  | cons p l ih =>
    intro hm
    have rest := ih fun q hq => hm q (List.mem_cons_of_mem _ hq)
    rw [List.cons_append, landOps]
    split
    next hp => rw [landOp_of_notDue s (hm p List.mem_cons_self hp)]; simp only [rest, List.cons_append]
    next => simp only [rest, List.cons_append]

/-- What the landing of one result leaves of a core whose other results are not due. -/
structure LandsOne (s t v : State) (c : Nat) (k : StrandIx) (ops : List Op) : Prop where
  agenda  : t.agenda = v.agenda
  flight  : (t.core c).ops = ops
  scratch : (t.core c).scr = (v.core c).scr
  regs    : ∀ g, t.rd c k g = v.rd c k g
  others  : ∀ i, i ≠ k → t.str c i = v.str c i

theorem landStrand_of_one {l r : List Op} {o : Op} {v : State} (hops : (s.core c).ops = l ++ o :: r) (ho : o.k = k)
    (hd : ∀ p ∈ l ++ r, p.k = k → NotDue (s.str c k).ic p) (hl : landOp c (s.str c k).ic s o = (v, none)) :
    LandsOne s (landStrand s c k) v c k (l ++ r) := by
  have landed : landOps c (s.str c k).ic k s (s.core c).ops = (v, l ++ r) := by
    rw [hops]
    exact landOps_of_one ho hl r (fun p hp => hd p (List.mem_append_right l hp)) l fun p hp => hd p (List.mem_append_left r hp)
  have e : landStrand s c k = v.mapCore c fun y => ({ y with ops := l ++ r } : Core).clearPend k
      ((s.core c).ops.flatMap fun o => if o.k = k then exposedOf o.body else []) := by
    rw [landStrand]
    simp only [show ((s.core c).str k).ic = (s.str c k).ic from rfl, landed]
  rw [e]
  refine ⟨rfl, ?_, ?_, fun g => ?_, fun i hi => ?_⟩
  · rw [State.core_mapCore_self, Core.clearPend, Core.mapStr_ops]
  · rw [State.core_mapCore_self, Core.clearPend, Core.mapStr_scr]
  · rw [State.rd, State.str, State.core_mapCore_self, Core.clearPend, Core.str_mapStr_self]
    rfl
  · rw [State.str, State.core_mapCore_self, Core.clearPend, Core.str_mapStr_ne _ _ hi]
    cases i <;> rfl

theorem landOp_regs {ic x : Nat} {d : Reg} {v : Word} {o : Op} (h : o.body = .regs x d [v]) (hx : x ≤ ic) :
    landOp c ic s o = (s.mapStr c o.k (·.landRegs d [v]), none) := by
  simp only [landOp, h, if_pos hx]

theorem landOp_store {ic x a : Nat} {bs : List Byte} {o : Op} (h : o.body = .store x a bs) (hx : x ≤ ic) :
    landOp c ic s o = (s.mapCore c (·.scrWrite a bs), none) := by
  simp only [landOp, h, if_pos hx]

theorem Strand.rd_landRegs (t : Strand) (d : Reg) (v : Word) (g : Reg) :
    (t.landRegs d [v]).rd g = if g = d ∧ g ≠ 0 ∧ t.fresh.getLsbD d.toNat = false then v else t.rd g := by
  by_cases h0 : g = 0
  · rw [h0, Strand.rd_zero, if_neg fun h => h.2.1 rfl, Strand.rd_zero]
  rw [Strand.landRegs, Strand.landRegs]
  by_cases hf : t.fresh.getLsbD d.toNat = true
  · rw [if_pos hf, if_neg (by simp [hf])]
  rw [if_neg hf, Strand.rd_setReg]
  by_cases hg : g = d
  · rw [if_pos hg, if_neg (hg ▸ h0), if_pos ⟨hg, h0, Bool.eq_false_iff.mpr hf⟩]
  · rw [if_neg hg, if_neg fun h => hg h.1]

theorem Core.scrWrite_get (x : Core) (a : Nat) (bs : List Byte) (b : Nat) :
    Tab.get 0 (x.scrWrite a bs).scr b = if a ≤ b ∧ b < a + bs.length then bs.getD (b - a) 0 else Tab.get 0 x.scr b := by
  have written : (x.scrWrite a bs).scr = writeBytes x.scr a bs := by
    rw [Core.scrWrite]
    cases bs <;> rfl
  rw [written]
  split
  next h =>
    have := writeBytes_get_self bs a x.scr (b - a) (by omega)
    rwa [Nat.add_sub_cancel' h.1] at this
  next h => exact writeBytes_get bs a x.scr b (by omega)

theorem Core.str_scrWrite (x : Core) (a : Nat) (bs : List Byte) (i : StrandIx) : (x.scrWrite a bs).str i = x.str i := by
  rw [Core.scrWrite]
  split
  · rfl
  · cases i <;> rfl

/-! ### Retirement -/

theorem exec_wordRetire (h : CoreTurns s c k j .wordRetire rest) :
    exec .wordRetire s = .next (if ((Passed s rest).core c).closed then (Passed s rest).mapCore c (retireStrand · k) else Passed s rest) :=
  turnEvent_of_turns (fun c k _ s => if (s.core c).closed then s.mapCore c (fun x => retireStrand x k) else s) h

theorem exec_strandStops (h : CoreTurns s c k j .strandStops rest) :
    exec .strandStops s = .next (if ((Passed s rest).core c).closed then (Passed s rest).mapCore c (stopStrand · k) else Passed s rest) :=
  turnEvent_of_turns (fun c k _ s => if (s.core c).closed then s.mapCore c (fun x => stopStrand x k) else s) h

theorem retireStrand_of_not_held {x : Core} (hc : Closed x) (h : (x.str k).held = false) : retireStrand x k = x := by
  rw [retireStrand, hc.2 k, h]
  rfl

theorem Core.room_iff (x : Core) (f : Nat) : x.room f = true ↔ cnt x.tok f + cnt x.gave f < 8 := decide_eq_true_iff

theorem cnt_bump (t : Tab Nat) (f g : Nat) : cnt (bump t f) g = cnt t g + if f = g then 1 else 0 := by
  rw [bump, cnt, Tab.get_set]
  by_cases h : g = f
  · subst h; simp
  · rw [if_neg h, if_neg (Ne.symm h)]; rfl

theorem cnt_foldl_bump (fs : List Nat) (g : Nat) : ∀ t : Tab Nat, cnt (fs.foldl bump t) g = cnt t g + fs.count g := by
  induction fs with
  | nil => exact fun _ => rfl
  | cons f fs ih =>
    intro t
    rw [List.foldl_cons, ih, cnt_bump, List.count_cons, Nat.add_assoc, Nat.add_comm (List.count g fs)]
    congr 2
    simp only [beq_iff_eq]

section
variable {x : Core} {e : RetEnt} {q : List RetEnt}

/-- A held word past its finish point retires if its gives have room. -/
theorem retireStrand_of_held (hc : Closed x) (hh : (x.str k).held = true) (hr : (x.str k).ret = e :: q) (hu : x.unfinished k e = false) :
    retireStrand x k = if (givesOf k e.gl e.gr).all x.room then (x.give (givesOf k e.gl e.gr)).mapStr k fun u => { u with ret := q, held := false }
      else x.mapStr k fun u => { u with held := true } := by
  rw [retireStrand, if_neg (by simp [hc.2 k]), if_pos hh, retireN, hr]
  dsimp only
  rw [if_neg (by simp [hu])]
  rfl

/-- A held word whose gives have room retires with them. -/
theorem retireStrand_of_room (hc : Closed x) (hh : (x.str k).held = true) (hr : (x.str k).ret = e :: q) (hu : x.unfinished k e = false)
    (hg : ∀ f ∈ givesOf k e.gl e.gr, cnt x.tok f + cnt x.gave f < 8) :
    retireStrand x k = ({ x with gave := (givesOf k e.gl e.gr).foldl bump x.gave } : Core).setStr k { x.str k with ret := q, held := false } := by
  have room : (givesOf k e.gl e.gr).all x.room = true := List.all_eq_true.mpr fun f hf => (x.room_iff f).mpr (hg f hf)
  rw [retireStrand_of_held hc hh hr hu, if_pos room]
  cases k <;> rfl

/-- A held word whose gives have no room stays held. -/
theorem retireStrand_of_no_room (hc : Closed x) (hh : (x.str k).held = true) (hr : (x.str k).ret = e :: q) (hu : x.unfinished k e = false)
    (hg : ∃ f ∈ givesOf k e.gl e.gr, 8 ≤ cnt x.tok f + cnt x.gave f) : retireStrand x k = x := by
  have room : (givesOf k e.gl e.gr).all x.room = false := by
    obtain ⟨f, hf, h⟩ := hg
    exact List.all_eq_false.mpr ⟨f, hf, fun hr => absurd ((x.room_iff f).mp hr) (Nat.not_lt.mpr h)⟩
  have same : x.mapStr k (fun u => { u with held := true }) = x := by
    rw [Core.mapStr, ← hh]
    exact x.setStr_str k
  rw [retireStrand_of_held hc hh hr hu, if_neg (by simp [room])]
  exact same

end

/-! ### The stop of a strand -/

theorem stopStrand_of_done {x : Core} (hr : (x.str k).running = true) (he : (x.str k).exiting = true) (hq : (x.str k).ret = []) :
    stopStrand x k = x.setStr k { x.str k with running := false, exiting := false } := by
  simp only [stopStrand, hr, he, hq, List.isEmpty_nil, Bool.and_self, if_true]

theorem stopStrand_of_not_done {x : Core} (h : (x.str k).running = false ∨ (x.str k).exiting = false ∨ (x.str k).ret ≠ []) : stopStrand x k = x := by
  rw [stopStrand]
  refine if_neg fun hd => ?_
  simp only [Bool.and_eq_true, List.isEmpty_iff] at hd
  obtain ⟨⟨hr, he⟩, hq⟩ := hd
  simp [hr, he, hq] at h

end Sys2Proof.Machine
end

section
/-!
SUPPORT. Interlocked results land (spec/01 R23): the value of each word, and what a gld finds at its home port (spec/05 R105 to R109).
-/

namespace Sys2Proof.Machine

variable {s u : State} {rest : List Turn} {c j : Nat} {k : StrandIx} {l r : List Op} {o : Op} {d : Reg}

/-! ### An operation among those in flight -/

/-- What marks an operation in the list of its core. -/
theorem Alone.marks {x : Core} (h : Alone x l o r) : ∀ p ∈ l ++ r, (p.ord == o.ord && p.k == o.k) = false := fun p hp => by
  obtain h | h := h.2 p hp <;> simp [h]

theorem Alone.getElem? {x : Core} (h : Alone x l o r) : x.ops[l.length]? = some o := by rw [h.1]; simp

theorem Alone.filter_ops {x : Core} (h : Alone x l o r) : x.ops.filter (fun p => !(p.ord == o.ord && p.k == o.k)) = l ++ r := by
  rw [h.1, List.filter_append, List.filter_cons_of_neg (by simp), ← List.filter_append, List.filter_eq_self]
  intro p hp
  rw [h.marks p hp, Bool.not_false]

theorem Alone.flatMap_ops {x : Core} (h : Alone x l o r) (f : Op → List Op) :
    x.ops.flatMap (fun p => if p.ord == o.ord && p.k == o.k then f p else [p]) = l ++ f o ++ r := by
  have stay : ∀ m : List Op, (∀ p ∈ m, p ∈ l ++ r) → m.flatMap (fun p => if p.ord == o.ord && p.k == o.k then f p else [p]) = m := by
    intro m
    induction m with
    | nil => exact fun _ => rfl
    | cons p m ih =>
      intro hm
      rw [List.flatMap_cons, ih fun q hq => hm q (List.mem_cons_of_mem _ hq), if_neg (by rw [h.marks p (hm p List.mem_cons_self)]; simp)]
      rfl
  rw [h.1, List.flatMap_append, List.flatMap_cons, stay l fun p => List.mem_append_left r, stay r fun p => List.mem_append_right l,
    if_pos (by simp), List.append_assoc]

theorem Alone.map_ops {x : Core} (h : Alone x l o r) (f : Op → Op) :
    x.ops.map (fun p => if p.ord == o.ord && p.k == o.k then f p else p) = l ++ f o :: r := by
  have stay : ∀ m : List Op, (∀ p ∈ m, p ∈ l ++ r) → m.map (fun p => if p.ord == o.ord && p.k == o.k then f p else p) = m := fun m hm => by
    refine (List.map_congr_left fun p hp => ?_).trans (List.map_id m)
    rw [if_neg (by rw [h.marks p (hm p hp)]; simp)]
    rfl
  rw [h.1, List.map_append, List.map_cons, stay l fun p => List.mem_append_left r, stay r fun p => List.mem_append_right l, if_pos (by simp)]

/-! ### The landing -/

theorem exec_interlockedResultLands (h : CoreTurns s c k j .interlockedResultLands rest) :
    exec .interlockedResultLands s = .next (landInterlocked c j (Passed s rest)) :=
  turnEvent_of_turns (fun c _ j s => landInterlocked c j s) h

theorem landInterlocked_of_not (h : ¬ Alive (s.core c) ∨ (s.core c).ops.length ≤ j) : landInterlocked c j s = s := by
  rw [landInterlocked]
  split
  · rfl
  next ha =>
    have alive : Alive (s.core c) := (Core.alive_iff _).mp (by simpa using ha)
    rw [List.getElem?_eq_none (h.resolve_left (not_not.mpr alive))]

/-- The registers of a result. -/
def Strand.landPair (t : Strand) (d : Reg) (v : Word) (hi : Option Word) : Strand :=
  match hi with
  | none => t.setReg d v
  | some w => (t.setReg d v).setReg (d + 1) w

theorem Strand.rd_landPair (t : Strand) (d : Reg) (v : Word) (hi : Option Word) (g : Reg) : (t.landPair d v hi).rd g =
    if g = 0 then 0 else if g = d then v else if g = d + 1 then hi.getD (t.rd g) else t.rd g := by
  by_cases h0 : g = 0
  · rw [h0, Strand.rd_zero, if_pos rfl]
  rw [if_neg h0]
  have next : d ≠ d + 1 := by bv_omega
  cases hi with
  | none =>
    rw [Strand.landPair, Strand.rd_setReg]
    by_cases hg : g = d
    · rw [if_pos hg, if_pos hg, if_neg (hg ▸ h0)]
    · rw [if_neg hg, if_neg hg]
      exact (ite_self _).symm
  | some w =>
    rw [Strand.landPair, Strand.rd_setReg, Strand.rd_setReg]
    by_cases hg : g = d
    · rw [if_neg (hg ▸ next), if_pos hg, if_pos hg, if_neg (hg ▸ h0)]
    · rw [if_neg hg, if_neg hg]
      by_cases hn : g = d + 1
      · rw [if_pos hn, if_pos hn, if_neg (hn ▸ h0)]; rfl
      · rw [if_neg hn, if_neg hn]

theorem finishOp_eq {p : Bool} {f : Option (List Byte)} (h : o.body = .ilock d p f) (v : Word) (hi : Option Word) :
    finishOp u c o (v :: hi.toList) = dropOp (u.mapStr c o.k (·.landPair d v hi)) c o.ord o.k := by
  have zero : d + BitVec.ofNat 5 0 = d := by bv_omega
  cases hi with
  | none => simp only [finishOp, h, Option.toList, List.length_singleton, List.range_one, List.zip_cons_cons, List.zip_nil_left, List.foldl_cons,
      List.foldl_nil, zero, Strand.landPair]
  | some w =>
    have two : List.range 2 = [0, 1] := rfl
    simp only [finishOp, h, Option.toList, List.length_cons, List.length_nil, Nat.zero_add, Nat.reduceAdd, two, List.zip_cons_cons, List.zip_nil_left,
      List.foldl_cons, List.foldl_nil, zero, Strand.landPair]
    rfl

/-- A result that lands by `finishOp` lands as R23 says. -/
theorem landsResult_of_finishOp {i : Instr} {p : Bool} {f : Option (List Byte)} {v : Word} {hi : Option Word} (ha : Alone (u.core c) l o r)
    (hb : o.body = .ilock d p f) (he : exec i s = .next (finishOp u c o (v :: hi.toList))) : LandsResult i s u c l o r d v hi := by
  rw [finishOp_eq hb] at he
  have others : ∀ e, e ≠ c → (dropOp (u.mapStr c o.k (·.landPair d v hi)) c o.ord o.k).core e = u.core e := fun e hne =>
    ((u.mapStr c o.k _).core_mapCore_ne _ hne).trans (u.core_mapStr_ne _ _ hne)
  have core : (dropOp (u.mapStr c o.k (·.landPair d v hi)) c o.ord o.k).core c = ({ u.core c with ops := l ++ r } : Core).mapStr o.k (·.landPair d v hi) := by
    rw [dropOp, State.core_mapCore_self, State.core_mapStr_self, Core.mapStr_ops, ha.filter_ops, Core.mapStr_setOps]
  have whole : dropOp (u.mapStr c o.k (·.landPair d v hi)) c o.ord o.k = { u with cores := (dropOp (u.mapStr c o.k (·.landPair d v hi)) c o.ord o.k).cores } := rfl
  generalize dropOp (u.mapStr c o.k (·.landPair d v hi)) c o.ord o.k = w at he others core whole
  refine ⟨w.cores, he.trans (congrArg _ whole), others, ?_⟩
  dsimp only
  rw [show Tab.get {} w.cores c = _ from core]
  refine ⟨Core.mapStr_ops .., fun i hi => ?_, fun g => ?_, Core.mapStr_units ..⟩
  · rw [Core.str_mapStr_ne _ _ hi]; cases i <;> rfl
  · rw [Core.str_mapStr_self, show ({ u.core c with ops := l ++ r } : Core).str o.k = (u.core c).str o.k by cases o.k <;> rfl]
    exact Strand.rd_landPair ..

/-! ### The value of each word -/

section
variable (ha : Alive (s.core c)) (hA : Alone (s.core c) l o r) (hj : l.length = j)
include ha hA hj

theorem landInterlocked_div {n : Ann} {a b : Reg} {un : Bool} (h : o.img = .div n d a b un) :
    landInterlocked c j s = finishOp s c o [divV un o.op0 o.op1] := by
  simp only [landInterlocked, (Core.alive_iff _).mpr ha, ← hj, hA.getElem?, h, Bool.not_true, Bool.false_eq_true, if_false]

theorem landInterlocked_rem {n : Ann} {a b : Reg} {un : Bool} (h : o.img = .rem n d a b un) :
    landInterlocked c j s = finishOp s c o [remV un o.op0 o.op1] := by
  simp only [landInterlocked, (Core.alive_iff _).mpr ha, ← hj, hA.getElem?, h, Bool.not_true, Bool.false_eq_true, if_false]

theorem landInterlocked_gld {n : Ann} {a : Reg} {x : BitVec 3} {aq q : Bool} (h : o.img = .gld n d a x aq q) :
    landInterlocked c j s = landGld s c o q := by
  simp only [landInterlocked, (Core.alive_iff _).mpr ha, ← hj, hA.getElem?, h, Bool.not_true, Bool.false_eq_true, if_false]

/-- The oldest btest of its barrier reads the generation. -/
theorem landInterlocked_btest {n : Bool} {b : BitVec 5} (h : o.img = .btest n d b)
    (first : ∀ p ∈ l ++ r, (∃ m e f, p.img = .btest m e f) → o.ord ≤ p.ord ∨ p.op0.extractLsb' 0 5 ≠ o.op0.extractLsb' 0 5) :
    landInterlocked c j s = finishOp s c o [((s.barrier c (o.op0.extractLsb' 0 5)).seen s.clock).setWidth 64] := by
  simp only [landInterlocked, (Core.alive_iff _).mpr ha, ← hj, hA.getElem?, h, Bool.not_true, Bool.false_eq_true, if_false]
  rw [landTest, if_pos]
  refine List.all_eq_true.mpr fun p hp => ?_
  split
  next m e f hp' =>
    rw [Bool.or_eq_true, decide_eq_true_eq, bne_iff_ne]
    rw [hA.1, List.mem_append, List.mem_cons] at hp
    obtain hp | rfl | hp := hp
    · exact first p (List.mem_append_left r hp) ⟨m, e, f, hp'⟩
    · exact Or.inl (Nat.le_refl _)
    · exact first p (List.mem_append_right l hp) ⟨m, e, f, hp'⟩
  next => rfl

theorem landInterlocked_stat (hs : (∃ n, o.img = .asstatSt n d) ∨ (∃ n, o.img = .asstatAge n d) ∨ ∃ n a, o.img = .asstatSet n d a)
    (hw : statWaits s c o = false) : landInterlocked c j s = finishOp s c o [statValue s c o.img o.op0] := by
  obtain ⟨n, h⟩ | ⟨n, h⟩ | ⟨n, a, h⟩ := hs <;>
    simp only [landInterlocked, (Core.alive_iff _).mpr ha, ← hj, hA.getElem?, h, hw, Bool.not_true, Bool.false_eq_true, if_false]

end

theorem statValue_age (n : Bool) (id : Word) : statValue s c (.asstatAge n d) id = (s.ctx c).stamp := rfl

theorem statValue_st (n : Bool) (id : Word) : statValue s c (.asstatSt n d) id = BitVec.ofNat 64
    (((setList (s.vf (s.ctx c).vf)).filter (fun e => e.2.st != .free && e.2.holder == (s.ctx c).task)).length
      + 2 ^ 16 * ((s.buf (s.ctx c).task).map (·.gran.length)).getD 0 + 2 ^ 32 * (s.ctx c).restarts) := by
  have held : (setList (s.vf (s.ctx c).vf)).filter (fun e => e.2.st ≠ .free && e.2.holder = (s.ctx c).task) =
      (setList (s.vf (s.ctx c).vf)).filter (fun e => e.2.st != .free && e.2.holder == (s.ctx c).task) :=
    List.filter_congr fun e _ => by simp only [bne, decide_not, beq_eq_decide]
  rw [statValue, held, Nat.mul_comm (2 ^ 16), Nat.mul_comm (2 ^ 32)]

theorem statValue_set (n : Bool) (a : Reg) (id : Word) : statValue s c (.asstatSet n d a) id = match setNamed (s.vf (s.ctx c).vf) id with
    | none => 0
    | some e => if e.2.st = .free then 1 else if e.2.holder = (s.ctx c).task then 2 else 3 := by
  simp only [statValue]
  split <;> rename_i e <;> rw [e]

/-! ### A gld at its home port -/

theorem State.mapCore_congr {f g : Core → Core} (h : f (s.core c) = g (s.core c)) : s.mapCore c f = s.mapCore c g := by
  rw [State.mapCore, h]
  rfl

/-- The bytes that a gld returns, as the values of its registers. -/
theorem gldValues (q : Bool) (bs : List Byte) : (pairOf bs).take ((if q = true then 16 else 8) / 8) =
    BitVec.ofNat 64 (NumberOf (bs.take 8)) :: (if q = true then some (BitVec.ofNat 64 (NumberOf (bs.drop 8))) else none).toList := by
  rw [numberOf_eq_leNat, numberOf_eq_leNat]
  cases q <;> rfl

theorem readBytes_eq_map (m : Tab Byte) (n : Nat) : ∀ x : Nat, readBytes m x n = (List.range n).map fun b => Tab.get 0 m (x + b) := by
  induction n with
  | zero => exact fun _ => rfl
  | succ n ih =>
    intro x
    rw [readBytes, ih, List.range_succ_eq_map, List.map_cons, List.map_map]
    congr 1
    exact List.map_congr_left fun b _ => congrArg (Tab.get 0 m) (by simp only [Nat.succ_eq_add_one]; omega)

/-- The bytes read at an address, as the values of a gld's registers. -/
theorem readValues (q : Bool) (m : Tab Byte) (x : Nat) : (pairOf (readBytes m x (if q = true then 16 else 8))).take ((if q = true then 16 else 8) / 8) =
    BitVec.ofNat 64 (NumberOf ((List.range 8).map fun b => Tab.get 0 m (x + b))) ::
      (if q = true then some (BitVec.ofNat 64 (NumberOf ((List.range 8).map fun b => Tab.get 0 m (x + 8 + b)))) else none).toList := by
  rw [gldValues, readBytes_eq_map, ← List.map_take, ← List.map_drop]
  have low : (List.range (if q = true then 16 else 8)).take 8 = List.range 8 := by cases q <;> rfl
  have high : (List.range 16).drop 8 = (List.range 8).map (8 + ·) := by decide
  rw [low]
  cases q
  · simp only [Bool.false_eq_true, if_false]
  · simp only [if_true, high, List.map_map, Function.comp_def, Nat.add_assoc]

/-- A stack or a slice is read there, and the host hears nothing of it. -/
theorem portRead_of_mem {pa : Nat} (n : Nat) (h : ∃ m, homeOf pa = .hbm m ∨ homeOf pa = .sdm m) :
    s.portRead pa n = readBytes s.mem pa n ∧ s.noteRead pa n = s := by
  obtain ⟨m, h | h⟩ := h <;> exact ⟨by rw [State.portRead, h], by rw [State.noteRead, h]⟩

section
variable {t : State} {q : Bool} {pa : Nat}

/-! A gld whose bytes are there: they come back unless a link holds them. -/

theorem landGld_forwarded_shut {bs : List Byte} (hb : o.body = .ilock d q (some bs)) (h : ∃ pa, o.pa = some pa ∧ s.rspShut (dieOf c) pa = true) :
    landGld s c o q = s := by
  obtain ⟨pa, hp, hs⟩ := h
  simp only [landGld, hb, hp, Option.any, hs, if_true]

theorem landGld_forwarded {bs : List Byte} (hb : o.body = .ilock d q (some bs)) (h : ¬ ∃ pa, o.pa = some pa ∧ s.rspShut (dieOf c) pa = true) :
    landGld s c o q = finishOp s c o ((pairOf bs).take ((if q = true then 16 else 8) / 8)) := by
  have opened : o.pa.any (s.rspShut (dieOf c)) = false := by
    cases hp : o.pa with
    | none => rfl
    | some pa => exact Bool.eq_false_iff.mpr fun hs => h ⟨pa, hp, hs⟩
  simp only [landGld, hb, opened, Bool.false_eq_true, if_false]

section
variable (hb : o.body = .ilock d q none)
include hb

theorem landGld_waits (hw : gldWaits (s.core c) o (if q = true then 16 else 8) = true) : landGld s c o q = s := by
  simp only [landGld, hb, hw, if_true]

variable (hw : gldWaits (s.core c) o (if q = true then 16 else 8) = false)
include hw

theorem landGld_access_waits (h : accessFrom s c (unitOrd o.ord) (s.ctx c).vf o.op2 .read (if q = true then 16 else 8) false o.pa = (t, .wait)) :
    landGld s c o q = t := by
  simp only [landGld, hb, hw, h, Bool.false_eq_true, if_false]

theorem landGld_held (h : accessFrom s c (unitOrd o.ord) (s.ctx c).vf o.op2 .read (if q = true then 16 else 8) false o.pa = (t, .held pa))
    (hA : Alone (t.core c) l o r) : landGld s c o q = t.mapCore c fun y => { y with ops := l ++ { o with pa := some pa } :: r } := by
  simp only [landGld, hb, hw, h, Bool.false_eq_true, if_false]
  exact State.mapCore_congr (by rw [hA.map_ops, hb])

theorem landGld_behind (h : accessFrom s c (unitOrd o.ord) (s.ctx c).vf o.op2 .read (if q = true then 16 else 8) false o.pa = (t, .ok pa))
    (hA : Alone (t.core c) l o r) (ht : t.behind c pa = true) :
    landGld s c o q = t.mapCore c fun y => { y with ops := l ++ { o with pa := some pa } :: r } := by
  simp only [landGld, hb, hw, h, ht, Bool.false_eq_true, if_false, if_true]
  exact State.mapCore_congr (by rw [hA.map_ops, hb])

theorem landGld_faults {fw : Bool} {m : Nat}
    (h : accessFrom s c (unitOrd o.ord) (s.ctx c).vf o.op2 .read (if q = true then 16 else 8) false o.pa = (t, .fault fw m)) :
    landGld s c o q = gldFault t c o (if fw = true then 0x39 else 0x0C) := by
  simp only [landGld, hb, hw, h, Bool.false_eq_true, if_false]

section
variable (h : accessFrom s c (unitOrd o.ord) (s.ctx c).vf o.op2 .read (if q = true then 16 else 8) false o.pa = (t, .ok pa))
  (ht : t.behind c pa = false) (hs : t.setOf (s.ctx c).vf (o.op2 &&& ~~~15) = none) (hm : ∃ m, homeOf pa = .hbm m ∨ homeOf pa = .sdm m)
include h ht hs hm

theorem landGld_reads (hp : t.rspShut (dieOf c) pa = false) :
    landGld s c o q = finishOp t c o ((pairOf (readBytes t.mem pa (if q = true then 16 else 8))).take ((if q = true then 16 else 8) / 8)) := by
  obtain ⟨hread, hnote⟩ := portRead_of_mem (s := t) (if q = true then 16 else 8) hm
  have hg : t.setOf (s.ctx c).vf (granuleOf o.op2) = none := hs
  simp only [landGld, hb, hw, h, ht, hg, hnote, hread, hp, bufBytes, Bool.false_eq_true, if_false]

theorem landGld_reads_shut (hA : Alone (t.core c) l o r) (hp : t.rspShut (dieOf c) pa = true) :
    landGld s c o q = t.mapCore c fun y => { y with ops := l ++ { o with
      pa := some pa, body := .ilock d q (some (readBytes t.mem pa (if q = true then 16 else 8))) } :: r } := by
  obtain ⟨hread, hnote⟩ := portRead_of_mem (s := t) (if q = true then 16 else 8) hm
  have hg : t.setOf (s.ctx c).vf (granuleOf o.op2) = none := hs
  simp only [landGld, hb, hw, h, ht, hg, hnote, hread, hp, bufBytes, Bool.false_eq_true, if_false, if_true]
  exact State.mapCore_congr (by rw [hA.map_ops, hb])

end

end

end

theorem Looked.of_accessFrom {u vf n : Nat} {va : Word} {kind : AccKind} {ap : Bool} {pa : Option Nat} {t : State} {a : TrRes}
    (h : Machine.accessFrom s c u vf va kind n ap pa = (t, a)) : Looked s t := by
  have looked := Looked.accessFrom s c u vf va kind n ap pa
  rwa [h] at looked

theorem Looked.of_access {u vf n : Nat} {va : Word} {kind : AccKind} {ap : Bool} {t : State} {a : TrRes}
    (h : Machine.access s c u vf va kind n ap = (t, a)) : Looked s t := by
  have looked := Looked.access s c u vf va kind n ap
  rwa [h] at looked

theorem loseFrom_of_depth (h : (s.ctx c).depth = 0) (n : Nat) : loseFrom s c k n = s := if_pos h

end Sys2Proof.Machine
end

section
/-!
SUPPORT. An interlocked vector group lands (spec/01 R21, spec/08 R187).
-/

namespace Sys2Proof.Machine

variable {s : State} {rest : List Turn} {c j : Nat} {k : StrandIx} {l r : List Op} {o : Op} {g : VGroup} {gs : List VGroup}

theorem exec_vectorGroupLands (h : CoreTurns s c k j .vectorGroupLands rest) : exec .vectorGroupLands s = .next (dueVector c (Passed s rest)) :=
  turnEvent_of_turns (fun c _ _ s => dueVector c s) h

theorem Alive.stops {x : Core} (h : Alive x) : x.stops = [] := by
  obtain ⟨-, -, -, -, none⟩ := h
  exact none

theorem dueVector_of_not_alive (h : ¬ Alive (s.core c)) : dueVector c s = s := by
  rw [dueVector, Core.alive_eq_false h]
  rfl

theorem dueVector_of_more (ha : Alive (s.core c)) (h : ∃ m, .issue c m ∈ s.agenda) : dueVector c s = s.mapCore c fun x => { x with vdue := true } := by
  rw [dueVector, (Core.alive_iff _).mpr ha, (moreTurns_iff c s.agenda).mpr h]
  rfl

theorem dueVector_of_last (ha : Alive (s.core c)) (h : ¬ ∃ m, .issue c m ∈ s.agenda) : dueVector c s = takeStop (landVector c s) c := by
  rw [dueVector, (Core.alive_iff _).mpr ha, Bool.eq_false_iff.mpr (mt (moreTurns_iff c s.agenda).mp h)]
  rfl

/-! ### What a group changes -/

/-- The writes of a group change the scratchpad alone. -/
theorem foldl_scrWrite (ws : List (Nat × List Byte)) : ∀ x : Core, ∃ v, ws.foldl (fun x w => x.scrWrite w.1 w.2) x =
    { x with scr := ws.foldl (fun m w => writeBytes m w.1 w.2) x.scr, valid := v } := by
  induction ws with
  | nil => exact fun x => ⟨x.valid, rfl⟩
  | cons w ws ih =>
    intro x
    have one : ∃ v, x.scrWrite w.1 w.2 = { x with scr := writeBytes x.scr w.1 w.2, valid := v } := by
      rw [Core.scrWrite]
      split
      next h => exact ⟨x.valid, by rw [List.isEmpty_iff.mp h]; rfl⟩
      next => exact ⟨_, rfl⟩
    obtain ⟨v, e⟩ := one
    obtain ⟨v', e'⟩ := ih { x with scr := writeBytes x.scr w.1 w.2, valid := v }
    exact ⟨v', by rw [List.foldl_cons, e, e', List.foldl_cons]⟩

theorem raiseOp_core (s : State) (c : Nat) (k : StrandIx) (code : Nat) (v : Word) :
    (s.raiseOp c k code v).core c = { s.core c with stops := (s.core c).stops ++ [⟨3, k, code, 0, v⟩] } := s.core_mapCore_self c _

theorem raiseIf_core (s : State) (c : Nat) (p : Bool) (k : StrandIx) (code : Nat) (v : Word) :
    (if p = true then s.raiseOp c k code v else s).core c =
      { s.core c with stops := (s.core c).stops ++ if p = true then [⟨3, k, code, 0, v⟩] else [] } := by
  split
  · exact raiseOp_core s c k code v
  · rw [List.append_nil]

/-- What the landing of a group leaves of its core. -/
structure GroupLanded (x y : Core) (g : VGroup) : Prop where
  flight  : y.ops = x.ops
  scratch : y.scr = g.writes.foldl (fun m w => writeBytes m w.1 w.2) x.scr
  status  : y.c.sst = sstRaise x.c.sst g.flags
  stops   : y.stops = x.stops ++ (if fpEnabled x.c.sst g.flags = true then [⟨3, .c, 0x08, 0, g.flags.setWidth 64⟩] else [])
    ++ (match g.fault with | some a => [⟨3, .c, 0x05, 0, BitVec.ofNat 64 a⟩] | none => [])

theorem landGroup_landed (s : State) (c : Nat) (g : VGroup) : GroupLanded (s.core c) ((landGroup s c g).core c) g := by
  obtain ⟨v, e⟩ := foldl_scrWrite g.writes (s.core c)
  have written : (s.mapCore c fun x => g.writes.foldl (fun x w => x.scrWrite w.1 w.2) x).core c =
      { s.core c with scr := g.writes.foldl (fun m w => writeBytes m w.1 w.2) (s.core c).scr, valid := v } := by rw [State.core_mapCore_self, e]
  rw [landGroup]
  generalize s.mapCore c (fun x => g.writes.foldl (fun x w => x.scrWrite w.1 w.2) x) = t at written ⊢
  have sst : (t.str c .c).sst = (s.core c).c.sst := by rw [State.str, written]; rfl
  have raised : (t.mapStr c .c fun t => { t with sst := sstRaise t.sst g.flags }).core c = (t.core c).mapStr .c _ := State.core_mapStr_self ..
  rw [written] at raised
  rw [sst]
  split
  next a ha =>
    rw [raiseOp_core, raiseIf_core, raised]
    exact ⟨rfl, rfl, rfl, by rw [ha]; rfl⟩
  next ha =>
    rw [raiseIf_core, raised]
    exact ⟨rfl, rfl, rfl, by rw [ha, List.append_nil]; rfl⟩

theorem landGroup_agenda (s : State) (c : Nat) (g : VGroup) : (landGroup s c g).agenda = s.agenda := (Keeps.landGroup s c g).agenda

theorem sstRaise_getLsbD (x : Word) (f : Flags) (b : Nat) :
    (sstRaise x f).getLsbD b = (x.getLsbD b || (decide (5 ≤ b ∧ b < 10) && f.getLsbD (b - 5))) := by
  have bits : (BitVec.ofNat 64 f.toNat <<< 5).getLsbD b = (decide (b < 64) && !decide (b < 5) && (decide (b - 5 < 64) && f.getLsbD (b - 5))) := by
    rw [BitVec.getLsbD_shiftLeft, BitVec.getLsbD_ofNat, BitVec.testBit_toNat]
  have high : ¬ b < 10 → f.getLsbD (b - 5) = false := fun h => BitVec.getLsbD_of_ge f (b - 5) (by omega)
  rw [sstRaise, BitVec.getLsbD_or, bits]
  congr 1
  by_cases h5 : b < 5
  · simp [h5, Nat.not_le.mpr h5]
  · by_cases h10 : b < 10
    · simp [h5, h10, Nat.not_lt.mp h5, show b < 64 by omega, show b - 5 < 64 by omega]
    · simp [h10, high h10]

/-! ### The first interlocked group of a core -/

theorem find_nextInterlocked {x : Core} (hA : Alone x l o r) (hb : o.body = .vec (g :: gs)) (hg : g.at' = 0)
    (hl : ∀ p ∈ l, ∀ h hs, p.body = .vec (h :: hs) → h.at' ≠ 0) : x.ops.find? nextInterlocked = some o := by
  rw [List.find?_eq_some_iff_append]
  refine ⟨by rw [nextInterlocked, hb]; exact beq_iff_eq.mpr hg, l, r, hA.1, fun p hp => ?_⟩
  rw [Bool.not_eq_true', nextInterlocked]
  split
  next h hs e => exact beq_eq_false_iff_ne.mpr (hl p hp h hs e)
  next => rfl

/-- The word of a group that has landed. -/
def Op.afterGroup (o : Op) (g : VGroup) (gs : List VGroup) : List Op :=
  if gs.isEmpty && g.fault.isNone then [] else [{ o with prog := g.cur, body := .vec (if g.fault.isSome then [] else gs) }]

/-- A word keeps its place for the groups that it has left, and for its record where the group faults. -/
theorem Op.afterGroup_of_none (h : g.fault = none) : o.afterGroup g gs = if gs = [] then [] else [{ o with prog := g.cur, body := .vec gs }] := by
  rw [Op.afterGroup, h]
  cases gs <;> rfl

theorem Op.afterGroup_of_some (h : g.fault ≠ none) : o.afterGroup g gs = [{ o with prog := g.cur, body := .vec [] }] := by
  obtain ⟨a, h⟩ := Option.ne_none_iff_exists'.mp h
  rw [Op.afterGroup, h]
  cases gs <;> rfl

theorem landVector_core (hA : Alone (s.core c) l o r) (hb : o.body = .vec (g :: gs)) (hg : g.at' = 0)
    (hl : ∀ p ∈ l, ∀ h hs, p.body = .vec (h :: hs) → h.at' ≠ 0) : (landVector c s).agenda = s.agenda ∧
    (landVector c s).core c = { (landGroup s c g).core c with ops := l ++ o.afterGroup g gs ++ r } := by
  have alone : Alone ((landGroup s c g).core c) l o r := ⟨(landGroup_landed s c g).flight.trans hA.1, hA.2⟩
  have e : landVector c s = (landGroup s c g).mapCore c fun y => { y with ops := y.ops.flatMap fun p =>
      if p.ord == o.ord && p.k == o.k then (if gs.isEmpty && g.fault.isNone then []
        else [{ p with prog := g.cur, body := .vec (if g.fault.isSome then [] else gs) }]) else [p] } := by
    rw [landVector, find_nextInterlocked hA hb hg hl]
    simp only [hb]
  rw [e]
  refine ⟨landGroup_agenda s c g, ?_⟩
  rw [State.core_mapCore_self, alone.flatMap_ops]
  rfl

end Sys2Proof.Machine
end

section
/-!
SUPPORT. A buffered store leaves for its home port, joins its task's rollback buffer, or faults (spec/05 R106 to R108, spec/14 R288).
-/

namespace Sys2Proof.Machine

variable {s t v w : State} {rest : List Turn} {c j : Nat} {k : StrandIx} {e : SbEntry} {q : List SbEntry}

/-! ### A fault of an operation already issued -/

/-- Where the handler does not run and no stop is under way, the fault is the core's one stop. -/
theorem loseFrom_raiseOp {code : Nat} {a : Word} {n : Nat} (hs : (t.core c).stops = []) (hd : (t.ctx c).depth = 0) :
    loseFrom (t.raiseOp c k code a) c k n = t.mapCore c fun y => { y with stops := [⟨3, k, code, 0, a⟩] } := by
  have depth : ((t.raiseOp c k code a).ctx c).depth = 0 := by
    rw [State.ctx, raiseOp_core]
    exact hd
  rw [loseFrom_of_depth depth]
  exact State.mapCore_congr (by rw [hs]; rfl)

/-! ### A request for a set changes no core but for its restart -/

/-- Two states whose cores differ in their restarts alone. -/
structure SameButRestart (s t : State) : Prop where
  core : ∀ d, t.core d = { s.core d with restart := (t.core d).restart }

theorem SameButRestart.of_cores (h : t.cores = s.cores) : SameButRestart s t := ⟨fun d => by rw [State.core, h]; rfl⟩
theorem SameButRestart.trans (a : SameButRestart s t) (b : SameButRestart t v) : SameButRestart s v := ⟨fun d => by rw [b.core, a.core]⟩

theorem SameButRestart.wound (s : State) (c vf ix task : Nat) : SameButRestart s (s.wound c vf ix task) := by
  rw [State.wound]
  split
  next h hh =>
    refine ⟨fun d => ?_⟩
    by_cases hd : d = h
    · subst hd; rw [State.core_mapCore_self]
    · rw [State.core_mapCore_ne s _ hd]
  next hn =>
    refine .of_cores ?_
    have away : coreOfTask (s.discardSets vf task).cores task = none := hn
    rw [State.mapTask]
    simp only [away]
    rfl

theorem SameButRestart.takeBuf (s : State) (c task : Nat) : SameButRestart s (s.takeBuf c task).1 := by
  rw [State.takeBuf]
  split
  · exact .of_cores rfl
  dsimp only
  split
  · exact .of_cores rfl
  · split
    · exact .of_cores rfl
    · exact (SameButRestart.wound s ..).trans (.of_cores rfl)

theorem SameButRestart.requestSet (s : State) (c vf ix : Nat) : SameButRestart s (s.requestSet c vf ix).1 := by
  have put : ∀ e, SameButRestart s (s.putEnt vf ix e) := fun e => .of_cores rfl
  rw [State.requestSet]
  split
  · exact .of_cores rfl
  next e he =>
  dsimp only
  split
  · split
    · exact put _
    · have taken := SameButRestart.takeBuf s c (s.ctx c).task
      split <;> rename_i h <;> rw [h] at taken
      · exact taken.trans (.of_cores rfl)
      · exact taken.trans (.of_cores rfl)
  · split
    · exact .of_cores rfl
    · split
      · exact (put _).trans (.wound _ ..)
      · exact put _
  · split
    · exact .of_cores rfl
    · exact (put _).trans (.wound _ ..)
  · split
    · exact .of_cores rfl
    · exact put _
  · exact put _

theorem SameButRestart.of_requestSet {vf ix : Nat} {g : Bool} (h : s.requestSet c vf ix = (v, g)) : SameButRestart s v := by
  have asked := SameButRestart.requestSet s c vf ix
  rwa [h] at asked

theorem SameButRestart.bufStore {task : Nat} {va : Word} {en : List (Option Byte)} (h : s.bufStore task va en = some w) : SameButRestart s w := by
  rw [State.bufStore] at h
  split at h
  · cases h; exact .of_cores rfl
  · dsimp only at h
    split at h
    · cases h; exact .of_cores rfl
    · cases h

theorem SameButRestart.str (h : SameButRestart s t) (c : Nat) (k : StrandIx) : t.str c k = s.str c k := by
  rw [State.str, h.core]
  cases k <;> rfl
theorem SameButRestart.stops (h : SameButRestart s t) (c : Nat) : (t.core c).stops = (s.core c).stops := by rw [h.core]
theorem SameButRestart.ctx (h : SameButRestart s t) (c : Nat) : t.ctx c = s.ctx c := by rw [State.ctx, h.core]; rfl
theorem SameButRestart.of_looked (h : Looked s t) : SameButRestart s t := .of_cores h.cores

/-! ### The oldest entry of a store buffer -/

theorem exec_storeBufferPerform (h : CoreTurns s c k j .storeBufferPerform rest) : exec .storeBufferPerform s = .next (performSb c k (Passed s rest)) :=
  turnEvent_of_turns (fun c k _ s => performSb c k s) h

theorem dropSb_eq (h : (s.str c k).sb = e :: q) : dropSb s c k = s.mapStr c k fun z => { z with sb := q } := by
  rw [dropSb, State.mapStr, State.mapStr]
  refine State.mapCore_congr ?_
  rw [Core.mapStr, Core.mapStr, show ((s.core c).str k).sb = e :: q from h]
  rfl

theorem dropSb_of_same (h : SameButRestart s t) (hs : (s.str c k).sb = e :: q) : dropSb t c k = t.mapStr c k fun z => { z with sb := q } :=
  dropSb_eq ((congrArg Strand.sb (h.str c k)).trans hs)

theorem performSb_of_not (h : (s.str c k).sb = [] ∨ ¬ Alive (s.core c)) : performSb c k s = s := by
  rw [performSb]
  split
  · rfl
  next e q hs =>
    rw [Core.alive_eq_false (h.resolve_left (by rw [State.str, hs]; simp))]
    rfl

/-- Whether the oldest entry of a buffer may go. -/
def Goes (s : State) (c : Nat) (k : StrandIx) (e : SbEntry) : Prop :=
  sbHeld (s.core c) k e = false ∧ (e.rel = true → s.sentDone c k e.scope.toNat = true)

theorem goes_iff (ha : Alive (s.core c)) :
    (!(s.core c).alive || sbHeld (s.core c) k e || (e.rel && !s.sentDone c k e.scope.toNat)) = false ↔ Goes s c k e := by
  rw [(Core.alive_iff _).mpr ha, Goes]
  cases sbHeld (s.core c) k e <;> cases e.rel <;> cases s.sentDone c k e.scope.toNat <;> simp

section
variable (hs : ((s.core c).str k).sb = e :: q) (ha : Alive (s.core c))
include hs ha

theorem performSb_of_not_goes (h : ¬ Goes s c k e) : performSb c k s = s := by
  simp only [performSb, hs, Bool.not_eq_false _ ▸ mt (goes_iff ha).mp h, if_true]

variable (hg : Goes s c k e)
include hg

theorem performSb_waits (h : access s c (unitOrd e.ord) (s.ctx c).vf e.addr .write 1 false = (t, .wait)) : performSb c k s = t := by
  simp only [performSb, hs, (goes_iff ha).mpr hg, Bool.false_eq_true, if_false, h]

theorem performSb_fault_waits {fw : Bool} {n : Nat} (h : access s c (unitOrd e.ord) (s.ctx c).vf e.addr .write 1 false = (t, .fault fw n))
    (hp : s.applied c k = false) : performSb c k s = s := by
  simp only [performSb, hs, (goes_iff ha).mpr hg, Bool.false_eq_true, if_false, h, hp]

theorem performSb_faults {fw : Bool} {n : Nat} (h : access s c (unitOrd e.ord) (s.ctx c).vf e.addr .write 1 false = (t, .fault fw n))
    (hp : s.applied c k = true) : performSb c k s = sbFault t c k (if fw = true then 0x39 else 0x0C) e.addr e.ord := by
  simp only [performSb, hs, (goes_iff ha).mpr hg, Bool.false_eq_true, if_false, h, hp, if_true]

section
variable {pa : Nat} (h : access s c (unitOrd e.ord) (s.ctx c).vf e.addr .write 1 false = (t, .ok pa))
include h

theorem performSb_leaves (hn : t.setOf (s.ctx c).vf e.va = none) : performSb c k s = dropSb (t.sendWrite
    { kind := 0, core := c, k := k, vf := (s.ctx c).vf, task := (s.ctx c).task, va := e.addr } (pa / 16 * 16) e.enabled false) c k := by
  simp only [performSb, hs, (goes_iff ha).mpr hg, Bool.false_eq_true, if_false, h, hn]

variable {ix : Nat} {f : SetEnt} (hi : t.setOf (s.ctx c).vf e.va = some (ix, f))
include hi

theorem performSb_set_waits (hr : t.requestSet c (s.ctx c).vf ix = (v, false)) : performSb c k s = v := by
  simp only [performSb, hs, (goes_iff ha).mpr hg, Bool.false_eq_true, if_false, h, hi, hr]

variable (hr : t.requestSet c (s.ctx c).vf ix = (v, true))
include hr

theorem performSb_buffers (hw : v.bufStore (s.ctx c).task e.va e.enabled = some w) : performSb c k s = dropSb w c k := by
  simp only [performSb, hs, (goes_iff ha).mpr hg, Bool.false_eq_true, if_false, h, hi, hr, hw]

theorem performSb_full_waits (hw : v.bufStore (s.ctx c).task e.va e.enabled = none) (hp : v.applied c k = false) : performSb c k s = v := by
  simp only [performSb, hs, (goes_iff ha).mpr hg, Bool.false_eq_true, if_false, h, hi, hr, hw, hp]

theorem performSb_full_faults (hw : v.bufStore (s.ctx c).task e.va e.enabled = none) (hp : v.applied c k = true) :
    performSb c k s = sbFault v c k 0x22 e.va e.ord := by
  simp only [performSb, hs, (goes_iff ha).mpr hg, Bool.false_eq_true, if_false, h, hi, hr, hw, hp, if_true]

end

end

/-- A store leaves its unit for its home port. -/
theorem sendStore_eq (wr : Writer) (g : Nat) (en : List (Option Byte)) (hd : wr.dev = false) : t.sendWrite wr g en false =
    { t with wire := t.wire ++ [FlitTo (dieOf wr.core) (farDie g) (match homeOf g with | .host _ => .hst | _ => .req) (.store wr g en false)] } := by
  have chan : reqChan g = match homeOf g with | .host _ => Chan.hst | _ => Chan.req := by
    rw [reqChan, isHost]
    cases homeOf g <;> rfl
  rw [State.sendWrite, State.sendFlit, Writer.src, hd, chan]
  rfl

end Sys2Proof.Machine
end

section
open Sys2Proof Sys2Proof.Machine

/-- The landings and the retirement of a core: an event each. -/
theorem Sys2Proof.Machine.landingsAndRetirementFollowR19R23R143AndR106 : LandingsAndRetirementFollowR19R23R143AndR106 := by
  intro s rest c k j
  dsimp only
  refine ⟨fun h => ?lands, fun h => ?retires, fun h => ?stops, fun h => ?interlocked, fun h => ?vector, fun h => ?performs⟩
  case lands =>
    rw [Idles, exec_resultLands h]
    refine ⟨fun hc => congrArg _ (if_neg ?_), fun hc l o r hops ho hd => ⟨fun x d v hb hx => ?_, fun x a bs hb hx => ?_⟩⟩
    · exact mt (Core.closed_iff _).mp hc
    · have landed := landStrand_of_one (s := Passed s rest) hops ho hd (landOp_regs hb hx)
      refine ⟨_, congrArg _ (if_pos ((Core.closed_iff _).mpr hc)), landed.agenda, landed.flight, fun g => ?_, fun i hi => ?_⟩
      · rw [landed.regs, ho, State.rd, State.str_mapStr_self, Strand.rd_landRegs]
        rfl
      · rw [landed.others i hi, ho, State.str_mapStr_ne _ _ _ hi]
        rfl
    · have landed := landStrand_of_one (s := Passed s rest) hops ho hd (landOp_store hb hx)
      refine ⟨_, congrArg _ (if_pos ((Core.closed_iff _).mpr hc)), landed.agenda, landed.flight, fun b => ?_, fun g => ?_, fun i hi => ?_⟩
      · rw [landed.scratch, State.core_mapCore_self]
        exact Core.scrWrite_get ..
      · rw [landed.regs, State.rd, State.str, State.core_mapCore_self, Core.str_scrWrite]
        rfl
      · rw [landed.others i hi, State.str, State.core_mapCore_self, Core.str_scrWrite]
        rfl
  case retires =>
    have closed (hc : Closed (s.core c)) : exec .wordRetire s = .next ((Passed s rest).mapCore c (retireStrand · k)) :=
      (exec_wordRetire h).trans (congrArg _ (if_pos ((Core.closed_iff _).mpr hc)))
    refine ⟨fun hc => (exec_wordRetire h).trans (congrArg _ (if_neg (mt (Core.closed_iff _).mp hc))), fun hc hh => ?_,
      fun hc hh e q hr hu => ⟨fun hg => ⟨_, ?_, fun f => cnt_foldl_bump _ f _⟩, fun hg => ?_⟩⟩
    · have unit := unitEvent_of_mapCore (closed hc)
      rwa [retireStrand_of_not_held hc hh] at unit
    · have unit := unitEvent_of_mapCore (closed hc)
      rwa [retireStrand_of_room hc hh hr hu hg] at unit
    · have unit := unitEvent_of_mapCore (closed hc)
      rwa [retireStrand_of_no_room hc hh hr hu hg] at unit
  case stops =>
    have closed (hc : Closed (s.core c)) : exec .strandStops s = .next ((Passed s rest).mapCore c (stopStrand · k)) :=
      (exec_strandStops h).trans (congrArg _ (if_pos ((Core.closed_iff _).mpr hc)))
    refine ⟨fun hc => (exec_strandStops h).trans (congrArg _ (if_neg (mt (Core.closed_iff _).mp hc))), fun hc hr he hq => ?_, fun hc hd => ?_⟩
    · have unit := unitEvent_of_mapCore (closed hc)
      rwa [stopStrand_of_done hr he hq] at unit
    · have unit := unitEvent_of_mapCore (closed hc)
      rwa [stopStrand_of_not_done hd] at unit
  case interlocked =>
    have run := exec_interlockedResultLands h
    refine ⟨fun hn => run.trans (congrArg _ (landInterlocked_of_not hn)), fun ha l o r hA hj d => ?_⟩
    have lands {v : Word} (hb : o.body = .ilock d false none) (e : landInterlocked c j (Passed s rest) = finishOp (Passed s rest) c o [v]) :
        LandsResult .interlockedResultLands s (Passed s rest) c l o r d v :=
      landsResult_of_finishOp (hi := none) hA hb (run.trans (congrArg _ e))
    refine ⟨fun n a b un hi hb => lands hb (landInterlocked_div (s := Passed s rest) ha hA hj hi),
      fun n a b un hi hb => lands hb (landInterlocked_rem (s := Passed s rest) ha hA hj hi),
      fun n b hi hb hf => lands hb (landInterlocked_btest (s := Passed s rest) ha hA hj hi hf),
      fun hb hw => ⟨fun n hi => lands hb ?_, fun n hi => lands hb ?_, fun n a hi => lands hb ?_⟩, fun n a x aq q fwd hi hb => ?_⟩
    · rw [landInterlocked_stat (s := Passed s rest) (d := d) ha hA hj (.inr (.inl ⟨n, hi⟩)) hw, hi, statValue_age]
      rfl
    · rw [landInterlocked_stat (s := Passed s rest) (d := d) ha hA hj (.inl ⟨n, hi⟩) hw, hi, statValue_st]
      rfl
    · rw [landInterlocked_stat (s := Passed s rest) (d := d) ha hA hj (.inr (.inr ⟨n, a, hi⟩)) hw, hi, statValue_set]
      rfl
    have gld := run.trans (congrArg _ (landInterlocked_gld (s := Passed s rest) ha hA hj hi))
    refine ⟨fun hf hs => ?_, fun bs hf hs => ?_, fun hf hw => ?_, fun hf hw t a' hacc => ?_⟩
    · obtain ⟨bs, rfl⟩ := Option.ne_none_iff_exists'.mp hf
      exact gld.trans (congrArg _ (landGld_forwarded_shut (s := Passed s rest) hb hs))
    · subst hf
      refine landsResult_of_finishOp hA hb ?_
      rw [gld, landGld_forwarded (s := Passed s rest) hb hs, gldValues]
    · subst hf
      exact gld.trans (congrArg _ (landGld_waits (s := Passed s rest) hb hw))
    · subst hf
      have looked : Looked (Passed s rest) t := Looked.of_accessFrom hacc
      have there : Alone (t.core c) l o r := looked.core c ▸ hA
      refine ⟨fun h => ?_, fun pa h => ?_, fun pa h ht => ?_, fun fw m h hd => ?_, fun pa h ht hn hm => ⟨fun hp => ?_, fun hp => ?_⟩⟩ <;> subst h
      · rw [gld, landGld_access_waits (s := Passed s rest) hb hw hacc]
      · rw [gld, landGld_held (s := Passed s rest) hb hw hacc there]
      · rw [gld, landGld_behind (s := Passed s rest) hb hw hacc there ht]
      · rw [gld, landGld_faults (s := Passed s rest) hb hw hacc, gldFault, loseFrom_raiseOp ((by rw [looked.core]; exact (ha.stops))) (by rw [looked.ctx]; exact hd)]
      · rw [gld, landGld_reads_shut (s := Passed s rest) hb hw hacc ht hn hm there hp, readBytes_eq_map, looked.mem]
        rfl
      · refine landsResult_of_finishOp (d := d) there hb ?_
        rw [gld, landGld_reads (s := Passed s rest) hb hw hacc ht hn hm hp, readValues, looked.mem]
        rfl
  case vector =>
    have run := exec_vectorGroupLands h
    refine ⟨fun hn => run.trans (congrArg _ (dueVector_of_not_alive (s := Passed s rest) hn)), fun ha hm => ?_, fun ha hm l o r g gs hA hb hg hl => ?_⟩
    · exact unitEvent_of_mapCore (run.trans (congrArg _ (dueVector_of_more (s := Passed s rest) ha hm)))
    · obtain ⟨agenda, core⟩ := landVector_core (s := Passed s rest) hA hb hg hl
      have landed := landGroup_landed (Passed s rest) c g
      refine ⟨_, run.trans (congrArg _ (dueVector_of_last (s := Passed s rest) ha hm)), agenda, ?_⟩
      rw [core]
      refine ⟨fun hf => ?_, fun hf => ?_, fun b => congrArg (Tab.get 0 · b) landed.scratch, fun b => ?_, ?_⟩
      · rw [Op.afterGroup_of_none hf]
      · rw [Op.afterGroup_of_some hf]
      · rw [← sstRaise_getLsbD]
        exact congrArg (BitVec.getLsbD · b) landed.status
      · refine landed.stops.trans ?_
        rw [show ((Passed s rest).core c).stops = [] from ha.stops, List.nil_append]
        rfl
  case performs =>
    have run := exec_storeBufferPerform h
    refine ⟨fun hn => run.trans (congrArg _ (performSb_of_not (s := Passed s rest) hn)), fun e q hs ha => ?_⟩
    refine ⟨fun hg => run.trans (congrArg _ (performSb_of_not_goes (s := Passed s rest) hs ha hg)), fun hg t a hacc => ?_⟩
    have same : SameButRestart (Passed s rest) t := .of_looked (Looked.of_access hacc)
    have stops {v : State} (hv : SameButRestart (Passed s rest) v) (code : Nat) (a : Word) (hd : (s.ctx c).depth = 0) :
        sbFault v c k code a e.ord = v.mapCore c fun z => { z with stops := [⟨3, k, code, 0, a⟩] } :=
      loseFrom_raiseOp ((hv.stops c).trans ha.stops) ((congrArg Ctx.depth (hv.ctx c)).trans hd)
    refine ⟨fun h => ?_, fun fw n h hp => ?_, fun fw n h hp hd => ?_, fun pa ix f h hi v g hr => ?_, fun pa h hn => ?_⟩ <;> subst h
    · rw [run, performSb_waits (s := Passed s rest) hs ha hg hacc]
    · exact run.trans (congrArg _ (performSb_fault_waits (s := Passed s rest) hs ha hg hacc hp))
    · rw [run, performSb_faults (s := Passed s rest) hs ha hg hacc hp, stops same _ _ hd]
    · have asked := same.trans (.of_requestSet hr)
      refine ⟨fun h => ?_, fun h w hw => ?_, fun h hw => ⟨fun hp => ?_, fun hp hd => ?_⟩⟩ <;> subst h
      · rw [run, performSb_set_waits (s := Passed s rest) hs ha hg hacc hi hr]
      · rw [run, performSb_buffers (s := Passed s rest) hs ha hg hacc hi hr hw, dropSb_of_same (asked.trans (.bufStore hw)) hs]
      · rw [run, performSb_full_waits (s := Passed s rest) hs ha hg hacc hi hr hw hp]
      · rw [run, performSb_full_faults (s := Passed s rest) hs ha hg hacc hi hr hw hp, stops asked _ _ hd]
    · rw [run, performSb_leaves (s := Passed s rest) hs ha hg hacc hn, sendStore_eq _ _ _ rfl]
      exact congrArg _ (dropSb_of_same (same.trans (.of_cores rfl)) hs)

/-- Settles O51: each event is what it does to its core, from the rules of landings, of retirement, of store buffers and of contexts. -/
theorem coreEventsFollowR19R23R128R140R143AndR258 : Obligations.CoreEventsFollowR19R23R128R140R143AndR258 :=
  ⟨landingsAndRetirementFollowR19R23R143AndR106, contextEventsFollowR128R140R258R290R320AndR362⟩

end

section
/-!
SUPPORT. The decoder and the encoder of R29 to R47 against each other: a field of a word is read where it is written.
-/

namespace Sys2Proof

/-! ### Fields put together and read again -/

theorem append_bits_eq_iff {m n : Nat} {x x' : BitVec m} {y y' : BitVec n} : x ++ y = x' ++ y' ↔ x = x' ∧ y = y' :=
  ⟨fun h => ⟨by simpa only [BitVec.extractLsb'_append_eq_left] using congrArg (BitVec.extractLsb' n m) h,
    by simpa only [BitVec.extractLsb'_append_eq_right] using congrArg (BitVec.extractLsb' 0 n) h⟩,
   fun ⟨hx, hy⟩ => by rw [hx, hy]⟩

theorem append_bits_eq_zero_iff {m n : Nat} {x : BitVec m} {y : BitVec n} : x ++ y = 0 ↔ x = 0 ∧ y = 0 := by
  rw [show (0 : BitVec (m + n)) = 0#m ++ 0#n from BitVec.zero_append_zero.symm, append_bits_eq_iff]; rfl

/-- A field is two fields put together where its upper part is the one and its lower part the other. -/
theorem field_eq_append_iff {k m n : Nat} (w : BitVec k) (lo : Nat) (x : BitVec m) (y : BitVec n) :
    w.extractLsb' lo (m + n) = x ++ y ↔ w.extractLsb' (lo + n) m = x ∧ w.extractLsb' lo n = y := by
  rw [← BitVec.extractLsb'_append_extractLsb'_eq_extractLsb' rfl, append_bits_eq_iff]

theorem field_eq_bit_iff {k : Nat} {w : BitVec k} {lo : Nat} {x : Bool} : w.extractLsb' lo 1 = bit x ↔ w.getLsbD lo = x := by
  rw [BitVec.getLsbD_eq_extractLsb']
  generalize w.extractLsb' lo 1 = y
  revert x y; decide

section
variable {w : BitVec 32}

theorem mk1_eq_iff {n : Ann} {op : BitVec 7} {body : BitVec 18} : mk1 n op body = w ↔
    w.extractLsb' 30 2 = 0 ∧ annOf w = n ∧ w.extractLsb' 18 7 = op ∧ w.extractLsb' 0 18 = body := by
  obtain ⟨y, t⟩ := n
  rw [eq_comm, ← BitVec.extractLsb'_eq_self (x := w)]
  change w.extractLsb' 0 (2 + 1 + 4 + 7 + 18) = 0#2 ++ bit y ++ t ++ op ++ body ↔ _
  simp only [field_eq_append_iff]
  simp only [annOf, Ann.mk.injEq, field_eq_bit_iff, and_assoc, BitVec.extractLsb'_eq_self, Nat.reduceAdd]
  rfl

theorem annOf_eq_annS {y : Bool} : annOf w = annS y ↔ (annOf w).y = y ∧ w.extractLsb' 25 4 = 0 := by
  rw [annOf, annS, Ann.mk.injEq]

theorem body_eq_bodyRR {d a b : Reg} {fn : BitVec 3} :
    w.extractLsb' 0 18 = bodyRR d a b fn ↔ f5 w 13 = d ∧ f5 w 8 = a ∧ f5 w 3 = b ∧ w.extractLsb' 0 3 = fn := by
  change w.extractLsb' 0 (5 + 5 + 5 + 3) = d ++ a ++ b ++ fn ↔ _
  simp only [field_eq_append_iff, and_assoc]

theorem body_eq_bodyRI {d a : Reg} {i : BitVec 8} :
    w.extractLsb' 0 18 = bodyRI d a i ↔ f5 w 13 = d ∧ f5 w 8 = a ∧ w.extractLsb' 0 8 = i := by
  change w.extractLsb' 0 (5 + 5 + 8) = d ++ a ++ i ↔ _
  simp only [field_eq_append_iff, and_assoc]

theorem body_eq_bodyLI {d : Reg} {i : BitVec 13} : w.extractLsb' 0 18 = bodyLI d i ↔ f5 w 13 = d ∧ w.extractLsb' 0 13 = i :=
  field_eq_append_iff w 0 d i

theorem body_eq_bodyLP {lp : Bool} {c : BitVec 8} {e : BitVec 9} :
    w.extractLsb' 0 18 = bodyLP lp c e ↔ w.getLsbD 17 = lp ∧ w.extractLsb' 9 8 = c ∧ w.extractLsb' 0 9 = e := by
  change w.extractLsb' 0 (1 + 8 + 9) = bit lp ++ c ++ e ↔ _
  simp only [field_eq_append_iff, field_eq_bit_iff, and_assoc]

theorem body_eq_bodyCP {h : BitVec 4} {sr gr : Reg} {fl : BitVec 4} :
    w.extractLsb' 0 18 = bodyCP h sr gr fl ↔ w.extractLsb' 14 4 = h ∧ f5 w 9 = sr ∧ f5 w 4 = gr ∧ w.extractLsb' 0 4 = fl := by
  change w.extractLsb' 0 (4 + 5 + 5 + 4) = h ++ sr ++ gr ++ fl ↔ _
  simp only [field_eq_append_iff, and_assoc]

theorem body_eq_bodyG {d a : Reg} {sc : BitVec 3} {o q : Bool} : w.extractLsb' 0 18 = bodyG d a sc o q ↔ f5 w 13 = d ∧ f5 w 8 = a ∧
    w.extractLsb' 6 2 = 0 ∧ w.extractLsb' 3 3 = sc ∧ w.extractLsb' 2 1 = 0 ∧ w.getLsbD 1 = o ∧ w.getLsbD 0 = q := by
  change w.extractLsb' 0 (5 + 5 + 2 + 3 + 1 + 1 + 1) = d ++ a ++ 0#2 ++ sc ++ 0#1 ++ bit o ++ bit q ↔ _
  simp only [field_eq_append_iff, field_eq_bit_iff, and_assoc]
  rfl

theorem fn_eq_fnW {u : Bool} {x : BitVec 2} : w.extractLsb' 0 3 = fnW u x ↔ w.getLsbD 2 = u ∧ w.extractLsb' 0 2 = x := by
  rw [← field_eq_bit_iff]; exact field_eq_append_iff w 0 (bit u) x

theorem fn_eq_fnN {u : Bool} : w.extractLsb' 0 3 = fnN u ↔ w.extractLsb' 1 2 = 0 ∧ w.getLsbD 0 = u := by
  rw [← field_eq_bit_iff]; exact field_eq_append_iff w 0 0#2 (bit u)

theorem fn_eq_append_1_2 {u : BitVec 1} {x : BitVec 2} : w.extractLsb' 0 3 = u ++ x ↔ w.extractLsb' 2 1 = u ∧ w.extractLsb' 0 2 = x :=
  field_eq_append_iff w 0 u x

theorem fl_eq_flEV {ev : Bool} {x : BitVec 3} : w.extractLsb' 0 4 = flEV ev x ↔ w.getLsbD 3 = ev ∧ w.extractLsb' 0 3 = x := by
  rw [← field_eq_bit_iff]; exact field_eq_append_iff w 0 (bit ev) x

theorem imm_eq_immSh {u : Bool} {x : BitVec 6} : w.extractLsb' 0 8 = immSh u x ↔ w.getLsbD 7 = false ∧ w.getLsbD 6 = u ∧ w.extractLsb' 0 6 = x := by
  change w.extractLsb' 0 (1 + 1 + 6) = bit false ++ bit u ++ x ↔ _
  simp only [field_eq_append_iff, field_eq_bit_iff, and_assoc]

theorem imm_eq_append_3_2_3 {x : BitVec 3} {y : BitVec 2} {z : BitVec 3} :
    w.extractLsb' 0 8 = x ++ y ++ z ↔ w.extractLsb' 5 3 = x ∧ w.extractLsb' 3 2 = y ∧ w.extractLsb' 0 3 = z := by
  change w.extractLsb' 0 (3 + 2 + 3) = x ++ y ++ z ↔ _
  simp only [field_eq_append_iff, and_assoc]

theorem imm_eq_append_4_3_1 {x : BitVec 4} {y : BitVec 3} {z : BitVec 1} :
    w.extractLsb' 0 8 = x ++ y ++ z ↔ w.extractLsb' 4 4 = x ∧ w.extractLsb' 1 3 = y ∧ w.extractLsb' 0 1 = z := by
  change w.extractLsb' 0 (4 + 3 + 1) = x ++ y ++ z ↔ _
  simp only [field_eq_append_iff, and_assoc]

theorem field5_eq_append_4_1 {lo : Nat} {x : BitVec 4} {y : BitVec 1} : f5 w lo = x ++ y ↔ w.extractLsb' (lo + 1) 4 = x ∧ w.extractLsb' lo 1 = y :=
  field_eq_append_iff w lo x y

theorem field8_eq_append_3_5 {lo : Nat} {x : BitVec 3} {y : BitVec 5} :
    w.extractLsb' lo 8 = x ++ y ↔ w.extractLsb' (lo + 5) 3 = x ∧ w.extractLsb' lo 5 = y := field_eq_append_iff w lo x y

theorem imm_eq_append_5_3 {x : BitVec 5} {y : BitVec 3} : w.extractLsb' 0 8 = x ++ y ↔ f5 w 3 = x ∧ w.extractLsb' 0 3 = y :=
  field_eq_append_iff w 0 x y

theorem imm_eq_append_6_2 {x : BitVec 6} {y : BitVec 2} : w.extractLsb' 0 8 = x ++ y ↔ w.extractLsb' 2 6 = x ∧ w.extractLsb' 0 2 = y :=
  field_eq_append_iff w 0 x y

theorem low13_eq_append_5_8 {x : BitVec 5} {y : BitVec 8} : w.extractLsb' 0 13 = x ++ y ↔ f5 w 8 = x ∧ w.extractLsb' 0 8 = y :=
  field_eq_append_iff w 0 x y

theorem cpHigh_eq_append_4_5_5 {x : BitVec 4} {y z : BitVec 5} :
    w.extractLsb' 4 14 = x ++ y ++ z ↔ w.extractLsb' 14 4 = x ∧ f5 w 9 = y ∧ f5 w 4 = z := by
  change w.extractLsb' 4 (4 + 5 + 5) = x ++ y ++ z ↔ _
  simp only [field_eq_append_iff, and_assoc]

end

/-! ### Words of one parcel -/

section
variable {w : BitVec 32}

theorem fields_of_enc1 {i : Instr} {n : Ann} {op : BitVec 7} {body : BitVec 18} (h : enc1 i = some w) (he : enc1 i = some (mk1 n op body)) :
    annOf w = n ∧ (w.extractLsb' 18 7).toNat = op.toNat ∧ w.extractLsb' 0 18 = body := by
  obtain ⟨-, hn, hop, hb⟩ := mk1_eq_iff.mp (Option.some.inj (he.symm.trans h))
  exact ⟨hn, congrArg BitVec.toNat hop, hb⟩

theorem zOk_of_eq {n : Nat} {z : BitVec n} {i : Instr} (h : z = 0) : zOk w z i = i := if_pos h
theorem sOnly_of_eq {n : Nat} {z : BitVec n} {i : Instr} (ht : w.extractLsb' 25 4 = 0) (h : z = 0) : sOnly w z i = i := by
  rw [sOnly, if_pos ht, zOk_of_eq h]

theorem decode1_of_enc1 {i : Instr} (h : enc1 i = some w) : decode1 w = i := by
  cases i with
  | nop n | seam n =>
    obtain ⟨rfl, hop, hb⟩ := fields_of_enc1 h rfl
    rw [decode1, hop]
    exact zOk_of_eq hb
  | add n d a b u | sub n d a b u | and n d a b u | or n d a b u | xor n d a b u | shl n d a b u | shr n d a b u | sra n d a b u
  | mul n d a b u =>
    obtain ⟨rfl, hop, hb⟩ := fields_of_enc1 h rfl
    obtain ⟨rfl, rfl, rfl, hfn⟩ := body_eq_bodyRR.mp hb
    obtain ⟨rfl, hz⟩ := fn_eq_fnW.mp hfn
    rw [decode1, hop]
    exact zOk_of_eq hz
  | mulh n d a b u | div n d a b u | rem n d a b u | min n d a b u | max n d a b u | slt n d a b u | csel n d a b u | ext n d a b u =>
    obtain ⟨rfl, hop, hb⟩ := fields_of_enc1 h rfl
    obtain ⟨rfl, rfl, rfl, hfn⟩ := body_eq_bodyRR.mp hb
    obtain ⟨hz, rfl⟩ := fn_eq_fnN.mp hfn
    rw [decode1, hop]
    exact zOk_of_eq hz
  | seq n d a b =>
    obtain ⟨rfl, hop, hb⟩ := fields_of_enc1 h rfl
    obtain ⟨rfl, rfl, rfl, hfn⟩ := body_eq_bodyRR.mp hb
    obtain ⟨hz, h0⟩ := (fn_eq_fnN (u := false)).mp hfn
    rw [decode1, hop]
    exact (zOk_of_eq hz).trans (if_neg (Bool.eq_false_iff.mp h0))
  | sne n d a b =>
    obtain ⟨rfl, hop, hb⟩ := fields_of_enc1 h rfl
    obtain ⟨rfl, rfl, rfl, hfn⟩ := body_eq_bodyRR.mp hb
    obtain ⟨hz, h0⟩ := (fn_eq_fnN (u := true)).mp hfn
    rw [decode1, hop]
    exact (zOk_of_eq hz).trans (if_pos h0)
  | clz n d a u | ctz n d a u | popc n d a u | bswap n d a u =>
    obtain ⟨rfl, hop, hb⟩ := fields_of_enc1 h rfl
    obtain ⟨rfl, rfl, hz, hfn⟩ := body_eq_bodyRR.mp hb
    obtain ⟨rfl, hk⟩ := fn_eq_fnW.mp hfn
    rw [decode1, hop]
    exact (zOk_of_eq hz).trans (by rw [hk]; rfl)
  | addx n d a b k =>
    obtain ⟨rfl, hop, hb⟩ := fields_of_enc1 h rfl
    obtain ⟨rfl, rfl, rfl, rfl⟩ := body_eq_bodyRR.mp hb
    rw [decode1, hop]
    exact rfl
  | ins n d a b =>
    obtain ⟨rfl, hop, hb⟩ := fields_of_enc1 h rfl
    obtain ⟨rfl, rfl, rfl, hz⟩ := body_eq_bodyRR.mp hb
    rw [decode1, hop]
    exact zOk_of_eq hz
  | addi n d a i | andi n d a i | ori n d a i | xori n d a i | slti n d a i | ldS8 n d a i | ldS16 n d a i | ldS32 n d a i | ldN8 n d a i
  | ldN16 n d a i | ldN32 n d a i | ldD n d a i | stB n d a i | stH n d a i | stW n d a i | stD n d a i =>
    obtain ⟨rfl, hop, hb⟩ := fields_of_enc1 h rfl
    obtain ⟨rfl, rfl, rfl⟩ := body_eq_bodyRI.mp hb
    rw [decode1, hop]
    exact rfl
  | shli n d a u i | shri n d a u i | srai n d a u i =>
    obtain ⟨rfl, hop, hb⟩ := fields_of_enc1 h rfl
    obtain ⟨rfl, rfl, hi⟩ := body_eq_bodyRI.mp hb
    obtain ⟨h7, rfl, rfl⟩ := imm_eq_immSh.mp hi
    rw [decode1, hop]
    exact if_neg (by rw [h7]; exact Bool.false_ne_true)
  | li n d i | lis n d i | addpc n d i | bz n d i | bnz n d i | bltz n d i | bgez n d i =>
    obtain ⟨rfl, hop, hb⟩ := fields_of_enc1 h rfl
    obtain ⟨rfl, rfl⟩ := body_eq_bodyLI.mp hb
    rw [decode1, hop]
    exact rfl
  | jmp n o | call n o =>
    obtain ⟨rfl, hop, hb⟩ := fields_of_enc1 h rfl
    subst hb
    rw [decode1, hop]
    exact rfl
  | jr n a =>
    obtain ⟨rfl, hop, hb⟩ := fields_of_enc1 h rfl
    obtain ⟨hd, rfl, hz, hfn⟩ := body_eq_bodyRR.mp hb
    rw [decode1, hop]
    exact zOk_of_eq (append_bits_eq_zero_iff.mpr ⟨hd, imm_eq_append_5_3.mpr ⟨hz, hfn⟩⟩)
  | loop n lp k e =>
    obtain ⟨rfl, hop, hb⟩ := fields_of_enc1 h rfl
    obtain ⟨rfl, hk, rfl⟩ := body_eq_bodyLP.mp hb
    obtain ⟨hz, rfl⟩ := field8_eq_append_3_5.mp hk
    rw [decode1, hop]
    exact zOk_of_eq hz
  | loopi n lp k e =>
    obtain ⟨rfl, hop, hb⟩ := fields_of_enc1 h rfl
    obtain ⟨rfl, rfl, rfl⟩ := body_eq_bodyLP.mp hb
    rw [decode1, hop]
    exact rfl
  | ldQ n d a i | stQ n d a i =>
    obtain ⟨rfl, hop, hb⟩ := fields_of_enc1 h rfl
    obtain ⟨hd, rfl, rfl⟩ := body_eq_bodyRI.mp hb
    obtain ⟨rfl, hz⟩ := field5_eq_append_4_1.mp hd
    rw [decode1, hop]
    exact zOk_of_eq hz
  | gld n d a sc o q | gst n d a sc o q =>
    obtain ⟨rfl, hop, hb⟩ := fields_of_enc1 h rfl
    obtain ⟨rfl, rfl, hz, rfl, hz', rfl, rfl⟩ := body_eq_bodyG.mp hb
    rw [decode1, hop]
    exact zOk_of_eq (append_bits_eq_zero_iff.mpr ⟨hz, hz'⟩)
  | fence n k sc =>
    obtain ⟨rfl, hop, hb⟩ := fields_of_enc1 h rfl
    obtain ⟨hd, ha, hi⟩ := body_eq_bodyRI.mp hb
    obtain ⟨hz, rfl, rfl⟩ := imm_eq_append_3_2_3.mp hi
    rw [decode1, hop]
    exact zOk_of_eq (append_bits_eq_zero_iff.mpr ⟨append_bits_eq_zero_iff.mpr ⟨hd, ha⟩, hz⟩)
  | tkgive y f | tktake y f =>
    obtain ⟨hn, hop, hb⟩ := fields_of_enc1 h rfl
    obtain ⟨rfl, ht⟩ := annOf_eq_annS.mp hn
    obtain ⟨hd, ha, hi⟩ := body_eq_bodyRI.mp hb
    obtain ⟨hz, rfl⟩ := imm_eq_append_5_3.mp hi
    rw [decode1, hop]
    exact sOnly_of_eq ht (append_bits_eq_zero_iff.mpr ⟨append_bits_eq_zero_iff.mpr ⟨hd, ha⟩, hz⟩)
  | tkcount y d f =>
    obtain ⟨hn, hop, hb⟩ := fields_of_enc1 h rfl
    obtain ⟨rfl, ht⟩ := annOf_eq_annS.mp hn
    obtain ⟨rfl, ha, hi⟩ := body_eq_bodyRI.mp hb
    obtain ⟨hz, rfl⟩ := imm_eq_append_5_3.mp hi
    rw [decode1, hop]
    exact sOnly_of_eq ht (append_bits_eq_zero_iff.mpr ⟨ha, hz⟩)
  | tglook n d a =>
    obtain ⟨rfl, hop, hb⟩ := fields_of_enc1 h rfl
    obtain ⟨rfl, rfl, hz, hfn⟩ := body_eq_bodyRR.mp hb
    rw [decode1, hop]
    exact zOk_of_eq (imm_eq_append_5_3.mpr ⟨hz, hfn⟩)
  | tgset n a b =>
    obtain ⟨rfl, hop, hb⟩ := fields_of_enc1 h rfl
    obtain ⟨hd, rfl, rfl, hfn⟩ := body_eq_bodyRR.mp hb
    rw [decode1, hop]
    exact zOk_of_eq (append_bits_eq_zero_iff.mpr ⟨hd, hfn⟩)
  | tgclr n b =>
    obtain ⟨rfl, hop, hb⟩ := fields_of_enc1 h rfl
    obtain ⟨hd, ha, rfl, hfn⟩ := body_eq_bodyRR.mp hb
    obtain ⟨hz, h0⟩ := (fn_eq_fnN (u := false)).mp hfn
    rw [decode1, hop]
    exact (if_neg (Bool.eq_false_iff.mp h0)).trans (zOk_of_eq (append_bits_eq_zero_iff.mpr ⟨append_bits_eq_zero_iff.mpr ⟨hd, ha⟩, hz⟩))
  | tgclrAll n =>
    obtain ⟨rfl, hop, hb⟩ := fields_of_enc1 h rfl
    obtain ⟨hd, ha, hb, hfn⟩ := body_eq_bodyRR.mp hb
    obtain ⟨hz, h0⟩ := (fn_eq_fnN (u := true)).mp hfn
    rw [decode1, hop]
    exact (if_pos h0).trans (zOk_of_eq (append_bits_eq_zero_iff.mpr ⟨append_bits_eq_zero_iff.mpr ⟨append_bits_eq_zero_iff.mpr ⟨hd, ha⟩, hb⟩, hz⟩))
  | evpop y d | evpoll y d =>
    obtain ⟨hn, hop, hb⟩ := fields_of_enc1 h rfl
    obtain ⟨rfl, ht⟩ := annOf_eq_annS.mp hn
    obtain ⟨rfl, ha, hb, hfn⟩ := body_eq_bodyRR.mp hb
    rw [decode1, hop]
    exact sOnly_of_eq ht (append_bits_eq_zero_iff.mpr ⟨ha, imm_eq_append_5_3.mpr ⟨hb, hfn⟩⟩)
  | stgo y d a k =>
    obtain ⟨hn, hop, hb⟩ := fields_of_enc1 h rfl
    obtain ⟨rfl, ht⟩ := annOf_eq_annS.mp hn
    obtain ⟨rfl, rfl, hi⟩ := body_eq_bodyRI.mp hb
    obtain ⟨hz, rfl⟩ := imm_eq_append_6_2.mp hi
    rw [decode1, hop]
    exact sOnly_of_eq ht hz
  | stwait y m | ststop y m =>
    obtain ⟨hn, hop, hb⟩ := fields_of_enc1 h rfl
    obtain ⟨rfl, ht⟩ := annOf_eq_annS.mp hn
    obtain ⟨hd, ha, hi⟩ := body_eq_bodyRI.mp hb
    obtain ⟨hz, rfl, hz'⟩ := imm_eq_append_4_3_1.mp hi
    rw [decode1, hop]
    exact sOnly_of_eq ht (append_bits_eq_zero_iff.mpr ⟨append_bits_eq_zero_iff.mpr ⟨append_bits_eq_zero_iff.mpr ⟨hd, ha⟩, hz⟩, hz'⟩)
  | cpshape n h sr gr =>
    obtain ⟨rfl, hop, hb⟩ := fields_of_enc1 h rfl
    obtain ⟨rfl, rfl, rfl, hfl⟩ := body_eq_bodyCP.mp hb
    rw [decode1, hop]
    exact zOk_of_eq hfl
  | cporg n h gr k | cpstep n h gr k =>
    obtain ⟨rfl, hop, hb⟩ := fields_of_enc1 h rfl
    obtain ⟨rfl, hsr, rfl, rfl⟩ := body_eq_bodyCP.mp hb
    rw [decode1, hop]
    exact zOk_of_eq hsr
  | cpld n h sr gr ev | cpst n h sr gr ev | cpldm n h sr gr ev | cptag n h sr gr ev =>
    obtain ⟨rfl, hop, hb⟩ := fields_of_enc1 h rfl
    obtain ⟨rfl, rfl, rfl, hfl⟩ := body_eq_bodyCP.mp hb
    obtain ⟨rfl, hk⟩ := fl_eq_flEV.mp hfl
    rw [decode1, hop]
    exact zOk_of_eq hk
  | cpgat n h sr gr ev | cpsca n h sr gr ev =>
    obtain ⟨rfl, hop, hb⟩ := fields_of_enc1 h rfl
    obtain ⟨rfl, rfl, hgr, hfl⟩ := body_eq_bodyCP.mp hb
    obtain ⟨rfl, hk⟩ := fl_eq_flEV.mp hfl
    obtain ⟨rfl, hz⟩ := field5_eq_append_4_1.mp hgr
    rw [decode1, hop]
    exact zOk_of_eq (append_bits_eq_zero_iff.mpr ⟨hz, hk⟩)
  | cpaccAdd n h sr gr ev | cpaccMin n h sr gr ev | cpaccMax n h sr gr ev | cpaccAnd n h sr gr ev | cpaccOr n h sr gr ev
  | cpaccXor n h sr gr ev | cpaccXchg n h sr gr ev | cpaccCas n h sr gr ev =>
    obtain ⟨rfl, hop, hb⟩ := fields_of_enc1 h rfl
    obtain ⟨rfl, rfl, rfl, hfl⟩ := body_eq_bodyCP.mp hb
    obtain ⟨rfl, hk⟩ := fl_eq_flEV.mp hfl
    rw [decode1, hop]
    exact (by rw [hk]; rfl)
  | cpfill n h gr ev =>
    obtain ⟨rfl, hop, hb⟩ := fields_of_enc1 h rfl
    obtain ⟨rfl, hsr, rfl, hfl⟩ := body_eq_bodyCP.mp hb
    obtain ⟨rfl, hk⟩ := fl_eq_flEV.mp hfl
    obtain ⟨hz, h0⟩ := (fn_eq_fnN (u := false)).mp hk
    rw [decode1, hop]
    exact (zOk_of_eq (append_bits_eq_zero_iff.mpr ⟨hsr, hz⟩)).trans (if_neg (Bool.eq_false_iff.mp h0))
  | cpfillScr n h gr ev =>
    obtain ⟨rfl, hop, hb⟩ := fields_of_enc1 h rfl
    obtain ⟨rfl, hsr, rfl, hfl⟩ := body_eq_bodyCP.mp hb
    obtain ⟨rfl, hk⟩ := fl_eq_flEV.mp hfl
    obtain ⟨hz, h0⟩ := (fn_eq_fnN (u := true)).mp hk
    rw [decode1, hop]
    exact (zOk_of_eq (append_bits_eq_zero_iff.mpr ⟨hsr, hz⟩)).trans (if_pos h0)
  | cpres n sr gr ev | cpreg n sr gr ev =>
    obtain ⟨rfl, hop, hb⟩ := fields_of_enc1 h rfl
    obtain ⟨hh, rfl, rfl, hfl⟩ := body_eq_bodyCP.mp hb
    obtain ⟨rfl, hk⟩ := fl_eq_flEV.mp hfl
    rw [decode1, hop]
    exact zOk_of_eq (append_bits_eq_zero_iff.mpr ⟨hh, hk⟩)
  | cpsig n gr ev j =>
    obtain ⟨rfl, hop, hb⟩ := fields_of_enc1 h rfl
    obtain ⟨hh, hsr, rfl, hfl⟩ := body_eq_bodyCP.mp hb
    obtain ⟨rfl, rfl⟩ := fl_eq_flEV.mp hfl
    rw [decode1, hop]
    exact zOk_of_eq (append_bits_eq_zero_iff.mpr ⟨hh, hsr⟩)
  | cpdrain n ev =>
    obtain ⟨rfl, hop, hb⟩ := fields_of_enc1 h rfl
    obtain ⟨hh, hsr, hgr, hfl⟩ := body_eq_bodyCP.mp hb
    obtain ⟨rfl, hk⟩ := fl_eq_flEV.mp hfl
    obtain ⟨hz, h0⟩ := (fn_eq_fnN (u := false)).mp hk
    rw [decode1, hop]
    exact (zOk_of_eq (append_bits_eq_zero_iff.mpr ⟨cpHigh_eq_append_4_5_5.mpr ⟨hh, hsr, hgr⟩, hz⟩)).trans (if_neg (Bool.eq_false_iff.mp h0))
  | cpdrainBoth n ev =>
    obtain ⟨rfl, hop, hb⟩ := fields_of_enc1 h rfl
    obtain ⟨hh, hsr, hgr, hfl⟩ := body_eq_bodyCP.mp hb
    obtain ⟨rfl, hk⟩ := fl_eq_flEV.mp hfl
    obtain ⟨hz, h0⟩ := (fn_eq_fnN (u := true)).mp hk
    rw [decode1, hop]
    exact (zOk_of_eq (append_bits_eq_zero_iff.mpr ⟨cpHigh_eq_append_4_5_5.mpr ⟨hh, hsr, hgr⟩, hz⟩)).trans (if_pos h0)
  | tspawn y a b =>
    obtain ⟨hn, hop, hb⟩ := fields_of_enc1 h rfl
    obtain ⟨rfl, ht⟩ := annOf_eq_annS.mp hn
    obtain ⟨hd, rfl, rfl, hfn⟩ := body_eq_bodyRR.mp hb
    rw [decode1, hop]
    exact sOnly_of_eq ht (append_bits_eq_zero_iff.mpr ⟨hd, hfn⟩)
  | tdone y | asabort y | tret y | idle y =>
    obtain ⟨hn, hop, hb⟩ := fields_of_enc1 h rfl
    obtain ⟨rfl, ht⟩ := annOf_eq_annS.mp hn
    rw [decode1, hop]
    exact sOnly_of_eq ht hb
  | tchk y d =>
    obtain ⟨hn, hop, hb⟩ := fields_of_enc1 h rfl
    obtain ⟨rfl, ht⟩ := annOf_eq_annS.mp hn
    obtain ⟨rfl, ha, hb, hfn⟩ := body_eq_bodyRR.mp hb
    rw [decode1, hop]
    exact sOnly_of_eq ht (low13_eq_append_5_8.mpr ⟨ha, imm_eq_append_5_3.mpr ⟨hb, hfn⟩⟩)
  | asdecl y d a b =>
    obtain ⟨hn, hop, hb⟩ := fields_of_enc1 h rfl
    obtain ⟨rfl, ht⟩ := annOf_eq_annS.mp hn
    obtain ⟨rfl, rfl, rfl, hfn⟩ := body_eq_bodyRR.mp hb
    obtain ⟨hz, h0⟩ := (fn_eq_fnN (u := false)).mp hfn
    rw [decode1, hop]
    exact (if_neg (Bool.eq_false_iff.mp h0)).trans (sOnly_of_eq ht hz)
  | asdeclRm y d =>
    obtain ⟨hn, hop, hb⟩ := fields_of_enc1 h rfl
    obtain ⟨rfl, ht⟩ := annOf_eq_annS.mp hn
    obtain ⟨rfl, ha, hb, hfn⟩ := body_eq_bodyRR.mp hb
    obtain ⟨hz, h0⟩ := (fn_eq_fnN (u := true)).mp hfn
    rw [decode1, hop]
    exact (if_pos h0).trans (sOnly_of_eq ht (append_bits_eq_zero_iff.mpr ⟨append_bits_eq_zero_iff.mpr ⟨ha, hb⟩, hz⟩))
  | asstatSt y d =>
    obtain ⟨hn, hop, hb⟩ := fields_of_enc1 h rfl
    obtain ⟨rfl, ht⟩ := annOf_eq_annS.mp hn
    obtain ⟨rfl, ha, hb, hfn⟩ := body_eq_bodyRR.mp hb
    obtain ⟨hz, hk⟩ := (fn_eq_append_1_2 (u := 0) (x := 0)).mp hfn
    rw [decode1, hop]
    exact (by rw [hk]; exact sOnly_of_eq ht (append_bits_eq_zero_iff.mpr ⟨append_bits_eq_zero_iff.mpr ⟨ha, hb⟩, hz⟩))
  | asstatAge y d =>
    obtain ⟨hn, hop, hb⟩ := fields_of_enc1 h rfl
    obtain ⟨rfl, ht⟩ := annOf_eq_annS.mp hn
    obtain ⟨rfl, ha, hb, hfn⟩ := body_eq_bodyRR.mp hb
    obtain ⟨hz, hk⟩ := (fn_eq_append_1_2 (u := 0) (x := 1)).mp hfn
    rw [decode1, hop]
    exact (by rw [hk]; exact sOnly_of_eq ht (append_bits_eq_zero_iff.mpr ⟨append_bits_eq_zero_iff.mpr ⟨ha, hb⟩, hz⟩))
  | asstatSet y d a =>
    obtain ⟨hn, hop, hb⟩ := fields_of_enc1 h rfl
    obtain ⟨rfl, ht⟩ := annOf_eq_annS.mp hn
    obtain ⟨rfl, rfl, hb, hfn⟩ := body_eq_bodyRR.mp hb
    obtain ⟨hz, hk⟩ := (fn_eq_append_1_2 (u := 0) (x := 2)).mp hfn
    rw [decode1, hop]
    exact (by rw [hk]; exact sOnly_of_eq ht (append_bits_eq_zero_iff.mpr ⟨hb, hz⟩))
  | barr y a b | bwait y a b =>
    obtain ⟨hn, hop, hb⟩ := fields_of_enc1 h rfl
    obtain ⟨rfl, ht⟩ := annOf_eq_annS.mp hn
    obtain ⟨hd, rfl, hi⟩ := body_eq_bodyRI.mp hb
    obtain ⟨hz, rfl⟩ := field8_eq_append_3_5.mp hi
    rw [decode1, hop]
    exact sOnly_of_eq ht (append_bits_eq_zero_iff.mpr ⟨hd, hz⟩)
  | btest y d b =>
    obtain ⟨hn, hop, hb⟩ := fields_of_enc1 h rfl
    obtain ⟨rfl, ht⟩ := annOf_eq_annS.mp hn
    obtain ⟨rfl, ha, hi⟩ := body_eq_bodyRI.mp hb
    obtain ⟨hz, rfl⟩ := field8_eq_append_3_5.mp hi
    rw [decode1, hop]
    exact sOnly_of_eq ht (append_bits_eq_zero_iff.mpr ⟨ha, hz⟩)
  | coll y d a =>
    obtain ⟨hn, hop, hb⟩ := fields_of_enc1 h rfl
    obtain ⟨rfl, ht⟩ := annOf_eq_annS.mp hn
    obtain ⟨rfl, rfl, hb, hfn⟩ := body_eq_bodyRR.mp hb
    rw [decode1, hop]
    exact sOnly_of_eq ht (imm_eq_append_5_3.mpr ⟨hb, hfn⟩)
  | collwait y a =>
    obtain ⟨hn, hop, hb⟩ := fields_of_enc1 h rfl
    obtain ⟨rfl, ht⟩ := annOf_eq_annS.mp hn
    obtain ⟨hd, rfl, hb, hfn⟩ := body_eq_bodyRR.mp hb
    rw [decode1, hop]
    exact sOnly_of_eq ht (append_bits_eq_zero_iff.mpr ⟨hd, imm_eq_append_5_3.mpr ⟨hb, hfn⟩⟩)
  | sysget n d r =>
    obtain ⟨rfl, hop, hb⟩ := fields_of_enc1 h rfl
    obtain ⟨rfl, ha, rfl⟩ := body_eq_bodyRI.mp hb
    rw [decode1, hop]
    exact zOk_of_eq ha
  | sysset n a r | trap n a r =>
    obtain ⟨rfl, hop, hb⟩ := fields_of_enc1 h rfl
    obtain ⟨hd, rfl, rfl⟩ := body_eq_bodyRI.mp hb
    rw [decode1, hop]
    exact zOk_of_eq hd
  | brk n k =>
    obtain ⟨rfl, hop, hb⟩ := fields_of_enc1 h rfl
    obtain ⟨hd, ha, rfl⟩ := body_eq_bodyRI.mp hb
    rw [decode1, hop]
    exact zOk_of_eq (append_bits_eq_zero_iff.mpr ⟨hd, ha⟩)
  | _ => nomatch h

end

section
variable {w : BitVec 32}

theorem bitVec2_cases : ∀ x : BitVec 2, x = 0 ∨ x = 1 ∨ x = 2 ∨ x = 3 := by decide
theorem bitVec3_cases : ∀ x : BitVec 3, x = 0 ∨ x = 1 ∨ x = 2 ∨ x = 3 ∨ x = 4 ∨ x = 5 ∨ x = 6 ∨ x = 7 := by decide

theorem fn_eq_zero : w.extractLsb' 0 3 = 0#3 ↔ w.extractLsb' 1 2 = 0 ∧ w.getLsbD 0 = false := fn_eq_fnN (u := false)
theorem fn_eq_one : w.extractLsb' 0 3 = 1#3 ↔ w.extractLsb' 1 2 = 0 ∧ w.getLsbD 0 = true := fn_eq_fnN (u := true)
theorem imm_eq_zero_iff : w.extractLsb' 0 8 = 0 ↔ f5 w 3 = 0 ∧ w.extractLsb' 0 3 = 0 := imm_eq_append_5_3 (x := 0) (y := 0)
theorem low13_eq_zero_iff : w.extractLsb' 0 13 = 0 ↔ f5 w 8 = 0 ∧ w.extractLsb' 0 8 = 0 := low13_eq_append_5_8 (x := 0) (y := 0)
theorem cpHigh_eq_zero_iff : w.extractLsb' 4 14 = 0 ↔ w.extractLsb' 14 4 = 0 ∧ f5 w 9 = 0 ∧ f5 w 4 = 0 :=
  cpHigh_eq_append_4_5_5 (x := 0) (y := 0) (z := 0)

/-- A word decodes to `i`, and is its encoding unless it is not assigned. -/
structure Encodes (w : BitVec 32) (i : Instr) : Prop where
  enc : (∀ p r, i ≠ .unassignedWord p r) → enc1 i = some w

theorem Encodes.unassigned (p : BitVec 32) (r : BitVec 3) : Encodes w (.unassignedWord p r) := ⟨fun h => absurd rfl (h p r)⟩

theorem encodes_zOk {n : Nat} {z : BitVec n} {i : Instr} : Encodes w (zOk w z i) ↔ (z = 0 → Encodes w i) := by
  unfold zOk
  split
  · next hz => exact ⟨fun h _ => h, fun h => h hz⟩
  · next hz => exact ⟨fun _ h => absurd h hz, fun _ => .unassigned _ _⟩

theorem encodes_sOnly {n : Nat} {z : BitVec n} {i : Instr} :
    Encodes w (sOnly w z i) ↔ (w.extractLsb' 25 4 = 0 → z = 0 → Encodes w i) := by
  unfold sOnly
  split
  · next ht => rw [encodes_zOk]; exact ⟨fun h _ => h, fun h => h ht⟩
  · next ht => exact ⟨fun _ h => absurd h ht, fun _ => .unassigned _ _⟩

theorem encodes_of_fields {i : Instr} {n : Ann} {op : BitVec 7} {body : BitVec 18} (he : enc1 i = some (mk1 n op body))
    (hf : w.extractLsb' 30 2 = 0) (hop : (w.extractLsb' 18 7).toNat = op.toNat) (hn : annOf w = n) (hb : w.extractLsb' 0 18 = body) : Encodes w i :=
  ⟨fun _ => he.trans (congrArg some (mk1_eq_iff.mpr ⟨hf, hn, BitVec.eq_of_toNat_eq hop, hb⟩))⟩

/-- The words of 0x12: the low bits of fn choose one of four. -/
theorem encodes_of_major12 (hf : w.extractLsb' 30 2 = 0) (hop : (w.extractLsb' 18 7).toNat = 0x12) : Encodes w (decode1 w) := by
  rw [decode1, hop]
  refine encodes_zOk.mpr fun hz => ?_
  rcases bitVec2_cases (w.extractLsb' 0 2) with hk | hk | hk | hk <;> rw [hk] <;>
    exact encodes_of_fields rfl hf hop rfl (body_eq_bodyRR.mpr ⟨rfl, rfl, hz, fn_eq_fnW.mpr ⟨rfl, hk⟩⟩)

/-- The words of 0x56: the low flags choose one of eight accumulations. -/
theorem encodes_of_major56 (hf : w.extractLsb' 30 2 = 0) (hop : (w.extractLsb' 18 7).toNat = 0x56) : Encodes w (decode1 w) := by
  rw [decode1, hop]
  rcases bitVec3_cases (w.extractLsb' 0 3) with hk | hk | hk | hk | hk | hk | hk | hk <;> rw [hk] <;>
    exact encodes_of_fields rfl hf hop rfl (body_eq_bodyCP.mpr ⟨rfl, rfl, rfl, fl_eq_flEV.mpr ⟨rfl, hk⟩⟩)

/-- The words of 0x65: the low bits of fn choose one of three. -/
theorem encodes_of_major65 (hf : w.extractLsb' 30 2 = 0) (hop : (w.extractLsb' 18 7).toNat = 0x65) : Encodes w (decode1 w) := by
  rw [decode1, hop]
  rcases bitVec2_cases (w.extractLsb' 0 2) with hk | hk | hk | hk <;> rw [hk] <;> refine encodes_sOnly.mpr fun ht hz => ?_
  case inr.inr.inr => exact .unassigned _ _
  case inr.inr.inl =>
    obtain ⟨hb, hz⟩ := append_bits_eq_zero_iff.mp hz
    exact encodes_of_fields rfl hf hop (annOf_eq_annS.mpr ⟨rfl, ht⟩) (body_eq_bodyRR.mpr ⟨rfl, rfl, hb, fn_eq_append_1_2.mpr ⟨hz, hk⟩⟩)
  all_goals
    obtain ⟨hab, hz⟩ := append_bits_eq_zero_iff.mp hz
    obtain ⟨ha, hb⟩ := append_bits_eq_zero_iff.mp hab
    exact encodes_of_fields rfl hf hop (annOf_eq_annS.mpr ⟨rfl, ht⟩) (body_eq_bodyRR.mpr ⟨rfl, ha, hb, fn_eq_append_1_2.mpr ⟨hz, hk⟩⟩)

/-- Where the opcode has one word, the Z fields and the choices of the row are what the parts of its body must be. -/
theorem encodes_decode1 (hf : w.extractLsb' 30 2 = 0) : Encodes w (decode1 w) := by
  by_cases h12 : (w.extractLsb' 18 7).toNat = 0x12
  · exact encodes_of_major12 hf h12
  by_cases h56 : (w.extractLsb' 18 7).toNat = 0x56
  · exact encodes_of_major56 hf h56
  by_cases h65 : (w.extractLsb' 18 7).toNat = 0x65
  · exact encodes_of_major65 hf h65
  unfold decode1
  dsimp only
  split
  any_goals contradiction
  all_goals
    try split
    all_goals try simp only [encodes_zOk, encodes_sOnly, Encodes.unassigned, append_bits_eq_zero_iff,
      imm_eq_zero_iff, low13_eq_zero_iff, cpHigh_eq_zero_iff, and_imp]
  all_goals
    intros
    refine encodes_of_fields rfl hf ‹_› ?_ ?_ <;>
      simp only [annOf_eq_annS, body_eq_bodyRR, body_eq_bodyRI, body_eq_bodyLI, body_eq_bodyLP, body_eq_bodyCP, body_eq_bodyG, fn_eq_fnW,
        fn_eq_fnN, fn_eq_zero, fn_eq_one, fl_eq_flEV, imm_eq_immSh, imm_eq_append_3_2_3, imm_eq_append_4_3_1, field5_eq_append_4_1,
        field8_eq_append_3_5, imm_eq_append_5_3, imm_eq_append_6_2, *, and_self, BitVec.ofNat_eq_ofNat]

end

/-! ### Words of the Newt -/

section
variable {w : BitVec 32}

theorem mkN_eq_iff {code : BitVec 5} {d a b : BitVec 4} {i : BitVec 15} : mkN code d a b i = w ↔ w.extractLsb' 27 5 = code ∧
    w.extractLsb' 23 4 = d ∧ w.extractLsb' 19 4 = a ∧ w.extractLsb' 15 4 = b ∧ w.extractLsb' 0 15 = i := by
  rw [eq_comm, ← BitVec.extractLsb'_eq_self (x := w)]
  change w.extractLsb' 0 (5 + 4 + 4 + 4 + 15) = code ++ d ++ a ++ b ++ i ↔ _
  simp only [field_eq_append_iff]
  simp only [and_assoc, BitVec.extractLsb'_eq_self, Nat.reduceAdd]

theorem imm15_eq_bit_append {x : Bool} {i : BitVec 14} : w.extractLsb' 0 15 = bit x ++ i ↔ w.getLsbD 14 = x ∧ w.extractLsb' 0 14 = i := by
  rw [← field_eq_bit_iff]; exact field_eq_append_iff w 0 (bit x) i

theorem imm15_eq_append_12_3 {z : BitVec 12} {f : BitVec 3} : w.extractLsb' 0 15 = z ++ f ↔ w.extractLsb' 3 12 = z ∧ w.extractLsb' 0 3 = f :=
  field_eq_append_iff w 0 z f

theorem imm15_eq_append_5_10 {z : BitVec 5} {e : BitVec 10} : w.extractLsb' 0 15 = z ++ e ↔ w.extractLsb' 10 5 = z ∧ w.extractLsb' 0 10 = e :=
  field_eq_append_iff w 0 z e

theorem imm15_eq_append_7_8 {z : BitVec 7} {t : BitVec 8} : w.extractLsb' 0 15 = z ++ t ↔ w.extractLsb' 8 7 = z ∧ w.extractLsb' 0 8 = t :=
  field_eq_append_iff w 0 z t

theorem imm15_eq_append_2_7_6 {c : BitVec 2} {z : BitVec 7} {o : BitVec 6} :
    w.extractLsb' 0 15 = c ++ z ++ o ↔ w.extractLsb' 13 2 = c ∧ w.extractLsb' 6 7 = z ∧ w.extractLsb' 0 6 = o := by
  change w.extractLsb' 0 (2 + 7 + 6) = c ++ z ++ o ↔ _
  simp only [field_eq_append_iff, and_assoc]

theorem imm15_eq_bit_append_5_9 {m : Bool} {k : BitVec 5} {u : BitVec 9} :
    w.extractLsb' 0 15 = bit m ++ k ++ u ↔ w.getLsbD 14 = m ∧ w.extractLsb' 9 5 = k ∧ w.extractLsb' 0 9 = u := by
  change w.extractLsb' 0 (1 + 5 + 9) = bit m ++ k ++ u ↔ _
  simp only [field_eq_append_iff, field_eq_bit_iff, and_assoc]

theorem imm15_eq_append_1_4_10 {z : BitVec 1} {k : BitVec 4} {e : BitVec 10} :
    w.extractLsb' 0 15 = z ++ k ++ e ↔ w.extractLsb' 14 1 = z ∧ w.extractLsb' 10 4 = k ∧ w.extractLsb' 0 10 = e := by
  change w.extractLsb' 0 (1 + 4 + 10) = z ++ k ++ e ↔ _
  simp only [field_eq_append_iff, and_assoc]

theorem imm15_eq_append_4_8_3 {z : BitVec 4} {i : BitVec 8} {c : BitVec 3} :
    w.extractLsb' 0 15 = z ++ i ++ c ↔ w.extractLsb' 11 4 = z ∧ w.extractLsb' 3 8 = i ∧ w.extractLsb' 0 3 = c := by
  change w.extractLsb' 0 (4 + 8 + 3) = z ++ i ++ c ↔ _
  simp only [field_eq_append_iff, and_assoc]

theorem low27_eq_append {d a b : BitVec 4} {i : BitVec 15} : w.extractLsb' 0 27 = d ++ a ++ b ++ i ↔
    w.extractLsb' 23 4 = d ∧ w.extractLsb' 19 4 = a ∧ w.extractLsb' 15 4 = b ∧ w.extractLsb' 0 15 = i := by
  change w.extractLsb' 0 (4 + 4 + 4 + 15) = d ++ a ++ b ++ i ↔ _
  simp only [field_eq_append_iff, and_assoc]

theorem low27_eq_zero_iff : w.extractLsb' 0 27 = 0 ↔
    w.extractLsb' 23 4 = 0 ∧ w.extractLsb' 19 4 = 0 ∧ w.extractLsb' 15 4 = 0 ∧ w.extractLsb' 0 15 = 0 :=
  low27_eq_append (d := 0) (a := 0) (b := 0) (i := 0)

theorem fields_of_encN {i : Instr} {code : BitVec 5} {d a b : BitVec 4} {imm : BitVec 15} (h : encN i = some w)
    (he : encN i = some (mkN code d a b imm)) : (w.extractLsb' 27 5).toNat = code.toNat ∧ w.extractLsb' 23 4 = d ∧ w.extractLsb' 19 4 = a ∧
      w.extractLsb' 15 4 = b ∧ w.extractLsb' 0 15 = imm := by
  obtain ⟨hc, hd⟩ := mkN_eq_iff.mp (Option.some.inj (he.symm.trans h))
  exact ⟨congrArg BitVec.toNat hc, hd⟩

/-- R47, R367: a Newt word decodes from its encoding. -/
theorem decodeNewt_of_encN {i : Instr} (h : encN i = some w) : decodeNewt w = some i := by
  cases i with
  | nget d f =>
    obtain ⟨hc, rfl, ha, hb, hi⟩ := fields_of_encN h rfl
    obtain ⟨hz, rfl⟩ := imm15_eq_append_12_3.mp hi
    rw [decodeNewt, hc]
    exact if_pos (beq_iff_eq.mpr (append_bits_eq_zero_iff.mpr ⟨append_bits_eq_zero_iff.mpr ⟨ha, hb⟩, hz⟩))
  | nli d k =>
    obtain ⟨hc, rfl, ha, hb, rfl⟩ := fields_of_encN h rfl
    rw [decodeNewt, hc]
    exact if_pos (beq_iff_eq.mpr (append_bits_eq_zero_iff.mpr ⟨ha, hb⟩))
  | nadd d a b x k | nsub d a b x k | nand d a b x k | nor d a b x k | nshl d a b x k | nshr d a b x k | nmin d a b x k | nmax d a b x k
  | ncmp d a b x k =>
    obtain ⟨hc, rfl, rfl, rfl, hi⟩ := fields_of_encN h rfl
    obtain ⟨rfl, rfl⟩ := imm15_eq_bit_append.mp hi
    rw [decodeNewt, hc]
    rfl
  | nbf a c o =>
    obtain ⟨hc, hd, rfl, hb, hi⟩ := fields_of_encN h rfl
    obtain ⟨rfl, hz, rfl⟩ := imm15_eq_append_2_7_6.mp hi
    rw [decodeNewt, hc]
    exact if_pos (beq_iff_eq.mpr (append_bits_eq_zero_iff.mpr ⟨append_bits_eq_zero_iff.mpr ⟨hd, hb⟩, hz⟩))
  | nbin d a m k u =>
    obtain ⟨hc, rfl, rfl, hb, hi⟩ := fields_of_encN h rfl
    obtain ⟨rfl, rfl, rfl⟩ := imm15_eq_bit_append_5_9.mp hi
    rw [decodeNewt, hc]
    exact if_pos (beq_iff_eq.mpr hb)
  | nhinc d a b e =>
    obtain ⟨hc, rfl, rfl, rfl, hi⟩ := fields_of_encN h rfl
    obtain ⟨hz, rfl⟩ := imm15_eq_append_5_10.mp hi
    rw [decodeNewt, hc]
    exact if_pos (beq_iff_eq.mpr hz)
  | nskt a b k e =>
    obtain ⟨hc, hd, rfl, rfl, hi⟩ := fields_of_encN h rfl
    obtain ⟨hz, rfl, rfl⟩ := imm15_eq_append_1_4_10.mp hi
    rw [decodeNewt, hc]
    exact if_pos (beq_iff_eq.mpr (append_bits_eq_zero_iff.mpr ⟨hd, hz⟩))
  | nsktq d a k e =>
    obtain ⟨hc, rfl, rfl, hb, hi⟩ := fields_of_encN h rfl
    obtain ⟨hz, rfl, rfl⟩ := imm15_eq_append_1_4_10.mp hi
    rw [decodeNewt, hc]
    exact if_pos (beq_iff_eq.mpr (append_bits_eq_zero_iff.mpr ⟨hb, hz⟩))
  | ntrig a k c =>
    obtain ⟨hc, hd, rfl, hb, hi⟩ := fields_of_encN h rfl
    obtain ⟨hz, rfl, rfl⟩ := imm15_eq_append_4_8_3.mp hi
    rw [decodeNewt, hc]
    exact if_pos (beq_iff_eq.mpr (append_bits_eq_zero_iff.mpr ⟨append_bits_eq_zero_iff.mpr ⟨hd, hb⟩, hz⟩))
  | nmark a t =>
    obtain ⟨hc, hd, rfl, hb, hi⟩ := fields_of_encN h rfl
    obtain ⟨hz, rfl⟩ := imm15_eq_append_7_8.mp hi
    rw [decodeNewt, hc]
    exact if_pos (beq_iff_eq.mpr (append_bits_eq_zero_iff.mpr ⟨append_bits_eq_zero_iff.mpr ⟨hd, hb⟩, hz⟩))
  | nend =>
    obtain ⟨hc, hz⟩ := fields_of_encN h rfl
    rw [decodeNewt, hc]
    exact if_pos (beq_iff_eq.mpr (low27_eq_append.mpr hz))
  | _ => nomatch h

theorem encN_of_fields {i : Instr} {code : BitVec 5} {d a b : BitVec 4} {imm : BitVec 15} (he : encN i = some (mkN code d a b imm))
    (hc : (w.extractLsb' 27 5).toNat = code.toNat) (hd : w.extractLsb' 23 4 = d) (ha : w.extractLsb' 19 4 = a) (hb : w.extractLsb' 15 4 = b)
    (hi : w.extractLsb' 0 15 = imm) : encN i = some w :=
  he.trans (congrArg some (mkN_eq_iff.mpr ⟨BitVec.eq_of_toNat_eq hc, hd, ha, hb, hi⟩))

/-- R47, R367: a word that decodes to a Newt word is its encoding. -/
theorem encN_of_decodeNewt : ∀ i, decodeNewt w = some i → encN i = some w := by
  unfold decodeNewt
  dsimp only
  split
  all_goals
    simp only [Option.ite_none_right_eq_some, Option.some.injEq, reduceCtorEq, isZ, beq_iff_eq, append_bits_eq_zero_iff, low27_eq_zero_iff,
      and_imp, false_imp_iff, imp_true_iff]
  all_goals
    intros
    subst_vars
    refine encN_of_fields rfl ‹_› ?_ ?_ ?_ ?_ <;>
      simp only [imm15_eq_append_12_3, imm15_eq_bit_append, imm15_eq_append_2_7_6, imm15_eq_bit_append_5_9, imm15_eq_append_5_10,
        imm15_eq_append_1_4_10, imm15_eq_append_4_8_3, imm15_eq_append_7_8, *, and_self, BitVec.ofNat_eq_ofNat]

end

/-! ### Words of three and of six parcels -/

/-- A field of a field is a field. -/
theorem field_of_field {k lo l p m : Nat} (w : BitVec k) (h : p + m ≤ l) :
    (w.extractLsb' lo l).extractLsb' p m = w.extractLsb' (lo + p) m := by
  ext j hj
  rw [BitVec.getElem_extractLsb', BitVec.getLsbD_extractLsb', BitVec.getElem_extractLsb', decide_eq_true (by omega), Bool.true_and, add_assoc]

theorem vopdOf_eq_iff {x : BitVec 20} {o : VOpd} : vopdOf x = o ↔ x = encVOpd o := by
  obtain ⟨b, f, t⟩ := o
  rw [← BitVec.extractLsb'_eq_self (x := x)]
  change _ ↔ x.extractLsb' 0 (5 + 10 + 5) = b ++ f ++ t
  simp only [field_eq_append_iff]
  simp only [vopdOf, VOpd.mk.injEq, and_assoc, BitVec.extractLsb'_eq_self, Nat.reduceAdd]

/-- R31, R32 in the first parcel of a longer word. -/
theorem annOf_parcel_eq_iff {k : Nat} {w : BitVec k} {lo : Nat} {n : Ann} :
    annOf (w.extractLsb' lo 32) = n ↔ w.extractLsb' (lo + 29) 1 = bit n.y ∧ w.extractLsb' (lo + 25) 4 = n.t := by
  obtain ⟨y, t⟩ := n
  rw [annOf, Ann.mk.injEq, ← field_eq_bit_iff, field_of_field _ (by decide), field_of_field _ (by decide)]

theorem mk3_eq_iff {w : BitVec 96} {op : BitVec 9} {v : VWord} : mk3 op v = w ↔
    w.extractLsb' 94 2 = 1 ∧ w.extractLsb' 80 9 = op ∧ w.extractLsb' 60 2 = 0 ∧ vwordOf w = v := by
  obtain ⟨n, vlen, vlg, et, rm, d, a, b⟩ := v
  rw [eq_comm, ← BitVec.extractLsb'_eq_self (x := w)]
  change w.extractLsb' 0 (2 + 1 + 4 + 9 + 10 + 1 + 4 + 3 + 2 + 20 + 20 + 20) = 1#2 ++ bit n.y ++ n.t ++ op ++ vlen ++ bit vlg ++ et ++ rm ++ 0#2
    ++ encVOpd d ++ encVOpd a ++ encVOpd b ↔ _
  simp only [field_eq_append_iff]
  simp only [vwordOf, VWord.mk.injEq, annOf_parcel_eq_iff, vopdOf_eq_iff, field_eq_bit_iff, BitVec.extractLsb'_eq_self, Nat.reduceAdd]
  exact ⟨fun ⟨⟨⟨⟨⟨⟨⟨⟨⟨⟨⟨h0, hy⟩, ht⟩, ho⟩, hl⟩, hg⟩, he⟩, hr⟩, hz⟩, hd⟩, ha⟩, hb⟩ => ⟨h0, ho, hz, ⟨hy, ht⟩, hl, hg, he, hr, hd, ha, hb⟩,
    fun ⟨h0, ho, hz, ⟨hy, ht⟩, hl, hg, he, hr, hd, ha, hb⟩ => ⟨⟨⟨⟨⟨⟨⟨⟨⟨⟨⟨h0, hy⟩, ht⟩, ho⟩, hl⟩, hg⟩, he⟩, hr⟩, hz⟩, hd⟩, ha⟩, hb⟩⟩

theorem mk6_eq_iff {w : BitVec 192} {op : BitVec 6} {m : MWord} : mk6 op m = w ↔
    w.extractLsb' 190 2 = 2 ∧ w.extractLsb' 179 6 = op ∧ w.extractLsb' 0 64 = 0 ∧ mwordOf w = m := by
  obtain ⟨n, mc, nf, fsel, sa, sb, abase, aoff, apitch, acc, col, ovw, spec⟩ := m
  rw [eq_comm, ← BitVec.extractLsb'_eq_self (x := w)]
  change w.extractLsb' 0 (2 + 1 + 4 + 6 + 2 + 6 + 6 + 1 + 1 + 5 + 16 + 10 + 14 + 10 + 1 + 43 + 64) = 2#2 ++ bit n.y ++ n.t ++ op ++ mc ++ nf ++ fsel
    ++ bit sa ++ bit sb ++ abase ++ aoff ++ apitch ++ acc ++ col ++ bit ovw ++ spec ++ 0#64 ↔ _
  simp only [field_eq_append_iff]
  simp only [mwordOf, MWord.mk.injEq, annOf_parcel_eq_iff, field_eq_bit_iff, BitVec.extractLsb'_eq_self, Nat.reduceAdd]
  exact ⟨fun ⟨⟨⟨⟨⟨⟨⟨⟨⟨⟨⟨⟨⟨⟨⟨⟨h0, hy⟩, ht⟩, ho⟩, hc⟩, hf⟩, hs⟩, ha⟩, hb⟩, hA⟩, hO⟩, hp⟩, hk⟩, hl⟩, hw⟩, hx⟩, hz⟩ =>
      ⟨h0, ho, hz, ⟨hy, ht⟩, hc, hf, hs, ha, hb, hA, hO, hp, hk, hl, hw, hx⟩,
    fun ⟨h0, ho, hz, ⟨hy, ht⟩, hc, hf, hs, ha, hb, hA, hO, hp, hk, hl, hw, hx⟩ =>
      ⟨⟨⟨⟨⟨⟨⟨⟨⟨⟨⟨⟨⟨⟨⟨⟨h0, hy⟩, ht⟩, ho⟩, hc⟩, hf⟩, hs⟩, ha⟩, hb⟩, hA⟩, hO⟩, hp⟩, hk⟩, hl⟩, hw⟩, hx⟩, hz⟩⟩

theorem vecInstr_of_encV {i : Instr} {op : BitVec 9} {v : VWord} (h : encV i = some (op, v)) : vecInstr op.toNat v = some i := by
  unfold encV at h
  split at h
  any_goals contradiction
  all_goals
    obtain ⟨rfl, rfl⟩ := Prod.mk.inj (Option.some.inj h)
    rfl

theorem encV_of_vecInstr {i : Instr} {op : BitVec 9} {v : VWord} (h : vecInstr op.toNat v = some i) : encV i = some (op, v) := by
  unfold vecInstr at h
  split at h
  any_goals contradiction
  all_goals
    next hop =>
      obtain rfl := Option.some.inj h
      exact congrArg (fun o => some (o, v)) (BitVec.eq_of_toNat_eq hop.symm)

/-! The matrix words that share a MOP: their DT (spec/10 R213) and their CM (R212). -/

theorem reason56_eq_none_iff {z v : Bool} : reason56 z v = none ↔ z = true ∧ v = true := by
  cases z <;> cases v <;> decide

theorem fieldReason_of_wellFormed {i : Instr} (h : wellFormed i = true) : fieldReason i = none := by
  simp only [wellFormed, Bool.and_eq_true, beq_iff_eq] at h
  obtain ⟨⟨⟨⟨h, -⟩, -⟩, -⟩, -⟩ := h
  exact h

theorem modeOk_of_wellFormed {i : Instr} (h : wellFormed i = true) : modeOk i = true := by
  simp only [wellFormed, Bool.and_eq_true] at h
  obtain ⟨⟨-, h⟩, -⟩ := h
  exact h

section
variable {m : MWord}

theorem dt_of_wellFormed_mxread (h : wellFormed (.mxread m) = true) : m.dt ≠ 11 := by
  intro hd
  obtain ⟨-, hv⟩ := reason56_eq_none_iff.mp (fieldReason_of_wellFormed h)
  rw [hd] at hv
  simp at hv

theorem dt_of_wellFormed_mxwrite (h : wellFormed (.mxwrite m) = true) : m.dt ≠ 11 := by
  intro hd
  obtain ⟨-, hv⟩ := reason56_eq_none_iff.mp (fieldReason_of_wellFormed h)
  rw [hd] at hv
  simp at hv

theorem dt_of_wellFormed_mxreadFlags (h : wellFormed (.mxreadFlags m) = true) : m.dt = 11 :=
  beq_iff_eq.mp (reason56_eq_none_iff.mp (fieldReason_of_wellFormed h)).2

theorem dt_of_wellFormed_mxwriteFlags (h : wellFormed (.mxwriteFlags m) = true) : m.dt = 11 :=
  beq_iff_eq.mp (reason56_eq_none_iff.mp (fieldReason_of_wellFormed h)).2

end

/-- A well-formed matrix word is the form its MOP, its DT and its CM say. -/
theorem mxInstr_of_encM {i : Instr} {op : BitVec 6} {m : MWord} (h : encM i = some (op, m)) (hi : wellFormed i = true) :
    mxInstr op.toNat m = some i := by
  unfold encM at h
  split at h
  any_goals contradiction
  all_goals
    obtain ⟨rfl, rfl⟩ := Prod.mk.inj (Option.some.inj h)
  any_goals rfl
  case h_6 m => exact congrArg some (if_neg (dt_of_wellFormed_mxread hi))
  case h_7 m => exact congrArg some (if_pos (dt_of_wellFormed_mxreadFlags hi))
  case h_8 m => exact congrArg some (if_neg (dt_of_wellFormed_mxwrite hi))
  case h_9 m => exact congrArg some (if_pos (dt_of_wellFormed_mxwriteFlags hi))
  all_goals
    rw [show mxInstr _ _ = some _ from rfl, beq_iff_eq.mp (modeOk_of_wellFormed hi)]
    rfl

theorem encM_of_mxInstr {i : Instr} {op : BitVec 6} {m : MWord} (h : mxInstr op.toNat m = some i) : encM i = some (op, m) := by
  unfold mxInstr at h
  split at h
  any_goals contradiction
  all_goals
    next hop =>
      obtain rfl := Option.some.inj h
      try split
      all_goals exact congrArg (fun o => some (o, m)) (BitVec.eq_of_toNat_eq hop.symm)

/-! ### From the parcels of a word to the word -/

theorem append_threeParcels (w : BitVec 96) : w.extractLsb' 64 32 ++ w.extractLsb' 32 32 ++ w.extractLsb' 0 32 = w := by
  symm
  conv_lhs => rw [← BitVec.extractLsb'_eq_self (x := w)]
  change w.extractLsb' 0 (32 + 32 + 32) = _
  simp only [field_eq_append_iff, and_self]

theorem append_sixParcels (w : BitVec 192) : w.extractLsb' 160 32 ++ w.extractLsb' 128 32 ++ w.extractLsb' 96 32 ++ w.extractLsb' 64 32
    ++ w.extractLsb' 32 32 ++ w.extractLsb' 0 32 = w := by
  symm
  conv_lhs => rw [← BitVec.extractLsb'_eq_self (x := w)]
  change w.extractLsb' 0 (32 + 32 + 32 + 32 + 32 + 32) = _
  simp only [field_eq_append_iff, and_self]

/-- Parcels put together are the parcels of what they make. -/
theorem threeParcels_append (p q r : BitVec 32) : Machine.ThreeParcels (p ++ q ++ r) = [p, q, r] := by
  have h := append_threeParcels (p ++ q ++ r)
  simp only [append_bits_eq_iff] at h
  obtain ⟨⟨hp, hq⟩, hr⟩ := h
  rw [Machine.ThreeParcels, hp, hq, hr]

theorem sixParcels_append (p q r p' q' r' : BitVec 32) : Machine.SixParcels (p ++ q ++ r ++ p' ++ q' ++ r') = [p, q, r, p', q', r'] := by
  have h := append_sixParcels (p ++ q ++ r ++ p' ++ q' ++ r')
  simp only [append_bits_eq_iff] at h
  obtain ⟨⟨⟨⟨⟨hp, hq⟩, hr⟩, hp'⟩, hq'⟩, hr'⟩ := h
  rw [Machine.SixParcels, hp, hq, hr, hp', hq', hr']

/-- The frame of a longer word is that of its first parcel. -/
theorem frame_append_three {p q r : BitVec 32} : (p ++ q ++ r).extractLsb' 94 2 = p.extractLsb' 30 2 := by
  have h := (List.cons.inj (threeParcels_append p q r)).1
  exact (field_of_field _ (by decide)).symm.trans (congrArg (BitVec.extractLsb' 30 2) h)

theorem frame_append_six {p q r p' q' r' : BitVec 32} : (p ++ q ++ r ++ p' ++ q' ++ r').extractLsb' 190 2 = p.extractLsb' 30 2 := by
  have h := (List.cons.inj (sixParcels_append p q r p' q' r')).1
  exact (field_of_field _ (by decide)).symm.trans (congrArg (BitVec.extractLsb' 30 2) h)

section
variable {p q r p' q' r' : BitVec 32}

theorem decodeParcels_one (h : p.extractLsb' 30 2 = 0) : decodeParcels [p] = decode1 p := by
  rw [decodeParcels, show ([p].getD 0 0).extractLsb' 30 2 = 0 from h]
  rfl

theorem decodeParcels_three (h : p.extractLsb' 30 2 = 1) : decodeParcels [p, q, r] = decode3 (p ++ q ++ r) := by
  rw [decodeParcels, show ([p, q, r].getD 0 0).extractLsb' 30 2 = 1 from h]
  rfl

theorem decodeParcels_six (h : p.extractLsb' 30 2 = 2) : decodeParcels [p, q, r, p', q', r'] = decode6 (p ++ q ++ r ++ p' ++ q' ++ r') := by
  rw [decodeParcels, show ([p, q, r, p', q', r'].getD 0 0).extractLsb' 30 2 = 2 from h]
  rfl

theorem decodeParcels_frame3 (h : p.extractLsb' 30 2 = 3) : decodeParcels [p] = .unassignedWord p 1 := by
  rw [decodeParcels, show ([p].getD 0 0).extractLsb' 30 2 = 3 from h]
  rfl

theorem parcelCount_frame0 (h : p.extractLsb' 30 2 = 0) : parcelCount p = 1 := by rw [parcelCount, h]; rfl
theorem parcelCount_frame1 (h : p.extractLsb' 30 2 = 1) : parcelCount p = 3 := by rw [parcelCount, h]; rfl
theorem parcelCount_frame2 (h : p.extractLsb' 30 2 = 2) : parcelCount p = 6 := by rw [parcelCount, h]; rfl
theorem parcelCount_frame3 (h : p.extractLsb' 30 2 = 3) : parcelCount p = 1 := by rw [parcelCount, h]; rfl

end

theorem decodeParcels_threeParcels {w : BitVec 96} (h : w.extractLsb' 94 2 = 1) : decodeParcels (Machine.ThreeParcels w) = decode3 w := by
  rw [Machine.ThreeParcels, decodeParcels_three ((field_of_field w (by decide)).trans h), append_threeParcels]

theorem decodeParcels_sixParcels {w : BitVec 192} (h : w.extractLsb' 190 2 = 2) : decodeParcels (Machine.SixParcels w) = decode6 w := by
  rw [Machine.SixParcels, decodeParcels_six ((field_of_field w (by decide)).trans h), append_sixParcels]

/-! ### What the encoder answers -/

theorem frame_of_enc1 {i : Instr} {w : BitVec 32} (h : enc1 i = some w) : w.extractLsb' 30 2 = 0 := by
  unfold enc1 at h
  split at h
  any_goals contradiction
  all_goals
    obtain rfl := Option.some.inj h
    exact (mk1_eq_iff.mp rfl).1

theorem encode_of_enc1 {i : Instr} {w : BitVec 32} (h : enc1 i = some w) : encode i = [w] := by
  rw [encode, h]

theorem enc1_of_encV {i : Instr} {p : BitVec 9 × VWord} (h : encV i = some p) : enc1 i = none := by
  unfold encV at h
  split at h
  any_goals contradiction
  all_goals rfl

theorem enc1_encV_of_encM {i : Instr} {p : BitVec 6 × MWord} (h : encM i = some p) : enc1 i = none ∧ encV i = none := by
  unfold encM at h
  split at h
  any_goals contradiction
  all_goals exact ⟨rfl, rfl⟩

theorem encode_of_encV {i : Instr} {op : BitVec 9} {v : VWord} (h : encV i = some (op, v)) : encode i = Machine.ThreeParcels (mk3 op v) := by
  rw [encode, enc1_of_encV h, h]
  rfl

theorem encode_of_encM {i : Instr} {op : BitVec 6} {m : MWord} (h : encM i = some (op, m)) : encode i = Machine.SixParcels (mk6 op m) := by
  obtain ⟨h1, hV⟩ := enc1_encV_of_encM h
  rw [encode, h1, hV, h]
  rfl

theorem decode3_mk3 {i : Instr} {op : BitVec 9} {v : VWord} (h : vecInstr op.toNat v = some i) : decode3 (mk3 op v) = i := by
  obtain ⟨-, hop, hz, hv⟩ := mk3_eq_iff.mp (rfl : mk3 op v = _)
  rw [decode3, hop, hv, h]
  exact if_pos hz

theorem decode6_mk6 {i : Instr} {op : BitVec 6} {m : MWord} (h : mxInstr op.toNat m = some i) : decode6 (mk6 op m) = i := by
  obtain ⟨-, hop, hz, hm⟩ := mk6_eq_iff.mp (rfl : mk6 op m = _)
  rw [decode6, hop, hm, h]
  exact if_pos hz

theorem not_wellFormed_unassigned (p : BitVec 32) (r : BitVec 3) : wellFormed (.unassignedWord p r) ≠ true :=
  fun h => Option.some_ne_none r (fieldReason_of_wellFormed h)

theorem encode_decode3 {w : BitVec 96} (hf : w.extractLsb' 94 2 = 1) (h : wellFormed (decode3 w) = true) :
    encode (decode3 w) = Machine.ThreeParcels w := by
  unfold decode3 at h ⊢
  split at h
  · next i hi =>
    split at h
    · next hz =>
      rw [if_pos hz, encode_of_encV (encV_of_vecInstr hi), mk3_eq_iff.mpr ⟨hf, rfl, hz, rfl⟩]
    · exact absurd h (not_wellFormed_unassigned _ _)
  · exact absurd h (not_wellFormed_unassigned _ _)

theorem encode_decode6 {w : BitVec 192} (hf : w.extractLsb' 190 2 = 2) (h : wellFormed (decode6 w) = true) :
    encode (decode6 w) = Machine.SixParcels w := by
  unfold decode6 at h ⊢
  split at h
  · next i hi =>
    split at h
    · next hz =>
      rw [if_pos hz, encode_of_encM (encM_of_mxInstr hi), mk6_eq_iff.mpr ⟨hf, rfl, hz, rfl⟩]
    · exact absurd h (not_wellFormed_unassigned _ _)
  · exact absurd h (not_wellFormed_unassigned _ _)

/-- R29 to R46: the parcels of a well-formed word decode to it, and are as many as the frame of the first says. -/
theorem decodeParcels_encode {i : Instr} (hi : wellFormed i = true) (he : encode i ≠ []) :
    decodeParcels (encode i) = i ∧ (encode i).length = parcelCount ((encode i).headD 0) := by
  cases h1 : enc1 i with
  | some w =>
    have hf := frame_of_enc1 h1
    rw [encode_of_enc1 h1]
    exact ⟨(decodeParcels_one hf).trans (decode1_of_enc1 h1), (parcelCount_frame0 hf).symm⟩
  | none =>
    cases hV : encV i with
    | some p =>
      obtain ⟨hf, -⟩ := mk3_eq_iff.mp (rfl : mk3 p.1 p.2 = _)
      rw [encode_of_encV hV]
      exact ⟨(decodeParcels_threeParcels hf).trans (decode3_mk3 (vecInstr_of_encV hV)),
        (parcelCount_frame1 ((field_of_field _ (by decide)).trans hf)).symm⟩
    | none =>
      cases hM : encM i with
      | some p =>
        obtain ⟨hf, -⟩ := mk6_eq_iff.mp (rfl : mk6 p.1 p.2 = _)
        rw [encode_of_encM hM]
        exact ⟨(decodeParcels_sixParcels hf).trans (decode6_mk6 (mxInstr_of_encM hM hi)),
          (parcelCount_frame2 ((field_of_field _ (by decide)).trans hf)).symm⟩
      | none => exact absurd (by rw [encode, h1, hV, hM]) he

theorem encode_decode1 {p : BitVec 32} (hf : p.extractLsb' 30 2 = 0) (h : wellFormed (decode1 p) = true) : encode (decode1 p) = [p] :=
  encode_of_enc1 ((encodes_decode1 hf).enc fun q r hq => not_wellFormed_unassigned q r (hq ▸ h))

/-- R29 to R46: parcels that decode to a well-formed word are its encoding, so no bit of them is dropped. -/
theorem encode_decodeParcels {ps : List (BitVec 32)} (hl : ps.length = parcelCount (ps.headD 0)) (h : wellFormed (decodeParcels ps) = true) :
    encode (decodeParcels ps) = ps := by
  rcases bitVec2_cases ((ps.headD 0).extractLsb' 30 2) with hf | hf | hf | hf
  · obtain ⟨p, rfl⟩ := List.length_eq_one_iff.mp (hl.trans (parcelCount_frame0 hf))
    change p.extractLsb' 30 2 = 0 at hf
    rw [decodeParcels_one hf] at h ⊢
    exact encode_decode1 hf h
  · obtain ⟨p, q, r, rfl⟩ := List.length_eq_three.mp (hl.trans (parcelCount_frame1 hf))
    change p.extractLsb' 30 2 = 1 at hf
    rw [decodeParcels_three hf] at h ⊢
    rw [encode_decode3 (frame_append_three.trans hf) h, threeParcels_append]
  · match ps, hl.trans (parcelCount_frame2 hf) with
    | [p, q, r, p', q', r'], _ =>
      change p.extractLsb' 30 2 = 2 at hf
      rw [decodeParcels_six hf] at h ⊢
      rw [encode_decode6 (frame_append_six.trans hf) h, sixParcels_append]
  · obtain ⟨p, rfl⟩ := List.length_eq_one_iff.mp (hl.trans (parcelCount_frame3 hf))
    change p.extractLsb' 30 2 = 3 at hf
    rw [decodeParcels_frame3 hf] at h
    exact absurd h (not_wellFormed_unassigned p 1)

end Sys2Proof
end

section
/-!
CERTIFICATE. Words and their encodings.
-/

/-- Settles O54: an encoding is read where it is written, frame by frame, in both directions. -/
theorem strandWordsAndParcelsAgreeByR29ToR46 : Obligations.StrandWordsAndParcelsAgreeByR29ToR46 :=
  ⟨fun _ hi he => Sys2Proof.decodeParcels_encode hi he, fun _ hl h => Sys2Proof.encode_decodeParcels hl h⟩

/-- Settles O55: the fields of R47 and R367 are read where they are written, in both directions. -/
theorem newtWordsAndEncodingsAgreeByR47 : Obligations.NewtWordsAndEncodingsAgreeByR47 :=
  ⟨fun _ _ _ h => Sys2Proof.decodeNewt_of_encN h, fun _ i h _ => Sys2Proof.encN_of_decodeNewt i h⟩

/-- Settles O56: each word evaluates to its instruction. -/
theorem wordsOfTheSpecDecode : Obligations.WordsOfTheSpecDecode := by
  unfold Obligations.WordsOfTheSpecDecode
  refine ⟨?_, ?_, ?_, ?_, ?_, ?_, ?_, ?_, ?_, ?_, ?_⟩ <;> decide

end

section
/-!
SUPPORT. The checks of R48 that end a word before its own rule, in their order.
-/

namespace Sys2Proof.Machine

section
variable {s : State} {c : Nat} {k : StrandIx} {i : Instr} {f : Info} {r : BitVec 3}

/-! ### The checks in their order -/

/-- The checks of R48 with a reason that comes before all of them. -/
def checksOfR48 (first : Option (BitVec 3)) (i : Instr) (f : Info) (s : State) (c : Nat) (k : StrandIx) : Option (BitVec 3) :=
  (first.or (if f.feat.any (fun e => e.2 == 2 && !s.feat (s.ctx c).vf e.1) then some 2 else none)).or
    (if !f.who.getLsbD (ixOf k) || (f.nh && decide ((s.ctx c).depth ≠ 0)) || (f.oh && !decide ((s.ctx c).depth ≠ 0)) ||
        (decide (k ≠ .s) && sysRestricted i) then some 3
    else if decide (k = .s) && f.t != 0 then some 4
    else (fieldReason i).or (((f.feat.find? (fun e => !s.feat (s.ctx c).vf e.1)).map Prod.snd).or ((f.early s c k).or (f.late s c k))))

/-- No word of the decoder's answer for what is none. -/
def Assigned (i : Instr) : Prop := ∀ p r, i ≠ .unassignedWord p r

theorem illegal_of_assigned (hi : Assigned i) : illegal i f s c k = checksOfR48 none i f s c k := by
  cases i with
  | unassignedWord p r => exact absurd rfl (hi p r)
  | _ => rfl

theorem illegal_unassignedWord {p : BitVec 32} : illegal (.unassignedWord p r) f s c k =
    checksOfR48 (if r.toNat ≤ 2 then some r else none) (.unassignedWord p r) (opcodeInfo p f) s c k := rfl

/-- A feature whose absence is reason 2 is not active. -/
def FeatureOff (f : Info) (s : State) (c : Nat) : Prop := ∃ e ∈ f.feat, e.2 = 2 ∧ s.feat (s.ctx c).vf e.1 = false

/-- The word is kept from this strand, from a handler, from outside one, or from its system register: reason 3. -/
def Barred (i : Instr) (f : Info) (s : State) (c : Nat) (k : StrandIx) : Prop :=
  f.who.getLsbD (ixOf k) = false ∨ (f.nh = true ∧ (s.ctx c).depth ≠ 0) ∨ (f.oh = true ∧ (s.ctx c).depth = 0) ∨
    (k ≠ .s ∧ sysRestricted i = true)

theorem featureOff_iff : f.feat.any (fun e => e.2 == 2 && !s.feat (s.ctx c).vf e.1) = true ↔ FeatureOff f s c := by
  simp only [List.any_eq_true, Bool.and_eq_true, beq_iff_eq, Bool.not_eq_true', FeatureOff]

theorem barred_iff : (!f.who.getLsbD (ixOf k) || (f.nh && decide ((s.ctx c).depth ≠ 0)) || (f.oh && !decide ((s.ctx c).depth ≠ 0)) ||
    (decide (k ≠ .s) && sysRestricted i)) = true ↔ Barred i f s c k := by
  simp only [Bool.or_eq_true, Bool.and_eq_true, Bool.not_eq_true', decide_eq_true_eq, decide_eq_false_iff_not, not_not, Barred, or_assoc]

theorem checksOfR48_some : checksOfR48 (some r) i f s c k = some r := rfl

theorem checksOfR48_of_featureOff (h : FeatureOff f s c) : checksOfR48 none i f s c k = some 2 := by
  rw [checksOfR48, if_pos (featureOff_iff.mpr h)]; rfl

theorem checksOfR48_of_barred (h : ¬ FeatureOff f s c) (hk : Barred i f s c k) : checksOfR48 none i f s c k = some 3 := by
  rw [checksOfR48, if_neg (mt featureOff_iff.mp h), if_pos (barred_iff.mpr hk)]; rfl

/-- A token field of S, R32. -/
theorem checksOfR48_of_token (h : ¬ FeatureOff f s c) (hk : ¬ Barred i f s c k) (hs : k = .s) (ht : f.t ≠ 0) :
    checksOfR48 none i f s c k = some 4 := by
  rw [checksOfR48, if_neg (mt featureOff_iff.mp h), if_neg (mt barred_iff.mp hk),
    if_pos (Bool.and_eq_true_iff.mpr ⟨decide_eq_true hs, bne_iff_ne.mpr ht⟩)]; rfl

theorem checksOfR48_of_untokened (h : ¬ FeatureOff f s c) (hk : ¬ Barred i f s c k) (ht : k ≠ .s ∨ f.t = 0) : checksOfR48 none i f s c k =
    (fieldReason i).or (((f.feat.find? (fun e => !s.feat (s.ctx c).vf e.1)).map Prod.snd).or ((f.early s c k).or (f.late s c k))) := by
  have hn : ¬ (decide (k = .s) && f.t != 0) = true := by
    rcases ht with h | h <;> simp [h]
  rw [checksOfR48, if_neg (mt featureOff_iff.mp h), if_neg (mt barred_iff.mp hk), if_neg hn]; rfl

/-! ### A word that fails a check -/

/-- The checks as the head of a strand makes them: those of `late` wait while a register of `lreg` is marked. -/
def Info.seenBy (f : Info) (x : Core) (k : StrandIx) : Info := if f.lreg.any (x.marked k) then { f with late := fun _ _ _ => none } else f

theorem illegalTval_eq : IllegalTval i r.toNat k = illegalVal i r k := by
  rw [IllegalTval, illegalVal, Nat.mul_comm (2 ^ 32), Nat.mul_comm (2 ^ 40)]

theorem raises_of_illegal {rest : List Turn} {body : Nat → StrandIx → State → Act} (ha : s.agenda = .issue c k :: rest)
    (he : exec i s = issue i f body s) (h : illegal i (f.seenBy (s.core c) k) s c k = some r) : Raises i s c k 0x01 (IllegalTval i r.toNat k) := by
  have hx : attempt i f body c k s = raiseWord s c k 0x01 (illegalVal i r k) := by
    unfold attempt
    dsimp only
    rw [show illegal i (if f.lreg.any ((s.core c).marked k) then { f with late := fun _ _ _ => none } else f) s c k = some r from h]
  rw [Raises, he, illegalTval_eq, issue, ha]
  dsimp only
  rw [hx]
  rfl

theorem seenBy_eq (f : Info) (x : Core) (k : StrandIx) : f.seenBy x k = f ∨ f.seenBy x k = { f with late := fun _ _ _ => none } := by
  unfold Info.seenBy
  split
  · exact .inr rfl
  · exact .inl rfl

/-- What R48 tests before the fields of a word reads nothing of the check that waits. -/
theorem featureOff_seenBy {x : Core} : FeatureOff (f.seenBy x k) s c ↔ FeatureOff f s c := by
  rcases seenBy_eq f x k with h | h
  · rw [h]
  · rw [h]; rfl
theorem barred_seenBy {x : Core} : Barred i (f.seenBy x k) s c k ↔ Barred i f s c k := by
  rcases seenBy_eq f x k with h | h
  · rw [h]
  · rw [h]; rfl

/-- A word of a feature that is not active: reason 2. -/
theorem raises_of_featureOff {rest : List Turn} {body : Nat → StrandIx → State → Act} (ha : s.agenda = .issue c k :: rest)
    (he : exec i s = issue i f body s) (hi : Assigned i) (hf : FeatureOff f s c) : Raises i s c k 0x01 (IllegalTval i 2 k) :=
  raises_of_illegal (r := 2) ha he ((illegal_of_assigned hi).trans (checksOfR48_of_featureOff (featureOff_seenBy.mpr hf)))

/-- A word that is kept from its strand: reason 3. -/
theorem raises_of_barred {rest : List Turn} {body : Nat → StrandIx → State → Act} (ha : s.agenda = .issue c k :: rest)
    (he : exec i s = issue i f body s) (hi : Assigned i) (hf : ¬ FeatureOff f s c) (hb : Barred i f s c k) :
    Raises i s c k 0x01 (IllegalTval i 3 k) :=
  raises_of_illegal (r := 3) ha he
    ((illegal_of_assigned hi).trans (checksOfR48_of_barred (mt featureOff_seenBy.mp hf) (barred_seenBy.mpr hb)))

theorem not_featureOff_of_nil (h : f.feat = []) : ¬ FeatureOff f s c := by rintro ⟨e, he, -⟩; simp [h] at he

end

/-! ### What each word says of itself to the checks -/

/-- `i` issues with an information that `P` holds of, and is no word that decodes to none. -/
def IssuesWith (i : Instr) (P : Info → Prop) : Prop := Assigned i ∧ ∃ f body, P f ∧ ∀ s, exec i s = issue i f body s

theorem issuesWith_of_sWord {i : Instr} (h : SWord i) : IssuesWith i (fun f => f.who = 1 ∧ f.feat = []) := by
  rcases h with ⟨_, _, rfl⟩ | ⟨_, _, rfl⟩ | ⟨_, _, _, rfl⟩ | ⟨_, _, rfl⟩ | ⟨_, _, rfl⟩ | ⟨_, rfl⟩ | ⟨_, _, _, _, rfl⟩ | ⟨_, _, rfl⟩ |
    ⟨_, _, rfl⟩ | ⟨_, _, _, rfl⟩ | ⟨_, rfl⟩ | ⟨_, _, rfl⟩ | ⟨_, rfl⟩ | ⟨_, _, _, rfl⟩ | ⟨_, _, _, rfl⟩ | ⟨_, _, _, rfl⟩ <;>
    exact ⟨fun _ _ => Instr.noConfusion, _, _, ⟨rfl, rfl⟩, fun _ => rfl⟩

theorem issuesWith_of_notInHandler {i : Instr} (h : NotInHandler i) : IssuesWith i (fun f => f.nh = true ∧ f.feat = []) := by
  rcases h with ⟨_, _, rfl⟩ | ⟨_, _, rfl⟩ | ⟨_, _, _, rfl⟩ | ⟨_, _, _, _, rfl⟩ | ⟨_, _, rfl⟩ | ⟨_, _, rfl⟩ | ⟨_, _, _, rfl⟩ | ⟨_, rfl⟩ |
    ⟨_, _, rfl⟩ <;>
    exact ⟨fun _ _ => Instr.noConfusion, _, _, ⟨rfl, rfl⟩, fun _ => rfl⟩

theorem issuesWith_of_featureWord {i : Instr} {n : Nat} (h : FeatureWord i n) : IssuesWith i (fun f => f.who = 1 ∧ f.feat = [(n, 2)]) := by
  rcases h with ⟨rfl, ⟨_, _, _, _, rfl⟩ | ⟨_, _, rfl⟩ | ⟨_, rfl⟩ | ⟨_, _, rfl⟩ | ⟨_, _, rfl⟩ | ⟨_, _, _, rfl⟩⟩ |
    ⟨rfl, ⟨_, _, _, rfl⟩ | ⟨_, _, rfl⟩⟩ <;>
    exact ⟨fun _ _ => Instr.noConfusion, _, _, ⟨rfl, rfl⟩, fun _ => rfl⟩

theorem who_one_of_ne_s {k : StrandIx} (h : k ≠ .s) : (1 : BitVec 4).getLsbD (ixOf k) = false := by
  cases k with
  | s => exact absurd rfl h
  | l | c | w => decide

theorem sOnlyReg_eq_true {r : BitVec 8} : sOnlyReg r = true ↔ 7 < r.toNat ∧ sysAssigned r = true := by
  simp only [sOnlyReg, sysAll, Bool.and_eq_true, Bool.not_eq_true', decide_eq_false_iff_not, not_le]
  exact and_comm

section
variable {s : State} {c : Nat} {k : StrandIx} {rest : List Turn} {i : Instr} (ha : s.agenda = .issue c k :: rest)
include ha

theorem raises_of_sWord (h : SWord i) (hk : k ≠ .s) : Raises i s c k 0x01 (IllegalTval i 3 k) := by
  obtain ⟨hi, f, body, ⟨hw, hf⟩, he⟩ := issuesWith_of_sWord h
  exact raises_of_barred ha (he s) hi (not_featureOff_of_nil hf) (.inl (hw ▸ who_one_of_ne_s hk))

theorem raises_of_notInHandler (h : NotInHandler i) (hd : (s.ctx c).depth ≠ 0) : Raises i s c k 0x01 (IllegalTval i 3 k) := by
  obtain ⟨hi, f, body, ⟨hn, hf⟩, he⟩ := issuesWith_of_notInHandler h
  exact raises_of_barred ha (he s) hi (not_featureOff_of_nil hf) (.inr (.inl ⟨hn, hd⟩))

theorem raises_tret {y : Bool} (hd : (s.ctx c).depth = 0) : Raises (.tret y) s c k 0x01 (IllegalTval (.tret y) 3 k) :=
  raises_of_barred (f := { y := y, who := 1, oh := true }) ha rfl (fun _ _ => Instr.noConfusion) (not_featureOff_of_nil rfl)
    (.inr (.inr (.inl ⟨rfl, hd⟩)))

theorem raises_sysget {n : Ann} {d : Reg} {r : BitVec 8} (hk : k ≠ .s) (h7 : 7 < r.toNat) (hr : sysAssigned r = true) :
    Raises (.sysget n d r) s c k 0x01 (IllegalTval (.sysget n d r) 3 k) :=
  raises_of_barred (f := { y := n.y, t := n.t, dst := [d], recs := true }) ha rfl (fun _ _ => Instr.noConfusion) (not_featureOff_of_nil rfl)
    (.inr (.inr (.inr ⟨hk, sOnlyReg_eq_true.mpr ⟨h7, hr⟩⟩)))

theorem raises_sysset {n : Ann} {a : Reg} {r : BitVec 8} (hk : k ≠ .s) (h7 : 7 < r.toNat) (hr : sysAssigned r = true) :
    Raises (.sysset n a r) s c k 0x01 (IllegalTval (.sysset n a r) 3 k) :=
  raises_of_barred (f := { y := n.y, t := n.t, reads := [a], lreg := [a], late := sysLate a r }) ha rfl (fun _ _ => Instr.noConfusion)
    (not_featureOff_of_nil rfl) (.inr (.inr (.inr ⟨hk, sOnlyReg_eq_true.mpr ⟨h7, hr⟩⟩)))

theorem raises_of_featureWord {n : Nat} (h : FeatureWord i n) :
    (s.feat (s.ctx c).vf n = false → Raises i s c k 0x01 (IllegalTval i 2 k)) ∧
      (s.feat (s.ctx c).vf n = true → k ≠ .s → Raises i s c k 0x01 (IllegalTval i 3 k)) := by
  obtain ⟨hi, f, body, ⟨hw, hf⟩, he⟩ := issuesWith_of_featureWord h
  have hoff : FeatureOff f s c ↔ s.feat (s.ctx c).vf n = false := by simp [FeatureOff, hf]
  exact ⟨fun h0 => raises_of_featureOff ha (he s) hi (hoff.mpr h0),
    fun h1 hk => raises_of_barred ha (he s) hi (by rw [hoff, h1]; exact Bool.true_eq_false_eq_False) (.inl (hw ▸ who_one_of_ne_s hk))⟩

end

/-! ### Words that decode to none -/

section
variable {s : State} {c : Nat} {k : StrandIx} {rest : List Turn} {p : BitVec 32} {r : BitVec 3}

/-- The information of a word that decodes to none. -/
def unassignedInfo (p : BitVec 32) : Info := { y := (annOf p).y, t := (annOf p).t }

theorem mem_opcodeInfo_feat {f : Info} {e : Nat × BitVec 3} : e ∈ (opcodeInfo p f).feat ↔ OpcodeFeature (majorOf p) e.1 ∧ e.2 = 2 := by
  obtain ⟨n, z⟩ := e
  simp only [opcodeInfo, OpcodeFeature, Bool.and_eq_true, Bool.or_eq_true, beq_iff_eq, decide_eq_true_eq]
  split
  · grind
  · split <;> grind

theorem featureOff_opcodeInfo {f : Info} : FeatureOff (opcodeInfo p f) s c ↔
    ∃ n, OpcodeFeature (majorOf p) n ∧ s.feat (s.ctx c).vf n = false := by
  simp only [FeatureOff, mem_opcodeInfo_feat]
  exact ⟨fun ⟨e, ⟨ho, _⟩, _, hs⟩ => ⟨e.1, ho, hs⟩, fun ⟨n, ho, hs⟩ => ⟨(n, 2), ⟨ho, rfl⟩, rfl, hs⟩⟩

theorem barred_opcodeInfo : Barred (.unassignedWord p r) (opcodeInfo p (unassignedInfo p)) s c k ↔ OpcodeKept p k (s.ctx c).depth := by
  simp only [Barred, OpcodeKept, opcodeInfo, sysRestricted, sOnlyReg_eq_true, Bool.or_eq_true, Bool.and_eq_true, beq_iff_eq, decide_eq_true_eq]
  rw [and_comm (b := (s.ctx c).depth ≠ 0), and_comm (b := (s.ctx c).depth = 0), or_assoc]

/-- The reasons of a word that decodes to none: those of R48 that the decoder finds first, then what its opcode says, then its own. -/
theorem raises_unassignedWord (ha : s.agenda = .issue c k :: rest) (i : Instr) (hi : i = .unassignedWord p r) :
    (r.toNat ≤ 2 → Raises i s c k 0x01 (IllegalTval i r.toNat k)) ∧
    (2 < r.toNat →
      let off := ∃ f, OpcodeFeature (majorOf p) f ∧ s.feat (s.ctx c).vf f = false
      let kept := OpcodeKept p k (s.ctx c).depth
      (off → Raises i s c k 0x01 (IllegalTval i 2 k)) ∧
      (¬ off → kept → Raises i s c k 0x01 (IllegalTval i 3 k)) ∧
      (¬ off → ¬ kept → k = .s → (annOf p).t ≠ 0 → Raises i s c k 0x01 (IllegalTval i 4 k)) ∧
      (¬ off → ¬ kept → (k ≠ .s ∨ (annOf p).t = 0) → Raises i s c k 0x01 (IllegalTval i r.toNat k))) := by
  subst hi
  have raises {x : BitVec 3} (h : checksOfR48 (if r.toNat ≤ 2 then some r else none) (.unassignedWord p r) (opcodeInfo p (unassignedInfo p)) s c k
      = some x) : Raises (.unassignedWord p r) s c k 0x01 (IllegalTval (.unassignedWord p r) x.toNat k) :=
    raises_of_illegal (f := unassignedInfo p) ha rfl (illegal_unassignedWord.trans h)
  refine ⟨fun hr => raises (by rw [if_pos hr, checksOfR48_some]), fun hr => ?_⟩
  rw [if_neg (Nat.not_le.mpr hr)] at raises
  dsimp only
  rw [← featureOff_opcodeInfo (f := unassignedInfo p), ← barred_opcodeInfo (r := r)]
  refine ⟨fun ho => raises (x := 2) (checksOfR48_of_featureOff ho), fun ho hk => raises (x := 3) (checksOfR48_of_barred ho hk),
    fun ho hk hs ht => raises (x := 4) (checksOfR48_of_token ho hk hs ht), fun ho hk ht => raises ?_⟩
  rw [checksOfR48_of_untokened ho hk ht]
  rfl

end
end Sys2Proof.Machine
end

section

open Sys2Proof Sys2Proof.Machine

/-- Settles O26: each word's information read by the checks of R48 in their order. -/
theorem illegalWordsRaiseTheirReason : Obligations.IllegalWordsRaiseTheirReason := by
  unfold Obligations.IllegalWordsRaiseTheirReason
  intro s c k rest i ha
  refine ⟨raises_of_sWord ha, raises_of_notInHandler ha, ?_, ?_, ?_, fun f => raises_of_featureWord ha, fun p r => raises_unassignedWord ha i⟩
  · rintro y rfl; exact raises_tret ha
  · rintro n d r rfl; exact raises_sysget ha
  · rintro n a r rfl; exact raises_sysset ha

end

section
/-!
SUPPORT. Barriers of a task's window (spec/13 R261 to R269) and the words of S on them.
-/

namespace Sys2Proof.Machine

/-! ### An arrival -/

section
variable {s t : State} {c : Nat} {b : BitVec 5}

/-- The arrival in its barrier, without the event that the last of a generation posts. -/
def State.enterArrival (s : State) (c : Nat) (b : BitVec 5) (n : Nat) : State :=
  s.mapCluster (clusterOf c) (fun z => { z with bar := Tab.set {} z.bar (s.barIx c b) ((s.barrier c b).arrive s.clock (s.ctx c).task n) })

theorem Looked.arriveAt (s : State) (c : Nat) (b : BitVec 5) (n : Nat) : Looked (s.enterArrival c b n) (s.arriveAt c b n) := by
  rw [State.arriveAt]
  by_cases h : (s.barrier c b).arr.length + 1 = (if (s.barrier c b).arr.isEmpty then n else (s.barrier c b).need)
  · rw [if_pos h]; exact .post ..
  · rw [if_neg h]; exact .refl _

theorem State.cluster_arriveAt (s : State) (c : Nat) (b : BitVec 5) (n m : Nat) :
    (s.arriveAt c b n).cluster m = (s.enterArrival c b n).cluster m := by
  rw [State.cluster, (Looked.arriveAt s c b n).rest]; rfl

theorem State.core_arriveAt (s : State) (c : Nat) (b : BitVec 5) (n e : Nat) : (s.arriveAt c b n).core e = s.core e :=
  (Looked.arriveAt s c b n).core e

theorem State.cluster_arriveAt_self (s : State) (c : Nat) (b : BitVec 5) (n : Nat) : (s.arriveAt c b n).cluster (clusterOf c) =
    { s.cluster (clusterOf c) with
      bar := Tab.set {} (s.cluster (clusterOf c)).bar (s.barIx c b) ((s.barrier c b).arrive s.clock (s.ctx c).task n) } := by
  rw [s.cluster_arriveAt]; exact Tab.get_set_self _ _ _ _

theorem State.cluster_arriveAt_ne (s : State) {c m : Nat} (b : BitVec 5) (n : Nat) (h : m ≠ clusterOf c) :
    (s.arriveAt c b n).cluster m = s.cluster m := by
  rw [s.cluster_arriveAt]; exact Tab.get_set_ne _ _ _ h

/-- A core with the same launch finds its barriers at the same numbers of the cluster. -/
theorem State.barIx_congr (hw : (t.cluster (clusterOf c)).wins = (s.cluster (clusterOf c)).wins) (hl : (t.ctx c).launch = (s.ctx c).launch) :
    t.barIx c b = s.barIx c b := by
  rw [State.barIx, State.barIx, State.window, State.window, hw, hl]

theorem seen_eq (x : Barrier) (clock : Nat) : x.seen clock = SeenGen x clock := rfl

theorem arrive_eq (x : Barrier) (clock task need : Nat) : x.arrive clock task need = Arrived x clock task need := by
  simp only [Barrier.arrive, Arrived, List.isEmpty_iff, seen_eq]

theorem barEarly_eq_some_iff {k : StrandIx} : barEarly b s c k = some 6 ↔ BarrierCount s c ≤ b.toNat := by
  simp [barEarly, State.barBad, BarrierCount]

theorem barEarly_eq_none (k : StrandIx) (h : b.toNat < BarrierCount s c) : barEarly b s c k = none := by
  rw [barEarly, if_neg (by simpa [State.barBad, BarrierCount] using h)]

theorem barLate_eq_some {a : Reg} {k : StrandIx} (h : (s.rd c k a).toNat = 0 ∨ 255 < (s.rd c k a).toNat) : barLate a s c k = some 7 :=
  if_pos (by simpa using h)

theorem barLate_eq_none {a : Reg} {k : StrandIx} (h0 : (s.rd c k a).toNat ≠ 0) (h : (s.rd c k a).toNat ≤ 255) : barLate a s c k = none :=
  if_neg (by simpa using ⟨h0, h⟩)

end

/-- GenReached, R269: the generations passed since `e`, modulo 2^32, are fewer than half of all. -/
theorem genReached_iff (g e : BitVec 32) : genReached g e = true ↔ (g.toInt - e.toInt) % 2 ^ 32 < 2 ^ 31 := by
  have h : ((g - e).toNat : Int) = (g.toInt - e.toInt) % 2 ^ 32 := by
    have hg := g.isLt
    have he := e.isLt
    rw [BitVec.toNat_sub, BitVec.toInt_eq_toNat_cond, BitVec.toInt_eq_toNat_cond]
    split <;> split <;> omega
  rw [genReached, decide_eq_true_eq, ← h]
  omega

/-! ### What the barrier words say of themselves -/

/-- A barrier word: of S alone, with the check of the barrier's number and its own check on a value; `il` where its result is interlocked. -/
def barInfo (y : Bool) (rs ds l : List Reg) (il : Bool) (b : BitVec 5) (late : State → Nat → StrandIx → Option (BitVec 3)) : Info :=
  { y := y, who := 1, reads := rs, dst := ds, lreg := l, il := il, recs := il, early := barEarly b, late := late }

section
variable {s : State} {c : Nat} {y il : Bool} {i : Instr} {rs ds l : List Reg} {b : BitVec 5} {late : State → Nat → StrandIx → Option (BitVec 3)}
  {body : Nat → StrandIx → State → Act}

theorem fits_barInfo (hi : Assigned i) (hb : b.toNat < BarrierCount s c) (hl : late s c .s = none)
    (hil : il = true → (∀ r ∈ ds, (s.core c).flying .s r = false) ∧ (s.core c).records < 64) :
    Fits (barInfo y rs ds l il b late) s c .s i ⟨y, 0⟩ [.s] rs ds where
  assigned := hi
  y := rfl
  t := rfl
  who _ := by show (1 : BitVec 4).getLsbD 0 = true; decide
  sys h := absurd rfl h
  reads := rfl
  dst := rfl
  il h := (hil h).1
  gm h := Bool.noConfusion h
  recs h := (hil h).2
  room := .inl ⟨rfl, rfl⟩
  nh h := Bool.noConfusion h
  oh h := Bool.noConfusion h
  feat e he := by cases he
  late := hl
  early := barEarly_eq_none .s hb

/-- A barrier word of S in form meets no check of R48 before those of its number and its value. -/
theorem illegal_barInfo (h : Ready s c .s i ⟨y, 0⟩ [.s] rs ds) (hi : Assigned i) :
    illegal i (barInfo y rs ds l il b late) s c .s = (barEarly b s c .s).or (late s c .s) := by
  have hb : ¬ Barred i (barInfo y rs ds l il b late) s c .s := by
    rintro (hw | ⟨hn, -⟩ | ⟨ho, -⟩ | ⟨hk, -⟩)
    · exact absurd hw (by show ¬ (1 : BitVec 4).getLsbD 0 = false; decide)
    · exact Bool.noConfusion hn
    · exact Bool.noConfusion ho
    · exact hk rfl
  rw [illegal_of_assigned hi, checksOfR48_of_untokened (not_featureOff_of_nil rfl) hb (.inr rfl), h.formed]
  rfl

theorem raises_of_barEarly (h : Ready s c .s i ⟨y, 0⟩ [.s] rs ds) (hi : Assigned i) (he : exec i s = issue i (barInfo y rs ds l il b late) body s)
    (hb : BarrierCount s c ≤ b.toNat) : Raises i s c .s 0x01 (IllegalTval i 6 .s) := by
  obtain ⟨rest, ha⟩ := h.turn
  refine raises_of_illegal (r := 6) ha he ?_
  rcases seenBy_eq (barInfo y rs ds l il b late) (s.core c) .s with e | e <;> rw [e]
  · rw [illegal_barInfo h hi, barEarly_eq_some_iff.mpr hb]; rfl
  · exact (illegal_barInfo (late := fun _ _ _ => none) h hi).trans (by rw [barEarly_eq_some_iff.mpr hb]; rfl)

theorem raises_of_barLate (h : Ready s c .s i ⟨y, 0⟩ [.s] rs ds) (hi : Assigned i) (he : exec i s = issue i (barInfo y rs ds rs il b late) body s)
    (hb : b.toNat < BarrierCount s c) (hl : late s c .s = some 7) : Raises i s c .s 0x01 (IllegalTval i 7 .s) := by
  obtain ⟨rest, ha⟩ := h.turn
  have hm : rs.any ((s.core c).marked .s) = false :=
    List.any_eq_false.mpr fun r hr => Bool.eq_false_iff.mp (h.unmarked r (List.mem_append_left ds hr))
  refine raises_of_illegal (r := 7) ha he ?_
  have hs : (barInfo y rs ds rs il b late).seenBy (s.core c) .s = barInfo y rs ds rs il b late := if_neg (Bool.eq_false_iff.mp hm)
  rw [hs, illegal_barInfo h hi, barEarly_eq_none .s hb, hl]
  rfl

end

/-! ### The words -/

section
variable {s : State} {c : Nat} {y : Bool} {b : BitVec 5}

def barrBody (a : Reg) (b : BitVec 5) (c : Nat) (k : StrandIx) (s : State) : Act :=
  if !s.released c k 1 then .wait s else .go (s.arriveAt c b (s.rd c k a).toNat) .fall

def bwaitBody (a : Reg) (b : BitVec 5) (c : Nat) (k : StrandIx) (s : State) : Act :=
  if genReached ((s.barrier c b).seen s.clock) ((s.rd c k a).extractLsb' 0 32) then .go s .fall else .wait s

def btestBody (y : Bool) (d : Reg) (b : BitVec 5) (c : Nat) (k : StrandIx) (s : State) : Act :=
  .go (s.ilock c k (.btest y d b) d false none (b.setWidth 64) 0 0) .fall

theorem exec_barr (a : Reg) : exec (.barr y a b) s = issue (.barr y a b) (barInfo y [a] [] [a] false b (barLate a)) (barrBody a b) s := rfl
theorem exec_bwait (a : Reg) : exec (.bwait y a b) s =
    issue (.bwait y a b) (barInfo y [a] [] [] false b (fun _ _ _ => none)) (bwaitBody a b) s := rfl
theorem exec_btest (d : Reg) : exec (.btest y d b) s =
    issue (.btest y d b) (barInfo y [] [d] [] true b (fun _ _ _ => none)) (btestBody y d b) s := rfl

theorem barr_waits {a : Reg} (h : Ready s c .s (.barr y a b) ⟨y, 0⟩ [.s] [a] []) (hb : b.toNat < BarrierCount s c)
    (hl : barLate a s c .s = none) (hr : s.released c .s 1 = false) : Waits (.barr y a b) s c := by
  have hf := fits_barInfo (y := y) (rs := [a]) (ds := []) (l := [a]) (i := .barr y a b) (il := false) (fun _ _ => Instr.noConfusion) hb hl
    Bool.noConfusion
  rw [Waits, exec_barr, h.meets hf, barrBody, hr]
  rfl

theorem barr_arrives {a : Reg} (h : Ready s c .s (.barr y a b) ⟨y, 0⟩ [.s] [a] []) (hb : b.toNat < BarrierCount s c)
    (hl : barLate a s c .s = none) (hr : s.released c .s 1 = true) : ∃ t, Passes (.barr y a b) ⟨y, 0⟩ s t c .s [] ∧
      t.barrier c b = Arrived (s.barrier c b) s.clock (s.ctx c).task (s.rd c .s a).toNat ∧ t.mem = s.mem ∧
      ∀ m e, (m ≠ clusterOf c ∨ e ≠ s.barIx c b) → Tab.get {} (t.cluster m).bar e = Tab.get {} (s.cluster m).bar e := by
  have hf := fits_barInfo (y := y) (rs := [a]) (ds := []) (l := [a]) (i := .barr y a b) (il := false) (fun _ _ => Instr.noConfusion) hb hl
    Bool.noConfusion
  have hgo : barrBody a b c .s s = .go (s.arriveAt c b (s.rd c .s a).toNat) .fall := by rw [barrBody, hr]; rfl
  have hcore := s.core_arriveAt c b (s.rd c .s a).toNat
  have hself := s.cluster_arriveAt_self c b (s.rd c .s a).toNat
  have hne := fun m => s.cluster_arriveAt_ne (c := c) (m := m) b (s.rd c .s a).toNat
  have hmem : _ = s.mem := (Looked.arriveAt s c b (s.rd c .s a).toNat).mem
  generalize s.arriveAt c b (s.rd c .s a).toNat = u at *
  have hstr : ∀ j, u.str c j = s.str c j := fun j => by rw [State.str, hcore]; rfl
  obtain ⟨t, h1, h2, h3, -⟩ := h.falls hf hgo (exec_barr a) ⟨by rw [hstr], by rw [hcore]⟩
  have hcl : ∀ m, t.cluster m = u.cluster m := fun m => by rw [State.cluster, h2.pkg.clusters]; rfl
  have hix : t.barIx c b = s.barIx c b :=
    State.barIx_congr (by rw [hcl, hself]) (h2.special.launch.trans (by rw [State.ctx, hcore]; rfl))
  refine ⟨t, ⟨h1, ?_, ?_, ?_, ?_, ?_⟩, ?_, h3.trans hmem, ?_⟩
  · have := h2.issued; rwa [hcore] at this
  · have := h2.falls; rwa [hstr] at this
  · intro r _; rw [h2.rd, State.rd, hstr, State.rd]
  · intro j hj; rw [h2.strands j hj, hstr]
  · intro e he; rw [h2.cores e he, hcore]
  · rw [State.barrier, hix, hcl, hself]
    exact (Tab.get_set_self _ _ _ _).trans (arrive_eq _ _ _ _)
  · intro m e hme
    rw [hcl]
    by_cases hm : m = clusterOf c
    · subst hm
      rw [hself]
      exact Tab.get_set_ne _ _ _ (hme.resolve_left (· rfl))
    · rw [hne m hm]

theorem bwait_passes {a : Reg} (h : Ready s c .s (.bwait y a b) ⟨y, 0⟩ [.s] [a] []) (hb : b.toNat < BarrierCount s c) :
    (genReached (SeenGen (s.barrier c b) s.clock) ((s.rd c .s a).extractLsb' 0 32) = true →
      LeavesCore (.bwait y a b) ⟨y, 0⟩ s c .s (s.core c) (s.ctx c)) ∧
    (genReached (SeenGen (s.barrier c b) s.clock) ((s.rd c .s a).extractLsb' 0 32) = false → Waits (.bwait y a b) s c) := by
  have hf := fits_barInfo (y := y) (rs := [a]) (ds := []) (l := []) (i := .bwait y a b) (il := false) (late := fun _ _ _ => none)
    (fun _ _ => Instr.noConfusion) hb rfl Bool.noConfusion
  refine ⟨fun hg => ?_, fun hg => ?_⟩
  · exact h.leavesCore hf (if_pos hg) (exec_bwait a) (fun _ => rfl) rfl rfl (.refl _) (.refl _) (fun _ _ => rfl) (fun _ => rfl) (.refl s)
  · rw [Waits, exec_bwait, h.meets hf, bwaitBody, seen_eq, hg]
    rfl

theorem btest_startsOp {d : Reg} (h : Ready s c .s (.btest y d b) ⟨y, 0⟩ [.s] [] [d]) (hb : b.toNat < BarrierCount s c)
    (hd : (s.core c).flying .s d = false) (hr : (s.core c).records < 64) :
    StartsOp (.btest y d b) ⟨y, 0⟩ s c .s (InterlockedOp s c .s (.btest y d b) d false none (b.setWidth 64) 0 0 0) := by
  have hf := fits_barInfo (y := y) (rs := []) (ds := [d]) (l := []) (i := .btest y d b) (il := true) (late := fun _ _ _ => none)
    (fun _ _ => Instr.noConfusion) hb rfl (fun _ => ⟨fun r hr => by rw [List.mem_singleton.mp hr]; exact hd, hr⟩)
  exact h.startsHeld hf rfl (exec_btest d) rfl

end
end Sys2Proof.Machine
end

section

open Sys2Proof Sys2Proof.Machine

/-- Settles O22: the checks of number and count by `illegal_barInfo`, each word's own rule through what it leaves. -/
theorem barrierWordsFollowR265ToR269 : Obligations.BarrierWordsFollowR265ToR269 := by
  unfold Obligations.BarrierWordsFollowR265ToR269
  intro s c y b
  refine ⟨fun a h => ⟨?_, ?_, fun hb h0 h1 => ⟨?_, ?_⟩⟩, fun hb => ⟨fun a h => ?_, fun d h => ?_⟩,
    fun a h hb => ⟨fun hp => ?_, fun hp => ?_⟩, fun d h hb hd hr => ?_⟩
  · exact raises_of_barEarly h (fun _ _ => Instr.noConfusion) (exec_barr a)
  · exact fun hb hn => raises_of_barLate h (fun _ _ => Instr.noConfusion) (exec_barr a) hb (barLate_eq_some hn)
  · exact barr_waits h hb (barLate_eq_none h0 h1)
  · exact barr_arrives h hb (barLate_eq_none h0 h1)
  · exact raises_of_barEarly h (fun _ _ => Instr.noConfusion) (exec_bwait a) hb
  · exact raises_of_barEarly h (fun _ _ => Instr.noConfusion) (exec_btest d) hb
  · exact (bwait_passes h hb).1 ((genReached_iff _ _).mpr hp)
  · exact (bwait_passes h hb).2 (Bool.eq_false_iff.mpr (mt (genReached_iff _ _).mp (Int.not_lt.mpr hp)))
  · exact btest_startsOp h hb hd hr

end

section
/-!
SUPPORT. RoundFmt of a finite rational number (spec/03 R60 to R64): its neighbours and the discarded part, the choice between them, overflow,
tininess, and what the encoding reads as.
-/

namespace Sys2Proof.Machine

/-! ### The formats -/

/-- What the proofs use of a float format of R52. -/
structure Fmt.Regular (F : Fmt) : Prop where
  two_le : 2 ≤ F.p
  split  : F.bits - 1 = (F.bits - F.p) + F.pf
  codes  : (F.expMask : ℤ) = F.emax - F.emin + 2
  exps   : F.emin < F.emax

theorem Fmt.regular_of_mem {F : Fmt} (h : F = bf16 ∨ F = f32 ∨ F = f64) : F.Regular := by
  rcases h with rfl | rfl | rfl <;> exact ⟨by decide, by decide, by decide, by decide⟩

/-- One more than the fraction bits, and the subnormal place, in integers. -/
theorem Fmt.Regular.p_eq {F : Fmt} (h : F.Regular) : F.p = F.pf + 1 := by have := h.two_le; unfold Fmt.pf; omega
theorem Fmt.Regular.qmin_eq {F : Fmt} (h : F.Regular) : F.qmin = F.emin - F.pf := by have := h.p_eq; unfold Fmt.qmin; omega

/-! ### The neighbours and the discarded part -/

/-- The significand of m · 2^e in places of weight 2^q, rounded toward zero, and the discarded part in units of 2^-(q − e) of a place. -/
def loSig (m : Nat) (e q : ℤ) : Nat := if q ≥ e then m / 2 ^ (q - e).toNat else m * 2 ^ (e - q).toNat
def remSig (m : Nat) (e q : ℤ) : Nat := if q ≥ e then m % 2 ^ (q - e).toNat else 0
/-- The discarded part in places. -/
def discarded (m : Nat) (e q : ℤ) : ℚ := remSig m e q / 2 ^ (q - e).toNat

theorem remSig_lt (m : Nat) (e q : ℤ) : remSig m e q < 2 ^ (q - e).toNat := by
  unfold remSig
  split
  · exact Nat.mod_lt _ (by positivity)
  · positivity

theorem loSig_add_discarded (m : Nat) (e q : ℤ) : (loSig m e q : ℚ) + discarded m e q = m * (2 : ℚ) ^ e / 2 ^ q := by
  rw [mul_div_assoc, ← zpow_sub₀ (by norm_num)]
  by_cases h : q ≥ e
  · obtain ⟨k, rfl⟩ := Int.le.dest h
    have hm : ((m / 2 ^ k : Nat) : ℚ) * 2 ^ k + (m % 2 ^ k : Nat) = m := by exact_mod_cast Nat.div_add_mod' m (2 ^ k)
    rw [loSig, discarded, remSig, if_pos h, if_pos h, show (e + (k : ℤ) - e).toNat = k by omega, show e - (e + (k : ℤ)) = -(k : ℤ) by omega,
      zpow_neg, zpow_natCast, ← div_eq_mul_inv, eq_div_iff (by positivity), add_mul, div_mul_cancel₀ _ (by positivity), hm]
  · obtain ⟨k, rfl⟩ := Int.le.dest (not_le.1 h).le
    rw [loSig, discarded, remSig, if_neg h, if_neg h, show (q + (k : ℤ) - q).toNat = k by omega, show q + (k : ℤ) - q = (k : ℤ) by omega,
      zpow_natCast]
    push_cast
    ring

theorem discarded_nonneg (m : Nat) (e q : ℤ) : 0 ≤ discarded m e q := by unfold discarded; positivity

theorem discarded_lt_one (m : Nat) (e q : ℤ) : discarded m e q < 1 := by
  rw [discarded, div_lt_one (by positivity)]
  exact_mod_cast remSig_lt m e q

theorem discarded_eq_zero_iff (m : Nat) (e q : ℤ) : discarded m e q = 0 ↔ remSig m e q = 0 := by
  rw [discarded, div_eq_zero_iff]; simp

/-- The neighbour toward zero and the discarded part are those of the statement. -/
theorem eq_loSig {m lo : Nat} {e q : ℤ} (h0 : 0 ≤ m * (2 : ℚ) ^ e / 2 ^ q - lo) (h1 : m * (2 : ℚ) ^ e / 2 ^ q - lo < 1) :
    lo = loSig m e q ∧ m * (2 : ℚ) ^ e / 2 ^ q - lo = discarded m e q := by
  have hs := loSig_add_discarded m e q
  have hd := discarded_nonneg m e q
  have hl := discarded_lt_one m e q
  rw [← hs] at h0 h1 ⊢
  have a : (lo : ℚ) < (loSig m e q + 1 : Nat) := by push_cast; linarith
  have b : (loSig m e q : ℚ) < (lo + 1 : Nat) := by push_cast; linarith
  have c : lo = loSig m e q := by
    have := Nat.cast_lt.1 a
    have := Nat.cast_lt.1 b
    omega
  exact ⟨c, by rw [c]; ring⟩

/-! ### The choice of the neighbour, R60 and R64 -/

theorem half_lt_iff (x k : Nat) : (1 / 2 : ℚ) < x / 2 ^ k ↔ 2 ^ k < 2 * x := by
  rw [div_lt_div_iff₀ (by norm_num) (by positivity), one_mul, mul_comm (x : ℚ)]
  exact_mod_cast Iff.rfl

theorem eq_half_iff (x k : Nat) : (x / 2 ^ k : ℚ) = 1 / 2 ↔ 2 * x = 2 ^ k := by
  rw [div_eq_div_iff (by positivity) (by norm_num), one_mul, mul_comm (x : ℚ)]
  exact_mod_cast Iff.rfl

theorem half_le_iff (x k : Nat) : (1 / 2 : ℚ) ≤ x / 2 ^ k ↔ 2 ^ k ≤ 2 * x := by
  rw [div_le_div_iff₀ (by norm_num) (by positivity), one_mul, mul_comm (x : ℚ)]
  exact_mod_cast Iff.rfl

theorem floor_places (x k : Nat) : ⌊(x / 2 ^ k : ℚ) * 2 ^ 16⌋ = ((x * 2 ^ 16 / 2 ^ k : Nat) : ℤ) := by
  rw [div_mul_eq_mul_div]
  exact_mod_cast Rat.floor_natCast_div_natCast (x * 2 ^ 16) (2 ^ k)

/-- The choice of the model is the choice of the rules. -/
theorem roundUp_iff {mode r x k lo : Nat} {s : Bool} (hm : mode ≤ 5) :
    (x != 0 && roundUp mode r s (lo % 2 == 1) x k false) = true ↔ RoundsUp mode r s lo (x / 2 ^ k) := by
  have h0 : (x / 2 ^ k : ℚ) ≠ 0 ↔ x ≠ 0 := by simp [div_eq_zero_iff]
  rw [RoundsUp, h0, half_lt_iff, eq_half_iff, half_le_iff, floor_places, Bool.and_eq_true, bne_iff_ne]
  refine and_congr_right fun _ => ?_
  obtain rfl | h4 : mode = 5 ∨ mode ≤ 4 := by omega
  · simp only [roundUp]
    norm_num
    exact_mod_cast Iff.rfl
  · interval_cases mode <;> simp [roundUp]

/-! ### The places of the result, R61 -/

/-- The exponent of the last place of a number in [2^E, 2^(E+1)). -/
def Fmt.place (F : Fmt) (E : ℤ) : ℤ := max E F.emin - F.p + 1
/-- The significand of m · 2^e in places of weight 2^q after the choice of the neighbour. -/
def roundedSig (mode r : Nat) (s : Bool) (m : Nat) (e q : ℤ) : Nat :=
  if remSig m e q != 0 && roundUp mode r s (loSig m e q % 2 == 1) (remSig m e q) (q - e).toNat false then loSig m e q + 1 else loSig m e q

/-- A significand in places of weight 2^q is one of the format: at most 2^p, and normal above the subnormal place. -/
structure Fmt.InPlaces (F : Fmt) (q : ℤ) (M : Nat) : Prop where
  place  : F.qmin ≤ q
  le     : M ≤ 2 ^ F.p
  normal : F.qmin < q → 2 ^ F.pf ≤ M

theorem lg2_eq {m : Nat} {e E : ℤ} (h0 : (2 : ℚ) ^ E ≤ m * (2 : ℚ) ^ e) (h1 : m * (2 : ℚ) ^ e < (2 : ℚ) ^ (E + 1)) : (Nat.log2 m : ℤ) + e = E := by
  have hm : m ≠ 0 := by rintro rfl; simp only [CharP.cast_eq_zero, zero_mul] at h0; exact absurd h0 (not_le.2 (by positivity))
  have hlo : (2 : ℚ) ^ ((Nat.log2 m : ℤ) + e) ≤ m * (2 : ℚ) ^ e := by
    rw [zpow_add₀ (by norm_num), zpow_natCast]
    gcongr
    exact_mod_cast Nat.log2_self_le hm
  have hhi : m * (2 : ℚ) ^ e < (2 : ℚ) ^ ((Nat.log2 m : ℤ) + e + 1) := by
    rw [show (Nat.log2 m : ℤ) + e + 1 = ((Nat.log2 m + 1 : Nat) : ℤ) + e by push_cast; ring, zpow_add₀ (by norm_num), zpow_natCast]
    gcongr
    exact_mod_cast Nat.lt_log2_self
  have a := (zpow_lt_zpow_iff_right₀ (by norm_num : (1 : ℚ) < 2)).1 (h0.trans_lt hhi)
  have b := (zpow_lt_zpow_iff_right₀ (by norm_num : (1 : ℚ) < 2)).1 (hlo.trans_lt h1)
  omega

/-- The neighbours of a number in [2^E, 2^(E+1)) are significands of the format. -/
theorem Fmt.Regular.inPlaces {F : Fmt} (h : F.Regular) {m : Nat} {e E : ℤ} (h0 : (2 : ℚ) ^ E ≤ m * (2 : ℚ) ^ e)
    (h1 : m * (2 : ℚ) ^ e < (2 : ℚ) ^ (E + 1)) (mode r : Nat) (s : Bool) : F.InPlaces (F.place E) (roundedSig mode r s m e (F.place E)) := by
  have hs := loSig_add_discarded m e (F.place E)
  have hd := discarded_nonneg m e (F.place E)
  have hl := discarded_lt_one m e (F.place E)
  have hp := h.p_eq
  have hq := h.qmin_eq
  have hlt : loSig m e (F.place E) < 2 ^ F.p := by
    have : (loSig m e (F.place E) : ℚ) < 2 ^ F.p := by
      calc (loSig m e (F.place E) : ℚ) ≤ m * (2 : ℚ) ^ e / 2 ^ F.place E := by linarith
        _ < (2 : ℚ) ^ (E + 1) / 2 ^ F.place E := by gcongr
        _ = (2 : ℚ) ^ (E + 1 - F.place E) := (zpow_sub₀ (by norm_num) _ _).symm
        _ ≤ (2 : ℚ) ^ (F.p : ℤ) := zpow_le_zpow_right₀ (by norm_num) (by unfold Fmt.place; omega)
        _ = 2 ^ F.p := zpow_natCast _ _
    exact_mod_cast this
  have hge : F.qmin < F.place E → 2 ^ F.pf ≤ loSig m e (F.place E) := fun hlt => by
    have : (2 : ℚ) ^ F.pf < loSig m e (F.place E) + 1 := by
      calc (2 : ℚ) ^ F.pf = (2 : ℚ) ^ (E - F.place E) := by rw [← zpow_natCast]; congr 1; unfold Fmt.place at hlt ⊢; omega
        _ = (2 : ℚ) ^ E / 2 ^ F.place E := zpow_sub₀ (by norm_num) _ _
        _ ≤ m * (2 : ℚ) ^ e / 2 ^ F.place E := by gcongr
        _ < loSig m e (F.place E) + 1 := by linarith
    exact Nat.lt_succ_iff.1 (by exact_mod_cast this)
  have hM : roundedSig mode r s m e (F.place E) = loSig m e (F.place E) + 1 ∨ roundedSig mode r s m e (F.place E) = loSig m e (F.place E) := by
    unfold roundedSig; split <;> simp
  refine ⟨by unfold Fmt.place; omega, by omega, fun hlt => (hge hlt).trans (by omega)⟩

/-! ### Overflow and tininess, R62 and R63 -/

theorem mul_two_zpow_le_iff (M a : ℚ) (b c : ℤ) : M * (2 : ℚ) ^ b < a * (2 : ℚ) ^ c ↔ M * (2 : ℚ) ^ (b - c) < a := by
  rw [zpow_sub₀ (by norm_num), ← mul_div_assoc, div_lt_iff₀ (by positivity)]

/-- A significand overflows exactly above the largest finite number. -/
theorem Fmt.Regular.overflows_iff {F : Fmt} (h : F.Regular) {q : ℤ} {M : Nat} (hM : F.InPlaces q M) :
    ((2 : ℚ) ^ F.p - 1) * (2 : ℚ) ^ (F.emax - F.p + 1) < M * (2 : ℚ) ^ q ↔ 2 ^ (F.emax + 1 - q).toNat ≤ M := by
  obtain ⟨hq, hle, hn⟩ := hM
  have hp := h.p_eq
  have hqm := h.qmin_eq
  have hex := h.exps
  have h2 := h.two_le
  rcases le_or_gt q (F.emax - F.pf) with hs | hs
  · obtain ⟨d, hd⟩ := Int.le.dest hs
    rw [mul_two_zpow_le_iff, show F.emax - F.p + 1 - q = (d : ℤ) by omega, show (F.emax + 1 - q).toNat = F.pf + 1 + d by omega, zpow_natCast,
      ← hp, pow_add]
    have hp4 : 4 ≤ 2 ^ F.p := (Nat.pow_le_pow_right (by norm_num) h2 : 2 ^ 2 ≤ 2 ^ F.p)
    rw [show ((2 : ℚ) ^ F.p - 1) = ((2 ^ F.p - 1 : Nat) : ℚ) by rw [Nat.cast_sub (by omega)]; push_cast; ring]
    rw [show ((2 ^ F.p - 1 : Nat) : ℚ) * 2 ^ d < (M : ℚ) ↔ (2 ^ F.p - 1) * 2 ^ d < M by exact_mod_cast Iff.rfl]
    rcases Nat.eq_zero_or_pos d with rfl | hd0
    · omega
    · have hD : 2 ≤ 2 ^ d := (Nat.pow_le_pow_right (by norm_num) hd0 : 2 ^ 1 ≤ 2 ^ d)
      refine iff_of_false (not_lt.2 ?_) (not_le.2 ?_)
      · calc M ≤ 2 ^ F.p := hle
          _ ≤ (2 ^ F.p - 1) * 2 := by omega
          _ ≤ (2 ^ F.p - 1) * 2 ^ d := Nat.mul_le_mul_left _ hD
      · calc M ≤ 2 ^ F.p := hle
          _ < 2 ^ F.p * 2 := by omega
          _ ≤ 2 ^ F.p * 2 ^ d := Nat.mul_le_mul_left _ hD
  · have hn' := hn (by omega)
    have a : 2 ^ (F.emax + 1 - q).toNat ≤ M := (Nat.pow_le_pow_right (by norm_num) (by omega)).trans hn'
    refine iff_of_true ?_ a
    have hnq : (2 : ℚ) ^ F.pf ≤ M := by exact_mod_cast hn'
    calc ((2 : ℚ) ^ F.p - 1) * (2 : ℚ) ^ (F.emax - F.p + 1) < (2 : ℚ) ^ F.p * (2 : ℚ) ^ (F.emax - F.p + 1) := by gcongr; linarith
      _ = (2 : ℚ) ^ F.pf * (2 : ℚ) ^ (F.emax - F.pf + 1) := by
        rw [← zpow_natCast, ← zpow_natCast, ← zpow_add₀ (by norm_num), ← zpow_add₀ (by norm_num)]; congr 1; omega
      _ ≤ M * (2 : ℚ) ^ q := by gcongr; norm_num; omega

/-- A result is tiny exactly if its significand is a subnormal one. -/
theorem Fmt.Regular.tiny_iff {F : Fmt} (h : F.Regular) {q : ℤ} {M : Nat} (hM : F.InPlaces q M) :
    (0 < (M : ℚ) * 2 ^ q ∧ (M : ℚ) * 2 ^ q < 2 ^ F.emin) ↔ M ≠ 0 ∧ q = F.qmin ∧ M < 2 ^ F.pf := by
  obtain ⟨hq, -, hn⟩ := hM
  have hqm := h.qmin_eq
  rw [mul_pos_iff_of_pos_right (by positivity), Nat.cast_pos, Nat.pos_iff_ne_zero]
  refine and_congr_right fun _ => ?_
  have e : (M : ℚ) * 2 ^ q < 2 ^ F.emin ↔ (M : ℚ) * 2 ^ (q - F.emin) < 1 := by simpa using mul_two_zpow_le_iff M 1 q F.emin
  have place : (M : ℚ) * 2 ^ F.qmin < 2 ^ F.emin ↔ M < 2 ^ F.pf := by
    rw [hqm, zpow_sub₀ (by norm_num), zpow_natCast, mul_div_left_comm, mul_lt_iff_lt_one_right (by positivity), div_lt_one (by positivity)]
    exact_mod_cast Iff.rfl
  rcases hq.eq_or_lt with rfl | hlt
  · simpa using place
  · have hbig : (2 : ℚ) ^ F.emin ≤ M * 2 ^ q := by
      have hnq : (2 : ℚ) ^ F.pf ≤ M := by exact_mod_cast hn hlt
      calc (2 : ℚ) ^ F.emin = (2 : ℚ) ^ F.pf * (2 : ℚ) ^ F.qmin := by
            rw [← zpow_natCast, ← zpow_add₀ (by norm_num)]; congr 1; omega
        _ ≤ M * (2 : ℚ) ^ q := by gcongr; norm_num
    exact iff_of_false (not_lt.2 hbig) (fun hx => hlt.ne' hx.1)

/-! ### The encoding, R53 -/

theorem Fmt.expMask_lt (F : Fmt) : F.expMask < 2 ^ (F.bits - F.p) := by
  have : 0 < 2 ^ (F.bits - F.p) := by positivity
  unfold Fmt.expMask; omega

theorem Fmt.Regular.code_lt {F : Fmt} (h : F.Regular) {c : Nat} (hc : c < F.expMask * 2 ^ F.pf) : c < 2 ^ (F.bits - 1) := by
  rw [h.split, pow_add]
  exact hc.trans (Nat.mul_lt_mul_of_pos_right F.expMask_lt (by positivity))

theorem Fmt.Regular.encoded_lt {F : Fmt} (h : F.Regular) (s : Bool) {c : Nat} (hc : c < F.expMask * 2 ^ F.pf) : F.zeroBits s + c < 2 ^ F.bits := by
  have hlt := h.code_lt hc
  have hp := h.p_eq
  have hsplit := h.split
  have h2 := h.two_le
  rw [show F.bits = F.bits - 1 + 1 by omega, pow_succ]
  unfold Fmt.zeroBits
  split <;> omega

/-- A code below the infinity reads as a finite number of the sign in front of it. -/
theorem Fmt.Regular.readF_code {F : Fmt} (h : F.Regular) (s : Bool) {c : Nat} (hc : c < F.expMask * 2 ^ F.pf) :
    readF F false (F.zeroBits s + c) = (if c / 2 ^ F.pf = 0 then .num s (c % 2 ^ F.pf) F.qmin
      else .num s (c % 2 ^ F.pf + 2 ^ F.pf) (F.qmin + (c / 2 ^ F.pf - 1 : Nat)), false) := by
  have hlt := h.code_lt hc
  have he : c / 2 ^ F.pf < F.expMask := Nat.div_lt_of_lt_mul (by rwa [mul_comm])
  have hz : F.zeroBits s = s.toNat * 2 ^ (F.bits - F.p) * 2 ^ F.pf := by
    rw [Fmt.zeroBits, h.split, pow_add]; cases s <;> simp
  have hsign : ((F.zeroBits s + c) / 2 ^ (F.bits - 1) % 2 == 1) = s := by
    rw [Fmt.zeroBits]
    cases s
    · simp [Nat.div_eq_of_lt hlt]
    · simp [Nat.add_div_left _ (Nat.two_pow_pos (F.bits - 1)), Nat.div_eq_of_lt hlt]
  have hexp : (F.zeroBits s + c) / 2 ^ F.pf % 2 ^ (F.bits - F.p) = c / 2 ^ F.pf := by
    rw [hz, add_comm, Nat.add_mul_div_right _ _ (by positivity), Nat.add_mul_mod_self_right, Nat.mod_eq_of_lt (he.trans F.expMask_lt)]
  have hfrac : (F.zeroBits s + c) % 2 ^ F.pf = c % 2 ^ F.pf := by rw [hz, add_comm, Nat.add_mul_mod_self_right]
  unfold readF
  simp only [hsign, hexp, hfrac, if_neg he.ne, Bool.false_eq_true, if_false]
  split <;> rfl

/-- A significand that does not overflow has a code below the infinity. -/
theorem Fmt.Regular.code_of_inPlaces {F : Fmt} (h : F.Regular) {q : ℤ} {M : Nat} (hM : F.InPlaces q M) (ho : M < 2 ^ (F.emax + 1 - q).toNat) :
    (q - F.qmin).toNat * 2 ^ F.pf + M < F.expMask * 2 ^ F.pf := by
  obtain ⟨hq, hle, hn⟩ := hM
  have hp := h.p_eq
  have hqm := h.qmin_eq
  have hcodes := h.codes
  have hex := h.exps
  have hK : F.pf ≤ (F.emax + 1 - q).toNat := by
    rcases hq.eq_or_lt with rfl | hlt
    · omega
    · exact ((Nat.pow_lt_pow_iff_right (by norm_num)).1 ((hn hlt).trans_lt ho)).le
  have hK0 : 0 < (F.emax + 1 - q).toNat := by have := h.two_le; omega
  have hx : F.expMask = (q - F.qmin).toNat + ((F.emax + 1 - q).toNat - F.pf + 1) := by omega
  have hb : M < ((F.emax + 1 - q).toNat - F.pf + 1) * 2 ^ F.pf := by
    obtain ⟨j, hj⟩ := Nat.exists_eq_add_of_le hK
    rw [hj] at ho ⊢
    rw [show F.pf + j - F.pf + 1 = j + 1 by omega]
    rcases j with _ | _ | j
    · simpa using ho
    · calc M < 2 ^ (F.pf + 1) := ho
        _ = (0 + 1 + 1) * 2 ^ F.pf := by rw [pow_succ]; ring
    · calc M ≤ 2 * 2 ^ F.pf := by rw [hp, pow_succ] at hle; omega
        _ < (j + 1 + 1 + 1) * 2 ^ F.pf := Nat.mul_lt_mul_of_pos_right (by omega) (by positivity)
  rw [hx, add_mul]
  omega

/-- The code of a significand reads as its value. -/
theorem Fmt.Regular.readF_inPlaces {F : Fmt} (h : F.Regular) (s : Bool) {q : ℤ} {M : Nat} (hM : F.InPlaces q M)
    (ho : M < 2 ^ (F.emax + 1 - q).toNat) :
    ∃ n g, readF F false (F.zeroBits s + ((q - F.qmin).toNat * 2 ^ F.pf + M)) = (.num s n g, false) ∧ (n : ℚ) * 2 ^ g = M * 2 ^ q := by
  rw [h.readF_code s (h.code_of_inPlaces hM ho)]
  obtain ⟨hq, hle, hn⟩ := hM
  obtain ⟨d, rfl⟩ := Int.le.dest hq
  rw [show (F.qmin + (d : ℤ) - F.qmin).toNat = d by omega, add_comm (d * _), Nat.add_mul_div_right _ _ (by positivity), Nat.add_mul_mod_self_right]
  rw [h.p_eq, pow_succ] at hle
  have hpos : 0 < 2 ^ F.pf := by positivity
  rcases lt_or_ge M (2 ^ F.pf) with hlt | hge
  · have hd : d = 0 := by by_contra hd; have := hn (by omega); omega
    subst hd
    rw [Nat.div_eq_of_lt hlt, Nat.mod_eq_of_lt hlt]
    exact ⟨M, F.qmin, rfl, by simp⟩
  · obtain ⟨b, rfl⟩ := Nat.exists_eq_add_of_le hge
    rw [Nat.add_div_left _ hpos, Nat.add_mod_left, if_neg (by positivity), Nat.add_right_comm, Nat.add_sub_cancel]
    refine ⟨_, _, rfl, ?_⟩
    rcases lt_or_ge b (2 ^ F.pf) with hlt | hge
    · rw [Nat.div_eq_of_lt hlt, Nat.mod_eq_of_lt hlt, zero_add, add_comm b]
    · obtain rfl : b = 2 ^ F.pf := by omega
      rw [Nat.div_self hpos, Nat.mod_self, zero_add, show F.qmin + ((1 + d : Nat) : ℤ) = F.qmin + d + 1 by push_cast; ring,
        zpow_add_one₀ (by norm_num)]
      push_cast; ring

/-! ### RoundFmt -/

/-- RoundFmt of a nonzero finite value, by its places. -/
theorem roundNum_eq (F : Fmt) (mode r : Nat) (ftz s : Bool) {m : Nat} {e E : ℤ} (hm : m ≠ 0) (hE : (Nat.log2 m : ℤ) + e = E) :
    roundFv F mode r ftz (.num s m e) =
      let q := F.place E
      let M := roundedSig mode r s m e q
      let tiny := M != 0 && q == F.qmin && M < 2 ^ F.pf
      if M ≥ 2 ^ (F.emax + 1 - q).toNat then
        (if mode = 1 || (mode = 2 && s) || (mode = 3 && !s) then F.infBits s - 1 else F.infBits s, flOF ||| flNX)
      else if tiny && ftz then (F.zeroBits s, flUF ||| flNX)
      else (F.zeroBits s + (q - F.qmin).toNat * 2 ^ F.pf + M, flIf (remSig m e q != 0) flNX ||| flIf (tiny && remSig m e q != 0) flUF) := by
  subst hE
  rw [roundFv, roundNum, if_neg (by simp [hm])]
  simp only [Bool.or_false]
  rfl

/-- The neighbour that the mode chooses is the significand of the result. -/
theorem eq_roundedSig {mode r lo M m : Nat} {s : Bool} {e q : ℤ} (hm : mode ≤ 5) (hlo : lo = loSig m e q)
    (h1 : RoundsUp mode r s lo (discarded m e q) → M = lo + 1) (h0 : ¬ RoundsUp mode r s lo (discarded m e q) → M = lo) :
    M = roundedSig mode r s m e q := by
  subst hlo
  rw [discarded, ← roundUp_iff hm] at h1 h0
  unfold roundedSig
  split
  · exact h1 ‹_›
  · exact h0 ‹_›

/-- R60 to R64, R56: each branch of the model's rounding is the branch of the rules that `overflows_iff` and `tiny_iff` name. -/
theorem roundingFollowsR60ToR64 : RoundingFollowsR60ToR64 := by
  intro F mode r ftz s m e hF hmode _ x y
  have h := Fmt.regular_of_mem hF
  refine ⟨fun hm => by subst hm; rfl, ?_⟩
  intro E lo M hE0 hE1 u t ht0 ht1 hup hdown z top tiny
  obtain ⟨hlo, ht⟩ := eq_loSig (q := F.place E) ht0 ht1
  change t = discarded m e (F.place E) at ht
  rw [ht] at hup hdown ⊢
  have hM := eq_roundedSig hmode hlo hup hdown
  have hin := h.inPlaces hE0 hE1 mode r s
  rw [← hM] at hin
  have hm : m ≠ 0 := by
    rintro rfl
    exact absurd hE0 (not_le.2 (by simp only [x, CharP.cast_eq_zero, zero_mul]; positivity))
  have hy : y = _ := roundNum_eq F mode r ftz s hm (lg2_eq hE0 hE1)
  simp only [← hM] at hy
  have hover : top < z ↔ 2 ^ (F.emax + 1 - F.place E).toNat ≤ M := h.overflows_iff hin
  have htiny : tiny ↔ M ≠ 0 ∧ F.place E = F.qmin ∧ M < 2 ^ F.pf := h.tiny_iff hin
  have hb : (M != 0 && F.place E == F.qmin && decide (M < 2 ^ F.pf)) = decide tiny := by
    rw [Bool.eq_iff_iff]; simp [htiny, and_assoc]
  rw [hb] at hy
  refine ⟨fun ho => ?_, fun ho hf hs => ?_, fun ho hs => ?_⟩
  · rw [hy, if_pos (hover.1 ho)]
    simp [or_assoc]
  · rw [hy, if_neg (mt hover.2 (not_lt.2 ho)), if_pos (by simp [hf, hs])]
  · have hlt := mt hover.2 (not_lt.2 ho)
    rw [hy, if_neg hlt, if_neg (by simpa [and_comm] using hs), add_assoc]
    refine ⟨?_, ?_, h.readF_inPlaces s hin (not_le.1 hlt)⟩
    · simp only [flIf, discarded_eq_zero_iff, ne_eq, Bool.and_eq_true, decide_eq_true_eq, bne_iff_ne, and_comm (a := tiny)]
    · exact h.encoded_lt s (h.code_of_inPlaces hin (not_le.1 hlt))

end Sys2Proof.Machine
end

section
/-!
SUPPORT. The float elements of vadd, vsub, vmul, vfma and vfms (spec/03 R54, R55, R67, spec/08 R174): sums and products of exact values, and the
elements as their rounding.
-/

namespace Sys2Proof.Machine

/-! ### What an encoding reads as -/

/-- A number or an infinity has the sign of its encoding, and is no signalling NaN. -/
theorem readF_of_ne_nan {F : Fmt} {ftz : Bool} {x : Nat} (h : (readF F ftz x).1 ≠ .nan) :
    signFv (readF F ftz x).1 = x.testBit (F.bits - 1) ∧ (readF F ftz x).2 = false := by
  have hs : (x / 2 ^ (F.bits - 1) % 2 == 1) = x.testBit (F.bits - 1) := by rw [Nat.testBit_eq_decide_div_mod_eq]; rfl
  revert h
  unfold readF
  dsimp only
  rw [hs]
  split
  · split
    · exact fun _ => ⟨rfl, rfl⟩
    · exact fun h => absurd rfl h
  · split <;> exact fun _ => ⟨rfl, rfl⟩

theorem signFv_readF {F : Fmt} {ftz : Bool} {x : Nat} (h : (readF F ftz x).1 ≠ .nan) : signFv (readF F ftz x).1 = x.testBit (F.bits - 1) :=
  (readF_of_ne_nan h).1
theorem readF_signals {F : Fmt} {ftz : Bool} {x : Nat} (h : (readF F ftz x).1 ≠ .nan) : (readF F ftz x).2 = false := (readF_of_ne_nan h).2

/-! ### Real numbers and their signs -/

theorem realOf_eq_num {v : Fv} {p : ℚ} (h : RealOf v = some p) : ∃ s m e, v = .num s m e ∧ p = (if s then -1 else 1) * m * (2 : ℚ) ^ e := by
  cases v with
  | nan => cases h
  | inf t => cases h
  | num s m e => exact ⟨s, m, e, rfl, (Option.some.inj h).symm⟩

theorem realOf_ne_nan {v : Fv} {p : ℚ} (h : RealOf v = some p) : v ≠ .nan := by rintro rfl; cases h

theorem realOf_num (s : Bool) (m : Nat) (e : ℤ) : RealOf (.num s m e) = some ((sgnInt s m : ℚ) * (2 : ℚ) ^ e) := by
  rw [RealOf, sgnInt]; cases s <;> simp

theorem realOf_num_eq_zero {s : Bool} {m : Nat} {e : ℤ} : RealOf (.num s m e) = some 0 ↔ m = 0 := by
  rw [realOf_num, Option.some.injEq, mul_eq_zero, or_iff_left (by positivity), sgnInt]
  cases s <;> simp

theorem realOf_negFv {v : Fv} {p : ℚ} (h : RealOf v = some p) : RealOf (negFv v) = some (-p) := by
  obtain ⟨s, m, e, rfl, rfl⟩ := realOf_eq_num h
  rw [negFv, RealOf]; cases s <;> simp

theorem signFv_negFv {v : Fv} (h : v ≠ .nan) : signFv (negFv v) = !signFv v := by
  cases v with
  | nan => exact absurd rfl h
  | inf t => rfl
  | num s m e => rfl

theorem negFv_eq_nan_iff {v : Fv} : negFv v = .nan ↔ v = .nan := by cases v <;> simp [negFv]

/-! ### Exact sums -/

/-- A significand scaled to a lower exponent keeps its real number. -/
theorem sgnInt_scaleTo (s : Bool) (m : Nat) {e g : ℤ} (h : g ≤ e) : (sgnInt s (scaleTo m e g) : ℚ) * (2 : ℚ) ^ g = sgnInt s m * (2 : ℚ) ^ e := by
  obtain ⟨k, rfl⟩ := Int.le.dest h
  rw [scaleTo, show (g + (k : ℤ) - g).toNat = k by omega, zpow_add₀ (by norm_num), zpow_natCast]
  cases s <;> simp only [sgnInt, if_true, Bool.false_eq_true, if_false] <;> push_cast <;> ring

/-- An exact integer in places of weight 2^g, with any sign for zero. -/
theorem realOf_signed (x : ℤ) (zero : Bool) (g : ℤ) :
    RealOf (.num (if x = 0 then zero else decide (x < 0)) x.natAbs g) = some ((x : ℚ) * (2 : ℚ) ^ g) := by
  rw [realOf_num]
  congr 3
  rcases lt_trichotomy x 0 with h | rfl | h
  · rw [if_neg h.ne, decide_eq_true h, sgnInt, if_pos rfl]; omega
  · simp [sgnInt]
  · rw [if_neg h.ne', decide_eq_false h.not_gt, sgnInt, if_neg Bool.false_ne_true]; omega

/-- The sum of two real numbers, with the sign of an exact zero by R67. -/
theorem addFv_of_real (mode : Nat) {v w : Fv} {p q : ℚ} (hv : RealOf v = some p) (hw : RealOf w = some q) :
    ∃ y, addFv mode v w = (y, false) ∧ RealOf y = some (p + q) ∧
      (p + q = 0 → signFv y = if p = 0 ∧ q = 0 ∧ signFv v = signFv w then signFv v else decide (mode = 3)) := by
  have hp0 := hv
  have hq0 := hw
  obtain ⟨s, m, e, rfl, -⟩ := realOf_eq_num hv
  obtain ⟨t, n, f, rfl, -⟩ := realOf_eq_num hw
  rw [realOf_num, Option.some.injEq] at hv hw
  have hpz : p = 0 ↔ m = 0 := by rw [← realOf_num_eq_zero (s := s) (e := e), hp0, Option.some.injEq]
  have hqz : q = 0 ↔ n = 0 := by rw [← realOf_num_eq_zero (s := t) (e := f), hq0, Option.some.injEq]
  rw [addFv]
  split
  · rename_i hz
    obtain ⟨rfl, rfl⟩ : m = 0 ∧ n = 0 := by simpa using hz
    obtain ⟨rfl, rfl⟩ : p = 0 ∧ q = 0 := ⟨hpz.2 rfl, hqz.2 rfl⟩
    exact ⟨_, rfl, by simp [RealOf], fun _ => by simp [signFv]⟩
  · rename_i hz
    have hne : ¬ (p = 0 ∧ q = 0 ∧ s = t) := by
      rintro ⟨hp, hq, -⟩
      exact hz (by simp [hpz.1 hp, hqz.1 hq])
    have hsum : ((sgnInt s (scaleTo m e (min e f)) + sgnInt t (scaleTo n f (min e f)) : ℤ) : ℚ) * (2 : ℚ) ^ min e f = p + q := by
      rw [Int.cast_add, add_mul, sgnInt_scaleTo _ _ (min_le_left _ _), sgnInt_scaleTo _ _ (min_le_right _ _), hv, hw]
    refine ⟨_, rfl, (realOf_signed _ _ _).trans (congrArg some hsum), fun h0 => ?_⟩
    refine .trans (if_pos ?_) (if_neg hne).symm
    rw [← hsum, mul_eq_zero, or_iff_left (by positivity)] at h0
    exact_mod_cast h0

theorem addFv_nan {mode : Nat} {v w : Fv} (h : v = .nan ∨ w = .nan) : addFv mode v w = (.nan, false) := by
  rcases h with rfl | rfl
  · rfl
  · cases v <;> rfl

theorem addFv_inf_opposite (mode : Nat) (t : Bool) : addFv mode (.inf t) (.inf (!t)) = (.nan, true) := by cases t <;> rfl

theorem addFv_inf_left (mode : Nat) {t : Bool} {w : Fv} (hn : w ≠ .nan) (ho : w ≠ .inf (!t)) : addFv mode (.inf t) w = (.inf t, false) := by
  cases w with
  | nan => exact absurd rfl hn
  | inf u =>
    rw [Ne, Fv.inf.injEq, Bool.eq_not, not_not] at ho
    rw [addFv, if_pos ho.symm]
  | num s m e => rfl

theorem addFv_inf_right (mode : Nat) {v : Fv} {p : ℚ} (t : Bool) (h : RealOf v = some p) : addFv mode v (.inf t) = (.inf t, false) := by
  obtain ⟨s, m, e, rfl, -⟩ := realOf_eq_num h
  rfl

/-! ### Exact products -/

/-- The invalid product of an infinity and a zero, and the products that are an infinity (R55). -/
def BadProduct (v w : Fv) : Prop := ((∃ t, v = .inf t) ∧ RealOf w = some 0) ∨ (RealOf v = some 0 ∧ ∃ t, w = .inf t)
def InfProduct (v w : Fv) : Prop :=
  ((∃ t, v = .inf t) ∧ w ≠ .nan ∧ RealOf w ≠ some 0) ∨ ((∃ t, w = .inf t) ∧ v ≠ .nan ∧ RealOf v ≠ some 0)

theorem mulFv_of_real {v w : Fv} {p q : ℚ} (hv : RealOf v = some p) (hw : RealOf w = some q) :
    ∃ y, mulFv v w = (y, false) ∧ RealOf y = some (p * q) ∧ signFv y = (signFv v != signFv w) := by
  obtain ⟨s, m, e, rfl, rfl⟩ := realOf_eq_num hv
  obtain ⟨t, n, f, rfl, rfl⟩ := realOf_eq_num hw
  refine ⟨_, rfl, ?_, rfl⟩
  rw [RealOf, zpow_add₀ (by norm_num)]
  cases s <;> cases t <;> simp <;> ring

theorem mulFv_nan {v w : Fv} (h : v = .nan ∨ w = .nan) : mulFv v w = (.nan, false) := by
  rcases h with rfl | rfl
  · rfl
  · cases v <;> rfl

theorem mulFv_bad {v w : Fv} (h : BadProduct v w) : mulFv v w = (.nan, true) := by
  rcases h with ⟨⟨t, rfl⟩, h⟩ | ⟨h, t, rfl⟩ <;>
  · obtain ⟨s, m, e, rfl, -⟩ := realOf_eq_num h
    rw [realOf_num_eq_zero] at h
    rw [mulFv, if_pos h]

theorem mulFv_inf {v w : Fv} (h : InfProduct v w) : mulFv v w = (.inf (signFv v != signFv w), false) := by
  rcases h with ⟨⟨t, rfl⟩, hn, h0⟩ | ⟨⟨t, rfl⟩, hn, h0⟩
  · cases w with
    | nan => exact absurd rfl hn
    | inf u => rfl
    | num s m e => rw [Ne, realOf_num_eq_zero] at h0; rw [mulFv, if_neg h0]; rfl
  · cases v with
    | nan => exact absurd rfl hn
    | inf u => rfl
    | num s m e => rw [Ne, realOf_num_eq_zero] at h0; rw [mulFv, if_neg h0]; rfl

theorem BadProduct.ne_nan {v w : Fv} (h : BadProduct v w) : v ≠ .nan ∧ w ≠ .nan := by
  rcases h with ⟨⟨t, rfl⟩, h⟩ | ⟨h, t, rfl⟩
  · exact ⟨Fv.noConfusion, realOf_ne_nan h⟩
  · exact ⟨realOf_ne_nan h, Fv.noConfusion⟩

theorem InfProduct.ne_nan {v w : Fv} (h : InfProduct v w) : v ≠ .nan ∧ w ≠ .nan := by
  rcases h with ⟨⟨t, rfl⟩, h, -⟩ | ⟨⟨t, rfl⟩, h, -⟩
  · exact ⟨Fv.noConfusion, h⟩
  · exact ⟨h, Fv.noConfusion⟩

/-- A product raises NV exactly if it is invalid. -/
theorem mulFv_invalid_iff (v w : Fv) : (mulFv v w).2 = true ↔ BadProduct v w := by
  refine ⟨fun h => ?_, fun h => by rw [mulFv_bad h]⟩
  cases v with
  | nan => cases h
  | inf s =>
    cases w with
    | nan => cases h
    | inf t => cases h
    | num t n f =>
      refine .inl ⟨⟨s, rfl⟩, realOf_num_eq_zero.2 ?_⟩
      by_contra hn
      rw [mulFv, if_neg hn] at h
      cases h
  | num s m e =>
    cases w with
    | nan => cases h
    | inf t =>
      refine .inr ⟨realOf_num_eq_zero.2 ?_, t, rfl⟩
      by_contra hm
      rw [mulFv, if_neg hm] at h
      cases h
    | num t n f => cases h

/-! ### Elements as rounded sums and products, R174 -/

section
variable {et mode r : Nat} {ftz : Bool}

/-- A rounded sum and a rounded product of exact values. -/
def roundedSum (et mode r : Nat) (ftz : Bool) (v w : Fv) : Nat × Flags := rndF et mode r ftz (addFv mode v w).1 (addFv mode v w).2
def roundedProduct (et mode r : Nat) (ftz : Bool) (v w : Fv) : Nat × Flags := rndF et mode r ftz (mulFv v w).1 (mulFv v w).2

theorem rndF_valid (v : Fv) : rndF et mode r ftz v false = roundFv (fmtOf et) mode r ftz v := by
  rw [rndF]; exact Prod.ext rfl (BitVec.or_zero)

theorem rndF_nan (nv : Bool) : rndF et mode r ftz .nan nv = ((fmtOf et).qnan, if nv then flNV else 0) :=
  Prod.ext rfl (BitVec.zero_or)

/-- `res` is the rounding of the rational number `f`, where it is zero with the sign `sg`. -/
def Rounds (et mode r : Nat) (ftz : Bool) (res : Nat × Flags) (f : ℚ) (sg : Bool) : Prop :=
  ∃ q, RealOf q = some f ∧ (f = 0 → signFv q = sg) ∧ res = roundFv (fmtOf et) mode r ftz q

theorem Rounds.of_eq {x y : Nat × Flags} {f : ℚ} {sg : Bool} (h : Rounds et mode r ftz y f sg) (e : x = y) : Rounds et mode r ftz x f sg := e ▸ h

theorem roundedSum_rounds {v w : Fv} {p q : ℚ} (hv : RealOf v = some p) (hw : RealOf w = some q) :
    Rounds et mode r ftz (roundedSum et mode r ftz v w) (p + q) (if p = 0 ∧ q = 0 ∧ signFv v = signFv w then signFv v else decide (mode = 3)) := by
  obtain ⟨y, hy, hr, hs⟩ := addFv_of_real mode hv hw
  exact ⟨y, hr, hs, by rw [roundedSum, hy, rndF_valid]⟩

theorem roundedSum_negFv_rounds {v w : Fv} {p q : ℚ} (hv : RealOf v = some p) (hw : RealOf w = some q) :
    Rounds et mode r ftz (roundedSum et mode r ftz v (negFv w)) (p - q)
      (if p = 0 ∧ q = 0 ∧ signFv v ≠ signFv w then signFv v else decide (mode = 3)) := by
  have h := roundedSum_rounds (et := et) (mode := mode) (r := r) (ftz := ftz) hv (realOf_negFv hw)
  simpa only [signFv_negFv (realOf_ne_nan hw), neg_eq_zero, Bool.eq_not, ← sub_eq_add_neg] using h

theorem roundedProduct_rounds {v w : Fv} {p q : ℚ} (hv : RealOf v = some p) (hw : RealOf w = some q) :
    Rounds et mode r ftz (roundedProduct et mode r ftz v w) (p * q) (signFv v != signFv w) := by
  obtain ⟨y, hy, hr, hs⟩ := mulFv_of_real hv hw
  exact ⟨y, hr, fun _ => hs, by rw [roundedProduct, hy, rndF_valid]⟩

theorem roundedSum_inf_right {v : Fv} {p : ℚ} (t : Bool) (h : RealOf v = some p) : roundedSum et mode r ftz v (.inf t) = ((fmtOf et).infBits t, 0) := by
  rw [roundedSum, addFv_inf_right mode t h, rndF_valid]; rfl

/-- A rounded sum follows R55 at infinities. -/
theorem infSum_of_roundedSum {v w : Fv} {res : Nat × Flags} (h : v ≠ .nan → w ≠ .nan → res = roundedSum et mode r ftz v w) : InfSum (fmtOf et) v w res := by
  refine ⟨?_, ?_, fun t p hw hv => ?_⟩
  · rintro t rfl rfl
    rw [h Fv.noConfusion Fv.noConfusion, roundedSum, addFv_inf_opposite, rndF_nan]; rfl
  · rintro t rfl hn ho
    rw [h Fv.noConfusion hn, roundedSum, addFv_inf_left mode hn ho, rndF_valid]; rfl
  · subst hw
    rw [h (realOf_ne_nan hv) Fv.noConfusion, roundedSum_inf_right t hv]

/-- The second term of a sum or a difference. -/
def addend (sub : Bool) (v : Fv) : Fv := if sub then negFv v else v

theorem addend_eq_nan_iff (sub : Bool) (v : Fv) : addend sub v = .nan ↔ v = .nan := by
  cases sub
  · exact Iff.rfl
  · exact negFv_eq_nan_iff

theorem addE_eq (h : 7 ≤ et) (sub : Bool) (a b : Nat) :
    let x := readF (fmtOf et) ftz a
    let y := readF (fmtOf et) ftz b
    let q := addFv mode x.1 (addend sub y.1)
    addE et mode r ftz sub a b = rndF et mode r ftz q.1 (x.2 || y.2 || q.2) := by
  rw [addE, if_neg (by omega)]; rfl

theorem mulE_eq (h : 7 ≤ et) (a b : Nat) :
    let x := readF (fmtOf et) ftz a
    let y := readF (fmtOf et) ftz b
    mulE et mode r ftz a b = rndF et mode r ftz (mulFv x.1 y.1).1 (x.2 || y.2 || (mulFv x.1 y.1).2) := by
  rw [mulE, if_neg (by omega)]; rfl

theorem fmaE_eq (h : 7 ≤ et) (sub : Bool) (a b d : Nat) :
    let x := readF (fmtOf et) ftz a
    let y := readF (fmtOf et) ftz b
    let z := readF (fmtOf et) ftz d
    let p := mulFv x.1 y.1
    let q := addFv mode p.1 (addend sub z.1)
    fmaE et mode r ftz sub a b d = rndF et mode r ftz q.1 (x.2 || y.2 || z.2 || p.2 || q.2) := by
  rw [fmaE, if_neg (by omega)]; rfl

theorem addE_of_numbers (h : 7 ≤ et) (sub : Bool) {a b : Nat} (hx : (readF (fmtOf et) ftz a).1 ≠ .nan) (hy : (readF (fmtOf et) ftz b).1 ≠ .nan) :
    addE et mode r ftz sub a b = roundedSum et mode r ftz (readF (fmtOf et) ftz a).1 (addend sub (readF (fmtOf et) ftz b).1) := by
  rw [addE_eq h, readF_signals hx, readF_signals hy]; rfl

theorem mulE_of_numbers (h : 7 ≤ et) {a b : Nat} (hx : (readF (fmtOf et) ftz a).1 ≠ .nan) (hy : (readF (fmtOf et) ftz b).1 ≠ .nan) :
    mulE et mode r ftz a b = roundedProduct et mode r ftz (readF (fmtOf et) ftz a).1 (readF (fmtOf et) ftz b).1 := by
  rw [mulE_eq h, readF_signals hx, readF_signals hy]; rfl

/-- A fused result is the rounded sum of a valid product and the third element. -/
theorem fmaE_of_numbers (h : 7 ≤ et) (sub : Bool) {a b d : Nat} {p : Fv} (hx : (readF (fmtOf et) ftz a).1 ≠ .nan)
    (hy : (readF (fmtOf et) ftz b).1 ≠ .nan) (hz : (readF (fmtOf et) ftz d).1 ≠ .nan)
    (hp : mulFv (readF (fmtOf et) ftz a).1 (readF (fmtOf et) ftz b).1 = (p, false)) :
    fmaE et mode r ftz sub a b d = roundedSum et mode r ftz p (addend sub (readF (fmtOf et) ftz d).1) := by
  rw [fmaE_eq h, readF_signals hx, readF_signals hy, readF_signals hz, hp]; rfl

/-! ### NaN and invalid operations, R54 and R55 -/

theorem addE_nan (h : 7 ≤ et) (sub : Bool) {a b : Nat} (hn : (readF (fmtOf et) ftz a).1 = .nan ∨ (readF (fmtOf et) ftz b).1 = .nan) :
    addE et mode r ftz sub a b = ((fmtOf et).qnan, if (readF (fmtOf et) ftz a).2 ∨ (readF (fmtOf et) ftz b).2 then flNV else 0) := by
  rw [addE_eq h, addFv_nan (hn.imp_right (addend_eq_nan_iff sub _).2), rndF_nan]
  simp

theorem mulE_nan (h : 7 ≤ et) {a b : Nat} (hn : (readF (fmtOf et) ftz a).1 = .nan ∨ (readF (fmtOf et) ftz b).1 = .nan) :
    mulE et mode r ftz a b = ((fmtOf et).qnan, if (readF (fmtOf et) ftz a).2 ∨ (readF (fmtOf et) ftz b).2 then flNV else 0) := by
  rw [mulE_eq h, mulFv_nan hn, rndF_nan]
  simp

theorem mulE_bad (h : 7 ≤ et) {a b : Nat} (hb : BadProduct (readF (fmtOf et) ftz a).1 (readF (fmtOf et) ftz b).1) :
    mulE et mode r ftz a b = ((fmtOf et).qnan, flNV) := by
  rw [mulE_of_numbers h hb.ne_nan.1 hb.ne_nan.2, roundedProduct, mulFv_bad hb, rndF_nan]; rfl

theorem fmaE_bad (h : 7 ≤ et) (sub : Bool) {a b d : Nat} (hb : BadProduct (readF (fmtOf et) ftz a).1 (readF (fmtOf et) ftz b).1) :
    fmaE et mode r ftz sub a b d = ((fmtOf et).qnan, flNV) := by
  rw [fmaE_eq h, mulFv_bad hb, addFv_nan (.inl rfl), rndF_nan]
  simp

/-- A fused result with a NaN: of an element, or of the product. -/
theorem fmaE_nan (h : 7 ≤ et) (sub : Bool) {a b d : Nat}
    (hn : (mulFv (readF (fmtOf et) ftz a).1 (readF (fmtOf et) ftz b).1).1 = .nan ∨ (readF (fmtOf et) ftz d).1 = .nan)
    {_ : Decidable ((readF (fmtOf et) ftz a).2 = true ∨ (readF (fmtOf et) ftz b).2 = true ∨ (readF (fmtOf et) ftz d).2 = true ∨
      BadProduct (readF (fmtOf et) ftz a).1 (readF (fmtOf et) ftz b).1)} :
    fmaE et mode r ftz sub a b d = ((fmtOf et).qnan, if (readF (fmtOf et) ftz a).2 ∨ (readF (fmtOf et) ftz b).2 ∨ (readF (fmtOf et) ftz d).2 ∨
      BadProduct (readF (fmtOf et) ftz a).1 (readF (fmtOf et) ftz b).1 then flNV else 0) := by
  rw [fmaE_eq h, addFv_nan (hn.imp_right (addend_eq_nan_iff sub _).2), rndF_nan]
  simp only [← mulFv_invalid_iff, Bool.or_false, Bool.or_eq_true, or_assoc]

end

/-! ### The elements of the five words -/

/-- R54, R55, R67, R174: numbers round their exact sum or product; infinities, NaN and invalid products have their own results. -/
theorem floatElementsFollowR174 : FloatElementsFollowR174 := by
  intro v et src mode r a b d ftz h7 _ F x y z sx sy sz e rounds infX infY bad big
  have hsx : x.1 ≠ .nan → signFv x.1 = sx := signFv_readF
  have hsy : y.1 ≠ .nan → signFv y.1 = sy := signFv_readF
  have hsz : z.1 ≠ .nan → signFv z.1 = sz := signFv_readF
  have hbig : big → mulFv x.1 y.1 = (.inf (sx != sy), false) := fun hb => by
    rw [← hsx (InfProduct.ne_nan hb).1, ← hsy (InfProduct.ne_nan hb).2]; exact mulFv_inf hb
  refine ⟨fun p q hp hq => ?_, infSum_of_roundedSum (addE_of_numbers h7 false), ?_, fun hb => mulE_bad h7 hb, fun hb => ?_,
    fun hz => ⟨fun hb => ?_, fun hb => ?_⟩, fun hn i hi => ?_, fun hn i hi => ?_⟩
  · have hx := realOf_ne_nan hp
    have hy := realOf_ne_nan hq
    obtain ⟨w, hw, hwr, hws⟩ := mulFv_of_real hp hq
    rw [hsx hx, hsy hy] at hws
    refine ⟨?_, ?_, ?_, fun u hu => ?_, fun t ht => ?_⟩
    · have hr := roundedSum_rounds (et := et) (mode := mode) (r := r) (ftz := ftz) hp hq
      rw [hsx hx, hsy hy] at hr
      exact hr.of_eq (addE_of_numbers h7 false hx hy)
    · have hr := roundedSum_negFv_rounds (et := et) (mode := mode) (r := r) (ftz := ftz) hp hq
      rw [hsx hx, hsy hy] at hr
      exact hr.of_eq (addE_of_numbers h7 true hx hy)
    · have hr := roundedProduct_rounds (et := et) (mode := mode) (r := r) (ftz := ftz) hp hq
      rw [hsx hx, hsy hy] at hr
      exact hr.of_eq (mulE_of_numbers h7 hx hy)
    · have hz := realOf_ne_nan hu
      constructor
      · have hr := roundedSum_rounds (et := et) (mode := mode) (r := r) (ftz := ftz) hwr hu
        have hs : (if p * q = 0 ∧ u = 0 ∧ (sx != sy) = sz then (sx != sy) else decide (mode = 3)) =
            if p * q = 0 ∧ u = 0 ∧ (sx != sy) = sz then sz else decide (mode = 3) := by
          split
          · exact (‹_ ∧ _ ∧ _› : _).2.2
          · rfl
        rw [hws, hsz hz, hs] at hr
        exact hr.of_eq (fmaE_of_numbers h7 false hx hy hz hw)
      · have hr := roundedSum_negFv_rounds (et := et) (mode := mode) (r := r) (ftz := ftz) hwr hu
        rw [hws, hsz hz] at hr
        exact hr.of_eq (fmaE_of_numbers h7 true hx hy hz hw)
    · have hz : z.1 ≠ .nan := by rw [ht]; exact Fv.noConfusion
      have hf (sub : Bool) := fmaE_of_numbers (mode := mode) (r := r) h7 sub hx hy hz hw
      rw [show (readF (fmtOf et) ftz d).1 = .inf t from ht] at hf
      exact ⟨(hf false).trans (roundedSum_inf_right _ hwr), (hf true).trans (roundedSum_inf_right _ hwr)⟩
  · exact infSum_of_roundedSum fun hx hy => addE_of_numbers h7 true hx (mt negFv_eq_nan_iff.2 hy)
  · refine (mulE_of_numbers h7 (InfProduct.ne_nan hb).1 (InfProduct.ne_nan hb).2).trans ?_
    rw [roundedProduct, show mulFv _ _ = _ from hbig hb, rndF_valid]; rfl
  · exact ⟨fmaE_bad h7 false hb, fmaE_bad h7 true hb⟩
  · obtain ⟨hx, hy⟩ := InfProduct.ne_nan hb
    exact ⟨infSum_of_roundedSum fun _ _ => fmaE_of_numbers h7 false hx hy hz (hbig hb),
      infSum_of_roundedSum fun _ _ => fmaE_of_numbers h7 true hx hy hz (hbig hb)⟩
  · rcases hi with rfl | rfl | rfl
    · exact addE_nan h7 false hn
    · exact addE_nan h7 true hn
    · exact mulE_nan h7 hn
  · have hm : (mulFv x.1 y.1).1 = .nan ∨ z.1 = .nan := by
      rw [← or_assoc] at hn
      exact hn.imp_left fun h => by rw [mulFv_nan h]
    rcases hi with rfl | rfl
    · exact fmaE_nan h7 false hm
    · exact fmaE_nan h7 true hm

end Sys2Proof.Machine
end

section

open Sys2Proof Sys2Proof.Machine

/-- Settles O31: the rounding by the places of its result, the elements as rounded sums and products. -/
theorem floatElementsRoundTheExactResult : Obligations.FloatElementsRoundTheExactResult := ⟨roundingFollowsR60ToR64, floatElementsFollowR174⟩

end

section
/-!
SUPPORT. The vector words that fold or arrange elements (spec/08 R180 to R182): they issue as the element-wise words do, and land the results of
their layouts; and vseed (R183).
-/

namespace Sys2Proof.Machine

/-! ### The words -/

/-- What the proofs use of a word that folds or arranges elements. -/
structure FoldFacts (i : Instr) (v : VWord) : Prop where
  exec   : ∀ s, exec i s = issueVec i v s
  free   : sysRestricted i = false
  assigned : ∀ p r, i ≠ .unassignedWord p r
  blocks : vkind i = .pack ∨ vkind i = .unpack → i = .vmxpack v ∨ i = .vmxunpack v

theorem Folding.facts {i : Instr} {v : VWord} (h : Folding i v) : FoldFacts i v := by
  rcases h with rfl | rfl | rfl | rfl
  all_goals exact ⟨fun _ => rfl, rfl, fun _ _ => Instr.noConfusion, by simp [vkind]⟩

theorem Arranging.facts {i : Instr} {v : VWord} (h : Arranging i v) : FoldFacts i v := by
  rcases h with rfl | rfl | rfl | rfl
  all_goals exact ⟨fun _ => rfl, rfl, fun _ _ => Instr.noConfusion, by simp [vkind]⟩

section
variable {s : State} {c : Nat} {i : Instr} {v : VWord}

theorem FoldFacts.fits (h : FoldFacts i v) (r : VectorReady s c i v) : Fits (vecInfo i v) s c .c i v.n [.c]
    (vbases i v ++ if v.vlg then [v.vlen.extractLsb' 0 5] else []) [] where
  assigned := h.assigned
  y := rfl
  t := rfl
  who _ := by show (4 : BitVec 4).getLsbD 2 = true; decide
  sys _ := h.free
  reads := rfl
  dst := rfl
  il hx := by simp [vecInfo] at hx
  gm hx := by simp [vecInfo] at hx
  recs _ := r.room
  room := .inl ⟨rfl, rfl⟩
  nh hx := by simp [vecInfo] at hx
  oh hx := by simp [vecInfo] at hx
  feat := r.features
  late := by
    have hb : ¬ (vcount s c .c v > 1024) := Nat.not_lt.2 r.bound
    have hp : ((vkind i == .pack || vkind i == .unpack) && decide (vcount s c .c v % 32 ≠ 0)) = false := by
      rw [Bool.and_eq_false_imp]
      intro hk
      have := r.blocks (h.blocks (by simpa using hk))
      simp [countOf_eq, this]
    show vecLate i v s c .c = none
    rw [vecLate]
    split
    · rfl
    · dsimp only; rw [hp]; simp [hb]

/-- A ready word whose operands fit issues, with the operation of `vecStart` in flight. -/
theorem FoldFacts.starts (h : FoldFacts i v) (r : VectorReady s c i v) (hn : 0 < CountOf s c v) (hf : OperandsFit s c i v) {p : Op → Prop}
    (hp : p (vecStart s c i v).2) : VectorStarts i v s c p := by
  have hb : vecBody i v c .c s = .go (vecLeft s c i v) .fall := by rw [vecBody_of_ready r hn, VLay.check_of_fits hf.1]
  have hk := vecLeft_str s c i v
  have hx := vecLeft_core s c i v
  obtain ⟨t, h1, h2, h3, h4⟩ := r.ready.falls (h.fits r) hb (h.exec s) ⟨by rw [hk]; rfl, by rw [hx, Core.mapStr_nord]; rfl⟩
  have htook : ((vecLeft s c i v).core c).took = (s.core c).took := by rw [hx, Core.mapStr_took]; rfl
  have hfall := h2.falls
  rw [hk, ContinuesAt, Strand.endTests_drew] at hfall
  refine ⟨t, (vecStart s c i v).2, h1, htook ▸ h2.issued, hfall, fun q _ => ?_, ?_, rfl, rfl, rfl, rfl, rfl, rfl, ?_, ?_, ?_, ?_, fun j hj => ?_,
    fun e he => ?_, hp⟩
  · rw [h2.rd, State.rd, hk]; rfl
  · rw [h2.units.flight, hx, Core.mapStr_ops]; rfl
  · rw [h2.strand.sst, hk]; rfl
  · rw [h2.strand.sgn, hk]; rfl
  · rw [h4, hx, Core.mapStr_scr]; rfl
  · rw [h3]; exact (vecStart_looked s c i v).mem
  · rw [h2.strands j hj, vecLeft_str_ne s c i v hj]
  · rw [h2.cores e he, vecLeft_core_ne s i v he]

/-! ### The results in flight -/

/-- The results that the word computes from its samples at its issue. -/
def resultsOf (s : State) (c : Nat) (i : Instr) (v : VWord) : List VRes :=
  vresults i v (LayoutOf s c i v) (s.core c) (CountOf s c v) (ModeOf s c v) (sstFtz (s.str c .c).sst) (DrawsOf s c i v).2

theorem vecStart_body (s : State) (c : Nat) (i : Instr) (v : VWord) : (vecStart s c i v).2.body =
    .vec (vlanding i v (CountOf s c v) (s.str c .c).ic 0 0 (decide ((s.ctx c).scrmode = 2)) (resultsOf s c i v)) := rfl

/-- In fault mode every element of a source operand has been written. -/
theorem OperandsFit.written (hf : OperandsFit s c i v) (hm : (s.ctx c).scrmode = 2) {o : VArr}
    (ho : o ∈ [(LayoutOf s c i v).a] ++ (LayoutOf s c i v).b.toList) {j : Nat} (hj : j < o.m) : o.unw (s.core c) j = [] :=
  hf.2 hm o (List.mem_append_left _ ho) j hj

theorem OperandsFit.written_first (hf : OperandsFit s c i v) (hm : (s.ctx c).scrmode = 2) {j : Nat} (hj : j < (LayoutOf s c i v).a.m) :
    (LayoutOf s c i v).a.unw (s.core c) j = [] := hf.written hm (List.mem_append_left _ (List.mem_singleton.2 rfl)) hj

theorem OperandsFit.written_second (hf : OperandsFit s c i v) (hm : (s.ctx c).scrmode = 2) (hb : (LayoutOf s c i v).b.isSome) {j : Nat}
    (hj : j < ((LayoutOf s c i v).b.getD (LayoutOf s c i v).a).m) : ((LayoutOf s c i v).b.getD (LayoutOf s c i v).a).unw (s.core c) j = [] := by
  obtain ⟨b, hb⟩ := Option.isSome_iff_exists.1 hb
  rw [hb, Option.getD_some] at hj ⊢
  exact hf.written hm (by simp [hb]) hj

/-- A word with a result for each element lands the elements, where no result depends on a granule that was never written. -/
theorem landsElements_of_results (hs : vsingle i = false) (hlat : vlat i = 6) (hn : 0 < CountOf s c v) {val : Nat → Nat × Flags}
    {unw : Nat → List Nat} (hu : (s.ctx c).scrmode = 2 → ∀ j < CountOf s c v, unw j = [])
    (hr : resultsOf s c i v = (List.range (CountOf s c v)).map (elemRes (LayoutOf s c i v) (vgroup (vkind i) v) val unw)) :
    LandsElements s c i v 6 val (vecStart s c i v).2 := by
  have hbody := vecStart_body s c i v
  rw [hr, vlanding_of_elements hs (by rw [hlat]; decide) hn (fun hm => hu (of_decide_eq_true hm)), hlat] at hbody
  refine ⟨_, hbody, by rw [List.length_map, List.length_range]; rfl, fun g q hq => ?_⟩
  rw [List.getElem?_map, Option.map_eq_some_iff] at hq
  obtain ⟨a, ha, rfl⟩ := hq
  obtain ⟨hg, rfl⟩ := List.getElem?_eq_some_iff.1 ha
  rw [List.getElem_range]
  exact ⟨rfl, rfl, rfl, rfl⟩

/-! ### Landing groups -/

/-- Group `g` of a word that issues in cycle `ic`, none of whose results is cut at an unwritten granule. -/
def uncutGroup (n lat ic : Nat) (rs : List VRes) (g : Nat) : VGroup :=
  let mine := rs.filter (fun e => e.grp == g)
  ⟨if 40 < lat + g then 0 else max 1 (ic + (lat + g)), mine.flatMap (·.writes), mine.foldl (fun f e => f ||| e.flags) 0, none,
    ((rs.find? (fun e => decide (e.grp > g))).map (·.idx)).getD n⟩

theorem vlanding_uncut {n ic : Nat} {fault : Bool} {rs : List VRes} (hu : fault = true → ∀ e ∈ rs, e.unw = []) :
    vlanding i v n ic 0 0 fault rs = ((if vsingle i then [vgroups (vkind i) v n - 1] else List.range (vgroups (vkind i) v n)).map
      (uncutGroup n (vlat i) ic rs)).filter (fun g => decide (g.cur > 0)) := by
  have hcut : (if fault = true then rs.find? (fun e => decide (e.idx ≥ 0) && !e.unw.isEmpty) else none) = none := by
    split
    · rw [List.find?_eq_none]
      intro e he
      simp [hu ‹_› e he]
    · rfl
  unfold vlanding
  dsimp only
  rw [hcut]
  dsimp only
  rw [List.filter_eq_self.2 (fun _ _ => rfl)]
  simp only [ge_iff_le, Nat.zero_le, decide_true, Bool.and_true, Option.isSome_none, Bool.or_false, Nat.sub_zero, List.filter_map, Function.comp_def,
    uncutGroup]
  rfl

/-! ### Reductions, R180 -/

/-- The result of a reduction. -/
def foldRes (s : State) (c : Nat) (i : Instr) (v : VWord) : VRes :=
  let l := LayoutOf s c i v
  let b := l.b.getD l.a
  let js := List.range (CountOf s c v)
  let g := vgroups (vkind i) v (CountOf s c v) - 1
  let r := reduceE i v (ModeOf s c v) (sstFtz (s.str c .c).sst) (DrawsOf s c i v).2 (js.map (l.a.get (s.core c)))
    (if vkind i = .dot then js.map (b.get (s.core c)) else [])
  ⟨0, g, g, [(l.d.x0, leBytes l.d.z r.1)], r.2,
    js.flatMap (l.a.unw (s.core c)) ++ (if vkind i = .dot then js.flatMap (b.unw (s.core c)) else [])⟩

/-- How a reduction lays out its operands, and how long it takes. -/
structure FoldShape (i : Instr) (v : VWord) : Prop where
  kind  : vkind i = .red ∨ vkind i = .dot
  dot   : vkind i = .dot ↔ i = .vdot v
  lat   : vlat i = 12

theorem Folding.shape {i : Instr} {v : VWord} (h : Folding i v) : FoldShape i v := by
  rcases h with rfl | rfl | rfl | rfl
  all_goals exact ⟨by simp [vkind], by simp [vkind], rfl⟩

theorem FoldShape.results (h : FoldShape i v) : resultsOf s c i v = [foldRes s c i v] := by
  unfold resultsOf vresults foldRes
  rcases h.kind with e | e <;> simp only [e] <;> rfl

theorem FoldShape.written (h : FoldShape i v) (hf : OperandsFit s c i v) (hm : (s.ctx c).scrmode = 2) : (foldRes s c i v).unw = [] := by
  have ha : ∀ j < CountOf s c v, (LayoutOf s c i v).a.unw (s.core c) j = [] := fun j hj => by
    refine hf.written_first hm ?_
    rcases h.kind with e | e <;> simpa [LayoutOf, vlay, e, varr] using hj
  have hb : vkind i = .dot → ∀ j < CountOf s c v, ((LayoutOf s c i v).b.getD (LayoutOf s c i v).a).unw (s.core c) j = [] := fun e j hj => by
    refine hf.written_second hm (by simp [LayoutOf, vlay, e]) ?_
    simpa [LayoutOf, vlay, e, varr] using hj
  simp only [foldRes, List.append_eq_nil_iff, List.flatMap_eq_nil_iff, List.mem_range]
  refine ⟨ha, ?_⟩
  split
  · simpa using hb ‹_›
  · rfl

/-- A reduction lands its one result behind its last group. -/
theorem FoldShape.body (h : FoldShape i v) (hn : 0 < CountOf s c v) (hf : OperandsFit s c i v) : (vecStart s c i v).2.body =
    .vec [⟨LandsAt s c 12 (vgroups (vkind i) v (CountOf s c v) - 1), (foldRes s c i v).writes, (foldRes s c i v).flags, none, CountOf s c v⟩] := by
  have hs : vsingle i = true := by rcases h.kind with e | e <;> simp [vsingle, e]
  have hdue (g : Nat) : max 1 ((s.str c .c).ic + (12 + g)) = (s.str c .c).ic + 12 + g := by omega
  rw [vecStart_body, h.results, vlanding_uncut (fun hm e he => by rw [List.mem_singleton.1 he]; exact h.written hf (of_decide_eq_true hm)), hs, h.lat]
  have hg : (foldRes s c i v).grp = vgroups (vkind i) v (CountOf s c v) - 1 := rfl
  simp [uncutGroup, hg, hn, hdue, LandsAt]

theorem Folding.lands (h : Folding i v) (hn : 0 < CountOf s c v) (hf : OperandsFit s c i v) :
    let n := CountOf s c v
    let l := LayoutOf s c i v
    let e := reduceE i v (ModeOf s c v) ((s.str c .c).sst.getLsbD 3) (DrawsOf s c i v).2 ((List.range n).map (SampleOf s c l.a))
      (if i = .vdot v then (List.range n).map (SampleOf s c (l.b.getD l.a)) else [])
    ∃ q, (vecStart s c i v).2.body = .vec [q] ∧ q.at' = LandsAt s c 12 ((n + vgroup (vkind i) v - 1) / vgroup (vkind i) v - 1) ∧ q.fault = none ∧
      q.writes = [(l.d.x0, leBytes l.d.z e.1)] ∧ q.flags = e.2 := by
  have hdot := h.shape.dot
  refine ⟨_, h.shape.body hn hf, rfl, rfl, ?_, ?_⟩ <;>
  · simp only [foldRes, hdot, funext (VArr.get_eq_sampleOf s c _)]
    rfl

/-! ### Words that arrange elements, R181 and R182 -/

/-- The granules never written that element `j` of vperm, of viota and of vmxunpack depends on. -/
def permUnw (l : VLay) (x : Core) (n j : Nat) : List Nat :=
  let b := l.b.getD l.a
  b.unw x j ++ if b.get x j < n then l.a.unw x (b.get x j) else []
def iotaUnw (l : VLay) (x : Core) : List Nat := l.a.unw x 0 ++ (l.b.getD l.a).unw x 0
def unpackUnw (l : VLay) (x : Core) (w j : Nat) : List Nat := packedUnw l.a x w (j / 32) (j % 32) ++ (l.b.getD l.a).unw x (j / 32)

theorem vperm_lands (hn : 0 < CountOf s c v) (hf : OperandsFit s c (.vperm v) v) :
    let l := LayoutOf s c (.vperm v) v
    let b := l.b.getD l.a
    LandsElements s c (.vperm v) v 6 (fun j => (if SampleOf s c b j < CountOf s c v then SampleOf s c l.a (SampleOf s c b j) else 0, 0))
      (vecStart s c (.vperm v) v).2 := by
  refine landsElements_of_results (unw := permUnw (LayoutOf s c (.vperm v) v) (s.core c) (CountOf s c v)) rfl rfl hn (fun hm j hj => ?_) ?_
  · rw [permUnw, hf.written_second hm rfl hj, List.nil_append]
    split
    · exact hf.written_first hm ‹_›
    · rfl
  · simp only [← VArr.get_eq_sampleOf]
    rfl

theorem viota_lands (hn : 0 < CountOf s c v) (hf : OperandsFit s c (.viota v) v) :
    let l := LayoutOf s c (.viota v) v
    LandsElements s c (.viota v) v 6 (fun j => iotaE v.et.toNat (ModeOf s c v) ((DrawsOf s c (.viota v) v).2.getD j 0)
      ((s.str c .c).sst.getLsbD 3) (SampleOf s c l.a 0) (SampleOf s c (l.b.getD l.a) 0) j) (vecStart s c (.viota v) v).2 := by
  refine landsElements_of_results (unw := fun _ => iotaUnw (LayoutOf s c (.viota v) v) (s.core c)) rfl rfl hn (fun hm _ _ => ?_) ?_
  · rw [iotaUnw, hf.written_first hm Nat.one_pos, hf.written_second hm rfl Nat.one_pos]
    rfl
  · simp only [← VArr.get_eq_sampleOf]
    rfl

/-! ### Packed elements, R59 and R182 -/

theorem mem_granules_iff {x n g : Nat} : g ∈ granules x n ↔ ∃ j < n, (x + j) / 16 = g := by
  rw [granules]
  split
  · subst n; simp
  · simp only [List.mem_map, List.mem_range]
    constructor
    · rintro ⟨k, hk, rfl⟩
      exact ⟨16 * (x / 16 + k) - x, by omega, by omega⟩
    · rintro ⟨j, hj, rfl⟩
      exact ⟨(x + j) / 16 - x / 16, by omega, by omega⟩

/-- Bytes are written if each byte is. -/
theorem Core.unwritten_eq_nil {t : Core} {x n : Nat} (h : ∀ j < n, t.unwritten (x + j) 1 = []) : t.unwritten x n = [] := by
  rw [unwritten, List.filter_eq_nil_iff]
  intro g hg
  obtain ⟨j, hj, hjg⟩ := mem_granules_iff.1 hg
  have hb := h j hj
  rw [unwritten, List.filter_eq_nil_iff] at hb
  exact hb g (mem_granules_iff.2 ⟨0, Nat.one_pos, hjg⟩)

theorem mxfW_pos (x : BitVec 5) : 0 < mxfW x := by
  unfold mxfW
  split <;> decide

/-- The bytes under a packed element lie in its block. -/
theorem packedUnw_eq_nil {o : VArr} {t : Core} {w n j : Nat} (hw : 0 < w) (hst : o.st = 1) (hz : o.z = 1) (hm : o.m = n * w / 8) (hn : n % 32 = 0)
    (hj : j < n) (h : ∀ k < o.m, o.unw t k = []) : packedUnw o t w (j / 32) (j % 32) = [] := by
  refine Core.unwritten_eq_nil fun k hk => ?_
  have hbyte : 4 * w * (j / 32) + w * (j % 32) / 8 + k < o.m := by
    obtain ⟨b, rfl⟩ := Nat.dvd_of_mod_eq_zero hn
    have hlast : w * (j % 32) + w ≤ w * 32 := by rw [← Nat.mul_succ]; exact Nat.mul_le_mul_left w (by omega)
    have hblock : 4 * w * (j / 32) + 4 * w ≤ 4 * w * b := by rw [← Nat.mul_succ]; exact Nat.mul_le_mul_left (4 * w) (by omega)
    have hbytes : 32 * b * w / 8 = 4 * w * b := by rw [show 32 * b * w = 4 * w * b * 8 by ring, Nat.mul_div_cancel _ (by norm_num)]
    omega
  have := h _ hbyte
  rw [VArr.unw, hz, VArr.at', hst, mul_one] at this
  rw [← this]
  congr 1
  omega

theorem vmxunpack_lands (r : VectorReady s c (.vmxunpack v) v) (hn : 0 < CountOf s c v) (hf : OperandsFit s c (.vmxunpack v) v) :
    let l := LayoutOf s c (.vmxunpack v) v
    let w := mxfW v.a.str
    LandsElements s c (.vmxunpack v) v 6 (fun j => unpackE v.et.toNat w (mxfF v.a.str) (mxfSigned v.a.str) (ModeOf s c v)
      ((DrawsOf s c (.vmxunpack v) v).2.getD j 0) ((s.str c .c).sst.getLsbD 3)
      (NumberOf ((s.core c).scrRead .c (l.a.x0 + 4 * w * (j / 32)) (4 * w)) / 2 ^ (w * (j % 32)) % 2 ^ w) (SampleOf s c (l.b.getD l.a) (j / 32)))
      (vecStart s c (.vmxunpack v) v).2 := by
  have hb : CountOf s c v % 32 = 0 := r.blocks (.inr rfl)
  refine landsElements_of_results (unw := unpackUnw (LayoutOf s c (.vmxunpack v) v) (s.core c) (mxfW v.a.str)) rfl rfl hn (fun hm j hj => ?_) ?_
  · rw [unpackUnw, packedUnw_eq_nil (mxfW_pos _) rfl rfl rfl hb hj fun k hk => hf.written_first hm hk,
      hf.written_second hm rfl (show j / 32 < CountOf s c v / 32 by omega)]
    rfl
  · simp only [← VArr.get_eq_sampleOf, numberOf_eq_leNat]
    rfl

/-- One block of vmxpack: its packed codes and then its scale. -/
def packRes (s : State) (c : Nat) (v : VWord) (q : Nat) : VRes :=
  let i : Instr := .vmxpack v
  let l := LayoutOf s c i v
  let w := mxfW v.d.str
  let gs := vgroup .pack v
  let rs := (DrawsOf s c i v).2
  let js := (List.range 32).map (32 * q + ·)
  let vs := js.map (fun j => rdF v.et.toNat (sstFtz (s.str c .c).sst) (l.a.get (s.core c) j))
  let p := mxScale w (mxfF v.d.str) (mxfSigned v.d.str) (ModeOf s c v) (vs.map Prod.fst) (if rs.isEmpty then [] else js.map (fun j => rs.getD j 0))
  ⟨32 * q, (32 * q + 31) / gs, 32 * q / gs,
    [(l.d.x0 + 4 * w * q, leBytes (4 * w) (packBits w p.2.1)), (((l.b.getD l.a).at' q).toNat, leBytes 1 p.1)],
    flIf (vs.any Prod.snd) flNV ||| flIf p.2.2 flNX, js.flatMap (l.a.unw (s.core c))⟩

theorem vmxpack_results (s : State) (c : Nat) (v : VWord) : resultsOf s c (.vmxpack v) v = (List.range (CountOf s c v / 32)).map (packRes s c v) := rfl

/-- Numbers in the order of their groups are the numbers in order. -/
theorem flatMap_filter_range {f : Nat → Nat} (hf : Monotone f) {m k : Nat} (h : ∀ q < m, f q < k) :
    (List.range k).flatMap (fun g => (List.range m).filter (fun q => f q == g)) = List.range m := by
  refine List.Pairwise.eq_of_mem_iff (r := (· < ·)) ?_ List.pairwise_lt_range fun q => ?_
  · rw [List.pairwise_flatMap]
    refine ⟨fun g _ => List.pairwise_lt_range.filter _, List.pairwise_lt_range.imp fun {g g'} hg q hq q' hq' => ?_⟩
    simp only [List.mem_filter, beq_iff_eq] at hq hq'
    exact hf.reflect_lt (by rw [hq.2, hq'.2]; exact hg)
  · simp only [List.mem_flatMap, List.mem_filter, List.mem_range, beq_iff_eq]
    exact ⟨fun ⟨_, _, hq, _⟩ => hq, fun hq => ⟨f q, h q hq, hq, rfl⟩⟩

theorem flatMap_filter_of_nil {α β : Type} {p : α → Bool} {f : α → List β} : ∀ {l : List α}, (∀ x ∈ l, p x = false → f x = []) →
    (l.filter p).flatMap f = l.flatMap f
  | [], _ => rfl
  | x :: xs, h => by
    have ih := flatMap_filter_of_nil fun y hy => h y (List.mem_cons_of_mem _ hy)
    cases hx : p x with
    | true => rw [List.filter_cons_of_pos hx, List.flatMap_cons, List.flatMap_cons, ih]
    | false => rw [List.filter_cons_of_neg (by simp [hx]), List.flatMap_cons, h x List.mem_cons_self hx, ih, List.nil_append]

/-- Blocks in the order of their groups make all their writes, the words of a group that no block ends in making none. -/
theorem vlanding_of_blocks {m n ic : Nat} {fault : Bool} {res : Nat → VRes} (hs : vsingle i = false) (hn : 0 < n)
    (hidx : ∀ q, (res q).idx = 32 * q) (hgrp : Monotone fun q => (res q).grp) (hlt : ∀ q < m, (res q).grp < vgroups (vkind i) v n)
    (hu : fault = true → ∀ q < m, (res q).unw = []) :
    (∀ g ∈ vlanding i v n ic 0 0 fault ((List.range m).map res), g.fault = none) ∧
      (vlanding i v n ic 0 0 fault ((List.range m).map res)).flatMap (·.writes) = (List.range m).flatMap (fun q => (res q).writes) := by
  rw [vlanding_uncut (fun hf e he => by obtain ⟨q, hq, rfl⟩ := List.mem_map.1 he; exact hu hf q (List.mem_range.1 hq)), hs]
  constructor
  · intro g hg
    obtain ⟨k, -, rfl⟩ := List.mem_map.1 (List.mem_filter.1 hg).1
    rfl
  · have hdropped : ∀ k, (uncutGroup n (vlat i) ic ((List.range m).map res) k).cur = 0 →
        (uncutGroup n (vlat i) ic ((List.range m).map res) k).writes = [] := fun k hk => by
      have hnext : (((List.range m).find? (fun q => decide ((res q).grp > k))).map (fun q => 32 * q)).getD n = 0 := by
        simpa only [uncutGroup, List.find?_map, Option.map_map, Function.comp_def, hidx] using hk
      cases hq : (List.range m).find? (fun q => decide ((res q).grp > k)) with
      | none => rw [hq] at hnext; exact absurd hnext hn.ne'
      | some q =>
        have hq0 : q = 0 := by simpa [hq] using hnext
        have hk0 : k < (res 0).grp := by simpa [hq0] using List.find?_some hq
        simp only [uncutGroup, List.filter_map, List.flatMap_map]
        rw [List.filter_eq_nil_iff.2, List.flatMap_nil]
        intro p _
        simpa using (hk0.trans_le (hgrp (Nat.zero_le p))).ne'
    rw [flatMap_filter_of_nil, if_neg Bool.false_ne_true, List.flatMap_map]
    · simp only [uncutGroup, List.filter_map, List.flatMap_map]
      rw [← List.flatMap_assoc]
      exact congrArg (List.flatMap _) (flatMap_filter_range hgrp hlt)
    · intro g hg hcur
      obtain ⟨k, -, rfl⟩ := List.mem_map.1 hg
      exact hdropped k (by simpa using hcur)

theorem vmxpack_lands (r : VectorReady s c (.vmxpack v) v) (hn : 0 < CountOf s c v) (hf : OperandsFit s c (.vmxpack v) v) :
    ∃ gs, (vecStart s c (.vmxpack v) v).2.body = .vec gs ∧ (∀ g ∈ gs, g.fault = none) ∧
      gs.flatMap (·.writes) = (List.range (CountOf s c v / 32)).flatMap (fun q => (packRes s c v q).writes) := by
  have hb : CountOf s c v % 32 = 0 := r.blocks (.inl rfl)
  have hgs : 0 < vgroup .pack v := by unfold vgroup; dsimp only; split <;> decide
  have hbody := vecStart_body s c (.vmxpack v) v
  rw [vmxpack_results] at hbody
  refine ⟨_, hbody, vlanding_of_blocks rfl hn (fun _ => rfl) (fun p q hpq => Nat.div_le_div_right (by omega)) (fun q hq => ?_) fun hm q hq => ?_⟩
  · show (32 * q + 31) / vgroup .pack v < (CountOf s c v + vgroup .pack v - 1) / vgroup .pack v
    rw [show CountOf s c v + vgroup .pack v - 1 = CountOf s c v - 1 + vgroup .pack v by omega, Nat.add_div_right _ hgs]
    exact Nat.lt_succ_of_le (Nat.div_le_div_right (by omega))
  · simp only [packRes, List.flatMap_eq_nil_iff, List.mem_map, List.mem_range, forall_exists_index, and_imp]
    rintro _ j hj rfl
    exact hf.written_first (of_decide_eq_true hm) (show 32 * q + j < CountOf s c v by omega)

theorem packRes_writes (s : State) (c : Nat) (v : VWord) (q : Nat) : (packRes s c v q).writes =
    let l := LayoutOf s c (.vmxpack v) v
    let w := mxfW v.d.str
    let rs := (DrawsOf s c (.vmxpack v) v).2
    let xs := (List.range 32).map (fun j => (readF (fmtOf v.et.toNat) ((s.str c .c).sst.getLsbD 3) (SampleOf s c l.a (32 * q + j))).1)
    let p := mxScale w (mxfF v.d.str) (mxfSigned v.d.str) (ModeOf s c v) xs (if rs = [] then [] else (List.range 32).map (fun j => rs.getD (32 * q + j) 0))
    [(l.d.x0 + 4 * w * q, leBytes (4 * w) (p.2.1.foldr (fun a m => a + m * 2 ^ w) 0)), (((l.b.getD l.a).at' q).toNat, leBytes 1 p.1)] := by
  simp only [packRes, List.map_map, Function.comp_def, VArr.get_eq_sampleOf, List.isEmpty_iff]
  rfl

/-! ### vseed, R183 -/

theorem vseed_fits :
    Fits { y := v.n.y, t := v.n.t, who := 4, reads := [v.a.base, v.b.base] } s c .c (.vseed v) v.n [.c] [v.a.base, v.b.base] [] where
  assigned _ _ := Instr.noConfusion
  y := rfl
  t := rfl
  who _ := by show (4 : BitVec 4).getLsbD 2 = true; decide
  sys _ := rfl
  reads := rfl
  dst := rfl
  il hx := by simp at hx
  gm hx := by simp at hx
  recs hx := by simp at hx
  room := .inl ⟨rfl, rfl⟩
  nh hx := by simp at hx
  oh hx := by simp at hx
  feat _ he := by simp at he
  late := rfl

theorem seedV_eq (a b : Word) : seedV a b = if a ^^^ Wrap64 (b.toNat * 0x9E3779B97F4A7C15) = 0 then 1 else a ^^^ Wrap64 (b.toNat * 0x9E3779B97F4A7C15) := by
  have e : b * 0x9E3779B97F4A7C15#64 = Wrap64 (b.toNat * 0x9E3779B97F4A7C15) := by
    rw [Wrap64, BitVec.ofInt_mul, BitVec.ofInt_natCast, BitVec.ofNat_toNat, BitVec.setWidth_eq]
    rfl
  rw [seedV, e]

theorem vseed_waits (hr : Ready s c .c (.vseed v) v.n [.c] [v.a.base, v.b.base] []) (hd : (s.core c).drawing = true) : Waits (.vseed v) s c := by
  rw [Waits, show exec (.vseed v) s = execVseed v s from rfl, execVseed, hr.meets vseed_fits, hd]
  rfl

theorem vseed_leaves (hr : Ready s c .c (.vseed v) v.n [.c] [v.a.base, v.b.base] []) (hd : (s.core c).drawing = false) :
    Leaves (.vseed v) v.n s c .c { s.str c .c with sgn := seedV (s.rd c .c v.a.base) (s.rd c .c v.b.base) } (s.core c) (s.ctx c) := by
  refine hr.leaves vseed_fits (if_neg (by rw [hd]; exact Bool.false_ne_true)) rfl (State.str_mapStr_self s c .c _) rfl (fun _ => rfl) rfl
    (fun j hj => State.str_mapStr_ne s c _ hj) ?_ ?_ ?_ ?_ (fun e he => State.core_mapStr_ne s _ _ he) (State.portRead_mapStr s c .c _) (.mapStr s c .c _)
  · rw [State.core_mapStr_self, Core.mapStr_took]
  · rw [State.core_mapStr_self, Core.mapStr_nord]
  · rw [State.core_mapStr_self]; exact Core.mapStr_units _ _ _
  · rw [State.ctx_mapStr]; exact .refl _

end

end Sys2Proof.Machine
end

section

open Sys2Proof Sys2Proof.Machine

/-- Settles O33: `FoldFacts.starts` issues the word, and the rules of its landing give what it lands; vseed by `vseed_waits` and `vseed_leaves`. -/
theorem foldingArrangingAndSeedWordsFollowR180 : Obligations.FoldingArrangingAndSeedWordsFollowR180 := by
  refine ⟨fun s c i v r hn hf => ⟨fun h => ?_, ?_, ?_, ?_, ?_⟩, fun s c v hr => ⟨vseed_waits hr, fun hd => ?_⟩⟩
  · exact h.facts.starts r hn hf (h.lands hn hf)
  · rintro rfl
    exact (Arranging.facts (.inl rfl)).starts r hn hf (vperm_lands hn hf)
  · rintro rfl
    exact (Arranging.facts (.inr (.inl rfl))).starts r hn hf (viota_lands hn hf)
  · rintro rfl
    exact (Arranging.facts (.inr (.inr (.inr rfl)))).starts r hn hf (vmxunpack_lands r hn hf)
  · rintro rfl
    have hl := vmxpack_lands r hn hf
    rw [funext (packRes_writes s c v)] at hl
    exact (Arranging.facts (.inr (.inr (.inl rfl)))).starts r hn hf hl
  · have hl := vseed_leaves hr hd
    rw [seedV_eq] at hl
    exact hl

end

section
/-!
SUPPORT. The issue of a scalar word (spec/04): one lemma for each shape of its rule, for every word of that shape.
-/

namespace Sys2Proof.Machine

/-! ### What the checks before a word need to know of a scalar word -/

/-- A word that decodes to something and that no strand is kept from. -/
structure ForEveryStrand (i : Instr) : Prop where
  assigned     : Assigned i
  unrestricted : sysRestricted i = false

variable {s : State} {c : Nat} {k : StrandIx} {n : Ann} {d : Reg} {rs ds : List Reg} {il recs : Bool} {i : Instr}

/-- A scalar word meets the checks before its own rule; what it asks for is room for its record and a destination that is not in flight. -/
theorem fits_scalar (hi : ForEveryStrand i := by exact ⟨fun _ _ => Instr.noConfusion, rfl⟩)
    (hil : il = true → ∀ r ∈ ds, (s.core c).flying k r = false := by exact Bool.noConfusion)
    (hr : recs = true → (s.core c).records < 64 := by exact Bool.noConfusion) :
    Fits { y := n.y, t := n.t, reads := rs, dst := ds, il := il, recs := recs } s c k i n allStr rs ds where
  assigned := hi.assigned
  y := rfl
  t := rfl
  who _ := by
    show (15 : BitVec 4).getLsbD (ixOf k) = true
    cases k <;> decide
  sys _ := hi.unrestricted
  reads := rfl
  dst := rfl
  il := hil
  gm h := Bool.noConfusion h
  recs := hr
  room := .inl ⟨rfl, rfl⟩
  nh h := Bool.noConfusion h
  oh h := Bool.noConfusion h
  feat e he := by cases he
  late := rfl

/-! ### The shapes of rules -/

/-- A word whose rule writes one register of what its strand reads. -/
theorem Ready.computes {v : (Reg → Word) → Word} {w : Word} (h : Ready s c k i n allStr rs [d])
    (he : exec i s = issue i (regInfo n d rs) (aluBody d v) s) (hv : v (s.rd c k) = w)
    (hi : ForEveryStrand i := by exact ⟨fun _ _ => Instr.noConfusion, rfl⟩) : WritesReg i n s c k d w :=
  hv ▸ h.writesReg (f := regInfo n d rs) (fits_scalar hi) rfl he

/-- A word that computes of ga and gb. -/
theorem writesOf {i : Ann → Reg → Reg → Reg → Instr} (v : Word → Word → Word) {w : Word → Word → Word} (hv : ∀ x y, v x y = w x y)
    (he : ∀ n d a b s, exec (i n d a b) s = issue (i n d a b) (regInfo n d [a, b]) (aluBody d fun r => v (r a) (r b)) s := by exact fun _ _ _ _ _ => rfl)
    (hi : ∀ n d a b, ForEveryStrand (i n d a b) := by exact fun _ _ _ _ => ⟨fun _ _ => Instr.noConfusion, rfl⟩) : WritesOf i w :=
  fun _ _ _ n d a b h => h.computes (he n d a b _) (hv _ _) (hi n d a b)

/-- A word that computes of its old gd, ga and gb. -/
theorem writesOfOld {i : Ann → Reg → Reg → Reg → Instr} (v : Word → Word → Word → Word) {w : Word → Word → Word → Word}
    (hv : ∀ o x y, v o x y = w o x y)
    (he : ∀ n d a b s, exec (i n d a b) s = issue (i n d a b) (regInfo n d [d, a, b]) (aluBody d fun r => v (r d) (r a) (r b)) s := by
      exact fun _ _ _ _ _ => rfl)
    (hi : ∀ n d a b, ForEveryStrand (i n d a b) := by exact fun _ _ _ _ => ⟨fun _ _ => Instr.noConfusion, rfl⟩) : WritesOfOld i w :=
  fun _ _ _ n d a b h => h.computes (he n d a b _) (hv _ _ _) (hi n d a b)

/-- A word that computes of ga. -/
theorem writesOfOne {i : Ann → Reg → Reg → Instr} (v : Word → Word) {w : Word → Word} (hv : ∀ x, v x = w x)
    (he : ∀ n d a s, exec (i n d a) s = issue (i n d a) (regInfo n d [a]) (aluBody d fun r => v (r a)) s := by exact fun _ _ _ _ => rfl)
    (hi : ∀ n d a, ForEveryStrand (i n d a) := by exact fun _ _ _ => ⟨fun _ _ => Instr.noConfusion, rfl⟩) : WritesOfOne i w :=
  fun _ _ _ n d a h => h.computes (he n d a _) (hv _) (hi n d a)

/-- A word whose product lands with latency 3. -/
theorem landsInThree {i : Ann → Reg → Reg → Reg → Instr} (v : Word → Word → Word) {w : Word → Word → Word} (hv : ∀ x y, v x y = w x y)
    (he : ∀ n d a b s, exec (i n d a b) s = issue (i n d a b) { regInfo n d [a, b] with recs := true } (mulBody (i n d a b) d a b v) s := by
      exact fun _ _ _ _ _ => rfl)
    (hi : ∀ n d a b, ForEveryStrand (i n d a b) := by exact fun _ _ _ _ => ⟨fun _ _ => Instr.noConfusion, rfl⟩) : LandsInThree i w :=
  fun s c k n d a b h hr => by
    have hf : Fits { regInfo n d [a, b] with recs := true } s c k (i n d a b) n allStr [a, b] [d] :=
      fits_scalar (hi n d a b) Bool.noConfusion fun _ => hr
    rw [← hv]
    exact h.startsOp hf rfl (he n d a b s) rfl

end Sys2Proof.Machine
end

section
/-!
SUPPORT. The values of the arithmetic words (spec/04 R82 to R84): each operation on words is its integer operation, wrapped (spec/03 R51).
-/

namespace Sys2Proof.Machine

/-! ### Operations on bit vectors of any width -/

section
variable {m : Nat} (x y : BitVec m) (n : Nat)

theorem ofInt_toNat : BitVec.ofInt m x.toNat = x := by rw [BitVec.ofInt_natCast, BitVec.ofNat_toNat, BitVec.setWidth_eq]

theorem ofInt_add_toNat : BitVec.ofInt m (x.toNat + y.toNat) = x + y := by rw [BitVec.ofInt_add, ofInt_toNat, ofInt_toNat]

theorem ofInt_sub_toNat : BitVec.ofInt m (x.toNat - y.toNat) = x - y := by
  rw [Int.sub_eq_add_neg, BitVec.ofInt_add, BitVec.ofInt_neg, ofInt_toNat, ofInt_toNat, BitVec.sub_eq_add_neg]

theorem ofInt_mul_toNat : BitVec.ofInt m (x.toNat * y.toNat) = x * y := by rw [BitVec.ofInt_mul, ofInt_toNat, ofInt_toNat]

theorem ofInt_shiftLeft : BitVec.ofInt m (x.toNat * 2 ^ n) = x <<< n := by
  rw [BitVec.ofInt_mul, ofInt_toNat, BitVec.shiftLeft_eq_mul_twoPow, ← Nat.cast_ofNat, ← Nat.cast_pow, BitVec.ofInt_natCast]
  exact congrArg (x * ·) (BitVec.eq_of_toNat_eq (by rw [BitVec.toNat_ofNat, BitVec.toNat_twoPow]))

theorem ofInt_ushiftRight : BitVec.ofInt m (x.toNat / 2 ^ n : Nat) = x >>> n := by
  rw [BitVec.ofInt_natCast, ← Nat.shiftRight_eq_div_pow, ← BitVec.toNat_ushiftRight, BitVec.ofNat_toNat, BitVec.setWidth_eq]

theorem ofInt_sshiftRight : BitVec.ofInt m (x.toInt / 2 ^ n) = x.sshiftRight n := by
  rw [BitVec.sshiftRight, Int.shiftRight_eq_div_pow, Nat.cast_pow, Nat.cast_ofNat]

end

/-! ### The two forms of a word -/

theorem lo32_eq (a : Word) : lo32 a = a.setWidth 32 := (BitVec.setWidth_eq_extractLsb' (by decide)).symm

/-- Both forms of a word that wraps an integer: over all bits, or over the low halves with the sign extended. -/
theorem byWidth_ofInt (w : Bool) (f h : Int) : byWidth w (BitVec.ofInt 64 f) (BitVec.ofInt 32 h) = if w then Sx32 h else Wrap64 f := rfl

theorem addV_eq (w : Bool) (a b : Word) :
    addV w a b = if w then Sx32 ((a.setWidth 32).toNat + (b.setWidth 32).toNat) else Wrap64 (a.toNat + b.toNat) := by
  rw [addV, lo32_eq, lo32_eq, ← ofInt_add_toNat, ← ofInt_add_toNat, byWidth_ofInt]

theorem subV_eq (w : Bool) (a b : Word) :
    subV w a b = if w then Sx32 ((a.setWidth 32).toNat - (b.setWidth 32).toNat) else Wrap64 (a.toNat - b.toNat) := by
  rw [subV, lo32_eq, lo32_eq, ← ofInt_sub_toNat, ← ofInt_sub_toNat, byWidth_ofInt]

theorem mulV_eq (w : Bool) (a b : Word) :
    mulV w a b = if w then Sx32 ((a.setWidth 32).toNat * (b.setWidth 32).toNat) else Wrap64 (a.toNat * b.toNat) := by
  rw [mulV, lo32_eq, lo32_eq, ← ofInt_mul_toNat, ← ofInt_mul_toNat, byWidth_ofInt]

theorem andV_eq (w : Bool) (a b : Word) : andV w a b = if w then (a.setWidth 32 &&& b.setWidth 32).signExtend 64 else a &&& b := by
  rw [andV, lo32_eq, lo32_eq, byWidth]

theorem orV_eq (w : Bool) (a b : Word) : orV w a b = if w then (a.setWidth 32 ||| b.setWidth 32).signExtend 64 else a ||| b := by
  rw [orV, lo32_eq, lo32_eq, byWidth]

theorem xorV_eq (w : Bool) (a b : Word) : xorV w a b = if w then (a.setWidth 32 ^^^ b.setWidth 32).signExtend 64 else a ^^^ b := by
  rw [xorV, lo32_eq, lo32_eq, byWidth]

theorem shlV_eq (w : Bool) (a : Word) (n : Nat) :
    shlV w a n = if w then Sx32 ((a.setWidth 32).toNat * 2 ^ n) else Wrap64 (a.toNat * 2 ^ n) := by
  rw [shlV, lo32_eq, ← ofInt_shiftLeft, ← ofInt_shiftLeft, byWidth_ofInt]

theorem shrV_eq (w : Bool) (a : Word) (n : Nat) : shrV w a n =
    if w then Sx32 (((a.setWidth 32).toNat / 2 ^ n : Nat) : Int) else Wrap64 ((a.toNat / 2 ^ n : Nat) : Int) := by
  rw [shrV, lo32_eq, ← ofInt_ushiftRight, ← ofInt_ushiftRight, byWidth_ofInt]

theorem sraV_eq (w : Bool) (a : Word) (n : Nat) :
    sraV w a n = if w then Sx32 ((a.setWidth 32).toInt / 2 ^ n) else Wrap64 (a.toInt / 2 ^ n) := by
  rw [sraV, lo32_eq, ← ofInt_sshiftRight, ← ofInt_sshiftRight, byWidth_ofInt]

/-- The amount of a shift by a register: its low five or six bits. -/
theorem shamt_eq (w : Bool) (b : Word) : shamt w b = if w then (b.extractLsb' 0 5).toNat else (b.extractLsb' 0 6).toNat := by
  rw [BitVec.extractLsb'_toNat, BitVec.extractLsb'_toNat]; rfl

/-! ### Signed and unsigned operands -/

theorem mulhV_eq (u : Bool) (a b : Word) : mulhV u a b = Wrap64 (ByLetter u a * ByLetter u b / 2 ^ 64) := rfl

theorem minV_eq (u : Bool) (a b : Word) :
    minV u a b = Wrap64 (if ByLetter u a ≤ ByLetter u b then ByLetter u a else ByLetter u b) := congrArg Wrap64 (min_def ..)

theorem maxV_eq (u : Bool) (a b : Word) :
    maxV u a b = Wrap64 (if ByLetter u a ≤ ByLetter u b then ByLetter u b else ByLetter u a) := congrArg Wrap64 (max_def ..)

theorem sltV_eq (u : Bool) (a b : Word) : sltV u a b = if ByLetter u a < ByLetter u b then 1 else 0 := rfl

end Sys2Proof.Machine
end

section

open Sys2Proof Sys2Proof.Machine

/-- Settles O1: each word issues by its shape, `writesOf` or `landsInThree`, with the value its own lemma gives; a shift by a register is the shift
by the amount of `shamt_eq`. -/
theorem arithmeticWordsComputeByR82 : Obligations.ArithmeticWordsComputeByR82 := by
  refine ⟨fun w => writesOf _ (addV_eq w), fun w => writesOf _ (subV_eq w), fun w => writesOf _ (andV_eq w), fun w => writesOf _ (orV_eq w),
    fun w => writesOf _ (xorV_eq w), fun w => writesOf (fun x y => shlV w x (shamt w y)) fun a b => ?_,
    fun w => writesOf (fun x y => shrV w x (shamt w y)) fun a b => ?_, fun w => writesOf (fun x y => sraV w x (shamt w y)) fun a b => ?_,
    fun w => landsInThree _ (mulV_eq w)⟩
  · rw [shlV_eq, shamt_eq]; cases w <;> simp only [Bool.false_eq_true, if_true, if_false]
  · rw [shrV_eq, shamt_eq]; cases w <;> simp only [Bool.false_eq_true, if_true, if_false]
  · rw [sraV_eq, shamt_eq]; cases w <;> simp only [Bool.false_eq_true, if_true, if_false]

/-- Settles O2: each word issues by its shape, with the value its own lemma gives. -/
theorem mulhMinMaxSltComputeByR83 : Obligations.MulhMinMaxSltComputeByR83 :=
  ⟨fun u => landsInThree _ (mulhV_eq u), fun u => writesOf _ (minV_eq u), fun u => writesOf _ (maxV_eq u), fun u => writesOf _ (sltV_eq u)⟩

end

section
/-!
SUPPORT. The values of the words with an immediate or a constant (spec/04 R89 to R91), and the targets of transfers (R92, R93).
-/

namespace Sys2Proof.Machine

section
variable {m : Nat} (x : Word) (i : BitVec m)

/-- A signed immediate or distance added to a word. -/
theorem wrap64_add_toInt : Wrap64 (x.toNat + i.toInt) = x + i.signExtend 64 := by
  rw [Wrap64, BitVec.ofInt_add, ofInt_toNat]; rfl

/-- A distance in parcels of four bytes added to a word. -/
theorem wrap64_add_parcels (z : Int) : Wrap64 (x.toNat + 4 * z) = x + (BitVec.ofInt 64 z <<< 2) := by
  have four : BitVec.ofInt 64 4 = BitVec.twoPow 64 2 := by decide
  rw [Wrap64, BitVec.ofInt_add, BitVec.ofInt_mul, ofInt_toNat, four, BitVec.mul_comm, ← BitVec.shiftLeft_eq_mul_twoPow]

theorem offset_eq : offset x i = TargetOf x i := (wrap64_add_parcels x i.toInt).symm

/-- The end of a loop: its distance in parcels is unsigned. -/
theorem loopEnd_eq : x + (i.setWidth 64 <<< 2) = Wrap64 (x.toNat + 4 * i.toNat) := by
  rw [wrap64_add_parcels, BitVec.ofInt_natCast, BitVec.ofNat_toNat]

end

theorem addV_simm (a : Word) (i : BitVec 8) : addV false a (simm i) = Wrap64 (a.toNat + i.toInt) := (wrap64_add_toInt a i).symm

theorem sltV_simm (a : Word) (i : BitVec 8) : sltV false a (simm i) = if a.toInt < i.toInt then 1 else 0 := by
  have h : (simm i).toInt = i.toInt := BitVec.toInt_signExtend_of_le (by decide)
  rw [← h]; rfl

/-- lis shifts its register up by 13 bits and puts the immediate below. -/
theorem lisV_eq (old : Word) (i : BitVec 13) : lisV old i = Wrap64 (old.toNat * 2 ^ 13 + i.toNat) := by
  have disjoint : old <<< 13 &&& i.setWidth 64 = 0 := by
    ext j hj
    simp only [BitVec.getElem_and, BitVec.getElem_shiftLeft, BitVec.getElem_setWidth]
    by_cases h : j < 13
    · simp [h]
    · simp [BitVec.getLsbD_of_ge i j (by omega)]
  have low : BitVec.ofInt 64 i.toNat = i.setWidth 64 := by rw [BitVec.ofInt_natCast, BitVec.ofNat_toNat]
  rw [lisV, ← BitVec.add_eq_or_of_and_eq_zero _ _ disjoint, Wrap64, BitVec.ofInt_add, ofInt_shiftLeft, low]

/-! ### Targets -/

/-- The targets that a transfer refuses are those that R93 and R144 refuse. -/
theorem badTarget_iff (k : StrandIx) (t : Word) : badTarget k t = true ↔ ¬ GoodTarget k t := by
  rw [GoodTarget, ← parcelAligned_iff, ← canonical_iff, badTarget]
  cases parcelAligned t <;> cases canonical t <;> simp

end Sys2Proof.Machine
end

section
/-!
SUPPORT. Words without a result: nop, transfers and loop words (spec/04 R38, R92 to R97).
-/

namespace Sys2Proof.Machine

variable {s : State} {c : Nat} {k : StrandIx} {n : Ann} {rs ds : List Reg} {i : Instr} {f : Info} {body : Nat → StrandIx → State → Act}

/-- A ready word whose rule changes nothing only issues. -/
theorem Ready.onlyIssues (h : Ready s c k i n allStr rs ds) (hf : Fits f s c k i n allStr rs ds) (hb : body c k s = .go s .fall)
    (he : exec i s = issue i f body s) : LeavesCore i n s c k (s.core c) (s.ctx c) :=
  h.leavesCore hf hb he (fun _ => rfl) rfl rfl (.refl _) (.refl _) (fun _ _ => rfl) (fun _ => rfl) (.refl s)

/-! ### Transfers -/

/-- A word that goes to a target, having written at most one register; a target that is refused faults at it. -/
theorem Ready.transfers {x : Word} {w : Nat} {jr : Bool} (d : Option (Reg × Word)) (h : Ready s c k i n allStr rs ds)
    (hf : Fits f s c k i n allStr rs ds) (he : exec i s = issue i f body s)
    (hb : body c k s = if badTarget k x then .fault s 0x07 x else .go (s.putOpt c k d) (.jump x w jr)) :
    (GoodTarget k x → Jumps i n s c k x w d) ∧ (¬ GoodTarget k x → Raises i s c k 0x07 x) := by
  refine ⟨fun hg => ?_, fun hg => ?_⟩
  · exact h.jumps d hf (hb.trans (if_neg (mt (badTarget_iff k x).mp (not_not.mpr hg)))) he rfl
  · exact h.raises hf (hb.trans (if_pos ((badTarget_iff k x).mpr hg))) he

/-- A branch whose condition is the test. -/
theorem branchOf {i : Ann → Reg → BitVec 13 → Instr} (test : Word → Bool) {p : Word → Prop} (hp : ∀ v, test v = true ↔ p v)
    (he : ∀ n a o s, exec (i n a o) s = issue (i n a o) (branchInfo n a) (branchBody a o test) s := by exact fun _ _ _ _ => rfl)
    (hi : ∀ n a o, ForEveryStrand (i n a o) := by exact fun _ _ _ => ⟨fun _ _ => Instr.noConfusion, rfl⟩) : BranchOf i p := by
  intro s c k n a o h
  dsimp only
  rw [← hp, ← offset_eq]
  have hf : Fits (branchInfo n a) s c k (i n a o) n allStr [a] [] := fits_scalar (hi n a o)
  refine ⟨fun ht => h.onlyIssues hf (if_neg ht) (he n a o s), fun ht => ?_, fun ht => ?_⟩
  · exact (h.transfers none hf (he n a o s) (if_pos ht)).1
  · exact (h.transfers none hf (he n a o s) (if_pos ht)).2

theorem getLsbD_63_iff (v : Word) : v.getLsbD 63 = true ↔ v.toInt < 0 := by
  rw [show v.getLsbD 63 = v.msb from rfl, BitVec.msb_eq_toInt, decide_eq_true_eq]

theorem not_getLsbD_63_iff (v : Word) : (!v.getLsbD 63) = true ↔ 0 ≤ v.toInt := by
  rw [Bool.not_eq_true', ← Bool.not_eq_true, getLsbD_63_iff, Int.not_lt]

/-! ### Loops -/

/-- How a loop word with count `m` arms the loop of its strand. -/
def armBy (s : State) (c : Nat) (k : StrandIx) (lp : Bool) (e : BitVec 9) (m : Nat) (t : Strand) : Strand :=
  t.arm lp ((s.str c k).pc + 4) ((s.str c k).pc + (e.setWidth 64 <<< 2)) (BitVec.ofNat 32 m)

theorem armBy_eq (s : State) (c : Nat) (k : StrandIx) (lp : Bool) (e : BitVec 9) (m : Nat) :
    armBy s c k lp e m (s.str c k) = ArmedLoop (s.str c k) lp e m := by rw [armBy, loopEnd_eq]; rfl

/-- Arming a loop changes its loop registers alone. -/
theorem armBy_keeps (s : State) (c : Nat) (k : StrandIx) (lp : Bool) (e : BitVec 9) (m : Nat) (t : Strand) :
    (armBy s c k lp e m t).ic = t.ic ∧ (armBy s c k lp e m t).pend = t.pend ∧ ∀ r, (armBy s c k lp e m t).rd r = t.rd r := by
  cases lp <;> exact ⟨rfl, rfl, fun _ => rfl⟩

/-- A loop word arms its loop, then goes on by its count. -/
theorem loopBody_eq {lp : Bool} {e : BitVec 9} {count : (Reg → Word) → Nat} {m : Nat} (hm : count (s.rd c k) = m) :
    loopBody lp e count c k s = .go (s.mapStr c k (armBy s c k lp e m))
      (if m = 0 then .skip ((s.str c k).pc + (e.setWidth 64 <<< 2)) else .fall) := by subst hm; rfl

/-- A ready loop word arms its loop by its count, and falls into the body or skips it. -/
theorem Ready.loopsBy {lp : Bool} {e : BitVec 9} {count : (Reg → Word) → Nat} {m : Nat} (h : Ready s c k i n allStr rs ds)
    (hf : Fits f s c k i n allStr rs ds) (he : exec i s = issue i f (loopBody lp e count) s) (hm : count (s.rd c k) = m) :
    LoopsBy i n s c k lp e m := by
  have hb := loopBody_eq (lp := lp) (e := e) hm
  rw [LoopsBy, ← armBy_eq, ← loopEnd_eq]
  refine ⟨fun hp => ?falls, fun h0 => ?skips⟩
  case falls =>
    rw [if_neg (Nat.pos_iff_ne_zero.mp hp)] at hb
    obtain ⟨ic, pend, rd⟩ := armBy_keeps s c k lp e m (s.str c k)
    refine h.leaves hf hb he (State.str_mapStr_self s c k _) ic rd pend (fun j hj => State.str_mapStr_ne s c _ hj) ?_ ?_ ?_ ?_
      (fun e he => State.core_mapStr_ne s _ _ he) (s.portRead_mapStr c k _) (.mapStr s c k _)
    · rw [State.core_mapStr_self, Core.mapStr_took]
    · rw [State.core_mapStr_self, Core.mapStr_nord]
    · rw [State.core_mapStr_self]; exact Core.mapStr_units _ _ _
    · rw [State.ctx_mapStr]; exact .refl _
  case skips =>
    rw [if_pos h0] at hb
    exact h.skips hf hb he (armBy_keeps s c k lp e m)

/-! ### The end tests -/

/-- What lp1 leaves where it does not repeat: its loop ends where the address is its end. -/
def Strand.endsLp1 (t : Strand) (x : Word) : Strand := if t.lc1 ≠ 0 ∧ t.le1 = x then { t with lc1 := 0 } else t

/-- What the end test of lp0 leaves. -/
def Strand.testsLp0 (t : Strand) (x : Word) : Strand :=
  if t.lc0 ≠ 0 ∧ t.le0 = x ∧ 1 < t.lc0.toNat then { t with lc0 := t.lc0 - 1, pc := t.ls0 }
  else { t with lc0 := if t.lc0 ≠ 0 ∧ t.le0 = x then 0 else t.lc0, pc := x }

/-- The end tests are that of lp1, and where it does not repeat that of lp0. -/
theorem Strand.endTests_fst (t : Strand) (x : Word) : (t.endTests x).1 =
    if t.lc1 ≠ 0 ∧ t.le1 = x ∧ 1 < t.lc1.toNat then { t with lc1 := t.lc1 - 1, pc := t.ls1 } else (t.endsLp1 x).testsLp0 x := by
  simp only [Strand.endTests, Bool.and_eq_true, decide_eq_true_eq, and_assoc, gt_iff_lt]
  split
  next => rfl
  next =>
    rw [← Strand.endsLp1]
    generalize t.endsLp1 x = u
    rw [Strand.testsLp0]
    split
    next => rfl
    next => split <;> rfl

/-- The test of lp0 looks at nothing that the end of lp1 changes. -/
theorem Strand.endsLp1_lp0 (t : Strand) (x : Word) : (t.endsLp1 x).lc0 = t.lc0 ∧ (t.endsLp1 x).le0 = t.le0 ∧ (t.endsLp1 x).ls0 = t.ls0 := by
  rw [Strand.endsLp1]; split <;> exact ⟨rfl, rfl, rfl⟩

end Sys2Proof.Machine
end

section

open Sys2Proof Sys2Proof.Machine

/-- R89 to R91: each word by its shape, with the value of its register form for the immediate. -/
theorem Sys2Proof.Machine.immediateAndConstantWordsFollowR90AndR91 : ImmediateAndConstantWordsFollowR90AndR91 := by
  refine ⟨fun i => writesOfOne _ (addV_simm · i), fun i => writesOfOne (andV false · (simm i)) fun _ => rfl,
    fun i => writesOfOne (orV false · (uimm i)) fun _ => rfl, fun i => writesOfOne (xorV false · (uimm i)) fun _ => rfl,
    fun w h => writesOfOne _ (shlV_eq w · h.toNat), fun w h => writesOfOne _ (shrV_eq w · h.toNat), fun w h => writesOfOne _ (sraV_eq w · h.toNat),
    fun i => writesOfOne _ (sltV_simm · i), fun s c k n d i => ⟨fun h => ?_, fun h => ?_, fun h => ?_⟩⟩
  · exact h.computes (v := fun _ => liV i) rfl rfl
  · exact h.computes (v := fun r => lisV (r d) i) rfl (lisV_eq _ i)
  · have hf : Fits (regInfo n d []) s c k (.addpc n d i) n allStr [] [d] := fits_scalar
    exact h.writesReg hf (congrArg (fun v => Act.go (s.put c k d v) .fall) (offset_eq (s.str c k).pc i)) rfl

/-- R38: the rule of nop changes nothing. -/
theorem Sys2Proof.Machine.nopOnlyIssues : NopOnlyIssues := fun _ _ _ _ h => h.onlyIssues fits_scalar rfl rfl

/-- Settles O4: the words that write a register by their shapes, nop by its rule, which changes nothing. -/
theorem immediateConstantAndNopWordsFollowR90AndR91 : Obligations.ImmediateConstantAndNopWordsFollowR90AndR91 :=
  ⟨immediateAndConstantWordsFollowR90AndR91, nopOnlyIssues⟩

/-- R92 to R94: the jumps, with the link register where the word writes one. -/
theorem Sys2Proof.Machine.jumpsGoToTheirTargets : JumpsGoToTheirTargets := by
  refine fun s c k n => ⟨fun o h => ?_, fun o h => ?_, fun a h => ?_⟩
  · exact offset_eq (s.str c k).pc o ▸ h.transfers (x := offset (s.str c k).pc o) none fits_scalar rfl rfl
  · exact offset_eq (s.str c k).pc o ▸ h.transfers (x := offset (s.str c k).pc o) (some _) fits_scalar rfl rfl
  · exact h.transfers none fits_scalar rfl rfl

/-- R92: the conditions of the four branches. -/
theorem Sys2Proof.Machine.branchesTestTheirRegister : BranchesTestTheirRegister :=
  ⟨branchOf (· == 0) fun _ => beq_iff_eq, branchOf (· != 0) fun _ => bne_iff_ne, branchOf (·.getLsbD 63) getLsbD_63_iff,
    branchOf (!·.getLsbD 63) not_getLsbD_63_iff⟩

/-- Settles O6: each transfer by `Ready.transfers`, with the target of R92 and the check of R93 and R144. -/
theorem jumpsAndBranchesGoToTheirTargets : Obligations.JumpsAndBranchesGoToTheirTargets := ⟨jumpsGoToTheirTargets, branchesTestTheirRegister⟩

end

section

open Sys2Proof Sys2Proof.Machine

/-- R96: the count of loop is its register, at most 2^32 − 1; that of loopi stands in the word. -/
theorem Sys2Proof.Machine.loopWordsArmByR96 : LoopWordsArmByR96 := by
  refine fun s c k n lp e => ⟨fun a h => ?_, fun m h => ?_⟩
  · refine h.loopsBy (count := fun r => min (r a).toNat (2 ^ 32 - 1)) fits_scalar rfl ?_
    split <;> omega
  · exact h.loopsBy fits_scalar rfl rfl

/-- R97: the tests of lp1 and lp0 in their order. -/
theorem Sys2Proof.Machine.endTestsFollowR97 : EndTestsFollowR97 := by
  intro t x
  rw [Strand.endTests_fst]
  refine ⟨fun hr => if_pos hr, fun hn => ?_⟩
  rw [if_neg hn]
  show (_ → (t.endsLp1 x).testsLp0 x = { t.endsLp1 x with lc0 := t.lc0 - 1, pc := t.ls0 }) ∧
    (_ → (t.endsLp1 x).testsLp0 x = { t.endsLp1 x with lc0 := if t.lc0 ≠ 0 ∧ t.le0 = x then 0 else t.lc0, pc := x })
  obtain ⟨lc0, le0, ls0⟩ := t.endsLp1_lp0 x
  rw [← lc0, ← le0, ← ls0]
  exact ⟨fun hr => if_pos hr, fun he => if_neg he⟩

/-- Settles O7: the loop words by `Ready.loopsBy`, the end tests by the outcome of lp1's and then of lp0's. -/
theorem loopsFollowR96AndR97 : Obligations.LoopsFollowR96AndR97 := ⟨loopWordsArmByR96, endTestsFollowR97⟩

end

section
/-!
SUPPORT. Division (spec/04 R84): truncation toward zero, the word's issue, and the landing of its result.
-/

namespace Sys2Proof.Machine

/-- `q` and `r` are quotient and remainder of `x` by `y`, with the remainder's sign that of `x`. -/
def Truncates (x y q r : Int) : Prop := x = q * y + r ∧ r.natAbs < y.natAbs ∧ (r = 0 ∨ (r < 0 ↔ x < 0))

theorem truncates_tdiv_tmod {x y : Int} (hy : y ≠ 0) : Truncates x y (x.tdiv y) (x.tmod y) := by
  refine ⟨by rw [mul_comm]; exact (Int.mul_tdiv_add_tmod x y).symm, ?_, ?_⟩
  · rw [Int.natAbs_tmod]; exact Nat.mod_lt _ (Int.natAbs_pos.mpr hy)
  · have sign := Int.sign_tmod x y
    split at sign
    next => exact .inl (Int.sign_eq_zero_iff_zero.mp sign)
    next => exact .inr (by rw [← Int.sign_eq_neg_one_iff_neg, sign, Int.sign_eq_neg_one_iff_neg])

variable {s : State} {c : Nat} {k : StrandIx}

/-- A ready div or rem faults at a zero divisor, and else issues with its destination interlocked. -/
theorem Ready.divides {i : Instr} {n : Ann} {d a b : Reg} (h : Ready s c k i n allStr [a, b] [d]) (hi : ForEveryStrand i)
    (he : exec i s = issue i { regInfo n d [a, b] with il := true, recs := true } (divBody i d a b) s)
    (hd : (s.core c).flying k d = false) (hr : (s.core c).records < 64) :
    (s.rd c k b ≠ 0 → StartsOp i n s c k (InterlockedOp s c k i d false none (s.rd c k a) (s.rd c k b) 0 0)) ∧
    (s.rd c k b = 0 → Raises i s c k 0x09 (s.rd c k a)) := by
  have hf : Fits { regInfo n d [a, b] with il := true, recs := true } s c k i n allStr [a, b] [d] :=
    fits_scalar hi (fun _ r hr => List.mem_singleton.mp hr ▸ hd) fun _ => hr
  exact ⟨fun hb => h.startsHeld hf (if_neg hb) he rfl, fun hb => h.raises hf (if_pos hb) he⟩

section
variable {j : Nat} {o : Op} {n : Ann} {d a b : Reg} {u : Bool} (ha : (s.core c).alive = true) (hj : (s.core c).ops[j]? = some o)
include ha hj

/-- What lands of a div or rem in flight: the quotient or the remainder of its operands. -/
theorem landInterlocked_division (hi : o.img = .div n d a b u ∨ o.img = .rem n d a b u) : landInterlocked c j s =
    finishOp s c o [Wrap64 (if o.img = .div n d a b u then (ByLetter u o.op0).tdiv (ByLetter u o.op1) else (ByLetter u o.op0).tmod (ByLetter u o.op1))] := by
  rcases hi with hi | hi <;> simp only [landInterlocked, ha, hj, hi, Bool.not_true, Bool.false_eq_true, if_false, if_true, reduceCtorEq] <;> rfl

end

end Sys2Proof.Machine
end

section

open Sys2Proof Sys2Proof.Machine

/-- Settles O5: the words by `Ready.divides`; the result that lands is quotient or remainder by truncation, and the landing is `finishOp_eq`. -/
theorem divisionFollowsR84 : Obligations.DivisionFollowsR84 := by
  refine ⟨fun s c k n d a b u i hi h hd hr => ?_, fun s rest c k j o n d a b u ht ha hj hb hi hy => ?_⟩
  · rcases hi with rfl | rfl
    · exact h.divides ⟨fun _ _ => Instr.noConfusion, rfl⟩ rfl hd hr
    · exact h.divides ⟨fun _ _ => Instr.noConfusion, rfl⟩ rfl hd hr
  · obtain ⟨hq, hr, hs⟩ := truncates_tdiv_tmod (x := ByLetter u o.op0) hy
    refine ⟨_, _, hq, hr, hs, ?_⟩
    rw [exec_interlockedResultLands ht, landInterlocked_division (s := Passed s rest) ha hj hi]
    exact congrArg _ (finishOp_eq hb _ none)

end

section
/-!
SUPPORT. The values of the counts, the byte swaps and the bit-field words (spec/04 R86 to R88), bit by bit.
-/

namespace Sys2Proof.Machine

/-! ### Counts of bits -/

/-- The count of leading zeros is in range, the bits that it counts are zero, and the next one is set. -/
theorem clzN_spec (x : Nat) : ∀ m, clzN x m ≤ m ∧ (∀ j, m - clzN x m ≤ j → j < m → x.testBit j = false) ∧
    (clzN x m < m → x.testBit (m - 1 - clzN x m) = true)
  | 0 => ⟨Nat.le_refl _, fun _ _ h => absurd h (Nat.not_lt_zero _), fun h => absurd h (Nat.not_lt_zero _)⟩
  | m + 1 => by
    rw [clzN]
    split
    next hb => exact ⟨Nat.zero_le _, fun j h1 h2 => by omega, fun _ => hb⟩
    next hb =>
      obtain ⟨le, zeros, one⟩ := clzN_spec x m
      refine ⟨by omega, fun j h1 h2 => ?_, fun h => ?_⟩
      · rcases Nat.lt_succ_iff_lt_or_eq.mp h2 with h | rfl
        · exact zeros j (by omega) h
        · exact Bool.eq_false_iff.mpr hb
      · rw [show m + 1 - 1 - (clzN x m + 1) = m - 1 - clzN x m by omega]
        exact one (by omega)

/-- The same of the count of trailing zeros from bit `i` upward. -/
theorem ctzN_spec (x : Nat) : ∀ m i, ctzN x i m ≤ m ∧ (∀ j < ctzN x i m, x.testBit (i + j) = false) ∧
    (ctzN x i m < m → x.testBit (i + ctzN x i m) = true)
  | 0, _ => ⟨Nat.le_refl _, fun _ h => absurd h (Nat.not_lt_zero _), fun h => absurd h (Nat.not_lt_zero _)⟩
  | m + 1, i => by
    rw [ctzN]
    split
    next hb => exact ⟨Nat.zero_le _, fun _ h => absurd h (Nat.not_lt_zero _), fun _ => hb⟩
    next hb =>
      obtain ⟨le, zeros, one⟩ := ctzN_spec x m (i + 1)
      refine ⟨by omega, fun j h => ?_, fun h => ?_⟩
      · cases j with
        | zero => exact Bool.eq_false_iff.mpr hb
        | succ j => rw [← Nat.add_assoc, Nat.add_right_comm]; exact zeros j (by omega)
      · rw [← Nat.add_assoc, Nat.add_right_comm]
        exact one (by omega)

/-- popc counts the bits that are set. -/
theorem popN_eq (x : Nat) : ∀ m, popN x m = ((List.range m).filter x.testBit).length
  | 0 => rfl
  | m + 1 => by
    rw [popN, popN_eq x m, List.range_succ, List.filter_append, List.length_append, Nat.add_comm]
    congr 1
    cases h : x.testBit m <;> simp [h]

theorem popN_le (x m : Nat) : popN x m ≤ m := by
  rw [popN_eq]
  exact (List.length_filter_le _ _).trans (List.length_range ▸ Nat.le_refl _)

theorem toNat_ofNat_of_le {m n : Nat} (h : n ≤ m) (hm : m ≤ 64) : (BitVec.ofNat 64 n).toNat = n := by
  rw [BitVec.toNat_ofNat]; exact Nat.mod_eq_of_lt (by omega)

/-! ### Bytes of a little-endian number -/

theorem leNat_lt : ∀ l : List Byte, leNat l < 256 ^ l.length
  | [] => Nat.one_pos
  | b :: l => by
    have h := leNat_lt l
    have hb := b.isLt
    rw [leNat, List.length_cons, Nat.pow_succ]
    omega

theorem leNat_byte : ∀ (l : List Byte) (j : Nat) (h : j < l.length), leNat l / 256 ^ j % 256 = l[j].toNat
  | b :: l, 0, _ => by
    have hb := b.isLt
    rw [leNat, List.getElem_cons_zero]
    omega
  | b :: l, j + 1, h => by
    have hb := b.isLt
    rw [leNat, List.getElem_cons_succ, Nat.pow_succ', ← Nat.div_div_eq_div_mul, ← leNat_byte l j (Nat.lt_of_succ_lt_succ h)]
    congr 2
    omega

@[simp] theorem length_leBytes : ∀ n x, (leBytes n x).length = n
  | 0, _ => rfl
  | n + 1, x => congrArg (· + 1) (length_leBytes n (x / 256))

theorem getElem_leBytes : ∀ (n x j : Nat) (h : j < (leBytes n x).length), (leBytes n x)[j] = BitVec.ofNat 8 (x / 256 ^ j)
  | 0, _, _, h => absurd h (Nat.not_lt_zero _)
  | n + 1, x, 0, _ => by simp [leBytes]
  | n + 1, x, j + 1, h => by
    rw [Nat.pow_succ', ← Nat.div_div_eq_div_mul, ← getElem_leBytes n (x / 256) j (Nat.lt_of_succ_lt_succ h)]
    rfl

/-- Byte `j` of the number of a list of bytes is the byte of the list. -/
theorem extractLsb'_ofNat_leNat {m j : Nat} {l : List Byte} (h : j < l.length) (hm : 8 * l.length ≤ m) :
    (BitVec.ofNat m (leNat l)).extractLsb' (8 * j) 8 = l[j] := by
  have lt : leNat l < 2 ^ m := (leNat_lt l).trans_le (by rw [show 256 = 2 ^ 8 by rfl, ← Nat.pow_mul]; exact Nat.pow_le_pow_right (by decide) hm)
  apply BitVec.eq_of_toNat_eq
  rw [BitVec.extractLsb'_toNat, BitVec.toNat_ofNat, Nat.mod_eq_of_lt lt, Nat.shiftRight_eq_div_pow, Nat.pow_mul]
  exact leNat_byte l j h

theorem getElem_wordBytes (n : Nat) (a : Word) (j : Nat) (h : j < (wordBytes n a).length) : (wordBytes n a)[j] = a.extractLsb' (8 * j) 8 := by
  apply BitVec.eq_of_toNat_eq
  rw [BitVec.extractLsb'_toNat, Nat.shiftRight_eq_div_pow, Nat.pow_mul]
  exact (congrArg BitVec.toNat (getElem_leBytes n a.toNat j h)).trans (BitVec.toNat_ofNat ..)

theorem length_wordBytes (n : Nat) (a : Word) : (wordBytes n a).length = n := length_leBytes n a.toNat

/-- The number of the lowest `n` bytes of a word in reverse. -/
theorem extractLsb'_reversed {m n j : Nat} (a : Word) (h : j < n) (hm : 8 * n ≤ m) :
    (BitVec.ofNat m (leNat (wordBytes n a).reverse)).extractLsb' (8 * j) 8 = a.extractLsb' (8 * (n - 1 - j)) 8 := by
  have len : (wordBytes n a).reverse.length = n := by rw [List.length_reverse, length_wordBytes]
  rw [extractLsb'_ofNat_leNat (by rwa [len]) (by rwa [len]), List.getElem_reverse, getElem_wordBytes, length_wordBytes]

/-- A byte below the sign bit's place is that of the number whose sign is extended. -/
theorem extractLsb'_signExtend (x : BitVec 32) {i : Nat} (h : i + 8 ≤ 32) : (x.signExtend 64).extractLsb' i 8 = x.extractLsb' i 8 := by
  ext b hb
  simp only [BitVec.getElem_extractLsb', BitVec.getLsbD_signExtend]
  simp [show i + b < 64 by omega, show i + b < 32 by omega]

/-- The high half of a sign-extended low half repeats its sign. -/
theorem extractLsb'_high_signExtend (x : BitVec 32) : (x.signExtend 64).extractLsb' 32 32 = if x.msb then BitVec.allOnes 32 else 0 := by
  ext b hb
  simp only [BitVec.getElem_extractLsb', BitVec.getLsbD_signExtend]
  have hi : 32 + b < 64 := by omega
  cases x.msb <;> simp [hi, -BitVec.reduceAllOnes]

theorem msb_eq_top_byte (x : BitVec 32) : x.msb = (x.extractLsb' (8 * 3) 8).getLsbD 7 := by rw [BitVec.getLsbD_extractLsb']; rfl

/-! ### Bit fields -/

theorem fieldPos_eq (b : Word) : fieldPos b = (b.extractLsb' 0 6).toNat := by rw [BitVec.extractLsb'_toNat]; rfl

theorem fieldWidth_eq (b : Word) :
    fieldWidth b = min (min (b.extractLsb' 6 7).toNat 64) (64 - (b.extractLsb' 0 6).toNat) := by
  rw [fieldWidth, fieldPos_eq, BitVec.extractLsb'_toNat 6 7, Nat.shiftRight_eq_div_pow]

/-- A field with its sign extended is a bit vector of the field's width with its sign extended. -/
theorem toWord_swrap (x : Nat) {w : Nat} (hw : 0 < w) : toWord (swrap x w) = (BitVec.ofNat w x).signExtend 64 := by
  have two : 2 ^ w = 2 * 2 ^ (w - 1) := by rw [← Nat.pow_succ']; congr 1; omega
  have low : wrapN x w = x % 2 ^ w := by rw [wrapN, ← Int.natCast_emod]; rfl
  rw [BitVec.signExtend, BitVec.toInt_eq_toNat_cond, BitVec.toNat_ofNat, toWord, swrap, low]
  by_cases hx : 2 ^ (w - 1) ≤ x % 2 ^ w
  · rw [if_pos hx, if_neg (by omega)]; rfl
  · rw [if_neg hx, if_pos (by omega)]

/-- The field of a word, taken down to bit 0. -/
theorem testBit_field (a : Word) (p w j : Nat) : (a.toNat / 2 ^ p % 2 ^ w).testBit j = (decide (j < w) && a.getLsbD (p + j)) := by
  rw [Nat.testBit_mod_two_pow, Nat.testBit_div_two_pow, BitVec.testBit_toNat, Nat.add_comm]

/-- R88: ext with zeros above the field. -/
theorem getLsbD_extV_false (a b : Word) {j : Nat} (hj : j < 64) :
    (extV false a b).getLsbD j = (decide (j < fieldWidth b) && a.getLsbD (fieldPos b + j)) := by
  rw [extV]
  split
  next h => simp [h]
  next => simp only [Bool.false_eq_true, if_false, BitVec.getLsbD_ofNat, hj, decide_true, Bool.true_and, testBit_field]

/-- R88: ext with the field's highest bit above it. -/
theorem getLsbD_extV_true (a b : Word) {j : Nat} (hj : j < 64) : (extV true a b).getLsbD j =
    if j < fieldWidth b then a.getLsbD (fieldPos b + j) else decide (0 < fieldWidth b) && a.getLsbD (fieldPos b + fieldWidth b - 1) := by
  rw [extV]
  split
  next h => simp [h]
  next h =>
    have pos : 0 < fieldWidth b := Nat.pos_of_ne_zero h
    have sign : fieldPos b + (fieldWidth b - 1) = fieldPos b + fieldWidth b - 1 := by omega
    rw [if_pos rfl, toWord_swrap _ pos, BitVec.getLsbD_signExtend, BitVec.msb_eq_getLsbD_last, BitVec.getLsbD_ofNat, BitVec.getLsbD_ofNat,
      testBit_field, testBit_field, sign]
    split
    next hw => simp [hj, hw]
    next => simp [hj, pos]

/-- R88: ins writes the field's bits and keeps the others. -/
theorem getLsbD_insV (old a b : Word) {j : Nat} (hj : j < 64) : (insV old a b).getLsbD j =
    if fieldPos b ≤ j ∧ j < fieldPos b + fieldWidth b then a.getLsbD (j - fieldPos b) else old.getLsbD j := by
  simp only [insV, BitVec.getLsbD_or, BitVec.getLsbD_and, BitVec.getLsbD_not, BitVec.getLsbD_shiftLeft, BitVec.getLsbD_ofNat,
    Nat.testBit_two_pow_sub_one, hj, decide_true, Bool.true_and]
  by_cases hp : j < fieldPos b
  · simp [hp, Nat.not_le.mpr hp]
  · by_cases hw : j - fieldPos b < fieldWidth b
    · have inside : fieldPos b ≤ j ∧ j < fieldPos b + fieldWidth b := by omega
      simp [hp, hw, inside, show j - fieldPos b < 64 by omega]
    · have outside : ¬ (fieldPos b ≤ j ∧ j < fieldPos b + fieldWidth b) := by omega
      rw [if_neg outside]
      simp [hp, hw]

end Sys2Proof.Machine
end

section

open Sys2Proof Sys2Proof.Machine

/-- R85: the condition of csel is the old gd, against zero or by its sign bit. -/
theorem Sys2Proof.Machine.compareAndSelectWordsFollowR85 : CompareAndSelectWordsFollowR85 := by
  refine ⟨writesOf seqV fun _ _ => rfl, writesOf sneV fun _ _ => rfl, writesOfOld (cselV false) fun o x y => ?_,
    writesOfOld (cselV true) fun o x y => ?_, fun s c k => Strand.rd_zero _⟩
  · by_cases h : o = 0 <;> simp [cselV, h]
  · simp only [cselV, if_true, getLsbD_63_iff]

/-- R86: the counts by what `clzN_spec`, `ctzN_spec` and `popN_eq` say of them, the byte swaps by `extractLsb'_reversed`. -/
theorem Sys2Proof.Machine.bitCountsAndByteSwapFollowR86 : BitCountsAndByteSwapFollowR86 := by
  refine ⟨fun m a => BitVec.ofNat 64 (clzN a.toNat m), fun m a => BitVec.ofNat 64 (ctzN a.toNat 0 m), fun m a => BitVec.ofNat 64 (popN a.toNat m), bswapV,
    fun w => writesOfOne (clzV w) fun _ => rfl, fun w => writesOfOne (ctzV w) fun _ => rfl, fun w => writesOfOne (popcV w) fun _ => rfl,
    fun w => writesOfOne (bswapV w) fun _ => rfl, fun m hm a => ?_, fun a => ⟨fun j hj => ?_, fun j hj => ?_, ?_⟩⟩
  · have h64 : m ≤ 64 := by omega
    obtain ⟨cle, czeros, cone⟩ := clzN_spec a.toNat m
    obtain ⟨tle, tzeros, tone⟩ := ctzN_spec a.toNat m 0
    simp only [Nat.zero_add, BitVec.testBit_toNat] at czeros cone tzeros tone
    dsimp only
    rw [toNat_ofNat_of_le cle h64, toNat_ofNat_of_le tle h64, toNat_ofNat_of_le (popN_le _ _) h64, popN_eq]
    exact ⟨cle, czeros, cone, tle, tzeros, tone, rfl⟩
  · rw [bswapV, byWidth, if_neg Bool.false_ne_true]
    exact extractLsb'_reversed a hj (by decide)
  · rw [bswapV, byWidth, if_pos rfl, extractLsb'_signExtend _ (by omega)]
    exact extractLsb'_reversed a hj (by decide)
  · rw [bswapV, byWidth, if_pos rfl, extractLsb'_high_signExtend, msb_eq_top_byte, extractLsb'_reversed a (show 3 < 4 by decide) (by decide),
      BitVec.getLsbD_extractLsb']
    rfl

/-- R87. -/
theorem Sys2Proof.Machine.addxAddsScaledIndex : AddxAddsScaledIndex := fun sh => writesOf (addxV sh) fun a b => by
  rw [addxV, Wrap64, BitVec.ofInt_add, ofInt_toNat, ofInt_shiftLeft]

/-- R88: the fields bit by bit. -/
theorem Sys2Proof.Machine.bitFieldWordsFollowR88 : BitFieldWordsFollowR88 := by
  refine ⟨extV, insV, fun sg => writesOf (extV sg) fun _ _ => rfl, writesOfOld insV fun _ _ _ => rfl, fun a b old j hj => ?_⟩
  have ext := getLsbD_extV_false a b hj
  have sext := getLsbD_extV_true a b hj
  have ins := getLsbD_insV old a b hj
  simp only [fieldWidth_eq, fieldPos_eq] at ext sext ins
  exact ⟨ext, sext, ins⟩

/-- Settles O3: each word issues by its shape; its value is read bit by bit where the rule is about bits. -/
theorem selectCountIndexAndBitFieldWordsFollowR85ToR88 : Obligations.SelectCountIndexAndBitFieldWordsFollowR85ToR88 :=
  ⟨bitFieldWordsFollowR88, compareAndSelectWordsFollowR85, bitCountsAndByteSwapFollowR86, addxAddsScaledIndex⟩

end

section

open Sys2Proof Sys2Proof.Machine

/-- Strand S of core 0 at a word with 64 of its scratch stores in flight, so that no further record finds room (spec/12 R245); its g6 is
no aligned address. The core has another turn in the clock cycle. -/
def Sys2Proof.Machine.fullOfRecords : State := { State.reset with
  agenda := [.issue 0 .s, .issue 0 .s]
  cores := [(0, {
    ctx := some {}
    s := { g := [(6, 1)], started := true, running := true }
    ops := List.replicate 64 { k := .s, ord := 0, seq := 0, img := .nop ⟨false, 0⟩, body := .store 1 0 [] } })] }

/-- Refutes O11: its clause on bad addresses has no condition on the record area. A gst that finds no room for its record waits before the
checks of its own rule (R245), so that one to address 1 does not fault while 64 records stand. -/
theorem not_globalStoresEnterTheStoreBuffer : ¬ Obligations.GlobalStoresEnterTheStoreBuffer := by
  unfold Obligations.GlobalStoresEnterTheStoreBuffer
  intro h
  let i : Instr := .gst ⟨false, 0⟩ 4 6 0 false false
  have ready : Ready fullOfRecords 0 .s i ⟨false, 0⟩ allStr [4, 6] [] :=
    ⟨⟨_, rfl⟩, by decide, by decide, fun _ => rfl, by decide, by decide, by decide, by decide, by decide⟩
  have bad : ¬ GoodGlobal (fullOfRecords.rd 0 .s 6) 8 := fun g => absurd g.2 (by decide)
  have waits : Waits i fullOfRecords 0 := rfl
  have raises : Raises i fullOfRecords 0 .s 0x07 (fullOfRecords.rd 0 .s 6) :=
    (h fullOfRecords 0 .s ⟨false, 0⟩ 4 6 0 false false ready (by decide)).1 bad
  have same := Host.Outcome.next.inj (waits.symm.trans raises)
  exact absurd (congrArg (fun t : State => (t.core 0).stops.length) same) (by decide)

end

section
/-!
SUPPORT. Scratch loads and stores (spec/05 R101 to R103, spec/07 R156): the checks of the address, the bytes sampled and stored, and the
warnings of a load.
-/

namespace Sys2Proof.Machine

/-! ### Addresses and checks -/

theorem scrAddr_eq (base : Word) (imm : BitVec 8) (z : Nat) : scrAddr base imm z = ScratchAddress base imm z := by
  rw [scrAddr, ScratchAddress, Wrap64, BitVec.ofInt_add, ofInt_toNat]

theorem pairReg_eq (d : BitVec 4) : pairReg d = PairOf d := by revert d; decide

section
variable {s : State} {c : Nat} {x : Word} {z : Nat}

theorem scrFault_of_beyond (h : (s.ctx c).scrsize < x.toNat + z) : s.scrFault c x z = some (0x06, x) := if_pos h

theorem scrFault_of_misaligned (h : x.toNat + z ≤ (s.ctx c).scrsize) (ha : x.toNat % z ≠ 0) : s.scrFault c x z = some (0x07, x) := by
  rw [State.scrFault, if_neg (Nat.not_lt.mpr h), if_pos ha]

theorem scrFault_of_good (h : x.toNat + z ≤ (s.ctx c).scrsize) (ha : x.toNat % z = 0) : s.scrFault c x z = none := by
  rw [State.scrFault, if_neg (Nat.not_lt.mpr h), if_neg (not_not.mpr ha)]

end

/-! ### Stores -/

/-- The bytes that a store of `z` bytes writes, the low word first. -/
def storeBytes (z : Nat) (lo hi : Word) : List Byte := (wordBytes 8 lo ++ wordBytes 8 hi).take z

theorem length_storeBytes {z : Nat} (hz : z ≤ 16) (lo hi : Word) : (storeBytes z lo hi).length = z := by
  rw [storeBytes, List.length_take, List.length_append, length_wordBytes, length_wordBytes]; omega

theorem leNat_leBytes : ∀ n x : Nat, leNat (leBytes n x) = x % 256 ^ n
  | 0, _ => (Nat.mod_one _).symm
  | n + 1, x => by
    rw [leBytes, leNat, leNat_leBytes n, BitVec.toNat_ofNat]
    exact Nat.mod_mul.symm.trans (congrArg (x % ·) (Nat.pow_succ' (m := 256)).symm)

theorem leNat_append (l m : List Byte) : leNat (l ++ m) = leNat l + 256 ^ l.length * leNat m := by
  induction l with
  | nil => simp [leNat]
  | cons b l ih => rw [List.cons_append, leNat, ih, leNat, List.length_cons, Nat.pow_succ', Nat.mul_add, Nat.mul_assoc, Nat.add_assoc]

/-- The first bytes of a number are its low part. -/
theorem leNat_take (l : List Byte) (n : Nat) : leNat (l.take n) = leNat l % 256 ^ n := by
  by_cases hn : n ≤ l.length
  · have split := leNat_append (l.take n) (l.drop n)
    have lt := leNat_lt (l.take n)
    rw [List.length_take, Nat.min_eq_left hn] at split lt
    rw [← List.take_append_drop n l, split, Nat.add_mul_mod_self_left, Nat.mod_eq_of_lt lt, List.take_append_drop]
  · rw [List.take_of_length_le (Nat.le_of_not_le hn), Nat.mod_eq_of_lt]
    exact (leNat_lt l).trans_le (Nat.pow_le_pow_right (by decide) (Nat.le_of_not_le hn))

theorem numberOf_storeBytes (z : Nat) (lo hi : Word) : NumberOf (storeBytes z lo hi) = (lo.toNat + 2 ^ 64 * hi.toNat) % 2 ^ (8 * z) := by
  have word : ∀ w : Word, leNat (wordBytes 8 w) = w.toNat := fun w => (leNat_leBytes 8 _).trans (Nat.mod_eq_of_lt w.isLt)
  rw [numberOf_eq_leNat, storeBytes, leNat_take, leNat_append, word, word, length_wordBytes, Nat.pow_mul]
  norm_num

section
variable {s : State} {c : Nat} {k : StrandIx} {n : Ann} {i : Instr} {rs : List Reg} {d a : Reg} {imm : BitVec 8} {z : Nat}

/-- What a store answers by its own rule. -/
theorem storeBody_eq (lo hi : Word) (hlo : s.rd c k d = lo) (hhi : (if z = 16 then s.rd c k (d + 1) else 0) = hi) :
    storeBody i d a imm z c k s = match s.scrFault c (ScratchAddress (s.rd c k a) imm z) z with
      | some (code, v) => .fault s code v
      | none => if (s.core c).writeHeld k (ScratchAddress (s.rd c k a) imm z).toNat z then .wait s else
        .go (s.addOp c (StoreOp s c k i (ScratchAddress (s.rd c k a) imm z) (storeBytes z lo hi) lo hi)) .fall := by
  rw [storeBody, ← scrAddr_eq, hhi, hlo]; rfl

/-- A ready store of at most 16 bytes faults by R102, or its bytes are in flight. -/
theorem Ready.storesBy {lo hi : Word} (h : Ready s c k i n allStr rs []) (hr : (s.core c).records < 64) (hz : z ≤ 16)
    (he : exec i s = issue i { y := n.y, t := n.t, reads := rs, recs := true } (storeBody i d a imm z) s) (hlo : s.rd c k d = lo)
    (hhi : (if z = 16 then s.rd c k (d + 1) else 0) = hi)
    (hi' : ForEveryStrand i := by exact ⟨fun _ _ => Instr.noConfusion, rfl⟩) : StoresBy i n s c k a imm z lo hi := by
  have hf : Fits { y := n.y, t := n.t, reads := rs, recs := true } s c k i n allStr rs [] := fits_scalar hi' Bool.noConfusion fun _ => hr
  have hb := storeBody_eq (i := i) (a := a) (imm := imm) lo hi hlo hhi
  refine ⟨fun hx => ?beyond, fun hx ha => ?misaligned, fun hx ha hw => ?stores⟩
  case beyond => exact h.raises hf (by rw [hb, scrFault_of_beyond hx]) he
  case misaligned => exact h.raises hf (by rw [hb, scrFault_of_misaligned hx ha]) he
  case stores =>
    refine ⟨storeBytes z lo hi, length_storeBytes hz lo hi, numberOf_storeBytes z lo hi, h.startsHeld hf ?_ he rfl⟩
    rw [hb, scrFault_of_good hx ha, hw]
    rfl

/-- A store of one register. -/
theorem storeOf {w : Ann → Reg → Reg → BitVec 8 → Instr} {z : Nat} (hz : z < 16)
    (he : ∀ n d a i s, exec (w n d a i) s = issue (w n d a i) (storeInfo n d a) (storeBody (w n d a i) d a i z) s := by exact fun _ _ _ _ _ => rfl)
    (hi : ∀ n d a i, ForEveryStrand (w n d a i) := by exact fun _ _ _ _ => ⟨fun _ _ => Instr.noConfusion, rfl⟩) : StoreOf w z :=
  fun s _ _ n d a imm h hr => h.storesBy hr (Nat.le_of_lt hz) (he n d a imm s) rfl (if_neg (Nat.ne_of_lt hz)) (hi n d a imm)

end
end Sys2Proof.Machine
end

section

open Sys2Proof Sys2Proof.Machine

/-- Settles O9: the stores of one register by `storeOf`, that of a pair by `Ready.storesBy`. -/
theorem scratchStoresLandNextCycle : Obligations.ScratchStoresLandNextCycle := by
  refine ⟨storeOf (by decide), storeOf (by decide), storeOf (by decide), storeOf (by decide), fun s c k n d a imm h hr => ?_⟩
  rw [← pairReg_eq] at h ⊢
  exact h.storesBy hr (Nat.le_refl 16) rfl rfl (if_pos rfl)

end

section
/-!
SUPPORT. Fences (spec/05 R111, R112): the checks before a word of the global memory, and what a fence waits for.
-/

namespace Sys2Proof.Machine

variable {s : State} {c : Nat} {k : StrandIx} {n : Ann} {rs ds : List Reg} {il recs : Bool} {i : Instr}

/-- A global word meets the checks before its own rule as a scalar word does, while no acquire of its strand is under way. -/
theorem fits_global (hi : ForEveryStrand i) (hq : (s.core c).acquiring k = false)
    (hil : il = true → ∀ r ∈ ds, (s.core c).flying k r = false) (hr : recs = true → (s.core c).records < 64) :
    Fits { y := n.y, t := n.t, reads := rs, dst := ds, il := il, gm := true, recs := recs } s c k i n allStr rs ds :=
  { fits_scalar (n := n) (rs := rs) hi hil hr with gm := fun _ => hq, early := rfl }

/-- A strand without a gld that has not landed has none that other words wait for. -/
theorem quiet_of_noGld (h : ∀ o ∈ (s.core c).ops, o.k = k → ∀ m d a s' r q, o.img ≠ .gld m d a s' r q) :
    (s.core c).loading k = false ∧ (s.core c).acquiring k = false := by
  refine ⟨List.any_eq_false.2 fun o ho => ?_, List.any_eq_false.2 fun o ho => ?_⟩ <;>
  · simp only [Bool.and_eq_true, beq_iff_eq, not_and]
    intro hk hg
    split at hg
    · exact h o ho hk _ _ _ _ _ _ (by assumption)
    · exact Bool.noConfusion hg

/-- The gst before a release are performed at its scope (R381) as the model tests it. -/
theorem PerformedAt.sentDone {sc : Nat} (h : PerformedAt s c k sc) : s.sentDone c k sc = true := by
  obtain ⟨hw, hh⟩ := h
  have onWire : ∀ (p : Writer → Bool) (q : Flit → Bool), (∀ f ∈ s.wire, ∀ wr, f.writer = some wr → p wr = true → q f = false) →
      s.wire.all (fun f => !((f.writer.map p).getD false && q f)) = true := fun p q hp => by
    refine List.all_eq_true.2 fun f hf => ?_
    cases e : f.writer with
    | none => rfl
    | some wr => cases hq : p wr <;> simp [hq, hp f hf wr e]
  unfold State.sentDone
  dsimp only
  split
  case isTrue near =>
    simp only [Bool.and_assoc]
    refine onWire _ _ fun f hf wr e hp => ?_
    rcases (hw f hf wr e).1 near hp with g | g <;> simp [g]
  case isFalse far =>
    split
    case isTrue package =>
      refine onWire _ _ fun f hf wr e hp => ?_
      obtain ⟨applied, host⟩ := (hw f hf wr e).2.1 package hp
      rw [applied, host]; rfl
    case isFalse notPackage =>
      have system : 4 ≤ sc := by omega
      refine Bool.and_eq_true_iff.2 ⟨?_, List.all_eq_true.2 fun e he => by rw [hh system e he]; rfl⟩
      simpa using onWire _ (fun _ => true) fun f hf wr e hp => Bool.noConfusion (hp.symm.trans ((hw f hf wr e).2.2 system))

/-- A fence does not wait once the gld of its strand have landed and, where it is a release, the gst before it are performed. -/
theorem fenceReady_of_done {kind : BitVec 2} {sc : Nat} (hl : (s.core c).loading k = false) (hsb : kind ≠ 0 → (s.str c k).sb = [])
    (hp : kind ≠ 0 → PerformedAt s c k sc) : fenceReady s c k kind sc = true := by
  unfold fenceReady State.released
  split
  case isTrue acquire => rw [hl]; rfl
  case isFalse release => rw [hl, hsb release, (hp release).sentDone]; rfl

end Sys2Proof.Machine
end

section

open Sys2Proof Sys2Proof.Machine

/-- Settles O12: a fence of which nothing is waited for only issues. -/
theorem fencesIssueOnceTheirKindHolds : Obligations.FencesIssueOnceTheirKindHolds := by
  intro s c k n kind sc h hg hsb hp
  obtain ⟨loading, acquiring⟩ := quiet_of_noGld hg
  exact h.onlyIssues (fits_global ⟨fun _ _ => Instr.noConfusion, rfl⟩ acquiring (by exact Bool.noConfusion) (by exact Bool.noConfusion))
    (if_pos (fenceReady_of_done loading hsb hp)) rfl

end

section
/-!
SUPPORT. Scratch loads (spec/05 R101 to R103, spec/07 R156): the bytes they sample and the warnings they post.
-/

namespace Sys2Proof.Machine

/-! ### The bytes sampled -/

/-- A byte that no replayed store of the strand hides is that of the scratchpad. -/
theorem shadowByte_of_bare {k : StrandIx} {a : Nat} (b : Byte) : ∀ {l : List Op},
    (∀ o ∈ l, o.k = k → ∀ at' old, o.body = .shadow at' old → a ∉ Tab.keys old) → shadowByte k a b l = b
  | [], _ => rfl
  | o :: l, h => by
    have rest : shadowByte k a b l = b := shadowByte_of_bare b fun p hp => h p (List.mem_cons_of_mem _ hp)
    unfold shadowByte
    split
    case h_1 at' old e =>
      rw [if_neg, rest]
      simp only [Bool.and_eq_true, decide_eq_true_eq, List.contains_iff_mem, not_and]
      exact fun hk => h o List.mem_cons_self hk at' old e
    case h_2 => exact rest

theorem length_scrRead (x : Core) (k : StrandIx) (a z : Nat) : (x.scrRead k a z).length = z := by
  rw [Core.scrRead, List.length_map, List.length_range]

theorem sampledBytes_scrRead (x : Core) (k : StrandIx) (a z : Nat) : SampledBytes x k a z (x.scrRead k a z) := by
  refine ⟨length_scrRead x k a z, fun j hj bare => ?_⟩
  rw [Core.scrRead, List.getElem?_map, List.getElem?_range hj, Option.map_some, shadowByte_of_bare _ bare]

/-! ### The values of loads -/

theorem signedOf_eq {w : Nat} (hw : 0 < w) (bs : List Byte) (h : 8 * bs.length = w) : signedOf bs = [Wrap64 (BitVec.ofNat w (NumberOf bs)).toInt] := by
  subst h
  rw [signedOf, toWord_swrap _ hw, numberOf_eq_leNat]
  rfl

theorem plainOf_eq (bs : List Byte) : plainOf bs = [Wrap64 (NumberOf bs)] := by
  rw [plainOf, bytesWord, numberOf_eq_leNat, Wrap64, BitVec.ofInt_natCast]

theorem pairOf_eq (bs : List Byte) : pairOf bs = [Wrap64 (NumberOf (bs.take 8)), Wrap64 (NumberOf (bs.drop 8))] := by
  simp only [pairOf, bytesWord, numberOf_eq_leNat, Wrap64, BitVec.ofInt_natCast]

/-! ### Events of the die -/

/-- An event goes behind those that come no later. -/
theorem insEvent_append {e : List (BitVec 32)} {b : List (List (BitVec 32))} : ∀ {a : List (List (BitVec 32))},
    (∀ x ∈ a, eventPlace x ≤ eventPlace e) → insEvent e (a ++ b) = a ++ insEvent e b
  | [], _ => rfl
  | x :: a, h => by
    rw [List.cons_append, insEvent, if_neg (Nat.not_lt.2 (h x List.mem_cons_self)), insEvent_append fun y hy => h y (List.mem_cons_of_mem _ hy)]
    rfl

/-- An event goes before those that come later. -/
theorem insEvent_before {e : List (BitVec 32)} {b : List (List (BitVec 32))} (h : ∀ x ∈ b.head?, eventPlace e < eventPlace x) : insEvent e b = e :: b := by
  cases b with
  | nil => rfl
  | cons x b => exact if_pos (h x rfl)

/-- The events of a place have one point of a list to go to. -/
theorem exists_eventPoint (p : Nat) (l : List (List (BitVec 32))) :
    ∃ a b, l = a ++ b ∧ (∀ x ∈ a, eventPlace x ≤ p) ∧ ∀ x ∈ b.head?, p < eventPlace x := by
  refine ⟨l.takeWhile (eventPlace · ≤ p), l.dropWhile (eventPlace · ≤ p), List.takeWhile_append_dropWhile.symm, fun x hx => ?_, fun x hx => ?_⟩
  · simpa using List.mem_takeWhile_imp hx
  · have := List.head?_dropWhile_not (eventPlace · ≤ p) l
    rw [Option.mem_def.1 hx] at this
    simpa using this

/-- The record of the warning of a granule (spec/18 R361, R362). -/
def warningOf (s : State) (c : Nat) (k : StrandIx) (g : Nat) : List (BitVec 32) :=
  [BitVec.ofNat 32 (9 + 2 ^ 8 * ixOf k + 2 ^ 10 * c), BitVec.ofNat 32 (s.ctx c).vf, BitVec.ofNat 32 s.dieclk, BitVec.ofNat 32 (16 * g), 0, 0, 0, 0]

section
variable {s : State} {c : Nat} {k : StrandIx}

theorem eventPlace_warningOf (g h : Nat) : eventPlace (warningOf s c k g) = eventPlace (warningOf s c k h) := rfl

/-- The warning of a granule enters the events of its die. -/
theorem newtNow_warning (g : Nat) : ((s.postCore c k 9 (16 * g) 0 0).die (dieOf c)).newtNow = insEvent (warningOf s c k g) (s.die (dieOf c)).newtNow := by
  rw [State.postCore, State.post, State.die_mapDie_self, warningOf, Nat.mul_comm (2 ^ 8), Nat.mul_comm (2 ^ 10)]
  rfl

/-- No warning changes what another is made of. -/
theorem warningOf_warning (g h : Nat) : warningOf (s.postCore c k 9 (16 * g) 0 0) c k h = warningOf s c k h := rfl

/-- Warnings stand together, in the order of their granules. -/
theorem newtNow_warn {b : List (List (BitVec 32))} : ∀ {gs : List Nat} {s : State} {a : List (List (BitVec 32))}, (s.die (dieOf c)).newtNow = a ++ b →
    (∀ x ∈ a, eventPlace x ≤ eventPlace (warningOf s c k 0)) → (∀ x ∈ b.head?, eventPlace (warningOf s c k 0) < eventPlace x) →
    ((s.warn c k gs).die (dieOf c)).newtNow = a ++ gs.map (warningOf s c k) ++ b
  | [], _, _, e, _, _ => by rw [List.map_nil, List.append_nil]; exact e
  | g :: gs, s, a, e, ha, hb => by
    have here : ((s.postCore c k 9 (16 * g) 0 0).die (dieOf c)).newtNow = (a ++ [warningOf s c k g]) ++ b := by
      rw [newtNow_warning, e, insEvent_append (e := warningOf s c k g) ha, insEvent_before (e := warningOf s c k g) hb, List.append_assoc]; rfl
    have behind : ∀ x ∈ a ++ [warningOf s c k g], eventPlace x ≤ eventPlace (warningOf s c k 0) := fun x hx => by
      rcases List.mem_append.1 hx with hx | hx
      · exact ha x hx
      · rw [List.mem_singleton.1 hx]; exact Nat.le_refl _
    refine (newtNow_warn (gs := gs) here behind hb).trans ?_
    rw [List.append_assoc a, List.map_cons]
    rfl

theorem postsWarnings_warn (gs : List Nat) {t : State} (ht : t.dies = (s.warn c k gs).dies) : PostsWarnings s t c k gs := by
  obtain ⟨a, b, e, ha, hb⟩ := exists_eventPoint (eventPlace (warningOf s c k 0)) (s.die (dieOf c)).newtNow
  refine ⟨a, b, e, ?_⟩
  rw [State.die, ht]
  exact newtNow_warn e ha hb

/-! ### The check of never-written granules -/

variable {x z : Nat}

theorem readCheck_of_silent (h : (s.core c).unwritten x z = [] ∨ (s.ctx c).scrmode = 0 ∨ (s.ctx c).scrmode = 3) : s.readCheck c k x z = .ok s := by
  rw [State.readCheck]
  rcases h with h | h | h
  · rw [h]
  all_goals rw [h]; cases (s.core c).unwritten x z <;> rfl

theorem readCheck_of_faulting {g : Nat} {gs : List Nat} (h : (s.core c).unwritten x z = g :: gs) (hm : (s.ctx c).scrmode = 2) :
    s.readCheck c k x z = .error (16 * g) := by
  rw [State.readCheck, h, hm]; rfl

theorem readCheck_of_warning (h : (s.core c).unwritten x z ≠ []) (hm : (s.ctx c).scrmode = 1) :
    s.readCheck c k x z = .ok (s.warn c k ((s.core c).unwritten x z)) := by
  rw [State.readCheck, hm]
  cases e : (s.core c).unwritten x z with
  | nil => exact absurd e h
  | cons g gs => rfl

end

/-! ### Loads -/

section
variable {s : State} {c : Nat} {k : StrandIx} {n : Ann} {i : Instr} {d a : Reg} {imm : BitVec 8} {z : Nat} {f g : List Byte → List Word}

/-- An exposed result of a state that an access left is that of the state before. -/
theorem exposedOp_of_looked {w : State} (h : Looked s w) (d : Reg) (vs : List Word) (lam : Nat) (o0 o1 : Word) :
    ExposedOp w c k i d vs lam o0 o1 = ExposedOp s c k i d vs lam o0 o1 := by
  rw [ExposedOp, ExposedOp, h.core, h.str]

/-- What a load answers by its own rule, where its checks pass. -/
theorem loadBody_of_good {x : Word} (e : ScratchAddress (s.rd c k a) imm z = x) (hx : x.toNat + z ≤ (s.ctx c).scrsize) (ha : x.toNat % z = 0)
    (hh : (s.core c).readHeld k x.toNat z = false) : loadBody i d a imm z f c k s = match s.readCheck c k x.toNat z with
      | .error g => .fault s 0x05 (BitVec.ofNat 64 g)
      | .ok w => .go (w.land c k i d (f ((w.core c).scrRead k x.toNat z)) 4 x 0 0) .fall := by
  subst e
  unfold loadBody
  rw [scrAddr_eq]
  dsimp only
  rw [scrFault_of_good hx ha, hh]
  rfl

/-- A load that has posted its warnings. -/
theorem Ready.loadsWarned {x : Word} {w : State} {rs ds : List Reg} {info : Info} {body : Nat → StrandIx → State → Act} {vs : List Word}
    (h : Ready s c k i n allStr rs ds) (hf : Fits info s c k i n allStr rs ds) (he : exec i s = issue i info body s)
    (hb : body c k s = .go (w.land c k i d vs 4 x 0 0) .fall) (hw : Looked s w) :
    ∃ t, exec i s = .next (endTurn t c) ∧ Issued s t c k i n (s.core c).took ∧ (t.core c).ops = (s.core c).ops ++ [ExposedOp s c k i d vs 4 x 0] ∧
      KeepsRegs s t c k [] ∧ t.mem = s.mem ∧ t.dies = w.dies := by
  have landed : w.land c k i d vs 4 x 0 0 =
      (w.addOp c (ExposedOp s c k i d vs 4 x 0)).mapStr c k (·.setPend (exposedOf (ExposedOp s c k i d vs 4 x 0).body)) := by
    rw [← exposedOp_of_looked hw]; rfl
  have place : SamePlace s (w.land c k i d vs 4 x 0 0) c k := by
    rw [landed]; constructor <;> simp [Strand.setPend, hw.core, hw.str]
  obtain ⟨t, ht, fell, mem, -⟩ := h.falls hf hb he place
  have took : ((w.land c k i d vs 4 x 0 0).core c).took = (s.core c).took := by rw [landed]; simp [hw.core]
  refine ⟨t, ht, took ▸ fell.issued, ?_, fun r _ => ?_, mem.trans hw.mem, fell.pkg.dies⟩
  · rw [fell.units.flight, landed]; simp [hw.core]
  · rw [fell.rd, landed, State.rd, State.str_mapStr_self, State.str_addOp, hw.str]; rfl

/-- A ready load does what R102, R103 and R156 say. -/
theorem Ready.loadsBy {ds : List Reg} (h : Ready s c k i n allStr [a] ds) (hr : (s.core c).records < 64) (hg : ∀ bs, bs.length = z → g bs = f bs)
    (he : exec i s = issue i { y := n.y, t := n.t, reads := [a], dst := ds, recs := true } (loadBody i d a imm z g) s)
    (hi : ForEveryStrand i := by exact ⟨fun _ _ => Instr.noConfusion, rfl⟩) : LoadsBy i n s c k d a imm z f := by
  have hf : Fits { y := n.y, t := n.t, reads := [a], dst := ds, recs := true } s c k i n allStr [a] ds := fits_scalar hi Bool.noConfusion fun _ => hr
  have bytes := sampledBytes_scrRead (s.core c) k (ScratchAddress (s.rd c k a) imm z).toNat z
  have values := hg _ bytes.1
  refine ⟨fun hx => ?beyond, fun hx ha => ?misaligned, fun hx ha hh => ⟨fun hm => ?silent, fun u us hu hm => ?faults, fun hu hm => ?warns⟩⟩
  case beyond => exact h.raises hf (by rw [loadBody, scrAddr_eq, scrFault_of_beyond hx]) he
  case misaligned => exact h.raises hf (by rw [loadBody, scrAddr_eq, scrFault_of_misaligned hx ha]) he
  case silent =>
    refine ⟨_, bytes, h.startsOp hf ?_ he rfl⟩
    rw [loadBody_of_good rfl hx ha hh, readCheck_of_silent hm, ← values]
    rfl
  case faults => exact h.raises hf (by rw [loadBody_of_good rfl hx ha hh, readCheck_of_faulting hu hm]) he
  case warns =>
    have looked := Looked.warn s c k ((s.core c).unwritten (ScratchAddress (s.rd c k a) imm z).toNat z)
    obtain ⟨t, ht, issued, ops, regs, mem, dies⟩ := h.loadsWarned hf he
      (by rw [loadBody_of_good rfl hx ha hh, readCheck_of_warning hu hm]) looked
    refine ⟨_, t, bytes, ht, issued, ?_, regs, mem, postsWarnings_warn _ dies⟩
    rw [ops, looked.core, values]

/-- A load of one register. -/
theorem loadOf {w : Ann → Reg → Reg → BitVec 8 → Instr} {z : Nat} {g : List Byte → List Word} {f : List Byte → Word}
    (hg : ∀ bs, bs.length = z → g bs = [f bs])
    (he : ∀ n d a i s, exec (w n d a i) s = issue (w n d a i) (loadInfo n d a) (loadBody (w n d a i) d a i z g) s := by exact fun _ _ _ _ _ => rfl)
    (hi : ∀ n d a i, ForEveryStrand (w n d a i) := by exact fun _ _ _ _ => ⟨fun _ _ => Instr.noConfusion, rfl⟩) : LoadOf w z f :=
  fun s _ _ n d a imm h hr => h.loadsBy hr hg (he n d a imm s) (hi n d a imm)

end
end Sys2Proof.Machine
end

section

open Sys2Proof Sys2Proof.Machine

/-- Settles O8: the loads of one register by `loadOf`, that of a pair by `Ready.loadsBy`. -/
theorem scratchLoadsSampleAndLand : Obligations.ScratchLoadsSampleAndLand := by
  have signed : ∀ {z w : Nat}, 0 < w → 8 * z = w → ∀ bs : List Byte, bs.length = z → signedOf bs = [Wrap64 (BitVec.ofNat w (NumberOf bs)).toInt] :=
    fun hw e bs hb => signedOf_eq hw bs (hb ▸ e)
  refine ⟨loadOf (signed (by decide) rfl), loadOf (signed (by decide) rfl), loadOf (signed (by decide) rfl), loadOf fun bs _ => plainOf_eq bs,
    loadOf fun bs _ => plainOf_eq bs, loadOf fun bs _ => plainOf_eq bs, loadOf fun bs _ => plainOf_eq bs, fun s c k n d a imm h hr => ?_⟩
  rw [← pairReg_eq] at h ⊢
  exact h.loadsBy hr (fun bs _ => pairOf_eq bs) rfl

end

section
/-!
SUPPORT. Loads of global memory (spec/05 R105 to R109): the checks of the address, the bytes that entries of the store buffer hold, and
the wait for entries.
-/

namespace Sys2Proof.Machine

/-! ### Addresses, granules and byte enables -/

theorem gAddrBad_eq_false_iff (x : Word) (z : Nat) : gAddrBad x z = false ↔ GoodGlobal x z := by
  rw [gAddrBad, GoodGlobal, ← canonical_iff]
  simp

theorem toNat_granuleOf (x : Word) : (granuleOf x).toNat = x.toNat / 16 * 16 := by
  have high : ∀ b < 64, (~~~(15#64)).getLsbD b = decide (4 ≤ b) := by decide
  have shifted : granuleOf x = (x >>> 4) <<< 4 := by
    refine BitVec.eq_of_getLsbD_eq fun b hb => ?_
    rw [granuleOf, BitVec.getLsbD_and, high b hb, BitVec.getLsbD_shiftLeft, BitVec.getLsbD_ushiftRight]
    by_cases h : b < 4
    · simp [h]
    · simp [h, hb, Nat.not_lt.1 h, Nat.add_sub_of_le (Nat.not_lt.1 h)]
  have lt := x.isLt
  rw [shifted, BitVec.toNat_shiftLeft, BitVec.toNat_ushiftRight, Nat.shiftRight_eq_div_pow, Nat.shiftLeft_eq]
  omega

theorem eq_granuleOf_iff {v x : Word} : v = granuleOf x ↔ v.toNat = x.toNat / 16 * 16 := by
  rw [← toNat_granuleOf, BitVec.toNat_inj]

theorem getLsbD_enOf (o n b : Nat) : (enOf o n).getLsbD b = true ↔ b < 16 ∧ o ≤ b ∧ b < o + n := by
  rw [enOf, BitVec.getLsbD_ofNat, Nat.testBit_mul_two_pow, Nat.testBit_two_pow_sub_one]
  simp only [Bool.and_eq_true, decide_eq_true_eq]
  omega

/-! ### Bytes that an entry holds -/

section
variable {e : SbEntry} {x : Word} {z : Nat}

/-- The bits of an overlap are the bytes of the access that the entry holds. -/
theorem getLsbD_overlap (b : Nat) : (e.overlap x z).getLsbD b = true ↔ ∃ j < z, b = x.toNat % 16 + j ∧ BuffersByte e x j := by
  rw [SbEntry.overlap]
  split
  case isTrue here =>
    rw [BitVec.getLsbD_and, Bool.and_eq_true, getLsbD_enOf, inGranule]
    constructor
    · rintro ⟨en, _, hlo, hhi⟩
      exact ⟨b - x.toNat % 16, by omega, by omega, eq_granuleOf_iff.1 here, by rwa [Nat.add_sub_of_le hlo]⟩
    · rintro ⟨j, hj, rfl, _, en⟩
      exact ⟨en, BitVec.lt_of_getLsbD en, by omega, by omega⟩
  case isFalse elsewhere =>
    constructor
    · exact fun h => absurd h (by simp)
    · rintro ⟨_, _, _, here, _⟩
      exact absurd (eq_granuleOf_iff.2 here) elsewhere

/-- An access overlaps an entry that holds one of its bytes. -/
theorem overlap_ne_zero_iff : (e.overlap x z != 0) = true ↔ ∃ j < z, BuffersByte e x j := by
  rw [bne_iff_ne]
  constructor
  · intro h
    by_contra none
    refine h (BitVec.eq_of_getLsbD_eq fun b _ => ?_)
    rw [Bool.eq_iff_iff, getLsbD_overlap]
    exact ⟨fun ⟨j, hj, _, hb⟩ => absurd ⟨j, hj, hb⟩ none, fun h => absurd h (by simp)⟩
  · rintro ⟨j, hj, hb⟩ h
    have bit := (getLsbD_overlap (x.toNat % 16 + j)).2 ⟨j, hj, rfl, hb⟩
    rw [h] at bit
    exact absurd bit (by simp)

end

section
variable {x : Word} {z : Nat} {sb : List SbEntry}

theorem getLsbD_foldl_overlap (b : Nat) : ∀ (sb : List SbEntry) (m : BitVec 16),
    (sb.foldl (fun (m : BitVec 16) e => m ||| SbEntry.overlap e x z) m).getLsbD b = true ↔ m.getLsbD b = true ∨ ∃ e ∈ sb, (e.overlap x z).getLsbD b = true
  | [], m => by simp
  | e :: sb, m => by
    rw [List.foldl_cons, getLsbD_foldl_overlap b sb, BitVec.getLsbD_or, Bool.or_eq_true, or_assoc, List.exists_mem_cons_iff]

theorem sbCovers_iff (ha : x.toNat % 16 + z ≤ 16) : sbCovers sb x z = true ↔ ∀ j < z, ∃ e ∈ sb, BuffersByte e x j := by
  have bit : ∀ b, (sb.foldl (fun (m : BitVec 16) e => m ||| SbEntry.overlap e x z) 0).getLsbD b = true ↔
      ∃ j < z, b = x.toNat % 16 + j ∧ ∃ e ∈ sb, BuffersByte e x j := fun b => by
    rw [getLsbD_foldl_overlap]
    simp only [getLsbD_overlap]
    constructor
    · rintro (h | ⟨e, he, j, hj, hb, hh⟩)
      · exact absurd h (by simp)
      · exact ⟨j, hj, hb, e, he, hh⟩
    · rintro ⟨j, hj, hb, e, he, hh⟩
      exact .inr ⟨e, he, j, hj, hb, hh⟩
  rw [sbCovers, beq_iff_eq]
  constructor
  · intro h j hj
    have on := (getLsbD_enOf (x.toNat % 16) z (x.toNat % 16 + j)).2 (by omega)
    rw [← inGranule, ← h, bit] at on
    obtain ⟨j', -, same, held⟩ := on
    obtain rfl : j = j' := Nat.add_left_cancel same
    exact held
  · intro h
    refine BitVec.eq_of_getLsbD_eq fun b hb => ?_
    rw [Bool.eq_iff_iff, bit, getLsbD_enOf, inGranule]
    constructor
    · rintro ⟨j, hj, rfl, _⟩
      omega
    · rintro ⟨_, hlo, hhi⟩
      exact ⟨b - x.toNat % 16, by omega, by omega, h _ (by omega)⟩

/-- A fold that keeps the last value of those that a test takes has that of the last of them. -/
theorem foldl_last {α β : Type} (p : α → Bool) (v : α → β) (b : β) (l : List α) : (∃ a ∈ l, p a = true) →
    ∃ older a younger, l = older ++ a :: younger ∧ p a = true ∧ l.foldl (fun b a => if p a then v a else b) b = v a ∧ ∀ y ∈ younger, ¬ p y = true := by
  induction l using List.reverseRecOn with
  | nil => rintro ⟨a, ha, _⟩; cases ha
  | append_singleton l a ih =>
    rintro ⟨e, he, hp⟩
    rw [List.foldl_append]
    by_cases ha : p a = true
    · exact ⟨l, a, [], rfl, ha, if_pos ha, fun y hy => by cases hy⟩
    · have earlier : e ∈ l := (List.mem_append.1 he).resolve_right fun h => ha (List.mem_singleton.1 h ▸ hp)
      obtain ⟨older, u, younger, rfl, hu, hv, hy⟩ := ih ⟨e, earlier, hp⟩
      refine ⟨older, u, younger ++ [a], by simp, hu, (if_neg ha).trans hv, fun y hm => ?_⟩
      rcases List.mem_append.1 hm with h | h
      · exact hy y h
      · exact List.mem_singleton.1 h ▸ ha

theorem youngestBytes_sbBytes (h : ∀ j < z, ∃ e ∈ sb, BuffersByte e x j) : YoungestBytes sb x z (sbBytes sb x z) := by
  have holds : ∀ e j, (decide (e.va = granuleOf x) && e.en.getLsbD (x.toNat % 16 + j)) = true ↔ BuffersByte e x j := fun e j => by
    rw [Bool.and_eq_true, decide_eq_true_eq, eq_granuleOf_iff, BuffersByte]
  refine ⟨by rw [sbBytes, List.length_map, List.length_range], fun j hj => ?_⟩
  obtain ⟨e, he, hb⟩ := h j hj
  obtain ⟨older, u, younger, split, hu, hv, hy⟩ := foldl_last (fun e => decide (e.va = granuleOf x) && e.en.getLsbD (x.toNat % 16 + j))
    (fun e => e.bytes.getD (x.toNat % 16 + j) 0) 0 sb ⟨e, he, (holds e j).2 hb⟩
  refine ⟨older, u, younger, split, (holds u j).1 hu, ?_, fun y hm hb => hy y hm ((holds y j).2 hb)⟩
  rw [sbBytes, List.getElem?_map, List.getElem?_range hj, Option.map_some]
  exact congrArg some hv

theorem any_overlap_iff : sb.any (fun e => e.overlap x z != 0) = true ↔ ∃ e ∈ sb, ∃ j < z, BuffersByte e x j := by
  rw [List.any_eq_true]
  simp only [overlap_ne_zero_iff]

end

/-! ### The issue of a gld -/

section
variable {s : State} {c : Nat} {k : StrandIx} {n : Ann} {i : Instr} {d a : Reg} {q : Bool} {x : Word} {z : Nat}

/-- The operation of a gld at a good address: the forwarded bytes, or the mark that it waits. -/
theorem gldBody_of_good (hx : s.rd c k a = x) (hz : (if q then 16 else 8) = z) (hg : GoodGlobal x z) : gldBody i d a q c k s =
    .go (s.addOp c (InterlockedOp s c k i d q (if sbCovers (s.str c k).sb x z then some (sbBytes (s.str c k).sb x z) else none) 0 0 x
      (if (!sbCovers (s.str c k).sb x z) && (s.str c k).sb.any (fun e => e.overlap x z != 0) then 1 else 0))) .fall := by
  subst hx hz
  rw [gldBody, if_neg (by rw [(gAddrBad_eq_false_iff _ _).2 hg]; exact Bool.false_ne_true)]
  have part : ∀ o : Bool, (if o then some (sbBytes (s.str c k).sb (s.rd c k a) (if q then 16 else 8)) else none).isNone = !o := fun o => by
    cases o <;> rfl
  rw [← part]
  rfl

/-- A ready gld at a good address, as the store buffer stands. -/
theorem Ready.loadsGlobal {rs ds : List Reg} {info : Info} (h : Ready s c k i n allStr rs ds) (hf : Fits info s c k i n allStr rs ds)
    (he : exec i s = issue i info (gldBody i d a q) s) (hx : s.rd c k a = x) (hz : (if q then 16 else 8) = z) (hg : GoodGlobal x z) :
    StartsOp i n s c k (InterlockedOp s c k i d q (if sbCovers (s.str c k).sb x z then some (sbBytes (s.str c k).sb x z) else none) 0 0 x
      (if (!sbCovers (s.str c k).sb x z) && (s.str c k).sb.any (fun e => e.overlap x z != 0) then 1 else 0)) :=
  h.startsHeld hf (gldBody_of_good hx hz hg) he rfl

theorem inGranule_add_le (hz : z = 8 ∨ z = 16) (h : x.toNat % z = 0) : x.toNat % 16 + z ≤ 16 := by
  rcases hz with rfl | rfl <;> omega

end

/-- A landing that waits for an entry of its strand's store buffer which came before it. -/
theorem gldWaits_of_entry {x : Core} {o : Op} {z : Nat} (hc : o.cnt = 1) (h : ∃ e ∈ (x.str o.k).sb, e.ord < o.ord ∧ ∃ j < z, BuffersByte e o.op2 j) :
    gldWaits x o z = true := by
  obtain ⟨e, he, hord, hb⟩ := h
  have waits : (x.str o.k).sb.any (fun e => e.ord < o.ord && e.overlap o.op2 z != 0) = true :=
    List.any_eq_true.2 ⟨e, he, by rw [overlap_ne_zero_iff.2 hb, decide_eq_true hord]; rfl⟩
  rw [gldWaits, hc, waits]
  rfl

/-- The landing of the gld in a place is that of its own rule, whatever else is in flight. -/
theorem landInterlocked_gldAt {s : State} {c l : Nat} {o : Op} {n : Ann} {d a : Reg} {sc : BitVec 3} {ord q : Bool} (ha : (s.core c).alive = true)
    (ho : (s.core c).ops[l]? = some o) (hi : o.img = .gld n d a sc ord q) : landInterlocked c l s = landGld s c o q := by
  rw [landInterlocked, ha, ho]
  dsimp only
  rw [hi]
  rfl

end Sys2Proof.Machine
end

section

open Sys2Proof Sys2Proof.Machine

/-- The issue of a gld (R105 to R107, R109). -/
theorem Sys2Proof.Machine.gldIssues {s : State} {c : Nat} {k : StrandIx} {n : Ann} {d a : Reg} {sc : BitVec 3} {ord q : Bool} {x : Word} {z : Nat}
    (hx : s.rd c k a = x) (hz : (if q then 16 else 8) = z)
    (h : Ready s c k (.gld n d a sc ord q) n allStr [a] (if q then [d, d + 1] else [d]))
    (hfl : ∀ r ∈ (if q then [d, d + 1] else [d]), (s.core c).flying k r = false) (hq : (s.core c).acquiring k = false) (hr : (s.core c).records < 64) :
    (¬ GoodGlobal x z → Raises (.gld n d a sc ord q) s c k 0x07 x) ∧
    (GoodGlobal x z →
      let i : Instr := .gld n d a sc ord q
      let sb := (s.str c k).sb
      let covered := ∀ j < z, ∃ e ∈ sb, BuffersByte e x j
      let meets := ∃ e ∈ sb, ∃ j < z, BuffersByte e x j
      (∃ t, exec i s = .next t) ∧
      (sbCovers sb x z = true ↔ covered) ∧
      (covered → YoungestBytes sb x z (sbBytes sb x z) ∧
        StartsOp i n s c k (InterlockedOp s c k i d q (some (sbBytes sb x z)) 0 0 x 0)) ∧
      (¬ covered → meets → StartsOp i n s c k (InterlockedOp s c k i d q none 0 0 x 1)) ∧
      (¬ meets → StartsOp i n s c k (InterlockedOp s c k i d q none 0 0 x 0))) := by
  have hf : Fits { y := n.y, t := n.t, reads := [a], dst := if q then [d, d + 1] else [d], il := true, gm := true, recs := true } s c k
      (.gld n d a sc ord q) n allStr [a] (if q then [d, d + 1] else [d]) :=
    fits_global ⟨fun _ _ => Instr.noConfusion, rfl⟩ hq (fun _ => hfl) fun _ => hr
  have size : z = 8 ∨ z = 16 := by subst hz; cases q <;> simp
  refine ⟨fun bad => h.raises hf ?_ rfl, fun hg => ?_⟩
  · subst hx hz
    rw [gldBody, if_pos (by rw [← Bool.not_eq_false, gAddrBad_eq_false_iff]; exact bad)]
  · have starts := h.loadsGlobal hf rfl hx hz hg
    have covers := sbCovers_iff (sb := (s.str c k).sb) (inGranule_add_le size hg.2)
    refine ⟨⟨_, h.go hf (gldBody_of_good hx hz hg)⟩, covers, fun hc => ⟨youngestBytes_sbBytes hc, ?covered⟩, fun hc hm => ?waits, fun hm => ?memory⟩
    case covered =>
      rw [covers.2 hc] at starts
      exact starts
    case waits =>
      rw [Bool.eq_false_iff.2 fun e => hc (covers.1 e), any_overlap_iff.2 hm] at starts
      exact starts
    case memory =>
      have hc : ¬ sbCovers (s.str c k).sb x z = true := fun e => by
        obtain ⟨u, hu, hb⟩ := covers.1 e 0 (by omega)
        exact hm ⟨u, hu, 0, by omega, hb⟩
      rw [Bool.eq_false_iff.2 hc, Bool.eq_false_iff.2 fun e => hm (any_overlap_iff.1 e)] at starts
      exact starts

/-- Settles O10: `gldIssues`, and a landing that waits leaves all as it was. -/
theorem globalLoadsIssueInterlocked : Obligations.GlobalLoadsIssueInterlocked := by
  refine ⟨fun s c k n d a sc ord q h hfl hq hr => gldIssues rfl rfl h hfl hq hr, ?_⟩
  intro s rest c k l o n d a sc ord q ht ha ho hi hb hc hm
  rw [exec_interlockedResultLands ht, landInterlocked_gldAt (s := Passed s rest) ha ho hi, landGld_waits (s := Passed s rest) hb (gldWaits_of_entry hc hm)]
  rfl

end

section
/-!
SUPPORT. Words of strand S on the token FIFOs and the event queue (spec/05 R118, spec/06 R146, R147, spec/07 R162): their checks, and the
landing of evpop.
-/

namespace Sys2Proof.Machine

variable {s : State} {c : Nat} {k : StrandIx} {i : Instr} {y : Bool} {rs ds : List Reg} {nh il recs : Bool} {body : Nat → StrandIx → State → Act}

/-- A word of S alone meets the checks before its own rule, outside a handler where it has to be. -/
theorem fits_ofSAlone (hi : ∀ p r, i ≠ .unassignedWord p r) (hs : k ∈ [StrandIx.s]) (hd : nh = true → (s.ctx c).depth = 0)
    (hil : il = true → ∀ r ∈ ds, (s.core c).flying k r = false) (hr : recs = true → (s.core c).records < 64) :
    Fits { y := y, who := 1, nh := nh, reads := rs, dst := ds, il := il, recs := recs } s c k i ⟨y, 0⟩ [.s] rs ds where
  assigned := hi
  y := rfl
  t := rfl
  who _ := by rw [List.mem_singleton.1 hs]; show (1 : BitVec 4).getLsbD 0 = true; decide
  sys h := absurd (List.mem_singleton.1 hs) h
  reads := rfl
  dst := rfl
  il := hil
  gm h := Bool.noConfusion h
  recs := hr
  room := .inl ⟨rfl, rfl⟩
  nh := hd
  oh h := Bool.noConfusion h
  feat e he := by cases he
  late := rfl

/-- A ready word whose rule changes the core beside its strands and its records. -/
theorem Ready.changesCore {n : Ann} {who : List StrandIx} {f : Info} (h : Ready s c k i n who rs ds) (hf : Fits f s c k i n who rs ds) (g : Core → Core)
    (hb : body c k s = .go (s.mapCore c g) .fall) (he : exec i s = issue i f body s) (hs : ∀ x j, (g x).str j = x.str j)
    (hn : ∀ x, (g x).nord = x.nord) (hc : ∀ x, (g x).ctx = x.ctx) (hscr : ∀ x, (g x).scr = x.scr) :
    LeavesCore i n s c k (g (s.core c)) (s.ctx c) := by
  have self : (s.mapCore c g).core c = g (s.core c) := State.core_mapCore_self s c g
  refine h.leavesCore hf hb he (fun j => ?_) (by rw [self]) (by rw [self, hn]) (by rw [self]; exact .refl _) ?_
    (fun e hne => State.core_mapCore_ne s g hne) (State.portRead_congr (fun _ => rfl) fun e a => ?_) (.mapCore s c g)
  · rw [State.str, self, hs]; rfl
  · rw [State.ctx, State.ctx, self, hc]; exact .refl _
  · by_cases he : e = c
    · rw [he, self, hscr]
    · rw [State.core_mapCore_ne s g he]

/-- The oldest evpop takes the oldest record. -/
theorem landPop_of_first {o : Op} {d : Reg} {r : Word} {q : List Word} (hb : o.body = .ilock d false none) (hq : (s.core c).evq = r :: q)
    (first : ∀ p ∈ (s.core c).ops, (∃ y' d', p.img = .evpop y' d') → o.ord ≤ p.ord) :
    landPop s c o = dropOp ((s.mapCore c fun x => { x with evq := q }).mapStr c o.k (·.setReg d r)) c o.ord o.k := by
  rw [landPop, hq]
  refine (if_pos (List.all_eq_true.2 fun p hp => ?_)).trans (finishOp_eq hb r none)
  split
  · exact decide_eq_true (first p hp ⟨_, _, by assumption⟩)
  · rfl

/-- The core of a result that has landed: its register is written, and it is no longer in flight. -/
theorem core_dropOp_setReg (s : State) (c ord : Nat) (k : StrandIx) (d : Reg) (r : Word) (g : Core → Core) :
    (dropOp ((s.mapCore c g).mapStr c k (·.setReg d r)) c ord k).core c =
      { (g (s.core c)).mapStr k (·.setReg d r) with ops := (g (s.core c)).ops.filter fun o => !(o.ord == ord && o.k == k) } := by
  rw [dropOp, State.core_mapCore_self, State.core_mapStr_self, State.core_mapCore_self, Core.mapStr_ops]

/-- The landing of the evpop in a place is that of its own rule. -/
theorem landInterlocked_evpopAt {j : Nat} {o : Op} {d : Reg} (ha : (s.core c).alive = true) (ho : (s.core c).ops[j]? = some o)
    (hi : o.img = .evpop y d) : landInterlocked c j s = landPop s c o := by
  rw [landInterlocked, ha, ho]
  dsimp only
  rw [hi]
  rfl

end Sys2Proof.Machine
end

section

open Sys2Proof Sys2Proof.Machine

/-- R146, R147. -/
theorem Sys2Proof.Machine.tokenWordsOfSFollowR147 : TokenWordsOfSFollowR147 := by
  intro s c k y f hd
  refine ⟨fun h hroom => ?gives, fun h hhere => ?takes, fun d h hr => ?counts⟩
  case gives =>
    exact h.changesCore (fits_ofSAlone (fun _ _ => Instr.noConfusion) h.strand (fun _ => hd) Bool.noConfusion Bool.noConfusion) (·.give [f.toNat])
      (if_pos hroom) rfl (fun _ j => by cases j <;> rfl) (fun _ => rfl) (fun _ => rfl) fun _ => rfl
  case takes =>
    have can : (s.core c).canTake y k f.toNat = true := by
      rw [List.mem_singleton.1 h.strand, Core.canTake, decide_eq_true_eq]
      refine Nat.lt_of_le_of_lt (Nat.le_of_eq ?_) hhere
      cases y <;> rfl
    exact h.changesCore (fits_ofSAlone (fun _ _ => Instr.noConfusion) h.strand (fun _ => hd) Bool.noConfusion Bool.noConfusion)
      (fun x => { x with took := bump x.took f.toNat }) (if_pos can) rfl (fun _ j => by cases j <;> rfl) (fun _ => rfl) (fun _ => rfl) fun _ => rfl
  case counts =>
    exact h.startsOp (fits_ofSAlone (fun _ _ => Instr.noConfusion) h.strand (fun _ => hd) Bool.noConfusion fun _ => hr) rfl rfl rfl

/-- R118, R162. -/
theorem Sys2Proof.Machine.eventQueueWordsFollowR162 : EventQueueWordsFollowR162 := by
  refine ⟨fun s c k y d => ⟨fun h hfl hr => ?pops, fun h hr => ?polls, fun h hq => ?idles⟩, ?lands⟩
  case pops =>
    have free : ∀ r ∈ [d], (s.core c).flying k r = false := fun r hm => List.mem_singleton.1 hm ▸ hfl
    exact h.startsHeld (fits_ofSAlone (fun _ _ => Instr.noConfusion) h.strand Bool.noConfusion (fun _ => free) fun _ => hr) rfl rfl rfl
  case polls =>
    exact h.startsOp (fits_ofSAlone (fun _ _ => Instr.noConfusion) h.strand Bool.noConfusion Bool.noConfusion fun _ => hr) rfl rfl rfl
  case idles =>
    have stands : (s.core c).evq.isEmpty = false := by rw [List.isEmpty_eq_false_iff]; exact hq
    exact h.leavesCore (fits_ofSAlone (fun _ _ => Instr.noConfusion) h.strand Bool.noConfusion Bool.noConfusion Bool.noConfusion)
      (if_neg (Bool.eq_false_iff.1 stands)) rfl (fun _ => rfl) rfl rfl (.refl _) (.refl _) (fun _ _ => rfl) (fun _ => rfl) (.refl s)
  case lands =>
    intro s rest c k j o y d r q ht ha ho hi hb hq first
    have landed := (landInterlocked_evpopAt (s := Passed s rest) ha ho hi).trans (landPop_of_first (s := Passed s rest) hb hq first)
    refine ⟨_, (exec_interlockedResultLands ht).trans (congrArg _ landed), ?_⟩
    have core := core_dropOp_setReg (Passed s rest) c o.ord o.k d r fun x => { x with evq := q }
    have str : ∀ j, (dropOp (((Passed s rest).mapCore c fun x => { x with evq := q }).mapStr c o.k (·.setReg d r)) c o.ord o.k).str c j =
        if j = o.k then (s.str c j).setReg d r else s.str c j := fun j => by
      rw [State.str, core]
      cases j <;> cases o.k <;> rfl
    refine ⟨?_, ?_, ?_, fun r' hr => ?_, fun j' hj => ?_, fun e he => ?_, rfl, rfl⟩
    · rw [State.rd, str, if_pos rfl, Strand.rd_setReg, if_pos rfl]
    · rw [core]; exact Core.mapStr_evq ..
    · rw [core]; rfl
    · rw [State.rd, str, if_pos rfl, Strand.rd_setReg, if_neg hr]; rfl
    · rw [str, if_neg hj]
    · rw [dropOp, State.core_mapCore_ne _ _ he, State.core_mapStr_ne _ _ _ he, State.core_mapCore_ne _ _ he]; rfl

/-- Settles O14: `tokenWordsOfSFollowR147` and `eventQueueWordsFollowR162`. -/
theorem tokenAndEventQueueWordsFollowR147AndR162 : Obligations.TokenAndEventQueueWordsFollowR147AndR162 :=
  ⟨tokenWordsOfSFollowR147, eventQueueWordsFollowR162⟩

end

section
/-!
SUPPORT. sysset (spec/05 R113 to R115): the checks on the register and on the value, and the watchpoints (spec/15 R317, R318).
-/

namespace Sys2Proof.Machine

variable {s : State} {c : Nat} {k : StrandIx} {n : Ann} {a : Reg} {r : BitVec 8} {v : Word}

/-! ### The checks before the word's own rule -/

/-- A system register that a strand holds itself is open to every strand. -/
theorem sOnlyReg_of_le (h : r.toNat ≤ 7) : sOnlyReg r = false := by
  rw [Bool.eq_false_iff, ne_eq, sOnlyReg_eq_true]
  omega

/-- A word on system registers meets the checks before its own rule where its strand may name the register and the value is one that the
register takes. -/
theorem fits_system {i : Instr} {rs ds l : List Reg} {recs : Bool} {late : State → Nat → StrandIx → Option (BitVec 3)}
    (hi : ∀ p q, i ≠ .unassignedWord p q) (hk : k ≠ .s → sysRestricted i = false) (hl : late s c k = none)
    (hr : recs = true → (s.core c).records < 64) :
    Fits { y := n.y, t := n.t, reads := rs, dst := ds, recs := recs, lreg := l, late := late } s c k i n allStr rs ds where
  assigned := hi
  y := rfl
  t := rfl
  who _ := by
    show (15 : BitVec 4).getLsbD (ixOf k) = true
    cases k <;> decide
  sys := hk
  reads := rfl
  dst := rfl
  il h := Bool.noConfusion h
  gm h := Bool.noConfusion h
  recs := hr
  room := .inl ⟨rfl, rfl⟩
  nh h := Bool.noConfusion h
  oh h := Bool.noConfusion h
  feat e he := by cases he
  late := hl

theorem fits_sysset (hk : k = .s ∨ r.toNat ≤ 7) (hl : sysLate a r s c k = none) :
    Fits { y := n.y, t := n.t, reads := [a], lreg := [a], late := sysLate a r } s c k (.sysset n a r) n allStr [a] [] :=
  fits_system (fun _ _ => Instr.noConfusion) (fun h => sOnlyReg_of_le (hk.resolve_left h)) hl Bool.noConfusion

/-- A number is that of wpc of a watchpoint, whose value has its reserved fields zero and a size of at most 64 KiB. -/
theorem sysValueReason_wpc {p q : Bool} {i : Nat} (hi : i < 4) (hn : r.toNat = 0x31 + 2 * i) (h1 : v.extractLsb' 16 48 = 0) (h2 : v.extractLsb' 4 8 = 0)
    (h3 : v.extractLsb' 1 2 = 0) (h4 : (v.extractLsb' 12 4).toNat ≤ 12) : sysValueReason p q r v = none := by
  have wpc : isWpc r.toNat = true := by
    rw [isWpc, hn]
    simp only [Bool.and_eq_true, decide_eq_true_eq, beq_iff_eq]
    omega
  rw [sysValueReason, if_neg (by omega), if_neg (by omega), if_neg (by omega), if_neg (by omega), if_pos wpc, if_neg (by simp [h1, h2, h3]), if_neg (by omega)]

/-- What a sysset of wpc does by its own rule. -/
theorem sysSetBody_wpc {i : Nat} (hi : i < 4) (hn : r.toNat = 0x31 + 2 * i) : sysSetBody a r c k s =
    if (s.rd c k a).getLsbD 0 then armBody s c i (s.rd c k a)
    else .go ((s.disarm (s.ctx c).task i).mapCtx c (fun x => { x with wpc := Tab.set 0 x.wpc i (s.rd c k a) })) .fall := by
  have notWpa : isWpa r.toNat ≠ true := by
    rw [isWpa, hn]
    simp only [ne_eq, Bool.and_eq_true, decide_eq_true_eq, beq_iff_eq]
    omega
  have index : (r.toNat - 0x30) / 2 = i := by omega
  rw [sysSetBody]
  dsimp only
  rw [if_neg (by omega), if_neg (by omega), if_neg (by omega), if_neg (by omega), if_neg (by omega), if_neg notWpa, index]

/-! ### Arming -/

section
variable {i size pa : Nat} {va : Word}

/-- The rule of an arming sysset at a range of bytes that is canonical and aligned and that a cached leaf maps. -/
theorem armBody_of_mapped (hva : Tab.get 0 (s.ctx c).wpa i = va) (hsize : 2 ^ (4 + (v.extractLsb' 12 4).toNat) = size) (hg : GoodGlobal va size)
    (hm : MappedAt s c .s va .read pa) : armBody s c i v =
      if s.refused (dieOf c) pa then
        .fault ((s.deny (dieOf c) (s.ctx c).vf pa).logAf (dieOf c) (s.ctx c).vf ⟨va, c, .read, 10⟩) 0x39 va else
      match homeOf pa with
      | .hbm _ | .sdm _ =>
        if s.heldUp (dieOf c) pa then .wait (s.holdReq (dieOf c) pa) else
        .go (({ s with armed := s.armed.filter (fun w => !(w.task == (s.ctx c).task && w.ix == i)) ++ [⟨(s.ctx c).task, i, pa, size⟩] } : State).mapCtx c
          (fun y => { y with wpc := Tab.set 0 y.wpc i v })) .fall
      | _ => .fault (s.logAf (dieOf c) (s.ctx c).vf ⟨va, c, .read, 4⟩) 0x0C va := by
  obtain ⟨enabled, free, hit⟩ := hm
  have found : translate s c (unitHead .s) (s.ctx c).vf va .read = (s, .ok pa) := by
    rw [translate, enabled, free, hit]
    rfl
  have good := (gAddrBad_eq_false_iff va size).2 hg
  subst hva hsize
  rw [gAddrBad] at good
  rw [armBody]
  dsimp only
  rw [good, found]
  rfl

theorem armBody_of_bad (hva : Tab.get 0 (s.ctx c).wpa i = va) (hsize : 2 ^ (4 + (v.extractLsb' 12 4).toNat) = size) (hg : ¬ GoodGlobal va size) :
    armBody s c i v = .fault s 0x07 va := by
  subst hva hsize
  rw [← gAddrBad_eq_false_iff, Bool.not_eq_false, gAddrBad] at hg
  exact if_pos hg

end

section
variable {i : Instr} {who : List StrandIx} {rs ds : List Reg} {f : Info} {body : Nat → StrandIx → State → Act}

/-- A ready word whose rule sets the armed watchpoints and registers of its context. -/
theorem Ready.arms {l : List Armed} {g : Ctx → Ctx} (h : Ready s c k i n who rs ds) (hf : Fits f s c k i n who rs ds) (he : exec i s = issue i f body s)
    (hb : body c k s = .go (({ s with armed := l } : State).mapCtx c g) .fall) (hx : (s.core c).ctx.isSome) :
    ∃ t, exec i s = .next (endTurn t c) ∧ Issued s t c k i n (s.core c).took ∧ t.armed = l ∧ SameSpecial (g (s.ctx c)) (t.ctx c) ∧
      KeepsRegs s t c k [] ∧ t.mem = s.mem := by
  have strands : ∀ j, (({ s with armed := l } : State).mapCtx c g).str c j = s.str c j := fun j => State.str_mapCtx _ c c g j
  have core : (({ s with armed := l } : State).mapCtx c g).core c = { s.core c with ctx := (s.core c).ctx.map g } := State.core_mapCtx_self _ c g
  have ctx : (({ s with armed := l } : State).mapCtx c g).ctx c = g (s.ctx c) := State.ctx_mapCtx_self _ c g hx
  obtain ⟨t, ht, fell, mem, -⟩ := h.falls hf hb he ⟨by rw [strands], by rw [core]⟩
  refine ⟨t, ht, ?_, fell.pkg.armed, ctx ▸ fell.special, fun r _ => ?_, mem⟩
  · have issued := fell.issued
    rw [core] at issued
    exact issued
  · rw [fell.rd, State.rd, strands]; rfl

/-- A ready word that faults after accesses which no core and no byte of memory has noticed. -/
theorem Ready.raisesAfter {t : State} {code : Nat} {va : Word} (h : Ready s c k i n who rs ds) (hf : Fits f s c k i n who rs ds)
    (he : exec i s = issue i f body s) (hb : body c k s = .fault t code va) (ht : Looked s t) : RaisesAfter i s c k code va := by
  refine ⟨raiseWord t c k code va, he.trans (h.fails hf hb), ?_, fun j => ?_, fun e hne => ?_, ht.mem⟩
  · rw [raiseWord, State.core_mapCore_self, ht.core]
  · rw [raiseWord, State.str, State.core_mapCore_self, ht.core]; cases j <;> rfl
  · rw [raiseWord, State.core_mapCore_ne _ _ hne, ht.core]

/-- A ready word that waits with its read outstanding. -/
theorem Ready.waitsHeld {d pa : Nat} (h : Ready s c k i n who rs ds) (hf : Fits f s c k i n who rs ds) (he : exec i s = issue i f body s)
    (hb : body c k s = .wait (s.holdReq d pa)) : WaitsHeld i s c d pa := by
  refine ⟨(s.holdReq d pa).reqs, List.mem_append_right _ (List.mem_singleton.2 rfl), he.trans ?_⟩
  rw [h.meets hf, hb]
  rfl

end
end Sys2Proof.Machine
end

section

open Sys2Proof Sys2Proof.Machine

/-- R317, R318. -/
theorem Sys2Proof.Machine.watchpointsArmByR318 : WatchpointsArmByR318 := by
  intro s c n a r i h hi hn hx v y va size h1 h2 h3 h4 kept
  have hf := fits_sysset (n := n) (.inl rfl) (sysValueReason_wpc (p := s.feat (s.ctx c).vf 3) (q := s.feat (s.ctx c).vf 2) hi hn h1 h2 h3 h4)
  have body : sysSetBody a r c .s s = _ := sysSetBody_wpc hi hn
  refine ⟨fun en => ?disarms, fun en bad => ?misaligned, fun en good pa hm => ?mapped⟩
  case disarms =>
    rw [if_neg (Bool.eq_false_iff.1 en)] at body
    exact h.arms hf rfl body hx
  case misaligned =>
    rw [if_pos en, armBody_of_bad rfl rfl bad] at body
    exact h.raises hf body rfl
  case mapped =>
    rw [if_pos en, armBody_of_mapped rfl rfl good hm] at body
    refine ⟨fun refused => ?_, fun passed nohome => ?_, fun passed home held => ?_, fun passed home free => ?_⟩
    · rw [if_pos refused] at body
      exact h.raisesAfter hf rfl body ((Looked.deny s _ _ _).trans (.logAf _ _ _ _))
    · rw [if_neg (Bool.eq_false_iff.1 passed)] at body
      refine h.raisesAfter hf rfl (body.trans ?_) (Looked.logAf s (dieOf c) y.vf ⟨va, c, .read, 4⟩)
      split
      · exact absurd (.inl ⟨_, by assumption⟩) nohome
      · exact absurd (.inr ⟨_, by assumption⟩) nohome
      · rfl
    · rw [if_neg (Bool.eq_false_iff.1 passed), if_pos held] at body
      refine h.waitsHeld hf rfl (body.trans ?_)
      rcases home with ⟨st, e⟩ | ⟨d, e⟩ <;> rw [e]
    · rw [if_neg (Bool.eq_false_iff.1 passed), if_neg (Bool.eq_false_iff.1 free)] at body
      refine h.arms (l := kept ++ [⟨y.task, i, pa, size⟩]) (g := fun y => { y with wpc := Tab.set 0 y.wpc i v }) hf rfl (body.trans ?_) hx
      rcases home with ⟨st, e⟩ | ⟨d, e⟩ <;> rw [e]

/-- R116, R123. -/
theorem Sys2Proof.Machine.trapAndBrkStopTheCore : TrapAndBrkStopTheCore := by
  intro s c k n m
  refine ⟨fun a h => ?_, fun h => ?_⟩
  · exact h.changesCore (fits_scalar (n := n)) (fun x => { x with stops := x.stops ++ [⟨1, k, 0x03, m, s.rd c k a⟩] }) rfl rfl
      (fun _ j => by cases j <;> rfl) (fun _ => rfl) (fun _ => rfl) fun _ => rfl
  · exact h.changesCore (fits_scalar (n := n)) (fun x => { x with stops := x.stops ++ [⟨1, k, 0x02, m, (s.str c k).pc⟩] }) rfl rfl
      (fun _ j => by cases j <;> rfl) (fun _ => rfl) (fun _ => rfl) fun _ => rfl

/-- Settles O17: `watchpointsArmByR318` and `trapAndBrkStopTheCore`. -/
theorem watchpointsAndTrapsFollowR318AndR116 : Obligations.WatchpointsAndTrapsFollowR318AndR116 :=
  ⟨watchpointsArmByR318, trapAndBrkStopTheCore⟩

end

section
/-!
SUPPORT. sysget and sysset (spec/05 R113 to R115): the registers of the map, and what each write leaves.
-/

namespace Sys2Proof.Machine

variable {s : State} {c : Nat} {k : StrandIx} {n : Ann} {a : Reg} {r : BitVec 8} {v : Word}

/-! ### The registers of the map -/

/-- The numbers of R114. -/
theorem sysAssigned_cases : ∀ r : BitVec 8, sysAssigned r = true →
    r = 0x00 ∨ r = 0x01 ∨ r = 0x02 ∨ r = 0x03 ∨ r = 0x04 ∨ r = 0x05 ∨ r = 0x06 ∨ r = 0x07 ∨ r = 0x10 ∨ r = 0x11 ∨ r = 0x18 ∨ r = 0x19 ∨
    r = 0x1A ∨ r = 0x1B ∨ r = 0x1C ∨ r = 0x20 ∨ r = 0x21 ∨ r = 0x22 ∨ r = 0x28 ∨ r = 0x29 ∨
    (∃ i < 4, r.toNat = 0x30 + 2 * i) ∨ ∃ i < 4, r.toNat = 0x31 + 2 * i := by decide

theorem sysAssigned_of_formed {d : Reg} (h : fieldReason (.sysget n d r) = none) : sysAssigned r = true := by
  by_contra hr
  rw [show fieldReason (.sysget n d r) = reason56 true (sysAssigned r) from rfl, Bool.eq_false_iff.2 hr] at h
  exact absurd h (by decide)

theorem sysRead_wpa {i : Nat} (hi : i < 4) (hr : r.toNat = 0x30 + 2 * i) : s.sysRead c k r = Tab.get 0 (s.ctx c).wpa i := by
  rw [State.sysRead, hr]
  interval_cases i <;> rfl

theorem sysRead_wpc {i : Nat} (hi : i < 4) (hr : r.toNat = 0x31 + 2 * i) : s.sysRead c k r = Tab.get 0 (s.ctx c).wpc i := by
  rw [State.sysRead, hr]
  interval_cases i <;> rfl

/-- What a sysget of an assigned number reads is the register of that number. -/
theorem sysRegister_sysRead (h : sysAssigned r = true) : SysRegister s c k r (s.sysRead c k r) := by
  refine (sysAssigned_cases r h).imp ?_ <| .imp ?_ <| .imp ?_ <| .imp ?_ <| .imp ?_ <| .imp ?_ <| .imp ?_ <| .imp ?_ <| .imp ?_ <| .imp ?_ <|
    .imp ?_ <| .imp ?_ <| .imp ?_ <| .imp ?_ <| .imp ?_ <| .imp ?_ <| .imp ?_ <| .imp ?_ <| .imp ?_ <| .imp ?_ <| .imp ?wpa ?wpc
  case wpa => exact fun ⟨i, hi, hr⟩ => ⟨i, hi, hr, sysRead_wpa hi hr⟩
  case wpc => exact fun ⟨i, hi, hr⟩ => ⟨i, hi, hr, sysRead_wpc hi hr⟩
  all_goals
    rintro rfl
    exact ⟨rfl, rfl⟩

/-! ### Writes of the registers of a strand -/

theorem sysWrite_eq (t : Strand) (v : Word) : ∀ {r : BitVec 8}, r.toNat ≤ 7 → t.sysWrite r.toNat v = StrandWritten t r v := by
  have count : min v.toNat (2 ^ 32 - 1) = if v.toNat < 2 ^ 32 then v.toNat else 2 ^ 32 - 1 := by split <;> omega
  have first : ∀ r : BitVec 8, r.toNat ≤ 7 → r = 0 ∨ r = 1 ∨ r = 2 ∨ r = 3 ∨ r = 4 ∨ r = 5 ∨ r = 6 ∨ r = 7 := by decide
  intro r hr
  rw [StrandWritten, ← count]
  rcases first r hr with rfl | rfl | rfl | rfl | rfl | rfl | rfl | rfl <;> rfl

/-- A write of a system register keeps the issue count, the pending bits and the registers of its strand. -/
theorem strandWritten_keeps (t : Strand) (r : BitVec 8) (v : Word) :
    (StrandWritten t r v).ic = t.ic ∧ (StrandWritten t r v).pend = t.pend ∧ ∀ g, (StrandWritten t r v).rd g = t.rd g := by
  unfold StrandWritten
  dsimp only
  repeat' split
  all_goals exact ⟨rfl, rfl, fun _ => rfl⟩

theorem sysLate_of_strand (hr : r.toNat ≤ 7) (h : r = 0 → GoodStatus s c (s.rd c k a)) : sysLate a r s c k = none := by
  rw [sysLate, sysValueReason]
  split
  case isTrue zero =>
    obtain ⟨reserved, bit, mode, debug, stochastic⟩ := h (BitVec.eq_of_toNat_eq zero)
    have low : ¬ sstRm (s.rd c k a) ≥ 6 := Nat.not_le.2 mode
    have pdm : (sstPdm (s.rd c k a) && !s.feat (s.ctx c).vf 3) = false := by
      cases hd : sstPdm (s.rd c k a) with
      | false => rfl
      | true => rw [debug hd]; rfl
    have stoch : (sstRm (s.rd c k a) == 5 && !s.feat (s.ctx c).vf 2) = false := by
      by_cases hm : sstRm (s.rd c k a) = 5
      · rw [stochastic hm, Bool.not_true, Bool.and_false]
      · rw [beq_eq_false_iff_ne.2 hm, Bool.false_and]
    rw [sstReason, reserved, bit, decide_eq_false low, pdm, stoch]
    rfl
  case isFalse other =>
    have wpc : isWpc r.toNat = false := by
      rw [isWpc, decide_eq_false (by omega : ¬ 0x30 ≤ r.toNat)]
      rfl
    rw [if_neg (by omega), if_neg (by omega), if_neg (by omega), wpc]
    rfl

/-- A ready sysset of a register that its strand holds. -/
theorem Ready.writesStrand (h : Ready s c k (.sysset n a r) n allStr [a] []) (hr : r.toNat ≤ 7) (hs : r = 0 → GoodStatus s c (s.rd c k a))
    (hd : r = 1 → k = .c → (s.core c).drawing = false) :
    Leaves (.sysset n a r) n s c k (StrandWritten (s.str c k) r (s.rd c k a)) (s.core c) (s.ctx c) := by
  have goes : (r.toNat = 1 && k = .c && (s.core c).drawing) = false := by
    by_cases h1 : r.toNat = 1
    · by_cases hk : k = .c
      · rw [hd (BitVec.eq_of_toNat_eq h1) hk, Bool.and_false]
      · rw [decide_eq_false hk, Bool.and_false, Bool.false_and]
    · rw [decide_eq_false h1, Bool.false_and, Bool.false_and]
  have body : sysSetBody a r c k s = .go (s.mapStr c k (·.sysWrite r.toNat (s.rd c k a))) .fall :=
    (if_pos hr).trans (if_neg (Bool.eq_false_iff.1 goes))
  obtain ⟨ic, pend, regs⟩ := strandWritten_keeps (s.str c k) r (s.rd c k a)
  refine h.leaves (fits_sysset (.inr hr) (sysLate_of_strand hr hs)) body rfl ((State.str_mapStr_self s c k _).trans (sysWrite_eq _ _ hr)) ic regs pend
    (fun j hj => State.str_mapStr_ne s c _ hj) ?_ ?_ ?_ ?_ (fun e he => State.core_mapStr_ne s _ _ he) (State.portRead_mapStr s c k _) (.mapStr s c k _)
  · rw [State.core_mapStr_self, Core.mapStr_took]
  · rw [State.core_mapStr_self, Core.mapStr_nord]
  · rw [State.core_mapStr_self]; exact Core.mapStr_units _ _ _
  · rw [State.ctx_mapStr]; exact .refl _

/-! ### Writes of the registers of the context and the core -/

/-- A ready word whose rule changes the special registers of its context. -/
theorem Ready.changesCtx {i : Instr} {who : List StrandIx} {rs ds : List Reg} {f : Info} {body : Nat → StrandIx → State → Act} (g : Ctx → Ctx)
    (h : Ready s c k i n who rs ds) (hf : Fits f s c k i n who rs ds) (he : exec i s = issue i f body s) (hx : (s.core c).ctx.isSome)
    (hb : body c k s = .go (s.mapCtx c g) .fall) : LeavesCore i n s c k (s.core c) (g (s.ctx c)) := by
  have core : (s.mapCtx c g).core c = { s.core c with ctx := (s.core c).ctx.map g } := State.core_mapCtx_self s c g
  refine h.leavesCore hf hb he (fun j => State.str_mapCtx s c c g j) (by rw [core]) (by rw [core]) ?_ ?_ (fun e hne => State.core_mapCtx_ne s g hne)
    (State.portRead_congr (fun _ => rfl) fun e a => ?_) (.mapCtx s c g)
  · rw [core]
    constructor
    case scratch => exact fun _ => rfl
    all_goals rfl
  · rw [State.ctx_mapCtx_self s c g hx]; exact .refl _
  · by_cases he : e = c
    · rw [he, core]
    · rw [State.core_mapCtx_ne s g he]

theorem sysValueReason_wpa {p q : Bool} {i : Nat} (hi : i < 4) (hn : r.toNat = 0x30 + 2 * i) : sysValueReason p q r v = none := by
  have wpc : isWpc r.toNat ≠ true := by
    rw [isWpc, hn]
    simp only [ne_eq, Bool.and_eq_true, decide_eq_true_eq, beq_iff_eq]
    omega
  rw [sysValueReason, if_neg (by omega), if_neg (by omega), if_neg (by omega), if_neg (by omega), if_neg wpc]

theorem sysSetBody_wpa {i : Nat} (hi : i < 4) (hn : r.toNat = 0x30 + 2 * i) :
    sysSetBody a r c k s = .go (s.mapCtx c (fun x => { x with wpa := Tab.set 0 x.wpa i (s.rd c k a) })) .fall := by
  have wpa : isWpa r.toNat = true := by
    rw [isWpa, hn]
    simp only [Bool.and_eq_true, decide_eq_true_eq, beq_iff_eq]
    omega
  have index : (r.toNat - 0x30) / 2 = i := by omega
  rw [sysSetBody]
  dsimp only
  rw [if_neg (by omega), if_neg (by omega), if_neg (by omega), if_neg (by omega), if_neg (by omega), if_pos wpa, index]

/-- A value of tagcfg that R157 allows. -/
theorem sysValueReason_tagcfg {p q : Bool} (h1 : v.extractLsb' 34 30 = 0) (h2 : v.getLsbD 24 = false) (h3 : TagCount v ≤ 256)
    (h4 : (v.extractLsb' 20 4).toNat ≤ 6) : sysValueReason p q 0x22 v = none := by
  have form : ¬ (v.extractLsb' 34 30 ≠ 0 || v.getLsbD 24) = true := by
    rw [decide_eq_false (not_not.2 h1), h2]
    exact Bool.false_ne_true
  have size : ¬ (tagCount v > 256 || (v.extractLsb' 20 4).toNat > 6) = true := by
    simp only [Bool.or_eq_true, decide_eq_true_eq, not_or, not_lt]
    exact ⟨h3, h4⟩
  exact (if_neg form).trans (if_neg size)

/-- What a sysset of tagcfg does by its own rule (R158). -/
theorem sysSetBody_tagcfg (hv : s.rd c k a = v) : sysSetBody a 0x22 c k s =
    if TagBase v % TagSlotBytes v ≠ 0 then .fault s 0x07 (BitVec.ofNat 64 (TagBase v))
    else if (s.ctx c).scrsize < TagBase v + TagCount v * TagSlotBytes v then
      .fault s 0x06 (BitVec.ofNat 64 (TagBase v + TagCount v * TagSlotBytes v))
    else .go (s.mapCore c fun x => TagWritten { x with tagcfg := v } k none none) .fall := by
  subst hv
  rfl

end Sys2Proof.Machine
end

section

open Sys2Proof Sys2Proof.Machine

/-- R113, R114: a sysget. -/
theorem Sys2Proof.Machine.sysgetLandsTheRegister : SysgetLandsTheRegister := by
  intro s c k n d r h hk hr
  have assigned := sysAssigned_of_formed h.formed
  refine ⟨s.sysRead c k r, sysRegister_sysRead assigned, ?_⟩
  exact h.startsOp (fits_system (late := fun _ _ _ => none) (l := []) (fun _ _ => Instr.noConfusion) (fun hs => sOnlyReg_of_le (hk.resolve_left hs)) rfl fun _ => hr)
    rfl rfl rfl

/-- R113 to R115, R158: a sysset. -/
theorem Sys2Proof.Machine.syssetWritesTheRegister : SyssetWritesTheRegister := by
  intro s c k n a r h v x y
  refine ⟨fun hr hs hd => h.writesStrand hr hs hd, fun hk hx => ⟨?tvec, ?tcause, ?tval, ?tagcfg, ?wpa⟩⟩
  case tvec =>
    rintro rfl low
    have hf := fits_sysset (n := n) (r := 0x18) (.inl hk) (show sysLate a 0x18 s c k = none from if_neg (not_not.2 low))
    refine ⟨fun good => ?_, fun bad => ?_⟩
    · have can := (canonical_iff v).2 good
      exact h.changesCtx (fun y => { y with tvec := v }) hf rfl hx (if_neg (by rw [show canonical (s.rd c k a) = true from can]; exact Bool.false_ne_true))
    · rw [← canonical_iff] at bad
      exact h.raises hf (if_pos (by rw [show canonical (s.rd c k a) = false from Bool.eq_false_iff.2 bad]; rfl)) rfl
  case tcause =>
    rintro rfl high middle
    have late : sysLate a 0x19 s c k = none := if_neg (by rw [decide_eq_false (not_not.2 high), decide_eq_false (not_not.2 middle)]; exact Bool.false_ne_true)
    exact h.changesCtx (fun y => { y with tcause := v }) (fits_sysset (.inl hk) late) rfl hx rfl
  case tval =>
    rintro rfl
    exact h.changesCtx (fun y => { y with tval := v }) (fits_sysset (.inl hk) rfl) rfl hx rfl
  case tagcfg =>
    rintro rfl high bit count size
    have hf := fits_sysset (n := n) (r := 0x22) (.inl hk) (show sysLate a 0x22 s c k = none from sysValueReason_tagcfg high bit count size)
    have body : sysSetBody a 0x22 c k s = _ := sysSetBody_tagcfg (v := v) rfl
    refine ⟨fun bad => ?_, fun aligned beyond => ?_, fun aligned inside => ?_⟩
    · exact h.raises hf (body.trans (if_pos bad)) rfl
    · exact h.raises hf (body.trans ((if_neg (not_not.2 aligned)).trans (if_pos beyond))) rfl
    · exact h.changesCore hf (fun x => TagWritten { x with tagcfg := v } k none none)
        (body.trans ((if_neg (not_not.2 aligned)).trans (if_neg (Nat.not_lt.2 inside)))) rfl (fun _ j => by cases j <;> rfl)
        (fun _ => rfl) (fun _ => rfl) fun _ => rfl
  case wpa =>
    intro i hi hn
    exact h.changesCtx (fun y => { y with wpa := Tab.set 0 y.wpa i v }) (fits_sysset (.inl hk) (sysValueReason_wpa hi hn)) rfl hx (sysSetBody_wpa hi hn)

/-- Settles O16: `sysgetLandsTheRegister` and `syssetWritesTheRegister`. -/
theorem systemRegisterWordsFollowR114AndR115 : Obligations.SystemRegisterWordsFollowR114AndR115 :=
  ⟨sysgetLandsTheRegister, syssetWritesTheRegister⟩

end

section
/-!
SUPPORT. What the landing of a handler's results, the device's own writes, trace records and the replay of a tadpole area leave of the
strands of a core, of its stops and of the other cores (spec/06 R128, R137).
-/

namespace Sys2Proof.Machine

/-! ### Changes that no strand and no stop notices -/

/-- Two states with the same strands and the same stops. -/
structure Steady (s t : State) : Prop where
  strands : ∀ e k, t.str e k = s.str e k
  stops   : ∀ e, (t.core e).stops = (s.core e).stops

theorem Steady.refl (s : State) : Steady s s := ⟨fun _ _ => rfl, fun _ => rfl⟩

theorem Steady.trans {s t u : State} (a : Steady s t) (b : Steady t u) : Steady s u :=
  ⟨fun e k => (b.strands e k).trans (a.strands e k), fun e => (b.stops e).trans (a.stops e)⟩

theorem Steady.foldl {α : Type} (f : State → α → State) (h : ∀ s a, Steady s (f s a)) : ∀ (l : List α) (s : State), Steady s (l.foldl f s)
  | [], s => .refl s
  | a :: l, s => (h s a).trans (Steady.foldl f h l (f s a))

theorem Steady.of_core {s t : State} (h : ∀ e, t.core e = s.core e) : Steady s t :=
  ⟨fun e k => by rw [State.str, h]; rfl, fun e => by rw [h]⟩

theorem Looked.steady {s t : State} (h : Looked s t) : Steady s t := .of_core h.core

theorem Noted.steady {s t : State} (h : Noted s t) : Steady s t := ⟨h.str, fun e => by rw [h.cores]⟩

theorem Steady.mapCore (s : State) (c : Nat) (f : Core → Core) (hk : ∀ x k, (f x).str k = x.str k) (hs : ∀ x, (f x).stops = x.stops) :
    Steady s (s.mapCore c f) := by
  refine ⟨fun e k => ?_, fun e => ?_⟩ <;> by_cases he : e = c
  · rw [he, State.str, State.core_mapCore_self, hk]; rfl
  · rw [State.str, State.core_mapCore_ne s f he]; rfl
  · rw [he, State.core_mapCore_self, hs]
  · rw [State.core_mapCore_ne s f he]

theorem Steady.mapCtx (s : State) (c : Nat) (f : Ctx → Ctx) : Steady s (s.mapCtx c f) :=
  .mapCore s c _ (fun _ k => by cases k <;> rfl) fun _ => rfl

theorem Steady.mapTask (s : State) (n : Nat) (f : Ctx → Ctx) : Steady s (s.mapTask n f) := by
  rw [State.mapTask]
  split
  · exact .mapCtx s _ f
  · exact .of_core fun _ => rfl

theorem Steady.hitOne (wr : Writer) (ix : List Nat) (s : State) (a : Armed) : Steady s (hitOne wr ix s a) := by
  rw [Machine.hitOne]
  split
  · exact .refl s
  · exact .mapTask s _ _

theorem Steady.portWrite (s : State) (wr : Writer) (pa : Nat) (bs : List (Option Byte)) : Steady s (s.portWrite wr pa bs) := by
  rw [State.portWrite]
  dsimp only
  split
  · exact .refl s
  split
  · exact .mapCore s _ _ (fun _ k => by cases k <;> rfl) fun _ => rfl
  · refine Steady.trans ?_ (.foldl _ (Steady.hitOne wr _) _ _)
    split <;> exact .of_core fun _ => rfl

theorem Steady.devGranule (c : Nat) (s : State) (e : Nat × List (Option Byte)) : Steady s (devGranule c s e) := by
  rw [Machine.devGranule]
  split
  · exact .of_core fun _ => rfl
  · exact .portWrite s ..

theorem Steady.devWriteF (c : Nat) : ∀ (n : Nat) (s : State) (va : Word) (bs : List Byte), Steady s (devWriteF s c n va bs)
  | 0, s, _, _ => .refl s
  | n + 1, s, va, bs => by
    rw [Machine.devWriteF]
    split
    · exact .refl s
    refine Steady.trans ?_ (Steady.devWriteF c n _ _ _)
    split
    · exact .foldl _ (Steady.devGranule c) _ s
    · exact .refl s

theorem Steady.devWrite (s : State) (c : Nat) (va : Word) (bs : List Byte) : Steady s (devWrite s c va bs) := .devWriteF c _ s va bs

/-! ### Changes of one core -/

/-- Two states that agree in every core but `c`. -/
def OnlyCore (c : Nat) (s t : State) : Prop := ∀ e, e ≠ c → t.core e = s.core e

theorem OnlyCore.refl (c : Nat) (s : State) : OnlyCore c s s := fun _ _ => rfl
theorem OnlyCore.trans {c : Nat} {s t u : State} (a : OnlyCore c s t) (b : OnlyCore c t u) : OnlyCore c s u := fun e he => (b e he).trans (a e he)

theorem OnlyCore.foldl {c : Nat} {α : Type} (f : State → α → State) (h : ∀ s a, OnlyCore c s (f s a)) :
    ∀ (l : List α) (s : State), OnlyCore c s (l.foldl f s)
  | [], s => .refl c s
  | a :: l, s => (h s a).trans (OnlyCore.foldl f h l (f s a))

theorem OnlyCore.mapCore (s : State) (c : Nat) (f : Core → Core) : OnlyCore c s (s.mapCore c f) := fun _ he => State.core_mapCore_ne s f he
theorem OnlyCore.mapStr (s : State) (c : Nat) (k : StrandIx) (f : Strand → Strand) : OnlyCore c s (s.mapStr c k f) := fun _ he => State.core_mapStr_ne s k f he
theorem OnlyCore.mapCtx (s : State) (c : Nat) (f : Ctx → Ctx) : OnlyCore c s (s.mapCtx c f) := fun _ he => State.core_mapCtx_ne s f he
theorem Looked.onlyCore {s t : State} (h : Looked s t) (c : Nat) : OnlyCore c s t := fun e _ => h.core e
theorem OnlyCore.str {c : Nat} {s t : State} (h : OnlyCore c s t) {e : Nat} (he : e ≠ c) : t.str e = s.str e := by
  funext k
  rw [State.str, h e he]
  rfl

theorem OnlyCore.landGroup (s : State) (c : Nat) (g : VGroup) : OnlyCore c s (landGroup s c g) := by
  intro e he
  rw [Machine.landGroup]
  split <;> split <;> simp [State.raiseOp, he]

theorem OnlyCore.landGroups (c ic : Nat) : ∀ (l : List VGroup) (s : State) (cur : Nat), OnlyCore c s (landGroups s c ic cur l).1
  | [], s, _ => .refl c s
  | g :: gs, s, cur => by
    rw [Machine.landGroups]
    split
    · exact .refl c s
    dsimp only
    split
    · exact .landGroup s c g
    · exact (OnlyCore.landGroup s c g).trans (OnlyCore.landGroups c ic gs _ _)

theorem OnlyCore.landOp (c ic : Nat) (s : State) (o : Op) : OnlyCore c s (landOp c ic s o).1 := by
  rw [Machine.landOp]
  split
  · split
    · exact OnlyCore.mapStr s c _ _
    · exact .refl c s
  · split
    · exact OnlyCore.mapCore s c _
    · exact .refl c s
  · split <;> exact .refl c s
  · exact .refl c s
  · dsimp only
    split <;> exact .landGroups c ic _ s _

theorem OnlyCore.landOps (c ic : Nat) (k : StrandIx) : ∀ (l : List Op) (s : State), OnlyCore c s (landOps c ic k s l).1
  | [], s => .refl c s
  | o :: l, s => by
    have h := OnlyCore.landOp c ic s o
    rw [Machine.landOps]
    split
    · split <;> rename_i e <;> rw [e] at h <;> exact h.trans (OnlyCore.landOps c ic k l _)
    · exact OnlyCore.landOps c ic k l s

theorem OnlyCore.landHandler (s : State) (c : Nat) : OnlyCore c s (landHandler s c) := by
  rw [Machine.landHandler]
  exact .foldl _ (fun s j => (OnlyCore.landOps c _ .s _ s).trans (.mapCore _ c _)) _ s

/-! ### A strand as its block says -/

/-- A strand that differs from another in its fetch wait, its words to retire, its store buffer and its issue of this clock cycle alone. -/
def Restored (t u : Strand) : Prop := u = { t with fwait := u.fwait, ret := u.ret, sb := u.sb, held := u.held, issued := u.issued }

theorem Restored.refl (t : Strand) : Restored t t := rfl
theorem Restored.trans {t u v : Strand} (a : Restored t u) (b : Restored u v) : Restored t v := by
  unfold Restored at *
  rw [b, a]

theorem Restored.resumeRet (t : Strand) (only : List Nat) : Restored t (t.resumeRet only) := rfl

/-! ### The replay of records -/

/-- What the replay of records into core `c` leaves: its strands but for their words to retire and their store buffers, its stops and its
context, and the other cores. -/
structure Replays (c : Nat) (s t : State) : Prop where
  strands : ∀ k, Restored (s.str c k) (t.str c k)
  stops   : (t.core c).stops = (s.core c).stops
  ctx     : (t.core c).ctx = (s.core c).ctx
  cores   : OnlyCore c s t

theorem Replays.refl (c : Nat) (s : State) : Replays c s s := ⟨fun _ => rfl, rfl, rfl, .refl c s⟩
theorem Replays.trans {c : Nat} {s t u : State} (a : Replays c s t) (b : Replays c t u) : Replays c s u :=
  ⟨fun k => (a.strands k).trans (b.strands k), b.stops.trans a.stops, b.ctx.trans a.ctx, a.cores.trans b.cores⟩

theorem Replays.foldl {c : Nat} {α : Type} (f : State → α → State) (h : ∀ s a, Replays c s (f s a)) :
    ∀ (l : List α) (s : State), Replays c s (l.foldl f s)
  | [], s => .refl c s
  | a :: l, s => (h s a).trans (Replays.foldl f h l (f s a))

theorem Looked.replays {s t : State} (h : Looked s t) (c : Nat) : Replays c s t :=
  ⟨fun k => by rw [h.str]; exact .refl _, by rw [h.core], by rw [h.core], h.onlyCore c⟩

section
variable (s : State) (c : Nat)

theorem Replays.mapCore (f : Core → Core) (hk : ∀ x k, (f x).str k = x.str k) (hs : ∀ x, (f x).stops = x.stops) (hc : ∀ x, (f x).ctx = x.ctx) :
    Replays c s (s.mapCore c f) := by
  refine ⟨fun k => ?_, ?_, ?_, .mapCore s c f⟩
  · rw [State.str, State.str, State.core_mapCore_self, hk]; exact .refl _
  · rw [State.core_mapCore_self, hs]
  · rw [State.core_mapCore_self, hc]

theorem Replays.mapStr (k : StrandIx) (f : Strand → Strand) (h : ∀ t, Restored t (f t)) : Replays c s (s.mapStr c k f) := by
  refine ⟨fun j => ?_, ?_, ?_, .mapStr s c k f⟩
  · by_cases hj : j = k
    · rw [hj, State.str_mapStr_self]; exact h _
    · rw [State.str_mapStr_ne s c f hj]; exact .refl _
  · rw [State.core_mapStr_self]; cases k <;> rfl
  · rw [State.core_mapStr_self, Core.mapStr_ctx]

theorem Replays.addOp (o : Op) : Replays c s (s.addOp c o) :=
  .mapCore s c _ (fun _ k => by cases k <;> rfl) (fun _ => rfl) fun _ => rfl

theorem Core.scrWrite_strands (x : Core) (a : Nat) (bs : List Byte) : (∀ k, (x.scrWrite a bs).str k = x.str k) ∧ (x.scrWrite a bs).stops = x.stops := by
  rw [Core.scrWrite]
  split
  · exact ⟨fun _ => rfl, rfl⟩
  · exact ⟨fun k => by cases k <;> rfl, rfl⟩

theorem Replays.scrWrite (a : Nat) (bs : List Byte) : Replays c s (s.mapCore c (·.scrWrite a bs)) :=
  .mapCore s c _ (fun x => (x.scrWrite_strands a bs).1) (fun x => (x.scrWrite_strands a bs).2) fun x => x.scrWrite_ctx a bs

theorem Replays.replayGld (o : Op) (d : Reg) (q : Bool) : Replays c s (replayGld s c o d q) := .addOp s c _

theorem Replays.replayCmd (area : List Byte) (r : TadRec) (ord seq : Nat) : Replays c s (replayCmd s c area r ord seq) := by
  rw [Machine.replayCmd]
  refine .mapCore s c _ (fun x k => ?_) (fun x => ?_) fun x => ?_
  · split <;> cases k <;> rfl
  · split <;> rfl
  · split <;> rfl

theorem Replays.replayMx (r : TadRec) (ord seq : Nat) : Replays c s (replayMx s c r ord seq) := by
  rw [Machine.replayMx]
  exact .mapCore s c _ (fun _ k => by cases k <;> rfl) (fun _ => rfl) fun _ => rfl

theorem Looked.vecOp (i : Instr) (v : VWord) (n mode ord seq ic elap cur : Nat) (sgn bd ba bb : Word) :
    Looked s (vecOp i v c n mode ord seq ic elap cur sgn bd ba bb s).1 := by
  rw [Machine.vecOp]
  dsimp only
  split
  · exact .warn s ..
  · exact .refl s

theorem Replays.replayVec (v : VWord) (r : TadRec) (ord seq : Nat) : Replays c s (replayVec s c v r ord seq) :=
  ((Looked.vecOp s c ..).replays c).trans (.addOp _ c _)

/-- One record changes its unit's queue and what its strand has to retire. -/
theorem Replays.replayOne (area : List Byte) (e : TadRec × Nat) : Replays c s (replayOne c area s e) := by
  have retire : ∀ (u : State) (l : List RetEnt), Replays c u (u.mapStr c e.1.k fun t => { t with ret := t.ret ++ l }) :=
    fun u l => .mapStr u c _ _ fun _ => rfl
  rw [Machine.replayOne]
  dsimp only
  split
  · exact retire s _
  split
  · exact .mapStr s c _ _ fun _ => rfl
  · exact (Replays.replayGld s c ..).trans (retire _ _)
  iterate 7 exact (Replays.addOp s c _).trans (retire _ _)
  iterate 5 exact ((Replays.addOp s c _).trans (.scrWrite _ c _ _)).trans (retire _ _)
  · split
    · exact (Replays.replayVec s c ..).trans (retire _ _)
    · exact (Replays.replayMx s c ..).trans (retire _ _)
    · split
      · exact .replayCmd s c ..
      · refine Replays.trans ?_ ((Replays.addOp _ c _).trans (retire _ _))
        split
        · exact (Looked.warn s ..).replays c
        · exact .refl c s

end
end Sys2Proof.Machine
end

section
/-!
SUPPORT. The return from a handler (spec/05 R117, spec/06 R128 to R130, R136, R137): a strand as its block says, and what tret does at
DEPTH 1 and 2.
-/

namespace Sys2Proof.Machine

/-! ### The words of an area -/

theorem areaWord_eq (b : List Byte) (o : Nat) : AreaWord b o = wordAt b o := by rw [AreaWord, wordAt, fieldAt, numberOf_eq_leNat]

theorem toNat_areaWord (b : List Byte) (o : Nat) : (AreaWord b o).toNat = fieldAt b o 8 := by
  have lt : fieldAt b o 8 < 2 ^ 64 := by
    have long := leNat_lt ((b.drop o).take 8)
    exact long.trans_le (Nat.pow_le_pow_right (by decide) (List.length_take_le 8 _))
  rw [areaWord_eq, wordAt, BitVec.toNat_ofNat, Nat.mod_eq_of_lt lt]

/-- A field of four bytes is the low half of a word. -/
theorem ofNat_fieldAt_four (b : List Byte) (o : Nat) : BitVec.ofNat 32 (fieldAt b o 4) = (AreaWord b o).setWidth 32 := by
  have low : fieldAt b o 4 = fieldAt b o 8 % 256 ^ 4 := by
    rw [fieldAt, fieldAt, ← leNat_take, List.take_take]
    rfl
  refine BitVec.eq_of_toNat_eq ?_
  rw [BitVec.toNat_ofNat, BitVec.toNat_setWidth, toNat_areaWord, low]
  exact Nat.mod_mod _ _

/-- The bits of a STATE word as the model tests them. -/
theorem getLsbD_areaWord (b : List Byte) (o j : Nat) : (AreaWord b o).getLsbD j = decide (fieldAt b o 8 / 2 ^ j % 2 = 1) := by
  rw [BitVec.getLsbD, toNat_areaWord, Nat.testBit_eq_decide_div_mod_eq]

/-! ### A strand from its block -/

/-- The registers of a block, g1 first. -/
theorem get_foldl_set (f : Nat → Word) (n r : Nat) : Tab.get 0 ((List.range n).foldl (fun t r => Tab.set 0 t (r + 1) (f r)) []) r =
    if 0 < r ∧ r ≤ n then f (r - 1) else 0 := by
  induction n with
  | zero => rw [if_neg (by omega)]; rfl
  | succ n ih =>
    rw [List.range_succ, List.foldl_append, List.foldl_cons, List.foldl_nil]
    by_cases hr : r = n + 1
    · rw [hr, Tab.get_set_self, if_pos (by omega), Nat.add_sub_cancel]
    · rw [Tab.get_set_ne _ _ _ hr, ih]
      exact if_congr (by omega) rfl rfl

section
variable {b : List Byte} {o : Nat}

theorem blockStrand_of_idle (h : (AreaWord b (o + 0x58)).getLsbD 0 = false) : blockStrand b o = {} := by
  rw [getLsbD_areaWord, decide_eq_false_iff_not] at h
  exact if_pos (by omega)

/-- The strand of a block that says it was started. -/
theorem blockStrand_of_started (h : (AreaWord b (o + 0x58)).getLsbD 0 = true) : blockStrand b o =
    { pc := AreaWord b o, sst := AreaWord b (o + 8), sgn := if AreaWord b (o + 0x10) = 0 then 1 else AreaWord b (o + 0x10)
      ls0 := AreaWord b (o + 0x18), le0 := AreaWord b (o + 0x20), lc0 := (AreaWord b (o + 0x28)).setWidth 32
      ls1 := AreaWord b (o + 0x30), le1 := AreaWord b (o + 0x38), lc1 := (AreaWord b (o + 0x40)).setWidth 32
      ic := (AreaWord b (o + 0x48)).toNat, pend := (AreaWord b (o + 0x50)).setWidth 32
      started := true, running := (AreaWord b (o + 0x58)).getLsbD 1, exiting := (AreaWord b (o + 0x58)).getLsbD 2
      g := (List.range 31).foldl (fun t r => Tab.set 0 t (r + 1) (AreaWord b (o + 0x108 + 8 * r))) [] } := by
  rw [getLsbD_areaWord, decide_eq_true_eq] at h
  rw [blockStrand]
  simp only [← areaWord_eq, ← toNat_areaWord, ofNat_fieldAt_four, getLsbD_areaWord]
  rw [toNat_areaWord, if_neg (by omega)]
  rfl

/-- A restored strand holds its block. -/
theorem holdsBlock_of_restored {t : State} {c : Nat} {k : StrandIx} {n : Nat} (h : Restored { blockStrand b o with ic := n } (t.str c k)) :
    HoldsBlock t c k b o := by
  have regs : ∀ r, t.rd c k r = (blockStrand b o).rd r := fun r => by rw [State.rd, h]; rfl
  rw [HoldsBlock]
  refine ⟨fun idle => ?_, fun started => ?_⟩
  · rw [h, blockStrand_of_idle idle]
    exact ⟨rfl, rfl⟩
  · rw [blockStrand_of_started started] at h regs
    rw [h]
    refine ⟨rfl, rfl, rfl, rfl, rfl, rfl, rfl, rfl, rfl, rfl, rfl, rfl, fun r hr => ?_⟩
    have pos : 0 < r.toNat := Nat.pos_of_ne_zero fun e => hr (BitVec.eq_of_toNat_eq e)
    have le : r.toNat ≤ 31 := Nat.le_of_lt_succ r.isLt
    rw [regs, Strand.rd, if_neg hr]
    refine (get_foldl_set (fun j => AreaWord b (o + 0x108 + 8 * j)) 31 r.toNat).trans ?_
    rw [if_pos ⟨pos, le⟩]
    congr 1
    omega

theorem ic_of_restored {u : Strand} (h : Restored (blockStrand b o) u) (started : (AreaWord b (o + 0x58)).getLsbD 0 = true) :
    u.ic = (AreaWord b (o + 0x48)).toNat := by
  rw [h, blockStrand_of_started started]

end

/-! ### The return to DEPTH 0 -/

section
variable {s t : State} {c : Nat} {z : Ctx}

/-- Every strand is as its block says, and nothing else but the units of the core has changed. -/
structure Resumed (s t : State) (c : Nat) (save : List Byte) : Prop where
  strands : ∀ k, Restored (blockStrand save (blockAt k)) (t.str c k)
  stops   : (t.core c).stops = (s.core c).stops
  ctx     : (t.core c).ctx.map Ctx.bare = (s.core c).ctx.map Ctx.bare
  cores   : OnlyCore c s t

theorem resumed_replayAll (s : State) (c : Nat) (area save : List Byte) : Resumed s (replayAll s c area save) c save := by
  rw [replayAll]
  dsimp only
  generalize hu : s.mapCore c _ = u
  have blocks : ∀ k, Restored (blockStrand save (blockAt k)) (u.str c k) := fun k => by
    rw [← hu, State.str, State.core_mapCore_self]
    cases k <;> rfl
  have unstopped : (u.core c).stops = (s.core c).stops := by rw [← hu, State.core_mapCore_self]
  have context : (u.core c).ctx = (s.core c).ctx := by rw [← hu, State.core_mapCore_self]
  have others : OnlyCore c s u := hu ▸ .mapCore s c _
  have replayed := Replays.foldl (c := c) (replayOne c area) (fun s e => .replayOne s c area e) (replayOrders (u.core c) (areaRecords area (fieldAt area 0 8))) u
  generalize List.foldl (replayOne c area) u _ = v at replayed
  refine ⟨fun k => ?_, ?_, ?_, ((others.trans replayed.cores).trans (.mapCtx v c _)).trans (.mapCore _ c _)⟩
  · refine ((blocks k).trans (replayed.strands k)).trans ?_
    rw [State.str, State.str, State.core_mapCore_self, State.core_mapCtx_self]
    cases k <;> exact .resumeRet _ _
  · rw [State.core_mapCore_self, State.core_mapCtx_self]
    exact replayed.stops.trans unstopped
  · rw [State.core_mapCore_self, State.core_mapCtx_self, ← context, ← replayed.ctx]
    cases (v.core c).ctx <;> rfl

theorem Noted.traceResume (s : State) (c : Nat) : Noted s (traceResume s c) := by
  rw [Machine.traceResume]
  refine .foldl _ (fun s k => ?_) _ s
  split
  · exact .trace s ..
  · exact .refl s

/-- The handler is left: DEPTH is 0, and the oldest held cause is raised. -/
theorem leaveHandler_facts (hz : (s.core c).ctx.map Ctx.bare = some z.bare) : Keeps s (devWrite s c (s.ctx c).tsave (n8 0)) ∧
    ((leaveHandler s c).ctx c).depth = 0 ∧ ((leaveHandler s c).ctx c).held = z.held.drop 1 ∧
    ((leaveHandler s c).core c).stops = (s.core c).stops ++ z.held.take 1 ∧ ∀ e k, (leaveHandler s c).str e k = s.str e k := by
  have kept := Keeps.devWrite s c (s.ctx c).tsave (n8 0)
  have steady := Steady.devWrite s c (s.ctx c).tsave (n8 0)
  have context := (kept.contexts c).trans hz
  refine ⟨kept, ?_⟩
  rw [leaveHandler]
  generalize devWrite s c (s.ctx c).tsave (n8 0) = u at steady context
  obtain ⟨y, hy, bare⟩ := Option.map_eq_some_iff.1 context
  have held : y.held = z.held := show y.bare.held = z.bare.held from congrArg Ctx.held bare
  rw [State.ctx_of_some hy]
  refine ⟨?_, ?_, ?_, fun e k => ?_⟩
  · rw [State.ctx, State.core_mapCore_self, State.core_mapCtx_self, hy]; rfl
  · rw [State.ctx, State.core_mapCore_self, State.core_mapCtx_self, hy, ← held]; rfl
  · rw [State.core_mapCore_self, State.core_mapCtx_self, ← held, ← steady.stops]
  · rw [← steady.strands]
    have same : Steady u ((u.mapCtx c fun x => { x with depth := 0, held := y.held.drop 1 })) := .mapCtx u c _
    rw [← same.strands]
    by_cases he : e = c
    · rw [he, State.str, State.core_mapCore_self]; cases k <;> rfl
    · rw [State.str, State.core_mapCore_ne _ _ he]; rfl

/-- What tret at DEPTH 1 leaves once the areas have passed their checks, `s` being the state they are read in. -/
structure Returned (s t : State) (c : Nat) (z : Ctx) (save : List Byte) : Prop where
  depth   : (t.ctx c).depth = 0
  held    : (t.ctx c).held = z.held.drop 1
  stops   : (t.core c).stops = (s.core c).stops ++ z.held.take 1
  strands : ∀ k, Restored (blockStrand save (blockAt k)) (t.str c k)
  cores   : ∀ e, e ≠ c → t.str e = s.str e

theorem returned_leaveHandler (hz : (s.core c).ctx.map Ctx.bare = some z.bare) (area save : List Byte) :
    Returned s (leaveHandler (traceResume (replayAll s c area save) c) c) c z save := by
  have resumed := resumed_replayAll s c area save
  have traced := Noted.traceResume (replayAll s c area save) c
  obtain ⟨-, depth, held, stops, strands⟩ := leaveHandler_facts (s := traceResume (replayAll s c area save) c) (c := c) (z := z)
    (by rw [traced.ctx, resumed.ctx, hz])
  refine ⟨depth, held, ?_, fun k => ?_, fun e he => ?_⟩
  · rw [stops, traced.steady.stops, resumed.stops]
  · rw [strands, traced.str]
    exact resumed.strands k
  · funext k
    rw [strands, traced.str, resumed.cores.str he]

/-! ### The return to DEPTH 1 -/

/-- What tret at DEPTH 2 leaves once the nested frame has passed its checks. -/
structure NestedReturned (s t : State) (c : Nat) (frame : List Byte) : Prop where
  depth  : (t.ctx c).depth = 1
  count  : (t.ctx c).ichold = fieldAt frame 0x948 8
  cause  : (t.ctx c).tcause = wordAt frame 8
  value  : (t.ctx c).tval = wordAt frame 16
  strand : ∃ n, Restored { blockStrand frame 0x900 with ic := n } (t.str c .s)
  others : ∀ k, k ≠ .s → t.str c k = (landHandler s c).str c k
  cores  : ∀ e, e ≠ c → t.str e = s.str e

/-- A core whose nested handler is left, and its context. -/
def Core.unnested (frame : List Byte) (x : Core) : Core := { x with
  s := { blockStrand frame 0x900 with fwait := 1, ic := x.s.ic, sb := x.s.sb }
  ops := x.ops.filter (fun o => o.k != .s) }
def Ctx.unnested (frame : List Byte) (y : Ctx) : Ctx := { y with
  depth := 1, tcause := wordAt frame 8, tval := wordAt frame 16, ichold := fieldAt frame 0x948 8 }

theorem nestedReturned_leaveNested (hx : (s.core c).ctx.isSome) (frame : List Byte) : NestedReturned s (leaveNested s c frame) c frame := by
  have landed := OnlyCore.landHandler s c
  have kept := (Keeps.landHandler s c).trans (.devWrite (landHandler s c) c ((landHandler s c).ctx c).tsave (n8 1))
  have steady := Steady.devWrite (landHandler s c) c ((landHandler s c).ctx c).tsave (n8 1)
  rw [leaveNested]
  generalize devWrite (landHandler s c) c ((landHandler s c).ctx c).tsave (n8 1) = u at kept steady
  obtain ⟨y, hy⟩ := Option.isSome_iff_exists.1 hx
  obtain ⟨z, hz, -⟩ := kept.ctx_some hy
  generalize hv : (u.mapCore c _).mapCtx c _ = v
  have noted : Noted v (v.trace c .s 9 (v.str c .s).pc 0) := .trace v ..
  have core : v.core c = { (u.core c).unnested frame with ctx := some (z.unnested frame) } := by
    rw [← hv, State.core_mapCtx_self, State.core_mapCore_self, hz]
    rfl
  have elsewhere : ∀ e, e ≠ c → v.core e = u.core e := fun e he => by rw [← hv, State.core_mapCtx_ne _ _ he, State.core_mapCore_ne _ _ he]
  refine ⟨?_, ?_, ?_, ?_, ⟨(u.core c).s.ic, ?_⟩, fun k hk => ?_, fun e he => ?_⟩
  iterate 4 rw [State.ctx, noted.ctx, core]; rfl
  · rw [noted.str, State.str, core]; rfl
  · rw [noted.str, State.str, core, ← steady.strands]
    cases k with
    | s => exact absurd rfl hk
    | l | c | w => rfl
  · funext k
    rw [noted.str, State.str, elsewhere e he, ← landed.str he, ← steady.strands]
    rfl

end

/-! ### The word -/

section
variable {s u : State} {c : Nat} {y : Bool}

theorem fits_tret (hs : StrandIx.s ∈ [StrandIx.s]) (hd : (s.ctx c).depth ≠ 0) :
    Fits { y := y, who := 1, oh := true } s c .s (.tret y) ⟨y, 0⟩ [.s] [] [] :=
  { fits_ofSAlone (nh := false) (il := false) (recs := false) (fun _ _ => Instr.noConfusion) hs Bool.noConfusion Bool.noConfusion Bool.noConfusion with
    oh := fun _ => hd, early := rfl }

/-- The accesses of tret at DEPTH 1. -/
abbrev tretAreas (x : Ctx) : List Area := [⟨x.tadp, 0x3100, .read⟩, ⟨x.tsave, 0x1000, .read⟩, ⟨x.tsave, 8, .write⟩]

theorem tretBody_unreleased (hd : (s.ctx c).depth = 1) (h : ¬ (s.sysReleased c .s = true ∧ s.savedDone (s.ctx c).task = true)) :
    tretBody c .s s = .wait s := by
  have waits : (!s.sysReleased c .s || !s.savedDone (s.ctx c).task) = true := by
    rw [← Bool.not_and, Bool.not_eq_true', Bool.eq_false_iff, ne_eq, Bool.and_eq_true]
    exact h
  exact (if_pos hd).trans (if_pos waits)

/-- The addresses of the areas stay while they are read. -/
theorem Keeps.areas {t : State} (h : Keeps s t) (c : Nat) : (t.ctx c).tadp = (s.ctx c).tadp ∧ (t.ctx c).tsave = (s.ctx c).tsave :=
  have get {α : Type} (f : Ctx → α) : f (t.ctx c).bare = f (s.ctx c).bare := congrArg f (h.ctx_bare c)
  ⟨get Ctx.tadp, get Ctx.tsave⟩

section
variable (hd : (s.ctx c).depth = 1) (h : s.sysReleased c .s = true ∧ s.savedDone (s.ctx c).task = true)
include hd h

theorem tretBody_outer : tretBody c .s s = match s.reach c (tretAreas (s.ctx c)) with
    | (t, false) => .wait t
    | (t, true) => match resumeAll t c with
      | .error v => .fault (t.noteAreas c 0x3100) 0x0D v
      | .ok t => .go t .resume := by
  refine (if_pos hd).trans (if_neg ?_)
  rw [h.1, h.2]
  exact Bool.false_ne_true

theorem tretBody_walking (hr : s.reach c (tretAreas (s.ctx c)) = (u, false)) : tretBody c .s s = .wait u := by rw [tretBody_outer hd h, hr]

/-- tret at DEPTH 1 whose areas can be read: their checks, in the state after what the handler has in flight has landed. -/
theorem tretBody_checks {area save : List Byte} (hr : s.reach c (tretAreas (s.ctx c)) = (u, true))
    (ha : devRead ((landHandler u c).noteAreas c 0x3100) c (s.ctx c).tadp 0x3100 = area)
    (hs : devRead ((landHandler u c).noteAreas c 0x3100) c (s.ctx c).tsave 0x1000 = save) :
    tretBody c .s s = match tretVal ((landHandler u c).noteAreas c 0x3100) c area save with
      | some v => .fault (u.noteAreas c 0x3100) 0x0D v
      | none => .go (leaveHandler (traceResume (replayAll ((landHandler u c).noteAreas c 0x3100) c area save) c) c) .resume := by
  have kept : Keeps s ((landHandler u c).noteAreas c 0x3100) :=
    ((looked_of_reach hr).keeps.trans (.landHandler u c)).trans (Looked.noteAreas _ c _).keeps
  subst ha hs
  obtain ⟨tadp, tsave⟩ := kept.areas c
  rw [tretBody_outer hd h, hr, ← tadp, ← tsave]
  dsimp only
  rw [resumeAll, tadArea, saveAreaOf]
  cases tretVal ((landHandler u c).noteAreas c 0x3100) c _ _ <;> rfl

end

section
variable (hd : (s.ctx c).depth = 2)
include hd

theorem tretBody_inner : tretBody c .s s = match s.reach c [⟨(s.ctx c).tsave, 0x1000, .read⟩, ⟨(s.ctx c).tsave, 8, .write⟩] with
    | (t, false) => .wait t
    | (t, true) => match nestedBad (noteArea t c (s.ctx c).tsave 0x1000) c (saveAreaOf (noteArea t c (s.ctx c).tsave 0x1000) c) with
      | some o => .fault (noteArea t c (s.ctx c).tsave 0x1000) 0x0D (BitVec.ofNat 64 (o + 2 ^ 16))
      | none => .go (leaveNested (noteArea t c (s.ctx c).tsave 0x1000) c (saveAreaOf (noteArea t c (s.ctx c).tsave 0x1000) c)) .resume :=
  if_neg (by omega)

theorem tretBody_innerWalking (hr : s.reach c [⟨(s.ctx c).tsave, 0x1000, .read⟩, ⟨(s.ctx c).tsave, 8, .write⟩] = (u, false)) :
    tretBody c .s s = .wait u := by rw [tretBody_inner hd, hr]

/-- tret at DEPTH 2 whose frame can be read: its checks. -/
theorem tretBody_innerChecks {frame : List Byte} (hr : s.reach c [⟨(s.ctx c).tsave, 0x1000, .read⟩, ⟨(s.ctx c).tsave, 8, .write⟩] = (u, true))
    (hf : devRead (noteArea u c (s.ctx c).tsave 0x1000) c (s.ctx c).tsave 0x1000 = frame) :
    tretBody c .s s = match nestedBad (noteArea u c (s.ctx c).tsave 0x1000) c frame with
      | some o => .fault (noteArea u c (s.ctx c).tsave 0x1000) 0x0D (BitVec.ofNat 64 (o + 2 ^ 16))
      | none => .go (leaveNested (noteArea u c (s.ctx c).tsave 0x1000) c frame) .resume := by
  have looked : Looked s (noteArea u c (s.ctx c).tsave 0x1000) := (looked_of_reach hr).trans (.noteArea u c _ _)
  have same : saveAreaOf (noteArea u c (s.ctx c).tsave 0x1000) c = frame := by rw [saveAreaOf, looked.ctx, hf]
  rw [tretBody_inner hd, hr, ← same]

end

/-- A frame that does not say DEPTH 2 fails at its first word. -/
theorem nestedBad_of_depth {frame : List Byte} (h : AreaWord frame 0 ≠ 2) : nestedBad u c frame = some 0 := by
  have bad : fieldAt frame 0 8 ≠ 2 := fun e => h (by rw [areaWord_eq, wordAt, e]; rfl)
  have least : ∀ l : List Nat, l.foldl min 0 = 0 := fun l => by
    induction l with
    | nil => rfl
    | cons a l ih => rw [List.foldl_cons, Nat.zero_min, ih]
  rw [nestedBad, if_pos bad]
  exact congrArg some (least _)

/-- A ready word that restores its strands: it counts no issue cycle. -/
theorem Ready.resumes {i : Instr} {n : Ann} {who : List StrandIx} {rs ds : List Reg} {f : Info} {body : Nat → StrandIx → State → Act} {k : StrandIx}
    (h : Ready s c k i n who rs ds) (hf : Fits f s c k i n who rs ds) (he : exec i s = issue i f body s) (hb : body c k s = .go u .resume) :
    exec i s = .next (endTurn (u.mapStr c k fun t => { t with issued := false }) c) := he.trans (h.go hf hb)

/-- A ready word that waits after accesses. -/
theorem Ready.waitsAt {i : Instr} {n : Ann} {who : List StrandIx} {rs ds : List Reg} {f : Info} {body : Nat → StrandIx → State → Act} {k : StrandIx}
    (h : Ready s c k i n who rs ds) (hf : Fits f s c k i n who rs ds) (he : exec i s = issue i f body s) (hb : body c k s = .wait u) :
    exec i s = .next (endTurn u c) := he.trans (by rw [h.meets hf, hb])

/-- That no word of a strand counts as issued in this clock cycle changes nothing of what its block says. -/
theorem restored_mapStr {t : Strand} {k j : StrandIx} (h : Restored t (u.str c j)) :
    Restored t ((u.mapStr c k fun t => { t with issued := false }).str c j) :=
  h.trans ((Replays.mapStr u c k (fun t => { t with issued := false }) fun _ => rfl).strands j)

end
end Sys2Proof.Machine
end

section

open Sys2Proof Sys2Proof.Machine

/-- tret at DEPTH 1 with areas that pass (R137). -/
theorem Sys2Proof.Machine.tretReturns {s s0 : State} {c : Nat} {y : Bool} {save : List Byte} {w : State} (hs : OnlyCore c s s0)
    (goes : exec (.tret y) s = .next (endTurn (w.mapStr c .s fun t => { t with issued := false }) c)) (returned : Returned s0 w c (s.ctx c) save) :
    ∃ t, exec (.tret y) s = .next (endTurn t c) ∧ (t.ctx c).depth = 0 ∧
      (∀ k, let o := 0x100 + 0x200 * ixOf k
        HoldsBlock t c k save o ∧ ((AreaWord save (o + 0x58)).getLsbD 0 = true → (t.str c k).ic = (AreaWord save (o + 0x48)).toNat)) ∧
      (t.core c).stops = (s0.core c).stops ++ (s.ctx c).held.take 1 ∧ (t.ctx c).held = (s.ctx c).held.drop 1 ∧ ∀ d, d ≠ c → t.str d = s.str d := by
  have strands : ∀ k, Restored (blockStrand save (blockAt k)) ((w.mapStr c .s fun t => { t with issued := false }).str c k) :=
    fun k => restored_mapStr (returned.strands k)
  have core := State.core_mapStr_self w c .s fun t => { t with issued := false }
  refine ⟨_, goes, ?_, fun k => ⟨holdsBlock_of_restored (strands k), ic_of_restored (strands k)⟩, ?_, ?_, fun e he => ?_⟩
  · rw [State.ctx, core]; exact returned.depth
  · rw [core]; exact returned.stops
  · rw [State.ctx, core]; exact returned.held
  · rw [(OnlyCore.mapStr w c .s _).str he, returned.cores e he, hs.str he]

/-- tret at DEPTH 2 with a frame that passes (R128). -/
theorem Sys2Proof.Machine.tretReturnsNested {s s1 : State} {c : Nat} {y : Bool} {frame : List Byte} {w : State} (hs : OnlyCore c s s1)
    (goes : exec (.tret y) s = .next (endTurn (w.mapStr c .s fun t => { t with issued := false }) c)) (returned : NestedReturned s1 w c frame) :
    ∃ t, exec (.tret y) s = .next (endTurn t c) ∧ (t.ctx c).depth = 1 ∧ HoldsBlock t c .s frame 0x900 ∧
      (t.ctx c).ichold = (AreaWord frame 0x948).toNat ∧ (t.ctx c).tcause = AreaWord frame 8 ∧ (t.ctx c).tval = AreaWord frame 16 ∧
      (∀ k, k ≠ .s → t.str c k = (landHandler s1 c).str c k) ∧ ∀ d, d ≠ c → t.str d = s.str d := by
  have ctx : (w.mapStr c .s fun t => { t with issued := false }).ctx c = w.ctx c := State.ctx_mapStr ..
  obtain ⟨n, strand⟩ := returned.strand
  refine ⟨_, goes, ?_, holdsBlock_of_restored (restored_mapStr strand), ?_, ?_, ?_, fun k hk => ?_, fun e he => ?_⟩
  · rw [ctx]; exact returned.depth
  · rw [ctx, toNat_areaWord]; exact returned.count
  · rw [ctx, areaWord_eq]; exact returned.cause
  · rw [ctx, areaWord_eq]; exact returned.value
  · rw [State.str_mapStr_ne w c _ hk]; exact returned.others k hk
  · rw [(OnlyCore.mapStr w c .s _).str he, returned.cores e he, hs.str he]

/-- Settles O28: at DEPTH 1 by `returned_leaveHandler`, at DEPTH 2 by `nestedReturned_leaveNested`. -/
theorem tretRestoresTheStrands : Obligations.TretRestoresTheStrands := by
  intro s c y h hx i x done rd s0 area save rn s1 frame
  have fits : x.depth ≠ 0 → Fits { y := y, who := 1, oh := true } s c .s i ⟨y, 0⟩ [.s] [] [] := fits_tret h.strand
  have looked : Looked s rd.1 := Looked.reach s c _
  have inner : Looked s s1 := (Looked.reach s c _).trans (.noteArea rn.1 c _ _)
  have checks : x.depth = 1 → done → rd.2 = true → _ := fun hd hn hr =>
    tretBody_checks (u := rd.1) (area := area) (save := save) hd hn (Prod.ext rfl hr) rfl rfl
  have innerChecks : x.depth = 2 → rn.2 = true → _ := fun hd hr => tretBody_innerChecks (u := rn.1) (frame := frame) hd (Prod.ext rfl hr) rfl
  have badFrame : x.depth = 2 → rn.2 = true → ∀ o, nestedBad s1 c frame = some o → RaisesAfter i s c .s 0x0D (BitVec.ofNat 64 (o + 0x10000)) :=
    fun hd hr o ho => h.raisesAfter (t := s1) (fits (by omega)) rfl ((innerChecks hd hr).trans (by rw [show nestedBad _ c frame = some o from ho]; rfl)) inner
  refine ⟨fun hd hn => ?unreleased, fun hd hn hr => ?walking, fun hd hn hr v hv => ?badAreas, fun hd hn hr hv => ?returns,
    fun hd hr => ?walkingNested, badFrame, fun hd hr ho => badFrame hd hr 0 (nestedBad_of_depth ho), fun hd hr ho => ?returnsNested⟩
  case unreleased => exact h.waitsAt (fits (by omega)) rfl (tretBody_unreleased hd hn)
  case walking => exact h.waitsAt (fits (by omega)) rfl (tretBody_walking hd hn (Prod.ext rfl hr))
  case badAreas =>
    exact h.raisesAfter (fits (by omega)) rfl ((checks hd hn hr).trans (by rw [show tretVal _ c area save = some v from hv])) (looked.trans (.noteAreas rd.1 c _))
  case returns =>
    have landed : Keeps s s0 := (looked.keeps.trans (.landHandler rd.1 c)).trans (Looked.noteAreas _ c _).keeps
    have beside : OnlyCore c s s0 := ((looked.onlyCore c).trans (.landHandler rd.1 c)).trans ((Looked.noteAreas _ c _).onlyCore c)
    obtain ⟨z, hz⟩ := Option.isSome_iff_exists.1 hx
    have ctx : (s0.core c).ctx.map Ctx.bare = some x.bare := by rw [landed.contexts, hz, show x = z from State.ctx_of_some hz]; rfl
    exact tretReturns beside (h.resumes (fits (by omega)) rfl ((checks hd hn hr).trans (by rw [show tretVal _ c area save = none from hv])))
      (returned_leaveHandler ctx area save)
  case walkingNested => exact h.waitsAt (fits (by omega)) rfl (tretBody_innerWalking hd (Prod.ext rfl hr))
  case returnsNested =>
    exact tretReturnsNested (inner.onlyCore c) (h.resumes (fits (by omega)) rfl ((innerChecks hd hr).trans (by rw [show nestedBad _ c frame = none from ho])))
      (nestedReturned_leaveNested (by rw [inner.core]; exact hx) frame)

end

section
/-!
SUPPORT. The actions of task records, the work of home ports, the drain of a core's copy commands and what a stop writes leave every strand and
every pending cause as they are (spec/06 R124, R125).
-/

namespace Sys2Proof.Machine

theorem Steady.of_cores {s t : State} (h : t.cores = s.cores) : Steady s t := .of_core fun e => by rw [State.core, h]; rfl
theorem Steady.answer {α : Type} {s t : State} {p : State × α} {a : α} (h : Steady s p.1) (e : p = (t, a)) : Steady s t := by rw [e] at h; exact h

theorem Steady.ite {p : Prop} [Decidable p] {s t u : State} (h : Steady s u) (g : Steady u t) : Steady s (if p then t else u) := by
  split
  · exact h.trans g
  · exact h

/-! ### The take of a record -/

theorem Steady.putTake (s : State) (x : DevTake) : Steady s (s.putTake x) := .of_cores rfl
theorem Steady.addLaunch (s : State) (x : Launch) : Steady s (s.addLaunch x) := .of_cores rfl

theorem Looked.readDev (s : State) (d u vf : Nat) (va : Word) (n : Nat) : Looked s (s.readDev d u vf va n).1 := by
  have h := Looked.portTr s d u vf va .read n none
  rw [State.readDev]
  split
  · exact .refl s
  split <;> rename_i e <;> rw [e] at h
  · exact h.trans (.noteRead _ _ n)
  · exact h
  · exact h

theorem Steady.readPart (s : State) (d u vf i : Nat) (va : Word) (n : Nat) : Steady s (s.readPart d u vf i va n).1 := by
  have h := (Looked.readDev s d u vf va n).steady
  rw [State.readPart]
  split
  · exact .refl s
  split
  · rename_i e; exact (h.answer e).trans (.of_cores rfl)
  · exact h

theorem Steady.takeChecks (s : State) (d u q : Nat) (va : Word) : Steady s (takeChecks s d u q va).1 := by
  rw [Machine.takeChecks]
  split <;> rename_i record <;> have read := (Steady.readPart s ..).answer record
  · exact read
  · exact read
  split
  · exact read
  refine read.trans ?_
  split <;> rename_i header <;> have read := (Steady.readPart _ ..).answer header
  · exact read
  · exact read
  refine read.trans ?_
  split <;> rename_i body <;> have read := (Steady.readPart _ ..).answer body
  · exact read
  · exact read
  split <;> exact read

theorem Steady.queueFault (s : State) (d q reason code : Nat) (va : Word) : Steady s (queueFault s d q reason code va) := by
  rw [Machine.queueFault]
  split
  · exact .refl s
  · exact .of_cores rfl

/-! ### What an action does at its port -/

theorem Steady.setDep (s : State) (wr : Writer) (pa : Nat) (v : Word) : Steady s (s.setDep wr pa v) := .portWrite s ..

theorem Steady.applyTell (s : State) (wr : Writer) (pa slot : Nat) (poison : Bool) : Steady s (applyTell s wr pa slot poison).1 := by
  rw [Machine.applyTell]
  dsimp only
  split
  · split
    · exact .setDep s ..
    · refine (Steady.setDep s wr pa (withDepState (depGot (s.wordAtPort pa) slot poison) 2)).trans ?_
      dsimp only
      split <;> exact .of_cores rfl
  · exact .setDep s ..

theorem Steady.faultFuture (s : State) (wr : Writer) (vf pa : Nat) : Steady s (faultFuture s wr vf pa).1 := by
  rw [Machine.faultFuture]
  split <;> dsimp only
  · exact .portWrite s ..
  · exact .portWrite s ..
  · exact .refl s

theorem Steady.actAt (s : State) (d id vf : Nat) (va : Word) (kind : AccKind) (n : Nat) (pa : Option Nat) (f : State → Nat → State × List TaskAct)
    (no : List TaskAct) (hf : ∀ t p, Steady t (f t p).1) : Steady s (actAt s d id vf va kind n pa f no).1 := by
  have h := (Looked.portAcc s d (unitAct id) vf va kind n pa).steady
  rw [Machine.actAt]
  split <;> rename_i e <;> have judged := h.answer e
  · refine (judged.trans ?_).trans (hf _ _)
    split
    · exact (Looked.noteRead _ _ n).steady
    · exact .refl _
  · exact judged
  · exact judged
  · exact judged

theorem Steady.applyAbandon (s : State) (n : Nat) : Steady s (applyAbandon s n).1 := by
  rw [Machine.applyAbandon]
  split <;> exact .of_cores rfl

theorem Steady.applySkip (s : State) (id grp n : Nat) : Steady s (applySkip s id grp n).1 := by
  have h := (Looked.portTr s (s.launch n).die (unitAct id) (s.launch n).vf ((s.launch n).fcont + 0x20) .rmw 8
    (s.takeOf (s.launch n).die (unitAct id)).dep).steady
  have left (t : State) : Steady t (t.endTake (s.launch n).die (unitAct id)) := .of_cores rfl
  rw [Machine.applySkip]
  dsimp only
  split
  · exact left s
  split <;> rename_i e <;> have judged := h.answer e
  · exact (judged.trans (.queueFault ..)).trans (left _)
  · rename_i t pa
    refine ((judged.trans (Looked.noteRead t pa 8).steady).trans
      (.putTake _ { t.takeOf (s.launch n).die (unitAct id) with dep := some pa })).trans ?_
    dsimp only
    split
    · exact left _
    split <;> rename_i e <;> have checked := (Steady.takeChecks _ ..).answer e
    · exact checked
    · exact (checked.trans (.queueFault ..)).trans (left _)
    · refine checked.trans (Steady.trans (Steady.trans ?_ (.setDep _ ..)) (.addLaunch _ _))
      exact .of_cores rfl
  · exact judged.trans (.putTake ..)
  · exact judged

theorem Steady.applySink (s : State) (p : Pending) (pa : Option Nat) (d n : Nat) (faulted : Bool) : Steady s (applySink s p pa d n faulted).1 := by
  rw [Machine.applySink]
  dsimp only
  split
  · exact .refl s
  · refine .actAt _ _ _ _ _ _ _ _ _ _ fun t p => ?_
    dsimp only
    exact (Steady.portWrite t ..).trans (.portWrite ..)

theorem Steady.applyAct (s : State) (p : Pending) (pa : Option Nat) : Steady s (applyAct s p pa).1 := by
  rw [Machine.applyAct]
  split
  · exact .actAt _ _ _ _ _ _ _ _ _ _ fun t p => .applyTell t ..
  · refine .actAt _ _ _ _ _ _ _ _ _ _ fun t p => ?_
    dsimp only
    split
    · exact .refl t
    · exact .setDep t ..
  · exact .applyAbandon s _
  · exact .actAt _ _ _ _ _ _ _ _ _ _ fun t p => .faultFuture t ..
  · exact .applySkip s ..
  · exact .applySink s ..
  · exact .of_cores rfl

theorem Steady.tryAct (i : Nat) (s : State) : Steady s (tryAct i s).1 := by
  rw [Machine.tryAct]
  split
  · exact .refl s
  rename_i p _
  split
  · exact .refl s
  have h := Steady.applyAct s p p.pa
  split <;> rename_i e <;> exact (h.answer e).trans (.of_cores rfl)

theorem Steady.runActs : ∀ (f i : Nat) (s : State), Steady s (runActs f i s)
  | 0, _, s => .refl s
  | f + 1, i, s => by
    have h := Steady.tryAct i s
    rw [Machine.runActs]
    split
    · exact .refl s
    split <;> rename_i e <;> exact (h.answer e).trans (Steady.runActs f _ _)

theorem Steady.taskActs (s : State) (l : List TaskAct) : Steady s (s.taskActs l) := by
  rw [State.taskActs, State.groupActs]
  split
  · exact .refl s
  · exact Steady.trans (t := { s with acts := s.acts ++ numberActs s.nact (2 * s.nact) l, nact := s.nact + l.length }) (.of_cores rfl) (.runActs _ _ _)

/-! ### Copy commands at their ports -/

theorem Steady.scrWrite (s : State) (c a : Nat) (bs : List Byte) : Steady s (s.mapCore c (·.scrWrite a bs)) :=
  .mapCore s c _ (fun x => (x.scrWrite_strands a bs).1) fun x => (x.scrWrite_strands a bs).2

theorem Core.scrWriteTab_strands (t : Tab Byte) : ∀ x : Core, (∀ k, (x.scrWriteTab t).str k = x.str k) ∧ (x.scrWriteTab t).stops = x.stops := by
  induction t with
  | nil => exact fun _ => ⟨fun _ => rfl, rfl⟩
  | cons e t ih =>
    intro x
    obtain ⟨strands, stops⟩ := x.scrWrite_strands e.1 [e.2]
    exact ⟨fun k => ((ih _).1 k).trans (strands k), (ih _).2.trans stops⟩

theorem Steady.mapCmd (s : State) (c ord : Nat) (f : CpCmd → CpCmd) : Steady s (s.mapCmd c ord f) :=
  .mapCore s c _ (fun _ k => by cases k <;> rfl) fun _ => rfl

theorem Steady.refuseAt (s : State) (c vf ord : Nat) (va : Word) (kind : AccKind) (r : Nat) : Steady s (refuseAt s c vf ord va kind r) :=
  (Looked.logAf s _ vf _).steady.trans (.mapCmd _ c ord _)

theorem Steady.returnOld (s : State) (c : Nat) (r : AccReq) (bs : List Byte) : Steady s (returnOld s c r bs) := by
  rw [Machine.returnOld]
  split
  · exact .refl s
  · split
    · exact .mapCmd s ..
    · exact .scrWrite s ..

theorem Steady.applyElem (s : State) (c : Nat) (r : AccReq) : Steady s (applyElem s c r) := by
  rw [Machine.applyElem]
  refine Steady.trans ?_ (.returnOld _ c r _)
  split
  · exact (Steady.portWrite s ..).trans (.mapCmd _ c r.ord _)
  · exact .portWrite s ..

theorem Steady.futureApply (s : State) (c vf pa : Nat) (reg : Bool) (arg : Word) : Steady s (futureApply s c vf pa reg arg).1 := by
  rw [Machine.futureApply.eq_def]
  dsimp only
  split
  · exact .refl s
  split <;> dsimp only
  · exact .portWrite s ..
  · exact (Steady.portWrite s ..).trans (.taskActs _ _)
  · exact .refl s
  · exact .portWrite s ..
  · exact .refl s
  · exact .taskActs s _
  · exact .taskActs s _

theorem Steady.applyAcc (s : State) (c : Nat) (r : AccReq) : Steady s (applyAcc s c r) := by
  rw [Machine.applyAcc]
  refine (Looked.noteRead s r.pa r.bytes).steady.trans ?_
  dsimp only
  split
  · exact .refuseAt _ ..
  split
  · split <;> rename_i e <;> have applied := (Steady.futureApply _ ..).answer e
    · exact applied.trans (.mapCmd _ ..)
    · exact applied
  · split <;> rename_i e <;> have applied := (Steady.futureApply _ ..).answer e
    · exact applied.trans (.mapCmd _ ..)
    · exact applied
  · exact (Steady.applyTell _ ..).trans (.taskActs _ _)
  · exact .applyElem _ c r

theorem Steady.applyOldest (s : State) (c : Nat) : Steady s (applyOldest s c) := by
  rw [Machine.applyOldest]
  split
  · exact .refl s
  · refine Steady.trans ?_ (.applyAcc _ c _)
    exact .mapCore s c _ (fun _ k => by cases k <;> rfl) fun _ => rfl

theorem Steady.drainAcc : ∀ (n : Nat) (s : State) (c : Nat), Steady s (drainAcc n s c)
  | 0, s, _ => .refl s
  | n + 1, s, c => (Steady.applyOldest s c).trans (Steady.drainAcc n _ c)

theorem Steady.applyStore (s : State) (wr : Writer) (pa : Nat) (bs : List (Option Byte)) : Steady s (applyStore s wr pa bs) := by
  rw [Machine.applyStore]
  split
  · split
    · exact .portWrite s ..
    · split
      · exact .refuseAt s ..
      · exact .refl s
  · split
    · exact (Looked.logAf s ..).steady
    · exact .portWrite s ..

theorem Steady.drainWire (s : State) (c : Nat) : Steady s (drainWire s c) := by
  rw [Machine.drainWire]
  refine Steady.trans ?_ (.foldl _ (fun s f => ?_) _ _)
  · exact .of_cores rfl
  · split
    · exact .applyStore s ..
    · exact .refl s

theorem Steady.applyResp (s : State) (c : Nat) (q : CpCmd) : Steady s (applyResp s c q) := by
  rw [Machine.applyResp]
  split
  · exact .refl s
  split
  · exact .mapCmd s ..
  · split
    · exact .mapCmd s ..
    · exact (Steady.mapCmd s ..).trans (.scrWrite _ ..)

theorem Steady.drainOut : ∀ (n : Nat) (s : State) (c ord : Nat), Steady s (drainOut n s c ord)
  | 0, s, _, _ => .refl s
  | n + 1, s, c, ord => by
    rw [Machine.drainOut]
    split
    · exact (Steady.applyResp s c _).trans (Steady.drainOut n _ c ord)
    · exact .refl s

theorem Steady.castTo (s : State) (c d : Nat) (q : CpCmd) : Steady s (castTo s c d q).1 := by
  rw [Machine.castTo]
  split
  · exact .mapCore s d _ (fun x => (x.scrWriteTab_strands _).1) fun x => (x.scrWriteTab_strands _).2
  · exact .refl s

theorem Steady.drainCast (s : State) (c ord : Nat) : Steady s (drainCast s c ord) := by
  rw [Machine.drainCast]
  split
  · exact .refl s
  split
  · exact .refl s
  refine .foldl _ (fun s d => ?_) _ s
  split <;> rename_i e <;> have sent := (Steady.castTo s ..).answer e
  · exact sent.trans (.mapCmd _ ..)
  · refine sent.trans ?_
    split
    · exact .refl _
    · exact (Steady.mapCmd _ ..).trans (Noted.postEv _ ..).steady

theorem Steady.drainCopies (s : State) (c : Nat) : Steady s (s.drainCopies c) := by
  rw [State.drainCopies]
  exact ((((Steady.drainWire s c).trans (.drainAcc _ _ c)).trans (.foldl _ (fun s q => .drainOut _ s c _) _ _)).trans
    (.foldl _ (fun s q => .drainCast s c _) _ _)).trans (.mapCtx _ c _)

/-! ### What a stop writes -/

theorem undoShadows_strands (x : Core) : (∀ k, (undoShadows x).str k = x.str k) ∧ (undoShadows x).stops = x.stops := by
  rw [undoShadows]
  induction x.ops with
  | nil => exact ⟨fun _ => rfl, rfl⟩
  | cons o l ih =>
    rw [List.foldr_cons]
    split
    · exact ⟨fun k => by rw [← ih.1]; cases k <;> rfl, ih.2⟩
    · exact ih

theorem Core.settle_str (x : Core) (k : StrandIx) : x.settle.str k = x.str k := by cases k <;> rfl

theorem Steady.foldl_fst {α β : Type} (f : State × β → α → State × β) (h : ∀ a r, Steady a.1 (f a r).1) : ∀ (l : List α) (a : State × β),
    Steady a.1 (l.foldl f a).1
  | [], a => .refl a.1
  | r :: l, a => (h a r).trans (Steady.foldl_fst f h l (f a r))

theorem Steady.writeCheckpoint (s : State) (c : Nat) : Steady s (writeCheckpoint s c) := .foldl _ (fun s _ => .devWrite s c _ _) _ s

theorem Steady.writeStop (s : State) (c : Nat) (cause tval : Word) (ckpt : Bool) : Steady s (writeStop s c cause tval ckpt) := by
  have undone : Steady s ((s.drainCopies c).mapCore c fun x => undoShadows x.settle) := (Steady.drainCopies s c).trans (.mapCore _ c _
    (fun x k => ((undoShadows_strands _).1 k).trans (x.settle_str k)) fun x => (undoShadows_strands _).2)
  rw [Machine.writeStop]
  dsimp only
  refine Steady.trans ?_ (((Steady.mapCtx _ c _).trans (Noted.postCore _ c .s _ _ _ _).steady).trans (Noted.trace _ c .s _ _ _).steady)
  refine undone.trans ?_
  generalize (s.drainCopies c).mapCore c (fun x => undoShadows x.settle) = u
  refine Steady.ite (((Steady.foldl_fst _ (fun a r => ?_) _ (u, 0)).trans (.devWrite _ ..)).trans (.devWrite _ ..)) (.writeCheckpoint _ c)
  dsimp only
  split
  · exact (Steady.devWrite a.1 ..).trans (.devWrite _ ..)
  · exact .devWrite a.1 ..

end Sys2Proof.Machine
end

section
/-!
SUPPORT. The stop of a core (spec/06 R122 to R128): which cause is taken, what is held, and what the stop leaves with a handler, as a nested
stop, and with a context that is to be removed.
-/

namespace Sys2Proof.Machine

/-! ### The cause that is taken -/

/-- The order of R123, on causes whatever their rank. -/
def Stop.first (e f : Stop) : Prop := e.rank < f.rank ∨ (e.rank = f.rank ∧ ixOf e.k ≤ ixOf f.k)

theorem Stop.first_refl (e : Stop) : e.first e := .inr ⟨rfl, Nat.le_refl _⟩

theorem Stop.first_trans {e f g : Stop} (a : e.first f) (b : f.first g) : e.first g := by
  unfold Stop.first at *
  omega

theorem Stop.first_total (e f : Stop) : e.first f ∨ f.first e := by
  unfold Stop.first
  omega

theorem stopBefore_iff (f e : Stop) : stopBefore f e = true ↔ ¬ e.first f := by
  simp only [stopBefore, Stop.first, Bool.or_eq_true, Bool.and_eq_true, decide_eq_true_eq, beq_iff_eq]
  omega

theorem firstStop_eq_none {l : List Stop} : firstStop l = none ↔ l = [] := by
  cases l with
  | nil => exact iff_of_true rfl rfl
  | cons a l =>
    refine iff_of_false ?_ (List.cons_ne_nil a l)
    rw [firstStop]
    split
    · split <;> exact Option.some_ne_none _
    · exact Option.some_ne_none _

/-- The cause that is taken is one of the pending causes, and none comes before it. -/
theorem firstStop_first : ∀ {l : List Stop} {e : Stop}, firstStop l = some e → e ∈ l ∧ ∀ f ∈ l, e.first f
  | [], _, h => nomatch h
  | a :: l, e, h => by
    rw [firstStop] at h
    cases hl : firstStop l with
    | none =>
      obtain rfl := firstStop_eq_none.1 hl
      rw [hl] at h
      obtain rfl := Option.some.inj h
      exact ⟨.head _, fun f hf => List.mem_singleton.1 hf ▸ a.first_refl⟩
    | some g =>
      obtain ⟨mem, first⟩ := firstStop_first hl
      rw [hl] at h
      dsimp only at h
      split at h <;> rename_i before <;> obtain rfl := Option.some.inj h <;> rw [stopBefore_iff] at before
      · exact ⟨.tail _ mem, List.forall_mem_cons.2 ⟨(Stop.first_total a g).resolve_left before, first⟩⟩
      · exact ⟨.head _, List.forall_mem_cons.2 ⟨a.first_refl, fun f hf => Stop.first_trans (not_not.1 before) (first f hf)⟩⟩

/-! ### The causes that are held -/

theorem mem_insHeld (e f : Stop) (l : List Stop) : f ∈ insHeld e l ↔ f = e ∨ f ∈ l := by
  induction l with
  | nil => simp [insHeld]
  | cons a l ih =>
    rw [insHeld]
    split
    · simp
    · simp only [List.mem_cons, ih]; tauto

theorem mem_foldl_insHeld (f : Stop) (losers : List Stop) : ∀ held, f ∈ losers ∨ f ∈ held → f ∈ losers.foldl (fun l f => insHeld f l) held := by
  induction losers with
  | nil => exact fun _ h => h.resolve_left (by simp)
  | cons a losers ih =>
    intro held h
    refine ih _ ?_
    rw [mem_insHeld]
    rw [List.mem_cons] at h
    tauto

theorem heldCause_iff (f : Stop) : heldCause f = true ↔ f.rank = 1 ∨ (f.rank = 3 ∧ (f.code = 0x15 ∨ f.code = 0x08)) := by
  simp [heldCause]

/-! ### What every stop does first -/

/-- The context of a core whose stop has taken the cause `e` of `stops`. -/
def Ctx.holding (stops : List Stop) (e : Stop) (y : Ctx) : Ctx :=
  { y with held := (stops.filter fun f => heldCause f && f != e).foldl (fun l f => insHeld f l) y.held }

/-- The causes of the core are gone, and those that must not be lost are held. -/
def beginStop (s : State) (c : Nat) (e : Stop) : State :=
  dropReport ((s.mapCore c fun x => { dropRefused x e with stops := [], halted := false }).mapCtx c (Ctx.holding (s.core c).stops e)) c e

theorem dropRefused_parts (x : Core) (e : Stop) : ∃ l w, dropRefused x e = { x with lq := l, wq := w } := by
  rw [dropRefused]
  split <;> exact ⟨_, _, rfl⟩

/-- What `beginStop` leaves. -/
structure StopBegun (s t : State) (c : Nat) (e : Stop) : Prop where
  strands : ∀ d k, t.str d k = s.str d k
  stops   : (t.core c).stops = []
  nested  : (t.core c).nested = (s.core c).nested
  removal : (t.core c).removal = (s.core c).removal
  there   : (t.core c).ctx.isSome = (s.core c).ctx.isSome
  depth   : (t.ctx c).depth = (s.ctx c).depth
  tvec    : (t.ctx c).tvec = (s.ctx c).tvec
  held    : (s.core c).ctx.isSome → (t.ctx c).held = ((s.ctx c).holding (s.core c).stops e).held

theorem beginStop_cores (s : State) (c : Nat) (e : Stop) : OnlyCore c s (beginStop s c e) ∧ ∃ l w, ∃ r : Ctx → Tab (Option Word),
    (beginStop s c e).core c = { s.core c with lq := l, wq := w, stops := [], halted := false
                                               ctx := (s.core c).ctx.map fun y => { y.holding (s.core c).stops e with reports := r y } } := by
  obtain ⟨l, w, dropped⟩ := dropRefused_parts (s.core c) e
  have others : OnlyCore c s ((s.mapCore c fun x => { dropRefused x e with stops := [], halted := false }).mapCtx c (Ctx.holding (s.core c).stops e)) :=
    (OnlyCore.mapCore s c _).trans (.mapCtx _ c _)
  rw [beginStop, dropReport]
  split
  · refine ⟨others.trans (.mapCtx _ c _), l, w, fun y => Tab.set none y.reports (e.tval.extractLsb' 16 2).toNat none, ?_⟩
    rw [State.core_mapCtx_self, State.core_mapCtx_self, State.core_mapCore_self, dropped, Option.map_map]
    rfl
  · refine ⟨others, l, w, fun y => y.reports, ?_⟩
    rw [State.core_mapCtx_self, State.core_mapCore_self, dropped]
    rfl

theorem stopBegun_beginStop (s : State) (c : Nat) (e : Stop) : StopBegun s (beginStop s c e) c e := by
  obtain ⟨others, l, w, r, core⟩ := beginStop_cores s c e
  refine ⟨fun d k => ?_, by rw [core], by rw [core], by rw [core], by rw [core, Option.isSome_map], ?_, ?_, fun there => ?_⟩
  · by_cases hd : d = c
    · rw [hd, State.str, core]; cases k <;> rfl
    · rw [others.str hd]
  · rw [State.ctx, core, State.ctx]; cases (s.core c).ctx <;> rfl
  · rw [State.ctx, core, State.ctx]; cases (s.core c).ctx <;> rfl
  · obtain ⟨z, hz⟩ := Option.isSome_iff_exists.1 there
    rw [State.ctx, core, State.ctx, hz]
    rfl

theorem stopFor_eq (s : State) (c : Nat) (e : Stop) : stopFor s c e =
    match ((beginStop s c e).ctx c).depth with
    | 0 => if ((beginStop s c e).ctx c).tvec = 0 then (beginStop s c e).mapCore c fun y => { y with removal := y.removal.or (some (killedBy e)) }
      else fullStop (beginStop s c e) c e
    | 1 => (beginStop s c e).mapCore c fun y => { y with nested := some (nestedCause y.nested e) }
    | _ => (beginStop s c e).mapCore c fun y => { y with removal := y.removal.or (some (killedBy e)) } := rfl

/-! ### The entry of the handler -/

/-- A core whose handler is entered at DEPTH 1 (R124, R125). -/
def Core.inHandler (tvec : Word) (x : Core) : Core :=
  { x.quiet with s := x.s.handler tvec, l := x.l.idled, c := x.c.idled, w := x.w.idled }

section
variable {s : State} {c : Nat} {z : Ctx}

/-- The context once the areas are written: its cause and value are saved. -/
theorem writeStop_ctx (hz : (s.core c).ctx = some z) (cause tval : Word) (ckpt : Bool) :
    ∃ y, ((writeStop s c cause tval ckpt).core c).ctx = some y ∧ y.bare = { z.bare with tcause := cause, tval := tval } := by
  obtain ⟨t, written, posted⟩ := writeStop_parts s c cause tval ckpt
  obtain ⟨x, hx, bare⟩ := written.ctx_some hz
  obtain ⟨y, hy, saved⟩ := posted.ctx_some (y := { x with tcause := cause, tval := tval }) (by rw [State.core_mapCtx_self, hx]; rfl)
  exact ⟨y, hy, saved.trans (congrArg (fun x : Ctx => { x with tcause := cause, tval := tval }) bare)⟩

theorem fullStop_parts (hz : (s.core c).ctx = some z) (e : Stop) : ∃ u, Steady s u ∧
    (∃ y, (u.core c).ctx = some y ∧ y.bare = { z.bare with tcause := causeWord e, tval := e.tval }) ∧
    Noted ((u.mapCore c (Core.inHandler z.tvec)).mapCtx c fun x => { x with depth := 1, ichold := (u.str c .s).ic }) (fullStop s c e) := by
  obtain ⟨y, hy, bare⟩ := writeStop_ctx hz (causeWord e) e.tval false
  have traced := Noted.trace (writeStop s c (causeWord e) e.tval false) c e.k 4 (s.str c e.k).pc e.code
  have dropped := Looked.leaveWalks ((writeStop s c (causeWord e) e.tval false).trace c e.k 4 (s.str c e.k).pc e.code) fun y => y.c == c
  have context := (congrArg Core.ctx (dropped.core c)).trans ((traced.ctx c).trans hy)
  have tvec : y.tvec = z.tvec := (congrArg Ctx.tvec bare :)
  refine ⟨_, ((Steady.writeStop ..).trans traced.steady).trans dropped.steady, ⟨y, context, bare⟩, ?_⟩
  rw [← tvec, ← State.ctx_of_some context]
  exact .postCore ..

/-- What the entry of the handler leaves (R124, R125). -/
structure HandlerEntered (s t : State) (c : Nat) (e : Stop) : Prop where
  depth   : (t.ctx c).depth = 1
  tcause  : (t.ctx c).tcause = causeWord e
  tval    : (t.ctx c).tval = e.tval
  handler : t.str c .s = (s.str c .s).handler (s.ctx c).tvec
  idled   : ∀ k, k ≠ .s → t.str c k = (s.str c k).idled
  empty   : (t.core c).ops = [] ∧ (t.core c).mxq = [] ∧ (t.core c).lq = [] ∧ (t.core c).wq = [] ∧ (t.core c).stops = []
  others  : ∀ d, d ≠ c → t.str d = s.str d

theorem handlerEntered_fullStop (hz : (s.core c).ctx = some z) (e : Stop) : HandlerEntered s (fullStop s c e) c e := by
  obtain ⟨u, steady, ⟨y, hy, bare⟩, note⟩ := fullStop_parts hz e
  have core : ((u.mapCore c (Core.inHandler z.tvec)).mapCtx c fun x => { x with depth := 1, ichold := (u.str c .s).ic }).core c =
      { Core.inHandler z.tvec (u.core c) with ctx := some { y with depth := 1, ichold := (u.str c .s).ic } } := by
    rw [State.core_mapCtx_self, State.core_mapCore_self, show (Core.inHandler z.tvec (u.core c)).ctx = some y from hy]
    rfl
  have ctx : (fullStop s c e).ctx c = { y with depth := 1, ichold := (u.str c .s).ic } := by rw [State.ctx, note.ctx, core]; rfl
  have str (k : StrandIx) : (fullStop s c e).str c k = (Core.inHandler z.tvec (u.core c)).str k := by
    rw [note.str, State.str, core]; cases k <;> rfl
  refine ⟨by rw [ctx], ?_, ?_, ?_, fun k hk => ?_, ?_, fun d hd => ?_⟩
  · rw [ctx]; exact (congrArg Ctx.tcause bare :)
  · rw [ctx]; exact (congrArg Ctx.tval bare :)
  · rw [str, ← steady.strands, State.ctx_of_some hz]; rfl
  · rw [str, ← steady.strands]
    cases k
    case s => exact absurd rfl hk
    all_goals rfl
  · rw [note.cores, core]; exact ⟨rfl, rfl, rfl, rfl, rfl⟩
  · funext k
    rw [note.str, ← steady.strands, State.str_mapCtx, State.str, State.core_mapCore_ne _ _ hd]
    rfl

theorem fullStop_held (hz : (s.core c).ctx = some z) (e : Stop) : ((fullStop s c e).ctx c).held = z.held := by
  obtain ⟨u, -, ⟨y, hy, bare⟩, note⟩ := fullStop_parts hz e
  rw [State.ctx, note.ctx, State.core_mapCtx_self, State.core_mapCore_self, show (Core.inHandler z.tvec (u.core c)).ctx = some y from hy]
  exact (congrArg Ctx.held bare :)

theorem HandlerEntered.of_same {t u : State} {e : Stop} (h : HandlerEntered u t c e) (strands : ∀ d k, u.str d k = s.str d k)
    (tvec : (u.ctx c).tvec = (s.ctx c).tvec) : HandlerEntered s t c e := by
  refine ⟨h.depth, h.tcause, h.tval, ?_, fun k hk => ?_, h.empty, fun d hd => ?_⟩
  · rw [h.handler, strands, tvec]
  · rw [h.idled k hk, strands]
  · rw [h.others d hd]; exact funext (strands d)

end

/-- The bits of sst that a handler begins with. -/
theorem getLsbD_handler_sst (t : Strand) (tvec : Word) (b : Nat) :
    (t.handler tvec).sst.getLsbD b = (t.sst.getLsbD b && !(decide (10 ≤ b) && decide (b ≤ 15))) := by
  have mask : ∀ b < 64, (~~~(0xFC00#64)).getLsbD b = !(decide (10 ≤ b) && decide (b ≤ 15)) := by decide
  rw [show (t.handler tvec).sst = t.sst &&& ~~~(0xFC00#64) from rfl, BitVec.getLsbD_and]
  by_cases hb : b < 64
  · rw [mask b hb]
  · rw [BitVec.getLsbD_of_ge t.sst b (Nat.le_of_not_lt hb), Bool.false_and, Bool.false_and]

theorem killedBy_eq_and (e : Stop) : killedBy e = causeWord e &&& 0xFFFFFF#64 := by
  refine BitVec.eq_of_toNat_eq ?_
  rw [killedBy, BitVec.toNat_and, BitVec.toNat_ofNat, show (0xFFFFFF#64).toNat = 2 ^ 24 - 1 from rfl, Nat.and_two_pow_sub_one_eq_mod]
  omega

/-! ### The stop -/

section
variable {s : State} {c : Nat}

theorem stopFor_enters (e : Stop) (hd : (s.ctx c).depth = 0) (ht : (s.ctx c).tvec ≠ 0) : stopFor s c e = fullStop (beginStop s c e) c e := by
  have begun := stopBegun_beginStop s c e
  rw [stopFor_eq, begun.depth, begun.tvec, hd]
  exact if_neg ht

theorem stopFor_nests (e : Stop) (hd : (s.ctx c).depth = 1) :
    stopFor s c e = (beginStop s c e).mapCore c fun y => { y with nested := some (nestedCause y.nested e) } := by
  have begun := stopBegun_beginStop s c e
  rw [stopFor_eq, begun.depth, hd]
  rfl

theorem stopFor_kills (e : Stop) (h : ((s.ctx c).depth = 0 ∧ (s.ctx c).tvec = 0) ∨ 2 ≤ (s.ctx c).depth) :
    stopFor s c e = (beginStop s c e).mapCore c fun y => { y with removal := y.removal.or (some (killedBy e)) } := by
  have begun := stopBegun_beginStop s c e
  obtain ⟨hd, ht⟩ | hd := h
  · rw [stopFor_eq, begun.depth, begun.tvec, hd]
    exact if_pos ht
  · obtain ⟨n, hn⟩ := Nat.exists_eq_add_of_le' hd
    rw [stopFor_eq, begun.depth, hn]
    rfl

end

/-- Every stop leaves the same causes held. -/
theorem stopFor_held {s : State} {c : Nat} (e : Stop) (there : (s.core c).ctx.isSome) :
    ((stopFor s c e).ctx c).held = ((s.ctx c).holding (s.core c).stops e).held := by
  have begun := stopBegun_beginStop s c e
  obtain ⟨z, hz⟩ := Option.isSome_iff_exists.1 (begun.there.trans there)
  rw [← begun.held there]
  obtain hd | hd | hd : (s.ctx c).depth = 0 ∨ (s.ctx c).depth = 1 ∨ 2 ≤ (s.ctx c).depth := by omega
  · by_cases ht : (s.ctx c).tvec = 0
    · rw [stopFor_kills e (.inl ⟨hd, ht⟩), State.ctx, State.core_mapCore_self]; rfl
    · rw [stopFor_enters e hd ht, State.ctx_of_some hz]; exact fullStop_held hz e
  · rw [stopFor_nests e hd, State.ctx, State.core_mapCore_self]; rfl
  · rw [stopFor_kills e (.inr hd), State.ctx, State.core_mapCore_self]; rfl

theorem takeStop_waits {s u : State} {c : Nat} {e : Stop} (he : firstStop (s.core c).stops = some e) (hd : (s.ctx c).depth = 0)
    (ht : (s.ctx c).tvec ≠ 0) (hr : s.reach c ((s.ctx c).areas 0x3100 .write) = (u, false)) :
    takeStop s c = u.mapCore c fun x => { x with halted := true } := by
  simp only [takeStop, he, hd, ht, hr]
  rfl

/-- A stop that does not wait is that of its cause, in a state that differs by look-ups alone. -/
theorem takeStop_takes {s : State} {c : Nat} {e : Stop} (he : firstStop (s.core c).stops = some e)
    (hr : (s.ctx c).depth = 0 → (s.ctx c).tvec ≠ 0 → (s.reach c ((s.ctx c).areas 0x3100 .write)).2 = true) :
    ∃ u, Looked s u ∧ takeStop s c = stopFor u c e := by
  simp only [takeStop, he]
  split
  · exact ⟨s, .refl s, rfl⟩
  rename_i h
  simp only [Bool.or_eq_true, decide_eq_true_eq, not_or, not_not] at h
  have reached := hr h.1 h.2
  split <;> rename_i eq
  · exact ⟨_, looked_of_reach eq, rfl⟩
  · rw [eq] at reached
    cases reached

end Sys2Proof.Machine
end

section
open Sys2Proof Sys2Proof.Machine

/-- Settles O27: the cause by `firstStop_first`, what is held by `stopFor_held`, the handler by `handlerEntered_fullStop`. -/
theorem takingAStopFollowsR123ToR128 : Obligations.TakingAStopFollowsR123ToR128 := by
  intro s c stops there
  obtain ⟨e, he⟩ := Option.ne_none_iff_exists'.1 (mt firstStop_eq_none.1 stops)
  obtain ⟨mem, first⟩ := firstStop_first he
  refine ⟨e, mem, first, ?_⟩
  dsimp only
  rw [← causeWord_eq, ← killedBy_eq_and]
  refine ⟨fun hd ht hr => takeStop_waits he hd ht (Prod.ext rfl hr), fun hr f hf lost hne => ?held, fun hd ht hr => ?enters,
    fun hd ht => ?kills, fun hd => ?nests, fun hd => ?killsNested⟩
  case held =>
    obtain ⟨u, look, taken⟩ := takeStop_takes he hr
    rw [taken, stopFor_held e (by rw [look.core]; exact there), look.core]
    refine mem_foldl_insHeld f _ _ (.inl (List.mem_filter.2 ⟨hf, ?_⟩))
    rw [(heldCause_iff f).2 lost, Bool.true_and]
    exact bne_iff_ne.2 hne
  case enters =>
    obtain ⟨u, look, taken⟩ := takeStop_takes he fun _ _ => hr
    have begun := stopBegun_beginStop u c e
    obtain ⟨z, hz⟩ := Option.isSome_iff_exists.1 (begun.there.trans (by rw [look.core]; exact there))
    rw [taken, stopFor_enters e (by rw [look.ctx]; exact hd) (by rw [look.ctx]; exact ht)]
    have entered : HandlerEntered s (fullStop (beginStop u c e) c e) c e := (handlerEntered_fullStop hz e).of_same
      (fun d k => (begun.strands d k).trans (look.str d k)) (by rw [begun.tvec, look.ctx])
    obtain ⟨ops, mxq, lq, wq, stops⟩ := entered.empty
    have saved (r : Reg) : (fullStop (beginStop u c e) c e).rd c .s r = s.rd c .s r := by rw [State.rd, entered.handler]; rfl
    have asleep (k : StrandIx) (hk : k ≠ .s) : ((fullStop (beginStop u c e) c e).str c k).running = false ∧
        ∀ r, (fullStop (beginStop u c e) c e).rd c k r = s.rd c k r := by
      simp only [State.rd, entered.idled k hk]
      exact ⟨rfl, fun _ => rfl⟩
    refine ⟨entered.depth, entered.tcause, entered.tval, ?_, ?_, ?_, ?_, ?_, saved, asleep, ops, mxq, lq, wq, stops, entered.others⟩ <;>
      rw [entered.handler]
    iterate 4 rfl
    exact getLsbD_handler_sst _ _
  case kills =>
    obtain ⟨u, look, taken⟩ := takeStop_takes he fun _ h => absurd ht h
    have begun := stopBegun_beginStop u c e
    rw [taken, stopFor_kills e (.inl (by rw [look.ctx]; exact ⟨hd, ht⟩)), State.ctx, State.core_mapCore_self]
    exact ⟨by rw [begun.removal, look.core, Option.or_some], (begun.depth.trans (by rw [look.ctx])).trans hd⟩
  case nests =>
    obtain ⟨u, look, taken⟩ := takeStop_takes he fun h => by omega
    have begun := stopBegun_beginStop u c e
    rw [taken, stopFor_nests e (by rw [look.ctx]; exact hd), State.ctx, State.core_mapCore_self]
    refine ⟨?_, (begun.depth.trans (by rw [look.ctx])).trans hd, begun.stops⟩
    rw [begun.nested, look.core]
    rfl
  case killsNested =>
    obtain ⟨u, look, taken⟩ := takeStop_takes he fun h => by omega
    have begun := stopBegun_beginStop u c e
    rw [taken, stopFor_kills e (.inr (by rw [look.ctx]; exact hd)), State.core_mapCore_self, begun.removal, look.core, Option.or_some]

end

section
/-!
SUPPORT. The tag table (spec/07 R157 to R160): its look-up, the words on it, and the order in which the writes of a clock cycle apply.
-/

namespace Sys2Proof.Machine

/-! ### The words -/

section
variable {s : State} {c : Nat} {k : StrandIx} {n : Ann} {i : Instr} {rs : List Reg}

/-- A look-up finds the lowest index that holds the key, or none. -/
theorem tagLook_finds (x : Core) (key : Word) :
    (tagLook x key = BitVec.allOnes 64 ∧ ∀ i < TagCount x.tagcfg, Tab.get none x.tags i ≠ some key) ∨
    ((tagLook x key).toNat < TagCount x.tagcfg ∧ Tab.get none x.tags (tagLook x key).toNat = some key ∧
      ∀ i < (tagLook x key).toNat, Tab.get none x.tags i ≠ some key) := by
  cases found : (List.range (TagCount x.tagcfg)).find? (fun i => Tab.get none x.tags i == some key) with
  | none =>
    refine .inl ⟨by rw [tagLook, show tagCount x.tagcfg = TagCount x.tagcfg from rfl, found], fun i hi => ?_⟩
    exact fun e => List.find?_eq_none.1 found i (List.mem_range.2 hi) (beq_iff_eq.2 e)
  | some j =>
    obtain ⟨holds, here, lowest⟩ := List.find?_range_eq_some.1 found
    have small : j < 2 ^ 64 := Nat.lt_trans (Nat.lt_trans (List.mem_range.1 here) (x.tagcfg.extractLsb' 25 9).isLt) (by decide)
    have index : (tagLook x key).toNat = j := by
      rw [tagLook, show tagCount x.tagcfg = TagCount x.tagcfg from rfl, found, BitVec.toNat_ofNat, Nat.mod_eq_of_lt small]
    rw [index]
    exact .inr ⟨List.mem_range.1 here, beq_iff_eq.1 holds, fun i hi e => absurd (lowest i hi) (by rw [beq_iff_eq.2 e]; exact Bool.false_ne_true)⟩

theorem LeavesCore.completes {x : Core} {y : Ctx} (h : LeavesCore i n s c k x y) : (∃ t, exec i s = .next t) ∧ LeavesCore i n s c k x y :=
  ⟨let ⟨_, he, _⟩ := h; ⟨_, he⟩, h⟩

theorem tagFault_of_lt {x : Core} {j : Word} (h : j.toNat < TagCount x.tagcfg) : tagFault x j = none := if_neg (Nat.not_le.2 h)

theorem tagFault_of_le {x : Core} {j : Word} (h : TagCount x.tagcfg ≤ j.toNat) :
    tagFault x j = some (BitVec.ofNat 64 (TagBase x.tagcfg + j.toNat * TagSlotBytes x.tagcfg)) := if_pos h

/-- The rule of a word that writes one entry: an index at or beyond COUNT faults. -/
def tagEntryBody (b : Reg) (e : Nat → StrandIx → State → Option Word) (c : Nat) (k : StrandIx) (s : State) : Act :=
  match tagFault (s.core c) (s.rd c k b) with
  | some v => .fault s 0x06 v
  | none => .go (s.mapCore c (fun x => TagWritten x k (some (s.rd c k b).toNat) (e c k s))) .fall

theorem tagEntryBody_inside {b : Reg} {e : Nat → StrandIx → State → Option Word} (h : (s.rd c k b).toNat < TagCount (s.core c).tagcfg) :
    tagEntryBody b e c k s = .go (s.mapCore c (fun x => TagWritten x k (some (s.rd c k b).toNat) (e c k s))) .fall := by
  rw [tagEntryBody, tagFault_of_lt h]

theorem tagEntryBody_beyond {b : Reg} {e : Nat → StrandIx → State → Option Word} (h : TagCount (s.core c).tagcfg ≤ (s.rd c k b).toNat) :
    tagEntryBody b e c k s = .fault s 0x06
      (BitVec.ofNat 64 (TagBase (s.core c).tagcfg + (s.rd c k b).toNat * TagSlotBytes (s.core c).tagcfg)) := by
  rw [tagEntryBody, tagFault_of_le h]

/-- A ready word whose rule records a tag write. -/
theorem Ready.writesTag {f : Info} {body : Nat → StrandIx → State → Act} {j : Option Nat} {e : Option Word} (h : Ready s c k i n allStr rs [])
    (hf : Fits f s c k i n allStr rs []) (hb : body c k s = .go (s.mapCore c (fun x => TagWritten x k j e)) .fall) (he : exec i s = issue i f body s) :
    (∃ t, exec i s = .next t) ∧ LeavesCore i n s c k (TagWritten (s.core c) k j e) (s.ctx c) :=
  (h.changesCore hf (fun x => TagWritten x k j e) hb he (fun _ i => by cases i <;> rfl) (fun _ => rfl) (fun _ => rfl) fun _ => rfl).completes

/-- A ready word that writes one entry. -/
theorem Ready.writesEntry {b : Reg} {e : Nat → StrandIx → State → Option Word} (h : Ready s c k i n allStr rs [])
    (he : exec i s = issue i { y := n.y, t := n.t, reads := rs } (tagEntryBody b e) s)
    (hi : ForEveryStrand i := by exact ⟨fun _ _ => Instr.noConfusion, rfl⟩) :
    ((s.rd c k b).toNat < TagCount (s.core c).tagcfg → (∃ t, exec i s = .next t) ∧
      LeavesCore i n s c k (TagWritten (s.core c) k (some (s.rd c k b).toNat) (e c k s)) (s.ctx c)) ∧
    (TagCount (s.core c).tagcfg ≤ (s.rd c k b).toNat → Raises i s c k 0x06
      (BitVec.ofNat 64 (TagBase (s.core c).tagcfg + (s.rd c k b).toNat * TagSlotBytes (s.core c).tagcfg))) :=
  ⟨fun inside => h.writesTag (fits_scalar hi) (tagEntryBody_inside inside) he, fun beyond => h.raises (fits_scalar hi) (tagEntryBody_beyond beyond) he⟩

end

/-! ### The writes of a clock cycle -/

/-- A tag write changes what entry `i` holds. -/
def TagWr.Touches (w : TagWr) (i : Nat) : Prop := w.ix = some i ∨ w.ix = none

theorem tagApply_get_of_not_touches {w : TagWr} {i : Nat} (t : Tab (Option Word)) (h : ¬ w.Touches i) :
    Tab.get none (tagApply t w) i = Tab.get none t i := by
  obtain ⟨other, entry⟩ := not_or.1 h
  rw [tagApply]
  cases hx : w.ix with
  | none => exact absurd hx entry
  | some j => exact Tab.get_set_ne none t w.ent fun e => other (by rw [hx, e])

/-- What entry `i` holds after a write that touches it: the write's entry, or nothing after a clearing of the table. -/
def TagWr.leaves (w : TagWr) : Option Word := w.ix.bind fun _ => w.ent

theorem tagApply_get_of_touches {w : TagWr} {i : Nat} (t : Tab (Option Word)) (h : w.Touches i) :
    Tab.get none (tagApply t w) i = w.leaves := by
  rw [tagApply, TagWr.leaves]
  rcases h with h | h <;> rw [h]
  · exact Tab.get_set_self none t i w.ent
  · rfl

theorem foldl_tagApply_of_none {i : Nat} : ∀ (l : List TagWr) (t : Tab (Option Word)), (∀ v ∈ l, ¬ v.Touches i) →
    Tab.get none (l.foldl tagApply t) i = Tab.get none t i
  | [], _, _ => rfl
  | v :: l, t, h => (foldl_tagApply_of_none l _ fun u hu => h u (List.mem_cons_of_mem v hu)).trans
      (tagApply_get_of_not_touches t (h v List.mem_cons_self))

/-- Where one write alone touches an entry, as often as it stands there, the entry holds what it leaves. -/
theorem foldl_tagApply_of_one {i : Nat} {w : TagWr} (hw : w.Touches i) : ∀ (l : List TagWr) (t : Tab (Option Word)), w ∈ l →
    (∀ v ∈ l, v.Touches i → v = w) → Tab.get none (l.foldl tagApply t) i = w.leaves
  | v :: l, t, hm, h => by
    have rest := fun u hu => h u (List.mem_cons_of_mem v hu)
    by_cases hl : w ∈ l
    · exact foldl_tagApply_of_one hw l _ hl rest
    · have hv : w = v := (List.mem_cons.1 hm).resolve_right hl
      subst hv
      exact (foldl_tagApply_of_none l _ fun u hu ht => hl (rest u hu ht ▸ hu)).trans (tagApply_get_of_touches t hw)

/-- The tag writes of a clock cycle whose place is below `n`, in the order of R160. -/
def tagsBelow (n : Nat) (t : Tab (Option Word)) (ws : List TagWr) : Tab (Option Word) :=
  (List.range n).foldl (fun t p => (ws.filter (·.place == p)).foldl tagApply t) t

theorem tagsBelow_succ (n : Nat) (t : Tab (Option Word)) (ws : List TagWr) :
    tagsBelow (n + 1) t ws = (ws.filter (·.place == n)).foldl tagApply (tagsBelow n t ws) := by
  rw [tagsBelow, List.range_succ, List.foldl_append]; rfl

theorem tagsApply_eq (t : Tab (Option Word)) (ws : List TagWr) : tagsApply t ws = tagsBelow 5 t ws := rfl

/-- The last writer of an entry wins. -/
theorem tagsBelow_get_of_last {i : Nat} {w : TagWr} {ws : List TagWr} (t : Tab (Option Word)) (hw : w.Touches i) (hm : w ∈ ws)
    (last : ∀ v ∈ ws, v.Touches i → v = w ∨ v.place < w.place) : ∀ n, w.place < n → Tab.get none (tagsBelow n t ws) i = w.leaves
  | n + 1, hn => by
    rw [tagsBelow_succ]
    rcases Nat.eq_or_lt_of_le (Nat.le_of_lt_succ hn) with here | earlier
    · refine foldl_tagApply_of_one hw _ _ (List.mem_filter.2 ⟨hm, beq_iff_eq.2 here⟩) fun v hv ht => ?_
      obtain ⟨hv, hp⟩ := List.mem_filter.1 hv
      exact (last v hv ht).resolve_right fun lt => absurd (beq_iff_eq.1 hp) (by omega)
    · rw [foldl_tagApply_of_none, tagsBelow_get_of_last t hw hm last n earlier]
      intro v hv ht
      obtain ⟨hv, hp⟩ := List.mem_filter.1 hv
      have hp := beq_iff_eq.1 hp
      rcases last v hv ht with rfl | lt <;> omega

theorem tagsBelow_get_of_none {i : Nat} {ws : List TagWr} (t : Tab (Option Word)) (h : ∀ v ∈ ws, ¬ v.Touches i) :
    ∀ n, Tab.get none (tagsBelow n t ws) i = Tab.get none t i
  | 0 => rfl
  | n + 1 => by
    rw [tagsBelow_succ, foldl_tagApply_of_none _ _ fun v hv => h v (List.mem_filter.1 hv).1, tagsBelow_get_of_none t h n]

end Sys2Proof.Machine
end

section

open Sys2Proof Sys2Proof.Machine

/-- R160: the words. -/
theorem Sys2Proof.Machine.tagWordsFollowR160 : TagWordsFollowR160 := by
  intro s c k n
  refine ⟨fun d a h hr => ?looks, fun a b h => ?sets, fun b h => ?clears, fun h => ?clearsAll⟩
  case looks =>
    have starts : StartsOp (.tglook n d a) n s c k (ExposedOp s c k (.tglook n d a) d [tagLook (s.core c) (s.rd c k a)] 3
        (tagLook (s.core c) (s.rd c k a)) 0) := h.startsOp (fits_scalar (hr := fun _ => hr)) rfl rfl rfl
    exact ⟨let ⟨_, he, _⟩ := starts; ⟨_, he⟩, _, starts, tagLook_finds (s.core c) (s.rd c k a)⟩
  case sets => exact h.writesEntry (e := fun c k s => some (s.rd c k a)) rfl
  case clears => exact h.writesEntry (e := fun _ _ _ => none) rfl
  case clearsAll => exact h.writesTag fits_scalar rfl rfl

/-- R160: the writes of a clock cycle. -/
theorem Sys2Proof.Machine.tagWritesApplyInStrandOrder : TagWritesApplyInStrandOrder := by
  intro x i
  refine ⟨rfl, fun w hm hix hp last => ?_, fun w hm hix hp last => ?_, fun h => ?_⟩
  · exact (tagsBelow_get_of_last x.tags (.inl hix) hm last 5 hp).trans (by rw [TagWr.leaves, hix]; rfl)
  · exact (tagsBelow_get_of_last x.tags (.inr hix) hm last 5 hp).trans (by rw [TagWr.leaves, hix]; rfl)
  · exact tagsBelow_get_of_none x.tags (fun v hv => not_or.2 (h v hv)) 5

/-- Settles O13: `tagWordsFollowR160` and `tagWritesApplyInStrandOrder`. -/
theorem tagTableFollowsR160 : Obligations.TagTableFollowsR160 := ⟨tagWordsFollowR160, tagWritesApplyInStrandOrder⟩

end

section
/-!
SUPPORT. The words that enter a queue of the copy engine (spec/11 R230, R231): their checks in order, and the entry of the command.
-/

namespace Sys2Proof.Machine

/-! ### The first check that fails -/

/-- `r` is what the first failing check of a list raises, or none where all pass. -/
def Finds (l : List (Prop × Nat × Word)) (r : Option (Nat × Word)) : Prop := FirstFault l (fun code v => r = some (code, v)) (r = none)

theorem finds_nil : Finds [] none := (firstFault_nil _ _).2 rfl

/-- One check of a rule written as a chain of tests. -/
theorem finds_cons {l : List (Prop × Nat × Word)} {p b : Prop} [Decidable b] {code : Nat} {v : Word} {r : Option (Nat × Word)} (hb : b ↔ ¬ p)
    (rest : Finds l r) : Finds ((p, code, v) :: l) (if b then some (code, v) else r) := by
  refine (firstFault_cons _ _ _ _).2 ⟨fun hp => if_pos (hb.2 hp), fun hp => ?_⟩
  rw [if_neg (fun h => hb.1 h hp)]
  exact rest

/-- The failing check decides what the rule does, or the rule goes on. -/
theorem Finds.firstFault {fault : Nat → Word → Prop} {pass : Prop} {r : Option (Nat × Word)} {l : List (Prop × Nat × Word)} (h : Finds l r)
    (hf : ∀ code v, r = some (code, v) → fault code v) (hp : r = none → pass) : FirstFault l fault pass :=
  ⟨fun p e q hl hb he => hf _ _ (h.1 p e q hl hb he), fun hl => hp (h.2 hl)⟩

/-! ### The checks of R230 -/

section
variable {s : State} {c : Nat}

/-- Step 6 for one run of scratch bytes. -/
theorem finds_inScratch (x n : Nat) :
    Finds [InScratch s c x n] ((beyond (s.ctx c).scrsize x n).map fun a => (0x06, BitVec.ofNat 64 a)) := by
  have first : max x (s.ctx c).scrsize = if x < (s.ctx c).scrsize then (s.ctx c).scrsize else x := by split <;> omega
  rw [InScratch, ← first, beyond, apply_ite (Option.map _)]
  exact finds_cons (by omega) finds_nil

theorem etSize_ne_zero (et : Nat) : etSize et ≠ 0 := by unfold etSize; split <;> decide

/-- Step 3: a shape that is valid, of any element type. -/
theorem finds_shape {i : Instr} {h : BitVec 4} {l : List (Prop × Nat × Word)} {r : Option (Nat × Word)} (any : ∀ et, etAllowed i et = true)
    (rest : Finds l r) : Finds (ShapeChecks s c h anyEt ++ l)
      (if !(ShapeOf s c h).valid then some (0x10, shapeVal 7 h.toNat 0)
        else if !etAllowed i (recEt (ShapeOf s c h).bytes) then some (0x10, shapeVal 8 h.toNat 0) else r) := by
  have some7 : ShapeTval 7 h.toNat 0 = shapeVal 7 h.toNat 0 := by rw [ShapeTval, shapeVal, Nat.mul_comm (2 ^ 8), Nat.mul_comm (2 ^ 12)]
  have some8 : ShapeTval 8 h.toNat 0 = shapeVal 8 h.toNat 0 := by rw [ShapeTval, shapeVal, Nat.mul_comm (2 ^ 8), Nat.mul_comm (2 ^ 12)]
  have member : recEt (ShapeOf s c h).bytes ∈ anyEt := List.mem_range.2 (Nat.mod_lt _ (by decide))
  rw [ShapeChecks, some7, some8, List.cons_append]
  refine finds_cons (by rw [Bool.not_eq_true', Bool.not_eq_true]) (finds_cons ?_ rest)
  rw [any, Bool.not_true]
  exact iff_of_false Bool.false_ne_true (not_not.2 member)

/-- The checks of a fill of global memory. -/
theorem finds_fill {i : Instr} (h : BitVec 4) (b : Word) (any : ∀ et, etAllowed i et = true) :
    Finds (ShapeChecks s c h anyEt ++ [Aligned (ElementSize s c h) b])
      (formCheck i { shape := some h, glob := some b, al := s.shapeZ c h } (s.core c) (s.ctx c).scrsize) := by
  refine finds_shape any (finds_cons ?_ finds_nil)
  have size : ElementSize s c h = s.shapeZ c h := rfl
  have positive : decide (s.shapeZ c h ≠ 0) = true := decide_eq_true (etSize_ne_zero _)
  rw [positive, Bool.true_and, decide_eq_true_iff, size]
  exact Iff.rfl

/-- The checks of a fill of the scratchpad. -/
theorem finds_fillScr {i : Instr} (h : BitVec 4) (x : Word) (any : ∀ et, etAllowed i et = true) :
    Finds (ShapeChecks s c h anyEt ++ [Aligned 16 x, InScratch s c x.toNat (ElementCount s c h * ElementSize s c h)])
      (formCheck i { shape := some h, img := some x.toNat, zimg := s.shapeZ c h } (s.core c) (s.ctx c).scrsize) := by
  have single (o : Option Nat) : (o.or none).or none = o := by rw [Option.or_none, Option.or_none]
  have aligned : Aligned 16 x = (x.toNat % 16 = 0, 0x11, BitVec.ofNat 64 x.toNat) := by rw [Aligned, BitVec.ofNat_toNat, BitVec.setWidth_eq]
  have ranges := finds_inScratch (s := s) (c := c) x.toNat (ElementCount s c h * ElementSize s c h)
  rw [← single (beyond _ _ _)] at ranges
  rw [aligned]
  exact finds_shape any (finds_cons Iff.rfl ranges)

/-- The checks of a future: its word in the scratchpad, and its address. -/
theorem finds_future {i : Instr} (a b : Word) :
    Finds [Aligned 8 a, Aligned 16 b, InScratch s c a.toNat 8]
      (formCheck i { word := some a, glob := some b, al := 16 } (s.core c) (s.ctx c).scrsize) :=
  finds_cons Iff.rfl (finds_cons (by rw [Bool.and_eq_true, decide_eq_true_iff, decide_eq_true_iff]; exact and_iff_right (Nat.succ_ne_zero _)) (finds_inScratch a.toNat 8))

/-- The check of a signal's address. -/
theorem finds_signal {i : Instr} (b : Word) :
    Finds [Aligned 128 b] (formCheck i { glob := some b, al := 128 } (s.core c) (s.ctx c).scrsize) :=
  finds_cons (by rw [Bool.and_eq_true, decide_eq_true_iff, decide_eq_true_iff]; exact and_iff_right (Nat.succ_ne_zero _)) finds_nil

end

/-! ### The entry in a queue -/

section
variable {s : State} {c : Nat} {k : StrandIx} {n : Ann} {i : Instr} {rs : List Reg} {ks : List StrandIx} {who : BitVec 4} {f : Info}
  {body : Nat → StrandIx → State → Act}

/-- The number of elements of a command. -/
def elementsOf (i : Instr) (snap : Option Shape) : Nat := match i with
  | .cpres .. | .cpreg .. | .cpsig .. => 1
  | _ => match snap with
    | some sh => recN sh.bytes
    | none => 0

/-- A command that is no multicast enters the queue of its strand where that has room. -/
theorem pushCmd_eq (h : Option (BitVec 4)) (a b : Word) (idx x : Nat) (room : (QueueOf (s.core c) k).length < 16) (hm : isMulticast i = false) :
    pushCmd i h a b idx x c k s = .go (s.mapCore c fun y => Enqueued y k
      (CommandOf s c k i h a b idx x (elementsOf i (h.map (ShapeOf s c))) [])) .fall := by
  have open' : ¬ (if k = .l then (s.core c).lq else (s.core c).wq).length ≥ 16 := Nat.not_le.2 room
  rw [pushCmd]
  dsimp only
  rw [if_neg open', hm]
  rfl

theorem fits_copy (hi : ForEveryStrand i) (hw : ∀ k ∈ ks, who.getLsbD (ixOf k) = true) (hr : (s.core c).records < 64) :
    Fits (copyInfo n who rs) s c k i n ks rs [] where
  assigned := hi.assigned
  y := rfl
  t := rfl
  who := hw k
  sys _ := hi.unrestricted
  reads := rfl
  dst := rfl
  il h := Bool.noConfusion h
  gm h := Bool.noConfusion h
  recs _ := hr
  room := .inl ⟨rfl, rfl⟩
  nh h := Bool.noConfusion h
  oh h := Bool.noConfusion h
  feat e he := by cases he
  late := rfl

/-- A seam that gives tokens leaves a second record. -/
theorem fits_seam (hw : ∀ k ∈ ks, (10 : BitVec 4).getLsbD (ixOf k) = true) (hr : (s.core c).records < 64)
    (room : n.t &&& 3 = 0 ∨ (s.core c).records < 63) : Fits { copyInfo n 10 [] with solo := true } s c k (.seam n) n ks [] [] :=
  have alike : Fits (copyInfo n 10 []) s c k (.seam n) n ks [] [] := fits_copy ⟨fun _ _ => Instr.noConfusion, rfl⟩ hw hr
  { assigned := alike.assigned, y := rfl, t := rfl, who := hw k, sys := alike.sys, reads := rfl, dst := rfl, il := alike.il, gm := alike.gm
    recs := alike.recs, nh := alike.nh, oh := alike.oh, feat := alike.feat, late := rfl
    room := .inr (by
      show (s.core c).records + (1 + 0 + if n.t &&& 3 != 0 && (!true || true) then 1 else 0) ≤ 64
      rcases room with none | some
      · rw [none]; exact hr
      · split <;> omega) }

/-- A rule that makes its checks before it acts. -/
def checksThen (r : Option (Nat × Word)) (a : State → Act) (s : State) : Act := match r with
  | some (code, v) => .fault s code v
  | none => a s

/-- A copy word whose rule makes its checks and then pushes its command. -/
theorem Ready.pushes {h : Option (BitVec 4)} {a b : Word} {x m : Nat} {l : List (Prop × Nat × Word)} {r : Option (Nat × Word)} (hr : Ready s c k i n ks rs [])
    (hf : Fits f s c k i n ks rs []) (he : exec i s = issue i f body s) (hl : Finds l r) (hm : isMulticast i = false)
    (hn : elementsOf i (h.map (ShapeOf s c)) = m)
    (hb : body c k s = checksThen r (pushCmd i h a b 0 x c k) s) :
    PushesBy i n s c k l (CommandOf s c k i h a b 0 x m []) := by
  refine hl.firstFault (fun code v e => ?_) (fun e room => ?_)
  · exact hr.raises hf (hb.trans (by rw [e]; rfl)) he
  · have goes := (hb.trans (by rw [e]; rfl)).trans (pushCmd_eq h a b 0 x room hm)
    rw [hn] at goes
    have kept : ∀ (y : Core) q, (∀ j, (Enqueued y k q).str j = y.str j) ∧ (Enqueued y k q).nord = y.nord ∧ (Enqueued y k q).ctx = y.ctx ∧
        (Enqueued y k q).scr = y.scr := fun y q => by
      rw [Enqueued]
      split <;> exact ⟨fun j => by cases j <;> rfl, rfl, rfl, rfl⟩
    exact hr.changesCore hf _ goes he (fun y j => (kept y _).1 j) (fun y => (kept y _).2.1) (fun y => (kept y _).2.2.1) fun y => (kept y _).2.2.2

end
end Sys2Proof.Machine
end

section

open Sys2Proof Sys2Proof.Machine

/-- Settles O21: each word's checks by the `finds_` lemma of their form, its entry by `Ready.pushes`. -/
theorem fillsFuturesDrainsAndSeamsEnterTheirQueue : Obligations.FillsFuturesDrainsAndSeamsEnterTheirQueue := by
  intro s c k n hr
  have both : ∀ k ∈ [StrandIx.l, .w], (10 : BitVec 4).getLsbD (ixOf k) = true := by decide
  have alone : ∀ k ∈ [StrandIx.w], (8 : BitVec 4).getLsbD (ixOf k) = true := by decide
  refine ⟨fun h gr ev => ⟨fun hd => ?_, fun hd => ?_⟩, fun sr gr ev => ⟨fun hd => ?_, fun hd => ?_⟩, fun gr ev j hd => ?_,
    fun ev => ⟨fun hd => ?_, fun hd => ?_⟩, fun hd room => ?_⟩
  · exact hd.pushes (fits_copy ⟨fun _ _ => Instr.noConfusion, rfl⟩ both hr) rfl (finds_fill h _ fun _ => rfl) rfl rfl rfl
  · exact hd.pushes (fits_copy ⟨fun _ _ => Instr.noConfusion, rfl⟩ both hr) rfl (finds_fillScr h _ fun _ => rfl) rfl rfl rfl
  · exact hd.pushes (fits_copy ⟨fun _ _ => Instr.noConfusion, rfl⟩ alone hr) rfl (finds_future _ _) rfl rfl rfl
  · exact hd.pushes (fits_copy ⟨fun _ _ => Instr.noConfusion, rfl⟩ alone hr) rfl (finds_future _ _) rfl rfl rfl
  · exact hd.pushes (fits_copy ⟨fun _ _ => Instr.noConfusion, rfl⟩ alone hr) rfl (finds_signal _) rfl rfl rfl
  · exact hd.pushes (fits_copy ⟨fun _ _ => Instr.noConfusion, rfl⟩ both hr) rfl finds_nil rfl rfl rfl
  · exact hd.pushes (fits_copy ⟨fun _ _ => Instr.noConfusion, rfl⟩ both hr) rfl finds_nil rfl rfl rfl
  · exact hd.pushes (fits_seam both hr room) rfl finds_nil rfl rfl rfl

end

section

open Sys2Proof Sys2Proof.Machine

/-- A fill of one byte of the scratchpad at `x`, by strand W, in the send stage or not. -/
def Sys2Proof.Machine.scratchFill (x : Nat) (began : Bool) : CpCmd :=
  { k := .w, ord := 0, seq := 0, img := .cpfillScr ⟨false, 0⟩ 0 0 false, snap := some {}, n := 1, x := x, began := began }

/-- Its one element lies at the address 0, which only the wrap check would look at. -/
theorem Sys2Proof.Machine.cmdElem_scratchFill (y : Core) (x : Nat) : cmdElem y (scratchFill x true) 0 = .va 0 := by with_unfolding_all rfl

/-- A core whose W queue holds two fills with one order number, of the scratch bytes 0 and 1. -/
def Sys2Proof.Machine.coreOfTwoFills (began : Bool) : Core := { ctx := some {}, wq := [scratchFill 0 began, scratchFill 1 began] }

/-- The send stage of core 0, which holds two fills with one order number, has its turn. -/
def Sys2Proof.Machine.twoFills : State := { State.reset with
  agenda := [.event 0 .w 0 .copySendRequest], cores := [(0, coreOfTwoFills false)] }

/-- The places of the responses of each command in the W queue of core 0. -/
def Sys2Proof.Machine.placesIn (x : Core) : List (List Nat) := x.wq.map fun p => p.out.map (·.x)
def Sys2Proof.Machine.placesAfter : Result → List (List Nat)
  | .next t => placesIn (t.core 0)
  | _ => []

/-- Refutes O52: its clause on an element of cpfill.scr gives every command of the order number in the stage one and the same response, at the
place of the first such command. No condition says that order numbers are distinct; where a second command has the number, the send stage counts
its element as sent too, with a response at that command's own place. -/
theorem not_copyEngineFollowsR231ToR241 : ¬ Obligations.CopyEngineFollowsR231ToR241 := by
  unfold Obligations.CopyEngineFollowsR231ToR241
  intro h
  let y : Core := { coreOfTwoFills true with stage := some 0, lastq := false }
  let q : CpCmd := scratchFill 0 true
  have alive : Alive (twoFills.core 0) := (Core.alive_iff _).mp (by decide)
  have picked : pickStage (twoFills.core 0) = some (y, q) := by decide
  have ready : ¬ (pushOpen twoFills 0 q = true ∨ (q.snap ≠ none ∧ cpKind q.img ≠ .acc ∧ y.acc ≠ [])) := by decide
  have there : cmdElem y q q.sent = .va 0 := cmdElem_scratchFill y 0
  obtain ⟨-, shaped, -⟩ := ((h twoFills [] 0 .w 0).1 rfl).2 alive y q picked
  obtain ⟨-, -, filled, -⟩ := (shaped ready {} rfl (by decide)).2 _ rfl
  obtain ⟨cs, next, core, -⟩ := filled ⟨_, _, _, _, rfl⟩ (.inr ⟨0, there⟩)
  have stated : placesAfter (exec .copySendRequest twoFills) = [[0], [0]] := by
    rw [next, placesAfter, State.core, core]
    decide
  have modelled : placesAfter (exec .copySendRequest twoFills) = [[0], [1]] := by decide
  exact absurd (modelled.symm.trans stated) (by decide)

end

section
/-!
SUPPORT. The words of collectives (spec/21 R422, R423): an access leaves every function its collective key, and what the engine does when
a collective is registered leaves the collectives their terms.
-/

namespace Sys2Proof.Machine

/-! ### An access leaves every function its collective key -/

/-- Two states in which every function has the same CLKEY. -/
def SameKeys (s t : State) : Prop := ∀ v, (t.vf v).clkey = (s.vf v).clkey

theorem SameKeys.refl (s : State) : SameKeys s s := fun _ => rfl
theorem SameKeys.trans {s t u : State} (a : SameKeys s t) (b : SameKeys t u) : SameKeys s u := fun v => (b v).trans (a v)

/-- A change of none of the functions. -/
theorem SameKeys.of_vfs {s t : State} (h : t.vfs = s.vfs) : SameKeys s t := fun v => by rw [State.vf, h]; rfl

theorem SameKeys.mapVf (s : State) (v : Nat) {f : Vf → Vf} (h : ∀ x, (f x).clkey = x.clkey) : SameKeys s (s.mapVf v f) := by
  intro e
  by_cases he : e = v
  · subst he; rw [State.vf_mapVf_self, h]
  · rw [State.vf_mapVf_ne s f he]

theorem vfs_noteLines (n : Nat) : ∀ (h m : Nat) (s : State), (noteLines n h m s).vfs = s.vfs := by
  induction n with
  | zero => exact fun _ _ _ => rfl
  | succ n ih =>
    intro h m s
    rw [noteLines]
    split
    · rfl
    · exact ih _ _ _

theorem SameKeys.noteRead (s : State) (pa n : Nat) : SameKeys s (s.noteRead pa n) := by
  rw [State.noteRead]
  split
  · exact .of_vfs (vfs_noteLines _ _ _ s)
  · exact .refl s

theorem SameKeys.noteReads (l : List Nat) : ∀ s : State, SameKeys s (l.foldl (fun s a => s.noteRead a 8) s) := by
  induction l with
  | nil => exact .refl
  | cons a l ih => exact fun s => (SameKeys.noteRead s a 8).trans (ih _)

theorem SameKeys.askPage (s : State) (w : Walk) (kind : AccKind) : SameKeys s (askPage s w kind) := by
  rw [Machine.askPage]
  split
  · exact .of_vfs rfl
  · exact (SameKeys.mapVf (s.putWalk w _) w.vf (f := fun v => { v with preqs := v.preqs ++ [⟨_, w.page⟩] }) fun _ => rfl).trans (.of_vfs rfl)

theorem SameKeys.walkOnce (s : State) (d c : Nat) (w : Walk) (y : Who) (va : Word) (kind : AccKind) :
    SameKeys s (walkOnce s d c w y va kind).1 := by
  rw [Machine.walkOnce]
  dsimp only
  split
  · exact .of_vfs rfl
  split
  · exact .refl s
  refine (SameKeys.noteReads (entriesOf s d w.vf va) s).trans ?_
  generalize (entriesOf s d w.vf va).foldl (fun s a => s.noteRead a 8) s = u
  split
  · exact .of_vfs rfl
  · exact .of_vfs rfl
  · split
    · exact .of_vfs rfl
    · exact .askPage u w kind
  · exact .of_vfs rfl
  · split
    · split <;> exact .of_vfs rfl
    · exact .of_vfs rfl

theorem SameKeys.newWalk (s : State) (d c vf : Nat) (y : Who) (va : Word) (kind : AccKind) : SameKeys s (newWalk s d c vf y va kind).1 := by
  rw [Machine.newWalk]
  split
  · exact .refl s
  have h : ∀ w : Walk, SameKeys s (Machine.walkOnce { s with walks := s.walks ++ [w] } d c w y va kind).1 := fun w =>
    SameKeys.walkOnce { s with walks := s.walks ++ [w] } d c w y va kind
  dsimp only
  split
  · rename_i t e
    have ht := h ⟨d, vf, pageOf va, [y], false, .again⟩
    rw [e] at ht
    dsimp only
    split <;> exact ht
  · exact h _

theorem SameKeys.missTr (s : State) (d c vf : Nat) (y : Who) (va : Word) (kind : AccKind) : SameKeys s (missTr s d c vf y va kind).1 := by
  rw [Machine.missTr]
  split
  · exact .newWalk s d c vf y va kind
  rename_i w _
  dsimp only
  split
  · exact SameKeys.askPage (s.putWalk w _) _ kind
  · exact .of_vfs rfl
  · exact .of_vfs rfl
  · exact .of_vfs rfl
  · exact .of_vfs rfl
  · exact SameKeys.walkOnce (s.putWalk w _) d c _ y va kind
  · exact SameKeys.walkOnce (s.putWalk w _) d c _ y va kind

theorem SameKeys.translate (s : State) (c u vf : Nat) (va : Word) (kind : AccKind) : SameKeys s (translate s c u vf va kind).1 := by
  rw [Machine.translate]
  split
  · exact .of_vfs rfl
  split
  · exact .refl s
  · exact .missTr s _ c vf _ va kind

theorem SameKeys.accessAt (s : State) (c vf : Nat) (va : Word) (kind : AccKind) (n : Nat) (ap : Bool) (pa : Nat) :
    SameKeys s (accessAt s c vf va kind n ap pa).1 := by
  rw [Machine.accessAt]
  repeat' split
  all_goals exact .of_vfs rfl

theorem SameKeys.access (s : State) (c u vf : Nat) (va : Word) (kind : AccKind) (n : Nat) (ap : Bool) :
    SameKeys s (access s c u vf va kind n ap).1 := by
  have h := SameKeys.translate s c u vf va kind
  rw [Machine.access]
  split
  · rename_i t pa e
    rw [e] at h
    refine h.trans ?_
    dsimp only
    split
    · exact .of_vfs rfl
    · exact .accessAt t c vf va kind n ap pa
  · rename_i t fw r e
    rw [e] at h
    exact h.trans (.of_vfs rfl)
  · exact h

theorem SameKeys.readNow (s : State) (c u vf : Nat) (va : Word) (kind : AccKind) (n : Nat) : SameKeys s (readNow s c u vf va kind n).1 := by
  have h := SameKeys.access s c u vf va kind n false
  rw [Machine.readNow]
  split
  · rename_i t pa e
    rw [e] at h
    refine h.trans ?_
    dsimp only
    split
    · exact .of_vfs rfl
    · split <;> exact .refl t
  · exact h

/-! ### The reads of coll -/

/-- What the reads of coll leave as it was: they only look, and every function keeps its key. -/
def CollLooked (s t : State) : Prop := Looked s t ∧ SameKeys s t

theorem CollLooked.trans {s t u : State} (a : CollLooked s t) (b : CollLooked t u) : CollLooked s u :=
  ⟨a.1.trans b.1, a.2.trans b.2⟩

theorem CollLooked.readNow (s : State) (c u vf : Nat) (va : Word) (kind : AccKind) (n : Nat) : CollLooked s (readNow s c u vf va kind n).1 :=
  ⟨.readNow .., .readNow s c u vf va kind n⟩

theorem CollLooked.noteRead (s : State) (pa n : Nat) : CollLooked s (s.noteRead pa n) := ⟨.noteRead .., .noteRead s pa n⟩

theorem CollLooked.leaveWalks (s : State) (p : Who → Bool) : CollLooked s (s.leaveWalks p) := ⟨.leaveWalks .., .of_vfs rfl⟩

theorem CollLooked.collRead (c z n : Nat) : ∀ (s : State) (va : Word), CollLooked s (collRead c z n s va).1 := by
  induction n with
  | zero => exact fun s _ => ⟨.refl s, .refl s⟩
  | succ n ih =>
    intro s va
    have h := CollLooked.readNow s c (unitHead .s) (s.ctx c).vf va .read z
    rw [Machine.collRead]
    split
    · exact ⟨.refl s, .refl s⟩
    split
    · rename_i t e; rw [e] at h; exact h
    · rename_i t pa e; rw [e] at h; exact h
    · rename_i t fw r e; rw [e] at h; exact h
    · rename_i t pa e
      rw [e] at h
      have g := (h.trans (.noteRead t pa z)).trans (ih _ (va + BitVec.ofNat 64 z))
      dsimp only
      split
      · rename_i u l eu; rw [eu] at g; exact g
      · exact g

end Sys2Proof.Machine
end

section
namespace Sys2Proof.Machine

/-! ### What the engine does to the collectives -/

theorem setAt_eq_set {α : Type} (v : α) : ∀ (l : List α) (n : Nat), setAt l n v = l.set n v
  | [], _ => rfl
  | _ :: _, 0 => rfl
  | a :: l, n + 1 => congrArg (a :: ·) (setAt_eq_set v l n)

/-- A collective without what the engine changes of it: its terms. -/
def Coll.terms (x : Coll) : Coll := { x with st := .meeting, seen := [], data := [], wrote := 0, pa := none, cev := false }

/-- What the engine does leaves every core as it was, and every collective its place and its terms. -/
structure Worked (s t : State) : Prop where
  cores : t.cores = s.cores
  terms : t.colls.map Coll.terms = s.colls.map Coll.terms

theorem Worked.refl (s : State) : Worked s s := ⟨rfl, rfl⟩
theorem Worked.trans {s t u : State} (a : Worked s t) (b : Worked t u) : Worked s u := ⟨b.cores.trans a.cores, b.terms.trans a.terms⟩
theorem Worked.of_looked {s t : State} (h : Looked s t) : Worked s t := ⟨h.cores, by rw [h.rest]⟩

theorem Worked.foldl {α : Type} {f : State → α → State} (h : ∀ s a, Worked s (f s a)) : ∀ (l : List α) (s : State), Worked s (l.foldl f s)
  | [], s => .refl s
  | a :: l, s => (h s a).trans (Worked.foldl h l (f s a))

/-- A change that is one or the other. -/
theorem Worked.ite {p : Prop} [Decidable p] {s t u : State} (h : Worked s t) (g : Worked s u) : Worked s (if p then t else u) := by
  split
  · exact h
  · exact g

/-- A collective is replaced by one of the same terms. -/
theorem Worked.putColl {s : State} {i : Nat} {x y : Coll} (hx : s.colls[i]? = some x) (hy : y.terms = x.terms) : Worked s (s.putColl i y) := by
  refine ⟨rfl, ?_⟩
  have same : (s.colls.map Coll.terms)[i]? = some y.terms := by rw [List.getElem?_map, hx, hy]; rfl
  obtain ⟨hi, e⟩ := List.getElem?_eq_some_iff.1 same
  rw [State.putColl, setAt_eq_set, List.map_set, ← e, List.set_getElem_self]

theorem Worked.sendPeer (s : State) (x : Coll) (p : BitVec 16 × BitVec 3) (ch : Chan) (near : Cargo) (far : Out) :
    Worked s (sendPeer s x p ch near far) := by
  rw [Machine.sendPeer]
  split
  · exact ⟨rfl, rfl⟩
  · exact .refl s

theorem Worked.sendAborts (s : State) (x : Coll) : Worked s (sendAborts s x) := .foldl (fun s _ => .sendPeer s ..) _ s

theorem Worked.endColl (s : State) (i reason : Nat) : Worked s (endColl s i reason) := by
  rw [Machine.endColl]
  split
  · exact .refl s
  · rename_i x hx
    split
    · exact .refl s
    · exact (Worked.putColl hx (by rfl)).trans (.of_looked (.leaveWalks _ _))

theorem Worked.failColl (s : State) (i reason : Nat) : Worked s (failColl s i reason) := by
  rw [Machine.failColl]
  split
  · exact .refl s
  · split
    · exact .refl s
    · exact (Worked.endColl s i reason).trans (.sendAborts _ _)

theorem Worked.readSrc (i fuel : Nat) : ∀ s : State, Worked s (readSrc i fuel s).1 := by
  induction fuel with
  | zero => exact .refl
  | succ n ih =>
    intro s
    rw [Machine.readSrc]
    split
    · exact .refl s
    rename_i x hx
    dsimp only
    split
    · exact .refl s
    have look := Looked.portAcc s x.die x.unit x.vf (x.src + BitVec.ofNat 64 (Tab.get [] x.data x.rank).length) .read x.z x.pa
    have update {t : State} (l : Looked s t) {y : Coll} (hy : y.terms = x.terms) : Worked s (t.putColl i y) :=
      (Worked.of_looked l).trans (.putColl (x := x) (by rw [l.rest]; exact hx) hy)
    split
    · rename_i t pa e
      rw [e] at look
      exact (update (look.trans (.noteRead t pa x.z)) (by rfl)).trans (ih _)
    · rename_i t pa e
      rw [e] at look
      exact update look (by rfl)
    · rename_i t e
      rw [e] at look
      exact .of_looked look
    · rename_i t _ _ e
      rw [e] at look
      exact .of_looked look

theorem Worked.startColl (s : State) (i : Nat) : Worked s (startColl s i) := by
  rw [Machine.startColl]
  cases hx : s.colls[i]? with
  | none => exact .refl s
  | some x =>
    refine .ite (.refl s) (.ite ?refused ?reads)
    case refused =>
      have denied : Worked s (s.denyFlit x.die x.vf x.die) := ⟨rfl, rfl⟩
      exact (denied.trans (.of_looked (.logAf _ _ _ _))).trans (.failColl _ i 5)
    have read := Worked.readSrc i (x.srcCount x.rank + 1) s
    split
    all_goals rename_i t e
    all_goals rw [e] at read
    · exact read
    · exact read.trans (.failColl t i 5)
    · refine read.trans ?_
      split
      · exact .refl t
      · rename_i y hy
        have put : Worked t (t.putColl i { y with st := .moving }) := .putColl hy rfl
        exact .ite put (put.trans (.foldl (fun s _ => .sendPeer s ..) _ _))

theorem Worked.meetReady (s : State) (i : Nat) (m : ReadyMsg) : Worked s (meetReady s i m) := by
  rw [Machine.meetReady]
  split
  · exact .refl s
  rename_i x hx
  split
  · exact .refl s
  split
  · exact (Worked.putColl hx (by rfl)).trans (.startColl _ i)
  · exact .failColl s i 4

/-- A collective that is registered is then among the collectives with its terms, and no core has changed. -/
theorem launchColl_spec (s : State) (x : Coll) : (launchColl s x).cores = s.cores ∧ ∃ z ∈ (launchColl s x).colls, z.terms = x.terms := by
  have worked : ∃ t, t.cores = s.cores ∧ x ∈ t.colls ∧ Worked t (launchColl s x) := by
    rw [launchColl]
    refine ⟨_, ?cores, ?member, Worked.trans (Worked.foldl (fun s p => .sendPeer s ..) _ _) (Worked.foldl (fun s m => .meetReady s _ m) _ _)⟩
    case cores => rfl
    case member => exact List.mem_append_right _ (List.mem_singleton.2 rfl)
  obtain ⟨t, cores, member, w⟩ := worked
  have registered := List.mem_map_of_mem (f := Coll.terms) member
  rw [← w.terms, List.mem_map] at registered
  exact ⟨w.cores.trans cores, registered⟩

end Sys2Proof.Machine
end

section
namespace Sys2Proof.Machine

/-! ### The words coll and collwait -/

section
variable {s : State} {c : Nat} {y : Bool}

/-- What the checks before a word of the feature ZWIVEL need to know. -/
theorem fits_coll {i : Instr} {a : Reg} {ds : List Reg} (hi : ∀ p r, i ≠ .unassignedWord p r) (active : s.feat (s.ctx c).vf 9 = true) :
    Fits { collInfo y a with dst := ds } s c .s i ⟨y, 0⟩ [.s] [a] ds where
  assigned := hi
  y := rfl
  t := rfl
  who _ := by show (1 : BitVec 4).getLsbD 0 = true; decide
  sys h := absurd rfl h
  reads := rfl
  dst := rfl
  il h := Bool.noConfusion h
  gm h := Bool.noConfusion h
  recs h := Bool.noConfusion h
  room := .inl ⟨rfl, rfl⟩
  nh h := Bool.noConfusion h
  oh h := Bool.noConfusion h
  feat e he := by rw [List.mem_singleton.1 he]; exact active
  late := rfl

theorem wordAt_eq (b : List Byte) (o : Nat) : wordAt b o = BitVec.ofNat 64 (NumberOf ((b.drop o).take 8)) := by
  rw [wordAt, fieldAt, numberOf_eq_leNat]

/-- An address with its three low bits cleared. -/
theorem clearLow_ofNat (n : Nat) : BitVec.ofNat 64 n &&& ~~~7#64 = BitVec.ofNat 64 (n / 8 * 8) := by
  have high : ∀ b < 64, (~~~(7#64)).getLsbD b = decide (3 ≤ b) := by decide
  have shifted : BitVec.ofNat 64 (n / 8 * 8) = BitVec.ofNat 64 n >>> 3 <<< 3 := by
    apply BitVec.eq_of_toNat_eq
    rw [BitVec.toNat_shiftLeft, BitVec.toNat_ushiftRight, BitVec.toNat_ofNat, BitVec.toNat_ofNat, Nat.shiftLeft_eq, Nat.shiftRight_eq_div_pow]
    omega
  rw [shifted]
  refine BitVec.eq_of_getLsbD_eq fun b hb => ?_
  rw [BitVec.getLsbD_and, high b hb, BitVec.getLsbD_shiftLeft, BitVec.getLsbD_ushiftRight]
  by_cases low : b < 3
  · simp [low]
  · simp [hb, low, Nat.add_sub_cancel' (Nat.not_lt.1 low), Nat.not_lt.1 low]

/-- A descriptor that passes its checks names a rank below NRANK. -/
theorem rank_lt_of_descBad {b : List Byte} (h : descBad b = false) :
    ((wordAt b 0).extractLsb' 32 6).toNat < ((wordAt b 0).extractLsb' 16 7).toNat := by
  simp only [descBad, Bool.or_eq_false_iff, decide_eq_false_iff_not] at h
  omega

/-- The checks of R422 on what coll has read. -/
def CollGood (s : State) (c : Nat) (b pl : List Byte) : Prop :=
  descBad b = false ∧ peersBad pl ((wordAt b 0).extractLsb' 16 7).toNat = false ∧ (s.vf (s.ctx c).vf).clkey ≠ 0 ∧
    peerOf pl ((wordAt b 0).extractLsb' 32 6).toNat = (s.pkg.zpkg, BitVec.ofNat 3 (dieOf c)) ∧
    ∀ z ∈ s.colls, z.die = dieOf c → z.unfinished = true → z.me.seq ≠ BitVec.ofNat 32 (fieldAt b 8 4)

theorem seqBusy_eq_false_iff (d : Nat) (sq : BitVec 32) :
    s.seqBusy d sq = false ↔ ∀ z ∈ s.colls, z.die = d → z.unfinished = true → z.me.seq ≠ sq := by
  simp [State.seqBusy]

variable {b pl : List Byte}

/-- The test that coll makes of what it has read, in a state that its reads have left. -/
theorem collTest_iff {t : State} (l : CollLooked s t) :
    (descBad b || peersBad pl ((wordAt b 0).extractLsb' 16 7).toNat || decide ((t.vf (s.ctx c).vf).clkey = 0)
      || decide (((List.range ((wordAt b 0).extractLsb' 16 7).toNat).map (peerOf pl))[((wordAt b 0).extractLsb' 32 6).toNat]? ≠
        some (t.pkg.zpkg, BitVec.ofNat 3 (dieOf c)))
      || t.seqBusy (dieOf c) (BitVec.ofNat 32 (fieldAt b 8 4))) = true ↔ ¬ CollGood s c b pl := by
  have pkg : t.pkg = s.pkg := by rw [l.1.rest]
  have colls : t.colls = s.colls := by rw [l.1.rest]
  rw [← Bool.not_eq_false, not_iff_not, CollGood, l.2, pkg, ← colls, ← seqBusy_eq_false_iff]
  simp only [Bool.or_eq_false_iff, decide_eq_false_iff_not, not_not, and_assoc]
  refine and_congr_right fun ok => and_congr_right fun _ => and_congr_right fun _ => and_congr_left fun _ => ?_
  have inside := rank_lt_of_descBad ok
  rw [List.getElem?_map, List.getElem?_range inside, Option.map_some, Option.some_inj]

/-- The collective that coll registers. -/
def collOf (s : State) (c : Nat) (b pl : List Byte) (h : Nat) : Coll :=
  let t := wordAt b 0
  { die := dieOf c, task := (s.ctx c).task, vf := (s.ctx c).vf, h := h
    me := { clkey := (s.vf (s.ctx c).vf).clkey, seq := BitVec.ofNat 32 (fieldAt b 8 4), pkg := s.pkg.zpkg, die := BitVec.ofNat 3 (dieOf c)
            rank := t.extractLsb' 32 6, op := t.extractLsb' 0 4, et := t.extractLsb' 4 4, wide := t.getLsbD 8, count := fieldAt b 0x10 8
            nrank := t.extractLsb' 16 7, root := t.extractLsb' 40 6 }
    src := wordAt b 0x18, dst := wordAt b 0x20, peers := (List.range (t.extractLsb' 16 7).toNat).map (peerOf pl), ev := t.getLsbD 46
    due := s.dieclk + 1000 * fieldAt b 0x30 8 }

variable {d a : Reg}

theorem collBody_of_bad (bad : ¬ GoodGlobal (s.rd c .s a) 64) : collBody d a c .s s = .fault s 0x07 (s.rd c .s a) := by
  rw [← gAddrBad_eq_false_iff, Bool.not_eq_false, gAddrBad] at bad
  exact if_pos bad

theorem collBody_of_good (good : GoodGlobal (s.rd c .s a) 64) : ¬ (!canonical (s.rd c .s a) || decide ((s.rd c .s a).toNat % 64 ≠ 0)) = true := by
  rw [← gAddrBad_eq_false_iff, gAddrBad] at good
  exact Bool.eq_false_iff.1 good

/-- coll waits for a handle and for what R31 releases. -/
theorem collBody_waits (good : GoodGlobal (s.rd c .s a) 64)
    (w : 4 ≤ ((s.colls.filter (fun z => z.task == (s.ctx c).task)).filter (·.unfinished)).length ∨ s.sysReleased c .s = false) :
    collBody d a c .s s = .wait s := by
  rw [collBody]
  dsimp only
  rw [if_neg (collBody_of_good good)]
  exact if_pos (by simpa using w)

section
variable {s1 s2 : State} (desc : collRead c 64 1 s (s.rd c .s a) = (s1, .ok b))
  (peers : collRead c 4 ((wordAt b 0).extractLsb' 16 7).toNat s1 (wordAt b 0x28 &&& ~~~7#64) = (s2, .ok pl))
include desc peers

/-- The reads of coll look, and so does the end of its walks. -/
theorem collRead_looks : CollLooked s (s2.leaveWalks (· == ⟨c, unitHead .s⟩)) := by
  have l1 := CollLooked.collRead c 64 1 s (s.rd c .s a)
  have l2 := CollLooked.collRead c 4 ((wordAt b 0).extractLsb' 16 7).toNat s1 (wordAt b 0x28 &&& ~~~7#64)
  rw [desc] at l1
  rw [peers] at l2
  exact (l1.trans l2).trans (.leaveWalks s2 _)

variable (good : GoodGlobal (s.rd c .s a) 64)
  (room : ((s.colls.filter (fun z => z.task == (s.ctx c).task)).filter (·.unfinished)).length < 4) (rel : s.sysReleased c .s = true)
include good room rel

/-- coll with what it has read failing a check. -/
theorem collBody_refuses (bad : ¬ CollGood s c b pl) :
    collBody d a c .s s = .fault (s2.leaveWalks (· == ⟨c, unitHead .s⟩)) 0x38 (collVal 2 0 (BitVec.ofNat 32 (fieldAt b 8 4))) := by
  have test := (collTest_iff (collRead_looks desc peers)).2 bad
  rw [collBody]
  dsimp only
  rw [if_neg (collBody_of_good good), if_neg (by simpa [rel] using room), desc]
  dsimp only
  rw [peers]
  exact if_pos test

/-- coll registers its collective under a free handle. -/
theorem collBody_registers (ok : CollGood s c b pl) {h : Nat} (free : freeHandle (s.colls.filter (fun z => z.task == (s.ctx c).task)) = some h) :
    collBody d a c .s s =
      .go ((launchColl (s2.leaveWalks (· == ⟨c, unitHead .s⟩)) (collOf s c b pl h)).put c .s d (BitVec.ofNat 64 h)) .fall := by
  have l := collRead_looks desc peers
  have test := mt (collTest_iff l).1 (not_not.2 ok)
  rw [collOf, ← l.2]
  rw [collBody]
  dsimp only
  rw [if_neg (collBody_of_good good), if_neg (by simpa [rel] using room), desc]
  dsimp only
  rw [peers]
  refine (if_neg test).trans ?_
  rw [free]
  have pkg : (s2.leaveWalks (· == ⟨c, unitHead .s⟩)).pkg = s.pkg := by rw [l.1.rest]
  have clk : (s2.leaveWalks (· == ⟨c, unitHead .s⟩)).dieclk = s.dieclk := by rw [l.1.rest]
  rw [← pkg, ← clk]

end

end

end Sys2Proof.Machine
end

section

open Sys2Proof Sys2Proof.Machine

/-- R419 to R422: the word coll. -/
theorem Sys2Proof.Machine.coll_registers {s : State} {c : Nat} {y : Bool} {d a : Reg} {b pl : List Byte} {s1 s2 : State} {h : Nat}
    (r : Ready s c .s (.coll y d a) ⟨y, 0⟩ [.s] [a] [d]) (active : s.feat (s.ctx c).vf 9 = true)
    (desc : collRead c 64 1 s (s.rd c .s a) = (s1, .ok b))
    (peers : collRead c 4 ((wordAt b 0).extractLsb' 16 7).toNat s1 (wordAt b 0x28 &&& ~~~7#64) = (s2, .ok pl))
    (good : GoodGlobal (s.rd c .s a) 64)
    (room : ((s.colls.filter (fun z => z.task == (s.ctx c).task)).filter (·.unfinished)).length < 4) (rel : s.sysReleased c .s = true)
    (ok : CollGood s c b pl) (free : freeHandle (s.colls.filter (fun z => z.task == (s.ctx c).task)) = some h) :
    ∃ t, exec (.coll y d a) s = .next (endTurn t c) ∧ Issued s t c .s (.coll y d a) ⟨y, 0⟩ (s.core c).took ∧
      FallsThrough (s.str c .s) t c .s (.coll y d a) ∧ Holds t c .s d (BitVec.ofNat 64 h) ∧ KeepsRegs s t c .s [d] ∧
      ∃ z ∈ t.colls, z.terms = (collOf s c b pl h).terms := by
  have look := (collRead_looks desc peers).1
  generalize hw : s2.leaveWalks (· == ⟨c, unitHead .s⟩) = w at look
  have body := collBody_registers (d := d) desc peers good room rel ok free
  rw [hw] at body
  obtain ⟨cores, z, member, terms⟩ := launchColl_spec w (collOf s c b pl h)
  generalize launchColl w (collOf s c b pl h) = u at body cores member
  have core : u.core c = s.core c := by rw [State.core, cores, look.cores]; rfl
  have strand : u.str c .s = s.str c .s := by rw [State.str, core]; rfl
  have place : SamePlace s (u.put c .s d (BitVec.ofNat 64 h)) c .s := by
    have hic : ∀ t : Strand, (t.put d (BitVec.ofNat 64 h)).ic = t.ic := fun t => by obtain ⟨g, fr, e⟩ := t.put_keeps d (BitVec.ofNat 64 h); rw [e]
    exact ⟨by rw [State.put, State.str_mapStr_self, hic, strand], by rw [State.put, State.core_mapStr_self, Core.mapStr_nord, core]⟩
  obtain ⟨t, next, fell, -, -⟩ := r.falls (fits_coll (fun _ _ => Instr.noConfusion) active) body rfl place
  obtain ⟨holds, keeps⟩ := fell.rd_put strand
  refine ⟨t, next, ?_, fell.fallsThrough_put strand, holds, keeps, z, fell.pkg.colls ▸ member, terms⟩
  have issued := fell.issued
  rw [State.put, State.core_mapStr_self, Core.mapStr_took, core] at issued
  exact issued

/-- R423, R427, R161: the word collwait. -/
theorem Sys2Proof.Machine.collwait_follows {s : State} {c : Nat} {y : Bool} {a : Reg}
    (r : Ready s c .s (.collwait y a) ⟨y, 0⟩ [.s] [a] []) (active : s.feat (s.ctx c).vf 9 = true) :
    let i : Instr := .collwait y a
    let h := (s.rd c .s a).toNat % 4
    let named (z : Coll) : Bool := z.task == (s.ctx c).task && z.h == h
    (s.colls.find? named = none → LeavesCore i ⟨y, 0⟩ s c .s (s.core c) (s.ctx c)) ∧
    ∀ z, s.colls.find? named = some z →
      (z.st = .meeting ∨ z.st = .moving ∨ z.cev = true → Waits i s c) ∧
      (z.st = .ended 0 → z.cev = false → ∃ t, Passes i ⟨y, 0⟩ s t c .s [] ∧ t.colls = s.colls.filter (fun w => !named w) ∧ t.mem = s.mem) ∧
      ∀ r, r ≠ 0 → z.st = .ended r → z.cev = false → ∃ t, exec i s = .next (endTurn t c) ∧ t.colls = s.colls.filter (fun w => !named w) ∧
        (t.core c).stops = (s.core c).stops ++ [⟨2, .s, 0x38, 0, BitVec.ofNat 64 (r + 2 ^ 8 * h + 2 ^ 32 * z.me.seq.toNat)⟩] := by
  intro i h named
  have hf : Fits (collInfo y a) s c .s i ⟨y, 0⟩ [.s] [a] [] := fits_coll (fun _ _ => Instr.noConfusion) active
  refine ⟨fun none => ?unknown, fun z found => ⟨fun w => ?waits, fun done noev => ?frees, fun q hq failed noev => ?raises⟩⟩
  case unknown =>
    have body : collwaitBody a c .s s = .go s .fall := by rw [collwaitBody, none]
    exact r.leavesCore hf body rfl (fun _ => rfl) rfl rfl (.refl _) (.refl _) (fun _ _ => rfl) (fun _ => rfl) (.refl s)
  case waits =>
    have body : collwaitBody a c .s s = .wait s := by
      rw [collwaitBody, found]
      dsimp only
      split
      · rfl
      · rename_i noev
        rcases w with st | st | ev
        · rw [st]
        · rw [st]
        · exact absurd ev noev
    exact (r.meets hf).trans (by rw [body])
  case frees =>
    have body : collwaitBody a c .s s = .go { s with colls := s.colls.filter (fun w => !named w) } .fall := by
      rw [collwaitBody, found]
      dsimp only
      rw [noev, done]
      rfl
    obtain ⟨t, next, fell, mem, -⟩ := r.falls hf body rfl ⟨rfl, rfl⟩
    exact ⟨t, ⟨next, fell.issued, fell.falls, fun r _ => fell.rd r, fell.strands, fell.cores⟩, fell.pkg.colls, mem⟩
  case raises =>
    have val : collVal q h z.me.seq = BitVec.ofNat 64 (q + 2 ^ 8 * h + 2 ^ 32 * z.me.seq.toNat) := by rw [collVal, Nat.mul_comm h, Nat.mul_comm z.me.seq.toNat]
    have body : collwaitBody a c .s s = .fault { s with colls := s.colls.filter (fun w => !named w) } 0x38 (collVal q h z.me.seq) := by
      rw [collwaitBody, found]
      dsimp only
      rw [noev, failed]
      cases q with
      | zero => exact absurd rfl hq
      | succ q => rfl
    refine ⟨_, r.fails hf body, rfl, ?_⟩
    rw [raiseWord, State.core_mapCore_self, val]
    rfl

/-- Settles O25: coll with its descriptor read is refused or registers its collective, and collwait follows the collective of its handle. -/
theorem collectiveWordsFollowR422AndR423 : Obligations.CollectiveWordsFollowR422AndR423 := by
  intro s c y active
  refine ⟨fun d a r => ?coll, fun a r => collwait_follows r active⟩
  intro i x mine
  have hf : Fits { collInfo y a with dst := [d] } s c .s i ⟨y, 0⟩ [.s] [a] [d] := fits_coll (fun _ _ => Instr.noConfusion) active
  refine ⟨fun bad => r.raises hf (collBody_of_bad bad) rfl, fun good w => (r.meets hf).trans (by rw [collBody_waits good w]), ?_⟩
  intro good room rel s1 b desc t0 sq nr s2 pl peers key ok
  have term : t0 = wordAt b 0 := (wordAt_eq b 0).symm
  have order : sq = BitVec.ofNat 32 (fieldAt b 8 4) := by rw [fieldAt, ← numberOf_eq_leNat]
  have list : BitVec.ofNat 64 (NumberOf ((b.drop 0x28).take 8) / 8 * 8) = wordAt b 0x28 &&& ~~~7#64 := by rw [wordAt_eq, clearLow_ofNat]
  have due : NumberOf ((b.drop 0x30).take 8) = fieldAt b 0x30 8 := by rw [fieldAt, numberOf_eq_leNat]
  have same : ok ↔ CollGood s c b pl := by
    show (_ ∧ _ ∧ _ ∧ _ ∧ _) ↔ _
    rw [CollGood, ← term, ← order]
  rw [list] at peers
  change collRead c 4 (t0.extractLsb' 16 7).toNat s1 _ = _ at peers
  rw [term] at peers
  refine ⟨fun bad => ?refuses, fun isGood h free => ?registers⟩
  case refuses =>
    have body := collBody_refuses (d := d) desc peers good room rel (mt same.2 bad)
    have val : collVal 2 0 (BitVec.ofNat 32 (fieldAt b 8 4)) = BitVec.ofNat 64 (2 + 2 ^ 32 * sq.toNat) := by
      rw [← order, collVal, Nat.zero_mul, Nat.add_zero, Nat.mul_comm sq.toNat]
    exact val ▸ r.raisesAfter hf rfl body (collRead_looks desc peers).1
  case registers =>
    obtain ⟨t, next, issued, falls, holds, keeps, z, member, terms⟩ := coll_registers r active desc peers good room rel (same.1 isGood) free
    refine ⟨t, next, issued, falls, holds, keeps, z, member, ?_⟩
    rw [order, due, ← wordAt_eq, ← wordAt_eq]
    injection terms with die task vf h me src dst peers ev due
    exact ⟨task, h, die, congrArg ReadyMsg.clkey me, congrArg ReadyMsg.seq me, src, dst, due⟩

end

section
/-!
SUPPORT. The reduction of integer elements over ranks (spec/21 R425): the values of elements, and pairwise selection.
-/

namespace Sys2Proof.Machine

/-! ### Integer elements -/

theorem wrapN_natCast (x w : Nat) : wrapN x w = x % 2 ^ w := by rw [wrapN, ← Int.natCast_emod]; rfl

/-- A power of two as an integer is that natural number. -/
theorem int_two_pow (n : Nat) : (2 : Int) ^ n = (2 ^ n : Nat) := (Nat.cast_pow 2 n).symm

/-- An element is its value modulo the type's width. -/
theorem wrapN_intOf {et x : Nat} (hx : x < 2 ^ (8 * etSize et)) : wrapN (IntOf et x) (8 * etSize et) = x := by
  rw [IntOf]
  split
  · rw [BitVec.toInt_eq_toNat_bmod, wrapN, BitVec.toNat_ofNat, Nat.mod_eq_of_lt hx, Int.bmod_emod, ← Int.natCast_emod, Nat.mod_eq_of_lt hx]
    rfl
  · rw [BitVec.toNat_ofNat, Nat.mod_eq_of_lt hx, wrapN_natCast, Nat.mod_eq_of_lt hx]

section
variable {et : Nat} (small : et < 7)
include small

theorem etSize_pos_of_int : 0 < 8 * etSize et := by
  interval_cases et <;> decide

/-- The exact value of an element of the type's width. -/
theorem etInt'_eq_intOf {x : Nat} (hx : x < 2 ^ (8 * etSize et)) : etInt' et x = IntOf et x := by
  have pos := etSize_pos_of_int small
  have half : 2 ^ (8 * etSize et) = 2 * 2 ^ (8 * etSize et - 1) := by rw [← pow_succ', Nat.sub_add_cancel pos]
  rw [etInt', IntOf, decide_eq_true (Nat.le_of_lt_succ small), Bool.true_and]
  generalize 8 * etSize et = w at hx half
  by_cases even : et % 2 = 0
  · rw [if_pos (decide_eq_true even), if_pos even, swrap, wrapN_natCast, BitVec.toInt_eq_toNat_cond, BitVec.toNat_ofNat, Nat.mod_eq_of_lt hx,
      int_two_pow]
    split <;> split <;> omega
  · rw [if_neg (by simpa using even), if_neg even, BitVec.toNat_ofNat, Nat.mod_eq_of_lt hx]

/-- The larger or the smaller of two integer elements. -/
theorem minMaxE_int (isMax ftz : Bool) {a b : Nat} (ha : a < 2 ^ (8 * etSize et)) (hb : b < 2 ^ (8 * etSize et)) :
    (minMaxE et isMax ftz a b).1 = if (IntOf et a ≤ IntOf et b ↔ isMax = true) then b else a := by
  rw [minMaxE, if_pos (Nat.le_of_lt_succ small), etInt'_eq_intOf small ha, etInt'_eq_intOf small hb]
  dsimp only
  by_cases le : IntOf et a ≤ IntOf et b <;> cases isMax
  · simp [le, wrapN_intOf ha]
  · simp [le, wrapN_intOf hb]
  · simp [le, le_of_not_ge le, wrapN_intOf hb]
  · simp [le, le_of_not_ge le, wrapN_intOf ha]

/-- A sum saturated to an integer type. -/
theorem satE_eq_satTo (x : Int) : satE et x = SatTo et x := by
  have pos := etSize_pos_of_int small
  have one : 1 ≤ 2 ^ (8 * etSize et - 1) := Nat.one_le_two_pow
  have one' : 1 ≤ 2 ^ (8 * etSize et) := Nat.one_le_two_pow
  rw [satE, SatTo, wrapN, BitVec.toNat_ofInt]
  congr 2
  rw [satW]
  by_cases even : et % 2 = 0
  · rw [if_pos (by simpa using even), if_pos even, if_pos even, satS]
    rw [int_two_pow]
    split <;> [skip; split] <;> omega
  · rw [if_neg (by simpa using even), if_neg even, if_neg even, satN]
    rw [int_two_pow]
    split <;> [skip; split] <;> omega

end

/-! ### Pairwise selection -/

theorem halfPow_bounds {n : Nat} (h : 1 < n) : 0 < halfPow n ∧ halfPow n < n :=
  ⟨Nat.two_pow_pos _, (Nat.log2_self_le (by omega)).trans_lt (by omega)⟩

/-- PairSum with an operation that selects one of its two operands, no worse than either, selects one that none of the list is better than. -/
theorem pairSum_selects {add : Nat → Nat → Unit → Nat × Unit} {p : Nat → Prop} {le : Nat → Nat → Prop} (refl : ∀ a, le a a)
    (trans : ∀ a b c, le a b → le b c → le a c)
    (selects : ∀ a b, p a → p b → ((add a b ()).1 = a ∨ (add a b ()).1 = b) ∧ le a (add a b ()).1 ∧ le b (add a b ()).1) :
    ∀ (f : Nat) (xs : List Nat), xs ≠ [] → xs.length ≤ f → (∀ x ∈ xs, p x) →
      (pairSum add 0 f xs ()).1 ∈ xs ∧ ∀ y ∈ xs, le y (pairSum add 0 f xs ()).1 := by
  intro f
  induction f with
  | zero => exact fun xs ne len => absurd (List.length_eq_zero_iff.1 (Nat.le_zero.1 len)) ne
  | succ f ih =>
    intro xs ne len all
    rw [pairSum]
    split
    case isTrue single =>
      obtain ⟨x, rfl⟩ := List.length_eq_one_iff.1 (Nat.le_antisymm single (List.length_pos_iff.2 ne))
      exact ⟨List.mem_singleton.2 rfl, fun y hy => by rw [List.mem_singleton.1 hy]; exact refl x⟩
    case isFalse several =>
      obtain ⟨hpos, hlt⟩ := halfPow_bounds (Nat.lt_of_not_le several)
      have left := ih (xs.take (halfPow xs.length)) (by rw [← List.length_pos_iff, List.length_take]; omega)
        (by rw [List.length_take]; omega) fun x hx => all x (List.mem_of_mem_take hx)
      have right := ih (xs.drop (halfPow xs.length)) (by rw [← List.length_pos_iff, List.length_drop]; omega)
        (by rw [List.length_drop]; omega) fun x hx => all x (List.mem_of_mem_drop hx)
      dsimp only
      generalize (pairSum add 0 f (xs.take (halfPow xs.length)) ()).1 = l at left ⊢
      generalize (pairSum add 0 f (xs.drop (halfPow xs.length)) ()).1 = r at right ⊢
      have hl := List.mem_of_mem_take left.1
      have hr := List.mem_of_mem_drop right.1
      obtain ⟨one, lel, ler⟩ := selects l r (all l hl) (all r hr)
      have chosen : (add l r ()).1 ∈ xs := by
        rcases one with e | e <;> rw [e]
        · exact hl
        · exact hr
      refine ⟨chosen, fun y hy => ?_⟩
      · rw [← List.take_append_drop (halfPow xs.length) xs, List.mem_append] at hy
        rcases hy with hy | hy
        · exact trans _ _ _ (left.2 y hy) lel
        · exact trans _ _ _ (right.2 y hy) ler

/-- The largest and the smallest of a list of integer elements. -/
theorem maxE_selects {et : Nat} (small : et < 7) (isMax : Bool) {xs : List Nat} (ne : xs ≠ []) (fit : ∀ x ∈ xs, x < 2 ^ (8 * etSize et)) :
    maxE et isMax xs ∈ xs ∧ ∀ y ∈ xs, if isMax then IntOf et y ≤ IntOf et (maxE et isMax xs) else IntOf et (maxE et isMax xs) ≤ IntOf et y := by
  refine pairSum_selects (p := (· < 2 ^ (8 * etSize et)))
    (le := fun a b => if isMax then IntOf et a ≤ IntOf et b else IntOf et b ≤ IntOf et a) ?_ ?_ ?_ _ xs ne (Nat.le_refl _) fit
  · intro a
    cases isMax <;> exact le_refl _
  · intro a b c ab bc
    cases isMax
    · exact le_trans bc ab
    · exact le_trans ab bc
  · intro a b ha hb
    dsimp only
    rw [minMaxE_int small isMax false ha hb]
    by_cases le : IntOf et a ≤ IntOf et b <;> cases isMax
    · simp [le]
    · simp [le]
    · simp [le, le_of_not_ge le]
    · simp [le, le_of_not_ge le]

/-- An element of a rank's data is a number of the type's bytes. -/
theorem Coll.elem_lt (x : Coll) (r i : Nat) : x.elem r i < 2 ^ (8 * etSize x.me.et.toNat) := by
  have long := leNat_lt (((Tab.get [] x.data r).drop (i * x.z)).take x.z)
  rw [Coll.elem, Nat.pow_mul]
  exact long.trans_le (Nat.pow_le_pow_right (by decide) (List.length_take_le _ _))

/-- R425. -/
theorem integersReduceOverRanks : IntegersReduceOverRanks := by
  intro x j xs et small ne
  have fit : ∀ a ∈ xs, a < 2 ^ (8 * etSize et) := fun a ha => by
    obtain ⟨r, -, rfl⟩ := List.mem_map.1 ha
    exact x.elem_lt r j
  refine ⟨fun h => ?sum, fun h => ?max, fun h => ?min⟩
  case sum =>
    have values : xs.map (etInt' et) = xs.map (IntOf et) := List.map_congr_left fun a ha => etInt'_eq_intOf small (fit a ha)
    have sums : x.reduce j = sumE et x.me.wide xs := by rw [Coll.reduce, Coll.op]; rcases h with h | h <;> rw [h] <;> rfl
    rw [sums, sumE, if_pos (Nat.le_of_lt_succ small), values, satE_eq_satTo small]
  case max =>
    have largest : x.reduce j = maxE et true xs := by rw [Coll.reduce, Coll.op, h]; rfl
    rw [largest]
    exact maxE_selects small true ne fit
  case min =>
    have smallest : x.reduce j = maxE et false xs := by rw [Coll.reduce, Coll.op, h]; rfl
    rw [smallest]
    exact maxE_selects small false ne fit

end Sys2Proof.Machine
end

section
/-!
SUPPORT. What the collective engine of a die does to the collective of an event (spec/21 R423, R424), one equation for each step.
-/

namespace Sys2Proof.Machine

/-! ### The collective of an event -/

theorem setAt_append_cons {α : Type} (x v : α) (r : List α) : ∀ l : List α, setAt (l ++ x :: r) l.length v = l ++ v :: r
  | [] => rfl
  | a :: l => congrArg (a :: ·) (setAt_append_cons x v r l)

/-- A collective runs until it has ended. -/
theorem Coll.live_iff (x : Coll) : x.live = true ↔ ∀ n, x.st ≠ .ended n := by
  rw [Coll.live]
  cases x.st with
  | ended n => exact iff_of_false Bool.false_ne_true fun h => h n rfl
  | meeting => exact iff_of_true rfl fun _ => CollSt.noConfusion
  | moving => exact iff_of_true rfl fun _ => CollSt.noConfusion

/-- The outstanding collectives of a die with a CLKEY and SEQ, as the engine tells them. -/
def Coll.named (d : Nat) (key : Word) (sq : BitVec 32) (x : Coll) : Bool := x.die == d && x.live && x.me.clkey == key && x.me.seq == sq

theorem Coll.named_iff {d : Nat} {key : Word} {sq : BitVec 32} (x : Coll) :
    x.named d key sq = true ↔ x.die = d ∧ (∀ n, x.st ≠ .ended n) ∧ x.me.clkey = key ∧ x.me.seq = sq := by
  simp only [Coll.named, Bool.and_eq_true, beq_iff_eq, x.live_iff, and_assoc]

/-- The first of a list that a test finds, with its number. -/
theorem find?_numbered (p : Coll → Bool) (x : Coll) (r : List Coll) (hx : p x = true) : ∀ (l : List Coll) (k : Nat), (∀ y ∈ l, p y = false) →
    ((List.range' k (l ++ x :: r).length).zip (l ++ x :: r)).find? (fun e => p e.2) = some (k + l.length, x)
  | [], k, _ => by
    rw [List.nil_append, List.length_cons, List.range'_succ, List.zip_cons_cons, List.find?_cons_of_pos (p := fun e : Nat × Coll => p e.2) hx]
    rfl
  | y :: l, k, h => by
    have skip : ¬ p y = true := Bool.eq_false_iff.1 (h y List.mem_cons_self)
    rw [List.cons_append, List.length_cons, List.range'_succ, List.zip_cons_cons, List.find?_cons_of_neg (p := fun e : Nat × Coll => p e.2) skip,
      find?_numbered p x r hx l (k + 1) fun z hz => h z (List.mem_cons_of_mem _ hz), List.length_cons, Nat.add_right_comm]
    rfl

section
variable {s : State} {d : Nat} {key : Word} {sq : BitVec 32} {l r : List Coll} {x : Coll}

theorem findColl_of_isColl (h : IsColl s d key sq l x r) : s.findColl d key sq = some (l.length, x) := by
  obtain ⟨colls, before, mine⟩ := h
  have found := find?_numbered (Coll.named d key sq) x r ((x.named_iff).2 mine) l 0 fun y hy =>
    Bool.eq_false_iff.2 fun e => before y hy ((y.named_iff).1 e)
  rw [Nat.zero_add] at found
  rw [State.findColl, colls, List.range_eq_range']
  exact found

theorem findColl_of_noColl (h : NoColl s d key sq) : s.findColl d key sq = none := by
  refine List.find?_eq_none.2 fun e he named => ?_
  obtain ⟨die, live, mine⟩ := (e.2.named_iff).1 named
  exact h e.2 (List.of_mem_zip he).2 die live mine

variable (hs : s.colls = l ++ x :: r)
include hs

theorem coll_at : s.colls[l.length]? = some x := by rw [hs, List.getElem?_append_right (Nat.le_refl _), Nat.sub_self]; rfl

theorem putColl_at (y : Coll) : s.putColl l.length y = { s with colls := l ++ y :: r } := by rw [State.putColl, hs, setAt_append_cons]

/-! ### Ends -/

theorem endColl_eq (live : ∀ n, x.st ≠ .ended n) (reason : Nat) : endColl s l.length reason = CollEnd s l x r reason := by
  rw [endColl, coll_at hs]
  dsimp only
  rw [(x.live_iff).2 live, putColl_at hs]
  rfl

omit hs in
/-- A message of ABORT goes where a peer is reached. -/
theorem sendPeer_abort (s : State) (x : Coll) (p : BitVec 16 × BitVec 3) :
    sendPeer s x p .mgt (.abort x.me.clkey x.me.seq) (.abort p.1 p.2 x.me.clkey x.me.seq) =
      { s with wire := s.wire ++ (AbortFlit s x p).toList } := by
  rw [sendPeer, AbortFlit, State.dieToward]
  by_cases near : p.1 = s.pkg.zpkg
  · rw [if_pos near, if_pos near, if_pos near]
    rfl
  · rw [if_neg near, if_neg near, if_neg near]
    cases s.portTo p.1 with
    | none => show s = { s with wire := s.wire ++ [] }; rw [List.append_nil]
    | some q => rfl

omit hs in
theorem sendAborts_to (x : Coll) : ∀ (ps : List (BitVec 16 × BitVec 3)) (s : State),
    ps.foldl (fun s p => sendPeer s x p .mgt (.abort x.me.clkey x.me.seq) (.abort p.1 p.2 x.me.clkey x.me.seq)) s =
      { s with wire := s.wire ++ ps.filterMap (AbortFlit s x) }
  | [], s => by rw [List.foldl_nil, List.filterMap_nil, List.append_nil]
  | p :: ps, s => by
    have same : AbortFlit { s with wire := s.wire ++ (AbortFlit s x p).toList } x = AbortFlit s x := rfl
    rw [List.foldl_cons, sendPeer_abort, sendAborts_to x ps, same, List.filterMap_cons]
    cases AbortFlit s x p with
    | none => show { s with wire := s.wire ++ [] ++ _ } = _; rw [List.append_nil]
    | some f => show { s with wire := s.wire ++ [f] ++ _ } = _; rw [List.append_assoc]; rfl

theorem failColl_eq (live : ∀ n, x.st ≠ .ended n) (reason : Nat) :
    failColl s l.length reason = { CollEnd s l x r reason with wire := s.wire ++ Aborts s x } := by
  rw [failColl, coll_at hs]
  dsimp only
  rw [(x.live_iff).2 live, endColl_eq hs live]
  exact sendAborts_to x x.others (CollEnd s l x r reason)

/-! ### The rendezvous -/

omit hs in
theorem Coll.matches_iff (m : ReadyMsg) : x.matches m = true ↔ m.op = x.me.op ∧ m.et = x.me.et ∧ m.wide = x.me.wide ∧ m.count = x.me.count ∧
    m.nrank = x.me.nrank ∧ m.root = x.me.root ∧ x.peers[m.rank.toNat]? = some (m.pkg, m.die) ∧ m.rank ≠ x.me.rank := by
  simp only [Coll.matches, Bool.and_eq_true, beq_iff_eq, bne_iff_ne, and_assoc]

/-- A party that has met, or has not heard of every rank, does not start. -/
theorem startColl_idles (h : x.st ≠ .meeting ∨ ∃ k < x.me.nrank.toNat, k ≠ x.me.rank.toNat ∧ k ∉ x.seen) : startColl s l.length = s := by
  rw [startColl, coll_at hs]
  refine if_pos ?_
  rw [Bool.or_eq_true, Bool.not_eq_true', Bool.not_eq_true']
  refine h.imp (fun met => ?_) fun ⟨k, hk, own, unseen⟩ => ?_
  · cases hst : x.st with
    | meeting => exact absurd hst met
    | moving => rfl
    | ended n => rfl
  · refine List.all_eq_false.2 ⟨k, List.mem_range.2 hk, ?_⟩
    rw [Bool.or_eq_true, beq_iff_eq, List.contains_iff_mem, not_or]
    exact ⟨own, unseen⟩

theorem meetReady_differs (live : ∀ n, x.st ≠ .ended n) (m : ReadyMsg) (bad : ¬ x.matches m = true) :
    meetReady s l.length m = { CollEnd s l x r 4 with wire := s.wire ++ Aborts s x } := by
  rw [meetReady, coll_at hs]
  dsimp only
  rw [(x.live_iff).2 live, if_neg bad]
  exact failColl_eq hs live 4

theorem meetReady_counts (live : ∀ n, x.st ≠ .ended n) (m : ReadyMsg) (fits : x.matches m = true) {seen : List Nat}
    (hseen : seen = if m.rank.toNat ∈ x.seen then x.seen else m.rank.toNat :: x.seen)
    (waits : ∃ k < x.me.nrank.toNat, k ≠ x.me.rank.toNat ∧ k ∉ seen) :
    meetReady s l.length m = { s with colls := l ++ { x with seen := seen } :: r } := by
  have counted : (if x.seen.contains m.rank.toNat then x.seen else m.rank.toNat :: x.seen) = seen := by
    rw [hseen]
    exact if_congr List.contains_iff_mem rfl rfl
  rw [meetReady, coll_at hs]
  dsimp only
  rw [(x.live_iff).2 live, if_pos fits, counted, putColl_at hs]
  exact startColl_idles (s := { s with colls := l ++ { x with seen := seen } :: r }) (x := { x with seen := seen }) rfl (.inr waits)

/-! ### The data and the completion -/

omit hs in
theorem Coll.complete_iff : x.complete = true ↔ ∀ k < x.me.nrank.toNat, x.srcCount k * x.z ≤ (Tab.get [] x.data k).length := by
  simp only [Coll.complete, List.all_eq_true, List.mem_range, decide_eq_true_eq, Coll.nrank]

/-- A party that has not met, or lacks data, writes nothing. -/
theorem writeColl_idles (h : x.st ≠ .moving ∨ ¬ x.complete = true) : writeColl s l.length = (s, false) := by
  rw [writeColl, coll_at hs]
  refine if_pos ?_
  rw [Bool.or_eq_true, Bool.not_eq_true', Bool.not_eq_true']
  refine h.imp (fun unmoved => ?_) Bool.eq_false_iff.2
  cases hst : x.st with
  | moving => exact absurd hst unmoved
  | meeting => rfl
  | ended n => rfl

/-- A party with all its data that has written all of DST. -/
theorem writeColl_written (moving : x.st = .moving) (all : x.complete = true) (written : x.outCount ≤ x.wrote) :
    writeColl s l.length = (s, true) := by
  have done : writeDst l.length (x.outCount + 1) s = (s, some true) := by
    rw [writeDst, coll_at hs]
    exact if_pos written
  rw [writeColl, coll_at hs]
  dsimp only
  rw [moving, all, done]
  rfl

/-- The data of a rank reaches its party. -/
theorem giveData_eq (h : IsColl s d key sq l x r) (rank : Nat) (bs : List Byte) : giveData s d key sq rank bs =
    { s with colls := l ++ { x with data := Tab.set [] x.data rank (Tab.get [] x.data rank ++ bs) } :: r } := by
  rw [giveData, findColl_of_isColl h]
  exact putColl_at hs _

omit hs in
/-- The room of the core that runs a collective's task. -/
theorem room_iff : (!match coreOfTask s.cores x.task with | some c => (s.core c).evRoom | none => true) = true ↔ ¬ RoomFor s x := by
  rw [RoomFor]
  cases coreOfTask s.cores x.task with
  | none => simp
  | some c => simp

omit hs in
theorem Coll.record_eq (x : Coll) (n : Nat) :
    x.record n = BitVec.ofNat 64 (4 * 2 ^ 56 + (x.me.seq.toNat + x.h * 2 ^ 32 + n * 2 ^ 36) % 2 ^ 48) := by
  rw [Coll.record, evRec, ixOf, Nat.zero_mul, Nat.add_zero]

/-- The engine's turn posts the record that an ended collective holds. -/
theorem postColl_leaves {n : Nat} (ended : x.st = .ended n) (room : x.cev = true → RoomFor s x) : RecordLeaves s (postColl s l.length) l x r n := by
  rw [postColl, coll_at hs]
  dsimp only
  rw [ended]
  dsimp only
  refine ⟨fun posted => ?_, fun nowhere => ?_, fun c held runs => ?_⟩
  · rw [posted]; rfl
  · rw [nowhere]; exact ite_self _
  · rw [held, runs]
    dsimp only
    rw [room held c runs, putColl_at hs, x.record_eq, ← ended]
    rfl

theorem postColl_waits {n : Nat} (ended : x.st = .ended n) (full : ¬ RoomFor s x) : postColl s l.length = s := by
  simp only [RoomFor, not_forall] at full
  obtain ⟨c, runs, none⟩ := full
  rw [postColl, coll_at hs]
  dsimp only
  rw [ended]
  dsimp only
  rw [runs]
  dsimp only
  rw [if_neg none, ite_self]

end

end Sys2Proof.Machine
end

section
namespace Sys2Proof.Machine

/-! ### What comes in at a port -/

/-- The fields of FWLAST for a refusal that carries no address. -/
theorem fwlast_fields (v : BitVec 9) (h : BitVec 3) (w : BitVec 52) :
    (v ++ h ++ w).extractLsb' 55 9 = v ∧ (v ++ h ++ w).extractLsb' 52 3 = h := by
  have high : (v ++ h ++ w).extractLsb' 52 12 = v ++ h := BitVec.extractLsb'_append_eq_left
  constructor
  · have nested : (v ++ h ++ w).extractLsb' 55 9 = ((v ++ h ++ w).extractLsb' 52 12).extractLsb' 3 9 := by
      refine BitVec.eq_of_getLsbD_eq fun b hb => ?_
      rw [BitVec.getLsbD_extractLsb', BitVec.getLsbD_extractLsb', BitVec.getLsbD_extractLsb', ← Nat.add_assoc, decide_eq_true (by omega : 3 + b < 12),
        Bool.true_and]
    rw [nested, high, BitVec.extractLsb'_append_eq_left]
  · have nested : (v ++ h ++ w).extractLsb' 52 3 = ((v ++ h ++ w).extractLsb' 52 12).extractLsb' 0 3 := by
      refine BitVec.eq_of_getLsbD_eq fun b hb => ?_
      rw [BitVec.getLsbD_extractLsb', BitVec.getLsbD_extractLsb', BitVec.getLsbD_extractLsb', Nat.zero_add, decide_eq_true (by omega : b < 12),
        Bool.true_and]
    rw [nested, high, BitVec.extractLsb'_append_eq_right]

/-- A counter that stops at its largest value. -/
theorem min_eq_sat32 (n : Nat) : min n (2 ^ 32 - 1) = Sat32 n := by
  rw [Sat32]
  split <;> omega

section
variable {s : State} {rest : List Turn} {c port d : Nat} {k : StrandIx} {i : Instr}

/-- An event that changes its die alone. -/
theorem dieStep_of_mapDie {f : Die → Die} (he : exec i s = .next ((Passed s rest).mapDie d f)) : DieStep i s rest d (f (s.die d)) :=
  ⟨_, he, (Passed s rest).die_mapDie_self d f, fun _ ne => (Passed s rest).die_mapDie_ne f ne⟩

/-- What a refusal at a die leaves there: it is counted, and FWLAST names the function and the home. -/
theorem denyFlit_spec (s : State) (e vf home : Nat) : let t := s.denyFlit e vf home
    (∀ j, j ≠ e → t.die j = s.die j) ∧
    t.die e = { s.die e with fwdeny := Sat32 ((s.die e).fwdeny + 1), fwlast := (t.die e).fwlast } ∧
    (t.die e).fwlast.extractLsb' 55 9 = BitVec.ofNat 9 vf ∧ (t.die e).fwlast.extractLsb' 52 3 = BitVec.ofNat 3 home := by
  intro t
  obtain ⟨function, own⟩ := fwlast_fields (BitVec.ofNat 9 vf) (BitVec.ofNat 3 home) (s.draw.1.extractLsb' 0 52)
  have die : t.die e = { s.die e with
      fwdeny := Sat32 ((s.die e).fwdeny + 1), fwlast := BitVec.ofNat 9 vf ++ BitVec.ofNat 3 home ++ s.draw.1.extractLsb' 0 52 } := by
    rw [← min_eq_sat32]
    exact s.draw.2.die_mapDie_self e _
  refine ⟨fun j hj => s.draw.2.die_mapDie_ne _ hj, ?_, ?_, ?_⟩
  · rw [die]
  · rw [die]; exact function
  · rw [die]; exact own

/-- What comes in at a port is refused, goes on over the links, or reaches the engine of its die. -/
theorem comesIn_of_arrive {key : Word} {sq : BitVec 32} {ch : Chan} {x : Cargo} {here : Prop} (h : CoreTurns s c k port i rest)
    (he : exec i s = turnEvent (fun _ _ port s => arrive port d key sq ch x s) s)
    (engine : exec i s = .next (collArrives d x (Passed s rest)) → here) : ComesIn i s rest port d key sq ch x here := by
  rw [turnEvent_of_turns _ h, arrive] at he
  have part (e : Nat) : (Passed s rest).partOf e = s.partOf e := rfl
  rw [part, part] at he
  refine ⟨fun other => ?refused, fun same elsewhere => ?passed, fun own => engine ?reached⟩
  case refused =>
    rw [if_pos (bne_iff_ne.2 other)] at he
    exact ⟨_, he, denyFlit_spec (Passed s rest) (port / 3) 0 d⟩
  case passed =>
    rw [if_neg (mt bne_iff_ne.1 (not_not.2 same)), if_neg elsewhere] at he
    exact he
  case reached =>
    rw [own, if_neg (mt bne_iff_ne.1 (not_not.2 rfl)), if_pos rfl] at he
    exact he

/-! ### READY, ABORT and data at the engine of a die -/

/-- A READY that meets no collective is held while there is room, and one that meets a collective differs from its terms or counts its rank. -/
theorem readyArrives {m : ReadyMsg} (he : exec i s = .next (readyAt (Passed s rest) d m)) :
    (NoColl s d m.clkey m.seq → (s.die d).ready.length < 256 → DieStep i s rest d { s.die d with ready := (s.die d).ready ++ [m] }) ∧
    (NoColl s d m.clkey m.seq → 256 ≤ (s.die d).ready.length → Idles i s rest) ∧
    ∀ l x r, IsColl s d m.clkey m.seq l x r →
      (¬ x.matches m = true → CollFails i s (Passed s rest) l x r 4) ∧
      ∀ seen, (seen = if m.rank.toNat ∈ x.seen then x.seen else m.rank.toNat :: x.seen) → x.matches m = true →
        (∃ k < x.me.nrank.toNat, k ≠ x.me.rank.toNat ∧ k ∉ seen) →
        exec i s = .next { Passed s rest with colls := l ++ { x with seen := seen } :: r } := by
  refine ⟨fun none room => ?held, fun none full => ?full, fun l x r is => ?meets⟩
  case held =>
    have none' : (Passed s rest).findColl d m.clkey m.seq = .none := findColl_of_noColl none
    have room' : ((Passed s rest).die d).ready.length < 256 := room
    rw [readyAt, none'] at he
    dsimp only at he
    rw [if_pos room'] at he
    exact dieStep_of_mapDie (f := fun y => { y with ready := y.ready ++ [m] }) he
  case full =>
    have none' : (Passed s rest).findColl d m.clkey m.seq = .none := findColl_of_noColl none
    have full' : ¬ ((Passed s rest).die d).ready.length < 256 := Nat.not_lt.2 full
    rw [readyAt, none'] at he
    dsimp only at he
    rw [if_neg full'] at he
    exact he
  case meets =>
    have is' : IsColl (Passed s rest) d m.clkey m.seq l x r := is
    have colls : (Passed s rest).colls = l ++ x :: r := is.1
    have live : ∀ n, x.st ≠ .ended n := is.2.2.2.1
    rw [readyAt, findColl_of_isColl is'] at he
    refine ⟨fun bad => ?_, fun seen hseen fits waits => ?_⟩
    · exact he.trans (congrArg _ (meetReady_differs colls live m bad))
    · exact he.trans (congrArg _ (meetReady_counts colls live m fits hseen waits))

/-- An ABORT ends its collective. -/
theorem abortArrives {key : Word} {sq : BitVec 32} (he : exec i s = .next (abortAt (Passed s rest) d key sq)) :
    (NoColl s d key sq → Idles i s rest) ∧ ∀ l x r, IsColl s d key sq l x r → exec i s = .next (CollEnd (Passed s rest) l x r 3) := by
  refine ⟨fun none => ?_, fun l x r is => ?_⟩
  · have none' : (Passed s rest).findColl d key sq = .none := findColl_of_noColl none
    rw [abortAt, none'] at he
    exact he
  · have is' : IsColl (Passed s rest) d key sq l x r := is
    have colls : (Passed s rest).colls = l ++ x :: r := is.1
    have live : ∀ n, x.st ≠ .ended n := is.2.2.2.1
    rw [abortAt, findColl_of_isColl is'] at he
    exact he.trans (congrArg _ (endColl_eq colls live 3))

/-- Data of a rank follows what of it has come before. -/
theorem dataArrives {key : Word} {sq : BitVec 32} {rank : Nat} {bs : List Byte} (he : exec i s = .next (dataAt (Passed s rest) d key sq rank bs)) :
    (NoColl s d key sq → Idles i s rest) ∧
    ∀ l x r, IsColl s d key sq l x r → ∃ f, let y := { x with data := f }
      (∀ k, Tab.get [] f k = if k = rank then Tab.get [] x.data k ++ bs else Tab.get [] x.data k) ∧
      ((x.st = .meeting ∨ ∃ k < x.me.nrank.toNat, (Tab.get [] f k).length < x.srcCount k * x.z) →
        exec i s = .next { Passed s rest with colls := l ++ y :: r }) := by
  refine ⟨fun none => ?_, fun l x r is => ⟨Tab.set [] x.data rank (Tab.get [] x.data rank ++ bs), fun k => ?_, fun waits => ?_⟩⟩
  · have none' : (Passed s rest).findColl d key sq = .none := findColl_of_noColl none
    rw [dataAt, none'] at he
    exact he
  · rw [Tab.get_set]
    split
    · rename_i e; rw [e]
    · rfl
  · have is' : IsColl (Passed s rest) d key sq l x r := is
    have colls : (Passed s rest).colls = l ++ x :: r := is.1
    rw [dataAt, findColl_of_isColl is'] at he
    dsimp only at he
    rw [giveData_eq colls is'] at he
    generalize hy : ({ x with data := Tab.set [] x.data rank (Tab.get [] x.data rank ++ bs) } : Coll) = y at he
    have idle : y.st ≠ .moving ∨ ¬ y.complete = true := by
      subst hy
      rcases waits with meeting | ⟨k, hk, short⟩
      · exact .inl fun moving => CollSt.noConfusion (meeting.symm.trans moving)
      · exact .inr fun all => Nat.not_le.2 short (Coll.complete_iff.1 all k hk)
    rw [writeColl_idles (s := { Passed s rest with colls := l ++ y :: r }) rfl idle] at he
    subst hy
    exact he

end

/-- R421, R423, R424: what other parties send. -/
theorem messagesReachTheirCollective : MessagesReachTheirCollective := by
  intro s rest c k port d
  refine ⟨fun m h => ?ready, fun key sq h => ?abort, fun key sq rank bs h => ?data⟩
  case ready =>
    refine comesIn_of_arrive h rfl fun he => ?_
    obtain ⟨held, full, meets⟩ := readyArrives he
    refine ⟨held, full, fun l x r is => ?_⟩
    obtain ⟨differs, counts⟩ := meets l x r is
    exact ⟨fun bad => differs (mt (Coll.matches_iff m).1 bad), fun fits => counts _ rfl ((Coll.matches_iff m).2 fits)⟩
  case abort => exact comesIn_of_arrive h rfl abortArrives
  case data => exact comesIn_of_arrive h rfl dataArrives

/-! ### Deadlines and completions -/

section
variable {s : State} {rest : List Turn} {d : Nat} {l r : List Coll} {x : Coll} (hs : s.colls = l ++ x :: r)
include hs

/-- A deadline that has passed ends its collective with reason 1. -/
theorem deadlineEnds (h : Turns s (.collectiveDeadline d l.length) rest) :
    let passed : Prop := x.die = d ∧ (∀ n, x.st ≠ .ended n) ∧ x.due ≤ s.dieclk
    (¬ passed → Idles (.collectiveDeadline d l.length) s rest) ∧ (passed → CollFails (.collectiveDeadline d l.length) s (Passed s rest) l x r 1) := by
  intro passed
  have colls : (Passed s rest).colls = l ++ x :: r := hs
  have he : exec (.collectiveDeadline d l.length) s = .next (collDeadline d l.length (Passed s rest)) := event_of_turns _ h
  have test : (decide (x.die = d) && x.live && decide ((Passed s rest).dieclk ≥ x.due)) = true ↔ passed := by
    rw [Bool.and_eq_true, Bool.and_eq_true, decide_eq_true_iff, decide_eq_true_iff, x.live_iff, and_assoc]
    exact Iff.rfl
  rw [collDeadline, coll_at colls] at he
  dsimp only at he
  refine ⟨fun no => ?_, fun yes => ?_⟩
  · rw [if_neg (mt test.1 no)] at he
    exact he
  · rw [if_pos (test.2 yes)] at he
    exact he.trans (congrArg _ (failColl_eq colls yes.2.1 1))

/-- A party that cannot write its DST to the end does not complete. -/
theorem completeColl_idles (h : (x.st = .meeting ∧ ∃ k < x.me.nrank.toNat, k ≠ x.me.rank.toNat ∧ k ∉ x.seen) ∨ (x.st = .moving ∧ ¬ x.complete = true)) :
    completeColl s l.length = s := by
  have still : startColl s l.length = s := startColl_idles hs (h.symm.imp (fun ⟨moving, _⟩ meeting => CollSt.noConfusion (meeting.symm.trans moving)) And.right)
  have writes : writeColl s l.length = (s, false) :=
    writeColl_idles hs (h.imp (fun ⟨meeting, _⟩ moving => CollSt.noConfusion (meeting.symm.trans moving)) And.right)
  rw [completeColl, still, writes]

/-- A party that has written all of its DST completes when that is performed, before its deadline, with room for its record. -/
theorem completeColl_written (moving : x.st = .moving) (all : x.complete = true) (written : x.outCount ≤ x.wrote) :
    (x.writing s = false ∧ s.dieclk < x.due ∧ (x.ev = true → RoomFor s x) → completeColl s l.length = postColl (CollEnd s l x r 0) l.length) ∧
    (¬ (x.writing s = false ∧ s.dieclk < x.due ∧ (x.ev = true → RoomFor s x)) → completeColl s l.length = s) := by
  have still : startColl s l.length = s := startColl_idles hs (.inl fun meeting => CollSt.noConfusion (meeting.symm.trans moving))
  have live : ∀ n, x.st ≠ .ended n := fun n ended => CollSt.noConfusion (moving.symm.trans ended)
  have test : (x.writing s || decide (s.dieclk ≥ x.due) ||
      x.ev && !(match coreOfTask s.cores x.task with | some c => (s.core c).evRoom | none => true)) = true ↔
      ¬ (x.writing s = false ∧ s.dieclk < x.due ∧ (x.ev = true → RoomFor s x)) := by
    rw [Bool.or_eq_true, Bool.or_eq_true, Bool.and_eq_true, room_iff, decide_eq_true_iff, not_and_or, not_and_or, Bool.not_eq_false, Nat.not_lt,
      Classical.not_imp, or_assoc]
  rw [completeColl, still, writeColl_written hs moving all written]
  dsimp only
  rw [coll_at hs]
  dsimp only
  refine ⟨fun yes => ?_, fun no => ?_⟩
  · rw [← endColl_eq hs live]
    exact if_neg (mt test.1 (not_not.2 yes))
  · exact if_pos (test.2 no)

end

/-- R424, R428. -/
theorem deadlinesAndCompletionsEnd : DeadlinesAndCompletionsEnd := by
  intro s rest d l x r hs
  refine ⟨deadlineEnds hs, fun h => ?_⟩
  have colls : (Passed s rest).colls = l ++ x :: r := hs
  intro i all room
  have he : exec i s = .next (if x.die ≠ d then Passed s rest else
      if x.live then completeColl (Passed s rest) l.length else postColl (Passed s rest) l.length) := by
    rw [show exec i s = execCollectiveComplete d l.length s from rfl, execCollectiveComplete, event_of_turns _ h, coll_at colls]
  have runs (own : x.die = d) (live : x.live = true) : exec i s = .next (completeColl (Passed s rest) l.length) := by
    rw [he, if_neg (not_not.2 own), if_pos live]
  have whole : all ↔ x.complete = true := Coll.complete_iff.symm
  refine ⟨fun other => ?other, fun own meeting waits => ?meeting, fun own moving lacks => ?lacks, fun own moving has written => ?written,
    fun n own ended => ?ended⟩
  case other => rw [Idles, he, if_pos other]
  case meeting =>
    have idle := completeColl_idles colls (.inl ⟨meeting, waits⟩)
    rw [Idles, runs own (x.live_iff.2 fun n e => CollSt.noConfusion (meeting.symm.trans e)), idle]
  case lacks =>
    have idle := completeColl_idles colls (.inr ⟨moving, mt whole.2 lacks⟩)
    rw [Idles, runs own (x.live_iff.2 fun n e => CollSt.noConfusion (moving.symm.trans e)), idle]
  case written =>
    have live := x.live_iff.2 fun n e => CollSt.noConfusion (moving.symm.trans e)
    obtain ⟨ends, waits⟩ := completeColl_written colls moving (whole.1 has) written
    refine ⟨fun performed early space => ⟨_, ?_, (runs own live).trans (congrArg _ (ends ⟨performed, early, space⟩))⟩, fun no => ?_⟩
    · exact postColl_leaves (s := CollEnd (Passed s rest) l x r 0) (x := { x with st := .ended 0, cev := x.ev }) rfl rfl space
    · rw [Idles, runs own live, waits no]
  case ended =>
    have unlive : ¬ x.live = true := fun live => x.live_iff.1 live n ended
    have posts : exec i s = .next (postColl (Passed s rest) l.length) := by rw [he, if_neg (not_not.2 own), if_neg unlive]
    refine ⟨fun space => ⟨_, postColl_leaves colls ended fun _ => space, posts⟩, fun full => ?_⟩
    rw [Idles, posts, postColl_waits colls ended full]

/-! ### Ports -/

/-- An event that changes one port. -/
theorem portStep_of_mapPort {s : State} {rest : List Turn} {i : Instr} {p : Nat} {f : ZPort → ZPort} (h : Turns s i rest)
    (he : exec i s = event (fun s => s.mapPort p f) s) : ∃ z, PkgStep i s rest { s.pkg with zport := z } ∧
      ∀ e, Tab.get {} z e = if e = p then f (Tab.get {} s.pkg.zport p) else Tab.get {} s.pkg.zport e :=
  ⟨_, he.trans (event_of_turns _ h), fun _ => Tab.get_set ..⟩

/-- R417, R418. -/
theorem zwivelPortsGoDownAndUp : ZwivelPortsGoDownAndUp := fun _ _ _ =>
  ⟨fun h => portStep_of_mapPort (f := fun z => { z with up := false }) h rfl, fun pkg far h => portStep_of_mapPort (f := fun _ => ⟨pkg, far, true⟩) h rfl⟩

end Sys2Proof.Machine
end

section

open Sys2Proof Sys2Proof.Machine

/-- Settles O50: each event is what the engine does to its collective, ports are rows of their table, and an integer reduction is a saturated
sum or a pairwise selection. -/
theorem collectiveEventsFollowR417ToR428 : Obligations.CollectiveEventsFollowR417ToR428 :=
  ⟨messagesReachTheirCollective, deadlinesAndCompletionsEnd, zwivelPortsGoDownAndUp, integersReduceOverRanks⟩

end

section
/-!
SUPPORT. The element functions on the integer types (spec/08 R174 to R178, R181): each is a function of the exact values of its elements, saturated.
-/

namespace Sys2Proof.Machine

/-! ### Shifts, R176 -/

theorem shlE_eq (w a c : Nat) : shlE w a c = if c < w then a * 2 ^ c % 2 ^ w else 0 := by
  by_cases h : c < w
  · rw [shlE, if_neg (not_le.2 h), if_pos h]
  · rw [shlE, if_pos (not_lt.1 h), if_neg h]

theorem shrE_eq (w a c : Nat) : shrE w a c = if c < w then a / 2 ^ c else 0 := by
  by_cases h : c < w
  · rw [shrE, if_neg (not_le.2 h), if_pos h]
  · rw [shrE, if_pos (not_lt.1 h), if_neg h]

/-- SWrap reads a bit vector as two's complement. -/
theorem swrap_natCast (x : Nat) {w : Nat} (pos : 0 < w) : swrap x w = (BitVec.ofNat w x).toInt := by
  have half : 2 ^ w = 2 * 2 ^ (w - 1) := by rw [← pow_succ', Nat.sub_add_cancel pos]
  rw [swrap, wrapN_natCast, BitVec.toInt_eq_toNat_cond, BitVec.toNat_ofNat, int_two_pow]
  split <;> split <;> omega

/-- An arithmetic shift by more than the width gives the sign everywhere, as the shift by the width less one does. -/
theorem sshiftRight_min {w : Nat} (x : BitVec w) (c : Nat) : x.sshiftRight (min c (w - 1)) = x.sshiftRight c := by
  by_cases near : c ≤ w - 1
  · rw [min_eq_left near]
  · rw [min_eq_right (le_of_not_ge near)]
    refine BitVec.eq_of_getLsbD_eq fun i hi => ?_
    rw [BitVec.getLsbD_sshiftRight, BitVec.getLsbD_sshiftRight, if_neg (by omega : ¬ c + i < w)]
    rcases Nat.eq_zero_or_pos i with rfl | above
    · rw [if_pos (by omega), BitVec.msb_eq_getLsbD_last]; rfl
    · rw [if_neg (by omega)]

theorem sraE_eq {w : Nat} (pos : 0 < w) (a c : Nat) : sraE w a c = ((BitVec.ofNat w a).sshiftRight c).toNat := by
  rw [sraE, swrap_natCast a pos, wrapN, ← BitVec.toNat_ofInt, ofInt_sshiftRight, sshiftRight_min]

/-! ### Elements by their exact values -/

section
variable {et : Nat} (small : et < 7) (mode r : Nat) (ftz : Bool) {a b d : Nat}
  (ha : a < 2 ^ (8 * etSize et)) (hb : b < 2 ^ (8 * etSize et)) (hd : d < 2 ^ (8 * etSize et))
include small

theorem minMaxE_flags (isMax : Bool) (a b : Nat) : (minMaxE et isMax ftz a b).2 = 0 := by
  rw [minMaxE, if_pos (Nat.le_of_lt_succ small)]

include ha

section
include hb

theorem addE_int (sub : Bool) :
    addE et mode r ftz sub a b = (SatTo et (if sub then IntOf et a - IntOf et b else IntOf et a + IntOf et b), 0) := by
  rw [addE, if_pos (Nat.le_of_lt_succ small), etInt'_eq_intOf small ha, etInt'_eq_intOf small hb, satE_eq_satTo small]

theorem mulE_int : mulE et mode r ftz a b = (SatTo et (IntOf et a * IntOf et b), 0) := by
  rw [mulE, if_pos (Nat.le_of_lt_succ small), etInt'_eq_intOf small ha, etInt'_eq_intOf small hb, satE_eq_satTo small]

include hd in
theorem fmaE_int (sub : Bool) : fmaE et mode r ftz sub a b d =
    (SatTo et (if sub then IntOf et a * IntOf et b - IntOf et d else IntOf et a * IntOf et b + IntOf et d), 0) := by
  rw [fmaE, if_pos (Nat.le_of_lt_succ small), etInt'_eq_intOf small ha, etInt'_eq_intOf small hb, etInt'_eq_intOf small hd]
  exact congrArg (·, 0) (satE_eq_satTo small _)

theorem minMaxE_min : minMaxE et false ftz a b = (if IntOf et a ≤ IntOf et b then a else b, 0) := by
  refine Prod.ext ((minMaxE_int small false ftz ha hb).trans ?_) (minMaxE_flags small ftz false a b)
  by_cases le : IntOf et a ≤ IntOf et b <;> simp [le]

theorem minMaxE_max : minMaxE et true ftz a b = (if IntOf et a ≤ IntOf et b then b else a, 0) := by
  refine Prod.ext ((minMaxE_int small true ftz ha hb).trans ?_) (minMaxE_flags small ftz true a b)
  simp

/-- The three relations of R177. -/
theorem cmpE_int : let ones := 2 ^ (8 * etSize et) - 1
    cmpE et 0 ftz a b = (if IntOf et a = IntOf et b then ones else 0, 0) ∧
    cmpE et 1 ftz a b = (if IntOf et a < IntOf et b then ones else 0, 0) ∧
    cmpE et 2 ftz a b = (if IntOf et a ≤ IntOf et b then ones else 0, 0) := by
  refine ⟨?_, ?_, ?_⟩ <;>
  · rw [cmpE, if_pos (Nat.le_of_lt_succ small), etInt'_eq_intOf small ha, etInt'_eq_intOf small hb]
    simp

theorem iotaE_int (j : Nat) : iotaE et mode r ftz a b j = (SatTo et (IntOf et a + j * IntOf et b), 0) := by
  rw [iotaE, if_pos (Nat.le_of_lt_succ small), etInt'_eq_intOf small ha, etInt'_eq_intOf small hb, satE_eq_satTo small]

end

theorem absNegE_abs : absNegE et false ftz a = (SatTo et (if IntOf et a < 0 then -IntOf et a else IntOf et a), 0) := by
  have abs (x : Int) : (x.natAbs : Int) = if x < 0 then -x else x := by split <;> omega
  rw [absNegE, if_pos (Nat.le_of_lt_succ small), etInt'_eq_intOf small ha, satE_eq_satTo small, ← abs]
  rfl

theorem absNegE_neg : absNegE et true ftz a = (SatTo et (-IntOf et a), 0) := by
  rw [absNegE, if_pos (Nat.le_of_lt_succ small), etInt'_eq_intOf small ha, satE_eq_satTo small]
  rfl

/-- A conversion between integer types, R178: `et` is the source. -/
theorem cvtE_int {dst : Nat} (smallDst : dst < 7) : cvtE dst et mode r ftz a = (SatTo dst (IntOf et a), 0) := by
  rw [cvtE, if_pos (Nat.le_of_lt_succ small), if_pos (Nat.le_of_lt_succ smallDst), etInt'_eq_intOf small ha, satE_eq_satTo smallDst]

end

end Sys2Proof.Machine
end

section

open Sys2Proof Sys2Proof.Machine

/-- Settles O30: each element function of an integer type is its exact result saturated, a selection, a compare, or its operation on bits. -/
theorem integerElementsFollowR174ToR178 : Obligations.IntegerElementsFollowR174ToR178 := by
  intro v et src mode r a b d ftz le w ha hb hd x y z e
  have small : et < 7 := Nat.lt_succ_of_le le
  obtain ⟨eq, lt, le'⟩ := cmpE_int small ftz ha hb
  exact ⟨addE_int small mode r ftz ha hb false, addE_int small mode r ftz ha hb true, mulE_int small mode r ftz ha hb,
    fmaE_int small mode r ftz ha hb hd false, fmaE_int small mode r ftz ha hb hd true,
    minMaxE_min small ftz ha hb, minMaxE_max small ftz ha hb, absNegE_abs small ftz ha, absNegE_neg small ftz ha,
    Nat.testBit_and a b, Nat.testBit_or a b, Nat.testBit_xor a b,
    congrArg (·, 0) (shlE_eq w a b), congrArg (·, 0) (shrE_eq w a b), congrArg (·, 0) (sraE_eq (etSize_pos_of_int small) a b),
    eq, lt, le', congrArg (·, 0) (ite_not (d = 0) a b), rfl,
    fun leSrc fits => cvtE_int (Nat.lt_succ_of_le leSrc) mode r ftz fits small, iotaE_int small mode r ftz ha hb⟩

end

section
/-!
SUPPORT. The integer reductions (spec/08 R180): one sum, or the extreme of a list of exact values.
-/

namespace Sys2Proof.Machine

/-! ### The largest and the smallest of a list -/

theorem max?_eq_foldl {ps : List Int} (ne : ps ≠ []) : ps.max? = some (ps.foldl max (ps.headD 0)) := by
  obtain ⟨p, qs, rfl⟩ := List.exists_cons_of_ne_nil ne
  rw [List.max?_cons', List.headD_cons, List.foldl_cons, max_self]

theorem min?_eq_foldl {ps : List Int} (ne : ps ≠ []) : ps.min? = some (ps.foldl min (ps.headD 0)) := by
  obtain ⟨p, qs, rfl⟩ := List.exists_cons_of_ne_nil ne
  rw [List.min?_cons', List.headD_cons, List.foldl_cons, min_self]

/-! ### The words -/

section
variable {v : VWord} (small : v.et.toNat < 7) (mode : Nat) (ftz : Bool) (rs : List Nat) {as bs : List Nat}
  (fit : ∀ a ∈ as, a < 2 ^ (8 * etSize v.et.toNat))
include small

/-- The type of a result: s64 in the wide form. -/
theorem vresEt_int : vresEt v = if v.d.str = 1 then 6 else v.et.toNat := by
  rw [vresEt, vwide, if_neg (not_le.2 small)]
  simp

theorem vresEt_lt : vresEt v < 7 := by
  rw [vresEt_int small]
  split
  · decide
  · exact small

include fit

theorem map_etInt'_eq : as.map (etInt' v.et.toNat) = as.map (IntOf v.et.toNat) :=
  List.map_congr_left fun a ha => etInt'_eq_intOf small (fit a ha)

theorem reduceE_sum_int : reduceE (.vredSum v) v mode ftz rs as [] = (SatTo (vresEt v) (as.map (IntOf v.et.toNat)).sum, 0) := by
  rw [← satE_eq_satTo (vresEt_lt small), ← map_etInt'_eq small fit]
  exact if_pos (Nat.le_of_lt_succ small)

theorem reduceE_dot_int (fits : ∀ b ∈ bs, b < 2 ^ (8 * etSize v.et.toNat)) : reduceE (.vdot v) v mode ftz rs as bs =
    (SatTo (vresEt v) ((as.zip bs).map fun p => IntOf v.et.toNat p.1 * IntOf v.et.toNat p.2).sum, 0) := by
  have products : ((as.zip bs).map fun p => etInt' v.et.toNat p.1 * etInt' v.et.toNat p.2) =
      (as.zip bs).map fun p => IntOf v.et.toNat p.1 * IntOf v.et.toNat p.2 := List.map_congr_left fun p hp => by
    rw [etInt'_eq_intOf small (fit _ (List.of_mem_zip hp).1), etInt'_eq_intOf small (fits _ (List.of_mem_zip hp).2)]
  rw [← satE_eq_satTo (vresEt_lt small), ← products]
  exact if_pos (Nat.le_of_lt_succ small)

variable (ne : as ≠ [])
include ne

/-- The largest value is the value of an element. -/
theorem reduceE_max_int : ∃ m ∈ as, reduceE (.vredMax v) v mode ftz rs as [] = (m, 0) ∧ ∀ a ∈ as, IntOf v.et.toNat a ≤ IntOf v.et.toNat m := by
  obtain ⟨mem, largest⟩ := List.max?_eq_some_iff.1 (max?_eq_foldl (List.map_eq_nil_iff.not.2 ne : as.map (IntOf v.et.toNat) ≠ []))
  obtain ⟨m, hm, value⟩ := List.mem_map.1 mem
  refine ⟨m, hm, ?_, fun a ha => value ▸ largest _ (List.mem_map_of_mem ha)⟩
  rw [← wrapN_intOf (fit m hm), value, ← map_etInt'_eq small fit]
  exact if_pos (Nat.le_of_lt_succ small)

/-- The smallest value is the value of an element. -/
theorem reduceE_min_int : ∃ m ∈ as, reduceE (.vredMin v) v mode ftz rs as [] = (m, 0) ∧ ∀ a ∈ as, IntOf v.et.toNat m ≤ IntOf v.et.toNat a := by
  obtain ⟨mem, smallest⟩ := List.min?_eq_some_iff.1 (min?_eq_foldl (List.map_eq_nil_iff.not.2 ne : as.map (IntOf v.et.toNat) ≠ []))
  obtain ⟨m, hm, value⟩ := List.mem_map.1 mem
  refine ⟨m, hm, ?_, fun a ha => value ▸ smallest _ (List.mem_map_of_mem ha)⟩
  rw [← wrapN_intOf (fit m hm), value, ← map_etInt'_eq small fit]
  exact if_pos (Nat.le_of_lt_succ small)

end

end Sys2Proof.Machine
end

section

open Sys2Proof Sys2Proof.Machine

/-- Settles O32: the sum of the exact values is saturated once to the type of the result, and an extreme value is that of an element. -/
theorem integerReductionsFollowR180 : Obligations.IntegerReductionsFollowR180 := by
  intro v mode ftz rs as bs le ne _ et rt fit fits
  have small : v.et.toNat < 7 := Nat.lt_succ_of_le le
  have type : vresEt v = rt := vresEt_int small
  rw [← type]
  exact ⟨reduceE_sum_int small mode ftz rs fit, reduceE_dot_int small mode ftz rs fit fits,
    reduceE_max_int small mode ftz rs fit ne, reduceE_min_int small mode ftz rs fit ne⟩

end

section
/-!
SUPPORT. The words of the matrix unit at issue (spec/09 R198 to R203, R208, spec/10 R214 to R220): what the shared checks need to know of them, and
what they do with the answer of their own check.
-/

namespace Sys2Proof.Machine

section
variable {s : State} {c : Nat} {i : Instr} {m : MWord} {rs : List Reg}

/-- A matrix word is C's; it may leave a record, and need a feature. -/
theorem fits_matrix {recs : Bool} {l : List (Nat × BitVec 3)} (hr : recs = true → (s.core c).records < 64)
    (hl : ∀ e ∈ l, s.feat (s.ctx c).vf e.1 = true) (hi : ForEveryStrand i := by exact ⟨fun _ _ => Instr.noConfusion, rfl⟩) :
    Fits { y := m.n.y, t := m.n.t, who := 4, reads := rs, recs := recs, feat := l } s c .c i m.n [.c] rs [] where
  assigned := hi.assigned
  y := rfl
  t := rfl
  who _ := by show (4 : BitVec 4).getLsbD 2 = true; decide
  sys _ := hi.unrestricted
  reads := rfl
  dst := rfl
  il h := Bool.noConfusion h
  gm h := Bool.noConfusion h
  recs := hr
  room := .inl ⟨rfl, rfl⟩
  nh h := Bool.noConfusion h
  oh h := Bool.noConfusion h
  feat := hl
  late := rfl

theorem fits_mxInfo (hr : (s.core c).records < 64) (hi : ForEveryStrand i := by exact ⟨fun _ _ => Instr.noConfusion, rfl⟩) :
    Fits (mxInfo m rs) s c .c i m.n [.c] rs [] := fits_matrix (fun _ => hr) (List.forall_mem_nil _) hi

/-- What a word of the queue answers at issue: the fault of its check, or it waits or enters the queue. -/
def queueAct (s : State) (c : Nat) (i : Instr) (base : Word) (ent : Nat) (v : Word) : Option (Nat × Word) → Act
  | some e => .fault s e.1 e.2
  | none => if mxWaits (s.core c) i base v then .wait s else .go (s.enqueue c i base ent v) .fall

/-- The entry that a selector names is that of R45. -/
theorem fselEntry_eq (s : State) (c : Nat) (m : MWord) : fselEntry m.fsel ((s.core c).str .c) = EntryOf s c m := by
  rw [fselEntry, EntryOf]
  cases m.fsel.getLsbD 5 <;> cases m.fsel.getLsbD 4 <;> rfl

/-- The check of a load or a stream, with its entry and the planes as earlier words of the queue leave them. -/
def streamCheck (i : Instr) (m : MWord) (s : State) (c : Nat) : Option (Nat × Word) :=
  mxCheck i m (s.rd c .c m.abase) (EntryOf s c m) (Tab.get 0 (s.core c).ft (EntryOf s c m)) (s.feat (s.ctx c).vf 1)
    (decide ((s.die (dieOf c)).st = .early)) (descsLeft (s.core c).live.desc (s.core c).shadow.desc (s.core c).mxq).1 (s.ctx c).scrsize

theorem streamBody_eq (i : Instr) (m : MWord) (s : State) (c : Nat) : streamBody i m c .c s =
    queueAct s c i (s.rd c .c m.abase) (EntryOf s c m) (Tab.get 0 (s.core c).ft (EntryOf s c m)) (streamCheck i m s c) := by
  rw [streamCheck, ← fselEntry_eq, ← beq_eq_decide]
  unfold streamBody
  dsimp only
  split <;> rename_i h <;> rw [h] <;> rfl

theorem bankBody_eq (i : Instr) (m : MWord) (s : State) (c : Nat) : bankBody i m c .c s =
    queueAct s c i (s.rd c .c m.abase) 0 0 (bankCheck i m (s.rd c .c m.abase) (s.ctx c).scrsize) := by
  unfold bankBody
  dsimp only
  split <;> rename_i h <;> rw [h] <;> rfl

/-- A ready word that answers with `queueAct` faults, waits or enters the queue. -/
theorem Ready.queues {f : Info} {body : Nat → StrandIx → State → Act} {ent : Nat} {v : Word} {check : Option (Nat × Word)}
    (h : Ready s c .c i m.n [.c] rs []) (hf : Fits f s c .c i m.n [.c] rs []) (he : exec i s = issue i f body s)
    (hb : body c .c s = queueAct s c i (s.rd c .c m.abase) ent v check) : QueuesBy i m s c ent v (mxTotal i v) check := by
  refine ⟨fun e hc => ?_, fun hc hw => ?_, fun hc hw => ?_⟩
  · rw [hc] at hb
    exact h.raises hf hb he
  · rw [Waits, he, h.meets hf, hb, hc, queueAct, if_pos hw]
  · rw [hc, queueAct, if_neg (Bool.eq_false_iff.mp hw)] at hb
    exact h.changesCore hf _ hb he (fun x j => by cases j <;> rfl) (fun _ => rfl) (fun _ => rfl) (fun _ => rfl)

/-- A load or a stream. -/
theorem Ready.queuesStream (h : Ready s c .c i m.n [.c] rs []) (hr : (s.core c).records < 64)
    (he : exec i s = issue i (mxInfo m rs) (streamBody i m) s) (hi : ForEveryStrand i := by exact ⟨fun _ _ => Instr.noConfusion, rfl⟩) :
    QueuesBy i m s c (EntryOf s c m) (Tab.get 0 (s.core c).ft (EntryOf s c m)) (mxTotal i (Tab.get 0 (s.core c).ft (EntryOf s c m)))
      (streamCheck i m s c) :=
  h.queues (fits_mxInfo hr hi) he (streamBody_eq i m s c)

/-- Any other word of the queue. -/
theorem Ready.queuesBank (h : Ready s c .c i m.n [.c] rs []) (hr : (s.core c).records < 64)
    (he : exec i s = issue i (mxInfo m rs) (bankBody i m) s) (hi : ForEveryStrand i := by exact ⟨fun _ _ => Instr.noConfusion, rfl⟩) :
    QueuesBy i m s c 0 0 (mxTotal i 0) (bankCheck i m (s.rd c .c m.abase) (s.ctx c).scrsize) :=
  h.queues (fits_mxInfo hr hi) he (bankBody_eq i m s c)

/-- mxread, which needs the narrow formats where it packs narrow codes. -/
theorem mxread_queues (h : Ready s c .c (.mxread m) m.n [.c] [m.abase] []) (hr : (s.core c).records < 64)
    (hn : m.dt = 10 → mxfW m.mxf < 8 → s.feat (s.ctx c).vf 1 = true) :
    QueuesBy (.mxread m) m s c 0 0 (mxTotal (.mxread m) 0) (bankCheck (.mxread m) m (s.rd c .c m.abase) (s.ctx c).scrsize) := by
  refine h.queues (fits_matrix (l := if m.dt = 10 && mxfW m.mxf < 8 then [(1, 6)] else []) (fun _ => hr) fun e he => ?_) rfl (bankBody_eq _ m s c)
  split at he
  next narrow =>
    rw [Bool.and_eq_true, decide_eq_true_eq, decide_eq_true_eq] at narrow
    rw [List.mem_singleton.mp he]
    exact hn narrow.1 narrow.2
  next => cases he

/-- What mxfmt changes of its core. -/
def Core.formatted (m : MWord) (k : StrandIx) (x : Core) : Core :=
  { x with ft := Tab.set 0 x.ft (fselEntry m.fsel (x.str k)) ((x.str k).rd m.abase) }

def mxfmtBody (m : MWord) (c : Nat) (k : StrandIx) (s : State) : Act :=
  if !(s.core c).mxq.isEmpty then .wait s else .go (s.mapCore c (·.formatted m k)) .fall

theorem exec_mxfmt (m : MWord) (s : State) : exec (.mxfmt m) s =
    issue (.mxfmt m) { y := m.n.y, t := m.n.t, who := 4, reads := [m.abase], recs := false, feat := [] } (mxfmtBody m) s := rfl

theorem fits_mxfmt : Fits { y := m.n.y, t := m.n.t, who := 4, reads := [m.abase], recs := false, feat := [] } s c .c (.mxfmt m) m.n [.c] [m.abase] [] :=
  fits_matrix (fun h => Bool.noConfusion h) (List.forall_mem_nil _)

theorem mxfmt_waits (h : Ready s c .c (.mxfmt m) m.n [.c] [m.abase] []) (hq : (s.core c).mxq ≠ []) : Waits (.mxfmt m) s c := by
  rw [Waits, exec_mxfmt, h.meets fits_mxfmt, mxfmtBody, List.isEmpty_eq_false_iff.mpr hq]
  rfl

theorem mxfmt_writes (h : Ready s c .c (.mxfmt m) m.n [.c] [m.abase] []) (hq : (s.core c).mxq = []) :
    ∃ t, Passes (.mxfmt m) m.n s t c .c [] ∧ t.mem = s.mem ∧ (t.core c).ft = Tab.set 0 (s.core c).ft (EntryOf s c m) (s.rd c .c m.abase) := by
  have go : mxfmtBody m c .c s = .go (s.mapCore c (·.formatted m .c)) .fall := by rw [mxfmtBody, hq]; rfl
  have self : (s.mapCore c (·.formatted m .c)).core c = (s.core c).formatted m .c := State.core_mapCore_self s c _
  have strand (j : StrandIx) : (s.mapCore c (·.formatted m .c)).str c j = s.str c j := by rw [State.str, self]; cases j <;> rfl
  obtain ⟨t, next, fell, mem, -⟩ := h.falls fits_mxfmt go (exec_mxfmt m s) ⟨by rw [strand], by rw [self]; rfl⟩
  refine ⟨t, ⟨next, ?_, ?_, ?_, ?_, ?_⟩, mem, ?_⟩
  · have := fell.issued; rwa [self] at this
  · have := fell.falls; rwa [strand] at this
  · intro r _; rw [fell.rd, State.rd, strand, State.rd]
  · intro j hj; rw [fell.strands j hj, strand]
  · intro e he; rw [fell.cores e he, State.core_mapCore_ne _ _ he]
  · rw [fell.units.formats, self, Core.formatted, fselEntry_eq]
    rfl

end

/-- R198 to R203, R214 to R220: each word by its body at issue and the cycles of its pipe. -/
theorem matrixWordsEnterTheQueue : MatrixWordsEnterTheQueue := by
  intro s c m hr x base ent v live narrow early size mn
  refine ⟨?_, fun h => h.queuesStream hr rfl, ?_, ?_, fun h => h.queuesBank hr rfl, ?_, fun h => h.queuesBank hr rfl, ?_⟩
  · rintro i (rfl | rfl) h <;> exact h.queuesStream hr rfl
  · rintro i (rfl | rfl) h hn
    · exact mxread_queues h hr (hn rfl)
    · exact h.queuesBank hr rfl
  · rintro i (rfl | rfl) h <;> exact h.queuesBank hr rfl
  · rintro i (rfl | rfl) h <;> exact h.queuesBank hr rfl
  · rintro i (rfl | rfl) h <;> exact h.queuesBank hr rfl

/-- R208: mxfmt waits for the queue, and then changes its entry alone. -/
theorem mxfmtWritesItsEntry : MxfmtWritesItsEntry := by
  intro s c m h
  refine ⟨mxfmt_waits h, fun hq => ?_⟩
  obtain ⟨t, passes, mem, written⟩ := mxfmt_writes h hq
  refine ⟨t, passes, mem, ?_, fun e he => ?_⟩
  · rw [written, Tab.get_set_self]
  · rw [written, Tab.get_set_ne _ _ _ he]

end Sys2Proof.Machine
end

section

open Sys2Proof Sys2Proof.Machine

/-- Settles O34: the words of the queue by what `queueAct` does with their check, mxfmt by the entry it sets. -/
theorem matrixWordsFollowTheirRules : Obligations.MatrixWordsFollowTheirRules := ⟨matrixWordsEnterTheQueue, mxfmtWritesItsEntry⟩

end

section
/-!
SUPPORT. The queue of the matrix unit as its pipes see it (spec/09 R198, R199): the first word of a kind, the granules that a read cycle picks, and
the turn of a pipe.
-/

namespace Sys2Proof.Machine

/-! ### Words by their kind -/

theorem isLoad_iff {i : Instr} : isLoad i = true ↔ ∃ m, i = .mxstat m ∨ i = .mxstatT m := by
  constructor
  · unfold isLoad
    split
    · exact fun _ => ⟨_, .inl rfl⟩
    · exact fun _ => ⟨_, .inr rfl⟩
    · exact Bool.noConfusion
  · rintro ⟨m, rfl | rfl⟩ <;> rfl

theorem isFlip_iff {i : Instr} : isFlip i = true ↔ ∃ m, i = .mxflip m := by
  constructor
  · unfold isFlip
    split
    · exact fun _ => ⟨_, rfl⟩
    · exact Bool.noConfusion
  · rintro ⟨m, rfl⟩; rfl

theorem isStream_iff {i : Instr} : isStream i = true ↔ ∃ m, i = .mxstream m := by
  constructor
  · unfold isStream
    split
    · exact fun _ => ⟨_, rfl⟩
    · exact Bool.noConfusion
  · rintro ⟨m, rfl⟩; rfl

theorem isSwap_iff {i : Instr} : isSwap i = true ↔ ∃ m, i = .mxswap m := by
  constructor
  · unfold isSwap
    split
    · exact fun _ => ⟨_, rfl⟩
    · exact Bool.noConfusion
  · rintro ⟨m, rfl⟩; rfl

/-- The bank pipe has every word of the queue that the other two pipes do not have. -/
theorem isBank_iff {i : Instr} : isBank i = true ↔ ¬ ((∃ m, i = .mxstat m ∨ i = .mxstatT m) ∨ (∃ m, i = .mxflip m) ∨ ∃ m, i = .mxstream m) := by
  rw [← isLoad_iff, ← isFlip_iff, ← isStream_iff, isBank]
  cases isLoad i <;> cases isFlip i <;> cases isStream i <;> decide

/-! ### The queue -/

theorem firstMx_append {p : MxOp → Bool} {o : MxOp} {younger : List MxOp} : ∀ {older : List MxOp}, (∀ q ∈ older, p q = false) → p o = true →
    firstMx p (older ++ o :: younger) = some (older, o)
  | [], _, ho => by rw [List.nil_append, firstMx, if_pos ho]
  | q :: older, h, ho => by
    rw [List.cons_append, firstMx, if_neg (Bool.eq_false_iff.mp (h q (List.mem_cons_self ..))),
      firstMx_append (fun r hr => h r (List.mem_cons_of_mem _ hr)) ho]
    rfl

/-! ### The granules that a read cycle picks -/

/-- A pick takes some granules of the list and draws free values. -/
theorem State.pickGrans_spec : ∀ (n : Nat) (s : State) (l : List Nat), ∃ k later, (s.pickGrans n l).1 = { s with free := k } ∧
    List.Perm ((s.pickGrans n l).2 ++ later) l ∧ (s.pickGrans n l).2.length = min n l.length
  | 0, s, l => ⟨s.free, l, rfl, .refl l, (Nat.zero_min _).symm⟩
  | n + 1, s, l => by
    rw [State.pickGrans]
    split
    next he =>
      rw [List.isEmpty_iff.mp he]
      exact ⟨s.free, [], rfl, .refl _, rfl⟩
    next he =>
      have pos : 0 < l.length := List.length_pos_of_ne_nil fun e => he (List.isEmpty_iff.mpr e)
      have lt := Nat.mod_lt s.draw.1.toNat pos
      dsimp only
      generalize s.draw.1.toNat % l.length = i at lt
      obtain ⟨k, later, state, perm, len⟩ := State.pickGrans_spec n s.draw.2 (l.eraseIdx i)
      refine ⟨k, later, state, ?_, ?_⟩
      · rw [List.cons_append, List.getD_eq_getElem _ _ lt]
        exact (perm.cons _).trans (List.getElem_cons_eraseIdx_perm lt)
      · rw [List.length_cons, len, List.length_eraseIdx_of_lt lt]
        omega

/-- The word after a read of some of its granules. -/
def MxOp.reading (o : MxOp) (mem : Tab Byte) (gs : List Nat) : MxOp :=
  { o with todo := some (o.left.filter (fun g => !gs.contains g)), read := (o.left.filter (fun g => !gs.contains g)).isEmpty
           aby := sampleSpans mem o.aby (gs.map (fun g => (16 * g, 16))) }

/-- The granules of which a read cycle picks: those of elements while there are any. -/
def MxOp.pool (o : MxOp) : List Nat :=
  let el := o.left.filter (fun g => (elemGrans o.img o.base o.entv).contains g)
  if el.isEmpty then o.left else el

/-- Nothing is checked where never-written granules are ignored. -/
theorem mxRead_of_ignoring {s : State} {c : Nat} (hm : (s.ctx c).scrmode = 0) (l all : List (Nat × Nat)) (old : Nat → Bool) : mxRead s c l all old = .ok s := by
  unfold mxRead
  rw [hm]
  cases unwrittenSpans (s.core c) l <;> rfl

theorem readGrans_of_ignoring {s : State} {c : Nat} (o : MxOp) (hm : (s.ctx c).scrmode = 0) : ∃ gs later k, List.Perm (gs ++ later) o.pool ∧
    gs.length = min 8 o.pool.length ∧ readGrans s c o = .ok ({ s with free := k }, o.reading (s.core c).scr gs) := by
  obtain ⟨k, later, state, perm, len⟩ := s.pickGrans_spec 8 o.pool
  refine ⟨_, later, k, perm, len, ?_⟩
  have hm' : ((s.pickGrans 8 o.pool).1.ctx c).scrmode = 0 := by rw [state]; exact hm
  unfold readGrans
  dsimp only [MxOp.pool] at hm' state ⊢
  rw [mxRead_of_ignoring hm', state]
  rfl

/-! ### The turn of a pipe -/

section
variable {s : State} {rest : List Turn} {c : Nat} {i : Instr}

/-- An event that changes nothing but its turn. -/
theorem unitEvent_of_idle (h : exec i s = .next (Passed s rest)) : UnitEvent i s c rest (s.core c) := ⟨s.cores, h, rfl, fun _ _ => rfl⟩

/-- A cycle in which a pipe reads a part of a word: `h` is what the pipe does to its core before, `g` what it does with the word it has read. -/
theorem readsPart_of_readGrans {o : MxOp} {h : Core → Core} {g : MxOp → Core → Core} (hm : (s.ctx c).scrmode = 0)
    (hscr : (h (s.core c)).scr = (s.core c).scr) (hctx : (h (s.core c)).ctx = (s.core c).ctx)
    (he : ∀ v p, readGrans ((Passed s rest).mapCore c h) c o = .ok (v, p) → exec i s = .next (v.mapCore c (g p))) {f : MxOp → Core}
    (hf : ∀ gs, g (o.reading (s.core c).scr gs) (h (s.core c)) = f (o.reading (s.core c).scr gs)) : ReadsPart i s c rest o 8 f := by
  have self : ((Passed s rest).mapCore c h).core c = h (s.core c) := State.core_mapCore_self _ c h
  have hm' : (((Passed s rest).mapCore c h).ctx c).scrmode = 0 := by rw [State.ctx, self, hctx]; exact hm
  obtain ⟨gs, later, k, perm, len, read⟩ := readGrans_of_ignoring o hm'
  rw [self, hscr] at read
  refine ⟨gs, later, perm, len, _, k, he _ _ read, ?_, fun e hne => ?_⟩
  · exact (State.core_mapCore_self _ c _).trans ((congrArg (g _) self).trans (hf gs))
  · exact (State.core_mapCore_ne _ _ hne).trans (State.core_mapCore_ne _ _ hne)

end
end Sys2Proof.Machine
end

section
/-!
SUPPORT. The load pipe and mxflip (spec/09 R193, R195, R199, R204), and what a loaded plane holds (R189 to R192).
-/

namespace Sys2Proof.Machine

/-! ### The load pipe -/

section
variable {s : State} {c : Nat} {older younger : List MxOp} {o : MxOp} {rest : List Turn} {k : StrandIx} {j : Nat}

theorem exec_planeLoad (h : CoreTurns s c k j .planeLoad rest) : exec .planeLoad s = .next (planeLoad c (Passed s rest)) := turnEvent_of_turns _ h
theorem exec_planeFlip (h : CoreTurns s c k j .planeFlip rest) : exec .planeFlip s = .next (planeFlip c (Passed s rest)) := turnEvent_of_turns _ h

theorem not_flip_of_load {i : Instr} (h : isLoad i = true) : isFlip i = false := by
  obtain ⟨m, rfl | rfl⟩ := isLoad_iff.mp h <;> rfl

/-- The plane that a load fills is not valid while the load is under way. -/
def Core.loadingPlane (x : Core) : Core := { x with shadow := { x.shadow with valid := false } }

/-- What the load pipe does with a word that it has read a part of. -/
def Core.loadRead (m : MWord) (p : MxOp) (x : Core) : Core :=
  setMx (if p.read then { x with shadow := { loadPlane p.aby p.img m p.base p.entv with valid := false } } else x) { p with prog := p.prog + 1 }

variable (ha : (s.core c).alive = true) (hq : (s.core c).mxq = older ++ o :: younger) (older_rest : ∀ p ∈ older, (isLoad p.img || isFlip p.img) = false)
include ha hq older_rest

theorem planeLoad_of_flip (h : isFlip o.img = true) : planeLoad c s = s := by
  simp only [planeLoad, ha, hq, firstMx_append older_rest (o := o) (by simp [h]), h, Bool.not_true, Bool.false_eq_true, if_false, if_true]

variable (h : isLoad o.img = true)
include h

theorem planeLoad_reads {v : State} {p : MxOp} (hr : o.read = false) (read : readGrans (s.mapCore c Core.loadingPlane) c o = .ok (v, p)) :
    planeLoad c s = v.mapCore c (Core.loadRead (mword o.img) p) := by
  unfold Core.loadingPlane at read
  simp only [planeLoad, ha, hq, firstMx_append older_rest (o := o) (by simp [h]), not_flip_of_load h, hr, read, Bool.not_true, Bool.not_false, Bool.false_eq_true,
    if_false, if_true]
  rfl

theorem planeLoad_ages (hr : o.read = true) (ht : o.tail < 3) : planeLoad c s = s.mapCore c fun x => setMx x { o with tail := o.tail + 1 } := by
  simp only [planeLoad, ha, hq, firstMx_append older_rest (o := o) (by simp [h]), not_flip_of_load h, hr, Bool.not_true, Bool.false_eq_true, if_false]
  rw [if_pos (by omega)]

theorem planeLoad_completes (hr : o.read = true) (ht : 3 ≤ o.tail) :
    planeLoad c s = s.mapCore c fun x => dropMx { x with shadow := { x.shadow with valid := true } } o.ord := by
  simp only [planeLoad, ha, hq, firstMx_append older_rest (o := o) (by simp [h]), not_flip_of_load h, hr, Bool.not_true, Bool.false_eq_true, if_false]
  rw [if_neg (by omega)]

end

section
variable {s : State} {c : Nat} {older younger : List MxOp} {o : MxOp} (ha : (s.core c).alive = true) (hq : (s.core c).mxq = older ++ o :: younger)
  (older_rest : ∀ p ∈ older, isFlip p.img = false) (h : isFlip o.img = true)
include ha hq older_rest h

theorem planeFlip_exchanges (hb : ∀ p ∈ older, (isLoad p.img || isStream p.img && !p.cycled) = false) :
    planeFlip c s = s.mapCore c fun x => dropMx { x with live := x.shadow, shadow := x.live } o.ord := by
  simp only [planeFlip, ha, hq, firstMx_append older_rest h, List.any_eq_false.mpr fun p hp => Bool.eq_false_iff.mp (hb p hp), Bool.not_true, Bool.false_eq_true, if_false]

theorem planeFlip_waits (hb : ∃ p ∈ older, (isLoad p.img || isStream p.img && !p.cycled) = true) : planeFlip c s = s := by
  simp only [planeFlip, ha, hq, firstMx_append older_rest h, List.any_eq_true.mpr hb, Bool.not_true, Bool.false_eq_true, if_false, if_true]

end

/-- R193, R195, R199, R204. -/
theorem planesLoadAndFlipByR195AndR199 : PlanesLoadAndFlipByR195AndR199 := by
  intro s rest c k j older younger o x ha hq load flip
  refine ⟨fun turn ho => ?_, fun turn hf ho => ?_⟩
  · have older_rest : ∀ p ∈ older, (isLoad p.img || isFlip p.img) = false := fun p hp => by
      rw [Bool.or_eq_false_iff, Bool.eq_false_iff, Bool.eq_false_iff, ne_eq, ne_eq, isLoad_iff, isFlip_iff]
      exact ho p hp
    refine ⟨fun hf => ?_, fun m hm hr mode => ?_, fun hl hr ht => ?_, fun hl hr ht => ?_⟩
    · exact unitEvent_of_idle ((exec_planeLoad turn).trans (congrArg _ (planeLoad_of_flip ha hq older_rest (isFlip_iff.mpr hf))))
    · have word : mword o.img = m := by rcases hm with e | e <;> rw [e] <;> rfl
      refine readsPart_of_readGrans mode rfl rfl (h := Core.loadingPlane) (g := Core.loadRead m) (fun v p read => ?_) fun gs => ?_
      · rw [exec_planeLoad turn, ← word]
        exact congrArg _ (planeLoad_reads (s := Passed s rest) ha hq older_rest (isLoad_iff.mpr ⟨m, hm⟩) hr read)
      · rw [Core.loadRead]
        split <;> rfl
    · exact unitEvent_of_mapCore ((exec_planeLoad turn).trans (congrArg _ (planeLoad_ages ha hq older_rest (isLoad_iff.mpr hl) hr ht)))
    · exact unitEvent_of_mapCore ((exec_planeLoad turn).trans (congrArg _ (planeLoad_completes ha hq older_rest (isLoad_iff.mpr hl) hr ht)))
  · have older_rest : ∀ p ∈ older, isFlip p.img = false := fun p hp => Bool.eq_false_iff.mpr (mt isFlip_iff.mp (ho p hp))
    have busy (p : MxOp) : (isLoad p.img || isStream p.img && !p.cycled) = true ↔ load p ∨ ∃ m, p.img = .mxstream m ∧ p.prog < p.total := by
      rw [Bool.or_eq_true, isLoad_iff, Bool.and_eq_true, isStream_iff, ← exists_and_right]
      simp only [MxOp.cycled, exists_and_right, Bool.not_eq_true', decide_eq_false_iff_not, Nat.not_le]
      exact Iff.rfl
    refine ⟨fun idle => ?_, fun ⟨p, hp, h⟩ => ?_⟩
    · refine unitEvent_of_mapCore ((exec_planeFlip turn).trans (congrArg _ (planeFlip_exchanges ha hq older_rest (isFlip_iff.mpr hf) fun p hp => ?_)))
      refine Bool.eq_false_iff.mpr (mt (busy p).mp ?_)
      obtain ⟨not_load, done⟩ := idle p hp
      rintro (hl | ⟨m, hs, lt⟩)
      · exact not_load hl
      · exact absurd (done m hs) (Nat.not_le.mpr lt)
    · exact unitEvent_of_idle ((exec_planeFlip turn).trans (congrArg _ (planeFlip_waits ha hq older_rest (isFlip_iff.mpr hf) ⟨p, hp, (busy p).mpr h⟩)))

/-! ### What a loaded plane holds -/

/-- A table of the nonzero numbers among `v e` at `key e`. -/
theorem Tab.get_filterMap {v : Nat → Nat} {key : Nat → Nat} {i w : Nat} : ∀ {l : List Nat}, (∀ a ∈ l, key a = i → v a = w) → ((∃ a ∈ l, key a = i) ∨ w = 0) →
    Tab.get 0 (l.filterMap fun e => if v e = 0 then none else some (key e, v e)) i = w
  | [], _, hw => (hw.resolve_left fun ⟨_, h, _⟩ => nomatch h).symm
  | a :: l, hv, hw => by
    have tail := fun h => Tab.get_filterMap (l := l) (v := v) (fun b hb => hv b (List.mem_cons_of_mem _ hb)) h
    have head := hv a (List.mem_cons_self ..)
    rw [List.filterMap_cons]
    by_cases zero : v a = 0
    · rw [if_pos zero]
      refine tail ?_
      rcases hw with ⟨b, hb, hk⟩ | hw
      · rcases List.mem_cons.mp hb with rfl | hb
        · exact .inr ((head hk).symm.trans zero)
        · exact .inl ⟨b, hb, hk⟩
      · exact .inr hw
    · rw [if_neg zero]
      dsimp only
      rw [Tab.get]
      by_cases hk : key a = i
      · rw [if_pos hk]
        exact head hk
      · rw [if_neg hk]
        refine tail (hw.imp_left fun ⟨b, hb, hkb⟩ => ⟨b, (List.mem_cons.mp hb).resolve_left fun e => hk (e ▸ hkb), hkb⟩)

/-- A table of `rows` rows of `n` numbers, as a plane keeps them. -/
def planeTab (n rows : Nat) (f : Nat → Nat → Nat) : Tab Nat :=
  (List.range (rows * n)).filterMap fun e => if f (e / n) (e % n) = 0 then none else some (e / n * 1024 + e % n, f (e / n) (e % n))

theorem get_planeTab {n rows r q : Nat} (f : Nat → Nat → Nat) (hn : n ≤ 1024) (hr : r < rows) (hq : q < n) :
    Tab.get 0 (planeTab n rows f) (r * 1024 + q) = f r q := by
  have pos : 0 < n := by omega
  have row : (r * n + q) / n = r := by rw [Nat.mul_comm, Nat.mul_add_div pos, Nat.div_eq_of_lt hq, Nat.add_zero]
  have col : (r * n + q) % n = q := by rw [Nat.mul_comm, Nat.mul_add_mod, Nat.mod_eq_of_lt hq]
  refine Tab.get_filterMap (v := fun e => f (e / n) (e % n)) (key := fun e => e / n * 1024 + e % n) (fun a _ hk => ?_) (.inl ⟨r * n + q, ?_, ?_⟩)
  · have := Nat.mod_lt a pos
    rw [show a / n = r by omega, show a % n = q by omega]
  · rw [List.mem_range]
    calc r * n + q < (r + 1) * n := by rw [Nat.succ_mul]; omega
      _ ≤ rows * n := Nat.mul_le_mul_right n hr
  · rw [row, col]

/-- R189 to R192, R196. -/
theorem loadedPlanesHoldTheirCodes : LoadedPlanesHoldTheirCodes := by
  intro mem m base v kk nn hk hn w y pitch codeAt bits stat trans
  have cols : ColsOf m ≤ 1024 := by unfold ColsOf; omega
  have code (a i : Nat) : bitsAt mem a i w = bits a i := by rw [bitsAt, ← numberOf_eq_leNat]
  refine ⟨?_, ?_, rfl, rfl, rfl, rfl, fun lo hi hs => ?_⟩
  · exact (get_planeTab (fun kk nn => bitsAt mem (y + kk * pitch (ColsOf m * w / 8)) nn w) cols hk hn).trans (code ..)
  · exact (get_planeTab (fun kk nn => bitsAt mem (y + nn * pitch (entK v * w / 8)) kk w) cols hk hn).trans (code ..)
  · have mx : isMx (fmtB v) = true := by simp [isMx, lo, hi]
    have scales : stat.scales = planeTab (ColsOf m) (entK v / 32) fun j nn => (Tab.get 0 mem (y + 16 * m.soff.toNat + j * ColsOf m + nn)).toNat := if_pos mx
    rw [scales, get_planeTab _ cols hs hn]

end Sys2Proof.Machine
end

section

open Sys2Proof Sys2Proof.Machine

/-- Settles O35: the turns of the load pipe and of mxflip by the oldest word they act on, the planes by the tables they keep. -/
theorem planesFollowR195AndR199 : Obligations.PlanesFollowR195AndR199 := ⟨planesLoadAndFlipByR195AndR199, loadedPlanesHoldTheirCodes⟩

end

section
/-!
SUPPORT. The conversions of the bank pipe (spec/10 R211, R214, R215): an entry or an element as an exact value, and what a rounding of it raises.
-/

namespace Sys2Proof.Machine

/-! ### RoundInt, R65 -/

/-- RoundInt is the rounding to places of weight 1. -/
theorem roundInt_eq (mode r : Nat) (s : Bool) (m : Nat) (e : ℤ) :
    roundInt mode r s m e = (sgnInt s (roundedSig mode r s m e 0), remSig m e 0 != 0) := by
  rw [roundInt, roundedSig, loSig, remSig]
  rcases lt_trichotomy e 0 with neg | rfl | pos
  · rw [if_neg (not_le.mpr neg), if_pos neg.le, if_pos neg.le, zero_sub]
  · simp [Nat.mod_one]
  · rw [if_pos pos.le, if_neg (not_le.mpr pos), if_neg (not_le.mpr pos), sub_zero]
    simp

theorem roundInt_rounds {mode : Nat} (hm : mode ≤ 5) (s : Bool) (m : Nat) (e : ℤ) : IntRounding mode s (m * (2 : ℚ) ^ e) (roundInt mode 0 s m e).1 := by
  intro lo M h0 h1 up down
  have whole : (m * (2 : ℚ) ^ e / 2 ^ (0 : ℤ)) = m * (2 : ℚ) ^ e := by rw [zpow_zero, div_one]
  obtain ⟨hlo, hd⟩ := eq_loSig (m := m) (lo := lo) (e := e) (q := 0) (by rw [whole]; linarith) (by rw [whole]; linarith)
  rw [whole] at hd
  rw [hd] at up down
  rw [roundInt_eq, eq_roundedSig hm hlo up down]
  rfl

/-- The result is inexact exactly if it is not the value. -/
theorem roundInt_inexact_iff (mode r : Nat) (s : Bool) (m : Nat) (e : ℤ) :
    (roundInt mode r s m e).2 = true ↔ ((roundInt mode r s m e).1 : ℚ) ≠ (if s then -1 else 1) * m * (2 : ℚ) ^ e := by
  have split := loSig_add_discarded m e 0
  have lt := discarded_lt_one m e 0
  have nonneg := discarded_nonneg m e 0
  have zero := discarded_eq_zero_iff m e 0
  rw [zpow_zero, div_one] at split
  rw [roundInt_eq, bne_iff_ne, ne_eq, ne_eq, not_iff_not, mul_assoc, ← split, ← zero]
  have cancel (y : Nat) (x : ℚ) : ((sgnInt s y : ℤ) : ℚ) = (if s then -1 else 1) * x ↔ (y : ℚ) = x := by cases s <;> simp [sgnInt]
  rw [cancel]
  by_cases exact : discarded m e 0 = 0
  · have : roundedSig mode r s m e 0 = loSig m e 0 := by rw [roundedSig, zero.mp exact]; rfl
    simp [this, exact]
  · refine iff_of_false exact fun h => ?_
    have pos : 0 < discarded m e 0 := lt_of_le_of_ne nonneg (Ne.symm exact)
    have above : loSig m e 0 < roundedSig mode r s m e 0 := by exact_mod_cast (by linarith : (loSig m e 0 : ℚ) < roundedSig mode r s m e 0)
    have below : roundedSig mode r s m e 0 < loSig m e 0 + 1 := by
      exact_mod_cast (by linarith : (roundedSig mode r s m e 0 : ℚ) < loSig m e 0 + 1)
    omega

/-! ### Conversions to integer types, R66 -/

/-- The value of a saturated integer. -/
theorem intOf_satTo {et : Nat} (small : et < 7) (y : ℤ) : IntOf et (SatTo et y) = satW (et % 2 == 0) (8 * etSize et) y := by
  have pos := etSize_pos_of_int small
  have half : 2 ^ (8 * etSize et) = 2 * 2 ^ (8 * etSize et - 1) := by rw [← pow_succ', Nat.sub_add_cancel pos]
  have one : 1 ≤ 2 ^ (8 * etSize et - 1) := Nat.one_le_two_pow
  rw [← satE_eq_satTo small, satE, wrapN, IntOf, ← BitVec.toNat_ofInt, BitVec.ofNat_toNat, BitVec.setWidth_eq]
  by_cases even : et % 2 = 0
  · rw [if_pos even, satW, if_pos (by simpa using even), BitVec.toInt_ofInt, satS]
    apply Int.bmod_eq_of_le <;> omega
  · rw [if_neg even, satW, if_neg (by simpa using even), BitVec.toNat_ofInt, satN, Int.toNat_of_nonneg (Int.emod_nonneg _ (by positivity))]
    apply Int.emod_eq_of_lt <;> omega

/-- R66: the conversion of a value to an integer type, and the flags RNX (32) and RNV (4) that it raises. -/
def IntConversion (mode et : Nat) (v : Fv) (res : Nat × Word) : Prop :=
  (v = .nan → res = (0, 4)) ∧ (∀ t, v = .inf t → res = (SatTo et (if t then -(2 ^ 70) else 2 ^ 70), 4)) ∧
  ∀ q, RealOf v = some q → ∃ y, IntRounding mode (signFv v) ((if signFv v then -1 else 1) * q) y ∧
    res = (SatTo et y, if IntOf et (SatTo et y) ≠ y then 4 else if (y : ℚ) ≠ q then 32 else 0)

/-- A conversion looks at the real number and the sign of a finite value alone. -/
theorem IntConversion.congr {mode et : Nat} {u v : Fv} {res : Nat × Word} {q : ℚ} (hv : RealOf v = some q) (hu : RealOf u = some q)
    (hs : signFv u = signFv v) (h : IntConversion mode et v res) : IntConversion mode et u res := by
  obtain ⟨-, -, finite⟩ := h
  refine ⟨fun e => ?_, fun t e => ?_, fun p hp => ?_⟩
  · rw [e] at hu; cases hu
  · rw [e] at hu; cases hu
  · rw [hs]
    exact finite p (by rw [hv, ← hu, hp])

/-- What floatToInt gives as bits of the bank flags. -/
def intFlags (f : Flags) : Word := bflIf (f &&& flNV != 0) bflRNV ||| bflIf (f &&& flNX != 0) bflRNX

theorem floatToInt_converts {mode et : Nat} (hm : mode ≤ 5) (small : et < 7) (v : Fv) :
    let r := floatToInt mode 0 (et % 2 == 0) (8 * etSize et) v
    IntConversion mode et v (wrapN r.1 (8 * etSize et), intFlags r.2) := by
  have sat (y : ℤ) : wrapN (satW (et % 2 == 0) (8 * etSize et) y) (8 * etSize et) = SatTo et y := satE_eq_satTo small y
  cases v with
  | nan => exact ⟨fun _ => by simp [floatToInt, wrapN]; decide, nofun, nofun⟩
  | inf s =>
    refine ⟨nofun, fun t ht => ?_, nofun⟩
    cases ht
    exact Prod.ext (sat _) (show intFlags flNV = 4 by decide)
  | num s m e =>
    refine ⟨nofun, nofun, fun q hq => ?_⟩
    cases hq
    have magnitude : (if s then -1 else 1 : ℚ) * ((if s then -1 else 1) * m * (2 : ℚ) ^ e) = m * (2 : ℚ) ^ e := by cases s <;> simp
    refine ⟨(roundInt mode 0 s m e).1, ?_, ?_⟩
    · rw [signFv, magnitude]
      exact roundInt_rounds hm s m e
    · refine Prod.ext (sat _) ?_
      simp only [floatToInt, ← roundInt_inexact_iff, intOf_satTo small]
      split
      · decide
      · cases (roundInt mode 0 s m e).2 <;> decide

/-! ### Bits of the bank flags, R210 -/

theorem flags_nx (f : Flags) : (f &&& flNX != 0) = f.getLsbD 0 := by revert f; decide
theorem flags_uf (f : Flags) : (f &&& flUF != 0) = f.getLsbD 1 := by revert f; decide
theorem flags_of (f : Flags) : (f &&& flOF != 0) = f.getLsbD 2 := by revert f; decide

/-! ### The conversions of mxread and mxwrite -/

section
variable (m : MWord)

/-- R214: the value of an int64 entry. -/
theorem bankValue_int (e : Word) (h : m.sk = true) : (bankValue m e).2 = false ∧
    RealOf (bankValue m e).1 = some (e.toInt * (2 : ℚ) ^ (-((m.qf.toNat + m.shr.toNat : Nat) : ℤ))) := by
  have sgn : sgnInt (e.toInt < 0) e.toInt.natAbs = e.toInt := by
    unfold sgnInt
    split
    next neg => rw [decide_eq_true_eq] at neg; omega
    next nonneg => rw [decide_eq_true_eq] at nonneg; omega
  rw [bankValue, h, if_pos rfl]
  refine ⟨rfl, ?_⟩
  dsimp only
  rw [realOf_num, sgn]
  congr 3
  push_cast
  ring

/-- R214: the value of a binary64 entry. -/
theorem bankValue_float (e : Word) (h : m.sk = false) : let r := readF f64 false e.toNat
    (bankValue m e).2 = r.2 ∧ signFv (bankValue m e).1 = signFv r.1 ∧ (RealOf r.1 = none → (bankValue m e).1 = r.1) ∧
    ∀ q, RealOf r.1 = some q → RealOf (bankValue m e).1 = some (q * (2 : ℚ) ^ (-(m.shr.toNat : ℤ))) := by
  rw [bankValue, h, if_neg Bool.false_ne_true]
  generalize readF f64 false e.toNat = r
  obtain ⟨v, sn⟩ := r
  cases v with
  | nan => exact ⟨rfl, rfl, fun _ => rfl, nofun⟩
  | inf t => exact ⟨rfl, rfl, fun _ => rfl, nofun⟩
  | num s n x =>
    refine ⟨rfl, rfl, nofun, fun q hq => ?_⟩
    cases hq
    dsimp only
    rw [RealOf, sub_eq_add_neg, zpow_add₀ (by norm_num), mul_assoc]
    ring_nf

theorem bankOut_float (v : Fv) (sn : Bool) (h : 7 ≤ m.dt.toNat) : let r := roundFv (fmtOf m.dt.toNat) m.rmf.toNat 0 false v
    bankOut m (v, sn) = (r.1, (if r.2.getLsbD 0 then 32 else 0) ||| (if r.2.getLsbD 1 then 16 else 0) |||
      (if r.2.getLsbD 2 then 8 else 0) ||| (if sn then 4 else 0)) := by
  rw [bankOut]
  dsimp only
  rw [if_pos h, flags_nx, flags_uf, flags_of, BitVec.or_assoc (bflIf _ bflRNX), BitVec.or_comm (bflIf _ bflROF), ← BitVec.or_assoc (bflIf _ bflRNX)]
  rfl

theorem bankOut_int (v : Fv) (sn : Bool) (hm : m.rmf.toNat ≤ 4) (h : m.dt.toNat ≤ 6) :
    IntConversion m.rmf.toNat m.dt.toNat v (bankOut m (v, sn)) := by
  rw [bankOut]
  dsimp only
  rw [if_neg (by omega)]
  exact floatToInt_converts (by omega) (by omega) v

/-- The exact value of an element, and whether it is a signalling NaN. -/
def elementValue (dt raw : Nat) : Fv × Bool := if 7 ≤ dt then readF (fmtOf dt) false raw else (ofIntFv (IntOf dt raw), false)

theorem elementValue_eq {dt raw : Nat} (fits : raw < 2 ^ (8 * etSize dt)) :
    (if dt ≥ 7 then readF (fmtOf dt) false raw else (ofIntFv (etInt' dt raw), false)) = elementValue dt raw := by
  rw [elementValue]
  split
  · rfl
  · rw [etInt'_eq_intOf (by omega) fits]

theorem bankIn_float {raw : Nat} (fits : raw < 2 ^ (8 * etSize m.dt.toNat)) (h : m.sk = false) : let v := elementValue m.dt.toNat raw
    let r := roundFv f64 m.rmf.toNat 0 false v.1
    bankIn m raw = (BitVec.ofNat 64 r.1, (if r.2.getLsbD 0 then 32 else 0) ||| (if v.2 then 4 else 0)) := by
  rw [bankIn]
  dsimp only
  rw [elementValue_eq fits, h, flags_nx]
  rfl

/-- A value times 2^k. -/
def Fv.scaled (k : Nat) : Fv → Fv
  | .num s n e => .num s n (e + k)
  | y => y

theorem realOf_scaled (k : Nat) {v : Fv} {q : ℚ} (h : RealOf v = some q) : RealOf (v.scaled k) = some (q * 2 ^ k) := by
  obtain ⟨s, n, e, rfl, rfl⟩ := realOf_eq_num h
  rw [Fv.scaled, RealOf, zpow_add₀ (by norm_num), zpow_natCast, mul_assoc, mul_assoc, mul_assoc]

theorem signFv_scaled (k : Nat) (v : Fv) : signFv (v.scaled k) = signFv v := by cases v <;> rfl

theorem toNat_toWord (x : ℤ) : (toWord x).toNat = wrapN x 64 := BitVec.toNat_ofInt x

theorem bankIn_scaled {raw : Nat} (fits : raw < 2 ^ (8 * etSize m.dt.toNat)) (hm : m.rmf.toNat ≤ 4) (h : m.sk = true) :
    IntConversion m.rmf.toNat 6 ((elementValue m.dt.toNat raw).1.scaled m.qf.toNat) ((bankIn m raw).1.toNat, (bankIn m raw).2) := by
  have hin : ((bankIn m raw).1.toNat, (bankIn m raw).2) = (let r := floatToInt m.rmf.toNat 0 true 64 ((elementValue m.dt.toNat raw).1.scaled m.qf.toNat)
      (wrapN r.1 64, intFlags r.2)) := by
    rw [bankIn]
    dsimp only
    rw [elementValue_eq fits, h, if_neg (by decide)]
    dsimp only
    rw [toNat_toWord]
    cases (elementValue m.dt.toNat raw).1 <;> rfl
  rw [hin]
  exact floatToInt_converts (et := 6) (by omega) (by omega) _

/-- R215: the conversion to an int64 entry, for every form `u` of the element's value with its fraction bits. -/
theorem bankIn_int {raw : Nat} (fits : raw < 2 ^ (8 * etSize m.dt.toNat)) (hm : m.rmf.toNat ≤ 4) (h : m.sk = true) {u : Fv}
    (sign : signFv u = signFv (elementValue m.dt.toNat raw).1)
    (infinite : RealOf (elementValue m.dt.toNat raw).1 = none → u = (elementValue m.dt.toNat raw).1)
    (finite : ∀ q, RealOf (elementValue m.dt.toNat raw).1 = some q → RealOf u = some (q * 2 ^ m.qf.toNat)) :
    IntConversion m.rmf.toNat 6 u ((bankIn m raw).1.toNat, (bankIn m raw).2) := by
  have conv := bankIn_scaled m fits hm h
  revert sign infinite finite conv
  generalize (elementValue m.dt.toNat raw).1 = v
  intro sign infinite finite conv
  cases hv : RealOf v with
  | none =>
    have same : v.scaled m.qf.toNat = v := by
      cases v with
      | num => cases hv
      | nan => rfl
      | inf => rfl
    rwa [infinite hv, ← same]
  | some q => exact conv.congr (realOf_scaled _ hv) (finite q hv) (sign.trans (signFv_scaled ..).symm)

end

/-- R211, R214, R215: each conversion by the value that it reads and what a rounding of it raises. -/
theorem bankConversionsFollowR214AndR215 : BankConversionsFollowR214AndR215 := by
  intro m hm hdt dt sign toInt
  exact ⟨bankValue_int m, bankValue_float m, fun v sn => ⟨bankOut_float m v sn, bankOut_int m v sn hm⟩,
    fun raw fits => ⟨bankIn_float m fits, fun hk u => bankIn_int m fits hm hk⟩⟩

end Sys2Proof.Machine
end

section
/-!
SUPPORT. The array pipe, mxswap and the turns of the bank pipe (spec/09 R196, R197, R199, spec/10 R209, R216 to R218).
-/

namespace Sys2Proof.Machine

/-! ### Tables -/

/-- A table without the entries of some keys. -/
theorem Tab.get_filter {α : Type} (d : α) (p : Nat → Bool) (a : Nat) : ∀ t : Tab α, Tab.get d (t.filter fun e => p e.1) a = if p a then Tab.get d t a else d
  | [] => (ite_self d).symm
  | (b, v) :: t => by
    have tail := Tab.get_filter d p a t
    by_cases hb : b = a
    · subst hb
      cases hp : p b
      · rw [List.filter_cons_of_neg (by simp [hp]), tail, hp, if_neg Bool.false_ne_true, if_neg Bool.false_ne_true]
      · rw [List.filter_cons_of_pos (by simp [hp]), Tab.get, if_pos rfl, if_pos rfl, Tab.get, if_pos rfl]
    · rw [Tab.get, if_neg hb, ← tail]
      cases hp : p b
      · rw [List.filter_cons_of_neg (by simp [hp])]
      · rw [List.filter_cons_of_pos (by simp [hp]), Tab.get, if_neg hb]

/-- A bank after entries `a` to `a + n - 1` have been set in turn: `f` gives the new entry and the flags that it raises from the old one. -/
def Bank.update (b : Bank) (a n : Nat) (f : Nat → Word → Word × Word) : Bank :=
  (List.range n).foldl (fun b j => { b with ent := Tab.set 0 b.ent (a + j) (f j (Tab.get 0 b.ent (a + j))).1
                                            bfl := b.bfl ||| (f j (Tab.get 0 b.ent (a + j))).2 }) b

theorem Bank.update_succ (b : Bank) (a n : Nat) (f : Nat → Word → Word × Word) : b.update a (n + 1) f =
    { ent := Tab.set 0 (b.update a n f).ent (a + n) (f n (Tab.get 0 (b.update a n f).ent (a + n))).1
      bfl := (b.update a n f).bfl ||| (f n (Tab.get 0 (b.update a n f).ent (a + n))).2 } := by
  rw [Bank.update, List.range_succ, List.foldl_append]
  rfl

theorem Bank.get_update (b : Bank) (a : Nat) (f : Nat → Word → Word × Word) (i : Nat) : ∀ n, Tab.get 0 (b.update a n f).ent i =
    if a ≤ i ∧ i < a + n then (f (i - a) (Tab.get 0 b.ent i)).1 else Tab.get 0 b.ent i
  | 0 => (if_neg (by omega)).symm
  | n + 1 => by
    rw [Bank.update_succ, Tab.get_set, Bank.get_update b a f i n, Bank.get_update b a f (a + n) n, if_neg (by omega : ¬ (a ≤ a + n ∧ a + n < a + n))]
    by_cases here : i = a + n
    · subst here
      rw [if_pos rfl, if_pos (by omega), Nat.add_sub_cancel_left]
    · rw [if_neg here]
      exact if_congr (by omega) rfl rfl

theorem Bank.bfl_update (b : Bank) (a : Nat) (f : Nat → Word → Word × Word) : ∀ n, (b.update a n f).bfl =
    (List.range n).foldl (fun w e => w ||| (f e (Tab.get 0 b.ent (a + e))).2) b.bfl
  | 0 => rfl
  | n + 1 => by
    rw [Bank.update_succ, List.range_succ, List.foldl_append, ← Bank.bfl_update b a f n, Bank.get_update b a f (a + n) n,
      if_neg (by omega : ¬ (a ≤ a + n ∧ a + n < a + n))]
    rfl

/-! ### The array pipe -/

section
variable {s : State} {c : Nat} {older younger : List MxOp} {o : MxOp} {rest : List Turn} {k : StrandIx} {j : Nat} {i : Instr}

theorem exec_arrayCycle (h : CoreTurns s c k j .arrayCycle rest) : exec .arrayCycle s = .next (arrayCycle c (Passed s rest)) := turnEvent_of_turns _ h
theorem exec_bankExchange (h : CoreTurns s c k j .bankExchange rest) : exec .bankExchange s = .next (bankExchange c (Passed s rest)) := turnEvent_of_turns _ h
theorem exec_bankPipeCycle (h : CoreTurns s c k j .bankPipeCycle rest) : exec .bankPipeCycle s = .next (bankPipe c (Passed s rest)) := turnEvent_of_turns _ h

/-- An event that changes its core twice. -/
theorem unitEvent_of_mapCore_mapCore {f g : Core → Core} (h : exec i s = .next (((Passed s rest).mapCore c f).mapCore c g)) :
    UnitEvent i s c rest (g (f (s.core c))) :=
  ⟨_, h, (State.core_mapCore_self _ c g).trans (congrArg g (State.core_mapCore_self _ c f)),
    fun _ he => (State.core_mapCore_ne _ _ he).trans (State.core_mapCore_ne _ _ he)⟩

/-- No stream is left to complete. -/
theorem ageStreams_of_running {x : Core} (h : ∀ p ∈ x.mxq, (isStream p.img && p.cycled) = false) : ageStreams x = x := by
  have same : x.mxq.map (fun o => if isStream o.img && o.cycled then { o with tail := o.tail + 1 } else o) = x.mxq :=
    (List.map_congr_left fun p hp => if_neg (Bool.eq_false_iff.mp (h p hp))).trans (List.map_id _)
  rw [ageStreams, same, List.filter_eq_self.mpr fun p hp => by rw [h p hp]; rfl]

variable (ha : (s.core c).alive = true) (hq : (s.core c).mxq = older ++ o :: younger)
include ha hq

section
variable (older_rest : ∀ p ∈ older, isStream p.img = false) (h : isStream o.img = true)
  (running : ∀ p ∈ (s.core c).mxq, (isStream p.img && p.cycled) = false)
include older_rest h running

omit ha in
theorem firstMx_running : firstMx (fun m => isStream m.img && !m.cycled) ((s.mapCore c ageStreams).core c).mxq = some (older, o) := by
  have not_cycled := running o (by rw [hq]; exact List.mem_append_right _ (List.mem_cons_self ..))
  rw [h, Bool.true_and] at not_cycled
  rw [State.core_mapCore_self, ageStreams_of_running running, hq]
  exact firstMx_append (fun p hp => by rw [older_rest p hp]; rfl) (by rw [h, not_cycled]; rfl)

theorem arrayCycle_reads {v : State} {p : MxOp} (hr : o.read = false) (read : readGrans (s.mapCore c ageStreams) c o = .ok (v, p)) :
    arrayCycle c s = v.mapCore c fun x => setMx x p := by
  simp only [arrayCycle, ha, firstMx_running hq older_rest h running, hr, read, Bool.not_true, Bool.not_false, Bool.false_eq_true, if_false, if_true]

theorem arrayCycle_waits (hr : o.read = true) (hb : ∃ p ∈ older, (isFlip p.img || isSwap p.img) = true) : arrayCycle c s = s.mapCore c ageStreams := by
  simp only [arrayCycle, ha, firstMx_running hq older_rest h running, hr, List.any_eq_true.mpr hb, Bool.not_true, Bool.false_eq_true, if_false, if_true]

theorem arrayCycle_updates (hr : o.read = true) (hb : ∀ p ∈ older, (isFlip p.img || isSwap p.img) = false) : arrayCycle c s =
    (s.mapCore c ageStreams).mapCore c fun x => setMx { x with work := cycleBank x (mword o.img) o } { o with prog := o.prog + 1 } := by
  simp only [arrayCycle, ha, firstMx_running hq older_rest h running, hr, List.any_eq_false.mpr fun p hp => Bool.eq_false_iff.mp (hb p hp),
    Bool.not_true, Bool.false_eq_true, if_false]

end

/-! ### mxswap -/

section
variable (older_rest : ∀ p ∈ older, isSwap p.img = false) (h : isSwap o.img = true)
include older_rest h

theorem bankExchange_exchanges (hb : ∀ p ∈ older, (isStream p.img || isBank p.img) = false) :
    bankExchange c s = s.mapCore c fun x => dropMx { x with work := x.vis, vis := x.work } o.ord := by
  simp only [bankExchange, ha, hq, firstMx_append older_rest h, List.any_eq_false.mpr fun p hp => Bool.eq_false_iff.mp (hb p hp), Bool.not_true,
    Bool.false_eq_true, if_false]

theorem bankExchange_waits (hb : ∃ p ∈ older, (isStream p.img || isBank p.img) = true) : bankExchange c s = s := by
  simp only [bankExchange, ha, hq, firstMx_append older_rest h, List.any_eq_true.mpr hb, Bool.not_true, Bool.false_eq_true, if_false, if_true]

end

/-! ### The bank pipe -/

/-- The queue after a data cycle of the bank pipe: a clear completes with its last, another word counts it. -/
def Core.countCycle (o : MxOp) (x : Core) : Core :=
  { x with mxq := if isClear o.img && decide (o.prog + 1 = o.total) then Without x o else Changed x o { o with prog := o.prog + 1 } }

section
variable (older_rest : ∀ p ∈ older, isBank p.img = false) (h : isBank o.img = true)
include older_rest h

theorem bankPipe_of_swap (hs : isSwap o.img = true) : bankPipe c s = s := by
  simp only [bankPipe, ha, hq, firstMx_append older_rest h, hs, Bool.not_true, Bool.false_eq_true, if_false, if_true]

variable (hs : isSwap o.img = false)
include hs

theorem bankPipe_ages (done : o.total ≤ o.prog) (ht : o.tail < 3) : bankPipe c s = s.mapCore c fun x => setMx x { o with tail := o.tail + 1 } := by
  simp only [bankPipe, ha, hq, firstMx_append older_rest h, hs, MxOp.cycled, ge_iff_le, done, decide_true, Bool.not_true, Bool.false_eq_true, if_false,
    if_true]
  rw [if_pos (by omega)]

theorem bankPipe_completes (done : o.total ≤ o.prog) (ht : 3 ≤ o.tail) : bankPipe c s = s.mapCore c fun x => dropMx x o.ord := by
  simp only [bankPipe, ha, hq, firstMx_append older_rest h, hs, MxOp.cycled, ge_iff_le, done, decide_true, Bool.not_true, Bool.false_eq_true, if_false,
    if_true]
  rw [if_neg (by omega)]

theorem bankPipe_cycles {f : Core → Core} (more : o.prog < o.total) (cycle : bankCycle s c o = .ok (s.mapCore c f)) :
    bankPipe c s = (s.mapCore c f).mapCore c (Core.countCycle o) := by
  have not_cycled : o.cycled = false := decide_eq_false (Nat.not_le.mpr more)
  simp only [bankPipe, ha, hq, firstMx_append older_rest h, hs, not_cycled, cycle, Bool.not_true, Bool.false_eq_true, if_false]
  by_cases last : (isClear o.img && decide (o.prog + 1 = o.total)) = true
  · rw [if_pos last]
    exact State.mapCore_congr (by rw [Core.countCycle, if_pos last]; rfl)
  · rw [if_neg last]
    exact State.mapCore_congr (by rw [Core.countCycle, if_neg last]; rfl)

end
end

section
variable {s : State} {c : Nat} {older younger : List MxOp} {o : MxOp} {rest : List Turn} {k : StrandIx} {j : Nat} {f : Core → Core}

/-- A data cycle of the word of the bank pipe, whose effect on the core is `f`. -/
theorem unitEvent_of_bankCycle (turn : CoreTurns s c k j .bankPipeCycle rest) (ha : (s.core c).alive = true) (hq : (s.core c).mxq = older ++ o :: younger)
    (older_rest : ∀ p ∈ older, isBank p.img = false) (h : isBank o.img = true) (hs : isSwap o.img = false) (more : o.prog < o.total)
    (cycle : bankCycle (Passed s rest) c o = .ok ((Passed s rest).mapCore c f)) :
    UnitEvent .bankPipeCycle s c rest ((f (s.core c)).countCycle o) :=
  unitEvent_of_mapCore_mapCore ((exec_bankPipeCycle turn).trans (congrArg _ (bankPipe_cycles (s := Passed s rest) ha hq older_rest h hs more cycle)))

theorem unitEvent_of_clear (turn : CoreTurns s c k j .bankPipeCycle rest) (ha : (s.core c).alive = true) (hq : (s.core c).mxq = older ++ o :: younger)
    (older_rest : ∀ p ∈ older, isBank p.img = false) (h : isClear o.img = true) (more : o.prog < o.total) :
    UnitEvent .bankPipeCycle s c rest { s.core c with
      vis := clearCycle o.img (s.core c).vis o.prog o.total
      mxq := if o.prog + 1 = o.total then Without (s.core c) o else Changed (s.core c) o { o with prog := o.prog + 1 } } := by
  obtain ⟨bank, not_swap, cycle⟩ : isBank o.img = true ∧ isSwap o.img = false ∧ bankCycle (Passed s rest) c o =
      .ok ((Passed s rest).mapCore c fun x => { x with vis := clearCycle o.img x.vis o.prog o.total }) := by
    rw [bankCycle]
    revert h
    unfold isClear
    split <;> intro h
    iterate 4 next e => rw [e]; exact ⟨rfl, rfl, rfl⟩
    cases h
  have := unitEvent_of_bankCycle turn ha hq older_rest bank not_swap more cycle
  simp only [Core.countCycle, h, Bool.true_and, decide_eq_true_eq] at this
  exact this

end

theorem get_clearCycle_ent {i : Instr} {m : MWord} (b : Bank) (j total first : Nat) (hi : (i = .mxclear m ∧ first = m.acc.toNat) ∨ ((i = .mxclearAll m ∨ i = .mxclearAllFlags m) ∧ first = 0))
    (a : Nat) : Tab.get 0 (clearCycle i b j total).ent a = if first + 256 * j ≤ a ∧ a < first + 256 * j + 256 then 0 else Tab.get 0 b.ent a := by
  have ent : (clearCycle i b j total).ent = b.ent.filter fun e => !(decide (first + 256 * j ≤ e.1) && decide (e.1 < first + 256 * j + 256)) := by
    rcases hi with ⟨rfl, rfl⟩ | ⟨rfl | rfl, rfl⟩ <;> rfl
  rw [ent, Tab.get_filter 0 (fun e => !(decide (first + 256 * j ≤ e) && decide (e < first + 256 * j + 256)))]
  by_cases h : first + 256 * j ≤ a ∧ a < first + 256 * j + 256
  · rw [if_pos h, if_neg (by simpa using h)]
  · rw [if_neg h, if_pos (by simp; omega)]

theorem bfl_clearCycle_all {i : Instr} {m : MWord} (b : Bank) (j total : Nat) (hi : i = .mxclearAll m ∨ i = .mxclearAllFlags m) :
    (clearCycle i b j total).bfl = if i = .mxclearAllFlags m ∧ j + 1 = total then 0 else b.bfl := by
  rcases hi with rfl | rfl
  · simp [clearCycle]
  · simp [clearCycle]

/-- An array cycle updates 32 entries of the working bank. -/
theorem cycleBank_eq (x : Core) (m : MWord) (o : MxOp) :
    cycleBank x m o = x.work.update (m.acc.toNat + 32 * o.prog) 32 fun e old => streamEntry x m o (32 * o.prog + e) old := by
  simp only [cycleBank, Bank.update, Nat.add_assoc]

/-- R197, R199, R216 to R218: each turn by the first word that its pipe acts on. -/
theorem arrayAndBankPipesMakeTheirCycles : ArrayAndBankPipesMakeTheirCycles := by
  intro s rest c k j older younger o x ha hq mode flip swap stream queued
  have not_bank {p : MxOp} (h : queued p) : isBank p.img = false := Bool.eq_false_iff.mpr fun hb => isBank_iff.mp hb h
  have busy (p : MxOp) : (isStream p.img || isBank p.img) = true ↔ ¬ queued p ∨ stream p := by
    rw [Bool.or_eq_true, isStream_iff, isBank_iff, or_comm]
  refine ⟨fun m turn hm more hrun ho => ?_, fun turn hs ho => ?_, fun turn hb ho => ?_⟩
  · have word : mword o.img = m := by rw [hm]; rfl
    have is_stream : isStream o.img = true := isStream_iff.mpr ⟨m, hm⟩
    have older_rest : ∀ p ∈ older, isStream p.img = false := fun p hp => Bool.eq_false_iff.mpr (mt isStream_iff.mp (ho p hp))
    have running : ∀ p ∈ x.mxq, (isStream p.img && p.cycled) = false := fun p hp => by
      rw [Bool.and_eq_false_imp, isStream_iff]
      exact fun h => decide_eq_false (Nat.not_le.mpr (hrun p hp h))
    have held (p : MxOp) : (isFlip p.img || isSwap p.img) = true ↔ flip p ∨ swap p := by rw [Bool.or_eq_true, isFlip_iff, isSwap_iff]
    have same : ageStreams x = x := ageStreams_of_running running
    refine ⟨fun hr => ?_, fun hr hold => ?_, fun hr free => ?_⟩
    · refine readsPart_of_readGrans mode (h := ageStreams) (g := fun p x => setMx x p) rfl rfl (fun v p read => ?_) fun gs => ?_
      · exact (exec_arrayCycle turn).trans (congrArg _ (arrayCycle_reads (s := Passed s rest) ha hq older_rest is_stream running hr read))
      · rw [same]
        rfl
    · have := unitEvent_of_mapCore ((exec_arrayCycle turn).trans (congrArg _ (arrayCycle_waits ha hq older_rest is_stream running hr (by simpa only [held] using hold))))
      rwa [same] at this
    · have := unitEvent_of_mapCore_mapCore ((exec_arrayCycle turn).trans (congrArg _ (arrayCycle_updates (s := Passed s rest) ha hq older_rest is_stream running hr
        fun p hp => Bool.eq_false_iff.mpr (mt (held p).mp (not_or.mpr (free p hp))))))
      rw [same, word] at this
      refine ⟨_, this, fun e he => ?_, fun a out => ?_⟩
      · rw [cycleBank_eq, Bank.get_update, if_pos (by omega), Nat.add_sub_cancel_left]
      · rw [cycleBank_eq, Bank.get_update, if_neg (by omega)]
  · have is_swap : isSwap o.img = true := isSwap_iff.mpr hs
    have older_rest : ∀ p ∈ older, isSwap p.img = false := fun p hp => Bool.eq_false_iff.mpr (mt isSwap_iff.mp (ho p hp))
    refine ⟨fun free => ?_, fun ⟨p, hp, h⟩ => ?_⟩
    · refine unitEvent_of_mapCore ((exec_bankExchange turn).trans (congrArg _ (bankExchange_exchanges ha hq older_rest is_swap fun p hp => ?_)))
      obtain ⟨in_pipe, not_stream⟩ := free p hp
      exact Bool.eq_false_iff.mpr (mt (busy p).mp (not_or.mpr ⟨not_not.mpr in_pipe, not_stream⟩))
    · exact unitEvent_of_idle ((exec_bankExchange turn).trans (congrArg _ (bankExchange_waits ha hq older_rest is_swap ⟨p, hp, (busy p).mpr h⟩)))
  · have is_bank : isBank o.img = true := isBank_iff.mpr hb
    have older_rest : ∀ p ∈ older, isBank p.img = false := fun p hp => not_bank (ho p hp)
    have no_swap (h : ¬ swap o) : isSwap o.img = false := Bool.eq_false_iff.mpr (mt isSwap_iff.mp h)
    refine ⟨fun hs => ?_, fun hs done ht => ?_, fun hs done ht => ?_, fun m hm more => ?_, fun m hm more => ?_, fun m hm first one => ?_⟩
    · exact unitEvent_of_idle ((exec_bankPipeCycle turn).trans (congrArg _ (bankPipe_of_swap ha hq older_rest is_bank (isSwap_iff.mpr hs))))
    · exact unitEvent_of_mapCore ((exec_bankPipeCycle turn).trans (congrArg _ (bankPipe_ages ha hq older_rest is_bank (no_swap hs) done ht)))
    · exact unitEvent_of_mapCore ((exec_bankPipeCycle turn).trans (congrArg _ (bankPipe_completes ha hq older_rest is_bank (no_swap hs) done ht)))
    · refine ⟨_, unitEvent_of_clear turn ha hq older_rest (by rw [hm]; rfl) more, rfl, rfl, by rw [hm]; rfl, rfl, ?_⟩
      exact get_clearCycle_ent x.vis o.prog o.total m.acc.toNat (.inl ⟨hm, rfl⟩)
    · refine ⟨_, unitEvent_of_clear turn ha hq older_rest (by rcases hm with e | e <;> rw [e] <;> rfl) more, rfl, rfl, ?_, rfl, fun a => ?_⟩
      · exact bfl_clearCycle_all x.vis o.prog o.total hm
      · simpa using get_clearCycle_ent x.vis o.prog o.total 0 (.inr ⟨hm, rfl⟩) a
    · have := unitEvent_of_clear turn ha hq older_rest (by rw [hm]; rfl) (by omega)
      rw [if_pos (by omega)] at this
      have cleared : clearCycle o.img x.vis o.prog o.total = { x.vis with bfl := 0 } := by rw [hm, first, one]; rfl
      rwa [cleared] at this

end Sys2Proof.Machine
end

section
/-!
SUPPORT. The data cycles of the bank pipe (spec/10 R211, R214, R215, R218, R219): the bytes that mxread and mxreadFlags write, and the entries and flags
that mxwrite and mxwriteFlags set.
-/

namespace Sys2Proof.Machine

/-! ### Writes of a list of byte runs -/

/-- What landing some runs of bytes, none of which meets another, leaves in the scratchpad. -/
structure RunsLanded (x y : Core) (ws : List (Nat × List Byte)) : Prop where
  landed : ∀ w ∈ ws, ∀ b < w.2.length, Tab.get 0 y.scr (w.1 + b) = w.2.getD b 0 ∧ Tab.get false y.valid ((w.1 + b) / 16) = true
  others : ∀ a, (∀ w ∈ ws, a < w.1 ∨ w.1 + w.2.length ≤ a) → Tab.get 0 y.scr a = Tab.get 0 x.scr a

/-- A run of bytes lies before another. -/
def Before (u w : Nat × List Byte) : Prop := u.1 + u.2.length ≤ w.1

theorem get_setValid (g : Nat) : ∀ (gs : List Nat) (v : Tab Bool), Tab.get false (setValid v gs) g = (decide (g ∈ gs) || Tab.get false v g)
  | [], v => rfl
  | h :: gs, v => by
    rw [setValid, List.foldl_cons, ← setValid, get_setValid g gs, Tab.get_set]
    by_cases e : g = h <;> simp [e]

theorem Core.scrWrite_valid (x : Core) (a : Nat) (bs : List Byte) (g : Nat) :
    Tab.get false (x.scrWrite a bs).valid g = (decide (∃ j < bs.length, (a + j) / 16 = g) || Tab.get false x.valid g) := by
  rw [Core.scrWrite]
  split
  next h => rw [List.isEmpty_iff.mp h]; simp
  next => simp only [get_setValid, mem_granules_iff]

theorem foldl_scrWrite_valid (g : Nat) : ∀ (ws : List (Nat × List Byte)) (x : Core), Tab.get false x.valid g = true →
    Tab.get false (ws.foldl (fun x w => x.scrWrite w.1 w.2) x).valid g = true
  | [], _, h => h
  | w :: ws, x, h => foldl_scrWrite_valid g ws _ (by rw [Core.scrWrite_valid, h, Bool.or_true])

theorem runsLanded : ∀ (ws : List (Nat × List Byte)) (x : Core), ws.Pairwise Before → RunsLanded x (ws.foldl (fun x w => x.scrWrite w.1 w.2) x) ws
  | [], x, _ => ⟨nofun, fun _ _ => rfl⟩
  | w :: ws, x, apart => by
    obtain ⟨first, apart⟩ := List.pairwise_cons.mp apart
    obtain ⟨landed, others⟩ := runsLanded ws (x.scrWrite w.1 w.2) apart
    refine ⟨fun u hu b hb => ?_, fun a out => ?_⟩
    · rcases List.mem_cons.mp hu with rfl | hu
      · constructor
        · rw [List.foldl_cons, others _ fun v hv => .inl (by have := first v hv; unfold Before at this; omega), Core.scrWrite_get, if_pos (by omega),
            Nat.add_sub_cancel_left]
        · exact foldl_scrWrite_valid _ ws _ (by rw [Core.scrWrite_valid, Bool.or_eq_true, decide_eq_true_eq]; exact .inl ⟨b, hb, rfl⟩)
      · exact landed u hu b hb
    · have := out w (List.mem_cons_self ..)
      rw [List.foldl_cons, others a fun v hv => out v (List.mem_cons_of_mem _ hv), Core.scrWrite_get, if_neg (by omega)]

/-- Flags raised one by one on top of others. -/
theorem or_foldl {α : Type} (f : α → Word) : ∀ (l : List α) (w : Word), w ||| l.foldl (fun v a => v ||| f a) 0 = l.foldl (fun v a => v ||| f a) w
  | [], w => BitVec.or_zero
  | a :: l, w => by
    rw [List.foldl_cons, List.foldl_cons, show (0 : Word) ||| f a = f a from BitVec.zero_or, ← or_foldl f l (f a), ← or_foldl f l (w ||| f a),
      BitVec.or_assoc]

/-! ### The bytes of a cycle, R212 and R214 -/

theorem dt_of_elements {m : MWord} (h : m.dt.toNat ≤ 9) : m.dt ≠ 10 ∧ m.dt ≠ 11 :=
  ⟨fun e => by rw [e] at h; exact absurd h (by decide), fun e => by rw [e] at h; exact absurd h (by decide)⟩

/-- A list beside its image. -/
theorem zip_map_self {α β : Type} (f : α → β) (l : List α) : (l.map f).zip l = l.map fun a => (f a, a) := by
  have := List.zip_map' (f := f) (g := id) (l := l)
  rwa [List.map_id] at this

section
variable (m : MWord) (base : Word) (j : Nat)

theorem cycleSpans_elements (h : m.dt.toNat ≤ 9) : cycleSpans m (m.start base) j =
    (List.range 32).map fun e => (EntryAt m base (etSize m.dt.toNat) (32 * j + e), etSize m.dt.toNat) := by
  obtain ⟨h10, h11⟩ := dt_of_elements h
  rw [cycleSpans, if_neg h11]
  dsimp only
  rw [if_neg h10, MWord.pitch, bankRow, if_neg h11, if_neg h10]
  rfl

/-- Elements of one word do not meet where a row fits its pitch. -/
theorem entryAt_before {z e f : Nat} (fits : m.apitch = 0 ∨ ColsOf m * z ≤ 64 * m.apitch.toNat) (h : e < f) : EntryAt m base z e + z ≤ EntryAt m base z f := by
  have pos : 0 < ColsOf m := Nat.mul_pos (by decide) (Nat.succ_pos _)
  unfold EntryAt
  generalize hp : (if m.apitch = 0 then ColsOf m * z else 64 * m.apitch.toNat) = p
  have row : ColsOf m * z ≤ p := by
    rw [← hp]
    split
    · exact Nat.le_refl _
    · exact fits.resolve_left ‹_›
  generalize ColsOf m = n at pos row
  have step (q : Nat) : (q + 1) * z = q * z + z := Nat.succ_mul q z
  rcases Nat.lt_or_ge (e / n) (f / n) with lower | same
  · have rows : (e / n + 1) * p ≤ f / n * p := Nat.mul_le_mul_right p lower
    have cols : (e % n + 1) * z ≤ n * z := Nat.mul_le_mul_right z (Nat.mod_lt e pos)
    rw [Nat.succ_mul] at rows
    rw [step] at cols
    omega
  · have rows : e / n = f / n := Nat.le_antisymm (Nat.div_le_div_right h.le) same
    have cols : (e % n + 1) * z ≤ f % n * z := Nat.mul_le_mul_right z (by have := Nat.div_add_mod e n; have := Nat.div_add_mod f n; rw [rows] at *; omega)
    rw [step] at cols
    rw [rows]
    omega

end

/-! ### The cycles -/

section
variable (x : Core) (m : MWord) (base : Word) (j : Nat)

/-- The entries of a cycle as mxread reads them. -/
def entryValue (e : Nat) : Fv × Bool := bankValue m (Tab.get 0 x.vis.ent (m.acc.toNat + 32 * j + e))

theorem readCycle_elements (h : m.dt.toNat ≤ 9) : readCycle x m base j =
    ((List.range 32).map fun e => (EntryAt m base (etSize m.dt.toNat) (32 * j + e), leBytes (etSize m.dt.toNat) (bankOut m (entryValue x m j e)).1),
      (List.range 32).foldl (fun w e => w ||| (bankOut m (entryValue x m j e)).2) 0) := by
  obtain ⟨h10, h11⟩ := dt_of_elements h
  rw [readCycle]
  dsimp only
  rw [if_neg h11, if_neg h10, cycleSpans_elements m base j h, zip_map_self]
  simp only [List.map_map, List.foldl_map, Function.comp_def, entryValue, Nat.add_assoc]

theorem apart_elements (h : m.dt.toNat ≤ 9) (fits : m.apitch = 0 ∨ ColsOf m * etSize m.dt.toNat ≤ 64 * m.apitch.toNat) :
    (readCycle x m base j).1.Pairwise Before := by
  rw [readCycle_elements x m base j h, List.pairwise_map]
  refine List.pairwise_lt_range.imp fun {e f} lt => ?_
  rw [Before, length_leBytes]
  exact entryAt_before m base fits (by omega)

/-- The block of a cycle with DT = 10: its scale, its codes, and whether they are inexact. -/
def mxBlock : Nat × List Nat × Bool :=
  mxScale (mxfW m.mxf) (mxfF m.mxf) (mxfSigned m.mxf) m.rmf.toNat ((List.range 32).map fun e => (entryValue x m j e).1) []

/-- Where the row of a block starts. -/
def blockRow : Nat :=
  base.toNat + 16 * m.aoff.toNat + j / (ColsOf m / 32) * (if m.apitch = 0 then ColsOf m * mxfW m.mxf / 8 + ColsOf m / 32 else 64 * m.apitch.toNat)

theorem readCycle_block (h : m.dt = 10) (cols : ColsOf m % 32 = 0) : readCycle x m base j =
    ([(blockRow m base j + 4 * mxfW m.mxf * (j % (ColsOf m / 32)), leBytes (4 * mxfW m.mxf) (packBits (mxfW m.mxf) (mxBlock x m j).2.1)),
      (blockRow m base j + ColsOf m * mxfW m.mxf / 8 + j % (ColsOf m / 32), leBytes 1 (mxBlock x m j).1)],
      (if (mxBlock x m j).2.2 then 32 else 0) ||| (if (List.range 32).any fun e => (entryValue x m j e).2 then 4 else 0)) := by
  have h11 : m.dt ≠ 11 := fun e => by rw [h] at e; exact absurd e (by decide)
  have whole : 32 * (ColsOf m / 32) = ColsOf m := Nat.mul_div_cancel' (Nat.dvd_of_mod_eq_zero cols)
  have row : 32 * j / m.N = j / (ColsOf m / 32) := by
    rw [show m.N = 32 * (ColsOf m / 32) from whole.symm, Nat.mul_div_mul_left _ _ (by decide)]
  have col : 32 * j % m.N / 32 = j % (ColsOf m / 32) := by
    rw [show m.N = 32 * (ColsOf m / 32) from whole.symm, Nat.mul_mod_mul_left, Nat.mul_div_cancel_left _ (by decide)]
  have entries (e : Nat) : bankValue m (Tab.get 0 x.vis.ent (m.acc.toNat + (32 * j + e))) = entryValue x m j e := by rw [entryValue, Nat.add_assoc]
  rw [readCycle]
  dsimp only
  rw [if_neg h11, if_pos h, cycleSpans, if_neg h11]
  dsimp only
  rw [if_pos h, row, col, MWord.pitch, bankRow, if_neg h11, if_pos h]
  simp only [entries]
  rfl

theorem apart_block (h : m.dt = 10) (cols : ColsOf m % 32 = 0) : (readCycle x m base j).1.Pairwise Before := by
  have pos : 0 < ColsOf m := Nat.mul_pos (by decide) (Nat.succ_pos _)
  rw [readCycle_block x m base j h cols]
  obtain ⟨q, hq⟩ := Nat.dvd_of_mod_eq_zero cols
  generalize blockRow m base j = y
  rw [hq] at pos ⊢
  have lt : j % q < q := Nat.mod_lt j (by omega)
  have inside : (j % q + 1) * (4 * mxfW m.mxf) ≤ q * (4 * mxfW m.mxf) := Nat.mul_le_mul_right _ lt
  have elems : 32 * q * mxfW m.mxf / 8 = q * (4 * mxfW m.mxf) := by
    rw [show 32 * q * mxfW m.mxf = 8 * (q * (4 * mxfW m.mxf)) by ring, Nat.mul_div_cancel_left _ (by decide)]
  rw [Nat.succ_mul] at inside
  rw [List.pairwise_pair, Before, length_leBytes, Nat.mul_div_cancel_left _ (by decide : 0 < 32), elems, Nat.mul_comm (4 * _)]
  dsimp only
  omega

theorem readCycle_flags (h : m.dt = 11) : readCycle x m base j = ([(m.start base, w8 x.vis.bfl)], 0) := by
  rw [readCycle]
  dsimp only
  rw [if_pos h]

theorem writeCycle_elements (h : m.dt.toNat ≤ 9) : writeCycle x m base j = x.vis.update (m.acc.toNat + 32 * j) 32 fun e _ =>
    bankIn m (NumberOf (readBytes x.scr (EntryAt m base (etSize m.dt.toNat) (32 * j + e)) (etSize m.dt.toNat))) := by
  rw [writeCycle]
  dsimp only
  rw [if_neg (dt_of_elements h).2, cycleSpans_elements m base j h, zip_map_self, List.foldl_map]
  simp only [← numberOf_eq_leNat]
  rfl

theorem writeCycle_flags (h : m.dt = 11) : writeCycle x m base j =
    { x.vis with bfl := BitVec.ofNat 64 (NumberOf (readBytes x.scr (base.toNat + 16 * m.aoff.toNat) 8) % 128) } := by
  rw [writeCycle, if_pos h, numberOf_eq_leNat]
  rfl

end

/-! ### The turns -/

/-- What a cycle of mxread does to its core. -/
def Core.readOut (r : List (Nat × List Byte) × Word) (x : Core) : Core :=
  r.1.foldl (fun x w => x.scrWrite w.1 w.2) { x with vis := { x.vis with bfl := x.vis.bfl ||| r.2 } }

section
variable {s : State} {c : Nat} {older younger : List MxOp} {o : MxOp} {m : MWord} {rest : List Turn} {k : StrandIx} {j : Nat}
  (turn : CoreTurns s c k j .bankPipeCycle rest) (ha : (s.core c).alive = true) (hq : (s.core c).mxq = older ++ o :: younger)
  (older_rest : ∀ p ∈ older, isBank p.img = false) (more : o.prog < o.total)
include turn ha hq older_rest more

theorem unitEvent_of_read (h : o.img = .mxread m ∨ o.img = .mxreadFlags m) (apart : (readCycle (s.core c) m o.base o.prog).1.Pairwise Before) :
    ∃ y, UnitEvent .bankPipeCycle s c rest y ∧ y.work = (s.core c).work ∧
      y.vis = { (s.core c).vis with bfl := (s.core c).vis.bfl ||| (readCycle (s.core c) m o.base o.prog).2 } ∧
      y.mxq = Changed (s.core c) o { o with prog := o.prog + 1 } ∧ RunsLanded (s.core c) y (readCycle (s.core c) m o.base o.prog).1 := by
  obtain ⟨bank, not_swap, not_clear, cycle⟩ : isBank o.img = true ∧ isSwap o.img = false ∧ isClear o.img = false ∧ bankCycle (Passed s rest) c o =
      .ok ((Passed s rest).mapCore c (Core.readOut (readCycle (s.core c) m o.base o.prog))) := by
    rw [bankCycle]
    rcases h with e | e <;> rw [e] <;> exact ⟨rfl, rfl, rfl, rfl⟩
  refine ⟨_, unitEvent_of_bankCycle turn ha hq older_rest bank not_swap more cycle, ?_⟩
  rw [Core.countCycle, not_clear, Bool.false_and, if_neg Bool.false_ne_true, Core.readOut]
  obtain ⟨landed, others⟩ := runsLanded _ { s.core c with vis := { (s.core c).vis with
    bfl := (s.core c).vis.bfl ||| (readCycle (s.core c) m o.base o.prog).2 } } apart
  obtain ⟨v, e⟩ := foldl_scrWrite (readCycle (s.core c) m o.base o.prog).1 { s.core c with vis := { (s.core c).vis with
    bfl := (s.core c).vis.bfl ||| (readCycle (s.core c) m o.base o.prog).2 } }
  rw [e] at landed others ⊢
  exact ⟨rfl, rfl, rfl, ⟨landed, others⟩⟩

theorem unitEvent_of_write (h : o.img = .mxwrite m ∨ o.img = .mxwriteFlags m) (mode : (s.ctx c).scrmode = 0) :
    UnitEvent .bankPipeCycle s c rest { s.core c with
      vis := writeCycle (s.core c) m o.base o.prog, mxq := Changed (s.core c) o { o with prog := o.prog + 1 } } := by
  obtain ⟨bank, not_swap, not_clear, cycle⟩ : isBank o.img = true ∧ isSwap o.img = false ∧ isClear o.img = false ∧ bankCycle (Passed s rest) c o =
      .ok ((Passed s rest).mapCore c fun x => { x with vis := writeCycle x m o.base o.prog }) := by
    rw [bankCycle]
    rcases h with e | e <;> rw [e] <;> dsimp only <;> rw [mxRead_of_ignoring (s := Passed s rest) mode] <;> exact ⟨rfl, rfl, rfl, rfl⟩
  have := unitEvent_of_bankCycle turn ha hq older_rest bank not_swap more cycle
  rwa [Core.countCycle, not_clear, Bool.false_and, if_neg Bool.false_ne_true] at this

end

/-- R211, R214, R215, R218, R219: each cycle by the runs of bytes that it writes or the entries that it sets. -/
theorem bankWordsMoveTheirEntries : BankWordsMoveTheirEntries := by
  intro s rest c k j older younger o m x turn ha hq mode older_rest more z next at' val
  refine ⟨fun hi h fits => ?_, fun hi h cols => ?_, fun hi h => ?_, fun hi h => ?_, fun hi h => ?_⟩
  · obtain ⟨y, event, work, vis, mxq, landed, others⟩ := unitEvent_of_read turn ha hq older_rest more (.inl hi) (apart_elements x m o.base o.prog h fits)
    rw [readCycle_elements _ m o.base o.prog h] at vis landed others
    refine ⟨y, event, work, by rw [vis], mxq, ?_, fun e he b hb => ?_, fun a out => others a fun w hw => ?_⟩
    · rw [vis]
      exact or_foldl _ _ _
    · exact landed _ (List.mem_map_of_mem (List.mem_range.mpr he)) b (by rwa [length_leBytes])
    · obtain ⟨e, he, rfl⟩ := List.mem_map.mp hw
      rw [length_leBytes]
      exact out e (List.mem_range.mp he)
  · intro w r row fits y0 blk sc
    obtain ⟨y, event, work, vis, mxq, landed, others⟩ := unitEvent_of_read turn ha hq older_rest more (.inl hi) (apart_block x m o.base o.prog h cols)
    rw [readCycle_block _ m o.base o.prog h cols] at vis landed others
    refine ⟨y, event, work, by rw [vis], mxq, ?_, fun b hb => ?_, ?_, fun a out ne => others a fun w hw => ?_⟩
    · rw [vis, BitVec.or_assoc]
      rfl
    · exact (landed _ (List.mem_cons_self ..) b (by rwa [length_leBytes])).1
    · exact (landed _ (List.mem_cons_of_mem _ (List.mem_cons_self ..)) 0 (by rw [length_leBytes]; decide)).1
    · simp only [List.mem_cons, List.not_mem_nil, or_false] at hw
      rcases hw with rfl | rfl
      · rw [length_leBytes]
        exact out
      · rw [length_leBytes]
        show a < sc ∨ sc + 1 ≤ a
        omega
  · have alone : (readCycle x m o.base o.prog).1.Pairwise Before := by
      rw [readCycle_flags x m o.base o.prog h]
      exact List.pairwise_singleton ..
    obtain ⟨y, event, work, vis, mxq, landed, -⟩ := unitEvent_of_read turn ha hq older_rest more (.inr hi) alone
    rw [readCycle_flags _ m o.base o.prog h] at vis landed
    refine ⟨y, event, by rw [vis]; exact congrArg (Bank.mk x.vis.ent) BitVec.or_zero, work, mxq, fun b hb => ?_⟩
    have len : b < (wordBytes 8 x.vis.bfl).length := by rwa [length_wordBytes]
    rw [← getElem_wordBytes 8 x.vis.bfl b len, ← List.getD_eq_getElem _ 0 len]
    exact (landed _ (List.mem_cons_self ..) b len).1
  · have event := unitEvent_of_write turn ha hq older_rest more (.inl hi) mode
    rw [writeCycle_elements _ m o.base o.prog h] at event
    refine ⟨_, event, rfl, rfl, rfl, Bank.bfl_update .., fun e he => ?_, fun a out => ?_⟩
    · rw [Bank.get_update, if_pos (by omega), Nat.add_sub_cancel_left]
    · rw [Bank.get_update, if_neg (by omega)]
  · have event := unitEvent_of_write turn ha hq older_rest more (.inr hi) mode
    rwa [writeCycle_flags _ m o.base o.prog h] at event

end Sys2Proof.Machine
end

section

open Sys2Proof Sys2Proof.Machine

/-- Settles O36: the turns of the array pipe, of mxswap and of the bank pipe by the word they act on, the conversions by exact values, the data cycles
by the bytes and entries they write. -/
theorem arrayAndBankPipesFollowR197AndR218 : Obligations.ArrayAndBankPipesFollowR197AndR218 :=
  ⟨arrayAndBankPipesMakeTheirCycles, bankConversionsFollowR214AndR215, bankWordsMoveTheirEntries⟩

end

section
/-!
SUPPORT. The copy words with an image in the scratchpad (spec/11 R230, R234 to R236): their checks in order, and the entry of the command with its
index list and its destinations.
-/

namespace Sys2Proof.Machine

/-! ### Two changes of one core -/

theorem Tab.erase_erase {α : Type} (i : Nat) : ∀ t : Tab α, Tab.erase i (Tab.erase i t) = Tab.erase i t
  | [] => rfl
  | (j, w) :: t => by
    by_cases h : j = i
    · rw [Tab.erase, if_pos h, Tab.erase_erase i t]
    · rw [Tab.erase, if_neg h, Tab.erase, if_neg h, Tab.erase_erase i t]

theorem Tab.erase_insert {α : Type} (i : Nat) (v : α) : ∀ t : Tab α, Tab.erase i (Tab.insert i v t) = Tab.erase i t
  | [] => if_pos rfl
  | (j, w) :: t => by
    rw [Tab.insert]
    split
    · exact if_pos rfl
    · rw [Tab.erase, Tab.erase_insert i v t]
      rfl

/-- Of two writes of one key the later stays. -/
theorem Tab.set_set {α : Type} [DecidableEq α] (d : α) (t : Tab α) (i : Nat) (v w : α) : Tab.set d (Tab.set d t i v) i w = Tab.set d t i w := by
  have gone : Tab.erase i (Tab.set d t i v) = Tab.erase i t := by
    rw [Tab.set]
    split
    · exact Tab.erase_erase i t
    · rw [Tab.erase_insert, Tab.erase_erase]
  rw [Tab.set, gone]
  rfl

theorem State.mapCore_mapCore (s : State) (c : Nat) (f g : Core → Core) : (s.mapCore c f).mapCore c g = s.mapCore c fun x => g (f x) := by
  rw [State.mapCore, State.core_mapCore_self, State.mapCore, State.setCore, State.setCore, Tab.set_set]
  rfl

/-! ### Checks one after another -/

/-- The checks of two rules, one after the other. -/
theorem Finds.append {m : List (Prop × Nat × Word)} {q : Option (Nat × Word)} (hm : Finds m q) :
    ∀ {l : List (Prop × Nat × Word)} {r : Option (Nat × Word)}, Finds l r → Finds (l ++ m) (r.or q)
  | [], r, hl => by
    rw [(firstFault_nil _ _).1 hl]
    exact hm
  | e :: l, r, hl => by
    obtain ⟨fails, passes⟩ := (firstFault_cons e l _ _).1 hl
    refine (firstFault_cons e _ _ _).2 ⟨fun bad => ?_, fun good => hm.append (passes good)⟩
    rw [fails bad]
    rfl

/-! ### The checks of R230 -/

section
variable {s : State} {c : Nat} {i : Instr}

theorem shapeTval_eq (n h d : Nat) : ShapeTval n h d = shapeVal n h d := by rw [ShapeTval, shapeVal, Nat.mul_comm (2 ^ 8), Nat.mul_comm (2 ^ 12)]

/-- Step 3: a shape that is valid, of a type of the word. -/
theorem finds_typedShape {h : BitVec 4} {ets : List Nat} {l : List (Prop × Nat × Word)} {r : Option (Nat × Word)}
    (typed : ∀ et < 16, etAllowed i et = true ↔ et ∈ ets) (rest : Finds l r) : Finds (ShapeChecks s c h ets ++ l)
      (if !(ShapeOf s c h).valid then some (0x10, shapeVal 7 h.toNat 0)
        else if !etAllowed i (recEt (ShapeOf s c h).bytes) then some (0x10, shapeVal 8 h.toNat 0) else r) := by
  have type := typed (recEt (ShapeOf s c h).bytes) (Nat.mod_lt _ (by decide))
  rw [ShapeChecks, shapeTval_eq, shapeTval_eq]
  exact finds_cons (by rw [Bool.not_eq_true', Bool.not_eq_true]) (finds_cons (by rw [← type, Bool.not_eq_true', Bool.not_eq_true]) rest)

theorem mem_anyEt (any : ∀ et, etAllowed i et = true) : ∀ et < 16, etAllowed i et = true ↔ et ∈ anyEt :=
  fun et small => iff_of_true (any et) (List.mem_range.2 small)

/-- Step 4 for an image. -/
theorem finds_image {x : Word} {l : List (Prop × Nat × Word)} {r : Option (Nat × Word)} (rest : Finds l r) :
    Finds (Aligned 16 x :: l) (if x.toNat % 16 ≠ 0 then some (0x11, BitVec.ofNat 64 x.toNat) else r) := by
  rw [BitVec.ofNat_toNat, BitVec.setWidth_eq]
  exact finds_cons Iff.rfl rest

/-- Step 4 for an address that the elements of a shape lie at. -/
theorem finds_base {h : BitVec 4} {b : Word} {l : List (Prop × Nat × Word)} {r : Option (Nat × Word)} (rest : Finds l r) :
    Finds (Aligned (ElementSize s c h) b :: l)
      (if s.shapeZ c h ≠ 0 && b.toNat % s.shapeZ c h ≠ 0 then some (0x11, b) else r) := by
  have positive : decide (s.shapeZ c h ≠ 0) = true := decide_eq_true (etSize_ne_zero _)
  rw [positive, Bool.true_and]
  exact finds_cons (decide_eq_true_iff.trans Iff.rfl) rest

/-- Steps 3 and 4 for a shape, an image at `x` and a base `b`, and what follows them. -/
def imageChecks (i : Instr) (s : State) (c : Nat) (h : BitVec 4) (x : Nat) (b : Word) (r : Option (Nat × Word)) : Option (Nat × Word) :=
  if !(ShapeOf s c h).valid then some (0x10, shapeVal 7 h.toNat 0)
  else if !etAllowed i (recEt (ShapeOf s c h).bytes) then some (0x10, shapeVal 8 h.toNat 0)
  else if x % 16 ≠ 0 then some (0x11, BitVec.ofNat 64 x)
  else if s.shapeZ c h ≠ 0 && b.toNat % s.shapeZ c h ≠ 0 then some (0x11, b) else r

/-- Step 6 for an image at `x` of `n` bytes. -/
def imageRange (s : State) (c x n : Nat) : Option (Nat × Word) := (beyond (s.ctx c).scrsize x n).map fun a => (0x06, BitVec.ofNat 64 a)

theorem finds_imageChecks {h : BitVec 4} {x : Word} {ets : List Nat} {b : Word} {l : List (Prop × Nat × Word)} {r : Option (Nat × Word)}
    (typed : ∀ et < 16, etAllowed i et = true ↔ et ∈ ets) (rest : Finds l r) :
    Finds (ShapeChecks s c h ets ++ Aligned 16 x :: Aligned (ElementSize s c h) b :: l) (imageChecks i s c h x.toNat b r) :=
  finds_typedShape typed (finds_image (finds_base rest))

/-- The checks before what follows them do not depend on it. -/
theorem imageChecks_eq_or (h : BitVec 4) (x : Nat) (b : Word) (r : Option (Nat × Word)) :
    imageChecks i s c h x b r = (imageChecks i s c h x b none).or r := by
  simp only [imageChecks, apply_ite (Option.or · r), Option.some_or, Option.none_or]

/-- The checks of a word with an image. -/
theorem formCheck_image (h : BitVec 4) (x : Nat) (b : Word) (zi scrsize : Nat) :
    formCheck i { shape := some h, img := some x, zimg := zi, glob := some b, al := s.shapeZ c h } (s.core c) scrsize =
      imageChecks i s c h x b ((beyond scrsize x (ElementCount s c h * zi)).map fun a => (0x06, BitVec.ofNat 64 a)) := by
  rw [← Option.or_none (o := beyond scrsize x (ElementCount s c h * zi)), ← Option.or_none (o := (beyond scrsize x (ElementCount s c h * zi)).or none)]
  rfl

/-- Those of shape and alignment alone, as a word makes them first that has another check before the range: an image of elements without size
reaches nowhere. -/
theorem formCheck_image_before (h : BitVec 4) {x : Nat} (b : Word) (small : x ≤ 2 ^ 48) :
    formCheck i { shape := some h, img := some x, zimg := 0, glob := some b, al := s.shapeZ c h } (s.core c) (2 ^ 48) =
      imageChecks i s c h x b none := by
  have nowhere : beyond (2 ^ 48) x (ElementCount s c h * 0) = none := if_neg (by omega)
  rw [formCheck_image, nowhere]
  rfl

end

/-! ### The entry in a queue -/

section
variable {s : State} {c : Nat} {k : StrandIx} {n : Ann} {i : Instr} {rs : List Reg} {ks : List StrandIx} {f : Info}
  {body : Nat → StrandIx → State → Act}

/-- The cores of its cluster that a word with the mask `a` reaches. -/
def destinationsOf (i : Instr) (a : Word) (c : Nat) : List Nat :=
  if isMulticast i then (List.range 16).filterMap (fun j => if a.getLsbD (48 + j) then some (clusterOf c * 16 + j) else none) else []

/-- A command enters the queue of its strand where that has room. -/
theorem pushCmd_of_room (h : Option (BitVec 4)) (a b : Word) (idx x : Nat) (room : (QueueOf (s.core c) k).length < 16) :
    pushCmd i h a b idx x c k s = .go (s.mapCore c fun y => Enqueued y k
      (CommandOf s c k i h a b idx x (elementsOf i (h.map (ShapeOf s c))) (destinationsOf i a c))) .fall := by
  have open' : ¬ (if k = .l then (s.core c).lq else (s.core c).wq).length ≥ 16 := Nat.not_le.2 room
  rw [pushCmd]
  dsimp only
  rw [if_neg open']
  rfl

/-- The entry of a command changes its queue alone. -/
theorem enqueued_keeps (y : Core) (q : CpCmd) : (∀ j, (Enqueued y k q).str j = y.str j) ∧ (Enqueued y k q).nord = y.nord ∧
    (Enqueued y k q).ctx = y.ctx ∧ (Enqueued y k q).scr = y.scr := by
  rw [Enqueued]
  split <;> exact ⟨fun j => by cases j <;> rfl, rfl, rfl, rfl⟩

/-- A copy word whose rule makes its checks and then pushes its command, with an index list and destinations. -/
theorem Ready.entersQueue {h : Option (BitVec 4)} {a b : Word} {idx x m : Nat} {left : List Nat} {l : List (Prop × Nat × Word)}
    {r : Option (Nat × Word)} (hr : Ready s c k i n ks rs []) (hf : Fits f s c k i n ks rs []) (he : exec i s = issue i f body s)
    (hl : Finds l r) (hb : body c k s = checksThen r (pushCmd i h a b idx x c k) s) (hd : destinationsOf i a c = left)
    (hn : elementsOf i (h.map (ShapeOf s c)) = m := by rfl) :
    PushesBy i n s c k l (CommandOf s c k i h a b idx x m left) := by
  subst hd hn
  refine hl.firstFault (fun code v e => ?faults) (fun e room => ?enters)
  case faults => exact hr.raises hf (hb.trans (by rw [e]; rfl)) he
  case enters =>
    have goes := (hb.trans (by rw [e]; rfl)).trans (pushCmd_of_room h a b idx x room)
    exact hr.changesCore hf _ goes he (fun y => (enqueued_keeps y _).1) (fun y => (enqueued_keeps y _).2.1)
      (fun y => (enqueued_keeps y _).2.2.1) fun y => (enqueued_keeps y _).2.2.2

/-! ### The words -/

/-- A check that a rule makes before others. -/
theorem checksThen_ite (p : Prop) [Decidable p] (code : Nat) (v : Word) (r : Option (Nat × Word)) (act : State → Act) :
    checksThen (if p then some (code, v) else r) act s = if p then .fault s code v else checksThen r act s := by split <;> rfl

/-- A word that makes a check of its own between those of alignment and of range. -/
theorem checksThen_between (h : BitVec 4) (x : Nat) (b : Word) (own range : Option (Nat × Word)) (push : State → Act) :
    checksThen (imageChecks i s c h x b none) (fun _ => checksThen own (fun _ => checksThen (imageChecks i s c h x b range) push s) s) s =
      checksThen (imageChecks i s c h x b (own.or range)) push s := by
  rw [imageChecks_eq_or h x b range, imageChecks_eq_or h x b (own.or range)]
  cases imageChecks i s c h x b none with
  | some e => rfl
  | none => cases own <;> rfl

/-- A move makes the checks of its image and then pushes. -/
theorem moveBody_eq (h : BitVec 4) (sr gr : Reg) : moveBody i h sr gr c k s =
    checksThen (imageChecks i s c h (s.rd c k sr).toNat (s.rd c k gr) (imageRange s c (s.rd c k sr).toNat (ElementCount s c h * ElementSize s c h)))
      (pushCmd i (some h) (s.rd c k sr) (s.rd c k gr) 0 (s.rd c k sr).toNat c k) s := by
  rw [imageRange, ← formCheck_image]
  rfl

/-- The check of a mask that names no core. -/
def maskCheck (a : Word) : Option (Nat × Word) := if a.extractLsb' 48 16 = 0 then some (0x15, 0) else none

/-- A multicast makes the check of its mask before that of its range. -/
theorem castBody_eq (h : BitVec 4) (sr gr : Reg) {x : Nat} (place : (s.rd c k sr).toNat % 2 ^ 48 = x) : castBody i h sr gr c k s =
    checksThen (imageChecks i s c h x (s.rd c k gr) ((maskCheck (s.rd c k sr)).or (imageRange s c x (ElementCount s c h * ElementSize s c h))))
      (pushCmd i (some h) (s.rd c k sr) (s.rd c k gr) 0 x c k) s := by
  have small : x ≤ 2 ^ 48 := by omega
  rw [← checksThen_between, ← formCheck_image_before h _ small, imageRange, ← formCheck_image, castBody]
  dsimp only
  simp only [place, maskCheck, checksThen_ite]
  cases formCheck i { shape := some h, img := some x, zimg := 0, glob := some (s.rd c k gr), al := s.shapeZ c h } (s.core c) (2 ^ 48) <;> rfl

/-- The check of bits that must be zero. -/
def highCheck (a : Word) : Option (Nat × Word) := if a.extractLsb' 48 16 ≠ 0 then some (0x06, a) else none

/-- An accumulation makes the check of its high bits before that of its range. -/
theorem accBody_eq (h : BitVec 4) (sr gr : Reg) {x zi : Nat} (place : (s.rd c k sr).toNat % 2 ^ 47 = x)
    (size : (if accOp i = 7 then 16 else ElementSize s c h) = zi) : accBody i h sr gr c k s =
    checksThen (imageChecks i s c h x (s.rd c k gr) ((highCheck (s.rd c k sr)).or (imageRange s c x (ElementCount s c h * zi))))
      (pushCmd i (some h) (s.rd c k sr) (s.rd c k gr) 0 x c k) s := by
  have small : x ≤ 2 ^ 48 := by omega
  subst size
  rw [← checksThen_between, ← formCheck_image_before h _ small, imageRange, ← formCheck_image, accBody]
  dsimp only
  simp only [place, highCheck, checksThen_ite]
  cases formCheck i { shape := some h, img := some x, zimg := 0, glob := some (s.rd c k gr), al := s.shapeZ c h } (s.core c) (2 ^ 48) <;> rfl

/-- The checks of a move. -/
theorem finds_move (h : BitVec 4) (x b : Word) (any : ∀ et, etAllowed i et = true) :
    Finds (ShapeChecks s c h anyEt ++ [Aligned 16 x, Aligned (ElementSize s c h) b, InScratch s c x.toNat (ElementCount s c h * ElementSize s c h)])
      (imageChecks i s c h x.toNat b (imageRange s c x.toNat (ElementCount s c h * ElementSize s c h))) :=
  finds_imageChecks (mem_anyEt any) (finds_inScratch _ _)

/-- The checks of a word with an index list. -/
theorem finds_indexed (h : BitVec 4) (a b l : Word) (any : ∀ et, etAllowed i et = true) :
    Finds (ShapeChecks s c h anyEt ++ [Aligned 16 a, Aligned 8 l, Aligned (ElementSize s c h) b,
        InScratch s c a.toNat (ElementCount s c h * ElementSize s c h),
        InScratch s c l.toNat (8 * recW (ShapeOf s c h).bytes (recDim (ShapeOf s c h).bytes - 1))])
      (formCheck i { shape := some h, img := some a.toNat, zimg := s.shapeZ c h, idx := some l.toNat, glob := some b, al := s.shapeZ c h }
        (s.core c) (s.ctx c).scrsize) := by
  have ranges := (finds_inScratch (s := s) (c := c) l.toNat (8 * recW (ShapeOf s c h).bytes (recDim (ShapeOf s c h).bytes - 1))).append
    (finds_inScratch (s := s) (c := c) a.toNat (ElementCount s c h * ElementSize s c h))
  rw [← Option.map_or, ← Option.or_none (o := (beyond _ _ _).or _)] at ranges
  refine finds_typedShape (mem_anyEt any) (finds_image ?_)
  rw [show Aligned 8 l = (l.toNat % 8 = 0, 0x11, BitVec.ofNat 64 l.toNat) by rw [BitVec.ofNat_toNat, BitVec.setWidth_eq]; rfl]
  exact finds_cons Iff.rfl (finds_base ranges)

/-- The checks of a multicast. -/
theorem finds_cast (h : BitVec 4) (a b x : Word) (any : ∀ et, etAllowed i et = true) :
    Finds (ShapeChecks s c h anyEt ++ [Aligned 16 x, Aligned (ElementSize s c h) b, (a.extractLsb' 48 16 ≠ 0, 0x15, 0),
        InScratch s c x.toNat (ElementCount s c h * ElementSize s c h)])
      (imageChecks i s c h x.toNat b ((maskCheck a).or (imageRange s c x.toNat (ElementCount s c h * ElementSize s c h)))) := by
  have own : Finds [(a.extractLsb' 48 16 ≠ 0, 0x15, 0)] (maskCheck a) := finds_cons not_not.symm finds_nil
  exact finds_imageChecks (mem_anyEt any) ((finds_inScratch _ _).append own)

/-- The checks of an accumulation. -/
theorem finds_accumulate {ets : List Nat} (h : BitVec 4) (a b x : Word) (zi : Nat) (typed : ∀ et < 16, etAllowed i et = true ↔ et ∈ ets) :
    Finds (ShapeChecks s c h ets ++ [Aligned 16 x, Aligned (ElementSize s c h) b, (a.extractLsb' 48 16 = 0, 0x06, a),
        InScratch s c x.toNat (ElementCount s c h * zi)])
      (imageChecks i s c h x.toNat b ((highCheck a).or (imageRange s c x.toNat (ElementCount s c h * zi)))) := by
  have own : Finds [(a.extractLsb' 48 16 = 0, 0x06, a)] (highCheck a) := finds_cons Iff.rfl finds_nil
  exact finds_imageChecks typed ((finds_inScratch _ _).append own)

/-- The offset that the low bits of an operand hold. -/
theorem toNat_lowBits {m : Nat} (a : Word) (hm : m ≤ 64) : ((a.extractLsb' 0 m).setWidth 64).toNat = a.toNat % 2 ^ m := by
  rw [BitVec.toNat_setWidth, BitVec.extractLsb'_toNat, Nat.shiftRight_zero]
  exact Nat.mod_eq_of_lt ((Nat.mod_lt _ (Nat.two_pow_pos m)).trans_le (Nat.pow_le_pow_right (by decide) hm))

/-- The destinations of a mask, R235. -/
theorem destinationsOf_cast (a : Word) (cast : isMulticast i = true) :
    destinationsOf i a c = ((List.range 16).filter fun j => a.getLsbD (48 + j)).map fun j => 16 * (c / 16) + j := by
  rw [destinationsOf, if_pos cast, ← List.filterMap_eq_filter, List.map_filterMap]
  refine List.filterMap_congr fun j _ => ?_
  rw [Option.guard, apply_ite (Option.map _), clusterOf, Nat.mul_comm]
  rfl

/-! ### cptag -/

/-- The checks of a slot: its index, and that the image fits into it. -/
def slotChecks (x : Core) (a : Word) (n : Nat) : Option (Nat × Word) :=
  if a.toNat ≥ tagCount x.tagcfg then some (0x06, BitVec.ofNat 64 (tagBase x.tagcfg + a.toNat * tagSlot x.tagcfg))
  else if n > tagSlot x.tagcfg then some (0x06, BitVec.ofNat 64 (tagBase x.tagcfg + a.toNat * tagSlot x.tagcfg + tagSlot x.tagcfg)) else none

theorem finds_slot (x : Core) (a : Word) (n : Nat) :
    Finds [(a.toNat < TagCount x.tagcfg, 0x06, BitVec.ofNat 64 (TagBase x.tagcfg + a.toNat * TagSlotBytes x.tagcfg)),
        (n ≤ TagSlotBytes x.tagcfg, 0x06, BitVec.ofNat 64 (TagBase x.tagcfg + a.toNat * TagSlotBytes x.tagcfg + TagSlotBytes x.tagcfg))]
      (slotChecks x a n) := finds_cons Nat.not_lt.symm (finds_cons Nat.not_le.symm finds_nil)

/-- A word that pushes and then makes its tag entry invalid. -/
def pushThenUntag (push : State → Act) (c : Nat) (k : StrandIx) (j : Nat) (s : State) : Act := match push s with
  | .go s t => .go (s.mapCore c fun y => TagWritten y k (some j) none) t
  | r => r

/-- cptag makes the checks of its shape and base, then those of its slot. -/
theorem tagBody_eq (h : BitVec 4) (sr gr : Reg) : tagBody i h sr gr c k s =
    checksThen ((formCheck i { shape := some h, glob := some (s.rd c k gr), al := s.shapeZ c h } (s.core c) (s.ctx c).scrsize).or
        (slotChecks (s.core c) (s.rd c k sr) (ElementCount s c h * ElementSize s c h)))
      (pushThenUntag (pushCmd i (some h) (s.rd c k sr) (s.rd c k gr) 0
        (TagBase (s.core c).tagcfg + (s.rd c k sr).toNat * TagSlotBytes (s.core c).tagcfg) c k) c k (s.rd c k sr).toNat) s := by
  rw [tagBody]
  cases formCheck i { shape := some h, glob := some (s.rd c k gr), al := s.shapeZ c h } (s.core c) (s.ctx c).scrsize with
  | some e => rfl
  | none =>
    rw [Option.none_or, slotChecks, checksThen_ite, checksThen_ite]
    by_cases beyond : tagCount (s.core c).tagcfg ≤ (s.rd c k sr).toNat
    · rw [tagFault_of_le beyond, if_pos beyond]; rfl
    · rw [tagFault_of_lt (Nat.not_le.1 beyond), if_neg beyond]; rfl

/-- cptag enters its queue, and its entry is invalid from then on. -/
theorem Ready.entersQueueTagged {h : BitVec 4} {sr gr : Reg} (hr : Ready s c k i n ks rs []) (hf : Fits f s c k i n ks rs [])
    (he : exec i s = issue i f (tagBody i h sr gr) s) (any : ∀ et, etAllowed i et = true) (hd : destinationsOf i (s.rd c k sr) c = [])
    (hn : elementsOf i (some (ShapeOf s c h)) = ElementCount s c h) :
    let a := s.rd c k sr
    let b := s.rd c k gr
    let cfg := (s.core c).tagcfg
    let x := TagBase cfg + a.toNat * TagSlotBytes cfg
    FirstFault (ShapeChecks s c h anyEt ++ [Aligned (ElementSize s c h) b, (a.toNat < TagCount cfg, 0x06, BitVec.ofNat 64 x),
        (ElementCount s c h * ElementSize s c h ≤ TagSlotBytes cfg, 0x06, BitVec.ofNat 64 (x + TagSlotBytes cfg))])
      (Raises i s c k) ((QueueOf (s.core c) k).length < 16 → LeavesCore i n s c k
        (TagWritten (Enqueued (s.core c) k (CommandOf s c k i (some h) a b 0 x (ElementCount s c h) [])) k (some a.toNat) none) (s.ctx c)) := by
  intro a b cfg x
  have checks := (finds_slot (s.core c) a (ElementCount s c h * ElementSize s c h)).append (finds_fill (s := s) (c := c) h b any)
  rw [List.append_assoc] at checks
  refine checks.firstFault (fun code v e => ?faults) (fun e room => ?enters)
  case faults => exact hr.raises hf ((tagBody_eq h sr gr).trans (by rw [e]; rfl)) he
  case enters =>
    have pushed := pushCmd_of_room (i := i) (some h) a b 0 x room
    rw [hd, Option.map_some, hn] at pushed
    have goes : tagBody i h sr gr c k s = .go (s.mapCore c fun y => TagWritten (Enqueued y k
        (CommandOf s c k i (some h) a b 0 x (ElementCount s c h) [])) k (some a.toNat) none) .fall := by
      rw [tagBody_eq, e, ← State.mapCore_mapCore s c (fun y => Enqueued y k _) fun y => TagWritten y k (some a.toNat) none]
      show pushThenUntag _ c k a.toNat s = _
      rw [pushThenUntag, pushed]
    exact hr.changesCore hf _ goes he (fun y j => (by cases j <;> rfl : _ = _).trans ((enqueued_keeps y _).1 j)) (fun y => (enqueued_keeps y _).2.1)
      (fun y => (enqueued_keeps y _).2.2.1) fun y => (enqueued_keeps y _).2.2.2

end

/-! ### Accumulations -/

/-- The element types of sums and extremes, of operations on bits and exchanges, and of compare-and-swap (R236). -/
theorem numberTypes : ∀ et < 16, (decide (4 ≤ et) && decide (et ≤ 8)) = true ↔ et ∈ [4, 5, 6, 7, 8] := by decide
theorem bitTypes : ∀ et < 16, (et == 4 || et == 5 || et == 6 || et == 8 || et == 9) = true ↔ et ∈ [4, 5, 6, 8, 9] := by decide
theorem casTypes : ∀ et < 16, (et == 6 || et == 9) = true ↔ et ∈ [6, 9] := by decide

/-- An accumulation enters the W queue. -/
theorem accumulateOf {w : Ann → BitVec 4 → Reg → Reg → Bool → Instr} {ets : List Nat} {zi : Nat → Nat}
    (typed : ∀ n h sr gr ev, ∀ et < 16, etAllowed (w n h sr gr ev) et = true ↔ et ∈ ets)
    (size : ∀ n h sr gr ev z, (if accOp (w n h sr gr ev) = 7 then 16 else z) = zi z := by exact fun _ _ _ _ _ _ => rfl)
    (hi : ∀ n h sr gr ev, ForEveryStrand (w n h sr gr ev) := by exact fun _ _ _ _ _ => ⟨fun _ _ => Instr.noConfusion, rfl⟩)
    (he : ∀ n h sr gr ev s, exec (w n h sr gr ev) s = issue (w n h sr gr ev) (copyInfo n 8 [sr, gr]) (accBody (w n h sr gr ev) h sr gr) s := by
      exact fun _ _ _ _ _ _ => rfl)
    (alone : ∀ n h sr gr ev, isMulticast (w n h sr gr ev) = false := by exact fun _ _ _ _ _ => rfl)
    (elements : ∀ n h sr gr ev y, elementsOf (w n h sr gr ev) (some y) = recN y.bytes := by exact fun _ _ _ _ _ _ => rfl) :
    AccumulateOf w ets zi := by
  intro s c n h sr gr ev hr records
  have inW : ∀ k ∈ [StrandIx.w], (8 : BitVec 4).getLsbD (ixOf k) = true := by decide
  exact hr.entersQueue (fits_copy (hi ..) inW records) (he ..) (finds_accumulate h _ _ _ _ (typed n h sr gr ev))
    (accBody_eq h sr gr (toNat_lowBits _ (by decide)).symm (size ..)) (by rw [destinationsOf, alone]; rfl) (elements ..)

end Sys2Proof.Machine
end

section

open Sys2Proof Sys2Proof.Machine

/-- Settles O19: each word's checks by the `finds_` lemma of its form, its entry by `Ready.entersQueue`; cptag by `Ready.entersQueueTagged`. -/
theorem dataCommandsEnterTheirQueue : Obligations.DataCommandsEnterTheirQueue := by
  have inL : ∀ k ∈ [StrandIx.l], (2 : BitVec 4).getLsbD (ixOf k) = true := by decide
  have inW : ∀ k ∈ [StrandIx.w], (8 : BitVec 4).getLsbD (ixOf k) = true := by decide
  refine ⟨fun s c n h sr gr ev hr records => ?cpld, fun s c n h sr gr ev hr records => ?cpst, fun s c n h sr gr ev hr records => ?cpgat,
    fun s c n h sr gr ev hr records => ?cpsca, fun s c n h sr gr ev hr records => ?cpldm, fun s c n h sr gr ev hr records => ?cptag⟩
  case cpld =>
    exact hr.entersQueue (fits_copy ⟨fun _ _ => Instr.noConfusion, rfl⟩ inL records) rfl (finds_move h _ _ fun _ => rfl)
      (moveBody_eq h sr gr) rfl
  case cpst =>
    exact hr.entersQueue (fits_copy ⟨fun _ _ => Instr.noConfusion, rfl⟩ inW records) rfl (finds_move h _ _ fun _ => rfl)
      (moveBody_eq h sr gr) rfl
  case cpgat =>
    rw [← pairReg_eq] at hr ⊢
    exact hr.entersQueue (fits_copy ⟨fun _ _ => Instr.noConfusion, rfl⟩ inL records) rfl (finds_indexed h _ _ _ fun _ => rfl) rfl rfl
  case cpsca =>
    rw [← pairReg_eq] at hr ⊢
    exact hr.entersQueue (fits_copy ⟨fun _ _ => Instr.noConfusion, rfl⟩ inW records) rfl (finds_indexed h _ _ _ fun _ => rfl) rfl rfl
  case cpldm =>
    exact hr.entersQueue (fits_copy ⟨fun _ _ => Instr.noConfusion, rfl⟩ inL records) rfl (finds_cast h _ _ _ fun _ => rfl)
      (castBody_eq h sr gr (toNat_lowBits _ (by decide)).symm) (destinationsOf_cast _ rfl)
  case cptag =>
    exact hr.entersQueueTagged (fits_copy ⟨fun _ _ => Instr.noConfusion, rfl⟩ inL records) rfl (fun _ => rfl) rfl rfl

/-- Settles O20: `accumulateOf` with the element types of each operation. -/
theorem accumulationsEnterTheWQueue : Obligations.AccumulationsEnterTheWQueue :=
  ⟨accumulateOf fun _ _ _ _ _ => numberTypes, accumulateOf fun _ _ _ _ _ => numberTypes, accumulateOf fun _ _ _ _ _ => numberTypes,
    accumulateOf fun _ _ _ _ _ => bitTypes, accumulateOf fun _ _ _ _ _ => bitTypes, accumulateOf fun _ _ _ _ _ => bitTypes,
    accumulateOf fun _ _ _ _ _ => bitTypes, accumulateOf fun _ _ _ _ _ => casTypes⟩

end

section
/-!
SUPPORT. Shape registers (spec/11 R224 to R228): the checks of a record, the words that write a register, and the writes of a clock cycle.
-/

namespace Sys2Proof.Machine

/-! ### The writes of a clock cycle, R227 and R228 -/

/-- One shape write. -/
def shapeApply (t : Tab Shape) (w : ShapeWr) : Tab Shape := Tab.set {} t w.h w.val

theorem foldl_shapeApply_of_none {h : Nat} : ∀ (l : List ShapeWr) (t : Tab Shape), (∀ v ∈ l, v.h ≠ h) →
    Tab.get {} (l.foldl shapeApply t) h = Tab.get {} t h
  | [], _, _ => rfl
  | v :: l, t, other => (foldl_shapeApply_of_none l _ fun u hu => other u (List.mem_cons_of_mem v hu)).trans
      (Tab.get_set_ne _ t v.val (other v List.mem_cons_self).symm)

/-- The last write of a register stays. -/
theorem foldl_shapeApply_of_last {h : Nat} {w : ShapeWr} {p q : List ShapeWr} (t : Tab Shape) (hw : w.h = h) (last : ∀ v ∈ q, v.h ≠ h) :
    Tab.get {} ((p ++ w :: q).foldl shapeApply t) h = w.val := by
  rw [List.foldl_append, List.foldl_cons, foldl_shapeApply_of_none q _ last, ← hw]
  exact Tab.get_set_self ..

/-- The shape writes of a clock cycle in the order in which they apply. -/
def inShapeOrder (ws : List ShapeWr) : List ShapeWr := ws.filter (·.k != .w) ++ ws.filter (·.k == .w)

theorem nextCycle_sh (x : Core) : x.nextCycle.sh = (inShapeOrder x.shw).foldl shapeApply x.sh := rfl

theorem shapeWritesLandByR228 : ShapeWritesLandByR228 := by
  refine fun x h => ⟨rfl, fun others => ?unwritten, fun p w q split hw => ⟨fun own last => ?byW, fun other noneOfW last => ?byL⟩⟩
  case unwritten =>
    rw [nextCycle_sh, foldl_shapeApply_of_none]
    exact fun v hv => others v ((List.mem_append.1 hv).elim List.mem_of_mem_filter List.mem_of_mem_filter)
  case byW =>
    have order : inShapeOrder x.shw = (x.shw.filter (·.k != .w) ++ p.filter (·.k == .w)) ++ w :: q.filter (·.k == .w) := by
      rw [inShapeOrder, List.append_assoc, ← List.filter_cons_of_pos (p := fun v : ShapeWr => v.k == .w) (beq_iff_eq.2 own),
        ← List.filter_append, ← split]
    rw [nextCycle_sh, order]
    refine foldl_shapeApply_of_last _ hw fun v hv => ?_
    obtain ⟨after, mine⟩ := List.mem_filter.1 hv
    exact last v after (beq_iff_eq.1 mine)
  case byL =>
    have order : inShapeOrder x.shw = p.filter (·.k != .w) ++ w :: (q.filter (·.k != .w) ++ x.shw.filter (·.k == .w)) := by
      rw [inShapeOrder, ← List.cons_append, ← List.append_assoc, ← List.filter_cons_of_pos (p := fun v : ShapeWr => v.k != .w) (bne_iff_ne.2 other),
        ← List.filter_append, ← split]
    rw [nextCycle_sh, order]
    refine foldl_shapeApply_of_last _ hw fun v hv => (List.mem_append.1 hv).elim (fun hv => last v (List.mem_of_mem_filter hv)) fun hv => ?_
    obtain ⟨here, mine⟩ := List.mem_filter.1 hv
    exact noneOfW v here (beq_iff_eq.1 mine)

/-! ### The checks of a record, R226 -/

/-- A failing check of a shape, with its reason and its dimension. -/
def shapeFault (h : Nat) (e : Nat × Nat) : Nat × Word := (0x10, shapeVal e.1 h e.2)

/-- `r` is the reason and the dimension of the first check that fails of those of a record for register `h`. -/
def FindsReason (h : Nat) (l : List (Prop × Nat × Word)) (r : Option (Nat × Nat)) : Prop := Finds l (r.map (shapeFault h))

theorem findsReason_one {h n d : Nat} {p b : Prop} [Decidable b] (hb : b ↔ ¬ p) :
    FindsReason h [(p, 0x10, ShapeTval n h d)] (if b then some (n, d) else none) := by
  rw [FindsReason, apply_ite (Option.map _), shapeTval_eq]
  exact finds_cons hb finds_nil

theorem FindsReason.append {h : Nat} {l m : List (Prop × Nat × Word)} {r q : Option (Nat × Nat)} (hl : FindsReason h l r) (hm : FindsReason h m q) :
    FindsReason h (l ++ m) (r.or q) := by
  rw [FindsReason, Option.map_or]
  exact Finds.append hm hl

/-- One check of every dimension. -/
theorem findsReason_each {h n : Nat} {p : Nat → Prop} {test : Nat → Bool} (hb : ∀ j, test j = true ↔ ¬ p j) : ∀ js : List Nat,
    FindsReason h (js.map fun j => (p j, 0x10, ShapeTval n h j)) ((js.find? test).map fun j => (n, j))
  | [] => finds_nil
  | j :: js => by
    have here := (findsReason_one (h := h) (n := n) (d := j) (hb j)).append (findsReason_each (n := n) hb js)
    by_cases fails : test j = true
    · rw [if_pos fails] at here
      rw [List.find?_cons_of_pos fails]
      exact here
    · rw [if_neg fails, Option.none_or] at here
      rw [List.find?_cons_of_neg fails]
      exact here

/-- The checks of a record one after another. -/
theorem recCheck_eq (b : List Byte) : recCheck b =
    (((((if recEt b > 10 then some (1, 0) else none).or
      (if recDim b < 1 || recDim b > 9 then some (2, 0) else none)).or
      (if recCtl b / 512 ≠ 0 || ((List.range 9).filter (fun j => j ≥ recDim b)).any (fun j => recW b j ≠ 1 || recT b j ≠ 0 || recStr b j ≠ 0)
        then some (3, 0) else none)).or
      (((List.range (recDim b)).find? fun j => recT b j < 1).map fun j => (4, j))).or
      (if etSize (recEt b) * recN b > 2 ^ 20 then some (5, 0) else none)).or
      (((List.range (recDim b)).find? fun j => !inS64 (recStr b j * etSize (recEt b))).map fun j => (6, j)) := by
  have single (p : Prop) [Decidable p] (e : Nat × Nat) (q r : Option (Nat × Nat)) :
      (if p then some e else q).or r = if p then some e else q.or r := by split <;> rfl
  rw [recCheck]
  simp only [single, Option.none_or]
  cases (List.range (recDim b)).find? fun j => recT b j < 1 with
  | some j => rfl
  | none =>
    rw [Option.map_none, Option.none_or, single, Option.none_or]
    cases (List.range (recDim b)).find? fun j => !inS64 (recStr b j * etSize (recEt b)) <;> rfl

theorem inS64_iff (x : Int) : inS64 x = true ↔ -(2 ^ 63) ≤ x ∧ x < 2 ^ 63 := by
  rw [inS64, Bool.and_eq_true, decide_eq_true_iff, decide_eq_true_iff]

theorem finds_recordChecks (b : List Byte) (h : Nat) : FindsReason h (RecordChecks b h) (recCheck b) := by
  have unused : (recCtl b / 512 ≠ 0 || ((List.range 9).filter (fun j => j ≥ recDim b)).any (fun j => recW b j ≠ 1 || recT b j ≠ 0 || recStr b j ≠ 0)) = true ↔
      ¬ (recCtl b < 2 ^ 9 ∧ ∀ j, recDim b ≤ j → j < 9 → recW b j = 1 ∧ recT b j = 0 ∧ recStr b j = 0) := by
    simp only [Bool.or_eq_true, decide_eq_true_iff, List.any_eq_true, List.mem_filter, List.mem_range]
    rw [not_and_or, not_forall]
    refine or_congr (by omega) (exists_congr fun j => ?_)
    rw [Classical.not_imp, Classical.not_imp]
    omega
  have dims : (decide (recDim b < 1) || decide (recDim b > 9)) = true ↔ ¬ (1 ≤ recDim b ∧ recDim b ≤ 9) := by
    rw [Bool.or_eq_true, decide_eq_true_iff, decide_eq_true_iff]; omega
  rw [recCheck_eq]
  exact (((((findsReason_one (by omega)).append (findsReason_one dims)).append (findsReason_one unused)).append
    (findsReason_each (fun j => by rw [decide_eq_true_iff]; omega) _)).append (findsReason_one (by omega))).append
    (findsReason_each (fun j => by rw [Bool.not_eq_true', ← Bool.not_eq_true, inS64_iff]) _)

/-! ### The words -/

section
variable {s : State} {c : Nat} {k : StrandIx} {n : Ann} {i : Instr} {rs : List Reg}

theorem fits_shape (hi : ForEveryStrand i) : Fits (shapeInfo n rs) s c k i n [.l, .w] rs [] where
  assigned := hi.assigned
  y := rfl
  t := rfl
  who h := (by decide : ∀ k ∈ [StrandIx.l, .w], (10 : BitVec 4).getLsbD (ixOf k) = true) k h
  sys _ := hi.unrestricted
  reads := rfl
  dst := rfl
  il h := Bool.noConfusion h
  gm h := Bool.noConfusion h
  recs h := Bool.noConfusion h
  room := .inl ⟨rfl, rfl⟩
  nh h := Bool.noConfusion h
  oh h := Bool.noConfusion h
  feat e he := by cases he
  late := rfl

/-- A ready word whose rule writes a shape register. -/
theorem Ready.writesShape {body : Nat → StrandIx → State → Act} {h : BitVec 4} {y : Shape} (hr : Ready s c k i n [.l, .w] rs [])
    (hf : Fits (shapeInfo n rs) s c k i n [.l, .w] rs []) (he : exec i s = issue i (shapeInfo n rs) body s)
    (hb : body c k s = .go (s.mapCore c (shapeWrite · k h y)) .fall) : LeavesCore i n s c k (ShapeSet (s.core c) k h y) (s.ctx c) :=
  hr.changesCore hf (ShapeSet · k h y) hb he (fun x j => by cases j <;> rfl) (fun _ => rfl) (fun _ => rfl) fun _ => rfl

/-- The checks of a word that sets an origin. -/
def originChecks (y : Shape) (h d : BitVec 4) (o : Int) : Option (Nat × Word) :=
  if !y.valid then some (0x10, shapeVal 7 h.toNat 0)
  else if d.toNat ≥ recDim y.bytes then some (0x10, shapeVal 9 h.toNat d.toNat)
  else if !inS64 o then some (0x13, d.setWidth 64) else none

theorem finds_originChecks (y : Shape) (h d : BitVec 4) (o : Int) :
    Finds [(y.valid = true, 0x10, ShapeTval 7 h.toNat 0), (d.toNat < recDim y.bytes, 0x10, ShapeTval 9 h.toNat d.toNat),
      (-(2 ^ 63) ≤ o ∧ o < 2 ^ 63, 0x13, d.setWidth 64)] (originChecks y h d o) := by
  rw [shapeTval_eq, shapeTval_eq]
  exact finds_cons (by rw [Bool.not_eq_true', Bool.not_eq_true]) (finds_cons Nat.not_lt.symm
    (finds_cons (by rw [Bool.not_eq_true', ← Bool.not_eq_true, inS64_iff]) finds_nil))

/-- The origin of a dimension is set where the checks pass. -/
theorem originBody_eq (h d : BitVec 4) (f : Int → Int) : originBody h d f c k s =
    checksThen (originChecks (ShapeOf s c h) h d (f ((ShapeOf s c h).org.getD d.toNat 0))) (fun s => .go (s.mapCore c (shapeWrite · k h
      { ShapeOf s c h with org := setAt (ShapeOf s c h).org d.toNat (f ((ShapeOf s c h).org.getD d.toNat 0)) })) .fall) s := by
  rw [originBody, originChecks, checksThen_ite, checksThen_ite, checksThen_ite]
  rfl

/-- cporg and cpstep set the origin of their dimension, and no other. -/
theorem Ready.movesOrigin {h d : BitVec 4} {f : Int → Int} {body : Nat → StrandIx → State → Act} (hr : Ready s c k i n [.l, .w] rs [])
    (hi : ForEveryStrand i) (he : exec i s = issue i (shapeInfo n rs) body s) (hb : body c k s = originBody h d f c k s) :
    MovesOrigin i n s c k h d (f ((ShapeOf s c h).org.getD d.toNat 0)) := by
  refine (finds_originChecks _ h d _).firstFault (fun code v e => ?faults) fun e =>
    ⟨setAt (ShapeOf s c h).org d.toNat (f ((ShapeOf s c h).org.getD d.toNat 0)), ?len, ?others, ?here, ?leaves⟩
  case faults => exact hr.raises (fits_shape hi) (hb.trans (by rw [originBody_eq, e]; rfl)) he
  case leaves => exact hr.writesShape (fits_shape hi) he (hb.trans (by rw [originBody_eq, e]; rfl))
  all_goals rw [setAt_eq_set]
  case len => exact List.length_set
  case others => exact fun e other => List.getElem?_set_ne other.symm
  case here => exact fun inside => List.getElem?_set_self inside

/-! ### cpshape -/

/-- The register that a record of bytes `b` and a fill value load. -/
def shapeLoaded (b : List Byte) (fill : Word) : Shape := { bytes := b, fill := fill, org := List.replicate 9 0, valid := true }

/-- What cpshape does in a state in which its record at `x` has been sampled. -/
def loadShape (h : BitVec 4) (x : Nat) (gr : Reg) (c : Nat) (k : StrandIx) (s : State) : Act :=
  checksThen ((recCheck ((s.core c).scrRead k x 128)).map (shapeFault h.toNat))
    (fun s => .go (s.mapCore c (shapeWrite · k h (shapeLoaded ((s.core c).scrRead k x 128) (s.rd c k gr)))) .fall) s

section
variable {h : BitVec 4} {sr gr : Reg}

theorem shapeBody_of_misaligned (odd : (s.rd c k sr).toNat % 16 ≠ 0) : shapeBody h sr gr c k s = .fault s 0x11 (s.rd c k sr) := if_pos odd

theorem shapeBody_of_beyond (aligned : (s.rd c k sr).toNat % 16 = 0) (outside : (s.ctx c).scrsize < (s.rd c k sr).toNat + 128) :
    shapeBody h sr gr c k s = .fault s 0x06 (BitVec.ofNat 64 (max (s.rd c k sr).toNat (s.ctx c).scrsize)) :=
  (if_neg (not_not.2 aligned)).trans (if_pos outside)

variable (aligned : (s.rd c k sr).toNat % 16 = 0) (inside : (s.rd c k sr).toNat + 128 ≤ (s.ctx c).scrsize)
include aligned inside

theorem shapeBody_of_hole {g : Nat} (hole : s.readCheck c k (s.rd c k sr).toNat 128 = .error g) :
    shapeBody h sr gr c k s = .fault s 0x05 (BitVec.ofNat 64 g) := by
  rw [shapeBody, if_neg (not_not.2 aligned), if_neg (Nat.not_lt.2 inside), hole]

theorem shapeBody_of_sampled {t : State} (sampled : s.readCheck c k (s.rd c k sr).toNat 128 = .ok t) :
    shapeBody h sr gr c k s = loadShape h (s.rd c k sr).toNat gr c k t := by
  rw [shapeBody, if_neg (not_not.2 aligned), if_neg (Nat.not_lt.2 inside), sampled, loadShape]
  dsimp only
  cases recCheck ((t.core c).scrRead k (s.rd c k sr).toNat 128) <;> rfl

end

theorem Looked.rd {s t : State} (h : Looked s t) (c : Nat) (k : StrandIx) (r : Reg) : t.rd c k r = s.rd c k r := by rw [State.rd, h.str]; rfl

/-- A word that loads a shape register after its warnings have been posted in `w`. -/
theorem Ready.writesShapeWarned {h : BitVec 4} {y : Shape} {body : Nat → StrandIx → State → Act} {w : State} (hr : Ready s c k i n [.l, .w] rs [])
    (hi : ForEveryStrand i) (he : exec i s = issue i (shapeInfo n rs) body s) (hb : body c k s = .go (w.mapCore c (shapeWrite · k h y)) .fall)
    (hw : Looked s w) : ∃ t, exec i s = .next (endTurn t c) ∧ Issued s t c k i n (s.core c).took ∧ KeepsRegs s t c k [] ∧ t.mem = s.mem ∧
      (t.core c).shw = (s.core c).shw ++ [⟨k, h.toNat, y⟩] ∧ t.dies = w.dies := by
  have self : (w.mapCore c (shapeWrite · k h y)).core c = ShapeSet (s.core c) k h y := by rw [State.core_mapCore_self, hw.core]; rfl
  have strand : (w.mapCore c (shapeWrite · k h y)).str c k = s.str c k := by rw [State.str, self]; cases k <;> rfl
  obtain ⟨t, ht, fell, mem, -⟩ := hr.falls (fits_shape hi) hb he ⟨by rw [strand], by rw [self]; rfl⟩
  refine ⟨t, ht, ?_, fun r _ => ?_, mem.trans hw.mem, ?_, fell.pkg.dies⟩
  · have issued := fell.issued
    rw [self] at issued
    exact issued
  · rw [State.rd, fell.strand.rd, strand]; rfl
  · rw [fell.units.shapeWrites, self]; rfl

end
end Sys2Proof.Machine
end

section

open Sys2Proof Sys2Proof.Machine

/-- Settles O18: the writes of a clock cycle by `shapeWritesLandByR228`, cporg and cpstep by `Ready.movesOrigin`, cpshape by what it samples and by
`finds_recordChecks`. -/
theorem shapeWordsFollowR226AndR227 : Obligations.ShapeWordsFollowR226AndR227 := by
  refine ⟨shapeWritesLandByR228, fun s c k n h => ⟨fun sr gr hr => ?_, fun gr d => ⟨fun hr => ?cporg, fun hr => ?cpstep⟩⟩⟩
  case cporg => exact hr.movesOrigin (f := fun _ => (s.rd c k gr).toInt) ⟨fun _ _ => Instr.noConfusion, rfl⟩ rfl rfl
  case cpstep => exact hr.movesOrigin (f := fun o => o + (s.rd c k gr).toInt) ⟨fun _ _ => Instr.noConfusion, rfl⟩ rfl rfl
  have hi : ForEveryStrand (.cpshape n h sr gr) := ⟨fun _ _ => Instr.noConfusion, rfl⟩
  have bytes := sampledBytes_scrRead (s.core c) k (s.rd c k sr).toNat 128
  have checks := finds_recordChecks ((s.core c).scrRead k (s.rd c k sr).toNat 128) h.toNat
  refine ⟨fun odd => ?misaligned, fun aligned outside => ?beyond, fun aligned inside => ⟨fun g rest hu hm => ?hole, fun hm => ⟨_, bytes, ?silent⟩,
    fun hu hm => ⟨_, bytes, fun pass => ?warns⟩⟩⟩
  case misaligned => exact hr.raises (fits_shape hi) (shapeBody_of_misaligned odd) rfl
  case beyond =>
    have first : (if (s.rd c k sr).toNat < (s.ctx c).scrsize then (s.ctx c).scrsize else (s.rd c k sr).toNat) =
      max (s.rd c k sr).toNat (s.ctx c).scrsize := by split <;> omega
    rw [InScratch, first]
    exact hr.raises (fits_shape hi) (shapeBody_of_beyond aligned outside) rfl
  case hole => exact hr.raises (fits_shape hi) (shapeBody_of_hole aligned inside (readCheck_of_faulting hu hm)) rfl
  case silent =>
    have sampled := shapeBody_of_sampled (h := h) (gr := gr) aligned inside (readCheck_of_silent hm)
    refine checks.firstFault (fun code v e => ?_) fun e => ?_
    · exact hr.raises (fits_shape hi) (sampled.trans (by rw [loadShape, e]; rfl)) rfl
    · exact hr.writesShape (fits_shape hi) rfl (sampled.trans (by rw [loadShape, e]; rfl))
  case warns =>
    have looked := Looked.warn s c k ((s.core c).unwritten (s.rd c k sr).toNat 128)
    have sampled := shapeBody_of_sampled (h := h) (gr := gr) aligned inside (readCheck_of_warning hu hm)
    have good := checks.2 pass
    obtain ⟨t, ht, issued, regs, mem, writes, dies⟩ := hr.writesShapeWarned hi rfl (sampled.trans (by rw [loadShape, looked.core, good]; rfl)) looked
    refine ⟨t, ht, issued, regs, mem, ?_, postsWarnings_warn _ dies⟩
    rw [writes, looked.core, looked.rd]
    rfl

end

section
/-!
SUPPORT. Futures at their home ports (spec/11 R239, spec/17 R353 to R355): abandonment as an action, cpres and cpreg as requests; and the elements of
accumulations (spec/11 R236, R237, R300, R301).
-/

namespace Sys2Proof.Machine

/-! ### Actions in their turn -/

/-- Two states with the same actions waiting. -/
structure SameActs (s t : State) : Prop where
  acts : t.acts = s.acts
  nact : t.nact = s.nact

theorem SameActs.refl (s : State) : SameActs s s := ⟨rfl, rfl⟩
theorem SameActs.trans {s t u : State} (a : SameActs s t) (b : SameActs t u) : SameActs s u := ⟨b.acts.trans a.acts, b.nact.trans a.nact⟩

theorem SameActs.foldl {α : Type} (f : State → α → State) (h : ∀ s a, SameActs s (f s a)) : ∀ (l : List α) (s : State), SameActs s (l.foldl f s)
  | [], s => .refl s
  | a :: l, s => (h s a).trans (SameActs.foldl f h l (f s a))

theorem Looked.sameActs {s t : State} (h : Looked s t) : SameActs s t := by rw [h.rest]; exact ⟨rfl, rfl⟩

theorem SameActs.hitOne (wr : Writer) (ix : List Nat) (s : State) (a : Armed) : SameActs s (hitOne wr ix s a) := by
  rw [Machine.hitOne]
  split
  · exact .refl s
  · rw [State.mapTask]
    split <;> exact ⟨rfl, rfl⟩

theorem SameActs.portWrite (s : State) (wr : Writer) (pa : Nat) (bs : List (Option Byte)) : SameActs s (s.portWrite wr pa bs) := by
  rw [State.portWrite]
  dsimp only
  split
  · exact .refl s
  split
  · exact ⟨rfl, rfl⟩
  · refine SameActs.trans ?_ (.foldl _ (SameActs.hitOne wr _) _ _)
    split <;> exact ⟨rfl, rfl⟩

section
variable {s t : State} {i : Nat} {p : Pending}

/-- An action whose turn it is is applied. -/
theorem ActTurn.tries (h : ActTurn s i p) : tryAct i s = match applyAct s p p.pa with
    | (s, .done l) =>
      let s := s.leaveWalks (fun y => y.c ≥ 4096 && y.u == unitAct p.id)
      ({ s with acts := s.acts.take i ++ numberActs s.nact p.grp l ++ s.acts.drop (i + 1), nact := s.nact + l.length }, true)
    | (s, .wait pa) => ({ s with acts := s.acts.set i { p with pa := pa } }, false) := by
  obtain ⟨here, alone, performed⟩ := h
  have first : (s.acts.take i).any (fun q => q.grp == p.grp) = false := List.any_eq_false.2 fun q hq => by rw [beq_iff_eq]; exact alone q hq
  rw [tryAct, here]
  dsimp only
  rw [first, performed]
  rfl

theorem ActTurn.done {l : List TaskAct} (h : ActTurn s i p) (applied : applyAct s p p.pa = (t, .done l)) (same : SameActs s t) :
    ActDone i s p t l := by
  rw [ActDone, h.tries, applied, ← same.acts, ← same.nact]
  rfl

theorem ActTurn.waits {pa : Option Nat} (h : ActTurn s i p) (applied : applyAct s p p.pa = (t, .wait pa)) (same : SameActs s t) :
    tryAct i s = ({ t with acts := s.acts.set i { p with pa := pa } }, false) := by
  rw [h.tries, applied, ← same.acts]

/-- An action that makes one access, and does there what keeps those that wait. -/
theorem ActTurn.accesses {d vf n : Nat} {va : Word} {kind : AccKind} {f : State → Nat → State × List TaskAct} {no : List TaskAct}
    {done : State → Nat → Prop} (h : ActTurn s i p) (applied : applyAct s p p.pa = actAt s d p.id vf va kind n p.pa f no)
    (same : ∀ t pa, SameActs t (f t pa).1) (does : ∀ t pa, ActDone i s p (f t pa).1 (f t pa).2 → done t pa) :
    ActAccess i s p d vf va kind n no done := by
  intro t r access
  have looked : SameActs s t := by
    have := (Looked.portAcc s d (unitAct p.id) vf va kind n p.pa).sameActs
    rwa [access] at this
  rw [actAt, access] at applied
  refine ⟨fun e => ?_, fun pa e => ?_, fun fw r e => ?_, fun pa e => ?_⟩
  all_goals subst e
  · exact h.waits applied looked
  · exact h.waits applied looked
  · exact h.done applied looked
  · refine does _ pa (h.done applied ((looked.trans ?_).trans (same _ pa)))
    split
    · exact (Looked.noteRead t pa n).sameActs
    · exact .refl t

end

/-! ### Words at ports -/

theorem leBytes_eq_map (n x : Nat) : leBytes n x = (List.range n).map fun b => BitVec.ofNat 8 (x / 256 ^ b) :=
  List.ext_getElem (by rw [length_leBytes, List.length_map, List.length_range]) fun j hj _ => by
    rw [getElem_leBytes, List.getElem_map, List.getElem_range]

theorem wordBytes_eq (v : Word) : WordBytes v = portBytes 8 v.toNat := by
  rw [WordBytes, portBytes, leBytes_eq_map, List.map_map]
  refine List.map_congr_left fun b _ => congrArg some (BitVec.eq_of_toNat_eq ?_)
  rw [BitVec.extractLsb'_toNat, Nat.shiftRight_eq_div_pow, Nat.pow_mul]
  exact (BitVec.toNat_ofNat ..).symm

theorem wordAt_eq_port (s : State) (pa : Nat) : WordAt s pa = s.wordAtPort pa := by rw [WordAt, numberOf_eq_leNat]; rfl

theorem portPuts_eq (s : State) (wr : Writer) (pa : Nat) (v : Word) : PortPuts s wr pa v = s.portWrite wr pa (portBytes 8 v.toNat) := by
  rw [PortPuts, wordBytes_eq]

theorem portPutsPair_eq (s : State) (wr : Writer) (pa : Nat) (v w : Word) :
    PortPutsPair s wr pa v w = s.portWrite wr pa (portBytes 8 v.toNat ++ portBytes 8 w.toNat) := by
  rw [PortPutsPair, wordBytes_eq, wordBytes_eq]

/-! ### Abandonment, R354 -/

theorem SameActs.faultFuture (s : State) (wr : Writer) (vf pa : Nat) : SameActs s (faultFuture s wr vf pa).1 := by
  rw [Machine.faultFuture]
  split
  · dsimp only; exact .portWrite s ..
  · dsimp only; exact .portWrite s ..
  · exact .refl s

/-- The abandonment of a future by its state. -/
theorem faultFuture_eq (s : State) (wr : Writer) (vf pa : Nat) :
    (((WordAt s pa).extractLsb' 62 2).toNat = 0 → faultFuture s wr vf pa = (PortPuts s wr pa (3 <<< 62), [])) ∧
    (((WordAt s pa).extractLsb' 62 2).toNat = 1 → faultFuture s wr vf pa =
      (PortPuts s wr pa (3 <<< 62), [.tell (farDie pa) vf (((WordAt s pa).extractLsb' 0 53).setWidth 64) true none])) ∧
    (2 ≤ ((WordAt s pa).extractLsb' 62 2).toNat → faultFuture s wr vf pa = (s, [])) := by
  rw [wordAt_eq_port, portPuts_eq, Machine.faultFuture]
  refine ⟨fun e => ?_, fun e => ?_, fun e => ?_⟩
  · rw [e]; rfl
  · rw [e]; rfl
  · obtain e | e : ((s.wordAtPort pa).extractLsb' 62 2).toNat = 2 ∨ ((s.wordAtPort pa).extractLsb' 62 2).toNat = 3 := by
      have := ((s.wordAtPort pa).extractLsb' 62 2).isLt
      omega
    all_goals rw [e]; rfl

theorem futureFaultsDo : FutureFaultsDo := by
  intro s i p d vf va h act
  refine h.accesses (f := fun s pa => faultFuture s (portWriter d vf p.grp) vf pa) (by rw [applyAct, act]) (fun t pa => .faultFuture t ..) fun t pa done => ?_
  obtain ⟨empty, waited, closed⟩ := faultFuture_eq t (portWriter d vf p.grp) vf pa
  refine ⟨fun e => ?_, fun e => ?_, fun e => ?_⟩
  · rwa [empty e] at done
  · rwa [waited e] at done
  · rwa [closed e] at done

/-! ### Requests of a core, R239, R300, R301 -/

section
variable {s : State} {c : Nat} {r : AccReq}

/-- The home port of a request takes its bytes. -/
def PortTakes (s : State) (r : AccReq) : Prop := match homeOf r.pa with
  | .aper d o => s.aperOk r.vf d o r.bytes = true
  | _ => s.poisoned r.pa r.bytes = false

/-- The reason of a refusal there. -/
def refusalReason (r : AccReq) : Nat := match homeOf r.pa with
  | .aper _ _ => 9
  | _ => 8

theorem portRefuses_of_takes (h : PortTakes s r) : portRefuses s r = none := by
  rw [PortTakes] at h
  rw [portRefuses]
  cases e : homeOf r.pa with
  | aper d o => rw [e] at h; exact if_pos h
  | hbm _ | sdm _ | host _ | none => rw [e] at h; exact if_neg (Bool.eq_false_iff.1 h)

theorem portRefuses_of_not_takes (h : ¬ PortTakes s r) : portRefuses s r = some (refusalReason r) := by
  rw [PortTakes] at h
  rw [portRefuses, refusalReason]
  cases e : homeOf r.pa with
  | aper d o => rw [e] at h; exact if_neg h
  | hbm _ | sdm _ | host _ | none => rw [e] at h; exact if_pos (Bool.eq_true_of_not_eq_false h)

/-- A refusal is logged and stays with the command. -/
theorem applyAcc_of_refused (h : ¬ PortTakes (s.noteRead r.pa r.bytes) r) : applyAcc s c r =
    ((s.noteRead r.pa r.bytes).logAf (dieOf c) r.vf ⟨r.va, c, .rmw, refusalReason r⟩).mapCmd c r.ord
      fun p => { p with port := p.port.or (some (0x14, r.va)) } := by
  rw [applyAcc]
  dsimp only
  rw [portRefuses_of_not_takes h]
  rfl

/-- What a future's port leaves of a request: an error code stays with the command. -/
def futureLeaves (c : Nat) (r : AccReq) (p : State × Option Nat) : State := match p.2 with
  | some code => portBad p.1 c r.ord code r.va
  | none => p.1

theorem applyAcc_of_cpres (h : PortTakes (s.noteRead r.pa r.bytes) r) {n : Ann} {sr gr : Reg} {ev : Bool} (img : r.img = .cpres n sr gr ev) :
    applyAcc s c r = futureLeaves c r (futureApply (s.noteRead r.pa r.bytes) c r.vf r.pa false (bytesWord r.arg)) := by
  rw [applyAcc]
  dsimp only
  rw [portRefuses_of_takes h, img]
  dsimp only
  rw [futureLeaves]
  split <;> rename_i e <;> rw [e]

theorem applyAcc_of_cpreg (h : PortTakes (s.noteRead r.pa r.bytes) r) {n : Ann} {sr gr : Reg} {ev : Bool} (img : r.img = .cpreg n sr gr ev) :
    applyAcc s c r = futureLeaves c r (futureApply (s.noteRead r.pa r.bytes) c r.vf r.pa true (bytesWord r.arg)) := by
  rw [applyAcc]
  dsimp only
  rw [portRefuses_of_takes h, img]
  dsimp only
  rw [futureLeaves]
  split <;> rename_i e <;> rw [e]

end

/-! ### The states of a future, R354, R355 -/

/-- The writer of a core's copy engine. -/
def engineWriter (s : State) (c vf : Nat) : Writer := { kind := 1, core := c, vf := vf, task := (s.ctx c).task }

/-- The state of the future at a place: empty, waited for, resolved or abandoned (R353). -/
def futureState (s : State) (pa : Nat) : Nat := ((WordAt s pa).extractLsb' 62 2).toNat

section
variable {s : State} {c vf pa : Nat} {arg : Word}

/-- A cpres by the state of its future. -/
theorem futureApply_cpres : let stored := PortPutsPair s (engineWriter s c vf) pa (2 <<< 62) arg
    (futureState s pa = 0 → futureApply s c vf pa false arg = (stored, none)) ∧
    (futureState s pa = 1 → futureApply s c vf pa false arg =
      (stored.taskActs [.tell (farDie pa) vf (((WordAt s pa).extractLsb' 0 53).setWidth 64) false none], none)) ∧
    (futureState s pa = 2 ∨ futureState s pa = 3 → futureApply s c vf pa false arg = (s, some 0x18)) := by
  rw [futureState, wordAt_eq_port, portPutsPair_eq, futureApply.eq_def]
  dsimp only
  refine ⟨fun e => ?empty, fun e => ?waited, fun e => e.elim (fun e => ?resolved) fun e => ?abandoned⟩
  all_goals rw [e]; rfl

/-- A cpreg whose link is not one. -/
theorem futureApply_cpreg_badLink (bad : arg.extractLsb' 53 11 ≠ 0) : futureApply s c vf pa true arg = (s, some 0x14) := by
  have no : linkOk arg = false := beq_false_of_ne bad
  rw [futureApply.eq_def, no]
  rfl

/-- A link leaves the two highest bits of a state word free. -/
theorem toNat_waitedWord (link : arg.extractLsb' 53 11 = 0) : ((1 <<< 62) ||| arg : Word).toNat = 2 ^ 62 + arg.toNat := by
  have high : arg.toNat / 2 ^ 53 % 2 ^ 11 = 0 := by
    rw [← Nat.shiftRight_eq_div_pow, ← BitVec.extractLsb'_toNat, link]
    rfl
  have small : arg.toNat < 2 ^ 62 := by have := arg.isLt; omega
  have bits := Nat.two_pow_add_eq_or_of_lt small 1
  rw [Nat.mul_one] at bits
  rw [bits, BitVec.toNat_or]
  rfl

/-- A cpreg by the state of its future. -/
theorem futureApply_cpreg (link : arg.extractLsb' 53 11 = 0) :
    (futureState s pa = 0 → futureApply s c vf pa true arg = (PortPuts s (engineWriter s c vf) pa ((1 <<< 62) ||| arg), none)) ∧
    (futureState s pa = 1 → futureApply s c vf pa true arg = (s, some 0x19)) ∧
    (futureState s pa = 2 → futureApply s c vf pa true arg = (s.taskActs [.tell (farDie pa) vf arg false none], none)) ∧
    (futureState s pa = 3 → futureApply s c vf pa true arg = (s.taskActs [.tell (farDie pa) vf arg true none], none)) := by
  have ok : linkOk arg = true := beq_iff_eq.2 link
  rw [futureState, wordAt_eq_port, portPuts_eq, toNat_waitedWord link, futureApply.eq_def, ok]
  dsimp only
  refine ⟨fun e => ?empty, fun e => ?waited, fun e => ?resolved, fun e => ?abandoned⟩
  all_goals rw [e]; rfl

end

/-! ### The elements of an accumulation, R236, R237 -/

/-- A request of an accumulation with an operation. -/
structure Accumulates (r : AccReq) (op : Nat) : Prop where
  code    : accOp r.img = op
  size    : r.bytes = etSize r.et
  other   : (∀ n sr gr ev, r.img ≠ .cpres n sr gr ev) ∧ ∀ n sr gr ev, r.img ≠ .cpreg n sr gr ev
  applies : ∀ s c, portRefuses (s.noteRead r.pa r.bytes) r = none → applyAcc s c r = applyElem (s.noteRead r.pa r.bytes) c r

theorem accumulates_of_img {r : AccReq} {n : Ann} {h : BitVec 4} {sr gr : Reg} {ev : Bool} {op : Nat}
    (img : (op = 0 ∧ r.img = .cpaccAdd n h sr gr ev) ∨ (op = 1 ∧ r.img = .cpaccMin n h sr gr ev)
      ∨ (op = 2 ∧ r.img = .cpaccMax n h sr gr ev) ∨ (op = 3 ∧ r.img = .cpaccAnd n h sr gr ev) ∨ (op = 4 ∧ r.img = .cpaccOr n h sr gr ev)
      ∨ (op = 5 ∧ r.img = .cpaccXor n h sr gr ev) ∨ (op = 6 ∧ r.img = .cpaccXchg n h sr gr ev) ∨ (op = 7 ∧ r.img = .cpaccCas n h sr gr ev)) :
    Accumulates r op := by
  obtain ⟨ord, k, i, vf, et, e, va, pa, arg, ret⟩ := r
  rcases img with ⟨rfl, rfl⟩ | ⟨rfl, rfl⟩ | ⟨rfl, rfl⟩ | ⟨rfl, rfl⟩ | ⟨rfl, rfl⟩ | ⟨rfl, rfl⟩ | ⟨rfl, rfl⟩ | ⟨rfl, rfl⟩
  all_goals exact ⟨rfl, rfl, ⟨fun _ _ _ _ => Instr.noConfusion, fun _ _ _ _ => Instr.noConfusion⟩, fun s c e => by rw [applyAcc]; dsimp only; rw [e]⟩

/-- An integer element and its bits are alike modulo its width. -/
theorem intOf_emod (et x : Nat) : IntOf et x % (2 ^ (8 * etSize et) : Nat) = (x : Int) % (2 ^ (8 * etSize et) : Nat) := by
  rw [IntOf]
  split
  · rw [BitVec.toInt_eq_toNat_bmod, BitVec.toNat_ofNat, Int.bmod_emod, Int.natCast_emod, Int.emod_emod]
  · rw [BitVec.toNat_ofNat, Int.natCast_emod, Int.emod_emod]

/-- The sum of two integer elements, wrapped. -/
theorem wrapN_add_intOf (et x y : Nat) :
    wrapN (IntOf et x + IntOf et y) (8 * etSize et) = (BitVec.ofNat (8 * etSize et) (x + y)).toNat := by
  rw [wrapN, Int.add_emod, intOf_emod, intOf_emod, ← Int.add_emod, ← Int.natCast_add, ← Int.natCast_emod, BitVec.toNat_ofNat]
  rfl

theorem wrapN_min_intOf {et x y : Nat} (hx : x < 2 ^ (8 * etSize et)) (hy : y < 2 ^ (8 * etSize et)) :
    wrapN (min (IntOf et x) (IntOf et y)) (8 * etSize et) = if IntOf et x ≤ IntOf et y then x else y := by
  rw [min_def, apply_ite (wrapN · _), wrapN_intOf hx, wrapN_intOf hy]

theorem wrapN_max_intOf {et x y : Nat} (hx : x < 2 ^ (8 * etSize et)) (hy : y < 2 ^ (8 * etSize et)) :
    wrapN (max (IntOf et x) (IntOf et y)) (8 * etSize et) = if IntOf et x ≤ IntOf et y then y else x := by
  rw [max_def, apply_ite (wrapN · _), wrapN_intOf hx, wrapN_intOf hy]

theorem numberOf_lt (l : List Byte) {z : Nat} (h : l.length ≤ z) : NumberOf l < 2 ^ (8 * z) := by
  rw [numberOf_eq_leNat, Nat.pow_mul]
  exact (leNat_lt l).trans_le (Nat.pow_le_pow_right (by decide) h)

/-- The new value of an integer element by its operation. -/
theorem accNew_int {et old : Nat} (small : et < 7) (ho : old < 2 ^ (8 * etSize et)) (arg : List Byte) : let z := etSize et
    let a := NumberOf (arg.take z)
    accNew 0 et old arg = BitVec.toNat (BitVec.ofNat (8 * z) (old + a)) ∧
    accNew 1 et old arg = (if IntOf et old ≤ IntOf et a then old else a) ∧
    accNew 2 et old arg = (if IntOf et old ≤ IntOf et a then a else old) ∧
    accNew 3 et old arg = old &&& a ∧ accNew 4 et old arg = old ||| a ∧ accNew 5 et old arg = old ^^^ a ∧ accNew 6 et old arg = a ∧
    accNew 7 et old arg = (if old = a then NumberOf ((arg.drop z).take z) else old) := by
  intro z a
  have ha : a < 2 ^ (8 * z) := numberOf_lt _ (List.length_take_le ..)
  have notFloat : ¬ et ≥ 7 := Nat.not_le.2 small
  have number : leNat (arg.take (etSize et)) = a := (numberOf_eq_leNat _).symm
  simp only [accNew, number, if_neg notFloat, etInt'_eq_intOf small ho, etInt'_eq_intOf small ha, true_and]
  exact ⟨wrapN_add_intOf .., wrapN_min_intOf ho ha, wrapN_max_intOf ho ha, by rw [numberOf_eq_leNat]⟩

/-! ### The application of an element -/

section
variable {s : State} {c : Nat} {r : AccReq} {op : Nat}

/-- The place of an element after its write: its new value `v`, and a compare-and-swap that found its operand is counted. -/
def elementWritten (s : State) (c : Nat) (r : AccReq) (op v : Nat) : State :=
  let z := etSize r.et
  let w := s.portWrite { engineWriter s c r.vf with ord := r.ord, va := r.va } r.pa ((List.range z).map fun b => some (BitVec.ofNat 8 (v / 256 ^ b)))
  if op = 7 ∧ NumberOf (s.portRead r.pa z) = NumberOf (r.arg.take z) then w.mapCmd c r.ord (fun p => { p with cas := p.cas + 1 }) else w

theorem applyElem_eq (code : accOp r.img = op) : applyElem s c r =
    returnOld (elementWritten s c r op (accNew op r.et (NumberOf (s.portRead r.pa (etSize r.et))) r.arg)) c r
      ((List.range (etSize r.et)).map fun b => BitVec.ofNat 8 (NumberOf (s.portRead r.pa (etSize r.et)) / 256 ^ b)) := by
  rw [applyElem, elementWritten, code]
  simp only [numberOf_eq_leNat, leBytes_eq_map, portBytes, List.map_map, Bool.and_eq_true, decide_eq_true_iff]
  rfl

theorem returnOld_of_none (ret : r.ret = none) (bs : List Byte) : returnOld s c r bs = s := by rw [returnOld, ret]

theorem returnOld_of_command {a : Nat} (ret : r.ret = some a) (there : ((s.core c).cmd r.ord).isSome = true) (bs : List Byte) :
    returnOld s c r bs = s.mapCmd c r.ord fun p => { p with out := p.out ++ [⟨r.e, a, bs, none, rspHome r.pa⟩] } := by
  rw [returnOld, ret]
  exact if_pos there

theorem returnOld_of_ended {a : Nat} (ret : r.ret = some a) (gone : ((s.core c).cmd r.ord).isSome = false) (bs : List Byte) :
    returnOld s c r bs = s.mapCore c fun x => x.scrWrite a bs := by
  rw [returnOld, ret]
  exact if_neg (Bool.eq_false_iff.1 gone)

theorem length_portRead_le (s : State) (pa n : Nat) : (s.portRead pa n).length ≤ n := by
  rw [State.portRead]
  split <;> rw [readBytes_eq_map, List.length_map, List.length_range]

end

/-! ### The turn of a request -/

section
variable {s : State} {rest : List Turn} {c j : Nat} {k : StrandIx} {e : Instr} {r : AccReq} {q : List AccReq}

/-- The turn of an event that the oldest request of a core is for. -/
theorem exec_request (p : Instr → Bool) (he : exec e s = turnEvent (fun c _ _ s => applyIf p c s) s) (turn : CoreTurns s c k j e rest)
    (oldest : (s.core c).acc = r :: q) (ready : accReady s c r = true) (mine : p r.img = true) :
    exec e s = .next (applyAcc ((Passed s rest).mapCore c fun x => { x with acc := q }) c r) := by
  rw [he, turnEvent_of_turns _ turn]
  have here : ((Passed s rest).core c).acc = r :: q := oldest
  have free : accReady (Passed s rest) c r = true := ready
  rw [applyIf, here]
  dsimp only
  rw [mine, free, applyOldest, here]
  rfl

/-- The writer of a request that has been taken and read. -/
theorem engineWriter_taken (vf pa n : Nat) : engineWriter (((Passed s rest).mapCore c fun x => { x with acc := q }).noteRead pa n) c vf =
    { kind := 1, core := c, vf := vf, task := (s.ctx c).task } := by
  rw [engineWriter, (Looked.noteRead _ pa n).ctx, State.ctx, State.core_mapCore_self]
  rfl

end

theorem homeDie_eq (s : State) (vf : Nat) : s.homeDie vf = ((s.diesOf (s.vf vf).part.toNat).head?).getD 0 := List.headD_eq_head?_getD

end Sys2Proof.Machine
end

section

open Sys2Proof Sys2Proof.Machine

/-- Settles O43: an abandonment by `futureFaultsDo`; a request by what its port does with it, a cpres and a cpreg by the state of their future, an
element by `applyElem_eq` and `accNew_int`. -/
theorem futuresFollowR354AndR355 : Obligations.FuturesFollowR354AndR355 := by
  refine ⟨fun s rest vf va h => ?abandon, futureFaultsDo, fun s rest c k j e turn r q oldest ready => ?requests⟩
  case abandon =>
    rw [show exec (.futureAbandon vf va) s = event (abandonFuture vf va) s from rfl, event_of_turns _ h, abandonFuture, homeDie_eq]
    rfl
  case requests =>
    intro u v arg next keptBy keeps refuses wr taken reason tells
    have writer : engineWriter u c r.vf = wr := engineWriter_taken ..
    have word : arg = bytesWord r.arg := by rw [bytesWord, ← numberOf_eq_leNat]
    have takes {n : Nat} (size : r.bytes = n) : taken n ↔ PortTakes u r := by subst size; exact Iff.rfl
    refine ⟨?cpres, ?cpreg, ?accumulate⟩
    case cpres =>
      rintro rfl n sr gr ev img
      have turned := exec_request _ rfl turn oldest ready (by rw [img])
      rw [takes (by rw [AccReq.bytes, img])]
      refine ⟨fun no => turned.trans (congrArg _ (applyAcc_of_refused no)), fun yes => ?_⟩
      have applied := turned.trans (congrArg _ (applyAcc_of_cpres yes img))
      obtain ⟨empty, waited, closed⟩ := futureApply_cpres (s := u) (c := c) (vf := r.vf) (pa := r.pa) (arg := arg)
      rw [writer] at empty waited
      rw [← word] at applied
      exact ⟨fun e => applied.trans (by rw [empty e]; rfl), fun e => applied.trans (by rw [waited e]; rfl),
        fun e => applied.trans (by rw [closed e]; rfl)⟩
    case cpreg =>
      rintro rfl n sr gr ev img
      have turned := exec_request _ rfl turn oldest ready (by rw [img])
      rw [takes (by rw [AccReq.bytes, img])]
      refine ⟨fun no => turned.trans (congrArg _ (applyAcc_of_refused no)), fun yes bad => ?badLink, fun yes link => ?link⟩
      all_goals
        have applied := turned.trans (congrArg _ (applyAcc_of_cpreg yes img))
        rw [← word] at applied
      case badLink => exact applied.trans (by rw [futureApply_cpreg_badLink bad]; rfl)
      obtain ⟨empty, waited, resolved, abandoned⟩ := futureApply_cpreg (s := u) (c := c) (vf := r.vf) (pa := r.pa) link
      rw [writer] at empty
      exact ⟨fun e => applied.trans (by rw [empty e]; rfl), fun e => applied.trans (by rw [waited e]; rfl),
        fun e => applied.trans (by rw [resolved e]; rfl), fun e => applied.trans (by rw [abandoned e]; rfl)⟩
    case accumulate =>
      intro he n h sr gr ev op img z old arg
      subst he
      obtain ⟨code, size, ⟨notCpres, notCpreg⟩, applies⟩ := accumulates_of_img img
      have turned := exec_request _ rfl turn oldest ready (by
        split
        · exact absurd ‹_› (notCpres _ _ _ _)
        · exact absurd ‹_› (notCpreg _ _ _ _)
        · rfl)
      rw [takes size]
      refine ⟨fun no => turned.trans (congrArg _ (applyAcc_of_refused no)),
        fun yes => ⟨accNew op r.et old r.arg, fun _ => rfl, fun small => ?values, ?write⟩⟩
      case values =>
        obtain ⟨add, min, max, and, or, xor, xchg, cas⟩ := accNew_int small (numberOf_lt (u.portRead r.pa z) (length_portRead_le u r.pa z)) r.arg
        exact ⟨fun e => e ▸ add, fun e => e ▸ min, fun e => e ▸ max, fun e => e ▸ and, fun e => e ▸ or, fun e => e ▸ xor, fun e => e ▸ xchg,
          fun e => e ▸ cas⟩
      case write =>
        intro w w' back
        have written : elementWritten u c r op (accNew op r.et old r.arg) = w' := by rw [elementWritten, writer]
        have applied : next (returnOld w' c r back) := turned.trans (congrArg _ ((applies _ c (portRefuses_of_takes yes)).trans
          ((applyElem_eq code).trans (by rw [← written]))))
        refine ⟨fun ret => ?_, fun a ret => ⟨fun there => ?_, fun gone => ?_⟩⟩
        · rwa [returnOld_of_none ret] at applied
        · rwa [returnOld_of_command ret there] at applied
        · rwa [returnOld_of_ended ret gone] at applied

end
